-- ==== Sys2Proof/Word.lean ====
section
/-! DEFINITION. The words of the device: bytes, CSR words, Anvil vector registers, and the bit fields of a word. -/

namespace Sys2Proof

/-- A byte of a store or of HBM. -/
abbrev Byte := BitVec 8

/-- A CSR word, an s, g or k register (R13, R95, R98). -/
abbrev Word := BitVec 64

/-- A v register: 32 lanes of 32 bits, one row of a store (R95, R96). -/
abbrev Row := BitVec 1024

/-- The ten arithmetic flags of an Anvil or of a command's flag word, in the bit order of `ANVIL.AFLAGS` (R91). -/
abbrev Flags := BitVec 10

end Sys2Proof
end

