-- ==== Sys2Proof/Machine/Flags.lean ====
section
/-! DEFINITION. The ten arithmetic flags (R75–R78, R86, R90–R93, R166): their places in `ANVIL.AFLAGS` and in a flag word. What
raises each is computed where its operation is: Arith and Float for conversions and FP32, Accum for the banks. -/

namespace Sys2Proof.Machine

/-- Bit `i` of a flag word. -/
def flag (i : Nat) : Flags := BitVec.ofNat 10 (2 ^ i)
/-- INEXACT of a bank (R65). -/
def fAccNx : Flags := flag 0
/-- OVERFLOW of a bank (R65). -/
def fAccOvf : Flags := flag 1
/-- SPECIAL of a bank (R65). -/
def fAccSpecial : Flags := flag 2
/-- A conversion overflowed (R77). -/
def fCvtOvf : Flags := flag 3
/-- A conversion was tiny and inexact (R75). -/
def fCvtUfl : Flags := flag 4
/-- A conversion was inexact (R75). -/
def fCvtNx : Flags := flag 5
/-- A NaN operand (R61, R166). -/
def fNanIn : Flags := flag 6
/-- An invalid operation (R64, R78, R90, R166). -/
def fInvalid : Flags := flag 7
/-- Integer saturation (R86). -/
def fIntSat : Flags := flag 8
/-- A block scale of 0xFF (R61). -/
def fScaleNan : Flags := flag 9
/-- The flag when the condition holds. -/
def flagIf (b : Bool) (f : Flags) : Flags := if b then f else 0

end Sys2Proof.Machine
end

