-- ==== Sys2Proof/Machine/Arith.lean ====
section
/-! DEFINITION. Number formats and exact arithmetic (02_arithmetic): element encodings, dyadic values, the rounding
modes, conversion with its flags, the FP32 operations and the correctly rounded functions. -/

namespace Sys2Proof.Machine

/-! ### Exact values -/

/-- A value an element or a cell can hold: NaN, an infinity, or the exact number `(−1)^neg · m · 2^e`. -/
inductive FVal where
  | nan
  | inf (neg : Bool)
  | fin (neg : Bool) (m : Nat) (e : Int)
deriving DecidableEq, Repr

/-- Rounding modes of R74. Stochastic rounding carries its 24-bit draw. -/
inductive Mode where
  | rne
  | rtz
  | sr (u : Nat)
deriving DecidableEq, Repr

/-- The integer `⌊log2 m⌋`, `m` not 0. -/
def ilog2 (m : Nat) : Int := (Nat.log2 m : Int)

/-- `m · 2^e` as a count of units of `2^q`, rounded by `mode`; true when a bit was lost. `sticky` says that the
exact value lies strictly above `m · 2^e` by less than one unit of its last place. -/
def roundMag (mode : Mode) (m : Nat) (e q : Int) (sticky : Bool) : Nat × Bool :=
  let sh := q - e
  if sh ≤ 0 then
    (m * 2 ^ (-sh).toNat, sticky)   -- no bit below the unit but the sticky one
  else
    let k := sh.toNat
    let t := m / 2 ^ k
    let r := m % 2 ^ k
    let half := 2 ^ (k - 1)
    let nx := r != 0 || sticky
    let up : Bool := match mode with
      | .rtz => false
      | .rne => if r > half || (r == half && sticky) then true else r == half && t % 2 == 1
      | .sr u => decide (u < (if 24 ≤ k then r / 2 ^ (k - 24) else r * 2 ^ (24 - k)))
    (if up then t + 1 else t, nx)

/-- Signed exact dyadic addition: the sum of two integers scaled by powers of two. -/
def dyAdd (a : Int) (ea : Int) (b : Int) (eb : Int) : Int × Int :=
  let e := min ea eb
  (a * 2 ^ (ea - e).toNat + b * 2 ^ (eb - e).toNat, e)

/-! ### Element formats (R50) -/

/-- A floating-point element format. `special` 0: infinities and NaN in the top exponent; 1: NaN at all ones only
(E4M3); 2: neither. -/
structure Fmt where
  ebits : Nat
  mbits : Nat
  bias : Int
  special : Nat
deriving DecidableEq, Repr

def fp32 : Fmt := ⟨8, 23, 127, 0⟩
def bf16 : Fmt := ⟨8, 7, 127, 0⟩
def fp16 : Fmt := ⟨5, 10, 15, 0⟩
def e4m3 : Fmt := ⟨4, 3, 7, 1⟩
def e5m2 : Fmt := ⟨5, 2, 15, 0⟩
def e3m2 : Fmt := ⟨3, 2, 3, 2⟩
def e2m3 : Fmt := ⟨2, 3, 1, 2⟩
def e2m1 : Fmt := ⟨2, 1, 1, 2⟩

/-- Width in bits. -/
def Fmt.width (f : Fmt) : Nat := 1 + f.ebits + f.mbits

/-- The largest finite magnitude as encoding bits without the sign (R50). -/
def Fmt.maxBits (f : Fmt) : Nat :=
  match f.special with
  | 0 => (2 ^ f.ebits - 1) * 2 ^ f.mbits - 1
  | 1 => 2 ^ (f.ebits + f.mbits) - 2
  | _ => 2 ^ (f.ebits + f.mbits) - 1

/-- The encoding of an infinity without its sign, in formats that have one. -/
def Fmt.infBits (f : Fmt) : Nat := (2 ^ f.ebits - 1) * 2 ^ f.mbits

/-- The canonical NaN (R53). -/
def Fmt.nanBits (f : Fmt) : Nat :=
  match f.special with
  | 0 => (2 ^ f.ebits - 1) * 2 ^ f.mbits + (if f.mbits = 2 then 2 else 2 ^ (f.mbits - 1))
  | _ => 2 ^ (f.ebits + f.mbits) - 1

/-- Sign bit placed at the top of the format. -/
def Fmt.sign (f : Fmt) (neg : Bool) : Nat := if neg then 2 ^ (f.ebits + f.mbits) else 0

/-- The value an encoding names (R50, R52: subnormals honoured). -/
def Fmt.decode (f : Fmt) (x : Nat) : FVal :=
  let neg := decide (x / 2 ^ (f.ebits + f.mbits) % 2 = 1)
  let ex := x / 2 ^ f.mbits % 2 ^ f.ebits
  let fr := x % 2 ^ f.mbits
  let top := 2 ^ f.ebits - 1
  if f.special = 0 ∧ ex = top then
    (if fr = 0 then .inf neg else .nan)
  else if f.special = 1 ∧ ex = top ∧ fr = 2 ^ f.mbits - 1 then .nan
  else if ex = 0 then .fin neg fr (1 - f.bias - f.mbits)
  else .fin neg (2 ^ f.mbits + fr) ((ex : Int) - f.bias - f.mbits)

/-- Conversion of an exact value to a format (R75–R77): the encoding and the flags. `clamp` is the MX rule of R58:
a magnitude above the maximum is clamped to it and reports inexact only. -/
def Fmt.convert (f : Fmt) (clamp : Bool) (mode : Mode) (neg : Bool) (m : Nat) (e : Int) (sticky : Bool) :
    Nat × Flags :=
  if m = 0 then (f.sign neg, 0)
  else
    let emin : Int := 1 - f.bias
    let ex := ilog2 m + e
    let q := max ex emin - f.mbits
    let (n, nx) := roundMag mode m e q sticky
    -- the encoding grows linearly with the magnitude
    let bits : Nat := if n < 2 ^ f.mbits then n else n - 2 ^ f.mbits + ((q + f.mbits + f.bias).toNat) * 2 ^ f.mbits
    if bits > f.maxBits then
      if clamp then (f.sign neg + f.maxBits, fCvtNx)
      else if f.special = 1 ∨ f.mbits = 2 ∨ mode = .rtz then
        (f.sign neg + f.maxBits, fCvtOvf ||| fCvtNx)
      else (f.sign neg + f.infBits, fCvtOvf ||| fCvtNx)
    else
      (f.sign neg + bits,
       flagIf nx fCvtNx ||| flagIf (nx && decide (ex < emin)) fCvtUfl)

/-- Conversion of any value: NaN gives the canonical NaN, an infinity an infinity or, where the format has none, its
signed maximum with `CVT_OVF` (R78). -/
def Fmt.convertV (f : Fmt) (mode : Mode) : FVal → Nat × Flags
  | .nan => (f.nanBits, 0)
  | .inf neg => if f.special = 0 then (f.sign neg + f.infBits, 0) else (f.sign neg + f.maxBits, fCvtOvf)
  | .fin neg m e => f.convert false mode neg m e false

/-- Conversion to a two's-complement integer of `w` bits (R74, R77, R78, R90): the value and the flags. -/
def toInteger (w : Nat) (mode : Mode) : FVal → Int × Flags
  | .nan => (0, fInvalid)
  | .inf neg => (if neg then -(2 ^ (w - 1) : Nat) else (2 ^ (w - 1) : Nat) - 1, fIntSat)
  | .fin neg m e =>
    let (n, nx) := roundMag mode m e 0 false
    let v : Int := if neg then -(n : Int) else n
    if v > (2 ^ (w - 1) : Nat) - 1 then ((2 ^ (w - 1) : Nat) - 1, fCvtOvf ||| fIntSat ||| fCvtNx)
    else if v < -(2 ^ (w - 1) : Nat) then (-(2 ^ (w - 1) : Nat), fCvtOvf ||| fIntSat ||| fCvtNx)
    else (v, flagIf nx fCvtNx)

/-! ### Integers (R51, R86) -/

/-- `x` read as a two's-complement number of `w` bits. -/
def sgn (w x : Nat) : Int := if x % 2 ^ w < 2 ^ (w - 1) then (x % 2 ^ w : Nat) else (x % 2 ^ w : Nat) - (2 ^ w : Nat)

/-- The low `w` bits of an integer. -/
def wrap (w : Nat) (v : Int) : Nat := (v % (2 ^ w : Nat)).toNat

/-- Saturation to the signed range of `w` bits; true when it saturated. -/
def satS (w : Nat) (v : Int) : Int × Bool :=
  if v > (2 ^ (w - 1) : Nat) - 1 then ((2 ^ (w - 1) : Nat) - 1, true)
  else if v < -(2 ^ (w - 1) : Nat) then (-(2 ^ (w - 1) : Nat), true) else (v, false)

/-- Saturation to the unsigned range of `w` bits; true when it saturated. -/
def satU (w : Nat) (v : Int) : Int × Bool :=
  if v > (2 ^ w : Nat) - 1 then ((2 ^ w : Nat) - 1, true) else if v < 0 then (0, true) else (v, false)

/-- Integer operations of R86. -/
inductive IOp where
  | add
  | sub
  | mul
deriving DecidableEq, Repr

/-- The exact result. -/
def IOp.eval : IOp → Int → Int → Int
  | .add, a, b => a + b
  | .sub, a, b => a - b
  | .mul, a, b => a * b

/-- A saturating operation on `w`-bit operands, signed or unsigned: the result bits, true when it saturated (R86). -/
def intOp (w : Nat) (signed : Bool) (op : IOp) (a b : Nat) : Nat × Bool :=
  let v := if signed then op.eval (sgn w a) (sgn w b) else op.eval (a % 2 ^ w : Nat) (b % 2 ^ w : Nat)
  let (r, s) := if signed then satS w v else satU w v
  (wrap w r, s)

/-! ### FP32 operations (R83, R166) -/

/-- A 32-bit pattern as a value. -/
def f32 (x : Nat) : FVal := fp32.decode x

/-- `NAN_IN` when the operand's encoding is NaN. -/
def nanIn (x : Nat) : Flags := flagIf (f32 x == .nan) fNanIn

/-- The sign bit of a value. -/
def FVal.neg : FVal → Bool
  | .nan => false
  | .inf n => n
  | .fin n _ _ => n

/-- The value with its sign inverted. -/
def FVal.negate : FVal → FVal
  | .nan => .nan
  | .inf n => .inf (!n)
  | .fin n m e => .fin (!n) m e

/-- An exact sum of two values (IEEE 754): the sum, true when it is invalid (infinities of opposite sign). An exact
zero sum of unlike signs is +0. -/
def FVal.add : FVal → FVal → FVal × Bool
  | .nan, _ => (.nan, false)
  | _, .nan => (.nan, false)
  | .inf a, .inf b => if a = b then (.inf a, false) else (.nan, true)
  | .inf a, .fin _ _ _ => (.inf a, false)
  | .fin _ _ _, .inf b => (.inf b, false)
  | .fin na ma ea, .fin nb mb eb =>
    let a : Int := if na then -(ma : Int) else ma
    let b : Int := if nb then -(mb : Int) else mb
    let (v, e) := dyAdd a ea b eb
    if v = 0 then (.fin (na && nb) 0 e, false) else (.fin (decide (v < 0)) v.natAbs e, false)

/-- An exact product: the product, true when it is invalid (infinity times zero). -/
def FVal.mul : FVal → FVal → FVal × Bool
  | .nan, _ => (.nan, false)
  | _, .nan => (.nan, false)
  | .inf a, .inf b => (.inf (a != b), false)
  | .inf a, .fin nb mb _ => if mb = 0 then (.nan, true) else (.inf (a != nb), false)
  | .fin na ma _, .inf b => if ma = 0 then (.nan, true) else (.inf (na != b), false)
  | .fin na ma ea, .fin nb mb eb => (.fin (na != nb) (ma * mb) (ea + eb), false)

/-- The encoding of a value rounded once to FP32 with RNE, with the flags of R166. -/
def f32Round (v : FVal) (invalid : Bool) : Nat × Flags :=
  let (x, fl) := fp32.convertV .rne v
  (x, fl ||| flagIf invalid fInvalid)

/-- Binary FP32 addition. -/
def f32Add (a b : Nat) : Nat × Flags :=
  let (v, i) := (f32 a).add (f32 b)
  let (x, fl) := f32Round v i
  (x, fl ||| nanIn a ||| nanIn b)

/-- Binary FP32 subtraction. -/
def f32Sub (a b : Nat) : Nat × Flags :=
  let (v, i) := (f32 a).add (f32 b).negate
  let (x, fl) := f32Round v i
  (x, fl ||| nanIn a ||| nanIn b)

/-- Binary FP32 multiplication. -/
def f32Mul (a b : Nat) : Nat × Flags :=
  let (v, i) := (f32 a).mul (f32 b)
  let (x, fl) := f32Round v i
  (x, fl ||| nanIn a ||| nanIn b)

/-- Fused multiply-add, or multiply-subtract, rounded once. An infinity times a zero is invalid whatever the third
operand (R166). -/
def f32Fma (sub : Bool) (a b c : Nat) : Nat × Flags :=
  let (p, i) := (f32 a).mul (f32 b)
  let (v, j) := p.add (if sub then (f32 c).negate else f32 c)
  let (x, fl) := f32Round v (i || j)
  (x, fl ||| nanIn a ||| nanIn b ||| nanIn c)

/-- Order of two values that are not NaN: −1, 0 or 1; −0 equals +0. -/
def FVal.cmp : FVal → FVal → Int
  | .inf a, .inf b => if a = b then 0 else if a then -1 else 1
  | .inf a, _ => if a then -1 else 1
  | _, .inf b => if b then 1 else -1
  | .fin na ma ea, .fin nb mb eb =>
    let a : Int := if na then -(ma : Int) else ma
    let b : Int := if nb then -(mb : Int) else mb
    let d := (dyAdd a ea (-b) eb).1
    if d < 0 then -1 else if d = 0 then 0 else 1
  | _, _ => 0

/-- Minimum or maximum: NaN when either operand is NaN, −0 below +0 (R84). -/
def f32MinMax (isMax : Bool) (a b : Nat) : Nat × Flags :=
  let va := f32 a
  let vb := f32 b
  if va = .nan ∨ vb = .nan then (fp32.nanBits, fNanIn)
  else
    let c := va.cmp vb
    let aLess : Bool := c < 0 || (c == 0 && va.neg && !vb.neg)
    (if aLess == isMax then b else a, 0)

/-- Compare conditions of R171. -/
inductive Cond where
  | eq
  | ne
  | lt
  | le
  | gt
  | ge
  | unord
deriving DecidableEq, Repr

/-- A condition on an order result. -/
def Cond.holds : Cond → Int → Bool
  | .eq, d => d == 0
  | .ne, d => d != 0
  | .lt, d => d < 0
  | .le, d => d ≤ 0
  | .gt, d => d > 0
  | .ge, d => d ≥ 0
  | .unord, _ => false

/-- An FP32 compare: with a NaN operand only `ne` and `unord` hold (R171). -/
def f32Cmp (c : Cond) (a b : Nat) : Bool :=
  if f32 a = .nan ∨ f32 b = .nan then c == .ne || c == .unord else c.holds ((f32 a).cmp (f32 b))

/-- An integer compare, signed or unsigned, of `w`-bit operands. -/
def intCmp (w : Nat) (signed : Bool) (c : Cond) (a b : Nat) : Bool :=
  c.holds (if signed then sgn w a - sgn w b else ((a % 2 ^ w : Nat) : Int) - (b % 2 ^ w : Nat))

/-! ### Roots, reciprocals, exponentials and logarithms -/

/-- Integer square root, one result bit per round, from bit `k − 1` down. -/
def isqrtGo (n : Nat) : Nat → Nat → Nat
  | 0, r => r
  | k + 1, r => let c := r + 2 ^ k; if c * c ≤ n then isqrtGo n k c else isqrtGo n k r

/-- `⌊√n⌋`. -/
def isqrt (n : Nat) : Nat := isqrtGo n (Nat.log2 n / 2 + 1) 0

/-- Working precision of the function evaluations, in fraction bits. -/
def fxP : Nat := 320

/-- `√` of a positive dyadic: mantissa, exponent, sticky. -/
def sqrtDy (m : Nat) (e : Int) : Nat × Int × Bool :=
  let k : Nat := if (e % 2 = 0) then 2 * 80 else 2 * 80 + 1
  let n := m * 2 ^ k
  let r := isqrt n
  (r, (e - k) / 2, r * r != n)

/-- The quotient of two positive dyadics: mantissa, exponent, sticky. -/
def divDy (ma : Nat) (ea : Int) (mb : Nat) (eb : Int) : Nat × Int × Bool :=
  let k : Nat := 80 + Nat.log2 mb
  let n := ma * 2 ^ k
  (n / mb, ea - eb - k, n % mb != 0)

/-- `1/√` of a positive dyadic: mantissa, exponent, sticky. -/
def rsqrtDy (m : Nat) (e : Int) : Nat × Int × Bool :=
  -- make the exponent even
  let (m, e) := if e % 2 = 0 then (m, e) else (2 * m, e - 1)
  let k : Nat := 2 * (80 + Nat.log2 m)
  let r := isqrt (2 ^ k / m)
  (r, -(k / 2 : Nat) - e / 2, r * r * m != 2 ^ k)

/-- Terms of a power series by Horner-free accumulation: `t` the current term, `x` the ratio, dividing by the
counter. -/
def expSeries (x : Nat) : Nat → Nat → Nat → Nat → Nat
  | 0, _, _, acc => acc
  | k + 1, i, t, acc => let t' := t * x / 2 ^ fxP / i; expSeries x k (i + 1) t' (acc + t')

/-- `2 · Σ z^(2i+1)/(2i+1)`, the logarithm of `(1+z)/(1−z)`, in fraction bits `fxP`. -/
def atanhSeries (z2 : Nat) : Nat → Nat → Nat → Nat → Nat
  | 0, _, _, acc => acc
  | k + 1, i, t, acc => let t' := t * z2 / 2 ^ fxP; atanhSeries z2 k (i + 2) t' (acc + t' / (i + 2))

/-- `ln m` for a fixed-point `m` in [1, 2), in fraction bits `fxP`. -/
def lnFx (m : Nat) : Nat :=
  let one := 2 ^ fxP
  let z := (m - one) * one / (m + one)
  2 * atanhSeries (z * z / one) 110 1 z z

/-- `ln 2` in fraction bits `fxP`. -/
def ln2Fx : Nat := let one := 2 ^ fxP; let z := one / 3; 2 * atanhSeries (z * z / one) 110 1 z z

/-- `exp x` for a fixed-point `x` in [0, 1), in fraction bits `fxP`. -/
def expFx (x : Nat) : Nat := expSeries x 80 1 (2 ^ fxP) (2 ^ fxP)

/-- `2^x` of a dyadic that is not an integer: mantissa, exponent, sticky. -/
def exp2Dy (neg : Bool) (m : Nat) (e : Int) : Nat × Int × Bool :=
  -- x as a fixed-point integer with fxP fraction bits; |x| below 2^20
  let fx : Nat := if e + fxP ≥ 0 then m * 2 ^ (e + fxP).toNat else m / 2 ^ (-(e + fxP)).toNat
  let v : Int := if neg then -(fx : Int) else fx
  let one : Nat := 2 ^ fxP
  let i := v / (one : Int)
  let f := (v % (one : Int)).toNat
  (expFx (f * ln2Fx / one), i - fxP, true)

/-- `log2` of a positive dyadic that is not a power of two: sign, mantissa, exponent, sticky. -/
def log2Dy (m : Nat) (e : Int) : Bool × Nat × Int × Bool :=
  let l := Nat.log2 m
  let mm := if l ≤ fxP then m * 2 ^ (fxP - l) else m / 2 ^ (l - fxP)
  let frac : Nat := lnFx mm * 2 ^ fxP / ln2Fx
  let v : Int := ((l : Int) + e) * (2 ^ fxP : Nat) + frac
  (decide (v < 0), v.natAbs, -(fxP : Int), true)

/-- A rounded FP32 result of a mantissa, exponent and sticky bit. -/
def f32Dy (neg : Bool) (d : Nat × Int × Bool) : Nat × Flags := fp32.convert false .rne neg d.1 d.2.1 d.2.2

/-- The FP32 functions of one operand (R166, R167). -/
inductive FFun where
  | sqrt
  | rcp
  | rsqrt
  | exp2
  | log2
deriving DecidableEq, Repr

/-- Positive infinity, negative infinity and one in FP32. -/
def f32Inf (neg : Bool) : Nat := fp32.sign neg + fp32.infBits
/-- An exact integer as FP32. -/
def f32OfInt (v : Int) : Nat := (fp32.convert false .rne (decide (v < 0)) v.natAbs 0 false).1

/-- `sqrt`, `rcp`, `rsqrt`, `exp2` and `log2`: the exact value rounded once (R167), the special operands of R166. -/
def f32Fun (fn : FFun) (a : Nat) : Nat × Flags :=
  match f32 a with
  | .nan => (fp32.nanBits, fNanIn)
  | .inf neg =>
    match fn with
    | .rcp => (fp32.sign neg, 0)
    | .exp2 => if neg then (0, 0) else (f32Inf false, 0)
    | .sqrt => if neg then (fp32.nanBits, fInvalid) else (f32Inf false, 0)
    | .rsqrt => if neg then (fp32.nanBits, fInvalid) else (0, 0)
    | .log2 => if neg then (fp32.nanBits, fInvalid) else (f32Inf false, 0)
  | .fin neg m e =>
    if m = 0 then
      match fn with
      | .sqrt => (fp32.sign neg, 0)
      | .rcp => (f32Inf neg, 0)
      | .rsqrt => (f32Inf neg, 0)
      | .log2 => (f32Inf true, 0)
      | .exp2 => (f32OfInt 1, 0)
    else
      match fn with
      | .rcp => f32Dy neg (divDy 1 0 m e)
      | .sqrt => if neg then (fp32.nanBits, fInvalid) else f32Dy false (sqrtDy m e)
      | .rsqrt => if neg then (fp32.nanBits, fInvalid) else f32Dy false (rsqrtDy m e)
      | .exp2 =>
        -- beyond ±2^20 the result overflows or underflows whatever the fraction
        if ilog2 m + e ≥ 20 then (if neg then fp32.convert false .rne false 1 (-400) false
                                  else fp32.convert false .rne false 1 400 false)
        else
          let whole : Bool := decide (0 ≤ e) || decide (m % 2 ^ (-e).toNat = 0)
          if whole then
            let v : Int := if 0 ≤ e then m * 2 ^ e.toNat else m / 2 ^ (-e).toNat
            fp32.convert false .rne false 1 (if neg then -v else v) false
          else f32Dy false (exp2Dy neg m e)
      | .log2 =>
        if neg then (fp32.nanBits, fInvalid)
        else if m = 2 ^ Nat.log2 m then
          let v : Int := ilog2 m + e
          (f32OfInt v, 0)
        else
          let (n, mm, ee, st) := log2Dy m e
          fp32.convert false .rne n mm ee st

end Sys2Proof.Machine
end

