-- ==== Sys2Proof/Syntax.lean ====
section
/-! DEFINITION. The commands of the block: one constructor of `Instr` per row of the operation and event table, with
the row's operands. Slot operations carry the fields of their slot word as the format tables give them (R118–R132),
so that an ill-formed word can be written and is refused. Event commands carry what the event brings from outside the
modelled state: a time in nanoseconds, a measured value, a received packet or message. -/

namespace Sys2Proof

/-- Where a slot operation stands: its packing index (R113), whether it is the last slot word of its bundle, and the
bundle's length code (R111). -/
structure Hd where
  slot : Nat
  fin : Bool
  len : Nat
deriving DecidableEq, Repr

/-- MA format (R120). -/
structure MAf where
  pred : Nat
  acc : Nat
  va : Nat
  vb : Nat
  vx : Nat
  mod : Nat
deriving DecidableEq, Repr

/-- MR format (R121). -/
structure MRf where
  pred : Nat
  acc : Nat
  vd : Nat
  sel : Nat
  mofs : Nat
  rm : Nat
  tf : Nat
  mod : Nat
deriving DecidableEq, Repr

/-- MC format (R122). -/
structure MCf where
  pred : Nat
  acc : Nat
  exp : Nat
  pd : Nat
deriving DecidableEq, Repr

/-- VR format (R123). -/
structure VRf where
  pred : Nat
  d : Nat
  a : Nat
  b : Nat
  c : Nat
  rm : Nat
  df : Nat
  sf : Nat
  mod : Nat
deriving DecidableEq, Repr

/-- VI format (R124). -/
structure VIf where
  pred : Nat
  d : Nat
  a : Nat
  df : Nat
  sf : Nat
  mod : Nat
  imm : Nat
deriving DecidableEq, Repr

/-- LS format (R125). -/
structure LSf where
  pred : Nat
  dr : Nat
  kb : Nat
  ks : Nat
  am : Nat
  off : Nat
deriving DecidableEq, Repr

/-- CB format (R127). -/
structure CBf where
  sa : Nat
  sb : Nat
  cc : Nat
  tgt : Nat
deriving DecidableEq, Repr

/-- CS format (R128). -/
structure CSf where
  d : Nat
  a : Nat
  b : Nat
  h : Nat
  imm : Nat
deriving DecidableEq, Repr

/-- XE format (R129). -/
structure XEf where
  tok : Nat
  sa : Nat
  sd : Nat
  sl : Nat
  ss : Nat
  bc : Nat
  hid : Nat
  mod : Nat
deriving DecidableEq, Repr

/-- XC format (R130). -/
structure XCf where
  tok : Nat
  sa : Nat
  stk : Nat
  bc : Nat
  ss : Nat
deriving DecidableEq, Repr

/-- NS format (R131). -/
structure NSf where
  tok : Nat
  sa : Nat
  sb : Nat
  strm : Nat
  imm : Nat
deriving DecidableEq, Repr

/-- TT format (R132). -/
structure TTf where
  heat : Nat
  opt : Nat
  imm : Nat
deriving DecidableEq, Repr

namespace Machine

/-- What stands around a received frame's payload (R264, R330, R331, R334): the interface (I0 to I3, 4 the management port), the
RS-FEC codewords that could not be corrected since the frame before, whether the FCS holds, the VLAN ID of its tag, and whether
it carries an IP fragment. -/
structure EthIn where
  i : Nat
  ucw : Nat
  fcs : Bool
  vid : Option Nat
  frag : Bool
deriving DecidableEq, Repr

/-- An interface loses alignment (R328, R331): when, and the codewords that could not be corrected since the last frame. -/
structure LossIn where
  t : Nat
  ucw : Nat
deriving DecidableEq, Repr

/-- A chance to send (R264): when, and whether the check of the data to be sent fails on the way to the frame. -/
structure TxIn where
  t : Nat
  bad : Bool
deriving DecidableEq, Repr

/-- The IP and UDP headers of a transport packet (R335, R336), and the PCP of its tag: destination address, hop limit or TTL, DF,
DSCP, UDP ports and checksum. -/
structure Net where
  dst : BitVec 128
  hop : Nat
  df : Bool
  dscp : Nat
  pcp : Nat
  sport : Nat
  dport : Nat
  sum : Nat
deriving DecidableEq, Repr

/-- Headers not filled in yet. -/
def Net.none : Net := ⟨0, 0, false, 0, 0, 0, 0, 0⟩

/-- A transport packet (R336): header fields, payload, and the headers around it. -/
structure Pkt where
  ver : Nat
  typ : Nat
  flags : Nat
  prio : Nat
  hops : Nat
  opc : Nat
  dstrm : Nat
  sstrm : Nat
  psn : Nat
  msn : Nat
  w0 : Nat
  w1 : Nat
  w2 : Nat
  clim : Nat
  pcrc : Nat
  pay : List Byte
  net : Net
deriving DecidableEq, Repr

/-- Where a register access comes from (R250, R556): the host through the proxy on a stream, the rack manager or
Bellows firmware through the management link, a Bellows core. -/
inductive Path where
  | host
  | rm
  | fw
  | core (i : Nat)
deriving DecidableEq, Repr

/-- A CAN frame on the bus (R536): identifier, format bits, data bytes. `rtr` marks a remote frame (R530). -/
structure CanFrame where
  id : Nat
  ide : Bool
  fdf : Bool
  brs : Bool
  esi : Bool
  rtr : Bool
  dlc : Nat
  data : List Byte
deriving DecidableEq, Repr

/-- A management request (R554): its header fields, but the command code that the row names, and its payload; and what it came
in (R551, R552): whether the frame's FCS and the UDP checksum are right, its tag, whether it is a fragment, the destination
address and the UDP ports. -/
structure Dgram where
  ver : Nat
  flags : Nat
  status : Nat
  seq : Nat
  len : Nat
  rsv : Nat
  crc : Nat
  pay : List Byte
  fcs : Bool
  sum : Bool
  vid : Option Nat
  frag : Bool
  dst : BitVec 128
  sport : Nat
  dport : Nat
deriving DecidableEq, Repr

/-- What has befallen the code unit that patrol reads (R253, R264, R267, R268): the bits of it that have flipped since the last
look, as a mask (data, then check bits, then for HBM the address symbols), the retries the interface made, and whether the
next transit of the unit's data, to it by a write or from it to a Tongs buffer, arrives with a failing check. -/
structure Upset where
  flips : Nat
  rty : Nat
  transit : Bool
deriving DecidableEq, Repr

/-- A self-test of a Hearth's Anvils (R275, R597): when, and which of the 16 fail. -/
structure SelfTest where
  t : Nat
  bad : List Nat
deriving DecidableEq, Repr

/-- What the droop detectors find (R425): the lowest local VCORE in µV, and for how many ns droop is reported. -/
structure DroopIn where
  uv : Nat
  dur : Nat
deriving DecidableEq, Repr

/-- What the sensor inputs give Bellows in one tick (R440–R445): the ten samples of each NTC input in Ω, the pressure
inputs and their supply in mV, the period of the last four pulses of FL0 and FL1 in µs (0: no pulse for 50 ms), the leak
loops in Ω, the die diodes and stack temperatures in 0.01 °C (empty while compute is down), the 1 ms mean of VIN48 input
power in W, and the time between the last two tachometer pulses of F0–F3 in µs (0: none). -/
structure TickIn where
  ntc : List (List Nat)
  press : List Nat
  v5 : Nat
  flow : List Nat
  leak : List Nat
  die : List Int
  stk : List Int
  pmeas : Nat
  tach : List Nat
deriving DecidableEq, Repr

end Machine

/-- The commands, in the order of the operation and event table. -/
inductive Instr where
  -- C slot (R154, R155); an `op` is the opcode where a row covers several
  | nop (h : Hd) (raw : Option Nat)
  | br (h : Hd) (f : CBf)
  | dbnz (h : Hd) (f : CBf)
  | brl (h : Hd) (f : CBf)
  | brInd (h : Hd) (f : CBf)
  | waitm (h : Hd) (f : CSf)
  | wait (h : Hd) (f : CSf)
  | stallEnd
  | amaskSet (h : Hd) (f : CSf)
  | amaskSetAll (h : Hd) (f : CSf)
  | sArith (h : Hd) (op : Nat) (f : CSf)
  | sBitwise (h : Hd) (op : Nat) (f : CSf)
  | sShift (h : Hd) (op : Nat) (f : CSf)
  | addiS64 (h : Hd) (f : CSf)
  | moviS64 (h : Hd) (f : CSf)
  | ldc (h : Hd) (f : CSf)
  | ldcx (h : Hd) (f : CSf)
  | ldm (h : Hd) (f : CSf)
  | stm (h : Hd) (f : CSf)
  | pcount (h : Hd) (f : CSf)
  | rdbc (h : Hd) (f : CSf)
  | stop (len : Nat)
  | jobEnd (t : Nat)
  -- M slot (R157–R163)
  | mmac (h : Hd) (op : Nat) (f : MAf)
  | mcomb (h : Hd) (f : MAf)
  | mrd (h : Hd) (f : MRf)
  | mpk (h : Hd) (f : MRf)
  | mclr (h : Hd) (f : MCf)
  | mrsc (h : Hd) (f : MCf)
  | mtst (h : Hd) (op : Nat) (f : MCf)
  -- V slot (R164–R171)
  | addSubMulF32 (h : Hd) (op : Nat) (f : VRf)
  | fmaFmsF32 (h : Hd) (op : Nat) (f : VRf)
  | minMaxF32 (h : Hd) (op : Nat) (f : VRf)
  | absNegF32 (h : Hd) (op : Nat) (f : VRf)
  | sqrtF32 (h : Hd) (f : VRf)
  | rcpRsqrtExp2Log2F32 (h : Hd) (op : Nat) (f : VRf)
  | int32Arith (h : Hd) (op : Nat) (f : VRf)
  | minMaxS32 (h : Hd) (op : Nat) (f : VRf)
  | absS32 (h : Hd) (f : VRf)
  | slaS32 (h : Hd) (f : VRf)
  | b32Bitwise (h : Hd) (op : Nat) (f : VRf)
  | b32Shift (h : Hd) (op : Nat) (f : VRf)
  | vArithS64 (h : Hd) (op : Nat) (f : VRf)
  | vBitwiseB64 (h : Hd) (op : Nat) (f : VRf)
  | vShiftB64 (h : Hd) (op : Nat) (f : VRf)
  | movB64 (h : Hd) (f : VRf)
  | cmpanyCmpall (h : Hd) (op : Nat) (f : VRf)
  | cmpS64U64 (h : Hd) (op : Nat) (f : VRf)
  | cmpm (h : Hd) (op : Nat) (f : VRf)
  | selB32 (h : Hd) (f : VRf)
  | permB32 (h : Hd) (f : VRf)
  | raddRmaxRminF32 (h : Hd) (op : Nat) (f : VRf)
  | raddS32 (h : Hd) (f : VRf)
  | cvtNarrow (h : Hd) (op : Nat) (f : VRf)
  | cvtS32F32 (h : Hd) (f : VRf)
  | cvtIntNarrow (h : Hd) (op : Nat) (f : VRf)
  | cvtWiden (h : Hd) (op : Nat) (f : VRf)
  | cvtF32S32 (h : Hd) (f : VRf)
  | mxq (h : Hd) (op : Nat) (f : VRf)
  | mxdq (h : Hd) (op : Nat) (f : VRf)
  | mxsc (h : Hd) (op : Nat) (f : VIf)
  | addiMuliS32 (h : Hd) (op : Nat) (f : VIf)
  | addiMuliF32 (h : Hd) (op : Nat) (f : VIf)
  | moviS32 (h : Hd) (f : VIf)
  | moviF32 (h : Hd) (f : VIf)
  | vAddiMuliS64 (h : Hd) (op : Nat) (f : VIf)
  | vMoviS64 (h : Hd) (f : VIf)
  | slliSrliB64 (h : Hd) (op : Nat) (f : VIf)
  | lextB32 (h : Hd) (f : VIf)
  | linsB32 (h : Hd) (f : VIf)
  | binsB8 (h : Hd) (f : VIf)
  | cmpiS64 (h : Hd) (f : VIf)
  -- L slot (R172); `op` names the data file
  | ldA (h : Hd) (op : Nat) (f : LSf)
  | stA (h : Hd) (op : Nat) (f : LSf)
  | ldH (h : Hd) (op : Nat) (f : LSf)
  | stH (h : Hd) (op : Nat) (f : LSf)
  -- X slot (R176–R184)
  | xfer (h : Hd) (op : Nat) (f : XEf)
  | xfillHbm (h : Hd) (f : XEf)
  | xfence (h : Hd) (f : XEf)
  | xferComplete (unit idx : Nat) (t : Nat)
  | xfenceComplete (unit : Nat)
  | crcCmd (h : Hd) (f : XCf)
  | crcCmdHi (h : Hd) (f : XCf)
  | admission
  -- N slot (R185)
  | sig (h : Hd) (f : NSf)
  | send (h : Hd) (f : NSf)
  | recv (h : Hd) (f : NSf)
  | aredPp (h : Hd) (f : NSf)
  | paceGrp (h : Hd) (f : NSf)
  | nfence (h : Hd) (f : NSf)
  | rsig (h : Hd) (f : NSf)
  -- T slot (R187)
  | heat (h : Hd) (f : TTf)
  | opreq (h : Hd) (f : TTf)
  | tSnap (h : Hd) (f : TTf)
  | phint (h : Hd) (f : TTf)
  | jobSwitch (t : Nat)
  | jobSelect (t : Nat)
  -- stores, stacks and holds (R269–R278)
  | writeBack (unit : Nat)
  | patrol (addr len : Nat) (found : Machine.Upset) (t : Nat)
  | stackFence (stk cause t : Nat)
  | fence (p : Machine.Path) (stk : Nat) (w : Word) (t : Nat)
  | anvilHoldEffect (g t : Nat)
  -- Crucibles (R282–R324)
  | crucNop (stk t : Nat)
  | gemv (stk t : Nat)
  | attn (stk t : Nat)
  | amerge (stk t : Nat)
  | gather (stk t : Nat)
  | scatter (stk t : Nat)
  | reduce (stk t : Nat)
  | eltw (stk t : Nat)
  | pack (stk t : Nat)
  | unpack (stk t : Nat)
  | copy (stk t : Nat)
  | fill (stk t : Nat)
  | scrub (stk t : Nat)
  | crucComplete (stk t : Nat)
  | crucPreempt (stk : Nat)
  | crucHostAdmit (stk : Nat)
  -- ports and neighbours (R325–R335)
  | portcfgWrite (p : Machine.Path) (port : Nat) (w : Word) (t : Nat)
  | linkUp (i t : Nat)
  | linkBringupRetry (i t : Nat)
  | linkDown (i : Nat) (t : Machine.LossIn)
  | dadTimeout (i t : Nat)
  | neighbourSolicitation (e : Machine.EthIn) (target src : BitVec 128) (t : Nat)
  | arpRequest (e : Machine.EthIn) (target t : Nat)
  | icmpEchoRequest (e : Machine.EthIn) (dst src : BitVec 128) (data : List Byte) (t : Nat)
  | neighbourResolutionRetry (i : Nat) (a : BitVec 128) (t : Nat)
  -- packets (R336–R356)
  | data (e : Machine.EthIn) (src : BitVec 128) (p : Machine.Pkt) (t : Nat)
  | ack (e : Machine.EthIn) (src : BitVec 128) (p : Machine.Pkt) (t : Nat)
  | cred (e : Machine.EthIn) (src : BitVec 128) (p : Machine.Pkt) (t : Nat)
  | opn (e : Machine.EthIn) (src : BitVec 128) (p : Machine.Pkt) (t : Nat)
  | openack (e : Machine.EthIn) (src : BitVec 128) (p : Machine.Pkt) (t : Nat)
  | close (e : Machine.EthIn) (src : BitVec 128) (p : Machine.Pkt) (t : Nat)
  | rst (e : Machine.EthIn) (src : BitVec 128) (p : Machine.Pkt) (t : Nat)
  | memwr (n : Nat) (msg : List Byte) (t : Nat)
  | memrd (n : Nat) (msg : List Byte) (t : Nat)
  | pace (n : Nat) (msg : List Byte) (t : Nat)
  | relayFrame (e : Machine.EthIn) (kind dstMac len : Nat) (p : Option Machine.Pkt) (t : Nat)
  | ackTimer (n t : Nat)
  | rtoExpiry (n t : Nat)
  | credProbe (n t : Nat)
  | frameTransmit (i : Nat) (t : Machine.TxIn)
  | bootStreamRelisten (n t : Nat)
  | admissionRound (t : Nat)
  | pinGrant (t : Nat)
  | cplPush (n t : Nat)
  -- host commands on streams (R366–R398)
  | jobSubmit (n : Nat) (msg : List Byte) (t : Nat)
  | jobCancel (n : Nat) (msg : List Byte) (t : Nat)
  | cancelTimeout (t : Nat)
  | imageAccept (n : Nat) (msg : List Byte) (t : Nat)
  | imageUnload (n : Nat) (msg : List Byte) (t : Nat)
  | crucCmd (n : Nat) (msg : List Byte) (t : Nat)
  | ringCfg (n : Nat) (msg : List Byte) (t : Nat)
  | streamCfg (n : Nat) (msg : List Byte) (t : Nat)
  | streamClose (n : Nat) (msg : List Byte) (t : Nat)
  | streamReset (n : Nat) (msg : List Byte) (t : Nat)
  | streamQuery (n : Nat) (msg : List Byte) (t : Nat)
  | aidxWrite (p : Machine.Path) (r : Nat) (w : Word) (t : Nat)
  -- Temper (R402–R439)
  | temperInterval (die : List Int) (vin t : Nat)
  | kRaise (t : Nat)
  | raisedrop (t : Nat)
  | vcoreSettled (t : Nat)
  | droop (d : Machine.DroopIn) (t : Nat)
  | sagWarn (mv t : Nat)
  | sagWarnClear (mv t : Nat)
  | calibration (meas : Option Nat) (t : Nat)
  | capStale (src t : Nat)
  | capHostWrite (p : Machine.Path) (w : Word) (t : Nat)
  | capFacilityWrite (p : Machine.Path) (w : Word) (t : Nat)
  | ageingEval (slack : List Nat) (t : Nat)
  -- cooling (R440–R478); `held`: how long the condition has held, in ns
  | coolingTick (k : Machine.TickIn) (t : Nat)
  | ntcFault (n : Nat) (ohm : List Nat) (t : Nat)
  | pressureFault (n : Nat) (mv : List Nat) (t : Nat)
  | sensorRecover (n held t : Nat)
  | sensorDisagree (a b held t : Nat)
  | sensorSuspect (n : Nat) (v : Int) (held t : Nat)
  | nopulse (held t : Nat)
  | dpcollapse (dp : Int) (held t : Nat)
  | dierise (rise t : Nat)
  | throttleRelease (flow : Nat) (dp : Int) (held t : Nat)
  | timeout (t : Nat)
  | critTrip (kind input : Nat) (reading : Int) (t : Nat)
  | shdnN (low : Bool) (t : Nat)
  | leak (n : Nat) (ohm : List Nat) (t : Nat)
  | loopFault (n ohm held t : Nat)
  | leakLoopNormal (n ohm held t : Nat)
  | flowConfirm (flow : Nat) (dp : Int) (held t : Nat)
  | flowUnconfirmed (t : Nat)
  | kickAttempt (c t : Nat)
  | kickAttemptEnd (c rpm t : Nat)
  | tachLoss (c gap t : Nat)
  | tachClassify (c t : Nat)
  | tachRecover (c held t : Nat)
  | keepaliveKa (p : Machine.Path) (w : Word) (t : Nat)
  | autoMode (t : Nat)
  | loopPeriod (t : Nat)
  -- Quench (R479–R502)
  | loopSample (n t : Nat)
  | loopOutput (n t : Nat)
  | loopArm (p : Machine.Path) (n : Nat) (w : Word) (t : Nat)
  | loopDisarm (p : Machine.Path) (n : Nat) (w : Word) (t : Nat)
  | commit (p : Machine.Path) (n : Nat) (w : Word) (t : Nat)
  | prim (p : Machine.Path) (n : Nat) (w : Word) (t : Nat)
  | beacon (t : Nat)
  | rcEn (p : Machine.Path) (n : Nat) (w : Word) (t : Nat)
  | quenchTraceArm (p : Machine.Path) (w : Word) (t : Nat)
  | quenchTraceForce (p : Machine.Path) (w : Word) (t : Nat)
  | quenchTrdata (t : Nat)
  -- Tuyere (R503–R528)
  | fixcmd (p : Machine.Path) (c : Nat) (w : Word) (t : Nat)
  | vprofWrite (p : Machine.Path) (c : Nat) (w : Word) (t : Nat)
  | highSideGrant (b t : Nat)
  | peakReached (c cur vb t : Nat)
  | tpeakEnd (c t : Nat)
  | ttphigh (c t : Nat)
  | overcur (c : Nat) (hs : Bool) (cur t : Nat)
  | abortRetry (c t : Nat)
  | boostReady (vb t : Nat)
  | boostnr (c t : Nat)
  | kink (c tz t : Nat)
  | nomotion (c tz t : Nat)
  | periodStart (b t : Nat)
  | eventStart (c t : Nat)
  | eventEnd (c t : Nat)
  | pkrefuse (c t : Nat)
  | dlim (c t : Nat)
  | coilModel (c irms2 t : Nat)
  | vvlow (mv held t : Nat)
  | vvalveRecover (mv held t : Nat)
  | x1Release (t : Nat)
  -- CAN FD (R529–R550)
  | canFrameRx (f : Machine.CanFrame) (t : Nat)
  | txreq (p : Machine.Path) (n : Nat) (w : Word) (t : Nat)
  | cancel (p : Machine.Path) (n : Nat) (w : Word) (begun : Bool) (t : Nat)
  | bcmdAck (p : Machine.Path) (n : Nat) (w : Word) (t : Nat)
  | canTxComplete (n : Nat) (sent : Bool) (tdcv t : Nat)
  | canState (st tec rec lec t : Nat)
  | busOffRecovery (seqs t : Nat)
  | tten (p : Machine.Path) (w : Word) (t : Nat)
  | referenceMessage (f : Machine.CanFrame) (t : Nat)
  | referenceTimeout (t : Nat)
  | ttWindow (k t : Nat)
  | ttEventFallback (t : Nat)
  | loopMessage (f : Machine.CanFrame) (t : Nat)
  | alertRx (f : Machine.CanFrame) (t : Nat)
  -- management commands (R554–R559)
  | ident (src : BitVec 128) (d : Machine.Dgram) (t : Nat)
  | keepalive (src : BitVec 128) (d : Machine.Dgram) (t : Nat)
  | csrRead (src : BitVec 128) (d : Machine.Dgram) (t : Nat)
  | csrWrite (src : BitVec 128) (d : Machine.Dgram) (t : Nat)
  | setFacility (src : BitVec 128) (d : Machine.Dgram) (t : Nat)
  | coolRestart (src : BitVec 128) (d : Machine.Dgram) (t : Nat)
  | leakClear (src : BitVec 128) (d : Machine.Dgram) (t : Nat)
  | fanClear (src : BitVec 128) (d : Machine.Dgram) (t : Nat)
  | valveClear (src : BitVec 128) (d : Machine.Dgram) (t : Nat)
  | anvilHold (src : BitVec 128) (d : Machine.Dgram) (t : Nat)
  | resetModule (src : BitVec 128) (d : Machine.Dgram) (t : Nat)
  | moduleReset (t : Nat)
  | resetCompute (src : BitVec 128) (d : Machine.Dgram) (t : Nat)
  | resetComputeKeep (src : BitVec 128) (d : Machine.Dgram) (t : Nat)
  | resetHearth (src : BitVec 128) (d : Machine.Dgram) (t : Nat)
  | hearthResetStart (t : Machine.SelfTest)
  | resetStream (src : BitVec 128) (d : Machine.Dgram) (t : Nat)
  | eventRead (src : BitVec 128) (d : Machine.Dgram) (t : Nat)
  | eventClear (src : BitVec 128) (d : Machine.Dgram) (t : Nat)
  | mSnap (src : BitVec 128) (d : Machine.Dgram) (t : Nat)
  | claim (src : BitVec 128) (d : Machine.Dgram) (t : Nat)
  | config (src : BitVec 128) (d : Machine.Dgram) (t : Nat)
  | counter (src : BitVec 128) (d : Machine.Dgram) (t : Nat)
  | attest (src : BitVec 128) (d : Machine.Dgram) (t : Nat)
  | attestCert (src : BitVec 128) (d : Machine.Dgram) (t : Nat)
  | fwUpdateBegin (src : BitVec 128) (d : Machine.Dgram) (t : Nat)
  | fwUpdateData (src : BitVec 128) (d : Machine.Dgram) (t : Nat)
  | fwUpdateEnd (src : BitVec 128) (d : Machine.Dgram) (norErr : Bool) (t : Nat)
  | fwUpdateActivate (src : BitVec 128) (d : Machine.Dgram) (t : Nat)
  | fwUpdateCommit (src : BitVec 128) (d : Machine.Dgram) (t : Nat)
  | fwUpdateAbandon (t : Nat)
  | debugUnlock (src : BitVec 128) (d : Machine.Dgram) (t : Nat)
  | notifyAck (src : BitVec 128) (d : Machine.Dgram) (t : Nat)
  | notifyResend (t : Nat)
  -- supply, reset and bring-up (R584–R602, R642–R654)
  | coldReset (vsb held t : Nat)
  | romBoot (errA errB : Bool) (t : Nat)
  | watchdog (t : Nat)
  | pllLock (t : Nat)
  | bringupReady (badAnvils : List Nat) (badStacks : List (Nat × Nat)) (t : Nat)
  | bringupTimeout (t : Nat)
  | refclkLoss (t : Nat)
  | srefLoss (t : Nat)
  | vin48Undervoltage (mv held t : Nat)
  | vin48Overvoltage (mv held t : Nat)
  | vin48Recover (mv held t : Nat)
  | vsb12Warn (mv held t : Nat)
  | vsb12Sag (mv held t : Nat)
  | mateConnect (held t : Nat)
  | mateDisconnect (held t : Nat)
  -- interrupts and events (R562–R583)
  | sourceAssert (n t : Nat)
  | bicClaim (c t : Nat)
  | bicComplete (p : Machine.Path) (c : Nat) (w : Word) (t : Nat)
  | reevaluate (c t : Nat)
  | hcomplete (p : Machine.Path) (w : Word) (t : Nat)
  | htmo (n t : Nat)
  | levelRedeliver (n target t : Nat)
  | groupRelease (g t : Nat)
  | norWrite (ok : Bool) (t : Nat)
  | rsel (p : Machine.Path) (w : Word) (t : Nat)
  -- snapshots and trace (R627–R634)
  | snapctlSnap (p : Machine.Path) (w : Word) (t : Nat)
  | snapCapture (t : Nat)
  | hammerTraceArm (p : Machine.Path) (w : Word) (t : Nat)
  | hammerTraceForce (p : Machine.Path) (w : Word) (t : Nat)
  | hammerTrdata (t : Nat)
  -- JTAG (R635–R638); `bits`: the boundary register as shifted in
  | idcode
  | samplePreload (bits : Nat)
  | extest (bits : Nat)
  | highz
  | clamp
  | bypass
  -- registers without a row, and later rows
  | registerWrite (p : Machine.Path) (addr : Nat) (w : Word) (t : Nat)
  | mgmtPortLinkUp (t : Nat)
  | mgmtPortLinkDown (t : Nat)
  | mainDieLinkLoss (t : Nat)
  | neighbourAdvertisement (e : Machine.EthIn) (a : BitVec 128) (mac port t : Nat)
  | tuyereDomainOff (mv held t : Nat)
deriving DecidableEq, Repr

end Sys2Proof
end

