-- ==== Sys2Proof/Machine/Slots.lean ====
section
/-! DEFINITION. The slot words (03_registers_and_bundles, 04_slot_operations): which field values each opcode admits
(R105, R118, R119, R134, R164, R169–R172), which registers it writes (R133), and the check of a whole bundle as it
stands in the Hammer store (R110–R114, R133, R134). -/

namespace Sys2Proof.Machine

/-- A register a slot word writes. -/
inductive Dest where
  | s (n : Nat)
  | amask (h : Nat)
  | v (n : Nat)
  | g (n : Nat)
  | k (n : Nat)
  | p (n : Nat)
  | acc (n : Nat)
deriving DecidableEq, Repr

/-- PRED obeys R105: with PE 0, PN and PIDX are 0. -/
def predLegal (p : Nat) : Bool := p < 32 && (p ≥ 16 || p == 0)

/-- A register number of a file (R97): 0 v, 1 g, 2 k, 3 p; `src` admits aid and hid. -/
def regLegal (file n : Nat) (src : Bool) : Bool :=
  match file with
  | 0 => n < 64
  | 1 => n < 32 || (src && n < 34)
  | 2 => n < 16
  | 3 => n < 8
  | _ => false

/-- The destination of a file number. -/
def fileDest (file n : Nat) : Dest :=
  match file with
  | 0 => .v n
  | 1 => .g n
  | 2 => .k n
  | _ => .p n

/-- Branches (R127, R154). -/
def cbLegal (op : Nat) (f : CBf) : Bool :=
  f.sa < 16 && f.sb < 16 && f.tgt < 2 ^ 19 &&
  match op with
  | 1 => f.cc < 7 && (f.cc != 0 || (f.sa == 0 && f.sb == 0))
  | 2 => f.cc == 0 && f.sb == 0
  | 3 => f.cc == 0 && f.sa == 0
  | 4 => f.cc == 0 && f.sb == 0 && f.tgt == 0
  | _ => false

/-- Registers a branch writes. -/
def cbDests (op : Nat) (f : CBf) : List Dest :=
  match op with
  | 2 => [.s f.sa]
  | 3 => [.s f.sb]
  | _ => []

/-- Scalar, mask, memory and wait operations (R128, R155). -/
def csLegal (op : Nat) (f : CSf) : Bool :=
  let z (l : List Nat) : Bool := l.all (· == 0)
  f.d < 16 && f.a < 16 && f.b < 16 && f.imm < 2 ^ 24 &&
  if op = 0x40 then z [f.d, f.a, f.b, f.h] && f.imm < 2 ^ 16
  else if op = 0x41 then z [f.a, f.b, f.h, f.imm]
  else if op = 0x42 then z [f.d, f.a, f.b] && f.h < 10 && f.imm < 2 ^ 16
  else if op = 0x43 then z [f.d, f.a, f.b, f.h] && f.imm < 2 ^ 16
  else if 0x48 ≤ op ∧ op ≤ 0x53 then z [f.h, f.imm]
  else if op = 0x54 ∨ op = 0x57 ∨ op = 0x58 then z [f.b, f.h]
  else if op = 0x55 ∨ op = 0x56 then z [f.a, f.b, f.h]
  else if op = 0x59 then z [f.d, f.h]
  else if op = 0x5A then z [f.a, f.b, f.h] && f.imm < 8
  else if op = 0x5B then z [f.a, f.b, f.h, f.imm]
  else false

/-- Registers a CS operation writes. -/
def csDests (op : Nat) (f : CSf) : List Dest :=
  if op = 0x42 then [.amask f.h]
  else if op = 0x43 then (List.range 10).map .amask
  else if 0x48 ≤ op ∧ op ≤ 0x5B ∧ op ≠ 0x59 then [.s f.d] else []

/-- Depth of an MA element type (R157); 0 for a reserved code. -/
def maDepth (t : Nat) : Nat :=
  if t = 1 ∨ t = 2 then 1 else if 3 ≤ t ∧ t ≤ 10 then 2 else if t = 11 ∨ t = 12 then 4 else 0

/-- Whether an MA element type is an MX type. -/
def maMx (t : Nat) : Bool := (6 ≤ t && t ≤ 10) || t == 12

/-- Multiply-accumulate and combine (R120, R157, R158, R160). -/
def maLegal (op : Nat) (f : MAf) : Bool :=
  predLegal f.pred && f.acc < 4 && f.va < 64 && f.vb < 64 && f.vx < 64 && f.mod < 2 ^ 15 &&
  if op = 0x10 then f.vb == 0 && f.vx == 0 && f.mod < 96
  else
    let bt := if f.mod / 16 % 16 = 0 then op else f.mod / 16 % 16
    maDepth op != 0 && maDepth bt == maDepth op && f.mod < 256 && f.mod / 4 % 2 == 0 &&
    (maMx op || maMx bt || f.vx == 0)

/-- The bank a multiply-accumulate or combine writes; an opcode that R118 does not assign writes nothing. -/
def maDests (op : Nat) (f : MAf) : List Dest := if maDepth op ≠ 0 ∨ op = 0x10 then [.acc f.acc] else []

/-- Columns per read-out of a target (R161). -/
def mrCols (tf : Nat) : Nat := if tf = 0 ∨ tf = 5 then 1 else if tf = 1 ∨ tf = 2 then 2 else 4

/-- Read-out and packing (R121, R161, R162). -/
def mrLegal (op : Nat) (f : MRf) : Bool :=
  predLegal f.pred && f.acc < 4 && f.vd < 64 && f.sel < 32 && f.mofs < 256 && f.mod < 512 &&
  if op = 0x40 then f.tf < 6 && f.rm < 3 && f.sel < 24 / mrCols f.tf && f.mod == 0
  else if op = 0x41 then f.tf == 0 && f.rm == 0 && f.mofs == 0 && f.mod < 4 && f.sel + 32 * f.mod < 96
  else false

/-- The register a read-out or packing writes. -/
def mrDests (op : Nat) (f : MRf) : List Dest := if op = 0x40 ∨ op = 0x41 then [.v f.vd] else []

/-- Accumulator control (R122). -/
def mcLegal (op : Nat) (f : MCf) : Bool :=
  predLegal f.pred && f.acc < 4 && f.exp < 1024 && f.pd < 8 &&
  if op = 0x60 ∨ op = 0x61 then f.pd == 0
  else if 0x62 ≤ op ∧ op ≤ 0x65 then f.exp == 0 else false

/-- Registers an accumulator control writes. -/
def mcDests (op : Nat) (f : MCf) : List Dest :=
  if op = 0x60 ∨ op = 0x61 then [.acc f.acc] else if 0x62 ≤ op ∧ op ≤ 0x65 then [.p f.pd] else []

/-- Element width of a narrowing or widening conversion opcode. -/
def cvtWidth (op : Nat) : Nat :=
  if op = 0x50 ∨ op = 0x51 ∨ op = 0x58 ∨ op = 0x59 then 16
  else if op = 0x56 ∨ op = 0x5E then 4 else 8

/-- Highest part index of an MX element type `e` (R170): 8-bit 3, 6-bit 4, 4-bit 7. -/
def mxParts (e : Nat) : Nat := if e = 2 ∨ e = 3 then 5 else if e = 4 then 8 else 4

/-- VR operations (R123, R164, R169–R171). -/
def vrLegal (op : Nat) (f : VRf) : Bool :=
  let un : Bool := regLegal f.df f.d false && regLegal f.sf f.a true
  let bin : Bool := un && regLegal f.sf f.b true
  let vec : Bool := f.df == 0 && f.sf < 3
  let vv : Bool := f.df == 0 && f.sf == 0
  let sc : Bool := (f.df == 1 || f.df == 2) && (f.sf == 1 || f.sf == 2)
  let noB : Bool := f.b == 0
  let noC : Bool := f.c == 0
  let noRm : Bool := f.rm == 0
  let noMod : Bool := f.mod == 0
  predLegal f.pred && f.d < 64 && f.a < 64 && f.b < 64 && f.c < 64 && f.mod < 32 &&
  if (1 ≤ op ∧ op ≤ 3) ∨ op = 6 ∨ op = 7 ∨ (0x20 ≤ op ∧ op ≤ 0x27) ∨ (0x29 ≤ op ∧ op ≤ 0x2F) then
    vec && bin && noC && noRm && noMod
  else if op = 4 ∨ op = 5 then vec && bin && noRm && noMod
  else if (8 ≤ op ∧ op ≤ 0xE) ∨ op = 0x28 then vec && un && noB && noC && noRm && noMod
  else if 0x30 ≤ op ∧ op ≤ 0x3B then sc && bin && noC && noRm && noMod
  else if op = 0x3C then
    (f.df == 1 || f.df == 2 || f.df == 3) && (f.sf == 1 || f.sf == 2) && un && noB && noC && noRm && noMod
  else if 0x40 ≤ op ∧ op ≤ 0x43 then
    f.df == 3 && f.sf < 3 && bin && noC && noRm && f.mod / 8 < 3 && f.mod % 8 < (if op < 0x42 then 7 else 6)
  else if op = 0x44 ∨ op = 0x45 then
    f.df == 3 && (f.sf == 1 || f.sf == 2) && bin && noC && noRm && f.mod / 8 < 3 && f.mod % 8 < 6
  else if op = 0x46 ∨ op = 0x47 then vec && bin && noC && noRm && f.mod < (if op = 0x46 then 7 else 6)
  else if op = 0x48 then vec && bin && noRm && noMod
  else if op = 0x49 then vv && noC && noRm && noMod
  else if 0x4A ≤ op ∧ op ≤ 0x4D then vv && noB && noC && noRm && noMod
  else if 0x50 ≤ op ∧ op ≤ 0x53 then vv && noB && noC && f.rm < 3 && f.mod < 32 / cvtWidth op
  else if op = 0x54 ∨ op = 0x5C then vv && noB && noC && f.rm < 3 && noMod
  else if op = 0x55 ∨ op = 0x56 ∨ (0x58 ≤ op ∧ op ≤ 0x5B) ∨ op = 0x5D ∨ op = 0x5E then
    vv && noB && noC && noRm && f.mod < 32 / cvtWidth op
  else if 0x60 ≤ op ∧ op ≤ 0x65 then vv && noC && f.rm < 3 && f.mod < mxParts (op - 0x60)
  else if 0x68 ≤ op ∧ op ≤ 0x6D then vv && noC && noRm && f.mod < mxParts (op - 0x68)
  else false

/-- Whether a VR opcode is assigned (R118, R164–R171). -/
def vrKnown (op : Nat) : Bool :=
  (1 ≤ op && op ≤ 0x0E) || (0x20 ≤ op && op ≤ 0x3C) || (0x40 ≤ op && op ≤ 0x4D) || (0x50 ≤ op && op ≤ 0x56) ||
    (0x58 ≤ op && op ≤ 0x5E) || (0x60 ≤ op && op ≤ 0x65) || (0x68 ≤ op && op ≤ 0x6D)

/-- The register a VR operation writes. -/
def vrDests (op : Nat) (f : VRf) : List Dest := if vrKnown op then [fileDest f.df f.d] else []

/-- Whether a VI opcode is assigned. -/
def viKnown (op : Nat) : Bool :=
  (0x80 ≤ op && op ≤ 0x85) || (0x88 ≤ op && op ≤ 0x8E) || (0x90 ≤ op && op ≤ 0x92) || (0x98 ≤ op && op ≤ 0x9D) || op == 0xA0

/-- The register a VI operation writes. -/
def viDests (op : Nat) (f : VIf) : List Dest := if viKnown op then [fileDest f.df f.d] else []

/-- VI operations (R124, R164, R171). -/
def viLegal (op : Nat) (f : VIf) : Bool :=
  let un : Bool := regLegal f.df f.d false && regLegal f.sf f.a true
  let vec : Bool := f.df == 0 && f.sf < 3
  let scD : Bool := f.df == 1 || f.df == 2
  let scS : Bool := f.sf == 1 || f.sf == 2
  let noMod : Bool := f.mod == 0
  let noA : Bool := f.a == 0 && f.sf == 0
  predLegal f.pred && f.d < 64 && f.a < 64 && f.mod < 8 && f.imm < 2 ^ 16 && un &&
  if 0x80 ≤ op ∧ op ≤ 0x83 then vec && noMod
  else if op = 0x84 ∨ op = 0x85 then f.df == 0 && noA && noMod
  else if 0x88 ≤ op ∧ op ≤ 0x8B then scD && scS && noMod
  else if op = 0x8C then scD && noA && noMod
  else if op = 0x8D ∨ op = 0x8E then scD && scS && noMod && f.imm < 64
  else if op = 0x90 then scD && f.sf == 0 && noMod && f.imm < 32
  else if op = 0x91 then f.df == 0 && scS && noMod && f.imm < 32
  else if op = 0x92 then f.df == 0 && scS && noMod && f.imm < 128
  else if 0x98 ≤ op ∧ op ≤ 0x9D then f.df == 0 && f.sf == 0 && noMod && f.imm < 128
  else if op = 0xA0 then f.df == 3 && scS && f.mod < 6
  else false

/-- L-slot operations (R125, R172); `l0` says the word stands in slot L0. -/
def lsLegal (l0 : Bool) (op : Nat) (f : LSf) : Bool :=
  predLegal f.pred && f.kb < 16 && f.ks < 16 && f.am < 3 && f.off < 2 ^ 19 && (f.am != 0 || f.ks == 0) &&
  1 ≤ op && op ≤ 12 &&
  (l0 || op ≤ 2 || op == 5 || op == 6 || op == 9 || op == 10) &&
  f.dr < (if op ≤ 4 then 64 else if op ≤ 8 then 32 else 16)

/-- Whether an L-slot opcode is a load. -/
def lsLoad (op : Nat) : Bool := op % 2 == 1

/-- Data file of an L-slot opcode: 0 v, 1 g, 2 k. -/
def lsFile (op : Nat) : Nat := if op ≤ 4 then 0 else if op ≤ 8 then 1 else 2

/-- Registers an L-slot word writes: the loaded register and the post-updated base, once where they are one (R133 speaks of
two slot words). `l0`: the word stands in slot L0; an opcode that its slot does not assign writes nothing. -/
def lsDests (l0 : Bool) (op : Nat) (f : LSf) : List Dest :=
  let known : Bool := 1 ≤ op && op ≤ 12 && (l0 || op ≤ 2 || op == 5 || op == 6 || op == 9 || op == 10)
  let l := if lsLoad op then [fileDest (lsFile op) f.dr] else []
  if known = false then [] else if f.am = 1 ∧ l.contains (.k f.kb) = false then l ++ [.k f.kb] else l

/-- Exchange operations (R129, R176, R181). -/
def xeLegal (op : Nat) (f : XEf) : Bool :=
  f.tok < 16 && f.sa < 16 && f.sd < 16 && f.sl < 16 && f.ss < 16 && f.bc < 2 &&
  (if f.bc = 0 then f.ss == 0 && f.hid < 10 else f.hid == 0) &&
  if 1 ≤ op ∧ op ≤ 10 then f.mod == 0
  else if op = 0x10 then f.sa == 0 && f.sd == 0 && f.sl == 0 && f.ss == 0 && f.mod < 2
  else false

/-- Crucible commands (R130, R182). -/
def xcLegal (op : Nat) (f : XCf) : Bool :=
  (op == 0x40 || op == 0x41) && f.tok < 16 && f.sa < 16 && f.ss < 16 && f.bc < 2 &&
  (if f.bc = 0 then f.ss == 0 && f.stk < 20 else f.stk == 0)

/-- Stream operations (R131, R185). -/
def nsLegal (op : Nat) (f : NSf) : Bool :=
  f.tok < 16 && f.sa < 16 && f.sb < 16 && f.strm < 2 ^ 16 && f.imm < 2 ^ 12 &&
  match op with
  | 1 => f.sb == 0
  | 2 => f.imm == 0
  | 3 => f.imm == 0
  | 4 => f.imm == 0
  | 5 => f.tok == 0 && f.sa == 0 && f.sb == 0 && f.imm < 2
  | 6 => f.sa == 0 && f.sb == 0 && f.imm == 0
  | 7 => f.sb == 0 && f.imm == 0
  | _ => false

/-- Temper operations (R132, R187, R188). -/
def ttLegal (op : Nat) (f : TTf) : Bool :=
  f.heat < 2 ^ 12 && f.opt < 8 && f.imm < 2 ^ 16 &&
  match op with
  | 1 => f.opt == 0 && f.imm < 8
  | 2 => f.heat == 0 && f.imm == 0
  | 3 => f.heat == 0 && f.opt == 0
  | 4 => f.heat == 0 && f.opt == 0
  | _ => false

/-! ### A bundle as it stands in the Hammer store -/

/-- What the bundle rules need of one slot word. -/
structure SlotInfo where
  legal : Bool
  branch : Bool
  ma : Bool
  isHeat : Bool
  dests : List Dest
deriving DecidableEq, Repr

/-- Bits `hi` to `lo` of a slot word. -/
def fld (w hi lo : Nat) : Nat := w / 2 ^ lo % 2 ^ (hi + 1 - lo)

/-- The fields of a slot word in each format (R120–R132). -/
def cbOf (w : Nat) : CBf := ⟨fld w 39 36, fld w 35 32, fld w 31 29, fld w 18 0⟩
/-- See `cbOf`. -/
def csOf (w : Nat) : CSf := ⟨fld w 39 36, fld w 35 32, fld w 31 28, fld w 27 24, fld w 23 0⟩
/-- See `cbOf`. -/
def maOf (w : Nat) : MAf := ⟨fld w 39 35, fld w 34 33, fld w 32 27, fld w 26 21, fld w 20 15, fld w 14 0⟩
/-- See `cbOf`. -/
def mrOf (w : Nat) : MRf :=
  ⟨fld w 39 35, fld w 34 33, fld w 32 27, fld w 26 22, fld w 21 14, fld w 13 12, fld w 11 9, fld w 8 0⟩
/-- See `cbOf`. -/
def mcOf (w : Nat) : MCf := ⟨fld w 39 35, fld w 34 33, fld w 32 23, fld w 22 20⟩
/-- See `cbOf`. -/
def vrOf (w : Nat) : VRf :=
  ⟨fld w 39 35, fld w 34 29, fld w 28 23, fld w 22 17, fld w 16 11, fld w 10 9, fld w 8 7, fld w 6 5, fld w 4 0⟩
/-- See `cbOf`. -/
def viOf (w : Nat) : VIf := ⟨fld w 39 35, fld w 34 29, fld w 28 23, fld w 22 21, fld w 20 19, fld w 18 16, fld w 15 0⟩
/-- See `cbOf`. -/
def lsOf (w : Nat) : LSf := ⟨fld w 39 35, fld w 34 29, fld w 28 25, fld w 24 21, fld w 20 19, fld w 18 0⟩
/-- See `cbOf`. -/
def xeOf (w : Nat) : XEf :=
  ⟨fld w 39 36, fld w 35 32, fld w 31 28, fld w 27 24, fld w 23 20, fld w 19 19, fld w 18 15, fld w 14 0⟩
/-- See `cbOf`. -/
def xcOf (w : Nat) : XCf := ⟨fld w 39 36, fld w 35 32, fld w 31 27, fld w 26 26, fld w 25 22⟩
/-- See `cbOf`. -/
def nsOf (w : Nat) : NSf := ⟨fld w 39 36, fld w 35 32, fld w 31 28, fld w 27 12, fld w 11 0⟩
/-- See `cbOf`. -/
def ttOf (w : Nat) : TTf := ⟨fld w 39 28, fld w 27 25, fld w 15 0⟩

/-- A slot word read by its slot and opcode (R118–R132). Opcode 0 with any other bit set is illegal, in an M, V or L slot too,
and a word whose opcode lies unassigned in the CB or MA range counts as a branch or an MA-format operation under R133 (DESIGN
CHOICE, assumption log 149; unsafe). -/
def slotInfo (slot w : Nat) : SlotInfo :=
  let op := fld w 47 40
  let no : SlotInfo := ⟨false, false, false, false, []⟩
  if op = 0 then ⟨w == 0, false, false, false, []⟩
  else if slot = 0 then
    if op < 0x40 then
      { no with legal := cbLegal op (cbOf w) && fld w 28 19 == 0, branch := true, dests := cbDests op (cbOf w) }
    else { no with legal := csLegal op (csOf w), dests := csDests op (csOf w) }
  else if slot ≤ 2 then
    if op < 0x40 then { no with legal := maLegal op (maOf w), ma := true, dests := maDests op (maOf w) }
    else if op < 0x60 then { no with legal := mrLegal op (mrOf w), dests := mrDests op (mrOf w) }
    else { no with legal := mcLegal op (mcOf w) && fld w 19 0 == 0, dests := mcDests op (mcOf w) }
  else if slot ≤ 4 then
    if op < 0x80 then { no with legal := vrLegal op (vrOf w), dests := vrDests op (vrOf w) }
    else { no with legal := viLegal op (viOf w), dests := viDests op (viOf w) }
  else if slot ≤ 6 then { no with legal := lsLegal (slot = 5) op (lsOf w), dests := lsDests (slot = 5) op (lsOf w) }
  else if slot = 7 then
    if op < 0x40 then { no with legal := xeLegal op (xeOf w) }
    else { no with legal := xcLegal op (xcOf w) && fld w 21 0 == 0 }
  else if slot = 8 then { no with legal := nsLegal op (nsOf w) }
  else { no with legal := ttLegal op (ttOf w) && fld w 24 16 == 0, isHeat := op == 1 }

/-- Length in bytes of a length code (R111). -/
def lenBytes (len : Nat) : Nat := 16 * (len % 4 + 1)

/-- Slot capacity of a length code (R111). -/
def lenCap (len : Nat) : Nat :=
  match len % 4 with
  | 0 => 2
  | 1 => 4
  | 2 => 7
  | _ => 10

/-- The outcome of the decode check of a bundle. -/
inductive BundleCheck where
  | ok
  | illegalBundle
  | illegalOp (slot : Nat)
deriving DecidableEq, Repr

/-- The present slots of a header, by packing index (R112, R113). -/
def presentSlots (hdr : Nat) : List Nat := (List.range 10).filter (fun i => hdr / 2 ^ (20 + i) % 2 == 1)

/-- No element twice. -/
def noDup (l : List Dest) : Bool :=
  match l with
  | [] => true
  | d :: r => !r.contains d && noDup r

/-- The check of R133 and R134 on a bundle's bits (bit 0 the header's bit 0; bits above the length not looked at).
The condition on the image's code region is the fetch's. -/
def checkBundle (raw : Nat) : BundleCheck :=
  let hdr := raw % 2 ^ 32
  let len := hdr / 2 ^ 30
  let bits := raw % 2 ^ (8 * lenBytes len)
  let slots := presentSlots hdr
  let n := slots.length
  let infos := (slots.zipIdx).map (fun p => (p.1, slotInfo p.1 (bits / 2 ^ (48 * p.2 + 32) % 2 ^ 48)))
  let hm : Bool := hdr / 2 ^ 19 % 2 == 1
  let stop : Bool := hdr / 2 ^ 18 % 2 == 1
  let heat : Bool := infos.any (fun p => p.2.isHeat && p.1 == 9)
  let fill := bits / 2 ^ (48 * n + 32)
  if n > lenCap len ∨ hdr % 2 ^ 18 ≠ 0 ∨ fill ≠ 0 ∨ hm ≠ heat ∨
      (stop && infos.any (fun p => p.1 == 0 && p.2.branch)) ∨
      (infos.filter (fun p => p.2.ma)).length > 1 ∨
      !noDup (infos.flatMap (fun p => p.2.dests)) then .illegalBundle
  else
    match infos.find? (fun p => !p.2.legal) with
    | some p => .illegalOp p.1
    | none => .ok

end Sys2Proof.Machine
end

