-- ==== Sys2Proof/Decode.lean ====
section
/-! DEFINITION. Decoding. The operation and event table gives no row any bits, so no table word spells a command (assumption
log 2). The slot words of a bundle have bits of their own (R110–R132): which command each of them is, and which commands a
bundle is. -/

namespace Sys2Proof

/-- The command that a word spells by the table's bits: none. -/
def decodeTableWord (_nbits _w : Nat) : Option Instr := none

open Machine in
/-- The operation of a C-slot opcode (R154, R155). -/
def decodeC (h : Hd) (op w : Nat) : Instr :=
  if op = 1 then .br h (cbOf w)
  else if op = 2 then .dbnz h (cbOf w)
  else if op = 3 then .brl h (cbOf w)
  else if op = 4 then .brInd h (cbOf w)
  else if op = 0x40 then .waitm h (csOf w)
  else if op = 0x41 then .wait h (csOf w)
  else if op = 0x42 then .amaskSet h (csOf w)
  else if op = 0x43 then .amaskSetAll h (csOf w)
  else if op ≤ 0x4D then .sArith h op (csOf w)
  else if op ≤ 0x50 then .sBitwise h op (csOf w)
  else if op ≤ 0x53 then .sShift h op (csOf w)
  else if op = 0x54 then .addiS64 h (csOf w)
  else if op = 0x55 then .moviS64 h (csOf w)
  else if op = 0x56 then .ldc h (csOf w)
  else if op = 0x57 then .ldcx h (csOf w)
  else if op = 0x58 then .ldm h (csOf w)
  else if op = 0x59 then .stm h (csOf w)
  else if op = 0x5A then .pcount h (csOf w)
  else .rdbc h (csOf w)

open Machine in
/-- The operation of an M-slot opcode (R157–R163). -/
def decodeM (h : Hd) (op w : Nat) : Instr :=
  if op = 0x10 then .mcomb h (maOf w)
  else if op < 0x40 then .mmac h op (maOf w)
  else if op = 0x40 then .mrd h (mrOf w)
  else if op = 0x41 then .mpk h (mrOf w)
  else if op = 0x60 then .mclr h (mcOf w)
  else if op = 0x61 then .mrsc h (mcOf w)
  else .mtst h op (mcOf w)

open Machine in
/-- The operation of a VR opcode (R165–R171). -/
def decodeVR (h : Hd) (op w : Nat) : Instr :=
  let f := vrOf w
  if op ≤ 0x03 then .addSubMulF32 h op f
  else if op ≤ 0x05 then .fmaFmsF32 h op f
  else if op ≤ 0x07 then .minMaxF32 h op f
  else if op ≤ 0x09 then .absNegF32 h op f
  else if op = 0x0A then .sqrtF32 h f
  else if op ≤ 0x0E then .rcpRsqrtExp2Log2F32 h op f
  else if op ≤ 0x25 then .int32Arith h op f
  else if op ≤ 0x27 then .minMaxS32 h op f
  else if op = 0x28 then .absS32 h f
  else if op = 0x29 then .slaS32 h f
  else if op ≤ 0x2C then .b32Bitwise h op f
  else if op ≤ 0x2F then .b32Shift h op f
  else if op ≤ 0x35 then .vArithS64 h op f
  else if op ≤ 0x38 then .vBitwiseB64 h op f
  else if op ≤ 0x3B then .vShiftB64 h op f
  else if op = 0x3C then .movB64 h f
  else if op ≤ 0x43 then .cmpanyCmpall h op f
  else if op ≤ 0x45 then .cmpS64U64 h op f
  else if op ≤ 0x47 then .cmpm h op f
  else if op = 0x48 then .selB32 h f
  else if op = 0x49 then .permB32 h f
  else if op ≤ 0x4C then .raddRmaxRminF32 h op f
  else if op = 0x4D then .raddS32 h f
  else if op ≤ 0x53 then .cvtNarrow h op f
  else if op = 0x54 then .cvtS32F32 h f
  else if op ≤ 0x56 then .cvtIntNarrow h op f
  else if op = 0x5C then .cvtF32S32 h f
  else if op ≤ 0x5E then .cvtWiden h op f
  else if op ≤ 0x65 then .mxq h op f
  else .mxdq h op f

open Machine in
/-- The operation of a VI opcode. -/
def decodeVI (h : Hd) (op w : Nat) : Instr :=
  let f := viOf w
  if op ≤ 0x81 then .addiMuliS32 h op f
  else if op ≤ 0x83 then .addiMuliF32 h op f
  else if op = 0x84 then .moviS32 h f
  else if op = 0x85 then .moviF32 h f
  else if op ≤ 0x8B then .vAddiMuliS64 h op f
  else if op = 0x8C then .vMoviS64 h f
  else if op ≤ 0x8E then .slliSrliB64 h op f
  else if op = 0x90 then .lextB32 h f
  else if op = 0x91 then .linsB32 h f
  else if op = 0x92 then .binsB8 h f
  else if op ≤ 0x9D then .mxsc h op f
  else .cmpiS64 h f

open Machine in
/-- The operation of an L-slot opcode (R172). -/
def decodeL (h : Hd) (op w : Nat) : Instr :=
  let f := lsOf w
  if op = 1 ∨ op = 5 ∨ op = 9 then .ldA h op f
  else if op = 2 ∨ op = 6 ∨ op = 10 then .stA h op f
  else if op = 3 ∨ op = 7 ∨ op = 11 then .ldH h op f
  else .stH h op f

open Machine in
/-- The operation of an X-slot opcode (R176, R181, R182). -/
def decodeX (h : Hd) (op w : Nat) : Instr :=
  if op ≤ 9 then .xfer h op (xeOf w)
  else if op = 0x0A then .xfillHbm h (xeOf w)
  else if op = 0x10 then .xfence h (xeOf w)
  else if op = 0x40 then .crcCmd h (xcOf w)
  else .crcCmdHi h (xcOf w)

open Machine in
/-- The operation of an N-slot opcode (R185). -/
def decodeN (h : Hd) (op w : Nat) : Instr :=
  let f := nsOf w
  if op = 1 then .sig h f
  else if op = 2 then .send h f
  else if op = 3 then .recv h f
  else if op = 4 then .aredPp h f
  else if op = 5 then .paceGrp h f
  else if op = 6 then .nfence h f
  else .rsig h f

open Machine in
/-- The operation of a T-slot opcode (R187). -/
def decodeT (h : Hd) (op w : Nat) : Instr :=
  let f := ttOf w
  if op = 1 then .heat h f
  else if op = 2 then .opreq h f
  else if op = 3 then .tSnap h f
  else .phint h f

open Machine in
/-- The command that a slot word is: its slot and opcode name the operation and its format (R118); an illegal word is none
(R134). -/
def decodeSlot (h : Hd) (w : Nat) : Option Instr :=
  let op := fld w 47 40
  if (slotInfo h.slot w).legal = false then none
  else if op = 0 then some (.nop h none)
  else if h.slot = 0 then some (decodeC h op w)
  else if h.slot ≤ 2 then some (decodeM h op w)
  else if h.slot ≤ 4 then some (if op < 0x80 then decodeVR h op w else decodeVI h op w)
  else if h.slot ≤ 6 then some (decodeL h op w)
  else if h.slot = 7 then some (decodeX h op w)
  else if h.slot = 8 then some (decodeN h op w)
  else some (decodeT h op w)

open Machine in
/-- The commands that a bundle is (R110–R114): its slot words in packing order and, where its header has STOP, the row of STOP;
a bundle without slot words is a `nop` that carries its bits, and so is one that R133 or R134 refuses. -/
def decodeBundle (raw : Nat) : List Instr :=
  let hdr := raw % 2 ^ 32
  let len := hdr / 2 ^ 30
  let stop : Bool := hdr / 2 ^ 18 % 2 == 1
  let slots := presentSlots hdr
  let n := slots.length
  let all : Instr := .nop ⟨9, true, len⟩ (some raw)
  if checkBundle raw ≠ .ok ∨ (n = 0 ∧ stop = false) then [all]
  else
    let words := slots.zipIdx.filterMap (fun p =>
      decodeSlot ⟨p.1, decide (p.2 + 1 = n) && !stop, len⟩ (raw / 2 ^ (48 * p.2 + 32) % 2 ^ 48))
    if stop then words ++ [.stop len] else words

end Sys2Proof
end

