-- ==== Sys2Proof/Machine/Crc.lean ====
section
/-! DEFINITION. The cyclic redundancy checks: CRC-32C (R264), the event record's CRC-16 (R573). -/

namespace Sys2Proof.Machine

/-- One bit of a reflected CRC-32C. -/
def crc32cBit (c : Nat) : Nat := if c % 2 = 1 then Nat.xor (c / 2) 0x82F63B78 else c / 2

/-- `n` bits. -/
def crc32cBits : Nat → Nat → Nat
  | 0, c => c
  | n + 1, c => crc32cBits n (crc32cBit c)

/-- The register after the bytes. -/
def crc32cGo : List Byte → Nat → Nat
  | [], c => c
  | b :: r, c => crc32cGo r (crc32cBits 8 (Nat.xor c b.toNat))

/-- CRC-32C of RFC 3720 (R264). -/
def crc32c (l : List Byte) : Nat := Nat.xor (crc32cGo l 0xFFFFFFFF) 0xFFFFFFFF

/-- One bit of the CRC-16 with polynomial 0x1021. -/
def crc16Bit (c : Nat) : Nat := if c ≥ 0x8000 then Nat.xor (c * 2 % 65536) 0x1021 else c * 2 % 65536

/-- `n` bits. -/
def crc16Bits : Nat → Nat → Nat
  | 0, c => c
  | n + 1, c => crc16Bits n (crc16Bit c)

/-- CRC-16 with initial value 0xFFFF, not reflected (R573). -/
def crc16 (l : List Byte) : Nat := l.foldl (fun c b => crc16Bits 8 (Nat.xor c (b.toNat * 256))) 0xFFFF

end Sys2Proof.Machine
end

