-- ==== Sys2Proof/Config.lean ====
section
/-! DEFINITION. What the spec leaves open: free values. A free value is a constant without a body applied to a plain
counter of the state, so that no proof can see which value it is. -/

namespace Sys2Proof

/-- The `n`-th free value, as an unbounded number; its user takes the bits it needs (assumption log 6). -/
opaque Config.freeValue : Nat → Nat

/-- The number of members of a stream's collective group, less 2, and this module's rank in it before reduction modulo
that number: R355 uses both and the spec says nowhere how the device learns them (assumption log 9). -/
opaque Config.groupSize : Nat → Nat
/-- See `Config.groupSize`. -/
opaque Config.groupRank : Nat → Nat

/-- Whether board inputs 2 and 3 (pressure) and 4 (FL1) are configured: R471 speaks of it and no field says it
(assumption log 17). -/
opaque Config.boardInput : Nat → Bool

/-! What a part is made with (R5, R7, R603–R605); assumption log 18. -/

/-- The vendor root public key in ROM, as a number of 57 bytes. -/
opaque Config.rootKey : Nat
/-- OTP_SEED, as a number of 32 bytes. -/
opaque Config.otpSeed : Nat
/-- OTP_BASE, the base of the MAC addresses (R332). -/
opaque Config.otpBase : Nat
/-- The UDP source port of the packets of a stream: no rule gives it (assumption log 153). -/
opaque Config.udpSource : Nat → Nat
/-- The serial number. -/
opaque Config.serial : Nat
/-- The screening: 0 the S code, else the E code (R5). -/
opaque Config.screening : Nat
/-- The three certificates by their SEL of ATTEST, 2 to 4. -/
opaque Config.cert : Nat → List (BitVec 8)
/-- What the stored owner configuration record gives the register at an address; the spec does not lay the record's body
out (assumption log 19). -/
opaque Config.ownerWord : List (BitVec 8) → Nat → Nat

end Sys2Proof
end

