-- ==== Sys2Proof/Machine/Pulse.lean ====
section
/-! DEFINITION. The CORE pulse clock (R32, R403–R405, R425, R426): pulse positions, which of them pass, frames and
superframes, stretched positions, and the changes of the ratio k. Times here are in 1/16 ns: a position lasts 10, a
stretched one 15. -/

namespace Sys2Proof.Machine

/-- The five bits of `j` in reverse order (R404). -/
def bitrev5 (j : Nat) : Nat := j % 2 * 16 + j / 2 % 2 * 8 + j / 4 % 2 * 4 + j / 8 % 2 * 2 + j / 16 % 2

/-- How many of the positions before position `n` pass at the ratio k/32, counted from the start of a frame (R404). -/
def passedIn (k n : Nat) : Nat := n / 32 * k + ((List.range (n % 32)).filter (fun j => bitrev5 j < k)).length

/-- A raise of k that has been decided (R426): the ratio, when it was decided, and the first position of the run of
unstretched positions it waits for. -/
structure Raise where
  k : Nat
  at_ : Nat
  run : Nat
deriving DecidableEq, Repr

/-- The pulse gate. `idx`: the present position, counted from the release of compute reset, and when it `begun`; `long`:
it is stretched; `stretch`: how many of the positions after it will be; `passed`: the passed positions before it; `k`: the
ratio in force; `next`: the ratio from the next frame boundary on; `raise`: a raise that waits for its run; `openAt`: the
last frame that was open, by its number (R405). -/
structure Pulse where
  begun : Nat
  idx : Nat
  long : Bool
  stretch : Nat
  passed : Nat
  k : Nat
  next : Option Nat
  raise : Option Raise
  openAt : Nat
deriving DecidableEq, Repr

/-- The gate at compute reset: k = 1 (R439). -/
def Pulse.reset : Pulse := ⟨0, 0, false, 0, 0, 1, none, none, 0⟩

/-- The frame a position lies in. -/
def frameOf (i : Nat) : Nat := i / 32

/-- Whether a frame is open at the ratio k/32 in force at its start (R405). -/
def openFrame (k f : Nat) : Bool := bitrev5 (f % 32) < k

/-- The last open frame up to frame `f` at the ratio k/32. -/
def lastOpen (k f : Nat) : Nat := f - ((List.range 32).find? (fun d => openFrame k (f - d))).getD 0

/-- The first open frame after frame `f` at the ratio k/32. -/
def nextOpen (k f : Nat) : Nat := f + 1 + ((List.range 32).find? (fun d => openFrame k (f + 1 + d))).getD 0

/-- Where the present position ends. -/
def Pulse.ends (p : Pulse) : Nat := p.begun + (if p.long then 15 else 10)

/-- When position `i`, not before the present one, begins. -/
def Pulse.timeOf (p : Pulse) (i : Nat) : Nat :=
  if i ≤ p.idx then p.begun
  else let n := i - p.idx - 1; p.ends + 15 * min n p.stretch + 10 * (n - p.stretch)

/-- The position in progress at time `t`. -/
def Pulse.idxAt (p : Pulse) (t : Nat) : Nat :=
  if t < p.ends then p.idx
  else
    let d := t - p.ends
    p.idx + 1 + (if d < 15 * p.stretch then d / 15 else p.stretch + (d - 15 * p.stretch) / 10)

/-- The first frame boundary after the present position has begun. -/
def Pulse.bound (p : Pulse) : Nat := (p.idx / 32 + 1) * 32

/-- The gate moved on to position `e`, which does not precede the present one: a change of k takes effect at the frame
boundary (R403). -/
def Pulse.moveTo (p : Pulse) (e : Nat) : Pulse :=
  if e ≤ p.idx then p
  else
    let n := e - p.idx - 1
    let q := { p with begun := p.timeOf e, idx := e, long := decide (n < p.stretch), stretch := p.stretch - (n + 1) }
    match p.next with
    | some k =>
      if e < p.bound then { q with passed := p.passed + (passedIn p.k e - passedIn p.k p.idx) }
      else
        let new := lastOpen k (frameOf e)
        let old := lastOpen p.k (frameOf p.bound - 1)
        { q with
          passed := p.passed + (passedIn p.k p.bound - passedIn p.k p.idx) + (passedIn k e - passedIn k p.bound)
          k := k, next := none
          openAt := if frameOf p.bound ≤ new then new else if frameOf p.idx ≤ old then old else p.openAt }
    | none =>
      let new := lastOpen p.k (frameOf e)
      { q with
        passed := p.passed + (passedIn p.k e - passedIn p.k p.idx)
        openAt := if frameOf p.idx ≤ new then new else p.openAt }

/-- When the run of 64 unstretched positions that a raise waits for is complete, as things stand (R426). -/
def Pulse.runEnds (p : Pulse) (r : Raise) : Nat := p.timeOf (r.run + 64)

/-- Whether the run is complete by time `t` and within 1 µs of the decision (R426). -/
def Pulse.runDone (p : Pulse) (r : Raise) (t : Nat) : Bool := p.runEnds r ≤ t && p.runEnds r ≤ r.at_ + 16000

/-- The gate at time `t`: a raise whose run is complete takes effect at the first frame boundary from there (R426). -/
def Pulse.until (p : Pulse) (t : Nat) : Pulse :=
  match p.raise with
  | some r =>
    if p.runDone r t then
      let q := p.moveTo (r.run + 63)
      let q := { q with next := some r.k, raise := none }
      q.moveTo (q.idxAt t)
    else p.moveTo (p.idxAt t)
  | none => p.moveTo (p.idxAt t)

/-- The first position that begins at time `t` or later. -/
def Pulse.nextAt (p : Pulse) (t : Nat) : Nat := if p.begun = t then p.idx else p.idx + 1

/-- When the first open frame after the present one begins, in whole ns (R405). -/
def Pulse.opensAt (p : Pulse) : Nat := (p.timeOf (32 * nextOpen (p.next.getD p.k) (frameOf p.idx)) + 15) / 16

/-- The ratio k decided at time `t`, that of the gate (R426): a lower one at the next frame boundary, a higher one awaits
its run. -/
def Pulse.decide (p : Pulse) (k t : Nat) : Pulse :=
  if k ≤ p.k then { p with next := (if k = p.k then none else some k), raise := none }
  else { p with next := none, raise := some ⟨k, t, p.nextAt t⟩ }

/-- Droop reported from the time of the gate to `dt` later (R425): the two positions that begin next, and every one that
begins while it is reported, are stretched. A raise that waits for its run starts again behind them (R426). The answer counts
the positions newly stretched. -/
def Pulse.droop (p : Pulse) (t dt : Nat) : Nat × Pulse :=
  let first := p.ends - t
  let n := if dt < first then 0 else (dt - first) / 15 + 1
  let n := max (max 2 n) p.stretch
  let run (r : Raise) : Raise := { r with run := max r.run (p.idx + 1 + n) }
  (n - p.stretch, { p with stretch := n, raise := p.raise.map run })

end Sys2Proof.Machine
end

