-- ==== Sys2Proof/Machine/Registers.lean ====
section
/-! DEFINITION. The CSR map: the address of every register and the place of every field, and one table row per
register with its fields' access codes, allowed values, write paths and reset values, as the register tables of the
spec give them (rule named per register). Where a table gives no number (a strap, OTP, NOR or factory value), the
value here is the model's and stands in the assumption log. -/

namespace Sys2Proof.Machine

/-- A field of a CSR: the register's address and the field's bits. -/
structure Fd where
  addr : Nat
  hi : Nat
  lo : Nat
deriving DecidableEq, Repr

/-- Access codes of R14. -/
inductive Acc where
  | ro
  | rw
  | wo
  | w1c
  | rwl
deriving DecidableEq, Repr

/-- Which path may act on a field (R250 and the write rules of each block). `core`: the Bellows core the register
belongs to; `rm`: the rack manager through the management link; `fw`: Bellows firmware. -/
inductive Owner where
  | any
  | link
  | linkOrHost
  | host
  | rm
  | fw
  | core
deriving DecidableEq, Repr

/-- One field: its bits, access, the values a write may give it (R17), its reset value and its owner. -/
structure FieldSpec where
  hi : Nat
  lo : Nat
  acc : Acc
  min : Nat
  max : Nat
  reset : Nat
  own : Owner
deriving DecidableEq, Repr

/-- A register or a regular array of registers, in up to three dimensions of stride and count. -/
structure RegSpec where
  base : Nat
  s1 : Nat
  c1 : Nat
  s2 : Nat
  c2 : Nat
  s3 : Nat
  c3 : Nat
  fields : List FieldSpec
deriving DecidableEq, Repr

/-- Bits `hi` to `lo` of a word. -/
def bitsOf (w hi lo : Nat) : Nat := w / 2 ^ lo % 2 ^ (hi + 1 - lo)

/-- `ANVIL_AFLAGS` (R91). -/
abbrev ANVIL_AFLAGS (g : Nat) : Nat := 52776574976256 + g / 16 * 1048576 + g % 16 * 4096
abbrev ANVIL_AFLAGS_SCALE_NAN (g : Nat) : Fd := ⟨ANVIL_AFLAGS g, 9, 9⟩
abbrev ANVIL_AFLAGS_INT_SAT (g : Nat) : Fd := ⟨ANVIL_AFLAGS g, 8, 8⟩
abbrev ANVIL_AFLAGS_INVALID (g : Nat) : Fd := ⟨ANVIL_AFLAGS g, 7, 7⟩
abbrev ANVIL_AFLAGS_NAN_IN (g : Nat) : Fd := ⟨ANVIL_AFLAGS g, 6, 6⟩
abbrev ANVIL_AFLAGS_CVT_NX (g : Nat) : Fd := ⟨ANVIL_AFLAGS g, 5, 5⟩
abbrev ANVIL_AFLAGS_CVT_UFL (g : Nat) : Fd := ⟨ANVIL_AFLAGS g, 4, 4⟩
abbrev ANVIL_AFLAGS_CVT_OVF (g : Nat) : Fd := ⟨ANVIL_AFLAGS g, 3, 3⟩
abbrev ANVIL_AFLAGS_ACC_SPECIAL (g : Nat) : Fd := ⟨ANVIL_AFLAGS g, 2, 2⟩
abbrev ANVIL_AFLAGS_ACC_OVF (g : Nat) : Fd := ⟨ANVIL_AFLAGS g, 1, 1⟩
abbrev ANVIL_AFLAGS_ACC_NX (g : Nat) : Fd := ⟨ANVIL_AFLAGS g, 0, 0⟩
/-- `ANVIL_SRGEN` (R92). -/
abbrev ANVIL_SRGEN (g : Nat) : Nat := 52776574976264 + g / 16 * 1048576 + g % 16 * 4096
abbrev ANVIL_SRGEN_STATE (g : Nat) : Fd := ⟨ANVIL_SRGEN g, 63, 0⟩
/-- `HAMMER_SFLAGS` (R102). -/
abbrev HAMMER_SFLAGS : Nat := 52776558133504
abbrev HAMMER_SFLAGS_TOK_FAIL : Fd := ⟨HAMMER_SFLAGS, 1, 1⟩
abbrev HAMMER_SFLAGS_INT_SAT : Fd := ⟨HAMMER_SFLAGS, 0, 0⟩
/-- `HAMMER_TOKSTAT` (R145). -/
abbrev HAMMER_TOKSTAT : Nat := 52776558133512
abbrev HAMMER_TOKSTAT_FAIL : Fd := ⟨HAMMER_TOKSTAT, 31, 16⟩
abbrev HAMMER_TOKSTAT_PEND : Fd := ⟨HAMMER_TOKSTAT, 15, 0⟩
/-- `HAMMER_PCSTAT` (R147). -/
abbrev HAMMER_PCSTAT : Nat := 52776558133568
abbrev HAMMER_PCSTAT_IMG_BASE : Fd := ⟨HAMMER_PCSTAT, 52, 34⟩
abbrev HAMMER_PCSTAT_VAR : Fd := ⟨HAMMER_PCSTAT, 33, 32⟩
abbrev HAMMER_PCSTAT_HEAT : Fd := ⟨HAMMER_PCSTAT, 31, 20⟩
abbrev HAMMER_PCSTAT_RUN : Fd := ⟨HAMMER_PCSTAT, 19, 19⟩
abbrev HAMMER_PCSTAT_PC : Fd := ⟨HAMMER_PCSTAT, 18, 0⟩
/-- `HAMMER_HEATSTAT` (R242). -/
abbrev HAMMER_HEATSTAT : Nat := 52776558133576
abbrev HAMMER_HEATSTAT_GRANT : Fd := ⟨HAMMER_HEATSTAT, 63, 48⟩
abbrev HAMMER_HEATSTAT_HEAT : Fd := ⟨HAMMER_HEATSTAT, 47, 36⟩
abbrev HAMMER_HEATSTAT_VAR : Fd := ⟨HAMMER_HEATSTAT, 35, 34⟩
abbrev HAMMER_HEATSTAT_FIT : Fd := ⟨HAMMER_HEATSTAT, 33, 33⟩
abbrev HAMMER_HEATSTAT_FORCED : Fd := ⟨HAMMER_HEATSTAT, 32, 32⟩
abbrev HAMMER_HEATSTAT_COLL0 : Fd := ⟨HAMMER_HEATSTAT, 31, 31⟩
abbrev HAMMER_HEATSTAT_SWITCHED : Fd := ⟨HAMMER_HEATSTAT, 30, 30⟩
/-- `HAMMER_HEATCNT` (R243). -/
abbrev HAMMER_HEATCNT : Nat := 52776558133584
abbrev HAMMER_HEATCNT_NOFIT : Fd := ⟨HAMMER_HEATCNT, 63, 32⟩
abbrev HAMMER_HEATCNT_SWDEFER : Fd := ⟨HAMMER_HEATCNT, 31, 16⟩
abbrev HAMMER_HEATCNT_BEACONDROP : Fd := ⟨HAMMER_HEATCNT, 15, 0⟩
/-- `HAMMER_HEATCFG` (R244). -/
abbrev HAMMER_HEATCFG : Nat := 52776558133592
abbrev HAMMER_HEATCFG_FORCE_EN : Fd := ⟨HAMMER_HEATCFG, 2, 2⟩
abbrev HAMMER_HEATCFG_FORCE_VAR : Fd := ⟨HAMMER_HEATCFG, 1, 0⟩
/-- `HEARTH_ASCHED` (R260). -/
abbrev HEARTH_ASCHED (h : Nat) : Nat := 52776574910720 + h * 1048576
abbrev HEARTH_ASCHED_AGE (h : Nat) : Fd := ⟨HEARTH_ASCHED h, 23, 16⟩
abbrev HEARTH_ASCHED_SH1 (h : Nat) : Fd := ⟨HEARTH_ASCHED h, 9, 5⟩
abbrev HEARTH_ASCHED_SH0 (h : Nat) : Fd := ⟨HEARTH_ASCHED h, 4, 0⟩
/-- `HEARTH_STKSTAT` (R278). -/
abbrev HEARTH_STKSTAT (s : Nat) : Nat := 52776574910728 + s / 2 * 1048576 + s % 2 * 8
abbrev HEARTH_STKSTAT_FENCE (s : Nat) : Fd := ⟨HEARTH_STKSTAT s, 7, 7⟩
abbrev HEARTH_STKSTAT_KEPT (s : Nat) : Fd := ⟨HEARTH_STKSTAT s, 6, 6⟩
abbrev HEARTH_STKSTAT_FENCED (s : Nat) : Fd := ⟨HEARTH_STKSTAT s, 5, 5⟩
abbrev HEARTH_STKSTAT_FCAUSE (s : Nat) : Fd := ⟨HEARTH_STKSTAT s, 4, 2⟩
abbrev HEARTH_STKSTAT_STATE (s : Nat) : Fd := ⟨HEARTH_STKSTAT s, 1, 0⟩
/-- `TONGS_PORTCFG` (R330). -/
abbrev TONGS_PORTCFG (n : Nat) : Nat := 52776559182080 + n * 8
abbrev TONGS_PORTCFG_VID (n : Nat) : Fd := ⟨TONGS_PORTCFG n, 47, 36⟩
abbrev TONGS_PORTCFG_VLAN_EN (n : Nat) : Fd := ⟨TONGS_PORTCFG n, 35, 35⟩
abbrev TONGS_PORTCFG_SEGSZ (n : Nat) : Fd := ⟨TONGS_PORTCFG n, 7, 6⟩
abbrev TONGS_PORTCFG_AN_EN (n : Nat) : Fd := ⟨TONGS_PORTCFG n, 5, 5⟩
abbrev TONGS_PORTCFG_ENABLE (n : Nat) : Fd := ⟨TONGS_PORTCFG n, 4, 4⟩
abbrev TONGS_PORTCFG_MODE (n : Nat) : Fd := ⟨TONGS_PORTCFG n, 3, 0⟩
/-- `TONGS_PORTSTAT` (R331). -/
abbrev TONGS_PORTSTAT (n : Nat) : Nat := 52776559182096 + n * 8
abbrev TONGS_PORTSTAT_FEC_UCW (n : Nat) : Fd := ⟨TONGS_PORTSTAT n, 63, 32⟩
abbrev TONGS_PORTSTAT_LINKDOWN (n : Nat) : Fd := ⟨TONGS_PORTSTAT n, 31, 16⟩
abbrev TONGS_PORTSTAT_UP1 (n : Nat) : Fd := ⟨TONGS_PORTSTAT n, 1, 1⟩
abbrev TONGS_PORTSTAT_UP0 (n : Nat) : Fd := ⟨TONGS_PORTSTAT n, 0, 0⟩
/-- `HAMMER_AMASK0` (R146). -/
abbrev HAMMER_AMASK0 : Nat := 52776558133520
abbrev HAMMER_AMASK0_MASK : Fd := ⟨HAMMER_AMASK0, 63, 0⟩
/-- `HAMMER_AMASK1` (R146). -/
abbrev HAMMER_AMASK1 : Nat := 52776558133528
abbrev HAMMER_AMASK1_MASK : Fd := ⟨HAMMER_AMASK1, 63, 0⟩
/-- `HAMMER_AMASK2` (R146). -/
abbrev HAMMER_AMASK2 : Nat := 52776558133536
abbrev HAMMER_AMASK2_MASK : Fd := ⟨HAMMER_AMASK2, 31, 0⟩
/-- `HAMMER_AVAIL0` (R146). -/
abbrev HAMMER_AVAIL0 : Nat := 52776558133544
abbrev HAMMER_AVAIL0_MASK : Fd := ⟨HAMMER_AVAIL0, 63, 0⟩
/-- `HAMMER_AVAIL1` (R146). -/
abbrev HAMMER_AVAIL1 : Nat := 52776558133552
abbrev HAMMER_AVAIL1_MASK : Fd := ⟨HAMMER_AVAIL1, 63, 0⟩
/-- `HAMMER_AVAIL2` (R146). -/
abbrev HAMMER_AVAIL2 : Nat := 52776558133560
abbrev HAMMER_AVAIL2_MASK : Fd := ⟨HAMMER_AVAIL2, 31, 0⟩
/-- `HAMMER_ERRSUM` (R633). -/
abbrev HAMMER_ERRSUM : Nat := 52776558133864
abbrev HAMMER_ERRSUM_TEMPER : Fd := ⟨HAMMER_ERRSUM, 10, 10⟩
abbrev HAMMER_ERRSUM_CSRREF : Fd := ⟨HAMMER_ERRSUM, 9, 9⟩
abbrev HAMMER_ERRSUM_CAPREJ : Fd := ⟨HAMMER_ERRSUM, 8, 8⟩
abbrev HAMMER_ERRSUM_JOBFAIL : Fd := ⟨HAMMER_ERRSUM, 7, 7⟩
abbrev HAMMER_ERRSUM_FEC : Fd := ⟨HAMMER_ERRSUM, 6, 6⟩
abbrev HAMMER_ERRSUM_PKT : Fd := ⟨HAMMER_ERRSUM, 5, 5⟩
abbrev HAMMER_ERRSUM_STREAM : Fd := ⟨HAMMER_ERRSUM, 4, 4⟩
abbrev HAMMER_ERRSUM_CRUC : Fd := ⟨HAMMER_ERRSUM, 3, 3⟩
abbrev HAMMER_ERRSUM_LINKRTY : Fd := ⟨HAMMER_ERRSUM, 2, 2⟩
abbrev HAMMER_ERRSUM_MEMCE : Fd := ⟨HAMMER_ERRSUM, 1, 1⟩
abbrev HAMMER_ERRSUM_MEMUE : Fd := ⟨HAMMER_ERRSUM, 0, 0⟩
/-- `BELLOWS_ERRSUM` (R633). -/
abbrev BELLOWS_ERRSUM : Nat := 61572651157024
abbrev BELLOWS_ERRSUM_SEC : Fd := ⟨BELLOWS_ERRSUM, 9, 9⟩
abbrev BELLOWS_ERRSUM_EVDROP : Fd := ⟨BELLOWS_ERRSUM, 8, 8⟩
abbrev BELLOWS_ERRSUM_MGMT : Fd := ⟨BELLOWS_ERRSUM, 7, 7⟩
abbrev BELLOWS_ERRSUM_CAN : Fd := ⟨BELLOWS_ERRSUM, 6, 6⟩
abbrev BELLOWS_ERRSUM_QUENCH : Fd := ⟨BELLOWS_ERRSUM, 5, 5⟩
abbrev BELLOWS_ERRSUM_VALVE : Fd := ⟨BELLOWS_ERRSUM, 4, 4⟩
abbrev BELLOWS_ERRSUM_FAN : Fd := ⟨BELLOWS_ERRSUM, 3, 3⟩
abbrev BELLOWS_ERRSUM_SAFETY : Fd := ⟨BELLOWS_ERRSUM, 2, 2⟩
abbrev BELLOWS_ERRSUM_LEAK : Fd := ⟨BELLOWS_ERRSUM, 1, 1⟩
abbrev BELLOWS_ERRSUM_SENSOR : Fd := ⟨BELLOWS_ERRSUM, 0, 0⟩
/-- `HEARTH_STKERR` (R274). -/
abbrev HEARTH_STKERR (s : Nat) : Nat := 52776574910744 + s / 2 * 1048576 + s % 2 * 8
abbrev HEARTH_STKERR_LINKRTY (s : Nat) : Fd := ⟨HEARTH_STKERR s, 63, 48⟩
abbrev HEARTH_STKERR_UE (s : Nat) : Fd := ⟨HEARTH_STKERR s, 47, 32⟩
abbrev HEARTH_STKERR_CE (s : Nat) : Fd := ⟨HEARTH_STKERR s, 31, 0⟩
/-- `HEARTH_HSECNT` (R274). -/
abbrev HEARTH_HSECNT (h : Nat) : Nat := 52776574910760 + h * 1048576
abbrev HEARTH_HSECNT_UE (h : Nat) : Fd := ⟨HEARTH_HSECNT h, 47, 32⟩
abbrev HEARTH_HSECNT_CE (h : Nat) : Fd := ⟨HEARTH_HSECNT h, 31, 0⟩
/-- `ANVIL_SECNT` (R274). -/
abbrev ANVIL_SECNT (g : Nat) : Nat := 52776574976272 + g / 16 * 1048576 + g % 16 * 4096
abbrev ANVIL_SECNT_UE (g : Nat) : Fd := ⟨ANVIL_SECNT g, 47, 32⟩
abbrev ANVIL_SECNT_CE (g : Nat) : Fd := ⟨ANVIL_SECNT g, 31, 0⟩
/-- `HAMMER_SECNT` (R274). -/
abbrev HAMMER_SECNT : Nat := 52776558133600
abbrev HAMMER_SECNT_UE : Fd := ⟨HAMMER_SECNT, 47, 32⟩
abbrev HAMMER_SECNT_CE : Fd := ⟨HAMMER_SECNT, 31, 0⟩
/-- `HEARTH_SCRUB` (R274). -/
abbrev HEARTH_SCRUB (h : Nat) : Nat := 52776574910768 + h * 1048576
abbrev HEARTH_SCRUB_HOURS (h : Nat) : Fd := ⟨HEARTH_SCRUB h, 7, 0⟩
/-- `CRUC_QSTAT` (R324). -/
abbrev CRUC_QSTAT (s : Nat) : Nat := 52776575435008 + s / 2 * 1048576 + s % 2 * 262144
abbrev CRUC_QSTAT_OFF (s : Nat) : Fd := ⟨CRUC_QSTAT s, 27, 27⟩
abbrev CRUC_QSTAT_FHOLD (s : Nat) : Fd := ⟨CRUC_QSTAT s, 26, 26⟩
abbrev CRUC_QSTAT_BWAIT (s : Nat) : Fd := ⟨CRUC_QSTAT s, 25, 25⟩
abbrev CRUC_QSTAT_RUN (s : Nat) : Fd := ⟨CRUC_QSTAT s, 24, 24⟩
abbrev CRUC_QSTAT_HQ (s : Nat) : Fd := ⟨CRUC_QSTAT s, 19, 16⟩
abbrev CRUC_QSTAT_PQ (s : Nat) : Fd := ⟨CRUC_QSTAT s, 10, 8⟩
abbrev CRUC_QSTAT_NQ (s : Nat) : Fd := ⟨CRUC_QSTAT s, 4, 0⟩
/-- `CRUC_CSEQ` (R324). -/
abbrev CRUC_CSEQ (s : Nat) : Nat := 52776575435016 + s / 2 * 1048576 + s % 2 * 262144
abbrev CRUC_CSEQ_NEXT (s : Nat) : Fd := ⟨CRUC_CSEQ s, 63, 32⟩
abbrev CRUC_CSEQ_LAST (s : Nat) : Fd := ⟨CRUC_CSEQ s, 31, 0⟩
/-- `CRUC_CCNT` (R324). -/
abbrev CRUC_CCNT (s : Nat) : Nat := 52776575435024 + s / 2 * 1048576 + s % 2 * 262144
abbrev CRUC_CCNT_DONE (s : Nat) : Fd := ⟨CRUC_CCNT s, 63, 32⟩
abbrev CRUC_CCNT_FAILED (s : Nat) : Fd := ⟨CRUC_CCNT s, 31, 16⟩
abbrev CRUC_CCNT_REFUSED (s : Nat) : Fd := ⟨CRUC_CCNT s, 15, 0⟩
/-- `CRUC_CFLAGS` (R324). -/
abbrev CRUC_CFLAGS (s : Nat) : Nat := 52776575435032 + s / 2 * 1048576 + s % 2 * 262144
abbrev CRUC_CFLAGS_FLAGS (s : Nat) : Fd := ⟨CRUC_CFLAGS s, 9, 0⟩
/-- `CRUC_CERR` (R324). -/
abbrev CRUC_CERR (s : Nat) : Nat := 52776575435040 + s / 2 * 1048576 + s % 2 * 262144
abbrev CRUC_CERR_QUEUE (s : Nat) : Fd := ⟨CRUC_CERR s, 49, 48⟩
abbrev CRUC_CERR_ERR (s : Nat) : Fd := ⟨CRUC_CERR s, 47, 40⟩
abbrev CRUC_CERR_CMD (s : Nat) : Fd := ⟨CRUC_CERR s, 39, 32⟩
abbrev CRUC_CERR_SEQ (s : Nat) : Fd := ⟨CRUC_CERR s, 31, 0⟩
/-- `CRUC_CERRLOC` (R324). -/
abbrev CRUC_CERRLOC (s : Nat) : Nat := 52776575435048 + s / 2 * 1048576 + s % 2 * 262144
abbrev CRUC_CERRLOC_LOC (s : Nat) : Fd := ⟨CRUC_CERRLOC s, 63, 0⟩
/-- `TONGS_IF_MAC` (R333). -/
abbrev TONGS_IF_MAC (n : Nat) : Nat := 52776559182336 + n * 64
abbrev TONGS_IF_MAC_MAC (n : Nat) : Fd := ⟨TONGS_IF_MAC n, 47, 0⟩
/-- `TONGS_IF_IPV4` (R333). -/
abbrev TONGS_IF_IPV4 (n : Nat) : Nat := 52776559182344 + n * 64
abbrev TONGS_IF_IPV4_PLEN (n : Nat) : Fd := ⟨TONGS_IF_IPV4 n, 37, 32⟩
abbrev TONGS_IF_IPV4_ADDR (n : Nat) : Fd := ⟨TONGS_IF_IPV4 n, 31, 0⟩
/-- `TONGS_IF_IPV6H` (R333). -/
abbrev TONGS_IF_IPV6H (n : Nat) : Nat := 52776559182352 + n * 64
abbrev TONGS_IF_IPV6H_HI (n : Nat) : Fd := ⟨TONGS_IF_IPV6H n, 63, 0⟩
/-- `TONGS_IF_IPV6L` (R333). -/
abbrev TONGS_IF_IPV6L (n : Nat) : Nat := 52776559182360 + n * 64
abbrev TONGS_IF_IPV6L_LO (n : Nat) : Fd := ⟨TONGS_IF_IPV6L n, 63, 0⟩
/-- `TONGS_IF_V6CFG` (R333). -/
abbrev TONGS_IF_V6CFG (n : Nat) : Nat := 52776559182368 + n * 64
abbrev TONGS_IF_V6CFG_DUP (n : Nat) : Fd := ⟨TONGS_IF_V6CFG n, 8, 8⟩
abbrev TONGS_IF_V6CFG_PLEN (n : Nat) : Fd := ⟨TONGS_IF_V6CFG n, 7, 0⟩
/-- `TONGS_XPORT` (R360). -/
abbrev TONGS_XPORT : Nat := 52776559182112
abbrev TONGS_XPORT_TOPO : Fd := ⟨TONGS_XPORT, 19, 18⟩
abbrev TONGS_XPORT_IPV4_EN : Fd := ⟨TONGS_XPORT, 17, 17⟩
abbrev TONGS_XPORT_UDPPORT : Fd := ⟨TONGS_XPORT, 15, 0⟩
/-- `TONGS_RETX` (R360). -/
abbrev TONGS_RETX : Nat := 52776559182120
abbrev TONGS_RETX_WIN : Fd := ⟨TONGS_RETX, 47, 40⟩
abbrev TONGS_RETX_LIMIT : Fd := ⟨TONGS_RETX, 39, 32⟩
abbrev TONGS_RETX_RTOMAX : Fd := ⟨TONGS_RETX, 31, 16⟩
abbrev TONGS_RETX_RTO0 : Fd := ⟨TONGS_RETX, 15, 0⟩
/-- `TONGS_CHAIN` (R360). -/
abbrev TONGS_CHAIN : Nat := 52776559182128
abbrev TONGS_CHAIN_FAILOVER : Fd := ⟨TONGS_CHAIN, 2, 2⟩
abbrev TONGS_CHAIN_END : Fd := ⟨TONGS_CHAIN, 1, 1⟩
abbrev TONGS_CHAIN_HEAD : Fd := ⟨TONGS_CHAIN, 0, 0⟩
/-- `TONGS_PKTERR` (R360). -/
abbrev TONGS_PKTERR (n : Nat) : Nat := 52776559182136 + n * 8
abbrev TONGS_PKTERR_RELAYDROP (n : Nat) : Fd := ⟨TONGS_PKTERR n, 63, 48⟩
abbrev TONGS_PKTERR_HOPDROP (n : Nat) : Fd := ⟨TONGS_PKTERR n, 47, 32⟩
abbrev TONGS_PKTERR_HDRERR (n : Nat) : Fd := ⟨TONGS_PKTERR n, 31, 16⟩
abbrev TONGS_PKTERR_PCRCERR (n : Nat) : Fd := ⟨TONGS_PKTERR n, 15, 0⟩
/-- `TONGS_SCFG` (R401). -/
abbrev TONGS_SCFG : Nat := 52776559182160
abbrev TONGS_SCFG_BOOT_EN : Fd := ⟨TONGS_SCFG, 0, 0⟩
/-- `TONGS_SCHED` (R401). -/
abbrev TONGS_SCHED : Nat := 52776559182168
abbrev TONGS_SCHED_STRICTMAX : Fd := ⟨TONGS_SCHED, 39, 32⟩
abbrev TONGS_SCHED_AGE : Fd := ⟨TONGS_SCHED, 31, 16⟩
/-- `TONGS_CQ` (R401). -/
abbrev TONGS_CQ : Nat := 52776559182176
abbrev TONGS_CQ_CQ0 : Fd := ⟨TONGS_CQ, 7, 0⟩
abbrev TONGS_CQ_CQ1 : Fd := ⟨TONGS_CQ, 15, 8⟩
abbrev TONGS_CQ_CQ2 : Fd := ⟨TONGS_CQ, 23, 16⟩
abbrev TONGS_CQ_CQ3 : Fd := ⟨TONGS_CQ, 31, 24⟩
abbrev TONGS_CQ_CQ4 : Fd := ⟨TONGS_CQ, 39, 32⟩
abbrev TONGS_CQ_CQ5 : Fd := ⟨TONGS_CQ, 47, 40⟩
/-- `TONGS_JOBCFG` (R401). -/
abbrev TONGS_JOBCFG : Nat := 52776559182184
abbrev TONGS_JOBCFG_CTMO : Fd := ⟨TONGS_JOBCFG, 47, 32⟩
abbrev TONGS_JOBCFG_JAGE : Fd := ⟨TONGS_JOBCFG, 31, 16⟩
abbrev TONGS_JOBCFG_QUANTUM : Fd := ⟨TONGS_JOBCFG, 15, 0⟩
/-- `TONGS_CACHESTAT` (R401). -/
abbrev TONGS_CACHESTAT : Nat := 52776559182192
abbrev TONGS_CACHESTAT_ADMDROP : Fd := ⟨TONGS_CACHESTAT, 63, 48⟩
abbrev TONGS_CACHESTAT_ADMQ : Fd := ⟨TONGS_CACHESTAT, 47, 32⟩
abbrev TONGS_CACHESTAT_PINNED : Fd := ⟨TONGS_CACHESTAT, 31, 16⟩
abbrev TONGS_CACHESTAT_CACHED : Fd := ⟨TONGS_CACHESTAT, 15, 0⟩
/-- `TONGS_JOBSTAT` (R401). -/
abbrev TONGS_JOBSTAT : Nat := 52776559182200
abbrev TONGS_JOBSTAT_RUNJOB : Fd := ⟨TONGS_JOBSTAT, 23, 16⟩
abbrev TONGS_JOBSTAT_WAITING : Fd := ⟨TONGS_JOBSTAT, 15, 8⟩
abbrev TONGS_JOBSTAT_USED : Fd := ⟨TONGS_JOBSTAT, 7, 0⟩
/-- `TONGS_RING_CFG` (R401). -/
abbrev TONGS_RING_CFG (n : Nat) : Nat := 52776559185920 + n * 16
abbrev TONGS_RING_CFG_CSTRM (n : Nat) : Fd := ⟨TONGS_RING_CFG n, 63, 48⟩
abbrev TONGS_RING_CFG_PUSH (n : Nat) : Fd := ⟨TONGS_RING_CFG n, 47, 47⟩
abbrev TONGS_RING_CFG_LOST (n : Nat) : Fd := ⟨TONGS_RING_CFG n, 46, 46⟩
abbrev TONGS_RING_CFG_LOG2N (n : Nat) : Fd := ⟨TONGS_RING_CFG n, 45, 41⟩
abbrev TONGS_RING_CFG_BASE (n : Nat) : Fd := ⟨TONGS_RING_CFG n, 39, 0⟩
/-- `TONGS_RING_IDX` (R401). -/
abbrev TONGS_RING_IDX (n : Nat) : Nat := 52776559185928 + n * 16
abbrev TONGS_RING_IDX_WIDX (n : Nat) : Fd := ⟨TONGS_RING_IDX n, 63, 32⟩
abbrev TONGS_RING_IDX_AIDX (n : Nat) : Fd := ⟨TONGS_RING_IDX n, 31, 0⟩
/-- `TEMPER_CAP_FACILITY` (R439). -/
abbrev TEMPER_CAP_FACILITY : Nat := 52776558199040
abbrev TEMPER_CAP_FACILITY_WATTS : Fd := ⟨TEMPER_CAP_FACILITY, 15, 0⟩
/-- `TEMPER_CAP_HOST` (R439). -/
abbrev TEMPER_CAP_HOST : Nat := 52776558199048
abbrev TEMPER_CAP_HOST_WATTS : Fd := ⟨TEMPER_CAP_HOST, 15, 0⟩
/-- `TEMPER_CAP_THERMAL` (R439). -/
abbrev TEMPER_CAP_THERMAL : Nat := 52776558199056
abbrev TEMPER_CAP_THERMAL_WATTS : Fd := ⟨TEMPER_CAP_THERMAL, 15, 0⟩
/-- `TEMPER_CAP_FLOW` (R439). -/
abbrev TEMPER_CAP_FLOW : Nat := 52776558199064
abbrev TEMPER_CAP_FLOW_STATE : Fd := ⟨TEMPER_CAP_FLOW, 17, 16⟩
abbrev TEMPER_CAP_FLOW_WATTS : Fd := ⟨TEMPER_CAP_FLOW, 15, 0⟩
/-- `TEMPER_CAP_SUPPLY` (R439). -/
abbrev TEMPER_CAP_SUPPLY : Nat := 52776558199072
abbrev TEMPER_CAP_SUPPLY_VIN : Fd := ⟨TEMPER_CAP_SUPPLY, 31, 16⟩
abbrev TEMPER_CAP_SUPPLY_WATTS : Fd := ⟨TEMPER_CAP_SUPPLY, 15, 0⟩
/-- `TEMPER_SUPPLYCFG` (R439). -/
abbrev TEMPER_SUPPLYCFG : Nat := 52776558199080
abbrev TEMPER_SUPPLYCFG_ILIM : Fd := ⟨TEMPER_SUPPLYCFG, 8, 0⟩
/-- `TEMPER_CAPCFG` (R439). -/
abbrev TEMPER_CAPCFG : Nat := 52776558199088
abbrev TEMPER_CAPCFG_STALEW : Fd := ⟨TEMPER_CAPCFG, 15, 0⟩
/-- `TEMPER_CAPSTAT` (R439). -/
abbrev TEMPER_CAPSTAT : Nat := 52776558199096
abbrev TEMPER_CAPSTAT_GRANT : Fd := ⟨TEMPER_CAPSTAT, 63, 48⟩
abbrev TEMPER_CAPSTAT_CEFF : Fd := ⟨TEMPER_CAPSTAT, 47, 32⟩
abbrev TEMPER_CAPSTAT_LIMIT : Fd := ⟨TEMPER_CAPSTAT, 31, 29⟩
abbrev TEMPER_CAPSTAT_AGE_MAX : Fd := ⟨TEMPER_CAPSTAT, 7, 7⟩
abbrev TEMPER_CAPSTAT_MEAS_OVER : Fd := ⟨TEMPER_CAPSTAT, 6, 6⟩
abbrev TEMPER_CAPSTAT_CAL_BOUND : Fd := ⟨TEMPER_CAPSTAT, 5, 5⟩
abbrev TEMPER_CAPSTAT_CAP_UNMET : Fd := ⟨TEMPER_CAPSTAT, 4, 4⟩
abbrev TEMPER_CAPSTAT_STALE : Fd := ⟨TEMPER_CAPSTAT, 3, 3⟩
abbrev TEMPER_CAPSTAT_SAG_WARN : Fd := ⟨TEMPER_CAPSTAT, 2, 2⟩
abbrev TEMPER_CAPSTAT_THROTTLE : Fd := ⟨TEMPER_CAPSTAT, 1, 1⟩
abbrev TEMPER_CAPSTAT_FLOOR : Fd := ⟨TEMPER_CAPSTAT, 0, 0⟩
/-- `TEMPER_CAPREJ` (R439). -/
abbrev TEMPER_CAPREJ : Nat := 52776558199104
abbrev TEMPER_CAPREJ_FAC : Fd := ⟨TEMPER_CAPREJ, 63, 48⟩
abbrev TEMPER_CAPREJ_HOST : Fd := ⟨TEMPER_CAPREJ, 47, 32⟩
abbrev TEMPER_CAPREJ_THERMAL : Fd := ⟨TEMPER_CAPREJ, 31, 16⟩
abbrev TEMPER_CAPREJ_FLOW : Fd := ⟨TEMPER_CAPREJ, 15, 0⟩
/-- `TEMPER_CTRL` (R439). -/
abbrev TEMPER_CTRL : Nat := 52776558199112
abbrev TEMPER_CTRL_K : Fd := ⟨TEMPER_CTRL, 31, 26⟩
abbrev TEMPER_CTRL_KTGT : Fd := ⟨TEMPER_CTRL, 25, 20⟩
abbrev TEMPER_CTRL_OP : Fd := ⟨TEMPER_CTRL, 19, 17⟩
abbrev TEMPER_CTRL_OPTGT : Fd := ⟨TEMPER_CTRL, 16, 14⟩
abbrev TEMPER_CTRL_OPREQ : Fd := ⟨TEMPER_CTRL, 13, 11⟩
abbrev TEMPER_CTRL_XFER : Fd := ⟨TEMPER_CTRL, 10, 10⟩
abbrev TEMPER_CTRL_PACELIM : Fd := ⟨TEMPER_CTRL, 9, 9⟩
/-- `TEMPER_CTRLCFG` (R439). -/
abbrev TEMPER_CTRLCFG : Nat := 52776558199120
abbrev TEMPER_CTRLCFG_KSTEP : Fd := ⟨TEMPER_CTRLCFG, 5, 0⟩
/-- `TEMPER_PEST` (R439). -/
abbrev TEMPER_PEST : Nat := 52776558199128
abbrev TEMPER_PEST_PMEAS : Fd := ⟨TEMPER_PEST, 63, 48⟩
abbrev TEMPER_PEST_PEST : Fd := ⟨TEMPER_PEST, 47, 32⟩
abbrev TEMPER_PEST_PVAR : Fd := ⟨TEMPER_PEST, 31, 16⟩
abbrev TEMPER_PEST_PFIX : Fd := ⟨TEMPER_PEST, 15, 0⟩
/-- `TEMPER_MODEL` (R439). -/
abbrev TEMPER_MODEL : Nat := 52776558199136
abbrev TEMPER_MODEL_BG : Fd := ⟨TEMPER_MODEL, 47, 32⟩
abbrev TEMPER_MODEL_CALSH : Fd := ⟨TEMPER_MODEL, 31, 28⟩
abbrev TEMPER_MODEL_EFF : Fd := ⟨TEMPER_MODEL, 25, 16⟩
abbrev TEMPER_MODEL_CALG : Fd := ⟨TEMPER_MODEL, 15, 0⟩
/-- `TEMPER_DROOPCFG` (R439). -/
abbrev TEMPER_DROOPCFG : Nat := 52776558199144
abbrev TEMPER_DROOPCFG_THR : Fd := ⟨TEMPER_DROOPCFG, 5, 0⟩
/-- `TEMPER_TRIM` (R439). -/
abbrev TEMPER_TRIM : Nat := 52776558199152
abbrev TEMPER_TRIM_SLACKMIN : Fd := ⟨TEMPER_TRIM, 39, 32⟩
abbrev TEMPER_TRIM_TRIM : Fd := ⟨TEMPER_TRIM, 20, 16⟩
abbrev TEMPER_TRIM_SLACK : Fd := ⟨TEMPER_TRIM, 15, 0⟩
/-- `TEMPER_LEARN` (R439). -/
abbrev TEMPER_LEARN : Nat := 52776558199160
abbrev TEMPER_LEARN_LSHIFT : Fd := ⟨TEMPER_LEARN, 3, 0⟩
/-- `TEMPER_PACECFG` (R439). -/
abbrev TEMPER_PACECFG : Nat := 52776558199168
abbrev TEMPER_PACECFG_TTL : Fd := ⟨TEMPER_PACECFG, 31, 16⟩
abbrev TEMPER_PACECFG_GHOPS : Fd := ⟨TEMPER_PACECFG, 13, 8⟩
abbrev TEMPER_PACECFG_FLOOR : Fd := ⟨TEMPER_PACECFG, 5, 0⟩
/-- `TEMPER_PACESTAT` (R439). -/
abbrev TEMPER_PACESTAT : Nat := 52776558199176
abbrev TEMPER_PACESTAT_RXBAD : Fd := ⟨TEMPER_PACESTAT, 63, 48⟩
abbrev TEMPER_PACESTAT_SENT : Fd := ⟨TEMPER_PACESTAT, 47, 32⟩
abbrev TEMPER_PACESTAT_OWN : Fd := ⟨TEMPER_PACESTAT, 31, 26⟩
abbrev TEMPER_PACESTAT_RXK : Fd := ⟨TEMPER_PACESTAT, 25, 20⟩
abbrev TEMPER_PACESTAT_RXH : Fd := ⟨TEMPER_PACESTAT, 19, 14⟩
abbrev TEMPER_PACESTAT_CURRENT : Fd := ⟨TEMPER_PACESTAT, 13, 13⟩
/-- `TEMPER_RECSEL` (R439). -/
abbrev TEMPER_RECSEL : Nat := 52776558199184
abbrev TEMPER_RECSEL_IMG : Fd := ⟨TEMPER_RECSEL, 30, 14⟩
abbrev TEMPER_RECSEL_HEAT : Fd := ⟨TEMPER_RECSEL, 13, 2⟩
abbrev TEMPER_RECSEL_VAR : Fd := ⟨TEMPER_RECSEL, 1, 0⟩
/-- `TEMPER_RECDATA` (R439). -/
abbrev TEMPER_RECDATA : Nat := 52776558199192
abbrev TEMPER_RECDATA_N : Fd := ⟨TEMPER_RECDATA, 63, 48⟩
abbrev TEMPER_RECDATA_TL : Fd := ⟨TEMPER_RECDATA, 47, 16⟩
abbrev TEMPER_RECDATA_P : Fd := ⟨TEMPER_RECDATA, 15, 0⟩
/-- `TEMPER_CNT` (R439). -/
abbrev TEMPER_CNT : Nat := 52776558199200
abbrev TEMPER_CNT_STRETCH : Fd := ⟨TEMPER_CNT, 63, 32⟩
abbrev TEMPER_CNT_RAISEDROP : Fd := ⟨TEMPER_CNT, 31, 16⟩
abbrev TEMPER_CNT_FLOORS : Fd := ⟨TEMPER_CNT, 15, 0⟩
/-- `TEMPER_OP` (R439). -/
abbrev TEMPER_OP (n : Nat) : Nat := 52776558199296 + n * 8
abbrev TEMPER_OP_LEAK85 (n : Nat) : Fd := ⟨TEMPER_OP n, 39, 32⟩
abbrev TEMPER_OP_KMAX (n : Nat) : Fd := ⟨TEMPER_OP n, 13, 8⟩
abbrev TEMPER_OP_VIDX (n : Nat) : Fd := ⟨TEMPER_OP n, 7, 0⟩
/-- `TEMPER_WT` (R439). -/
abbrev TEMPER_WT (n : Nat) : Nat := 52776558199360 + n * 8
abbrev TEMPER_WT_W (n : Nat) : Fd := ⟨TEMPER_WT n, 15, 0⟩
/-- `BELLOWS_TCFG` (R478). -/
abbrev BELLOWS_TCFG (n : Nat) : Nat := 61572651155712 + n * 8
abbrev BELLOWS_TCFG_R25 (n : Nat) : Fd := ⟨BELLOWS_TCFG n, 47, 32⟩
abbrev BELLOWS_TCFG_BETA (n : Nat) : Fd := ⟨BELLOWS_TCFG n, 31, 16⟩
abbrev BELLOWS_TCFG_OFS (n : Nat) : Fd := ⟨BELLOWS_TCFG n, 15, 8⟩
abbrev BELLOWS_TCFG_PAIR (n : Nat) : Fd := ⟨BELLOWS_TCFG n, 7, 4⟩
abbrev BELLOWS_TCFG_POL (n : Nat) : Fd := ⟨BELLOWS_TCFG n, 1, 1⟩
abbrev BELLOWS_TCFG_EN (n : Nat) : Fd := ⟨BELLOWS_TCFG n, 0, 0⟩
/-- `BELLOWS_TSTAT` (R478). -/
abbrev BELLOWS_TSTAT (n : Nat) : Nat := 61572651155808 + n * 8
abbrev BELLOWS_TSTAT_SUSPECT (n : Nat) : Fd := ⟨BELLOWS_TSTAT n, 36, 36⟩
abbrev BELLOWS_TSTAT_STATE (n : Nat) : Fd := ⟨BELLOWS_TSTAT n, 35, 33⟩
abbrev BELLOWS_TSTAT_SUBST (n : Nat) : Fd := ⟨BELLOWS_TSTAT n, 32, 32⟩
abbrev BELLOWS_TSTAT_RAW (n : Nat) : Fd := ⟨BELLOWS_TSTAT n, 31, 16⟩
abbrev BELLOWS_TSTAT_TEMP (n : Nat) : Fd := ⟨BELLOWS_TSTAT n, 15, 0⟩
/-- `BELLOWS_PRESS` (R478). -/
abbrev BELLOWS_PRESS (n : Nat) : Nat := 61572651155904 + n * 8
abbrev BELLOWS_PRESS_FS (n : Nat) : Fd := ⟨BELLOWS_PRESS n, 31, 16⟩
abbrev BELLOWS_PRESS_STATE (n : Nat) : Fd := ⟨BELLOWS_PRESS n, 15, 14⟩
abbrev BELLOWS_PRESS_KPA (n : Nat) : Fd := ⟨BELLOWS_PRESS n, 13, 0⟩
/-- `BELLOWS_FLOW` (R478). -/
abbrev BELLOWS_FLOW (n : Nat) : Nat := 61572651155936 + n * 8
abbrev BELLOWS_FLOW_KF (n : Nat) : Fd := ⟨BELLOWS_FLOW n, 31, 18⟩
abbrev BELLOWS_FLOW_STATE (n : Nat) : Fd := ⟨BELLOWS_FLOW n, 17, 16⟩
abbrev BELLOWS_FLOW_FLOW (n : Nat) : Fd := ⟨BELLOWS_FLOW n, 15, 0⟩
/-- `BELLOWS_LEAK` (R478). -/
abbrev BELLOWS_LEAK (n : Nat) : Nat := 61572651155968 + n * 8
abbrev BELLOWS_LEAK_RES (n : Nat) : Fd := ⟨BELLOWS_LEAK n, 31, 16⟩
abbrev BELLOWS_LEAK_STATE (n : Nat) : Fd := ⟨BELLOWS_LEAK n, 7, 6⟩
abbrev BELLOWS_LEAK_FAULTACT (n : Nat) : Fd := ⟨BELLOWS_LEAK n, 2, 2⟩
abbrev BELLOWS_LEAK_ACT (n : Nat) : Fd := ⟨BELLOWS_LEAK n, 1, 0⟩
/-- `BELLOWS_THERMST` (R478). -/
abbrev BELLOWS_THERMST : Nat := 61572651156000
abbrev BELLOWS_THERMST_THETA : Fd := ⟨BELLOWS_THERMST, 63, 48⟩
abbrev BELLOWS_THERMST_THETAS : Fd := ⟨BELLOWS_THERMST, 47, 32⟩
abbrev BELLOWS_THERMST_TIN : Fd := ⟨BELLOWS_THERMST, 31, 16⟩
abbrev BELLOWS_THERMST_PLAG : Fd := ⟨BELLOWS_THERMST, 15, 0⟩
/-- `BELLOWS_THCFG` (R478). -/
abbrev BELLOWS_THCFG : Nat := 61572651156008
abbrev BELLOWS_THCFG_TJT : Fd := ⟨BELLOWS_THCFG, 63, 56⟩
abbrev BELLOWS_THCFG_TST : Fd := ⟨BELLOWS_THCFG, 55, 48⟩
abbrev BELLOWS_THCFG_FAULTVAL : Fd := ⟨BELLOWS_THCFG, 47, 40⟩
abbrev BELLOWS_THCFG_RISE : Fd := ⟨BELLOWS_THCFG, 39, 32⟩
abbrev BELLOWS_THCFG_FAULTCAP : Fd := ⟨BELLOWS_THCFG, 31, 16⟩
abbrev BELLOWS_THCFG_DISAGREE : Fd := ⟨BELLOWS_THCFG, 15, 8⟩
abbrev BELLOWS_THCFG_COOLCP : Fd := ⟨BELLOWS_THCFG, 7, 0⟩
/-- `BELLOWS_FLCFG` (R478). -/
abbrev BELLOWS_FLCFG : Nat := 61572651156016
abbrev BELLOWS_FLCFG_FLMIN : Fd := ⟨BELLOWS_FLCFG, 47, 32⟩
abbrev BELLOWS_FLCFG_FLCRIT : Fd := ⟨BELLOWS_FLCFG, 31, 16⟩
abbrev BELLOWS_FLCFG_DPMIN : Fd := ⟨BELLOWS_FLCFG, 15, 0⟩
/-- `BELLOWS_CAPOUT` (R478). -/
abbrev BELLOWS_CAPOUT : Nat := 61572651156024
abbrev BELLOWS_CAPOUT_FSTATE : Fd := ⟨BELLOWS_CAPOUT, 33, 32⟩
abbrev BELLOWS_CAPOUT_FLOWCAP : Fd := ⟨BELLOWS_CAPOUT, 31, 16⟩
abbrev BELLOWS_CAPOUT_THERMAL : Fd := ⟨BELLOWS_CAPOUT, 15, 0⟩
/-- `BELLOWS_SAFESTAT` (R478). -/
abbrev BELLOWS_SAFESTAT : Nat := 61572651156032
abbrev BELLOWS_SAFESTAT_TCRIT_SEL : Fd := ⟨BELLOWS_SAFESTAT, 15, 14⟩
abbrev BELLOWS_SAFESTAT_AUTO : Fd := ⟨BELLOWS_SAFESTAT, 13, 13⟩
abbrev BELLOWS_SAFESTAT_MASTER : Fd := ⟨BELLOWS_SAFESTAT, 12, 12⟩
abbrev BELLOWS_SAFESTAT_LEAKISO : Fd := ⟨BELLOWS_SAFESTAT, 11, 11⟩
abbrev BELLOWS_SAFESTAT_LKWARN : Fd := ⟨BELLOWS_SAFESTAT, 10, 10⟩
abbrev BELLOWS_SAFESTAT_SENSOR_DISAGREE : Fd := ⟨BELLOWS_SAFESTAT, 9, 9⟩
abbrev BELLOWS_SAFESTAT_CSTOP : Fd := ⟨BELLOWS_SAFESTAT, 8, 8⟩
abbrev BELLOWS_SAFESTAT_THROTTLE : Fd := ⟨BELLOWS_SAFESTAT, 7, 7⟩
abbrev BELLOWS_SAFESTAT_OUTLET : Fd := ⟨BELLOWS_SAFESTAT, 6, 6⟩
abbrev BELLOWS_SAFESTAT_HBM : Fd := ⟨BELLOWS_SAFESTAT, 5, 5⟩
abbrev BELLOWS_SAFESTAT_DIE : Fd := ⟨BELLOWS_SAFESTAT, 4, 4⟩
abbrev BELLOWS_SAFESTAT_TIMEOUT : Fd := ⟨BELLOWS_SAFESTAT, 3, 3⟩
abbrev BELLOWS_SAFESTAT_DIERISE : Fd := ⟨BELLOWS_SAFESTAT, 2, 2⟩
abbrev BELLOWS_SAFESTAT_DPCOLLAPSE : Fd := ⟨BELLOWS_SAFESTAT, 1, 1⟩
abbrev BELLOWS_SAFESTAT_NOPULSE : Fd := ⟨BELLOWS_SAFESTAT, 0, 0⟩
/-- `BELLOWS_KEEPALIVE` (R478). -/
abbrev BELLOWS_KEEPALIVE : Nat := 61572651156040
abbrev BELLOWS_KEEPALIVE_KA : Fd := ⟨BELLOWS_KEEPALIVE, 8, 8⟩
abbrev BELLOWS_KEEPALIVE_KATIME : Fd := ⟨BELLOWS_KEEPALIVE, 7, 0⟩
/-- `BELLOWS_LOOP` (R478). -/
abbrev BELLOWS_LOOP : Nat := 61572651156048
abbrev BELLOWS_LOOP_MASTERID : Fd := ⟨BELLOWS_LOOP, 19, 16⟩
abbrev BELLOWS_LOOP_SLOT : Fd := ⟨BELLOWS_LOOP, 10, 8⟩
abbrev BELLOWS_LOOP_CAND : Fd := ⟨BELLOWS_LOOP, 0, 0⟩
/-- `BELLOWS_FCFG` (R478). -/
abbrev BELLOWS_FCFG (n : Nat) : Nat := 61572651156224 + n * 32
abbrev BELLOWS_FCFG_ZMASK (n : Nat) : Fd := ⟨BELLOWS_FCFG n, 31, 24⟩
abbrev BELLOWS_FCFG_SRC (n : Nat) : Fd := ⟨BELLOWS_FCFG n, 23, 20⟩
abbrev BELLOWS_FCFG_HYST (n : Nat) : Fd := ⟨BELLOWS_FCFG n, 19, 17⟩
abbrev BELLOWS_FCFG_PPR (n : Nat) : Fd := ⟨BELLOWS_FCFG n, 16, 15⟩
abbrev BELLOWS_FCFG_ROLE (n : Nat) : Fd := ⟨BELLOWS_FCFG n, 14, 13⟩
abbrev BELLOWS_FCFG_BOARD (n : Nat) : Fd := ⟨BELLOWS_FCFG n, 12, 12⟩
abbrev BELLOWS_FCFG_MODE (n : Nat) : Fd := ⟨BELLOWS_FCFG n, 11, 10⟩
abbrev BELLOWS_FCFG_FIXDUTY (n : Nat) : Fd := ⟨BELLOWS_FCFG n, 9, 0⟩
/-- `BELLOWS_FTABL` (R478). -/
abbrev BELLOWS_FTABL (n : Nat) : Nat := 61572651156232 + n * 32
abbrev BELLOWS_FTABL_PT0 (n : Nat) : Fd := ⟨BELLOWS_FTABL n, 15, 0⟩
abbrev BELLOWS_FTABL_PT1 (n : Nat) : Fd := ⟨BELLOWS_FTABL n, 31, 16⟩
abbrev BELLOWS_FTABL_PT2 (n : Nat) : Fd := ⟨BELLOWS_FTABL n, 47, 32⟩
abbrev BELLOWS_FTABL_PT3 (n : Nat) : Fd := ⟨BELLOWS_FTABL n, 63, 48⟩
/-- `BELLOWS_FTABH` (R478). -/
abbrev BELLOWS_FTABH (n : Nat) : Nat := 61572651156240 + n * 32
abbrev BELLOWS_FTABH_PT4 (n : Nat) : Fd := ⟨BELLOWS_FTABH n, 15, 0⟩
abbrev BELLOWS_FTABH_PT5 (n : Nat) : Fd := ⟨BELLOWS_FTABH n, 31, 16⟩
abbrev BELLOWS_FTABH_PT6 (n : Nat) : Fd := ⟨BELLOWS_FTABH n, 47, 32⟩
abbrev BELLOWS_FTABH_PT7 (n : Nat) : Fd := ⟨BELLOWS_FTABH n, 63, 48⟩
/-- `BELLOWS_FSTAT` (R478). -/
abbrev BELLOWS_FSTAT (n : Nat) : Nat := 61572651156248 + n * 32
abbrev BELLOWS_FSTAT_RPM (n : Nat) : Fd := ⟨BELLOWS_FSTAT n, 47, 32⟩
abbrev BELLOWS_FSTAT_STATE (n : Nat) : Fd := ⟨BELLOWS_FSTAT n, 31, 29⟩
abbrev BELLOWS_FSTAT_ATTEMPT (n : Nat) : Fd := ⟨BELLOWS_FSTAT n, 28, 27⟩
abbrev BELLOWS_FSTAT_DUTY (n : Nat) : Fd := ⟨BELLOWS_FSTAT n, 9, 0⟩
/-- `BELLOWS_ZONE` (R478). -/
abbrev BELLOWS_ZONE (n : Nat) : Nat := 61572651156480 + n * 8
abbrev BELLOWS_ZONE_EXT (n : Nat) : Fd := ⟨BELLOWS_ZONE n, 57, 48⟩
abbrev BELLOWS_ZONE_SRC (n : Nat) : Fd := ⟨BELLOWS_ZONE n, 47, 44⟩
abbrev BELLOWS_ZONE_HYST (n : Nat) : Fd := ⟨BELLOWS_ZONE n, 43, 41⟩
abbrev BELLOWS_ZONE_TLO (n : Nat) : Fd := ⟨BELLOWS_ZONE n, 39, 32⟩
abbrev BELLOWS_ZONE_THI (n : Nat) : Fd := ⟨BELLOWS_ZONE n, 31, 24⟩
abbrev BELLOWS_ZONE_DMIN (n : Nat) : Fd := ⟨BELLOWS_ZONE n, 19, 10⟩
abbrev BELLOWS_ZONE_DMAX (n : Nat) : Fd := ⟨BELLOWS_ZONE n, 9, 0⟩
/-- `QUENCH_BEACON` (R502). -/
abbrev QUENCH_BEACON : Nat := 61572651221120
abbrev QUENCH_BEACON_COUNT : Fd := ⟨QUENCH_BEACON, 63, 32⟩
abbrev QUENCH_BEACON_LASTIV : Fd := ⟨QUENCH_BEACON, 31, 0⟩
/-- `QUENCH_LCFG` (R502). -/
abbrev QUENCH_LCFG (n : Nat) : Nat := 61572651221248 + n * 128
abbrev QUENCH_LCFG_PHASE (n : Nat) : Fd := ⟨QUENCH_LCFG n, 63, 56⟩
abbrev QUENCH_LCFG_M (n : Nat) : Fd := ⟨QUENCH_LCFG n, 47, 41⟩
abbrev QUENCH_LCFG_MONLY (n : Nat) : Fd := ⟨QUENCH_LCFG n, 40, 40⟩
abbrev QUENCH_LCFG_DIDX (n : Nat) : Fd := ⟨QUENCH_LCFG n, 39, 36⟩
abbrev QUENCH_LCFG_DST (n : Nat) : Fd := ⟨QUENCH_LCFG n, 35, 34⟩
abbrev QUENCH_LCFG_SRC (n : Nat) : Fd := ⟨QUENCH_LCFG n, 33, 29⟩
abbrev QUENCH_LCFG_NSEC (n : Nat) : Fd := ⟨QUENCH_LCFG n, 28, 26⟩
abbrev QUENCH_LCFG_FIRST (n : Nat) : Fd := ⟨QUENCH_LCFG n, 25, 20⟩
abbrev QUENCH_LCFG_PER (n : Nat) : Fd := ⟨QUENCH_LCFG n, 16, 0⟩
/-- `QUENCH_LSCALE` (R502). -/
abbrev QUENCH_LSCALE (n : Nat) : Nat := 61572651221256 + n * 128
abbrev QUENCH_LSCALE_EIN (n : Nat) : Fd := ⟨QUENCH_LSCALE n, 31, 24⟩
abbrev QUENCH_LSCALE_KIN (n : Nat) : Fd := ⟨QUENCH_LSCALE n, 23, 0⟩
/-- `QUENCH_LSP` (R502). -/
abbrev QUENCH_LSP (n : Nat) : Nat := 61572651221264 + n * 128
abbrev QUENCH_LSP_SPEXT (n : Nat) : Fd := ⟨QUENCH_LSP n, 32, 32⟩
abbrev QUENCH_LSP_SP (n : Nat) : Fd := ⟨QUENCH_LSP n, 31, 0⟩
/-- `QUENCH_LOUT` (R502). -/
abbrev QUENCH_LOUT (n : Nat) : Nat := 61572651221272 + n * 128
abbrev QUENCH_LOUT_OUTBIAS (n : Nat) : Fd := ⟨QUENCH_LOUT n, 63, 32⟩
abbrev QUENCH_LOUT_OUTSPAN (n : Nat) : Fd := ⟨QUENCH_LOUT n, 31, 0⟩
/-- `QUENCH_LCLAMP` (R502). -/
abbrev QUENCH_LCLAMP (n : Nat) : Nat := 61572651221280 + n * 128
abbrev QUENCH_LCLAMP_OUTMAX (n : Nat) : Fd := ⟨QUENCH_LCLAMP n, 63, 32⟩
abbrev QUENCH_LCLAMP_OUTMIN (n : Nat) : Fd := ⟨QUENCH_LCLAMP n, 31, 0⟩
/-- `QUENCH_LOSC` (R502). -/
abbrev QUENCH_LOSC (n : Nat) : Nat := 61572651221288 + n * 128
abbrev QUENCH_LOSC_OSCAMP (n : Nat) : Fd := ⟨QUENCH_LOSC n, 63, 48⟩
abbrev QUENCH_LOSC_OSCN (n : Nat) : Fd := ⟨QUENCH_LOSC n, 47, 42⟩
abbrev QUENCH_LOSC_OSCWIN (n : Nat) : Fd := ⟨QUENCH_LOSC n, 41, 30⟩
/-- `QUENCH_LSAFE` (R502). -/
abbrev QUENCH_LSAFE (n : Nat) : Nat := 61572651221296 + n * 128
abbrev QUENCH_LSAFE_SAFEOUT (n : Nat) : Fd := ⟨QUENCH_LSAFE n, 31, 0⟩
/-- `QUENCH_LCTL` (R502). -/
abbrev QUENCH_LCTL (n : Nat) : Nat := 61572651221304 + n * 128
abbrev QUENCH_LCTL_COMMIT (n : Nat) : Fd := ⟨QUENCH_LCTL n, 3, 3⟩
abbrev QUENCH_LCTL_PRIM (n : Nat) : Fd := ⟨QUENCH_LCTL n, 2, 2⟩
abbrev QUENCH_LCTL_EN (n : Nat) : Fd := ⟨QUENCH_LCTL n, 0, 0⟩
/-- `QUENCH_LSTAT` (R502). -/
abbrev QUENCH_LSTAT (n : Nat) : Nat := 61572651221312 + n * 128
abbrev QUENCH_LSTAT_OUT (n : Nat) : Fd := ⟨QUENCH_LSTAT n, 63, 32⟩
abbrev QUENCH_LSTAT_STATE (n : Nat) : Fd := ⟨QUENCH_LSTAT n, 31, 29⟩
abbrev QUENCH_LSTAT_ERR (n : Nat) : Fd := ⟨QUENCH_LSTAT n, 28, 26⟩
abbrev QUENCH_LSTAT_INSAT (n : Nat) : Fd := ⟨QUENCH_LSTAT n, 15, 15⟩
abbrev QUENCH_LSTAT_CLAMP (n : Nat) : Fd := ⟨QUENCH_LSTAT n, 14, 14⟩
abbrev QUENCH_LSTAT_OSC (n : Nat) : Fd := ⟨QUENCH_LSTAT n, 13, 13⟩
abbrev QUENCH_LSTAT_OSCFAIL (n : Nat) : Fd := ⟨QUENCH_LSTAT n, 12, 12⟩
abbrev QUENCH_LSTAT_SRCFAULT (n : Nat) : Fd := ⟨QUENCH_LSTAT n, 11, 11⟩
abbrev QUENCH_LSTAT_DSTFORCED (n : Nat) : Fd := ⟨QUENCH_LSTAT n, 10, 10⟩
abbrev QUENCH_LSTAT_BACKUP (n : Nat) : Fd := ⟨QUENCH_LSTAT n, 9, 9⟩
/-- `QUENCH_RCCFG` (R502). -/
abbrev QUENCH_RCCFG (n : Nat) : Nat := 61572651221320 + n * 128
abbrev QUENCH_RCCFG_LGAIN (n : Nat) : Fd := ⟨QUENCH_RCCFG n, 63, 48⟩
abbrev QUENCH_RCCFG_FORGET (n : Nat) : Fd := ⟨QUENCH_RCCFG n, 47, 32⟩
abbrev QUENCH_RCCFG_NFIX (n : Nat) : Fd := ⟨QUENCH_RCCFG n, 31, 21⟩
abbrev QUENCH_RCCFG_LEAD (n : Nat) : Fd := ⟨QUENCH_RCCFG n, 20, 13⟩
abbrev QUENCH_RCCFG_PTOL (n : Nat) : Fd := ⟨QUENCH_RCCFG n, 12, 8⟩
abbrev QUENCH_RCCFG_FILT (n : Nat) : Fd := ⟨QUENCH_RCCFG n, 2, 2⟩
abbrev QUENCH_RCCFG_PSRC (n : Nat) : Fd := ⟨QUENCH_RCCFG n, 1, 1⟩
abbrev QUENCH_RCCFG_EN (n : Nat) : Fd := ⟨QUENCH_RCCFG n, 0, 0⟩
/-- `QUENCH_RCSTAT` (R502). -/
abbrev QUENCH_RCSTAT (n : Nat) : Nat := 61572651221328 + n * 128
abbrev QUENCH_RCSTAT_RESETS (n : Nat) : Fd := ⟨QUENCH_RCSTAT n, 63, 48⟩
abbrev QUENCH_RCSTAT_N (n : Nat) : Fd := ⟨QUENCH_RCSTAT n, 47, 37⟩
abbrev QUENCH_RCSTAT_PHI (n : Nat) : Fd := ⟨QUENCH_RCSTAT n, 36, 26⟩
abbrev QUENCH_RCSTAT_STATE (n : Nat) : Fd := ⟨QUENCH_RCSTAT n, 25, 24⟩
abbrev QUENCH_RCSTAT_OUT (n : Nat) : Fd := ⟨QUENCH_RCSTAT n, 23, 0⟩
/-- `QUENCH_SPA` (R502). -/
abbrev QUENCH_SPA (n : Nat) : Nat := 61572651225088 + n * 64
abbrev QUENCH_SPA_EXP (n : Nat) : Fd := ⟨QUENCH_SPA n, 63, 56⟩
abbrev QUENCH_SPA_B0 (n : Nat) : Fd := ⟨QUENCH_SPA n, 47, 24⟩
abbrev QUENCH_SPA_B1 (n : Nat) : Fd := ⟨QUENCH_SPA n, 23, 0⟩
/-- `QUENCH_SBA` (R502). -/
abbrev QUENCH_SBA (n : Nat) : Nat := 61572651225112 + n * 64
abbrev QUENCH_SBA_EXP (n : Nat) : Fd := ⟨QUENCH_SBA n, 63, 56⟩
abbrev QUENCH_SBA_B0 (n : Nat) : Fd := ⟨QUENCH_SBA n, 47, 24⟩
abbrev QUENCH_SBA_B1 (n : Nat) : Fd := ⟨QUENCH_SBA n, 23, 0⟩
/-- `QUENCH_SPB` (R502). -/
abbrev QUENCH_SPB (n : Nat) : Nat := 61572651225096 + n * 64
abbrev QUENCH_SPB_B2 (n : Nat) : Fd := ⟨QUENCH_SPB n, 47, 24⟩
abbrev QUENCH_SPB_A1 (n : Nat) : Fd := ⟨QUENCH_SPB n, 23, 0⟩
/-- `QUENCH_SBB` (R502). -/
abbrev QUENCH_SBB (n : Nat) : Nat := 61572651225120 + n * 64
abbrev QUENCH_SBB_B2 (n : Nat) : Fd := ⟨QUENCH_SBB n, 47, 24⟩
abbrev QUENCH_SBB_A1 (n : Nat) : Fd := ⟨QUENCH_SBB n, 23, 0⟩
/-- `QUENCH_SPC` (R502). -/
abbrev QUENCH_SPC (n : Nat) : Nat := 61572651225104 + n * 64
abbrev QUENCH_SPC_A2 (n : Nat) : Fd := ⟨QUENCH_SPC n, 23, 0⟩
/-- `QUENCH_SBC` (R502). -/
abbrev QUENCH_SBC (n : Nat) : Nat := 61572651225128 + n * 64
abbrev QUENCH_SBC_A2 (n : Nat) : Fd := ⟨QUENCH_SBC n, 23, 0⟩
/-- `QUENCH_SZ` (R502). -/
abbrev QUENCH_SZ (n : Nat) : Nat := 61572651225136 + n * 64
abbrev QUENCH_SZ_Z1 (n : Nat) : Fd := ⟨QUENCH_SZ n, 63, 32⟩
abbrev QUENCH_SZ_Z2 (n : Nat) : Fd := ⟨QUENCH_SZ n, 31, 0⟩
/-- `QUENCH_SCTL` (R502). -/
abbrev QUENCH_SCTL (n : Nat) : Nat := 61572651225144 + n * 64
abbrev QUENCH_SCTL_SAT (n : Nat) : Fd := ⟨QUENCH_SCTL n, 8, 8⟩
abbrev QUENCH_SCTL_BKACT (n : Nat) : Fd := ⟨QUENCH_SCTL n, 7, 7⟩
abbrev QUENCH_SCTL_OWNED (n : Nat) : Fd := ⟨QUENCH_SCTL n, 6, 6⟩
abbrev QUENCH_SCTL_OWNER (n : Nat) : Fd := ⟨QUENCH_SCTL n, 5, 2⟩
abbrev QUENCH_SCTL_AW (n : Nat) : Fd := ⟨QUENCH_SCTL n, 1, 1⟩
abbrev QUENCH_SCTL_BKEN (n : Nat) : Fd := ⟨QUENCH_SCTL n, 0, 0⟩
/-- `QUENCH_TRCFG` (R502). -/
abbrev QUENCH_TRCFG (n : Nat) : Nat := 61572651223296 + n * 8
abbrev QUENCH_TRCFG_EN (n : Nat) : Fd := ⟨QUENCH_TRCFG n, 16, 16⟩
abbrev QUENCH_TRCFG_DEC (n : Nat) : Fd := ⟨QUENCH_TRCFG n, 15, 8⟩
abbrev QUENCH_TRCFG_NODE (n : Nat) : Fd := ⟨QUENCH_TRCFG n, 7, 4⟩
abbrev QUENCH_TRCFG_LOOP (n : Nat) : Fd := ⟨QUENCH_TRCFG n, 3, 0⟩
/-- `QUENCH_TRCTL` (R502). -/
abbrev QUENCH_TRCTL : Nat := 61572651223360
abbrev QUENCH_TRCTL_TLEVEL : Fd := ⟨QUENCH_TRCTL, 63, 32⟩
abbrev QUENCH_TRCTL_PRE : Fd := ⟨QUENCH_TRCTL, 31, 20⟩
abbrev QUENCH_TRCTL_TRIG : Fd := ⟨QUENCH_TRCTL, 17, 16⟩
abbrev QUENCH_TRCTL_TLOOP : Fd := ⟨QUENCH_TRCTL, 15, 12⟩
abbrev QUENCH_TRCTL_FORCE : Fd := ⟨QUENCH_TRCTL, 1, 1⟩
abbrev QUENCH_TRCTL_ARM : Fd := ⟨QUENCH_TRCTL, 0, 0⟩
/-- `QUENCH_TRSTAT` (R502). -/
abbrev QUENCH_TRSTAT : Nat := 61572651223368
abbrev QUENCH_TRSTAT_CDONE : Fd := ⟨QUENCH_TRSTAT, 15, 8⟩
abbrev QUENCH_TRSTAT_STATE : Fd := ⟨QUENCH_TRSTAT, 1, 0⟩
/-- `QUENCH_TRSEL` (R502). -/
abbrev QUENCH_TRSEL : Nat := 61572651223376
abbrev QUENCH_TRSEL_CH : Fd := ⟨QUENCH_TRSEL, 14, 12⟩
abbrev QUENCH_TRSEL_IDX : Fd := ⟨QUENCH_TRSEL, 11, 0⟩
/-- `QUENCH_TRDATA` (R502). -/
abbrev QUENCH_TRDATA : Nat := 61572651223384
abbrev QUENCH_TRDATA_TIME : Fd := ⟨QUENCH_TRDATA, 63, 32⟩
abbrev QUENCH_TRDATA_VALUE : Fd := ⟨QUENCH_TRDATA, 31, 0⟩
/-- `TUYERE_BANK` (R528). -/
abbrev TUYERE_BANK (n : Nat) : Nat := 61572651286592 + n * 8
abbrev TUYERE_BANK_PKWAIT (n : Nat) : Fd := ⟨TUYERE_BANK n, 39, 32⟩
abbrev TUYERE_BANK_FCHOP (n : Nat) : Fd := ⟨TUYERE_BANK n, 31, 24⟩
abbrev TUYERE_BANK_VPER (n : Nat) : Fd := ⟨TUYERE_BANK n, 23, 16⟩
abbrev TUYERE_BANK_IHS (n : Nat) : Fd := ⟨TUYERE_BANK n, 15, 0⟩
/-- `TUYERE_BOOST` (R528). -/
abbrev TUYERE_BOOST : Nat := 61572651286616
abbrev TUYERE_BOOST_BWAIT : Fd := ⟨TUYERE_BOOST, 39, 32⟩
abbrev TUYERE_BOOST_BRDY : Fd := ⟨TUYERE_BOOST, 31, 24⟩
abbrev TUYERE_BOOST_READY : Fd := ⟨TUYERE_BOOST, 16, 16⟩
abbrev TUYERE_BOOST_VBOOST : Fd := ⟨TUYERE_BOOST, 15, 0⟩
/-- `TUYERE_XSEQ` (R528). -/
abbrev TUYERE_XSEQ : Nat := 61572651286624
abbrev TUYERE_XSEQ_XGAP : Fd := ⟨TUYERE_XSEQ, 31, 24⟩
abbrev TUYERE_XSEQ_TX1REL : Fd := ⟨TUYERE_XSEQ, 23, 16⟩
abbrev TUYERE_XSEQ_TX1ZERO : Fd := ⟨TUYERE_XSEQ, 15, 8⟩
abbrev TUYERE_XSEQ_TX0ZERO : Fd := ⟨TUYERE_XSEQ, 7, 0⟩
/-- `TUYERE_VVMON` (R528). -/
abbrev TUYERE_VVMON : Nat := 61572651286632
abbrev TUYERE_VVMON_VVLOW : Fd := ⟨TUYERE_VVMON, 16, 16⟩
abbrev TUYERE_VVMON_VVALVE : Fd := ⟨TUYERE_VVMON, 15, 0⟩
/-- `TUYERE_VPROF` (R528). -/
abbrev TUYERE_VPROF (n : Nat) : Nat := 61572651286784 + n * 64
abbrev TUYERE_VPROF_TPKMAX (n : Nat) : Fd := ⟨TUYERE_VPROF n, 63, 56⟩
abbrev TUYERE_VPROF_TPKMIN (n : Nat) : Fd := ⟨TUYERE_VPROF n, 55, 48⟩
abbrev TUYERE_VPROF_TPEAK (n : Nat) : Fd := ⟨TUYERE_VPROF n, 47, 40⟩
abbrev TUYERE_VPROF_IPEAK (n : Nat) : Fd := ⟨TUYERE_VPROF n, 32, 24⟩
abbrev TUYERE_VPROF_IHOLD (n : Nat) : Fd := ⟨TUYERE_VPROF n, 16, 8⟩
abbrev TUYERE_VPROF_IHMIN (n : Nat) : Fd := ⟨TUYERE_VPROF n, 7, 0⟩
/-- `TUYERE_VCMD` (R528). -/
abbrev TUYERE_VCMD (n : Nat) : Nat := 61572651286792 + n * 64
abbrev TUYERE_VCMD_TOFFMIN (n : Nat) : Fd := ⟨TUYERE_VCMD n, 39, 32⟩
abbrev TUYERE_VCMD_TONMIN (n : Nat) : Fd := ⟨TUYERE_VCMD n, 31, 24⟩
abbrev TUYERE_VCMD_SLOT (n : Nat) : Fd := ⟨TUYERE_VCMD n, 23, 16⟩
abbrev TUYERE_VCMD_WIN (n : Nat) : Fd := ⟨TUYERE_VCMD n, 15, 8⟩
abbrev TUYERE_VCMD_BOARDV (n : Nat) : Fd := ⟨TUYERE_VCMD n, 4, 4⟩
abbrev TUYERE_VCMD_FIXCMD (n : Nat) : Fd := ⟨TUYERE_VCMD n, 3, 3⟩
abbrev TUYERE_VCMD_MODE (n : Nat) : Fd := ⟨TUYERE_VCMD n, 1, 0⟩
/-- `TUYERE_VPROT` (R528). -/
abbrev TUYERE_VPROT (n : Nat) : Nat := 61572651286800 + n * 64
abbrev TUYERE_VPROT_TMAX (n : Nat) : Fd := ⟨TUYERE_VPROT n, 63, 56⟩
abbrev TUYERE_VPROT_TWARN (n : Nat) : Fd := ⟨TUYERE_VPROT n, 55, 48⟩
abbrev TUYERE_VPROT_TAU (n : Nat) : Fd := ⟨TUYERE_VPROT n, 47, 32⟩
abbrev TUYERE_VPROT_RTH (n : Nat) : Fd := ⟨TUYERE_VPROT n, 31, 24⟩
abbrev TUYERE_VPROT_RCOIL (n : Nat) : Fd := ⟨TUYERE_VPROT n, 23, 12⟩
abbrev TUYERE_VPROT_TSRC (n : Nat) : Fd := ⟨TUYERE_VPROT n, 11, 8⟩
abbrev TUYERE_VPROT_LIMIT (n : Nat) : Fd := ⟨TUYERE_VPROT n, 7, 1⟩
abbrev TUYERE_VPROT_PROT (n : Nat) : Fd := ⟨TUYERE_VPROT n, 0, 0⟩
/-- `TUYERE_VSTAT` (R528). -/
abbrev TUYERE_VSTAT (n : Nat) : Nat := 61572651286808 + n * 64
abbrev TUYERE_VSTAT_TCOIL (n : Nat) : Fd := ⟨TUYERE_VSTAT n, 63, 48⟩
abbrev TUYERE_VSTAT_DUTYAPP (n : Nat) : Fd := ⟨TUYERE_VSTAT n, 47, 38⟩
abbrev TUYERE_VSTAT_WINPCT (n : Nat) : Fd := ⟨TUYERE_VSTAT n, 31, 25⟩
abbrev TUYERE_VSTAT_ICOIL (n : Nat) : Fd := ⟨TUYERE_VSTAT n, 24, 16⟩
abbrev TUYERE_VSTAT_STATE (n : Nat) : Fd := ⟨TUYERE_VSTAT n, 15, 13⟩
abbrev TUYERE_VSTAT_FAULT (n : Nat) : Fd := ⟨TUYERE_VSTAT n, 12, 12⟩
abbrev TUYERE_VSTAT_NOMOTION (n : Nat) : Fd := ⟨TUYERE_VSTAT n, 11, 11⟩
abbrev TUYERE_VSTAT_TTPLOW (n : Nat) : Fd := ⟨TUYERE_VSTAT n, 10, 10⟩
abbrev TUYERE_VSTAT_TTPHIGH (n : Nat) : Fd := ⟨TUYERE_VSTAT n, 9, 9⟩
abbrev TUYERE_VSTAT_BOOSTNR (n : Nat) : Fd := ⟨TUYERE_VSTAT n, 8, 8⟩
abbrev TUYERE_VSTAT_PKREFUSE (n : Nat) : Fd := ⟨TUYERE_VSTAT n, 7, 7⟩
abbrev TUYERE_VSTAT_OVERCUR (n : Nat) : Fd := ⟨TUYERE_VSTAT n, 6, 6⟩
abbrev TUYERE_VSTAT_DLIM (n : Nat) : Fd := ⟨TUYERE_VSTAT n, 5, 5⟩
abbrev TUYERE_VSTAT_COILWARN (n : Nat) : Fd := ⟨TUYERE_VSTAT n, 4, 4⟩
abbrev TUYERE_VSTAT_COILHOT (n : Nat) : Fd := ⟨TUYERE_VSTAT n, 3, 3⟩
abbrev TUYERE_VSTAT_FORCED (n : Nat) : Fd := ⟨TUYERE_VSTAT n, 2, 2⟩
/-- `TUYERE_VDIAG` (R528). -/
abbrev TUYERE_VDIAG (n : Nat) : Nat := 61572651286816 + n * 64
abbrev TUYERE_VDIAG_NMCNT (n : Nat) : Fd := ⟨TUYERE_VDIAG n, 63, 48⟩
abbrev TUYERE_VDIAG_REFCNT (n : Nat) : Fd := ⟨TUYERE_VDIAG n, 47, 32⟩
abbrev TUYERE_VDIAG_TCLOSE (n : Nat) : Fd := ⟨TUYERE_VDIAG n, 31, 24⟩
abbrev TUYERE_VDIAG_TTP (n : Nat) : Fd := ⟨TUYERE_VDIAG n, 23, 16⟩
abbrev TUYERE_VDIAG_ABORTCNT (n : Nat) : Fd := ⟨TUYERE_VDIAG n, 15, 8⟩
abbrev TUYERE_VDIAG_BNRCNT (n : Nat) : Fd := ⟨TUYERE_VDIAG n, 7, 0⟩
/-- `TUYERE_VKINK` (R528). -/
abbrev TUYERE_VKINK (n : Nat) : Nat := 61572651286824 + n * 64
abbrev TUYERE_VKINK_KWIN (n : Nat) : Fd := ⟨TUYERE_VKINK n, 23, 16⟩
abbrev TUYERE_VKINK_KTHR (n : Nat) : Fd := ⟨TUYERE_VKINK n, 15, 0⟩
/-- `CANFD_CTL` (R560). -/
abbrev CANFD_CTL : Nat := 61572651483392
abbrev CANFD_CTL_BOMAN : Fd := ⟨CANFD_CTL, 7, 7⟩
abbrev CANFD_CTL_NOMATCH : Fd := ⟨CANFD_CTL, 6, 6⟩
abbrev CANFD_CTL_MON : Fd := ⟨CANFD_CTL, 5, 5⟩
abbrev CANFD_CTL_TDCEN : Fd := ⟨CANFD_CTL, 4, 4⟩
abbrev CANFD_CTL_FDEN : Fd := ⟨CANFD_CTL, 3, 3⟩
abbrev CANFD_CTL_EN : Fd := ⟨CANFD_CTL, 0, 0⟩
/-- `CANFD_NBT` (R560). -/
abbrev CANFD_NBT : Nat := 61572651483400
abbrev CANFD_NBT_NBRP : Fd := ⟨CANFD_NBT, 31, 27⟩
abbrev CANFD_NBT_NTSEG1 : Fd := ⟨CANFD_NBT, 26, 19⟩
abbrev CANFD_NBT_NTSEG2 : Fd := ⟨CANFD_NBT, 18, 12⟩
abbrev CANFD_NBT_NSJW : Fd := ⟨CANFD_NBT, 11, 5⟩
/-- `CANFD_DBT` (R560). -/
abbrev CANFD_DBT : Nat := 61572651483408
abbrev CANFD_DBT_DBRP : Fd := ⟨CANFD_DBT, 31, 27⟩
abbrev CANFD_DBT_DTSEG1 : Fd := ⟨CANFD_DBT, 26, 18⟩
abbrev CANFD_DBT_DTSEG2 : Fd := ⟨CANFD_DBT, 17, 11⟩
abbrev CANFD_DBT_DSJW : Fd := ⟨CANFD_DBT, 10, 4⟩
/-- `CANFD_TDC` (R560). -/
abbrev CANFD_TDC : Nat := 61572651483416
abbrev CANFD_TDC_TDCV : Fd := ⟨CANFD_TDC, 22, 16⟩
abbrev CANFD_TDC_TDCO : Fd := ⟨CANFD_TDC, 14, 8⟩
/-- `CANFD_STAT` (R560). -/
abbrev CANFD_STAT : Nat := 61572651483424
abbrev CANFD_STAT_RMTDROP : Fd := ⟨CANFD_STAT, 63, 48⟩
abbrev CANFD_STAT_WRREF : Fd := ⟨CANFD_STAT, 47, 40⟩
abbrev CANFD_STAT_FLTMISS : Fd := ⟨CANFD_STAT, 39, 32⟩
abbrev CANFD_STAT_REC : Fd := ⟨CANFD_STAT, 23, 16⟩
abbrev CANFD_STAT_TEC : Fd := ⟨CANFD_STAT, 15, 8⟩
abbrev CANFD_STAT_STATE : Fd := ⟨CANFD_STAT, 7, 6⟩
abbrev CANFD_STAT_BOFF : Fd := ⟨CANFD_STAT, 3, 3⟩
abbrev CANFD_STAT_LEC : Fd := ⟨CANFD_STAT, 2, 0⟩
/-- `CANFD_TTCFG` (R560). -/
abbrev CANFD_TTCFG : Nat := 61572651483432
abbrev CANFD_TTCFG_CYCLEN : Fd := ⟨CANFD_TTCFG, 63, 48⟩
abbrev CANFD_TTCFG_TXEW : Fd := ⟨CANFD_TTCFG, 47, 40⟩
abbrev CANFD_TTCFG_CCM : Fd := ⟨CANFD_TTCFG, 39, 37⟩
abbrev CANFD_TTCFG_TMPRI : Fd := ⟨CANFD_TTCFG, 36, 35⟩
abbrev CANFD_TTCFG_TMEN : Fd := ⟨CANFD_TTCFG, 34, 34⟩
abbrev CANFD_TTCFG_RID : Fd := ⟨CANFD_TTCFG, 33, 23⟩
abbrev CANFD_TTCFG_NTRIG : Fd := ⟨CANFD_TTCFG, 22, 17⟩
abbrev CANFD_TTCFG_TTEN : Fd := ⟨CANFD_TTCFG, 0, 0⟩
/-- `CANFD_TTSTAT` (R560). -/
abbrev CANFD_TTSTAT : Nat := 61572651483440
abbrev CANFD_TTSTAT_REFMISS : Fd := ⟨CANFD_TTSTAT, 63, 48⟩
abbrev CANFD_TTSTAT_CURTM : Fd := ⟨CANFD_TTSTAT, 42, 41⟩
abbrev CANFD_TTSTAT_ISTM : Fd := ⟨CANFD_TTSTAT, 40, 40⟩
abbrev CANFD_TTSTAT_CYCLE : Fd := ⟨CANFD_TTSTAT, 39, 34⟩
abbrev CANFD_TTSTAT_CTIME : Fd := ⟨CANFD_TTSTAT, 33, 18⟩
abbrev CANFD_TTSTAT_TTSTATE : Fd := ⟨CANFD_TTSTAT, 17, 16⟩
abbrev CANFD_TTSTAT_ERR : Fd := ⟨CANFD_TTSTAT, 2, 0⟩
/-- `CANFD_TRIG` (R560). -/
abbrev CANFD_TRIG (n : Nat) : Nat := 61572651484928 + n * 8
abbrev CANFD_TRIG_TMARK (n : Nat) : Fd := ⟨CANFD_TRIG n, 63, 48⟩
abbrev CANFD_TRIG_TYPE (n : Nat) : Fd := ⟨CANFD_TRIG n, 47, 46⟩
abbrev CANFD_TRIG_BUF (n : Nat) : Fd := ⟨CANFD_TRIG n, 45, 40⟩
abbrev CANFD_TRIG_REP (n : Nat) : Fd := ⟨CANFD_TRIG n, 39, 37⟩
abbrev CANFD_TRIG_OFS (n : Nat) : Fd := ⟨CANFD_TRIG n, 36, 31⟩
/-- `CANFD_BCFG` (R560). -/
abbrev CANFD_BCFG (n : Nat) : Nat := 61572651487232 + n * 128
abbrev CANFD_BCFG_EN (n : Nat) : Fd := ⟨CANFD_BCFG n, 63, 63⟩
abbrev CANFD_BCFG_DIR (n : Nat) : Fd := ⟨CANFD_BCFG n, 62, 62⟩
abbrev CANFD_BCFG_FDF (n : Nat) : Fd := ⟨CANFD_BCFG n, 61, 61⟩
abbrev CANFD_BCFG_BRS (n : Nat) : Fd := ⟨CANFD_BCFG n, 60, 60⟩
abbrev CANFD_BCFG_IDE (n : Nat) : Fd := ⟨CANFD_BCFG n, 59, 59⟩
abbrev CANFD_BCFG_TTX (n : Nat) : Fd := ⟨CANFD_BCFG n, 58, 58⟩
abbrev CANFD_BCFG_DLC (n : Nat) : Fd := ⟨CANFD_BCFG n, 57, 54⟩
abbrev CANFD_BCFG_ID (n : Nat) : Fd := ⟨CANFD_BCFG n, 28, 0⟩
/-- `CANFD_BSTAT` (R560). -/
abbrev CANFD_BSTAT (n : Nat) : Nat := 61572651487240 + n * 128
abbrev CANFD_BSTAT_WCNT (n : Nat) : Fd := ⟨CANFD_BSTAT n, 63, 56⟩
abbrev CANFD_BSTAT_NEWDAT (n : Nat) : Fd := ⟨CANFD_BSTAT n, 55, 55⟩
abbrev CANFD_BSTAT_MSGLOST (n : Nat) : Fd := ⟨CANFD_BSTAT n, 54, 54⟩
abbrev CANFD_BSTAT_BUSY (n : Nat) : Fd := ⟨CANFD_BSTAT n, 53, 53⟩
abbrev CANFD_BSTAT_TXPEND (n : Nat) : Fd := ⟨CANFD_BSTAT n, 52, 52⟩
abbrev CANFD_BSTAT_TXOK (n : Nat) : Fd := ⟨CANFD_BSTAT n, 51, 51⟩
abbrev CANFD_BSTAT_TXCAN (n : Nat) : Fd := ⟨CANFD_BSTAT n, 50, 50⟩
abbrev CANFD_BSTAT_CANFAIL (n : Nat) : Fd := ⟨CANFD_BSTAT n, 49, 49⟩
abbrev CANFD_BSTAT_FDF (n : Nat) : Fd := ⟨CANFD_BSTAT n, 48, 48⟩
abbrev CANFD_BSTAT_BRS (n : Nat) : Fd := ⟨CANFD_BSTAT n, 47, 47⟩
abbrev CANFD_BSTAT_ESI (n : Nat) : Fd := ⟨CANFD_BSTAT n, 46, 46⟩
abbrev CANFD_BSTAT_IDE (n : Nat) : Fd := ⟨CANFD_BSTAT n, 45, 45⟩
abbrev CANFD_BSTAT_DLC (n : Nat) : Fd := ⟨CANFD_BSTAT n, 44, 41⟩
abbrev CANFD_BSTAT_RID (n : Nat) : Fd := ⟨CANFD_BSTAT n, 28, 0⟩
/-- `CANFD_BCMD` (R560). -/
abbrev CANFD_BCMD (n : Nat) : Nat := 61572651487248 + n * 128
abbrev CANFD_BCMD_ACKCNT (n : Nat) : Fd := ⟨CANFD_BCMD n, 10, 3⟩
abbrev CANFD_BCMD_ACK (n : Nat) : Fd := ⟨CANFD_BCMD n, 2, 2⟩
abbrev CANFD_BCMD_CANCEL (n : Nat) : Fd := ⟨CANFD_BCMD n, 1, 1⟩
abbrev CANFD_BCMD_TXREQ (n : Nat) : Fd := ⟨CANFD_BCMD n, 0, 0⟩
/-- `CANFD_BTS` (R560). -/
abbrev CANFD_BTS (n : Nat) : Nat := 61572651487256 + n * 128
abbrev CANFD_BTS_TS (n : Nat) : Fd := ⟨CANFD_BTS n, 63, 0⟩
/-- `MGMT_MAC` (R561). -/
abbrev MGMT_MAC : Nat := 61572651548928
abbrev MGMT_MAC_MAC : Fd := ⟨MGMT_MAC, 47, 0⟩
/-- `MGMT_CFG` (R561). -/
abbrev MGMT_CFG : Nat := 61572651548936
abbrev MGMT_CFG_VID : Fd := ⟨MGMT_CFG, 47, 36⟩
abbrev MGMT_CFG_VLAN_EN : Fd := ⟨MGMT_CFG, 35, 35⟩
abbrev MGMT_CFG_IPV4_EN : Fd := ⟨MGMT_CFG, 34, 34⟩
abbrev MGMT_CFG_UDPPORT : Fd := ⟨MGMT_CFG, 31, 16⟩
abbrev MGMT_CFG_NTGT : Fd := ⟨MGMT_CFG, 3, 2⟩
abbrev MGMT_CFG_ENABLE : Fd := ⟨MGMT_CFG, 0, 0⟩
/-- `MGMT_RMADDRH` (R561). -/
abbrev MGMT_RMADDRH (n : Nat) : Nat := 61572651548992 + n * 16
abbrev MGMT_RMADDRH_HI (n : Nat) : Fd := ⟨MGMT_RMADDRH n, 63, 0⟩
/-- `MGMT_RMADDRL` (R561). -/
abbrev MGMT_RMADDRL (n : Nat) : Nat := 61572651549000 + n * 16
abbrev MGMT_RMADDRL_LO (n : Nat) : Fd := ⟨MGMT_RMADDRL n, 63, 0⟩
/-- `MGMT_STAT` (R561). -/
abbrev MGMT_STAT : Nat := 61572651549056
abbrev MGMT_STAT_DROPSRC : Fd := ⟨MGMT_STAT, 63, 48⟩
abbrev MGMT_STAT_BADREQ : Fd := ⟨MGMT_STAT, 47, 32⟩
abbrev MGMT_STAT_NTFDROP : Fd := ⟨MGMT_STAT, 31, 16⟩
abbrev MGMT_STAT_NTFOUT : Fd := ⟨MGMT_STAT, 15, 8⟩
abbrev MGMT_STAT_LINK : Fd := ⟨MGMT_STAT, 0, 0⟩
/-- `BIC_CLAIM` (R582). -/
abbrev BIC_CLAIM (n : Nat) : Nat := 61572651352320 + n * 16
abbrev BIC_CLAIM_COUNT (n : Nat) : Fd := ⟨BIC_CLAIM n, 31, 16⟩
abbrev BIC_CLAIM_VALID (n : Nat) : Fd := ⟨BIC_CLAIM n, 15, 15⟩
abbrev BIC_CLAIM_DEPTH (n : Nat) : Fd := ⟨BIC_CLAIM n, 14, 12⟩
abbrev BIC_CLAIM_PRIO (n : Nat) : Fd := ⟨BIC_CLAIM n, 11, 8⟩
abbrev BIC_CLAIM_SRC (n : Nat) : Fd := ⟨BIC_CLAIM n, 7, 0⟩
/-- `BIC_COMPLETE` (R582). -/
abbrev BIC_COMPLETE (n : Nat) : Nat := 61572651352328 + n * 16
abbrev BIC_COMPLETE_SRC (n : Nat) : Fd := ⟨BIC_COMPLETE n, 7, 0⟩
/-- `BIC_HCOMPLETE` (R582). -/
abbrev BIC_HCOMPLETE : Nat := 61572651352352
abbrev BIC_HCOMPLETE_SRC : Fd := ⟨BIC_HCOMPLETE, 7, 0⟩
/-- `BIC_HOSTCFG` (R582). -/
abbrev BIC_HOSTCFG : Nat := 61572651352360
abbrev BIC_HOSTCFG_STRM : Fd := ⟨BIC_HOSTCFG, 31, 16⟩
abbrev BIC_HOSTCFG_HTMO : Fd := ⟨BIC_HOSTCFG, 15, 8⟩
/-- `BIC_STAT` (R582). -/
abbrev BIC_STAT : Nat := 61572651352368
abbrev BIC_STAT_SPURIOUS : Fd := ⟨BIC_STAT, 63, 48⟩
abbrev BIC_STAT_HTMOCNT : Fd := ⟨BIC_STAT, 47, 32⟩
abbrev BIC_STAT_HELDOVF : Fd := ⟨BIC_STAT, 31, 16⟩
abbrev BIC_STAT_WAKES : Fd := ⟨BIC_STAT, 15, 0⟩
/-- `BIC_GRP` (R582). -/
abbrev BIC_GRP (g : Nat) : Nat := 61572651352576 + g * 8
abbrev BIC_GRP_TIME (g : Nat) : Fd := ⟨BIC_GRP g, 23, 8⟩
abbrev BIC_GRP_COUNT (g : Nat) : Fd := ⟨BIC_GRP g, 7, 0⟩
/-- `BIC_SRCCFG` (R582). -/
abbrev BIC_SRCCFG (n : Nat) : Nat := 61572651356160 + n * 8
abbrev BIC_SRCCFG_TYPE (n : Nat) : Fd := ⟨BIC_SRCCFG n, 18, 18⟩
abbrev BIC_SRCCFG_WATCH (n : Nat) : Fd := ⟨BIC_SRCCFG n, 17, 17⟩
abbrev BIC_SRCCFG_DELIV (n : Nat) : Fd := ⟨BIC_SRCCFG n, 16, 16⟩
abbrev BIC_SRCCFG_GROUP (n : Nat) : Fd := ⟨BIC_SRCCFG n, 15, 12⟩
abbrev BIC_SRCCFG_TEN (n : Nat) : Fd := ⟨BIC_SRCCFG n, 11, 8⟩
abbrev BIC_SRCCFG_PRIO (n : Nat) : Fd := ⟨BIC_SRCCFG n, 3, 0⟩
/-- `BIC_SRCSTAT` (R582). -/
abbrev BIC_SRCSTAT (n : Nat) : Nat := 61572651358208 + n * 8
abbrev BIC_SRCSTAT_LASTSEQ (n : Nat) : Fd := ⟨BIC_SRCSTAT n, 63, 32⟩
abbrev BIC_SRCSTAT_COUNT (n : Nat) : Fd := ⟨BIC_SRCSTAT n, 31, 16⟩
abbrev BIC_SRCSTAT_ACTIVE (n : Nat) : Fd := ⟨BIC_SRCSTAT n, 15, 12⟩
abbrev BIC_SRCSTAT_PENDT (n : Nat) : Fd := ⟨BIC_SRCSTAT n, 11, 8⟩
abbrev BIC_SRCSTAT_LEVEL (n : Nat) : Fd := ⟨BIC_SRCSTAT n, 0, 0⟩
/-- `EVREC_HEAD` (R583). -/
abbrev EVREC_HEAD : Nat := 61572651417856
abbrev EVREC_HEAD_WGEN : Fd := ⟨EVREC_HEAD, 63, 32⟩
abbrev EVREC_HEAD_NEXT : Fd := ⟨EVREC_HEAD, 31, 0⟩
/-- `EVREC_RSEL` (R583). -/
abbrev EVREC_RSEL : Nat := 61572651417872
abbrev EVREC_RSEL_RSTAT : Fd := ⟨EVREC_RSEL, 33, 32⟩
abbrev EVREC_RSEL_SEQ : Fd := ⟨EVREC_RSEL, 31, 0⟩
/-- `EVREC_RDATA` (R583). -/
abbrev EVREC_RDATA (n : Nat) : Nat := 61572651417880 + n * 8
abbrev EVREC_RDATA_DATA (n : Nat) : Fd := ⟨EVREC_RDATA n, 63, 0⟩
/-- `EVREC_STAT` (R583). -/
abbrev EVREC_STAT : Nat := 61572651417912
abbrev EVREC_STAT_DROPPED : Fd := ⟨EVREC_STAT, 63, 48⟩
abbrev EVREC_STAT_NORERR : Fd := ⟨EVREC_STAT, 47, 32⟩
abbrev EVREC_STAT_PENDING : Fd := ⟨EVREC_STAT, 31, 16⟩
abbrev EVREC_STAT_CLEARS : Fd := ⟨EVREC_STAT, 15, 0⟩
/-- `BELLOWS_PWRSTAT` (R602). -/
abbrev BELLOWS_PWRSTAT : Nat := 61572651156736
abbrev BELLOWS_PWRSTAT_VIN48 : Fd := ⟨BELLOWS_PWRSTAT, 63, 48⟩
abbrev BELLOWS_PWRSTAT_VSB12 : Fd := ⟨BELLOWS_PWRSTAT, 47, 32⟩
abbrev BELLOWS_PWRSTAT_VINOV : Fd := ⟨BELLOWS_PWRSTAT, 7, 7⟩
abbrev BELLOWS_PWRSTAT_VSBWARN : Fd := ⟨BELLOWS_PWRSTAT, 6, 6⟩
abbrev BELLOWS_PWRSTAT_VINSAG : Fd := ⟨BELLOWS_PWRSTAT, 5, 5⟩
abbrev BELLOWS_PWRSTAT_REGON : Fd := ⟨BELLOWS_PWRSTAT, 4, 4⟩
abbrev BELLOWS_PWRSTAT_STATE : Fd := ⟨BELLOWS_PWRSTAT, 3, 0⟩
/-- `BELLOWS_RSTSTAT` (R602). -/
abbrev BELLOWS_RSTSTAT : Nat := 61572651156744
abbrev BELLOWS_RSTSTAT_COMPUTES : Fd := ⟨BELLOWS_RSTSTAT, 63, 48⟩
abbrev BELLOWS_RSTSTAT_INDEX : Fd := ⟨BELLOWS_RSTSTAT, 47, 32⟩
abbrev BELLOWS_RSTSTAT_CAUSE : Fd := ⟨BELLOWS_RSTSTAT, 23, 16⟩
abbrev BELLOWS_RSTSTAT_KEPT : Fd := ⟨BELLOWS_RSTSTAT, 7, 7⟩
abbrev BELLOWS_RSTSTAT_DOMAIN : Fd := ⟨BELLOWS_RSTSTAT, 2, 0⟩
/-- `BELLOWS_PDSTAT` (R602). -/
abbrev BELLOWS_PDSTAT (n : Nat) : Nat := 61572651156752 + n * 8
abbrev BELLOWS_PDSTAT_ON (n : Nat) : Fd := ⟨BELLOWS_PDSTAT n, 63, 0⟩
/-- `BELLOWS_PDSTAT3` (R602). -/
abbrev BELLOWS_PDSTAT3 : Nat := 61572651156776
abbrev BELLOWS_PDSTAT3_ON : Fd := ⟨BELLOWS_PDSTAT3, 6, 0⟩
/-- `SEC_SECSTAT` (R623). -/
abbrev SEC_SECSTAT : Nat := 61572651614464
abbrev SEC_SECSTAT_FWSVN : Fd := ⟨SEC_SECSTAT, 47, 40⟩
abbrev SEC_SECSTAT_TOKREF : Fd := ⟨SEC_SECSTAT, 39, 32⟩
abbrev SEC_SECSTAT_SLOT : Fd := ⟨SEC_SECSTAT, 14, 14⟩
abbrev SEC_SECSTAT_TRIAL : Fd := ⟨SEC_SECSTAT, 13, 13⟩
abbrev SEC_SECSTAT_UPD : Fd := ⟨SEC_SECSTAT, 12, 12⟩
abbrev SEC_SECSTAT_DEBUG : Fd := ⟨SEC_SECSTAT, 11, 10⟩
abbrev SEC_SECSTAT_CLAIMED : Fd := ⟨SEC_SECSTAT, 9, 9⟩
/-- `SEC_CHAL` (R623). -/
abbrev SEC_CHAL (n : Nat) : Nat := 61572651614472 + n * 8
abbrev SEC_CHAL_CHAL (n : Nat) : Fd := ⟨SEC_CHAL n, 63, 0⟩
/-- `SEC_CNT` (R623). -/
abbrev SEC_CNT (n : Nat) : Nat := 61572651614496 + n * 8
abbrev SEC_CNT_C0 (n : Nat) : Fd := ⟨SEC_CNT n, 7, 0⟩
abbrev SEC_CNT_C1 (n : Nat) : Fd := ⟨SEC_CNT n, 15, 8⟩
abbrev SEC_CNT_C2 (n : Nat) : Fd := ⟨SEC_CNT n, 23, 16⟩
abbrev SEC_CNT_C3 (n : Nat) : Fd := ⟨SEC_CNT n, 31, 24⟩
abbrev SEC_CNT_C4 (n : Nat) : Fd := ⟨SEC_CNT n, 39, 32⟩
abbrev SEC_CNT_C5 (n : Nat) : Fd := ⟨SEC_CNT n, 47, 40⟩
abbrev SEC_CNT_C6 (n : Nat) : Fd := ⟨SEC_CNT n, 55, 48⟩
abbrev SEC_CNT_C7 (n : Nat) : Fd := ⟨SEC_CNT n, 63, 56⟩
/-- `ANVIL_ACNT` (R626). -/
abbrev ANVIL_ACNT (g c : Nat) : Nat := 52776574976512 + g / 16 * 1048576 + g % 16 * 4096 + 8 * c
abbrev ANVIL_ACNT_COUNT (g c : Nat) : Fd := ⟨ANVIL_ACNT g c, 63, 0⟩
/-- `HEARTH_HSCNT` (R626). -/
abbrev HEARTH_HSCNT (h : Nat) : Nat := 52776574910976 + h * 1048576
abbrev HEARTH_HSCNT_COUNT (h : Nat) : Fd := ⟨HEARTH_HSCNT h, 63, 0⟩
/-- `HEARTH_HBMMP` (R626). -/
abbrev HEARTH_HBMMP (s : Nat) : Nat := 52776574910984 + s / 2 * 1048576 + s % 2 * 8
abbrev HEARTH_HBMMP_COUNT (s : Nat) : Fd := ⟨HEARTH_HBMMP s, 63, 0⟩
/-- `HEARTH_HBMCR` (R626). -/
abbrev HEARTH_HBMCR (s : Nat) : Nat := 52776574911000 + s / 2 * 1048576 + s % 2 * 8
abbrev HEARTH_HBMCR_COUNT (s : Nat) : Fd := ⟨HEARTH_HBMCR s, 63, 0⟩
/-- `HEARTH_BRCNT` (R626). -/
abbrev HEARTH_BRCNT (h : Nat) : Nat := 52776574911016 + h * 1048576
abbrev HEARTH_BRCNT_COUNT (h : Nat) : Fd := ⟨HEARTH_BRCNT h, 63, 0⟩
/-- `CRUC_CRMCNT` (R626). -/
abbrev CRUC_CRMCNT (s : Nat) : Nat := 52776575435056 + s / 2 * 1048576 + s % 2 * 262144
abbrev CRUC_CRMCNT_COUNT (s : Nat) : Fd := ⟨CRUC_CRMCNT s, 63, 0⟩
/-- `CRUC_CRVCNT` (R626). -/
abbrev CRUC_CRVCNT (s : Nat) : Nat := 52776575435064 + s / 2 * 1048576 + s % 2 * 262144
abbrev CRUC_CRVCNT_COUNT (s : Nat) : Fd := ⟨CRUC_CRVCNT s, 63, 0⟩
/-- `HAMMER_STCNT` (R626). -/
abbrev HAMMER_STCNT : Nat := 52776558133912
abbrev HAMMER_STCNT_COUNT : Fd := ⟨HAMMER_STCNT, 63, 0⟩
/-- `HAMMER_ISSUECNT` (R626). -/
abbrev HAMMER_ISSUECNT : Nat := 52776558133824
abbrev HAMMER_ISSUECNT_COUNT : Fd := ⟨HAMMER_ISSUECNT, 63, 0⟩
/-- `HAMMER_STALLW` (R626). -/
abbrev HAMMER_STALLW : Nat := 52776558133832
abbrev HAMMER_STALLW_COUNT : Fd := ⟨HAMMER_STALLW, 63, 0⟩
/-- `HAMMER_STALLA` (R626). -/
abbrev HAMMER_STALLA : Nat := 52776558133840
abbrev HAMMER_STALLA_ADMIT : Fd := ⟨HAMMER_STALLA, 63, 32⟩
abbrev HAMMER_STALLA_DRAIN : Fd := ⟨HAMMER_STALLA, 31, 0⟩
/-- `HAMMER_SKIPCNT` (R626). -/
abbrev HAMMER_SKIPCNT : Nat := 52776558133848
abbrev HAMMER_SKIPCNT_COUNT : Fd := ⟨HAMMER_SKIPCNT, 63, 0⟩
/-- `HAMMER_JOBCNT` (R626). -/
abbrev HAMMER_JOBCNT : Nat := 52776558133856
abbrev HAMMER_JOBCNT_DONE : Fd := ⟨HAMMER_JOBCNT, 63, 32⟩
abbrev HAMMER_JOBCNT_FAILED : Fd := ⟨HAMMER_JOBCNT, 31, 0⟩
/-- `HAMMER_SNAPSTAT` (R632). -/
abbrev HAMMER_SNAPSTAT : Nat := 52776558133760
abbrev HAMMER_SNAPSTAT_GEN : Fd := ⟨HAMMER_SNAPSTAT, 63, 32⟩
abbrev HAMMER_SNAPSTAT_TAG : Fd := ⟨HAMMER_SNAPSTAT, 31, 16⟩
abbrev HAMMER_SNAPSTAT_JOBID : Fd := ⟨HAMMER_SNAPSTAT, 15, 8⟩
abbrev HAMMER_SNAPSTAT_SRC : Fd := ⟨HAMMER_SNAPSTAT, 2, 0⟩
/-- `HAMMER_SNAPCYC` (R632). -/
abbrev HAMMER_SNAPCYC : Nat := 52776558133768
abbrev HAMMER_SNAPCYC_CYCLE : Fd := ⟨HAMMER_SNAPCYC, 63, 0⟩
/-- `HAMMER_SNAPPOS` (R632). -/
abbrev HAMMER_SNAPPOS : Nat := 52776558133776
abbrev HAMMER_SNAPPOS_POS : Fd := ⟨HAMMER_SNAPPOS, 63, 0⟩
/-- `HAMMER_SNAPCTL` (R632). -/
abbrev HAMMER_SNAPCTL : Nat := 52776558133784
abbrev HAMMER_SNAPCTL_MERGED : Fd := ⟨HAMMER_SNAPCTL, 63, 48⟩
abbrev HAMMER_SNAPCTL_SNAP : Fd := ⟨HAMMER_SNAPCTL, 16, 16⟩
abbrev HAMMER_SNAPCTL_TAG : Fd := ⟨HAMMER_SNAPCTL, 15, 0⟩
/-- `HAMMER_SNAPSEL` (R632). -/
abbrev HAMMER_SNAPSEL (n : Nat) : Nat := 52776558133792 + n * 8
abbrev HAMMER_SNAPSEL_BASE (n : Nat) : Fd := ⟨HAMMER_SNAPSEL n, 63, 3⟩
/-- `HAMMER_SNAPBUF` (R632). -/
abbrev HAMMER_SNAPBUF (b i : Nat) : Nat := 52776558137344 + b * 2048 + i * 8
abbrev HAMMER_SNAPBUF_DATA (b i : Nat) : Fd := ⟨HAMMER_SNAPBUF b i, 63, 0⟩
/-- `BELLOWS_SNAPSTAT` (R632). -/
abbrev BELLOWS_SNAPSTAT : Nat := 61572651156992
abbrev BELLOWS_SNAPSTAT_GEN : Fd := ⟨BELLOWS_SNAPSTAT, 63, 32⟩
abbrev BELLOWS_SNAPSTAT_TAG : Fd := ⟨BELLOWS_SNAPSTAT, 31, 16⟩
abbrev BELLOWS_SNAPSTAT_MAINVALID : Fd := ⟨BELLOWS_SNAPSTAT, 15, 15⟩
abbrev BELLOWS_SNAPSTAT_SRC : Fd := ⟨BELLOWS_SNAPSTAT, 2, 0⟩
/-- `BELLOWS_SNAPMGMT` (R632). -/
abbrev BELLOWS_SNAPMGMT : Nat := 61572651157000
abbrev BELLOWS_SNAPMGMT_MCYC : Fd := ⟨BELLOWS_SNAPMGMT, 63, 0⟩
/-- `BELLOWS_SNAPSEL` (R632). -/
abbrev BELLOWS_SNAPSEL (n : Nat) : Nat := 61572651157008 + n * 8
abbrev BELLOWS_SNAPSEL_BASE (n : Nat) : Fd := ⟨BELLOWS_SNAPSEL n, 63, 3⟩
/-- `BELLOWS_SNAPBUF` (R632). -/
abbrev BELLOWS_SNAPBUF (b i : Nat) : Nat := 61572651157504 + b * 2048 + i * 8
abbrev BELLOWS_SNAPBUF_DATA (b i : Nat) : Fd := ⟨BELLOWS_SNAPBUF b i, 63, 0⟩
/-- `HAMMER_TRCFG` (R634). -/
abbrev HAMMER_TRCFG : Nat := 52776558133872
abbrev HAMMER_TRCFG_THEAT : Fd := ⟨HAMMER_TRCFG, 63, 52⟩
abbrev HAMMER_TRCFG_PRE : Fd := ⟨HAMMER_TRCFG, 51, 40⟩
abbrev HAMMER_TRCFG_TRIG : Fd := ⟨HAMMER_TRCFG, 33, 32⟩
abbrev HAMMER_TRCFG_TYPES : Fd := ⟨HAMMER_TRCFG, 7, 1⟩
/-- `HAMMER_TRCTL` (R634). -/
abbrev HAMMER_TRCTL : Nat := 52776558133880
abbrev HAMMER_TRCTL_FORCE : Fd := ⟨HAMMER_TRCTL, 1, 1⟩
abbrev HAMMER_TRCTL_ARM : Fd := ⟨HAMMER_TRCTL, 0, 0⟩
/-- `HAMMER_TRSTAT` (R634). -/
abbrev HAMMER_TRSTAT : Nat := 52776558133888
abbrev HAMMER_TRSTAT_LOST : Fd := ⟨HAMMER_TRSTAT, 63, 48⟩
abbrev HAMMER_TRSTAT_STATE : Fd := ⟨HAMMER_TRSTAT, 14, 13⟩
abbrev HAMMER_TRSTAT_COUNT : Fd := ⟨HAMMER_TRSTAT, 12, 0⟩
/-- `HAMMER_TRSEL` (R634). -/
abbrev HAMMER_TRSEL : Nat := 52776558133896
abbrev HAMMER_TRSEL_IDX : Fd := ⟨HAMMER_TRSEL, 11, 0⟩
/-- `HAMMER_TRDATA` (R634). -/
abbrev HAMMER_TRDATA : Nat := 52776558133904
abbrev HAMMER_TRDATA_ENTRY : Fd := ⟨HAMMER_TRDATA, 63, 0⟩
/-- `CANFD_FLTA` (R534). -/
abbrev CANFD_FLTA (n : Nat) : Nat := 61572651485184 + n * 16
abbrev CANFD_FLTA_TYPE (n : Nat) : Fd := ⟨CANFD_FLTA n, 63, 62⟩
abbrev CANFD_FLTA_IDE (n : Nat) : Fd := ⟨CANFD_FLTA n, 61, 61⟩
abbrev CANFD_FLTA_ACT (n : Nat) : Fd := ⟨CANFD_FLTA n, 60, 59⟩
abbrev CANFD_FLTA_BUF (n : Nat) : Fd := ⟨CANFD_FLTA n, 58, 53⟩
abbrev CANFD_FLTA_ID1 (n : Nat) : Fd := ⟨CANFD_FLTA n, 28, 0⟩
/-- `CANFD_FLTB` (R534). -/
abbrev CANFD_FLTB (n : Nat) : Nat := 61572651485192 + n * 16
abbrev CANFD_FLTB_ID2 (n : Nat) : Fd := ⟨CANFD_FLTB n, 28, 0⟩
/-- `CANFD_BDATA` (R560). -/
abbrev CANFD_BDATA (b i : Nat) : Nat := 61572651487296 + b * 128 + i * 8
abbrev CANFD_BDATA_DATA (b i : Nat) : Fd := ⟨CANFD_BDATA b i, 63, 0⟩
/-- `MGMT_IPV4` (R561). -/
abbrev MGMT_IPV4 : Nat := 61572651548944
abbrev MGMT_IPV4_PLEN : Fd := ⟨MGMT_IPV4, 37, 32⟩
abbrev MGMT_IPV4_ADDR : Fd := ⟨MGMT_IPV4, 31, 0⟩
/-- `MGMT_IPV6H` (R561). -/
abbrev MGMT_IPV6H : Nat := 61572651548952
abbrev MGMT_IPV6H_HI : Fd := ⟨MGMT_IPV6H, 63, 0⟩
/-- `MGMT_IPV6L` (R561). -/
abbrev MGMT_IPV6L : Nat := 61572651548960
abbrev MGMT_IPV6L_LO : Fd := ⟨MGMT_IPV6L, 63, 0⟩
/-- `MGMT_V6CFG` (R561). -/
abbrev MGMT_V6CFG : Nat := 61572651548968
abbrev MGMT_V6CFG_DUP : Fd := ⟨MGMT_V6CFG, 8, 8⟩
abbrev MGMT_V6CFG_PLEN : Fd := ⟨MGMT_V6CFG, 7, 0⟩

/-- Registers of the ANVIL block. -/
def regsAnvil : List RegSpec := [
  -- ANVIL_AFLAGS (R91)
  ⟨52776574976256, 1048576, 10, 4096, 16, 8, 1, [⟨9, 9, .w1c, 0, 1, 0, .any⟩,
    ⟨8, 8, .w1c, 0, 1, 0, .any⟩,
    ⟨7, 7, .w1c, 0, 1, 0, .any⟩,
    ⟨6, 6, .w1c, 0, 1, 0, .any⟩,
    ⟨5, 5, .w1c, 0, 1, 0, .any⟩,
    ⟨4, 4, .w1c, 0, 1, 0, .any⟩,
    ⟨3, 3, .w1c, 0, 1, 0, .any⟩,
    ⟨2, 2, .w1c, 0, 1, 0, .any⟩,
    ⟨1, 1, .w1c, 0, 1, 0, .any⟩,
    ⟨0, 0, .w1c, 0, 1, 0, .any⟩]⟩,
  -- ANVIL_SRGEN (R92)
  ⟨52776574976264, 1048576, 10, 4096, 16, 8, 1, [⟨63, 0, .ro, 0, 18446744073709551615, 0, .any⟩]⟩,
  -- ANVIL_SECNT (R274)
  ⟨52776574976272, 1048576, 10, 4096, 16, 8, 1, [⟨47, 32, .ro, 0, 65535, 0, .any⟩,
    ⟨31, 0, .ro, 0, 4294967295, 0, .any⟩]⟩,
  -- ANVIL_ACNT (R626)
  ⟨52776574976512, 1048576, 10, 4096, 16, 8, 8, [⟨63, 0, .ro, 0, 18446744073709551615, 0, .any⟩]⟩]

/-- Registers of the HAMMER block, part 1. -/
def regsHammer0 : List RegSpec := [
  -- HAMMER_SFLAGS (R102)
  ⟨52776558133504, 8, 1, 8, 1, 8, 1, [⟨1, 1, .w1c, 0, 1, 0, .any⟩,
    ⟨0, 0, .w1c, 0, 1, 0, .any⟩]⟩,
  -- HAMMER_TOKSTAT (R145)
  ⟨52776558133512, 8, 1, 8, 1, 8, 1, [⟨31, 16, .ro, 0, 65535, 0, .any⟩,
    ⟨15, 0, .ro, 0, 65535, 0, .any⟩]⟩,
  -- HAMMER_PCSTAT (R147)
  ⟨52776558133568, 8, 1, 8, 1, 8, 1, [⟨52, 34, .ro, 0, 524287, 0, .any⟩,
    ⟨33, 32, .ro, 0, 3, 0, .any⟩,
    ⟨31, 20, .ro, 0, 4095, 0, .any⟩,
    ⟨19, 19, .ro, 0, 1, 0, .any⟩,
    ⟨18, 0, .ro, 0, 524287, 0, .any⟩]⟩,
  -- HAMMER_HEATSTAT (R242)
  ⟨52776558133576, 8, 1, 8, 1, 8, 1, [⟨63, 48, .ro, 0, 65535, 0, .any⟩,
    ⟨47, 36, .ro, 0, 4095, 0, .any⟩,
    ⟨35, 34, .ro, 0, 3, 0, .any⟩,
    ⟨33, 33, .ro, 0, 1, 0, .any⟩,
    ⟨32, 32, .ro, 0, 1, 0, .any⟩,
    ⟨31, 31, .ro, 0, 1, 0, .any⟩,
    ⟨30, 30, .ro, 0, 1, 0, .any⟩]⟩,
  -- HAMMER_HEATCNT (R243)
  ⟨52776558133584, 8, 1, 8, 1, 8, 1, [⟨63, 32, .ro, 0, 4294967295, 0, .any⟩,
    ⟨31, 16, .ro, 0, 65535, 0, .any⟩,
    ⟨15, 0, .ro, 0, 65535, 0, .any⟩]⟩,
  -- HAMMER_HEATCFG (R244)
  ⟨52776558133592, 8, 1, 8, 1, 8, 1, [⟨2, 2, .rw, 0, 1, 0, .any⟩,
    ⟨1, 0, .rw, 0, 3, 0, .any⟩]⟩,
  -- HAMMER_AMASK0 (R146)
  ⟨52776558133520, 8, 1, 8, 1, 8, 1, [⟨63, 0, .ro, 0, 18446744073709551615, 18446744073709551615, .any⟩]⟩,
  -- HAMMER_AMASK1 (R146)
  ⟨52776558133528, 8, 1, 8, 1, 8, 1, [⟨63, 0, .ro, 0, 18446744073709551615, 18446744073709551615, .any⟩]⟩,
  -- HAMMER_AMASK2 (R146)
  ⟨52776558133536, 8, 1, 8, 1, 8, 1, [⟨31, 0, .ro, 0, 4294967295, 4294967295, .any⟩]⟩,
  -- HAMMER_AVAIL0 (R146)
  ⟨52776558133544, 8, 1, 8, 1, 8, 1, [⟨63, 0, .ro, 0, 18446744073709551615, 18446744073709551615, .any⟩]⟩,
  -- HAMMER_AVAIL1 (R146)
  ⟨52776558133552, 8, 1, 8, 1, 8, 1, [⟨63, 0, .ro, 0, 18446744073709551615, 18446744073709551615, .any⟩]⟩,
  -- HAMMER_AVAIL2 (R146)
  ⟨52776558133560, 8, 1, 8, 1, 8, 1, [⟨31, 0, .ro, 0, 4294967295, 4294967295, .any⟩]⟩,
  -- HAMMER_ERRSUM (R633)
  ⟨52776558133864, 8, 1, 8, 1, 8, 1, [⟨10, 10, .w1c, 0, 1, 0, .any⟩,
    ⟨9, 9, .w1c, 0, 1, 0, .any⟩,
    ⟨8, 8, .w1c, 0, 1, 0, .any⟩,
    ⟨7, 7, .w1c, 0, 1, 0, .any⟩,
    ⟨6, 6, .w1c, 0, 1, 0, .any⟩,
    ⟨5, 5, .w1c, 0, 1, 0, .any⟩,
    ⟨4, 4, .w1c, 0, 1, 0, .any⟩,
    ⟨3, 3, .w1c, 0, 1, 0, .any⟩,
    ⟨2, 2, .w1c, 0, 1, 0, .any⟩,
    ⟨1, 1, .w1c, 0, 1, 0, .any⟩,
    ⟨0, 0, .w1c, 0, 1, 0, .any⟩]⟩,
  -- HAMMER_SECNT (R274)
  ⟨52776558133600, 8, 1, 8, 1, 8, 1, [⟨47, 32, .ro, 0, 65535, 0, .any⟩,
    ⟨31, 0, .ro, 0, 4294967295, 0, .any⟩]⟩,
  -- HAMMER_STCNT (R626)
  ⟨52776558133912, 8, 1, 8, 1, 8, 1, [⟨63, 0, .ro, 0, 18446744073709551615, 0, .any⟩]⟩,
  -- HAMMER_ISSUECNT (R626)
  ⟨52776558133824, 8, 1, 8, 1, 8, 1, [⟨63, 0, .ro, 0, 18446744073709551615, 0, .any⟩]⟩,
  -- HAMMER_STALLW (R626)
  ⟨52776558133832, 8, 1, 8, 1, 8, 1, [⟨63, 0, .ro, 0, 18446744073709551615, 0, .any⟩]⟩,
  -- HAMMER_STALLA (R626)
  ⟨52776558133840, 8, 1, 8, 1, 8, 1, [⟨63, 32, .ro, 0, 4294967295, 0, .any⟩,
    ⟨31, 0, .ro, 0, 4294967295, 0, .any⟩]⟩,
  -- HAMMER_SKIPCNT (R626)
  ⟨52776558133848, 8, 1, 8, 1, 8, 1, [⟨63, 0, .ro, 0, 18446744073709551615, 0, .any⟩]⟩,
  -- HAMMER_JOBCNT (R626)
  ⟨52776558133856, 8, 1, 8, 1, 8, 1, [⟨63, 32, .ro, 0, 4294967295, 0, .any⟩,
    ⟨31, 0, .ro, 0, 4294967295, 0, .any⟩]⟩,
  -- HAMMER_SNAPSTAT (R632)
  ⟨52776558133760, 8, 1, 8, 1, 8, 1, [⟨63, 32, .ro, 0, 4294967295, 0, .any⟩,
    ⟨31, 16, .ro, 0, 65535, 0, .any⟩,
    ⟨15, 8, .ro, 0, 255, 255, .any⟩,
    ⟨2, 0, .ro, 0, 7, 0, .any⟩]⟩,
  -- HAMMER_SNAPCYC (R632)
  ⟨52776558133768, 8, 1, 8, 1, 8, 1, [⟨63, 0, .ro, 0, 18446744073709551615, 0, .any⟩]⟩,
  -- HAMMER_SNAPPOS (R632)
  ⟨52776558133776, 8, 1, 8, 1, 8, 1, [⟨63, 0, .ro, 0, 18446744073709551615, 0, .any⟩]⟩,
  -- HAMMER_SNAPCTL (R632)
  ⟨52776558133784, 8, 1, 8, 1, 8, 1, [⟨63, 48, .ro, 0, 65535, 0, .any⟩,
    ⟨16, 16, .wo, 0, 1, 0, .any⟩,
    ⟨15, 0, .rw, 0, 65535, 0, .any⟩]⟩,
  -- HAMMER_SNAPSEL (R632)
  ⟨52776558133792, 8, 4, 8, 1, 8, 1, [⟨63, 3, .rw, 0, 2305843009213693951, 0, .any⟩]⟩]

/-- Registers of the HAMMER block, part 2. -/
def regsHammer1 : List RegSpec := [
  -- HAMMER_SNAPBUF (R632)
  ⟨52776558137344, 2048, 4, 8, 256, 8, 1, [⟨63, 0, .ro, 0, 18446744073709551615, 0, .any⟩]⟩,
  -- HAMMER_TRCFG (R634)
  ⟨52776558133872, 8, 1, 8, 1, 8, 1, [⟨63, 52, .rw, 0, 4095, 0, .any⟩,
    ⟨51, 40, .rw, 0, 4095, 0, .any⟩,
    ⟨33, 32, .rw, 0, 3, 0, .any⟩,
    ⟨7, 1, .rw, 0, 127, 0, .any⟩]⟩,
  -- HAMMER_TRCTL (R634)
  ⟨52776558133880, 8, 1, 8, 1, 8, 1, [⟨1, 1, .wo, 0, 1, 0, .any⟩,
    ⟨0, 0, .wo, 0, 1, 0, .any⟩]⟩,
  -- HAMMER_TRSTAT (R634)
  ⟨52776558133888, 8, 1, 8, 1, 8, 1, [⟨63, 48, .ro, 0, 65535, 0, .any⟩,
    ⟨14, 13, .ro, 0, 3, 0, .any⟩,
    ⟨12, 0, .ro, 0, 8191, 0, .any⟩]⟩,
  -- HAMMER_TRSEL (R634)
  ⟨52776558133896, 8, 1, 8, 1, 8, 1, [⟨11, 0, .rw, 0, 4095, 0, .any⟩]⟩,
  -- HAMMER_TRDATA (R634)
  ⟨52776558133904, 8, 1, 8, 1, 8, 1, [⟨63, 0, .ro, 0, 18446744073709551615, 0, .any⟩]⟩]

/-- Registers of the HAMMER block. -/
def regsHammer : List RegSpec := regsHammer0 ++ regsHammer1

/-- Registers of the HEARTH block. -/
def regsHearth : List RegSpec := [
  -- HEARTH_ASCHED (R260)
  ⟨52776574910720, 1048576, 10, 8, 1, 8, 1, [⟨23, 16, .rw, 8, 255, 32, .any⟩,
    ⟨9, 5, .rw, 0, 16, 8, .any⟩,
    ⟨4, 0, .rw, 0, 16, 8, .any⟩]⟩,
  -- HEARTH_STKSTAT (R278)
  ⟨52776574910728, 1048576, 10, 8, 2, 8, 1, [⟨7, 7, .wo, 0, 1, 0, .link⟩,
    ⟨6, 6, .ro, 0, 1, 0, .any⟩,
    ⟨5, 5, .ro, 0, 1, 0, .any⟩,
    ⟨4, 2, .ro, 0, 7, 0, .any⟩,
    ⟨1, 0, .ro, 0, 3, 0, .any⟩]⟩,
  -- HEARTH_STKERR (R274)
  ⟨52776574910744, 1048576, 10, 8, 2, 8, 1, [⟨63, 48, .ro, 0, 65535, 0, .any⟩,
    ⟨47, 32, .ro, 0, 65535, 0, .any⟩,
    ⟨31, 0, .ro, 0, 4294967295, 0, .any⟩]⟩,
  -- HEARTH_HSECNT (R274)
  ⟨52776574910760, 1048576, 10, 8, 1, 8, 1, [⟨47, 32, .ro, 0, 65535, 0, .any⟩,
    ⟨31, 0, .ro, 0, 4294967295, 0, .any⟩]⟩,
  -- HEARTH_SCRUB (R274)
  ⟨52776574910768, 1048576, 10, 8, 1, 8, 1, [⟨7, 0, .rw, 0, 255, 24, .any⟩]⟩,
  -- HEARTH_HSCNT (R626)
  ⟨52776574910976, 1048576, 10, 8, 1, 8, 1, [⟨63, 0, .ro, 0, 18446744073709551615, 0, .any⟩]⟩,
  -- HEARTH_HBMMP (R626)
  ⟨52776574910984, 1048576, 10, 8, 2, 8, 1, [⟨63, 0, .ro, 0, 18446744073709551615, 0, .any⟩]⟩,
  -- HEARTH_HBMCR (R626)
  ⟨52776574911000, 1048576, 10, 8, 2, 8, 1, [⟨63, 0, .ro, 0, 18446744073709551615, 0, .any⟩]⟩,
  -- HEARTH_BRCNT (R626)
  ⟨52776574911016, 1048576, 10, 8, 1, 8, 1, [⟨63, 0, .ro, 0, 18446744073709551615, 0, .any⟩]⟩]

/-- Registers of the TONGS block. -/
def regsTongs : List RegSpec := [
  -- TONGS_PORTCFG (R330)
  ⟨52776559182080, 8, 2, 8, 1, 8, 1, [⟨47, 36, .rw, 0, 4095, 0, .link⟩,
    ⟨35, 35, .rw, 0, 1, 0, .link⟩,
    ⟨7, 6, .rw, 0, 3, 0, .link⟩,
    ⟨5, 5, .rw, 0, 1, 1, .link⟩,
    ⟨4, 4, .rw, 0, 1, 0, .link⟩,
    ⟨3, 0, .rw, 0, 6, 0, .link⟩]⟩,
  -- TONGS_PORTSTAT (R331)
  ⟨52776559182096, 8, 2, 8, 1, 8, 1, [⟨63, 32, .ro, 0, 4294967295, 0, .link⟩,
    ⟨31, 16, .ro, 0, 65535, 0, .link⟩,
    ⟨1, 1, .ro, 0, 1, 0, .link⟩,
    ⟨0, 0, .ro, 0, 1, 0, .link⟩]⟩,
  -- TONGS_IF_MAC (R333)
  ⟨52776559182336, 64, 4, 8, 1, 8, 1, [⟨47, 0, .ro, 0, 281474976710655, 0, .link⟩]⟩,
  -- TONGS_IF_IPV4 (R333)
  ⟨52776559182344, 64, 4, 8, 1, 8, 1, [⟨37, 32, .rw, 0, 32, 0, .link⟩,
    ⟨31, 0, .rw, 0, 4294967295, 0, .link⟩]⟩,
  -- TONGS_IF_IPV6H (R333)
  ⟨52776559182352, 64, 4, 8, 1, 8, 1, [⟨63, 0, .rw, 0, 18446744073709551615, 0, .link⟩]⟩,
  -- TONGS_IF_IPV6L (R333)
  ⟨52776559182360, 64, 4, 8, 1, 8, 1, [⟨63, 0, .rw, 0, 18446744073709551615, 0, .link⟩]⟩,
  -- TONGS_IF_V6CFG (R333)
  ⟨52776559182368, 64, 4, 8, 1, 8, 1, [⟨8, 8, .ro, 0, 1, 0, .link⟩,
    ⟨7, 0, .rw, 1, 128, 64, .link⟩]⟩,
  -- TONGS_XPORT (R360)
  ⟨52776559182112, 8, 1, 8, 1, 8, 1, [⟨19, 18, .rw, 0, 2, 0, .link⟩,
    ⟨17, 17, .rw, 0, 1, 0, .link⟩,
    ⟨15, 0, .rw, 1, 65535, 50110, .link⟩]⟩,
  -- TONGS_RETX (R360)
  ⟨52776559182120, 8, 1, 8, 1, 8, 1, [⟨47, 40, .rw, 1, 128, 64, .link⟩,
    ⟨39, 32, .rw, 1, 255, 12, .link⟩,
    ⟨31, 16, .rw, 0, 65535, 6400, .link⟩,
    ⟨15, 0, .rw, 1, 65535, 500, .link⟩]⟩,
  -- TONGS_CHAIN (R360)
  ⟨52776559182128, 8, 1, 8, 1, 8, 1, [⟨2, 2, .rw, 0, 1, 0, .link⟩,
    ⟨1, 1, .rw, 0, 1, 0, .link⟩,
    ⟨0, 0, .rw, 0, 1, 0, .link⟩]⟩,
  -- TONGS_PKTERR (R360)
  ⟨52776559182136, 8, 2, 8, 1, 8, 1, [⟨63, 48, .ro, 0, 65535, 0, .link⟩,
    ⟨47, 32, .ro, 0, 65535, 0, .link⟩,
    ⟨31, 16, .ro, 0, 65535, 0, .link⟩,
    ⟨15, 0, .ro, 0, 65535, 0, .link⟩]⟩,
  -- TONGS_SCFG (R401)
  ⟨52776559182160, 8, 1, 8, 1, 8, 1, [⟨0, 0, .rw, 0, 1, 1, .link⟩]⟩,
  -- TONGS_SCHED (R401)
  ⟨52776559182168, 8, 1, 8, 1, 8, 1, [⟨39, 32, .rw, 1, 64, 16, .link⟩,
    ⟨31, 16, .rw, 1, 65535, 100, .link⟩]⟩,
  -- TONGS_CQ (R401)
  ⟨52776559182176, 8, 1, 8, 1, 8, 1, [⟨7, 0, .rw, 1, 255, 1, .link⟩,
    ⟨15, 8, .rw, 1, 255, 2, .link⟩,
    ⟨23, 16, .rw, 1, 255, 4, .link⟩,
    ⟨31, 24, .rw, 1, 255, 8, .link⟩,
    ⟨39, 32, .rw, 1, 255, 16, .link⟩,
    ⟨47, 40, .rw, 1, 255, 32, .link⟩]⟩,
  -- TONGS_JOBCFG (R401)
  ⟨52776559182184, 8, 1, 8, 1, 8, 1, [⟨47, 32, .rw, 1, 65535, 100, .any⟩,
    ⟨31, 16, .rw, 1, 65535, 100, .any⟩,
    ⟨15, 0, .rw, 1, 65535, 100, .any⟩]⟩,
  -- TONGS_CACHESTAT (R401)
  ⟨52776559182192, 8, 1, 8, 1, 8, 1, [⟨63, 48, .ro, 0, 65535, 0, .link⟩,
    ⟨47, 32, .ro, 0, 65535, 0, .link⟩,
    ⟨31, 16, .ro, 0, 65535, 0, .link⟩,
    ⟨15, 0, .ro, 0, 65535, 0, .link⟩]⟩,
  -- TONGS_JOBSTAT (R401)
  ⟨52776559182200, 8, 1, 8, 1, 8, 1, [⟨23, 16, .ro, 0, 255, 255, .link⟩,
    ⟨15, 8, .ro, 0, 255, 0, .link⟩,
    ⟨7, 0, .ro, 0, 255, 0, .link⟩]⟩,
  -- TONGS_RING_CFG (R401)
  ⟨52776559185920, 16, 64, 8, 1, 8, 1, [⟨63, 48, .ro, 0, 65535, 0, .link⟩,
    ⟨47, 47, .ro, 0, 1, 0, .link⟩,
    ⟨46, 46, .ro, 0, 1, 0, .link⟩,
    ⟨45, 41, .ro, 0, 31, 0, .link⟩,
    ⟨39, 0, .ro, 0, 1099511627775, 0, .link⟩]⟩,
  -- TONGS_RING_IDX (R401)
  ⟨52776559185928, 16, 64, 8, 1, 8, 1, [⟨63, 32, .ro, 0, 4294967295, 0, .any⟩,
    ⟨31, 0, .rw, 0, 4294967295, 0, .any⟩]⟩]

/-- Registers of the BELLOWS block, part 1. FLOWn.KF holds any 14-bit value: whether R444's range for FL0 makes other values
reserved encodings of R17 is open, and the model does not take it so (DESIGN CHOICE, assumption log 146; unsafe). -/
def regsBellows0 : List RegSpec := [
  -- BELLOWS_ERRSUM (R633)
  ⟨61572651157024, 8, 1, 8, 1, 8, 1, [⟨9, 9, .w1c, 0, 1, 0, .any⟩,
    ⟨8, 8, .w1c, 0, 1, 0, .any⟩,
    ⟨7, 7, .w1c, 0, 1, 0, .any⟩,
    ⟨6, 6, .w1c, 0, 1, 0, .any⟩,
    ⟨5, 5, .w1c, 0, 1, 0, .any⟩,
    ⟨4, 4, .w1c, 0, 1, 0, .any⟩,
    ⟨3, 3, .w1c, 0, 1, 0, .any⟩,
    ⟨2, 2, .w1c, 0, 1, 0, .any⟩,
    ⟨1, 1, .w1c, 0, 1, 0, .any⟩,
    ⟨0, 0, .w1c, 0, 1, 0, .any⟩]⟩,
  -- BELLOWS_TCFG (R478)
  ⟨61572651155712, 8, 12, 8, 1, 8, 1, [⟨47, 32, .rw, 0, 65535, 10000, .link⟩,
    ⟨31, 16, .rw, 0, 65535, 3435, .link⟩,
    ⟨15, 8, .rw, 0, 255, 0, .link⟩,
    ⟨7, 4, .rw, 0, 15, 0, .link⟩,
    ⟨1, 1, .rw, 0, 1, 0, .link⟩,
    ⟨0, 0, .rw, 0, 1, 1, .link⟩]⟩,
  -- BELLOWS_TSTAT (R478)
  ⟨61572651155808, 8, 12, 8, 1, 8, 1, [⟨36, 36, .w1c, 0, 1, 0, .link⟩,
    ⟨35, 33, .ro, 0, 7, 0, .link⟩,
    ⟨32, 32, .ro, 0, 1, 0, .link⟩,
    ⟨31, 16, .ro, 0, 65535, 0, .link⟩,
    ⟨15, 0, .ro, 0, 65535, 0, .link⟩]⟩,
  -- BELLOWS_PRESS (R478)
  ⟨61572651155904, 8, 4, 8, 1, 8, 1, [⟨31, 16, .rw, 10, 1000, 250, .link⟩,
    ⟨15, 14, .ro, 0, 3, 0, .link⟩,
    ⟨13, 0, .ro, 0, 16383, 0, .link⟩]⟩,
  -- BELLOWS_FLOW (R478)
  ⟨61572651155936, 8, 2, 8, 1, 8, 1, [⟨31, 18, .rw, 0, 16383, 2000, .link⟩,
    ⟨17, 16, .ro, 0, 3, 0, .link⟩,
    ⟨15, 0, .ro, 0, 65535, 0, .link⟩]⟩,
  -- BELLOWS_LEAK (R478)
  ⟨61572651155968, 8, 4, 8, 1, 8, 1, [⟨31, 16, .ro, 0, 65535, 0, .link⟩,
    ⟨7, 6, .ro, 0, 3, 0, .link⟩,
    ⟨2, 2, .rw, 0, 1, 0, .link⟩,
    ⟨1, 0, .rw, 0, 1, 0, .link⟩]⟩,
  -- BELLOWS_THERMST (R478)
  ⟨61572651156000, 8, 1, 8, 1, 8, 1, [⟨63, 48, .ro, 0, 65535, 2200, .link⟩,
    ⟨47, 32, .ro, 0, 65535, 1800, .link⟩,
    ⟨31, 16, .ro, 0, 65535, 0, .link⟩,
    ⟨15, 0, .ro, 0, 65535, 0, .link⟩]⟩,
  -- BELLOWS_THCFG (R478)
  ⟨61572651156008, 8, 1, 8, 1, 8, 1, [⟨63, 56, .rw, 0, 255, 85, .link⟩,
    ⟨55, 48, .rw, 0, 255, 80, .link⟩,
    ⟨47, 40, .rw, 0, 255, 60, .link⟩,
    ⟨39, 32, .rw, 0, 255, 10, .link⟩,
    ⟨31, 16, .rw, 0, 65535, 1200, .link⟩,
    ⟨15, 8, .rw, 0, 255, 16, .link⟩,
    ⟨7, 0, .rw, 0, 255, 208, .link⟩]⟩,
  -- BELLOWS_FLCFG (R478)
  ⟨61572651156016, 8, 1, 8, 1, 8, 1, [⟨47, 32, .rwl, 0, 65535, 2200, .link⟩,
    ⟨31, 16, .rw, 0, 65535, 1200, .link⟩,
    ⟨15, 0, .rwl, 0, 65535, 60, .link⟩]⟩,
  -- BELLOWS_CAPOUT (R478)
  ⟨61572651156024, 8, 1, 8, 1, 8, 1, [⟨33, 32, .ro, 0, 3, 0, .link⟩,
    ⟨31, 16, .ro, 0, 65535, 800, .link⟩,
    ⟨15, 0, .ro, 0, 65535, 800, .link⟩]⟩,
  -- BELLOWS_SAFESTAT (R478)
  ⟨61572651156032, 8, 1, 8, 1, 8, 1, [⟨15, 14, .ro, 0, 3, 0, .link⟩,
    ⟨13, 13, .ro, 0, 1, 0, .link⟩,
    ⟨12, 12, .ro, 0, 1, 0, .link⟩,
    ⟨11, 11, .ro, 0, 1, 0, .link⟩,
    ⟨10, 10, .w1c, 0, 1, 0, .any⟩,
    ⟨9, 9, .w1c, 0, 1, 0, .any⟩,
    ⟨8, 8, .ro, 0, 1, 0, .link⟩,
    ⟨7, 7, .ro, 0, 1, 0, .link⟩,
    ⟨6, 6, .w1c, 0, 1, 0, .any⟩,
    ⟨5, 5, .w1c, 0, 1, 0, .any⟩,
    ⟨4, 4, .w1c, 0, 1, 0, .any⟩,
    ⟨3, 3, .w1c, 0, 1, 0, .any⟩,
    ⟨2, 2, .w1c, 0, 1, 0, .any⟩,
    ⟨1, 1, .w1c, 0, 1, 0, .any⟩,
    ⟨0, 0, .w1c, 0, 1, 0, .any⟩]⟩,
  -- BELLOWS_KEEPALIVE (R478)
  ⟨61572651156040, 8, 1, 8, 1, 8, 1, [⟨8, 8, .wo, 0, 1, 0, .linkOrHost⟩,
    ⟨7, 0, .rw, 1, 255, 10, .link⟩]⟩,
  -- BELLOWS_LOOP (R478)
  ⟨61572651156048, 8, 1, 8, 1, 8, 1, [⟨19, 16, .ro, 0, 15, 15, .link⟩,
    ⟨10, 8, .ro, 0, 7, 0, .link⟩,
    ⟨0, 0, .rw, 0, 1, 1, .link⟩]⟩,
  -- BELLOWS_FCFG (R478)
  ⟨61572651156224, 32, 4, 8, 1, 8, 1, [⟨31, 24, .rw, 0, 255, 0, .link⟩,
    ⟨23, 20, .rw, 0, 14, 12, .link⟩,
    ⟨19, 17, .rw, 0, 7, 2, .link⟩,
    ⟨16, 15, .rw, 0, 3, 1, .link⟩,
    ⟨14, 13, .rw, 0, 2, 0, .link⟩,
    ⟨12, 12, .rw, 0, 1, 0, .link⟩,
    ⟨11, 10, .rw, 0, 3, 0, .link⟩,
    ⟨9, 0, .rw, 0, 1000, 0, .link⟩]⟩,
  -- BELLOWS_FTABL (R478)
  ⟨61572651156232, 32, 4, 8, 1, 8, 1, [⟨15, 0, .rw, 0, 65535, 7700, .link⟩,
    ⟨31, 16, .rw, 0, 65535, 10270, .link⟩,
    ⟨47, 32, .rw, 0, 65535, 12840, .link⟩,
    ⟨63, 48, .rw, 0, 65535, 15415, .link⟩]⟩,
  -- BELLOWS_FTABH (R478)
  ⟨61572651156240, 32, 4, 8, 1, 8, 1, [⟨15, 0, .rw, 0, 65535, 17990, .link⟩,
    ⟨31, 16, .rw, 0, 65535, 20565, .link⟩,
    ⟨47, 32, .rw, 0, 65535, 23140, .link⟩,
    ⟨63, 48, .rw, 0, 65535, 25700, .link⟩]⟩,
  -- BELLOWS_FSTAT (R478)
  ⟨61572651156248, 32, 4, 8, 1, 8, 1, [⟨47, 32, .ro, 0, 65535, 0, .link⟩,
    ⟨31, 29, .ro, 0, 7, 0, .link⟩,
    ⟨28, 27, .ro, 0, 3, 0, .link⟩,
    ⟨9, 0, .ro, 0, 1023, 0, .link⟩]⟩,
  -- BELLOWS_ZONE (R478)
  ⟨61572651156480, 8, 8, 8, 1, 8, 1, [⟨57, 48, .rw, 0, 1023, 0, .linkOrHost⟩,
    ⟨47, 44, .rw, 0, 15, 12, .link⟩,
    ⟨43, 41, .rw, 0, 7, 2, .link⟩,
    ⟨39, 32, .rw, 0, 255, 40, .link⟩,
    ⟨31, 24, .rw, 0, 255, 80, .link⟩,
    ⟨19, 10, .rw, 0, 1023, 200, .link⟩,
    ⟨9, 0, .rw, 0, 1023, 1000, .link⟩]⟩,
  -- BELLOWS_PWRSTAT (R602)
  ⟨61572651156736, 8, 1, 8, 1, 8, 1, [⟨63, 48, .ro, 0, 65535, 0, .link⟩,
    ⟨47, 32, .ro, 0, 65535, 0, .link⟩,
    ⟨7, 7, .w1c, 0, 1, 0, .any⟩,
    ⟨6, 6, .w1c, 0, 1, 0, .any⟩,
    ⟨5, 5, .w1c, 0, 1, 0, .any⟩,
    ⟨4, 4, .ro, 0, 1, 0, .link⟩,
    ⟨3, 0, .ro, 0, 15, 1, .link⟩]⟩,
  -- BELLOWS_RSTSTAT (R602)
  ⟨61572651156744, 8, 1, 8, 1, 8, 1, [⟨63, 48, .ro, 0, 65535, 0, .link⟩,
    ⟨47, 32, .ro, 0, 65535, 0, .link⟩,
    ⟨23, 16, .ro, 0, 255, 0, .link⟩,
    ⟨7, 7, .ro, 0, 1, 0, .link⟩,
    ⟨2, 0, .ro, 0, 7, 4, .link⟩]⟩,
  -- BELLOWS_PDSTAT (R602)
  ⟨61572651156752, 8, 3, 8, 1, 8, 1, [⟨63, 0, .ro, 0, 18446744073709551615, 0, .link⟩]⟩,
  -- BELLOWS_PDSTAT3 (R602)
  ⟨61572651156776, 8, 1, 8, 1, 8, 1, [⟨6, 0, .ro, 0, 127, 120, .link⟩]⟩,
  -- BELLOWS_SNAPSTAT (R632)
  ⟨61572651156992, 8, 1, 8, 1, 8, 1, [⟨63, 32, .ro, 0, 4294967295, 0, .link⟩,
    ⟨31, 16, .ro, 0, 65535, 0, .link⟩,
    ⟨15, 15, .ro, 0, 1, 0, .link⟩,
    ⟨2, 0, .ro, 0, 7, 0, .link⟩]⟩,
  -- BELLOWS_SNAPMGMT (R632)
  ⟨61572651157000, 8, 1, 8, 1, 8, 1, [⟨63, 0, .ro, 0, 18446744073709551615, 0, .link⟩]⟩,
  -- BELLOWS_SNAPSEL (R632)
  ⟨61572651157008, 8, 2, 8, 1, 8, 1, [⟨63, 3, .rw, 0, 2305843009213693951, 0, .any⟩]⟩]

/-- Registers of the BELLOWS block, part 2. -/
def regsBellows1 : List RegSpec := [
  -- BELLOWS_SNAPBUF (R632)
  ⟨61572651157504, 2048, 2, 8, 256, 8, 1, [⟨63, 0, .ro, 0, 18446744073709551615, 0, .link⟩]⟩]

/-- Registers of the BELLOWS block. -/
def regsBellows : List RegSpec := regsBellows0 ++ regsBellows1

/-- Registers of the CRUC block. -/
def regsCruc : List RegSpec := [
  -- CRUC_QSTAT (R324)
  ⟨52776575435008, 1048576, 10, 262144, 2, 8, 1, [⟨27, 27, .ro, 0, 1, 0, .any⟩,
    ⟨26, 26, .ro, 0, 1, 0, .any⟩,
    ⟨25, 25, .ro, 0, 1, 0, .any⟩,
    ⟨24, 24, .ro, 0, 1, 0, .any⟩,
    ⟨19, 16, .ro, 0, 15, 0, .any⟩,
    ⟨10, 8, .ro, 0, 7, 0, .any⟩,
    ⟨4, 0, .ro, 0, 31, 0, .any⟩]⟩,
  -- CRUC_CSEQ (R324)
  ⟨52776575435016, 1048576, 10, 262144, 2, 8, 1, [⟨63, 32, .ro, 0, 4294967295, 0, .any⟩,
    ⟨31, 0, .ro, 0, 4294967295, 0, .any⟩]⟩,
  -- CRUC_CCNT (R324)
  ⟨52776575435024, 1048576, 10, 262144, 2, 8, 1, [⟨63, 32, .ro, 0, 4294967295, 0, .any⟩,
    ⟨31, 16, .ro, 0, 65535, 0, .any⟩,
    ⟨15, 0, .ro, 0, 65535, 0, .any⟩]⟩,
  -- CRUC_CFLAGS (R324)
  ⟨52776575435032, 1048576, 10, 262144, 2, 8, 1, [⟨9, 0, .w1c, 0, 1023, 0, .any⟩]⟩,
  -- CRUC_CERR (R324)
  ⟨52776575435040, 1048576, 10, 262144, 2, 8, 1, [⟨49, 48, .ro, 0, 3, 0, .any⟩,
    ⟨47, 40, .ro, 0, 255, 0, .any⟩,
    ⟨39, 32, .ro, 0, 255, 0, .any⟩,
    ⟨31, 0, .ro, 0, 4294967295, 0, .any⟩]⟩,
  -- CRUC_CERRLOC (R324)
  ⟨52776575435048, 1048576, 10, 262144, 2, 8, 1, [⟨63, 0, .ro, 0, 18446744073709551615, 0, .any⟩]⟩,
  -- CRUC_CRMCNT (R626)
  ⟨52776575435056, 1048576, 10, 262144, 2, 8, 1, [⟨63, 0, .ro, 0, 18446744073709551615, 0, .any⟩]⟩,
  -- CRUC_CRVCNT (R626)
  ⟨52776575435064, 1048576, 10, 262144, 2, 8, 1, [⟨63, 0, .ro, 0, 18446744073709551615, 0, .any⟩]⟩]

/-- Registers of the TEMPER block. -/
def regsTemper : List RegSpec := [
  -- TEMPER_CAP_FACILITY (R439)
  ⟨52776558199040, 8, 1, 8, 1, 8, 1, [⟨15, 0, .rw, 0, 65535, 800, .rm⟩]⟩,
  -- TEMPER_CAP_HOST (R439)
  ⟨52776558199048, 8, 1, 8, 1, 8, 1, [⟨15, 0, .rw, 0, 65535, 1600, .host⟩]⟩,
  -- TEMPER_CAP_THERMAL (R439)
  ⟨52776558199056, 8, 1, 8, 1, 8, 1, [⟨15, 0, .rw, 0, 65535, 800, .fw⟩]⟩,
  -- TEMPER_CAP_FLOW (R439)
  ⟨52776558199064, 8, 1, 8, 1, 8, 1, [⟨17, 16, .rw, 0, 3, 0, .fw⟩,
    ⟨15, 0, .rw, 0, 65535, 800, .fw⟩]⟩,
  -- TEMPER_CAP_SUPPLY (R439)
  ⟨52776558199072, 8, 1, 8, 1, 8, 1, [⟨31, 16, .ro, 0, 65535, 0, .any⟩,
    ⟨15, 0, .ro, 0, 65535, 1600, .any⟩]⟩,
  -- TEMPER_SUPPLYCFG (R439)
  ⟨52776558199080, 8, 1, 8, 1, 8, 1, [⟨8, 0, .rw, 200, 400, 360, .link⟩]⟩,
  -- TEMPER_CAPCFG (R439)
  ⟨52776558199088, 8, 1, 8, 1, 8, 1, [⟨15, 0, .rw, 0, 65535, 800, .link⟩]⟩,
  -- TEMPER_CAPSTAT (R439)
  ⟨52776558199096, 8, 1, 8, 1, 8, 1, [⟨63, 48, .ro, 0, 65535, 0, .any⟩,
    ⟨47, 32, .ro, 0, 65535, 800, .any⟩,
    ⟨31, 29, .ro, 0, 7, 0, .any⟩,
    ⟨7, 7, .w1c, 0, 1, 0, .any⟩,
    ⟨6, 6, .w1c, 0, 1, 0, .any⟩,
    ⟨5, 5, .w1c, 0, 1, 0, .any⟩,
    ⟨4, 4, .w1c, 0, 1, 0, .any⟩,
    ⟨3, 3, .ro, 0, 1, 0, .any⟩,
    ⟨2, 2, .ro, 0, 1, 0, .any⟩,
    ⟨1, 1, .ro, 0, 1, 0, .any⟩,
    ⟨0, 0, .ro, 0, 1, 0, .any⟩]⟩,
  -- TEMPER_CAPREJ (R439)
  ⟨52776558199104, 8, 1, 8, 1, 8, 1, [⟨63, 48, .ro, 0, 65535, 0, .any⟩,
    ⟨47, 32, .ro, 0, 65535, 0, .any⟩,
    ⟨31, 16, .ro, 0, 65535, 0, .any⟩,
    ⟨15, 0, .ro, 0, 65535, 0, .any⟩]⟩,
  -- TEMPER_CTRL (R439)
  ⟨52776558199112, 8, 1, 8, 1, 8, 1, [⟨31, 26, .ro, 0, 63, 1, .any⟩,
    ⟨25, 20, .ro, 0, 63, 1, .any⟩,
    ⟨19, 17, .ro, 0, 7, 0, .any⟩,
    ⟨16, 14, .ro, 0, 7, 0, .any⟩,
    ⟨13, 11, .ro, 0, 7, 0, .any⟩,
    ⟨10, 10, .ro, 0, 1, 0, .any⟩,
    ⟨9, 9, .ro, 0, 1, 0, .any⟩]⟩,
  -- TEMPER_CTRLCFG (R439)
  ⟨52776558199120, 8, 1, 8, 1, 8, 1, [⟨5, 0, .rw, 1, 32, 8, .link⟩]⟩,
  -- TEMPER_PEST (R439)
  ⟨52776558199128, 8, 1, 8, 1, 8, 1, [⟨63, 48, .ro, 0, 65535, 0, .any⟩,
    ⟨47, 32, .ro, 0, 65535, 0, .any⟩,
    ⟨31, 16, .ro, 0, 65535, 0, .any⟩,
    ⟨15, 0, .ro, 0, 65535, 0, .any⟩]⟩,
  -- TEMPER_MODEL (R439)
  ⟨52776558199136, 8, 1, 8, 1, 8, 1, [⟨47, 32, .rw, 0, 65535, 100, .link⟩,
    ⟨31, 28, .rw, 3, 10, 6, .link⟩,
    ⟨25, 16, .rw, 512, 1023, 942, .link⟩,
    ⟨15, 0, .ro, 0, 65535, 4096, .link⟩]⟩,
  -- TEMPER_DROOPCFG (R439)
  ⟨52776558199144, 8, 1, 8, 1, 8, 1, [⟨5, 0, .rw, 4, 40, 10, .link⟩]⟩,
  -- TEMPER_TRIM (R439)
  ⟨52776558199152, 8, 1, 8, 1, 8, 1, [⟨39, 32, .ro, 0, 255, 0, .any⟩,
    ⟨20, 16, .ro, 0, 31, 0, .any⟩,
    ⟨15, 0, .ro, 0, 65535, 0, .any⟩]⟩,
  -- TEMPER_LEARN (R439)
  ⟨52776558199160, 8, 1, 8, 1, 8, 1, [⟨3, 0, .rw, 1, 8, 3, .any⟩]⟩,
  -- TEMPER_PACECFG (R439)
  ⟨52776558199168, 8, 1, 8, 1, 8, 1, [⟨31, 16, .rw, 10, 65535, 200, .any⟩,
    ⟨13, 8, .rw, 1, 63, 7, .any⟩,
    ⟨5, 0, .rw, 1, 32, 8, .any⟩]⟩,
  -- TEMPER_PACESTAT (R439)
  ⟨52776558199176, 8, 1, 8, 1, 8, 1, [⟨63, 48, .ro, 0, 65535, 0, .any⟩,
    ⟨47, 32, .ro, 0, 65535, 0, .any⟩,
    ⟨31, 26, .ro, 0, 63, 0, .any⟩,
    ⟨25, 20, .ro, 0, 63, 0, .any⟩,
    ⟨19, 14, .ro, 0, 63, 0, .any⟩,
    ⟨13, 13, .ro, 0, 1, 0, .any⟩]⟩,
  -- TEMPER_RECSEL (R439)
  ⟨52776558199184, 8, 1, 8, 1, 8, 1, [⟨30, 14, .rw, 0, 131071, 0, .any⟩,
    ⟨13, 2, .rw, 0, 4095, 0, .any⟩,
    ⟨1, 0, .rw, 0, 3, 0, .any⟩]⟩,
  -- TEMPER_RECDATA (R439)
  ⟨52776558199192, 8, 1, 8, 1, 8, 1, [⟨63, 48, .ro, 0, 65535, 0, .any⟩,
    ⟨47, 16, .ro, 0, 4294967295, 0, .any⟩,
    ⟨15, 0, .ro, 0, 65535, 0, .any⟩]⟩,
  -- TEMPER_CNT (R439)
  ⟨52776558199200, 8, 1, 8, 1, 8, 1, [⟨63, 32, .ro, 0, 4294967295, 0, .any⟩,
    ⟨31, 16, .ro, 0, 65535, 0, .any⟩,
    ⟨15, 0, .ro, 0, 65535, 0, .any⟩]⟩,
  -- TEMPER_OP (R439)
  ⟨52776558199296, 8, 8, 8, 1, 8, 1, [⟨39, 32, .ro, 0, 255, 0, .any⟩,
    ⟨13, 8, .ro, 0, 63, 0, .any⟩,
    ⟨7, 0, .ro, 0, 255, 0, .any⟩]⟩,
  -- TEMPER_WT (R439)
  ⟨52776558199360, 8, 13, 8, 1, 8, 1, [⟨15, 0, .rw, 0, 65535, 0, .link⟩]⟩]

/-- Registers of the QUENCH block. -/
def regsQuench : List RegSpec := [
  -- QUENCH_BEACON (R502)
  ⟨61572651221120, 8, 1, 8, 1, 8, 1, [⟨63, 32, .ro, 0, 4294967295, 0, .link⟩,
    ⟨31, 0, .ro, 0, 4294967295, 0, .link⟩]⟩,
  -- QUENCH_LCFG (R502)
  ⟨61572651221248, 128, 16, 8, 1, 8, 1, [⟨63, 56, .rw, 0, 255, 0, .link⟩,
    ⟨47, 41, .rw, 0, 64, 0, .link⟩,
    ⟨40, 40, .rw, 0, 1, 0, .link⟩,
    ⟨39, 36, .rw, 0, 15, 0, .link⟩,
    ⟨35, 34, .rw, 0, 3, 0, .link⟩,
    ⟨33, 29, .rw, 0, 31, 0, .link⟩,
    ⟨28, 26, .rw, 0, 7, 0, .link⟩,
    ⟨25, 20, .rw, 0, 63, 0, .link⟩,
    ⟨16, 0, .rw, 0, 131071, 0, .link⟩]⟩,
  -- QUENCH_LSCALE (R502)
  ⟨61572651221256, 128, 16, 8, 1, 8, 1, [⟨31, 24, .rw, 0, 255, 0, .link⟩,
    ⟨23, 0, .rw, 0, 16777215, 0, .link⟩]⟩,
  -- QUENCH_LSP (R502)
  ⟨61572651221264, 128, 16, 8, 1, 8, 1, [⟨32, 32, .ro, 0, 1, 0, .link⟩,
    ⟨31, 0, .rw, 0, 4294967295, 0, .link⟩]⟩,
  -- QUENCH_LOUT (R502)
  ⟨61572651221272, 128, 16, 8, 1, 8, 1, [⟨63, 32, .rw, 0, 4294967295, 0, .link⟩,
    ⟨31, 0, .rw, 0, 4294967295, 0, .link⟩]⟩,
  -- QUENCH_LCLAMP (R502)
  ⟨61572651221280, 128, 16, 8, 1, 8, 1, [⟨63, 32, .rw, 0, 4294967295, 0, .link⟩,
    ⟨31, 0, .rw, 0, 4294967295, 0, .link⟩]⟩,
  -- QUENCH_LOSC (R502)
  ⟨61572651221288, 128, 16, 8, 1, 8, 1, [⟨63, 48, .rw, 0, 65535, 1024, .link⟩,
    ⟨47, 42, .rw, 2, 63, 8, .link⟩,
    ⟨41, 30, .rw, 16, 4095, 256, .link⟩]⟩,
  -- QUENCH_LSAFE (R502)
  ⟨61572651221296, 128, 16, 8, 1, 8, 1, [⟨31, 0, .rw, 0, 4294967295, 0, .link⟩]⟩,
  -- QUENCH_LCTL (R502)
  ⟨61572651221304, 128, 16, 8, 1, 8, 1, [⟨3, 3, .wo, 0, 1, 0, .link⟩,
    ⟨2, 2, .wo, 0, 1, 0, .link⟩,
    ⟨0, 0, .rw, 0, 1, 0, .link⟩]⟩,
  -- QUENCH_LSTAT (R502)
  ⟨61572651221312, 128, 16, 8, 1, 8, 1, [⟨63, 32, .ro, 0, 4294967295, 0, .link⟩,
    ⟨31, 29, .ro, 0, 7, 0, .link⟩,
    ⟨28, 26, .ro, 0, 7, 0, .link⟩,
    ⟨15, 15, .w1c, 0, 1, 0, .any⟩,
    ⟨14, 14, .w1c, 0, 1, 0, .any⟩,
    ⟨13, 13, .w1c, 0, 1, 0, .any⟩,
    ⟨12, 12, .w1c, 0, 1, 0, .any⟩,
    ⟨11, 11, .w1c, 0, 1, 0, .any⟩,
    ⟨10, 10, .w1c, 0, 1, 0, .any⟩,
    ⟨9, 9, .ro, 0, 1, 0, .link⟩]⟩,
  -- QUENCH_RCCFG (R502)
  ⟨61572651221320, 128, 16, 8, 1, 8, 1, [⟨63, 48, .rw, 0, 65535, 4096, .link⟩,
    ⟨47, 32, .rw, 0, 65535, 32702, .link⟩,
    ⟨31, 21, .rw, 0, 2047, 0, .link⟩,
    ⟨20, 13, .rw, 0, 255, 0, .link⟩,
    ⟨12, 8, .rw, 0, 31, 2, .link⟩,
    ⟨2, 2, .rw, 0, 1, 0, .link⟩,
    ⟨1, 1, .rw, 0, 1, 0, .link⟩,
    ⟨0, 0, .rw, 0, 1, 0, .link⟩]⟩,
  -- QUENCH_RCSTAT (R502)
  ⟨61572651221328, 128, 16, 8, 1, 8, 1, [⟨63, 48, .ro, 0, 65535, 0, .link⟩,
    ⟨47, 37, .ro, 0, 2047, 0, .link⟩,
    ⟨36, 26, .ro, 0, 2047, 0, .link⟩,
    ⟨25, 24, .ro, 0, 3, 0, .link⟩,
    ⟨23, 0, .ro, 0, 16777215, 0, .link⟩]⟩,
  -- QUENCH_SPA (R502)
  ⟨61572651225088, 64, 64, 8, 1, 8, 1, [⟨63, 56, .rw, 0, 255, 0, .link⟩,
    ⟨47, 24, .rw, 0, 16777215, 0, .link⟩,
    ⟨23, 0, .rw, 0, 16777215, 0, .link⟩]⟩,
  -- QUENCH_SBA (R502)
  ⟨61572651225112, 64, 64, 8, 1, 8, 1, [⟨63, 56, .rw, 0, 255, 0, .link⟩,
    ⟨47, 24, .rw, 0, 16777215, 0, .link⟩,
    ⟨23, 0, .rw, 0, 16777215, 0, .link⟩]⟩,
  -- QUENCH_SPB (R502)
  ⟨61572651225096, 64, 64, 8, 1, 8, 1, [⟨47, 24, .rw, 0, 16777215, 0, .link⟩,
    ⟨23, 0, .rw, 0, 16777215, 0, .link⟩]⟩,
  -- QUENCH_SBB (R502)
  ⟨61572651225120, 64, 64, 8, 1, 8, 1, [⟨47, 24, .rw, 0, 16777215, 0, .link⟩,
    ⟨23, 0, .rw, 0, 16777215, 0, .link⟩]⟩,
  -- QUENCH_SPC (R502)
  ⟨61572651225104, 64, 64, 8, 1, 8, 1, [⟨23, 0, .rw, 0, 16777215, 0, .link⟩]⟩,
  -- QUENCH_SBC (R502)
  ⟨61572651225128, 64, 64, 8, 1, 8, 1, [⟨23, 0, .rw, 0, 16777215, 0, .link⟩]⟩,
  -- QUENCH_SZ (R502)
  ⟨61572651225136, 64, 64, 8, 1, 8, 1, [⟨63, 32, .ro, 0, 4294967295, 0, .link⟩,
    ⟨31, 0, .ro, 0, 4294967295, 0, .link⟩]⟩,
  -- QUENCH_SCTL (R502)
  ⟨61572651225144, 64, 64, 8, 1, 8, 1, [⟨8, 8, .w1c, 0, 1, 0, .any⟩,
    ⟨7, 7, .ro, 0, 1, 0, .link⟩,
    ⟨6, 6, .ro, 0, 1, 0, .link⟩,
    ⟨5, 2, .ro, 0, 15, 0, .link⟩,
    ⟨1, 1, .rw, 0, 1, 0, .link⟩,
    ⟨0, 0, .rw, 0, 1, 0, .link⟩]⟩,
  -- QUENCH_TRCFG (R502)
  ⟨61572651223296, 8, 8, 8, 1, 8, 1, [⟨16, 16, .rw, 0, 1, 0, .link⟩,
    ⟨15, 8, .rw, 0, 255, 0, .link⟩,
    ⟨7, 4, .rw, 0, 13, 0, .link⟩,
    ⟨3, 0, .rw, 0, 15, 0, .link⟩]⟩,
  -- QUENCH_TRCTL (R502)
  ⟨61572651223360, 8, 1, 8, 1, 8, 1, [⟨63, 32, .rw, 0, 4294967295, 0, .link⟩,
    ⟨31, 20, .rw, 0, 4095, 0, .link⟩,
    ⟨17, 16, .rw, 0, 3, 0, .link⟩,
    ⟨15, 12, .rw, 0, 15, 0, .link⟩,
    ⟨1, 1, .wo, 0, 1, 0, .link⟩,
    ⟨0, 0, .wo, 0, 1, 0, .link⟩]⟩,
  -- QUENCH_TRSTAT (R502)
  ⟨61572651223368, 8, 1, 8, 1, 8, 1, [⟨15, 8, .ro, 0, 255, 0, .link⟩,
    ⟨1, 0, .ro, 0, 3, 0, .link⟩]⟩,
  -- QUENCH_TRSEL (R502)
  ⟨61572651223376, 8, 1, 8, 1, 8, 1, [⟨14, 12, .rw, 0, 7, 0, .link⟩,
    ⟨11, 0, .rw, 0, 4095, 0, .link⟩]⟩,
  -- QUENCH_TRDATA (R502)
  ⟨61572651223384, 8, 1, 8, 1, 8, 1, [⟨63, 32, .ro, 0, 4294967295, 0, .link⟩,
    ⟨31, 0, .ro, 0, 4294967295, 0, .link⟩]⟩]

/-- Registers of the TUYERE block. -/
def regsTuyere : List RegSpec := [
  -- TUYERE_BANK (R528)
  ⟨61572651286592, 8, 3, 8, 1, 8, 1, [⟨39, 32, .rw, 1, 255, 50, .link⟩,
    ⟨31, 24, .rw, 16, 40, 20, .link⟩,
    ⟨23, 16, .rw, 1, 255, 20, .link⟩,
    ⟨15, 0, .ro, 0, 65535, 0, .link⟩]⟩,
  -- TUYERE_BOOST (R528)
  ⟨61572651286616, 8, 1, 8, 1, 8, 1, [⟨39, 32, .rw, 1, 255, 30, .link⟩,
    ⟨31, 24, .rw, 112, 144, 136, .link⟩,
    ⟨16, 16, .ro, 0, 1, 0, .link⟩,
    ⟨15, 0, .ro, 0, 65535, 0, .link⟩]⟩,
  -- TUYERE_XSEQ (R528)
  ⟨61572651286624, 8, 1, 8, 1, 8, 1, [⟨31, 24, .rw, 10, 50, 50, .link⟩,
    ⟨23, 16, .ro, 0, 255, 0, .link⟩,
    ⟨15, 8, .ro, 0, 255, 0, .link⟩,
    ⟨7, 0, .ro, 0, 255, 0, .link⟩]⟩,
  -- TUYERE_VVMON (R528)
  ⟨61572651286632, 8, 1, 8, 1, 8, 1, [⟨16, 16, .w1c, 0, 1, 0, .any⟩,
    ⟨15, 0, .ro, 0, 65535, 0, .link⟩]⟩,
  -- TUYERE_VPROF (R528)
  ⟨61572651286784, 64, 10, 8, 1, 8, 1, [⟨63, 56, .rw, 2, 255, 100, .link⟩,
    ⟨55, 48, .rw, 0, 254, 2, .link⟩,
    ⟨47, 40, .rw, 1, 255, 50, .link⟩,
    ⟨32, 24, .rw, 50, 300, 200, .link⟩,
    ⟨16, 8, .rw, 10, 150, 50, .link⟩,
    ⟨7, 0, .rw, 10, 150, 30, .link⟩]⟩,
  -- TUYERE_VCMD (R528)
  ⟨61572651286792, 64, 10, 8, 1, 8, 1, [⟨39, 32, .rw, 5, 255, 10, .link⟩,
    ⟨31, 24, .rw, 5, 255, 10, .link⟩,
    ⟨23, 16, .rw, 0, 255, 0, .link⟩,
    ⟨15, 8, .rw, 1, 60, 10, .link⟩,
    ⟨4, 4, .rw, 0, 1, 0, .link⟩,
    ⟨3, 3, .rw, 0, 1, 0, .link⟩,
    ⟨1, 0, .rw, 0, 2, 0, .link⟩]⟩,
  -- TUYERE_VPROT (R528)
  ⟨61572651286800, 64, 10, 8, 1, 8, 1, [⟨63, 56, .rw, 0, 255, 155, .link⟩,
    ⟨55, 48, .rw, 0, 255, 130, .link⟩,
    ⟨47, 32, .rw, 1, 65535, 240, .link⟩,
    ⟨31, 24, .rw, 0, 255, 80, .link⟩,
    ⟨23, 12, .rw, 0, 4095, 360, .link⟩,
    ⟨11, 8, .rw, 0, 11, 0, .link⟩,
    ⟨7, 1, .rw, 10, 90, 60, .link⟩,
    ⟨0, 0, .rw, 0, 1, 0, .link⟩]⟩,
  -- TUYERE_VSTAT (R528)
  ⟨61572651286808, 64, 10, 8, 1, 8, 1, [⟨63, 48, .ro, 0, 65535, 0, .link⟩,
    ⟨47, 38, .ro, 0, 1023, 0, .link⟩,
    ⟨31, 25, .ro, 0, 127, 0, .link⟩,
    ⟨24, 16, .ro, 0, 511, 0, .link⟩,
    ⟨15, 13, .ro, 0, 7, 0, .link⟩,
    ⟨12, 12, .ro, 0, 1, 0, .link⟩,
    ⟨11, 11, .w1c, 0, 1, 0, .any⟩,
    ⟨10, 10, .w1c, 0, 1, 0, .any⟩,
    ⟨9, 9, .w1c, 0, 1, 0, .any⟩,
    ⟨8, 8, .w1c, 0, 1, 0, .any⟩,
    ⟨7, 7, .w1c, 0, 1, 0, .any⟩,
    ⟨6, 6, .w1c, 0, 1, 0, .any⟩,
    ⟨5, 5, .w1c, 0, 1, 0, .any⟩,
    ⟨4, 4, .w1c, 0, 1, 0, .any⟩,
    ⟨3, 3, .w1c, 0, 1, 0, .any⟩,
    ⟨2, 2, .w1c, 0, 1, 0, .any⟩]⟩,
  -- TUYERE_VDIAG (R528)
  ⟨61572651286816, 64, 10, 8, 1, 8, 1, [⟨63, 48, .ro, 0, 65535, 0, .link⟩,
    ⟨47, 32, .ro, 0, 65535, 0, .link⟩,
    ⟨31, 24, .ro, 0, 255, 0, .link⟩,
    ⟨23, 16, .ro, 0, 255, 0, .link⟩,
    ⟨15, 8, .ro, 0, 255, 0, .link⟩,
    ⟨7, 0, .ro, 0, 255, 0, .link⟩]⟩,
  -- TUYERE_VKINK (R528)
  ⟨61572651286824, 64, 10, 8, 1, 8, 1, [⟨23, 16, .rw, 2, 50, 20, .link⟩,
    ⟨15, 0, .rw, 0, 65535, 200, .link⟩]⟩]

/-- Registers of the CANFD block. -/
def regsCanfd : List RegSpec := [
  -- CANFD_CTL (R560)
  ⟨61572651483392, 8, 1, 8, 1, 8, 1, [⟨7, 7, .rw, 0, 1, 0, .link⟩,
    ⟨6, 6, .rw, 0, 1, 0, .link⟩,
    ⟨5, 5, .rw, 0, 1, 0, .link⟩,
    ⟨4, 4, .rw, 0, 1, 1, .link⟩,
    ⟨3, 3, .rw, 0, 1, 1, .link⟩,
    ⟨0, 0, .rw, 0, 1, 0, .link⟩]⟩,
  -- CANFD_NBT (R560)
  ⟨61572651483400, 8, 1, 8, 1, 8, 1, [⟨31, 27, .rw, 0, 31, 0, .link⟩,
    ⟨26, 19, .rw, 1, 255, 62, .link⟩,
    ⟨18, 12, .rw, 1, 127, 15, .link⟩,
    ⟨11, 5, .rw, 0, 127, 15, .link⟩]⟩,
  -- CANFD_DBT (R560)
  ⟨61572651483408, 8, 1, 8, 1, 8, 1, [⟨31, 27, .rw, 0, 31, 0, .link⟩,
    ⟨26, 18, .rw, 0, 31, 10, .link⟩,
    ⟨17, 11, .rw, 0, 15, 3, .link⟩,
    ⟨10, 4, .rw, 0, 127, 3, .link⟩]⟩,
  -- CANFD_TDC (R560)
  ⟨61572651483416, 8, 1, 8, 1, 8, 1, [⟨22, 16, .ro, 0, 127, 0, .link⟩,
    ⟨14, 8, .rw, 0, 127, 12, .link⟩]⟩,
  -- CANFD_STAT (R560)
  ⟨61572651483424, 8, 1, 8, 1, 8, 1, [⟨63, 48, .ro, 0, 65535, 0, .link⟩,
    ⟨47, 40, .ro, 0, 255, 0, .link⟩,
    ⟨39, 32, .ro, 0, 255, 0, .link⟩,
    ⟨23, 16, .ro, 0, 255, 0, .link⟩,
    ⟨15, 8, .ro, 0, 255, 0, .link⟩,
    ⟨7, 6, .ro, 0, 3, 0, .link⟩,
    ⟨3, 3, .w1c, 0, 1, 0, .any⟩,
    ⟨2, 0, .ro, 0, 7, 0, .link⟩]⟩,
  -- CANFD_TTCFG (R560)
  ⟨61572651483432, 8, 1, 8, 1, 8, 1, [⟨63, 48, .rw, 0, 65535, 2500, .link⟩,
    ⟨47, 40, .rw, 0, 255, 16, .link⟩,
    ⟨39, 37, .rw, 0, 6, 2, .link⟩,
    ⟨36, 35, .rw, 0, 3, 0, .link⟩,
    ⟨34, 34, .rw, 0, 1, 1, .link⟩,
    ⟨33, 23, .rw, 0, 2047, 16, .link⟩,
    ⟨22, 17, .rw, 0, 32, 0, .link⟩,
    ⟨0, 0, .rw, 0, 1, 0, .link⟩]⟩,
  -- CANFD_TTSTAT (R560)
  ⟨61572651483440, 8, 1, 8, 1, 8, 1, [⟨63, 48, .ro, 0, 65535, 0, .link⟩,
    ⟨42, 41, .ro, 0, 3, 0, .link⟩,
    ⟨40, 40, .ro, 0, 1, 0, .link⟩,
    ⟨39, 34, .ro, 0, 63, 0, .link⟩,
    ⟨33, 18, .ro, 0, 65535, 0, .link⟩,
    ⟨17, 16, .ro, 0, 3, 0, .link⟩,
    ⟨2, 0, .ro, 0, 7, 0, .link⟩]⟩,
  -- CANFD_TRIG (R560)
  ⟨61572651484928, 8, 32, 8, 1, 8, 1, [⟨63, 48, .rw, 0, 65535, 0, .link⟩,
    ⟨47, 46, .rw, 0, 2, 0, .link⟩,
    ⟨45, 40, .rw, 0, 63, 0, .link⟩,
    ⟨39, 37, .rw, 0, 7, 0, .link⟩,
    ⟨36, 31, .rw, 0, 63, 0, .link⟩]⟩,
  -- CANFD_BCFG (R560)
  ⟨61572651487232, 128, 64, 8, 1, 8, 1, [⟨63, 63, .rw, 0, 1, 0, .link⟩,
    ⟨62, 62, .rw, 0, 1, 0, .link⟩,
    ⟨61, 61, .rw, 0, 1, 0, .link⟩,
    ⟨60, 60, .rw, 0, 1, 0, .link⟩,
    ⟨59, 59, .rw, 0, 1, 0, .link⟩,
    ⟨58, 58, .rw, 0, 1, 0, .link⟩,
    ⟨57, 54, .rw, 0, 15, 0, .link⟩,
    ⟨28, 0, .rw, 0, 536870911, 0, .link⟩]⟩,
  -- CANFD_BSTAT (R560)
  ⟨61572651487240, 128, 64, 8, 1, 8, 1, [⟨63, 56, .ro, 0, 255, 0, .link⟩,
    ⟨55, 55, .ro, 0, 1, 0, .link⟩,
    ⟨54, 54, .w1c, 0, 1, 0, .any⟩,
    ⟨53, 53, .ro, 0, 1, 0, .link⟩,
    ⟨52, 52, .ro, 0, 1, 0, .link⟩,
    ⟨51, 51, .w1c, 0, 1, 0, .any⟩,
    ⟨50, 50, .w1c, 0, 1, 0, .any⟩,
    ⟨49, 49, .w1c, 0, 1, 0, .any⟩,
    ⟨48, 48, .ro, 0, 1, 0, .link⟩,
    ⟨47, 47, .ro, 0, 1, 0, .link⟩,
    ⟨46, 46, .ro, 0, 1, 0, .link⟩,
    ⟨45, 45, .ro, 0, 1, 0, .link⟩,
    ⟨44, 41, .ro, 0, 15, 0, .link⟩,
    ⟨28, 0, .ro, 0, 536870911, 0, .link⟩]⟩,
  -- CANFD_BCMD (R560)
  ⟨61572651487248, 128, 64, 8, 1, 8, 1, [⟨10, 3, .wo, 0, 255, 0, .any⟩,
    ⟨2, 2, .wo, 0, 1, 0, .any⟩,
    ⟨1, 1, .wo, 0, 1, 0, .any⟩,
    ⟨0, 0, .wo, 0, 1, 0, .any⟩]⟩,
  -- CANFD_BTS (R560)
  ⟨61572651487256, 128, 64, 8, 1, 8, 1, [⟨63, 0, .ro, 0, 18446744073709551615, 0, .link⟩]⟩,
  -- CANFD_FLTA (R534)
  ⟨61572651485184, 16, 128, 8, 1, 8, 1, [⟨63, 62, .rw, 0, 3, 0, .link⟩,
    ⟨61, 61, .rw, 0, 1, 0, .link⟩,
    ⟨60, 59, .rw, 0, 2, 0, .link⟩,
    ⟨58, 53, .rw, 0, 63, 0, .link⟩,
    ⟨28, 0, .rw, 0, 536870911, 0, .link⟩]⟩,
  -- CANFD_FLTB (R534)
  ⟨61572651485192, 16, 128, 8, 1, 8, 1, [⟨28, 0, .rw, 0, 536870911, 0, .link⟩]⟩,
  -- CANFD_BDATA (R560)
  ⟨61572651487296, 128, 64, 8, 8, 8, 1, [⟨63, 0, .rw, 0, 18446744073709551615, 0, .link⟩]⟩]

/-- Registers of the MGMT block. -/
def regsMgmt : List RegSpec := [
  -- MGMT_MAC (R561)
  ⟨61572651548928, 8, 1, 8, 1, 8, 1, [⟨47, 0, .ro, 0, 281474976710655, 0, .link⟩]⟩,
  -- MGMT_CFG (R561)
  ⟨61572651548936, 8, 1, 8, 1, 8, 1, [⟨47, 36, .rwl, 0, 4095, 0, .link⟩,
    ⟨35, 35, .rwl, 0, 1, 0, .link⟩,
    ⟨34, 34, .rwl, 0, 1, 0, .link⟩,
    ⟨31, 16, .rwl, 1, 65535, 50111, .link⟩,
    ⟨3, 2, .rwl, 0, 3, 0, .link⟩,
    ⟨0, 0, .rwl, 0, 1, 1, .link⟩]⟩,
  -- MGMT_RMADDRH (R561)
  ⟨61572651548992, 16, 4, 8, 1, 8, 1, [⟨63, 0, .rwl, 0, 18446744073709551615, 0, .link⟩]⟩,
  -- MGMT_RMADDRL (R561)
  ⟨61572651549000, 16, 4, 8, 1, 8, 1, [⟨63, 0, .rwl, 0, 18446744073709551615, 0, .link⟩]⟩,
  -- MGMT_STAT (R561)
  ⟨61572651549056, 8, 1, 8, 1, 8, 1, [⟨63, 48, .ro, 0, 65535, 0, .link⟩,
    ⟨47, 32, .ro, 0, 65535, 0, .link⟩,
    ⟨31, 16, .ro, 0, 65535, 0, .link⟩,
    ⟨15, 8, .ro, 0, 255, 0, .link⟩,
    ⟨0, 0, .ro, 0, 1, 0, .link⟩]⟩,
  -- MGMT_IPV4 (R561)
  ⟨61572651548944, 8, 1, 8, 1, 8, 1, [⟨37, 32, .rwl, 0, 32, 0, .link⟩,
    ⟨31, 0, .rwl, 0, 4294967295, 0, .link⟩]⟩,
  -- MGMT_IPV6H (R561)
  ⟨61572651548952, 8, 1, 8, 1, 8, 1, [⟨63, 0, .rwl, 0, 18446744073709551615, 0, .link⟩]⟩,
  -- MGMT_IPV6L (R561)
  ⟨61572651548960, 8, 1, 8, 1, 8, 1, [⟨63, 0, .rwl, 0, 18446744073709551615, 0, .link⟩]⟩,
  -- MGMT_V6CFG (R561)
  ⟨61572651548968, 8, 1, 8, 1, 8, 1, [⟨8, 8, .ro, 0, 1, 0, .link⟩,
    ⟨7, 0, .rwl, 1, 128, 64, .link⟩]⟩]

/-- Registers of the BIC block. -/
def regsBic : List RegSpec := [
  -- BIC_CLAIM (R582)
  ⟨61572651352320, 16, 2, 8, 1, 8, 1, [⟨31, 16, .ro, 0, 65535, 0, .core⟩,
    ⟨15, 15, .ro, 0, 1, 0, .core⟩,
    ⟨14, 12, .ro, 0, 7, 0, .core⟩,
    ⟨11, 8, .ro, 0, 15, 0, .core⟩,
    ⟨7, 0, .ro, 0, 255, 0, .core⟩]⟩,
  -- BIC_COMPLETE (R582)
  ⟨61572651352328, 16, 2, 8, 1, 8, 1, [⟨7, 0, .wo, 0, 255, 0, .core⟩]⟩,
  -- BIC_HCOMPLETE (R582)
  ⟨61572651352352, 8, 1, 8, 1, 8, 1, [⟨7, 0, .wo, 0, 255, 0, .host⟩]⟩,
  -- BIC_HOSTCFG (R582)
  ⟨61572651352360, 8, 1, 8, 1, 8, 1, [⟨31, 16, .rw, 0, 65535, 0, .link⟩,
    ⟨15, 8, .rw, 1, 255, 10, .link⟩]⟩,
  -- BIC_STAT (R582)
  ⟨61572651352368, 8, 1, 8, 1, 8, 1, [⟨63, 48, .ro, 0, 65535, 0, .link⟩,
    ⟨47, 32, .ro, 0, 65535, 0, .link⟩,
    ⟨31, 16, .ro, 0, 65535, 0, .link⟩,
    ⟨15, 0, .ro, 0, 65535, 0, .link⟩]⟩,
  -- BIC_GRP (R582)
  ⟨61572651352584, 8, 15, 8, 1, 8, 1, [⟨23, 8, .rw, 1, 65535, 100, .link⟩,
    ⟨7, 0, .rw, 1, 255, 1, .link⟩]⟩,
  -- BIC_SRCCFG (R582)
  ⟨61572651356160, 8, 256, 8, 1, 8, 1, [⟨18, 18, .ro, 0, 1, 0, .link⟩,
    ⟨17, 17, .rw, 0, 1, 0, .link⟩,
    ⟨16, 16, .rw, 0, 1, 0, .link⟩,
    ⟨15, 12, .rw, 0, 15, 0, .link⟩,
    ⟨11, 8, .rw, 0, 15, 0, .link⟩,
    ⟨3, 0, .rw, 0, 15, 0, .link⟩]⟩,
  -- BIC_SRCSTAT (R582)
  ⟨61572651358208, 8, 256, 8, 1, 8, 1, [⟨63, 32, .ro, 0, 4294967295, 0, .link⟩,
    ⟨31, 16, .ro, 0, 65535, 0, .link⟩,
    ⟨15, 12, .ro, 0, 15, 0, .link⟩,
    ⟨11, 8, .ro, 0, 15, 0, .link⟩,
    ⟨0, 0, .ro, 0, 1, 0, .link⟩]⟩]

/-- Registers of the EVREC block. -/
def regsEvrec : List RegSpec := [
  -- EVREC_HEAD (R583)
  ⟨61572651417856, 8, 1, 8, 1, 8, 1, [⟨63, 32, .ro, 0, 4294967295, 0, .any⟩,
    ⟨31, 0, .ro, 0, 4294967295, 0, .any⟩]⟩,
  -- EVREC_RSEL (R583)
  ⟨61572651417872, 8, 1, 8, 1, 8, 1, [⟨33, 32, .ro, 0, 3, 0, .any⟩,
    ⟨31, 0, .rw, 0, 4294967295, 0, .any⟩]⟩,
  -- EVREC_RDATA (R583)
  ⟨61572651417880, 8, 4, 8, 1, 8, 1, [⟨63, 0, .ro, 0, 18446744073709551615, 0, .any⟩]⟩,
  -- EVREC_STAT (R583)
  ⟨61572651417912, 8, 1, 8, 1, 8, 1, [⟨63, 48, .ro, 0, 65535, 0, .any⟩,
    ⟨47, 32, .ro, 0, 65535, 0, .any⟩,
    ⟨31, 16, .ro, 0, 65535, 0, .any⟩,
    ⟨15, 0, .ro, 0, 65535, 0, .any⟩]⟩]

/-- Registers of the SEC block. -/
def regsSec : List RegSpec := [
  -- SEC_SECSTAT (R623)
  ⟨61572651614464, 8, 1, 8, 1, 8, 1, [⟨47, 40, .ro, 0, 255, 0, .any⟩,
    ⟨39, 32, .ro, 0, 255, 0, .any⟩,
    ⟨14, 14, .ro, 0, 1, 0, .any⟩,
    ⟨13, 13, .ro, 0, 1, 0, .any⟩,
    ⟨12, 12, .ro, 0, 1, 0, .any⟩,
    ⟨11, 10, .ro, 0, 3, 0, .any⟩,
    ⟨9, 9, .ro, 0, 1, 0, .any⟩]⟩,
  -- SEC_CHAL (R623)
  ⟨61572651614472, 8, 2, 8, 1, 8, 1, [⟨63, 0, .ro, 0, 18446744073709551615, 0, .any⟩]⟩,
  -- SEC_CNT (R623)
  ⟨61572651614496, 8, 8, 8, 1, 8, 1, [⟨7, 0, .ro, 0, 255, 0, .any⟩,
    ⟨15, 8, .ro, 0, 255, 0, .any⟩,
    ⟨23, 16, .ro, 0, 255, 0, .any⟩,
    ⟨31, 24, .ro, 0, 255, 0, .any⟩,
    ⟨39, 32, .ro, 0, 255, 0, .any⟩,
    ⟨47, 40, .ro, 0, 255, 0, .any⟩,
    ⟨55, 48, .ro, 0, 255, 0, .any⟩,
    ⟨63, 56, .ro, 0, 255, 0, .any⟩]⟩]

/-- The registers of the block an address lies in (R249). -/
def regsAt (a : Nat) : List RegSpec :=
  let p := a / 65536
  if p = 0x30000000 then regsHammer
  else if p = 0x30000001 then regsTemper
  else if p = 0x30000010 then regsTongs
  else if 0x30000100 ≤ p ∧ p < 0x300001A0 then
    let q := p % 16
    if q = 0 then regsHearth else if q = 1 then regsAnvil else if q = 8 ∨ q = 12 then regsCruc else []
  else if p = 0x38000000 then regsBellows
  else if p = 0x38000001 then regsQuench
  else if p = 0x38000002 then regsTuyere
  else if p = 0x38000003 then regsBic
  else if p = 0x38000004 then regsEvrec
  else if p = 0x38000005 then regsCanfd
  else if p = 0x38000006 then regsMgmt
  else if p = 0x38000007 then regsSec
  else []

/-- The indices `(i, j, k)` at which the address is a register of the row. -/
def RegSpec.index (r : RegSpec) (a : Nat) : Option (Nat × Nat × Nat) :=
  if a < r.base then none
  else
    let d := a - r.base
    -- the first stride is the widest, or the row has one dimension
    let i := d / r.s1
    let d1 := d % r.s1
    let j := d1 / r.s2
    let d2 := d1 % r.s2
    let k := d2 / r.s3
    if r.c2 = 1 ∧ r.c3 = 1 then (if i < r.c1 ∧ d1 = 0 then some (i, 0, 0) else none)
    else if r.c3 = 1 then (if i < r.c1 ∧ j < r.c2 ∧ d2 = 0 then some (i, j, 0) else none)
    else if i < r.c1 ∧ j < r.c2 ∧ k < r.c3 ∧ d2 % r.s3 = 0 then some (i, j, k) else none

/-- The table row of the register at an address, if one lies there. -/
def findReg (a : Nat) : Option RegSpec := (regsAt a).find? (fun r => (r.index a).isSome)


/-- `SRCCFGn` at reset per R562, R582: TYPE, WATCH, DELIV, TEN and PRIO of each source. -/
def srcCfgReset (n : Nat) : Nat :=
  let mk (ty watch deliv ten prio : Nat) : Nat := ty * 2 ^ 18 + watch * 2 ^ 17 + deliv * 2 ^ 16 + ten * 2 ^ 8 + prio
  if n < 10 then mk 0 0 1 13 10
  else if n < 20 then mk 0 0 1 5 6
  else match n with
    | 20 => mk 0 0 1 5 6
    | 21 => mk 0 0 1 9 5
    | 22 => mk 0 0 1 13 8
    | 23 => mk 0 0 1 4 4
    | 24 => mk 0 1 1 13 12
    | 25 => mk 0 1 1 13 15
    | 26 => mk 1 1 1 13 14
    | 27 => mk 0 0 0 1 7
    | 28 => mk 0 0 1 13 9
    | 29 => mk 0 0 0 1 7
    | 30 => mk 0 0 0 3 11
    | 31 => mk 0 0 0 3 5
    | 32 => mk 0 0 1 9 9
    | 33 => mk 1 1 1 13 13
    | 34 => mk 1 0 0 1 8
    | _ => 0

/-- Typical VIDX, KMAX and LEAK85 of the operating points (R420). -/
def opReset (n : Nat) : Nat :=
  let t : Nat × Nat × Nat := match n with
    | 0 => (60, 8, 55)
    | 1 => (70, 12, 61)
    | 2 => (80, 16, 67)
    | 3 => (96, 20, 78)
    | 4 => (104, 24, 85)
    | 5 => (112, 27, 92)
    | 6 => (120, 30, 101)
    | _ => (128, 32, 110)
  t.2.2 * 2 ^ 32 + t.2.1 * 2 ^ 8 + t.1

/-- Default energy weights in 0.25 pJ units (R406). -/
def wtReset (n : Nat) : Nat :=
  match n with
  | 0 => 2800
  | 1 => 3120
  | 2 => 3120
  | 3 => 800
  | 4 => 100
  | 5 => 180
  | 6 => 240
  | 7 => 72
  | 8 => 160
  | 9 => 2048
  | 10 => 922
  | 11 => 13600
  | _ => 2640

/-- Reset values that differ between the registers of an array (R406, R420, R478, R528, R562). -/
def irregularReset (a : Nat) : Nat :=
  let n (b st : Nat) : Nat := (a - b) / st
  if 0x300000010200 ≤ a ∧ a < 0x300000010240 then opReset (n 0x300000010200 8)
  else if 0x300000010240 ≤ a ∧ a < 0x3000000102A8 then wtReset (n 0x300000010240 8)
  else if 0x380000000100 ≤ a ∧ a < 0x380000000160 then
    (match n 0x380000000100 8 with | 0 => 2 | 1 => 3 | 2 => 0 | 3 => 1 | _ => 15) * 16
  else if a = 0x380000000208 then 1
  else if 0x380000020100 ≤ a ∧ a < 0x380000020380 then
    let c := n 0x380000020100 64
    if (a - 0x380000020100) % 64 = 8 then c % 4 * 64 * 2 ^ 16 + (if c = 4 then 16 else 0)
    else if (a - 0x380000020100) % 64 = 16 ∧ c ≥ 8 then 1 else 0
  else if 0x380000031000 ≤ a ∧ a < 0x380000031800 then srcCfgReset (n 0x380000031000 8)
  else 0

/-- MAC address `i` from OTP (R332, R552): OTP_BASE + i, OTP_BASE a unicast address. -/
def otpMac (i : Nat) : Nat :=
  let b := Config.otpBase % 2 ^ 48
  ((if b / 2 ^ 40 % 2 = 1 then b - 2 ^ 40 else b) + i) % 2 ^ 48

/-- The reset word of the register at an address (R14); 0 where no register lies. -/
def regReset (a : Nat) : Word :=
  let t := match findReg a with
    | some r => r.fields.foldl (fun acc f => acc + f.reset * 2 ^ f.lo) 0
    | none => 0
  if TONGS_IF_MAC 0 ≤ a ∧ a < TONGS_IF_MAC 4 ∧ a % 64 = 0 then BitVec.ofNat 64 (otpMac ((a - TONGS_IF_MAC 0) / 64))
  else if a = MGMT_MAC then BitVec.ofNat 64 (otpMac 4)
  else BitVec.ofNat 64 (t + irregularReset a)


end Sys2Proof.Machine
end

