-- ==== Sys2Proof/Machine/Tab.lean ====
section
/-! DEFINITION. Sparse tables: a list of (key, value) pairs in one canonical form (keys strictly rising, no entry
equal to what an unlisted key reads as), with the one read and the one write every store, register bank and CSR block
goes through. -/

namespace Sys2Proof.Machine

/-- A sparse table of values by key. -/
abbrev Tab (α : Type) := List (Nat × α)

/-- What key `k` holds: the listed value, else the default `d k`. -/
def Tab.get {α : Type} (d : Nat → α) : Tab α → Nat → α
  | [], k => d k
  | (k', v) :: r, k => if k' = k then v else Tab.get d r k

/-- The table without key `k`. -/
def Tab.erase {α : Type} (t : Tab α) (k : Nat) : Tab α := t.filter (fun p => p.1 != k)

/-- Insert at the place that keeps the keys rising. -/
def Tab.insert {α : Type} (k : Nat) (v : α) : Tab α → Tab α
  | [] => [(k, v)]
  | (k', v') :: r => if k < k' then (k, v) :: (k', v') :: r else (k', v') :: Tab.insert k v r

/-- Key `k` now holds `v`; a default value is not listed. -/
def Tab.set {α : Type} [DecidableEq α] (d : Nat → α) (t : Tab α) (k : Nat) (v : α) : Tab α :=
  if v = d k then t.erase k else Tab.insert k v (t.erase k)

/-- The canonical form: keys strictly rising, no entry equal to its default. -/
def Tab.wf {α : Type} [DecidableEq α] (d : Nat → α) (t : Tab α) : Bool :=
  decide (t.Pairwise (fun p q => p.1 < q.1)) && t.all (fun p => decide (p.2 ≠ d p.1))

end Sys2Proof.Machine
end

