-- ==== Sys2Proof/Machine/Blocks.lean ====
section
/-! DEFINITION. The state of the blocks that is not held in CSR words: the parts `State` is made of. Each structure
names the rules that give its contents. -/

namespace Sys2Proof.Machine

/-! ### Hammer and the Anvils -/

/-- Class of an accumulator cell (R62, R64). -/
inductive Cls where
  | fin
  | pinf
  | ninf
  | nan
deriving DecidableEq, Repr

/-- An accumulator cell (R62): the 80-bit significand and the class. -/
structure Cell where
  sig : BitVec 80
  cls : Cls
deriving DecidableEq, Repr

/-- The cell after a clear (R66). -/
def Cell.zero : Cell := ⟨0, .fin⟩

/-- An accumulator bank (R62): cells by 24·lane + position, the block exponent and the three sticky flags. -/
structure Bank where
  cells : Tab Cell
  exp : BitVec 10
  nx : Bool
  ovf : Bool
  sp : Bool
deriving DecidableEq, Repr

/-- A cleared bank with exponent `e` (R66). -/
def Bank.clear (e : BitVec 10) : Bank := ⟨[], e, false, false, false⟩

/-- One Anvil's registers (R95). Its flags, generator and counters are CSRs; its store is memory. -/
structure Anvil where
  v : Tab Row
  g : Tab Word
  k : Tab Word
  p : BitVec 8
  acc : Tab Bank
deriving DecidableEq, Repr

/-- Job-entry values of an Anvil (R95, R66). -/
def Anvil.entry : Anvil := ⟨[], [], [], 0, []⟩

/-- Where and why a job fails (R134, R151–R153, R272, R393). `fanvil` 255: none; `word`: the slot word that R134 names, 255
none. -/
structure Fail where
  cause : Nat
  fpc : Nat
  fanvil : Nat
  p0 : Nat
  p1 : Nat
  loc : Word
  word : Nat
deriving DecidableEq, Repr

/-- A token (R98, R99): outstanding count, FAIL, and the first failing operation's cause (R100) and time. -/
structure Tok where
  count : Nat
  fail : Option Fail
  failAt : Nat
deriving DecidableEq, Repr

/-- A change an operation makes to one Anvil's registers, or to a bank, at the position it becomes visible. -/
inductive AEff where
  | v (d : Nat) (x : Row)
  | g (d : Nat) (x : Word)
  | k (d : Nat) (x : Word)
  | p (d : Nat) (x : Bool)
  | mmac (b : Nat) (va vb vx : Row) (ta tb : Nat) (neg bs ha : Bool)
  | mcomb (b : Nat) (va : Row) (grp : Nat)
  | mclr (b : Nat) (e : BitVec 10)
  | mrsc (b : Nat) (e : BitVec 10)
  | none
deriving DecidableEq, Repr

/-- Rows that an asynchronous operation reads as they were before stores not yet 8 positions old at its issue (R200, R202): the
row's address, its bytes before them, and its bytes at the issue. -/
abbrev Stale := List (Nat × List Byte × List Byte)

/-- The kinds of work an exchange unit takes (R176, R181): the nine transfers by opcode, the fill, the fence. -/
inductive XKind where
  | xfer (op : Nat)
  | fill
  | fence (cruc : Bool)
deriving DecidableEq, Repr

/-- An operation queued in an exchange unit (R176–R181). A fence holds in `src` and `dst` the next SEQ of stacks 2h and
2h + 1 at its issue; `refused`: the X_ADDR refusal found at admission (R178). -/
structure XOp where
  kind : XKind
  tok : Nat
  job : Nat
  src : Nat
  dst : Nat
  shape : Word
  refused : Bool
  stale : Stale
deriving DecidableEq, Repr

/-- An operation queued in the Tongs N-slot queue (R150, R185). `stage`: 0 while it waits to begin, then 1, and for `ared.pp`
one more for each of its messages acknowledged; `mark`: chunks of an `ared.pp` received; `gone`: withdrawn, and only its begun
message stays (R390). -/
structure NOp where
  op : Nat
  tok : Nat
  job : Nat
  strm : Nat
  a : Word
  b : Word
  code : Nat
  stage : Nat
  mark : Nat
  id : Nat
  stale : Stale
  gone : Bool
deriving DecidableEq, Repr

/-- What a bundle's slot word does once the bundle issues. `loads` lists Anvil and address, `stores` Anvil, address and
value. -/
inductive Eff where
  | s (d : Nat) (x : Word) (sat : Bool)
  | mask (h : Nat) (f : Nat)
  | anvil (g : Nat) (e : AEff) (fl : Flags)
  | sr (g : Nat) (st : Word)
  | act (g cls : Nat)
  | store (pos addr len val : Nat)
  | loads (slot file d lat : Nat) (hearth : Bool) (l : List (Nat × Nat))
  | stores (slot len : Nat) (hearth : Bool) (l : List (Nat × Nat × Nat))
  | ldm (d addr : Nat)
  | stm (addr val : Nat)
  | ldc (d addr : Nat)
  | redirect (tgt : Nat)
  | link (d : Nat)
  | fault (cause after slot fanvil : Nat) (loc : Word)
  | xop (unit : Nat) (o : XOp)
  | crc (stk : Nat) (pri : Bool) (tok addr : Nat)
  | nop (o : NOp)
  | heat (id imm : Nat)
  | opreq (op : Nat)
  | snap (tag : Nat)
  | phint (w : Nat)
deriving DecidableEq, Repr

/-- An effect on its way: the position from which it is visible (R196), or the latency while its bundle is open. -/
structure Flight where
  due : Nat
  eff : Eff
deriving DecidableEq, Repr

/-- An execution fault found, waiting for its detection point (R151, R211). -/
structure FaultAt where
  pos : Nat
  detect : Nat
  slot : Nat
  fail : Fail
deriving DecidableEq, Repr

/-- The bundle being assembled from slot operations: how many words, the last slot taken, what they write, what they
will do, the tokens a wait names, whether a word is refused, the generators its earlier words have drawn from. -/
structure Open where
  words : Nat
  last : Option Nat
  wait : Nat
  ma : Nat
  branch : Bool
  stop : Bool
  len : Nat
  dests : List Dest
  effs : List Flight
  illegal : Option Nat
  badRaw : Option Nat
  sr : Tab Word
deriving DecidableEq, Repr

/-- No bundle open. -/
def Open.none : Open := ⟨0, Option.none, 0, 0, false, false, 0, [], [], Option.none, Option.none, []⟩

/-- Why issue is held (R192). -/
inductive Stall where
  | wait (mask : Nat)
  | token
  | admission
  | drain
deriving DecidableEq, Repr

/-- An effective heat marker whose boundary has not been crossed yet (R205, R230). -/
structure Marker where
  pos : Nat
  heat : Nat
  coll : Bool
  var : Nat
  target : Nat
  op : Nat
  switchTo : Option Nat
deriving DecidableEq, Repr

/-- A heat execution that begins when its first bundle issues (R215): what the boundary or the entry has chosen, the seed
and the heat count of its generators (R80). -/
structure Begin where
  heat : Nat
  var : Nat
  op : Nat
  coll : Bool
  seed : Word
  count : Nat
deriving DecidableEq, Repr

/-- A Crucible descriptor whose copy a store may still meet (R201): the position of its command, the Crucible, the command's
sequence number and the descriptor's address. -/
structure DescAt where
  pos : Nat
  stk : Nat
  seq : Nat
  addr : Nat
deriving DecidableEq, Repr

/-- Hammer's state beside its CSRs (R98): the registers, the position and fetch state, the running job and what it
is in the middle of. `recent`: stores of the last 8 positions with the bytes they replaced (R200). `heatStart` and
`stallAt` are unskipped-cycle counts; `start` is the heat execution that its first bundle will begin; `beaconUp`: a beacon
that Quench has not seen yet (R236). -/
structure Hammer where
  s : Tab Word
  tok : Tab Tok
  amask : BitVec 160
  avail : BitVec 160
  pc : Nat
  pos : Nat
  run : Option Nat
  stall : Option Stall
  cur : Open
  open_ : Bool
  flight : List Flight
  redirs : List (Nat × Nat)
  faults : List FaultAt
  ending : Option (Option Fail)
  marker : Option Marker
  heatId : Nat
  var : Nat
  coll : Bool
  heatCount : Nat
  entered : Nat
  beaconAt : Option Nat
  beaconUp : Bool
  group : Option Nat
  follow : Bool
  start : Option Begin
  heatStart : Nat
  stallAt : Nat
  recent : List (Nat × Nat × List Byte)
  descs : List DescAt
deriving DecidableEq, Repr

/-- Hammer at compute reset: no job. -/
def Hammer.reset : Hammer :=
  { s := [], tok := [], amask := BitVec.allOnes 160, avail := BitVec.allOnes 160, pc := 0, pos := 0, run := none,
    stall := none, cur := Open.none, open_ := false, flight := [], redirs := [], faults := [], ending := none,
    marker := none, heatId := 0, var := 0, coll := false, heatCount := 0, entered := 0, beaconAt := none,
    beaconUp := false, group := none, follow := false, start := none, heatStart := 0, stallAt := 0, recent := [], descs := [] }

/-! ### Jobs (R387–R394) -/

/-- Where a job is (R393). -/
inductive JobSt where
  | queued
  | running
  | switched
deriving DecidableEq, Repr

/-- What a job switch saves (R108), and the faults whose detection points lie past the boundary (R211). -/
structure Saved where
  s : Tab Word
  sflags : Word
  amask : BitVec 160
  heat : Nat
  coll : Bool
  aflags : Tab Flags
  pos : Nat
  heatCount : Nat
  group : Option Nat
  follow : Bool
  faults : List FaultAt
deriving DecidableEq, Repr

/-- An entry of the job table (R388). `frame`: the pulse frame of its acceptance (R405). -/
structure Job where
  img : Nat
  entry : Nat
  cls : Nat
  ring : Nat
  arg : Word
  seed : Word
  tag : Word
  key : Nat
  group : Nat
  gflags : Nat
  strm : Nat
  ridx : Nat
  st : JobSt
  frame : Nat
  accepted : Nat
  waitFrom : Nat
  started : Nat
  switches : Nat
  saved : Option Saved
  cancel : List (Nat × Nat × Nat)   -- time, stream, CTAG of each JOB_CANCEL
  cflags : Flags
  rflags : Flags
deriving DecidableEq, Repr

/-! ### Events and interrupts (R562–R583) -/

/-- An event record (R573) without its CRC, which is a function of the rest. -/
structure Evt where
  seq : Nat
  hours : Nat
  code : Nat
  sevsrc : Nat
  pcyc : Nat
  p0 : Nat
  p1 : Nat
  p2 : Nat
  rep : Nat
deriving DecidableEq, Repr

/-- The event recorder beside its CSRs: the permanent and the circulating area, the sequence numbers awaiting NOR,
the run of drops (count, first and last code), whether the last record written stood alone, and the cooling actions
whose groups are written at the next tick (R578). -/
structure Evrec where
  perm : List Evt
  circ : List Evt
  nor : List Nat
  drops : Option (Nat × Nat × Nat)
  lastAlone : Option Evt
  deferred : List Evt
deriving DecidableEq, Repr

/-- A BIC source beside its CSRs: the target of its previous round-robin assignment (R564), held copies (R565) and
outstanding deliveries (R570) of H and RM with their times, a held group assertion (R571), and `waits`: an assertion found no
available target in round robin. -/
structure Src where
  rr : Nat
  heldH : Option Nat
  heldRM : Option Nat
  outH : Option Nat
  outRM : Option Nat
  lastH : Nat
  lastRM : Nat
  grouped : Nat
  waits : Bool
deriving DecidableEq, Repr

/-- A source at reset. -/
def Src.reset : Src := ⟨3, none, none, none, none, 0, 0, 0, false⟩

/-- A coalescing group (R571): assertions since the last release, and the time of the first. -/
structure Grp where
  count : Nat
  first : Option Nat
deriving DecidableEq, Repr

/-- A core's active sources, most recent claim first, and the completions awaiting re-evaluation, each with the count of MGMT
cycles at which it is due (R566–R568). -/
structure CoreIrq where
  active : List Nat
  reeval : List (Nat × Nat)
  notice : Bool
deriving DecidableEq, Repr

/-! ### Crucibles (R282–R324) -/

/-- Who sent a Crucible command: a job's X slot, with its token, or a host's command stream, with its CTAG. -/
inductive CSrc where
  | job (job tok : Nat)
  | host (strm ctag : Nat)
deriving DecidableEq, Repr

/-- An admitted Crucible command (R286): its copied descriptor, sequence number, sender and seed (R315). -/
structure CCmd where
  desc : BitVec 512
  seq : Nat
  src : CSrc
  seed : Word
  queue : Nat
deriving DecidableEq, Repr

/-- What a command that has run leaves for its completion (R289, R320): flag word, error, location, scrub counts. -/
structure CRes where
  flags : Flags
  err : Nat
  loc : Word
  ce : Nat
  ue : Nat
deriving DecidableEq, Repr

/-- A Crucible beside its CSRs: the three queues (0 P, 1 N, 2 H), the running command with its result, the one a
P command interrupts (R290), which of N and H started last (R287), and how many P commands have started while the
present head of N, of H has waited eligible (R291). -/
structure Cruc where
  p : List CCmd
  n : List CCmd
  h : List CCmd
  run : Option (CCmd × CRes)
  susp : Option (CCmd × CRes)
  lastH : Bool
  pN : Nat
  pH : Nat
deriving DecidableEq, Repr

/-- A Crucible at compute reset (R323). -/
def Cruc.reset : Cruc := ⟨[], [], [], none, none, true, 0, 0⟩

/-! ### Tongs: transport and streams (R325–R401) -/

/-- What a frame carries (R334–R336, R356): a transport packet for an address, a neighbour advertisement or solicitation, ARP,
an echo reply, or a relayed frame. -/
inductive Body where
  | pkt (dst : BitVec 128) (p : Pkt)
  | nadv (target dst : BitVec 128) (solicited : Bool)
  | nsol (target : BitVec 128)
  | arp (reply : Bool) (target : BitVec 32)
  | echo (dst : BitVec 128) (data : List Byte)
  | relay (dstMac len : Nat) (p : Option Pkt)
deriving DecidableEq, Repr

/-- A frame sent: the interface it is sent for (4 the management port), the port it leaves on, the VLAN ID of its tag (R330),
whether its FCS holds (R264). -/
structure Frame where
  ifc : Nat
  port : Nat
  vid : Option Nat
  fcs : Bool
  body : Body
deriving DecidableEq, Repr

/-- Where the bytes of a message stand in memory: address, number, and what unordered stores may leave there (R202). -/
structure MemSrc where
  addr : Nat
  len : Nat
  stale : Stale
deriving DecidableEq, Repr

/-- A message queued or being sent on a stream (R341): class, RESP, its bytes, its MSN once begun, bytes framed, when it
became ready, the N-slot operation it completes, and, where its bytes are read from memory as they are framed, where they stand. -/
structure OutMsg where
  opc : Nat
  resp : Bool
  data : List Byte
  msn : Option Nat
  sent : Nat
  ready : Nat
  nop : Option Nat
  src : Option MemSrc
deriving DecidableEq, Repr

/-- Bytes of a message. -/
def OutMsg.len (m : OutMsg) : Nat := match m.src with | some x => x.len | none => m.data.length

/-- A transmitted packet awaiting acknowledgement (R345, R346): its first transmission, the time its timer runs from,
its last retransmission. -/
structure TxPkt where
  pkt : Pkt
  first : Nat
  base : Nat
  retx : Option Nat
deriving DecidableEq, Repr

/-- A segment received: its byte offset and length, and its bytes where the context holds them; those of a posted buffer are
there already (R344). -/
structure Seg where
  off : Nat
  len : Nat
  data : List Byte
deriving DecidableEq, Repr

/-- A message being received (R343), with the location of the first write of it that failed (R270). -/
structure RxMsg where
  msn : Nat
  mlen : Nat
  opc : Nat
  segs : List Seg
  bad : Option Word
deriving DecidableEq, Repr

/-- A posted receive buffer or armed signal (R363, R364). -/
structure Posted where
  addr : Nat
  len : Nat
  tok : Nat
  job : Nat
  sig : Bool
  nop : Nat
deriving DecidableEq, Repr

/-- A stream context (R363) and what Tongs keeps of the stream beside it. -/
structure Ctx where
  typ : Nat
  tstate : Nat
  prio : Nat
  ifc : Nat
  listen : Bool
  boot : Bool
  rstrsn : Nat
  weight : Nat
  jobkey : Nat
  cfgAddr : BitVec 128
  cfgStrm : Nat
  peerAddr : BitVec 128
  peerStrm : Nat
  cmdcred : Nat
  seed : Word
  txinit : Nat
  txnext : Nat
  txcum : Nat
  txmsn : Nat
  peerclim : Nat
  rxinit : Nat
  rxcum : Nat
  rxmsn : Nat
  ownclim : Nat
  rtocur : Nat
  expiries : Nat
  crstate : Nat
  rxsack : BitVec 128
  posted : List Posted
  txmsgs : Nat
  rxmsgs : Nat
  retxpkts : Nat
  errcnt : Nat
  admmax : Nat
  unacked : List TxPkt
  txq : List OutMsg
  rx : List RxMsg
  inbox : List (Nat × List Byte)
  busy : Nat
  ackCount : Nat
  ackSince : Option Nat
  ctlSent : Option Nat
  blockedAt : Nat
  failedAt : Option Nat
  closing : Option (Nat × Nat)   -- stream and CTAG of the STREAM_CLOSE awaiting completion
  resend : List Nat
  resv : Nat   -- response-pool bytes reserved by commands in process (R378)
deriving DecidableEq, Repr

/-- An unconfigured context. -/
def Ctx.empty : Ctx :=
  { typ := 0, tstate := 0, prio := 0, ifc := 0, listen := false, boot := false, rstrsn := 0, weight := 0, jobkey := 0,
    cfgAddr := 0, cfgStrm := 0, peerAddr := 0, peerStrm := 0, cmdcred := 0, seed := 0, txinit := 0, txnext := 0,
    txcum := 0, txmsn := 0, peerclim := 0, rxinit := 0, rxcum := 0, rxmsn := 0, ownclim := 0, rtocur := 0,
    expiries := 0, crstate := 0, rxsack := 0, posted := [], txmsgs := 0, rxmsgs := 0, retxpkts := 0, errcnt := 0,
    admmax := 0, unacked := [], txq := [], rx := [], inbox := [], busy := 0, ackCount := 0, ackSince := none,
    ctlSent := none, blockedAt := 0, failedAt := none, closing := none, resend := [], resv := 0 }

/-- The context of stream `n` at compute reset: a listening command stream for the boot streams (R365). -/
def Ctx.reset (n : Nat) : Ctx :=
  if n < 4 then
    { Ctx.empty with
      typ := 1, tstate := 1, prio := 7, ifc := n, listen := true, boot := true, weight := 1, cmdcred := 16,
      ownclim := 16 }
  else Ctx.empty

/-- An interface (R326–R334, R340, R375): when its bring-up started, the end of duplicate address detection, the echo
and RST budgets of the present second, the strict bucket, the control packets waiting, and turn pointers of the
scheduler, `strict7` and `strictLast` those of classes 7 and 6 (R374). -/
structure Ifc where
  up : Bool
  bringAt : Option Nat
  dadUntil : Option Nat
  echoSec : Nat
  echoCnt : Nat
  rstSec : Nat
  rstCnt : Nat
  bucket : Nat
  bucketAt : Nat
  ctrl : List (BitVec 128 × Pkt)
  strict7 : Nat
  strictLast : Nat
  deficit : Tab Nat
  strmDeficit : Tab Nat
  drrClass : Nat
  drrStrm : Tab Nat
  relayTurn : Bool
deriving DecidableEq, Repr

/-- An interface that is down. -/
def Ifc.reset : Ifc := ⟨false, none, none, 0, 0, 0, 0, 0, 0, [], 0, 0, [], [], 0, [], false⟩

/-- A neighbour cache entry (R334): the address, the MAC and port once resolved, attempts made, and the time of the
last attempt or of resolution. -/
structure Nbr where
  ifc : Nat
  addr : BitVec 128
  mac : Option Nat
  port : Nat
  tries : Nat
  at_ : Nat
deriving DecidableEq, Repr

/-- An accepted image (R139, R140): its base in 64-byte units and the header fields a run needs. -/
structure Img where
  base : Nat
  bytes : Nat
  codeOff : Nat
  codeBytes : Nat
  heatOff : Nat
  heatCount : Nat
  constOff : Nat
  constBytes : Nat
  reqmask : BitVec 160
  digest : BitVec 512
deriving DecidableEq, Repr

/-- A host Crucible command waiting in Tongs for queue H (R285). -/
structure HostCruc where
  stk : Nat
  strm : Nat
  ctag : Nat
  desc : BitVec 512
deriving DecidableEq, Repr

/-- A cached context (R369, R372): the stream, when it was admitted, whether it has sent or received since. -/
structure Cached where
  strm : Nat
  since : Nat
  acted : Bool
deriving DecidableEq, Repr

/-- Tongs beside its CSRs. `wire`: frames sent, oldest first. `cache` runs from least to most recently used. `dropped`: frames
dropped and counted at each interface (R264, R334, R335), `spoilt`: frames ended with an invalid FCS (R264); no register shows
either. -/
structure Tongs where
  ctx : Tab Ctx
  ifc : Tab Ifc
  nbr : List Nbr
  nq : List NOp
  nextNop : Nat
  images : List Img
  hostCruc : List HostCruc
  cache : List Cached
  pinned : List Nat
  pinWait : List Nat
  admq : List (Nat × Nat)
  held : List (Nat × BitVec 128 × Pkt)
  relay : Tab (List Frame)
  push : List (Nat × List Byte × Nat)
  wire : List Frame
  dropped : Tab Nat
  spoilt : Tab Nat
deriving DecidableEq, Repr

/-- Tongs at compute reset. -/
def Tongs.reset : Tongs :=
  { ctx := [], ifc := [], nbr := [], nq := [], nextNop := 0, images := [], hostCruc := [], cache := [], pinned := [],
    pinWait := [], admq := [], held := [], relay := [], push := [], wire := [], dropped := [], spoilt := [] }

/-! ### Trace and snapshots (R627–R634) -/

/-- The Hammer trace buffer beside its CSRs (R634): the entries, oldest first, and how many followed the trigger. -/
structure HTrace where
  ents : List Word
  after : Nat
deriving DecidableEq, Repr

/-- A snapshot launched and not yet captured (R627): sources, tag, job and position, and the unskipped cycle of its
request. -/
structure SnapReq where
  src : Nat
  tag : Nat
  job : Nat
  pos : Nat
  at_ : Nat
deriving DecidableEq, Repr

/-! ### Temper (R402–R439) -/

/-- A power record (R219, R431). -/
structure Rec where
  p : Nat
  tl : Nat
  n : Nat
  uacc : Nat
  eacc : FVal
  nacc : Nat
deriving DecidableEq, Repr

/-- A stored PACE value of a peer stream (R361, R434, R436). -/
structure Pace where
  k : Nat
  h : Nat
  flags : Nat
  at_ : Nat
deriving DecidableEq, Repr

/-- Temper beside its CSRs. `rel`: when compute reset was released; `ivNext`: when the next interval starts (R402);
`dieSeen`, `vinSeen`: the samples of the diodes and of VIN48 taken so far (R409, R416); `lim`: the limiting source sampled
with C (R414); `gone`: per class, what cleared counters had counted (R406). `vset`, `vgoal`: the regulator's setpoint at time
`slewAt` and where it slews to, in µV; `lowerAt`: the start of the last lowering transition (R424); `reqOp`, `reqHint`:
requests that take effect at the next interval (R421); `cnt`, `hcnt`: class totals at the last interval end and at the last
sample of the running heat; `passed`, `slots`: passed and all pulse positions at the start of the present interval; `uvar`:
dynamic energy of the running heat execution (R431); `pure`, `pure7`: whether the present interval, and the one before it,
ran wholly at OP7 without a stretched position (R437), `agedAt`: the time of the last evaluation, `trimNext`: TRIM from the
next interval; `pubs`: the time of each published cap's last publication, `stale`: those that are stale (R417);
`calTick`: the management tick of the last calibration (R410). -/
structure Temper where
  rel : Nat
  ivNext : Nat
  dieSeen : Nat
  vinSeen : Nat
  lim : Nat
  gone : Tab Nat
  recs : Tab Rec
  vset : Nat
  vgoal : Nat
  slewAt : Nat
  lowerAt : Option Nat
  hint : Nat
  reqOp : Nat
  reqHint : Nat
  cnt : Tab Nat
  hcnt : Tab Nat
  pvar : FVal
  passed : Nat
  slots : Nat
  uvar : FVal
  heatOp : Nat
  die : Int
  unmet : Bool
  pure : Bool
  pure7 : Bool
  agedAt : Nat
  trimNext : Option Nat
  pubs : Tab Nat
  stale : List Nat
  recC : Nat
  recLimit : Nat
  calTick : Nat
  calTicks : Nat
  overTicks : Nat
  pestSum : FVal
  pestN : Nat
  pace : Tab (Option Pace)
  sent : Option (Nat × Nat)
  paceSeq : Nat
deriving DecidableEq, Repr

/-- Temper at compute reset: OP0, k 1 (R439). -/
def Temper.reset : Temper :=
  { rel := 0, ivNext := 0, dieSeen := 0, vinSeen := 0, lim := 0, gone := [], recs := [], vset := 650000, vgoal := 650000
    slewAt := 0, lowerAt := none, hint := 0, reqOp := 0, reqHint := 0, cnt := [], hcnt := [], pvar := .fin false 0 0, passed := 0, slots := 0
    uvar := .fin false 0 0, heatOp := 0, die := 2500, unmet := false, pure := false, pure7 := false, agedAt := 0, trimNext := none
    pubs := [], stale := [], recC := 800, recLimit := 0, calTick := 0, calTicks := 0, overTicks := 0, pestSum := .fin false 0 0
    pestN := 0, pace := [], sent := none, paceSeq := 0 }

end Sys2Proof.Machine
end

