-- ==== Sys2Proof/Machine/Plane.lean ====
section
/-! DEFINITION. The state of the management plane that is not held in CSR words: cooling, Quench, Tuyere, the CAN FD
controller, the management port, supply and bring-up, the security block, the TAP. Each structure names the rules that
give its contents. Times are in ns unless a field says otherwise. -/

namespace Sys2Proof.Machine

/-! ### Cooling (R440–R478) -/

/-- The governing readings of a tick as R578 packs them, with the operating time of that tick. -/
structure Reading where
  hours : Nat
  p0 : Nat
  p1 : Nat
  p2 : Nat
deriving DecidableEq, Repr

/-- A spin-up kick (R468): its start, and whether the present attempt drives full duty. -/
structure Kick where
  start : Nat
  on : Bool
deriving DecidableEq, Repr

/-- A tachometer loss (R470): when, branch flow and source temperature then, whether it has been classed. -/
structure TachEv where
  at_ : Nat
  flow : Nat
  temp : Int
  classed : Bool
deriving DecidableEq, Repr

/-- What is known of a module on the board (R472): candidacy, health and claim of its last LOOP message, whether one came
in the present period, periods heard and missed in a row, and the time of its last claim. -/
structure Peer where
  cand : Bool
  healthy : Bool
  flow : Nat
  fresh : Bool
  heard : Nat
  missed : Nat
  claimAt : Option Nat
deriving DecidableEq, Repr

/-- A module never heard. -/
def Peer.none : Peer := ⟨false, false, 0, false, 0, 0, Option.none⟩

/-- A condition an ALERT reports (R549, R550): kind, leak loop or channel, the code of its action record and that record's
number once written, whether it still stands. -/
structure Alert where
  kind : Nat
  idx : Nat
  code : Nat
  seq : Option Nat
  stands : Bool
deriving DecidableEq, Repr

/-- The cooling plane beside its CSRs. `tdie`, `tstk`: hottest
non-suspect die and hottest stack, kept while compute is down (R445); `dieSus`: suspect diodes (R448); `tin`, `tout`:
effective inlet and outlet; `dp`: ΔP in 0.1 kPa (R443), the pressures may differ either way; `flow100`: branch flow of the
last 100 ticks (R451); `plag`, `theta`, `thetas`, `thermal`: R452; `facility`: the FACILITY value Bellows holds and
publishes (R413); `armed`: the fast path (R453); `throttleAt`: first assertion of the present THROTTLE; `byFlow`: a flow
trigger asserted it (R451), `trigAt`: the time of the last one (R454); `kaAt`:
last keep-alive; `th`, `thz`: hysteresis temperatures of channels and zones (R465, R466); `kicks`, `tach`; `driven`:
channels whose output is not released; `offs`: Quench offsets (R487); `peers`; `loopSent`; `shdn`, `shdnExt`: SHDN_N driven by the module, held from outside (R459); `last`: readings of the last tick;
`alerts`: what the module's ALERT frames report; `tick`: the last management tick done (R36). -/
structure Cool where
  tdie : Int
  tstk : Int
  dieSus : List Nat
  tin : Int
  tout : Int
  dp : Int
  flow100 : List Nat
  plag : FVal
  theta : FVal
  thetas : FVal
  thermal : Nat
  facility : Nat
  armed : Bool
  throttleAt : Option Nat
  byFlow : Bool
  trigAt : Nat
  kaAt : Nat
  th : Tab Int
  thz : Tab Int
  kicks : Tab (Option Kick)
  tach : Tab (Option TachEv)
  driven : List Nat
  offs : Tab Int
  peers : Tab Peer
  loopSent : Nat
  shdn : Bool
  shdnExt : Bool
  last : Reading
  alerts : List Alert
  tick : Nat
deriving DecidableEq, Repr

/-- Cooling at module reset (R452). -/
def Cool.reset (hours kaAt : Nat) : Cool :=
  { tdie := 2500, tstk := 2500, dieSus := [], tin := 2500, tout := 2500, dp := 0, flow100 := [], plag := .fin false 0 0
    theta := fp32.decode 0x3CB43958, thetas := fp32.decode 0x3C9374BC, thermal := 800, facility := 800, armed := false
    throttleAt := none, byFlow := false, trigAt := 0, kaAt := kaAt, th := [], thz := [], kicks := [], tach := []
    driven := [], offs := [], peers := [], loopSent := 0, shdn := false, shdnExt := false, last := ⟨hours, 0, 0, 0⟩
    alerts := [], tick := 0 }

/-! ### Quench (R479–R502); times in µs -/

/-- A loop beside its CSRs. `next`: its next sample instant; `wait`: armed, `next` is its t0 (R492); `due`: the output
computed and its instant (R481); `mem`: the repetitive memory (R496); `edges`: N_meas of each beacon edge since the last
sample, absent where no interval ends with it, `since`: samples since the last edge, `lastN`: N_meas of the last interval
while it was regular (R498); `osc`: sample numbers of the half-cycles counted, `side`: the side of the last excursion,
`count`: samples taken (R494); `shadow`: the coefficient words in use where a later write awaits COMMIT, `commit`: when
COMMIT was written (R493); `prim`, `backup`: a switch of sets at the next sample; `sp`: the time of the last setpoint
write and the setpoint before it (R482). -/
structure QLoop where
  next : Nat
  wait : Bool
  due : Option (Nat × Int)
  mem : Tab Int
  edges : List (Option Nat)
  since : Nat
  lastN : Option Nat
  osc : List Nat
  side : Int
  count : Nat
  shadow : Tab (Option Word)
  commit : Option Nat
  prim : Bool
  backup : Bool
  sp : Option (Nat × Word)
deriving DecidableEq, Repr

/-- A loop that is off. -/
def QLoop.off : QLoop :=
  { next := 0, wait := false, due := none, mem := [], edges := [], since := 0, lastN := none, osc := [], side := 0
    count := 0, shadow := [], commit := none, prim := false, backup := false, sp := none }

/-- A trace channel (R499, R500): entries (time, value) oldest first, samples since the last recorded, entries since the
trigger. -/
structure QChan where
  ents : List (Nat × Nat)
  dec : Nat
  after : Nat
deriving DecidableEq, Repr

/-- Quench beside its CSRs. `edge`: time of the last beacon edge; `level`: the last value of trace channel 0. -/
structure Quench where
  loops : Tab QLoop
  chans : Tab QChan
  edge : Option Nat
  level : Option Int
deriving DecidableEq, Repr

/-- Quench at module reset. -/
def Quench.reset : Quench := ⟨[], [], none, none⟩

/-! ### Tuyere (R503–R528) -/

/-- A valve channel beside its CSRs. `want`: the command obeyed is OPEN (R511); `since`: entry into the present state;
`reqAt`: when it asked for the high side (R517); `start`: entry to BOOST or PEAK; `peakAt`: IPEAK first reached; `hold`: it
keeps its current in WAIT (R513); `bwait`: end of the boost wait, `noBoost`: PEAK runs from VVALVE alone (R508); `aborts`:
consecutive, `abortAt`: the last (R509); `duty`: latest from Quench, `acc` in µs, `evOn`, `evStart`, `evEnd`: the running
event (R515); `onAt`: energised since, `runs`: energised intervals, newest first (R519); `tc`: coil temperature, `warm`,
`hot`: its two hysteresis states (R520); `missed`: the last checked release showed no motion; `kchk`: the present closing is
checked (R518); `reopen`: an OPEN came in CLOSING (R513); `limited`: the duty window is at its limit (R519); `forced`: an
event of this period was refused or delayed (R512); `seen`: this period's slot has passed (R515); `step`: the 10 ms step in which the model ran last (R520). -/
structure Valve where
  want : Bool
  since : Nat
  reqAt : Option Nat
  start : Nat
  peakAt : Option Nat
  hold : Bool
  bwait : Option Nat
  noBoost : Bool
  aborts : Nat
  abortAt : Option Nat
  duty : Nat
  acc : Int
  evOn : Bool
  evStart : Nat
  evEnd : Nat
  onAt : Option Nat
  runs : List (Nat × Nat)
  tc : FVal
  warm : Bool
  hot : Bool
  missed : Bool
  kchk : Bool
  reopen : Bool
  limited : Bool
  forced : Bool
  seen : Bool
  step : Nat
deriving DecidableEq, Repr

/-- A channel at module reset; its coil starts at the 25 °C that the inputs are taken to read then (assumption log 13). -/
def Valve.reset : Valve :=
  { want := false, since := 0, reqAt := none, start := 0, peakAt := none, hold := false, bwait := none, noBoost := false
    aborts := 0, abortAt := none, duty := 0, acc := 0, evOn := false, evStart := 0, evEnd := 0, onAt := none, runs := []
    tc := .fin false 25 0, warm := false, hot := false, missed := false, kchk := false, reopen := false, limited := false
    forced := false, seen := false, step := 0 }

/-- An isolation of the branch (R523): its begin, X0's kink, X1's release. -/
structure Iso where
  at_ : Nat
  kinkAt : Option Nat
  x1At : Option Nat
deriving DecidableEq, Repr

/-- Tuyere beside its CSRs. `holder`: the channel that has each bank's high side; `period`: each bank's period start;
`low`: VVALVE lost (R524); `iso`: the last isolation; `seq`: X0 waits for X1 to reach HOLD (R522). -/
structure Tuyere where
  valves : Tab Valve
  holder : Tab (Option Nat)
  period : Tab Nat
  low : Bool
  iso : Option Iso
  seq : Bool
deriving DecidableEq, Repr

/-- Tuyere at module reset. -/
def Tuyere.reset : Tuyere := ⟨[], [], [], false, none, false⟩

/-! ### CAN FD (R529–R550) -/

/-- The controller beside its CSRs; the frame each attempt copies is the buffer itself (writes to a pending buffer are
ignored, R539). `cancelling`: buffers whose running attempt is not retried (R540); `offer`: the buffer an attempt has
taken; `lastRef`: time of the last reference message sent or received, or of TTEN, `refSeen`: one was received or sent;
`cycleAt`: start of the present basic cycle; `win`: the open window (trigger index, start, end); `back`: a reference
message came in EVENT (R547); `rejoin`: recovery from bus-off is allowed under BOMAN (R541); `wire`: frames sent. -/
structure Can where
  cancelling : List Nat
  offer : Option Nat
  lastRef : Nat
  refSeen : Bool
  cycleAt : Nat
  win : Option (Nat × Nat × Nat)
  back : Bool
  rejoin : Bool
  wire : List CanFrame
deriving DecidableEq, Repr

/-- The controller at module reset. -/
def Can.reset : Can := ⟨[], none, 0, false, 0, none, false, false, []⟩

/-! ### The management port (R551–R559) -/

/-- A response or notification sent (R554): destination, command, flags, status, sequence number, payload, the UDP port it goes to
and the tag of its frame. -/
structure Reply where
  dst : BitVec 128
  cmd : Nat
  flags : Nat
  status : Nat
  seq : Nat
  pay : List Byte
  dport : Nat
  vid : Option Nat
deriving DecidableEq, Repr

/-- An outstanding notification (R559): its number, BIC source, priority, overflow flag, event sequence number, when it was
raised and when last sent (none: not yet). -/
structure Ntf where
  seq : Nat
  src : Nat
  prio : Nat
  ovf : Bool
  evt : Nat
  raised : Nat
  sent : Option Nat
deriving DecidableEq, Repr

/-- What is kept for one requester (R555): the address (or allow-list entry as an address), the last 16 responses, oldest
first. -/
structure Seen where
  src : BitVec 128
  resp : List Reply
deriving DecidableEq, Repr

/-- The port beside its CSRs. `seen`: from least to most recently heard; `lastSrc`: source of the last request accepted
(R559); `merge`: a notification was merged, so the next carries the overflow flag. -/
structure Mgmt where
  seen : List Seen
  lastSrc : Option (BitVec 128)
  wire : List Reply
  ntf : List Ntf
  ntfSeq : Nat
  merge : Bool
  ifc : Ifc
  frames : List Frame
  dropped : Nat
deriving DecidableEq, Repr

/-- The port at module reset. -/
def Mgmt.reset : Mgmt := ⟨[], none, [], [], 0, false, Ifc.reset, [], 0⟩

/-! ### Supply, reset and bring-up (R584–R602, R635–R654) -/

/-- Supply and bring-up beside their CSRs. `mate`: MATE_N connects VSB12 (R642); `alive`: Bellows runs (cold reset
released); `step`: the bring-up step in progress, 10 once ACTIVE, 0 while nothing runs; `stepAt`; `keep`: the reset in
progress keeps HBM, `stop`: bring-up stopped at its step (R598); `pcyc`: VSB12 power-ups (R573);
`loss`: VSB12 was lost since the last boot (R587); `norSeq`: last sequence number in
NOR; `slotId`, `tcrit`: straps; `pll`: ROOT locked; `vinBad`: VIN48 is out of range (R586), `vinLow`,
`vsbLow`: SAG_WARN and the VSB12 warning hold; `bootAt`: last module
reset; `modAt`: a scheduled module reset and its cause (R594); `hearth`: the Hearths whose
reset was requested and has not begun. -/
structure Pwr where
  mate : Bool
  alive : Bool
  step : Nat
  stepAt : Nat
  keep : Bool
  stop : Bool
  pcyc : Nat
  loss : Bool
  norSeq : Option Nat
  slotId : Nat
  tcrit : Nat
  pll : Bool
  vinBad : Bool
  vinLow : Bool
  vsbLow : Bool
  bootAt : Nat
  modAt : Option (Nat × Nat)
  hearth : List Nat
deriving DecidableEq, Repr

/-- Right after cold reset: the ROM is about to run (R598 step 2); slot 0 and TCRIT_SEL 0 are assumption log 14. -/
def Pwr.reset : Pwr :=
  { mate := true, alive := true, step := 2, stepAt := 0, keep := false, stop := false, pcyc := 1, loss := false, norSeq := none
    slotId := 0, tcrit := 0, pll := false, vinBad := false, vinLow := false, vsbLow := false, bootAt := 0, modAt := none, hearth := [] }

/-! ### Security (R603–R623) -/

/-- A firmware slot in NOR (R607): its bytes where they differ from 0xFF, whether BEGIN or a failed END has marked it
invalid, whether the ROM has rejected it. -/
structure FwSlot where
  bytes : Tab Byte
  invalid : Bool
  rejected : Bool
deriving DecidableEq, Repr

/-- An update in force (R611): the requester that holds it, its last request, the slot written and the image's length. -/
structure Update where
  src : BitVec 128
  at_ : Nat
  slot : Nat
  len : Nat
deriving DecidableEq, Repr

/-- The security block: OTP (owner digest burned, CLAIMED, counters), NOR (slots, the trial slot and its TRIES, the owner's
key, the stored configuration record and CFGSEQ), the running slot, the update in force, the slot whose END succeeded, the
slot whose firmware let the watchdog expire (R610). -/
structure Sec where
  ownerh : BitVec 512
  claimed : Bool
  cnt : Tab Nat
  slotA : FwSlot
  slotB : FwSlot
  trial : Option Nat
  tries : Nat
  running : Option Nat
  update : Option Update
  staged : Option Nat
  ownerKey : List Byte
  config : List Byte
  cfgSeq : Nat
  watchdog : Option Nat
deriving DecidableEq, Repr

/-- An empty slot. -/
def FwSlot.empty : FwSlot := ⟨[], false, false⟩

/-- An unclaimed device without firmware (assumption log 15). -/
def Sec.reset : Sec :=
  { ownerh := 0, claimed := false, cnt := [], slotA := FwSlot.empty, slotB := FwSlot.empty, trial := none, tries := 0
    running := none, update := none, staged := none, ownerKey := [], config := [], cfgSeq := 0, watchdog := none }

/-! ### The TAP (R635–R638) -/

/-- The TAP: the instruction in force, what its data register captured, the boundary register as shifted in. The order of
the boundary bits is the model's (assumption log 20): SLOT_ID 0–2, TCRIT_SEL 0–1, SHDN_N, PWM outputs F0–F3,
tachometers F0–F3, MDC, MDIO. -/
structure Jtag where
  ir : Nat
  dr : Nat
  boundary : Nat
deriving DecidableEq, Repr

/-- Test-logic reset (R635): IDCODE. -/
def Jtag.reset : Jtag := ⟨1, 0x1AC209B3, 0⟩

end Sys2Proof.Machine
end

