-- ==== Sys2Proof/Machine/State.lean ====
section
/-! DEFINITION. The state of the device as plain data: CSR words, memory with its stored errors, the blocks, and the
queue of waiting commands. -/

namespace Sys2Proof.Machine

/-- Why the machine stops. -/
inductive Fault where
  /-- An access to an address the spec gives no meaning in a place where no outcome is defined. Raised by nothing at
  present; kept so that the type is inhabited. Safe. -/
  | noSuchAddress (a : Nat)
deriving DecidableEq, Repr

/-- Why a command has no meaning here. -/
inductive Refusal where
  /-- The command's row has no meaning in this model. Raised only by an arm of `exec` that is not written. Safe. -/
  | notModelled (mnemonic : String)
deriving DecidableEq, Repr

/-- The state. `csr` holds every CSR word that differs from its reset value, by address; `mem` every byte of HBM (at
its stack-linear address) and of the stores that differs from 0; `errs` the code units that carry a correctable (1) or
uncorrectable (2) error, with the bits that have flipped above the class (R267, R268); `transit` the units whose next write
fails its check (R264); `wb` the units awaiting write-back; `now` the time in nanoseconds since reset; `free` the
count of free values used; `core` the CORE pulse gate (R403);
`mclk` the MGMT cycles since module reset (R35), in 1/20 cycle; `shadow` the snapshot shadows by address (R631); `holds` the Anvils
to be held faulted with the reason (0 self-test, 1 errors, 2 request), `fenceReq` the stacks whose fence is due, with the cause (3 errors, 4 request). -/
structure State where
  csr : Tab Word
  mem : List Host.Cell
  errs : Tab Nat
  transit : List Nat
  wb : List Nat
  now : Nat
  free : Nat
  hammer : Hammer
  anvils : Tab Anvil
  xq : Tab (List XOp)
  crucs : Tab Cruc
  tongs : Tongs
  jobs : Tab (Option Job)
  ueTimes : Tab (List Nat)
  holds : List (Nat × Nat)
  fenceReq : List (Nat × Nat)
  evrec : Evrec
  srcs : Tab Src
  grps : Tab Grp
  cores : Tab CoreIrq
  temper : Temper
  core : Pulse
  mclk : Nat
  trace : HTrace
  snapReq : Option SnapReq
  shadow : Tab Word
  cool : Cool
  quench : Quench
  tuyere : Tuyere
  can : Can
  mgmt : Mgmt
  pwr : Pwr
  secb : Sec
  jtag : Jtag
  pending : List Instr
deriving DecidableEq, Repr

/-- The device right after reset (R593: cold reset), with no command waiting. -/
def State.reset : State where
  csr := []
  mem := []
  errs := []
  transit := []
  wb := []
  now := 0
  free := 0
  hammer := Hammer.reset
  anvils := []
  xq := []
  crucs := []
  tongs := Tongs.reset
  jobs := []
  ueTimes := []
  holds := []
  fenceReq := []
  evrec := ⟨[], [], [], none, none, []⟩
  srcs := []
  grps := []
  cores := []
  temper := Temper.reset
  core := Pulse.reset
  mclk := 0
  trace := ⟨[], 0⟩
  snapReq := none
  shadow := []
  cool := Cool.reset 0 0
  quench := Quench.reset
  tuyere := Tuyere.reset
  can := Can.reset
  mgmt := Mgmt.reset
  pwr := Pwr.reset
  secb := Sec.reset
  jtag := Jtag.reset
  pending := []

end Sys2Proof.Machine
end

