-- ==== Sys2Proof/Machine/Ops.lean ====
section
/-! DEFINITION. The named operations over CSRs, memory, stored errors, event records and interrupt sources that every
meaning goes through. -/

namespace Sys2Proof.Machine

/-- The outcome of a command. -/
abbrev Out := Host.Outcome State Fault Refusal

/-! ### CSR words and fields -/

/-- The word of the register at an address. -/
def State.rd (s : State) (a : Nat) : Word := Tab.get regReset s.csr a

/-- The register at an address now holds `w`. -/
def State.wr (s : State) (a : Nat) (w : Word) : State := { s with csr := Tab.set regReset s.csr a w }

/-- A field's value. -/
def State.get (s : State) (f : Fd) : Nat := bitsOf (s.rd f.addr).toNat f.hi f.lo

/-- A word with bits `hi` to `lo` replaced by `v`, cut to their width. -/
def setBits (w : Word) (hi lo v : Nat) : Word :=
  let n := w.toNat
  let m := 2 ^ (hi + 1 - lo)
  BitVec.ofNat 64 (n - n / 2 ^ lo % m * 2 ^ lo + v % m * 2 ^ lo)

/-- A field now holds `v`. -/
def State.put (s : State) (f : Fd) (v : Nat) : State := s.wr f.addr (setBits (s.rd f.addr) f.hi f.lo v)

/-- One field of a word after a write (R14, R17). -/
def FieldSpec.write (f : FieldSpec) (lock : Bool) (old w new : Word) : Word :=
  let o := bitsOf old.toNat f.hi f.lo
  let n := bitsOf w.toNat f.hi f.lo
  let ok : Bool := f.min ≤ n && n ≤ f.max
  match f.acc with
  | .rw => if ok then setBits new f.hi f.lo n else new
  | .rwl => if ok && !lock then setBits new f.hi f.lo n else new
  | .w1c => setBits new f.hi f.lo (o - Nat.land o n)
  | _ => new

/-- A counter field rises by `n` and saturates at its maximum. -/
def State.add (s : State) (f : Fd) (n : Nat) : State :=
  s.put f (min (s.get f + n) (2 ^ (f.hi + 1 - f.lo) - 1))

/-- A counter field rises by 1 and saturates. -/
def State.inc (s : State) (f : Fd) : State := s.add f 1

/-- A one-bit field as a truth value. -/
def State.on (s : State) (f : Fd) : Bool := s.get f == 1

/-- A one-bit field set to a truth value. -/
def State.putB (s : State) (f : Fd) (b : Bool) : State := s.put f (if b then 1 else 0)

/-- A fresh free value below `n` (assumption log 6). -/
def State.fresh (s : State) (n : Nat) : Nat × State := (Config.freeValue s.free % n, { s with free := s.free + 1 })

/-- A microsecond in nanoseconds. -/
def us : Nat := 1000
/-- A millisecond. -/
def ms : Nat := 1000000
/-- A second. -/
def sec : Nat := 1000000000

/-! ### Addresses (R245–R248) -/

/-- A region of the address map that holds memory, with its unit and the offset in it. -/
inductive Region where
  | hbm (s off : Nat)
  | ctx (s off : Nat)
  | hearth (h off : Nat)
  | anvil (g off : Nat)
  | hammer (off : Nat)
  | csr (main : Bool)
  | none
deriving DecidableEq, Repr

/-- Stack and offset of an interleaved address (R248). -/
def interleave (x : Nat) : Nat × Nat :=
  let g := x / 4096
  let q := g / 20
  ((g % 20 + q) % 20, q * 4096 + x % 4096)

/-- The region an address lies in (R245). The stack-linear bytes that carry the Tongs context region are its part of
the top 1 MiB of each stack (R246). -/
def region (a : Nat) : Region :=
  if a < 0x13FFF000000 then let p := interleave a; .hbm p.1 p.2
  else if a < 0x14000000000 then let p := interleave a; .ctx p.1 p.2
  else if 0x100000000000 ≤ a ∧ a < 0x100000000000 + 20 * 0x1000000000 then
    let s := (a - 0x100000000000) / 0x1000000000
    let off := (a - 0x100000000000) % 0x1000000000
    -- the granule's place in the interleaved view: q, and r with (r + q) mod 20 = s
    let q := off / 4096
    let r := (s + 20 - q % 20) % 20
    if (q * 20 + r) * 4096 < 0x13FFF000000 then .hbm s off else .ctx s off
  else if 0x200000000000 ≤ a ∧ a < 0x200000000000 + 10 * 0x1000000 then
    .hearth ((a - 0x200000000000) / 0x1000000) ((a - 0x200000000000) % 0x1000000)
  else if 0x210000000000 ≤ a ∧ a < 0x210000000000 + 160 * 0x200000 then
    .anvil ((a - 0x210000000000) / 0x200000) ((a - 0x210000000000) % 0x200000)
  else if 0x220000000000 ≤ a ∧ a < 0x220000800000 then .hammer (a - 0x220000000000)
  else if 0x300000000000 ≤ a ∧ a < 0x300002000000 then .csr true
  else if 0x380000000000 ≤ a ∧ a < 0x380000080000 then .csr false
  else .none

/-- The key under which the byte at an address is kept: both HBM views name the same bytes (R247). -/
def phys (a : Nat) : Nat :=
  if a < 0x14000000000 then let p := interleave a; 0x100000000000 + p.1 * 0x1000000000 + p.2 else a

/-- First byte address of a Hearth store, an Anvil store, a stack's linear view. -/
def hearthBase (h : Nat) : Nat := 0x200000000000 + h * 0x1000000
def anvilBase (g : Nat) : Nat := 0x210000000000 + g * 0x200000
def stackBase (s : Nat) : Nat := 0x100000000000 + s * 0x1000000000
/-- First byte address of the Hammer store. -/
def hammerBase : Nat := 0x220000000000

/-- The row of R245's table an address lies in, and which of its regions: the interleaved view, the context region, each
stack-linear view, each store, each window. -/
def viewOf (a : Nat) : Nat × Nat :=
  match region a with
  | .hbm k _ => if a < 0x14000000000 then (0, 0) else (2, k)
  | .ctx k _ => if a < 0x14000000000 then (1, 0) else (2, k)
  | .hearth h _ => (3, h)
  | .anvil g _ => (4, g)
  | .hammer _ => (5, 0)
  | .csr main => (6, if main then 0 else 1)
  | .none => (7, 0)

/-- Whether power domain `d` is on (R589, R602). -/
def State.domOn (s : State) (d : Nat) : Bool :=
  if d < 192 then (s.rd (BELLOWS_PDSTAT (d / 64))).getLsbD (d % 64) else (s.rd BELLOWS_PDSTAT3).getLsbD (d - 192)

/-- Power domain `d` switched on or off. -/
def State.setDom (s : State) (d : Nat) (b : Bool) : State :=
  if d < 192 then s.putB ⟨BELLOWS_PDSTAT (d / 64), d % 64, d % 64⟩ b else s.putB ⟨BELLOWS_PDSTAT3, d - 192, d - 192⟩ b

/-- Time never runs back: an event at `t` nanoseconds. The CORE pulse gate runs while the Hammer domain is on (R403,
R404). MGMT runs at 100 MHz from ROOT, else at 50 MHz (R31, R35). -/
def State.at (s : State) (t : Nat) : State :=
  let dt := t - s.now
  let m := s.mclk + (if s.pwr.pll then 2 * dt else dt)
  if s.domOn 192 then { s with now := max s.now t, mclk := m, core := s.core.until (16 * max s.now t) }
  else { s with now := max s.now t, mclk := m }

/-- Management ticks since module reset: one a millisecond (R36). -/
def State.tickNo (s : State) : Nat := (s.now - s.pwr.bootAt) / ms

/-- Unskipped CORE cycles since compute reset: the positions passed. -/
def State.cyc (s : State) : Nat := s.core.passed

/-- Whether the present pulse frame is open: X and N operations, Crucible commands and jobs are taken in open frames alone
(R34, R405). -/
def State.frameOpen (s : State) : Bool := openFrame s.core.k (frameOf s.core.idx)

/-- Time passes until a pulse frame is open (R405). -/
def State.toOpenFrame (s : State) : State := if s.frameOpen then s else s.at s.core.opensAt

/-- Whether stack `k` has been withdrawn by a fence (R277). -/
def State.fenced (s : State) (k : Nat) : Bool := s.on (HEARTH_STKSTAT_FENCED k)

/-- Whether the memory behind a region may be accessed: the stack not withdrawn, the store's domains powered
(R277, R591). -/
def State.reachable (s : State) : Region → Bool
  | .hbm k _ => !s.fenced k && s.get (HEARTH_STKSTAT_STATE k) == 2
  | .ctx k _ => !s.fenced k
  | .hearth h _ => s.domOn (160 + h)
  | .anvil g _ => s.domOn g && s.domOn (160 + g / 16)
  | .hammer _ => s.domOn 192
  | .csr _ => true
  | .none => false

/-- The part of a range that lies in one 4 KiB granule at a time, as keys. -/
def segsGo : Nat → Nat → Nat → List (Nat × Nat)
  | 0, _, _ => []
  | f + 1, a, n =>
    if n = 0 then []
    else let l := min n (4096 - a % 4096); (phys a, l) :: segsGo f (a + l) (n - l)

/-- A byte range as runs of consecutive keys. Outside the interleaved view one run suffices. -/
def segs (a n : Nat) : List (Nat × Nat) := if a < 0x14000000000 then segsGo (n / 4096 + 2) a n else [(a, n)]

/-- Every granule of a range is reachable and lies in one region (R246). -/
def State.rangeOk (s : State) (a n : Nat) : Bool :=
  viewOf a == viewOf (a + n - 1) && (segs a n).all (fun p => s.reachable (region p.1) ) && s.reachable (region a)
    && s.reachable (region (a + n - 1))

/-! ### Memory -/

/-- A byte that nothing has written reads 0 (R281 for the stores; assumption log 4 for HBM). -/
def memDefault : Nat → Byte := fun _ => 0

/-- The memory's canonical form. -/
abbrev Memory.wf (m : List Host.Cell) : Bool := Tab.wf memDefault m

/-- The byte at an address. -/
def State.byte (s : State) (a : Nat) : Byte := Tab.get memDefault s.mem (phys a)

/-- `n` bytes from an address, least significant first, as a number. -/
def State.readN (s : State) (a : Nat) : Nat → Nat
  | 0 => 0
  | n + 1 => s.readN a n + (s.byte (a + n)).toNat * 2 ^ (8 * n)

/-- `n` bytes from an address. -/
def State.bytes (s : State) (a n : Nat) : List Byte := (List.range n).map (fun i => s.byte (a + i))

/-- One byte written, the stored errors left to `clearErrs`. -/
def State.setByte (s : State) (a : Nat) (b : Byte) : State := { s with mem := Tab.set memDefault s.mem (phys a) b }

/-- Bytes written in ascending order. -/
def State.setBytes (s : State) (a : Nat) : List Byte → State
  | [] => s
  | b :: r => State.setBytes (s.setByte a b) (a + 1) r

/-- The low `n` bytes of a number, least significant first. -/
def toBytes (n v : Nat) : List Byte := (List.range n).map (fun i => BitVec.ofNat 8 (v / 2 ^ (8 * i)))

/-- A number from bytes, least significant first. -/
def ofBytes : List Byte → Nat
  | [] => 0
  | b :: r => b.toNat + 256 * ofBytes r

/-- Bytes `o` to `o + n − 1` of a message as a number; absent bytes are 0. -/
def leAt (l : List Byte) (o n : Nat) : Nat := ofBytes ((l.drop o).take n)

/-! ### Stored errors (R267–R271) -/

/-- The code unit of a key: 32 bytes in HBM, 8 bytes in a store. -/
def unitOf (key : Nat) : Nat := if key < 0x200000000000 then key / 32 * 32 else key / 8 * 8

/-- Length of a code unit. -/
def unitLen (key : Nat) : Nat := if key < 0x200000000000 then 32 else 8

/-- No error. -/
def errDefault : Nat → Nat := fun _ => 0

/-- The class of a unit's stored error: 0 none, 1 correctable, 2 uncorrectable. -/
def errClass (e : Nat) : Nat := e % 4

/-- Units with an error of the kind (1 correctable, 2 uncorrectable) that a range touches, in key order of the
range's runs. -/
def State.errUnits (s : State) (kind a n : Nat) : List Nat :=
  (segs a n).flatMap (fun p =>
    (s.errs.filter (fun e => errClass e.2 == kind && p.1 < e.1 + unitLen e.1 && e.1 < p.1 + p.2)).map (·.1))

/-- The first uncorrectable unit a read of the range meets. -/
def State.ueIn (s : State) (a n : Nat) : Option Nat := (s.errUnits 2 a n).head?

/-- A write of the range replaces the units it touches: their errors are gone (R270), and a write-back waiting for
them is dropped (R269). -/
def State.clearErrs (s : State) (a n : Nat) : State :=
  let hit (k : Nat) : Bool := (segs a n).any (fun p => p.1 < k + unitLen k && k < p.1 + p.2)
  { s with errs := s.errs.filter (fun e => !hit e.1), wb := s.wb.filter (fun k => !hit k) }

/-- Bytes written with fresh codes. -/
def State.writeBytes (s : State) (a : Nat) (l : List Byte) : State := (s.setBytes a l).clearErrs a l.length

/-- The low `n` bytes of a number written with fresh codes. -/
def State.writeN (s : State) (a n v : Nat) : State := s.writeBytes a (toBytes n v)

/-- The error counter pair (UE, CE) of the unit that holds a key (R274), its source field (R574) and its BIC source
(R271). -/
def errHome (key : Nat) : Fd × Fd × Nat × Nat :=
  match region key with
  | .hearth h _ => (HEARTH_HSECNT_UE h, HEARTH_HSECNT_CE h, 3 * 256 + h, h)
  | .anvil g _ => (ANVIL_SECNT_UE g, ANVIL_SECNT_CE g, 4 * 256 + g, g / 16)
  | .hammer _ => (HAMMER_SECNT_UE, HAMMER_SECNT_CE, 0, 0)
  | .hbm k _ => (HEARTH_STKERR_UE k, HEARTH_STKERR_CE k, 3 * 256 + k / 2, k / 2)
  | .ctx k _ => (HEARTH_STKERR_UE k, HEARTH_STKERR_CE k, 3 * 256 + k / 2, k / 2)
  | _ => (HAMMER_SECNT_UE, HAMMER_SECNT_CE, 0, 0)

/-- Channel and pseudo-channel of a stack offset (R252): 0–63. -/
def pchOf (off : Nat) : Nat := off / 64 % 32 * 2 + off / 32 % 2

/-- Assemble a location word (R272). -/
def locMk (kind unit pch addr : Nat) : Word :=
  BitVec.ofNat 64 (kind * 2 ^ 60 + unit * 2 ^ 52 + pch * 2 ^ 46 + addr % 2 ^ 46)

/-- The location word of the code unit at a key (R272). -/
def locOf (key : Nat) : Word :=
  match region key with
  | .hbm k off => locMk 0 k (pchOf off) off
  | .ctx k off => locMk 0 k (pchOf off) off
  | .hearth h off => locMk 1 h 0 off
  | .anvil g off => locMk 2 g 0 off
  | .hammer off => locMk 3 0 0 off
  | _ => locMk 5 0 (if key ≥ 2 ^ 46 then 32 else 0) key

/-- The location word of a refused address (R272, KIND 5). -/
def locRefused (a : Nat) : Word := locMk 5 0 (if a ≥ 2 ^ 46 then 32 else 0) a

/-- The location word of a failed transit check at the unit with a key (R272, KIND 4). -/
def locTransit (key : Nat) : Word :=
  let (kind, unit) : Nat × Nat := match region key with
    | .hbm k _ => (0, k)
    | .ctx k _ => (0, k)
    | .hearth h _ => (1, h)
    | .anvil g _ => (2, g)
    | _ => (3, 0)
  locMk 4 unit (kind * 4) key

/-- Where a unit waits for write-back: its store, or its stack and pseudo-channel (R269). -/
def wbQueue (key : Nat) : Nat :=
  match region key with
  | .hbm k off => k * 64 + pchOf off
  | .ctx k off => k * 64 + pchOf off
  | .hearth h _ => 2000 + h
  | .anvil g _ => 3000 + g
  | _ => 4000

/-- One corrected read of a unit: counted, and queued for write-back where its queue of 16 has room (R269). -/
def State.correct (s : State) (key : Nat) : State :=
  let s := (s.inc (errHome key).2.1).put HAMMER_ERRSUM_MEMCE 1
  if s.wb.contains key ∨ (s.wb.filter (fun k => wbQueue k == wbQueue key)).length ≥ 16 then s
  else { s with wb := s.wb ++ [key] }

/-- A read of a range corrects what it can (R269). -/
def State.correctRange (s : State) (a n : Nat) : State := (s.errUnits 1 a n).foldl State.correct s

/-! ### Interrupt sources (R563–R572) -/

/-- A bit of TEN, PENDT or ACTIVE: 0 C0, 1 C1, 2 H, 3 RM. -/
def bit (n i : Nat) : Bool := n / 2 ^ i % 2 == 1

/-- A bit set. -/
def setBit (n i : Nat) (b : Bool) : Nat := n - (if bit n i then 2 ^ i else 0) + (if b then 2 ^ i else 0)

/-- A stream's context. -/
def State.ctx (s : State) (n : Nat) : Ctx := Tab.get Ctx.reset s.tongs.ctx n

/-- A stream's context replaced. -/
def State.setCtx (s : State) (n : Nat) (c : Ctx) : State :=
  { s with tongs := { s.tongs with ctx := Tab.set Ctx.reset s.tongs.ctx n c } }

/-- An interface. -/
def State.ifc (s : State) (i : Nat) : Ifc := Tab.get (fun _ => Ifc.reset) s.tongs.ifc i

/-- An interface replaced. -/
def State.setIfc (s : State) (i : Nat) (x : Ifc) : State :=
  { s with tongs := { s.tongs with ifc := Tab.set (fun _ => Ifc.reset) s.tongs.ifc i x } }

/-- A BIC source. -/
def State.src (s : State) (n : Nat) : Src := Tab.get (fun _ => Src.reset) s.srcs n

/-- A BIC source replaced. -/
def State.setSrc (s : State) (n : Nat) (x : Src) : State :=
  { s with srcs := Tab.set (fun _ => Src.reset) s.srcs n x }

/-- A Bellows core's interrupt state. -/
def State.coreIrq (s : State) (t : Nat) : CoreIrq := Tab.get (fun _ => ⟨[], [], false⟩) s.cores t

/-- A Bellows core's interrupt state replaced. -/
def State.setCore (s : State) (t : Nat) (x : CoreIrq) : State :=
  { s with cores := Tab.set (fun _ => (⟨[], [], false⟩ : CoreIrq)) s.cores t x }

/-- Whether a target can take a delivery now (R565): a core while the cores domain (196) is on, H while its stream is
an open signal stream, RM while the management link is up. -/
def State.targetUp (s : State) (t : Nat) : Bool :=
  match t with
  | 2 =>
    let c := s.ctx (s.get BIC_HOSTCFG_STRM)
    s.domOn 192 && c.typ == 5 && c.tstate == 3
  | 3 => s.on MGMT_STAT_LINK
  | _ => s.domOn 196

/-- The in-service priority of a core: the highest PRIO among its active sources (R567), a completed one among them until it is
re-evaluated (R568). -/
def State.inService (s : State) (t : Nat) : Option Nat :=
  let c := s.coreIrq t
  match (c.active ++ c.reeval.map (·.1)).map (fun n => s.get (BIC_SRCCFG_PRIO n)) with
  | [] => none
  | p :: r => some (r.foldl max p)

/-- Sources pending for a core, by the PENDT bits. -/
def State.pendingFor (s : State) (t : Nat) : List Nat :=
  (s.csr.filterMap (fun e =>
    if 0x380000031800 ≤ e.1 ∧ e.1 < 0x380000032000 then some ((e.1 - 0x380000031800) / 8) else none)).filter
      (fun n => bit (s.get (BIC_SRCSTAT_PENDT n)) t)

/-- The highest-priority pending source of a core, the lower number winning ties (R566). -/
def State.bestPending (s : State) (t : Nat) : Option Nat :=
  (s.pendingFor t).foldl (fun acc n =>
    match acc with
    | none => some n
    | some m => if s.get (BIC_SRCCFG_PRIO n) > s.get (BIC_SRCCFG_PRIO m) then some n else some m) none

/-- The core's notice set afresh (R567); it does not drop while a completion awaits re-evaluation (R568). -/
def State.setNotice (s : State) (t : Nat) : State :=
  let c := s.coreIrq t
  let want : Bool := match s.bestPending t with
    | none => false
    | some n => c.active.length < 4 &&
      (match s.inService t with | none => true | some p => s.get (BIC_SRCCFG_PRIO n) > p)
  s.setCore t { c with notice := want || (c.notice && !c.reeval.isEmpty) }

/-- A sequence number precedes another (R342). -/
def seqLt (a b : Nat) : Bool := let d := (b + 2 ^ 32 - a % 2 ^ 32) % 2 ^ 32; 1 ≤ d && d < 2 ^ 31

/-- A sequence number precedes or equals another. -/
def seqLe (a b : Nat) : Bool := a % 2 ^ 32 == b % 2 ^ 32 || seqLt a b

/-- Modulo 2^32. -/
def seqAdd (a b : Nat) : Nat := (a + b) % 2 ^ 32

/-- The credit state after a change of the queue or of credit (R350). -/
def Ctx.credit (c : Ctx) (now : Nat) : Ctx :=
  if seqLt c.txmsn c.peerclim then { c with crstate := 0 }
  else if c.crstate = 0 && c.txq.any (fun m => m.msn.isNone) then { c with crstate := 1, blockedAt := now }
  else c

/-- A message queued on an open stream; a stream that is not open sends nothing. -/
def State.queueMsg (s : State) (n opc : Nat) (resp : Bool) (data : List Byte) (nop : Option Nat) : State :=
  let c := s.ctx n
  if c.tstate = 3 then
    let m : OutMsg := ⟨opc, resp, data, none, 0, s.now, nop, none⟩
    let c : Ctx := { c with txq := c.txq ++ [m] }
    s.setCtx n (c.credit s.now)
  else s

/-- Where notifications go (R559): the allow-list entry NTGT names, else the source last accepted. -/
def State.notifyDst (s : State) : Option (BitVec 128) :=
  let k := s.get MGMT_CFG_NTGT
  let a : BitVec 128 := s.rd (MGMT_RMADDRH k) ++ s.rd (MGMT_RMADDRL k)
  if a = 0 then s.mgmt.lastSrc else some a

/-- The VLAN ID that the management port's frames carry (R551, R561). -/
def State.mgmtVid (s : State) : Option Nat := if s.on MGMT_CFG_VLAN_EN then some (s.get MGMT_CFG_VID) else none

/-- A notification as it is sent (R559), to the command port; no rule names its command code or its port (assumption log 157). -/
def State.notifyFrame (s : State) (dst : BitVec 128) (x : Ntf) : State :=
  let (cmd, s) := s.fresh 256
  let pay := toBytes 2 x.src ++ toBytes 1 x.prio ++ toBytes 1 (if x.ovf then 1 else 0) ++ toBytes 4 x.evt ++ toBytes 8 0
  let r : Reply := ⟨dst, cmd, 2, 0, x.seq, pay, s.get MGMT_CFG_UDPPORT, s.mgmtVid⟩
  { s with mgmt := { s.mgmt with wire := s.mgmt.wire ++ [r] } }

/-- The count of outstanding notifications shown. -/
def State.ntfSync (s : State) : State := s.put MGMT_STAT_NTFOUT s.mgmt.ntf.length

/-- A notification raised (R559): the answer is false where 32 are outstanding and it is merged into the next. -/
def State.notify (s : State) (n prio evt : Nat) : Bool × State :=
  if s.mgmt.ntf.length ≥ 32 then (false, { s with mgmt := { s.mgmt with merge := true } })
  else
    let d := s.notifyDst
    let x : Ntf := ⟨s.mgmt.ntfSeq, n, prio, s.mgmt.merge, evt, s.now, d.map (fun _ => s.now)⟩
    let s := { s with
      mgmt := { s.mgmt with ntf := s.mgmt.ntf ++ [x], ntfSeq := seqAdd s.mgmt.ntfSeq 1, merge := false } }
    let s := s.ntfSync
    (true, match d with | some a => s.notifyFrame a x | none => s)

/-- The SIGNAL value of a delivery to the host (R570). -/
def hostValue (n prio : Nat) (ovf : Bool) (count seq : Nat) : Nat :=
  n % 256 + prio * 256 + (if ovf then 4096 else 0) + count % 65536 * 65536 + seq * 2 ^ 32

/-- A message target's delivery sent (R570): a SIGNAL of code 0xE00 on the host's stream, or a notification. An edge count
that no target waits for any more starts afresh. -/
def State.deliver (s : State) (n t : Nat) : State :=
  let x := s.src n
  let cnt := (if t = 2 then x.heldH else x.heldRM).getD (s.get (BIC_SRCSTAT_COUNT n))
  let prio := s.get (BIC_SRCCFG_PRIO n)
  let seq := s.get (BIC_SRCSTAT_LASTSEQ n)
  let (sent, s) := if t = 2 then
      (true, s.queueMsg (s.get BIC_HOSTCFG_STRM) 1 false
        (toBytes 8 (hostValue n prio (cnt ≥ 65535) cnt seq) ++ toBytes 8 0xE00) none)
    else s.notify n prio seq
  let x := if t = 2 then { x with outH := some s.now, lastH := s.now, heldH := none }
           else { x with outRM := (if sent then some s.now else none), lastRM := s.now, heldRM := none }
  let s := (s.setSrc n x).put (BIC_SRCSTAT_PENDT n) (setBit (s.get (BIC_SRCSTAT_PENDT n)) t false)
  let s := s.put (BIC_SRCSTAT_ACTIVE n) (setBit (s.get (BIC_SRCSTAT_ACTIVE n)) t sent)
  if s.get (BIC_SRCSTAT_PENDT n) = 0 then s.put (BIC_SRCSTAT_COUNT n) 0 else s

/-- One assertion assigned to target `t` (R564, R565, R570): pending there; delivered at once where the target is a
message target that is up and has none of the source outstanding; held where it is down. -/
def State.assign (s : State) (n t : Nat) : State :=
  if t < 2 then (s.put (BIC_SRCSTAT_PENDT n) (setBit (s.get (BIC_SRCSTAT_PENDT n)) t true)).setNotice t
  else
    let x := s.src n
    let out := if t = 2 then x.outH else x.outRM
    let s := s.put (BIC_SRCSTAT_PENDT n) (setBit (s.get (BIC_SRCSTAT_PENDT n)) t true)
    if out.isSome ∨ s.targetUp t = false then
      let held := if t = 2 then x.heldH else x.heldRM
      match held with
      | some c =>
        let s := if c ≥ 65535 then s.inc BIC_STAT_HELDOVF else s
        s.setSrc n (if t = 2 then { x with heldH := some (min 65535 (c + 1)) }
                    else { x with heldRM := some (min 65535 (c + 1)) })
      | none => s.setSrc n (if t = 2 then { x with heldH := some 1 } else { x with heldRM := some 1 })
    else s.deliver n t

/-- The first available enabled target after the previous one (R564). -/
def State.nextTarget (s : State) (n ten : Nat) : Option Nat :=
  let rr := (s.src n).rr
  let order := (List.range 4).map (fun i => (rr + 1 + i) % 4)
  let wakes (t : Nat) : Bool := t < 2 && s.on (BIC_SRCCFG_WATCH n)
  order.find? (fun t => bit ten t && (s.targetUp t || wakes t))

/-- Whether an assertion of a source would reach a core (R564, R572). -/
def State.wouldReach (s : State) (n : Nat) : Bool :=
  let ten := s.get (BIC_SRCCFG_TEN n)
  if s.on (BIC_SRCCFG_DELIV n) then ten % 4 != 0
  else match s.nextTarget n ten with | some t => t < 2 | none => false

/-- The watcher (R572): a source with WATCH set that would reach a powered-down core switches the cores domain on. -/
def State.watch (s : State) (n : Nat) : State :=
  if s.on (BIC_SRCCFG_WATCH n) ∧ s.wouldReach n ∧ s.domOn 196 = false then
    (s.setDom 196 true).inc BIC_STAT_WAKES
  else s

/-- Deliver one assertion of a source to the targets its configuration names (R564). In round robin an assertion that finds no
target available waits for one (assumption log 158). -/
def State.route (s : State) (n : Nat) : State :=
  let s := s.watch n
  let ten := s.get (BIC_SRCCFG_TEN n)
  if s.on (BIC_SRCCFG_DELIV n) then
    (List.range 4).foldl (fun s t => if bit ten t then s.assign n t else s) s
  else
    match s.nextTarget n ten with
    | none => s.setSrc n { s.src n with waits := true }
    | some t => (s.setSrc n { s.src n with rr := t, waits := false }).assign n t

/-- Sources in the order of their priority, the highest first (R570). -/
def State.byPrio (s : State) (l : List Nat) : List Nat :=
  (List.range 16).reverse.flatMap (fun p => l.filter (fun n => s.get (BIC_SRCCFG_PRIO n) == p))

/-- The members of a coalescing group that wait for its release. -/
def State.releaseGroup (s : State) (g : Nat) : State :=
  let s := { s with grps := Tab.set (fun _ => (⟨0, none⟩ : Grp)) s.grps g ⟨0, none⟩ }
  (s.byPrio (List.range 256)).foldl (fun s n =>
    let x := s.src n
    if x.grouped > 0 ∧ s.get (BIC_SRCCFG_GROUP n) = g then (s.setSrc n { x with grouped := 0 }).route n else s) s

/-- A source asserts (R563, R564, R571): an edge counts, a coalesced source waits for its group's release. -/
def State.raise (s : State) (n : Nat) : State :=
  let level := s.on (BIC_SRCCFG_TYPE n)
  let s := if level then s.put (BIC_SRCSTAT_LEVEL n) 1 else s.inc (BIC_SRCSTAT_COUNT n)
  let g := s.get (BIC_SRCCFG_GROUP n)
  if g = 0 then s.route n
  else
    let gr := Tab.get (fun _ => (⟨0, none⟩ : Grp)) s.grps g
    let gr : Grp := ⟨gr.count + 1, some (gr.first.getD s.now)⟩
    let s := { s with grps := Tab.set (fun _ => (⟨0, none⟩ : Grp)) s.grps g gr }
    let s := s.setSrc n { s.src n with grouped := (s.src n).grouped + 1 }
    if gr.count ≥ s.get (BIC_GRP_COUNT g) then s.releaseGroup g else s

/-- A level source's condition ends: it is no longer pending anywhere. -/
def State.lower (s : State) (n : Nat) : State :=
  let s := (s.put (BIC_SRCSTAT_LEVEL n) 0).put (BIC_SRCSTAT_PENDT n) 0
  ((s.setSrc n { s.src n with heldH := none, heldRM := none, grouped := 0, waits := false }).setNotice 0).setNotice 1

/-- A level source follows its condition; it becomes pending when the condition begins. -/
def State.setLevel (s : State) (n : Nat) (b : Bool) : State :=
  if b then (if s.on (BIC_SRCSTAT_LEVEL n) then s else s.raise n)
  else if s.on (BIC_SRCSTAT_LEVEL n) then s.lower n else s

/-! ### Event records (R573–R578) -/

/-- Operating time in 0.1 s units (R573); the count at manufacture is 0 (assumption log 5). -/
def State.hours (s : State) : Nat := min (s.now / 100000000) (2 ^ 32 - 1)

/-- A record put at the end of the areas with the next sequence number. -/
def State.appendEvt (s : State) (e : Evt) : State :=
  let q := s.get EVREC_HEAD_NEXT
  let e := { e with seq := q }
  let s := s.put EVREC_HEAD_NEXT (q + 1)
  let circ := s.evrec.circ ++ [e]
  { s with
    evrec := { s.evrec with
      perm := if q < 256 then s.evrec.perm ++ [e] else s.evrec.perm
      circ := circ.drop (circ.length - 4096)
      nor := s.evrec.nor ++ [q] } }

/-- A record before it is written. -/
def evt (s : State) (code sev src p0 p1 p2 : Nat) : Evt :=
  { seq := 0, hours := s.hours, code := code, sevsrc := sev * 4096 + src, pcyc := s.pwr.pcyc, p0 := p0 % 2 ^ 32,
    p1 := p1 % 2 ^ 32, p2 := p2 % 2 ^ 32, rep := 0 }

/-- A group dropped (R575): counted one by one, and remembered for LOST. -/
def State.dropGroup (s : State) (g : List Evt) : State :=
  match g with
  | [] => s
  | e :: _ =>
    let d := match s.evrec.drops with
      | none => (g.length, e.code, (g.getLast?.getD e).code)
      | some (n, f, _) => (n + g.length, f, (g.getLast?.getD e).code)
    { (s.add EVREC_STAT_DROPPED g.length).put BELLOWS_ERRSUM_EVDROP 1 with evrec := { s.evrec with drops := some d, lastAlone := none } }

/-- Whether the recorder's level source is asserted follows its buffer (R562, source 34). -/
def State.evrecLevel (s : State) : State := s.setLevel 34 (s.evrec.nor.length ≥ 448)

/-- Pending records and the generation kept in step with the recorder (R575, R583). -/
def State.evrecSync (s : State) : State :=
  ((s.put EVREC_STAT_PENDING s.evrec.nor.length).put EVREC_HEAD_WGEN (s.get EVREC_HEAD_WGEN + 1)).evrecLevel

/-- A group written as one step (R575, R576): dropped whole when the buffer cannot take it, preceded by LOST after a
run of drops. The answer is the first record's sequence number, or 0xFFFF_FFFF. -/
def State.eventGroup (s : State) (g : List Evt) : Nat × State :=
  match g with
  | [] => (0xFFFFFFFF, s)
  | e :: _ =>
    let n := s.evrec.nor.length
    let low : Bool := e.sevsrc / 4096 ≤ 1
    let lost := match s.evrec.drops with
      | none => []
      | some (c, f, l) => [evt s 0x0003 2 (10 * 256) c (f + l * 65536) 0]
    if (n ≥ 448 ∧ low) ∨ n + lost.length + g.length > 512 then (0xFFFFFFFF, s.dropGroup g)
    else
      let s := lost.foldl State.appendEvt s
      let q := s.get EVREC_HEAD_NEXT
      let s := g.foldl State.appendEvt s
      let s := { s with
        evrec := { s.evrec with drops := none, lastAlone := if g.length = 1 then some { e with seq := q } else none } }
      (q, s.evrecSync)

/-- The same record but for time, number and repeats (R577). -/
def Evt.sameAs (a b : Evt) : Bool :=
  a.code == b.code && a.sevsrc == b.sevsrc && a.p0 == b.p0 && a.p1 == b.p1 && a.p2 == b.p2

/-- A record outside a group: merged into the last record where R577 lets it, else written. -/
def State.eventSeq (s : State) (code sev src p0 p1 p2 : Nat) : Nat × State :=
  let e := evt s code sev src p0 p1 p2
  match s.evrec.lastAlone with
  | some l =>
    if l.sameAs e ∧ l.rep < 65535 ∧ s.evrec.drops = none then
      let l' := { l with rep := l.rep + 1 }
      let s := { s with
        evrec := { s.evrec with
          lastAlone := some l'
          circ := s.evrec.circ.map (fun (x : Evt) => if x.seq = l.seq then { x with rep := l'.rep } else x) } }
      (l.seq, s.evrecSync)
    else s.eventGroup [e]
  | none => s.eventGroup [e]

/-- An event record, its number not needed. -/
def State.event (s : State) (code sev src p0 p1 p2 : Nat) : State := (s.eventSeq code sev src p0 p1 p2).2

/-- A record and the interrupt that names it: the sequence number stands in the source's status (R582). -/
def State.eventIrq (s : State) (irq code sev src p0 p1 p2 : Nat) : State :=
  let (q, s) := s.eventSeq code sev src p0 p1 p2
  (s.put (BIC_SRCSTAT_LASTSEQ irq) q).raise irq

/-- The time of an uncorrectable error noted: whether it is the `n`-th within `span` counted back from it, and the state. -/
def State.noteUe (s : State) (k span n : Nat) : Bool × State :=
  let l := (Tab.get (fun _ => []) s.ueTimes k).filter (fun t => s.now < t + span) ++ [s.now]
  (l.length ≥ n, { s with ueTimes := Tab.set (fun _ => []) s.ueTimes k l })

/-- The MEM_UE record and its source (R271). -/
def State.memUe (s : State) (consumer key : Nat) (loc : Word) : State :=
  let h := errHome key
  (s.put HAMMER_ERRSUM_MEMUE 1).eventIrq h.2.2.2 0x0200 3 h.2.2.1 consumer loc.toNat (loc.toNat / 2 ^ 32)

/-- An uncorrectable error reported (R271): counted, recorded, raised. The fourth of an Anvil store within an hour asks for
the Anvil's hold (R275), the 64th of a stack within a second for its fence (R276). `consumer` numbers the rows of R270. -/
def State.reportUe (s : State) (consumer key : Nat) : State :=
  let s := (s.inc (errHome key).1).memUe consumer key (locOf key)
  let stack (k : Nat) : State :=
    let (due, s) := s.noteUe (1000 + k) sec 64
    if due && !s.fenceReq.contains (k, 3) then { s with fenceReq := s.fenceReq ++ [(k, 3)] } else s
  match region key with
  | .anvil g _ =>
    let (due, s) := s.noteUe g (3600 * sec) 4
    if due && !s.holds.any (fun p => p.1 == g) then { s with holds := s.holds ++ [(g, 1)] } else s
  | .hbm k _ => stack k
  | .ctx k _ => stack k
  | _ => s

/-- The first unit of a range whose write arrives with a failing check (R264): reported, and not armed any more. -/
def State.takeTransit (s : State) (consumer a n : Nat) : Option Word × State :=
  match s.transit.find? (fun k => (segs a n).any (fun p => p.1 < k + unitLen k && k < p.1 + p.2)) with
  | none => (none, s)
  | some k => (some (locTransit k), { s with transit := s.transit.filter (· != k) }.memUe consumer k (locTransit k))

/-! ### The Anvils -/

/-- An Anvil's registers. -/
def State.anvil (s : State) (g : Nat) : Anvil := Tab.get (fun _ => Anvil.entry) s.anvils g

/-- An Anvil's registers replaced. -/
def State.setAnvil (s : State) (g : Nat) (a : Anvil) : State :=
  { s with anvils := Tab.set (fun _ => Anvil.entry) s.anvils g a }

/-- Flags ORed into `ANVIL.AFLAGS` (R91). -/
def State.orFlags (s : State) (g : Nat) (fl : Flags) : State :=
  if fl = 0 then s else s.wr (ANVIL_AFLAGS g) (s.rd (ANVIL_AFLAGS g) ||| fl.setWidth 64)

/-- An accumulator bank; a bank nothing has touched holds zeros with E = 0 (R66). -/
def Anvil.bank (a : Anvil) (b : Nat) : Bank := Tab.get (fun _ => Bank.clear 0) a.acc b

/-- A bank replaced. -/
def Anvil.setBank (a : Anvil) (b : Nat) (x : Bank) : Anvil :=
  { a with acc := Tab.set (fun _ => Bank.clear 0) a.acc b x }

/-- A v register. -/
def Anvil.vr (a : Anvil) (n : Nat) : Row := Tab.get (fun _ => 0) a.v n

/-- Bits `w·i + w − 1 : w·i` of a register (R96). -/
def elemAt (x : Row) (w i : Nat) : Nat := x.toNat / 2 ^ (w * i) % 2 ^ w

/-- Lane `l` of a v register (R96). -/
def lane (x : Row) (l : Nat) : Nat := elemAt x 32 l

/-- A v register from 32 lanes. -/
def ofLanes (f : Nat → Nat) : Row :=
  BitVec.ofNat 1024 ((List.range 32).foldl (fun acc l => acc + f l % 2 ^ 32 * 2 ^ (32 * l)) 0)

/-- Element `i` of width `w` replaced. -/
def setElem (x : Row) (w i v : Nat) : Row :=
  let n := x.toNat
  BitVec.ofNat 1024 (n - n / 2 ^ (w * i) % 2 ^ w * 2 ^ (w * i) + v % 2 ^ w * 2 ^ (w * i))

/-- The effective mask (R104). -/
def State.effMask (s : State) : BitVec 160 := s.hammer.amask &&& s.hammer.avail

/-- Whether the predicate test of a slot word passes in an Anvil (R105, R106). -/
def predPass (a : Anvil) (pred : Nat) : Bool :=
  if pred < 16 then true else (a.p.getLsbD (pred % 8)) != (pred / 8 % 2 == 1)

/-- The Anvils that execute an operation (R104, R106). -/
def State.executing (s : State) (pred : Nat) : List Nat :=
  (List.range 160).filter (fun g => s.effMask.getLsbD g && predPass (s.anvil g) pred)

/-- A Crucible. -/
def State.cruc (s : State) (k : Nat) : Cruc := Tab.get (fun _ => Cruc.reset) s.crucs k

/-- A Crucible replaced. -/
def State.setCruc (s : State) (k : Nat) (c : Cruc) : State :=
  { s with crucs := Tab.set (fun _ => Cruc.reset) s.crucs k c }

/-- A job table entry. -/
def State.job (s : State) (j : Nat) : Option Job := Tab.get (fun _ => none) s.jobs j

/-- A job table entry replaced. -/
def State.setJob (s : State) (j : Nat) (x : Option Job) : State :=
  { s with jobs := Tab.set (fun _ => none) s.jobs j x }

end Sys2Proof.Machine
end

