-- ==== Sys2Proof/Machine/Accum.lean ====
section
/-! DEFINITION. The accumulator (R60–R73), read-out (R74–R78), the stochastic-rounding generator (R79–R82) and
microscaling blocks (R55–R59). -/

namespace Sys2Proof.Machine

/-! ### Stochastic rounding -/

/-- `mix` of R80, modulo 2^64. -/
def srMix (z : Word) : Word :=
  let z := (z ^^^ (z >>> 30)) * 0xBF58476D1CE4E5B9#64
  let z := (z ^^^ (z >>> 27)) * 0x94D049BB133111EB#64
  z ^^^ (z >>> 31)

/-- The generator state on entering a heat (R80, R81), or at the start of a Crucible command (R315). -/
def srStart (seed : Word) (idx count : Nat) : Word :=
  srMix (seed ^^^ srMix (BitVec.ofNat 64 (idx * 2 ^ 32 + count)))

/-- One 24-bit draw: the draw and the new state (R80). -/
def srDraw (st : Word) : Nat × Word :=
  let st := st + 0x9E3779B97F4A7C15#64
  ((srMix st).toNat / 2 ^ 40 % 2 ^ 24, st)

/-- The rounding mode of a converted element: RM 0 RNE, 1 RTZ, 2 SR, which draws once (R82). -/
def modeOf (rm : Nat) (st : Word) : Mode × Word :=
  match rm with
  | 0 => (.rne, st)
  | 1 => (.rtz, st)
  | _ => let d := srDraw st; (.sr d.1, d.2)

/-! ### Elements and products -/

/-- Width of an element type (R157, R295: 13 FP32, 14 INT32). -/
def elemWidth (t : Nat) : Nat :=
  match t with
  | 1 => 16
  | 2 => 16
  | 8 => 6
  | 9 => 6
  | 11 => 4
  | 12 => 4
  | 13 => 32
  | 14 => 32
  | _ => 8

/-- A signed integer as an exact value scaled by `2^e`. -/
def intVal (v : Int) (e : Int) : FVal := .fin (decide (v < 0)) v.natAbs e

/-- The value of an element's own encoding (R50, R51, R157, R295). -/
def elemVal (t x : Nat) : FVal :=
  match t with
  | 1 => bf16.decode x
  | 2 => fp16.decode x
  | 3 => e4m3.decode x
  | 4 => e5m2.decode x
  | 5 => intVal (sgn 8 x) 0
  | 6 => e4m3.decode x
  | 7 => e5m2.decode x
  | 8 => e3m2.decode x
  | 9 => e2m3.decode x
  | 10 => intVal (sgn 8 x) (-6)
  | 11 => intVal (sgn 4 x) 0
  | 12 => e2m1.decode x
  | 13 => fp32.decode x
  | _ => intVal (sgn 32 x) 0

/-- An element times its block's scale (R56): the value and the flags of R61. No scale: an element of no MX type. -/
def scaled (t x : Nat) (scale : Option Nat) : FVal × Flags :=
  let v := elemVal t x
  let own := flagIf (v == .nan) fNanIn
  match scale with
  | none => (v, own)
  | some 0xFF => (.nan, own ||| fScaleNan)
  | some b =>
    match v with
    | .fin n m e => (.fin n m (e + (b : Int) - 127), own)
    | w => (w, own)

/-- A product of two scaled elements with the flags of R61; exact (R60). -/
def product (ta xa : Nat) (sa : Option Nat) (tb xb : Nat) (sb : Option Nat) (neg : Bool) : FVal × Flags :=
  let (a, fa) := scaled ta xa sa
  let (b, fb) := scaled tb xb sb
  let (p, inv) := a.mul b
  (if neg then p.negate else p, fa ||| fb ||| flagIf inv fInvalid)

/-! ### Cells -/

/-- The class join (R64): the class, true when +infinity met −infinity. -/
def Cls.join : Cls → Cls → Cls × Bool
  | .nan, _ => (.nan, false)
  | _, .nan => (.nan, false)
  | .fin, c => (c, false)
  | c, .fin => (c, false)
  | .pinf, .pinf => (.pinf, false)
  | .ninf, .ninf => (.ninf, false)
  | _, _ => (.nan, true)

/-- The flags a contribution can raise in its bank. -/
structure BFlags where
  nx : Bool
  ovf : Bool
  sp : Bool
  inv : Bool
deriving DecidableEq, Repr

/-- An exact value in units of `2^(E − 64)`, rounded half to even; true when a bit was lost (R63). -/
def unitsOf (e : Int) (neg : Bool) (m : Nat) (me : Int) : Int × Bool :=
  let (n, nx) := roundMag .rne m me (e - 64) false
  (if neg then -(n : Int) else n, nx)

/-- Saturation of a cell (R63). -/
def satCell (t : Int) : BitVec 80 × Bool :=
  let (v, s) := satS 80 t
  (BitVec.ofInt 80 v, s)

/-- The contributions of one cycle to a cell (R63): each rounded, added exactly, saturated once; special ones join
the class (R64). -/
def contribute (e : Int) (x : Cell) (cs : List FVal) : Cell × BFlags :=
  let step (acc : Int × Bool × Cls × Bool × Bool) (c : FVal) : Int × Bool × Cls × Bool × Bool :=
    let (t, nx, cls, sp, inv) := acc
    let join (k : Cls) := let (k', i) := cls.join k; (t, nx, k', true, inv || i)
    match c with
    | .nan => join .nan
    | .inf n => join (if n then .ninf else .pinf)
    | .fin n m me => let (u, l) := unitsOf e n m me; (t + u, nx || l, cls, sp, inv)
  let (t, nx, cls, sp, inv) := cs.foldl step (x.sig.toInt, false, x.cls, false, false)
  let (sg, ovf) := satCell t
  (⟨sg, cls⟩, ⟨nx, ovf, sp, inv⟩)

/-- A cell of a bank, by 24·lane + position. -/
def Bank.cell (b : Bank) (n : Nat) : Cell := Tab.get (fun _ => Cell.zero) b.cells n

/-- A bank's cell replaced, its sticky flags raised (R65). -/
def Bank.put (b : Bank) (n : Nat) (c : Cell) (f : BFlags) : Bank :=
  { b with
    cells := Tab.set (fun _ => Cell.zero) b.cells n c
    nx := b.nx || f.nx
    ovf := b.ovf || f.ovf
    sp := b.sp || f.sp }

/-- The `AFLAGS` bits of raised bank flags (R65). -/
def BFlags.aflags (f : BFlags) : Flags :=
  flagIf f.nx fAccNx ||| flagIf f.ovf fAccOvf ||| flagIf f.sp fAccSpecial ||| flagIf f.inv fInvalid

/-- A scale byte of VX for element `i`, VA scales from byte 0 and VB scales from byte 64 (R159). -/
def scaleByte (vx : Row) (t i base : Nat) : Option Nat :=
  if maMx t then some (elemAt vx 8 (base + i / 32)) else none

/-- `mmac` on one bank (R159): the bank and the flags. -/
def mmacBank (b : Bank) (va vb vx : Row) (ta tb : Nat) (neg bs ha : Bool) : Bank × Flags :=
  let d := maDepth ta
  (List.range 768).foldl (fun acc n =>
    let l := n / 24
    let c := n % 24
    let ps := (List.range d).map (fun k =>
      let i := 32 * d * (if ha then 1 else 0) + d * l + k
      let j := 24 * d * (if bs then 1 else 0) + d * c + k
      product ta (elemAt va (elemWidth ta) i) (scaleByte vx ta i 0) tb (elemAt vb (elemWidth tb) j)
        (scaleByte vx tb j 64) neg)
    let (x, f) := contribute b.exp.toInt (acc.1.cell n) (ps.map (·.1))
    (acc.1.put n x f, ps.foldl (fun fl p => fl ||| p.2) (acc.2 ||| f.aflags))) (b, 0)

/-! ### Packed partials (R72, R73) -/

/-- A packed partial. -/
structure Part where
  cls : Cls
  ovf : Bool
  nx : Bool
  exp : Int
  sig : Int
deriving DecidableEq, Repr

/-- CLS code (R72). -/
def Cls.code : Cls → Nat
  | .fin => 0
  | .pinf => 1
  | .ninf => 2
  | .nan => 3

/-- CLS from its code. -/
def Cls.ofCode (n : Nat) : Cls :=
  match n with
  | 0 => .fin
  | 1 => .pinf
  | 2 => .ninf
  | _ => .nan

/-- The 96 bits of a partial (R72). -/
def Part.pack (p : Part) : Nat :=
  wrap 80 p.sig + wrap 10 p.exp * 2 ^ 80 + (if p.nx then 2 ^ 90 else 0) + (if p.ovf then 2 ^ 91 else 0)
    + p.cls.code * 2 ^ 92

/-- A 16-byte slot read as a partial; none when it is malformed (R73). -/
def Part.unpack (x : Nat) : Option Part :=
  if x / 2 ^ 94 ≠ 0 then none
  else some { cls := Cls.ofCode (x / 2 ^ 92 % 4), ovf := x / 2 ^ 91 % 2 == 1, nx := x / 2 ^ 90 % 2 == 1,
              exp := sgn 10 (x / 2 ^ 80), sig := sgn 80 x }

/-- A cell of a bank as a partial (R72, R162). -/
def Bank.part (b : Bank) (n : Nat) : Part :=
  let c := b.cell n
  ⟨c.cls, b.ovf, b.nx, b.exp.toInt, c.sig.toInt⟩

/-- Two partials combined (R73): the result, true when the class join is invalid. -/
def Part.combine (a b : Part) : Part × Bool :=
  let e := max a.exp b.exp
  let (ua, la) := unitsOf e (decide (a.sig < 0)) a.sig.natAbs (a.exp - 64)
  let (ub, lb) := unitsOf e (decide (b.sig < 0)) b.sig.natAbs (b.exp - 64)
  let (s, o) := satCell (ua + ub)
  let (cls, inv) := a.cls.join b.cls
  (⟨cls, a.ovf || b.ovf || o, a.nx || b.nx || la || lb, e, s.toInt⟩, inv)

/-- What a combination sets in the flag word of the engine that combines in memory (R65, R73, R317): the accumulator flags of
the result, as `mcomb` sets those of a bank, and INVALID. -/
def Part.combFlags (a b : Part) : Flags :=
  let (r, inv) := a.combine b
  let f : BFlags := ⟨r.nx, r.ovf, decide (a.cls ≠ .fin ∨ b.cls ≠ .fin), inv⟩
  f.aflags

/-- `mcomb` of group `g` on a bank (R160). -/
def mcombBank (b : Bank) (va : Row) (g : Nat) : Bank × Flags :=
  (List.range 8).foldl (fun acc k =>
    match Part.unpack (elemAt va 128 k) with
    | none => (acc.1, acc.2 ||| fInvalid)
    | some p =>
      let n := 8 * g + k
      let sp := decide (p.cls ≠ .fin)
      let (x, f) := contribute b.exp.toInt (acc.1.cell n) [.fin (decide (p.sig < 0)) p.sig.natAbs (p.exp - 64)]
      let (cls, inv) := x.cls.join p.cls
      let f : BFlags := ⟨f.nx || p.nx, f.ovf || p.ovf, sp, inv⟩
      (acc.1.put n ⟨x.sig, cls⟩ f, acc.2 ||| f.aflags)) (b, 0)

/-- A rescale of a bank to exponent `e` (R67). -/
def mrscBank (b : Bank) (e : BitVec 10) : Bank × Flags :=
  let start : Bank := { b with cells := [], exp := e }
  b.cells.foldl (fun (acc : Bank × Flags) (p : Nat × Cell) =>
    let c := p.2
    let s : Int := c.sig.toInt
    let (x, f) := contribute e.toInt Cell.zero [.fin (decide (s < 0)) s.natAbs (b.exp.toInt - 64)]
    (acc.1.put p.1 ⟨x.sig, c.cls⟩ f, acc.2 ||| f.aflags)) (start, 0)

/-! ### Read-out (R74–R78) -/

/-- The value a cell reads out, offset by `2^m`. -/
def Cell.value (c : Cell) (e m : Int) : FVal :=
  match c.cls with
  | .nan => .nan
  | .pinf => .inf false
  | .ninf => .inf true
  | .fin => intVal c.sig.toInt (e - 64 + m)

/-- Conversion to a read-out target (R121, R296): 0 FP32, 1 BF16, 2 FP16, 3 E4M3, 4 E5M2, 5 INT32. -/
def toTarget (tf : Nat) (mode : Mode) (v : FVal) : Nat × Flags :=
  match tf with
  | 0 => fp32.convertV mode v
  | 1 => bf16.convertV mode v
  | 2 => fp16.convertV mode v
  | 3 => e4m3.convertV mode v
  | 4 => e5m2.convertV mode v
  | _ => let (i, f) := toInteger 32 mode v; (wrap 32 i, f)

/-- Width of a read-out target. -/
def targetWidth (tf : Nat) : Nat := if tf = 0 ∨ tf = 5 then 32 else if tf = 1 ∨ tf = 2 then 16 else 8

/-- `mrd` (R161): the register, the flags and the generator after its draws. -/
def mrdRow (b : Bank) (sel : Nat) (m : Int) (rm tf : Nat) (st : Word) : Row × Flags × Word :=
  let q := mrCols tf
  let r := (List.range (32 * q)).foldl (fun acc i =>
    let (mode, st) := modeOf rm acc.2.2
    let (x, f) := toTarget tf mode ((b.cell (24 * (i / q) + q * sel + i % q)).value b.exp.toInt m)
    (acc.1 + x * 2 ^ (targetWidth tf * i), acc.2.1 ||| f, st)) ((0, 0, st) : Nat × Flags × Word)
  (BitVec.ofNat 1024 r.1, r.2.1, r.2.2)

/-- `mpk` of group `g` (R162). -/
def mpkRow (b : Bank) (g : Nat) : Row :=
  BitVec.ofNat 1024 ((List.range 8).foldl (fun acc k => acc + (b.part (8 * g + k)).pack * 2 ^ (128 * k)) 0)

/-! ### Microscaling (R58, R59, R170) -/

/-- The element formats of the MX groups in opcode order: e4m3, e5m2, e3m2, e2m3, e2m1, int8. -/
def mxType (e : Nat) : Nat :=
  match e with
  | 0 => 6
  | 1 => 7
  | 2 => 8
  | 3 => 9
  | 4 => 12
  | _ => 10

/-- `emax` of R58. -/
def mxEmax (e : Nat) : Int :=
  match e with
  | 0 => 8
  | 1 => 15
  | 2 => 4
  | 3 => 2
  | 4 => 2
  | _ => 0

/-- A finite value divided by `2^x` and converted to an MX element, clamped to its maximum, which for a negative MXINT8
element is −2 (R51, R58). -/
def mxElem (e : Nat) (mode : Mode) (neg : Bool) (m : Nat) (me x : Int) : Nat × Flags :=
  match e with
  | 0 => e4m3.convert true mode neg m (me - x) false
  | 1 => e5m2.convert true mode neg m (me - x) false
  | 2 => e3m2.convert true mode neg m (me - x) false
  | 3 => e2m3.convert true mode neg m (me - x) false
  | 4 => e2m1.convert true mode neg m (me - x) false
  | _ =>
    let (n, nx) := roundMag mode m (me - x) (-6) false
    let top := if neg then 128 else 127
    let c := min n top
    (wrap 8 (if neg then -(c : Int) else c), flagIf (nx || n > top) fCvtNx)

/-- The scale byte of 32 values (R58, R59) and its flags. -/
def mxScale (e : Nat) (vs : List FVal) : Nat × Flags :=
  if vs.any (fun v => v == .nan || v == .inf true || v == .inf false) then
    (0xFF, fInvalid ||| flagIf (vs.contains .nan) fNanIn)
  else
    let top : Option Int := vs.foldl (fun acc v =>
      match v with
      | .fin _ m me => if m = 0 then acc else some (match acc with | none => ilog2 m + me | some t => max t (ilog2 m + me))
      | _ => acc) none
    match top with
    | none => (0, 0)
    | some t => ((min 127 (max (-127) (t - mxEmax e)) + 127).toNat, 0)

/-- 32 values quantised with a given scale byte (R170): the elements, the flags, the generator. A tiny inexact element sets
CVT_UFL, though the row's flag column does not list it (DEDUCED, assumption log 148). -/
def mxQuant (e : Nat) (rm : Nat) (vs : List FVal) (x : Nat) (st : Word) : List Nat × Flags × Word :=
  let special : Bool := vs.any (fun v => v == .nan || v == .inf true || v == .inf false)
  let zero : Bool := special || x == 0xFF
  let fl : Flags :=
    if special then fInvalid ||| flagIf (vs.contains .nan) fNanIn else if x = 0xFF then fScaleNan else 0
  let r := vs.foldl (fun (acc : List Nat × Flags × Word) v =>
    let (mode, st) := modeOf rm acc.2.2
    match v with
    | .fin neg m me =>
      let (b, f) := mxElem e mode neg m me ((x : Int) - 127)
      if zero then (acc.1 ++ [0], acc.2.1, st) else (acc.1 ++ [b], acc.2.1 ||| f, st)
    | _ => (acc.1 ++ [0], acc.2.1, st)) ([], fl, st)
  r

end Sys2Proof.Machine
end

