-- ==== Sys2Proof/Machine/Float.lean ====
section
/-! DEFINITION. Floating-point evaluation of the control pseudocode (Temper, cooling, coils): every operation rounded
once to the format the pseudocode names, on exact values (assumption log 8). -/

namespace Sys2Proof.Machine

/-- IEEE 754 binary64. -/
def fp64 : Fmt := ⟨11, 52, 1023, 0⟩

/-- A value rounded to a format, to nearest even. -/
def Fmt.rnd (f : Fmt) (v : FVal) : FVal := f.decode (f.convertV .rne v).1

/-- An exact integer. -/
def fInt (v : Int) : FVal := .fin (decide (v < 0)) v.natAbs 0

/-- A quotient rounded once; a zero divisor gives an infinity, or NaN for 0 ÷ 0. -/
def Fmt.div (f : Fmt) (a b : FVal) : FVal :=
  match a, b with
  | .nan, _ => .nan
  | _, .nan => .nan
  | .inf _, .inf _ => .nan
  | .inf n, .fin m _ _ => .inf (n != m)
  | .fin n _ _, .inf m => .fin (n != m) 0 0
  | .fin na ma ea, .fin nb mb eb =>
    if mb = 0 then (if ma = 0 then .nan else .inf (na != nb))
    else if ma = 0 then .fin (na != nb) 0 0
    else let d := divDy ma ea mb eb; f.decode (f.convert false .rne (na != nb) d.1 d.2.1 d.2.2).1

/-- Sum, difference and product rounded once. -/
def Fmt.sum (f : Fmt) (a b : FVal) : FVal := f.rnd (a.add b).1
def Fmt.dif (f : Fmt) (a b : FVal) : FVal := f.rnd (a.add b.negate).1
def Fmt.prd (f : Fmt) (a b : FVal) : FVal := f.rnd (a.mul b).1

/-- A decimal constant `n / d` rounded to a format. -/
def Fmt.const (f : Fmt) (n d : Nat) : FVal := f.div (fInt n) (fInt d)

/-- binary32 operations. -/
def fAdd : FVal → FVal → FVal := fp32.sum
def fSub : FVal → FVal → FVal := fp32.dif
def fMul : FVal → FVal → FVal := fp32.prd
def fDiv : FVal → FVal → FVal := fp32.div
def fC (n d : Nat) : FVal := fp32.const n d
def fI (v : Int) : FVal := fp32.rnd (fInt v)

/-- A function of one operand in binary32. -/
def fFun (fn : FFun) (v : FVal) : FVal := f32 (f32Fun fn (fp32.convertV .rne v).1).1

/-- The natural logarithm of a positive value in binary32: the exact `log2` times `ln 2`, rounded once. -/
def fLn (v : FVal) : FVal :=
  match v with
  | .fin false m e =>
    if m = 0 then .inf true
    else if m = 2 ^ Nat.log2 m then
      let k : Int := ilog2 m + e
      f32 (fp32.convert false .rne (decide (k < 0)) (k.natAbs * ln2Fx) (-(fxP : Int)) true).1
    else
      let (n, mm, ee, _) := log2Dy m e
      f32 (fp32.convert false .rne n (mm * ln2Fx) (ee - fxP) true).1
  | .inf false => .inf false
  | _ => .nan

/-- The exponential in binary32: `2^(x ÷ ln 2)`, rounded once. -/
def fExp (v : FVal) : FVal :=
  match v with
  | .nan => .nan
  | .inf n => if n then .fin false 0 0 else .inf false
  | .fin n m e =>
    if m = 0 then fInt 1
    else if ilog2 m + e ≥ 20 then (if n then .fin false 0 0 else .inf false)
    else
      let num : Nat := if e + fxP ≥ 0 then m * 2 ^ (e + fxP).toNat else m / 2 ^ (-(e + fxP)).toNat
      let d := exp2Dy n (num * 2 ^ fxP / ln2Fx) (-(fxP : Int))
      f32 (fp32.convert false .rne false d.1 d.2.1 true).1

/-- The larger and the smaller of two values. -/
def fMax (a b : FVal) : FVal := if a.cmp b < 0 then b else a
def fMin (a b : FVal) : FVal := if a.cmp b > 0 then b else a

/-- Order tests. -/
def fLe (a b : FVal) : Bool := a.cmp b ≤ 0
def fLt (a b : FVal) : Bool := a.cmp b < 0

/-- The integer part, toward minus infinity; infinities and NaN give the bound ±2^40. -/
def fFloor (v : FVal) : Int :=
  match v with
  | .fin n m e =>
    let q : Nat := if 0 ≤ e then m * 2 ^ e.toNat else m / 2 ^ (-e).toNat
    let whole : Bool := 0 ≤ e || m % 2 ^ (-e).toNat == 0
    if n then (if whole then -(q : Int) else -(q : Int) - 1) else q
  | .inf true => -(2 ^ 40 : Nat)
  | _ => (2 ^ 40 : Nat)

/-- The nearest integer, ties to even; infinities and NaN give the bound ±2^40. -/
def fRne (v : FVal) : Int :=
  match v with
  | .fin n m e => let q := (roundMag .rne m e 0 false).1; if n then -(q : Int) else q
  | .inf true => -(2 ^ 40 : Nat)
  | _ => (2 ^ 40 : Nat)

/-- An integer clamped to a range. -/
def clampI (v lo hi : Int) : Int := max lo (min hi v)

end Sys2Proof.Machine
end

