-- ==== Sys2Proof/Machine/Trace.lean ====
section
/-! DEFINITION. The Hammer trace buffer (R634) and the snapshot request (R627). -/

namespace Sys2Proof.Machine

/-- The entries kept when a trigger is accepted: the newest `PRE`. -/
def HTrace.keep (t : HTrace) (pre : Nat) : HTrace := ⟨t.ents.drop (t.ents.length - pre), 0⟩

/-- A trigger of kind `k` (R634): accepted while armed, of the kind selected, once `PRE` entries are held (R500). -/
def State.traceTrig (s : State) (k : Nat) : State :=
  let pre := s.get HAMMER_TRCFG_PRE
  if s.get HAMMER_TRSTAT_STATE = 1 ∧ (k = 0 ∨ s.get HAMMER_TRCFG_TRIG = k) ∧ pre ≤ s.trace.ents.length then
    let t := s.trace.keep pre
    ({ s with trace := t }.put HAMMER_TRSTAT_STATE 2).put HAMMER_TRSTAT_COUNT t.ents.length
  else s

/-- An entry's CYC field. -/
def traceCyc (e : Word) : Nat := e.toNat / 2 ^ 32 % 2 ^ 28

/-- An entry recorded (R634): the entries of one CORE cycle stand in ascending type, and there are at most four; and whether one
was lost. -/
def HTrace.record (t : HTrace) (e : Word) : List Word × Bool :=
  let g := (t.ents.reverse.takeWhile (fun x => traceCyc x == traceCyc e)).reverse
  let l := g.filter (fun x => x.toNat / 2 ^ 60 ≤ e.toNat / 2 ^ 60) ++ [e] ++ g.filter (fun x => e.toNat / 2 ^ 60 < x.toNat / 2 ^ 60)
  (t.ents.take (t.ents.length - g.length) ++ l.take 4, l.length > 4)

/-- One trace entry of an enabled type (R634): circular while armed, 4,096 − PRE more after the trigger, then DONE. -/
def State.traced (s : State) (ty data : Nat) : State :=
  let st := s.get HAMMER_TRSTAT_STATE
  if (s.rd HAMMER_TRCFG).getLsbD ty = false ∨ (st ≠ 1 ∧ st ≠ 2) then s
  else
    let e : Word := BitVec.ofNat 64 (ty * 2 ^ 60 + s.cyc % 2 ^ 28 * 2 ^ 32 + data % 2 ^ 32)
    let (l, lost) := s.trace.record e
    let l := l.drop (l.length - 4096)
    let after := if lost then s.trace.after else if st = 2 then s.trace.after + 1 else 0
    let s := if lost then s.inc HAMMER_TRSTAT_LOST else s
    let s := { s with trace := ⟨l, after⟩ }.put HAMMER_TRSTAT_COUNT l.length
    if st = 2 ∧ after + s.get HAMMER_TRCFG_PRE ≥ 4096 then s.put HAMMER_TRSTAT_STATE 3 else s

/-- The launch cycle of a request (R627): the cycle in which `snap` issues, else the first unskipped one after the present. -/
def State.launchAt (s : State) (src : Nat) : Nat :=
  if src = 1 then s.cyc else s.cyc + (passedIn s.core.k (s.core.idx + 1) - passedIn s.core.k s.core.idx)

/-- A snapshot requested (R627): one that finds a capture pending joins it and is counted. `src` is the SRC bit: 1 the T slot, 2 a
CSR, 4 management; of requests that launch in one cycle the lowest gives the tag. -/
def State.snapRequest (s : State) (src tag pos : Nat) : State :=
  let at_ := s.launchAt src
  match s.snapReq with
  | some r =>
    let first : Bool := at_ ≤ r.at_ && r.src % (2 * src) == 0
    let r := if first then { r with tag := tag, pos := pos } else r
    { s with snapReq := some { r with src := Nat.lor r.src src } }.inc HAMMER_SNAPCTL_MERGED
  | none => { s with snapReq := some ⟨src, tag, s.get TONGS_JOBSTAT_RUNJOB, pos, at_⟩ }

end Sys2Proof.Machine
end

