-- ==== Sys2Proof/Machine/TemperCore.lean ====
section
/-! DEFINITION. Temper's shared parts: the power model (R406–R409), the floor entry (R427–R429), power records and
their learning (R219, R431), the choice of a variant (R221–R225) and the running heat's energy. -/

namespace Sys2Proof.Machine

/-! ### Power model -/

/-- The VCORE setpoint of an operating point in µV (R420). -/
def State.opUv (s : State) (o : Nat) : Nat := 500000 + 2500 * (s.get (TEMPER_OP_VIDX o) + s.get TEMPER_TRIM_TRIM)

/-- The ratio of two setpoints squared. -/
def volRatio2 (a b : Nat) : FVal := let r := fDiv (fI a) (fI b); fMul r r

/-- The gain `g` of R408. -/
def State.tGain (s : State) : FVal :=
  fMul (fDiv (fI (s.get TEMPER_MODEL_CALG)) (fI 4096)) (fDiv (fI 1024) (fI (s.get TEMPER_MODEL_EFF)))

/-- Leakage of an operating point at the present temperature and trim (R408). -/
def State.leak (s : State) (o : Nat) : FVal :=
  let trimV := fDiv (fI (s.get TEMPER_TRIM_TRIM * 2500)) (fI 1000000)
  let v := fDiv (fI (s.opUv o)) (fI 1000000)
  let t := fDiv (fI s.temper.die) (fI 100)
  fMul (fMul (fI (s.get (TEMPER_OP_LEAK85 o))) (fAdd (fI 1) (fDiv (fMul (fI 3) trimV) v)))
    (fFun .exp2 (fDiv (fSub t (fI 85)) (fI 20)))

/-- The part of the power that does not scale with k, in W (R408). -/
def State.pFix (s : State) (o : Nat) : FVal := fMul s.tGain (fAdd (s.leak o) (fI (s.get TEMPER_MODEL_BG)))

/-- A number of watts as an unsigned 16-bit field. -/
def watts (v : FVal) : Nat := (clampI (fRne v) 0 65535).toNat

/-- One class's total in a list of totals. -/
def totalOf (t : Tab Nat) (c : Nat) : Nat := Tab.get (fun _ => 0) t c

/-- The activity total of class `c` over all units (R406, R626), with what counters since cleared had counted. -/
def State.classTotal (s : State) (c : Nat) : Nat :=
  let sum (n : Nat) (f : Nat → Fd) : Nat := (List.range n).foldl (fun a i => a + s.get (f i)) 0
  totalOf s.temper.gone c +
  if c < 8 then sum 160 (fun g => ANVIL_ACNT_COUNT g c)
  else if c = 8 then sum 10 HEARTH_HSCNT_COUNT + s.get HAMMER_STCNT_COUNT
  else if c = 9 then sum 20 HEARTH_HBMMP_COUNT
  else if c = 10 then sum 20 HEARTH_HBMCR_COUNT
  else if c = 11 then sum 20 CRUC_CRMCNT_COUNT
  else sum 20 CRUC_CRVCNT_COUNT

/-- All thirteen totals. -/
def State.classTotals (s : State) : Tab Nat := (List.range 13).map (fun c => (c, s.classTotal c))

/-- The energy in joules, at the regulator output, of the work between two lists of totals (R406). -/
def State.energy (s : State) (a b : Tab Nat) : FVal :=
  (List.range 13).foldl (fun acc c =>
    fAdd acc (fMul (fMul (fI (s.get (TEMPER_WT_W c))) (fC 1 4000000000000)) (fI (totalOf b c - totalOf a c : Nat))))
    (fInt 0)

/-! ### The running heat's energy and the power records -/

/-- Fold the work since the last sample into the running heat's dynamic input energy, scaled to its variant's
setpoint (R431). -/
def State.heatSample (s : State) : State :=
  let now := s.classTotals
  let e := fMul (fMul s.tGain (s.energy s.temper.hcnt now)) (volRatio2 (s.opUv s.temper.heatOp) s.temper.vset)
  { s with temper := { s.temper with hcnt := now, uvar := fp64.sum s.temper.uvar e } }

/-- The key of a variant's record: image base, heat ID and variant (R433). -/
def recKey (img heat var : Nat) : Nat := (img * 4096 + heat) * 4 + var

/-- The key under which `errs` holds an error of a power record (R229). -/
def recErr (k : Nat) : Nat := 2 ^ 60 + k

/-- No record: what an unused record slot reads as (R433). -/
def Rec.none : Rec := ⟨0, 0, 0, 0, .fin false 0 0, 0⟩

/-- A variant's record. -/
def State.recOf (s : State) (k : Nat) : Rec := Tab.get (fun _ => Rec.none) s.temper.recs k

/-- A variant's record replaced. -/
def State.setRec (s : State) (k : Nat) (r : Rec) : State :=
  { s with temper := { s.temper with recs := Tab.set (fun _ => Rec.none) s.temper.recs k r } }

/-- A record at its declared figures (R219): P = ⌈25.6 × EDECL ÷ TDECL⌉, saturated. -/
def Rec.declared (edecl tdecl : Nat) : Rec :=
  ⟨min 65535 ((256 * edecl + 10 * tdecl - 1) / (10 * tdecl)), tdecl, 0, 0, .fin false 0 0, 0⟩

/-- `learn` of R431 for one execution of `u` unskipped cycles and `e` joules at operating point `op`. -/
def State.learned (s : State) (r : Rec) (op u : Nat) (e : FVal) : Rec :=
  let r := { r with uacc := r.uacc + u, eacc := fp64.sum r.eacc e, nacc := r.nacc + 1 }
  if r.uacc < 4096 then r
  else
    let sh : Int := 2 ^ s.get TEMPER_LEARN_LSHIFT
    let secs := fMul (fI r.uacc) (fC 625 1000000000000)
    let p := fAdd (s.pFix op) (fDiv (fp32.rnd r.eacc) secs)
    let dp := fRne (fDiv (fSub p (fI r.p)) (fI sh))
    let dt := fRne (fDiv (fSub (fDiv (fI r.uacc) (fI r.nacc)) (fI r.tl)) (fI sh))
    { p := (clampI ((r.p : Int) + dp) 1 65535).toNat, tl := (clampI ((r.tl : Int) + dt) 0 (2 ^ 32 - 1)).toNat
      n := min 65535 (r.n + r.nacc), uacc := 0, eacc := .fin false 0 0, nacc := 0 }

/-! ### Images and heat tables (R139, R217) -/

/-- The accepted image at a base. -/
def State.image (s : State) (base : Nat) : Option Img := s.tongs.images.find? (fun i => i.base == base)

/-- Byte address of an image. -/
def Img.addr (i : Img) : Nat := hammerBase + 64 * i.base

/-- A heat-table entry as read (R217). -/
structure HeatEntry where
  vcount : Nat
  ident : Bool
  nolearn : Bool
  entry : List Nat
  op : List Nat
  edecl : List Nat
  tdecl : List Nat
deriving DecidableEq, Repr

/-- The address of a heat-table entry. -/
def Img.heatAddr (i : Img) (h : Nat) : Nat := i.addr + i.heatOff + 64 * h

/-- Read a heat-table entry. -/
def State.heatEntry (s : State) (i : Img) (h : Nat) : HeatEntry :=
  let a := i.heatAddr h
  let w (o : Nat) : List Nat := (List.range 4).map (fun v => s.readN (a + 16 + 12 * v + o) 4)
  { vcount := s.readN a 1, ident := s.readN (a + 1) 1 % 2 == 1, nolearn := s.readN (a + 1) 1 / 2 % 2 == 1
    entry := (w 0).map (· % 2 ^ 19), op := (w 0).map (· / 2 ^ 19 % 8), edecl := w 4, tdecl := w 8 }

/-! ### The grant and the choice of a variant -/

/-- The grant Hammer samples: 0 while a floor input holds (R224, R422). -/
def State.grant (s : State) : Nat :=
  if s.on TEMPER_CAPSTAT_THROTTLE || s.on TEMPER_CAPSTAT_SAG_WARN then 0 else s.get TEMPER_CAPSTAT_GRANT

/-- What a variant choice decides (R222). -/
structure Choice where
  var : Nat
  fit : Bool
  forced : Bool
  coll0 : Bool
  byGrant : Bool
deriving DecidableEq, Repr

/-- R222. `p v` is the record of variant `v`; a variant that cannot fit has none (R229). -/
def chooseVar (e : HeatEntry) (g : Nat) (coll forceEn : Bool) (force : Nat) (p : Nat → Option Nat) : Choice :=
  let fits (v : Nat) : Bool := match p v with | some w => w ≤ g | none => false
  let last := e.vcount - 1
  if coll && !e.ident then ⟨0, fits 0, false, true, false⟩
  else if forceEn then let v := min force last; ⟨v, fits v, true, false, false⟩
  else
    match (List.range e.vcount).find? fits with
    | some v => ⟨v, true, false, false, true⟩
    | none => ⟨last, false, false, false, true⟩

/-- Records of a heat whose stored code fails are reinitialised from the heat table and recorded (R229). -/
def State.mendRecs (s : State) (i : Img) (h : Nat) (e : HeatEntry) : State :=
  (List.range e.vcount).foldl (fun s v =>
    let k := recKey i.base h v
    if errClass (Tab.get errDefault s.errs (recErr k)) = 2 then
      let s := { s with errs := Tab.erase s.errs (recErr k) }
      let s := s.setRec k (Rec.declared (e.edecl.getD v 0) (e.tdecl.getD v 1))
      s.event 0x0204 3 (1 * 256) i.base h v
    else s) s

/-- Sample and choose (R221–R225), and record the choice in HEATSTAT (R242). -/
def State.chooseHeat (s : State) (i : Img) (h : Nat) (coll : Bool) : Choice × HeatEntry × State :=
  let e := s.heatEntry i h
  let p (v : Nat) : Option Nat :=
    let k := recKey i.base h v
    if errClass (Tab.get errDefault s.errs (recErr k)) = 2 then none else some (s.recOf k).p
  let g := s.grant
  let c := chooseVar e g coll (s.on HAMMER_HEATCFG_FORCE_EN) (s.get HAMMER_HEATCFG_FORCE_VAR) p
  let s := ((s.put HAMMER_HEATSTAT_GRANT g).put HAMMER_HEATSTAT_HEAT h).put HAMMER_HEATSTAT_VAR c.var
  let s := ((s.putB HAMMER_HEATSTAT_FIT c.fit).putB HAMMER_HEATSTAT_FORCED c.forced).putB HAMMER_HEATSTAT_COLL0 c.coll0
  (c, e, (s.put HAMMER_HEATSTAT_SWITCHED 0).mendRecs i h e)

/-- A choice by the grant in which no variant fitted, and the leanest runs (R223, R243). -/
def State.noteFit (s : State) (c : Choice) : State := if c.byGrant && !c.fit then s.inc HAMMER_HEATCNT_NOFIT else s

/-! ### The regulator (R423) -/

/-- The setpoint moved toward its goal at 10 mV/µs up to now. -/
def State.slew (s : State) : State :=
  let d := (s.now - s.temper.slewAt) * 10
  let v := s.temper.vset
  let g := s.temper.vgoal
  let v := if v < g then min g (v + d) else max g (v - d)
  { s with temper := { s.temper with vset := v, slewAt := s.now } }

/-- A new goal for the setpoint; a goal below the present setpoint begins a lowering transition (R424). -/
def State.aim (s : State) (o : Nat) : State :=
  let s := s.slew
  let g := s.opUv o
  let low := if g < s.temper.vset && g ≠ s.temper.vgoal then some s.now else s.temper.lowerAt
  { s with temper := { s.temper with vgoal := g, lowerAt := low } }

/-! ### Floors (R427–R429) -/

/-- Entry into the floor: grant 0, k = 1 from the next frame boundary, OP0 the target, the entry counted, recorded and raised (R427, R429).
`which`: 0 THROTTLE, 1 SAG_WARN. -/
def State.enterFloor (s : State) (which : Nat) : State :=
  let s := (s.put TEMPER_CAPSTAT_GRANT 0).putB TEMPER_CAPSTAT_FLOOR true
  let s := { s with core := s.core.decide 1 (16 * s.now) }.put TEMPER_CTRL_KTGT 1
  let s := s.put TEMPER_CTRL_OPTGT 0
  let s := if s.get TEMPER_CTRL_OP ≠ 0 then s.put TEMPER_CTRL_XFER 1 else s
  let s := s.aim 0
  let s := s.put TEMPER_CAPSTAT_LIMIT (if s.on TEMPER_CAPSTAT_THROTTLE then 5 else 6)
  (s.inc TEMPER_CNT_FLOORS).eventIrq 22 0x0501 2 (1 * 256) which 0 0

/-- THROTTLE asserted at Temper: the floor entry unless it already holds (R427). -/
def State.throttleTemper (s : State) : State :=
  if s.on TEMPER_CAPSTAT_THROTTLE then s else (s.putB TEMPER_CAPSTAT_THROTTLE true).enterFloor 0

end Sys2Proof.Machine
end

