-- ==== Sys2Proof/Machine/Traffic.lean ====
section
/-! DEFINITION. Activity counted for data moved at arrays and stores (R406 classes 7 to 10, R625, R626). -/

namespace Sys2Proof.Machine

/-- `n` bytes moved at the array or store that holds key `k`; `crm`: in the Crucible class. -/
def State.movedAt (crm : Bool) (s : State) (p : Nat × Nat) : State :=
  match region p.1 with
  | .hbm k _ => s.add (if crm then HEARTH_HBMCR_COUNT k else HEARTH_HBMMP_COUNT k) ((p.2 + 31) / 32)
  | .ctx k _ => s.add (if crm then HEARTH_HBMCR_COUNT k else HEARTH_HBMMP_COUNT k) ((p.2 + 31) / 32)
  | .hearth h _ => s.add (HEARTH_HSCNT_COUNT h) ((p.2 + 127) / 128)
  | .anvil g _ => s.add (ANVIL_ACNT_COUNT g 7) ((p.2 + 127) / 128)
  | .hammer _ => s.add HAMMER_STCNT_COUNT ((p.2 + 127) / 128)
  | _ => s

/-- A byte range moved. -/
def State.moved (s : State) (crm : Bool) (a n : Nat) : State := (segs a n).foldl (State.movedAt crm) s

/-- The Hearth a range belongs to: an Anvil's, a store's, a stack's; none for the Hammer store. -/
def hearthOf (a : Nat) : Option Nat :=
  match region a with
  | .hbm k _ => some (k / 2)
  | .ctx k _ => some (k / 2)
  | .hearth h _ => some h
  | .anvil g _ => some (g / 16)
  | _ => none

/-- Whether two runs lie on different dies: Hearths 0 to 4 are west, 5 to 9 east (R26, assumption log 10). -/
def crossDie (a b : Nat) : Bool :=
  match hearthOf a, hearthOf b with
  | some x, some y => x / 5 != y / 5
  | _, _ => false

end Sys2Proof.Machine
end

