-- ==== Sys2Proof/Machine/TongsCore.lean ====
section
/-! DEFINITION. What the stream and transport meanings share (09_ethernet_transport, 10_streams_and_jobs): tokens, the
context cache, packets and messages, stream failure, N-slot operations and their completion. -/

namespace Sys2Proof.Machine

/-! ### Tokens (R99–R101) -/

/-- A token that counts nothing. -/
def Tok.zero : Tok := ⟨0, none, 0⟩

/-- A token's state. -/
def State.tok (s : State) (t : Nat) : Tok := Tab.get (fun _ => Tok.zero) s.hammer.tok t

/-- A token's state replaced. -/
def State.setTok (s : State) (t : Nat) (x : Tok) : State :=
  { s with hammer := { s.hammer with tok := Tab.set (fun _ => Tok.zero) s.hammer.tok t x } }

/-- A token raised by `n` (R99). -/
def State.tokUp (s : State) (t n : Nat) : State := let x := s.tok t; s.setTok t { x with count := x.count + n }

/-- One operation on a token completes, with the failure it met, if any (R99, R152). -/
def State.tokDone (s : State) (job t : Nat) (f : Option Fail) : State :=
  if s.hammer.run ≠ some job then s
  else
    let x := s.tok t
    let x := { x with count := x.count - 1 }
    match f with
    | none => s.setTok t x
    | some e =>
      let x := if x.fail.isSome then x else { x with fail := some e, failAt := s.now }
      (s.setTok t x).putB HAMMER_SFLAGS_TOK_FAIL true

/-- A failure without place. -/
def Fail.of (cause p0 p1 : Nat) (loc : Word) : Fail := ⟨cause, 0, 255, p0, p1, loc, 255⟩

/-- A failure of a stream (R386): the stream in P0, the reason in P1. -/
def Fail.stream (cause strm reason : Nat) : Fail := Fail.of cause strm reason 0

/-! ### The context cache (R369–R373) -/

/-- Whether a stream's context is cached. -/
def State.cached (s : State) (n : Nat) : Bool := s.tongs.cache.any (fun c => c.strm == n)

/-- The CACHESTAT fields that mirror the queues. -/
def State.cacheStat (s : State) : State :=
  ((s.put TONGS_CACHESTAT_ADMQ s.tongs.admq.length).put TONGS_CACHESTAT_PINNED s.tongs.pinned.length).put
    TONGS_CACHESTAT_CACHED s.tongs.cache.length

/-- A stream used: the most recently used, and it has sent or received since its admission. -/
def State.touch (s : State) (n : Nat) : State :=
  match s.tongs.cache.find? (fun c => c.strm == n) with
  | none => s
  | some c =>
    { s with tongs := { s.tongs with cache := s.tongs.cache.filter (fun c => c.strm != n) ++ [{ c with acted := true }] } }

/-- A stream that must act and is not cached joins the admission queue (R371). False: the queue is full. -/
def State.wantCache (s : State) (n : Nat) : Bool × State :=
  if s.cached n || s.tongs.admq.any (fun p => p.1 == n) then (true, s)
  else if s.tongs.admq.length ≥ 1024 then (false, s)
  else
    (true, ({ s with tongs := { s.tongs with admq := s.tongs.admq ++ [(n, 0)] } }).cacheStat)

/-- The stack whose array holds a stream's context (R362). -/
def ctxStack (n : Nat) : Nat := (interleave (0x13FFF000000 + 256 * n)).1

/-- Whether a stream must keep its cache entry (R369): a message begun and not acknowledged, one of which a part has been taken,
a command in process, a response queued. -/
def Ctx.mustPin (c : Ctx) : Bool :=
  !c.unacked.isEmpty || c.txq.any (fun m => m.msn.isSome || m.resp) || !c.rx.isEmpty || c.busy > 0

/-- Whether a stream is pinned or may be at once (R370): fewer than 3,072 are, and no older request waits. -/
def State.mayPin (s : State) (n : Nat) : Bool :=
  s.tongs.pinned.contains n ||
    (s.tongs.pinned.length < 3072 && (match s.tongs.pinWait with | [] => true | m :: _ => m == n))

/-- A pin requested (R370): granted where it may be, else waiting in age order. -/
def State.pin (s : State) (n : Nat) : Bool × State :=
  if s.tongs.pinned.contains n then (true, s)
  else if s.mayPin n then
    (true, ({ s with
      tongs := { s.tongs with pinned := s.tongs.pinned ++ [n], pinWait := s.tongs.pinWait.filter (· != n) } }).cacheStat)
  else if s.tongs.pinWait.contains n then (false, s)
  else (false, { s with tongs := { s.tongs with pinWait := s.tongs.pinWait ++ [n] } })

/-- A pin released once nothing of R369 holds. -/
def State.unpin (s : State) (n : Nat) : State :=
  if (s.ctx n).mustPin then s
  else ({ s with tongs := { s.tongs with pinned := s.tongs.pinned.filter (· != n) } }).cacheStat

/-! ### Interfaces and packets -/

/-- Whether the port of interface `i` provides it (R326). -/
def State.ifcPresent (s : State) (i : Nat) : Bool :=
  let m := s.get (TONGS_PORTCFG_MODE (i / 2))
  if i % 2 = 0 then 1 ≤ m && m ≤ 6 else 4 ≤ m && m ≤ 6

/-- Segment size of an interface (R330). -/
def State.segSize (s : State) (i : Nat) : Nat := 1024 * 2 ^ s.get (TONGS_PORTCFG_SEGSZ (i / 2))

/-- The header bytes 0x00–0x1B of a packet, HOPS as given (R336). -/
def Pkt.header (p : Pkt) (hops : Nat) : List Byte :=
  toBytes 1 (p.ver * 16 + p.typ) ++ toBytes 1 p.flags ++ toBytes 1 (p.prio + 8 * hops) ++ toBytes 1 p.opc ++
  toBytes 2 p.dstrm ++ toBytes 2 p.sstrm ++ toBytes 4 p.psn ++ toBytes 4 p.msn ++ toBytes 4 p.w0 ++
  toBytes 2 p.w1 ++ toBytes 2 p.w2 ++ toBytes 4 p.clim

/-- The PCRC of a packet (R336): HOPS taken as 0. -/
def Pkt.crc (p : Pkt) : Nat := crc32c (p.header 0 ++ p.pay)

/-- A packet with its PCRC. -/
def Pkt.sealed (p : Pkt) : Pkt := { p with pcrc := p.crc }

/-- FLAGS bits. -/
def flFirst : Nat := 1
/-- LAST. -/
def flLast : Nat := 2
/-- RESP. -/
def flResp : Nat := 4
/-- ACKREQ. -/
def flAckReq : Nat := 8
/-- RETX. -/
def flRetx : Nat := 16

/-- The SACK bitmap of a context as 16 bytes. -/
def Ctx.sackBytes (c : Ctx) : List Byte := toBytes 16 c.rxsack.toNat

/-- A packet of a stream that is not DATA (R336, R337, R342). -/
def Ctx.ctlPkt (c : Ctx) (n typ flags psn : Nat) (pay : List Byte) : Pkt :=
  Pkt.sealed { ver := 1, typ := typ, flags := flags, prio := c.prio, hops := 0, opc := 0, dstrm := c.peerStrm,
               sstrm := n, psn := psn, msn := 0, w0 := if typ = 1 ∨ typ = 2 then c.rxcum else 0, w1 := 0, w2 := 0,
               clim := c.ownclim, pcrc := 0, pay := pay, net := Net.none }

/-- A packet queued in tier 1 of an interface (R374). -/
def State.sendCtl (s : State) (i : Nat) (dst : BitVec 128) (p : Pkt) : State :=
  let x := s.ifc i
  s.setIfc i { x with ctrl := x.ctrl ++ [(dst, p)] }

/-- An ACK of a stream (R344): counts of unacknowledged packets start afresh. -/
def State.sendAck (s : State) (n : Nat) : State :=
  let c := s.ctx n
  let s := s.setCtx n { c with ackCount := 0, ackSince := none }
  s.sendCtl c.ifc c.peerAddr (c.ctlPkt n 1 0 c.txnext c.sackBytes)

/-- A CRED packet of a stream (R349). -/
def State.sendCred (s : State) (n : Nat) (ask : Bool) : State :=
  let c := s.ctx n
  s.sendCtl c.ifc c.peerAddr (c.ctlPkt n 2 (if ask then flAckReq else 0) c.txnext [])

/-- An RST to a peer, at most 1,000 per second and interface (R340). -/
def State.sendRst (s : State) (i : Nat) (dst : BitVec 128) (dstrm sstrm reason : Nat) : State :=
  let x := s.ifc i
  let x := if s.now / sec = x.rstSec then x else { x with rstSec := s.now / sec, rstCnt := 0 }
  if x.rstCnt ≥ 1000 then s.setIfc i x
  else
    let p := Pkt.sealed { ver := 1, typ := 6, flags := 0, prio := 0, hops := 0, opc := 0, dstrm := dstrm, sstrm := sstrm,
                          psn := 0, msn := 0, w0 := 0, w1 := 0, w2 := 0, clim := 0, pcrc := 0, pay := toBytes 4 reason, net := Net.none }
    (s.setIfc i { x with rstCnt := x.rstCnt + 1 }).sendCtl i dst p

/-! ### N-slot operations (R185, R186) -/

/-- Job causes (R153). -/
def cSTREAM_STATE : Nat := 0x40
/-- R153. -/
def cSTREAM_LEN : Nat := 0x41
/-- R153. -/
def cSTREAM_PEER : Nat := 0x42

/-- An N-slot operation by its number. -/
def State.nopOf (s : State) (id : Nat) : Option NOp := s.tongs.nq.find? (fun o => o.id == id)

/-- An N-slot operation replaced. -/
def State.setNop (s : State) (o : NOp) : State :=
  { s with tongs := { s.tongs with nq := s.tongs.nq.map (fun p => if p.id = o.id then o else p) } }

/-- An N-slot operation completes (R185). -/
def State.nopDone (s : State) (id : Nat) (f : Option Fail) : State :=
  match s.nopOf id with
  | none => s
  | some o =>
    let s := { s with tongs := { s.tongs with nq := s.tongs.nq.filter (fun p => p.id != id) } }
    s.tokDone o.job o.tok f

/-- Number of operations waiting in the N-slot queue (R150, R364). -/
def State.nqWaiting (s : State) : Nat := (s.tongs.nq.filter (fun o => o.stage == 0)).length

/-- Whether a range may be reached by Tongs (R245, R246). -/
def State.tongsMem (s : State) (a n : Nat) : Bool :=
  match region a with
  | .csr _ => false
  | .none => false
  | _ => s.rangeOk a n

/-- The 256 bytes of a context (R363). -/
def Ctx.bytes (c : Ctx) : List Byte :=
  toBytes 1 c.typ ++ toBytes 1 c.tstate ++
  toBytes 1 (c.prio + 8 * c.ifc + (if c.listen then 32 else 0) + (if c.boot then 64 else 0)) ++ toBytes 1 c.rstrsn ++
  toBytes 2 c.weight ++ toBytes 2 c.jobkey ++ (toBytes 16 c.peerAddr.toNat).reverse ++ toBytes 2 c.peerStrm ++
  toBytes 2 c.cmdcred ++ toBytes 4 0 ++ toBytes 8 c.seed.toNat ++ toBytes 24 0 ++
  [c.txinit, c.txnext, c.txcum, c.txmsn, c.peerclim, c.rxinit, c.rxcum, c.rxmsn, c.ownclim].flatMap (toBytes 4) ++
  toBytes 4 c.rtocur ++ toBytes 1 c.expiries ++ toBytes 1 c.crstate ++ toBytes 6 0 ++ c.sackBytes ++
  (List.range 4).flatMap (fun i => match c.posted[i]? with
    | some p => toBytes 8 p.addr ++ toBytes 4 p.len ++ toBytes 4 p.tok
    | none => toBytes 16 0) ++
  toBytes 8 c.txmsgs ++ toBytes 8 c.rxmsgs ++ toBytes 4 c.retxpkts ++ toBytes 4 c.errcnt ++ toBytes 4 c.admmax ++ toBytes 36 0

/-- A peer address as it stands in a context: 16 bytes, the first octet first. -/
def addrOf (b : Nat → Nat → Nat) : BitVec 128 :=
  BitVec.ofNat 128 ((List.range 16).foldl (fun a i => a * 256 + b (8 + i) 1) 0)

/-- The stream and the byte of its context at an address of the context region (R246, R248, R362). -/
def ctxAt (a : Nat) : Option (Nat × Nat) :=
  let at' (x : Nat) : Nat × Nat := ((x - 0x13FFF000000) / 256, x % 256)
  match region a with
  | .ctx k off =>
    if a < 0x14000000000 then some (at' a)
    else
      let q := off / 4096
      some (at' ((q * 20 + (k + 20 - q % 20) % 20) * 4096 + off % 4096))
  | _ => none

/-- A context whose 256 bytes are written (R362, R363): its fields are taken from them. A posted entry that no operation
posted holds nothing. -/
def Ctx.load (c : Ctx) (l : List Byte) : Ctx :=
  let b (o n : Nat) : Nat := leAt l o n
  let post (i : Nat) (p : Posted) : Posted := { p with addr := b (0x80 + 16 * i) 8, len := b (0x88 + 16 * i) 4, tok := b (0x8C + 16 * i) 4 }
  { c with
    typ := b 0 1, tstate := b 1 1, prio := b 2 1 % 8, ifc := b 2 1 / 8 % 4, listen := bit (b 2 1) 5, rstrsn := b 3 1
    weight := b 4 2, jobkey := b 6 2, peerAddr := addrOf b, peerStrm := b 0x18 2, cmdcred := b 0x1A 2
    seed := BitVec.ofNat 64 (b 0x20 8), txinit := b 0x40 4, txnext := b 0x44 4, txcum := b 0x48 4, txmsn := b 0x4C 4
    peerclim := b 0x50 4, rxinit := b 0x54 4, rxcum := b 0x58 4, rxmsn := b 0x5C 4, ownclim := b 0x60 4, rtocur := b 0x64 4
    expiries := b 0x68 1, crstate := b 0x69 1, rxsack := BitVec.ofNat 128 (b 0x70 16)
    posted := ((List.range c.posted.length).zip c.posted).filterMap (fun p =>
      let q := post p.1 p.2
      if q.len = 0 then none else some q)
    txmsgs := b 0xC0 8, rxmsgs := b 0xC8 8, retxpkts := b 0xD0 4, errcnt := b 0xD4 4, admmax := b 0xD8 4 }

/-- `n` bytes as Tongs reads them: those of the context region are the contexts. -/
def State.tongsBytes (s : State) (a n : Nat) : List Byte :=
  if (ctxAt a).isSome then (List.range n).map (fun i =>
    match ctxAt (a + i) with
    | some (k, o) => (s.ctx k).bytes.getD o 0
    | none => s.byte (a + i))
  else s.bytes a n

/-- Bytes written by Tongs. -/
def State.tongsWrite (s : State) (a : Nat) (l : List Byte) : State :=
  if (ctxAt a).isSome then
    ((List.range l.length).foldl (fun (s : State) i =>
      match ctxAt (a + i) with
      | some (k, o) =>
        let c := s.ctx k
        s.setCtx k (c.load (c.bytes.set o (l.getD i 0)))
      | none => s) s).clearErrs a l.length
  else s.writeBytes a l

/-- Group size and rank of a peer stream (assumption log 9). -/
def groupOf (n : Nat) : Nat × Nat :=
  let g := 2 + Config.groupSize n
  (g, Config.groupRank n % g)

/-- The byte range of chunk `c` of an array of `p` partials over `g` members (R355). -/
def chunk (g p c : Nat) : Nat × Nat := (16 * (c * p / g), 16 * ((c + 1) * p / g) - 16 * (c * p / g))

/-- The chunk a member sends at step `k` of the `2 (G − 1)` steps, and the one it receives (R355). -/
def aredSend (g r k : Nat) : Nat := if k < g - 1 then (r + g - k) % g else (r + 1 + 2 * g - (k - (g - 1))) % g
/-- The chunk received at step `k`. -/
def aredRecv (g r k : Nat) : Nat := if k < g - 1 then (r + 2 * g - 1 - k) % g else (r + 2 * g - (k - (g - 1))) % g

/-- Slots combined in place in ascending order (R355, R73): the bytes and the flags. -/
def combineSlots : List Byte → List Byte → Nat → List Byte × Flags
  | own, _, 0 => (own, 0)
  | own, oth, n + 1 =>
    let a := ofBytes (own.take 16)
    let b := ofBytes (oth.take 16)
    let (x, fl) := match Part.unpack a, Part.unpack b with
      | some p, some q => ((p.combine q).1.pack, p.combFlags q)
      | _, _ => (a, fInvalid)
    let (rest, fl') := combineSlots (own.drop 16) (oth.drop 16) n
    (toBytes 16 x ++ rest, fl ||| fl')

/-- A view of the state in which rows stand as they were before unordered stores, where nothing has written them since (R200,
R202); for reading only. -/
def State.view (s : State) (st : Stale) : State :=
  st.foldl (fun s e => if s.bytes e.1 128 = e.2.2 then s.setBytes e.1 e.2.1 else s) s

/-- The location word of a transit check that fails at a Tongs buffer (R272, KIND 4). -/
def locBuffer (key : Nat) : Word := locMk 4 0 60 key

/-- The first unit of a range whose transit to a Tongs buffer arrives with a failing check (R264, R271): reported, and not armed
any more. -/
def State.takeBuffer (s : State) (consumer a n : Nat) : Option Word × State :=
  match s.transit.find? (fun k => (segs a n).any (fun p => p.1 < k + unitLen k && k < p.1 + p.2)) with
  | none => (none, s)
  | some k =>
    let w := locBuffer k
    let s := { s with transit := s.transit.filter (· != k) }
    (some w, (s.put HAMMER_ERRSUM_MEMUE 1).eventIrq 0 0x0200 3 (2 * 256) consumer w.toNat (w.toNat / 2 ^ 32))

/-- Bytes read by Tongs, `consumer` the row of R270: the bytes, with corrections and the move counted, or the location of what
fails. -/
def State.tongsRead (s : State) (consumer : Nat) (st : Stale) (a n : Nat) : Except Word (List Byte) × State :=
  match s.ueIn a n with
  | some k => (.error (locOf k), s.reportUe consumer k)
  | none =>
    match s.takeBuffer consumer a n with
    | (some w, s) => (.error w, s)
    | (none, s) => (.ok ((s.view st).tongsBytes a n), (s.correctRange a n).moved false a n)

/-- The conditions of R186 on an operation's stream: open, of an accepted type, bound to the job. -/
def State.nopStreamOk (s : State) (o : NOp) : Bool :=
  let c := s.ctx o.strm
  let key := match s.job o.job with | some j => j.key | none => 0
  let types : List Nat := match o.op with
    | 1 => [5]
    | 2 => [3, 6]
    | 3 => [2, 6]
    | 4 => [6]
    | 7 => [5]
    | _ => [1, 2, 3, 4, 5, 6]
  c.tstate == 3 && types.contains c.typ && c.jobkey == key && key != 0

/-- Bytes of the longest chunk of an array of `p` partials over `g` members (R355). -/
def chunkMax (g p : Nat) : Nat := 16 * ((p + g - 1) / g)

/-! ### Responses (R377–R382) -/

/-- Response bytes that a command of a type reserves (R378, R380). -/
def cmdNeed (ctype : Nat) : Nat := if ctype = 10 then 280 else 24

/-- A command that reserved `need` bytes is finished (R361, R370, R378): its credit returns, and the pin if nothing else holds it. A
stream whose conversation has ended since gets nothing (R368, R386). -/
def State.cmdDone (s : State) (n need : Nat) : State :=
  let c := s.ctx n
  if n ≥ 65536 then s
  else (s.setCtx n { c with busy := c.busy - 1, resv := c.resv - need, ownclim := seqAdd c.ownclim 1 }).unpin n

/-- The response to a command (R381). -/
def cmdResponse (ctype status sub ctag result : Nat) (loc : Word) : List Byte :=
  toBytes 1 ctype ++ toBytes 1 status ++ toBytes 2 sub ++ toBytes 4 ctag ++ toBytes 8 result ++ toBytes 8 loc.toNat

/-- Answer a command of stream `n` and finish it. -/
def State.respond (s : State) (n ctype status sub ctag result : Nat) (loc : Word) : State :=
  (s.queueMsg n 7 true (cmdResponse ctype status sub ctag result loc) none).cmdDone n (cmdNeed ctype)

/-- The STREAM_CLOSE that waited on a context is answered (R380): OK once closed; the status is a free value where the
stream failed instead (assumption log 6). -/
def State.closeAnswer (s : State) (c : Ctx) (failed : Bool) : State :=
  match c.closing with
  | none => s
  | some (strm, ctag) =>
    if failed then let (v, s) := s.fresh 256; s.respond strm 8 v 0 ctag 0 0
    else s.respond strm 8 0 0 ctag 0 0

/-- The job cause of a stream failure's reason (R386). For reason CLASS R338 names STREAM_STATE and R386 STREAM_PEER: which of the
two it is stays free (assumption log 35). -/
def State.failCause (s : State) (reason : Nat) : Nat × State :=
  if reason = 9 then (cSTREAM_LEN, s)
  else if reason = 8 then let (v, s) := s.fresh 2; (if v = 0 then cSTREAM_STATE else cSTREAM_PEER, s)
  else (cSTREAM_PEER, s)

/-! ### Stream failure (R385, R386) -/

/-- Outstanding N-slot operations of a stream complete with an error (R386). -/
def State.failNops (s : State) (n cause reason : Nat) : State :=
  (s.tongs.nq.filter (fun o => o.strm == n)).foldl
    (fun s o => s.nopDone o.id (some (Fail.stream cause n reason))) s

/-- A context after failure or reset of its conversation: what was queued, posted or in flight is gone. -/
def Ctx.drop (c : Ctx) : Ctx :=
  { c with posted := [], unacked := [], txq := [], rx := [], inbox := [], busy := 0, resv := 0, ackCount := 0, ackSince := none,
           ctlSent := none, expiries := 0, crstate := 0, rxsack := 0, resend := [], closing := none }

/-- What still runs for a stream whose conversation is over no longer answers on it (R368, R386): its Crucible commands
and cancellations name no stream. -/
def State.orphan (s : State) (n : Nat) : State :=
  let cs (x : CSrc) : CSrc := match x with
    | .host m ctag => .host (if m = n then 65536 else m) ctag
    | .job j t => .job j t
  let cc (x : CCmd) : CCmd := { x with src := cs x.src }
  let cr (x : Option (CCmd × CRes)) : Option (CCmd × CRes) := x.map (fun p => (cc p.1, p.2))
  let cl (x : Option (Nat × Nat)) : Option (Nat × Nat) := x.map (fun p => (if p.1 = n then 65536 else p.1, p.2))
  let jb (j : Job) : Job := { j with cancel := j.cancel.map (fun p => (p.1, if p.2.1 = n then 65536 else p.2.1, p.2.2)) }
  { s with
    crucs := s.crucs.map (fun p =>
      (p.1, { p.2 with p := p.2.p.map cc, n := p.2.n.map cc, h := p.2.h.map cc, run := cr p.2.run, susp := cr p.2.susp }))
    jobs := s.jobs.map (fun p => (p.1, p.2.map jb))
    tongs := { s.tongs with
      hostCruc := s.tongs.hostCruc.map (fun h => { h with strm := if h.strm = n then 65536 else h.strm })
      ctx := s.tongs.ctx.map (fun p => (p.1, { p.2 with closing := cl p.2.closing })) } }

/-- What waits in Tongs for a stream whose conversation is over is gone: its pin request and the packets put aside. -/
def State.forget (s : State) (n : Nat) : State :=
  { s with
    tongs := { s.tongs with
      pinWait := s.tongs.pinWait.filter (· != n), held := s.tongs.held.filter (fun e => e.2.2.dstrm != n) } }

/-- A stream fails (R385, R386). `rst`: whether the peer is told. -/
def State.failStream (s : State) (n reason : Nat) (rst : Bool) : State :=
  let c := s.ctx n
  if c.tstate = 5 then s
  else
    let s := if rst ∧ (c.tstate = 2 ∨ c.tstate = 3 ∨ c.tstate = 4) then s.sendRst c.ifc c.peerAddr c.peerStrm n reason else s
    let s := s.setCtx n { c.drop with
      tstate := 5, rstrsn := reason, errcnt := min (c.errcnt + 1) (2 ^ 32 - 1), failedAt := some s.now }
    let s := (((s.orphan n).closeAnswer c true).forget n)
    let s := (s.put HAMMER_ERRSUM_STREAM 1).eventIrq 20 0x0400 3 (2 * 256) n reason 0
    let (cause, s) := s.failCause reason
    (s.unpin n).failNops n cause reason

end Sys2Proof.Machine
end

