-- ==== Sys2Proof/Machine/JobsCore.lean ====
section
/-! DEFINITION. Jobs (R387–R400, R107–R109): the job table, completion records, selection, the start and resume of a job,
heat executions, and a job's end. -/

namespace Sys2Proof.Machine

/-- Cause CANCELLED (R391). -/
def cCANCELLED : Nat := 0x50

/-- The jobs in the table, by JOBID. -/
def State.jobList (s : State) : List (Nat × Job) :=
  s.jobs.filterMap (fun p => match p.2 with | some j => some (p.1, j) | none => none)

/-- JOBSTAT follows the table (R401). -/
def State.jobStat (s : State) : State :=
  let l := s.jobList
  let s := s.put TONGS_JOBSTAT_RUNJOB (s.hammer.run.getD 255)
  (s.put TONGS_JOBSTAT_WAITING (l.filter (fun p => p.2.st != .running)).length).put TONGS_JOBSTAT_USED l.length

/-! ### Completion records (R393–R400) -/

/-- The generation of a slot (R396). -/
def ringGen (ridx log2n : Nat) : Nat := ridx / 2 ^ log2n % 65535 + 1

/-- The 64 bytes of a record (R393). `st`: 0 EMPTY, 1 RUNNING, 2 DONE, 3 FAILED. -/
def recordBytes (id : Nat) (j : Job) (st gen aflags : Nat) (f : Option Fail) (elapsed bundles : Nat) : List Byte :=
  let e := f.getD (Fail.of 0 0 0 0)
  let fin : Bool := st ≥ 2
  let z (b : Bool) (v : Nat) : Nat := if b then v else 0
  toBytes 1 st ++ toBytes 1 j.cls ++ toBytes 2 gen ++ toBytes 4 j.ridx ++ toBytes 8 j.tag.toNat ++
  toBytes 2 (z fin e.cause) ++ toBytes 2 (z fin aflags) ++ toBytes 2 (z fin j.cflags.toNat) ++ toBytes 1 id ++
  toBytes 1 (if fin then e.fanvil else 0) ++ toBytes 4 (z fin e.fpc) ++ toBytes 4 (z fin e.p0) ++ toBytes 4 (z fin e.p1) ++
  toBytes 4 (z fin elapsed) ++ toBytes 8 (z fin e.loc.toNat) ++ toBytes 8 (z fin bundles) ++ toBytes 4 (z fin j.switches) ++
  toBytes 4 0

/-- The address of a ring's slot for an absolute index (R395, R396). -/
def State.slotAddr (s : State) (r ridx : Nat) : Nat :=
  s.get (TONGS_RING_CFG_BASE r) * 64 + ridx % 2 ^ s.get (TONGS_RING_CFG_LOG2N r) * 64

/-- Write a job's record (R394, R399, R400): into the ring while it is enabled, pushed and recorded as R399 and R400
say once the job has ended. -/
def State.writeRecord (s : State) (id : Nat) (j : Job) (st aflags : Nat) (f : Option Fail) (elapsed bundles : Nat) : State :=
  let n := s.get (TONGS_RING_CFG_LOG2N j.ring)
  let b := recordBytes id j st (ringGen j.ridx n) aflags f elapsed bundles
  let lost := s.on (TONGS_RING_CFG_LOST j.ring)
  let s := if n = 0 ∨ lost then s else s.writeBytes (s.slotAddr j.ring j.ridx) b
  if st < 2 then s
  else
    let s := if s.on (TONGS_RING_CFG_PUSH j.ring) then
      { s with tongs := { s.tongs with push := s.tongs.push ++ [(j.ring, b, s.now)] } } else s
    if lost then
      let cont (i : Nat) : Evt := evt s 0x0008 0 (2 * 256 + j.ring) (leAt b (12 * i) 4) (leAt b (12 * i + 4) 4) (leAt b (12 * i + 8) 4)
      (s.eventGroup (evt s 0x0404 3 (2 * 256 + j.ring) j.ring 0 0 :: (List.range 6).map cont)).2
    else s

/-! ### Selection (R389) -/

/-- The effective class of a waiting job. -/
def State.effClass (s : State) (j : Job) : Nat := min 7 (j.cls + (s.now - j.waitFrom) / (s.get TONGS_JOBCFG_JAGE * ms))

/-- The waiting job selected: highest effective class, then earliest acceptance. A job reaches Hammer's class queues in an
open frame (R405). -/
def State.selectJob (s : State) : Option (Nat × Job) :=
  (s.jobList.filter (fun p => p.2.st != .running && p.2.frame ≤ s.core.openAt)).foldl (fun acc p =>
    match acc with
    | none => some p
    | some q =>
      if s.effClass p.2 > s.effClass q.2 ∨ (s.effClass p.2 = s.effClass q.2 ∧ p.2.accepted < q.2.accepted) then some p else acc) none

/-- The job a SWOK marker would switch to (R389). -/
def State.switchTarget (s : State) : Option Nat :=
  match s.hammer.run, s.selectJob with
  | some r, some (id, j) =>
    match s.job r with
    | none => none
    | some cur =>
      let e := s.effClass j
      if e > cur.cls ∨ (e = cur.cls ∧ s.now - s.hammer.entered ≥ s.get TONGS_JOBCFG_QUANTUM * 100 * us) then some id else none
  | _, _ => none

/-! ### Heat executions (R215, R226, R230, R231) -/

/-- The generators of all Anvils on entering a heat (R81). -/
def State.seedHeat (s : State) (seed : Word) (count : Nat) : State :=
  (List.range 160).foldl (fun s g => s.wr (ANVIL_SRGEN g) (srStart seed g count)) s

/-- A heat-table entry read, without an uncorrectable error: corrected, and counted at the Hammer store (R269, R406). -/
def State.readHeat (s : State) (i : Img) (h : Nat) : State :=
  (s.correctRange (i.heatAddr h) 64).moved false (i.heatAddr h) 64

/-- A heat execution begins with the first bundle of its variant (R215, R226, R231): operating point requested, generators,
energy account, trace. -/
def State.heatBegin (s : State) (b : Begin) : State :=
  let s := { s with
    hammer := { s.hammer with
      heatId := b.heat, var := b.var, coll := b.coll, heatCount := b.count, start := none, heatStart := s.cyc }
    temper := { s.temper with reqOp := b.op, heatOp := b.op, hcnt := s.classTotals, uvar := .fin false 0 0 } }
  let s := (s.put HAMMER_PCSTAT_HEAT b.heat).put HAMMER_PCSTAT_VAR b.var
  let s := (s.seedHeat b.seed b.count).traced 2 (b.heat * 2 ^ 20 + b.var * 2 ^ 18)
  if b.heat = s.get HAMMER_TRCFG_THEAT then s.traceTrig 2 else s

/-- What waits for the first bundle of a variant begins with it. -/
def State.heatStarts (s : State) : State := match s.hammer.start with | some b => s.heatBegin b | none => s

/-- A heat execution ends (R239, R431, R432): its record learns unless the heat is NOLEARN or the job failed. -/
def State.heatEnd (s : State) (learn : Bool) : State :=
  let s := s.heatSample
  let s := { s with hammer := { s.hammer with coll := false } }
  match s.hammer.run.bind s.job with
  | none => s
  | some j =>
    match s.image j.img with
    | none => s
    | some i =>
      let e := s.heatEntry i s.hammer.heatId
      if learn && !e.nolearn then
        let k := recKey i.base s.hammer.heatId s.hammer.var
        s.setRec k (s.learned (s.recOf k) s.temper.heatOp (s.cyc - s.hammer.heatStart) s.temper.uvar)
      else s

/-! ### Start, switch and end -/

/-- OR of the 160 `AFLAGS` (R93). -/
def State.allFlags (s : State) : Nat :=
  (List.range 160).foldl (fun a g => Nat.lor a (s.rd (ANVIL_AFLAGS g)).toNat) 0

/-- `AFLAGS` of every Anvil set (R93, R108). -/
def State.setFlags (s : State) (f : Nat → Word) : State :=
  (List.range 160).foldl (fun s g => s.wr (ANVIL_AFLAGS g) (f g)) s

/-- The job leaves the table with its last record (R393, R394); its failure is recorded, counted and raised, its
canceller answered (R390). `aflags`, `elapsed`, `bundles`: what the record carries. -/
def State.retire (s : State) (id : Nat) (j : Job) (f : Option Fail) (aflags elapsed bundles : Nat) : State :=
  let s := s.writeRecord id j (if f.isSome then 3 else 2) aflags f elapsed bundles
  let s := (s.setJob id none).traced 7 ((if f.isSome then 3 else 2) * 256 + id)
  let s := match f with
    | none => s.inc HAMMER_JOBCNT_DONE
    | some e =>
      let s := ((s.inc HAMMER_JOBCNT_FAILED).put HAMMER_ERRSUM_JOBFAIL 1).traceTrig 1
      s.eventIrq 23 (0x0100 + e.cause) 3 0 (id * 2 ^ 24 + j.ridx % 2 ^ 24) e.fpc e.p0
  let s := j.cancel.foldl (fun s p => s.respond p.2.1 2 0 0 p.2.2 0 0) s
  s.jobStat

/-- AFLAGS of the record of a job that ends while it does not hold Hammer (R93, R393): what its Anvils' flags held when it
was switched out, with INVALID of its `ared.pp`. DESIGN CHOICE: R93 speaks of the 160 flags at that moment, when they belong to
another job (assumption log 161). -/
def Saved.flagsOr (v : Saved) (j : Job) : Nat := v.aflags.foldl (fun a p => Nat.lor a p.2.toNat) j.rflags.toNat

/-- A job that ends before it issues anything (R143, R235, R390): AFLAGS 0, no flag having been raised for it (DESIGN CHOICE,
assumption log 161). -/
def State.endUnstarted (s : State) (id : Nat) (j : Job) (cause : Nat) (loc : Word) : State :=
  s.retire id j (some { Fail.of cause 0 0 0 with loc := loc }) 0 0 0

/-- Where a job takes Hammer: R98 for a start, R108 and R109 for a resume. The answer is none when the job ends
instead (R143, R229, R235, R275). -/
def State.enterJob (s : State) (id : Nat) (j : Job) : State :=
  match s.image j.img with
  | none => s.endUnstarted id j 0x03 0
  | some i =>
    let (heat, coll) := match j.saved with | some v => (v.heat, v.coll) | none => (j.entry, false)
    let bundles := match j.saved with | some v => v.pos | none => 0
    let elapsed := if j.saved.isSome then min (2 ^ 32 - 1) ((s.now - j.started) / us) else 0
    let flags := match j.saved with | some v => v.flagsOr j | none => 0
    let bad (c : Nat) (loc : Word) : State := s.retire id j (some { Fail.of c 0 0 0 with loc := loc }) flags elapsed bundles
    if (i.reqmask &&& ~~~ s.hammer.avail) ≠ 0 then bad 0x05 0
    else if heat ≥ i.heatCount then bad 0x06 0
    else
      match s.ueIn (i.heatAddr heat) 64 with
      | some k => (s.reportUe 9 k).retire id j (some { Fail.of 0x04 0 0 0 with loc := locOf k }) flags elapsed bundles
      | none =>
        let (c, e, s) := (s.readHeat i heat).chooseHeat i heat coll
        let s := s.noteFit c
        let h := s.hammer
        let h : Hammer := match j.saved with
          | none =>
            { Hammer.reset with
              avail := h.avail, beaconAt := h.beaconAt, beaconUp := h.beaconUp, run := some id, entered := s.now
              s := [(0, j.arg), (1, j.seed), (2, BitVec.ofNat 64 j.entry)].filter (fun p => p.2 != 0)
              group := if j.gflags % 2 = 1 then some j.group else none, follow := j.gflags / 2 % 2 == 1 }
          | some v =>
            { Hammer.reset with
              avail := h.avail, beaconAt := h.beaconAt, beaconUp := h.beaconUp, run := some id, entered := s.now, s := v.s, amask := v.amask
              pos := v.pos, heatCount := v.heatCount + 1, group := v.group, follow := v.follow, faults := v.faults }
        let s := { s with hammer := h, anvils := [] }
        let s := match j.saved with
          | none => (s.wr HAMMER_SFLAGS 0).setFlags (fun _ => 0)
          | some v => (s.wr HAMMER_SFLAGS v.sflags).setFlags (fun g => (Tab.get (fun _ => (0 : Flags)) v.aflags g).setWidth 64)
        let started := if j.saved.isSome then j.started else s.now
        let j := { j with st := .running, saved := none, started := started }
        let s := if bundles = 0 ∧ elapsed = 0 ∧ j.switches = 0 then s.writeRecord id j 1 0 none 0 0 else s
        let s := ((s.setJob id (some j)).put HAMMER_PCSTAT_RUN 1).put HAMMER_PCSTAT_IMG_BASE (i.base * 4)
        let b : Begin := ⟨heat, c.var, e.op.getD c.var 0, coll, j.seed, s.hammer.heatCount⟩
        let s := { s with hammer := { s.hammer with pc := e.entry.getD c.var 0, start := some b } }
        s.jobStat

/-- The running job gives up Hammer to wait (R108, R234): its state saved at heat `heat`. -/
def State.saveJob (s : State) (id : Nat) (j : Job) (heat : Nat) (coll : Bool) : State :=
  let v : Saved :=
    { s := s.hammer.s, sflags := s.rd HAMMER_SFLAGS, amask := s.hammer.amask, heat := heat, coll := coll
      aflags := ((List.range 160).map (fun g => (g, (s.rd (ANVIL_AFLAGS g)).setWidth 10))).filter (fun p => p.2 != 0)
      pos := s.hammer.pos, heatCount := s.hammer.heatCount, group := s.hammer.group, follow := s.hammer.follow
      faults := s.hammer.faults }
  s.setJob id (some { j with st := .switched, waitFrom := s.now, switches := j.switches + 1, saved := some v })

/-- Hammer without a job: what a job held is gone, the grant of operating points falls to OP0 (R421). -/
def State.hammerIdle (s : State) : State :=
  let h := s.hammer
  let s := { s with hammer := { Hammer.reset with avail := h.avail, beaconAt := h.beaconAt, beaconUp := h.beaconUp, amask := h.amask }
                    temper := { s.temper with reqOp := 0, reqHint := 0 } }
  s.put HAMMER_PCSTAT_RUN 0

end Sys2Proof.Machine
end

