-- ==== Sys2Proof/Machine/Net.lean ====
section
/-! DEFINITION. Interfaces, addresses, neighbours and frames (R326, R330–R336, R356, R551, R552): what stands around a packet as
it is sent and as it is received. Interface 4 is the management port. -/

namespace Sys2Proof.Machine

/-! ### Interfaces and addresses (R326, R330, R332, R333, R551, R552) -/

/-- Port of an interface; 2 is the management port's. -/
def portOf (i : Nat) : Nat := i / 2

/-- Whether the device is in chain topology (R356). -/
def State.chain (s : State) : Bool := s.get TONGS_XPORT_TOPO == 2

/-- The IPv6 form of an IPv4 address (R363). -/
def mapped4 (a : Nat) : BitVec 128 := BitVec.ofNat 128 (0xFFFF * 2 ^ 32 + a % 2 ^ 32)

/-- Whether an address stands for an IPv4 address. -/
def isMapped4 (a : BitVec 128) : Bool := a.toNat / 2 ^ 32 == 0xFFFF

/-- Whether an address is link-local. -/
def isLinkLocal (a : BitVec 128) : Bool := a.toNat / 2 ^ 118 == 0x3FA

/-- Whether the management port serves the network functions (R551): it is enabled, its link is up, and firmware runs. The ROM in
recovery serves nothing but two commands (R609). -/
def State.mgmtUp (s : State) : Bool :=
  s.pwr.alive && s.on MGMT_CFG_ENABLE && s.on MGMT_STAT_LINK && s.secb.running.isSome

/-- What the model keeps of an interface beside its registers. -/
def State.port (s : State) (i : Nat) : Ifc := if i = 4 then s.mgmt.ifc else s.ifc i

/-- The same replaced. -/
def State.setPort (s : State) (i : Nat) (x : Ifc) : State :=
  if i = 4 then { s with mgmt := { s.mgmt with ifc := x } } else s.setIfc i x

/-- Whether an interface takes and sends frames. -/
def State.portUp (s : State) (i : Nat) : Bool := if i = 4 then s.mgmtUp else (s.ifc i).up

/-- The MAC address field of an interface (R332, R552). -/
def macFd (i : Nat) : Fd := if i = 4 then MGMT_MAC_MAC else TONGS_IF_MAC_MAC i

/-- The DUP field of an interface (R333, R561). -/
def dupFd (i : Nat) : Fd := if i = 4 then MGMT_V6CFG_DUP else TONGS_IF_V6CFG_DUP i

/-- The configured global address of an interface (R333, R561). -/
def State.global6 (s : State) (i : Nat) : BitVec 128 :=
  if i = 4 then s.rd MGMT_IPV6H ++ s.rd MGMT_IPV6L else s.rd (TONGS_IF_IPV6H i) ++ s.rd (TONGS_IF_IPV6L i)

/-- The configured IPv4 address of an interface, 0 where none is in use (R332, R333, R561). -/
def State.addr4 (s : State) (i : Nat) : Nat :=
  if i = 4 then (if s.on MGMT_CFG_IPV4_EN then s.get MGMT_IPV4_ADDR else 0)
  else if s.on TONGS_XPORT_IPV4_EN then s.get (TONGS_IF_IPV4_ADDR i) else 0

/-- The link-local address of an interface: fe80::/64 with the modified EUI-64 identifier of its MAC (R332). -/
def State.linkLocal (s : State) (i : Nat) : BitVec 128 :=
  let m := s.get (macFd i)
  let hi := m / 2 ^ 24
  let id := Nat.xor hi 0x020000 * 2 ^ 40 + 0xFFFE * 2 ^ 24 + m % 2 ^ 24
  BitVec.ofNat 128 (0xFE80 * 2 ^ 112 + id)

/-- Whether an interface answers for an IPv6 address: its link-local one, and the global one once duplicate detection
has passed (R332–R334). -/
def State.owns6 (s : State) (i : Nat) (a : BitVec 128) : Bool :=
  a == s.linkLocal i || (a != 0 && a == s.global6 i && !s.on (dupFd i) && (s.port i).dadUntil.isNone)

/-- Whether an interface answers for an IPv4 address. -/
def State.owns4 (s : State) (i a : Nat) : Bool := a != 0 && a == s.addr4 i

/-- Whether an address, of either family, is one of an interface. -/
def State.owns (s : State) (i : Nat) (a : BitVec 128) : Bool :=
  if isMapped4 a then s.owns4 i (a.toNat % 2 ^ 32) else s.owns6 i a

/-! ### Frames sent (R330, R335, R336, R356) -/

/-- The VLAN ID that the frames of a port carry (R330, R561). -/
def State.vidOf (s : State) (port : Nat) : Option Nat :=
  if port = 2 then s.mgmtVid
  else if s.on (TONGS_PORTCFG_VLAN_EN port) then some (s.get (TONGS_PORTCFG_VID port)) else none

/-- A frame sent. -/
def State.emit (s : State) (f : Frame) : State :=
  if f.ifc = 4 then { s with mgmt := { s.mgmt with frames := s.mgmt.frames ++ [f] } }
  else { s with tongs := { s.tongs with wire := s.tongs.wire ++ [f] } }

/-- A frame of interface `i` sent on a port, with the port's tag. -/
def State.put1 (s : State) (i port : Nat) (b : Body) : State := s.emit ⟨i, port, s.vidOf port, true, b⟩

/-- A multicast or broadcast frame: in a chain, on both ports (R356). -/
def State.putAll (s : State) (i : Nat) (b : Body) : State :=
  if s.chain && i != 4 then (s.put1 i 0 b).put1 i 1 b else s.put1 i (portOf i) b

/-- The 16-bit words of bytes summed, the first byte of each the higher. -/
def sumWords : List Byte → Nat
  | a :: b :: r => a.toNat * 256 + b.toNat + sumWords r
  | [a] => a.toNat * 256
  | [] => 0

/-- The ones' complement sum, folded to 16 bits. -/
def foldOnes (n : Nat) : Nat := let m := n % 65536 + n / 65536; m % 65536 + m / 65536

/-- The words of an address in the pseudo-header. -/
def addrWords (a : BitVec 128) : Nat :=
  ((List.range (if isMapped4 a then 2 else 8)).map (fun i => a.toNat / 2 ^ (16 * i) % 65536)).foldl (· + ·) 0

/-- The UDP payload of a packet. -/
def Pkt.wireBytes (p : Pkt) : List Byte := p.header p.hops ++ toBytes 4 p.pcrc ++ p.pay

/-- The UDP checksum of a packet between two addresses (R335), as the standards of UDP lay down. -/
def Pkt.udpSum (p : Pkt) (src dst : BitVec 128) : Nat :=
  let l := p.wireBytes
  let n := l.length + 8
  let c := 65535 - foldOnes (addrWords src + addrWords dst + 17 + n + p.net.sport + p.net.dport + n + sumWords l)
  if c = 0 then 65535 else c

/-- The address an interface sends from: of the family and scope of the destination (PRESUMED, assumption log 153). -/
def State.srcAddr (s : State) (i : Nat) (dst : BitVec 128) : BitVec 128 :=
  if isMapped4 dst then mapped4 (s.addr4 i)
  else if !isLinkLocal dst && s.owns6 i (s.global6 i) then s.global6 i
  else s.linkLocal i

/-- A packet with its IP and UDP headers (R335, R336). -/
def State.netOut (s : State) (i : Nat) (dst : BitVec 128) (p : Pkt) : Pkt :=
  let p := { p with
    net := ⟨dst, 64, isMapped4 dst, 8 * p.prio, p.prio, Config.udpSource p.sstrm % 65536, s.get TONGS_XPORT_UDPPORT, 0⟩ }
  { p with net := { p.net with sum := p.udpSum (s.srcAddr i dst) dst } }

/-- A packet relayed: HOPS one higher, PCRC unchanged (R356), and the UDP checksum following HOPS (DEDUCED: R335 has the next
receiver drop it otherwise; assumption log 153). -/
def Pkt.hop (p : Pkt) : Pkt :=
  let c := if p.net.sum = 0 then 0 else 65535 - foldOnes (65535 - p.net.sum + 8 * 256)
  { p with hops := p.hops + 1, net := { p.net with sum := if p.net.sum ≠ 0 ∧ c = 0 then 65535 else c } }

/-! ### Frames received (R264, R330, R331, R334, R335) -/

/-- A frame dropped without reply and counted (R264, R334). -/
def State.dropFrame (s : State) (i : Nat) : State :=
  if i = 4 then { s with mgmt := { s.mgmt with dropped := s.mgmt.dropped + 1 } }
  else
    { s with
      tongs := { s.tongs with
        dropped := Tab.set (fun _ => 0) s.tongs.dropped i (Tab.get (fun _ => 0) s.tongs.dropped i + 1) } }

/-- Whether a frame passes what is checked of every frame: its FCS, its tag, and that it is no IP fragment. A tagged frame where
no tag is configured passes (DESIGN CHOICE, assumption log 153). -/
def State.frameOk (s : State) (e : EthIn) : Bool :=
  e.fcs && !e.frag && (match s.vidOf (portOf e.i) with | some v => e.vid == some v | none => true)

/-- Codewords that could not be corrected, counted (R331). -/
def State.countUcw (s : State) (i n : Nat) : State := if n = 0 ∨ i ≥ 4 then s else s.add (TONGS_PORTSTAT_FEC_UCW (portOf i)) n

/-- A frame's arrival at an interface that is up: `f` takes it, or it is dropped and counted. -/
def State.frameIn (s : State) (e : EthIn) (f : State → State) : State :=
  if e.i > 4 ∨ s.portUp e.i = false then s
  else
    let s := s.countUcw e.i e.ucw
    if s.frameOk e then f s else s.dropFrame e.i

/-- Whether a packet is for this device's transport and its UDP checksum, where it has one, is right (R334, R335, R336). -/
def State.netOk (s : State) (i : Nat) (src : BitVec 128) (p : Pkt) : Bool :=
  i < 4 && p.net.dport == s.get TONGS_XPORT_UDPPORT && s.owns i p.net.dst &&
    (p.net.sum == 0 || p.net.sum == p.udpSum src p.net.dst)

/-! ### Neighbours (R334) -/

/-- The neighbour entry of an address. -/
def State.nbr (s : State) (i : Nat) (a : BitVec 128) : Option Nbr :=
  s.tongs.nbr.find? (fun e => e.ifc == i && e.addr == a)

/-- Whether a peer address is resolved and reachable (R334). -/
def State.known (s : State) (i : Nat) (a : BitVec 128) : Bool :=
  match s.nbr i a with
  | some e => e.mac.isSome && s.now < e.at_ + 30 * sec
  | none => false

/-- A neighbour entry put at the most recently used place; 1,024 entries, the least recently used replaced (R334). -/
def State.putNbr (s : State) (e : Nbr) : State :=
  let l := s.tongs.nbr.filter (fun x => !(x.ifc == e.ifc && x.addr == e.addr))
  let l := l.drop (l.length - 1023)
  { s with tongs := { s.tongs with nbr := l ++ [e] } }

/-- A neighbour entry used: it is the most recently used. -/
def State.useNbr (s : State) (i : Nat) (a : BitVec 128) : State := match s.nbr i a with | some e => s.putNbr e | none => s

/-- One resolution attempt: a solicitation or an ARP request (R334). -/
def State.solicit (s : State) (i : Nat) (a : BitVec 128) : State :=
  s.putAll i (if isMapped4 a then .arp false (BitVec.ofNat 32 a.toNat) else .nsol a)

/-- Resolution of a peer address on demand (R334): the first of three attempts, unless one is under way. -/
def State.resolve (s : State) (i : Nat) (a : BitVec 128) : State :=
  if s.known i a then s
  else
    match s.nbr i a with
    | some e => if e.mac.isNone then s else (s.putNbr { e with mac := none, tries := 1, at_ := s.now }).solicit i a
    | none => (s.putNbr ⟨i, a, none, portOf i, 1, s.now⟩).solicit i a

/-- The port a unicast frame leaves on: in a chain, the one on which the neighbour was learned (R356). -/
def State.egress (s : State) (i : Nat) (a : BitVec 128) : Nat :=
  if s.chain && i != 4 then match s.nbr i a with | some e => e.port | none => portOf i else portOf i

/-- A transport packet sent to a resolved address; `bad`: its check failed on the way to the frame, which ends with an invalid FCS
and is counted (R264). -/
def State.sendPkt (s : State) (i : Nat) (dst : BitVec 128) (p : Pkt) (bad : Bool) : State :=
  let port := s.egress i dst
  let s := s.useNbr i dst
  let s := if bad then
      { s with
        tongs := { s.tongs with
          spoilt := Tab.set (fun _ => 0) s.tongs.spoilt i (Tab.get (fun _ => 0) s.tongs.spoilt i + 1) } }
    else s
  s.emit ⟨i, port, s.vidOf port, !bad, .pkt dst (s.netOut i dst p)⟩

end Sys2Proof.Machine
end

