-- ==== Sys2Proof/Machine/Transport.lean ====
section
/-! DEFINITION. The transport's shared parts (R339–R355, R364, R369–R372, R378): streams that open and close, N-slot operations
that begin, messages received and delivered, acknowledgement and retransmission. -/

namespace Sys2Proof.Machine

/-- Boot streams are present while BOOT_EN is set (R365). -/
def State.present (s : State) (n : Nat) : Bool := n ≥ 4 || s.on TONGS_SCFG_BOOT_EN

/-! ### Opening and closing (R351) -/

/-- A message target is reachable again: copies held for it are delivered, and assertions that found no target are assigned, in
the order of priority (R565, R570). -/
def State.targetBack (s : State) (t : Nat) : State :=
  if s.targetUp t = false then s
  else
    (s.byPrio (List.range 256)).foldl (fun s n =>
      let x := s.src n
      let (held, out) := if t = 2 then (x.heldH, x.outH) else (x.heldRM, x.outRM)
      if held.isSome ∧ out.isNone then s.deliver n t
      else if x.waits ∧ bit (s.get (BIC_SRCCFG_TEN n)) t then s.route n
      else s) s

/-- The credit limit of a newly opened stream (R361). -/
def Ctx.firstClim (c : Ctx) : Nat := if c.typ = 1 then c.cmdcred else 0

/-- A conversation begins: the peer's first PSN known, message numbers from 0 (R342, R348). -/
def Ctx.begin (c : Ctx) (peer clim now : Nat) : Ctx :=
  ({ c with
    tstate := 3, rxinit := peer, rxcum := seqAdd peer 1, rxmsn := 0, rxsack := 0, txmsn := 0, peerclim := clim
    txcum := seqAdd c.txinit 1, txnext := seqAdd c.txinit 1, ownclim := c.firstClim, rtocur := 0, expiries := 0
    unacked := [], ctlSent := none } : Ctx).credit now

/-- The stream is open: its retransmission timeout starts at RTO0. -/
def State.opened (s : State) (n : Nat) : State :=
  let s := s.setCtx n { s.ctx n with rtocur := s.get TONGS_RETX_RTO0 }
  if n = s.get BIC_HOSTCFG_STRM then s.targetBack 2 else s

/-- An OPENACK (R351). -/
def State.sendOpenAck (s : State) (n : Nat) : State :=
  let c := s.ctx n
  s.sendCtl c.ifc c.peerAddr (c.ctlPkt n 4 0 c.txinit [])

/-- An OPENING stream sends its OPEN once its interface is up; it then counts as unacknowledged (R351, R366). -/
def State.sendOpen (s : State) (n : Nat) : State :=
  let c := s.ctx n
  if c.tstate ≠ 2 ∨ c.ctlSent.isSome ∨ (s.ifc c.ifc).up = false then s
  else
    let (v, s) := s.fresh (2 ^ 32)
    let c : Ctx := { c with txinit := v, rtocur := s.get TONGS_RETX_RTO0, ctlSent := some s.now, ownclim := c.firstClim }
    let p := c.ctlPkt n 3 0 v []
    (s.setCtx n { c with unacked := [⟨p, s.now, s.now, none⟩] }).sendCtl c.ifc c.peerAddr p

/-- A stream leaves its conversation: to LISTEN where its context listens, with its configured peer, else to CLOSED
(R351). What was outstanding on it completes with STREAM_STATE. `forced`: closed by STREAM_CLOSE. -/
def State.closed (s : State) (n : Nat) (forced : Bool) : State :=
  let c := s.ctx n
  let t := if c.listen && !forced then 1 else 0
  let s := s.setCtx n { c.drop with
    tstate := t, peerAddr := if t = 1 then c.cfgAddr else c.peerAddr, peerStrm := if t = 1 then c.cfgStrm else c.peerStrm }
  let s := ((s.orphan n).closeAnswer c false).forget n
  (s.unpin n).failNops n cSTREAM_STATE 0

/-- A close requested and nothing unacknowledged: CLOSE is sent (R351). -/
def State.tryClose (s : State) (n : Nat) : State :=
  let c := s.ctx n
  if c.tstate = 3 && c.closing.isSome && c.unacked.isEmpty && c.txq.isEmpty then
    let p := c.ctlPkt n 5 0 c.txnext []
    (s.setCtx n { c with tstate := 4, txnext := seqAdd c.txnext 1, unacked := [⟨p, s.now, s.now, none⟩] }).sendCtl
      c.ifc c.peerAddr p
  else s

/-! ### Credits (R348–R350) -/

/-- A credit limit heard: the most advanced one counts. -/
def State.hearClim (s : State) (n clim : Nat) : State :=
  let c := s.ctx n
  let new := seqLt c.peerclim clim
  let c := if new then { c with peerclim := clim } else c
  let was := c.crstate
  let ready := seqLt c.txmsn c.peerclim
  let c : Ctx :=
    if was = 0 then c
    else if ready then
      { c with crstate := 0, txq := c.txq.map (fun m => if m.msn.isNone then { m with ready := s.now } else m) }
    else if was = 2 then { c with crstate := 1, blockedAt := s.now }
    else if new then { c with blockedAt := s.now }
    else c
  s.setCtx n c

/-! ### Writes of Tongs (R142, R246, R256, R264, R270, R384) -/

/-- Code units that a write covers only in part (R256, R270), among those with an error of a kind. -/
def State.partUnits (s : State) (kind a n : Nat) : List Nat :=
  (s.errUnits kind a n).filter (fun k => !(segs a n).any (fun p => p.1 ≤ k && k + unitLen k ≤ p.1 + p.2))

/-- Images of the Hammer store that a range touches. -/
def State.imagesIn (s : State) (a n : Nat) : List Img :=
  s.tongs.images.filter (fun i => a < i.addr + i.bytes && i.addr < a + n)

/-- Whether a job is queued, running or switched out against an image. -/
def State.imageBusy (s : State) (base : Nat) : Bool := s.jobList.any (fun p => p.2.img == base)

/-- An image released with its P records (R220, R380). -/
def State.unloadImage (s : State) (base : Nat) : State :=
  let lo := recKey base 0 0
  { s with
    tongs := { s.tongs with images := s.tongs.images.filter (fun i => i.base != base) }
    temper := { s.temper with recs := s.temper.recs.filter (fun p => p.1 < lo || lo + 16384 ≤ p.1) }
    errs := s.errs.filter (fun p => p.1 < recErr lo || recErr lo + 16384 ≤ p.1) }

/-- Bytes that Tongs writes to memory: 0 where they are written; 1 out of reach, 2 a unit that cannot be read or a check that fails
in transit, 3 an image in use, with the location, and nothing written. -/
def State.tongsStore (s : State) (a : Nat) (l : List Byte) : Nat × Word × State :=
  let n := l.length
  if s.tongsMem a n = false then (1, locRefused a, s)
  else if (s.imagesIn a n).any (fun i => s.imageBusy i.base) then (3, 0, s)
  else
    match (s.partUnits 2 a n).head? with
    | some k => (2, locOf k, s.reportUe 7 k)
    | none =>
      match s.takeTransit 7 a n with
      | (some w, s) => (2, w, s)
      | (none, s) =>
        let s := (s.imagesIn a n).foldl (fun (s : State) i => s.unloadImage i.base) s
        let s := (s.partUnits 1 a n).foldl State.correct s
        (0, 0, (s.tongsWrite a l).moved false a n)

/-- A stream error completion (R270): the operation completes with STREAM_PEER and a location, the stream fails and tells its peer,
with a reason that no rule gives (DESIGN CHOICE, assumption log 154). -/
def State.dataFail (s : State) (n : Nat) (nop : Option Nat) (loc : Word) : State :=
  let (v, s) := s.fresh 256
  let s := match nop with
    | some id => s.nopDone id (some { Fail.stream cSTREAM_PEER n v with loc := loc })
    | none => s
  s.failStream n v true

/-! ### The exact all-reduce (R355) -/

/-- A message of an N-slot operation queued, its bytes read from memory as they are framed. -/
def State.queueSrc (s : State) (n opc a len : Nat) (st : Stale) (nop : Nat) : State :=
  let c := s.ctx n
  if c.tstate = 3 then
    let m : OutMsg := ⟨opc, false, [], none, 0, s.now, some nop, some ⟨a, len, st⟩⟩
    s.setCtx n (({ c with txq := c.txq ++ [m] } : Ctx).credit s.now)
  else s

/-- An `ared.pp` whose steps `o.mark` and on are still to be received: the chunk of its present step is sent, and steps whose chunks
are empty, for which no message exists (R336), pass at once; at most `f` steps. -/
def State.aredGo : Nat → State → NOp → State
  | 0, s, o => s.setNop o
  | f + 1, s, o =>
    let (g, r) := groupOf o.strm
    let k := o.mark
    if k ≥ 2 * (g - 1) then if o.stage = 1 + 2 * (g - 1) then s.nopDone o.id none else s.setNop o
    else
      let (off, len) := chunk g o.b.toNat (aredSend g r k)
      let (s, o) := if len = 0 then (s, { o with stage := o.stage + 1 })
        else (s.queueSrc o.strm 2 (o.a.toNat + off) len (if k = 0 then o.stale else []) o.id, o)
      if (chunk g o.b.toNat (aredRecv g r k)).2 = 0 then State.aredGo f s { o with mark := k + 1 } else s.setNop o

/-- One segment of the chunk an `ared.pp` expects: combined or taken over into the array (R355). False: the array cannot be read or
written there, with the location. -/
def State.aredSeg (s : State) (o : NOp) (soff : Nat) (d : List Byte) : Option Word × State :=
  let (g, r) := groupOf o.strm
  let (off, len) := chunk g o.b.toNat (aredRecv g r o.mark)
  let a := o.a.toNat + off + soff
  let d := d.take (len - soff)
  let put (s : State) (l : List Byte) : Option Word × State :=
    if l.isEmpty then (none, s)
    else match s.tongsStore a l with
      | (0, _, s) => (none, s)
      | (_, w, s) => (some w, s)
  if o.mark < g - 1 then
    match s.tongsRead 5 o.stale a d.length with
    | (.error w, s) => (some w, s)
    | (.ok own, s) =>
      let (x, fl) := combineSlots own d (d.length / 16)
      let s := if fl &&& fInvalid ≠ 0 then
          match s.job o.job with
          | some j => s.setJob o.job (some { j with rflags := j.rflags ||| fInvalid })
          | none => s
        else s
      put s x
  else put s d

/-! ### N-slot operations begin (R185, R186, R364, R371) -/

/-- Start a waiting N-slot operation where it can start (R185, R364, R371). An address of `send`, `recv`, `rsig` or `ared.pp` that
Tongs cannot reach, or a misaligned one, completes it with STREAM_PEER and a KIND 5 location (DEDUCED, assumption log 34). -/
def State.nopTry (s : State) (o : NOp) : State :=
  let fail (c : Nat) : State := s.nopDone o.id (some (Fail.stream c o.strm 0))
  let refused (a : Nat) : State :=
    s.nopDone o.id (some { Fail.stream cSTREAM_PEER o.strm 0 with loc := locRefused a })
  if s.fenced (ctxStack o.strm) then s.nopDone o.id (some (Fail.stream cSTREAM_PEER o.strm 6))
  else if s.cached o.strm = false then (s.wantCache o.strm).2
  else if s.nopStreamOk o = false then fail cSTREAM_STATE
  else
    let c := s.ctx o.strm
    let n := o.b.toNat
    let a := o.a.toNat
    let post (len : Nat) (sig : Bool) : State :=
      if c.posted.length ≥ 4 then s
      else
        (s.setCtx o.strm { c with posted := c.posted ++ [⟨a, len, o.tok, o.job, sig, o.id⟩], ownclim := seqAdd c.ownclim 1 }
          ).setNop { o with stage := 1 }
    match o.op with
    | 1 => (s.queueMsg o.strm 1 false (toBytes 8 a ++ toBytes 8 o.code) (some o.id)).setNop { o with stage := 1 }
    | 2 =>
      if n = 0 ∨ n > 65536 then fail cSTREAM_LEN
      else if s.tongsMem a n = false then refused a
      else (s.queueSrc o.strm 0 a n o.stale o.id).setNop { o with stage := 1 }
    | 3 =>
      if n = 0 ∨ n > 65536 then fail cSTREAM_LEN
      else if s.tongsMem a n = false then refused a
      else post n false
    | 4 =>
      let g := (groupOf o.strm).1
      if n = 0 ∨ n > 65536 ∨ chunkMax g n > 65536 then fail cSTREAM_LEN
      else if s.tongsMem a (16 * n) = false then refused a
      else
        let o := { o with stage := 1 }
        ((s.setCtx o.strm { c with ownclim := seqAdd c.ownclim (2 * (g - 1)) }).setNop o).aredGo (2 * g) o
    | 6 => if s.tongs.nq.any (fun p => p.id < o.id && p.job == o.job && p.strm == o.strm) then s else s.nopDone o.id none
    | 7 =>
      if a % 8 ≠ 0 ∨ s.tongsMem a 8 = false ∨ a < 0x200000000000 ∨ a ≥ 0x220000000000 then refused a
      else post 8 true
    | _ => s

/-- Every waiting N-slot operation on a stream tried, oldest first. -/
def State.nopPass (s : State) (n : Nat) : State :=
  (s.tongs.nq.filter (fun o => o.strm == n && o.stage == 0)).foldl (fun s o =>
    match s.nopOf o.id with
    | some p => if p.stage = 0 then s.nopTry p else s
    | none => s) s

/-! ### Receiving (R339–R344, R352) -/

/-- Bytes of a packet's frame (R341). -/
def Pkt.frameLen (p : Pkt) : Nat := p.pay.length + 98

/-- Whether a packet carries a request for its receiver (R352). -/
def Pkt.isRequest (p : Pkt) : Bool := p.typ == 0 && !bit p.flags 2

/-- The causes of R339 but PCRC. -/
def Pkt.badHeader (p : Pkt) : Bool :=
  p.ver != 1 || p.typ > 6 || p.flags ≥ 32 || p.prio > 7 || p.hops > 8 ||
  (if p.typ = 0 then
    p.opc > 8 || p.w0 = 0 || p.w0 > 65536 || p.w2 = 0 || p.w2 > 8192 || p.w2 != p.pay.length ||
    p.w1 * 64 + p.w2 > p.w0 || (p.w2 % 64 != 0 && p.w1 * 64 + p.w2 < p.w0)
   else p.opc != 0 || p.msn != 0 || ((p.typ == 1 || p.typ == 2) && (p.w1 != 0 || p.w2 != 0)))

/-- A counter of PKTERR of the port of interface `i`. -/
def State.pktErr (s : State) (i : Nat) (f : Nat → Fd) : State := (s.inc (f (portOf i))).put HAMMER_ERRSUM_PKT 1

/-- Whether a stream's type accepts a message class (R361). -/
def accepts (typ opc : Nat) : Bool :=
  match typ with
  | 1 => opc == 4 || opc == 5 || opc == 7
  | 2 => opc == 0
  | 5 => opc == 1
  | 6 => opc == 0 || opc == 2 || opc == 3
  | _ => false

/-- Whether a message consumes a posted buffer. -/
def usesPost (opc : Nat) : Bool := opc == 0 || opc == 1

/-- The posted buffer the message of a number will consume, where that is settled: the messages of a data-in or signal stream take
the buffers in order; on a peer stream it takes that the class of every message before it is known. -/
def Ctx.postFor (c : Ctx) (msn : Nat) : Option Posted :=
  let k := (msn + 2 ^ 32 - c.rxmsn) % 2 ^ 32
  if c.typ = 6 then
    let before := c.rx.filter (fun m => (m.msn + 2 ^ 32 - c.rxmsn) % 2 ^ 32 < k)
    if before.length = k then c.posted[(before.filter (fun m => usesPost m.opc)).length]? else none
  else c.posted[k]?

/-- The `ared.pp` under way on a stream. -/
def State.aredOf (s : State) (n : Nat) : Option NOp :=
  s.tongs.nq.find? (fun o => o.strm == n && o.op == 4 && o.stage ≥ 1 && !o.gone)

/-- Whether a segment has somewhere to go: a posted buffer that is settled, the array of an `ared.pp` for the message due, the
context's own buffers for commands, accesses and PACE (R343, R344, R361). -/
def State.canTake (s : State) (n : Nat) (p : Pkt) : Bool :=
  let c := s.ctx n
  if usesPost p.opc then (c.postFor p.msn).isSome
  else if p.opc = 2 then p.msn == c.rxmsn && (s.aredOf n).isSome
  else true

/-- Whether every byte of a message has arrived. -/
def RxMsg.whole (m : RxMsg) : Bool := (m.segs.foldl (fun a g => a + g.len) 0) == m.mlen

/-- The bytes of a message held in the context. -/
def RxMsg.bytes (m : RxMsg) : List Byte :=
  let l := m.segs.foldl (fun (t : Tab (List Byte)) g => Tab.insert g.off g.data t) []
  l.flatMap (fun p => p.2)

/-- A PACE value well formed (R434). -/
def paceOk (l : List Byte) : Bool :=
  l.length == 16 && 1 ≤ leAt l 0 1 && leAt l 0 1 ≤ 32 && leAt l 2 1 < 4 && leAt l 3 1 == 0 && leAt l 8 8 == 0

/-- A PACE message taken (R361, R434, R436): its credit returns at once; a well-formed value replaces the stored one, and PACESTAT
shows that of the group stream (R413). -/
def State.takePace (s : State) (n : Nat) (b : List Byte) : State :=
  let c := s.ctx n
  let s := s.setCtx n { c with ownclim := seqAdd c.ownclim 1 }
  if paceOk b then
    let s := { s with
      temper := { s.temper with
        pace := Tab.set (fun _ => none) s.temper.pace n (some ⟨leAt b 0 1, leAt b 1 1, leAt b 2 1, s.now⟩) } }
    if s.hammer.run.isSome ∧ s.hammer.group = some n then
      ((s.put TEMPER_PACESTAT_RXK (leAt b 0 1)).put TEMPER_PACESTAT_RXH (leAt b 1 1)).putB TEMPER_PACESTAT_CURRENT true
    else s
  else s.inc TEMPER_PACESTAT_RXBAD

/-- The head message has arrived whole: it is delivered (R343), its posted buffer consumed, its operation completed. False: it
waits. -/
def State.deliverMsg (s : State) (n : Nat) : Bool × State :=
  let c := s.ctx n
  match c.rx.find? (fun m => m.msn == c.rxmsn) with
  | none => (false, s)
  | some m =>
    if m.whole = false ∨ (usesPost m.opc ∧ c.posted.isEmpty) then (false, s)
    else
      let c1 := { c with
        rx := c.rx.filter (fun x => x.msn != m.msn), rxmsn := seqAdd c.rxmsn 1, rxmsgs := c.rxmsgs + 1
        posted := if usesPost m.opc then c.posted.drop 1 else c.posted }
      let s1 := s.setCtx n c1
      match m.opc with
      | 3 => (true, s1.takePace n m.bytes)
      | 2 =>
        match s1.aredOf n with
        | some o => (true, s1.aredGo (2 * (groupOf n).1) { o with mark := o.mark + 1 })
        | none => (true, s1)
      | 0 | 1 =>
        match c.posted with
        | [] => (true, s1)
        | b :: _ =>
          (true, s1.nopDone b.nop (m.bad.map (fun w => { Fail.stream cSTREAM_PEER n 0 with loc := w })))
      | _ => (true, s1.setCtx n { c1 with inbox := c1.inbox ++ [(m.opc, m.bytes)] })

/-- Messages delivered in order while the next is whole, at most `f` of them (R343). -/
def State.deliverAll : Nat → State → Nat → State
  | 0, s, _ => s
  | f + 1, s, n =>
    match s.deliverMsg n with
    | (true, s) => State.deliverAll f s n
    | (false, s) => s

/-- The next expected PSN moved past the packets marked received. -/
def advanceCum : Nat → Nat → BitVec 128 → Nat × BitVec 128
  | 0, c, b => (c, b)
  | f + 1, c, b => if b.getLsbD 0 then advanceCum f (seqAdd c 1) (b >>> 1) else (seqAdd c 1, b >>> 1)

/-- A packet's PSN taken in (R342, R344): 0 new and in order, 1 new and out of order, 2 fills the first of a gap, 3 a
duplicate, 4 beyond the window. -/
def Ctx.psnKind (c : Ctx) (psn : Nat) : Nat :=
  let d := (psn + 2 ^ 32 - c.rxcum) % 2 ^ 32
  if d = 0 then (if c.rxsack = 0 then 0 else 2)
  else if d ≥ 2 ^ 31 then 3
  else if d > 128 then 4
  else if c.rxsack.getLsbD (d - 1) then 3 else 1

/-- The context once the PSN is taken in. -/
def Ctx.takePsn (c : Ctx) (psn : Nat) : Ctx :=
  let d := (psn + 2 ^ 32 - c.rxcum) % 2 ^ 32
  if d = 0 then
    let r := advanceCum 129 c.rxcum c.rxsack
    { c with rxcum := r.1, rxsack := r.2 }
  else { c with rxsack := c.rxsack ||| BitVec.ofNat 128 (2 ^ (d - 1)) }

/-- Streams that have a context. -/
def State.streams (s : State) : List Nat := [0, 1, 2, 3] ++ (s.tongs.ctx.map (·.1)).filter (· ≥ 4)

/-- Bytes of the packets put aside at a port, requests or not. -/
def State.heldBytes (s : State) (port : Nat) (req : Bool) : Nat :=
  (s.tongs.held.filter (fun e => portOf e.1 == port && e.2.2.isRequest == req)).foldl (fun a e => a + e.2.2.frameLen) 0

/-- What a port's request pool holds (R352): the packets put aside, and the messages its streams' contexts buffer. -/
def State.reqUsed (s : State) (port : Nat) : Nat :=
  s.streams.foldl (fun a n =>
    let c := s.ctx n
    if portOf c.ifc = port then
      (c.inbox.map (fun m => m.2.length)).foldl (· + ·)
        ((c.rx.flatMap (fun m => m.segs.map (fun g => g.data.length))).foldl (· + ·) a)
    else a) (s.heldBytes port true)

/-- What a port's response pool holds (R352, R378): packets put aside, responses queued, and what commands in process have
reserved. -/
def State.respUsed (s : State) (port : Nat) : Nat :=
  s.streams.foldl (fun a n =>
    let c := s.ctx n
    if portOf c.ifc = port then (c.txq.filter (·.resp)).foldl (fun a m => a + m.len) (a + c.resv) else a) (s.heldBytes port false)

/-- A packet put aside until its stream is cached, may be pinned, or has somewhere to put it (R352, R370, R371); one that finds its
pool full is dropped, and one that is there already. -/
def State.holdPkt (s : State) (i : Nat) (src : BitVec 128) (p : Pkt) : State :=
  let full : Bool := if p.isRequest then s.reqUsed (portOf i) + p.frameLen > 4 * 2 ^ 20
    else s.respUsed (portOf i) + p.frameLen > 2 * 2 ^ 20
  let twice : Bool := p.typ == 0 &&
    s.tongs.held.any (fun e => e.2.2.typ == 0 && e.2.2.dstrm == p.dstrm && e.2.2.psn == p.psn && e.2.1 == src)
  if full || twice then s
  else { s with tongs := { s.tongs with held := s.tongs.held ++ [(i, src, p)] } }

/-- The message a segment belongs to, with the segment. -/
def Ctx.withSeg (c : Ctx) (p : Pkt) (keep : Bool) (bad : Option Word) : RxMsg :=
  let m : RxMsg := (c.rx.find? (fun m => m.msn == p.msn)).getD ⟨p.msn, p.w0, p.opc, [], none⟩
  { m with segs := m.segs ++ [⟨p.w1 * 64, p.pay.length, if keep then p.pay else []⟩], bad := m.bad.or bad }

/-- Where a segment's bytes go (R343, R344): the status of `tongsStore`, the location of a failure. -/
def State.placeSeg (s : State) (n : Nat) (p : Pkt) : Nat × Option Word × State :=
  let st (x : Nat × Word × State) : Nat × Option Word × State := (x.1, if x.1 = 0 then none else some x.2.1, x.2.2)
  match p.opc, (s.ctx n).postFor p.msn with
  | 0, some b => st (s.tongsStore (b.addr + p.w1 * 64) p.pay)
  | 1, some b => if p.w1 = 0 then st (s.tongsStore b.addr (toBytes 8 (leAt p.pay 0 8))) else (0, none, s)
  | 2, _ =>
    match s.aredOf n with
    | some o => let r := s.aredSeg o (p.w1 * 64) p.pay; (if r.1.isSome then 4 else 0, r.1, r.2)
    | none => (0, none, s)
  | _, _ => (0, none, s)

/-- A DATA packet of an open stream whose peer sent it (R343, R344, R348, R361): taken in only with its payload, else put aside. -/
def State.rxSegment (s : State) (i n : Nat) (src : BitVec 128) (p : Pkt) : State :=
  let c := s.ctx n
  match c.psnKind p.psn with
  | 3 => s.sendAck n
  | 4 => s.sendAck n
  | k =>
    if accepts c.typ p.opc = false then s.failStream n 8 true
    else if seqLt p.msn c.ownclim = false ∨ seqLt p.msn c.rxmsn then s
    else if usesPost p.opc && (c.postFor p.msn).any (fun b => !b.sig && p.w0 > b.len) then s.failStream n 9 true
    else if s.canTake n p = false then s.holdPkt i src p
    else
      let (ok, s) := if c.mustPin then (true, s) else s.pin n
      if ok = false then s.holdPkt i src p
      else
        match s.placeSeg n p with
        | (3, _, s) => s.failStream n 7 true
        | (4, w, s) => s.dataFail n ((s.aredOf n).map (·.id)) (w.getD 0)
        | (_, bad, s) =>
          let keep : Bool := !usesPost p.opc && p.opc != 2
          let m := c.withSeg p keep bad
          let c : Ctx := { (s.ctx n).takePsn p.psn with
            rx := c.rx.filter (fun x => x.msn != p.msn) ++ [m], ackCount := c.ackCount + 1
            ackSince := some (c.ackSince.getD s.now) }
          let s := (s.setCtx n c).deliverAll 129 n
          let s := if (s.ctx n).tstate = 3 ∧ (k ≠ 0 ∨ bit p.flags 3 ∨ (s.ctx n).ackCount ≥ 8) then s.sendAck n else s
          s.unpin n

/-! ### Commands taken (R370, R378, R379) -/

/-- A command stream takes the message at the head of its inbox for processing, or, where nothing waits there, the
message as it is delivered; `need`: the response bytes it reserves. False: it cannot start now. -/
def State.takeMsg (s : State) (n opc : Nat) (msg : List Byte) (need : Nat) : Bool × State :=
  let c := s.ctx n
  let s1 : Option Ctx := match c.inbox with
    | m :: r => if m = (opc, msg) then some { c with inbox := r } else none
    | [] => some { c with rxmsn := seqAdd c.rxmsn 1, rxmsgs := c.rxmsgs + 1 }
  match s1 with
  | none => (false, s)
  | some c1 =>
    if n ≥ 65536 ∨ c.typ ≠ 1 ∨ c.tstate ≠ 3 ∨ s.present n = false ∨ s.cached n = false ∨
      s.respUsed (portOf c.ifc) + need > 2 * 2 ^ 20 then (false, s)
    else
      match s.pin n with
      | (false, s) => (false, s)
      | (true, s) => (true, (s.touch n).setCtx n { c1 with busy := c1.busy + 1, resv := c1.resv + need })

/-- Whether a message is a CMD that names no command: of unknown CTYPE, or shorter than its header (R379, R382). -/
def badCmd (m : Nat × List Byte) : Bool :=
  m.1 == 7 && (m.2.length < 8 || leAt m.2 0 1 == 0 || leAt m.2 0 1 > 10)

/-- Such messages at the head of a command stream's inbox are taken and answered BAD_CMD, in MSN order (R379, R382). -/
def State.answerBad : Nat → State → Nat → State
  | 0, s, _ => s
  | f + 1, s, n =>
    match (s.ctx n).inbox with
    | m :: _ =>
      if badCmd m then
        match s.takeMsg n 7 m.2 24 with
        | (true, s) => State.answerBad f (s.respond n (leAt m.2 0 1) 1 0 (leAt m.2 4 4) 0 0) n
        | (false, s) => s
      else s
    | [] => s

/-! ### Acknowledgement (R345, R346) -/

/-- Whether an ACK covers a PSN (R345). -/
def acks (cum : Nat) (sack : BitVec 128) (psn : Nat) : Bool :=
  seqLt psn cum ||
    (let d := (psn + 2 ^ 32 - cum) % 2 ^ 32; 1 ≤ d && d ≤ 128 && sack.getLsbD (d - 1))

/-- Messages wholly acknowledged complete (R345). -/
def State.finishMsgs (s : State) (n : Nat) : State :=
  let c := s.ctx n
  let live (m : OutMsg) : Bool :=
    m.msn.isNone || m.sent < m.len || c.unacked.any (fun u => u.pkt.typ == 0 && some u.pkt.msn == m.msn)
  let gone := c.txq.filter (fun m => !live m)
  let s := s.setCtx n { c with txq := c.txq.filter live, txmsgs := c.txmsgs + gone.length }
  gone.foldl (fun s m =>
    match m.nop.bind s.nopOf with
    | none => s
    | some o =>
      if o.op = 4 && !o.gone then
        let o := { o with stage := o.stage + 1 }
        let g := (groupOf n).1
        if o.mark ≥ 2 * (g - 1) ∧ o.stage = 1 + 2 * (g - 1) then s.nopDone o.id none else s.setNop o
      else s.nopDone o.id none) s

/-- DATA packets in flight (R345). -/
def Ctx.inFlight (c : Ctx) : Nat := (c.unacked.filter (fun u => u.pkt.typ == 0)).length

/-- The message whose next segment is sent. -/
def Ctx.nextMsg (c : Ctx) : Option OutMsg := c.txq.find? (fun m => m.msn.isNone || m.sent < m.len)

/-- The next frame of a stream is ready from now on (R376). -/
def Ctx.readyAt (c : Ctx) (now : Nat) : Ctx :=
  let j := c.txq.findIdx (fun m => m.msn.isNone || m.sent < m.len)
  { c with txq := c.txq.modify j (fun m => { m with ready := now }) }

/-- An ACK of the stream's peer (R345, R346). -/
def State.rxAckBody (s : State) (n cum : Nat) (sack : BitVec 128) : State :=
  let c := s.ctx n
  if seqLe cum c.txnext = false then s
  else
    let adv := seqLt c.txcum cum
    let high := (List.range 128).foldl (fun a i => if sack.getLsbD i then i + 1 else a) 0
    let left := c.unacked.filter (fun u => !acks cum sack u.pkt.psn)
    let quarter := s.get TONGS_RETX_RTO0 * 100 / 4
    let lost (u : TxPkt) : Bool :=
      high > 0 && seqLt u.pkt.psn (seqAdd cum high) &&
        (match u.retx with | some t => s.now ≥ t + quarter | none => true)
    let lostPsn := (left.filter lost).map (fun u => u.pkt.psn)
    let hadClose := c.unacked.any (fun u => u.pkt.typ == 5) && !left.any (fun u => u.pkt.typ == 5)
    let c : Ctx := { c with
      unacked := left.map (fun u => if lost u then { u with retx := some s.now } else u)
      resend := c.resend.filter (fun q => left.any (fun u => u.pkt.psn == q) && !lostPsn.contains q) ++ lostPsn
      txcum := if adv then cum else c.txcum
      rtocur := if adv then s.get TONGS_RETX_RTO0 else c.rtocur
      expiries := if adv then 0 else c.expiries }
    let shut : Bool := (s.ctx n).inFlight ≥ s.get TONGS_RETX_WIN && c.inFlight < s.get TONGS_RETX_WIN
    let s := (s.setCtx n (if shut then c.readyAt s.now else c)).finishMsgs n
    if hadClose ∧ c.tstate = 4 then s.closed n true else (s.tryClose n).unpin n

/-! ### Packets by type (R340, R351) -/

/-- Whether a packet comes from the stream's peer. -/
def Ctx.fromPeer (c : Ctx) (src : BitVec 128) (p : Pkt) : Bool := c.peerAddr == src && c.peerStrm == p.sstrm

/-- The gate of R340 for DATA, ACK and CRED: an RST where the stream is not open or its peer another. -/
def State.gate340 (s : State) (i : Nat) (src : BitVec 128) (p : Pkt) (states : List Nat) (k : Nat → State → State) : State :=
  let n := p.dstrm
  let c := s.ctx n
  if states.contains c.tstate = false then s.sendRst i src p.sstrm n 1
  else if c.fromPeer src p = false then s.sendRst i src p.sstrm n 2
  else k n (s.hearClim n p.clim)

/-- A DATA packet. -/
def State.rxData (s : State) (i : Nat) (src : BitVec 128) (p : Pkt) : State :=
  s.gate340 i src p [3] (fun n s => s.rxSegment i n src p)

/-- An ACK. -/
def State.rxAck (s : State) (i : Nat) (src : BitVec 128) (p : Pkt) : State :=
  s.gate340 i src p [3, 4] (fun n s => s.rxAckBody n p.w0 (BitVec.ofNat 128 (ofBytes p.pay)))

/-- A CRED (R349). -/
def State.rxCred (s : State) (i : Nat) (src : BitVec 128) (p : Pkt) : State :=
  s.gate340 i src p [3] (fun n s => if bit p.flags 3 then s.sendCred n false else s)

/-- Whether a listening context admits a peer address (R363). -/
def Ctx.admits (c : Ctx) (src : BitVec 128) : Bool := c.cfgAddr == 0 || c.cfgAddr == src

/-- An OPEN (R351). -/
def State.rxOpen (s : State) (i : Nat) (src : BitVec 128) (p : Pkt) : State :=
  let n := p.dstrm
  let c := s.ctx n
  match c.tstate with
  | 0 => s.sendRst i src p.sstrm n 1
  | 1 =>
    if c.admits src = false ∨ c.ifc ≠ i then s.sendRst i src p.sstrm n 2
    else
      let (v, s) := s.fresh (2 ^ 32)
      let c := ({ c with peerAddr := src, peerStrm := p.sstrm, txinit := v } : Ctx).begin p.psn p.clim s.now
      ((s.setCtx n c).sendOpenAck n).opened n
  | 2 =>
    if c.fromPeer src p then
      let (v, s) := if c.ctlSent.isSome then (c.txinit, s) else s.fresh (2 ^ 32)
      let c := ({ c with txinit := v } : Ctx).begin p.psn p.clim s.now
      ((s.setCtx n c).sendOpenAck n).opened n
    else s
  | 3 => if p.psn = c.rxinit then s.sendOpenAck n else s.failStream n 3 true
  | _ => s

/-- An OPENACK (R351). -/
def State.rxOpenAck (s : State) (i : Nat) (src : BitVec 128) (p : Pkt) : State :=
  let n := p.dstrm
  let c := s.ctx n
  if c.tstate = 1 then s.sendRst i src p.sstrm n 1
  else if c.tstate = 2 ∧ c.fromPeer src p then (s.setCtx n (c.begin p.psn p.clim s.now)).opened n
  else s

/-- A CLOSE (R351): it takes a PSN of its own, and ends the conversation in its turn. -/
def State.rxClose (s : State) (i : Nat) (src : BitVec 128) (p : Pkt) : State :=
  let n := p.dstrm
  let c := s.ctx n
  if c.tstate = 1 then s.sendRst i src p.sstrm n 1
  else if c.fromPeer src p = false then s
  else if c.tstate = 4 then s.closed n true
  else if c.tstate = 3 then
    if c.psnKind p.psn = 0 then ((s.setCtx n (c.takePsn p.psn)).sendAck n).closed n false
    else s.sendAck n
  else s

/-- An RST (R351): the stream fails with the reason it carries. -/
def State.rxRst (s : State) (src : BitVec 128) (p : Pkt) : State :=
  let n := p.dstrm
  let c := s.ctx n
  if (c.tstate = 2 ∨ c.tstate = 3 ∨ c.tstate = 4) ∧ c.fromPeer src p then s.failStream n (leAt p.pay 0 4 % 256) false else s

/-- A packet of a cached stream. -/
def State.rxPkt (s : State) (i : Nat) (src : BitVec 128) (p : Pkt) : State :=
  match p.typ with
  | 0 => s.rxData i src p
  | 1 => s.rxAck i src p
  | 2 => s.rxCred i src p
  | 3 => s.rxOpen i src p
  | 4 => s.rxOpenAck i src p
  | 5 => s.rxClose i src p
  | _ => s.rxRst src p

/-- Packets put aside for a stream, handled in order of arrival. -/
def State.reprocess (s : State) (n : Nat) : State :=
  let l := s.tongs.held.filter (fun e => e.2.2.dstrm == n)
  let s := { s with tongs := { s.tongs with held := s.tongs.held.filter (fun e => e.2.2.dstrm != n) } }
  l.foldl (fun s e => s.rxPkt e.1 e.2.1 e.2.2) s

/-- What waits on a stream: N-slot operations that have not begun, packets put aside. -/
def State.waitingOn (s : State) (n : Nat) : Nat :=
  (s.tongs.nq.filter (fun o => o.strm == n && o.stage == 0)).length + (s.tongs.held.filter (fun e => e.2.2.dstrm == n)).length

/-- What waits on a cached stream goes on while that frees more of it, at most `f` times over: operations begin (R364), packets are
taken (R343). -/
def State.settleGo : Nat → State → Nat → State
  | 0, s, _ => s
  | f + 1, s, n =>
    let a := s.waitingOn n
    let s := (s.nopPass n)
    let s := if s.cached n then s.reprocess n else s
    if s.waitingOn n < a then State.settleGo f s n else s

/-- What waits on a stream goes on as far as it can. -/
def State.settle (s : State) (n : Nat) : State := (s.settleGo (s.waitingOn n) n).answerBad 64 n

/-- A packet's arrival (R335, R339, R340, R352, R371): its frame, its IP and UDP headers and its own checked, then handled or put
aside until its stream is cached. -/
def State.arrive (s : State) (e : EthIn) (src : BitVec 128) (p : Pkt) : State :=
  s.frameIn e (fun s =>
    let i := e.i
    if s.netOk i src p = false then s.dropFrame i
    else if p.pcrc ≠ p.crc then s.pktErr i TONGS_PKTERR_PCRCERR
    else if p.badHeader then s.pktErr i TONGS_PKTERR_HDRERR
    else if s.present p.dstrm = false then (if p.typ = 6 then s else s.sendRst i src p.sstrm p.dstrm 1)
    else if p.isRequest && s.reqUsed (portOf i) + p.frameLen > 4 * 2 ^ 20 then s
    else if s.cached p.dstrm then ((s.touch p.dstrm).rxPkt i src p).settle p.dstrm
    else
      match s.wantCache p.dstrm with
      | (true, s) => s.holdPkt i src p
      | (false, s) => if p.typ = 0 then s.inc TONGS_CACHESTAT_ADMDROP else s)

end Sys2Proof.Machine
end

