-- ==== Sys2Proof/Machine/Bic.lean ====
section
/-! DEFINITION. Interrupts and event records (R562–R583): assertions, claims and completions, message targets, group
release, writing to NOR, latching a record. -/

namespace Sys2Proof.Machine

/-- A source asserts (R562–R564); 35–63 are never raised. A level source becomes pending when its condition begins. -/
def execSourceAssert (n t : Nat) (s : State) : Out :=
  let s := s.at t
  if n ≥ 256 ∨ (35 ≤ n ∧ n < 64) then .next s
  else if s.on (BIC_SRCCFG_TYPE n) then .next (s.setLevel n true)
  else .next (s.raise n)

/-- A read of `CLAIMt` (R566): the register holds what the read returned. -/
def execBicClaim (c t : Nat) (s : State) : Out :=
  let s := s.at t
  if c ≥ 2 ∨ s.domOn 196 = false then .next s
  else
    match s.bestPending c with
    | none => .next ((s.wr (BIC_CLAIM c) 0).put (BIC_CLAIM_DEPTH c) (s.coreIrq c).active.length)
    | some n =>
      let k := s.coreIrq c
      let cnt := s.get (BIC_SRCSTAT_COUNT n)
      let active := n :: k.active.filter (fun m => m != n)
      let s := s.setCore c { k with active := active }
      let s := (s.put (BIC_SRCSTAT_PENDT n) (setBit (s.get (BIC_SRCSTAT_PENDT n)) c false)).put (BIC_SRCSTAT_COUNT n) 0
      let s := s.put (BIC_SRCSTAT_ACTIVE n) (setBit (s.get (BIC_SRCSTAT_ACTIVE n)) c true)
      let s := (s.put (BIC_CLAIM_COUNT c) cnt).put (BIC_CLAIM_VALID c) 1
      let s := (s.put (BIC_CLAIM_DEPTH c) active.length).put (BIC_CLAIM_PRIO c) (s.get (BIC_SRCCFG_PRIO n))
      .next ((s.put (BIC_CLAIM_SRC c) n).setNotice c)

/-- A completion by a core (R568, R569): re-evaluated two MGMT cycles later. -/
def State.coreComplete (s : State) (c n : Nat) : State :=
  let k := s.coreIrq c
  if k.active.contains n then
    let s := s.put (BIC_SRCSTAT_ACTIVE n) (setBit (s.get (BIC_SRCSTAT_ACTIVE n)) c false)
    s.setCore c { k with active := k.active.filter (fun m => m != n), reeval := k.reeval ++ [(n, s.mclk + 40)] }
  else s.inc BIC_STAT_SPURIOUS

/-- The re-evaluation of a core (R568), two MGMT cycles after a completion: a level source still asserted is pending again, the
notice is set afresh. -/
def execReevaluate (c t : Nat) (s : State) : Out :=
  let s := s.at t
  let l := ((s.coreIrq c).reeval.filter (fun p => p.2 ≤ s.mclk)).map (·.1)
  if c ≥ 2 ∨ l.isEmpty then .next s
  else
    let s := s.setCore c { s.coreIrq c with reeval := (s.coreIrq c).reeval.filter (fun p => !(p.2 ≤ s.mclk)) }
    let s := l.foldl (fun (s : State) n =>
      if s.on (BIC_SRCSTAT_LEVEL n) then (if s.on (BIC_SRCCFG_DELIV n) then s.assign n c else s.route n) else s) s
    .next (s.setNotice c)

/-- A message target completes a delivery (R570): a held copy follows at once, a level source no sooner than 1 s after. -/
def State.msgComplete (s : State) (n t : Nat) : State :=
  let x := s.src n
  let (out, held) := if t = 2 then (x.outH, x.heldH) else (x.outRM, x.heldRM)
  if out.isNone then s
  else
    let s := s.setSrc n (if t = 2 then { x with outH := none } else { x with outRM := none })
    let s := s.put (BIC_SRCSTAT_ACTIVE n) (setBit (s.get (BIC_SRCSTAT_ACTIVE n)) t false)
    if held.isSome && !s.on (BIC_SRCCFG_TYPE n) && s.targetUp t then s.deliver n t else s

/-- The host does not complete a delivery within HTMO (R570). -/
def execHtmo (n t : Nat) (s : State) : Out :=
  let s := s.at t
  match (s.src n).outH with
  | some a =>
    if n < 256 ∧ s.now ≥ a + s.get BIC_HOSTCFG_HTMO * sec then .next ((s.inc BIC_STAT_HTMOCNT).msgComplete n 2) else .next s
  | none => .next s

/-- A level source still asserted is delivered again to a message target (R570). -/
def execLevelRedeliver (n target t : Nat) (s : State) : Out :=
  let s := s.at t
  let x := s.src n
  let (out, last) := if target = 2 then (x.outH, x.lastH) else (x.outRM, x.lastRM)
  if n < 256 ∧ (target = 2 ∨ target = 3) ∧ s.on (BIC_SRCSTAT_LEVEL n) ∧ bit (s.get (BIC_SRCCFG_TEN n)) target ∧ out.isNone ∧
      s.now ≥ last + sec then .next (s.assign n target)
  else .next s

/-- A group's time has passed since its first assertion (R571). -/
def execGroupRelease (g t : Nat) (s : State) : Out :=
  let s := s.at t
  match (Tab.get (fun _ => (⟨0, none⟩ : Grp)) s.grps g).first with
  | some a => if 1 ≤ g ∧ g < 16 ∧ s.now ≥ a + s.get (BIC_GRP_TIME g) * us then .next (s.releaseGroup g) else .next s
  | none => .next s

/-! ### The recorder -/

/-- A record's 32 bytes (R573). -/
def Evt.bytes (e : Evt) : List Byte :=
  let b := toBytes 4 e.seq ++ toBytes 4 e.hours ++ toBytes 2 e.code ++ toBytes 2 e.sevsrc ++ toBytes 3 (min e.pcyc (2 ^ 24 - 1))
    ++ toBytes 1 0 ++ toBytes 4 e.p0 ++ toBytes 4 e.p1 ++ toBytes 4 e.p2 ++ toBytes 2 e.rep
  b ++ toBytes 2 (crc16 b)

/-- The oldest record awaiting NOR is written there, or its program or verify fails and it waits on (R575, R583). -/
def execNorWrite (ok : Bool) (t : Nat) (s : State) : Out :=
  let s := s.at t
  match s.evrec.nor with
  | [] => .next s
  | q :: r =>
    if ok then
      let s := { s with evrec := { s.evrec with nor := r }, pwr := { s.pwr with norSeq := some q } }
      .next (s.put EVREC_STAT_PENDING r.length).evrecLevel
    else .next (s.inc EVREC_STAT_NORERR)

/-- A record that is still readable (R579). -/
def State.findRec (s : State) (q : Nat) : Option Evt :=
  match s.evrec.circ.find? (fun e => e.seq == q) with
  | some e => some e
  | none => s.evrec.perm.find? (fun e => e.seq == q)

/-- Record `q` latched (R581): RSTAT 0 latched, 1 not yet written, 2 not readable. -/
def State.latch (s : State) (q : Nat) : State :=
  let s := s.put EVREC_RSEL_SEQ q
  match s.findRec q with
  | some e =>
    let b := e.bytes
    let s := [0, 1, 2, 3].foldl (fun (s : State) i => s.wr (EVREC_RDATA i) (BitVec.ofNat 64 (leAt b (8 * i) 8))) s
    s.put EVREC_RSEL_RSTAT 0
  | none => s.put EVREC_RSEL_RSTAT (if q ≥ s.get EVREC_HEAD_NEXT then 1 else 2)

end Sys2Proof.Machine
end

