-- ==== Sys2Proof/Machine/Ethernet.lean ====
section
/-! DEFINITION. Ports, links and network services (R325–R334, R552), relaying (R356–R358). -/

namespace Sys2Proof.Machine

/-- Whether the port of an interface may bring it up (R326, R327). -/
def State.mayUp (s : State) (i : Nat) : Bool :=
  i < 4 && s.ifcPresent i && s.on (TONGS_PORTCFG_ENABLE (portOf i)) && s.domOn (190 + portOf i)

/-- The UP field of an interface (R331). -/
def upField (i : Nat) : Fd := if i % 2 = 0 then TONGS_PORTSTAT_UP0 (portOf i) else TONGS_PORTSTAT_UP1 (portOf i)

/-- An interface goes down (R328): bring-up restarts where the port still provides it. -/
def State.ifcDown (s : State) (i : Nat) : State :=
  let x := s.ifc i
  let s := s.setIfc i { x with up := false, dadUntil := none, bringAt := if s.mayUp i then some s.now else none }
  if x.up then ((s.putB (upField i) false).inc (TONGS_PORTSTAT_LINKDOWN (portOf i))).raise 21 else s

/-- Streams bound to an interface. -/
def State.onIfc (s : State) (i : Nat) : List Nat :=
  ([0, 1, 2, 3] ++ (s.tongs.ctx.map Prod.fst).filter (fun n => n ≥ 4)).filter (fun n => (s.ctx n).ifc == i && (s.ctx n).typ != 0)

/-- A port taken down and brought up afresh after a change of its configuration (R329, R330). Streams of an interface that was
there, as `had` says, and is no more, fail (R366). -/
def State.portRestart (s : State) (port : Nat) (had : Nat → Bool) : State :=
  let s := s.setDom (190 + port) (s.on (TONGS_PORTCFG_ENABLE port) && s.domOn 192)
  [2 * port, 2 * port + 1].foldl (fun s i =>
    let s := s.ifcDown i
    let s := s.setIfc i { s.ifc i with bringAt := if s.mayUp i then some s.now else none }
    if s.ifcPresent i || !had i then s
    else (s.onIfc i).foldl (fun s n =>
      let t := (s.ctx n).tstate
      if t ≠ 0 ∧ t ≠ 5 ∧ s.present n then s.failStream n 10 true else s) s) s

/-- What an interface sends as it comes up (R334, R552): one unsolicited advertisement, the solicitation of duplicate address
detection, and a gratuitous ARP. -/
def State.announce (s : State) (i : Nat) : State :=
  let g := s.global6 i
  let s := s.setPort i { s.port i with dadUntil := if g = 0 then none else some (s.now + sec) }
  let s := s.putAll i (.nadv (s.linkLocal i) 0xFF020000000000000000000000000001#128 false)
  let s := if g = 0 then s else s.putAll i (.nsol g)
  let a := s.addr4 i
  if a = 0 then s else s.putAll i (.arp true (BitVec.ofNat 32 a))

/-- An interface completes bring-up (R327, R334, R366): it announces itself, and opening streams send their OPEN. -/
def execLinkUp (i t : Nat) (s : State) : Out :=
  let s := s.at t
  if s.mayUp i = false ∨ (s.ifc i).up then .next s
  else
    let s := s.setIfc i { s.ifc i with up := true, bringAt := none, bucketAt := s.now }
    let s := ((s.putB (upField i) true).raise 21).announce i
    .next ((s.onIfc i).foldl State.sendOpen s)

/-- An interface not up within 500 ms restarts bring-up, at 1 s intervals (R327). -/
def execLinkBringupRetry (i t : Nat) (s : State) : Out :=
  let s := s.at t
  let x := s.ifc i
  match x.bringAt with
  | some b =>
    if s.mayUp i && !x.up && s.now ≥ b + 500 * ms then .next (s.setIfc i { x with bringAt := some (s.now + 500 * ms) })
    else .next s
  | none => .next s

/-- An interface loses PCS alignment (R328, R331). -/
def execLinkDown (i : Nat) (t : LossIn) (s : State) : Out :=
  let s := s.at t.t
  .next (if (s.ifc i).up then (s.countUcw i t.ucw).ifcDown i else s)

/-- Duplicate address detection ends after its wait of 1 s: the global address is in use (R334). -/
def execDadTimeout (i t : Nat) (s : State) : Out :=
  let s := s.at t
  match (s.port i).dadUntil with
  | some d => .next (if s.now ≥ d then s.setPort i { s.port i with dadUntil := none } else s)
  | none => .next s

/-- A neighbour solicitation: answered for one of the interface's addresses (R334, R552). -/
def execNeighbourSolicitation (e : EthIn) (target src : BitVec 128) (t : Nat) (s : State) : Out :=
  .next ((s.at t).frameIn e (fun s =>
    if s.owns6 e.i target then s.put1 e.i (s.egress e.i src) (.nadv target src true) else s.dropFrame e.i))

/-- An ARP request: answered for the interface's IPv4 address (R334, R552). -/
def execArpRequest (e : EthIn) (target t : Nat) (s : State) : Out :=
  .next ((s.at t).frameIn e (fun s =>
    if s.owns4 e.i target then s.put1 e.i (portOf e.i) (.arp true (BitVec.ofNat 32 target)) else s.dropFrame e.i))

/-- Bytes of the frame of an ICMP echo between addresses of the family of `dst`, untagged. -/
def echoLen (dst : BitVec 128) (data : List Byte) : Nat := data.length + (if isMapped4 dst then 46 else 66)

/-- The largest untagged frame of an interface (R341, R551). -/
def maxFrame (i : Nat) : Nat := if i = 4 then 1518 else 8290

/-- An ICMP echo request to one of the interface's addresses (R334, R552): answered where it fits one frame, at most 1,000 times in
a second. -/
def execIcmpEchoRequest (e : EthIn) (dst src : BitVec 128) (data : List Byte) (t : Nat) (s : State) : Out :=
  .next ((s.at t).frameIn e (fun s =>
    let x := s.port e.i
    let x := if s.now / sec = x.echoSec then x else { x with echoSec := s.now / sec, echoCnt := 0 }
    if s.owns e.i dst && echoLen dst data ≤ maxFrame e.i && x.echoCnt < 1000 then
      (s.setPort e.i { x with echoCnt := x.echoCnt + 1 }).put1 e.i (s.egress e.i src) (.echo src data)
    else s.dropFrame e.i))

/-- Resolution of a peer address tried again, three attempts at 1 s intervals, then given up (R334). -/
def execNeighbourResolutionRetry (i : Nat) (a : BitVec 128) (t : Nat) (s : State) : Out :=
  let s := s.at t
  match s.nbr i a with
  | none => .next s
  | some e =>
    if e.mac.isSome ∨ s.now < e.at_ + sec then .next s
    else if e.tries < 3 then .next ((s.putNbr { e with tries := e.tries + 1, at_ := s.now }).solicit i a)
    else
      .next { s with tongs := { s.tongs with nbr := s.tongs.nbr.filter (fun x => !(x.ifc == i && x.addr == a)) } }

/-- A neighbour advertisement or ARP reply (R334, R552): it resolves an address being sought, or during duplicate detection
shows the global address in use. `port`: the port it arrived on. -/
def execNeighbourAdvertisement (e : EthIn) (a : BitVec 128) (mac port t : Nat) (s : State) : Out :=
  .next ((s.at t).frameIn e (fun s =>
    let i := e.i
    let x := s.port i
    if x.dadUntil.isSome && a == s.global6 i then
      ((s.setPort i { x with dadUntil := none }).putB (dupFd i) true).event 0x0401 2 (2 * 256 + i) i 0 0
    else
      match s.nbr i a with
      | none => s
      | some e => s.putNbr { e with mac := some mac, port := port, at_ := s.now }))

/-- A chain module relays a frame from a port (R356, R357). `kind`: 0 unicast to its own MAC, 1 to another, 2 multicast
or broadcast; `len`: bytes of the frame; `p`: the transport packet in it, if it is one. The local copy arrives by the
packet's own row. -/
def execRelayFrame (e : EthIn) (kind dstMac len : Nat) (p : Option Pkt) (t : Nat) (s : State) : Out :=
  let s := s.at t
  let port := portOf e.i
  let single (q : Nat) : Bool := let m := s.get (TONGS_PORTCFG_MODE q); 1 ≤ m && m ≤ 3
  let atEnd := s.on TONGS_CHAIN_END
  let pass : Bool :=
    if port = 0 then (kind = 1 && (!atEnd || s.on TONGS_CHAIN_FAILOVER)) || (kind = 2 && !atEnd) else kind == 1 || kind == 2
  if (e.i ≠ 0 ∧ e.i ≠ 2) ∨ s.chain = false ∨ single 0 = false ∨ single 1 = false then .next s
  else
    .next (s.frameIn { e with frag := false } (fun s =>
      if pass = false then (if kind = 1 then s.dropFrame e.i else s)
      else if p.any (fun x => x.hops ≥ 8) then (s.inc (TONGS_PKTERR_HOPDROP port)).put HAMMER_ERRSUM_PKT 1
      else
        let lane := Tab.get (fun _ => ([] : List Frame)) s.tongs.relay port
        let used := lane.foldl (fun a f => a + (match f.body with | .relay _ n _ => n | _ => 0)) 0
        if used + len > 512 * 1024 then (s.inc (TONGS_PKTERR_RELAYDROP port)).put HAMMER_ERRSUM_PKT 1
        else
          let f : Frame := ⟨e.i, 1 - port, e.vid, true, .relay dstMac len (p.map Pkt.hop)⟩
          { s with tongs := { s.tongs with relay := Tab.set (fun _ => []) s.tongs.relay port (lane ++ [f]) } }))

end Sys2Proof.Machine
end

