-- ==== Sys2Proof/Machine/CrucCore.lean ====
section
/-! DEFINITION. Crucible admission (R284–R298, R321): the checks of a descriptor, the queues, refusal, and which head is
eligible to start. -/

namespace Sys2Proof.Machine

/-! ### Descriptors -/

/-- `n` bytes at offset `o` of a descriptor. -/
def dF (d : BitVec 512) (o n : Nat) : Nat := d.toNat / 2 ^ (8 * o) % 2 ^ (8 * n)

/-- Command code. -/
def dCmd (d : BitVec 512) : Nat := dF d 0 1
/-- BARRIER (R288). -/
def dBarrier (d : BitVec 512) : Bool := dF d 1 1 % 2 == 1
/-- Output format. -/
def dOut (d : BitVec 512) : Nat := dF d 4 1 % 16
/-- Rounding. -/
def dRm (d : BitVec 512) : Nat := dF d 4 1 / 16 % 4
/-- Read-out offset. -/
def dMofs (d : BitVec 512) : Int := sgn 8 (dF d 5 1)
/-- Block exponent. -/
def dExp (d : BitVec 512) : Int := sgn 10 (dF d 6 2)
/-- Status block address. -/
def dSt (d : BitVec 512) : Nat := dF d 8 8

/-- Bytes per output element (R296). -/
def outBytes (f : Nat) : Nat :=
  match f with
  | 0 => 4
  | 1 => 2
  | 2 => 2
  | 3 => 1
  | 4 => 1
  | 5 => 4
  | _ => 16

/-- Rounded up to a multiple of 32. -/
def up32 (n : Nat) : Nat := (n + 31) / 32 * 32

/-- Bytes of `n` elements of a type (R295). -/
def elemBytes (t n : Nat) : Nat := (n * elemWidth t + 7) / 8

/-- Bytes of an attention record (R303). -/
def arecBytes (dc : Nat) : Nat := 64 + 4 * (64 * 2 ^ dc)

/-- A strided range: base, pitch, count, bytes per piece. -/
structure Rng where
  a : Nat
  pitch : Nat
  cnt : Nat
  len : Nat
deriving DecidableEq, Repr

/-- A contiguous range. -/
def Rng.one (a n : Nat) : Rng := ⟨a, n, 1, n⟩

/-- One past the last byte. -/
def Rng.last (r : Rng) : Nat := r.a + (r.cnt - 1) * r.pitch + r.len

/-- First stack offset that R246 refuses to everyone but Tongs: the contexts fill the end of each stack. -/
def ctxFrom (s : Nat) : Nat :=
  let g := 0x13FFF000000 / 4096
  let q := g / 20
  if (s + 20 - q % 20) % 20 ≥ g % 20 then q * 4096 else (q + 1) * 4096

/-- A range lies in the stack outside the refused bytes (R284). -/
def Rng.inStack (stk : Nat) (r : Rng) : Bool := stackBase stk ≤ r.a && r.last ≤ stackBase stk + ctxFrom stk

/-- Whether a strided range touches a contiguous one. -/
def Rng.hits (r : Rng) (b n : Nat) : Bool :=
  if n = 0 ∨ r.len = 0 ∨ r.cnt = 0 then false
  else if r.pitch ≤ r.len ∨ r.cnt = 1 then r.a < b + n && b < r.last
  else
    -- the first piece that ends after b
    let j := if b < r.a + r.len then 0 else (b - r.a - r.len) / r.pitch + 1
    j < r.cnt && r.a + j * r.pitch < b + n

/-- The pieces of a range. -/
def Rng.pieces (r : Rng) : List (Nat × Nat) := (List.range r.cnt).map (fun j => (r.a + j * r.pitch, r.len))

/-- What a command reads and writes, and whether its fields are in their ranges (R294, R299–R312). -/
structure DescInfo where
  ok : Bool
  reads : List Rng
  writes : List Rng
deriving DecidableEq, Repr

/-- A refused descriptor. -/
def DescInfo.bad : DescInfo := ⟨false, [], []⟩

/-- The header rules of a command: outputs accepted, whether it converts with RM, reads out with MOFS, accumulates at EXP. A
partial or a record is no conversion, and SRTAG belongs to stochastic rounding alone (R294, R315). -/
def headerOk (d : BitVec 512) (outs : List Nat) (rm mofs exp : Bool) : Bool :=
  let conv : Bool := dOut d < 6
  dF d 1 1 < 2 && outs.contains (dOut d) && dF d 4 1 < 64 && dRm d < 3 && dF d 6 2 < 1024 &&
  ((rm && conv) || dRm d == 0) && (dRm d == 2 || dF d 2 2 == 0) && ((mofs && conv) || dF d 5 1 == 0) && (exp || dF d 6 2 == 0)

/-- A number lies in a range. -/
def within (x lo hi : Nat) : Bool := lo ≤ x && x ≤ hi

/-- The fields of a descriptor (R300–R312). -/
def descInfo (d : BitVec 512) : DescInfo :=
  let f := dF d
  let os := outBytes (dOut d)
  match dCmd d with
  | 0 => ⟨headerOk d [0] false false false && f 0x10 48 == 0, [], []⟩
  | 1 =>
    let (m, k, nv, wt, xt) := (f 0x30 4, f 0x34 4, f 0x3E 1, f 0x3C 1, f 0x3D 1)
    let wb := elemBytes wt k
    let xb := elemBytes xt k
    let ok := headerOk d [0, 1, 2, 3, 4, 5, 6] true true true && within m 1 16777216 && within k 32 1048576 && k % 32 == 0 &&
      within nv 1 8 && within wt 1 12 && within xt 1 5 && f 0x38 4 % 32 == 0 && f 0x38 4 ≥ wb && f 0x3F 1 < 2 &&
      (f 0x3F 1 == 0 || dOut d == 6) && (maMx wt || f 0x28 8 == 0)
    ⟨ok, [⟨f 0x10 8, f 0x38 4, m, wb⟩, ⟨f 0x18 8, up32 xb, nv, xb⟩] ++
      (if maMx wt then [Rng.one (f 0x28 8) (m * (k / 32))] else []), [⟨f 0x20 8, up32 (m * os), nv, up32 (m * os)⟩]⟩
  | 2 =>
    let (dc, nq, kt, qt, pg) := (f 0x34 1, f 0x35 1, f 0x36 1, f 0x37 1, f 0x38 1)
    let dim := 64 * 2 ^ dc
    let (t0, t1) := (f 0x2C 4, f 0x30 4)
    let ptok := 2 ^ pg / (2 * elemBytes kt dim)
    let qb := elemBytes qt dim
    let ob := if dOut d = 7 then arecBytes dc else up32 (dim * os)
    let ok := headerOk d [0, 1, 2, 7] true false true && within dc 0 2 && within nq 1 8 && within kt 1 4 && within qt 1 4 &&
      within pg 16 21 && t0 < t1 && t1 - t0 ≤ 16777216 && f 0x39 1 == 0 && f 0x3A 2 < 1024 && f 0x3C 4 == 0
    ⟨ok, [⟨f 0x10 8, up32 qb, nq, qb⟩, Rng.one (f 0x18 8 + t0 / ptok * 4) (((t1 - 1) / ptok - t0 / ptok + 1) * 4)],
      [⟨f 0x20 8, ob, nq, ob⟩]⟩
  | 3 =>
    let (nr, dc, nq) := (f 0x20 1, f 0x21 1, f 0x22 1)
    let ob := if dOut d = 7 then arecBytes dc else up32 (64 * 2 ^ dc * os)
    let ok := headerOk d [0, 1, 2, 7] true false false && within nr 1 64 && within dc 0 2 && within nq 1 8 && f 0x23 29 == 0
    ⟨ok, [Rng.one (f 0x10 8) (nr * nq * arecBytes dc)], [⟨f 0x18 8, ob, nq, ob⟩]⟩
  | 4 =>
    let (n, rb) := (f 0x28 4, f 0x2C 4)
    let ok := headerOk d [0] false false false && within n 1 16777216 && within rb 32 65536 && rb % 32 == 0 &&
      f 0x30 4 % 32 == 0 && f 0x34 1 == 0 && f 0x35 11 == 0
    ⟨ok, [Rng.one (f 0x20 8) (4 * n)], [Rng.one (f 0x18 8) (n * rb)]⟩
  | 5 =>
    let (n, rb) := (f 0x28 4, f 0x2C 4)
    let ok := headerOk d [0] false false false && within n 1 16777216 && within rb 32 65536 && rb % 32 == 0 &&
      f 0x30 4 % 32 == 0 && f 0x34 1 < 2 && f 0x35 11 == 0
    ⟨ok, [Rng.one (f 0x20 8) (4 * n), Rng.one (f 0x10 8) (n * rb)], []⟩
  | 6 =>
    let (n, k, it, op, ax) := (f 0x20 4, f 0x24 4, f 0x2C 1, f 0x2D 1, f 0x2E 1)
    let rb := elemBytes it k
    let outs : List Nat := if op < 2 then [0, 1, 2, 3, 4, 5, 6] else [0, 1, 2, 3, 4]
    let its : List Nat := if op < 2 then [1, 2, 3, 4, 5, 11, 13, 14] else [1, 2, 3, 4, 13]
    let ok := headerOk d outs true (op < 2) (op < 2) && within n 1 16777216 && within k 1 1048576 && (k * elemWidth it) % 256 == 0 &&
      f 0x28 4 % 32 == 0 && its.contains it && op < 5 && ax < 2 && f 0x2F 17 == 0
    ⟨ok, [⟨f 0x10 8, f 0x28 4, n, rb⟩], [Rng.one (f 0x18 8) (up32 ((if ax = 0 then k else n) * os))]⟩
  | 7 =>
    let (n, a, b, op) := (f 0x28 4, f 0x2C 1, f 0x2D 1, f 0x2E 1)
    let types : List Nat := [1, 2, 3, 4, 5, 13]
    let un : Bool := op == 0 || op == 6 || op == 8 || op == 9
    let ok := headerOk d [0, 1, 2, 3, 4, 5] true false false && within n 1 268435456 && types.contains a && op < 10 &&
      f 0x2F 1 == 0 && f 0x38 8 == 0 && (if un then b == 0 && f 0x18 8 == 0 else types.contains b) &&
      (op ≥ 6 || f 0x30 4 == 0) && ((op ≥ 6 && op != 7) || f 0x34 4 == 0)
    ⟨ok, Rng.one (f 0x10 8) (elemBytes a n) :: (if un then [] else [Rng.one (f 0x18 8) (elemBytes b n)]),
      [Rng.one (f 0x20 8) (up32 (n * os))]⟩
  | 8 =>
    let (n, st, mt) := (f 0x28 4, f 0x2C 1, f 0x2D 1)
    let ok := headerOk d [0] true false false && within n 1 16777216 && [1, 2, 13].contains st &&
      [6, 7, 8, 9, 10, 12].contains mt && f 0x2E 18 == 0
    ⟨ok, [Rng.one (f 0x10 8) (elemBytes st (32 * n))],
      [Rng.one (f 0x18 8) (up32 (elemBytes mt (32 * n))), Rng.one (f 0x20 8) (up32 n)]⟩
  | 9 =>
    let (n, st) := (f 0x28 4, f 0x2C 1)
    let ok := headerOk d [0, 1, 2] true false false && within n 1 16777216 && [6, 7, 8, 9, 10, 12].contains st &&
      f 0x2D 1 == 0 && f 0x2E 18 == 0
    ⟨ok, [Rng.one (f 0x10 8) (elemBytes st (32 * n)), Rng.one (f 0x20 8) n], [Rng.one (f 0x18 8) (up32 (32 * n * os))]⟩
  | 10 =>
    let n := f 0x20 8
    ⟨headerOk d [0] false false false && n % 32 == 0 && within n 32 (2 ^ 36) && f 0x28 24 == 0,
      [Rng.one (f 0x10 8) n], [Rng.one (f 0x18 8) n]⟩
  | 11 =>
    let n := f 0x20 8
    ⟨headerOk d [0] false false false && n % 32 == 0 && within n 32 (2 ^ 36) && f 0x28 24 == 0, [],
      [Rng.one (f 0x18 8) n]⟩
  | 12 =>
    let n := f 0x20 8
    ⟨headerOk d [0] false false false && n % 32 == 0 && within n 32 (2 ^ 36) && f 0x10 8 == 0 && f 0x28 1 < 2 && f 0x29 23 == 0,
      [Rng.one (f 0x18 8) n], []⟩
  | _ => DescInfo.bad

/-- The base of the indexed side, whose rows are known only as the command runs (R307). -/
def indexedBase (d : BitVec 512) : List Nat :=
  match dCmd d with
  | 4 => [dF d 0x10 8]
  | 5 => [dF d 0x18 8]
  | _ => []

/-- Every address a descriptor names (R284): each is a multiple of 32. Fields a command leaves unused are 0. -/
def descAddrs (d : BitVec 512) : List Nat :=
  let at_ (l : List Nat) : List Nat := dSt d :: l.map (fun o => dF d o 8)
  match dCmd d with
  | 0 => at_ []
  | 1 => at_ [0x10, 0x18, 0x20, 0x28]
  | 2 => at_ [0x10, 0x18, 0x20]
  | 3 => at_ [0x10, 0x18]
  | 6 => at_ [0x10, 0x18]
  | 10 => at_ [0x10, 0x18]
  | 11 => at_ [0x18]
  | 12 => at_ [0x18]
  | _ => at_ [0x10, 0x18, 0x20]

/-- An ELTW output that coincides exactly with input `j`, of the same element size (R298). -/
def eltwSame (d : BitVec 512) (j : Nat) : Bool :=
  dCmd d == 7 && dF d (0x10 + 8 * j) 8 == dF d 0x20 8 && elemWidth (dF d (0x2C + j) 1) == 8 * outBytes (dOut d)

/-- Whether a write range overlaps a read range (R298). `same j`: it may coincide with read range `j`. -/
def overlaps (same : Nat → Bool) (reads writes : List Rng) : Bool :=
  (writes.flatMap Rng.pieces).any (fun w => reads.zipIdx.any (fun r => !same r.2 && r.1.hits w.1 w.2))

/-- The admission checks of a descriptor for a stack (R284, R294, R298): 0, or the subcode of R321. -/
def descCheck (stk : Nat) (d : BitVec 512) : Nat :=
  let i := descInfo d
  let st : List Rng := if dSt d = 0 then [] else [Rng.one (dSt d) 32]
  if !i.ok then 2
  else if !(descAddrs d).all (· % 32 == 0) || !(i.reads ++ i.writes ++ st).all (Rng.inStack stk) ||
      !(indexedBase d).all (fun a => stackBase stk ≤ a && a < stackBase (stk + 1)) then 3
  else if overlaps (eltwSame d) i.reads i.writes || overlaps (fun _ => false) i.reads st then 4
  else 0

/-! ### Admission and refusal -/

/-- Commands admitted and not completed. -/
def Cruc.live (c : Cruc) : List CCmd :=
  (match c.susp with | some p => [p.1] | none => []) ++ (match c.run with | some p => [p.1] | none => []) ++ c.p ++ c.n ++ c.h

/-- Whether a fence of R181 that covers Crucible `k` is pending. -/
def State.fenceHold (s : State) (k : Nat) : Bool :=
  (Tab.get (fun _ => []) s.xq (k / 2)).any (fun o => o.kind == .fence true)

/-- The QSTAT fields that mirror a Crucible (R324). -/
def State.crucStat (s : State) (k : Nat) : State :=
  let c := s.cruc k
  let s := ((s.put (CRUC_QSTAT_NQ k) c.n.length).put (CRUC_QSTAT_PQ k) c.p.length).put (CRUC_QSTAT_HQ k) c.h.length
  let s := (s.putB (CRUC_QSTAT_RUN k) c.run.isSome).putB (CRUC_QSTAT_BWAIT k) ((c.p ++ c.n ++ c.h).any (fun x => dBarrier x.desc))
  s.putB (CRUC_QSTAT_FHOLD k) (s.fenceHold k)

/-- A Crucible failure or refusal noted (R324): error registers, record, source. -/
def State.crucError (s : State) (k queue err cmd seq : Nat) (loc : Word) : State :=
  let s := ((s.put (CRUC_CERR_QUEUE k) queue).put (CRUC_CERR_ERR k) err).put (CRUC_CERR_CMD k) cmd
  let s := (s.put (CRUC_CERR_SEQ k) seq).put HAMMER_ERRSUM_CRUC 1
  let s := if err = 0x13 ∨ err = 0x14 then s.put (CRUC_CERRLOC_LOC k) loc.toNat else s
  s.eventIrq (10 + k / 2) 0x0300 3 (5 * 256 + k) (k + queue * 2 ^ 8 + err * 2 ^ 16 + cmd * 2 ^ 24) seq loc.toNat

/-- Job causes of a Crucible (R153). -/
def cCRUC_DESC : Nat := 0x30
/-- R153. -/
def cCRUC_EXEC : Nat := 0x31

/-- The sender of a command told of its end (R292, R321, R381). `st`: STATE of R320, 0 for a refusal. -/
def State.crucAnswer (s : State) (k : Nat) (src : CSrc) (st err seq : Nat) (fl : Flags) (loc : Word) : State :=
  match src with
  | .job job t =>
    let f : Option Fail :=
      if err = 0 then none else some (Fail.of (if st = 0 then cCRUC_DESC else cCRUC_EXEC) seq (err + k * 256) loc)
    let s := match s.job job with
      | some j => s.setJob job (some { j with cflags := j.cflags ||| fl })
      | none => s
    s.tokDone job t f
  | .host strm ctag =>
    s.respond strm 5 (if err = 0 then 0 else 0x0A) (err + st * 256) ctag (if st = 0 then 0 else seq + fl.toNat * 2 ^ 32) loc

/-- A command refused at admission (R286). -/
def State.crucRefuse (s : State) (k queue err cmd : Nat) (src : CSrc) (loc : Word) : State :=
  ((s.inc (CRUC_CCNT_REFUSED k)).crucError k queue err cmd 0 loc).crucAnswer k src 0 err 0 0 loc

/-- Queue depths (R285): 0 P, 1 N, 2 H. -/
def crucDepth (q : Nat) : Nat :=
  match q with
  | 0 => 4
  | 1 => 16
  | _ => 8

/-- Length of a queue. -/
def Cruc.qlen (c : Cruc) (q : Nat) : Nat :=
  match q with
  | 0 => c.p.length
  | 1 => c.n.length
  | _ => c.h.length

/-- Whether a queue can take a command now: room, and no fence hold (R150, R181, R285). A fenced Crucible takes it, to
refuse it (R182). -/
def State.crucRoom (s : State) (k q : Nat) : Bool :=
  s.fenced k || ((s.cruc k).qlen q < crucDepth q && !s.fenceHold k)

/-- Admission of a descriptor (R286). -/
def State.crucAdmit (s : State) (k q : Nat) (d : BitVec 512) (src : CSrc) (seed : Word) : State :=
  if s.fenced k then s.crucRefuse k q 5 (dCmd d) src 0
  else
    match descCheck k d with
    | 0 =>
      let seq := s.get (CRUC_CSEQ_NEXT k)
      let x : CCmd := ⟨d, seq, src, seed, q⟩
      let c := s.cruc k
      let c : Cruc := match q with
        | 0 => { c with p := c.p ++ [x] }
        | 1 => { c with n := c.n ++ [x] }
        | _ => { c with h := c.h ++ [x] }
      ((s.setCruc k c).put (CRUC_CSEQ_NEXT k) (seq + 1)).crucStat k
    | e => s.crucRefuse k q e (dCmd d) src 0

/-- The descriptor of an X-slot command read and admitted (R182, R183, R201, R321). DESIGN CHOICE (assumption log 151): for a
fenced Crucible too the address and the read of the descriptor are judged first, so one that is misaligned, out of its
regions or uncorrectable is refused for that reason and not with STACK_FENCED. -/
def State.crucFetch (s : State) (k q : Nat) (addr : Nat) (job t : Nat) (stale : Stale) : State :=
  let src : CSrc := .job job t
  let seed : Word := match s.job job with | some j => j.seed | none => 0
  let okRegion : Bool := match region addr with
    | .hearth _ _ => true
    | .hammer _ => true
    | _ => false
  if addr % 64 ≠ 0 ∨ okRegion = false ∨ s.rangeOk addr 64 = false then s.crucRefuse k q 1 0 src (locRefused addr)
  else
    match s.ueIn addr 64 with
    | some u => (s.reportUe 3 u).crucRefuse k q 0x13 0 src (locOf u)
    | none => (s.correctRange addr 64).crucAdmit k q (BitVec.ofNat 512 ((s.view stale).readN addr 64)) src seed

/-- A store has met the copy of a descriptor, which has the new row (R201): the command, while it still waits, is that of the
descriptor as it now stands, or is refused for it. -/
def State.crucRefetch (s : State) (x : DescAt) : State :=
  let c := s.cruc x.stk
  match (c.p ++ c.n).find? (fun y => y.seq == x.seq) with
  | none => s
  | some y =>
    let d := BitVec.ofNat 512 (s.readN x.addr 64)
    match descCheck x.stk d with
    | 0 =>
      let new (l : List CCmd) : List CCmd := l.map (fun z => if z.seq = x.seq then { z with desc := d } else z)
      (s.setCruc x.stk { c with p := new c.p, n := new c.n }).crucStat x.stk
    | e =>
      let out (l : List CCmd) : List CCmd := l.filter (fun z => z.seq != x.seq)
      let s := (s.setCruc x.stk { c with p := out c.p, n := out c.n }).crucStat x.stk
      let s := if s.get (CRUC_CSEQ_NEXT x.stk) = seqAdd x.seq 1 then s.put (CRUC_CSEQ_NEXT x.stk) x.seq else s
      s.crucRefuse x.stk y.queue e (dCmd d) y.src 0

/-- The status block of R320. -/
def statusBlock (x : CCmd) (r : CRes) : List Byte :=
  toBytes 4 x.seq ++ toBytes 2 r.flags.toNat ++ toBytes 1 r.err ++ toBytes 1 (if r.err = 0 then 1 else 2) ++
  toBytes 8 r.loc.toNat ++ toBytes 4 r.ce ++ toBytes 4 r.ue ++ toBytes 8 0

/-- An admitted command of Crucible `k` has come to its end (R289, R317, R320, R322): its status block, the counts, its flags,
and, where it failed, the error registers and the record. -/
def State.crucEnd (s : State) (k : Nat) (x : CCmd) (r : CRes) : State :=
  let s := if dSt x.desc = 0 then s else (s.writeBytes (dSt x.desc) (statusBlock x r)).moved true (dSt x.desc) 32
  let s := if r.err = 0 then s.inc (CRUC_CCNT_DONE k) else s.inc (CRUC_CCNT_FAILED k)
  let s := s.put (CRUC_CSEQ_LAST k) x.seq
  let s := s.wr (CRUC_CFLAGS k) (s.rd (CRUC_CFLAGS k) ||| r.flags.setWidth 64)
  if r.err = 0 then s else s.crucError k x.queue r.err (dCmd x.desc) x.seq r.loc

/-! ### Start (R287–R291) -/

/-- A queue by number. -/
def Cruc.queue (c : Cruc) (q : Nat) : List CCmd :=
  match q with
  | 0 => c.p
  | 1 => c.n
  | _ => c.h

/-- Whether the head of queue `q` is eligible (R287, R288). -/
def Cruc.eligible (c : Cruc) (q : Nat) : Bool :=
  match c.queue q with
  | [] => false
  | x :: _ =>
    let busy := (match c.run with | some p => [p.1] | none => []) ++ (match c.susp with | some p => [p.1] | none => [])
    !busy.any (fun y => y.queue == q) &&
    !c.live.any (fun y => seqLt y.seq x.seq && (dBarrier y.desc || dBarrier x.desc))

/-- Whether a P head may start now: it is eligible, and no head of N or H has waited eligible through eight of them (R291). -/
def Cruc.pNext (c : Cruc) : Bool := c.eligible 0 && !(c.eligible 1 && c.pN ≥ 8) && !(c.eligible 2 && c.pH ≥ 8)

/-- The queue whose head starts next when nothing runs (R287, R291). -/
def Cruc.next (c : Cruc) : Option Nat :=
  if c.pNext then some 0
  else if c.susp.isSome then none
  else
    match c.eligible 1, c.eligible 2 with
    | true, true => if c.lastH then some 1 else some 2
    | true, false => some 1
    | false, true => some 2
    | false, false => none

/-- A queue without its head, which starts. -/
def Cruc.pop (c : Cruc) (q : Nat) : Cruc :=
  match q with
  | 0 => { c with p := c.p.drop 1, pN := if c.eligible 1 then c.pN + 1 else 0, pH := if c.eligible 2 then c.pH + 1 else 0 }
  | 1 => { c with n := c.n.drop 1, lastH := false, pN := 0 }
  | _ => { c with h := c.h.drop 1, lastH := true, pH := 0 }

end Sys2Proof.Machine
end

