-- ==== Sys2Proof/Machine/Issue.lean ====
section
/-! DEFINITION. How slot words become bundles and bundles issue (05_issue_timing): the open bundle, the checks of R133
and R134, the tests at stage I, issue itself, the results in flight, redirects, heat boundaries and detection points. -/

namespace Sys2Proof.Machine

/-- What the meaning of a slot operation gives its bundle: the slots that have it, whether the word is legal, what it
writes, the tokens it waits for, the bits of the whole bundle where the command gives them, and its effects, each with
the latency after which it is visible. -/
structure SlotOp where
  slots : List Nat
  legal : Bool
  ma : Bool
  branch : Bool
  dests : List Dest
  wait : Nat
  raw : Option Nat
  eff : State → List Flight

/-- A slot operation that only writes registers. -/
def SlotOp.plain (slots : List Nat) (legal : Bool) (dests : List Dest) (eff : State → List Flight) : SlotOp :=
  ⟨slots, legal, false, false, dests, 0, none, eff⟩

/-- Hammer's state changed. -/
def State.onHammer (s : State) (f : Hammer → Hammer) : State := { s with hammer := f s.hammer }

/-! ### Registers of Hammer -/

/-- An s register. -/
def State.sreg (s : State) (n : Nat) : Word := Tab.get (fun _ => 0) s.hammer.s n

/-- An s register written. -/
def State.setS (s : State) (n : Nat) (x : Word) : State :=
  { s with hammer := { s.hammer with s := Tab.set (fun _ => 0) s.hammer.s n x } }

/-- A Hearth field of a 160-bit mask replaced (R103). -/
def setMask (m : BitVec 160) (h f : Nat) : BitVec 160 :=
  BitVec.ofNat 160 (m.toNat - m.toNat / 2 ^ (16 * h) % 2 ^ 16 * 2 ^ (16 * h) + f % 2 ^ 16 * 2 ^ (16 * h))

/-- A Hearth field of the effective mask. -/
def State.hearthField (s : State) (h : Nat) : Nat := s.effMask.toNat / 2 ^ (16 * h) % 2 ^ 16

/-- The generator an Anvil draws from next (R81, R82): after the earlier words of the open bundle; a heat's first bundle finds it
re-seeded. -/
def State.srOf (s : State) (g : Nat) : Word :=
  match s.hammer.cur.sr.find? (fun p => p.1 == g), s.hammer.start with
  | some p, _ => p.2
  | none, some b => srStart b.seed g b.count
  | none, none => s.rd (ANVIL_SRGEN g)

/-! ### Results in flight -/

/-- A change to one Anvil (R196, R199). -/
def State.applyA (s : State) (g : Nat) (e : AEff) : State :=
  let a := s.anvil g
  match e with
  | .v d x => s.setAnvil g { a with v := Tab.set (fun _ => 0) a.v d x }
  | .g d x => s.setAnvil g { a with g := Tab.set (fun _ => 0) a.g d x }
  | .k d x => s.setAnvil g { a with k := Tab.set (fun _ => 0) a.k d x }
  | .p d x => s.setAnvil g { a with p := BitVec.ofNat 8 (setBit a.p.toNat d x) }
  | .mmac b va vb vx ta tb neg bs ha =>
    let (x, f) := mmacBank (a.bank b) va vb vx ta tb neg bs ha
    (s.setAnvil g (a.setBank b x)).orFlags g f
  | .mcomb b va k =>
    let (x, f) := mcombBank (a.bank b) va k
    (s.setAnvil g (a.setBank b x)).orFlags g f
  | .mclr b e => s.setAnvil g (a.setBank b (Bank.clear e))
  | .mrsc b e =>
    let (x, f) := mrscBank (a.bank b) e
    (s.setAnvil g (a.setBank b x)).orFlags g f
  | .none => s

/-- A store at position `p` meets the copies of descriptors whose commands stand at most 3 positions before it (R201): each has
the old row or the new one. -/
def State.meetDescs (s : State) (p a n : Nat) : State :=
  (s.hammer.descs.filter (fun d => p ≤ d.pos + 3 && a < d.addr + 64 && d.addr < a + n)).foldl (fun s d =>
    let (c, s) := s.fresh 2
    if c = 0 then s else s.crucRefetch d) s

/-- A result becomes visible. -/
def State.commit (s : State) (e : Eff) : State :=
  match e with
  | .s d x sat => let s := s.setS d x; if sat then s.put HAMMER_SFLAGS_INT_SAT 1 else s
  | .mask h f => s.onHammer (fun x => { x with amask := setMask x.amask h f })
  | .anvil g a fl => (s.applyA g a).orFlags g fl
  | .store p a n v =>
    let old := s.bytes a n
    ((s.writeN a n v).onHammer (fun h => { h with recent := h.recent ++ [(p, a, old)] })).meetDescs p a n
  | .act g c => if c = 8 then s.inc (HEARTH_HSCNT_COUNT (g / 16)) else s.inc (ANVIL_ACNT_COUNT g c)
  | _ => s

/-- The results visible from position `p` take effect, in the order of issue (R196, R202). -/
def State.commitAt (s : State) (p : Nat) : State :=
  let l := s.hammer.flight
  (l.filter (fun f => f.due == p)).foldl (fun s f => s.commit f.eff)
    (s.onHammer (fun h => { h with flight := l.filter (fun f => f.due != p) }))

/-- Every result in flight takes effect (R116, R135, R210): no latency exceeds 16. -/
def State.drain (s : State) : State := (List.range 20).foldl (fun s i => s.commitAt (s.hammer.pos + i)) s

/-- A result on its way. -/
def State.fly (s : State) (due : Nat) (e : Eff) : State := s.onHammer (fun h => { h with flight := h.flight ++ [⟨due, e⟩] })

/-! ### Faults (R151, R211) -/

/-- An execution fault of the bundle at position `n`. -/
def State.addFault (s : State) (n cause after slot fanvil : Nat) (loc : Word) : State :=
  s.onHammer (fun h => { h with faults := h.faults ++ [⟨n, n + after, slot, ⟨cause, if cause = cCANCELLED then 0 else h.pc, fanvil, 0, 0, loc, 255⟩⟩] })

/-- The fault whose cause is recorded (R211). -/
def bestFault (l : List FaultAt) : Option FaultAt :=
  l.foldl (fun acc f =>
    match acc with
    | none => some f
    | some b =>
      let before : Bool :=
        f.pos < b.pos || (f.pos == b.pos && (f.slot < b.slot || (f.slot == b.slot && (f.detect < b.detect ||
          (f.detect == b.detect && f.fail.fanvil < b.fail.fanvil)))))
      if before then some f else some b) none

/-- Issue stops for the job (R116, R135, R151): what is in flight completes; the job ends once its tokens are 0. A
pending fault of an issued bundle prevails. -/
def State.stopJob (s : State) (f : Option Fail) : State :=
  let s := s.drain
  let f := match bestFault s.hammer.faults with
    | some b => some b.fail
    | none => f
  (s.onHammer (fun h =>
    { h with cur := Open.none, open_ := false, stall := none, marker := none, redirs := [], faults := [], ending := some f })).put
      HAMMER_PCSTAT_RUN 0

/-- A fault of the bundle at the program counter. -/
def State.pcFail (s : State) (cause : Nat) (loc : Word) : Fail := ⟨cause, s.hammer.pc, 255, 0, 0, loc, 255⟩

/-! ### Code -/

/-- The image of the running job. -/
def State.runImage (s : State) : Option Img := (s.hammer.run.bind s.job).bind (fun j => s.image j.img)

/-- Whether an address in 16-byte units lies in the code region (R136). -/
def Img.inCode (i : Img) (pc : Nat) : Bool := i.codeOff ≤ 16 * pc && 16 * pc < i.codeOff + i.codeBytes

/-- The header of the bundle that stands in the code at an address, read ahead without effect; none where no bundle can
be fetched or decoded there (R154). -/
def State.headAt (s : State) (i : Img) (pc : Nat) : Option Nat :=
  let raw := s.readN (i.addr + 16 * pc) 64
  let len := raw % 2 ^ 32 / 2 ^ 30
  if i.inCode pc && 16 * pc + lenBytes len ≤ i.codeOff + i.codeBytes && (s.ueIn (i.addr + 16 * pc) (lenBytes len)).isNone &&
      checkBundle raw == .ok then some (raw % 2 ^ 32)
  else none

/-- The successor in address order, in 16-byte units, of the bundle at an address; the address itself where there is no
bundle (R154). -/
def State.afterBundle (s : State) (i : Img) (pc : Nat) : Nat :=
  match s.headAt i pc with
  | some hdr => pc + hdr / 2 ^ 30 + 1
  | none => pc

/-- The redirect that names a position, if any (R204). -/
def Hammer.redirAt (h : Hammer) (p : Nat) : Option Nat :=
  match h.marker with
  | some m => if p = m.pos + 3 then some m.target else (h.redirs.find? (fun r => r.1 == p)).map (·.2)
  | none => (h.redirs.find? (fun r => r.1 == p)).map (·.2)

/-- Whether a header announces a `heat` and no STOP (R112). -/
def headHeat (hdr : Nat) : Bool := bit hdr 19 && !bit hdr 18

/-- The link of a `brl` at position `n` in a bundle of `u` units: what follows the second delay bundle (R154, R204); an
effective `heat` in the first discards the redirect that would name the second (R205). A `brl` in a delay bundle of a `heat` links
behind the variant chosen at the marker, also where a switch then discards it, and counts from address 0 where none was chosen
(DEDUCED, assumption log 25). -/
def State.linkValue (s : State) (n u : Nat) : Nat :=
  match s.runImage with
  | none => 0
  | some i =>
    let a1 := (s.hammer.redirAt (n + 1)).getD (s.hammer.pc + u)
    let inSeq := s.afterBundle i a1
    let a2 :=
      if s.hammer.marker.isNone && (match s.headAt i a1 with | some h => headHeat h | none => false) then inSeq
      else (s.hammer.redirAt (n + 2)).getD inSeq
    s.afterBundle i a2

/-- Whether one of the two bundles that follow the present one in address order carries STOP (R206); `u` is the present
bundle's length in 16-byte units. -/
def State.stopAhead (s : State) (i : Img) (u : Nat) : Bool :=
  let stopAt (a : Nat) : Bool := match s.headAt i a with | some h => bit h 18 | none => false
  stopAt (s.hammer.pc + u) || stopAt (s.afterBundle i (s.hammer.pc + u))

/-! ### What slot words do at issue -/

/-- Bytes of a row with some at offset `o` replaced. -/
def overlay (row : List Byte) (o : Nat) (l : List Byte) : List Byte := row.take o ++ l ++ row.drop (o + l.length)

/-- The rows that stores have written, each once. -/
def rowsOf (l : List (Nat × Nat × List Byte)) : List Nat :=
  l.foldl (fun acc r => let a := r.2.1 / 128 * 128; if acc.contains a then acc else acc ++ [a]) []

/-- The rows that an asynchronous read issued at `n` may still see without the stores younger than 8 positions (R200–R202): of
the stores to one row, a free number, the oldest first, is visible, so the row is always whole. -/
def State.drawStale (s : State) (n : Nat) : Stale × State :=
  let young := s.hammer.recent.filter (fun r => n < r.1 + 8)
  (rowsOf young).foldl (fun acc a =>
    let l := young.filter (fun r => r.2.1 / 128 * 128 == a)
    let (c, t) := acc.2.fresh (l.length + 1)
    let new := s.bytes a 128
    let old := (l.drop c).reverse.foldl (fun row r => overlay row (r.2.1 - a) r.2.2) new
    (if c = l.length then acc.1 else acc.1 ++ [(a, old, new)], t)) ([], s)

/-- Activity is counted in stage E (R194, R406, R625): Anvil `g`'s with the fifth bundle after its own on the west die, with the
eighth on the east die; it shows from the position behind that. -/
def actLag (g : Nat) : Nat := if g < 80 then 6 else 9

/-- A loaded value on its way to the register of its file (R172). -/
def loadEff (file d x : Nat) : AEff :=
  match file with
  | 0 => .v d (BitVec.ofNat 1024 x)
  | 1 => .g d (BitVec.ofNat 64 x)
  | _ => .k d (BitVec.ofNat 64 x)

/-- The load of one Anvil (R172, R174, R211): a store that is off, an uncorrectable error, or the value after its
latency. -/
def State.issueLoad (n slot file d lat : Nat) (hearth : Bool) (s : State) (p : Nat × Nat) : State :=
  let len := if file = 0 then 128 else 8
  if s.reachable (region p.2) = false then s.addFault n 0x10 6 slot p.1 (locRefused p.2)
  else
    match s.ueIn p.2 len with
    | some k => (s.reportUe 1 k).addFault n 0x11 (if hearth then 12 else 8) slot p.1 (locOf k)
    | none => ((s.correctRange p.2 len).fly (n + actLag p.1) (.act p.1 (if hearth then 8 else 7))).fly (n + lat) (.anvil p.1 (loadEff file d (s.readN p.2 len)) 0)

/-- The store of one Anvil (R172, R175): visible from the next position, in ascending Anvil order. -/
def State.issueStore (n slot len : Nat) (hearth : Bool) (s : State) (p : Nat × Nat × Nat) : State :=
  if s.reachable (region p.2.1) = false then s.addFault n 0x10 6 slot p.1 (locRefused p.2.1)
  else (s.fly (n + actLag p.1) (.act p.1 (if hearth then 8 else 7))).fly (n + 1) (.store n p.2.1 len p.2.2)

/-- Whether an address is one that `ldm` and `stm` reach (R156). -/
def State.cAddrOk (s : State) (a : Nat) : Bool :=
  a % 8 == 0 &&
  match region a with
  | .hearth h o => s.reachable (.hearth h o)
  | .anvil g o => s.reachable (.anvil g o)
  | _ => false

/-- Kinds of a transfer's source and destination (R176): 0 hbm, 1 Hearth store, 2 Anvil store. -/
def xferKinds (op : Nat) : Nat × Nat :=
  match op with
  | 1 => (0, 1)
  | 2 => (1, 0)
  | 3 => (0, 2)
  | 4 => (2, 0)
  | 5 => (1, 2)
  | 6 => (2, 1)
  | 7 => (2, 2)
  | 8 => (1, 1)
  | _ => (0, 0)

/-- Rows, row bytes, source and destination pitch of a shape word (R177). -/
def shapeOf (w : Word) : Nat × Nat × Nat × Nat :=
  let n := w.toNat
  let len := (n / 2 ^ 16 % 2 ^ 16 + 1) * 128
  let sp := n / 2 ^ 32 % 2 ^ 16 * 128
  let dp := n / 2 ^ 48 * 128
  (n % 2 ^ 16 + 1, len, if sp = 0 then len else sp, if dp = 0 then len else dp)

/-- Whether an address lies in a region of the kind that a transfer names (R177): the context region's bytes are no one's but
Tongs' (R246). -/
def ofKind (kind a : Nat) : Bool :=
  match region a, kind with
  | .hbm _ _, 0 => true
  | .hearth _ _, 1 => true
  | .anvil _ _, 2 => true
  | _, _ => false

/-- A row lies wholly in one region of the kind named (R177). -/
def State.rowOk (s : State) (kind a len : Nat) : Bool := ofKind kind a && ofKind kind (a + len - 1) && s.rangeOk a len

/-- The admission check of a transfer or fill (R177, R178). -/
def State.xferOk (s : State) (o : XOp) : Bool :=
  let (rows, len, sp, dp) := shapeOf o.shape
  let all (kind a p : Nat) : Bool := a % 128 == 0 && (List.range rows).all (fun r => s.rowOk kind (a + r * p) len)
  match o.kind with
  | .xfer op => let k := xferKinds op; all k.1 o.src sp && all k.2 o.dst dp
  | .fill => all 0 o.dst dp
  | .fence _ => true

/-- An operation joins its exchange unit's queue (R150, R179); a fence over Crucibles holds their admission (R181). -/
def State.pushX (s : State) (u : Nat) (o : XOp) : State :=
  let s := { s with xq := Tab.set (fun _ => []) s.xq u (Tab.get (fun _ => []) s.xq u ++ [o]) }
  if o.kind = .fence true then (s.crucStat (2 * u)).crucStat (2 * u + 1) else s

/-- The beacon raised by a marker with BEACON, or dropped (R236, R237). Quench sees the edge by its own command. -/
def State.beacon (s : State) : State :=
  if s.hammer.beaconAt.any (fun t => s.now < t + 2 * us) then s.inc HAMMER_HEATCNT_BEACONDROP
  else s.onHammer (fun h => { h with beaconAt := some s.now, beaconUp := true })

/-- The heat marker at position `n` of a bundle of `u` units (R188, R205, R206, R216, R221–R237). `stop`: its bundle
carries STOP; `idle`: every token counted 0 when its cycle began. A fault of the marker comes before the end of a cancelled
job, which chooses and raises its beacon all the same (R390). -/
def State.heatMark (s : State) (n u id imm : Nat) (stop idle : Bool) : State :=
  match s.hammer.run.bind s.job, s.runImage with
  | some j, some i =>
    if stop || s.hammer.marker.isSome then s
    else if id ≥ i.heatCount then s.addFault n 0x06 0 9 255 0
    else
      let s := { s.onHammer (fun h => { h with redirs := [] }) with temper := { s.temper with reqHint := 0 } }
      let dead : Bool := !j.cancel.isEmpty
      let quiet : Marker := ⟨n, id, false, 0, 0, 0, none⟩
      if s.stopAhead i u then
        if dead then s.addFault n cCANCELLED 0 20 255 0 else s.onHammer (fun h => { h with marker := some quiet })
      else match s.ueIn (i.heatAddr id) 64 with
      | some k => ((s.reportUe 9 k).addFault n 0x04 2 9 255 (locOf k)).onHammer (fun h => { h with marker := some quiet })
      | none =>
        let coll : Bool := imm / 2 % 2 == 1
        let (c, e, s) := (s.readHeat i id).chooseHeat i id coll
        let s := if imm % 2 = 1 then s.beacon else s
        if dead then s.addFault n cCANCELLED 0 20 255 0
        else
          let want := if imm / 4 % 2 = 1 then s.switchTarget else none
          let s := if want.isSome && !idle then s.inc HAMMER_HEATCNT_SWDEFER else s
          let into := if idle then want else none
          let s := if into.isNone then s.noteFit c else s
          let m : Marker := ⟨n, id, coll, c.var, e.entry.getD c.var 0, e.op.getD c.var 0, into⟩
          s.onHammer (fun h => { h with marker := some m })
  | _, _ => s

/-- One effect of the bundle at position `n` as it issues. A redirect is traced as it is taken, so the one of a marker's own bundle
is, and those of its delay bundles, which never count, are not (R205, R634; DEDUCED, assumption log 25). -/
def State.issueEff (n u : Nat) (stop idle : Bool) (s : State) (f : Flight) : State :=
  match f.eff with
  | .s _ _ _ => s.fly (n + f.due) f.eff
  | .mask _ _ => s.fly (n + f.due) f.eff
  | .anvil _ _ _ => s.fly (n + f.due) f.eff
  | .store _ _ _ _ => s
  | .sr g st => s.wr (ANVIL_SRGEN g) st
  | .act _ _ => s.fly (n + f.due) f.eff
  | .loads slot file d lat hearth l => l.foldl (State.issueLoad n slot file d lat hearth) s
  | .stores slot len hearth l => l.foldl (State.issueStore n slot len hearth) s
  | .ldm d a =>
    if s.cAddrOk a = false then s.addFault n 0x12 0 0 255 (locRefused a)
    else match s.ueIn a 8 with
      | some k => (s.reportUe 1 k).addFault n 0x11 16 0 255 (locOf k)
      | none => ((s.correctRange a 8).moved false a 8).fly (n + 16) (.s d (BitVec.ofNat 64 (s.readN a 8)) false)
  | .stm a v =>
    if s.cAddrOk a = false then s.addFault n 0x12 0 0 255 (locRefused a) else (s.moved false a 8).fly (n + 1) (.store n a 8 v)
  | .ldc d a =>
    match s.ueIn a 8 with
    | some k => (s.reportUe 0 k).addFault n 0x04 0 0 255 (locOf k)
    | none => ((s.correctRange a 8).moved false a 8).fly (n + 2) (.s d (BitVec.ofNat 64 (s.readN a 8)) false)
  | .redirect t =>
    if s.hammer.marker.isSome then s
    else (s.onHammer (fun h => { h with redirs := h.redirs ++ [(n + 3, t)] })).traced 1 t
  | .link _ => s
  | .fault cause after slot fanvil loc => s.addFault n cause after slot fanvil loc
  | .xop u o =>
    let (st, s) := s.drawStale n
    (s.pushX u { o with stale := st, refused := !s.xferOk o }).tokUp o.tok 1
  | .crc stk pri tok a =>
    let (st, s) := s.drawStale n
    let seq := s.get (CRUC_CSEQ_NEXT stk)
    let s := (s.tokUp tok 1).crucFetch stk (if pri then 0 else 1) a (s.hammer.run.getD 0) tok st
    if s.get (CRUC_CSEQ_NEXT stk) = seq then s else s.onHammer (fun h => { h with descs := h.descs ++ [⟨n, stk, seq, a⟩] })
  | .nop o =>
    if o.op = 5 then
      if s.nopStreamOk { o with op := 4 } then
        s.onHammer (fun h => { h with group := some o.strm, follow := o.code == 1 })
      else s.addFault n 0x40 4 8 255 0
    else
      let (st, s) := s.drawStale n
      let id := s.tongs.nextNop
      let s := { s with tongs := { s.tongs with nextNop := id + 1, nq := s.tongs.nq ++ [{ o with id := id, stale := st }] } }
      (s.tokUp o.tok 1).settle o.strm
  | .heat id imm => s.heatMark n u id imm stop idle
  | .opreq o => { s with temper := { s.temper with reqOp := o } }
  | .snap t => s.snapRequest 1 t n
  | .phint w => { s with temper := { s.temper with reqHint := min w 1600 } }

/-! ### The tests before issue -/

/-- The increment a bundle makes to a token (R101). -/
def tokIncr (l : List Flight) (t : Nat) : Nat :=
  (l.filter (fun f => match f.eff with
    | .xop _ o => o.tok == t
    | .crc _ _ k _ => k == t
    | .nop o => o.op != 5 && o.tok == t
    | _ => false)).length

/-- Whether every engine can take what the bundle hands it: its queue has room and the pulse frame is open (R34, R150, R179,
R182, R405). -/
def State.admissible (s : State) (l : List Flight) : Bool :=
  l.all (fun f => match f.eff with
    | .xop u _ => s.frameOpen && (Tab.get (fun _ => []) s.xq u).length < 32
    | .crc k pri _ _ => s.frameOpen && s.crucRoom k (if pri then 0 else 1)
    | .nop o => s.frameOpen && s.nqWaiting < 64 && (o.op != 5 || s.cached o.strm)
    | _ => true)

/-- A `pace.grp` names its stream, which must be cached before it is looked at (R186, R371). -/
def State.wantGroup (s : State) (l : List Flight) : State :=
  l.foldl (fun s f => match f.eff with
    | .nop o => if o.op = 5 then (s.wantCache o.strm).2 else s
    | _ => s) s

/-- Tokens of a wait mask. -/
def maskTokens (m : Nat) : List Nat := (List.range 16).filter (fun t => bit m t)

/-- The failure a wait meets: that of the first failing operation (R100). -/
def State.waitFail (s : State) (m : Nat) : Option Fail :=
  ((maskTokens m).foldl (fun (acc : Option (Nat × Fail)) t =>
    let x := s.tok t
    match x.fail, acc with
    | none, _ => acc
    | some f, none => some (x.failAt, f)
    | some f, some a => if x.failAt < a.1 then some (x.failAt, f) else some a) none).map (·.2)

/-- The verdict of R133 and R134 on the open bundle; where a word carries the bits of the whole bundle, they give its length. -/
def State.verdict (s : State) : BundleCheck :=
  let c := s.hammer.cur
  let len := match c.badRaw with
    | some raw => raw % 2 ^ 32 / 2 ^ 30
    | none => c.len
  let past : Bool := match s.runImage with
    | some i => 16 * s.hammer.pc + lenBytes len > i.codeOff + i.codeBytes
    | none => true
  match c.badRaw.map checkBundle with
  | some .illegalBundle => .illegalBundle
  | some (.illegalOp k) => if past then .illegalBundle else .illegalOp k
  | _ =>
    if c.words > lenCap c.len ∨ past ∨ (c.stop && c.branch) ∨ c.ma > 1 ∨ !noDup c.dests then .illegalBundle
    else match c.illegal with
      | some k => .illegalOp k
      | none => .ok

/-- A stall is over: its cycles counted by cause and traced (R624, R634). -/
def State.release (s : State) : State :=
  match s.hammer.stall with
  | none => s
  | some w =>
    let n := s.cyc - s.hammer.stallAt
    let s := s.onHammer (fun h => { h with stall := none })
    let m := min n (2 ^ 28 - 1)
    match w with
    | .wait _ => (s.add HAMMER_STALLW_COUNT n).traced 3 (2 ^ 28 + m)
    | .token => (s.add HAMMER_STALLW_COUNT n).traced 3 (2 * 2 ^ 28 + m)
    | .admission => (s.add HAMMER_STALLA_ADMIT n).traced 3 (3 * 2 ^ 28 + m)
    | .drain => (s.add HAMMER_STALLA_DRAIN n).traced 3 (4 * 2 ^ 28 + m)

/-- Whether two stalls have one cause of R192. -/
def Stall.same : Stall → Stall → Bool
  | .wait _, .wait _ => true
  | .token, .token => true
  | .admission, .admission => true
  | .drain, .drain => true
  | _, _ => false

/-- Hold issue (R192): a stall of another cause that held it so far is over. -/
def State.hold (s : State) (w : Stall) : State :=
  if s.hammer.stall.any (fun x => x.same w) then s.onHammer (fun h => { h with stall := some w })
  else s.release.onHammer (fun h => { h with stall := some w, stallAt := s.cyc })

/-! ### Issue -/

/-- The boundary after the second delay bundle of a marker (R230): the heat execution ends; a switch holds issue, or
the next heat execution waits for its first bundle. -/
def State.boundary (s : State) (m : Marker) : State :=
  let s := s.heatEnd true
  let s := s.onHammer (fun h => { h with marker := none, redirs := [] })
  match m.switchTo with
  | some _ => (s.onHammer (fun h => { h with marker := some m })).hold .drain
  | none =>
    match s.hammer.run.bind s.job with
    | none => s
    | some j =>
      s.onHammer (fun h =>
        { h with pc := m.target, start := some ⟨m.heat, m.var, m.op, m.coll, j.seed, h.heatCount + 1⟩ })

/-- The open bundle issues at the present position (R190, R194–R206); the first bundle of a variant begins its heat execution
(R215). -/
def State.issue (s : State) : State :=
  let s := s.heatStarts
  let n := s.hammer.pos
  let c := s.hammer.cur
  let pc := s.hammer.pc
  let s := s.inc HAMMER_ISSUECNT_COUNT
  let s := s.put HAMMER_PCSTAT_PC pc
  let s := s.onHammer (fun h => { h with cur := Open.none, open_ := false })
  let u := c.len % 4 + 1
  let idle : Bool := s.hammer.tok.all (fun t => t.2.count == 0)
  let s := c.effs.foldl (State.issueEff n u c.stop idle) s
  let s := c.effs.foldl (fun s f => match f.eff with
    | .link d => s.fly (n + f.due) (.s d (BitVec.ofNat 64 (s.linkValue n u)) false)
    | _ => s) s
  let next := (s.hammer.redirAt (n + 1)).getD (pc + u)
  let s := s.onHammer (fun h =>
    { h with
      pos := n + 1
      pc := next
      redirs := h.redirs.filter (fun r => r.1 > n + 1)
      recent := h.recent.filter (fun r => n < r.1 + 8)
      descs := h.descs.filter (fun d => n ≤ d.pos + 3) })
  let s := s.commitAt (n + 1)
  if s.hammer.faults.any (fun f => f.detect ≤ n) || c.stop then s.stopJob none
  else
    match s.hammer.marker with
    | some m => if n = m.pos + 2 then s.boundary m else s
    | none => s

/-- The assembled bundle meets the checks of stage D and the tests of stage I, and issues or is held (R100, R101, R133,
R134, R150, R207). -/
def State.tryIssue (s : State) : State :=
  match s.verdict with
  | .illegalBundle => s.stopJob (some (s.pcFail 0x01 0))
  | .illegalOp k => s.stopJob (some { s.pcFail 0x02 0 with word := k })
  | .ok =>
    let c := s.hammer.cur
    if (maskTokens c.wait).any (fun t => (s.tok t).count > 0) then s.hold (.wait c.wait)
    else
      match s.waitFail c.wait with
      | some f => s.release.stopJob (some f)
      | none =>
        if (List.range 16).any (fun t => tokIncr c.effs t > 0 && (s.tok t).count + tokIncr c.effs t > 255) then s.hold .token
        else if s.admissible c.effs = false then (s.wantGroup c.effs).hold .admission
        else s.release.issue

/-- Hammer can take a slot word: a job runs and issue is neither held nor ended. -/
def State.taking (s : State) : Bool := s.hammer.run.isSome && s.hammer.stall.isNone && s.hammer.ending.isNone

/-- The fetch of the bundle at the program counter (R136, R138). -/
def State.openBundle (s : State) (len : Nat) : State :=
  match s.runImage with
  | none => s.stopJob (some (s.pcFail 0x03 0))
  | some i =>
    let pc := s.hammer.pc
    if i.inCode pc = false then s.stopJob (some (s.pcFail 0x03 0))
    else
      let a := i.addr + 16 * pc
      let n := min (lenBytes len) (i.codeOff + i.codeBytes - 16 * pc)
      match s.ueIn a n with
      | some k => (s.reportUe 0 k).stopJob (some (s.pcFail 0x04 (locOf k)))
      | none => ((s.correctRange a n).inc HAMMER_STCNT_COUNT).onHammer (fun h => { h with cur := Open.none, open_ := true })

/-- A slot word joins the open bundle: its legality, what it writes and what it will do. `h.slot` must rise. -/
def State.join (s : State) (h : Hd) (o : SlotOp) : State :=
  let c := s.hammer.cur
  let inOrder : Bool := match c.last with
    | some l => l < h.slot
    | none => true
  let ok : Bool := o.slots.contains h.slot && o.legal && inOrder
  let fl := if ok then o.eff s else []
  let sr := fl.filterMap (fun f => match f.eff with | .sr g st => some (g, st) | _ => none)
  let c := { c with
    words := c.words + 1
    last := some h.slot
    wait := if ok then Nat.lor c.wait o.wait else c.wait
    ma := c.ma + (if o.ma then 1 else 0)
    branch := c.branch || o.branch
    dests := c.dests ++ o.dests
    effs := c.effs ++ fl
    illegal := if c.illegal.isSome ∨ ok then c.illegal else some h.slot
    sr := sr ++ c.sr
    badRaw := if o.raw.isSome then o.raw else c.badRaw
    len := h.len }
  s.onHammer (fun x => { x with cur := c })

/-- A slot operation arrives (R110–R113): the first word of a bundle fetches it, the last one puts it to the tests. -/
def State.slotOp (s : State) (h : Hd) (o : SlotOp) : Out :=
  if s.taking = false then .next s
  else
    let s := if s.hammer.open_ then s else s.openBundle h.len
    if s.hammer.open_ = false then .next s
    else
      let s := s.join h o
      .next (if h.fin then s.tryIssue else s)

end Sys2Proof.Machine
end

