-- ==== Sys2Proof/Machine/Withdraw.lean ====
section
/-! DEFINITION. What is withdrawn while the device runs: memory and registers that a power domain loses (R591), a fenced
stack (R276, R277, R323, R400), a faulted Anvil (R275). -/

namespace Sys2Proof.Machine

/-- The bytes and stored errors of a key range are gone (R281, R591). -/
def State.clearMem (s : State) (a n : Nat) : State :=
  let out (k : Nat) : Bool := k < a || a + n ≤ k
  { s with mem := s.mem.filter (fun e => out e.1), errs := s.errs.filter (fun e => out e.1), wb := s.wb.filter out,
           transit := s.transit.filter out }

/-- Whether a register is an error counter of R274, which only a module or cold reset clears. -/
def errCounter (a : Nat) : Bool :=
  a == HAMMER_SECNT || (List.range 20).any (fun k => a == HEARTH_STKERR k) ||
  (0x300001000000 ≤ a && a < 0x300002000000 &&
    (a % 0x100000 == 0x128 || (0x10000 ≤ a % 0x100000 && a % 0x100000 < 0x20000 && a % 0x1000 == 0x110)))

/-- The activity class that the register at an address of a Hearth, an Anvil or a Crucible counts (R406, R626). -/
def actClass (a : Nat) : Option Nat :=
  let o := a % 0x100000
  if a < 0x300001000000 ∨ 0x300002000000 ≤ a then none
  else if o = 0x200 then some 8
  else if o = 0x208 ∨ o = 0x210 then some 9
  else if o = 0x218 ∨ o = 0x220 then some 10
  else if 0x10000 ≤ o ∧ o < 0x20000 then
    (if 0x200 ≤ o % 0x1000 ∧ o % 0x1000 < 0x240 then some ((o % 0x1000 - 0x200) / 8) else none)
  else if 0x80000 ≤ o ∧ o % 0x40000 = 0x130 then some 11
  else if 0x80000 ≤ o ∧ o % 0x40000 = 0x138 then some 12
  else none

/-- Totals with what some registers had counted added. -/
def keepCounts (t : Tab Nat) (l : List (Nat × Word)) : Tab Nat :=
  l.foldl (fun t e => match actClass e.1 with
    | some c => Tab.set (fun _ => 0) t c (totalOf t c + e.2.toNat)
    | none => t) t

/-- The registers of an address range hold their reset values again, but the error counters; Temper loses none of the work
they had counted (R406). -/
def State.csrReset (s : State) (a n : Nat) : State :=
  let stays (e : Nat × Word) : Bool := e.1 < a || a + n ≤ e.1 || errCounter e.1
  { s with
    csr := s.csr.filter stays
    temper := { s.temper with gone := keepCounts s.temper.gone (s.csr.filter (fun e => !stays e)) } }

/-- First register address of an Anvil's block and of a Crucible's (R249). -/
def anvilCsr (g : Nat) : Nat := 0x300001000000 + g / 16 * 0x100000 + 0x10000 + g % 16 * 0x1000
/-- See `anvilCsr`. -/
def crucCsr (k : Nat) : Nat := 0x300001000000 + k / 2 * 0x100000 + 0x80000 + k % 2 * 0x40000

/-- An Anvil's domain goes off: its registers, store and CSRs are lost (R591). -/
def State.anvilOff (s : State) (g : Nat) : State :=
  let s := ((s.setDom g false).clearMem (anvilBase g) 0x200000).csrReset (anvilCsr g) 0x1000
  let s := s.setAnvil g Anvil.entry
  s.onHammer (fun h => { h with
    flight := h.flight.filter (fun f => match f.eff with | .anvil k _ _ => k != g | _ => true) })

/-- Whether Hammer stands at a heat boundary, or has no job (R275, R597). -/
def State.atBoundary (s : State) : Bool :=
  s.hammer.run.isNone || (s.hammer.start.isSome && !s.hammer.open_ && s.hammer.stall.isNone)

/-- Job cause ANVIL_UNAVAILABLE (R153). -/
def cANVIL_UNAVAILABLE : Nat := 0x05

/-- The running job ends at the boundary because an Anvil it requires is gone (R275). Its record has the flags of this moment,
before the Anvil is off (R93). -/
def State.endForAnvil (s : State) (m : BitVec 160) : State :=
  match s.runImage, s.hammer.run with
  | some i, some id =>
    if i.reqmask &&& m = 0 then s
    else
      let s := s.stopJob (some (Fail.of cANVIL_UNAVAILABLE 0 0 0))
      match s.job id with
      | some j => s.setJob id (some { j with rflags := j.rflags ||| BitVec.ofNat 10 s.allFlags })
      | none => s
  | _, _ => s

/-- A hold takes effect (R275). `reason`: 0 self-test, 1 errors, 2 request. -/
def State.holdAnvil (s : State) (g reason : Nat) : State :=
  let m : BitVec 160 := BitVec.ofNat 160 (2 ^ g)
  let s := s.onHammer (fun h => { h with avail := h.avail &&& ~~~ m })
  let s := (s.endForAnvil m).anvilOff g
  let s := { s with holds := s.holds.filter (fun p => p.1 != g) }
  s.event 0x0202 3 (4 * 256 + g) (g + reason * 256) 0 0

/-- Commands of a Crucible end without status blocks (R323, R597): `err` and `st` are what their senders are told. -/
def State.crucFlush (s : State) (k err : Nat) (failed : Bool) : State :=
  let l := (s.cruc k).live
  let s := (s.setCruc k Cruc.reset).crucStat k
  l.foldl (fun s x =>
    let s := if failed then (s.inc (CRUC_CCNT_FAILED k)).crucError k x.queue err (dCmd x.desc) x.seq 0 else s
    s.crucAnswer k x.src 2 err x.seq 0 0) s

/-- Whether a ring is enabled (R395, R400). -/
def State.ringOn (s : State) (r : Nat) : Bool := s.get (TONGS_RING_CFG_LOG2N r) != 0 && !s.on (TONGS_RING_CFG_LOST r)

/-- Bytes of a ring. -/
def State.ringRange (s : State) (r : Nat) : Nat × Nat :=
  (s.get (TONGS_RING_CFG_BASE r) * 64, 2 ^ s.get (TONGS_RING_CFG_LOG2N r) * 64)

/-- Whether a range has a byte in stack `k`. -/
def touchesStack (k a n : Nat) : Bool :=
  (segs a n).any (fun p => match region p.1 with | .hbm j _ => j == k | .ctx j _ => j == k | _ => false)

/-- Rings that lose a byte to a withdrawal of stack `k` (R400). -/
def State.loseRings (s : State) (k : Nat) : State :=
  (List.range 64).foldl (fun s r =>
    let p := s.ringRange r
    if s.ringOn r && touchesStack k p.1 p.2 then s.put (TONGS_RING_CFG_LOST r) 1 else s) s

/-- Stack `k` is fenced (R277, R323, R400): its memory is withdrawn, its Crucible's commands end and it is powered off,
the contexts it holds are withdrawn and the rings it carries are lost. -/
def State.fenceStack (s : State) (k cause : Nat) : State :=
  if s.fenced k then s
  else
    let s := (s.put (HEARTH_STKSTAT_FENCED k) 1).put (HEARTH_STKSTAT_FCAUSE k) cause
    let s := s.crucFlush k 6 true
    let s := ((s.setDom (170 + k) false).csrReset (crucCsr k) 0x1000).put (CRUC_QSTAT_OFF k) 1
    let s := (s.streams.filter (fun n => ctxStack n == k)).foldl (fun s n =>
      if (s.ctx n).tstate = 0 then s else s.failStream n 6 true) s
    let s := s.loseRings k
    let s := { s with fenceReq := s.fenceReq.filter (fun p => p.1 != k) }
    s.event 0x0201 4 (3 * 256 + k / 2) (k + cause * 256) 0 0

end Sys2Proof.Machine
end

