-- ==== Sys2Proof/Machine/ResetCore.lean ====
section
/-! DEFINITION. What the resets share: the jobs they end (R392), the compute reset and the compute stop (R279, R456,
R595, R600), the module reset, and the cooling actions whose records wait for the next tick (R578). -/

namespace Sys2Proof.Machine

/-! ### Actions (R476, R578) -/

/-- A cooling, Quench or Tuyere action: its record is written at the next tick with the readings about it. -/
def State.action (s : State) (code sev src p0 p1 p2 : Nat) : State :=
  { s with evrec := { s.evrec with deferred := s.evrec.deferred ++ [evt s code sev src p0 p1 p2] } }

/-- The SAFETY source (26): THROTTLE asserted or a compute stop latched. -/
def State.safety (s : State) : State :=
  s.setLevel 26 (s.on BELLOWS_SAFESTAT_THROTTLE || s.on BELLOWS_SAFESTAT_CSTOP)

/-- The BIC source that an action's code raises (R562): leaks 25, Quench 27, Tuyere 28, other cooling 24; the records of
THROTTLE and compute stops are named by the level source 26. -/
def actionSource (code : Nat) : Nat :=
  if 0x0607 ≤ code ∧ code ≤ 0x0609 then 25
  else if 0x0601 ≤ code ∧ code ≤ 0x0604 then 26
  else if code / 256 = 7 then 27
  else if code / 256 = 8 then 28
  else 24

/-- One deferred action written with the readings before and after it (R578), its source raised (R582). -/
def State.writeAction (s : State) (before after : Reading) (e : Evt) : State :=
  let rd (code : Nat) (r : Reading) : Evt :=
    { evt s code 0 (6 * 256) r.p0 r.p1 r.p2 with hours := r.hours }
  let (q, s) := s.eventGroup [e, rd 0x0005 before, rd 0x0006 after]
  let n := actionSource e.code
  let s := s.put (BIC_SRCSTAT_LASTSEQ n) q
  let s := { s with
    cool := { s.cool with
      alerts := s.cool.alerts.map (fun (a : Alert) =>
        if a.code = e.code ∧ a.seq = none ∧ (a.kind = 4 ∨ a.kind = 5 ∨ a.idx = e.p0) then
          { a with seq := some q } else a) } }
  if n = 26 then s.raise 24 else s.raise n

/-- All deferred actions written at a tick. -/
def State.writeActions (s : State) (before after : Reading) : State :=
  let l := s.evrec.deferred
  l.foldl (fun s e => s.writeAction before after e) { s with evrec := { s.evrec with deferred := [] } }

/-! ### Jobs ended by a reset (R392) -/

/-- A list cut into runs of `n`. -/
def chunksOf {α : Type} (n : Nat) : Nat → List α → List (List α)
  | 0, _ => []
  | f + 1, l => if l.isEmpty then [] else l.take n :: chunksOf n f (l.drop n)

/-- JOBS_ENDED groups naming each job (R392, R580). -/
def State.jobsEnded (s : State) (domain : Nat) (l : List Nat) : State :=
  let parts := chunksOf 189 2 l
  let n := parts.length
  (List.range n).foldl (fun s i =>
    let p := parts.getD i []
    let cont := (chunksOf 3 63 p).map (fun w => evt s 0x0008 0 (2 * 256) (w.getD 0 0) (w.getD 1 0) (w.getD 2 0))
    (s.eventGroup (evt s 0x0403 3 (2 * 256) p.length domain ((i + 1) * 256 + n) :: cont)).2) s

/-- The JOBID and RIDX words of the jobs in the table. -/
def State.jobWords (s : State) : List Nat := s.jobList.map (fun p => p.1 * 2 ^ 24 + p.2.ridx % 2 ^ 24)

/-! ### The compute reset -/

/-- Main-die registers that Bellows holds and writes again (R329, R401, R412, R439). -/
def heldReg (a : Nat) : Bool :=
  [TONGS_PORTCFG 0, TONGS_PORTCFG 1, TONGS_XPORT, TONGS_RETX, TONGS_CHAIN, TONGS_SCFG, TONGS_SCHED, TONGS_CQ,
   TEMPER_SUPPLYCFG, TEMPER_CAPCFG, TEMPER_CTRLCFG, TEMPER_MODEL, TEMPER_DROOPCFG, TEMPER_TRIM].contains a ||
  (TONGS_IF_MAC 0 ≤ a && a < TONGS_IF_MAC 4) || (TEMPER_WT 0 ≤ a && a < TEMPER_WT 13)

/-- A field's reset value. -/
def Fd.reset (f : Fd) : Nat := bitsOf (regReset f.addr).toNat f.hi f.lo

/-- The main-die registers reset (R595): the error counters, what Bellows holds, and the fences stay. -/
def State.mainReset (s : State) : State :=
  let fences := ((List.range 20).filter (fun k => s.fenced k)).map (fun k => (k, s.get (HEARTH_STKSTAT_FCAUSE k)))
  let s := { s with
    csr := s.csr.filter (fun e => e.1 < 0x300000000000 || 0x300002000000 ≤ e.1 || errCounter e.1 || heldReg e.1) }
  let s := s.put TEMPER_MODEL_CALG (TEMPER_MODEL_CALG).reset
  let s := match s.temper.trimNext with | some n => s.put TEMPER_TRIM_TRIM n | none => s
  fences.foldl (fun s f =>
    ((s.put (HEARTH_STKSTAT_FENCED f.1) 1).put (HEARTH_STKSTAT_FCAUSE f.1) f.2).put (CRUC_QSTAT_OFF f.1) 1) s

/-- Whether a stack holds its contents: active or in self-refresh, and not fenced (R278, R280). -/
def State.holdsData (s : State) (k : Nat) : Bool :=
  !s.fenced k && (s.get (HEARTH_STKSTAT_STATE k) == 2 || s.get (HEARTH_STKSTAT_STATE k) == 3)

/-- The memory after a compute reset (R280, R281): the HBM of stacks that hold data stays when kept, with its uncorrectable
errors; the stores and the context region do not. -/
def State.memReset (s : State) (keep : Bool) : State :=
  let stays (key : Nat) : Bool := match region key with
    | .hbm k _ => keep && s.holdsData k
    | _ => false
  { s with
    mem := s.mem.filter (fun e => stays e.1), errs := s.errs.filter (fun e => stays e.1), wb := [], transit := [] }

/-- The blocks of the main dies at compute reset: nothing runs, nothing is queued; the frames already sent stay sent. -/
def State.blocksReset (s : State) : State :=
  { s with
    hammer := Hammer.reset, anvils := [], xq := [], crucs := [], tongs := { Tongs.reset with wire := s.tongs.wire }
    jobs := [], holds := [], temper := { Temper.reset with pubs := s.temper.pubs }
    core := Pulse.reset, trace := ⟨[], 0⟩, snapReq := none
    shadow := s.shadow.filter (fun e => e.1 ≥ 0x380000000000) }

/-- The compute domains off (R589, R600). -/
def State.computeOff (s : State) : State :=
  ((((s.put (BELLOWS_PDSTAT_ON 0) 0).put (BELLOWS_PDSTAT_ON 1) 0).put (BELLOWS_PDSTAT_ON 2) 0).setDom 192 false).setDom 193 false
    |>.setDom 194 false

/-- The compute complex goes down (R279, R392, R600): jobs end, links drop, state is lost as R595 lays down. -/
def State.computeDown (s : State) (keep : Bool) (domain : Nat) : State :=
  let s := ((List.range 4).filter (fun i => (s.ifc i).up)).foldl (fun s _ => s.raise 21) s
  let ended := s.jobWords
  let held := (List.range 20).filter (fun k => keep && s.holdsData k)
  let s := ((s.memReset keep).mainReset).blocksReset.computeOff
  let s := held.foldl (fun s k => s.put (HEARTH_STKSTAT_STATE k) 3) s
  s.jobsEnded domain ended

/-- A reset noted in RSTSTAT (R602). -/
def State.noteReset (s : State) (domain index cause : Nat) : State :=
  ((s.put BELLOWS_RSTSTAT_DOMAIN domain).put BELLOWS_RSTSTAT_INDEX index).put BELLOWS_RSTSTAT_CAUSE cause

/-- Regulators enabled where VIN48 is in range and nothing holds them (R459, R585, R598 step 5). -/
def State.enableRegs (s : State) : State :=
  let s := { s with pwr := { s.pwr with step := 5, stepAt := s.now, stop := false } }
  if s.pwr.vinBad ∨ s.cool.shdnExt ∨ s.on BELLOWS_SAFESTAT_CSTOP then s
  else (s.put BELLOWS_PWRSTAT_REGON 1).put BELLOWS_PWRSTAT_STATE 3

/-- A compute reset (R593, R600): with `regOff` the main regulators go off too and bring-up enters at step 5, else at
step 6 (R598). It supersedes or joins one in progress (R596). Where bring-up has not come to the regulators, it goes on as
it was. -/
def State.computeReset (s : State) (keep regOff : Bool) (cause : Nat) : State :=
  let s := s.computeDown keep 1
  let s := (s.noteReset 1 0 cause).inc BELLOWS_RSTSTAT_COMPUTES
  let s := s.put BELLOWS_RSTSTAT_KEPT 0
  let s := { s with pwr := { s.pwr with keep := keep, hearth := [], pll := false } }
  if s.pwr.step < 5 then s
  else
    let s := s.put BELLOWS_PWRSTAT_STATE 5
    if regOff then (s.put BELLOWS_PWRSTAT_REGON 0).enableRegs
    else if s.on BELLOWS_PWRSTAT_REGON then { s with pwr := { s.pwr with step := 6, stepAt := s.now, stop := false } }
    else s.enableRegs

/-- An ALERT condition begins (R550). -/
def State.alert (s : State) (kind idx code : Nat) : State :=
  { s with cool := { s.cool with alerts := s.cool.alerts ++ [⟨kind, idx, code, none, true⟩] } }

/-- An ALERT condition ends (R550). -/
def State.alertEnd (s : State) (kind idx : Nat) : State :=
  { s with
    cool := { s.cool with
      alerts := s.cool.alerts.map (fun (a : Alert) => if a.kind = kind ∧ a.idx = idx then { a with stands := false } else a) } }

/-- Compute stopped and latched (R455, R456, R458, R459, R461): regulators off, HBM lost. `cause`: 0 timeout,
1 comparator, 2 isolation, 3 external SHDN_N. The cause RSTSTAT gives for it is open (assumption log 16). -/
def State.computeStop (s : State) (cause : Nat) : State :=
  if s.on BELLOWS_SAFESTAT_CSTOP then s
  else
    let s := (s.action 0x0603 5 (6 * 256) cause 0 0).alert 5 0 0x0603
    let (c, s) := s.fresh 256
    let s := (s.put BELLOWS_SAFESTAT_CSTOP 1).computeReset false true c
    let s := (s.put BELLOWS_PWRSTAT_STATE 6).put BELLOWS_PWRSTAT_REGON 0
    let s := { s with
      cool := { s.cool with armed := false }
      pwr := { s.pwr with step := 4, stepAt := s.now, stop := true } }
    s.safety

/-- SHDN_N driven low by the module (R455, R458). -/
def State.driveShdn (s : State) (b : Bool) : State := { s with cool := { s.cool with shdn := b } }

/-! ### The module reset -/

/-- The records that survive loss of VSB12: those in NOR (R587). -/
def Evrec.saved (e : Evrec) : Evrec :=
  let inNor (x : Evt) : Bool := !e.nor.contains x.seq
  { perm := e.perm.filter inNor, circ := e.circ.filter inNor, nor := [], drops := none, lastAlone := none, deferred := [] }

/-- 128 fresh bits (R620). -/
def State.newChal (s : State) : State :=
  let (a, s) := s.fresh (2 ^ 64)
  let (b, s) := s.fresh (2 ^ 64)
  (s.wr (SEC_CHAL 0) (BitVec.ofNat 64 a)).wr (SEC_CHAL 1) (BitVec.ofNat 64 b)

/-- Every block and register at its reset value, but what NOR and OTP hold (R595): event records, operating time, power-up
count, TRIM, counters, owner data and firmware slots. `cold`: VSB12 was lost, and with it the records that waited for
NOR. -/
def State.bellowsReset (s : State) (cold : Bool) : State :=
  let next := if cold then (match s.pwr.norSeq with | some q => q + 1 | none => 0) else s.get EVREC_HEAD_NEXT
  let trim := s.temper.trimNext.getD (s.get TEMPER_TRIM_TRIM)
  let ended := s.jobWords
  let r := State.reset
  let s := { r with
    now := s.now, free := s.free, pending := s.pending
    evrec := (if cold then s.evrec.saved else { s.evrec with drops := none, lastAlone := none, deferred := [] })
    tongs := { r.tongs with wire := s.tongs.wire }
    can := { r.can with wire := s.can.wire }
    mgmt := { r.mgmt with wire := s.mgmt.wire }
    cool := Cool.reset s.hours s.now
    pwr := { r.pwr with
      mate := s.pwr.mate, pcyc := s.pwr.pcyc, loss := cold || s.pwr.loss, norSeq := s.pwr.norSeq, slotId := s.pwr.slotId, tcrit := s.pwr.tcrit
      vinBad := s.pwr.vinBad, vinLow := s.pwr.vinLow, vsbLow := s.pwr.vsbLow, bootAt := s.now, stepAt := s.now }
    secb := { s.secb with update := none, staged := none, running := none }
    jtag := (if cold then r.jtag else s.jtag) }
  let s := (s.put EVREC_HEAD_NEXT next).put TEMPER_TRIM_TRIM trim
  let s := (s.put EVREC_STAT_PENDING s.evrec.nor.length).put BELLOWS_SAFESTAT_TCRIT_SEL s.pwr.tcrit
  let s := s.put BELLOWS_LOOP_SLOT s.pwr.slotId
  let s := (s.put CANFD_TTCFG_TMPRI (s.pwr.slotId % 4)).putB CANFD_TTCFG_TMEN (s.pwr.slotId < 4)
  s.newChal.jobsEnded (if cold then 4 else 0) ended

/-- A module reset (R593): Bellows reboots from step 2. -/
def State.moduleReset (s : State) (cause : Nat) : State := (s.bellowsReset false).noteReset 0 0 cause

/-- A cold reset (R593), without power yet where `alive` is false. -/
def State.coldReset (s : State) (alive : Bool) (cause : Nat) : State :=
  let s := (s.bellowsReset true).noteReset 4 0 cause
  { s with pwr := { s.pwr with alive := alive, step := (if alive then 2 else 0) } }

end Sys2Proof.Machine
end

