-- ==== Sys2Proof/Machine/Temper.lean ====
section
/-! DEFINITION. Temper's loop and its events (R402–R439). -/

namespace Sys2Proof.Machine

/-! ### Caps (R413–R418) -/

/-- The five mandatory caps in the order of R413. -/
def State.caps (s : State) : List Nat :=
  [s.get TEMPER_CAP_FACILITY_WATTS, s.get TEMPER_CAP_HOST_WATTS, s.get TEMPER_CAP_THERMAL_WATTS, s.get TEMPER_CAP_FLOW_WATTS,
   s.get TEMPER_CAP_SUPPLY_WATTS]

/-- The lowest cap and the first source that has it (R414). -/
def State.capMin (s : State) : Nat × Nat :=
  let l := s.caps
  let c := l.foldl min 65535
  (c, l.findIdx (fun x => x == c))

/-- The limiting source as LIMIT reads it: a floor input, or the source sampled with C at the interval start (R414). -/
def State.limitNow (s : State) : Nat :=
  if s.on TEMPER_CAPSTAT_THROTTLE then 5 else if s.on TEMPER_CAPSTAT_SAG_WARN then 6 else s.temper.lim

/-- The register of a writable cap source (R413). -/
def capField (src : Nat) : Fd :=
  match src with
  | 0 => TEMPER_CAP_FACILITY_WATTS
  | 1 => TEMPER_CAP_HOST_WATTS
  | 2 => TEMPER_CAP_THERMAL_WATTS
  | _ => TEMPER_CAP_FLOW_WATTS

/-- A CAP_CHANGE record (R418). -/
def State.capRecord (s : State) (src old new : Nat) : State :=
  let c := s.capMin
  let s := { s with temper := { s.temper with recC := c.1, recLimit := c.2 } }
  s.event 0x0500 1 (1 * 256) (src + old * 2 ^ 16) (new + c.1 * 2 ^ 16) c.2

/-- Whether C or its limiting source has moved enough for a record of THERMAL, FLOW or SUPPLY (R418). -/
def State.capMoved (s : State) : Bool :=
  let c := s.capMin
  c.2 != s.temper.recLimit || 20 * (max c.1 s.temper.recC - min c.1 s.temper.recC) > s.temper.recC

/-- A cap source takes a value (R414, R418): above 1,600 W it is stored as 1,600 W. -/
def State.setCap (s : State) (src w : Nat) : State :=
  let old := s.get (capField src)
  let w := min w 1600
  let s := s.put (capField src) w
  if src ≤ 1 then (if old = w then s else s.capRecord src old w)
  else if s.capMoved then s.capRecord src old w else s

/-- A sticky flag of `TEMPER.CAPSTAT`, and the summary bit of its kind (R633). -/
def State.temperFlag (s : State) (f : Fd) : State := (s.put f 1).put HAMMER_ERRSUM_TEMPER 1

/-- STALE follows the stale sources. -/
def State.staleBit (s : State) : State := s.putB TEMPER_CAPSTAT_STALE (!s.temper.stale.isEmpty)

/-- Bellows publishes a cap (R413, R417). -/
def State.publish (s : State) (src w : Nat) : State :=
  let s := { s with
    temper := { s.temper with
      pubs := Tab.set (fun _ => 0) s.temper.pubs src s.now, stale := s.temper.stale.filter (fun x => x != src) } }
  (s.setCap src w).staleBit

/-- A published cap without publication for 10 ticks takes STALEW, within the bound of every cap (R44, R417, R418). -/
def execCapStale (src t : Nat) (s : State) : Out :=
  let s := s.at t
  if (src = 0 ∨ src = 2 ∨ src = 3) ∧ s.domOn 192 ∧ s.temper.stale.contains src = false ∧
    s.now ≥ Tab.get (fun _ => 0) s.temper.pubs src + 10 * ms then
    let s := { s with temper := { s.temper with stale := s.temper.stale ++ [src] } }
    let s := (s.setCap src (s.get TEMPER_CAPCFG_STALEW)).staleBit
    .next (s.event 0x0502 2 (1 * 256) src s.capMin.1 0)
  else .next s

/-! ### The interval (R402–R424) -/

/-- The ratio ceiling of an operating point. -/
def State.kmax (s : State) (o : Nat) : Nat := s.get (TEMPER_OP_KMAX o)

/-- `kf` of R422: the highest k that fits under `c` at operating point `o`, with `perK` watts per unit of k at the
setpoint `v`. -/
def State.kFit (s : State) (perK : FVal) (v c o : Nat) : Nat :=
  let w := fMul perK (volRatio2 (s.opUv o) v)
  let k : Int := if fLe w (fI 0) then 32 else fFloor (fDiv (fSub (fI c) (s.pFix o)) w)
  (clampI k 0 (s.kmax o)).toNat

/-- The best operating point up to the one requested: the highest k, ties to the lower point (R422). -/
def bestOp (kf : Nat → Nat) (req : Nat) : Nat × Nat :=
  (List.range (req + 1)).foldl (fun b o => if kf o > b.1 then (kf o, o) else b) (0, 0)

/-- The collective group bound by the running job (R435). -/
def State.groupStrm (s : State) : Option Nat := if s.hammer.run.isSome then s.hammer.group else none

/-- The stored PACE value of the group stream while it is current (R436). -/
def State.paceNow (s : State) : Option Pace :=
  match s.groupStrm with
  | none => none
  | some g =>
    match Tab.get (fun _ => none) s.temper.pace g with
    | some p => if s.now < p.at_ + s.get TEMPER_PACECFG_TTL * us then some p else none
    | none => none

/-- PACE sent on the group stream at the start of an interval (R435): `own`, the ratio before any PACE limit, and whether a
mandatory cap holds it below its KMAX. A message that still waits for credit takes the newer value. -/
def State.sendPace (s : State) (own : Nat) (capped : Bool) : State :=
  let cur := s.paceNow
  let s := (s.put TEMPER_PACESTAT_OWN own).putB TEMPER_PACESTAT_CURRENT cur.isSome
  let s := match s.groupStrm.bind (fun g => Tab.get (fun _ => none) s.temper.pace g) with
    | some p => (s.put TEMPER_PACESTAT_RXK p.k).put TEMPER_PACESTAT_RXH p.h
    | none => s
  match s.groupStrm with
  | none => s
  | some g =>
    let floor := s.on TEMPER_CAPSTAT_FLOOR
    let fl := (if capped then 1 else 0) + (if floor then 2 else 0)
    let (k, h, fl) := match cur with
      | some p => if p.k < own ∧ p.h + 1 < s.get TEMPER_PACECFG_GHOPS then (p.k, p.h + 1, p.flags) else (own, 0, fl)
      | none => (own, 0, fl)
    let due : Bool := match s.temper.sent with
      | some (k', t) => k' != k || s.now ≥ t + 50 * us
      | none => true
    let c := s.ctx g
    if due = false ∨ c.tstate ≠ 3 ∨ c.typ ≠ 6 then s
    else
      let held := c.txq.any (fun m => m.opc == 3 && m.msn.isNone)
      let seq := if held then (s.temper.paceSeq + 2 ^ 32 - 1) % 2 ^ 32 else s.temper.paceSeq
      let b := toBytes 1 k ++ toBytes 1 h ++ toBytes 1 fl ++ toBytes 1 0 ++ toBytes 4 seq ++ toBytes 8 0
      let s := { s with temper := { s.temper with sent := some (k, s.now), paceSeq := (seq + 1) % 2 ^ 32 } }
      if held then
        s.setCtx g { c with txq := c.txq.map (fun m => if m.opc = 3 ∧ m.msn.isNone then { m with data := b } else m) }
      else (s.inc TEMPER_PACESTAT_SENT).queueMsg g 3 false b none

/-- A raise without its run within 1 µs of the decision is dropped and counted (R426). -/
def State.dropRaise (s : State) : State :=
  match s.core.raise with
  | some r => if r.at_ + 16000 ≤ 16 * s.now then { s with core := { s.core with raise := none } }.inc TEMPER_CNT_RAISEDROP else s
  | none => s

/-- Whether VCORE has still to rise to its target (R423). -/
def State.raising (s : State) : Bool :=
  s.on TEMPER_CTRL_XFER && (s.temper.vset < s.temper.vgoal || s.get TEMPER_CTRL_OP < s.get TEMPER_CTRL_OPTGT)

/-- Decision of k (R422, R423, R426): a lower k from the next frame boundary, a higher one after its run, and none while VCORE
has still to rise. -/
def State.setK (s : State) (k : Nat) : State :=
  let s := (s.put TEMPER_CTRL_KTGT k).dropRaise
  { s with core := s.core.decide (if s.raising then min k s.core.k else k) (16 * s.now) }

/-- The target operating point chosen (R423, R424). -/
def State.setOp (s : State) (best : Nat) : State :=
  let tgt := s.get TEMPER_CTRL_OPTGT
  let held : Bool := best > tgt && s.temper.lowerAt.any (fun t => s.now < t + 20480)
  if held then s
  else
    let s := (s.put TEMPER_CTRL_OPTGT best).aim best
    s.putB TEMPER_CTRL_XFER (best != s.get TEMPER_CTRL_OP || (s.on TEMPER_CTRL_XFER && s.temper.vset != s.temper.vgoal))

/-- Watts per unit of k at the present setpoint, with the hint (R422). -/
def State.perK (s : State) (kprev : FVal) : FVal :=
  let req := s.get TEMPER_CTRL_OPREQ
  let p := fDiv s.temper.pvar kprev
  if s.temper.hint = 0 then p
  else
    fMax p (fMul (fDiv (fSub (fI s.temper.hint) (s.pFix req)) (fI (s.kmax req))) (volRatio2 s.temper.vset (s.opUv req)))

/-- Whether no operating point meets the cap (R419): flagged each time, recorded on entry. -/
def State.noteUnmet (s : State) (unmet : Bool) (c : Nat) : State :=
  let entry := unmet && !s.temper.unmet
  let s := { s with temper := { s.temper with unmet := unmet } }
  let s := if unmet then s.temperFlag TEMPER_CAPSTAT_CAP_UNMET else s
  if entry then s.eventIrq 22 0x0505 2 (1 * 256) 0 c 0 else s

/-- `k` limited during a transition by what fits both points (R423). -/
def State.transK (s : State) (kf : Nat → Nat) (k best : Nat) : Nat :=
  let op := s.get TEMPER_CTRL_OP
  let tgt := s.get TEMPER_CTRL_OPTGT
  if best = op ∧ tgt = op then k else min k (min (kf op) (kf tgt))

/-- `k` and the PACE limit (R239, R422, R436), and the PACE message of this interval. -/
def State.finishK (s : State) (k : Nat) (capped : Bool) : State :=
  let step := s.core.k + s.get TEMPER_CTRLCFG_KSTEP
  let lim := if s.hammer.follow && s.hammer.coll then s.paceNow else none
  let k' := match lim with
    | some p => min k (max (s.get TEMPER_PACECFG_FLOOR) p.k)
    | none => k
  let s := s.putB TEMPER_CTRL_PACELIM (lim.isSome && k' < k)
  (s.setK (min k' step)).sendPace (min k step) capped

/-- The control part of R422 for an interval without a floor input. `kprev`: passed pulses per frame of the interval just
ended. -/
def State.control (s : State) (c : Nat) (kprev : FVal) : State :=
  let s := (s.putB TEMPER_CAPSTAT_FLOOR false).put TEMPER_CAPSTAT_GRANT c
  let kf := s.kFit (s.perK kprev) s.temper.vset c
  let b := bestOp kf (s.get TEMPER_CTRL_OPREQ)
  let s := (s.noteUnmet (b.1 == 0) c).setOp b.2
  s.finishK (if b.1 = 0 then 1 else max 1 (s.transK kf b.1 b.2)) (b.1 < s.kmax b.2)

/-- The interval just ended is priced (R406, R408). -/
def State.price (s : State) : State :=
  let now := s.classTotals
  let pdyn := (List.range 13).foldl (fun acc c =>
    let w := fMul (fI (s.get (TEMPER_WT_W c))) (fC 1 4000000000000)
    fAdd acc (fDiv (fMul w (fI (totalOf now c - totalOf s.temper.cnt c : Nat))) (fC 256 100000000))) (fI 0)
  let pvar := fMul s.tGain pdyn
  let pfix := s.pFix (s.get TEMPER_CTRL_OP)
  let pest := fAdd pvar pfix
  let s := ((s.put TEMPER_PEST_PEST (watts pest)).put TEMPER_PEST_PVAR (watts pvar)).put TEMPER_PEST_PFIX (watts pfix)
  { s with
    temper := { s.temper with
      cnt := now, pvar := pvar, pestSum := fAdd s.temper.pestSum pest, pestN := s.temper.pestN + 1 } }

/-- Passed pulses per frame since the last interval start (R422). -/
def State.kPrev (s : State) : FVal :=
  let slots := s.core.idx - s.temper.slots
  if slots = 0 then fI s.core.k else fDiv (fI (32 * (s.core.passed - s.temper.passed) : Nat)) (fI slots)

/-- The length of an interval in ns (R402). -/
def intervalLen : Nat := 2560

/-- How many samples of one each `p` ns from the release of compute reset were complete before now. -/
def State.samples (s : State) (p : Nat) : Nat := (s.now - s.temper.rel + p - 1) / p

/-- The accounts of a new interval, and TRIM where it rises from this interval on (R437). The next one starts when this one is
over (R402). -/
def State.newInterval (s : State) : State :=
  let s := { s with
    temper := { s.temper with
      ivNext := s.temper.rel + ((s.now - s.temper.rel) / intervalLen + 1) * intervalLen
      passed := s.core.passed, slots := s.core.idx, hint := s.temper.reqHint, pure7 := s.temper.pure
      pure := s.get TEMPER_CTRL_OP == 7 } }
  match s.temper.trimNext with
  | some n =>
    let s := (s.put TEMPER_TRIM_TRIM n).aim (s.get TEMPER_CTRL_OPTGT)
    { s with temper := { s.temper with trimNext := none } }
  | none => s

/-- The die temperature from the latest sample of the 64 diodes, taken each 100 µs: the hottest that is not suspect (R409). -/
def State.dieSample (s : State) (die : List Int) : State :=
  let n := s.samples (100 * us)
  if n ≤ s.temper.dieSeen then s
  else
    let l := (die.zipIdx.filter (fun p => !s.cool.dieSus.contains p.2)).map (·.1)
    { s with temper := { s.temper with dieSeen := n, die := l.foldl (fun a x => max a x) (l.headD s.temper.die) } }

/-- SUPPLY from the latest sample of VIN48, taken each 10 µs, in 10 mV (R416, R418). -/
def State.supply (s : State) (vin : Nat) : State :=
  let n := s.samples (10 * us)
  if n ≤ s.temper.vinSeen then s
  else
    let s := { s with temper := { s.temper with vinSeen := n } }
    let old := s.get TEMPER_CAP_SUPPLY_WATTS
    let vin := vin % 65536
    let new := min 1600 (vin * s.get TEMPER_SUPPLYCFG_ILIM / 1000)
    let s := (s.put TEMPER_CAP_SUPPLY_VIN vin).put TEMPER_CAP_SUPPLY_WATTS new
    if s.capMoved then s.capRecord 4 old new else s

/-- The decision at an interval start (R414, R421, R422, R427). -/
def State.decide (s : State) (kprev : FVal) : State :=
  let req := if s.hammer.run.isSome then s.temper.reqOp else 0
  let c := s.capMin.1
  let s := { s with temper := { s.temper with lim := s.capMin.2 } }
  let s := ((s.put TEMPER_CTRL_OPREQ req).put TEMPER_CAPSTAT_CEFF c).put TEMPER_CAPSTAT_LIMIT s.limitNow
  if s.on TEMPER_CAPSTAT_THROTTLE || s.on TEMPER_CAPSTAT_SAG_WARN then
    ((((s.put TEMPER_CAPSTAT_GRANT 0).putB TEMPER_CAPSTAT_FLOOR true).setOp 0).setK 1).sendPace 1 false
  else s.control c kprev

/-- Start of an interval at time `t` (R402–R424), no earlier than the last one is over: `die`, the 64 die diodes in 0.01 °C
at their latest sample (R409); `vin`, the latest sample of VIN48 in 10 mV (R416). -/
def execTemperInterval (die : List Int) (vin t : Nat) (s : State) : Out :=
  let s := (s.at t).slew
  if s.domOn 192 = false ∨ s.now < s.temper.ivNext then .next s
  else
    let s := (if s.hammer.run.isSome then s.heatSample else s).price
    let k := s.kPrev
    let s := ((s.newInterval.dieSample die).supply vin).decide k
    .next (s.traced 5 (s.core.k * 2 ^ 26 + s.get TEMPER_CTRL_OP * 2 ^ 23 + s.get TEMPER_CAPSTAT_GRANT))

/-! ### Events of the pulse gate and the regulator (R423–R428) -/

/-- A raise takes effect (R426): the gate has put it into force at the first frame boundary after its 64 unstretched
positions, where that was reached by time `t`. -/
def execKRaise (t : Nat) (s : State) : Out := .next (s.at t)

/-- A raise without such a run within 1 µs of its decision is dropped (R426). -/
def execRaisedrop (t : Nat) (s : State) : Out := .next (s.at t).dropRaise

/-- The regulator reports settling: the target operating point is in force (R423). -/
def execVcoreSettled (t : Nat) (s : State) : Out :=
  let s := (s.at t).slew
  if s.on TEMPER_CTRL_XFER ∧ s.temper.vset = s.temper.vgoal then
    .next { (s.put TEMPER_CTRL_OP (s.get TEMPER_CTRL_OPTGT)).put TEMPER_CTRL_XFER 0 with
      temper := { s.temper with pure := false } }
  else .next s

/-- The droop detectors find local VCORE low at time `t` (R425): droop where it is below the setpoint less THR. The positions
it stretches are counted. -/
def execDroop (d : DroopIn) (t : Nat) (s : State) : Out :=
  let s := (s.at t).slew
  if s.domOn 192 = false ∨ s.temper.vset ≤ d.uv + 2500 * s.get TEMPER_DROOPCFG_THR then .next s
  else
    let (n, p) := s.core.droop (16 * s.now) (16 * d.dur)
    .next ({ s with core := p, temper := { s.temper with pure := false } }.add TEMPER_CNT_STRETCH n)

/-- The SUPPLY source (33) follows SAG_WARN and the VSB12 warning (R586). -/
def State.supplyLevel (s : State) : State := s.setLevel 33 (s.pwr.vinLow || s.pwr.vsbLow)

/-- VIN48 has been below 41.0 V for 8 µs, at `mv` in 10 mV (R428, R586): Temper, where it runs, goes to its floor. -/
def execSagWarn (mv t : Nat) (s : State) : Out :=
  let s := s.at t
  if mv ≥ 4100 ∨ s.pwr.vinLow then .next s
  else
    let s := { s with pwr := { s.pwr with vinLow := true } }
    let s := if s.domOn 192 then (s.putB TEMPER_CAPSTAT_SAG_WARN true).enterFloor 1 else s
    let s := (s.put BELLOWS_PWRSTAT_VINSAG 1).put BELLOWS_PWRSTAT_VIN48 mv
    .next (s.event 0x0A01 2 (6 * 256) mv 0 0).supplyLevel

/-- VIN48 reaches 42.0 V (R428, R429). -/
def execSagWarnClear (mv t : Nat) (s : State) : Out :=
  let s := s.at t
  if mv < 4200 ∨ s.pwr.vinLow = false then .next s
  else
    let s := { s with pwr := { s.pwr with vinLow := false } }
    let s := s.put BELLOWS_PWRSTAT_VIN48 (min 65535 mv)
    let s := if s.domOn 192 then
        let s := s.putB TEMPER_CAPSTAT_SAG_WARN false
        s.put TEMPER_CAPSTAT_LIMIT s.limitNow
      else s
    .next s.supplyLevel

/-! ### Calibration and ageing (R410, R411, R437, R438) -/

/-- Once per management tick (R410, R411): `meas`, Bellows' 1 ms average of VIN48 input power in W, where one arrived. The
time at a bound is counted in ticks; a tick without a measurement, or none at all, breaks a run of MEAS_OVER. -/
def execCalibration (meas : Option Nat) (t : Nat) (s : State) : Out :=
  let s := s.at t
  let gone := s.tickNo - s.temper.calTick
  if s.domOn 192 = false ∨ gone = 0 then .next s
  else
    let p := if s.temper.pestN = 0 then fI 0 else fDiv s.temper.pestSum (fI s.temper.pestN)
    let s := { s with temper := { s.temper with pestSum := fI 0, pestN := 0, calTick := s.tickNo } }
    let g := s.get TEMPER_MODEL_CALG
    let s : State := match meas with
      | some m =>
        let s := s.put TEMPER_PEST_PMEAS m
        if fLe (fI 200) p then
          let d := fDiv (fDiv (fMul (fI g) (fSub (fI m) p)) p) (fI (2 ^ s.get TEMPER_MODEL_CALSH))
          s.put TEMPER_MODEL_CALG (clampI ((g : Int) + clampI (fRne d) (-16) 16) 3072 5120).toNat
        else s
      | none => s
    let g := s.get TEMPER_MODEL_CALG
    let was := s.temper.calTicks
    let cal := if g = 3072 ∨ g = 5120 then was + gone else 0
    let high : Bool := meas.any (fun m => 100 * m > 105 * s.get TEMPER_CAPSTAT_CEFF)
    let ov := if high then (if gone = 1 then s.temper.overTicks else 0) + 1 else 0
    let s := { s with temper := { s.temper with calTicks := cal, overTicks := ov } }
    let s := if was < 1000 ∧ 1000 ≤ cal then
        (s.temperFlag TEMPER_CAPSTAT_CAL_BOUND).eventIrq 22 0x0503 2 (1 * 256) 0 g (meas.getD 0)
      else s
    .next (if ov = 10 then
        (s.temperFlag TEMPER_CAPSTAT_MEAS_OVER).eventIrq 22 0x0504 2 (1 * 256) 0 (s.get TEMPER_CAPSTAT_CEFF) (meas.getD 0)
      else s)

/-- The evaluation of the worst slack of the 80 monitors, after each operating hour, in an interval that ran wholly at OP7
unstretched (R437, R438). -/
def execAgeingEval (slack : List Nat) (t : Nat) (s : State) : Out :=
  let s := s.at t
  if s.domOn 192 = false ∨ s.now / (3600 * sec) ≤ s.temper.agedAt / (3600 * sec) ∨ s.temper.pure7 = false then .next s
  else
    let worst := slack.foldl min 65535
    let s := { s.put TEMPER_TRIM_SLACK worst with temper := { s.temper with agedAt := s.now } }
    let trim := s.temper.trimNext.getD (s.get TEMPER_TRIM_TRIM)
    if worst ≥ s.get TEMPER_TRIM_SLACKMIN then .next s
    else if trim ≥ 16 then .next ((s.temperFlag TEMPER_CAPSTAT_AGE_MAX).eventIrq 22 0x0507 2 (1 * 256) trim 0 0)
    else
      .next ({ s with temper := { s.temper with trimNext := some (trim + 1) } }.event 0x0506 2 (1 * 256) (trim + 1) 0 0)

end Sys2Proof.Machine
end

