-- ==== Sys2Proof/Machine/CoolCore.lean ====
section
/-! DEFINITION. What the cooling plane's events share: sensor readings and substitutes (R440–R450), flow state and caps
(R451, R452), fan and pump duties (R464–R466, R488), THROTTLE (R453, R454, R458). -/

namespace Sys2Proof.Machine

/-- A two's-complement 16-bit value. -/
def s16 (n : Nat) : Int := if n % 65536 < 32768 then (n % 65536 : Nat) else (n % 65536 : Nat) - 65536

/-- An integer as the low 16 bits of a field. -/
def u16 (v : Int) : Nat := (v % 65536).toNat

/-- An integer as a register holds it in 16 bits, at the ends of the range where it exceeds them. -/
def clip16 (v : Int) : Nat := u16 (clampI v (-32768) 32767)

/-- `BELLOWS.ERRSUM` bits (R633). -/
def State.errSum (s : State) (f : Fd) : State := s.put f 1

/-! ### Temperatures -/

/-- R441 in °C: the temperature of a resistance `ohm` at `r25`, `beta` and the offset `ofs` in 0.05 K. -/
def ntcTemp (r25 beta : Nat) (ofs : Int) (ohm : Nat) : FVal :=
  let inv := fAdd (fDiv (fI 1) (fC 29815 100)) (fDiv (fLn (fDiv (fI ohm) (fI r25))) (fI beta))
  fAdd (fSub (fDiv (fI 1) inv) (fC 27315 100)) (fDiv (fI ofs) (fI 20))

/-- The reported value of an input in 0.01 °C: the mean of its samples (R441). -/
def State.ntcMean (s : State) (n : Nat) (ohm : List Nat) : Int :=
  let o := s.get (BELLOWS_TCFG_OFS n)
  let ofs : Int := if o < 128 then o else (o : Int) - 256
  let t := ohm.foldl (fun a r => fAdd a (ntcTemp (s.get (BELLOWS_TCFG_R25 n)) (s.get (BELLOWS_TCFG_BETA n)) ofs r)) (fI 0)
  fRne (fMul (fDiv t (fI ohm.length)) (fI 100))

/-- Whether an input is in use and reads neither OPEN nor SHORT. -/
def State.ntcValid (s : State) (n : Nat) : Bool := s.on (BELLOWS_TCFG_EN n) && s.get (BELLOWS_TSTAT_STATE n) == 0

/-- Whether an input is valid and not suspect. -/
def State.ntcGood (s : State) (n : Nat) : Bool := s.ntcValid n && !s.on (BELLOWS_TSTAT_SUSPECT n)

/-- An input's measured value in 0.01 °C. -/
def State.ntcRaw (s : State) (n : Nat) : Int := s16 (s.get (BELLOWS_TSTAT_RAW n))

/-- An input's effective value in 0.01 °C. -/
def State.ntcEff (s : State) (n : Nat) : Int := s16 (s.get (BELLOWS_TSTAT_TEMP n))

/-- Whether an input is excluded under POL 1 (R446), or not in use. -/
def State.ntcOut (s : State) (n : Nat) : Bool :=
  !s.on (BELLOWS_TCFG_EN n) ||
    (s.on (BELLOWS_TCFG_POL n) && s.get (BELLOWS_TSTAT_STATE n) != 0 && !s.on (BELLOWS_TSTAT_SUSPECT n))

/-- The pair partner (R447). -/
def State.partner (s : State) (n : Nat) : Option Nat :=
  if n < 4 then some ((n + 2) % 4)
  else
    let m := s.get (BELLOWS_TCFG_PAIR n)
    if 4 ≤ m ∧ m < 12 ∧ m ≠ n ∧ s.get (BELLOWS_TCFG_PAIR m) = n then some m else none

/-- Inputs of the same role: inlet, outlet, board points (R449). -/
def sameRole (n : Nat) : List Nat :=
  if n < 4 then [n % 2, n % 2 + 2] else [4, 5, 6, 7, 8, 9, 10, 11]

/-- The hottest of some values. -/
def hottest : List Int → Option Int
  | [] => none
  | x :: r => some (r.foldl max x)

/-- The substitute value of an input (R449). -/
def State.substitute (s : State) (n : Nat) : Int :=
  match (s.partner n).filter s.ntcGood with
  | some m => s.ntcRaw m
  | none =>
    match hottest (((sameRole n).filter s.ntcGood).map s.ntcRaw) with
    | some v => v
    | none => 100 * (s.get BELLOWS_THCFG_FAULTVAL : Int)

/-- A measured value taken, and the state of an input put in or out of use. -/
def State.ntcTake (s : State) (n : Nat) (ohm : List Nat) : State :=
  let st := s.get (BELLOWS_TSTAT_STATE n)
  let s := if s.on (BELLOWS_TCFG_EN n) then (if st = 3 then s.put (BELLOWS_TSTAT_STATE n) 0 else s)
    else s.put (BELLOWS_TSTAT_STATE n) 3
  if ohm.isEmpty then s else s.put (BELLOWS_TSTAT_RAW n) (clip16 (s.ntcMean n ohm))

/-- The effective value of an input (R446, R449). -/
def State.ntcSettle (s : State) (n : Nat) : State :=
  if s.ntcGood n || s.ntcOut n then (s.put (BELLOWS_TSTAT_TEMP n) (s.get (BELLOWS_TSTAT_RAW n))).put (BELLOWS_TSTAT_SUBST n) 0
  else (s.put (BELLOWS_TSTAT_TEMP n) (clip16 (s.substitute n))).put (BELLOWS_TSTAT_SUBST n) 1

/-- The effective value of a pair, absent while both inputs are excluded (R447). -/
def State.pairEff (s : State) (a b : Nat) : Option Int :=
  match hottest (([a, b].filter s.ntcGood).map s.ntcRaw) with
  | some v => some v
  | none => hottest (([a, b].filter (fun n => !s.ntcOut n)).map s.ntcEff)

/-- All temperature inputs of a tick. -/
def State.tickTemps (s : State) (k : TickIn) : State :=
  let s := (List.range 12).foldl (fun s n => s.ntcTake n (k.ntc.getD n [])) s
  let s := (List.range 12).foldl (fun s n => s.ntcSettle n) s
  let up := s.domOn 192
  let die := (k.die.zipIdx.filter (fun p => up && !s.cool.dieSus.contains p.2)).map (fun p => p.1)
  { s with
    cool := { s.cool with
      tin := (s.pairEff 0 2).getD s.cool.tin, tout := (s.pairEff 1 3).getD s.cool.tout
      tdie := (hottest die).getD s.cool.tdie, tstk := (hottest (k.stk.filter (fun _ => up))).getD s.cool.tstk } }

/-! ### Pressure, flow, leak loops -/

/-- A pressure in 0.1 kPa (R443), at the ends of its field where it exceeds it. -/
def pressureOf (fs mv v5 : Nat) : Nat :=
  let num : Int := (fs : Int) * 10 * (10 * (mv : Int) - v5)
  let den : Int := 8 * (v5 : Int)
  (clampI ((2 * num + den) / (2 * den)) 0 16383).toNat

/-- A pressure reading; without a sensor supply no rule gives one. -/
def State.pressure (s : State) (fs mv v5 : Nat) : Nat × State :=
  if v5 = 0 then s.fresh 16384 else (pressureOf fs mv v5, s)

/-- Pressure inputs of a tick, and ΔP. -/
def State.tickPress (s : State) (k : TickIn) : State :=
  let s := (k.press.zipIdx).foldl (fun s p =>
    if p.2 < 4 then
      let (v, s) := s.pressure (s.get (BELLOWS_PRESS_FS p.2)) p.1 k.v5
      s.put (BELLOWS_PRESS_KPA p.2) v
    else s) s
  { s with cool := { s.cool with dp := (s.get (BELLOWS_PRESS_KPA 0) : Int) - s.get (BELLOWS_PRESS_KPA 1) } }

/-- Whether pressure inputs P0 and P1 are both valid. -/
def State.dpValid (s : State) : Bool := s.get (BELLOWS_PRESS_STATE 0) == 0 && s.get (BELLOWS_PRESS_STATE 1) == 0

/-- A flow in 0.001 L/min from the time of the last four pulses in µs (R444); 0 without a pulse for 50 ms. -/
def flowOf (kf four : Nat) : Nat :=
  if four = 0 then 0 else min 65535 (240000000000 / (four * kf))

/-- A flow reading; at a KF of 0 no rule gives one. -/
def State.flowRead (s : State) (kf four : Nat) : Nat × State :=
  if kf = 0 ∧ four ≠ 0 then s.fresh 65536 else (flowOf kf four, s)

/-- The estimate of R450. -/
def State.flowEst (s : State) : Nat :=
  let pumps : Bool := (List.range 4).any (fun c => s.get (BELLOWS_FCFG_ROLE c) == 1 && s.get (BELLOWS_FSTAT_RPM c) != 0)
  if pumps && s.dpValid then min 65535 (Nat.sqrt (36000 * s.cool.dp.toNat)) else 0

/-- Flow inputs of a tick (R444, R450). -/
def State.tickFlow (s : State) (k : TickIn) : State :=
  let one (s : State) (n : Nat) : State :=
    let four := k.flow.getD n 0
    if s.get (BELLOWS_FLOW_STATE n) = 2 then s.put (BELLOWS_FLOW_FLOW n) s.flowEst
    else
      let (v, s) := s.flowRead (s.get (BELLOWS_FLOW_KF n)) four
      (s.put (BELLOWS_FLOW_STATE n) (if four = 0 then 1 else 0)).put (BELLOWS_FLOW_FLOW n) v
  let s := one (one s 0) 1
  let l := s.cool.flow100 ++ [s.get (BELLOWS_FLOW_FLOW 0)]
  { s with cool := { s.cool with flow100 := l.drop (l.length - 100) } }

/-- The class of a leak loop's resistance (R460): 0 NORMAL, 1 LEAK, 2 OPEN, 3 MARGINAL. -/
def loopClass (ohm : Nat) : Nat :=
  if ohm < 5000 then 1 else if ohm > 30000 then 2 else if 7000 ≤ ohm ∧ ohm ≤ 13000 then 0 else 3

/-- Leak loops of a tick: the resistance, and MARGINAL as it is read. -/
def State.tickLeak (s : State) (k : TickIn) : State :=
  (k.leak.zipIdx).foldl (fun s p =>
    if p.2 < 4 then
      let s := s.put (BELLOWS_LEAK_RES p.2) (min 65535 (p.1 / 10))
      if loopClass p.1 = 3 ∧ s.get (BELLOWS_LEAK_STATE p.2) = 0 then s.put (BELLOWS_LEAK_STATE p.2) 3 else s
    else s) s

/-! ### Flow state and caps (R451, R452) -/

/-- The 100 ms mean of branch flow. -/
def State.flowMean (s : State) : Nat :=
  let l := s.cool.flow100
  if l.isEmpty then 0 else l.foldl (· + ·) 0 / l.length

/-- The next flow state (R451). -/
def nextFlow (st f flmin flcrit : Nat) (lost : Bool) : Nat :=
  let plain := if f < flcrit then 2 else if f < flmin then 1 else 0
  if lost then 3
  else if st = 2 ∧ plain < 2 then (if f < flcrit + 100 then 2 else plain)
  else if st = 1 ∧ plain = 0 then (if f < flmin + 100 then 1 else 0)
  else plain

/-- The FLOW cap of a state (R451). -/
def flowCap (st f flmin : Nat) : Nat :=
  match st with
  | 0 => 1600
  | 1 => if flmin = 0 then 1600 else min 1600 (1600 * f / flmin)
  | 2 => 400
  | _ => 0

/-- Whether THROTTLE stands by a flow trigger (R451, R453). -/
def State.flowLost (s : State) : Bool := s.on BELLOWS_SAFESTAT_THROTTLE && s.cool.byFlow

/-- Flow state and FLOW cap of a tick. -/
def State.tickFlowState (s : State) : State :=
  let f := s.flowMean
  let old := s.get BELLOWS_CAPOUT_FSTATE
  let new := nextFlow old f (s.get BELLOWS_FLCFG_FLMIN) (s.get BELLOWS_FLCFG_FLCRIT) s.flowLost
  let s := (s.put BELLOWS_CAPOUT_FSTATE new).put BELLOWS_CAPOUT_FLOWCAP (flowCap new f (s.get BELLOWS_FLCFG_FLMIN))
  if old = new then s else s.action 0x0600 2 (6 * 256) (old + 4 * new) f 0

/-- Hundredths of a degree as binary32 degrees. -/
def deg (v : Int) : FVal := fDiv (fI v) (fI 100)

/-- Whether a fan or pump channel is in FAULT. -/
def State.fanFault (s : State) : Bool := (List.range 4).any (fun c => s.get (BELLOWS_FSTAT_STATE c) == 5)

/-- θ, θs and P_lag (R452). -/
def State.tickTheta (s : State) (pmeas : Nat) : State :=
  let c := s.cool
  let lag := fAdd c.plag (fDiv (fSub (fI pmeas) c.plag) (fI 1000))
  let learn : Bool := s.domOn 192 && fLe (fI 200) lag
  let adapt (th : FVal) (t : Int) : FVal :=
    if learn then fAdd th (fDiv (fSub (fDiv (fSub (deg t) (deg c.tin)) lag) th) (fI 5000)) else th
  { s with cool := { c with plag := lag, theta := adapt c.theta c.tdie, thetas := adapt c.thetas c.tstk } }

/-- The THERMAL cap (R452). -/
def State.thermalCap (s : State) : Nat :=
  let c := s.cool
  let v := fMin (fI 1600) (fDiv (fSub (fI (s.get BELLOWS_THCFG_TJT)) (deg c.tin)) c.theta)
  let v := fMin v (fDiv (fSub (fI (s.get BELLOWS_THCFG_TST)) (deg c.tin)) c.thetas)
  let v := if s.fanFault then fMin v (fI (s.get BELLOWS_THCFG_FAULTCAP)) else v
  let v := fMax v (fI 0)
  let v := if fLt (fI c.thermal) v then fMin v (fI (c.thermal + s.get BELLOWS_THCFG_RISE)) else v
  (clampI (fFloor v) 0 65535).toNat

/-- THERMAL and the registers that show it. -/
def State.tickThermal (s : State) (pmeas : Nat) : State :=
  let s := s.tickTheta pmeas
  let c := s.cool
  let s := { s with cool := { c with thermal := s.thermalCap } }
  let e5 (v : FVal) : Nat := (clampI (fRne (fMul v (fI 100000))) 0 65535).toNat
  let s := (s.put BELLOWS_THERMST_THETA (e5 c.theta)).put BELLOWS_THERMST_THETAS (e5 c.thetas)
  let s := (s.put BELLOWS_THERMST_TIN (clip16 c.tin)).put BELLOWS_THERMST_PLAG (watts c.plag)
  s.put BELLOWS_CAPOUT_THERMAL s.cool.thermal

/-- The caps published to Temper while it runs (R413, R451). -/
def State.publishCaps (s : State) : State :=
  if s.domOn 192 = false then s
  else
    let s := ((s.publish 0 s.cool.facility).publish 2 s.cool.thermal).publish 3 (s.get BELLOWS_CAPOUT_FLOWCAP)
    s.put TEMPER_CAP_FLOW_STATE (s.get BELLOWS_CAPOUT_FSTATE)

/-! ### THROTTLE -/

/-- The trigger bits of SAFESTAT. -/
def State.triggers (s : State) : Nat := (s.rd BELLOWS_SAFESTAT).toNat % 8

/-- THROTTLE asserted (R454, R458): Temper goes to its floor; the 2 s timer runs from the first assertion (R455). -/
def State.assertThrottle (s : State) (byFlow : Bool) : State :=
  let s := { s with cool := { s.cool with byFlow := s.cool.byFlow || byFlow } }
  if s.on BELLOWS_SAFESTAT_THROTTLE then s
  else
    let s := (s.put BELLOWS_SAFESTAT_THROTTLE 1).safety
    let s := { s with cool := { s.cool with throttleAt := some s.now } }
    let s := if s.domOn 192 then s.throttleTemper else s
    (s.action 0x0601 4 (6 * 256) s.triggers 0 0).alert 4 0 0x0601

/-- A trigger of the fast path while it is armed (R453, R454). -/
def State.trigger (s : State) (f : Fd) : State :=
  if s.cool.armed = false then s
  else
    let second : Bool := !s.on f && s.on BELLOWS_SAFESTAT_THROTTLE
    let s := { s with cool := { s.cool with trigAt := s.now } }
    let s := ((s.put f 1).errSum BELLOWS_ERRSUM_SAFETY).assertThrottle true
    if second then s.action 0x0601 4 (6 * 256) s.triggers 0 0 else s

/-- THROTTLE released (R454). -/
def State.releaseThrottle (s : State) : State :=
  if s.on BELLOWS_SAFESTAT_THROTTLE = false then s
  else
    let s := s.put BELLOWS_SAFESTAT_THROTTLE 0
    let s := { s with cool := { s.cool with throttleAt := none, byFlow := false } }
    let s := if s.domOn 192 then
        let s := s.put TEMPER_CAPSTAT_THROTTLE 0
        s.put TEMPER_CAPSTAT_LIMIT s.limitNow
      else s
    ((s.action 0x0602 1 (6 * 256) s.triggers 0 0).alertEnd 4 0).safety

/-- The critical thresholds in 0.01 °C by strap (R457): 0 die, 1 stack, 2 outlet. -/
def critLimit (sel kind : Nat) : Int :=
  let t := match sel with
    | 0 => [105, 95, 65]
    | 1 => [110, 100, 70]
    | 2 => [100, 90, 60]
    | _ => [95, 85, 55]
  100 * (t.getD kind 0 : Nat)

/-- The critical path (R458). `kind`: 0 die, 1 stack, 2 outlet, 3 sensor under POL 1. -/
def State.critical (s : State) (kind : Nat) (reading : Int) : State :=
  let f := match kind with
    | 0 => BELLOWS_SAFESTAT_DIE
    | 1 => BELLOWS_SAFESTAT_HBM
    | _ => BELLOWS_SAFESTAT_OUTLET
  let s := (((s.put f 1).errSum BELLOWS_ERRSUM_SAFETY).assertThrottle false).driveShdn true
  let s := s.action 0x0604 5 (6 * 256) kind (u16 reading) (u16 (critLimit s.pwr.tcrit (min kind 2)))
  s.computeStop 1

/-! ### Fans and pumps -/

/-- A channel's or zone's source in 0.01 °C (R465); absent where the input is excluded. -/
def State.fanSource (s : State) (src : Nat) : Option Int :=
  if src < 12 then (if s.ntcOut src then none else some (s.ntcEff src))
  else match src with
    | 12 => some s.cool.tdie
    | 13 => some s.cool.tstk
    | 14 => s.pairEff 1 3
    | _ => none

/-- Hysteresis of R465 on a stored temperature. -/
def hysteresis (th t : Int) (hyst : Nat) : Int :=
  if t > th then t else if t < th - 100 * (hyst : Int) then t + 100 * (hyst : Int) else th

/-- The eight points of a channel's table: temperature in °C and duty in % (R478). -/
def State.fanPoints (s : State) (c : Nat) : List (Nat × Nat) :=
  let w := (s.rd (BELLOWS_FTABL c)).toNat + (s.rd (BELLOWS_FTABH c)).toNat * 2 ^ 64
  (List.range 8).map (fun i => let p := w / 2 ^ (16 * i) % 65536; (p / 256, p % 256))

/-- Point temperatures strictly ascend. -/
def ascending : List (Nat × Nat) → Bool
  | a :: b :: r => a.1 < b.1 && ascending (b :: r)
  | _ => true

/-- A quotient rounded to the nearest integer, ties to even. -/
def divRne (n d : Int) : Int :=
  let q := n / d
  let r := n - q * d
  if 2 * r < d then q else if 2 * r > d then q + 1 else if q % 2 = 0 then q else q + 1

/-- Linear interpolation of a table in 0.1 % at a temperature in 0.01 °C (R465). -/
def interp : List (Nat × Nat) → Int → Int
  | [], _ => 0
  | [p], _ => 10 * p.2
  | a :: b :: r, t =>
    if t ≤ 100 * (a.1 : Int) then 10 * a.2
    else if t < 100 * (b.1 : Int) then
      10 * (a.2 : Int) + divRne (10 * ((b.2 : Int) - a.2) * (t - 100 * a.1)) (100 * ((b.1 : Int) - a.1))
    else interp (b :: r) t

/-- A zone's demand in 0.1 % (R466): its hysteresis temperature kept; a ramp of no width has no stated value at its one
temperature. -/
def State.zoneDemand (s : State) (z : Nat) : Nat × State :=
  let auto := s.on BELLOWS_SAFESTAT_AUTO
  let src := s.get (BELLOWS_ZONE_SRC z)
  if src = 15 then ((if auto then 0 else s.get (BELLOWS_ZONE_EXT z)), s)
  else
    let th := Tab.get (fun _ => (0 : Int)) s.cool.thz z
    let t := hysteresis th ((s.fanSource src).getD th) (s.get (BELLOWS_ZONE_HYST z) + 1)
    let s := { s with cool := { s.cool with thz := Tab.set (fun _ => (0 : Int)) s.cool.thz z t } }
    let lo : Int := 100 * s.get (BELLOWS_ZONE_TLO z)
    let hi : Int := 100 * s.get (BELLOWS_ZONE_THI z)
    let dmin := s.get (BELLOWS_ZONE_DMIN z)
    let dmax := s.get (BELLOWS_ZONE_DMAX z)
    if t < lo then (dmin, s) else if t > hi then (dmax, s)
    else if hi ≤ lo then s.fresh 1001
    else (((dmin : Int) + divRne (((dmax : Int) - dmin) * (t - lo)) (hi - lo)).toNat, s)

/-- The highest demand of the zones of a channel (R466). -/
def State.zoneDuty (s : State) (c : Nat) : Nat × State :=
  (List.range 8).foldl (fun (acc : Nat × State) z =>
    if bit (acc.2.get (BELLOWS_FCFG_ZMASK c)) z then
      let (d, s) := acc.2.zoneDemand z
      (max acc.1 d, s)
    else acc) (0, s)

/-- The duty a channel computes before offsets, and whether its table is in error (R465–R467). -/
def State.fanDuty (s : State) (c : Nat) : (Nat × Bool) × State :=
  let mode := s.get (BELLOWS_FCFG_MODE c)
  let mode := if mode ≥ 2 ∧ s.on BELLOWS_SAFESTAT_AUTO then 1 else mode
  match mode with
  | 1 =>
    let th := Tab.get (fun _ => (0 : Int)) s.cool.th c
    let t := hysteresis th ((s.fanSource (s.get (BELLOWS_FCFG_SRC c))).getD th) (s.get (BELLOWS_FCFG_HYST c) + 1)
    let s := { s with cool := { s.cool with th := Tab.set (fun _ => (0 : Int)) s.cool.th c t } }
    let p := s.fanPoints c
    if ascending p then (((interp p t).toNat, false), s) else ((1000, true), s)
  | 2 => let (d, s) := s.zoneDuty c; ((d, false), s)
  | 3 => ((s.get (BELLOWS_FCFG_FIXDUTY c), false), s)
  | _ => ((0, false), s)

/-- Whether a channel's output is released: OFF, or a BOARD channel of a module that is not master (R464, R473). -/
def State.fanReleased (s : State) (c : Nat) : Bool :=
  s.get (BELLOWS_FCFG_MODE c) == 0 || (s.on (BELLOWS_FCFG_BOARD c) && !s.on BELLOWS_SAFESTAT_MASTER)

/-- A channel's kick and tachometer event. -/
def State.kickOf (s : State) (c : Nat) : Option Kick := Tab.get (fun _ => none) s.cool.kicks c
/-- See `kickOf`. -/
def State.tachOf (s : State) (c : Nat) : Option TachEv := Tab.get (fun _ => none) s.cool.tach c

/-- A kick set or ended. -/
def State.setKick (s : State) (c : Nat) (k : Option Kick) : State :=
  { s with cool := { s.cool with kicks := Tab.set (fun _ => none) s.cool.kicks c k } }
/-- A tachometer event set or ended. -/
def State.setTach (s : State) (c : Nat) (e : Option TachEv) : State :=
  { s with cool := { s.cool with tach := Tab.set (fun _ => none) s.cool.tach c e } }

/-- A channel is driven or released. -/
def State.setDriven (s : State) (c : Nat) (b : Bool) : State :=
  let l := s.cool.driven.filter (fun x => x != c)
  { s with cool := { s.cool with driven := if b then l ++ [c] else l } }

/-- A kick begins (R468): full duty, the first attempt. -/
def State.startKick (s : State) (c : Nat) : State :=
  let s := (s.setKick c (some ⟨s.now, true⟩)).setDriven c true
  let s := ((s.put (BELLOWS_FSTAT_STATE c) 2).put (BELLOWS_FSTAT_ATTEMPT c) 0).put (BELLOWS_FSTAT_DUTY c) 1000
  s.action 0x060A 2 (6 * 256 + c) c 0 (s.get (BELLOWS_FSTAT_RPM c))

/-- A channel released (R464, R473). -/
def State.fanRelease (s : State) (c : Nat) : State :=
  let s := ((s.setKick c none).setTach c none).setDriven c false
  ((s.put (BELLOWS_FSTAT_STATE c) (if s.get (BELLOWS_FSTAT_STATE c) = 5 then 5 else 0)).put (BELLOWS_FSTAT_ATTEMPT c) 0).put
    (BELLOWS_FSTAT_DUTY c) 0

/-- A channel's duty with Quench's offset (R488). -/
def State.withOffset (s : State) (c d : Nat) (taberr : Bool) : Nat :=
  if taberr || s.on BELLOWS_SAFESTAT_AUTO then d
  else (clampI ((d : Int) + Tab.get (fun _ => 0) s.cool.offs c) 0 1000).toNat

/-- What other channels' faults and losses make of a duty (R469, R470). -/
def State.fanRaised (s : State) (c d : Nat) : Nat :=
  let others := (List.range 4).filter (fun x => x != c)
  if others.any (fun x => s.get (BELLOWS_FSTAT_STATE x) == 5) then 1000
  else if others.any (fun x => (s.tachOf x).isSome) then min 1000 (d + 250)
  else d

/-- A channel in TABLE, ZONE or FIXED mode at a tick: a duty that rises from 0 or from release begins a kick (R468). -/
def State.fanRun (s : State) (c : Nat) : State :=
  let ((d, taberr), s) := s.fanDuty c
  let d := min 1000 (s.fanRaised c (s.withOffset c (min 1000 d) taberr))
  if d > 0 ∧ (s.get (BELLOWS_FSTAT_DUTY c) = 0 ∨ s.cool.driven.contains c = false) then s.startKick c
  else
    let s := (s.setDriven c true).put (BELLOWS_FSTAT_DUTY c) d
    s.put (BELLOWS_FSTAT_STATE c) (if taberr then 6 else if d = 0 then 0 else 1)

/-- A channel at a tick (R464–R470). -/
def State.tickFan (s : State) (c : Nat) : State :=
  let st := s.get (BELLOWS_FSTAT_STATE c)
  if s.fanReleased c then s.fanRelease c
  else if st = 5 then (s.setDriven c true).put (BELLOWS_FSTAT_DUTY c) 0
  else if (s.kickOf c).isSome then s
  else if (s.tachOf c).isSome ∨ st = 3 then s.put (BELLOWS_FSTAT_DUTY c) 1000
  else s.fanRun c

/-- Autonomous mode ends at the tick after a keep-alive (R467). -/
def State.tickAuto (s : State) : State :=
  if s.on BELLOWS_SAFESTAT_AUTO ∧ s.now < s.cool.kaAt + s.get BELLOWS_KEEPALIVE_KATIME * sec then
    (s.put BELLOWS_SAFESTAT_AUTO 0).action 0x060D 2 (6 * 256) 0 0 0
  else s

/-- The speed of a channel from the time between its last two pulses in µs, `ppr` of them per revolution (R464); below 60 rpm
it reads 0 (R526). -/
def rpmOf (ppr two : Nat) : Nat :=
  let v := if two = 0 then 0 else 60000000 / (two * ppr)
  if v < 60 then 0 else min 65535 v

/-- Speeds and duties of a tick. -/
def State.tickFans (s : State) (k : TickIn) : State :=
  let s := (k.tach.zipIdx).foldl (fun s p =>
    if p.2 < 4 then s.put (BELLOWS_FSTAT_RPM p.2) (rpmOf (s.get (BELLOWS_FCFG_PPR p.2) + 1) p.1) else s) s
  [0, 1, 2, 3].foldl State.tickFan s.tickAuto

/-- The readings of the present tick as R578 packs them. -/
def State.reading (s : State) (pmeas : Nat) : Reading :=
  ⟨s.hours, u16 s.cool.tin + u16 s.cool.tout * 65536, s.get (BELLOWS_FLOW_FLOW 0) + u16 s.cool.dp * 65536,
    u16 s.cool.tdie + pmeas % 65536 * 65536⟩

end Sys2Proof.Machine
end

