-- ==== Sys2Proof/Machine/TuyereCore.lean ====
section
/-! DEFINITION. What the valve events share (R503–R524): the command a channel obeys, opening, closing and aborting a
profile, the energised time. -/

namespace Sys2Proof.Machine

/-- A channel. -/
def State.valve (s : State) (c : Nat) : Valve := Tab.get (fun _ => Valve.reset) s.tuyere.valves c

/-- A channel replaced. -/
def State.setValve (s : State) (c : Nat) (v : Valve) : State :=
  { s with tuyere := { s.tuyere with valves := Tab.set (fun _ => Valve.reset) s.tuyere.valves c v } }

/-- The bank of a channel (R503): 0 A, 1 B, 2 X. -/
def bankOf (c : Nat) : Nat := min 2 (c / 4)

/-- Channels of a bank. -/
def bankChannels (b : Nat) : List Nat := (List.range 10).filter (fun c => bankOf c == b)

/-- The profile state of a channel (R507). -/
def State.vst (s : State) (c : Nat) : Nat := s.get (TUYERE_VSTAT_STATE c)

/-- The channel that has a bank's high side. -/
def State.holder (s : State) (b : Nat) : Option Nat := Tab.get (fun _ => none) s.tuyere.holder b

/-- A bank's high side given or freed. -/
def State.setHolder (s : State) (b : Nat) (c : Option Nat) : State :=
  { s with tuyere := { s.tuyere with holder := Tab.set (fun _ => none) s.tuyere.holder b c } }

/-- A channel frees the high side if it has it. -/
def State.freeHigh (s : State) (c : Nat) : State :=
  if s.holder (bankOf c) = some c then s.setHolder (bankOf c) none else s

/-- Whether the coil of a channel is energised. -/
def State.energised (s : State) (c : Nat) : Bool :=
  match s.vst c with
  | 1 => (s.valve c).hold
  | 2 => true
  | 3 => true
  | 4 => true
  | _ => false

/-- Whether the thermal model protects a channel (R520, R521). -/
def State.thermalProt (s : State) (c : Nat) : Bool := c ≥ 8 || s.on (TUYERE_VPROT_PROT c)

/-- Energised nanoseconds of a channel in the interval from `a` to now. -/
def Valve.onSince (v : Valve) (a now : Nat) : Nat :=
  let part (p : Nat × Nat) : Nat := p.2 - max p.1 a
  v.runs.foldl (fun x p => x + part p) (match v.onAt with | some o => now - max o a | none => 0)

/-- The energised fraction of the sliding window in % (R519): WIN seconds in 100 ms steps that end with the present
step. -/
def State.winPct (s : State) (c : Nat) : Nat :=
  let steps := 10 * s.get (TUYERE_VCMD_WIN c)
  let a := s.now / (100 * ms) + 1 - steps
  (s.valve c).onSince (a * (100 * ms)) s.now * 100 / (steps * 100 * ms)

/-- The current a channel regulates in HOLD, in 10 mA (R507, R520). -/
def State.holdCurrent (s : State) (c : Nat) : Nat :=
  if s.thermalProt c && ((s.valve c).warm || (s.valve c).hot) then s.get (TUYERE_VPROF_IHMIN c) else s.get (TUYERE_VPROF_IHOLD c)

/-- The coil current shown: that which HOLD regulates, none while the coil is off, else the last measured. -/
def State.showCurrent (s : State) (c : Nat) : State :=
  match s.vst c with
  | 0 => s.put (TUYERE_VSTAT_ICOIL c) 0
  | 4 => s.put (TUYERE_VSTAT_ICOIL c) (s.holdCurrent c)
  | 6 => s.put (TUYERE_VSTAT_ICOIL c) 0
  | _ => s

/-- A channel enters a state: its energised time is kept, its window fraction shown. -/
def State.enterValve (s : State) (c st : Nat) : State :=
  let was := s.energised c
  let s := s.put (TUYERE_VSTAT_STATE c) st
  let v := { s.valve c with since := s.now }
  let s := s.setValve c v
  let is := s.energised c
  let v := if was && !is then
      { v with onAt := none, runs := ((v.onAt.getD s.now, s.now) :: v.runs).filter (fun p => s.now < p.2 + 61 * sec) }
    else if is && !was then { v with onAt := some s.now }
    else v
  let s := s.setValve c v
  (s.put (TUYERE_VSTAT_WINPCT c) (min 127 (s.winPct c))).showCurrent c

/-- Flags of a channel as an event record carries them (R580). -/
def State.vflags (s : State) (c : Nat) : Nat := (s.rd (TUYERE_VSTAT c)).toNat / 4 % 1024

/-- A Tuyere event (R525): its record with readings, its BIC source. -/
def State.vEvent (s : State) (code sev c value : Nat) : State := s.action code sev (8 * 256 + c) c (s.vflags c) value

/-- Whether a rank of 1 to 5 closes a channel (R511, R512). -/
def State.vBlocked (s : State) (c : Nat) : Bool :=
  let v := s.valve c
  (s.on BELLOWS_SAFESTAT_LEAKISO && (c == 8 || (c == 9 && (match s.tuyere.iso with | some i => i.x1At.isSome | none => true)))) ||
    s.on (TUYERE_VSTAT_FAULT c) || (s.on (TUYERE_VCMD_BOARDV c) && !s.on BELLOWS_SAFESTAT_MASTER) || s.tuyere.low ||
    (s.thermalProt c && v.hot && c < 8) || (!s.thermalProt c && v.limited) || (c == 8 && s.tuyere.seq)

/-- Whether a rank of 1 to 5 changes what a channel would do (R511, R512): it closes it or lowers its hold current. -/
def State.vCut (s : State) (c : Nat) : Bool := s.vBlocked c || (s.thermalProt c && (s.valve c).warm)

/-- The command a channel obeys is OPEN (R511). -/
def State.vWanted (s : State) (c : Nat) : Bool :=
  let own : Bool := match s.get (TUYERE_VCMD_MODE c) with
    | 2 => s.on (TUYERE_VCMD_FIXCMD c)
    | 1 => (s.valve c).evOn
    | _ => false
  if s.on BELLOWS_SAFESTAT_LEAKISO ∧ c = 9 ∧ s.vBlocked 9 = false then (s.valve c).want else own && !s.vBlocked c

/-- Whether a channel's destination is forced for Quench (R488, R512). -/
def State.vForced (s : State) (c : Nat) : Bool :=
  (s.valve c).forced || s.vCut c || s.get (TUYERE_VCMD_MODE c) != 1

/-- A request for the high side. -/
def State.vRequest (s : State) (c : Nat) (hold : Bool) : State :=
  let s := s.setValve c { s.valve c with hold := hold, reqAt := some s.now, bwait := none, noBoost := false, peakAt := none }
  s.enterValve c 1

/-- An OPEN command (R507, R513): X0 and X1 accept none during an isolation (R463). -/
def State.vOpen (s : State) (c : Nat) : State :=
  if c ≥ 8 ∧ s.on BELLOWS_SAFESTAT_LEAKISO then s
  else
    match s.vst c with
    | 0 => s.vRequest c false
    | 2 => (s.freeHigh c).vRequest c true
    | 3 => (s.freeHigh c).vRequest c true
    | 4 => s.vRequest c true
    | 5 => s.setValve c { s.valve c with reopen := true }
    | _ => s

/-- A CLOSE command (R514): from HOLD the closing is checked for motion (R518). -/
def State.vClose (s : State) (c : Nat) : State :=
  let st := s.vst c
  let s := s.setValve c { s.valve c with reopen := false, reqAt := none, bwait := none }
  match st with
  | 1 => s.enterValve c 0
  | 2 => ((s.freeHigh c).setValve c { s.valve c with kchk := false, reqAt := none, reopen := false }).enterValve c 5
  | 3 => ((s.freeHigh c).setValve c { s.valve c with kchk := false, reqAt := none, reopen := false }).enterValve c 5
  | 4 => (s.setValve c { s.valve c with kchk := true, reqAt := none, reopen := false }).enterValve c 5
  | _ => s

/-- FORCED where a rank of 1 to 5 changes a QUENCH-mode channel's event (R512). -/
def State.vFlag (s : State) (c : Nat) : State :=
  if s.get (TUYERE_VCMD_MODE c) = 1 ∧ (s.valve c).evOn ∧ s.vCut c then s.put (TUYERE_VSTAT_FORCED c) 1 else s

/-- The command a channel obeys may have changed. -/
def State.vRetarget (s : State) (c : Nat) : State :=
  let s := s.vFlag c
  let w := s.vWanted c
  let v := s.valve c
  if w = v.want then s
  else
    let s := s.setValve c { v with want := w }
    if w then s.vOpen c else s.vClose c

/-- Every channel follows its command. -/
def State.vRetargetAll (s : State) : State := (List.range 10).foldl (fun s c => s.vRetarget c) s

/-- The channel's state when a closing ends (R513). -/
def State.vIdle (s : State) (c : Nat) : State :=
  let re := (s.valve c).reopen
  let s := (s.setValve c { s.valve c with reopen := false }).enterValve c 0
  if re then s.vOpen c else s

/-- A FAULT (R509): latched until VALVE_CLEAR. -/
def State.vFail (s : State) (c value : Nat) : State :=
  let s := (s.put (TUYERE_VSTAT_FAULT c) 1).enterValve c 6
  let s := s.setValve c { s.valve c with want := false, evOn := false, reqAt := none, reopen := false }
  ((s.vEvent 0x0800 3 c value).alert 6 c 0x0800)

/-- A profile aborted (R504, R509): a FIXED channel's command stands, a QUENCH-mode channel waits for its next event. -/
def State.vAbort (s : State) (c value : Nat) : State :=
  let v := s.valve c
  let s := (s.freeHigh c).setValve c { v with
    aborts := v.aborts + 1, abortAt := some s.now, kchk := false, evOn := false, reqAt := none
    want := v.want && s.get (TUYERE_VCMD_MODE c) != 1 }
  let s := (s.enterValve c 5).inc (TUYERE_VDIAG_ABORTCNT c)
  let s := s.errSum BELLOWS_ERRSUM_VALVE
  let s := s.vEvent 0x0801 2 c value
  if v.aborts + 1 ≥ 3 then s.vFail c value else s

/-- A refused or delayed event is forced for its period (R512). -/
def State.vForce (s : State) (c : Nat) : State :=
  (s.put (TUYERE_VSTAT_FORCED c) 1).setValve c { s.valve c with forced := true }

/-- Time returned to the accumulator of a channel, in µs (R515). -/
def State.vAcc (s : State) (c us : Nat) : State := s.setValve c { s.valve c with acc := (s.valve c).acc + us }

/-- An isolation begins (R461, R523): X0 is released; X1 at once too if X0 was not energised. -/
def State.isolateValves (s : State) : State :=
  let on := s.energised 8
  let i : Iso := ⟨s.now, none, if on then none else some s.now⟩
  let s := { s with tuyere := { s.tuyere with iso := some i } }
  let s := (((s.put TUYERE_XSEQ_TX0ZERO 0).put TUYERE_XSEQ_TX1ZERO 0).put TUYERE_XSEQ_TX1REL 0).vRetarget 8
  s.vRetarget 9

end Sys2Proof.Machine
end

