-- ==== Sys2Proof/Machine/QuenchCore.lean ====
section
/-! DEFINITION. The Quench engine's parts (R479–R501): signals and sections, sources and destinations, oscillation
detection, the repetitive controller, states, arming, traces. -/

namespace Sys2Proof.Machine

/-- A `w`-bit two's-complement number. -/
def sx (w n : Nat) : Int :=
  let m := n % 2 ^ w
  if 2 * m < 2 ^ w then (m : Int) else (m : Int) - (2 ^ w : Nat)

/-- An integer as a `w`-bit field holds it. -/
def ux (w : Nat) (v : Int) : Nat := (v % (2 ^ w : Nat)).toNat

/-- The time in µs (R479). -/
def State.micros (s : State) : Nat := s.now / us

/-- A loop. -/
def State.loop (s : State) (n : Nat) : QLoop := Tab.get (fun _ => QLoop.off) s.quench.loops n

/-- A loop replaced. -/
def State.setLoop (s : State) (n : Nat) (l : QLoop) : State :=
  { s with quench := { s.quench with loops := Tab.set (fun _ => QLoop.off) s.quench.loops n l } }

/-- A loop's state (R486–R495): 0 OFF, 1 RUN, 2 HOLD, 3 SAFE, 4 IDLE. -/
def State.lst (s : State) (n : Nat) : Nat := s.get (QUENCH_LSTAT_STATE n)

/-- Whether a loop is not OFF, or armed and awaiting its t0. -/
def State.loopBusy (s : State) (n : Nat) : Bool := s.lst n != 0 || (s.loop n).wait

/-- The loop's sections in ascending order (R486). -/
def State.loopSecs (s : State) (n : Nat) : List Nat :=
  (List.range (s.get (QUENCH_LCFG_NSEC n) + 1)).map (fun k => s.get (QUENCH_LCFG_FIRST n) + k)

/-- A sticky flag set: the error summary follows it (R633). The answer is whether it is new. -/
def State.loopFlag (s : State) (f : Fd) (b : Bool) : Bool × State :=
  if b && !s.on f then (true, (s.put f 1).errSum BELLOWS_ERRSUM_QUENCH) else (false, s)

/-! ### Sections (R483, R484) -/

/-- The 24-bit signal range; the answer also says whether the value was clamped. -/
def sat24 (v : Int) : Int × Bool := (clampI v (-(2 ^ 23)) (2 ^ 23 - 1), v < -(2 ^ 23) || v > 2 ^ 23 - 1)

/-- The 32-bit state range. -/
def sat32 (v : Int) : Int × Bool := (clampI v (-(2 ^ 31)) (2 ^ 31 - 1), v < -(2 ^ 31) || v > 2 ^ 31 - 1)

/-- The five coefficient mantissas and the exponent of a set. -/
structure Coefs where
  b0 : Int
  b1 : Int
  b2 : Int
  a1 : Int
  a2 : Int
  exp : Int
deriving DecidableEq, Repr

/-- A coefficient word in use: its shadow where a later write awaits COMMIT (R493). -/
def State.coefWord (s : State) (n a : Nat) : Word := (Tab.get (fun _ => none) (s.loop n).shadow a).getD (s.rd a)

/-- The active set of a section of loop `n`. -/
def State.coefs (s : State) (n q : Nat) : Coefs :=
  let bk := s.on (QUENCH_SCTL_BKACT q)
  let w (p b : Nat) : Nat := (s.coefWord n (if bk then b else p)).toNat
  let wa := w (QUENCH_SPA q) (QUENCH_SBA q)
  let wb := w (QUENCH_SPB q) (QUENCH_SBB q)
  let wc := w (QUENCH_SPC q) (QUENCH_SBC q)
  ⟨sx 24 (wa / 2 ^ 24), sx 24 wa, sx 24 (wb / 2 ^ 24), sx 24 wb, sx 24 wc, sx 8 (wa / 2 ^ 56)⟩

/-- `C · x · 2^EXP` in units of 2⁻¹²⁸. -/
def coefMul (c x e : Int) : Int := c * x * ((2 ^ (e + 128).toNat : Nat) : Int)

/-- The output of a section, at weight 2⁻²³. -/
def sectOut (c : Coefs) (z1 x : Int) : Int × Bool :=
  sat24 (divRne (coefMul c.b0 x c.exp + z1 * (2 ^ 143 : Nat)) (2 ^ 151 : Nat))

/-- The new state of a section, at weight 2⁻³¹. -/
def sectUpd (c : Coefs) (z2 x yo : Int) : (Int × Bool) × (Int × Bool) :=
  (sat32 (divRne (coefMul c.b1 x c.exp - coefMul c.a1 yo c.exp + z2 * (2 ^ 143 : Nat)) (2 ^ 143 : Nat)),
    sat32 (divRne (coefMul c.b2 x c.exp - coefMul c.a2 yo c.exp) (2 ^ 143 : Nat)))

/-- Phase 1 of the chain: each section's input and output, and whether a section clamped (R486). -/
def State.chainOut (s : State) (n : Nat) : List Nat → Int → List (Nat × Int × Int) → List (Nat × Int × Int) × State
  | [], _, acc => (acc.reverse, s)
  | q :: r, x, acc =>
    let y := sectOut (s.coefs n q) (sx 32 (s.get (QUENCH_SZ_Z1 q))) x
    let s := (s.loopFlag (QUENCH_SCTL_SAT q) y.2).2
    State.chainOut s n r y.1 ((q, x, y.1) :: acc)

/-- Phase 2 of a section. -/
def State.sectNext (s : State) (n : Nat) (p : Nat × Int × Int) : State :=
  let q := p.1
  let u := sectUpd (s.coefs n q) (sx 32 (s.get (QUENCH_SZ_Z2 q))) p.2.1 p.2.2
  let s := (s.put (QUENCH_SZ_Z1 q) (ux 32 u.1.1)).put (QUENCH_SZ_Z2 q) (ux 32 u.2.1)
  (s.loopFlag (QUENCH_SCTL_SAT q) (u.1.2 || u.2.2)).2

/-! ### Sources and destinations (R485, R487–R489) -/

/-- The reading a source code names (R485). -/
def State.qSource (s : State) (src : Nat) : Int :=
  if src < 12 then s.ntcEff src
  else if 14 ≤ src ∧ src < 18 then s.get (BELLOWS_PRESS_KPA (src - 14))
  else match src with
    | 12 => s.cool.tdie
    | 13 => s.cool.tstk
    | 18 => s.cool.dp
    | 19 => s.get (BELLOWS_FLOW_FLOW 0)
    | 20 => s.get (BELLOWS_FLOW_FLOW 1)
    | 21 => s.cool.tin
    | 22 => s.cool.tout
    | _ => s.cool.last.p2 / 65536

/-- Whether a source has a valid value (R489). -/
def State.qValid (s : State) (src : Nat) : Bool :=
  if src < 12 then !s.ntcOut src
  else if 14 ≤ src ∧ src < 18 then s.get (BELLOWS_PRESS_STATE (src - 14)) == 0
  else match src with
    | 18 => s.dpValid
    | 21 => !(s.ntcOut 0 && s.ntcOut 2)
    | 22 => !(s.ntcOut 1 && s.ntcOut 3)
    | _ => true

/-- Whether a loop's destination is forced (R488). -/
def State.dstForced (s : State) (n : Nat) : Bool :=
  let i := s.get (QUENCH_LCFG_DIDX n)
  match s.get (QUENCH_LCFG_DST n) with
  | 1 => s.vForced i
  | 2 => s.get (BELLOWS_FSTAT_STATE i) != 1 || s.fanReleased i || s.on BELLOWS_SAFESTAT_AUTO
  | _ => false

/-- A setpoint written in µs `at_`: the value before it stays known for that µs (R482). -/
def State.writeSp (s : State) (n v at_ : Nat) : State :=
  let l := s.loop n
  let old := match l.sp with
    | some (t, w) => if t = at_ then (t, w) else (at_, s.rd (QUENCH_LSP n))
    | none => (at_, s.rd (QUENCH_LSP n))
  (s.setLoop n { l with sp := some old }).put (QUENCH_LSP_SP n) v

/-- A loop's setpoint at a sample at `ts` µs (R482). -/
def State.spAt (s : State) (n ts : Nat) : Int :=
  match (s.loop n).sp with
  | some (t, w) => if t = ts then sx 32 w.toNat else sx 32 (s.get (QUENCH_LSP_SP n))
  | none => sx 32 (s.get (QUENCH_LSP_SP n))

/-- A destination value written at its output instant (R487). -/
def State.writeDst (s : State) (n : Nat) (d : Int) (at_ : Nat) : State :=
  let i := s.get (QUENCH_LCFG_DIDX n)
  let s := s.put (QUENCH_LSTAT_OUT n) (ux 32 d)
  match s.get (QUENCH_LCFG_DST n) with
  | 1 => if i < 8 then s.setValve i { s.valve i with duty := (clampI d 0 1000).toNat } else s
  | 2 => { s with cool := { s.cool with offs := Tab.set (fun _ => (0 : Int)) s.cool.offs i (clampI d (-1000) 1000) } }
  | 3 => s.writeSp i (ux 32 d) at_
  | _ => s

/-! ### States -/

/-- Loops that drive the setpoint of `n` and are not OFF. -/
def State.outers (s : State) (n : Nat) : List Nat :=
  (List.range 16).filter (fun m => m != n && s.loopBusy m && s.get (QUENCH_LCFG_DST m) == 3 && s.get (QUENCH_LCFG_DIDX m) == n)

/-- A loop enters a state: HOLD, SAFE, IDLE and the return from them are recorded (R501). -/
def State.enterLoop (s : State) (n st : Nat) : State :=
  let old := s.lst n
  let s := s.put (QUENCH_LSTAT_STATE n) st
  if old = st ∨ (old ≤ 1 ∧ st ≤ 1) then s else s.action 0x0700 2 (7 * 256 + n) n st 0

/-- A loop leaves RUN: every loop that drives it enters HOLD, and so on outward (R491). -/
def State.holdOuters : Nat → State → Nat → State
  | 0, s, _ => s
  | f + 1, s, n =>
    (s.outers n).foldl (fun (s : State) m => if s.lst m = 1 then State.holdOuters f (s.enterLoop m 2) m else s) s

/-- A loop enters a state other than RUN. -/
def State.leaveRun (s : State) (n st : Nat) : State :=
  let was := s.lst n
  let s := s.enterLoop n st
  if was = 1 then State.holdOuters 16 s n else s

/-- The sections of a loop taken or freed (R492). -/
def State.ownSecs (s : State) (n : Nat) (own : Bool) : State :=
  (s.loopSecs n).foldl (fun (s : State) q =>
    (s.putB (QUENCH_SCTL_OWNED q) own).put (QUENCH_SCTL_OWNER q) (if own then n else 0)) s

/-- A loop starts from nothing at t0 (R490, R492). -/
def State.startLoop (s : State) (n t0 : Nat) : State :=
  let l := { QLoop.off with next := t0, wait := true, shadow := (s.loop n).shadow, sp := (s.loop n).sp }
  let s := (s.loopSecs n).foldl (fun (s : State) q => (s.wr (QUENCH_SZ q) 0).put (QUENCH_SCTL_BKACT q) 0) (s.setLoop n l)
  let s := s.put (QUENCH_LSTAT_BACKUP n) 0
  ((s.put (QUENCH_RCSTAT_STATE n) 0).put (QUENCH_RCSTAT_PHI n) 0).put (QUENCH_RCSTAT_OUT n) 0

/-- t0 of a loop armed now (R480, R491): the next µs, or the next sample instant of the loop it drives. -/
def State.loopT0 (s : State) (n : Nat) : Nat :=
  if s.get (QUENCH_LCFG_DST n) = 3 then
    let i := s.get (QUENCH_LCFG_DIDX n)
    let x := (s.loop i).next
    if x > s.micros then x else x + s.get (QUENCH_LCFG_PER i)
  else s.micros + 1

/-- The loops that drive a loop sample with it again once it has a new t0, and so on outward (R491). -/
def State.realign : Nat → State → Nat → State
  | 0, s, _ => s
  | f + 1, s, n =>
    (s.outers n).foldl (fun (s : State) m => State.realign f (s.setLoop m { s.loop m with next := (s.loop n).next }) m) s

/-- Δ of R481 in µs. -/
def State.loopDelta (s : State) (n : Nat) : Nat := s.get (QUENCH_LCFG_PHASE n) * s.get (QUENCH_LCFG_PER n) / 256

/-- Whether `n` is reached from `i` by going from a loop to the one it drives (R491). -/
def State.drives : Nat → State → Nat → Nat → Bool
  | 0, _, _, _ => true
  | f + 1, s, i, n =>
    if s.get (QUENCH_LCFG_DST i) = 3 then
      let j := s.get (QUENCH_LCFG_DIDX i)
      j == n || State.drives f s j n
    else false

/-- Whether an exponent is one of −24 to 7 (R483). -/
def expOk (e : Nat) : Bool := -24 ≤ sx 8 e && sx 8 e ≤ 7

/-- The first arming check that fails (R492); 0 none. -/
def State.armError (s : State) (n : Nat) : Nat :=
  let g (f : Nat → Fd) : Nat := s.get (f n)
  let first := g QUENCH_LCFG_FIRST
  let nsec := g QUENCH_LCFG_NSEC + 1
  let per := g QUENCH_LCFG_PER
  let dst := g QUENCH_LCFG_DST
  let i := g QUENCH_LCFG_DIDX
  let secs := s.loopSecs n
  if first + nsec > 64 ∨ secs.any (fun q => s.on (QUENCH_SCTL_OWNED q) && s.get (QUENCH_SCTL_OWNER q) != n) then 1
  else if per < 100 ∨ per > 100000 ∨ s.loopDelta n < 16 then 2
  else if (dst = 0 ∧ i ≠ 0) ∨ (dst = 1 ∧ i ≥ 8) ∨ (dst = 2 ∧ i ≥ 4) ∨ (dst = 3 ∧ i = n) ∨
      (dst ≠ 0 ∧ (List.range 16).any (fun m =>
        m != n && s.loopBusy m && s.get (QUENCH_LCFG_DST m) == dst && s.get (QUENCH_LCFG_DIDX m) == i)) then 3
  else if dst = 3 ∧ (g QUENCH_LCFG_M = 0 ∨ g QUENCH_LCFG_M > 64 ∨ per ≠ g QUENCH_LCFG_M * s.get (QUENCH_LCFG_PER i) ∨
      s.lst i ≠ 1 ∨ State.drives 16 s i n) then 4
  else if secs.any (fun q => !expOk (s.get (QUENCH_SPA_EXP q)) || !expOk (s.get (QUENCH_SBA_EXP q))) ∨
      sx 32 (g QUENCH_LCLAMP_OUTMIN) > sx 32 (g QUENCH_LCLAMP_OUTMAX) then 5
  else if g QUENCH_LCFG_SRC ≥ 24 then 6
  else 0

/-- `LCTLn.EN` set (R492). -/
def State.loopArm (s : State) (n : Nat) : State :=
  if s.loopBusy n then s
  else
    let e := s.armError n
    let s := s.put (QUENCH_LSTAT_ERR n) e
    if e ≠ 0 then s.action 0x0702 2 (7 * 256 + n) n e 0
    else
      let s := (State.realign 16 (s.startLoop n (s.loopT0 n)) n).ownSecs n true
      let s := if s.get (QUENCH_LCFG_DST n) = 3 then s.put (QUENCH_LSP_SPEXT (s.get (QUENCH_LCFG_DIDX n))) 1 else s
      if s.on (QUENCH_LCFG_MONLY n) ∧ s.on BELLOWS_SAFESTAT_MASTER = false then
        (s.setLoop n { s.loop n with wait := false }).enterLoop n 4
      else s

/-- `LCTLn.EN` cleared (R492): OFF at once; what was written last to the coefficients is in use. -/
def State.loopDisarm (s : State) (n : Nat) : State :=
  if s.loopBusy n = false then s
  else
    let s := if s.get (QUENCH_LCFG_DST n) = 3 then s.put (QUENCH_LSP_SPEXT (s.get (QUENCH_LCFG_DIDX n))) 0 else s
    let s := (s.ownSecs n false).setLoop n { s.loop n with wait := false, due := none, shadow := [], commit := none }
    s.leaveRun n 0

/-- Loops with MONLY follow the master state (R490). -/
def State.quenchMaster (s : State) : State :=
  (List.range 16).foldl (fun (s : State) n =>
    if s.on (QUENCH_LCFG_MONLY n) = false then s
    else if s.on BELLOWS_SAFESTAT_MASTER then
      if s.lst n = 4 then State.realign 16 (s.startLoop n (s.loopT0 n)) n else s
    else if s.lst n = 1 ∨ s.lst n = 2 ∨ (s.loop n).wait then
      (s.setLoop n { s.loop n with wait := false, due := none }).leaveRun n 4
    else s) s

/-! ### The repetitive controller (R496–R498) -/

/-- A memory position. -/
def QLoop.cell (l : QLoop) (n i : Nat) : Int := Tab.get (fun _ => (0 : Int)) l.mem (i % n)

/-- The period of a loop's controller. -/
def State.rcN (s : State) (n : Nat) : Nat := s.get (QUENCH_RCSTAT_N n) + 1

/-- The controller takes a period, its memory cleared (R498). -/
def State.rcLearn (s : State) (n m : Nat) (reset : Bool) : State :=
  let s := s.setLoop n { s.loop n with mem := [], since := 0 }
  let s := (s.put (QUENCH_RCSTAT_N n) (m - 1)).put (QUENCH_RCSTAT_STATE n) 2
  let s := if reset then s.inc (QUENCH_RCSTAT_RESETS n) else s
  s.action 0x0703 2 (7 * 256 + n) n m 0

/-- Whether an interval is regular (R498). -/
def regular (m : Nat) : Bool := 2 ≤ m && m ≤ 2048

/-- Two counts within a tolerance. -/
def near (a b tol : Nat) : Bool := a ≤ b + tol && b ≤ a + tol

/-- One beacon edge's effect on the controller's state (R498); the interval that ends LEARN is none of the two that end WAIT
(assumption log 72). -/
def State.rcEdge (s : State) (n : Nat) (iv : Option Nat) : State :=
  let tol := s.get (QUENCH_RCCFG_PTOL n)
  let now := iv.filter regular
  let before := (s.loop n).lastN
  let s := s.setLoop n { s.loop n with lastN := now, since := 0 }
  let cur := s.rcN n
  match s.get (QUENCH_RCSTAT_STATE n) with
  | 1 =>
    match before, now with
    | some a, some b => if near a b tol then s.rcLearn n b false else s
    | _, _ => s
  | 2 =>
    if now.any (fun b => near b cur tol) then s
    else (s.setLoop n { s.loop n with lastN := none }).put (QUENCH_RCSTAT_STATE n) 3
  | 3 =>
    match before, now with
    | some a, some b =>
      if near a cur tol && near b cur tol then s.put (QUENCH_RCSTAT_STATE n) 2
      else if near a b tol then s.rcLearn n b true
      else s
    | _, _ => s
  | _ => s

/-- The controller's state at a sample, before its output (R496, R498). -/
def State.rcState (s : State) (n : Nat) : State :=
  let l := s.loop n
  let edges := l.edges
  let psrc := s.on (QUENCH_RCCFG_PSRC n)
  if s.on (QUENCH_RCCFG_EN n) = false then s.setLoop n { l with edges := [] }
  else
    let s := if s.get (QUENCH_RCSTAT_STATE n) ≠ 0 then s
      else if psrc then s.put (QUENCH_RCSTAT_STATE n) 1
      else ((s.setLoop n { l with mem := [] }).put (QUENCH_RCSTAT_N n) (s.get (QUENCH_RCCFG_NFIX n))).put (QUENCH_RCSTAT_STATE n) 2
        |>.put (QUENCH_RCSTAT_PHI n) 0
    if psrc = false then s.setLoop n { s.loop n with edges := [] }
    else
      let s := edges.foldl (fun (s : State) e => s.rcEdge n e) s
      let s := if edges.isEmpty then s.setLoop n { s.loop n with since := (s.loop n).since + 1 }
        else s.put (QUENCH_RCSTAT_PHI n) 0
      let s := s.setLoop n { s.loop n with edges := [] }
      if s.get (QUENCH_RCSTAT_STATE n) = 2 ∧ (s.loop n).since ≥ 2 * s.rcN n then
        (s.setLoop n { s.loop n with lastN := none }).put (QUENCH_RCSTAT_STATE n) 3
      else s

/-- `rc_step` and `rc_decay` (R486, R496, R497). -/
def State.rcOut (s : State) (n : Nat) (e : Int) : Int × State :=
  let l := s.loop n
  let forget : Int := s.get (QUENCH_RCCFG_FORGET n)
  match s.get (QUENCH_RCSTAT_STATE n) with
  | 2 =>
    let m := s.rcN n
    let phi := s.get (QUENCH_RCSTAT_PHI n) % m
    let out := l.cell m (phi + s.get (QUENCH_RCCFG_LEAD n))
    let f4 : Int := if s.on (QUENCH_RCCFG_FILT n) then l.cell m (phi + m - 1) + 2 * l.cell m phi + l.cell m (phi + 1)
      else 4 * l.cell m phi
    let v := (sat24 (divRne (forget * f4 + 4 * (s.get (QUENCH_RCCFG_LGAIN n) : Int) * e) (2 ^ 17 : Nat))).1
    let s := s.setLoop n { l with mem := Tab.set (fun _ => (0 : Int)) l.mem phi v }
    (out, (s.put (QUENCH_RCSTAT_PHI n) ((phi + 1) % m)).put (QUENCH_RCSTAT_OUT n) (ux 24 out))
  | 3 =>
    let r := divRne (sx 24 (s.get (QUENCH_RCSTAT_OUT n)) * forget) (2 ^ 15 : Nat)
    (r, s.put (QUENCH_RCSTAT_OUT n) (ux 24 r))
  | _ => (0, s.put (QUENCH_RCSTAT_OUT n) 0)

/-- `RCCFGn.EN` cleared: the controller is OFF, its memory cleared (R496). -/
def State.rcOff (s : State) (n : Nat) : State :=
  ((s.setLoop n { s.loop n with mem := [], edges := [], lastN := none }).put (QUENCH_RCSTAT_STATE n) 0).put (QUENCH_RCSTAT_OUT n) 0

/-! ### Traces (R499, R500) -/

/-- A trace channel. -/
def State.qchan (s : State) (c : Nat) : QChan := Tab.get (fun _ => ⟨[], 0, 0⟩) s.quench.chans c

/-- A trace channel replaced. -/
def State.setChan (s : State) (c : Nat) (x : QChan) : State :=
  { s with quench := { s.quench with chans := Tab.set (fun _ => (⟨[], 0, 0⟩ : QChan)) s.quench.chans c x } }

/-- Enabled channels. -/
def State.qchans (s : State) : List Nat := (List.range 8).filter (fun c => s.on (QUENCH_TRCFG_EN c))

/-- A trigger condition of kind `k` holds (R500): 0 FORCE, 1 loop flag, 2 beacon, 3 level. -/
def State.qTrigger (s : State) (k : Nat) : State :=
  if s.get QUENCH_TRSTAT_STATE = 1 ∧ (k = 0 ∨ s.get QUENCH_TRCTL_TRIG = k) ∧
      s.qchans.all (fun c => (s.qchan c).ents.length ≥ s.get QUENCH_TRCTL_PRE) then s.put QUENCH_TRSTAT_STATE 2
  else s

/-- The nodes of an evaluation by number (R499). -/
structure QNodes where
  pv : Int
  sp : Int
  e : Int
  outs : List Int
  r : Int
  u : Int
  d : Int
deriving DecidableEq, Repr

/-- A node's value. -/
def QNodes.node (x : QNodes) (k : Nat) : Int :=
  if 3 ≤ k ∧ k < 11 then x.outs.getD (k - 3) 0
  else match k with
    | 0 => x.pv
    | 1 => x.sp
    | 2 => x.e
    | 11 => x.r
    | 12 => x.u
    | _ => x.d

/-- One channel's record of a sample: the circular buffer, then the entries after the trigger, then CDONE. -/
def State.qRecord (s : State) (c ts : Nat) (v : Int) : State :=
  let x := s.qchan c
  let dec := s.get (QUENCH_TRCFG_DEC c)
  if s.get QUENCH_TRSTAT_CDONE / 2 ^ c % 2 = 1 then s
  else if x.dec < dec then s.setChan c { x with dec := x.dec + 1 }
  else
    let l := x.ents ++ [(ts % 2 ^ 32, ux 32 v)]
    let st := s.get QUENCH_TRSTAT_STATE
    let after := if st = 2 then x.after + 1 else 0
    let s := s.setChan c ⟨l.drop (l.length - 4096), 0, after⟩
    let old := s.quench.level
    let s := if c = 0 then { s with quench := { s.quench with level := some v } } else s
    let lvl := sx 32 (s.get QUENCH_TRCTL_TLEVEL)
    let below : Bool := match old with | some o => o < lvl | none => false
    if st = 2 then
      if after + s.get QUENCH_TRCTL_PRE ≥ 4096 then
        let s := s.put QUENCH_TRSTAT_CDONE (s.get QUENCH_TRSTAT_CDONE + 2 ^ c)
        if s.qchans.all (fun k => s.get QUENCH_TRSTAT_CDONE / 2 ^ k % 2 == 1) then s.put QUENCH_TRSTAT_STATE 3 else s
      else s
    else if c = 0 ∧ below ∧ v ≥ lvl then s.qTrigger 3
    else s

/-- The channels on a loop record a sample; no rule gives the output of a section that the loop does not have. -/
def State.qTrace (s : State) (n ts : Nat) (x : QNodes) : State :=
  let st := s.get QUENCH_TRSTAT_STATE
  if st = 1 ∨ st = 2 then
    (s.qchans.filter (fun c => s.get (QUENCH_TRCFG_LOOP c) == n)).foldl (fun (s : State) c =>
      let k := s.get (QUENCH_TRCFG_NODE c)
      if 3 + x.outs.length ≤ k ∧ k < 11 then
        let (v, s) := s.fresh (2 ^ 24)
        s.qRecord c ts (sx 24 v)
      else s.qRecord c ts (x.node k)) s
  else s

/-- `TRCTL.ARM` (R500): every enabled channel empties and recording starts. -/
def State.qTraceArm (s : State) : State :=
  let s := s.qchans.foldl (fun (s : State) c => s.setChan c ⟨[], s.get (QUENCH_TRCFG_DEC c), 0⟩) s
  { (s.put QUENCH_TRSTAT_CDONE 0).put QUENCH_TRSTAT_STATE 1 with quench := { s.quench with level := none } }

end Sys2Proof.Machine
end

