-- ==== Sys2Proof/Machine/Board.lean ====
section
/-! DEFINITION. Leaks and the board (R460–R463, R471–R476, R549, R550): leak loops, isolation, the loop master's election,
the board messages sent and heard. -/

namespace Sys2Proof.Machine

/-! ### Leaks -/

/-- A leak isolation (R461, R463): latched; THROTTLE, compute stop, X0 and then X1. -/
def State.isolate (s : State) (n : Nat) : State :=
  if s.on BELLOWS_SAFESTAT_LEAKISO then s
  else
    let s := (s.put BELLOWS_SAFESTAT_LEAKISO 1).assertThrottle false
    let s := s.action 0x0609 4 (6 * 256 + n) n (s.get (BELLOWS_LEAK_RES n)) (s.get (BELLOWS_LEAK_ACT n))
    ((s.alert 3 n 0x0609).computeStop 2).isolateValves

/-- A leak or loop fault as its ACT field has it handled (R461, R462). -/
def State.leakAct (s : State) (n kind code : Nat) (warnOnly : Bool) : State :=
  let s := (s.put BELLOWS_SAFESTAT_LKWARN 1).errSum BELLOWS_ERRSUM_LEAK
  let s := s.action code 4 (6 * 256 + n) n (s.get (BELLOWS_LEAK_RES n)) (s.get (BELLOWS_LEAK_ACT n))
  let s := s.alert kind n code
  if warnOnly = false ∧ s.get (BELLOWS_LEAK_ACT n) = 1 then s.isolate n else s

/-- Five consecutive LEAK readings confirm a leak (R460, R461). -/
def execLeak (n : Nat) (ohm : List Nat) (t : Nat) (s : State) : Out :=
  let s := s.at t
  if n ≥ 4 ∨ ohm.length ≠ 5 ∨ ohm.any (fun r => loopClass r != 1) ∨ s.get (BELLOWS_LEAK_STATE n) = 1 then .next s
  else
    let s := (s.put (BELLOWS_LEAK_STATE n) 1).put (BELLOWS_LEAK_RES n) (min 65535 (ohm.getD 4 0 / 10))
    .next (s.leakAct n 1 0x0607 false)

/-- One hundred consecutive OPEN readings, or MARGINAL for 1 s, make a loop fault (R460, R462). -/
def execLoopFault (n ohm held t : Nat) (s : State) : Out :=
  let s := s.at t
  let fault : Bool := (loopClass ohm == 2 && held ≥ 100 * ms) || (loopClass ohm == 3 && held ≥ sec)
  if n ≥ 4 ∨ fault = false ∨ s.get (BELLOWS_LEAK_STATE n) = 2 then .next s
  else
    let s := (s.put (BELLOWS_LEAK_STATE n) 2).put (BELLOWS_LEAK_RES n) (min 65535 (ohm / 10))
    .next (s.leakAct n 2 0x0608 (!s.on (BELLOWS_LEAK_FAULTACT n)))

/-- A loop returns to NORMAL after 1 s of NORMAL readings (R460); its ALERT ends. -/
def execLeakLoopNormal (n ohm held t : Nat) (s : State) : Out :=
  let s := s.at t
  if n < 4 ∧ loopClass ohm = 0 ∧ held ≥ sec then
    let s := (s.put (BELLOWS_LEAK_STATE n) 0).put (BELLOWS_LEAK_RES n) (min 65535 (ohm / 10))
    .next ((s.alertEnd 1 n).alertEnd 2 n)
  else .next s

/-! ### The loop master -/

/-- What is known of a module on the board. -/
def State.peer (s : State) (k : Nat) : Peer := Tab.get (fun _ => Peer.none) s.cool.peers k

/-- What is known of a module replaced. -/
def State.setPeer (s : State) (k : Nat) (p : Peer) : State :=
  { s with cool := { s.cool with peers := Tab.set (fun _ => Peer.none) s.cool.peers k p } }

/-- The module's slot ID. -/
def State.slotId (s : State) : Nat := s.get BELLOWS_LOOP_SLOT

/-- Whether the module is healthy (R471); which board inputs are configured is assumption log 17. -/
def State.healthy (s : State) : Bool :=
  s.secb.running.isSome && s.get BELLOWS_CAPOUT_FSTATE != 3 && !s.on BELLOWS_SAFESTAT_LEAKISO &&
    ([0, 1, 2, 3].all (fun c => !(s.on (BELLOWS_FCFG_BOARD c) && s.get (BELLOWS_FSTAT_STATE c) == 5))) &&
    ([2, 3].all (fun p => !Config.boardInput p || s.get (BELLOWS_PRESS_STATE p) == 0)) &&
    (!Config.boardInput 4 || s.get (BELLOWS_FLOW_STATE 1) == 0)

/-- Whether the controller takes part in bus traffic (R541): on the bus, neither bus-off nor only listening. -/
def State.canUp (s : State) : Bool :=
  s.on CANFD_CTL_EN && s.get CANFD_STAT_STATE < 2 && !s.on CANFD_CTL_MON

/-- Whether the controller receives a frame (R529, R541, R560). -/
def State.canTakes (s : State) (f : CanFrame) : Bool :=
  s.on CANFD_CTL_EN && s.get CANFD_STAT_STATE < 2 && (!f.fdf || s.on CANFD_CTL_FDEN)

/-- A module's record at the end of a period (R472): heard once more, or missed once more and dropped at five. -/
def Peer.age (p : Peer) : Peer :=
  if p.fresh then { p with fresh := false, heard := min 3 (p.heard + 1), missed := 0 }
  else if p.missed ≥ 4 then { Peer.none with claimAt := p.claimAt }
  else { p with heard := 0, missed := p.missed + 1 }

/-- The lowest slot ID among the healthy candidates heard in each of the last three periods (R472); 15 none. -/
def State.electMaster (s : State) : Nat :=
  ((List.range 8).find? (fun k => let p := s.peer k; p.heard == 3 && p.cand && p.healthy)).getD 15

/-- Whether a claim from a lower slot ID came within 50 ms (R473). -/
def State.lowerClaim (s : State) : Bool :=
  (List.range s.slotId).any (fun k => match (s.peer k).claimAt with | some a => s.now < a + 50 * ms | none => false)

/-- The module drives the board outputs or releases them (R473, R490). -/
def State.setMaster (s : State) (b : Bool) : State :=
  if s.on BELLOWS_SAFESTAT_MASTER = b then s
  else
    let s := s.putB BELLOWS_SAFESTAT_MASTER b
    let s := [0, 1, 2, 3].foldl (fun (s : State) c => if !b && s.on (BELLOWS_FCFG_BOARD c) then s.fanRelease c else s) s
    s.vRetargetAll.quenchMaster

/-- How many modules the board holds, as far as this one knows: those it hears, and itself (R49, R472). -/
def State.boardSize (s : State) : Nat :=
  ((List.range 8).filter (fun k => let p := s.peer k; k == s.slotId || p.fresh || p.heard > 0 || p.missed > 0)).length

/-- The loop master of a board of more than four modules runs the thermal model on every valve channel it drives (R49, R521):
every channel from A0 to B3 whose MODE is not OFF. -/
def State.masterProt (s : State) : State :=
  if s.on BELLOWS_SAFESTAT_MASTER ∧ s.boardSize > 4 then
    (List.range 8).foldl (fun (s : State) c =>
      if s.get (TUYERE_VCMD_MODE c) = 0 ∨ s.on (TUYERE_VPROT_PROT c) then s
      else (s.put (TUYERE_VPROT_PROT c) 1).vRetarget c) s
  else s

/-- The election's result put in force. -/
def State.election (s : State) : State :=
  let m := s.electMaster
  let old := s.get BELLOWS_LOOP_MASTERID
  let s := s.put BELLOWS_LOOP_MASTERID m
  let s := if m = old then s else s.action 0x060E 1 (6 * 256) m 0 0
  (s.setMaster (m == s.slotId && !s.lowerClaim)).masterProt

/-- A board message (R549): an FD frame with BRS, 16 data bytes, a base identifier. -/
def boardFrame (id : Nat) (data : List Byte) : CanFrame :=
  { id := id, ide := false, fdf := true, brs := true, esi := false, rtr := false, dlc := 10, data := data }

/-- The LOOP message. -/
def State.loopFrame (s : State) : CanFrame :=
  let b (x : Bool) (k : Nat) : Nat := if x then 2 ^ k else 0
  boardFrame (0x100 + s.slotId)
    (toBytes 1 (s.slotId + b (s.on BELLOWS_LOOP_CAND) 3 + b s.healthy 4 + b (s.on BELLOWS_SAFESTAT_MASTER) 5)
      ++ toBytes 1 (s.get BELLOWS_CAPOUT_FSTATE) ++ toBytes 2 0 ++ toBytes 4 (s.cool.loopSent + 1) ++ toBytes 8 0)

/-- The STATUS message. The board supply temperature is no numbered input's: a master sends a free value there. -/
def State.statusFrame (s : State) : CanFrame × State :=
  let master := s.on BELLOWS_SAFESTAT_MASTER
  let (tb, s) := if master then s.fresh 65536 else (0, s)
  (boardFrame (0x110 + s.slotId)
    (toBytes 2 (s.get (BELLOWS_FLOW_FLOW 0)) ++ toBytes 2 (u16 s.cool.tin) ++ toBytes 2 (u16 s.cool.tout)
      ++ toBytes 2 (s.get BELLOWS_CAPOUT_THERMAL) ++ toBytes 2 (s.get BELLOWS_CAPOUT_FLOWCAP)
      ++ toBytes 2 (s.cool.last.p2 / 65536) ++ toBytes 2 (if master then s.get (BELLOWS_FLOW_FLOW 1) else 0)
      ++ toBytes 2 tb), s)

/-- The ALERT message of a condition whose record has been written. -/
def State.alertFrame (s : State) (a : Alert) : CanFrame :=
  boardFrame (0x080 + s.slotId)
    (toBytes 1 (a.kind + (if a.stands then 0 else 128)) ++ toBytes 1 a.idx ++ toBytes 2 0 ++ toBytes 4 (a.seq.getD 0)
      ++ toBytes 8 0)

/-- Frames sent. -/
def State.canSend (s : State) (l : List CanFrame) : State := { s with can := { s.can with wire := s.can.wire ++ l } }

/-- The board messages of a 10 ms matrix (R548–R550): LOOP, the alerts of its first window, STATUS, the alerts that still
stand. An ended alert is sent once and forgotten. -/
def State.sendBoard (s : State) : State :=
  if s.canUp = false ∨ s.on CANFD_CTL_FDEN = false then s
  else
    let known := s.cool.alerts.filter (fun a => a.seq.isSome)
    let first := known.map s.alertFrame
    let second := (known.filter (fun a => a.stands)).map s.alertFrame
    let lf := s.loopFrame
    let (sf, s) := s.statusFrame
    let own := s.peer s.slotId
    let s := s.setPeer s.slotId { own with
      cand := s.on BELLOWS_LOOP_CAND, healthy := s.healthy, flow := s.get BELLOWS_CAPOUT_FSTATE, fresh := true }
    let s := { s with
      cool := { s.cool with
        loopSent := (s.cool.loopSent + 1) % 2 ^ 32
        alerts := s.cool.alerts.filter (fun a => a.stands || a.seq.isNone) } }
    s.canSend (lf :: first ++ sf :: second)

/-- Every 10 ms: the board messages are sent, the period's hearings counted, the master elected (R472, R473). -/
def execLoopPeriod (t : Nat) (s : State) : Out :=
  let s := s.at t
  if s.pwr.step < 3 then .next s
  else
    let s := s.sendBoard
    let s := (List.range 8).foldl (fun (s : State) k => s.setPeer k (s.peer k).age) s
    .next s.election

/-- A LOOP message from another module (R472, R473). -/
def execLoopMessage (f : CanFrame) (t : Nat) (s : State) : Out :=
  let s := s.at t
  let b := leAt f.data 0 1
  let k := b % 8
  if s.canTakes f = false ∨ f.fdf = false ∨ f.ide ∨ f.rtr ∨ f.data.length ≠ 16 ∨ f.id ≠ 0x100 + k ∨ k = s.slotId then .next s
  else
    let p := s.peer k
    let claim := bit b 5
    let p := { p with
      cand := bit b 3, healthy := bit b 4, flow := leAt f.data 1 1, fresh := true
      claimAt := (if claim then some s.now else p.claimAt) }
    let s := s.setPeer k p
    .next (if claim && k < s.slotId then s.setMaster false else s)

/-- An ALERT from another module is recorded (R550). -/
def execAlertRx (f : CanFrame) (t : Nat) (s : State) : Out :=
  let s := s.at t
  let k := f.id - 0x080
  if s.canTakes f = false ∨ f.fdf = false ∨ f.ide ∨ f.rtr ∨ f.data.length ≠ 16 ∨
      f.id < 0x080 ∨ k ≥ 8 ∨ k = s.slotId then .next s
  else .next (s.event 0x0610 2 (14 * 256 + k) k (leAt f.data 0 1) (leAt f.data 4 4))

end Sys2Proof.Machine
end

