-- ==== Sys2Proof/Machine/Can.lean ====
section
/-! DEFINITION. The CAN FD controller (R529–R547): the filter list, receive buffers, transmission, bus states, the system
matrix. The register writes TXREQ, CANCEL, ACK and TTEN have their effects here. -/

namespace Sys2Proof.Machine

/-! ### Frames (R536, R545) -/

/-- Data bytes of a DLC. -/
def dlcBytes (fdf : Bool) (dlc : Nat) : Nat :=
  if dlc ≤ 8 then dlc
  else if fdf then [12, 16, 20, 24, 32, 48, 64].getD (dlc - 9) 64 else 8

/-- The frame a transmit buffer sends. -/
def State.bufFrame (s : State) (n : Nat) : CanFrame :=
  let fdf := s.on (CANFD_BCFG_FDF n) && s.on CANFD_CTL_FDEN
  let dlc := s.get (CANFD_BCFG_DLC n)
  let bytes := (List.range 8).flatMap (fun i => toBytes 8 (s.rd (CANFD_BDATA n i)).toNat)
  { id := s.get (CANFD_BCFG_ID n) % (if s.on (CANFD_BCFG_IDE n) then 2 ^ 29 else 2 ^ 11), ide := s.on (CANFD_BCFG_IDE n)
    fdf := fdf, brs := fdf && s.on (CANFD_BCFG_BRS n), esi := fdf && s.get CANFD_STAT_STATE == 1, rtr := false
    dlc := dlc, data := bytes.take (dlcBytes fdf dlc) }

/-- Kernel cycles of a nominal and of a data-phase bit (R531). -/
def State.nominalBit (s : State) : Nat :=
  (s.get CANFD_NBT_NBRP + 1) * (3 + s.get CANFD_NBT_NTSEG1 + s.get CANFD_NBT_NTSEG2)
/-- See `nominalBit`. -/
def State.dataBit (s : State) : Nat :=
  (s.get CANFD_DBT_DBRP + 1) * (3 + s.get CANFD_DBT_DTSEG1 + s.get CANFD_DBT_DTSEG2)

/-- NTU in ns (R542): a kernel cycle is 12.5 ns. -/
def State.ntu (s : State) (n : Nat) : Nat := n * s.nominalBit * 25 / 2

/-- Worst-case bits of a frame at the nominal rate and at the data rate (R545): `ide`, `fdf`, `brs`, data bytes. -/
def frameBits (ide fdf brs : Bool) (n : Nat) : Nat × Nat :=
  if fdf then
    let arb := if ide then 36 else 17
    let crc := if n ≤ 16 then 17 + 6 else 21 + 7
    let body := 5 + 8 * n + (5 + 8 * n) / 4 + 4 + crc
    let nom := arb + (arb - 1) / 4 + 13
    if brs then (nom, body) else (nom + body, 0)
  else
    let b := (if ide then 54 else 34) + 8 * n
    (b + (b - 1) / 4 + 13, 0)

/-- D of a transmit buffer in NTU, rounded up (R544, R545). -/
def State.frameNtu (s : State) (n : Nat) : Nat :=
  let f := s.bufFrame n
  let b := frameBits f.ide f.fdf f.brs f.data.length
  let nb := s.nominalBit
  (b.1 * nb + b.2 * s.dataBit + nb - 1) / nb

/-! ### Reception (R530, R534–R538) -/

/-- Whether a filter element matches an identifier (R534); of a base identifier the element holds bits [10:0]. -/
def State.filterHit (s : State) (k : Nat) (f : CanFrame) : Bool :=
  let w := if f.ide then 2 ^ 29 else 2 ^ 11
  let id1 := s.get (CANFD_FLTA_ID1 k) % w
  let id2 := s.get (CANFD_FLTB_ID2 k) % w
  s.on (CANFD_FLTA_IDE k) == f.ide &&
    (match s.get (CANFD_FLTA_TYPE k) with
    | 1 => id1 ≤ f.id && f.id ≤ id2
    | 2 => f.id == id1 || f.id == id2
    | 3 => Nat.land f.id id2 == Nat.land id1 id2
    | _ => false)

/-- Whether a buffer is an enabled receive buffer. -/
def State.rxBuf (s : State) (n : Nat) : Bool := s.on (CANFD_BCFG_EN n) && !s.on (CANFD_BCFG_DIR n)

/-- Whether a buffer is an enabled transmit buffer. -/
def State.txBuf (s : State) (n : Nat) : Bool := s.on (CANFD_BCFG_EN n) && s.on (CANFD_BCFG_DIR n)

/-- The data bytes of a buffer written: those past the frame's length stay. -/
def State.bufData (s : State) (n : Nat) (l : List Byte) : State :=
  (List.range 8).foldl (fun (s : State) i =>
    let old := toBytes 8 (s.rd (CANFD_BDATA n i)).toNat
    let new := (List.range 8).map (fun j => (l[8 * i + j]?).getD (old.getD j 0))
    s.wr (CANFD_BDATA n i) (BitVec.ofNat 64 (ofBytes new))) s

/-- A frame stored in a buffer (R536, R537). -/
def State.storeFrame (s : State) (n : Nat) (f : CanFrame) : State :=
  let s := if s.on (CANFD_BSTAT_NEWDAT n) then s.put (CANFD_BSTAT_MSGLOST n) 1 else s
  let s := (s.put (CANFD_BSTAT_WCNT n) (s.get (CANFD_BSTAT_WCNT n) + 1)).bufData n f.data
  let s := ((s.put (CANFD_BSTAT_RID n) f.id).putB (CANFD_BSTAT_IDE n) f.ide).putB (CANFD_BSTAT_FDF n) f.fdf
  let s := ((s.putB (CANFD_BSTAT_BRS n) f.brs).putB (CANFD_BSTAT_ESI n) f.esi).put (CANFD_BSTAT_DLC n) f.dlc
  (s.wr (CANFD_BTS n) (BitVec.ofNat 64 (s.now / us))).put (CANFD_BSTAT_NEWDAT n) 1

/-- A received frame is filtered and stored (R530, R534, R535). -/
def execCanFrameRx (f : CanFrame) (t : Nat) (s : State) : Out :=
  let s := s.at t
  if s.canTakes f = false then .next s
  else if f.rtr then .next (s.inc CANFD_STAT_RMTDROP)
  else
    match (List.range 128).find? (fun k => s.filterHit k f) with
    | none => .next (if s.on CANFD_CTL_NOMATCH ∧ s.rxBuf 63 then s.storeFrame 63 f else s)
    | some k =>
      let act := s.get (CANFD_FLTA_ACT k)
      let b := s.get (CANFD_FLTA_BUF k)
      if act ≥ 2 then .next s
      else if s.rxBuf b = false then .next (s.inc CANFD_STAT_FLTMISS)
      else
        let s := s.storeFrame b f
        .next (if act = 1 then s.raise 30 else s)

/-- `BCMDn.ACK` (R538): NEWDAT clears only where ACKCNT is the present WCNT. -/
def State.bufAck (s : State) (n cnt : Nat) : State :=
  if cnt = s.get (CANFD_BSTAT_WCNT n) then s.put (CANFD_BSTAT_NEWDAT n) 0 else s

/-! ### Transmission (R539, R540) -/

/-- Whether buffers send as they become pending (R539, R547). -/
def State.eventMode (s : State) : Bool := s.get CANFD_TTSTAT_TTSTATE == 0 || s.get CANFD_TTSTAT_TTSTATE == 3

/-- The order of R539: the lower identifier, base before extended of equal value. -/
def State.bufKey (s : State) (n : Nat) : Nat :=
  s.get (CANFD_BCFG_ID n) % (if s.on (CANFD_BCFG_IDE n) then 2 ^ 29 else 2 ^ 11) * 2 + (if s.on (CANFD_BCFG_IDE n) then 1 else 0)

/-- The pending buffer that is offered first among those given (R539). -/
def State.bestBuf (s : State) (l : List Nat) : Option Nat :=
  (l.filter (fun n => s.on (CANFD_BSTAT_TXPEND n))).foldl (fun acc n =>
    match acc with
    | none => some n
    | some m => if s.bufKey n < s.bufKey m then some n else some m) none

/-- The buffer the controller may offer now (R539, R543, R544): in a window only within its transmit enable window. -/
def State.offerNow (s : State) : Option Nat :=
  if s.canUp = false then none
  else if s.eventMode then
    s.bestBuf ((List.range 64).filter (fun n => s.get CANFD_TTSTAT_TTSTATE == 3 || !s.on (CANFD_BCFG_TTX n)))
  else
    match s.can.win with
    | some (k, a, b) =>
      if s.now ≥ a + s.ntu (s.get CANFD_TTCFG_TXEW) then none
      else match s.get (CANFD_TRIG_TYPE k) with
        | 0 => if s.can.offer = none then s.bestBuf [s.get (CANFD_TRIG_BUF k)] else none
        | 1 =>
          let l := (List.range 64).filter (fun n =>
            !s.on (CANFD_BCFG_TTX n) && s.now + s.ntu (s.frameNtu n) ≤ b)
          s.bestBuf l
        | _ => none
    | none => none

/-- The next attempt takes a buffer where none is taken. -/
def State.offerNext (s : State) : State :=
  if s.can.offer.isSome then s else { s with can := { s.can with offer := s.offerNow } }

/-- `BCMDn.TXREQ` (R539). -/
def State.txRequest (s : State) (n : Nat) : State :=
  if s.txBuf n then (s.put (CANFD_BSTAT_TXPEND n) 1).offerNext else s

/-- A pending buffer leaves the pending state. -/
def State.txDone (s : State) (n : Nat) : State :=
  let c := s.can
  { s.put (CANFD_BSTAT_TXPEND n) 0 with
    can := { c with cancelling := c.cancelling.filter (fun m => m != n), offer := (if c.offer = some n then none else c.offer) } }

/-- `BCMDn.CANCEL` (R540); `begun`: the frame has begun arbitration. -/
def State.txCancel (s : State) (n : Nat) (begun : Bool) : State :=
  if s.on (CANFD_BSTAT_TXPEND n) = false then s
  else if begun then { s with can := { s.can with cancelling := s.can.cancelling ++ [n] } }
  else ((s.put (CANFD_BSTAT_TXCAN n) 1).txDone n).offerNext

/-- An exclusive window's one frame is behind it: nothing more is sent in it (R543). -/
def State.windowDone (s : State) : State := { s with can := { s.can with win := none } }

/-- Whether the open window is exclusive: its frame is sent once (R543). -/
def State.exclusive (s : State) : Bool :=
  !s.eventMode && (match s.can.win with | some (k, _, _) => s.get (CANFD_TRIG_TYPE k) == 0 | none => false)

/-- An attempt ends: the frame was sent, with the loop delay `tdcv` measured (R533), or it lost arbitration or met an
error (R539, R540, R543). -/
def execCanTxComplete (n : Nat) (sent : Bool) (tdcv t : Nat) (s : State) : Out :=
  let s := s.at t
  if n ≥ 64 ∨ s.canUp = false ∨ s.on (CANFD_BSTAT_TXPEND n) = false ∨ (s.can.offer ≠ some n ∧ s.offerNow ≠ some n) then .next s
  else
    let stopping := s.can.cancelling.contains n
    let once := s.exclusive
    if sent then
      let f := s.bufFrame n
      let s := (s.put (CANFD_BSTAT_TXOK n) 1).canSend [f]
      let s := if stopping then s.put (CANFD_BSTAT_CANFAIL n) 1 else s
      let s := if f.fdf ∧ s.on CANFD_CTL_TDCEN then s.put CANFD_TDC_TDCV (min 127 tdcv) else s
      let s := s.txDone n
      .next (if once then s.windowDone else s.offerNext)
    else if stopping ∨ once then
      let s := (s.put (CANFD_BSTAT_TXCAN n) 1).txDone n
      .next (if once then s.windowDone else s.offerNext)
    else .next { s with can := { s.can with offer := none } }.offerNext

/-! ### Bus states (R541) -/

/-- The controller's state changes (R541): entry into error-passive or bus-off is recorded; bus-off ends by its recovery alone. -/
def execCanState (st tec rec lec t : Nat) (s : State) : Out :=
  let s := s.at t
  let old := s.get CANFD_STAT_STATE
  if st ≥ 4 ∨ s.on CANFD_CTL_EN = false ∨ (old = 2 ∧ st ≠ 2) then .next s
  else
    let s := (s.put CANFD_STAT_STATE st).put CANFD_STAT_TEC (min 255 tec)
    let s := (s.put CANFD_STAT_REC (min 255 rec)).put CANFD_STAT_LEC (if lec < 7 then lec else 0)
    let s := if st = 2 then { s.put CANFD_STAT_BOFF 1 with can := { s.can with offer := none, rejoin := false } } else s
    .next (if (st = 1 ∨ st = 2) ∧ st ≠ old then
        (s.errSum BELLOWS_ERRSUM_CAN).eventIrq 29 0x0900 2 (11 * 256) st (min 255 tec) (min 255 rec)
      else s)

/-- 128 occurrences of 11 recessive bits end bus-off, unless BOMAN waits for firmware (R541). -/
def execBusOffRecovery (seqs t : Nat) (s : State) : Out :=
  let s := s.at t
  if seqs ≥ 128 ∧ s.on CANFD_CTL_EN ∧ s.get CANFD_STAT_STATE = 2 ∧ (s.on CANFD_CTL_BOMAN = false ∨ s.can.rejoin) then
    let s := ((s.put CANFD_STAT_STATE 0).put CANFD_STAT_TEC 0).put CANFD_STAT_REC 0
    .next { s with can := { s.can with rejoin := false } }.offerNext
  else .next s

/-! ### The system matrix (R542–R547) -/

/-- The first check of R544 that the matrix breaks; 0 none. -/
def State.matrixError (s : State) : Nat :=
  let n := s.get CANFD_TTCFG_NTRIG
  let ks := List.range n
  let cyc := s.get CANFD_TTCFG_CYCLEN
  let mark (k : Nat) : Nat := s.get (CANFD_TRIG_TMARK k)
  let stop (k : Nat) : Nat := if k + 1 < n then mark (k + 1) else cyc
  let excl := ks.filter (fun k => s.get (CANFD_TRIG_TYPE k) == 0)
  let buf (k : Nat) : Nat := s.get (CANFD_TRIG_BUF k)
  if ks.any (fun k => mark k ≥ stop k || mark k ≥ cyc) then 1
  else if excl.any (fun k => stop k - mark k < s.get CANFD_TTCFG_TXEW + s.frameNtu (buf k)) then 2
  else if excl.any (fun k => !(s.txBuf (buf k) && s.on (CANFD_BCFG_TTX (buf k)))) then 3
  else if ks.any (fun k => s.get (CANFD_TRIG_REP k) > s.get CANFD_TTCFG_CCM || s.get (CANFD_TRIG_OFS k) ≥ 2 ^ s.get (CANFD_TRIG_REP k)) then 4
  else 0

/-- `TTCFG.TTEN` set or cleared (R544). -/
def State.ttEnable (s : State) (b : Bool) : State :=
  let c := { s.can with win := none, offer := none, back := false, refSeen := false, lastRef := s.now }
  let s := { s with can := c }
  if b then
    let e := s.matrixError
    (s.put CANFD_TTSTAT_ERR e).put CANFD_TTSTAT_TTSTATE (if e = 0 then 1 else 0)
  else (s.put CANFD_TTSTAT_TTSTATE 0).put CANFD_TTSTAT_ISTM 0 |>.offerNext

/-- A reference message on the bus begins a basic cycle (R542, R546, R547). -/
def State.cycleStart (s : State) (p cycle : Nat) (own : Bool) : State :=
  let st := s.get CANFD_TTSTAT_TTSTATE
  let s := (s.put CANFD_TTSTAT_CYCLE cycle).put CANFD_TTSTAT_CTIME 0
  let s := (s.put CANFD_TTSTAT_CURTM p).putB CANFD_TTSTAT_ISTM own
  let c := { s.can with lastRef := s.now, refSeen := true, cycleAt := s.now, win := none }
  if st = 3 ∧ s.can.back = false then { s with can := { c with back := true } }
  else { s.put CANFD_TTSTAT_TTSTATE 2 with can := { c with back := false, offer := none } }

/-- A reference message is received (R546). -/
def execReferenceMessage (f : CanFrame) (t : Nat) (s : State) : Out :=
  let s := s.at t
  let rid := s.get CANFD_TTCFG_RID
  let d := leAt f.data 0 1
  if s.canTakes f = false ∨ s.on CANFD_TTCFG_TTEN = false ∨ s.get CANFD_TTSTAT_TTSTATE = 0 ∨ f.ide ∨ f.fdf ∨ f.rtr ∨ f.dlc ≠ 1 ∨
      f.id < rid ∨ f.id ≥ rid + 4 ∨ d ≥ 64 then .next s
  else .next (s.cycleStart (f.id - rid) (d % 2 ^ s.get CANFD_TTCFG_CCM) false)

/-- Silence long enough for this potential time master, or the time master's own cycle, ends: it sends a reference message
(R546). -/
def execReferenceTimeout (t : Nat) (s : State) : Out :=
  let s := s.at t
  let p := s.get CANFD_TTCFG_TMPRI
  let own := s.on CANFD_TTSTAT_ISTM
  let wait := s.get CANFD_TTCFG_CYCLEN + (if own then 0 else 64 * (p + 1))
  if s.canUp = false ∨ s.on CANFD_TTCFG_TTEN = false ∨ s.get CANFD_TTSTAT_TTSTATE = 0 ∨ s.on CANFD_TTCFG_TMEN = false ∨
      s.now < s.can.lastRef + s.ntu wait then .next s
  else
    let c := if s.can.refSeen then (s.get CANFD_TTSTAT_CYCLE + 1) % 2 ^ s.get CANFD_TTCFG_CCM else 0
    let s := if own then s else s.inc CANFD_TTSTAT_REFMISS
    let f : CanFrame := ⟨s.get CANFD_TTCFG_RID + p, false, false, false, false, false, 1, toBytes 1 c⟩
    .next ((s.canSend [f]).cycleStart p c true)

/-- A trigger opens its window (R543, R544). -/
def execTtWindow (k t : Nat) (s : State) : Out :=
  let s := s.at t
  let n := s.get CANFD_TTCFG_NTRIG
  let stop := if k + 1 < n then s.get (CANFD_TRIG_TMARK (k + 1)) else s.get CANFD_TTCFG_CYCLEN
  let a := s.can.cycleAt + s.ntu (s.get (CANFD_TRIG_TMARK k))
  let b := s.can.cycleAt + s.ntu stop
  if s.get CANFD_TTSTAT_TTSTATE ≠ 2 ∨ k ≥ n ∨ s.now < a ∨ s.now ≥ b ∨
      s.get CANFD_TTSTAT_CYCLE % 2 ^ s.get (CANFD_TRIG_REP k) ≠ s.get (CANFD_TRIG_OFS k) then .next s
  else
    let s := s.put CANFD_TTSTAT_CTIME (s.get (CANFD_TRIG_TMARK k))
    .next { s with can := { s.can with win := some (k, a, b), offer := none } }.offerNext

/-- Three cycle lengths without a reference message: EVENT (R547). -/
def execTtEventFallback (t : Nat) (s : State) : Out :=
  let s := s.at t
  let st := s.get CANFD_TTSTAT_TTSTATE
  if s.on CANFD_TTCFG_TTEN ∧ (st = 1 ∨ st = 2) ∧ s.now ≥ s.can.lastRef + s.ntu (3 * s.get CANFD_TTCFG_CYCLEN) then
    let s := (s.add CANFD_TTSTAT_REFMISS 3).put CANFD_TTSTAT_TTSTATE 3
    .next { s with can := { s.can with win := none, offer := none, back := false } }.offerNext
  else .next s

end Sys2Proof.Machine
end

