-- ==== Sys2Proof/Machine/Cooling.lean ====
section
/-! DEFINITION. The cooling plane's events (R440–R456, R467–R470, R477): the tick, sensor faults, the flow fast path, flow
confirmation, kicks and tachometers, autonomous mode. -/

namespace Sys2Proof.Machine

/-- Management tick, once a millisecond while firmware runs (R36, R440–R452, R464–R467, R476, R578): readings, the records of the actions since the last tick, flow
state, caps, publication, duties. -/
def execCoolingTick (k : TickIn) (t : Nat) (s : State) : Out :=
  let s := s.at t
  if s.tickNo ≤ s.cool.tick ∨ s.secb.running.isNone then .next s
  else
  let s := { s with cool := { s.cool with tick := s.tickNo } }
  let s := ((s.tickTemps k).tickPress k).tickLeak k
  let s := s.tickFlow k
  let r := s.reading k.pmeas
  let s := s.writeActions s.cool.last r
  let s := { s with cool := { s.cool with last := r } }
  .next (((s.tickFlowState).tickThermal k.pmeas).publishCaps.tickFans k)

/-! ### Sensors -/

/-- Three consecutive samples put an NTC input to OPEN or SHORT (R442); on T1 and T3 under POL 1 that takes the critical
path (R446, R458). -/
def execNtcFault (n : Nat) (ohm : List Nat) (t : Nat) (s : State) : Out :=
  let s := s.at t
  let st := if ohm.length = 3 ∧ ohm.all (fun r => r > 500000) then 1
    else if ohm.length = 3 ∧ ohm.all (fun r => r < 100) then 2 else 0
  if n ≥ 12 ∨ s.ntcValid n = false ∨ st = 0 then .next s
  else
    let s := ((s.put (BELLOWS_TSTAT_STATE n) st).errSum BELLOWS_ERRSUM_SENSOR).raise 24
    .next (if (n = 1 ∨ n = 3) ∧ s.on (BELLOWS_TCFG_POL n) then s.critical 3 (s.ntcRaw n) else s)

/-- Three consecutive samples outside 0.25–4.75 V fault a pressure input (R443); its STATE follows the last of them where they
lie on both sides. -/
def execPressureFault (n : Nat) (mv : List Nat) (t : Nat) (s : State) : Out :=
  let s := s.at t
  let st := if mv.length = 3 ∧ mv.all (fun v => v < 250 || v > 4750) then (if mv.getD 2 0 < 250 then 1 else 2) else 0
  if n ≥ 4 ∨ s.get (BELLOWS_PRESS_STATE n) ≠ 0 ∨ st = 0 then .next s
  else .next (((s.put (BELLOWS_PRESS_STATE n) st).errSum BELLOWS_ERRSUM_SENSOR).raise 24)

/-- A faulted input returns to OK after 1 s of valid samples (R442, R443). `n` 0–11: T0–T11; 12–15: pressure inputs. -/
def execSensorRecover (n held t : Nat) (s : State) : Out :=
  let s := s.at t
  if held < sec then .next s
  else if n < 12 then
    let st := s.get (BELLOWS_TSTAT_STATE n)
    .next (if st = 1 ∨ st = 2 then s.put (BELLOWS_TSTAT_STATE n) 0 else s)
  else if n < 16 then .next (s.put (BELLOWS_PRESS_STATE (n - 12)) 0)
  else .next s

/-- A pair that has disagreed for more than 1 s (R447): the cooler input is suspect. -/
def execSensorDisagree (a b held t : Nat) (s : State) : Out :=
  let s := s.at t
  let d := (s.ntcRaw a - s.ntcRaw b).natAbs
  if a ≥ 12 ∨ s.partner a ≠ some b ∨ s.ntcGood a = false ∨ s.ntcGood b = false ∨ held ≤ sec ∨
      d ≤ 25 * s.get BELLOWS_THCFG_DISAGREE then .next s
  else
    let c := if s.ntcRaw a < s.ntcRaw b then a else b
    let h := if s.ntcRaw a < s.ntcRaw b then b else a
    let s := ((s.put BELLOWS_SAFESTAT_SENSOR_DISAGREE 1).put (BELLOWS_TSTAT_SUSPECT c) 1).errSum BELLOWS_ERRSUM_SENSOR
    .next (s.action 0x0605 2 (6 * 256 + c) c (u16 (s.ntcRaw c)) (u16 (s.ntcRaw h)))

/-- Whether T1 or T3 reads implausibly (R448). -/
def State.outletOdd (s : State) (n : Nat) : Bool :=
  let p := s.cool.last.p2 / 65536
  let cf := 20 * s.get BELLOWS_THCFG_COOLCP * s.get (BELLOWS_FLOW_FLOW 0)
  let rise := s.cool.tout - s.cool.tin
  (p ≥ 200 && s.ntcRaw n < s.cool.tin - 200) ||
    (6000000 * p ≥ 400 * cf && 2 * rise * cf < 6000000 * (p : Int))

/-- Whether FL0 reads implausibly (R448): its 5 s mean is `v`. -/
def State.flowOdd (s : State) (v : Int) : Bool :=
  let p := s.cool.last.p2 / 65536
  let rise := s.cool.tout - s.cool.tin
  let a : Int := 300000 * (p : Int)
  let b : Int := (s.get BELLOWS_THCFG_COOLCP : Int) * rise
  rise ≥ 200 && p ≥ 400 && !([0, 1, 2, 3].any (fun n => s.on (BELLOWS_TSTAT_SUSPECT n))) &&
    2 * ((v * b - a).natAbs : Int) > a

/-- An input reads implausibly for its time (R448). `n` 1, 3: outlet inputs; 12–75: die diodes, reading `v`; 76: FL0,
whose 5 s mean is `v`. -/
def execSensorSuspect (n : Nat) (v : Int) (held t : Nat) (s : State) : Out :=
  let s := s.at t
  let note (s : State) (p1 p2 : Nat) : State :=
    (s.errSum BELLOWS_ERRSUM_SENSOR).action 0x0606 2 (6 * 256 + n) n p1 p2
  if (n = 1 ∨ n = 3) ∧ s.ntcGood n ∧ held ≥ 2 * sec ∧ s.outletOdd n then
    .next (note (s.put (BELLOWS_TSTAT_SUSPECT n) 1) (u16 (s.ntcRaw n)) (u16 s.cool.tin))
  else if 12 ≤ n ∧ n < 76 ∧ s.domOn 192 ∧ v < s.cool.tin - 200 ∧ s.cool.dieSus.contains (n - 12) = false then
    .next (note { s with cool := { s.cool with dieSus := s.cool.dieSus ++ [n - 12] } } (u16 v) (u16 s.cool.tin))
  else if n = 76 ∧ s.get (BELLOWS_FLOW_STATE 0) ≠ 2 ∧ s.flowOdd v then
    .next (note (s.put (BELLOWS_FLOW_STATE 0) 2) v.toNat (s.get (BELLOWS_FLOW_FLOW 0)))
  else .next s

/-! ### The fast path and the critical comparators -/

/-- No FL0 edge for 50 ms (R453). -/
def execNopulse (held t : Nat) (s : State) : Out :=
  let s := s.at t
  .next (if held ≥ 50 * ms ∧ s.get (BELLOWS_FLOW_STATE 0) ≠ 2 then s.trigger BELLOWS_SAFESTAT_NOPULSE else s)

/-- ΔP, in 0.1 kPa, below DPMIN for 5 ms (R453). -/
def execDpcollapse (dp : Int) (held t : Nat) (s : State) : Out :=
  let s := s.at t
  .next (if held ≥ 5 * ms ∧ dp < s.get BELLOWS_FLCFG_DPMIN ∧ s.dpValid then s.trigger BELLOWS_SAFESTAT_DPCOLLAPSE else s)

/-- A die diode has risen by `rise`, in 0.01 K, within 1 ms (R445, R453). -/
def execDierise (rise t : Nat) (s : State) : Out :=
  let s := s.at t
  .next (if rise > 200 ∧ s.domOn 192 then s.trigger BELLOWS_SAFESTAT_DIERISE else s)

/-- Flow and ΔP have been back for 100 ms, and in that time there was no trigger (R454). -/
def execThrottleRelease (flow : Nat) (dp : Int) (held t : Nat) (s : State) : Out :=
  let s := s.at t
  .next (if held ≥ 100 * ms ∧ s.now ≥ s.cool.trigAt + 100 * ms ∧ flow ≥ s.get BELLOWS_FLCFG_FLMIN ∧ dp ≥ s.get BELLOWS_FLCFG_DPMIN then s.releaseThrottle else s)

/-- THROTTLE held for 2 s stops compute (R455). -/
def execTimeout (t : Nat) (s : State) : Out :=
  let s := s.at t
  match s.cool.throttleAt with
  | some a =>
    if s.now ≥ a + 2 * sec ∧ s.cool.byFlow ∧ s.on BELLOWS_SAFESTAT_CSTOP = false then
      .next (((s.put BELLOWS_SAFESTAT_TIMEOUT 1).driveShdn true).computeStop 0)
    else .next s
  | none => .next s

/-- A critical comparator trips (R457, R458). `kind`: 0 die, 1 stack, 2 outlet input 1 or 3; `reading` in 0.01 °C. -/
def execCritTrip (kind input : Nat) (reading : Int) (t : Nat) (s : State) : Out :=
  let s := s.at t
  let live : Bool := match kind with
    | 0 => s.domOn 192
    | 1 => s.domOn 192
    | 2 => input == 1 || input == 3
    | _ => false
  .next (if live ∧ reading ≥ critLimit s.pwr.tcrit kind then s.critical kind reading else s)

/-- SHDN_N goes low from outside, which stops compute and is recorded, or is let go (R456, R459). -/
def execShdnN (low : Bool) (t : Nat) (s : State) : Out :=
  let s := s.at t
  let was := s.cool.shdnExt
  let s := { s with cool := { s.cool with shdnExt := low } }
  .next (if low = false ∨ was then s
    else if s.on BELLOWS_SAFESTAT_CSTOP then s.action 0x0603 5 (6 * 256) 3 0 0
    else s.computeStop 3)

/-! ### Flow confirmation (R477, R598) -/

/-- Flow held for 500 ms with X0 and X1 open: confirmed, the fast path armed (R477). -/
def execFlowConfirm (flow : Nat) (dp : Int) (held t : Nat) (s : State) : Out :=
  let s := s.at t
  let open_ : Bool := s.get (TUYERE_VSTAT_STATE 8) == 4 && s.get (TUYERE_VSTAT_STATE 9) == 4
  if s.pwr.step ≠ 4 ∨ s.on BELLOWS_SAFESTAT_CSTOP ∨ open_ = false ∨ held < 500 * ms ∨
      flow < s.get BELLOWS_FLCFG_FLMIN ∨ dp < s.get BELLOWS_FLCFG_DPMIN then .next s
  else
    let s := { s with cool := { s.cool with armed := true } }
    .next (if s.pwr.vinBad then s else s.enableRegs)

/-- Flow not confirmed within 30 s (R477): the regulators stay off. -/
def execFlowUnconfirmed (t : Nat) (s : State) : Out :=
  let s := s.at t
  if s.pwr.step = 4 ∧ s.pwr.stop = false ∧ s.now ≥ s.pwr.stepAt + 30 * sec then
    let s := { s with pwr := { s.pwr with stop := true } }
    .next (s.action 0x060F 5 (6 * 256) (s.get (BELLOWS_FLOW_FLOW 0)) (u16 s.cool.dp) 0)
  else .next s

/-! ### Kicks and tachometers (R468–R470) -/

/-- A later kick attempt at its time (R468). -/
def execKickAttempt (c t : Nat) (s : State) : Out :=
  let s := s.at t
  match s.kickOf c with
  | some k =>
    let a := s.get (BELLOWS_FSTAT_ATTEMPT c)
    if c < 4 ∧ k.on = false ∧ a < 3 ∧ s.now ≥ k.start + 5 * (a + 1) * sec then
      let s := (s.setKick c (some { k with on := true })).put (BELLOWS_FSTAT_ATTEMPT c) (a + 1)
      let s := s.put (BELLOWS_FSTAT_DUTY c) 1000
      .next (s.action 0x060A 2 (6 * 256 + c) c (a + 1) (s.get (BELLOWS_FSTAT_RPM c)))
    else .next s
  | none => .next s

/-- A channel becomes FAULT (R469). -/
def State.fanFail (s : State) (c : Nat) : State :=
  let s := (s.setKick c none).setTach c none
  let s := ((s.put (BELLOWS_FSTAT_STATE c) 5).put (BELLOWS_FSTAT_DUTY c) 0).errSum BELLOWS_ERRSUM_FAN
  let s := [0, 1, 2, 3].foldl (fun (s : State) x =>
    if x ≠ c ∧ s.cool.driven.contains x ∧ s.get (BELLOWS_FSTAT_STATE x) ≠ 5 ∧ (s.kickOf x).isNone then
      s.put (BELLOWS_FSTAT_DUTY x) 1000 else s) s
  (s.action 0x060B 3 (6 * 256 + c) c (s.get (BELLOWS_FSTAT_ATTEMPT c)) (s.get (BELLOWS_FSTAT_RPM c))).alert 6 c 0x060B

/-- A kick attempt ends: on speed at 300 rpm, or after 3 s (R468, R469). -/
def execKickAttemptEnd (c rpm t : Nat) (s : State) : Out :=
  let s := s.at t
  match s.kickOf c with
  | some k =>
    if c ≥ 4 ∨ k.on = false then .next s
    else
      let s := s.put (BELLOWS_FSTAT_RPM c) (if rpm < 60 then 0 else min 65535 rpm)
      if rpm ≥ 300 then
        .next (((s.setKick c none).setTach c none).put (BELLOWS_FSTAT_STATE c) 1)
      else if s.now < k.start + (5 * s.get (BELLOWS_FSTAT_ATTEMPT c) + 3) * sec then .next s
      else if s.get (BELLOWS_FSTAT_ATTEMPT c) = 3 then .next (s.fanFail c)
      else .next ((s.setKick c (some { k with on := false })).put (BELLOWS_FSTAT_DUTY c) 0)
  | none => .next s

/-- A channel's source temperature, the last known where its input is excluded. -/
def State.fanTemp (s : State) (c : Nat) : Int :=
  (s.fanSource (s.get (BELLOWS_FCFG_SRC c))).getD (Tab.get (fun _ => (0 : Int)) s.cool.th c)

/-- Three expected tach periods missed: `gap` ns since the last pulse (R470). -/
def execTachLoss (c gap t : Nat) (s : State) : Out :=
  let s := s.at t
  let rpm := s.get (BELLOWS_FSTAT_RPM c)
  let ppr := s.get (BELLOWS_FCFG_PPR c) + 1
  if c ≥ 4 ∨ (s.get (BELLOWS_FSTAT_STATE c) ≠ 1 ∧ s.get (BELLOWS_FSTAT_STATE c) ≠ 6) ∨ rpm = 0 ∨ (s.kickOf c).isSome ∨ (s.tachOf c).isSome ∨
      gap * rpm * ppr < 3 * 60 * sec then .next s
  else
    let s := s.setTach c (some ⟨s.now, s.flowMean, s.fanTemp c, false⟩)
    let s := (s.put (BELLOWS_FSTAT_DUTY c) 1000).errSum BELLOWS_ERRSUM_FAN
    .next ([0, 1, 2, 3].foldl (fun (s : State) x =>
      if x ≠ c ∧ s.cool.driven.contains x ∧ s.get (BELLOWS_FSTAT_STATE x) ≠ 5 ∧ (s.kickOf x).isNone then
        s.put (BELLOWS_FSTAT_DUTY x) (min 1000 (s.get (BELLOWS_FSTAT_DUTY x) + 250)) else s) s)

/-- The class of a tachometer event (R470): 3 TACHLOST, 4 STALL, 0 not yet known. A channel without a role has no stated
class. -/
def State.tachClass (s : State) (c : Nat) (e : TachEv) : Nat × State :=
  match s.get (BELLOWS_FCFG_ROLE c) with
  | 1 => ((if s.get BELLOWS_CAPOUT_FSTATE = 0 ∧ 10 * s.flowMean ≥ 9 * e.flow then 3 else 4), s)
  | 2 => ((if s.fanTemp c > e.temp + 200 then 4 else if s.now ≥ e.at_ + 10 * sec then 3 else 0), s)
  | _ => let (v, s) := s.fresh 2; (3 + v, s)

/-- A tachometer event is classed (R470). -/
def execTachClassify (c t : Nat) (s : State) : Out :=
  let s := s.at t
  match s.tachOf c with
  | some e =>
    if c ≥ 4 ∨ e.classed then .next s
    else
      let (k, s) := s.tachClass c e
      if k = 0 then .next s
      else
        let s := (s.put (BELLOWS_FSTAT_STATE c) k).action 0x060C 2 (6 * 256 + c) c k (s.get (BELLOWS_FSTAT_RPM c))
        let s := s.setTach c (some { e with classed := true })
        .next (if k = 4 then s.startKick c else s)
  | none => .next s

/-- A TACHLOST channel's tachometer has been valid for 10 s (R470). -/
def execTachRecover (c held t : Nat) (s : State) : Out :=
  let s := s.at t
  .next (if c < 4 ∧ s.get (BELLOWS_FSTAT_STATE c) = 3 ∧ held ≥ 10 * sec then
    (s.setTach c none).put (BELLOWS_FSTAT_STATE c) 1 else s)

/-! ### Keep-alives (R467) -/

/-- A keep-alive from the host or the rack manager. -/
def State.keepAlive (s : State) : State := { s with cool := { s.cool with kaAt := s.now } }

/-- No keep-alive for KATIME: autonomous table mode. -/
def execAutoMode (t : Nat) (s : State) : Out :=
  let s := s.at t
  .next (if s.on BELLOWS_SAFESTAT_AUTO = false ∧ s.now ≥ s.cool.kaAt + s.get BELLOWS_KEEPALIVE_KATIME * sec then
    (s.put BELLOWS_SAFESTAT_AUTO 1).action 0x060D 2 (6 * 256) 1 0 0 else s)

end Sys2Proof.Machine
end

