-- ==== Sys2Proof/Machine/Operands.lean ====
section
/-! DEFINITION. Operand forms of the Anvil slots (R96, R97, R164, R165) and the shapes their operations share: what runs
in every executing Anvil, lane by lane or on one scalar. -/

namespace Sys2Proof.Machine

/-- A g register. -/
def Anvil.gr (a : Anvil) (n : Nat) : Word := Tab.get (fun _ => 0) a.g n

/-- A k register. -/
def Anvil.kr (a : Anvil) (n : Nat) : Word := Tab.get (fun _ => 0) a.k n

/-- A p register. -/
def Anvil.pr (a : Anvil) (n : Nat) : Bool := a.p.getLsbD n

/-- A scalar source (R97): file 1 g with aid and hid, file 2 k. -/
def State.scalar (s : State) (g file n : Nat) : Nat :=
  let a := s.anvil g
  if file = 1 then (if n = 32 then g % 16 else if n = 33 then g / 16 else (a.gr n).toNat) else (a.kr n).toNat

/-- 32 lanes from a list. -/
def packLanes (l : List Nat) : Row := BitVec.ofNat 1024 (l.foldr (fun x acc => x % 2 ^ 32 + 2 ^ 32 * acc) 0)

/-- A vector source (R164): a v register, or bits [31:0] of a scalar in every lane. -/
def State.vecSrc (s : State) (g file n : Nat) : Row :=
  if file = 0 then (s.anvil g).vr n else packLanes (List.replicate 32 (s.scalar g file n % 2 ^ 32))

/-- A 64-bit result in the destination file (R165). -/
def fileEff (file d x : Nat) : AEff :=
  match file with
  | 1 => .g d (BitVec.ofNat 64 x)
  | 2 => .k d (BitVec.ofNat 64 x)
  | _ => .p d (x % 2 ^ 64 != 0)

/-- A function of two lanes applied to every lane: the register and the flags raised. -/
def lanes2 (f : Nat → Nat → Nat × Flags) (a b : Row) : Row × Flags :=
  let l := (List.range 32).map (fun i => f (lane a i) (lane b i))
  (packLanes (l.map (·.1)), l.foldl (fun acc p => acc ||| p.2) 0)

/-- A function of three lanes applied to every lane. -/
def lanes3 (f : Nat → Nat → Nat → Nat × Flags) (a b c : Row) : Row × Flags :=
  let l := (List.range 32).map (fun i => f (lane a i) (lane b i) (lane c i))
  (packLanes (l.map (·.1)), l.foldl (fun acc p => acc ||| p.2) 0)

/-- One effect in every executing Anvil, with its activity class (R104, R106, R407). -/
def State.each (s : State) (pred lat cls : Nat) (f : Nat → AEff × Flags) : List Flight :=
  (s.executing pred).flatMap (fun g => [⟨lat, .anvil g (f g).1 (f g).2⟩, ⟨actLag g, .act g cls⟩])

/-- As `each`, for an operation that may draw: the generator after its draws (R82). -/
def State.eachSr (s : State) (pred lat cls : Nat) (f : Nat → Word → AEff × Flags × Word) : List Flight :=
  (s.executing pred).flatMap (fun g =>
    let st := s.srOf g
    let r := f g st
    [⟨lat, .anvil g r.1 r.2.1⟩, ⟨actLag g, .act g cls⟩] ++ (if r.2.2 = st then [] else [⟨0, .sr g r.2.2⟩]))

/-- Activity classes (R406). -/
def actMM16 : Nat := 0
/-- MM8. -/
def actMM8 : Nat := 1
/-- MM4. -/
def actMM4 : Nat := 2
/-- MRC. -/
def actMRC : Nat := 3
/-- VS. -/
def actVS : Nat := 4
/-- VF. -/
def actVF : Nat := 5
/-- VTX. -/
def actVTX : Nat := 6

/-- The slots of the M, V and L formats (R113). -/
def mSlots : List Nat := [1, 2]
/-- V0 and V1. -/
def vSlots : List Nat := [3, 4]
/-- L0 and L1. -/
def lSlots : List Nat := [5, 6]

end Sys2Proof.Machine
end

