-- ==== Sys2Proof/Machine/Exchange.lean ====
section
/-! DEFINITION. The X slot (R129, R130, R176–R184): exchange transfers, fills and fences, Crucible commands, and what
completes and admits them. -/

namespace Sys2Proof.Machine

/-! ### Slot words -/

/-- The Hearths a broadcast addresses (R129): those whose effective-mask field is not 0. -/
def State.maskedHearths (s : State) : List Nat := (List.range 10).filter (fun h => s.hearthField h != 0)

/-- Saturating unsigned `a + h × step` (R89, R129). -/
def advance (a h step : Nat) : Nat := min (a + h * step) (2 ^ 64 - 1)

/-- An exchange word: its effects hand one operation to each addressed unit. -/
def xeOp (op : Nat) (f : XEf) (kind : XKind) (mk : State → Nat → Nat × Nat) : SlotOp :=
  .plain [7] (xeLegal op f) [] (fun s =>
    (if f.bc = 0 then [f.hid] else s.maskedHearths).map (fun h =>
      let p := mk s h
      ⟨0, .xop h ⟨kind, f.tok, s.hammer.run.getD 0, p.1, p.2, s.sreg f.sl, false, []⟩⟩))

/-- The nine transfers (R176, R177, R179). -/
def execXfer (h : Hd) (op : Nat) (f : XEf) (s : State) : Out :=
  let o := xeOp op f (.xfer op) (fun s u =>
    let step := if f.bc = 0 then 0 else (s.sreg f.ss).toNat
    (advance (s.sreg f.sa).toNat u step, advance (s.sreg f.sd).toNat u step))
  s.slotOp h { o with legal := o.legal && within op 1 9 }

/-- `xfill.hbm` (R176): the pattern is not advanced (R129). -/
def execXfillHbm (h : Hd) (f : XEf) (s : State) : Out :=
  s.slotOp h (xeOp 0x0A f .fill (fun s u =>
    ((s.sreg f.sa).toNat, advance (s.sreg f.sd).toNat u (if f.bc = 0 then 0 else (s.sreg f.ss).toNat))))

/-- `xfence` (R181): it remembers the next sequence numbers of its unit's two Crucibles. -/
def execXfence (h : Hd) (f : XEf) (s : State) : Out :=
  s.slotOp h (xeOp 0x10 f (.fence (f.mod % 2 == 1)) (fun s u =>
    (s.get (CRUC_CSEQ_NEXT (2 * u)), s.get (CRUC_CSEQ_NEXT (2 * u + 1)))))

/-- A Crucible command word (R130, R182). -/
def xcOp (op : Nat) (f : XCf) : SlotOp :=
  .plain [7] (xcLegal op f) [] (fun s =>
    if f.bc = 0 then [⟨0, .crc f.stk (op == 0x41) f.tok (s.sreg f.sa).toNat⟩]
    else
      (s.maskedHearths.flatMap (fun h => [2 * h, 2 * h + 1])).map (fun k =>
        ⟨0, .crc k (op == 0x41) f.tok (advance (s.sreg f.sa).toNat k (s.sreg f.ss).toNat)⟩))

/-- `crc.cmd` (R182). -/
def execCrcCmd (h : Hd) (f : XCf) (s : State) : Out := s.slotOp h (xcOp 0x40 f)

/-- `crc.cmd.hi` (R182). -/
def execCrcCmdHi (h : Hd) (f : XCf) (s : State) : Out := s.slotOp h (xcOp 0x41 f)

/-- A bundle held because a queue was full, or because R34 withheld admission in a closed frame, is tried again, in the first
open frame (R150, R405). -/
def execAdmission (s : State) : Out :=
  match s.hammer.stall with
  | some .admission => .next s.toOpenFrame.tryIssue
  | _ => .next s

/-! ### Completion -/

/-- Job cause X_ADDR (R153). -/
def cX_ADDR : Nat := 0x20
/-- R153. -/
def cX_DATA : Nat := 0x21

/-- Source and destination address of row `r`; a fill has no source. -/
def XOp.row (o : XOp) (r : Nat) : Option Nat × Nat :=
  let (_, _, sp, dp) := shapeOf o.shape
  (match o.kind with | .xfer _ => some (o.src + r * sp) | _ => none, o.dst + r * dp)

/-- The first address of a refused transfer that breaks R177. -/
def State.xferBad (s : State) (o : XOp) : Nat :=
  let (rows, len, _, _) := shapeOf o.shape
  let k : Nat × Nat := match o.kind with | .xfer op => xferKinds op | _ => (0, 0)
  if (o.row 0).1.isSome ∧ o.src % 128 ≠ 0 then o.src
  else if o.dst % 128 ≠ 0 then o.dst
  else
    match (List.range rows).find? (fun r =>
      (match (o.row r).1 with | some a => !s.rowOk k.1 a len | none => false) || !s.rowOk k.2 (o.row r).2 len) with
    | none => o.dst
    | some r =>
      match (o.row r).1 with
      | some a => if s.rowOk k.1 a len then (o.row r).2 else a
      | none => (o.row r).2

/-- Why a range admitted earlier can no longer be reached: its stack has been fenced (R277) or its domain is off
(R597). -/
def State.lostRange (s : State) (a n : Nat) : Option Nat :=
  if s.rangeOk a n then none
  else if (segs a n).any (fun p => match region p.1 with | .hbm k _ => s.fenced k | _ => false) then some cX_DATA
  else some cX_ADDR

/-- One row of a transfer (R152, R178): moved whole, or the failure that ends the transfer, with the address of the side that is
out of reach, the failing source unit or the unit whose write fails its check (R264, R270, R272). -/
def State.moveRow (s : State) (u : Nat) (o : XOp) (r : Nat) : Option Fail × State :=
  let (_, len, _, _) := shapeOf o.shape
  let (src, dst) := o.row r
  let lost (a : Nat) : Option (Nat × Nat) := (s.lostRange a len).map (fun c => (c, a))
  match (src.bind lost).or (lost dst) with
  | some (c, a) => (some (Fail.of c 0 0 (locRefused a)), s)
  | none =>
    match src with
    | none =>
      let b := toBytes 8 o.src
      (none, (s.writeBytes dst (List.replicate (len / 8) b).flatten).moved false dst len)
    | some a =>
      match s.ueIn a len with
      | some k => (some (Fail.of cX_DATA 0 0 (locOf k)), s.reportUe 2 k)
      | none =>
        match (s.correctRange a len).takeTransit 2 dst len with
        | (some loc, s) => (some (Fail.of cX_DATA 0 0 loc), s)
        | (none, t) =>
          let t := t.writeBytes dst ((s.view o.stale).bytes a len)
          let t := (t.moved false a len).moved false dst len
          (none, if crossDie a dst then t.add (HEARTH_BRCNT_COUNT u) (len / 128) else t)

/-- The rows of a transfer in order, up to the first that fails. -/
def State.moveRows (s : State) (u : Nat) (o : XOp) : List Nat → Option Fail × State
  | [] => (none, s)
  | r :: l =>
    match s.moveRow u o r with
    | (some f, s) => (some f, s)
    | (none, s) => State.moveRows s u o l

/-- An exchange unit's queue. -/
def State.xqOf (s : State) (u : Nat) : List XOp := Tab.get (fun _ => []) s.xq u

/-- An exchange unit's queue replaced. -/
def State.setXq (s : State) (u : Nat) (l : List XOp) : State := { s with xq := Tab.set (fun _ => []) s.xq u l }

/-- Whether an operation is a fence. -/
def XOp.isFence (o : XOp) : Bool := match o.kind with | .fence _ => true | _ => false

/-- Transfer `idx` of a unit's queue has moved its rows (R178–R180): no fence stands before it (R181). -/
def execXferComplete (unit idx t : Nat) (s : State) : Out :=
  let q := s.xqOf unit
  match q[idx]? with
  | none => .next s
  | some o =>
    if o.isFence || (q.take idx).any XOp.isFence then .next s
    else
      let s := (s.at t).setXq unit (q.eraseIdx idx)
      let (rows, _, _, _) := shapeOf o.shape
      let (f, s) :=
        if o.refused then (some (Fail.of cX_ADDR 0 0 (locRefused (s.xferBad o))), s) else s.moveRows unit o (List.range rows)
      .next (s.tokDone o.job o.tok f)

/-- The fence at the head of a unit's queue completes (R181): every earlier transfer has, and with `cruc` every Crucible
command the job issued earlier to the unit's stacks. -/
def execXfenceComplete (unit : Nat) (s : State) : Out :=
  match s.xqOf unit with
  | [] => .next s
  | o :: q =>
    match o.kind with
    | .fence c =>
      let waits (k next : Nat) : Bool := (s.cruc k).live.any (fun x =>
        seqLt x.seq next && match x.src with | .job j _ => j == o.job | .host _ _ => false)
      if c && (waits (2 * unit) o.src || waits (2 * unit + 1) o.dst) then .next s
      else .next ((((s.setXq unit q).crucStat (2 * unit)).crucStat (2 * unit + 1)).tokDone o.job o.tok none)
    | _ => .next s

end Sys2Proof.Machine
end

