-- ==== Sys2Proof/Machine/Sha3.lean ====
section
/-! DEFINITION. SHAKE256 of FIPS 202, which the image digest (R139), firmware and tokens use: Keccak-f[1600] over 25
lanes kept as a list, lane x + 5y at place x + 5y. -/

namespace Sys2Proof.Machine

/-- A lane of the state. -/
def kLane (a : List Word) (x y : Nat) : Word := a.getD (x % 5 + 5 * (y % 5)) 0

/-- A state from its lanes. -/
def kMake (f : Nat → Nat → Word) : List Word := (List.range 25).map (fun i => f (i % 5) (i / 5))

/-- Rotation offsets by lane. -/
def kRot : List Nat :=
  [0, 1, 62, 28, 27, 36, 44, 6, 55, 20, 3, 10, 43, 25, 39, 41, 45, 15, 21, 8, 18, 2, 61, 56, 14]

/-- Round constants. -/
def kRc : List Word := [
  0x0000000000000001, 0x0000000000008082, 0x800000000000808a, 0x8000000080008000,
  0x000000000000808b, 0x0000000080000001, 0x8000000080008081, 0x8000000000008009,
  0x000000000000008a, 0x0000000000000088, 0x0000000080008009, 0x000000008000000a,
  0x000000008000808b, 0x800000000000008b, 0x8000000000008089, 0x8000000000008003,
  0x8000000000008002, 0x8000000000000080, 0x000000000000800a, 0x800000008000000a,
  0x8000000080008081, 0x8000000000008080, 0x0000000080000001, 0x8000000080008008]

/-- Column parity step. -/
def kTheta (a : List Word) : List Word :=
  let c := (List.range 5).map (fun x => (List.range 5).foldl (fun v y => v ^^^ kLane a x y) 0)
  let d := (List.range 5).map (fun x => c.getD ((x + 4) % 5) 0 ^^^ (c.getD ((x + 1) % 5) 0).rotateLeft 1)
  kMake (fun x y => kLane a x y ^^^ d.getD x 0)

/-- Rotation and transposition steps. -/
def kRhoPi (a : List Word) : List Word :=
  -- lane (x, y) moves to (y, 2x + 3y); so place (x, y) takes lane (x + 3y, x)
  kMake (fun x y => let i := (x + 3 * y) % 5 + 5 * x; (a.getD i 0).rotateLeft (kRot.getD i 0))

/-- Non-linear step and round constant. -/
def kChi (a : List Word) (rc : Word) : List Word :=
  kMake (fun x y =>
    let v := kLane a x y ^^^ (~~~ kLane a (x + 1) y &&& kLane a (x + 2) y)
    if x = 0 ∧ y = 0 then v ^^^ rc else v)

/-- Keccak-f[1600]. -/
def keccakF (a : List Word) : List Word := kRc.foldl (fun a rc => kChi (kRhoPi (kTheta a)) rc) a

/-- A little-endian word from up to eight bytes. -/
def leWord : List Byte → Word
  | [] => 0
  | b :: r => (leWord r <<< 8) ||| b.setWidth 64

/-- A block of 136 bytes as lanes. -/
def kBlock (b : List Byte) : List Word := (List.range 25).map (fun i => leWord ((b.drop (8 * i)).take 8))

/-- Absorb `n` blocks. -/
def kAbsorb : Nat → List Byte → List Word → List Word
  | 0, _, a => a
  | n + 1, m, a => kAbsorb n (m.drop 136) (keccakF (List.zipWith (· ^^^ ·) a (kBlock (m.take 136))))

/-- The bytes of a lane. -/
def laneBytes (w : Word) : List Byte := (List.range 8).map (fun i => (w >>> (8 * i)).setWidth 8)

/-- Squeeze `n` blocks. -/
def kSqueeze : Nat → List Word → List Byte
  | 0, _ => []
  | n + 1, a => (a.take 17).flatMap laneBytes ++ kSqueeze n (keccakF a)

/-- The message padded for SHAKE256. -/
def shakePad (m : List Byte) : List Byte :=
  let k := 136 - m.length % 136
  if k = 1 then m ++ [0x9F] else m ++ 0x1F :: List.replicate (k - 2) 0 ++ [0x80]

/-- SHAKE256 of a message, `n` bytes of output. -/
def shake256 (m : List Byte) (n : Nat) : List Byte :=
  let p := shakePad m
  (kSqueeze (n / 136 + 1) (kAbsorb (p.length / 136) p (List.replicate 25 0))).take n

end Sys2Proof.Machine
end

