-- ==== Sys2Proof/Machine/Ed448.lean ====
section
/-! DEFINITION. Ed448 of RFC 8032 with a context string, over the 64-byte SHAKE256 digest of the signed bytes (R603). A
point of the curve x² + y² = 1 − 39081 x² y² is kept as (X : Y : Z). -/

namespace Sys2Proof.Machine

/-- The field's prime. -/
def edP : Nat := 2 ^ 448 - 2 ^ 224 - 1

/-- The group's order. -/
def edL : Nat := 2 ^ 446 - 13818066809895115352007386748515426880336692474882178609894547503885

/-- The curve's constant −39081, modulo p. -/
def edD : Nat := edP - 39081

/-- Field operations. -/
def fpAdd (a b : Nat) : Nat := (a + b) % edP
/-- See `fpAdd`. -/
def fpSub (a b : Nat) : Nat := (a + edP - b % edP) % edP
/-- See `fpAdd`. -/
def fpMul (a b : Nat) : Nat := a * b % edP

/-- A power by squaring, over `n` bits of the exponent. -/
def fpPow (a : Nat) : Nat → Nat → Nat
  | 0, _ => 1
  | n + 1, e =>
    let r := fpPow (fpMul a a) n (e / 2)
    if e % 2 = 1 then fpMul a r else r

/-- A point. -/
structure EdPt where
  x : Nat
  y : Nat
  z : Nat
deriving DecidableEq, Repr

/-- The neutral point. -/
def EdPt.id : EdPt := ⟨0, 1, 1⟩

/-- The base point. -/
def EdPt.base : EdPt :=
  ⟨224580040295924300187604334099896036246789641632564134246125461686950415467406032909029192869357953282578032075146446173674602635247710,
    298819210078481492676017930443930673437544040154080242095928241372331506189835876003536878655418784733982303233503462500531545062832660,
    1⟩

/-- Addition, also of a point to itself. -/
def EdPt.add (p q : EdPt) : EdPt :=
  let a := fpMul p.z q.z
  let b := fpMul a a
  let c := fpMul p.x q.x
  let d := fpMul p.y q.y
  let e := fpMul (fpMul edD c) d
  let f := fpSub b e
  let g := fpAdd b e
  let h := fpMul (fpAdd p.x p.y) (fpAdd q.x q.y)
  ⟨fpMul (fpMul a f) (fpSub (fpSub h c) d), fpMul (fpMul a g) (fpSub d c), fpMul f g⟩

/-- A multiple, over `n` bits of the scalar. -/
def EdPt.mul (p : EdPt) : Nat → Nat → EdPt
  | 0, _ => EdPt.id
  | n + 1, k =>
    let r := EdPt.mul (p.add p) n (k / 2)
    if k % 2 = 1 then p.add r else r

/-- Equality of points. -/
def EdPt.same (p q : EdPt) : Bool := fpMul p.x q.z == fpMul q.x p.z && fpMul p.y q.z == fpMul q.y p.z

/-- A point's 57 bytes as a number: y, and the low bit of x in the top bit. -/
def EdPt.encode (p : EdPt) : Nat :=
  let i := fpPow p.z 448 (edP - 2)
  fpMul p.y i + fpMul p.x i % 2 * 2 ^ 455

/-- The point that 57 bytes name, if any. -/
def edDecode (n : Nat) : Option EdPt :=
  let y := n % 2 ^ 455
  let sign := n / 2 ^ 455 % 2
  if y ≥ edP then none
  else
    let u := fpSub (fpMul y y) 1
    let v := fpSub (fpMul edD (fpMul y y)) 1
    let u3v := fpMul (fpMul (fpMul u u) u) v
    let u5v3 := fpMul (fpMul u3v (fpMul u u)) (fpMul v v)
    let x := fpMul u3v (fpPow u5v3 448 ((edP - 3) / 4))
    if fpMul v (fpMul x x) ≠ u then none
    else if x = 0 ∧ sign = 1 then none
    else some ⟨if x % 2 = sign then x else edP - x, y, 1⟩

/-- A number from bytes, least significant first. -/
def leNat : List Byte → Nat
  | [] => 0
  | b :: r => b.toNat + 256 * leNat r

/-- The low `n` bytes of a number, least significant first. -/
def leList (n v : Nat) : List Byte := (List.range n).map (fun i => BitVec.ofNat 8 (v / 2 ^ (8 * i)))

/-- The bytes of a string. -/
def ascii (t : String) : List Byte := t.toList.map (fun c => BitVec.ofNat 8 c.toNat)

/-- RFC 8032's dom4 with flag 0. -/
def dom4 (ctx : List Byte) : List Byte := ascii "SigEd448" ++ [0, BitVec.ofNat 8 ctx.length] ++ ctx

/-- Whether 114 bytes are a signature of `msg` by a key under a context. -/
def edVerify (key : List Byte) (ctx msg sig : List Byte) : Bool :=
  if key.length ≠ 57 ∨ sig.length ≠ 114 then false
  else
    let r := sig.take 57
    let sc := leNat (sig.drop 57)
    match edDecode (leNat key), edDecode (leNat r) with
    | some a, some rp =>
      if sc ≥ edL then false
      else
        let k := leNat (shake256 (dom4 ctx ++ r ++ key ++ msg) 114) % edL
        let four (p : EdPt) : EdPt := p.mul 3 4
        (four (EdPt.base.mul 446 sc)).same ((four rp).add (four (a.mul 446 k)))
    | _, _ => false

/-- The secret scalar of a private key. -/
def edScalar (h : List Byte) : Nat := leNat (h.take 56) / 4 * 4 % 2 ^ 447 + 2 ^ 447

/-- The public key of a private key. -/
def edPublic (sk : List Byte) : List Byte := leList 57 (EdPt.base.mul 448 (edScalar (shake256 sk 114))).encode

/-- The signature of `msg` under a context. -/
def edSign (sk ctx msg : List Byte) : List Byte :=
  let h := shake256 sk 114
  let a := edScalar h
  let pk := edPublic sk
  let r := leNat (shake256 (dom4 ctx ++ h.drop 57 ++ msg) 114) % edL
  let rb := leList 57 (EdPt.base.mul 446 r).encode
  let k := leNat (shake256 (dom4 ctx ++ rb ++ pk ++ msg) 114) % edL
  rb ++ leList 57 ((r + k * a) % edL)

/-- SHAKE256 with 512 bits of output. -/
def digest64 (m : List Byte) : List Byte := shake256 m 64

/-- A signed object's check (R603). -/
def signedBy (key ctx body sig : List Byte) : Bool := edVerify key ctx (digest64 body) sig

end Sys2Proof.Machine
end

