-- ==== Sys2Proof/Machine/MgmtCore.lean ====
section
/-! DEFINITION. The management command protocol (R551–R559): which datagrams are accepted, the responses kept for each
requester, notifications. -/

namespace Sys2Proof.Machine

/-- The address in an allow-list entry (R561). -/
def State.rmAddr (s : State) (k : Nat) : BitVec 128 := s.rd (MGMT_RMADDRH k) ++ s.rd (MGMT_RMADDRL k)

/-- Whether every allow-list entry is 0. -/
def State.listEmpty (s : State) : Bool := [0, 1, 2, 3].all (fun k => s.rmAddr k == 0)

/-- The allow-list entry of a source. -/
def State.listEntry (s : State) (src : BitVec 128) : Option Nat :=
  [0, 1, 2, 3].find? (fun k => s.rmAddr k != 0 && s.rmAddr k == src)

/-- Whether a source may send requests (R553): an entry of the list, or any link-local address while the list is empty. -/
def State.srcAllowed (s : State) (src : BitVec 128) : Bool :=
  if s.listEmpty then src.toNat / 2 ^ 118 == 0x3FA else (s.listEntry src).isSome

/-- Whether a datagram is well formed (R554). -/
def Dgram.ok (d : Dgram) (cmd : Nat) : Bool :=
  let h := toBytes 1 d.ver ++ toBytes 1 cmd ++ toBytes 1 d.flags ++ toBytes 1 d.status ++ toBytes 4 d.seq ++ toBytes 2 d.len
    ++ toBytes 2 d.rsv
  d.ver == 1 && d.flags / 4 == 0 && d.len == d.pay.length && d.len ≤ 1400 && d.rsv == 0 && d.crc == crc32c (h ++ d.pay)

/-- Whether the management port answers a command: firmware runs, or the ROM is in recovery and the command is IDENT or
FW_UPDATE (R551, R609). -/
def State.mgmtServes (s : State) (cmd : Nat) : Bool :=
  s.pwr.alive && s.on MGMT_CFG_ENABLE && s.on MGMT_STAT_LINK &&
    (s.secb.running.isSome || (s.pwr.step == 2 && s.pwr.stop && (cmd == 0x01 || cmd == 0x11)))

/-- Responses kept for a requester (R555). -/
def State.kept (s : State) (src : BitVec 128) : List Reply :=
  ((s.mgmt.seen.find? (fun x => x.src == src)).map (fun x => x.resp)).getD []

/-- A response kept: the 16 most recent SEQ values stay, and while the list is empty four requesters (R555). -/
def State.keep (s : State) (src : BitVec 128) (r : Reply) : State :=
  let l := s.kept src
  let l := if l.length < 16 then l
    else match l.find? (fun x => l.all (fun y => seqLe x.seq y.seq)) with
      | some x => l.filter (fun y => y.seq != x.seq)
      | none => l.drop 1
  let others := s.mgmt.seen.filter (fun x => x.src != src)
  let others := if others.length < 4 then others else others.drop 1
  { s with mgmt := { s.mgmt with seen := others ++ [⟨src, l ++ [r]⟩] } }

/-- A requester is heard from: it becomes the most recent. -/
def State.heard (s : State) (src : BitVec 128) : State :=
  match s.mgmt.seen.find? (fun x => x.src == src) with
  | some x => { s with mgmt := { s.mgmt with seen := s.mgmt.seen.filter (fun y => y.src != src) ++ [x] } }
  | none => s

/-- A request of the update's holder (R611): its 60 s start afresh. -/
def State.touchUpdate (s : State) (src : BitVec 128) : State :=
  match s.secb.update with
  | some u =>
    if u.src = src ∧ s.now < u.at_ + 60 * sec then { s with secb := { s.secb with update := some { u with at_ := s.now } } } else s
  | none => s

/-- A response sent. -/
def State.reply (s : State) (r : Reply) : State :=
  { s with mgmt := { s.mgmt with wire := s.mgmt.wire ++ [{ r with vid := s.mgmtVid }] } }

/-- Whether a datagram reaches the command port (R334, R551, R552): a good frame with the port's tag, whole, to one of the port's
addresses and its UDP port, with a right UDP checksum. -/
def State.dgramHere (s : State) (d : Dgram) : Bool :=
  s.frameOk ⟨4, 0, d.fcs, d.vid, d.frag⟩ && d.sum && s.owns 4 d.dst && d.dport == s.get MGMT_CFG_UDPPORT

/-- Notifications that waited for a requester are sent (R559). -/
def State.flushNtf (s : State) : State :=
  match s.notifyDst with
  | none => s
  | some a =>
    let wait := s.mgmt.ntf.filter (fun x => x.sent.isNone)
    let s := { s with
      mgmt := { s.mgmt with ntf := s.mgmt.ntf.map (fun (x : Ntf) => if x.sent.isNone then { x with sent := some s.now } else x) } }
    wait.foldl (fun (s : State) x => s.notifyFrame a x) s

/-- Status codes of R558. -/
def stOK : Nat := 0
/-- See `stOK`. -/
def stBAD : Nat := 1
/-- See `stOK`. -/
def stREFUSED : Nat := 2
/-- See `stOK`. -/
def stNOT_READY : Nat := 3
/-- See `stOK`. -/
def stSTATE : Nat := 4
/-- See `stOK`. -/
def stSTALE : Nat := 5
/-- See `stOK`. -/
def stTOKEN : Nat := 6

/-- What a command does: its status, its response's payload, the state it leaves. -/
abbrev MgmtAns := Nat × List Byte × State

/-- A request that had no effect. -/
def State.refuse (s : State) (st : Nat) : MgmtAns := (st, [], s)

/-- A request done. -/
def State.okay (s : State) : MgmtAns := (0, [], s)

/-- A malformed or unwelcome datagram counted. -/
def State.mgmtDrop (s : State) (f : Fd) : State := (s.inc f).put BELLOWS_ERRSUM_MGMT 1

/-- A request executed at most once and answered (R553–R556), to the port it came from (assumption log 157). -/
def State.request (s : State) (cmd : Nat) (src : BitVec 128) (d : Dgram) (t : Nat) (f : State → MgmtAns) : Out :=
  let s := s.at t
  if s.mgmtServes cmd = false then .next s
  else if s.dgramHere d = false then .next (s.dropFrame 4)
  else if s.srcAllowed src = false then .next (s.mgmtDrop MGMT_STAT_DROPSRC)
  else if d.ok cmd = false then .next (s.mgmtDrop MGMT_STAT_BADREQ)
  else if d.flags ≠ 0 then .next s
  else
    let s := (s.heard src).touchUpdate src
    let s := { s with mgmt := { s.mgmt with lastSrc := some src } }.flushNtf
    let l := s.kept src
    match l.find? (fun x => x.seq == d.seq) with
    | some r => .next (s.reply { r with dport := d.sport })
    | none =>
      if l.length ≥ 16 ∧ l.all (fun x => seqLt d.seq x.seq) then .next (s.reply ⟨src, cmd, 1, stSTALE, d.seq, [], d.sport, none⟩)
      else
        let s := if s.secb.running.isSome then s.raise 31 else s
        let (st, pay, s) := f s
        let r : Reply := ⟨src, cmd, 1, st, d.seq, pay, d.sport, none⟩
        .next ((s.reply r).keep src r)

/-- The link of the management port comes up (R551): the port announces itself where firmware runs (R552), and deliveries held for
the rack manager follow (R565). -/
def execMgmtPortLinkUp (t : Nat) (s : State) : Out :=
  let s := s.at t
  if s.pwr.alive = false ∨ s.on MGMT_CFG_ENABLE = false then .next s
  else
    let up := s.on MGMT_STAT_LINK
    let s := s.put MGMT_STAT_LINK 1
    .next ((if s.mgmtUp && !up then s.announce 4 else s).targetBack 3)

/-- The link of the management port goes down (R551). -/
def execMgmtPortLinkDown (t : Nat) (s : State) : Out :=
  let s := (s.at t).put MGMT_STAT_LINK 0
  .next (s.setPort 4 { s.port 4 with dadUntil := none })

/-- An unacknowledged notification is resent every 200 ms, dropped after 10 s (R559). -/
def State.resendOne (s : State) (x : Ntf) : State :=
  if s.now ≥ x.raised + 10 * sec then
    let s := { s with mgmt := { s.mgmt with ntf := s.mgmt.ntf.filter (fun y => y.seq != x.seq) } }
    let s := (s.mgmtDrop MGMT_STAT_NTFDROP).ntfSync
    s.msgComplete x.src 3
  else
    match x.sent, s.notifyDst with
    | some a, some dst =>
      if s.now ≥ a + 200 * ms then
        let s := { s with
          mgmt := { s.mgmt with
            ntf := s.mgmt.ntf.map (fun (y : Ntf) => if y.seq = x.seq then { y with sent := some s.now } else y) } }
        s.notifyFrame dst x
      else s
    | _, _ => s

/-- The resend timer of the notifications. -/
def execNotifyResend (t : Nat) (s : State) : Out :=
  let s := s.at t
  .next (s.mgmt.ntf.foldl State.resendOne s)

/-- NOTIFY_ACK (R557, R559, R570). -/
def execNotifyAck (src : BitVec 128) (d : Dgram) (t : Nat) (s : State) : Out :=
  s.request 0x13 src d t (fun s =>
    if d.pay.length ≠ 4 then s.refuse stBAD
    else
      match s.mgmt.ntf.find? (fun x => x.seq == leAt d.pay 0 4) with
      | some x =>
        let s := { s with mgmt := { s.mgmt with ntf := s.mgmt.ntf.filter (fun y => y.seq != x.seq) } }
        (s.ntfSync.msgComplete x.src 3).okay
      | none => s.okay)

end Sys2Proof.Machine
end

