-- ==== Sys2Proof/Machine/Security.lean ====
section
/-! DEFINITION. Secure boot, identity and attestation (R603–R623): firmware slots, updates, the owner's records, tokens,
counters, attestation reports. -/

namespace Sys2Proof.Machine

/-- A security event's source field (R574). -/
def secSrc : Nat := 13 * 256

/-- The serial number's bytes. -/
def serialBytes : List Byte := toBytes 8 Config.serial

/-- The vendor root key. -/
def rootKey : List Byte := toBytes 57 Config.rootKey

/-- The device identity key's private part (R604). -/
def identityKey : List Byte := shake256 (ascii "OKF-DIK-v1" ++ toBytes 32 Config.otpSeed ++ serialBytes) 57

/-- The ordering code in ASCII, zero-filled to 16 bytes (R5, R613). -/
def orderCode : List Byte :=
  let l := ascii "OKF-AC20-16H-" ++ ascii (if Config.screening = 0 then "S" else "E")
  l ++ List.replicate (16 - l.length) 0

/-- The registers that show the security block follow it (R623). -/
def State.secSync (s : State) : State :=
  let b := s.secb
  let s := s.putB SEC_SECSTAT_CLAIMED b.claimed
  let s := (s.putB SEC_SECSTAT_UPD b.update.isSome).putB SEC_SECSTAT_TRIAL b.trial.isSome
  let s := s.put SEC_SECSTAT_SLOT (b.running.getD 0)
  b.cnt.foldl (fun (s : State) p => s.put ⟨SEC_CNT (p.1 / 8), p.1 % 8 * 8 + 7, p.1 % 8 * 8⟩ p.2) s

/-- A counter's value. -/
def State.counter (s : State) (i : Nat) : Nat := Tab.get (fun _ => 0) s.secb.cnt i

/-- A counter raised (R618): it never falls. -/
def State.raiseCounter (s : State) (i v : Nat) : State :=
  let old := s.counter i
  if v ≤ old then s
  else
    let s := { s with secb := { s.secb with cnt := Tab.set (fun _ => 0) s.secb.cnt i v } }
    s.secSync.event 0x0B04 1 secSrc i old v

/-! ### Firmware slots (R606–R608) -/

/-- A slot. -/
def State.slot (s : State) (k : Nat) : FwSlot := if k = 0 then s.secb.slotA else s.secb.slotB

/-- A slot replaced. -/
def State.setSlot (s : State) (k : Nat) (f : FwSlot) : State :=
  if k = 0 then { s with secb := { s.secb with slotA := f } } else { s with secb := { s.secb with slotB := f } }

/-- Bytes of a slot. -/
def FwSlot.read (f : FwSlot) (o n : Nat) : List Byte := (List.range n).map (fun i => Tab.get (fun _ => 0xFF) f.bytes (o + i))

/-- A field of a slot's header. -/
def FwSlot.num (f : FwSlot) (o n : Nat) : Nat := ofBytes (f.read o n)

/-- SVN of a slot's image. -/
def FwSlot.svn (f : FwSlot) : Nat := f.num 0x08 4
/-- KEYSVN. -/
def FwSlot.keysvn (f : FwSlot) : Nat := f.num 0x18 4
/-- LEN. -/
def FwSlot.bodyLen (f : FwSlot) : Nat := f.num 0x0C 4

/-- Whether the header is as R606 requires. -/
def FwSlot.headerOk (f : FwSlot) : Bool :=
  f.read 0 4 == [0x46, 0x4C, 0x42, 0x57] && f.num 4 2 == 1 && f.num 6 2 == 0x00A1 && f.bodyLen % 64 == 0 && 64 ≤ f.bodyLen &&
    f.bodyLen ≤ 4193920 && f.num 0x1C 4 == 0 && f.num 0x59 7 == 0 && f.num 0xD2 46 == 0

/-- Header and body, which SIG covers and FWMEAS digests (R606). -/
def FwSlot.signed (f : FwSlot) : List Byte := f.read 0 (256 + f.bodyLen)

/-- The first check of R607 that a slot fails; 0 none. `norErr`: a byte read with a NOR read error. -/
def State.slotCheck (s : State) (k : Nat) (norErr : Bool) : Nat :=
  let f := s.slot k
  if f.headerOk = false then 1
  else if signedBy rootKey (ascii "OKF-FWKEY") (f.read 0x20 57 ++ f.read 0x18 4) (f.read 0x60 114) = false then 2
  else if f.keysvn < s.counter 1 then 3
  else if f.svn < s.counter 0 then 4
  else if signedBy (f.read 0x20 57) (ascii "OKF-FW") f.signed (f.read (256 + f.bodyLen) 114) = false then 5
  else if norErr then 6
  else if f.rejected then 7
  else 0

/-! ### Updates (R611, R612) -/

/-- The slot an update writes: the one that is not running; with none running the spec names neither. -/
def State.updateSlot (s : State) : Nat × State :=
  match s.secb.running with
  | some 0 => (1, s)
  | some _ => (0, s)
  | none => s.fresh 2

/-- The subcommand of an FW_UPDATE payload. -/
def fwSub (d : Dgram) : Nat := leAt d.pay 0 1

/-- An update ends. -/
def State.endUpdate (s : State) : State := { s with secb := { s.secb with update := none } }.secSync

/-- Whether another requester holds an update (R611). -/
def State.updateHeld (s : State) (src : BitVec 128) : Bool := s.secb.update.any (fun u => u.src != src)

/-- 60 s without a request from the holder abandon an update (R611). -/
def State.lapseUpdate (s : State) : State :=
  if s.secb.update.any (fun u => u.at_ + 60 * sec ≤ s.now) then s.endUpdate else s

/-- BEGIN. -/
def State.fwBegin (s : State) (src : BitVec 128) (len : Nat) : MgmtAns :=
  if len = 0 ∨ len > 4194304 then s.refuse stBAD
  else
    let (k, s) := s.updateSlot
    let s := s.setSlot k { FwSlot.empty with invalid := true }
    let s := { s with secb := { s.secb with update := some ⟨src, s.now, k, len⟩, staged := none } }
    s.secSync.okay

/-- DATA. -/
def State.fwData (s : State) (off : Nat) (data : List Byte) : MgmtAns :=
  match s.secb.update with
  | none => s.refuse stSTATE
  | some u =>
    if off + data.length > u.len ∨ data.length > 1392 then s.refuse stBAD
    else
      let f := s.slot u.slot
      let b := (data.zipIdx).foldl (fun t p => Tab.set (fun _ => (0xFF : Byte)) t (off + p.2) p.1) f.bytes
      (s.setSlot u.slot { f with bytes := b }).okay

/-- END. -/
def State.fwEnd (s : State) (norErr : Bool) : MgmtAns :=
  match s.secb.update with
  | none => s.refuse stSTATE
  | some u =>
    let s := s.endUpdate
    if s.slotCheck u.slot norErr = 0 then
      let f := s.slot u.slot
      let s := s.setSlot u.slot { f with invalid := false }
      let s := { s with secb := { s.secb with staged := some u.slot } }
      (s.event 0x0B03 1 secSrc u.slot f.svn f.keysvn).okay
    else s.refuse stTOKEN

/-- ACTIVATE: a module reset follows 10 ms after the response (R594). -/
def State.fwActivate (s : State) : MgmtAns :=
  match s.secb.staged with
  | none => s.refuse stSTATE
  | some k =>
    let s := { s with
      secb := { s.secb with trial := some k, tries := 0, update := none }
      pwr := { s.pwr with modAt := some (s.now + 10 * ms, 6) } }
    s.secSync.okay

/-- COMMIT. -/
def State.fwCommit (s : State) : MgmtAns :=
  match s.secb.running with
  | none => s.refuse stSTATE
  | some k =>
    let f := s.slot k
    let s := (s.raiseCounter 0 f.svn).raiseCounter 1 f.keysvn
    { s with secb := { s.secb with trial := none } }.secSync.okay

/-- An FW_UPDATE request (R611). -/
def State.fwUpdate (s : State) (src : BitVec 128) (d : Dgram) (norErr : Bool) : MgmtAns :=
  let off := leAt d.pay 4 4
  let s := s.lapseUpdate
  if d.pay.length < 8 ∨ leAt d.pay 1 3 ≠ 0 ∨ fwSub d > 4 then s.refuse stBAD
  else if s.updateHeld src then s.refuse stSTATE
  else
    match fwSub d with
    | 0 => s.fwBegin src off
    | 1 => s.fwData off (d.pay.drop 8)
    | 2 => s.fwEnd norErr
    | 3 => s.fwActivate
    | _ => s.fwCommit

/-- FW_UPDATE, BEGIN (R611). -/
def execFwUpdateBegin (src : BitVec 128) (d : Dgram) (t : Nat) (s : State) : Out :=
  s.request 0x11 src d t (fun s => s.fwUpdate src d false)

/-- FW_UPDATE, DATA (R611). -/
def execFwUpdateData (src : BitVec 128) (d : Dgram) (t : Nat) (s : State) : Out :=
  s.request 0x11 src d t (fun s => s.fwUpdate src d false)

/-- FW_UPDATE, END (R611); `norErr`: the staged image reads with a NOR error (R607). -/
def execFwUpdateEnd (src : BitVec 128) (d : Dgram) (norErr : Bool) (t : Nat) (s : State) : Out :=
  s.request 0x11 src d t (fun s => s.fwUpdate src d norErr)

/-- FW_UPDATE, ACTIVATE (R611). -/
def execFwUpdateActivate (src : BitVec 128) (d : Dgram) (t : Nat) (s : State) : Out :=
  s.request 0x11 src d t (fun s => s.fwUpdate src d false)

/-- FW_UPDATE, COMMIT (R611, R612). -/
def execFwUpdateCommit (src : BitVec 128) (d : Dgram) (t : Nat) (s : State) : Out :=
  s.request 0x11 src d t (fun s => s.fwUpdate src d false)

/-- 60 s without a request from the holder abandon an update (R611). -/
def execFwUpdateAbandon (t : Nat) (s : State) : Out :=
  .next (s.at t).lapseUpdate

/-! ### Tokens (R619, R620) -/

/-- CHAL as a token and a claim carry it: CHAL1, then CHAL0 (R619). -/
def State.chal (s : State) : List Byte := toBytes 8 (s.rd (SEC_CHAL 1)).toNat ++ toBytes 8 (s.rd (SEC_CHAL 0)).toNat

/-- Whether a token of one of the types given is accepted (R619, R620). -/
def State.tokenOk (s : State) (k : List Byte) (types : List Nat) : Bool :=
  let ty := leAt k 4 1
  let signer := leAt k 5 1
  let param := leAt k 6 2
  let key := if signer = 0 then rootKey else s.secb.ownerKey
  let who : Bool := match ty with
    | 1 => if s.secb.claimed then signer == 1 else signer == 0
    | 2 => signer == 0
    | 3 => (param == 1 && signer == 1 && s.secb.claimed) || (param == 2 && signer == 0)
    | _ => false
  k.length == 162 && k.take 4 == [0x46, 0x4C, 0x54, 0x4B] && types.contains ty && who && (ty == 3 || param == 0) &&
    (k.drop 8).take 8 == serialBytes && (k.drop 16).take 16 == s.chal && leAt k 0x24 12 == 0 &&
    signedBy key (ascii "OKF-TOKEN") (k.take 48) (k.drop 48)

/-- Who sent a request, as TOKEN_REFUSED names it (R580): the allow-list entry; what it names without a list is open. -/
def State.requester (s : State) (src : BitVec 128) : Nat × State :=
  match s.listEntry src with
  | some k => (k, s)
  | none => s.fresh (2 ^ 32)

/-- A token or signature refused (R579, R620, R622). -/
def State.tokenRefused (s : State) (cmd : Nat) (src : BitVec 128) : MgmtAns :=
  let (w, s) := s.requester src
  let s := (s.inc SEC_SECSTAT_TOKREF).put BELLOWS_ERRSUM_SEC 1
  ((s.eventIrq 32 0x0007 2 secSrc cmd w 0)).refuse stTOKEN

/-- EVENT_CLEAR's clear of the circulating area (R579). -/
def State.clearCirc (s : State) (tser : Nat) : State :=
  let old := s.evrec.circ.filter (fun e => e.seq ≥ 256)
  let gone (q : Nat) : Bool := old.any (fun e => e.seq == q)
  let s := { s with
    evrec := { s.evrec with
      circ := s.evrec.circ.filter (fun e => e.seq < 256), nor := s.evrec.nor.filter (fun q => !gone q), lastAlone := none } }
  let s := (s.inc EVREC_STAT_CLEARS).put EVREC_HEAD_WGEN (s.get EVREC_HEAD_WGEN + 1)
  match old.head?, old.getLast? with
  | some a, some b => s.event 0x0001 1 (10 * 256) a.seq b.seq tser
  | _, _ =>
    let (x, s) := s.fresh (2 ^ 32)
    let (y, s) := s.fresh (2 ^ 32)
    s.event 0x0001 1 (10 * 256) x y tser

/-- EVENT_CLEAR's permanent clear (R579): both areas are empty, PCLEAR is record 0. -/
def State.clearPerm (s : State) (tser : Nat) : State :=
  let s := { s with
    evrec := { s.evrec with perm := [], circ := [], nor := [], drops := none, lastAlone := none }
    pwr := { s.pwr with norSeq := none } }
  let s := (s.put EVREC_HEAD_NEXT 0).put EVREC_HEAD_WGEN (s.get EVREC_HEAD_WGEN + 1)
  s.event 0x0002 1 (10 * 256) 0 0 tser

/-- EVENT_CLEAR (R557, R579, R620). -/
def execEventClear (src : BitVec 128) (d : Dgram) (t : Nat) (s : State) : Out :=
  s.request 0x0D src d t (fun s =>
    let ok := s.tokenOk d.pay [1, 2]
    let s := s.newChal
    if ok then (if leAt d.pay 4 1 = 1 then s.clearCirc (leAt d.pay 0x20 4) else s.clearPerm (leAt d.pay 0x20 4)).okay
    else s.tokenRefused 0x0D src)

/-- DEBUG_UNLOCK (R557, R620, R621). -/
def execDebugUnlock (src : BitVec 128) (d : Dgram) (t : Nat) (s : State) : Out :=
  s.request 0x12 src d t (fun s =>
    let ok := s.tokenOk d.pay [3]
    let s := s.newChal
    if ok then
      let lv := leAt d.pay 6 2
      let s := s.put SEC_SECSTAT_DEBUG (max lv (s.get SEC_SECSTAT_DEBUG))
      (s.eventIrq 32 0x0B07 2 secSrc lv (leAt d.pay 0x20 4) (leAt d.pay 5 1)).okay
    else s.tokenRefused 0x12 src)

/-! ### The owner's records (R615–R617) -/

/-- A CONFIG_WRITE record's parts: TYPE, CFGSEQ, body, signed bytes, signature; absent where the layout is broken. -/
def cfgParts (p : List Byte) : Option (Nat × Nat × List Byte × List Byte × List Byte) :=
  let n := leAt p 8 4
  if p.length < 126 ∨ p.length ≠ 12 + n + 114 ∨ leAt p 1 3 ≠ 0 then none
  else some (leAt p 0 1, leAt p 4 4, (p.drop 12).take n, p.take (12 + n), p.drop (12 + n))

/-- CLAIM (R615, R616): the digest is burned, CLAIMED last. -/
def State.claimDevice (s : State) (key sig : List Byte) : MgmtAns :=
  let h : BitVec 512 := BitVec.ofNat 512 (ofBytes (digest64 key))
  if key.length ≠ 57 then s.refuse stBAD
  else if s.secb.claimed ∨ (s.secb.ownerh ≠ 0 ∧ s.secb.ownerh ≠ h) ∨
      signedBy key (ascii "OKF-CLAIM") (serialBytes ++ s.chal ++ key) sig = false then s.refuse stTOKEN
  else
    let s := { s with secb := { s.secb with ownerh := h, claimed := true, ownerKey := key } }
    let s := s.secSync
    (s.eventIrq 32 0x0B05 1 secSrc 0 (h.toNat % 2 ^ 32) (h.toNat / 2 ^ 32 % 2 ^ 32)).okay

/-- Whether the owner signed a record and its CFGSEQ is new (R617). -/
def State.ownerSigned (s : State) (seq : Nat) (body sig : List Byte) : Bool :=
  signedBy s.secb.ownerKey (ascii "OKF-CONFIG") body sig && seq > s.secb.cfgSeq

/-- A CONFIG_WRITE record (R615–R617). -/
def State.configWrite (s : State) (p : List Byte) : MgmtAns :=
  match cfgParts p with
  | none => s.refuse stBAD
  | some (ty, seq, body, signed, sig) =>
    match ty with
    | 1 => s.claimDevice body sig
    | 2 =>
      if s.secb.claimed = false then s.refuse stSTATE
      else if s.ownerSigned seq signed sig = false then s.refuse stTOKEN
      else
        let s := { s with secb := { s.secb with config := p, cfgSeq := seq } }
        (s.event 0x0B06 1 secSrc seq ty 0).okay
    | 3 =>
      let i := leAt body 0 1
      let v := leAt body 1 1
      if s.secb.claimed = false then s.refuse stSTATE
      else if body.length ≠ 4 ∨ i < 32 ∨ i > 63 ∨ v > 64 ∨ leAt body 2 2 ≠ 0 then s.refuse stBAD
      else if s.ownerSigned seq signed sig = false then s.refuse stTOKEN
      else
        let s := { s with secb := { s.secb with cfgSeq := seq } }
        (s.raiseCounter i v).okay
    | _ => s.refuse stBAD

/-- CONFIG_WRITE with a CLAIM record. -/
def execClaim (src : BitVec 128) (d : Dgram) (t : Nat) (s : State) : Out :=
  s.request 0x0F src d t (fun s => s.configWrite d.pay)

/-- CONFIG_WRITE with a CONFIG record. -/
def execConfig (src : BitVec 128) (d : Dgram) (t : Nat) (s : State) : Out :=
  s.request 0x0F src d t (fun s => s.configWrite d.pay)

/-- CONFIG_WRITE with a COUNTER record. -/
def execCounter (src : BitVec 128) (d : Dgram) (t : Nat) (s : State) : Out :=
  s.request 0x0F src d t (fun s => s.configWrite d.pay)

/-! ### Attestation (R613, R614) -/

/-- The running firmware's measurement (R606). -/
def State.fwMeas (s : State) : List Byte :=
  match s.secb.running with
  | some k => digest64 (s.slot k).signed
  | none => List.replicate 64 0

/-- Images by IMGBASE. -/
def insertImg (i : Img) : List Img → List Img
  | [] => [i]
  | j :: r => if i.base ≤ j.base then i :: j :: r else j :: insertImg i r

/-- The accepted images with the lowest bases, at most 12, and whether there are more (R614). -/
def State.reportImages (s : State) : List Img × Bool :=
  let l := s.tongs.images.foldl (fun l i => insertImg i l) []
  (l.take 12, l.length > 12)

/-- The STATE word of a report. -/
def State.reportState (s : State) (valid more : Bool) : Nat :=
  let b (x : Bool) (k : Nat) : Nat := if x then 2 ^ k else 0
  s.get SEC_SECSTAT_DEBUG + b s.secb.claimed 2 + b (s.secb.running == some 1) 3 + b s.secb.trial.isSome 4 + s.pwr.tcrit * 32
    + s.pwr.slotId * 128 + b valid 10 + b more 11

/-- A report (R613). -/
def State.report (s : State) (nonce : List Byte) (imgs : Bool) : List Byte :=
  let valid : Bool := imgs && s.get BELLOWS_PWRSTAT_STATE == 4
  let (l, more) := if valid then s.reportImages else ([], false)
  let cfg := if s.secb.config.isEmpty then List.replicate 64 0 else digest64 s.secb.config
  let own := if s.secb.claimed then toBytes 64 s.secb.ownerh.toNat else List.replicate 64 0
  let body := [0x46, 0x4C, 0x41, 0x54] ++ toBytes 2 1 ++ toBytes 2 0x00A1 ++ serialBytes ++ orderCode ++ nonce ++ s.fwMeas ++ cfg
    ++ own ++ (List.range 64).map (fun i => BitVec.ofNat 8 (s.counter i)) ++ toBytes 4 s.hours ++ toBytes 4 s.pwr.pcyc
    ++ toBytes 8 (s.reportState valid more) ++ toBytes 2 l.length ++ toBytes 14 0
    ++ l.flatMap (fun i => toBytes 4 i.base ++ toBytes 4 0 ++ toBytes 64 i.digest.toNat)
  body ++ edSign identityKey (ascii "OKF-ATTEST") (digest64 body)

/-- An ATTEST request (R613). -/
def State.attestReq (s : State) (p : List Byte) : MgmtAns :=
  let sel := leAt p 32 1
  if p.length ≠ 40 ∨ leAt p 33 7 ≠ 0 ∨ sel > 4 then s.refuse stBAD
  else if sel ≤ 1 then (0, s.report (p.take 32) (sel == 1), s)
  else (0, (Config.cert sel).take 1024, s)

/-- ATTEST, a report (SEL 0 and 1). -/
def execAttest (src : BitVec 128) (d : Dgram) (t : Nat) (s : State) : Out :=
  s.request 0x10 src d t (fun s => s.attestReq d.pay)

/-- ATTEST, a certificate (SEL 2 to 4). -/
def execAttestCert (src : BitVec 128) (d : Dgram) (t : Nat) (s : State) : Out :=
  s.request 0x10 src d t (fun s => s.attestReq d.pay)

/-! ### The ROM (R607–R610) -/

/-- Whether a slot is valid, and the check it fails: a slot marked invalid that passes every check of R607 fails none that
has a code. -/
def State.slotValid (s : State) (k : Nat) (norErr : Bool) : Bool × Nat × State :=
  let c := s.slotCheck k norErr
  if c ≠ 0 then (false, c, s)
  else if (s.slot k).invalid then let (v, s) := s.fresh (2 ^ 32); (false, v, s)
  else (true, 0, s)

/-- The slot of a normal choice (R608): the higher SVN, slot A on a tie. -/
def State.bestSlot (s : State) (a b : Bool) : Option Nat :=
  if a && b then some (if (s.slot 0).svn ≥ (s.slot 1).svn then 0 else 1)
  else if a then some 0
  else if b then some 1
  else none

/-- The choice of R608 from the slots' validity: the slot that runs, if any. -/
def State.chooseSlot (s : State) (a b : Bool) : Option Nat × State :=
  match s.secb.trial with
  | none => (s.bestSlot a b, s)
  | some k =>
    let ok := if k = 0 then a else b
    if ok && s.secb.tries < 2 then (some k, { s with secb := { s.secb with tries := s.secb.tries + 1 } })
    else
      let run := s.bestSlot (k != 0 && a) (k == 0 && b)
      let s := s.setSlot k { s.slot k with rejected := true }
      let tries := s.secb.tries
      let s := { s with secb := { s.secb with trial := none } }
      let (w, s) := match run with | some r => (r, s) | none => s.fresh (2 ^ 32)
      (run, (s.put BELLOWS_ERRSUM_SEC 1).eventIrq 32 0x0B02 2 secSrc k w tries)

end Sys2Proof.Machine
end

