-- ==== Sys2Proof/Machine/Tuyere.lean ====
section
/-! DEFINITION. The valve and pump output stages' events (R504–R524, R589): the high side, the profile sequencer, aborts,
closing and motion, duty events, coil protection, VVALVE. The register writes FIXCMD and VPROF are with the other
writes. -/

namespace Sys2Proof.Machine

/-! ### The high side (R504, R508, R517) -/

/-- The oldest request of a bank that has not waited longer than PKWAIT, the lower channel on a tie (R517). -/
def State.nextRequest (s : State) (b : Nat) : Option Nat :=
  (bankChannels b).foldl (fun acc c =>
    match (s.valve c).reqAt.filter (fun r => s.now ≤ r + s.get (TUYERE_BANK_PKWAIT b) * ms), acc with
    | none, _ => acc
    | some _, none => some c
    | some r, some d => if r < ((s.valve d).reqAt.getD 0) then some c else acc) none

/-- A channel begins BOOST or PEAK (R507): a late event returns its delay (R515, R517). -/
def State.vBegin (s : State) (c st : Nat) : State :=
  let v := s.valve c
  let late : Bool := s.get (TUYERE_VCMD_MODE c) == 1 && v.evOn && !v.hold && s.now > v.evStart
  let s := if late then (s.vAcc c ((s.now - v.evStart) / us)).vForce c else s
  let s := (s.setHolder (bankOf c) (some c)).setValve c { s.valve c with reqAt := none, hold := false, start := s.now, peakAt := none }
  s.enterValve c st

/-- A bank grants its high side to the oldest request (R508, R517). -/
def execHighSideGrant (b t : Nat) (s : State) : Out :=
  let s := s.at t
  if b ≥ 3 ∨ (s.holder b).isSome ∨ s.domOn 198 = false then .next s
  else
    match s.nextRequest b with
    | none => .next s
    | some c =>
      let v := s.valve c
      if c < 8 ∨ v.noBoost then .next (s.vBegin c 3)
      else if s.on TUYERE_BOOST_READY then .next (s.vBegin c 2)
      else
        let w := v.bwait.getD (s.now + s.get TUYERE_BOOST_BWAIT * ms)
        .next (s.setValve c { v with reqAt := none, bwait := some w })

/-- VBOOST, in 10 mV, as the charger reports it: at BRDY a waiting X channel asks for the high side again (R508). -/
def execBoostReady (vb t : Nat) (s : State) : Out :=
  let s := s.at t
  let ready : Bool := vb ≥ 25 * s.get TUYERE_BOOST_BRDY
  let s := (s.put TUYERE_BOOST_VBOOST vb).putB TUYERE_BOOST_READY ready
  .next ([8, 9].foldl (fun (s : State) c =>
    let v := s.valve c
    match v.bwait with
    | some w => if ready ∧ s.vst c = 1 ∧ s.now ≤ w then s.setValve c { v with bwait := none, reqAt := some s.now } else s
    | none => s) s)

/-- BWAIT expires: the X channel runs PEAK from VVALVE alone (R508). -/
def execBoostnr (c t : Nat) (s : State) : Out :=
  let s := s.at t
  let v := s.valve c
  match v.bwait with
  | some w =>
    if (c = 8 ∨ c = 9) ∧ s.vst c = 1 ∧ s.now ≥ w then
      let s := s.setValve c { v with bwait := none, noBoost := true, reqAt := some s.now }
      let s := (s.put (TUYERE_VSTAT_BOOSTNR c) 1).inc (TUYERE_VDIAG_BNRCNT c)
      .next (s.vEvent 0x0803 2 c (s.get TUYERE_BOOST_VBOOST))
    else .next s
  | none => .next s

/-- A request not granted within PKWAIT is refused (R517): the event is skipped; a FIXED channel waits for the next OPEN
command. -/
def execPkrefuse (c t : Nat) (s : State) : Out :=
  let s := s.at t
  let v := s.valve c
  match v.reqAt with
  | some r =>
    if c < 10 ∧ s.vst c = 1 ∧ s.now ≥ r + s.get (TUYERE_BANK_PKWAIT (bankOf c)) * ms then
      let s := if s.get (TUYERE_VCMD_MODE c) = 1 ∧ v.evOn then (s.vAcc c ((v.evEnd - v.evStart) / us)).vForce c else s
      let s := s.setValve c { s.valve c with evOn := false, want := v.want && s.get (TUYERE_VCMD_MODE c) != 1, reqAt := none }
      let s := (s.enterValve c 0).put (TUYERE_VSTAT_PKREFUSE c) 1
      let s := (s.inc (TUYERE_VDIAG_REFCNT c)).errSum BELLOWS_ERRSUM_VALVE
      .next (s.vEvent 0x0802 2 c ((s.now - r) / ms))
    else .next s
  | none => .next s

/-! ### The profile (R507, R509) -/

/-- Tenths of a millisecond, at the end of an 8-bit field where they exceed it. -/
def tenths (ns : Nat) : Nat := min 255 (ns / 100000)

/-- The coil current `cur`, in 10 mA, reaches IPEAK, or VBOOST `vb`, in 10 mV, has fallen to VVALVE + 1 V (R507,
R509). -/
def execPeakReached (c cur vb t : Nat) (s : State) : Out :=
  let s := s.at t
  let v := s.valve c
  let st := s.vst c
  if c ≥ 10 ∨ (st ≠ 2 ∧ st ≠ 3) ∨ v.peakAt.isSome then .next s
  else if cur ≥ s.get (TUYERE_VPROF_IPEAK c) then
    let d := s.now - v.start
    let s := (s.put (TUYERE_VDIAG_TTP c) (tenths d)).put (TUYERE_VSTAT_ICOIL c) (min 511 cur)
    if d < s.get (TUYERE_VPROF_TPKMIN c) * 100000 then
      .next ((s.put (TUYERE_VSTAT_TTPLOW c) 1).vAbort c (tenths d))
    else if d > s.get (TUYERE_VPROF_TPKMAX c) * 100000 then
      .next ((s.put (TUYERE_VSTAT_TTPHIGH c) 1).vAbort c (tenths d))
    else .next ((s.setValve c { v with peakAt := some s.now }).enterValve c 3)
  else if st = 2 ∧ vb ≤ s.get TUYERE_VVMON_VVALVE + 100 then
    .next ((s.put TUYERE_BOOST_VBOOST vb).enterValve c 3)
  else .next s

/-- IPEAK not reached by TPKMAX (R509). -/
def execTtphigh (c t : Nat) (s : State) : Out :=
  let s := s.at t
  let v := s.valve c
  let st := s.vst c
  if c < 10 ∧ (st = 2 ∨ st = 3) ∧ v.peakAt = none ∧ s.now ≥ v.start + s.get (TUYERE_VPROF_TPKMAX c) * 100000 then
    .next ((s.put (TUYERE_VSTAT_TTPHIGH c) 1).vAbort c (tenths (s.now - v.start)))
  else .next s

/-- The branch is opened in order at bring-up: X0 when X1 holds; flow is confirmed after both hold (R522, R598). -/
def State.branchOrder (s : State) (c : Nat) : State :=
  if c = 9 ∧ s.tuyere.seq then { s with tuyere := { s.tuyere with seq := false } }.vRetarget 8
  else if c = 8 ∧ s.pwr.step = 3 ∧ s.pwr.stop = false then
    { s with pwr := { s.pwr with step := 4, stepAt := s.now }, secb := { s.secb with tries := 0 } }
  else s

/-- TPEAK has passed at IPEAK: HOLD, and the high side is freed (R507). -/
def execTpeakEnd (c t : Nat) (s : State) : Out :=
  let s := s.at t
  let v := s.valve c
  match v.peakAt with
  | some p =>
    if c < 10 ∧ s.vst c = 3 ∧ s.now ≥ p + s.get (TUYERE_VPROF_TPEAK c) * 100000 then
      let s := (s.freeHigh c).setValve c { v with aborts := 0, noBoost := false }
      .next ((s.enterValve c 4).branchOrder c)
    else .next s
  | none => .next s

/-- An overcurrent (R504): a channel above 3.5 A, or, with `hs`, the high side of `c`'s bank above 8.0 A; `cur` in 10 mA. -/
def execOvercur (c : Nat) (hs : Bool) (cur t : Nat) (s : State) : Out :=
  let s := s.at t
  let one (s : State) (x : Nat) : State := (s.put (TUYERE_VSTAT_OVERCUR x) 1).vAbort x (min 65535 cur)
  if c ≥ 10 then .next s
  else if hs then
    if cur ≤ 800 then .next s
    else
      let s := s.put (TUYERE_BANK_IHS (bankOf c)) (min 65535 cur)
      .next (((bankChannels (bankOf c)).filter s.energised).foldl one s)
  else .next (if cur > 350 ∧ s.energised c then one (s.put (TUYERE_VSTAT_ICOIL c) (min 511 cur)) c else s)

/-- A FIXED channel commanded OPEN retries 100 ms after an abort (R509). -/
def execAbortRetry (c t : Nat) (s : State) : Out :=
  let s := s.at t
  let v := s.valve c
  match v.abortAt with
  | some a =>
    if c < 10 ∧ s.get (TUYERE_VCMD_MODE c) = 2 ∧ s.now ≥ a + 100 * ms ∧ s.vWanted c ∧ (s.vst c = 0 ∨ s.vst c = 5) then
      .next ((s.setValve c { v with abortAt := none, want := true }).vOpen c)
    else .next s
  | none => .next s

/-! ### Closing and motion (R518, R523) -/

/-- The times of an isolation that a current zero gives (R523). -/
def State.noteZero (s : State) (c tz : Nat) : State :=
  match s.tuyere.iso with
  | some i =>
    let d := tenths (tz - i.at_)
    if s.on BELLOWS_SAFESTAT_LEAKISO = false then s
    else if c = 8 then s.put TUYERE_XSEQ_TX0ZERO d
    else if c = 9 then s.put TUYERE_XSEQ_TX1ZERO d
    else s
  | none => s

/-- X0's kink in an isolation starts the 0.5 ms to X1's release (R523). -/
def State.noteKink (s : State) (c : Nat) : State :=
  match s.tuyere.iso with
  | some i =>
    if c = 8 ∧ s.on BELLOWS_SAFESTAT_LEAKISO ∧ i.kinkAt = none then
      { s with tuyere := { s.tuyere with iso := some { i with kinkAt := some s.now } } }
    else s
  | none => s

/-- The armature kink is found within KWIN of the release; the coil current was zero at `tz` (R518). -/
def execKink (c tz t : Nat) (s : State) : Out :=
  let s := s.at t
  let v := s.valve c
  if c < 10 ∧ s.vst c = 5 ∧ v.kchk ∧ s.now ≤ v.since + s.get (TUYERE_VKINK_KWIN c) * ms then
    let s := s.put (TUYERE_VDIAG_TCLOSE c) (tenths (s.now - v.since))
    let s := s.setValve c { v with missed := false }
    .next (((s.noteZero c tz).noteKink c).vIdle c)
  else .next s

/-- No kink by the end of KWIN: a no-motion fault where the release is checked (R518), else the closing just ends. -/
def execNomotion (c tz t : Nat) (s : State) : Out :=
  let s := s.at t
  let v := s.valve c
  if c < 10 ∧ s.vst c = 5 ∧ s.now ≥ v.since + s.get (TUYERE_VKINK_KWIN c) * ms then
    let s := s.noteZero c tz
    if v.kchk = false then .next (s.vIdle c)
    else
      let s := ((s.put (TUYERE_VSTAT_NOMOTION c) 1).inc (TUYERE_VDIAG_NMCNT c)).put (TUYERE_VDIAG_TCLOSE c) 0
      let s := s.setValve c { v with missed := true }
      let s := s.errSum BELLOWS_ERRSUM_VALVE
      let s := if c ≥ 8 ∨ v.missed = false then s.vEvent 0x0804 2 c (s.get (TUYERE_VKINK_KWIN c)) else s
      .next (s.vIdle c)
  else .next s

/-- X1's release in an isolation (R523): 0.5 ms after X0's kink, or XGAP after X0's release. -/
def execX1Release (t : Nat) (s : State) : Out :=
  let s := s.at t
  match s.tuyere.iso with
  | some i =>
    let kink : Bool := match i.kinkAt with | some k => s.now ≥ k + 500 * us | none => false
    if s.on BELLOWS_SAFESTAT_LEAKISO ∧ i.x1At = none ∧ (kink ∨ s.now ≥ i.at_ + s.get TUYERE_XSEQ_XGAP * 100000) then
      let s := { s with tuyere := { s.tuyere with iso := some { i with x1At := some s.now } } }
      .next ((s.put TUYERE_XSEQ_TX1REL (tenths (s.now - i.at_))).vRetarget 9)
    else .next s
  | none => .next s

/-! ### Duty events (R515, R516, R519) -/

/-- A bank's period in ns. -/
def State.vper (s : State) (b : Nat) : Nat := s.get (TUYERE_BANK_VPER b) * 100 * ms

/-- The start of a bank's present period. -/
def State.periodAt (s : State) (b : Nat) : Nat := Tab.get (fun _ => 0) s.tuyere.period b

/-- A period starts in every channel of a bank (R515): the energised fraction of the last one is shown. -/
def execPeriodStart (b t : Nat) (s : State) : Out :=
  let s := s.at t
  let p := s.periodAt b
  let per := s.vper b
  if b ≥ 2 ∨ s.domOn 198 = false ∨ s.now < p + per then .next s
  else
    let s := (bankChannels b).foldl (fun (s : State) c =>
      let s := s.put (TUYERE_VSTAT_DUTYAPP c) (min 1000 ((s.valve c).onSince p s.now * 1000 / (s.now - p)))
      s.setValve c { s.valve c with forced := false, seen := false }) s
    let at_ := p + (s.now - p) / per * per
    .next { s with tuyere := { s.tuyere with period := Tab.set (fun _ => 0) s.tuyere.period b at_ } }

/-- `period_start` of R515 in µs: on-time and the new accumulator. -/
def onTime (d vper tonmin toffmin : Nat) (acc : Int) : Nat × Int :=
  let want : Int := ((d * vper / 1000 : Nat) : Int) + acc
  let ton : Int := if want < tonmin then 0 else if (vper : Int) - want < toffmin then vper else want
  (ton.toNat, clampI (want - ton) (-(vper : Int)) vper)

/-- A channel's event begins at its slot (R515, R516, R519). -/
def execEventStart (c t : Nat) (s : State) : Out :=
  let s := s.at t
  let b := bankOf c
  let v := s.valve c
  let at_ := s.periodAt b + s.get (TUYERE_VCMD_SLOT c) * s.vper b / 256
  if c ≥ 8 ∨ s.get (TUYERE_VCMD_MODE c) ≠ 1 ∨ s.now < at_ ∨ v.seen ∨ s.domOn 198 = false then
    .next s
  else
    let r := onTime v.duty (s.vper b / us) (s.get (TUYERE_VCMD_TONMIN c) * 10000) (s.get (TUYERE_VCMD_TOFFMIN c) * 10000) v.acc
    let limited : Bool := !s.thermalProt c && s.winPct c ≥ s.get (TUYERE_VPROT_LIMIT c)
    if limited ∧ r.1 > 0 then
      let s := s.setValve c { v with evStart := at_, evEnd := at_, evOn := false, acc := r.2 + r.1, limited := true, seen := true }
      .next (((s.put (TUYERE_VSTAT_DLIM c) 1).vForce c).vRetarget c)
    else
      .next ((s.setValve c { v with evStart := at_, evEnd := at_ + r.1 * us, evOn := r.1 > 0, acc := r.2, limited := false, seen := true }).vRetarget c)

/-- An event ends at its scheduled end once its profile has begun; over a gap shorter than TOFFMIN the channel stays open
(R516). -/
def execEventEnd (c t : Nat) (s : State) : Out :=
  let s := s.at t
  let v := s.valve c
  let nextAt := v.evStart + s.vper (bankOf c)
  if c ≥ 8 ∨ v.evOn = false ∨ s.now < v.evEnd ∨ (s.vst c = 1 ∧ v.hold = false) then .next s
  else if nextAt < v.evEnd + s.get (TUYERE_VCMD_TOFFMIN c) * 10 * ms then .next s
  else .next ((s.setValve c { v with evOn := false }).vRetarget c)

/-- The duty window is at its limit, or no longer (R519): a running event ends and its lost on-time is returned. -/
def execDlim (c t : Nat) (s : State) : Out :=
  let s := s.at t
  let v := s.valve c
  if c ≥ 8 ∨ s.thermalProt c then .next s
  else if s.winPct c ≥ s.get (TUYERE_VPROT_LIMIT c) then
    if v.limited ∨ s.energised c = false then .next s
    else
      let lost := if s.get (TUYERE_VCMD_MODE c) = 1 ∧ v.evOn then (v.evEnd - s.now) / us else 0
      let s := s.setValve c { v with limited := true, evOn := false, acc := v.acc + lost }
      .next (((s.put (TUYERE_VSTAT_DLIM c) 1).vForce c).vRetarget c)
  else if v.limited then .next ((s.setValve c { v with limited := false }).vRetarget c)
  else .next s

/-! ### The coil model (R520) -/

/-- One step of the thermal model; `irms2`: mean squared current in 10⁻⁶ A². -/
def State.coilStep (s : State) (c irms2 : Nat) : FVal :=
  let v := s.valve c
  let tamb := deg (s.ntcEff (s.get (TUYERE_VPROT_TSRC c)))
  let r := fMul (fDiv (fI (s.get (TUYERE_VPROT_RCOIL c))) (fI 100))
    (fAdd (fI 1) (fMul (fC 393 100000) (fSub v.tc (fI 20))))
  let a := fExp (fDiv (fC 1 100).negate (fI (s.get (TUYERE_VPROT_TAU c))))
  let heat := fMul (fMul (fMul (fDiv (fI (s.get (TUYERE_VPROT_RTH c))) (fI 10)) (fDiv (fI irms2) (fI 1000000))) r) (fSub (fI 1) a)
  fAdd (fAdd tamb (fMul (fSub v.tc tamb) a)) heat

/-- The two hysteresis states of a coil after a step. -/
def State.coilState (s : State) (c : Nat) (tc : FVal) : Bool × Bool :=
  let v := s.valve c
  let tw : Int := s.get (TUYERE_VPROT_TWARN c)
  let tm : Int := s.get (TUYERE_VPROT_TMAX c)
  (if v.warm then fLe (fI (tw - 5)) tc else fLe (fI tw) tc, if v.hot then fLe (fI (tm - 10)) tc else fLe (fI tm) tc)

/-- Every 10 ms: the coil's temperature and what it makes of the channel (R520). -/
def execCoilModel (c irms2 t : Nat) (s : State) : Out :=
  let s := s.at t
  let step := s.now / (10 * ms)
  if c ≥ 10 ∨ s.thermalProt c = false ∨ s.domOn 198 = false ∨ step ≤ (s.valve c).step then .next s
  else
    let v := s.valve c
    let tc := s.coilStep c irms2
    let w := s.coilState c tc
    let cross : Bool := w.1 != v.warm || w.2 != v.hot
    let s := s.setValve c { v with tc := tc, warm := w.1, hot := w.2, step := step }
    let s := s.put (TUYERE_VSTAT_TCOIL c) (clip16 (fRne (fMul tc (fI 100))))
    let s := if w.1 then s.put (TUYERE_VSTAT_COILWARN c) 1 else s
    let s := if w.2 then s.put (TUYERE_VSTAT_COILHOT c) 1 else s
    let s := if cross then s.vEvent 0x0805 2 c (clip16 (fRne (fMul tc (fI 100)))) else s
    .next ((s.showCurrent c).vRetarget c)

/-! ### VVALVE (R524, R589) -/

/-- VVALVE below 9.0 V for 1 ms closes every channel (R524). -/
def execVvlow (mv held t : Nat) (s : State) : Out :=
  let s := s.at t
  let s := s.put TUYERE_VVMON_VVALVE (min 65535 mv)
  if mv ≥ 900 ∨ held < ms ∨ s.tuyere.low then .next s
  else
    let s := { s with tuyere := { s.tuyere with low := true } }
    let s := s.put TUYERE_VVMON_VVLOW 1
    .next ((s.action 0x0806 2 (8 * 256) 0 1 mv).vRetargetAll)

/-- VVALVE back at 10.5 V for 10 ms: each channel returns to its commanded state (R524). -/
def execVvalveRecover (mv held t : Nat) (s : State) : Out :=
  let s := s.at t
  let s := s.put TUYERE_VVMON_VVALVE (min 65535 mv)
  if mv < 1050 ∨ held < 10 * ms ∨ s.tuyere.low = false then .next s
  else
    let s := { s.setDom 198 true with tuyere := { s.tuyere with low := false } }
    .next ((s.action 0x0806 2 (8 * 256) 0 0 mv).vRetargetAll)

/-- VVALVE below 9.0 V for 1 s: the Tuyere domain is switched off and keeps no state (R589, R591). -/
def execTuyereDomainOff (mv held t : Nat) (s : State) : Out :=
  let s := s.at t
  if mv ≥ 900 ∨ held < sec ∨ s.domOn 198 = false then .next s
  else
    let s := s.setDom 198 false
    .next { s with
      csr := s.csr.filter (fun e => e.1 < 0x380000020000 || 0x380000030000 ≤ e.1)
      tuyere := { Tuyere.reset with low := true, iso := s.tuyere.iso } }

end Sys2Proof.Machine
end

