-- ==== Sys2Proof/Machine/Bringup.lean ====
section
/-! DEFINITION. Supply, bring-up and the resets that begin by themselves (R584–R602, R607–R610, R642, R653, R654). -/

namespace Sys2Proof.Machine

/-- The source field of a Bellows event (R574). -/
def bellowsSrc : Nat := 6 * 256

/-- A RESET record (R598, R602). -/
def State.resetRecord (s : State) : State :=
  s.event 0x0A00 1 bellowsSrc (s.get BELLOWS_RSTSTAT_DOMAIN) (s.get BELLOWS_RSTSTAT_INDEX) (s.get BELLOWS_RSTSTAT_CAUSE)

/-! ### VSB12 and the mating contact (R586, R593, R598 step 1, R642) -/

/-- VSB12 at 11.0 V for 10 ms with the module mated: cold reset is released (R593, R598 step 1). -/
def execColdReset (vsb held t : Nat) (s : State) : Out :=
  let s := s.at t
  if s.pwr.alive ∨ s.pwr.mate = false ∨ vsb < 1100 ∨ held < 10 * ms then .next s
  else
    let s := { s with
      pwr := { s.pwr with
        alive := true, step := 2, stepAt := s.now, bootAt := s.now, stop := false
        pcyc := min (s.pwr.pcyc + 1) (2 ^ 24 - 1) } }
    .next (s.put BELLOWS_PWRSTAT_VSB12 (min 65535 vsb))

/-- MATE_N low for 10 ms connects VSB12 (R642). -/
def execMateConnect (held t : Nat) (s : State) : Out :=
  let s := s.at t
  .next (if held ≥ 10 * ms then { s with pwr := { s.pwr with mate := true } } else s)

/-- MATE_N high for 20 µs disconnects VSB12, a Bellows reset (R642). -/
def execMateDisconnect (held t : Nat) (s : State) : Out :=
  let s := s.at t
  if held < 20 * us ∨ s.pwr.mate = false then .next s
  else
    let s := if s.pwr.alive then s.coldReset false 0 else s
    .next { s with pwr := { s.pwr with mate := false } }

/-- VSB12 below 10.8 V for 100 µs, or back at 11.2 V (R586): the warning and its release. -/
def execVsb12Warn (mv held t : Nat) (s : State) : Out :=
  let s := s.at t
  if s.pwr.alive = false then .next s
  else
    let s := s.put BELLOWS_PWRSTAT_VSB12 (min 65535 mv)
    if mv < 1080 ∧ held ≥ 100 * us ∧ s.pwr.vsbLow = false then
      let s := { s with pwr := { s.pwr with vsbLow := true } }
      let s := (s.put BELLOWS_PWRSTAT_VSBWARN 1).event 0x0A02 2 bellowsSrc mv 0 0
      .next s.supplyLevel
    else if mv ≥ 1120 ∧ s.pwr.vsbLow then .next { s with pwr := { s.pwr with vsbLow := false } }.supplyLevel
    else .next s

/-- VSB12 below 10.2 V for 10 µs: a Bellows reset (R586, R593). -/
def execVsb12Sag (mv held t : Nat) (s : State) : Out :=
  let s := s.at t
  .next (if mv < 1020 ∧ held ≥ 10 * us ∧ s.pwr.alive then s.coldReset false 4 else s)

/-! ### VIN48 (R586, R587) -/

/-- VIN48 leaves its range: a compute reset without keep, regulators off. -/
def State.vinReset (s : State) (mv cause : Nat) : State :=
  let s := { s with pwr := { s.pwr with vinBad := true } }
  let s := s.put BELLOWS_PWRSTAT_VIN48 (min 65535 mv)
  if s.on BELLOWS_PWRSTAT_REGON then s.computeReset false true cause else s

/-- VIN48 below 38.0 V for 2 µs (R586). -/
def execVin48Undervoltage (mv held t : Nat) (s : State) : Out :=
  let s := s.at t
  .next (if mv < 3800 ∧ held ≥ 2 * us ∧ s.pwr.alive ∧ s.pwr.vinBad = false then s.vinReset mv 2 else s)

/-- VIN48 above 62.0 V for 10 µs (R586). -/
def execVin48Overvoltage (mv held t : Nat) (s : State) : Out :=
  let s := s.at t
  .next (if mv > 6200 ∧ held ≥ 10 * us ∧ s.pwr.alive ∧ s.pwr.vinBad = false then
    (s.put BELLOWS_PWRSTAT_VINOV 1).vinReset mv 3 else s)

/-- VIN48 from 40.0 to 60.0 V for 10 ms (R586, R587): bring-up goes on at the regulators where flow is NORMAL, else at flow
confirmation. -/
def execVin48Recover (mv held t : Nat) (s : State) : Out :=
  let s := s.at t
  if s.pwr.vinBad = false ∨ mv < 4000 ∨ mv > 6000 ∨ held < 10 * ms then .next s
  else
    let s := { s with pwr := { s.pwr with vinBad := false } }
    let s := s.put BELLOWS_PWRSTAT_VIN48 mv
    if s.pwr.step = 5 ∧ s.pwr.stop = false ∧ s.on BELLOWS_PWRSTAT_REGON = false then
      if s.get BELLOWS_CAPOUT_FSTATE = 0 then .next s.enableRegs
      else .next { s.put BELLOWS_PWRSTAT_STATE 2 with pwr := { s.pwr with step := 4, stepAt := s.now } }
    else .next s

/-! ### The ROM and the start of firmware (R598 steps 2 and 3, R607–R610) -/

/-- Registers of the management port that the owner configuration gives (R553). -/
def portRegs : List Nat :=
  [MGMT_CFG, MGMT_IPV4, MGMT_IPV6H, MGMT_IPV6L, MGMT_V6CFG] ++ (List.range 4).flatMap (fun k => [MGMT_RMADDRH k, MGMT_RMADDRL k])

/-- Registers of the management plane that the owner configuration gives (R548, R553). -/
def ownerRegs : List Nat :=
  portRegs ++ [CANFD_TTCFG] ++ (List.range 32).map (fun k => CANFD_TRIG k)

/-- A register loaded from the record: its fields take the word's values as a write would set them (R16, R17). -/
def State.loadReg (s : State) (a : Nat) (w : Word) : State :=
  match findReg a with
  | some r => s.wr a (r.fields.foldl (fun new f => f.write false (s.rd a) w new) (s.rd a))
  | none => s

/-- Registers loaded from the stored owner configuration, where there is one (R553, R617). -/
def State.loadOwner (s : State) (l : List Nat) : State :=
  if s.secb.config.isEmpty then s
  else l.foldl (fun (s : State) a => s.loadReg a (BitVec.ofNat 64 (Config.ownerWord s.secb.config a))) s

/-- A window of the matrix that serves every cycle: its mark, type (0 exclusive, 1 arbitrating, 2 free) and buffer. -/
def State.window (s : State) (k mark ty buf : Nat) : State :=
  ((((s.put (CANFD_TRIG_TMARK k) mark).put (CANFD_TRIG_TYPE k) ty).put (CANFD_TRIG_BUF k) buf).put (CANFD_TRIG_REP k) 0).put
    (CANFD_TRIG_OFS k) 0

/-- The buffer of the module's board messages (R549): FD, bit-rate switched, 16 bytes, time-triggered. -/
def State.boardBuffer (s : State) (b : Nat) : State :=
  let s := ((s.put (CANFD_BCFG_EN b) 1).put (CANFD_BCFG_DIR b) 1).put (CANFD_BCFG_FDF b) 1
  let s := ((s.put (CANFD_BCFG_BRS b) 1).put (CANFD_BCFG_TTX b) 1).put (CANFD_BCFG_DLC b) 10
  s.put (CANFD_BCFG_ID b) (0x100 + s.pwr.slotId)

/-- The default board matrix (R548); which buffer firmware uses for it is open. -/
def State.boardMatrix (s : State) : State :=
  let (b, s) := s.fresh 64
  let n := s.pwr.slotId
  let s := (s.boardBuffer b).window 0 (100 + 200 * n) 0 b
  let (k, s) := if n < 7 then (2, s.window 1 (300 + 200 * n) 2 0) else (1, s)
  let s := (s.window k 1700 1 0).window (k + 1) 2400 2 0
  let s := ((s.put CANFD_TTCFG_CYCLEN 2500).put CANFD_TTCFG_CCM 2).put CANFD_TTCFG_TXEW 16
  s.put CANFD_TTCFG_NTRIG (k + 2)

/-- Firmware starts (R598 step 3): the board link, and the branch opens, X1 before X0 (R522). -/
def State.startFirmware (s : State) : State :=
  let s := s.boardMatrix.loadOwner ownerRegs
  let s := ((s.put CANFD_CTL_EN 1).put CANFD_TTCFG_TTEN 1).ttEnable true
  let s := { s with pwr := { s.pwr with step := 3, stepAt := s.now }, tuyere := { s.tuyere with seq := true } }
  let s := [8, 9].foldl (fun (s : State) c => (s.put (TUYERE_VCMD_MODE c) 2).put (TUYERE_VCMD_FIXCMD c) 1) s
  (s.vRetarget 9).put BELLOWS_PWRSTAT_STATE 2

/-- What the ROM writes before it judges the slots: POWER_LOSS (R587). -/
def State.bootRecords (s : State) : State :=
  let s := if s.pwr.loss then
      let (q, s) := match s.pwr.norSeq with | some q => (q, s) | none => s.fresh (2 ^ 32)
      s.event 0x0004 2 (10 * 256) q 0 0
    else s
  { s with pwr := { s.pwr with loss := false } }.supplyLevel

/-- What follows a boot (R610): WATCHDOG, where the watchdog caused the reset before it. -/
def State.watchdogRecord (s : State) : State :=
  match s.secb.watchdog with
  | some k => { s with secb := { s.secb with watchdog := none } }.eventIrq 32 0x0B08 3 secSrc k 0 0
  | none => s

/-- A slot found invalid with no other to run (R609). -/
def State.slotRefused (s : State) (k code : Nat) : State :=
  s.eventIrq 32 0x0B01 5 secSrc k code 0

/-- The ROM judges both slots and runs one, or stays in recovery, under the owner's allow-list (R598 step 2, R607–R609,
assumption log 160). -/
def execRomBoot (errA errB : Bool) (t : Nat) (s : State) : Out :=
  let s := s.at t
  if s.pwr.alive = false ∨ s.pwr.step ≠ 2 ∨ s.pwr.stop then .next s
  else
    let s := s.newChal.bootRecords
    let (a, ca, s) := s.slotValid 0 errA
    let (b, cb, s) := s.slotValid 1 errB
    match s.chooseSlot a b with
    | (none, s) =>
      let s := ((s.slotRefused 0 (if a then 7 else ca)).slotRefused 1 (if b then 7 else cb)).secSync
      let s := s.watchdogRecord.loadOwner portRegs
      .next { s with pwr := { s.pwr with stop := true } }
    | (some k, s) =>
      let s := { s with secb := { s.secb with running := some k } }
      let s := s.secSync.put SEC_SECSTAT_FWSVN (s.slot k).svn
      .next (s.event 0x0B00 0 secSrc k (s.slot k).svn (s.slot k).keysvn).watchdogRecord.startFirmware

/-- Firmware has not serviced the watchdog for 2 s (R610). -/
def execWatchdog (t : Nat) (s : State) : Out :=
  let s := s.at t
  match s.secb.running with
  | some k =>
    if s.now < s.pwr.bootAt + 2 * sec then .next s
    else .next ({ s with secb := { s.secb with watchdog := some k } }.moduleReset 5)
  | none => .next s

/-- A module reset takes effect 10 ms after the response to its request (R594, R611). -/
def execModuleReset (t : Nat) (s : State) : Out :=
  let s := s.at t
  match s.pwr.modAt with
  | some (a, cause) => .next (if s.now ≥ a then s.moduleReset cause else s)
  | none => .next s

/-! ### Compute comes up (R598 steps 5 to 9) -/

/-- Stacks that keep nothing train while bring-up is under way (R278, R598 steps 7 and 8). -/
def State.training (s : State) : State :=
  ((List.range 20).filter (fun k => !s.fenced k && s.get (HEARTH_STKSTAT_STATE k) == 0)).foldl
    (fun s k => s.put (HEARTH_STKSTAT_STATE k) 1) s

/-- The ROOT PLL locks (R35, R598 steps 5 and 6, R653): compute reset is released, and Temper starts at its caps of 800 W
(R417). -/
def execPllLock (t : Nat) (s : State) : Out :=
  let s := s.at t
  if (s.pwr.step ≠ 5 ∧ s.pwr.step ≠ 6) ∨ s.on BELLOWS_PWRSTAT_REGON = false then .next s
  else
    let s := ((s.setDom 192 true).put BELLOWS_PWRSTAT_STATE 3).training
    let s := { s with
      pwr := { s.pwr with pll := true, step := 7, stepAt := s.now, stop := false }
      core := { Pulse.reset with begun := 16 * s.now }
      hammer := { s.hammer with avail := 0 }
      temper := { s.temper with
        rel := s.now, ivNext := s.now, calTick := s.tickNo, slewAt := s.now, agedAt := s.now, stale := []
        pubs := [0, 2, 3].foldl (fun p k => Tab.set (fun _ => 0) p k s.now) s.temper.pubs } }
    let s := if s.pwr.vinLow then (s.putB TEMPER_CAPSTAT_SAG_WARN true).enterFloor 1 else s
    .next (if s.on BELLOWS_SAFESTAT_THROTTLE then s.throttleTemper else s)

/-- A stack trained, or restored from self-refresh after a keep reset (R279, R280, R598 step 8): fenced where that failed. -/
def State.stackUp (s : State) (bad : List (Nat × Nat)) (k : Nat) : State :=
  if s.fenced k then s
  else
    let kept : Bool := s.get (HEARTH_STKSTAT_STATE k) == 3
    let cause := if kept then 5 else 1
    if bad.contains (k, cause) then s.fenceStack k cause
    else
      let s := (s.put (HEARTH_STKSTAT_STATE k) 2).putB (HEARTH_STKSTAT_KEPT k) kept
      s.setDom (170 + k) true

/-- The rails are lost: no stack keeps what it holds (R280). -/
def State.railsLost (s : State) : State :=
  let s := s.memReset false
  { (List.range 20).foldl (fun s k => s.put (HEARTH_STKSTAT_STATE k) 0) s with pwr := { s.pwr with keep := false } }

/-- Domains on, stacks trained, configuration reloaded, links brought up (R592, R598 steps 7 to 9): `badAnvils` failed their
self-test, `badStacks` their training (cause 1) or exit check (cause 5). -/
def execBringupReady (badAnvils : List Nat) (badStacks : List (Nat × Nat)) (t : Nat) (s : State) : Out :=
  let s := s.at t
  if s.pwr.step ≠ 7 then .next s
  else
    let s := (s.setDom 193 true).setDom 194 true
    let s := (List.range 170).foldl (fun (s : State) d => s.setDom d true) s
    let s := s.onHammer (fun h => { h with avail := BitVec.allOnes 160 })
    let s := (badAnvils.filter (· < 160)).foldl (fun (s : State) g => s.holdAnvil g 0) s
    let s := (List.range 20).foldl (fun (s : State) k => s.stackUp badStacks k) s
    let all : Bool := (List.range 20).all (fun k => s.fenced k || s.on (HEARTH_STKSTAT_KEPT k))
    let s := s.putB BELLOWS_RSTSTAT_KEPT (s.pwr.keep && all)
    let s := { s with pwr := { s.pwr with step := 10, stepAt := s.now } }
    .next (((s.put BELLOWS_PWRSTAT_STATE 4).resetRecord.portRestart 0 (fun _ => false)).portRestart 1 (fun _ => false))

/-- A step of bring-up exceeds its limit (R598): it stops there. Steps 7 to 9 go on; step 4 is FLOW_UNCONFIRMED. -/
def execBringupTimeout (t : Nat) (s : State) : Out :=
  let s := s.at t
  let late (n : Nat) : Bool := s.now ≥ s.pwr.stepAt + n && !s.pwr.stop && s.pwr.alive
  let dead : Bool := s.on BELLOWS_PWRSTAT_REGON && ((s.pwr.step == 5 && late (20 * ms)) || (s.pwr.step == 6 && late ms))
  if (s.pwr.step = 2 ∧ late (400 * ms)) ∨ (s.pwr.step = 3 ∧ late (100 * ms)) then .next { s with pwr := { s.pwr with stop := true } }
  else if dead then
    let s := ((s.railsLost.noteReset 1 0 7).put BELLOWS_PWRSTAT_REGON 0).put BELLOWS_PWRSTAT_STATE 6
    .next { s.resetRecord with pwr := { s.pwr with stop := true } }
  else .next s

/-! ### Clocks and the link between the dies (R593, R653, R654) -/

/-- REFCLK is lost while compute runs (R653): a compute reset, and bring-up waits at step 6 for the clock. -/
def execRefclkLoss (t : Nat) (s : State) : Out :=
  let s := s.at t
  if s.domOn 192 then
    let s := s.computeReset false false 8
    .next { s with pwr := { s.pwr with stop := true } }
  else .next s

/-- Bellows firmware loses the management link to the main dies (R593). -/
def execMainDieLinkLoss (t : Nat) (s : State) : Out :=
  let s := s.at t
  .next (if s.domOn 192 then s.computeReset false false 8 else s)

/-- SREF is lost: every interface goes down (R654). -/
def execSrefLoss (t : Nat) (s : State) : Out :=
  let s := s.at t
  .next ([0, 1, 2, 3].foldl (fun (s : State) i => if (s.ifc i).up then s.ifcDown i else s) s)

/-! ### The Hearth reset (R597) -/

/-- The Anvils of a Hearth as a mask. -/
def hearthMask (h : Nat) : BitVec 160 := BitVec.ofNat 160 (0xFFFF * 2 ^ (16 * h))

/-- Step 1: jobs begun that need an Anvil of the Hearth end. -/
def State.hearthJobs (s : State) (h : Nat) : State :=
  let s := s.endForAnvil (hearthMask h)
  s.jobList.foldl (fun (s : State) p =>
    match p.2.st, s.image p.2.img with
    | .switched, some i =>
      if i.reqmask &&& hearthMask h = 0 then s
      else
        let flags := match p.2.saved with | some v => v.flagsOr p.2 | none => 0
        let pos := match p.2.saved with | some v => v.pos | none => 0
        s.retire p.1 p.2 (some (Fail.of cANVIL_UNAVAILABLE 0 0 0)) flags (min (2 ^ 32 - 1) ((s.now - p.2.started) / us)) pos
    | _, _ => s) s

/-- Whether a transfer has a row that touches a Hearth: its store, its Anvil stores, its two stacks. -/
def State.touchesHearth (h : Nat) (o : XOp) : Bool :=
  let inH (a : Nat) : Bool := match region a with
    | .hbm k _ => k / 2 == h
    | .ctx k _ => k / 2 == h
    | .hearth j _ => j == h
    | .anvil g _ => g / 16 == h
    | _ => false
  let (rows, len, _, _) := shapeOf o.shape
  let span (a : Nat) : Bool := (segs a len).any (fun p => inH p.1)
  !o.isFence && (List.range rows).any (fun r =>
    let (a, d) := o.row r
    span d || (match a with | some a => span a | none => false))

/-- Step 2, the exchange units: what is queued in the Hearth's own unit ends, and transfers elsewhere end at their first row
in the Hearth. -/
def State.hearthXfers (s : State) (h : Nat) : State :=
  let mine := s.xqOf h
  let s := mine.foldl (fun (s : State) o =>
    s.tokDone o.job o.tok (if o.isFence then none else some (Fail.of cX_ADDR 0 0 (locRefused o.dst)))) (s.setXq h [])
  ((List.range 10).filter (fun u => u != h)).foldl (fun (s : State) u =>
    match s.xqOf u with
    | o :: q =>
      if State.touchesHearth h o && !o.refused then
        let (rows, _, _, _) := shapeOf o.shape
        let (f, s) := (s.setXq u q).moveRows u o (List.range rows)
        s.tokDone o.job o.tok f
      else s
    | [] => s) s

/-- Steps 3 and 4: the domains off and on; the stacks keep their contents, fences and error counters, and the rest of the
Hearth is at reset. -/
def State.hearthCycle (s : State) (h : Nat) : State :=
  let stk := [2 * h, 2 * h + 1]
  let up := stk.filter (fun k => !s.fenced k)
  let keep := stk.map (fun k => (k, s.get (HEARTH_STKSTAT_FCAUSE k)))
  let anv := (List.range 16).map (fun a => 16 * h + a)
  let s := anv.foldl State.anvilOff s
  let s := ((s.setDom (160 + h) false).clearMem (hearthBase h) 0x1000000).csrReset (0x300001000000 + h * 0x100000) 0x10000
  let s := up.foldl (fun (s : State) k => (s.setDom (170 + k) false).csrReset (crucCsr k) 0x1000) s
  let s := (s.setDom (160 + h) true)
  let s := keep.foldl (fun (s : State) p =>
    if up.contains p.1 then ((s.put (HEARTH_STKSTAT_STATE p.1) 2).put (HEARTH_STKSTAT_KEPT p.1) 1).setDom (170 + p.1) true
    else (s.put (HEARTH_STKSTAT_FENCED p.1) 1).put (HEARTH_STKSTAT_FCAUSE p.1) p.2) s
  let s := anv.foldl (fun (s : State) g => s.setDom g true) s
  s.onHammer (fun x => { x with avail := x.avail ||| hearthMask h })

/-- A Hearth reset, from its start to its end (R597). `bad`: the Anvils of the Hearth that fail their self-test, held from then
on (R275). -/
def State.hearthReset (s : State) (h : Nat) (bad : List Nat) : State :=
  let s := s.hearthJobs h
  let anv := (List.range 16).map (fun a => 16 * h + a)
  let s := anv.foldl (fun (s : State) g => s.setDom g false) (s.setDom (160 + h) false)
  let up := [2 * h, 2 * h + 1].filter (fun k => !s.fenced k)
  let s := up.foldl (fun (s : State) k => s.put (HEARTH_STKSTAT_STATE k) 3) s
  let s := s.hearthXfers h
  let s := (s.crucFlush (2 * h) 0x15 false).crucFlush (2 * h + 1) 0x15 false
  let s := (bad.filter (· < 16)).foldl (fun s a => s.holdAnvil (16 * h + a) 0) (s.hearthCycle h)
  s.noteReset 2 h 1

/-- A requested Hearth reset begins at a heat boundary (R597). -/
def execHearthResetStart (t : SelfTest) (s : State) : Out :=
  let s := s.at t.t
  match s.pwr.hearth with
  | h :: r =>
    if s.atBoundary then .next ({ s with pwr := { s.pwr with hearth := r } }.hearthReset h t.bad) else .next s
  | [] => .next s

end Sys2Proof.Machine
end

