-- ==== Sys2Proof/Machine/Control.lean ====
section
/-! DEFINITION. The C slot (R154–R156), STOP and the end of a job (R116, R117), and what releases a stall. -/

namespace Sys2Proof.Machine

/-! ### Branches -/

/-- Whether a branch condition holds (R127). -/
def branchTaken (cc : Nat) (a b : Word) : Bool :=
  match cc with
  | 0 => true
  | 1 => a == b
  | 2 => a != b
  | 3 => a.slt b
  | 4 => b.sle a
  | 5 => a.ult b
  | _ => b.ule a

/-- A branch word: its legality, its destinations, its effects. -/
def branchOp (op : Nat) (f : CBf) (eff : State → List Flight) : SlotOp :=
  ⟨[0], cbLegal op f, false, true, cbDests op f, 0, none, eff⟩

/-- `nop` (R114); with the bits of its bundle, whatever R133 and R134 say of them. -/
def execNop (h : Hd) (raw : Option Nat) (s : State) : Out :=
  s.slotOp h ⟨List.range 10, true, false, false, [], 0, raw, fun _ => []⟩

/-- `br.*` (R154). -/
def execBr (h : Hd) (f : CBf) (s : State) : Out :=
  s.slotOp h (branchOp 1 f (fun s => if branchTaken f.cc (s.sreg f.sa) (s.sreg f.sb) then [⟨0, .redirect f.tgt⟩] else []))

/-- `dbnz` (R154): the decrement saturates at 0. -/
def execDbnz (h : Hd) (f : CBf) (s : State) : Out :=
  s.slotOp h (branchOp 2 f (fun s =>
    let x := s.sreg f.sa
    let (r, sat) := intOp 64 false .sub x.toNat 1
    ⟨1, .s f.sa (BitVec.ofNat 64 r) sat⟩ :: (if r = 0 then [] else [⟨0, .redirect f.tgt⟩])))

/-- `brl` (R154). -/
def execBrl (h : Hd) (f : CBf) (s : State) : Out :=
  s.slotOp h (branchOp 3 f (fun _ => [⟨0, .redirect f.tgt⟩, ⟨1, .link f.sb⟩]))

/-- `br.ind` (R154): beyond 19 bits it is FETCH_RANGE at this bundle's detection point (R211), in a delay bundle of a `heat` too,
where its redirect would be discarded (DEDUCED, assumption log 25). -/
def execBrInd (h : Hd) (f : CBf) (s : State) : Out :=
  s.slotOp h (branchOp 4 f (fun s =>
    let x := (s.sreg f.sa).toNat
    if x < 2 ^ 19 then [⟨0, .redirect x⟩] else [⟨0, .fault 0x03 2 0 255 0⟩]))

/-! ### Scalar operations -/

/-- A CS word: its legality, its destinations, its effects. -/
def csOp (op : Nat) (f : CSf) (eff : State → List Flight) : SlotOp := .plain [0] (csLegal op f) (csDests op f) eff

/-- The signed 24-bit immediate. -/
def simm24 (f : CSf) : Int := sgn 24 f.imm

/-- `waitm` (R155, R100). -/
def execWaitm (h : Hd) (f : CSf) (s : State) : Out :=
  s.slotOp h { csOp 0x40 f (fun _ => []) with wait := f.imm % 2 ^ 16 }

/-- `wait` (R155, R100). -/
def execWait (h : Hd) (f : CSf) (s : State) : Out :=
  s.slotOp h { csOp 0x41 f (fun _ => []) with wait := 2 ^ f.d }

/-- A stall of a wait or of the token limit ends when its condition passes (R192, R193, R207). -/
def execStallEnd (s : State) : Out :=
  match s.hammer.stall with
  | some (.wait _) => .next s.tryIssue
  | some .token => .next s.tryIssue
  | _ => .next s

/-- `amask.set` (R155). -/
def execAmaskSet (h : Hd) (f : CSf) (s : State) : Out :=
  s.slotOp h (csOp 0x42 f (fun _ => [⟨1, .mask f.h f.imm⟩]))

/-- `amask.set.all` (R155). -/
def execAmaskSetAll (h : Hd) (f : CSf) (s : State) : Out :=
  s.slotOp h (csOp 0x43 f (fun _ => (List.range 10).map (fun k => ⟨1, .mask k f.imm⟩)))

/-- The arithmetic operation of an opcode group of six: signed add, sub, mul, then unsigned. -/
def arithOf (i : Nat) : Bool × IOp :=
  match i with
  | 0 => (true, .add)
  | 1 => (true, .sub)
  | 2 => (true, .mul)
  | 3 => (false, .add)
  | 4 => (false, .sub)
  | _ => (false, .mul)

/-- `add.s64` to `mul.u64` (R155, R86). -/
def execSArith (h : Hd) (op : Nat) (f : CSf) (s : State) : Out :=
  s.slotOp h { csOp op f (fun s =>
    let (sg, o) := arithOf (op - 0x48)
    let (r, sat) := intOp 64 sg o (s.sreg f.a).toNat (s.sreg f.b).toNat
    [⟨if o = .mul then 3 else 1, .s f.d (BitVec.ofNat 64 r) sat⟩]) with legal := csLegal op f && within op 0x48 0x4D }

/-- A bitwise operation: 0 and, 1 or, 2 xor. -/
def bitwise {w : Nat} (i : Nat) (a b : BitVec w) : BitVec w :=
  match i with
  | 0 => a &&& b
  | 1 => a ||| b
  | _ => a ^^^ b

/-- A shift by `n`: 0 left, 1 logical right, 2 arithmetic right. -/
def shift {w : Nat} (i : Nat) (a : BitVec w) (n : Nat) : BitVec w :=
  match i with
  | 0 => a <<< n
  | 1 => a >>> n
  | _ => a.sshiftRight n

/-- `and.b64`, `or.b64`, `xor.b64` (R155, R87). -/
def execSBitwise (h : Hd) (op : Nat) (f : CSf) (s : State) : Out :=
  s.slotOp h { csOp op f (fun s => [⟨1, .s f.d (bitwise (op - 0x4E) (s.sreg f.a) (s.sreg f.b)) false⟩]) with
    legal := csLegal op f && within op 0x4E 0x50 }

/-- `sll.b64`, `srl.b64`, `sra.b64` (R155, R87). -/
def execSShift (h : Hd) (op : Nat) (f : CSf) (s : State) : Out :=
  s.slotOp h { csOp op f (fun s => [⟨1, .s f.d (shift (op - 0x51) (s.sreg f.a) ((s.sreg f.b).toNat % 64)) false⟩]) with
    legal := csLegal op f && within op 0x51 0x53 }

/-- `addi.s64` (R155, R86). -/
def execAddiS64 (h : Hd) (f : CSf) (s : State) : Out :=
  s.slotOp h (csOp 0x54 f (fun s =>
    let (r, sat) := intOp 64 true .add (s.sreg f.a).toNat (wrap 64 (simm24 f))
    [⟨1, .s f.d (BitVec.ofNat 64 r) sat⟩]))

/-- `movi.s64` (R155). -/
def execMoviS64 (h : Hd) (f : CSf) (s : State) : Out :=
  s.slotOp h (csOp 0x55 f (fun _ => [⟨1, .s f.d (BitVec.ofInt 64 (simm24 f)) false⟩]))

/-- A read of the constant pool at an index (R155, R156). -/
def State.constEff (s : State) (d n : Nat) : List Flight :=
  match s.runImage with
  | none => []
  | some i => if 8 * n + 8 ≤ i.constBytes then [⟨2, .ldc d (i.addr + i.constOff + 8 * n)⟩] else [⟨0, .fault 0x13 0 0 255 0⟩]

/-- `ldc` (R155). -/
def execLdc (h : Hd) (f : CSf) (s : State) : Out := s.slotOp h (csOp 0x56 f (fun s => s.constEff f.d f.imm))

/-- `ldcx` (R155): s[A] is read unsigned and the sum is not reduced before it is judged against CONST_BYTES (DEDUCED,
assumption log 150). -/
def execLdcx (h : Hd) (f : CSf) (s : State) : Out :=
  s.slotOp h (csOp 0x57 f (fun s => s.constEff f.d ((s.sreg f.a).toNat + f.imm)))

/-- The address of `ldm` and `stm`: s[SA] plus the signed offset; a sum outside 64 bits is no address. -/
def State.cAddr (s : State) (f : CSf) : Nat :=
  let v : Int := (s.sreg f.a).toNat + simm24 f
  if v < 0 then 2 ^ 64 + 1 else v.toNat

/-- `ldm` (R155, R156). -/
def execLdm (h : Hd) (f : CSf) (s : State) : Out := s.slotOp h (csOp 0x58 f (fun s => [⟨16, .ldm f.d (s.cAddr f)⟩]))

/-- `stm` (R155, R156). -/
def execStm (h : Hd) (f : CSf) (s : State) : Out :=
  s.slotOp h (csOp 0x59 f (fun s => [⟨1, .stm (s.cAddr f) (s.sreg f.b).toNat⟩]))

/-- `pcount` (R155): mask and predicates as read at the bundle's position. -/
def execPcount (h : Hd) (f : CSf) (s : State) : Out :=
  s.slotOp h (csOp 0x5A f (fun s =>
    let n := ((List.range 160).filter (fun g => s.effMask.getLsbD g && (s.anvil g).pr (f.imm % 8))).length
    [⟨12, .s f.d (BitVec.ofNat 64 n) false⟩]))

/-- `rdbc` (R155, R190). -/
def execRdbc (h : Hd) (f : CSf) (s : State) : Out :=
  s.slotOp h (csOp 0x5B f (fun s => [⟨1, .s f.d (BitVec.ofNat 64 s.hammer.pos) false⟩]))

/-! ### The end of a job -/

/-- STOP of the open bundle, or of an empty one (R116): the bundle is complete. -/
def execStop (len : Nat) (s : State) : Out :=
  if s.taking = false then .next s
  else
    let s := if s.hammer.open_ then s else s.openBundle len
    if s.hammer.open_ = false then .next s
    else .next (s.onHammer (fun h => { h with cur := { h.cur with stop := true, len := len } })).tryIssue

/-- The job whose issue has ended leaves Hammer once every token's count is 0 (R116, R135, R151, R393). -/
def execJobEnd (t : Nat) (s : State) : Out :=
  match s.hammer.ending, s.hammer.run with
  | some f, some id =>
    if s.hammer.tok.any (fun p => p.2.count > 0) then .next s
    else
      match s.job id with
      | none => .next s
      | some j =>
        let s := s.at t
        let f := match f with
          | some e => some e
          | none => s.waitFail (2 ^ 16 - 1)
        let fl := Nat.lor s.allFlags j.rflags.toNat
        let s := s.heatEnd f.isNone
        let el := min (2 ^ 32 - 1) ((s.now - j.started) / us)
        let n := s.hammer.pos
        let s := s.hammerIdle
        .next (s.retire id j f fl el n)
  | _, _ => .next s

end Sys2Proof.Machine
end

