-- ==== Sys2Proof/Machine/Vector.lean ====
section
/-! DEFINITION. The V slot (R164–R171): vector and scalar operations of the Anvils. -/

namespace Sys2Proof.Machine

/-- Latencies of the V classes (R198). -/
def latVS : Nat := 2
/-- VF. -/
def latVF : Nat := 4
/-- VT. -/
def latVT : Nat := 8
/-- VX. -/
def latVX : Nat := 4

/-- A VR word whose opcode lies in `lo`–`hi`: the result in every executing Anvil. -/
def vrOp (op lo hi : Nat) (f : VRf) (lat cls : Nat) (r : State → Nat → AEff × Flags) : SlotOp :=
  .plain vSlots (vrLegal op f && within op lo hi) (vrDests op f) (fun s => s.each f.pred lat cls (r s))

/-- A VI word whose opcode lies in `lo`–`hi`. -/
def viOp (op lo hi : Nat) (f : VIf) (lat cls : Nat) (r : State → Nat → AEff × Flags) : SlotOp :=
  .plain vSlots (viLegal op f && within op lo hi) (viDests op f) (fun s => s.each f.pred lat cls (r s))

/-- A lane-by-lane VR operation of two sources. -/
def vrLanes (f : VRf) (fn : Nat → Nat → Nat × Flags) (s : State) (g : Nat) : AEff × Flags :=
  let (x, fl) := lanes2 fn (s.vecSrc g f.sf f.a) (s.vecSrc g f.sf f.b)
  (.v f.d x, fl)

/-- A result without flags. -/
def noFl (x : Nat) : Nat × Flags := (x, 0)

/-- An integer result with INT_SAT. -/
def satFl (r : Nat × Bool) : Nat × Flags := (r.1, flagIf r.2 fIntSat)

/-! ### FP32 -/

/-- `add.f32`, `sub.f32`, `mul.f32` (R166). -/
def execAddSubMulF32 (h : Hd) (op : Nat) (f : VRf) (s : State) : Out :=
  s.slotOp h (vrOp op 1 3 f latVS actVS (vrLanes f (if op = 1 then f32Add else if op = 2 then f32Sub else f32Mul)))

/-- `fma.f32`, `fms.f32` (R166). -/
def execFmaFmsF32 (h : Hd) (op : Nat) (f : VRf) (s : State) : Out :=
  s.slotOp h (vrOp op 4 5 f latVF actVF (fun s g =>
    let (x, fl) := lanes3 (f32Fma (op == 5)) (s.vecSrc g f.sf f.a) (s.vecSrc g f.sf f.b) ((s.anvil g).vr f.c)
    (.v f.d x, fl)))

/-- `min.f32`, `max.f32` (R84). -/
def execMinMaxF32 (h : Hd) (op : Nat) (f : VRf) (s : State) : Out :=
  s.slotOp h (vrOp op 6 7 f latVS actVS (vrLanes f (f32MinMax (op == 7))))

/-- `abs.f32`, `neg.f32`: the sign bit alone (R53). -/
def execAbsNegF32 (h : Hd) (op : Nat) (f : VRf) (s : State) : Out :=
  s.slotOp h (vrOp op 8 9 f latVS actVS (vrLanes f (fun a _ =>
    noFl (if op = 8 then a % 2 ^ 31 else (a + 2 ^ 31) % 2 ^ 32))))

/-- `sqrt.f32` (R166). -/
def execSqrtF32 (h : Hd) (f : VRf) (s : State) : Out :=
  s.slotOp h (vrOp 10 10 10 f latVT actVTX (vrLanes f (fun a _ => f32Fun .sqrt a)))

/-- The function of an opcode 0x0B–0x0E. -/
def vtFun (op : Nat) : FFun :=
  match op with
  | 11 => .rcp
  | 12 => .rsqrt
  | 13 => .exp2
  | _ => .log2

/-- `rcp.f32`, `rsqrt.f32`, `exp2.f32`, `log2.f32` (R166, R167). -/
def execRcpRsqrtExp2Log2F32 (h : Hd) (op : Nat) (f : VRf) (s : State) : Out :=
  s.slotOp h (vrOp op 11 14 f latVT actVTX (vrLanes f (fun a _ => f32Fun (vtFun op) a)))

/-! ### 32-bit integers -/

/-- `add.s32` to `mul.u32` (R86). -/
def execInt32Arith (h : Hd) (op : Nat) (f : VRf) (s : State) : Out :=
  s.slotOp h (vrOp op 0x20 0x25 f latVS actVS (vrLanes f (fun a b =>
    let (sg, o) := arithOf (op - 0x20)
    satFl (intOp 32 sg o a b))))

/-- `min.s32`, `max.s32`. -/
def execMinMaxS32 (h : Hd) (op : Nat) (f : VRf) (s : State) : Out :=
  s.slotOp h (vrOp op 0x26 0x27 f latVS actVS (vrLanes f (fun a b =>
    noFl (if intCmp 32 true (if op = 0x26 then .le else .ge) a b then a else b))))

/-- `abs.s32` (R86). -/
def execAbsS32 (h : Hd) (f : VRf) (s : State) : Out :=
  s.slotOp h (vrOp 0x28 0x28 0x28 f latVS actVS (vrLanes f (fun a _ =>
    let (v, o) := satS 32 (sgn 32 a).natAbs
    satFl (wrap 32 v, o))))

/-- `sla.s32`: arithmetic left shift, saturating (R86). -/
def execSlaS32 (h : Hd) (f : VRf) (s : State) : Out :=
  s.slotOp h (vrOp 0x29 0x29 0x29 f latVS actVS (vrLanes f (fun a b =>
    let (v, o) := satS 32 (sgn 32 a * (2 ^ (b % 32) : Nat))
    satFl (wrap 32 v, o))))

/-- `and.b32`, `or.b32`, `xor.b32` (R87). -/
def execB32Bitwise (h : Hd) (op : Nat) (f : VRf) (s : State) : Out :=
  s.slotOp h (vrOp op 0x2A 0x2C f latVS actVS (vrLanes f (fun a b =>
    noFl (bitwise (op - 0x2A) (BitVec.ofNat 32 a) (BitVec.ofNat 32 b)).toNat)))

/-- `sll.b32`, `srl.b32`, `sra.b32` (R87). -/
def execB32Shift (h : Hd) (op : Nat) (f : VRf) (s : State) : Out :=
  s.slotOp h (vrOp op 0x2D 0x2F f latVS actVS (vrLanes f (fun a b =>
    noFl (shift (op - 0x2D) (BitVec.ofNat 32 a) (b % 32)).toNat)))

/-! ### Scalars -/

/-- A scalar VR operation of two sources. -/
def vrScalar (f : VRf) (fn : Nat → Nat → Nat × Flags) (s : State) (g : Nat) : AEff × Flags :=
  let (x, fl) := fn (s.scalar g f.sf f.a) (s.scalar g f.sf f.b)
  (fileEff f.df f.d x, fl)

/-- `add.s64` to `mul.u64` on g and k registers (R86, R89). -/
def execVArithS64 (h : Hd) (op : Nat) (f : VRf) (s : State) : Out :=
  s.slotOp h (vrOp op 0x30 0x35 f latVS actVS (vrScalar f (fun a b =>
    let (sg, o) := arithOf (op - 0x30)
    satFl (intOp 64 sg o a b))))

/-- `and.b64`, `or.b64`, `xor.b64` (R87). -/
def execVBitwiseB64 (h : Hd) (op : Nat) (f : VRf) (s : State) : Out :=
  s.slotOp h (vrOp op 0x36 0x38 f latVS actVS (vrScalar f (fun a b =>
    noFl (bitwise (op - 0x36) (BitVec.ofNat 64 a) (BitVec.ofNat 64 b)).toNat)))

/-- `sll.b64`, `srl.b64`, `sra.b64` (R87). -/
def execVShiftB64 (h : Hd) (op : Nat) (f : VRf) (s : State) : Out :=
  s.slotOp h (vrOp op 0x39 0x3B f latVS actVS (vrScalar f (fun a b =>
    noFl (shift (op - 0x39) (BitVec.ofNat 64 a) (b % 64)).toNat)))

/-- `mov.b64`: to g, k, or p under R165. -/
def execMovB64 (h : Hd) (f : VRf) (s : State) : Out :=
  s.slotOp h (vrOp 0x3C 0x3C 0x3C f latVS actVS (vrScalar f (fun a _ => noFl a)))

/-! ### Compares -/

/-- The condition of a compare (R171). -/
def condOf (c : Nat) : Cond :=
  match c with
  | 0 => .eq
  | 1 => .ne
  | 2 => .lt
  | 3 => .le
  | 4 => .gt
  | 5 => .ge
  | _ => .unord

/-- A compare result combined into a predicate: 0 set, 1 AND, 2 OR (R171). -/
def combineP (how : Nat) (old new : Bool) : Bool :=
  match how with
  | 0 => new
  | 1 => old && new
  | _ => old || new

/-- One lane's compare. -/
def cmpLane (fp : Bool) (c : Cond) (a b : Nat) : Bool := if fp then f32Cmp c a b else intCmp 32 true c a b

/-- `NAN_IN` of an FP32 compare. -/
def cmpFl (fp : Bool) (a b : Nat) : Flags := if fp then nanIn a ||| nanIn b else 0

/-- `cmpany` and `cmpall` (R171): OR or AND over the lanes, combined into p[D]. -/
def execCmpanyCmpall (h : Hd) (op : Nat) (f : VRf) (s : State) : Out :=
  s.slotOp h (vrOp op 0x40 0x43 f latVX actVTX (fun s g =>
    let fp : Bool := op < 0x42
    let a := s.vecSrc g f.sf f.a
    let b := s.vecSrc g f.sf f.b
    let t (i : Nat) : Bool := cmpLane fp (condOf (f.mod % 8)) (lane a i) (lane b i)
    let r := if op % 2 = 0 then (List.range 32).any t else (List.range 32).all t
    let fl := (List.range 32).foldl (fun acc i => acc ||| cmpFl fp (lane a i) (lane b i)) 0
    (.p f.d (combineP (f.mod / 8) ((s.anvil g).pr f.d) r), fl)))

/-- `cmp.s64`, `cmp.u64` (R171). -/
def execCmpS64U64 (h : Hd) (op : Nat) (f : VRf) (s : State) : Out :=
  s.slotOp h (vrOp op 0x44 0x45 f latVS actVS (fun s g =>
    let r := intCmp 64 (op == 0x44) (condOf (f.mod % 8)) (s.scalar g f.sf f.a) (s.scalar g f.sf f.b)
    (.p f.d (combineP (f.mod / 8) ((s.anvil g).pr f.d) r), 0)))

/-- `cmpm.f32`, `cmpm.s32` (R171). -/
def execCmpm (h : Hd) (op : Nat) (f : VRf) (s : State) : Out :=
  s.slotOp h (vrOp op 0x46 0x47 f latVS actVS (vrLanes f (fun a b =>
    (if cmpLane (op == 0x46) (condOf (f.mod % 8)) a b then 0xFFFFFFFF else 0, cmpFl (op == 0x46) a b))))

/-! ### Selection, permutation and reduction -/

/-- `sel.b32`. -/
def execSelB32 (h : Hd) (f : VRf) (s : State) : Out :=
  s.slotOp h (vrOp 0x48 0x48 0x48 f latVS actVS (fun s g =>
    let (x, fl) := lanes3 (fun a b c => noFl (if c ≠ 0 then a else b)) (s.vecSrc g f.sf f.a) (s.vecSrc g f.sf f.b)
      ((s.anvil g).vr f.c)
    (.v f.d x, fl)))

/-- `perm.b32`. -/
def execPermB32 (h : Hd) (f : VRf) (s : State) : Out :=
  s.slotOp h (vrOp 0x49 0x49 0x49 f latVX actVTX (fun s g =>
    let a := (s.anvil g).vr f.a
    let b := (s.anvil g).vr f.b
    (.v f.d (packLanes ((List.range 32).map (fun l => lane a (lane b l % 32)))), 0)))

/-- One value of a reduction tree: the bits, and whether a NaN was formed by the tree (R168). -/
def redStep (fn : Nat → Nat → Nat × Flags) (x y : Nat × Bool) : (Nat × Bool) × Flags :=
  let (r, fl) := fn x.1 y.1
  let formed : Bool := x.2 || y.2
  -- a NaN the tree formed is passed on and sets no flag
  let fl := if formed then 0 else fl &&& ~~~fNanIn
  ((r, formed || (f32 r == .nan)), fl)

/-- One level of the tree. -/
def redLevel (fn : Nat → Nat → Nat × Flags) : List (Nat × Bool) → List (Nat × Bool) × Flags
  | x :: y :: r =>
    let (z, f1) := redStep fn x y
    let (l, f2) := redLevel fn r
    (z :: l, f1 ||| f2)
  | l => (l, 0)

/-- `n` levels. -/
def redTree (fn : Nat → Nat → Nat × Flags) : Nat → List (Nat × Bool) → List (Nat × Bool) × Flags
  | 0, l => (l, 0)
  | n + 1, l => let (l, f1) := redLevel fn l; let (l, f2) := redTree fn n l; (l, f1 ||| f2)

/-- A reduction of `2^n` values by the pairwise tree (R168): `NAN_IN` for a NaN among the sources. -/
def reduceF32 (fn : Nat → Nat → Nat × Flags) (n : Nat) (l : List Nat) : Nat × Flags :=
  let (r, fl) := redTree fn n (l.map (fun x => (x, f32 x == .nan)))
  ((r.headD (0, false)).1, fl ||| flagIf (l.any (fun x => f32 x == .nan)) fNanIn)

/-- The lanes of a register. -/
def lanesOf (a : Row) : List Nat := (List.range 32).map (lane a)

/-- `radd.f32`, `rmax.f32`, `rmin.f32` (R168). -/
def execRaddRmaxRminF32 (h : Hd) (op : Nat) (f : VRf) (s : State) : Out :=
  s.slotOp h (vrOp op 0x4A 0x4C f latVX actVTX (fun s g =>
    let fn := if op = 0x4A then f32Add else f32MinMax (op == 0x4B)
    let (x, fl) := reduceF32 fn 5 (lanesOf ((s.anvil g).vr f.a))
    (.v f.d (packLanes (List.replicate 32 x)), fl)))

/-- `radd.s32`: the exact sum, saturated once. -/
def execRaddS32 (h : Hd) (f : VRf) (s : State) : Out :=
  s.slotOp h (vrOp 0x4D 0x4D 0x4D f latVX actVTX (fun s g =>
    let t := (lanesOf ((s.anvil g).vr f.a)).foldl (fun (acc : Int) x => acc + sgn 32 x) 0
    let (v, o) := satS 32 t
    (.v f.d (packLanes (List.replicate 32 (wrap 32 v))), flagIf o fIntSat)))

/-! ### Conversions (R169) -/

/-- The register with elements `32 P` to `32 P + 31` of width `w` replaced. -/
def partPut (d : Row) (w p : Nat) (l : List Nat) : Row :=
  (l.zipIdx).foldl (fun d x => setElem d w (32 * p + x.2) x.1) d

/-- Element `32 P + l` of width `w`, for each lane. -/
def partGet (a : Row) (w p : Nat) : List Nat := (List.range 32).map (fun l => elemAt a w (32 * p + l))

/-- A conversion of 32 lanes in ascending order, each with its mode and draw (R82). -/
def cvtLanes (rm : Nat) (fn : Mode → Nat → Nat × Flags) (l : List Nat) (st : Word) : List Nat × Flags × Word :=
  l.foldl (fun acc x =>
    let (m, st) := modeOf rm acc.2.2
    let (y, fl) := fn m x
    (acc.1 ++ [y], acc.2.1 ||| fl, st)) ([], 0, st)

/-- The format of a float conversion opcode: 0 BF16, 1 FP16, 2 E4M3, 3 E5M2. -/
def cvtFmt (i : Nat) : Fmt :=
  match i with
  | 0 => bf16
  | 1 => fp16
  | 2 => e4m3
  | _ => e5m2

/-- A VR conversion that may draw. -/
def vrSr (op lo hi : Nat) (f : VRf) (r : State → Nat → Word → Row × Flags × Word) : SlotOp :=
  .plain vSlots (vrLegal op f && within op lo hi) (vrDests op f) (fun s => s.eachSr f.pred latVF actVF (fun g st =>
    let (x, fl, st) := r s g st
    (.v f.d x, fl, st)))

/-- `cvt.bf16.f32` to `cvt.e5m2.f32` (R169, R74–R79). -/
def execCvtNarrow (h : Hd) (op : Nat) (f : VRf) (s : State) : Out :=
  s.slotOp h (vrSr op 0x50 0x53 f (fun s g st =>
    let a := s.anvil g
    let (l, fl, st) := cvtLanes f.rm (fun m x =>
      let (y, fl) := (cvtFmt (op - 0x50)).convertV m (f32 x)
      (y, fl ||| nanIn x)) (lanesOf (a.vr f.a)) st
    (partPut (a.vr f.d) (cvtWidth op) (f.mod % 8) l, fl, st)))

/-- `cvt.s32.f32` (R74, R90). -/
def execCvtS32F32 (h : Hd) (f : VRf) (s : State) : Out :=
  s.slotOp h (vrSr 0x54 0x54 0x54 f (fun s g st =>
    let (l, fl, st) := cvtLanes f.rm (fun m x =>
      let (v, fl) := toInteger 32 m (f32 x)
      (wrap 32 v, fl ||| nanIn x)) (lanesOf ((s.anvil g).vr f.a)) st
    (packLanes l, fl, st)))

/-- `cvt.s8.s32`, `cvt.s4.s32` (R86, R169). -/
def execCvtIntNarrow (h : Hd) (op : Nat) (f : VRf) (s : State) : Out :=
  s.slotOp h (vrOp op 0x55 0x56 f latVF actVF (fun s g =>
    let a := s.anvil g
    let w := cvtWidth op
    let l := (lanesOf (a.vr f.a)).map (fun x => let (v, o) := satS w (sgn 32 x); (wrap w v, flagIf o fIntSat))
    (.v f.d (partPut (a.vr f.d) w (f.mod % 8) (l.map (·.1))), l.foldl (fun acc p => acc ||| p.2) 0)))

/-- `cvt.f32.*` from 16- and 8-bit floats, and `cvt.s32.s8`, `cvt.s32.s4` (R169): exact. -/
def execCvtWiden (h : Hd) (op : Nat) (f : VRf) (s : State) : Out :=
  s.slotOp h { vrOp op 0x58 0x5E f latVF actVF (fun s g =>
    let w := cvtWidth op
    let l := (partGet ((s.anvil g).vr f.a) w f.mod).map (fun x =>
      if op ≥ 0x5D then noFl (wrap 32 (sgn w x))
      else
        let v := (cvtFmt (op - 0x58)).decode x
        ((fp32.convertV .rne v).1, flagIf (v == .nan) fNanIn))
    (.v f.d (packLanes (l.map (·.1))), l.foldl (fun acc p => acc ||| p.2) 0)) with
    legal := vrLegal op f && within op 0x58 0x5E && op != 0x5C }

/-- `cvt.f32.s32`. -/
def execCvtF32S32 (h : Hd) (f : VRf) (s : State) : Out :=
  s.slotOp h (vrSr 0x5C 0x5C 0x5C f (fun s g st =>
    let (l, fl, st) := cvtLanes f.rm (fun m x => fp32.convertV m (intVal (sgn 32 x) 0)) (lanesOf ((s.anvil g).vr f.a)) st
    (packLanes l, fl, st)))

/-! ### Microscaling (R170) -/

/-- `mxq.*`. -/
def execMxq (h : Hd) (op : Nat) (f : VRf) (s : State) : Out :=
  s.slotOp h (vrSr op 0x60 0x65 f (fun s g st =>
    let a := s.anvil g
    let e := op - 0x60
    let (l, fl, st) := mxQuant e f.rm ((lanesOf (a.vr f.a)).map f32) (elemAt (a.vr f.b) 8 0) st
    (partPut (a.vr f.d) (elemWidth (mxType e)) f.mod l, fl, st)))

/-- `mxdq.*`: a conversion, with the flags of R75 and R77 (DEDUCED, assumption log 148). -/
def execMxdq (h : Hd) (op : Nat) (f : VRf) (s : State) : Out :=
  s.slotOp h (vrOp op 0x68 0x6D f latVF actVF (fun s g =>
    let a := s.anvil g
    let t := mxType (op - 0x68)
    let l := (partGet (a.vr f.a) (elemWidth t) f.mod).map (fun x =>
      let (v, fl) := scaled t x (some (elemAt (a.vr f.b) 8 0))
      let (y, cv) := fp32.convertV .rne v
      (y, fl ||| cv))
    (.v f.d (packLanes (l.map (·.1))), l.foldl (fun acc p => acc ||| p.2) 0)))

/-- `mxsc.*`: the scale byte of the lanes into byte IMM[6:0]. -/
def execMxsc (h : Hd) (op : Nat) (f : VIf) (s : State) : Out :=
  s.slotOp h (viOp op 0x98 0x9D f latVF actVF (fun s g =>
    let a := s.anvil g
    let (x, fl) := mxScale (op - 0x98) ((lanesOf (a.vr f.a)).map f32)
    (.v f.d (setElem (a.vr f.d) 8 (f.imm % 128) x), fl)))

/-! ### VI operations -/

/-- The signed 16-bit immediate as bits. -/
def simm16 (f : VIf) (w : Nat) : Nat := wrap w (sgn 16 f.imm)

/-- The BF16 immediate widened exactly; a NaN gives the canonical NaN (R53, R124). -/
def bfImm (f : VIf) : Nat :=
  let x := f.imm % 2 ^ 16 * 2 ^ 16
  if f32 x = .nan then fp32.nanBits else x

/-- A lane-by-lane VI operation. -/
def viLanes (f : VIf) (fn : Nat → Nat × Flags) (s : State) (g : Nat) : AEff × Flags :=
  let (x, fl) := lanes2 (fun a _ => fn a) (s.vecSrc g f.sf f.a) 0
  (.v f.d x, fl)

/-- `addi.s32`, `muli.s32` (R86). -/
def execAddiMuliS32 (h : Hd) (op : Nat) (f : VIf) (s : State) : Out :=
  s.slotOp h (viOp op 0x80 0x81 f latVS actVS (viLanes f (fun a =>
    satFl (intOp 32 true (if op = 0x80 then .add else .mul) a (simm16 f 32)))))

/-- `addi.f32`, `muli.f32` (R166). -/
def execAddiMuliF32 (h : Hd) (op : Nat) (f : VIf) (s : State) : Out :=
  s.slotOp h (viOp op 0x82 0x83 f latVS actVS (viLanes f (fun a =>
    if op = 0x82 then f32Add a (bfImm f) else f32Mul a (bfImm f))))

/-- `movi.s32`. -/
def execMoviS32 (h : Hd) (f : VIf) (s : State) : Out :=
  s.slotOp h (viOp 0x84 0x84 0x84 f latVS actVS (fun _ _ => (.v f.d (packLanes (List.replicate 32 (simm16 f 32))), 0)))

/-- `movi.f32`. -/
def execMoviF32 (h : Hd) (f : VIf) (s : State) : Out :=
  s.slotOp h (viOp 0x85 0x85 0x85 f latVS actVS (fun _ _ => (.v f.d (packLanes (List.replicate 32 (bfImm f))), 0)))

/-- `addi.s64`, `addi.u64`, `muli.s64`, `muli.u64` (R86). -/
def execVAddiMuliS64 (h : Hd) (op : Nat) (f : VIf) (s : State) : Out :=
  s.slotOp h (viOp op 0x88 0x8B f latVS actVS (fun s g =>
    let (x, o) := intOp 64 (op % 2 == 0) (if op < 0x8A then .add else .mul) (s.scalar g f.sf f.a) (simm16 f 64)
    (fileEff f.df f.d x, flagIf o fIntSat)))

/-- `movi.s64`. -/
def execVMoviS64 (h : Hd) (f : VIf) (s : State) : Out :=
  s.slotOp h (viOp 0x8C 0x8C 0x8C f latVS actVS (fun _ _ => (fileEff f.df f.d (simm16 f 64), 0)))

/-- `slli.b64`, `srli.b64` (R87). -/
def execSlliSrliB64 (h : Hd) (op : Nat) (f : VIf) (s : State) : Out :=
  s.slotOp h (viOp op 0x8D 0x8E f latVS actVS (fun s g =>
    (fileEff f.df f.d (shift (op - 0x8D) (BitVec.ofNat 64 (s.scalar g f.sf f.a)) (f.imm % 64)).toNat, 0)))

/-- `lext.b32`. -/
def execLextB32 (h : Hd) (f : VIf) (s : State) : Out :=
  s.slotOp h (viOp 0x90 0x90 0x90 f latVX actVTX (fun s g => (fileEff f.df f.d (lane ((s.anvil g).vr f.a) (f.imm % 32)), 0)))

/-- `lins.b32`. -/
def execLinsB32 (h : Hd) (f : VIf) (s : State) : Out :=
  s.slotOp h (viOp 0x91 0x91 0x91 f latVX actVTX (fun s g =>
    (.v f.d (setElem ((s.anvil g).vr f.d) 32 (f.imm % 32) (s.scalar g f.sf f.a)), 0)))

/-- `bins.b8`. -/
def execBinsB8 (h : Hd) (f : VIf) (s : State) : Out :=
  s.slotOp h (viOp 0x92 0x92 0x92 f latVX actVTX (fun s g =>
    (.v f.d (setElem ((s.anvil g).vr f.d) 8 (f.imm % 128) (s.scalar g f.sf f.a)), 0)))

/-- `cmpi.s64`: always sets p[D] (R171). -/
def execCmpiS64 (h : Hd) (f : VIf) (s : State) : Out :=
  s.slotOp h (viOp 0xA0 0xA0 0xA0 f latVS actVS (fun s g =>
    (.p f.d (intCmp 64 true (condOf f.mod) (s.scalar g f.sf f.a) (simm16 f 64)), 0)))

end Sys2Proof.Machine
end

