-- ==== Sys2Proof/Machine/CrucRun.lean ====
section
/-! DEFINITION. What a Crucible command does to its stack (R283, R295–R318): reads that can meet an uncorrectable
error, outputs by contiguous ranges, and the arithmetic of the twelve commands. -/

namespace Sys2Proof.Machine

/-! ### A running command -/

/-- A command in execution: the device, its flag word, its generator, its first error with location, its scrub
counts. -/
structure CRun where
  s : State
  fl : Flags
  st : Word
  err : Nat
  loc : Word
  ce : Nat
  ue : Nat
deriving DecidableEq, Repr

/-- An execution error; the first one stands. -/
def CRun.fail (r : CRun) (e : Nat) (loc : Word) : CRun := if r.err ≠ 0 then r else { r with err := e, loc := loc }

/-- Flags raised. -/
def CRun.flags (r : CRun) (f : Flags) : CRun := { r with fl := r.fl ||| f }

/-- `n` bytes read from the arrays as a number (R314): 0 once the command has failed. -/
def CRun.load (r : CRun) (a n : Nat) : Nat × CRun :=
  if r.err ≠ 0 then (0, r)
  else
    match r.s.ueIn a n with
    | some k => (0, { r with s := r.s.reportUe 4 k }.fail 0x13 (locOf k))
    | none => (r.s.readN a n, { r with s := (r.s.correctRange a n).moved true a n })

/-- Bytes of an array of small items read item by item: the 32-byte unit is read once, with its first item. -/
def CRun.loadItem (r : CRun) (a n : Nat) (first : Bool) : Nat × CRun :=
  if first ∨ a % 32 = 0 then
    let r := (r.load (a / 32 * 32) 32).2
    (if r.err ≠ 0 then 0 else r.s.readN a n, r)
  else (if r.err ≠ 0 then 0 else r.s.readN a n, r)

/-- Whole units written. -/
def CRun.store (r : CRun) (a : Nat) (l : List Byte) : CRun := { r with s := (r.s.writeBytes a l).moved true a l.length }

/-- Output bytes produced so far for a range that starts at `a`: completed with zeros (R297), or, where the command has
failed, cut to whole units (R322). -/
def CRun.flush (r : CRun) (a : Nat) (l : List Byte) : CRun :=
  let l := if r.err ≠ 0 then l.take (l.length / 32 * 32) else l ++ List.replicate (up32 l.length - l.length) 0
  if l.isEmpty then r else r.store a l

/-- The start of a command's generator (R315). -/
def crcSrStart (seed : Word) (k tag : Nat) : Word := srMix (seed ^^^ srMix (BitVec.ofNat 64 ((160 + k) * 2 ^ 32 + tag)))

/-- The generator before draw `i`. -/
def srAt (st : Word) (i : Nat) : Word := st + BitVec.ofNat 64 i * 0x9E3779B97F4A7C15#64

/-- Element `i` of a packed row (R54, R295). -/
def rowElem (t row i : Nat) : Nat := row / 2 ^ (elemWidth t * i) % 2 ^ elemWidth t

/-- One output element of a format (R296) at draw `i` (R316): its bytes and flags. -/
def outElem (fmt rm : Nat) (st : Word) (i : Nat) (v : FVal) : List Byte × Flags :=
  let (x, f) := toTarget fmt (modeOf rm (srAt st i)).1 v
  (toBytes (outBytes fmt) x, f)

/-- A partial in its 16-byte slot. -/
def slotBytes (p : Part) : List Byte := toBytes 16 p.pack

/-! ### Arithmetic -/

/-- An accumulation of products or values into one fresh cell (R63): the cell, its sticky flags, the flag word. -/
structure Acc1 where
  c : Cell
  b : BFlags
  fl : Flags
deriving DecidableEq, Repr

/-- A fresh cell. -/
def Acc1.zero : Acc1 := ⟨Cell.zero, ⟨false, false, false, false⟩, 0⟩

/-- One contribution. -/
def Acc1.add (e : Int) (a : Acc1) (p : FVal × Flags) : Acc1 :=
  let (c, f) := contribute e a.c [p.1]
  ⟨c, ⟨a.b.nx || f.nx, a.b.ovf || f.ovf, a.b.sp || f.sp, a.b.inv || f.inv⟩, a.fl ||| p.2 ||| f.aflags⟩

/-- The cell as a partial (R72). -/
def Acc1.part (a : Acc1) (e : Int) : Part := ⟨a.c.cls, a.b.ovf, a.b.nx, e, a.c.sig.toInt⟩

/-- The cell read out to FP32 with RNE (R304). -/
def Acc1.f32 (a : Acc1) (e : Int) : Nat × Flags := fp32.convertV .rne (a.c.value e 0)

/-- Division of R283. -/
def f32Div (a b : Nat) : Nat × Flags :=
  let neg := (f32 a).neg != (f32 b).neg
  match f32 a, f32 b with
  | .nan, _ => (fp32.nanBits, fNanIn)
  | _, .nan => (fp32.nanBits, fNanIn)
  | .inf _, .inf _ => (fp32.nanBits, fInvalid)
  | .inf _, .fin _ _ _ => (f32Inf neg, 0)
  | .fin _ _ _, .inf _ => (fp32.sign neg, 0)
  | .fin _ ma ea, .fin _ mb eb =>
    if mb = 0 then (if ma = 0 then (fp32.nanBits, fInvalid) else (f32Inf neg, 0))
    else if ma = 0 then (fp32.sign neg, 0)
    else f32Dy neg (divDy ma ea mb eb)

/-- Negative infinity. -/
def f32NegInf : Nat := f32Inf true

/-- `exp2(sub(a, b))`. -/
def exp2Sub (a b : Nat) : Nat × Flags :=
  let (d, f1) := f32Sub a b
  let (e, f2) := f32Fun .exp2 d
  (e, f1 ||| f2)

/-! ### GEMV (R300, R301) -/

/-- One dot product of GEMV. -/
def gemvDot (e : Int) (wt xt k w x sc : Nat) : Acc1 :=
  (List.range k).foldl (fun a i =>
    a.add e (product wt (rowElem wt w i) (if maMx wt then some (sc / 2 ^ (8 * (i / 32)) % 256) else none)
      xt (rowElem xt x i) none false)) Acc1.zero

/-- The output element of vector `v`, row `j` (R301). -/
def gemvOut (d : BitVec 512) (r : CRun) (m v j : Nat) (a : Acc1) : List Byte × CRun :=
  let e := dExp d
  let r := r.flags a.fl
  if dOut d = 6 then
    let p := a.part e
    if dF d 0x3F 1 = 0 then (slotBytes p, r)
    else
      let at_ := dF d 0x20 8 + v * up32 (m * 16) + 16 * j
      let (old, r) := r.loadItem at_ 16 false
      match Part.unpack old with
      | none => (toBytes 16 old, r.flags fInvalid)
      | some o => (slotBytes (o.combine p).1, r.flags (o.combFlags p))
  else
    let (b, f) := outElem (dOut d) (dRm d) r.st (v * m + j) (a.c.value e (dMofs d))
    (b, r.flags f)

/-- GEMV: each row of W is read once for all vectors. -/
def CRun.gemv (r : CRun) (d : BitVec 512) : CRun :=
  let f := dF d
  let (m, k, nv, wt, xt) := (f 0x30 4, f 0x34 4, f 0x3E 1, f 0x3C 1, f 0x3D 1)
  let (xs, r) := (List.range nv).foldl (fun (acc : List Nat × CRun) v =>
    let (x, r) := acc.2.load (f 0x18 8 + v * up32 (elemBytes xt k)) (elemBytes xt k)
    (acc.1 ++ [x], r)) ([], r)
  let start : List (List Byte) × CRun := (List.replicate nv [], r)
  let (outs, r) := (List.range m).foldl (fun (acc : List (List Byte) × CRun) j =>
    let (w, r) := acc.2.load (f 0x10 8 + j * f 0x38 4) (elemBytes wt k)
    let (sc, r) := if maMx wt then r.load (f 0x28 8 + j * (k / 32)) (k / 32) else (0, r)
    if r.err ≠ 0 then (acc.1, r)
    else
      (List.range nv).foldl (fun (acc : List (List Byte) × CRun) v =>
        let (b, r) := gemvOut d acc.2 m v j (gemvDot (dExp d) wt xt k w (xs.getD v 0) sc)
        if r.err ≠ 0 then (acc.1, r) else (acc.1.modify v (· ++ b), r)) (acc.1, r)) start
  (outs.zipIdx).foldl (fun r p => r.flush (f 0x20 8 + p.2 * up32 (m * outBytes (dOut d))) p.1) r

/-! ### ATTN and AMERGE (R302–R306) -/

/-- A tile's or a merge's running values for one query vector: m, l and o. -/
structure Attn where
  m : Nat
  l : Nat
  o : List Nat
  fl : Flags
deriving DecidableEq, Repr

/-- One tile of 256 tokens (R304). `kv` gives the K and V rows of the tokens of the tile that are in range. -/
def attnTile (e ev : Int) (kt qt dim q scale : Nat) (a : Attn) (kv : List (Option (Nat × Nat))) : Attn :=
  let sc := kv.map (fun t =>
    match t with
    | none => (f32NegInf, (0 : Flags))
    | some (kr, _) =>
      let acc := (List.range dim).foldl (fun acc i =>
        Acc1.add e acc (product qt (rowElem qt q i) none kt (rowElem kt kr i) none false)) Acc1.zero
      let (x, f1) := acc.f32 e
      let (y, f2) := f32Mul x scale
      (y, acc.fl ||| f1 ||| f2))
  let ss := sc.map (·.1)
  let fl := sc.foldl (fun f p => f ||| p.2) a.fl
  let (mt, f1) := reduceF32 (f32MinMax true) 8 ss
  let (mn, f2) := f32MinMax true a.m mt
  let (c, f3) := if a.m = f32NegInf then (0, 0) else exp2Sub a.m mn
  let ps := ss.map (fun x => if x = f32NegInf then (0, (0 : Flags)) else exp2Sub x mn)
  let fl := ps.foldl (fun f p => f ||| p.2) (fl ||| f1 ||| f2 ||| f3)
  let (sum, f4) := reduceF32 f32Add 8 (ps.map (·.1))
  let (l, f5) := f32Fma false a.l c sum
  let pv := (ps.map (·.1)).zip kv
  let os := a.o.zipIdx.map (fun od =>
    let acc := pv.foldl (fun acc t =>
      match t.2 with
      | none => acc
      | some (_, vr) => Acc1.add ev acc (product 13 t.1 none kt (rowElem kt vr od.2) none false)) Acc1.zero
    let (x, g1) := acc.f32 ev
    let (y, g2) := f32Fma false od.1 c x
    (y, acc.fl ||| g1 ||| g2))
  ⟨mn, l, os.map (·.1), os.foldl (fun f p => f ||| p.2) (fl ||| f4 ||| f5)⟩

/-- An attention record (R303). -/
def recordOf (a : Attn) (ntok : Nat) : List Byte :=
  toBytes 4 a.m ++ toBytes 4 a.l ++ toBytes 4 (min ntok (2 ^ 32 - 1)) ++ List.replicate 52 0 ++ a.o.flatMap (toBytes 4)

/-- The output of query vector `q` (R304): a record, or the normalised vector. -/
def CRun.attnOut (r : CRun) (d : BitVec 512) (base dim q ntok : Nat) (a : Attn) : CRun :=
  let r := r.flags a.fl
  if dOut d = 7 then r.flush (base + q * (64 + 4 * dim)) (recordOf a ntok)
  else
    let (bs, fl) := a.o.zipIdx.foldl (fun (acc : List Byte × Flags) od =>
      let (x, f1) := f32Div od.1 a.l
      let (b, f2) := outElem (dOut d) (dRm d) r.st (q * dim + od.2) (f32 x)
      (acc.1 ++ b, acc.2 ||| f1 ||| f2)) ([], 0)
    (r.flags fl).flush (base + q * up32 (dim * outBytes (dOut d))) bs

/-- The page of token `t` through the page table (R303, R305): its stack-linear address. -/
def CRun.page (r : CRun) (k : Nat) (d : BitVec 512) (t ptok : Nat) (first : Bool) : Nat × CRun :=
  let pg := dF d 0x38 1
  let (e, r) := r.loadItem (dF d 0x18 8 + t / ptok * 4) 4 first
  if r.err ≠ 0 then (0, r)
  else if e < 2 ^ 31 then (0, r.fail 0x10 0)
  else
    let a := stackBase k + e % 2 ^ 24 * 2 ^ pg
    if Rng.inStack k (Rng.one a (2 ^ pg)) then (a, r) else (0, r.fail 0x11 0)

/-- ATTN: the tokens' rows are read in ascending order, then every query vector is computed (R304). -/
def CRun.attn (r : CRun) (k : Nat) (d : BitVec 512) : CRun :=
  let f := dF d
  let (nq, kt, qt, pg) := (f 0x35 1, f 0x36 1, f 0x37 1, f 0x38 1)
  let dim := 64 * 2 ^ f 0x34 1
  let (t0, t1) := (f 0x2C 4, f 0x30 4)
  let rb := elemBytes kt dim
  let ptok := 2 ^ pg / (2 * rb)
  let (qs, r) := (List.range nq).foldl (fun (acc : List Nat × CRun) q =>
    let (x, r) := acc.2.load (f 0x10 8 + q * up32 (elemBytes qt dim)) (elemBytes qt dim)
    (acc.1 ++ [x], r)) ([], r)
  let (toks, _, r) := (List.range (t1 - t0)).foldl (fun (acc : List (Nat × Nat) × Nat × CRun) i =>
    let t := t0 + i
    let (l, pa, r) := acc
    let (pa, r) := if i = 0 ∨ t % ptok = 0 then r.page k d t ptok (i == 0) else (pa, r)
    let (kr, r) := r.load (pa + t % ptok * rb) rb
    let (vr, r) := r.load (pa + 2 ^ (pg - 1) + t % ptok * rb) rb
    (l ++ [(kr, vr)], pa, r)) ([], 0, r)
  if r.err ≠ 0 then r
  else
    let tiles := (List.range ((t1 - 1) / 256 - t0 / 256 + 1)).map (fun u =>
      (List.range 256).map (fun i =>
        let t := 256 * (t0 / 256 + u) + i
        if t < t0 ∨ t ≥ t1 then none else toks[t - t0]?))
    (qs.zipIdx).foldl (fun r q =>
      let a := tiles.foldl (attnTile (dExp d) (sgn 10 (f 0x3A 2)) kt qt dim q.1 (f 0x28 4))
        (⟨f32NegInf, 0, List.replicate dim 0, 0⟩ : Attn)
      r.attnOut d (f 0x20 8) dim q.2 (t1 - t0) a) r

/-- AMERGE (R306). -/
def CRun.amerge (r : CRun) (d : BitVec 512) : CRun :=
  let f := dF d
  let (nr, nq) := (f 0x20 1, f 0x22 1)
  let dim := 64 * 2 ^ f 0x21 1
  let (all, r) := (List.range (nr * nq)).foldl (fun (acc : List Nat × CRun) i =>
    let (x, r) := acc.2.load (f 0x10 8 + i * (64 + 4 * dim)) (64 + 4 * dim)
    (acc.1 ++ [x], r)) ([], r)
  if r.err ≠ 0 then r
  else
    let w (x o : Nat) : Nat := x / 2 ^ (8 * o) % 2 ^ 32
    (List.range nq).foldl (fun r q =>
      let rs := (List.range nr).map (fun i => all.getD (i * nq + q) 0)
      let (mx, f0) := match rs with
        | [] => (0, 0)
        | x :: l => l.foldl (fun (acc : Nat × Flags) y => let (z, g) := f32MinMax true acc.1 (w y 0); (z, acc.2 ||| g))
            (f32MinMax true (w x 0) (w x 0))
      let ntok := rs.foldl (fun n x => n + w x 8) 0
      let a := rs.foldl (fun (a : Attn) x =>
        let (wt, g1) := if w x 0 = f32NegInf then (0, 0) else exp2Sub (w x 0) mx
        let (l, g2) := f32Fma false (w x 4) wt a.l
        let os := a.o.zipIdx.map (fun od => f32Fma false (w x (64 + 4 * od.2)) wt od.1)
        ⟨mx, l, os.map (·.1), os.foldl (fun g p => g ||| p.2) (a.fl ||| g1 ||| g2)⟩)
        (⟨mx, 0, List.replicate dim 0, f0 ||| flagIf (decide (ntok ≥ 2 ^ 32)) fIntSat⟩ : Attn)
      r.attnOut d (f 0x18 8) dim q ntok a) r

/-! ### GATHER and SCATTER (R307, R308) -/

/-- The indexed row of step `i`, or INDEX_RANGE. -/
def CRun.indexed (r : CRun) (k : Nat) (d : BitVec 512) (base i : Nat) : Nat × CRun :=
  let (x, r) := r.loadItem (dF d 0x20 8 + 4 * i) 4 (i == 0)
  let a := base + x * dF d 0x30 4
  if r.err ≠ 0 then (0, r)
  else if Rng.inStack k (Rng.one a (dF d 0x2C 4)) then (a, r) else (0, r.fail 0x12 0)

/-- A row copied, up to the first unit that cannot be read. -/
def CRun.copyRow (r : CRun) (src dst n : Nat) : CRun :=
  if r.err ≠ 0 then r
  else
    match r.s.ueIn src n with
    | some u =>
      let ok := (List.range (n / 32)).takeWhile (fun i => (r.s.ueIn (src + 32 * i) 32).isNone)
      let r := if ok.isEmpty then r else r.store dst (r.s.bytes src (32 * ok.length))
      { r with s := r.s.reportUe 4 u }.fail 0x13 (locOf u)
    | none =>
      let b := r.s.bytes src n
      { r with s := (r.s.correctRange src n).moved true src n }.store dst b

/-- GATHER. -/
def CRun.gather (r : CRun) (k : Nat) (d : BitVec 512) : CRun :=
  let f := dF d
  (List.range (f 0x28 4)).foldl (fun r i =>
    let (a, r) := r.indexed k d (f 0x10 8) i
    r.copyRow a (f 0x18 8 + i * f 0x2C 4) (f 0x2C 4)) r

/-- SCATTER: overwrite, or combine partials. -/
def CRun.scatter (r : CRun) (k : Nat) (d : BitVec 512) : CRun :=
  let f := dF d
  let n := f 0x2C 4
  (List.range (f 0x28 4)).foldl (fun r i =>
    let (a, r) := r.indexed k d (f 0x18 8) i
    let src := f 0x10 8 + i * n
    if f 0x34 1 = 0 then r.copyRow src a n
    else
      let (x, r) := r.load src n
      let (y, r) := r.load a n
      if r.err ≠ 0 then r
      else
        let (b, fl) := combineSlots (toBytes n y) (toBytes n x) (n / 16)
        (r.flags fl).store a b) r

/-! ### REDUCE (R309) -/

/-- The FP32 bits of an element widened exactly. -/
def widen (t x : Nat) : Nat := (fp32.convertV .rne (elemVal t x)).1

/-- The contribution of an element to SUM (op 0) or SUMSQ (op 1). -/
def reduceTerm (op t x : Nat) : FVal × Flags :=
  if op = 0 then scaled t x none else product t x none t x none false

/-- One step of MAX, MIN or AMAX on widened values. -/
def reduceStep (op : Nat) (a b : Nat) : Nat × Flags := f32MinMax (op != 3) a b

/-- A widened element as MAX, MIN and AMAX compare it. -/
def reduceVal (op t x : Nat) : Nat := let v := widen t x; if op = 4 then v % 2 ^ 31 else v

/-- The result of one reduction, as output bytes at draw `i`. -/
def reduceOut (d : BitVec 512) (st : Word) (i : Nat) (xs : List Nat) : List Byte × Flags :=
  let (t, op) := (dF d 0x2C 1, dF d 0x2D 1)
  if op < 2 then
    let a := xs.foldl (fun a x => Acc1.add (dExp d) a (reduceTerm op t x)) Acc1.zero
    if dOut d = 6 then (slotBytes (a.part (dExp d)), a.fl)
    else
      let (b, f) := outElem (dOut d) (dRm d) st i (a.c.value (dExp d) (dMofs d))
      (b, a.fl ||| f)
  else
    let vs := xs.map (reduceVal op t)
    let fl := vs.foldl (fun f v => f ||| nanIn v) 0
    let (v, f) := match vs with
      | [] => (0, 0)
      | x :: l => l.foldl (fun (acc : Nat × Flags) y => let (z, g) := reduceStep op acc.1 y; (z, acc.2 ||| g)) (x, (0 : Flags))
    let (b, g) := outElem (dOut d) (dRm d) st i (f32 v)
    (b, fl ||| f ||| g)

/-- REDUCE: every row is read once; the results lie contiguously. -/
def CRun.reduce (r : CRun) (d : BitVec 512) : CRun :=
  let f := dF d
  let (n, k, it) := (f 0x20 4, f 0x24 4, f 0x2C 1)
  let (rows, r) := (List.range n).foldl (fun (acc : List Nat × CRun) j =>
    let (x, r) := acc.2.load (f 0x10 8 + j * f 0x28 4) (elemBytes it k)
    (if r.err ≠ 0 then acc.1 else acc.1 ++ [x], r)) ([], r)
  let groups : List (List Nat) :=
    if f 0x2E 1 = 1 then rows.map (fun x => (List.range k).map (rowElem it x))
    else if r.err ≠ 0 then [] else (List.range k).map (fun i => rows.map (fun x => rowElem it x i))
  let (bs, fl) := (groups.zipIdx).foldl (fun (acc : List Byte × Flags) g =>
    let (b, x) := reduceOut d r.st g.2 g.1
    (acc.1 ++ b, acc.2 ||| x)) ([], 0)
  (r.flags fl).flush (f 0x18 8) bs

/-! ### ELTW, PACK, UNPACK (R310, R311) -/

/-- The operation of ELTW on widened operands. -/
def eltwOp (op s0 s1 a b : Nat) : Nat × Flags :=
  match op with
  | 0 => (a, 0)
  | 1 => f32Add a b
  | 2 => f32Sub a b
  | 3 => f32Mul a b
  | 4 => f32MinMax true a b
  | 5 => f32MinMax false a b
  | 6 => f32Fma false a s0 s1
  | 7 => f32Fma false a s0 b
  | 8 => let (x, f) := f32Fma false a s0 s1; let (y, g) := f32Fun .exp2 x; (y, f ||| g)
  | _ => let (x, f) := f32Fma false a s0 s1; let (y, g) := f32Fun .rsqrt x; (y, f ||| g)

/-- The readable prefix of a range, in whole units, as a number, and its length. -/
def CRun.loadPrefix (r : CRun) (a n : Nat) : Nat × Nat × CRun :=
  if r.err ≠ 0 then (0, 0, r)
  else
    match r.s.ueIn a n with
    | none => (r.s.readN a n, n, { r with s := (r.s.correctRange a n).moved true a n })
    | some u =>
      let ok := 32 * ((List.range (n / 32 + 1)).takeWhile (fun i => (r.s.ueIn (a + 32 * i) 32).isNone)).length
      (r.s.readN a ok, ok, { r with s := r.s.reportUe 4 u }.fail 0x13 (locOf u))

/-- Elements of a type that `n` bytes hold. -/
def elemsIn (t n : Nat) : Nat := n * 8 / elemWidth t

/-- ELTW. -/
def CRun.eltw (r : CRun) (d : BitVec 512) : CRun :=
  let f := dF d
  let (n, ta, tb, op) := (f 0x28 4, f 0x2C 1, f 0x2D 1, f 0x2E 1)
  let un : Bool := op == 0 || op == 6 || op == 8 || op == 9
  let (x, la, r1) := r.loadPrefix (f 0x10 8) (elemBytes ta n)
  let (y, lb, r2) := if un then (0, 0, r1) else ({ r1 with err := 0 } : CRun).loadPrefix (f 0x18 8) (elemBytes tb n)
  let r := if r1.err ≠ 0 then { r2 with err := r1.err, loc := r1.loc } else r2
  let cnt := min n (if un then elemsIn ta la else min (elemsIn ta la) (elemsIn tb lb))
  let (bs, fl) := (List.range cnt).foldl (fun (acc : List Byte × Flags) i =>
    let a := widen ta (rowElem ta x i)
    let b := if un then 0 else widen tb (rowElem tb y i)
    let (z, g) := eltwOp op (f 0x30 4) (f 0x34 4) a b
    let (o, h) := outElem (dOut d) (dRm d) r.st i (f32 z)
    (acc.1 ++ o, acc.2 ||| nanIn a ||| nanIn b ||| g ||| h)) ([], 0)
  (r.flags fl).flush (f 0x20 8) bs

/-- The index of an MX code among the formats of `mxType`. -/
def mxIndex (t : Nat) : Nat :=
  match t with
  | 6 => 0
  | 7 => 1
  | 8 => 2
  | 9 => 3
  | 12 => 4
  | _ => 5

/-- Elements packed to bytes (R55). -/
def packElems (w : Nat) (l : List Nat) : List Byte :=
  toBytes ((l.length * w + 7) / 8) (l.foldr (fun x acc => x % 2 ^ w + 2 ^ w * acc) 0)

/-- PACK: block by block, up to the first that cannot be read. -/
def CRun.pack (r : CRun) (d : BitVec 512) : CRun :=
  let f := dF d
  let (nb, st, mt) := (f 0x28 4, f 0x2C 1, f 0x2D 1)
  let (es, scs, r) := (List.range nb).foldl (fun (acc : List Byte × List Byte × CRun) b =>
    let (x, r) := acc.2.2.load (f 0x10 8 + b * elemBytes st 32) (elemBytes st 32)
    if r.err ≠ 0 then (acc.1, acc.2.1, r)
    else
      let vs := (List.range 32).map (fun i => elemVal st (rowElem st x i))
      let (sc, f1) := mxScale (mxIndex mt) vs
      let (l, f2, gen) := mxQuant (mxIndex mt) (dRm d) vs sc r.st
      (acc.1 ++ packElems (elemWidth mt) l, acc.2.1 ++ toBytes 1 sc, { r.flags (f1 ||| f2) with st := gen })) ([], [], r)
  (r.flush (f 0x18 8) es).flush (f 0x20 8) scs

/-- UNPACK. -/
def CRun.unpack (r : CRun) (d : BitVec 512) : CRun :=
  let f := dF d
  let (nb, st) := (f 0x28 4, f 0x2C 1)
  let (bs, r) := (List.range nb).foldl (fun (acc : List Byte × CRun) b =>
    let (x, r) := acc.2.load (f 0x10 8 + b * elemBytes st 32) (elemBytes st 32)
    let (sc, r) := r.loadItem (f 0x20 8 + b) 1 (b == 0)
    if r.err ≠ 0 then (acc.1, r)
    else
      let (o, fl) := (List.range 32).foldl (fun (a : List Byte × Flags) i =>
        let (v, g) := scaled st (rowElem st x i) (some sc)
        let (y, h) := outElem (dOut d) (dRm d) r.st (32 * b + i) v
        (a.1 ++ y, a.2 ||| g ||| h)) ([], 0)
      (acc.1 ++ o, r.flags fl)) ([], r)
  r.flush (f 0x18 8) bs

/-! ### COPY, FILL, SCRUB (R312, R313) -/

/-- COPY. -/
def CRun.copy (r : CRun) (d : BitVec 512) : CRun := r.copyRow (dF d 0x10 8) (dF d 0x18 8) (dF d 0x20 8)

/-- FILL. -/
def CRun.fill (r : CRun) (d : BitVec 512) : CRun :=
  r.store (dF d 0x18 8) (List.replicate (dF d 0x20 8 / 8) (toBytes 8 (dF d 0x10 8))).flatten

/-- SCRUB: corrected units are counted and written back, uncorrectable ones reported. -/
def CRun.scrub (r : CRun) (d : BitVec 512) : CRun :=
  let (a, n) := (dF d 0x18 8, dF d 0x20 8)
  let ces := r.s.errUnits 1 a n
  let ues := r.s.errUnits 2 a n
  let s := (ces.foldl State.correct r.s).moved true a n
  let s := ues.foldl (fun s u => s.reportUe 4 u) s
  let r := { r with s := s, ce := ces.length, ue := ues.length }
  match ues with
  | [] => r
  | u :: _ => if dF d 0x28 1 = 1 then r.fail 0x14 (locOf u) else r

/-! ### Cycle counts (R319) -/

/-- `⌈a ÷ b⌉`. -/
def ceilDiv (a b : Nat) : Nat := (a + b - 1) / b

/-- Positions per cycle of the matrix array (R282). -/
def macRate (ta tb : Nat) : Nat := if elemWidth ta ≤ 8 ∧ elemWidth tb ≤ 8 then 10240 else 5120

/-- Cycles with the matrix array and with the vector unit busy. -/
def crucCycles (d : BitVec 512) : Nat × Nat :=
  let f := dF d
  match dCmd d with
  | 1 => (ceilDiv (f 0x30 4 * f 0x34 4 * f 0x3E 1) (macRate (f 0x3C 1) (f 0x3D 1)), 0)
  | 2 =>
    let (n, dim) := (f 0x30 4 - f 0x2C 4, 64 * 2 ^ f 0x34 1)
    (ceilDiv (2 * f 0x35 1 * dim * n) (macRate (f 0x36 1) (f 0x37 1)), ceilDiv (3 * f 0x35 1 * n) 256)
  | 3 => (0, ceilDiv (f 0x22 1 * f 0x20 1 * (64 * 2 ^ f 0x21 1 + 4)) 256)
  | 6 => (0, ceilDiv (f 0x20 4 * f 0x24 4) 256)
  | 7 => (0, ceilDiv (f 0x28 4) 256)
  | 8 => (0, ceilDiv (32 * f 0x28 4) 256)
  | 9 => (0, ceilDiv (32 * f 0x28 4) 256)
  | _ => (0, 0)

end Sys2Proof.Machine
end

