-- ==== Sys2Proof/Machine/Crucible.lean ====
section
/-! DEFINITION. The Crucible commands: start of each command, completion, priority interleave and host admission
(R285–R292, R299–R313, R320–R322). -/

namespace Sys2Proof.Machine

/-- The cycles a command kept the matrix array and the vector unit busy (R319, R407): all of them, or, where it failed on the
way, a number the spec leaves open, no larger. SCRUB fails at its end. -/
def State.crucBusy (s : State) (d : BitVec 512) (err : Nat) : (Nat × Nat) × State :=
  let c := crucCycles d
  if err = 0 ∨ err = 0x14 then (c, s)
  else
    let (m, s) := s.fresh (c.1 + 1)
    let (v, s) := s.fresh (c.2 + 1)
    ((m, v), s)

/-- Start the eligible head of Crucible `k` where it is a command of code `code` (R287): its outputs are written and its
result waits for completion. `t`: the time. -/
def State.crucStart (s : State) (k code t : Nat) (run : CRun → CCmd → CRun) : State :=
  let c := s.cruc k
  if k ≥ 20 || c.run.isSome then s
  else
    match c.next with
    | none => s
    | some q =>
      match c.queue q with
      | [] => s
      | x :: _ =>
        if dCmd x.desc ≠ code then s
        else
          let r := run ⟨s.at t, 0, crcSrStart x.seed k (dF x.desc 2 2), 0, 0, 0, 0⟩ x
          let (cy, s) := r.s.crucBusy x.desc r.err
          let s := (s.add (CRUC_CRMCNT_COUNT k) cy.1).add (CRUC_CRVCNT_COUNT k) cy.2
          (s.setCruc k { c.pop q with run := some (x, ⟨r.fl, r.err, r.loc, r.ce, r.ue⟩) }).crucStat k

/-- The running command completes (R289, R292, R317, R320–R322); an interrupted command resumes when no P head may
start (R290, R291). -/
def State.crucDone (s : State) (k : Nat) : State :=
  let c := s.cruc k
  match c.run with
  | none => s
  | some (x, r) =>
    let c : Cruc := { c with run := none }
    let c : Cruc := if c.pNext then c else { c with run := c.susp, susp := none }
    (((s.setCruc k c).crucStat k).crucEnd k x r).crucAnswer k x.src (if r.err = 0 then 1 else 2) r.err x.seq r.flags r.loc

/-- CRUC_NOP: it completes when it starts (R299). -/
def execCrucNop (stk t : Nat) (s : State) : Out :=
  let s' := s.crucStart stk 0 t (fun r _ => r)
  .next (if (s.cruc stk).run.isNone && (s'.cruc stk).run.isSome then s'.crucDone stk else s')

/-- GEMV (R300, R301). -/
def execGemv (stk t : Nat) (s : State) : Out := .next (s.crucStart stk 1 t (fun r x => r.gemv x.desc))

/-- ATTN (R302–R305). -/
def execAttn (stk t : Nat) (s : State) : Out := .next (s.crucStart stk 2 t (fun r x => r.attn stk x.desc))

/-- AMERGE (R306). -/
def execAmerge (stk t : Nat) (s : State) : Out := .next (s.crucStart stk 3 t (fun r x => r.amerge x.desc))

/-- GATHER (R307). -/
def execGather (stk t : Nat) (s : State) : Out := .next (s.crucStart stk 4 t (fun r x => r.gather stk x.desc))

/-- SCATTER (R307, R308). -/
def execScatter (stk t : Nat) (s : State) : Out := .next (s.crucStart stk 5 t (fun r x => r.scatter stk x.desc))

/-- REDUCE (R309). -/
def execReduce (stk t : Nat) (s : State) : Out := .next (s.crucStart stk 6 t (fun r x => r.reduce x.desc))

/-- ELTW (R310). -/
def execEltw (stk t : Nat) (s : State) : Out := .next (s.crucStart stk 7 t (fun r x => r.eltw x.desc))

/-- PACK (R311). -/
def execPack (stk t : Nat) (s : State) : Out := .next (s.crucStart stk 8 t (fun r x => r.pack x.desc))

/-- UNPACK (R311). -/
def execUnpack (stk t : Nat) (s : State) : Out := .next (s.crucStart stk 9 t (fun r x => r.unpack x.desc))

/-- COPY (R312). -/
def execCopy (stk t : Nat) (s : State) : Out := .next (s.crucStart stk 10 t (fun r x => r.copy x.desc))

/-- FILL (R312). -/
def execFill (stk t : Nat) (s : State) : Out := .next (s.crucStart stk 11 t (fun r x => r.fill x.desc))

/-- SCRUB (R313). -/
def execScrub (stk t : Nat) (s : State) : Out := .next (s.crucStart stk 12 t (fun r x => r.scrub x.desc))

/-- Completion of the running command at time `t` (R289). -/
def execCrucComplete (stk t : Nat) (s : State) : Out := .next ((s.at t).crucDone stk)

/-- A P head becomes eligible while an N or H command runs: the command is interrupted at its segment boundary (R290). -/
def execCrucPreempt (stk : Nat) (s : State) : Out :=
  let c := s.cruc stk
  match c.run with
  | none => .next s
  | some (x, r) =>
    if x.queue = 0 ∨ c.susp.isSome ∨ c.pNext = false then .next s
    else .next ((s.setCruc stk { c with run := none, susp := some (x, r) }).crucStat stk)

/-- The oldest host command for Crucible `stk` that waits in Tongs is admitted once queue H has room, in the first
open frame (R285, R405). -/
def execCrucHostAdmit (stk : Nat) (s : State) : Out :=
  match s.tongs.hostCruc.find? (fun h => h.stk == stk) with
  | none => .next s
  | some h =>
    if s.crucRoom stk 2 = false then .next s
    else
      let s := s.toOpenFrame
      let s := { s with tongs := { s.tongs with hostCruc := s.tongs.hostCruc.erase h } }
      .next (s.crucAdmit stk 2 h.desc (.host h.strm h.ctag) (s.ctx h.strm).seed)

end Sys2Proof.Machine
end

