-- ==== Sys2Proof/Machine/Quench.lean ====
section
/-! DEFINITION. The Quench engine's events (R480–R500): the sample, the output, the heat beacon, a read of the trace. The
register writes that arm, commit and trigger are with the other writes. -/

namespace Sys2Proof.Machine

/-- A switch of coefficient sets and a commit, which take effect at a sample at `ts` µs (R482, R493–R495). -/
def State.sampleSwitch (s : State) (n ts : Nat) : State :=
  let l := s.loop n
  let secs := s.loopSecs n
  let s := if l.backup then
      secs.foldl (fun (s : State) q => if s.on (QUENCH_SCTL_BKEN q) then s.put (QUENCH_SCTL_BKACT q) 1 else s) s
    else s
  let back : Bool := l.prim && s.on (QUENCH_LSTAT_BACKUP n)
  let s := if l.prim then (secs.foldl (fun (s : State) q => s.put (QUENCH_SCTL_BKACT q) 0) s).put (QUENCH_LSTAT_BACKUP n) 0 else s
  let due : Bool := match l.commit with | some c => c < ts | none => false
  let s := s.setLoop n { s.loop n with
    backup := false, prim := false, osc := (if l.prim then [] else l.osc)
    shadow := (if due then [] else l.shadow), commit := (if due then none else l.commit) }
  if back then s.action 0x0701 2 (7 * 256 + n) n (s.lst n) 0 else s

/-- The loop goes to SAFE (R495): SAFEOUT is its last output. -/
def State.loopSafe (s : State) (n ts : Nat) : State :=
  let lo := sx 32 (s.get (QUENCH_LCLAMP_OUTMIN n))
  let hi := sx 32 (s.get (QUENCH_LCLAMP_OUTMAX n))
  let d := clampI (sx 32 (s.get (QUENCH_LSAFE_SAFEOUT n))) lo hi
  let s := (s.loopFlag (QUENCH_LSTAT_OSCFAIL n) true).2
  (s.setLoop n { s.loop n with due := some (ts + s.loopDelta n, d) }).leaveRun n 3

/-- Oscillation detection on the error of a sample (R494, R495). -/
def State.oscDetect (s : State) (n ts : Nat) (e : Int) : State :=
  let l := s.loop n
  let amp : Int := (s.get (QUENCH_LOSC_OSCAMP n) : Int) * 256
  let side : Int := if e > amp then 1 else if e < -amp then -1 else l.side
  let cross : Bool := side != l.side && l.side != 0
  let win := s.get (QUENCH_LOSC_OSCWIN n)
  let osc := (if cross then l.osc ++ [l.count] else l.osc).filter (fun k => l.count < k + win)
  let fires : Bool := cross && osc.length ≥ s.get (QUENCH_LOSC_OSCN n)
  let s := s.setLoop n { l with side := side, count := l.count + 1, osc := (if fires then [] else osc) }
  if fires = false then s
  else if s.on (QUENCH_LSTAT_BACKUP n) ∨ (s.loopSecs n).any (fun q => s.on (QUENCH_SCTL_BKEN q)) = false then s.loopSafe n ts
  else
    let s := (s.loopFlag (QUENCH_LSTAT_OSC n) true).2
    let s := (s.put (QUENCH_LSTAT_BACKUP n) 1).setLoop n { s.loop n with backup := true }
    s.action 0x0701 2 (7 * 256 + n) n (s.lst n) 0

/-- The sticky flags whose setting a trace can trigger on (R500). -/
def State.loopFlags (s : State) (n : Nat) : List Bool :=
  [s.on (QUENCH_LSTAT_INSAT n), s.on (QUENCH_LSTAT_CLAMP n), s.on (QUENCH_LSTAT_OSC n), s.on (QUENCH_LSTAT_SRCFAULT n),
    s.on (QUENCH_LSTAT_DSTFORCED n)] ++ (s.loopSecs n).map (fun q => s.on (QUENCH_SCTL_SAT q))

/-- The error of a sample at weight 2⁻²³ (R486). -/
def State.loopErr (s : State) (n : Nat) (sp pv : Int) : Int × Bool :=
  let m := (sp - pv) * sx 24 (s.get (QUENCH_LSCALE_KIN n))
  let e := sx 8 (s.get (QUENCH_LSCALE_EIN n))
  sat24 (divRne (m * (2 ^ (e + 128).toNat : Nat)) (2 ^ 128 : Nat))

/-- The evaluation of R486 at `ts` µs, its output due at `ts` + Δ. -/
def State.loopEval (s : State) (n ts : Nat) : State :=
  let pv := s.qSource (s.get (QUENCH_LCFG_SRC n))
  let sp := s.spAt n ts
  let e := s.loopErr n sp pv
  let s := (s.loopFlag (QUENCH_LSTAT_INSAT n) e.2).2
  let (ch, s) := s.chainOut n (s.loopSecs n) e.1 []
  let y := (ch.getLast?.map (fun p => p.2.2)).getD e.1
  let (r, s) := s.rcOut n e.1
  let u := sat24 (y + r)
  let s := match ch.getLast? with | some p => (s.loopFlag (QUENCH_SCTL_SAT p.1) u.2).2 | none => s
  let span := sx 32 (s.get (QUENCH_LOUT_OUTSPAN n))
  let d := divRne (sx 32 (s.get (QUENCH_LOUT_OUTBIAS n)) * (2 ^ 23 : Nat) + u.1 * span) (2 ^ 23 : Nat)
  let lo := sx 32 (s.get (QUENCH_LCLAMP_OUTMIN n))
  let hi := sx 32 (s.get (QUENCH_LCLAMP_OUTMAX n))
  let s := (s.loopFlag (QUENCH_LSTAT_CLAMP n) (d > hi || d < lo)).2
  let forced := s.dstForced n
  let s := (s.loopFlag (QUENCH_LSTAT_DSTFORCED n) forced).2
  let wind : Bool := (d > hi && e.1.sign * span.sign > 0) || (d < lo && e.1.sign * span.sign < 0) || forced
  let s := ch.foldl (fun (s : State) p => if wind && s.on (QUENCH_SCTL_AW p.1) then s else s.sectNext n p) s
  let d := clampI d lo hi
  let s := s.setLoop n { s.loop n with due := some (ts + s.loopDelta n, d) }
  let s := s.qTrace n ts ⟨pv, sp, e.1, ch.map (fun p => p.2.2), r, u.1, d⟩
  s.oscDetect n ts e.1

/-- A sample of a loop in RUN or HOLD (R486, R489, R491). -/
def State.loopStep (s : State) (n ts : Nat) : State :=
  let inner : Bool := s.get (QUENCH_LCFG_DST n) != 3 || s.lst (s.get (QUENCH_LCFG_DIDX n)) == 1
  let valid := s.qValid (s.get (QUENCH_LCFG_SRC n))
  if valid && inner then
    let s := if s.lst n = 2 then s.enterLoop n 1 else s
    (s.rcState n).loopEval n ts
  else
    let s := (s.loopFlag (QUENCH_LSTAT_SRCFAULT n) (!valid)).2
    let s := (s.setLoop n { s.loop n with edges := [], lastN := none }).put (QUENCH_RCSTAT_OUT n) 0
    if s.lst n = 1 then s.leaveRun n 2 else s

/-- The output of a loop that has reached its instant is at its destination (R481, R487). -/
def State.loopOut (s : State) (n at_ : Nat) : State :=
  match (s.loop n).due with
  | some (o, d) => if o ≤ at_ then (s.setLoop n { s.loop n with due := none }).writeDst n d o else s
  | none => s

/-- A loop reaches its sample instant (R480, R486). -/
def execLoopSample (n t : Nat) (s : State) : Out :=
  let s := s.at t
  let s := if n < 16 ∧ (s.loop n).next ≤ s.micros then s.loopOut n (s.loop n).next else s
  let l := s.loop n
  if n ≥ 16 ∨ s.micros < l.next ∨ (l.wait = false ∧ (s.lst n = 0 ∨ s.lst n = 4)) then .next s
  else
    let before := s.loopFlags n
    let s := s.setLoop n { l with wait := false, next := l.next + s.get (QUENCH_LCFG_PER n) }
    let s := (if l.wait then s.enterLoop n 1 else s).sampleSwitch n l.next
    let s := if s.lst n = 3 then s else s.loopStep n l.next
    let new : Bool := ((s.loopFlags n).zip before).any (fun p => p.1 && !p.2)
    .next (if new && s.get QUENCH_TRCTL_TLOOP == n then s.qTrigger 1 else s)

/-- A loop reaches its output instant (R481, R487). -/
def execLoopOutput (n t : Nat) (s : State) : Out :=
  let s := s.at t
  .next (if n < 16 then s.loopOut n s.micros else s)

/-- The rising edge of a beacon that Temper has raised (R236, R498), 1 µs wide: every running controller that follows it forms
N_meas. -/
def execBeacon (t : Nat) (s : State) : Out :=
  let s := s.at t
  if s.hammer.beaconUp = false then .next s else
  let s := { s with hammer := { s.hammer with beaconUp := false } }
  let now := s.micros
  let iv := s.quench.edge.map (fun e => now - e)
  let s := { s.inc QUENCH_BEACON_COUNT with quench := { s.quench with edge := some now } }
  let s := match iv with | some d => s.put QUENCH_BEACON_LASTIV (min d (2 ^ 32 - 1)) | none => s
  let s := (List.range 16).foldl (fun (s : State) n =>
    if s.lst n = 1 ∧ s.get (QUENCH_LCFG_PER n) ≠ 0 then
      let m := iv.map (fun d => (divRne (d : Int) (s.get (QUENCH_LCFG_PER n) : Int)).toNat)
      s.setLoop n { s.loop n with edges := (s.loop n).edges ++ [m] }
    else s) s
  .next (s.qTrigger 2)

/-- A read of `TRDATA` (R500): the entry selected, and IDX advances. No rule gives what a read beyond the entries held
returns. -/
def State.quenchTrdata (s : State) : State :=
  let i := s.get QUENCH_TRSEL_IDX
  let (w, s) := match ((s.qchan (s.get QUENCH_TRSEL_CH)).ents)[i]? with
    | some e => (BitVec.ofNat 64 (e.1 * 2 ^ 32 + e.2), s)
    | none => let (v, s) := s.fresh (2 ^ 64); (BitVec.ofNat 64 v, s)
  (s.wr QUENCH_TRDATA w).put QUENCH_TRSEL_IDX (i + 1)

/-- A read of Quench's `TRDATA`. -/
def execQuenchTrdata (t : Nat) (s : State) : Out := .next (s.at t).quenchTrdata

end Sys2Proof.Machine
end

