-- ==== Sys2Proof/Machine/Streams.lean ====
section
/-! DEFINITION. Commands of command streams (R361, R365–R368, R378–R384, R387–R396): jobs, images, host Crucible commands,
rings, streams. -/

namespace Sys2Proof.Machine

/-- Whether the device is ACTIVE (R599, R602). -/
def State.active (s : State) : Bool := s.get BELLOWS_PWRSTAT_STATE == 4

/-! ### Taking a command (R370, R378, R379) -/

/-- A CMD message of the type `ctype` processed by `f`, which answers it; a message of another type is another row's.
`len`: the message length of the type (R379, R380). -/
def State.command (s : State) (n ctype len : Nat) (msg : List Byte) (t : Nat) (f : Nat → State → State) : Out :=
  let s := s.at t
  if leAt msg 0 1 ≠ ctype ∨ msg.length < 8 then .next s
  else
    match s.takeMsg n 7 msg (cmdNeed ctype) with
    | (false, s) => .next s
    | (true, s) =>
      let ctag := leAt msg 4 4
      let late : Bool := (ctype = 1 || ctype = 3) && !s.active
      let s :=
        if late then s.respond n ctype 0x0C 0 ctag 0 0
        else if msg.length ≠ len ∨ leAt msg 1 3 ≠ 0 then s.respond n ctype 1 0 ctag 0 0
        else f ctag s
      .next (s.settle n)

/-! ### Jobs (R387–R391) -/

/-- The lowest free JOBID (R388). -/
def State.freeJob (s : State) : Option Nat := (List.range 255).find? (fun j => (s.job j).isNone)

/-- JOB_SUBMIT (R387, R388), its checks in the order of R382. -/
def execJobSubmit (n : Nat) (msg : List Byte) (t : Nat) (s : State) : Out :=
  s.command n 1 72 msg t (fun ctag s =>
    let b (o k : Nat) : Nat := leAt msg (8 + o) k
    let no (st : Nat) : State := s.respond n 1 st 0 ctag 0 0
    let ring := b 7 1
    let gf := b 0x24 1
    let w := s.get (TONGS_RING_IDX_WIDX ring)
    let size := 2 ^ s.get (TONGS_RING_CFG_LOG2N ring)
    let grp := s.ctx (b 0x22 2)
    if b 6 1 ≥ 8 ∨ ring ≥ 64 ∨ b 0x20 2 = 0 ∨ gf ≥ 4 ∨ b 0x25 27 ≠ 0 then no 1
    else if (s.image (b 0 4)).isNone then no 3
    else
      match s.freeJob with
      | none => no 4
      | some id =>
        if s.ringOn ring = false then no 5
        else if (w + 2 ^ 32 - s.get (TONGS_RING_IDX_AIDX ring)) % 2 ^ 32 ≥ size then no 6
        else if gf % 2 = 1 ∧ (grp.typ ≠ 6 ∨ grp.jobkey ≠ b 0x20 2) then no 8
        else
          let acc := s.jobList.foldl (fun a p => max a (p.2.accepted + 1)) 0
          let j : Job :=
            { img := b 0 4, entry := b 4 2, cls := b 6 1, ring := ring, arg := BitVec.ofNat 64 (b 8 8)
              seed := BitVec.ofNat 64 (b 0x10 8), tag := BitVec.ofNat 64 (b 0x18 8), key := b 0x20 2, group := b 0x22 2
              gflags := gf, strm := n, ridx := w, st := .queued, frame := frameOf s.core.idx, accepted := acc, waitFrom := s.now, started := 0
              switches := 0, saved := none, cancel := [], cflags := 0, rflags := 0 }
          let s := (s.put (TONGS_RING_IDX_WIDX ring) (w + 1)).setJob id (some j)
          let s := (s.writeRecord id j 0 0 none 0 0).jobStat
          s.respond n 1 0 0 ctag (id * 2 ^ 32 + w) 0)

/-- A job that does not hold Hammer is cancelled at once (R390). AFLAGS of its record: DESIGN CHOICE, see `Saved.flagsOr` and
assumption log 161. -/
def State.cancelWaiting (s : State) (id : Nat) (j : Job) : State :=
  let f := some (Fail.of cCANCELLED 0 0 0)
  match j.saved with
  | none => s.retire id j f 0 0 0
  | some v =>
    s.retire id j f (v.flagsOr j) (min (2 ^ 32 - 1) ((s.now - j.started) / us)) v.pos

/-- JOB_CANCEL (R390): the answer follows the record. -/
def execJobCancel (n : Nat) (msg : List Byte) (t : Nat) (s : State) : Out :=
  s.command n 2 16 msg t (fun ctag s =>
    let id := leAt msg 8 1
    if leAt msg 9 7 ≠ 0 then s.respond n 2 1 0 ctag 0 0
    else
      match s.job id with
      | none => s.respond n 2 9 0 ctag 0 0
      | some j =>
        if j.strm ≠ n then s.respond n 2 9 0 ctag 0 0
        else
          let j : Job := { j with cancel := j.cancel ++ [(s.now, n, ctag)] }
          let s := s.setJob id (some j)
          if j.st = .running then s else s.cancelWaiting id j)

/-- The N-slot operations of a job withdrawn (R390): posted buffers and armed signals released, messages not begun
discarded; an operation whose message has begun stays until the transport ends that message. -/
def State.withdrawNops (s : State) (job : Nat) : State :=
  (s.tongs.nq.filter (fun o => o.job == job)).foldl (fun (s : State) (o : NOp) =>
    let c := s.ctx o.strm
    let begun := c.txq.any (fun m => m.nop == some o.id && m.msn.isSome)
    let c : Ctx := { c with
      posted := c.posted.filter (fun p => p.nop != o.id)
      txq := c.txq.filter (fun m => !(m.nop == some o.id && m.msn.isNone)) }
    let s := s.setCtx o.strm c
    if begun then s.setNop { o with gone := true } else s.nopDone o.id none) s

/-- A cancelled job that has reached no effective marker within CTMO ends where it is (R390). -/
def execCancelTimeout (t : Nat) (s : State) : Out :=
  let s := s.at t
  match s.hammer.run with
  | none => .next s
  | some id =>
    match (s.job id).bind (fun j => j.cancel.head?) with
    | none => .next s
    | some (t0, _, _) =>
      if s.now < t0 + s.get TONGS_JOBCFG_CTMO * ms then .next s
      else
        let s := if s.hammer.ending.isSome then s else s.stopJob (some (Fail.of cCANCELLED 0 0 0))
        .next (s.withdrawNops id)

/-! ### Images (R139–R142, R218–R220, R383, R384) -/

/-- The header checks 1 to 4 of R383; 0 where all pass. -/
def State.imageHeader (s : State) (a base : Nat) : Nat :=
  let h (o k : Nat) : Nat := s.readN (a + o) k
  let n := h 8 4
  let co := h 0xC 4
  let cb := h 0x10 4
  let ho := h 0x14 4
  let hc := h 0x18 2
  let ko := h 0x1C 4
  let kb := h 0x20 4
  if h 0 4 ≠ 0x414B4C46 ∨ h 4 2 ≠ 1 ∨ h 6 2 ≠ 0x00A1 then 1
  else if h 0x1A 2 ≠ 0 ∨ h 0x24 4 ≠ 0 ∨ h 0x3C 4 ≠ 0 then 2
  else if n % 64 ≠ 0 ∨ n < 0x80 ∨ n > 2 ^ 23 ∨ co % 16 ≠ 0 ∨ co < 0x80 ∨ cb % 16 ≠ 0 ∨ ho % 64 ≠ 0 ∨ hc = 0 ∨ hc > 4096 ∨
    ko % 8 ≠ 0 ∨ kb % 8 ≠ 0 then 3
  else
    let regs : List (Nat × Nat) := [(0, 0x80), (co, cb), (ho, 64 * hc), (ko, kb)]
    let apart (p q : Nat × Nat) : Bool := p.2 == 0 || q.2 == 0 || p.1 + p.2 ≤ q.1 || q.1 + q.2 ≤ p.1
    let pairs : List (Nat × Nat) := [(0, 1), (0, 2), (0, 3), (1, 2), (1, 3), (2, 3)]
    let at_ (i : Nat) : Nat × Nat := regs.getD i (0, 0)
    if regs.any (fun p => p.1 + p.2 > n) || pairs.any (fun p => !apart (at_ p.1) (at_ p.2)) || 64 * base + n > 2 ^ 23
    then 4 else 0

/-- The header fields kept of an image (R139). -/
def State.imageOf (s : State) (a base : Nat) : Img :=
  let h (o k : Nat) : Nat := s.readN (a + o) k
  { base := base, bytes := h 8 4, codeOff := h 0xC 4, codeBytes := h 0x10 4, heatOff := h 0x14 4, heatCount := h 0x18 2
    constOff := h 0x1C 4, constBytes := h 0x20 4, reqmask := BitVec.ofNat 160 (h 0x28 20), digest := BitVec.ofNat 512 (h 0x40 64) }

/-- Whether a heat-table entry keeps the rules of R218. -/
def State.heatOk (s : State) (i : Img) (h : Nat) : Bool :=
  let a := i.heatAddr h
  let b (o k : Nat) : Nat := s.readN (a + o) k
  let vc := b 0 1
  1 ≤ vc && vc ≤ 4 && b 1 1 < 4 && b 2 14 == 0 &&
    (List.range 4).all (fun v =>
      let w := b (16 + 12 * v) 4
      if v < vc then w < 2 ^ 22 && b (20 + 12 * v) 4 != 0 && b (24 + 12 * v) 4 != 0 && i.inCode (w % 2 ^ 19)
      else w == 0 && b (20 + 12 * v) 4 == 0 && b (24 + 12 * v) 4 == 0)

/-- The variants of an image, with their declared figures. -/
def State.variants (s : State) (i : Img) : List (Nat × Rec) :=
  (List.range i.heatCount).flatMap (fun h =>
    let e := s.heatEntry i h
    (List.range e.vcount).map (fun v => (recKey i.base h v, Rec.declared (e.edecl.getD v 0) (e.tdecl.getD v 1))))

/-- The subcode of R383 with which an image is refused, in the order of its checks; 0 where it is accepted, and the
failing unit for subcode 9. -/
def State.imageCheck (s : State) (base : Nat) : Nat × Option Nat :=
  let a := hammerBase + 64 * base
  if 64 * base + 128 > 2 ^ 23 then (4, none)
  else
    match s.ueIn a 128 with
    | some u => (9, some u)
    | none =>
      match s.imageHeader a base with
      | 0 =>
        let i := s.imageOf a base
        if s.tongs.images.any (fun x => x.base != base && 64 * x.base < 64 * base + i.bytes && 64 * base < 64 * x.base + x.bytes)
        then (8, none)
        else
          match s.ueIn a i.bytes with
          | some u => (9, some u)
          | none =>
            if shake256 (s.bytes a 0x40 ++ s.bytes (a + 0x80) (i.bytes - 0x80)) 64 ≠ toBytes 64 i.digest.toNat then (5, none)
            else if (List.range i.heatCount).all (s.heatOk i) = false then (6, none)
            else if s.temper.recs.length + (s.variants i).length > 65536 then (7, none)
            else (0, none)
      | e => (e, none)

/-- IMAGE_ACCEPT (R140, R218–R220, R383, R384). -/
def execImageAccept (n : Nat) (msg : List Byte) (t : Nat) (s : State) : Out :=
  s.command n 3 16 msg t (fun ctag s =>
    let base := leAt msg 8 4
    if leAt msg 12 4 ≠ 0 then s.respond n 3 1 0 ctag 0 0
    else if (s.image base).isSome then s.respond n 3 0 0 ctag 0 0
    else
      match s.imageCheck base with
      | (0, _) =>
        let i := s.imageOf (hammerBase + 64 * base) base
        let s := (s.correctRange i.addr i.bytes).moved false i.addr i.bytes
        let l := s.variants i
        let s := { s with tongs := { s.tongs with images := s.tongs.images ++ [i] } }
        (l.foldl (fun s p => s.setRec p.1 p.2) s).respond n 3 0 0 ctag 0 0
      | (e, u) =>
        let a := hammerBase + 64 * base
        let all := (s.imageOf a base).bytes
        let read := match u with
          | some k => k - a
          | none => if e = 5 ∨ e = 6 ∨ e = 7 then all else if 64 * base + 128 > 2 ^ 23 then 0 else 128
        let s := if read = 0 then s else (s.correctRange a read).moved false a read
        let s := match u with | some k => s.reportUe 9 k | none => s
        let loc := match u with | some k => locOf k | none => 0
        let s := s.event 0x0405 2 (2 * 256 + (s.ctx n).ifc) base e 0
        s.respond n 3 2 e ctag 0 loc)

/-- IMAGE_UNLOAD (R380, R382). -/
def execImageUnload (n : Nat) (msg : List Byte) (t : Nat) (s : State) : Out :=
  s.command n 4 16 msg t (fun ctag s =>
    let base := leAt msg 8 4
    let st := if leAt msg 12 4 ≠ 0 then 1 else if (s.image base).isNone then 3 else if s.imageBusy base then 7 else 0
    (if st = 0 then s.unloadImage base else s).respond n 4 st 0 ctag 0 0)

/-! ### Crucible commands and rings (R285, R395) -/

/-- CRUC_CMD (R285, R380, R405): admitted at once in an open frame where queue H has room, else it waits in Tongs; answered when the
command completes. -/
def execCrucCmd (n : Nat) (msg : List Byte) (t : Nat) (s : State) : Out :=
  s.command n 5 80 msg t (fun ctag s =>
    let k := leAt msg 8 1
    if k ≥ 20 ∨ leAt msg 9 7 ≠ 0 then s.respond n 5 1 0 ctag 0 0
    else
      let d := BitVec.ofNat 512 (leAt msg 16 64)
      if s.frameOpen && s.crucRoom k 2 && !s.tongs.hostCruc.any (fun h => h.stk == k) then s.crucAdmit k 2 d (.host n ctag) (s.ctx n).seed
      else
        let h : HostCruc := ⟨k, n, ctag, d⟩
        { s with tongs := { s.tongs with hostCruc := s.tongs.hostCruc ++ [h] } })

/-- Whether a ring may lie at a range (R395): the interleaved view outside the context region, or one Hearth store. -/
def ringPlace (a n : Nat) : Bool :=
  match region a, region (a + n - 1) with
  | .hbm _ _, .hbm _ _ => a + n ≤ 0x13FFF000000
  | .hearth h _, .hearth k _ => h == k
  | _, _ => false

/-- RING_CFG (R395). -/
def execRingCfg (n : Nat) (msg : List Byte) (t : Nat) (s : State) : Out :=
  s.command n 6 24 msg t (fun ctag s =>
    let b (o k : Nat) : Nat := leAt msg (8 + o) k
    let r := b 0 1
    let lg := b 1 1
    let base := b 8 8
    let bytes := 64 * 2 ^ lg
    let st :=
      if r ≥ 64 ∨ (lg ≠ 0 ∧ (lg < 4 ∨ lg > 16)) ∨ b 4 1 ≥ 2 ∨ b 5 3 ≠ 0 ∨ base % 64 ≠ 0 ∨
        (lg ≠ 0 ∧ ringPlace base bytes = false) then 1
      else if lg ≠ 0 ∧ s.rangeOk base bytes = false then 5
      else if s.get (TONGS_RING_IDX_WIDX r) ≠ s.get (TONGS_RING_IDX_AIDX r) then 7
      else 0
    if st ≠ 0 then s.respond n 6 st 0 ctag 0 0
    else
      let s := if lg = 0 then s else (segs base bytes).foldl (fun s p => s.clearMem p.1 p.2) s
      let s := (s.wr (TONGS_RING_CFG r) 0).wr (TONGS_RING_IDX r) 0
      let s := ((s.put (TONGS_RING_CFG_CSTRM r) (b 2 2)).put (TONGS_RING_CFG_PUSH r) (b 4 1)).put (TONGS_RING_CFG_LOG2N r) lg
      (s.put (TONGS_RING_CFG_BASE r) (base / 64)).respond n 6 0 0 ctag 0 0)

/-! ### Streams (R363, R366–R368, R380) -/

/-- Whether 64 configuration bytes are admissible (R363, R366). -/
def State.cfgOk (s : State) (b : Nat → Nat → Nat) : Bool :=
  let typ := b 0 1
  1 ≤ typ && typ ≤ 6 && b 1 1 ≤ 5 && b 2 1 < 128 && s.ifcPresent (b 2 1 / 8 % 4) && 1 ≤ b 4 2 && b 4 2 ≤ 256 &&
    (if typ = 1 then 1 ≤ b 0x1A 2 && b 0x1A 2 ≤ 64 else b 0x1A 2 == 0) && b 0x1C 4 == 0 && b 0x28 24 == 0

/-- Where a configuration puts a stream (R366, R368): it listens, or opens. -/
def State.startStream (s : State) (n : Nat) : State :=
  let c := s.ctx n
  if c.typ = 0 then s.setCtx n { c with tstate := 0 }
  else if c.listen then s.setCtx n { c with tstate := 1, peerAddr := c.cfgAddr, peerStrm := c.cfgStrm }
  else (s.setCtx n { c with tstate := 2, peerAddr := c.cfgAddr, peerStrm := c.cfgStrm }).sendOpen n

/-- A command of stream `n` on stream `m`, whose context must be cached (R371): it starts once it is, and asks for that. -/
def State.onStream (s : State) (n ctype len : Nat) (msg : List Byte) (t : Nat) (f : Nat → Nat → State → State) : Out :=
  let m := leAt msg 8 2
  let u := s.at t
  if leAt msg 0 1 = ctype ∧ msg.length = len ∧ leAt msg 10 6 = 0 ∧ u.fenced (ctxStack m) = false ∧ u.cached m = false then
    .next (if (u.ctx n).typ = 1 ∧ (u.ctx n).tstate = 3 ∧ u.cached n then (u.wantCache m).2 else u)
  else
    s.command n ctype len msg t (fun ctag s =>
      if leAt msg 10 6 ≠ 0 then s.respond n ctype 1 0 ctag 0 0 else f m ctag s)

/-- STREAM_CFG (R366). -/
def execStreamCfg (n : Nat) (msg : List Byte) (t : Nat) (s : State) : Out :=
  s.onStream n 7 80 msg t (fun m ctag s =>
    let b (o k : Nat) : Nat := leAt msg (16 + o) k
    let c := s.ctx m
    let st :=
      if m < 4 ∨ s.cfgOk b = false then 1
      else if c.tstate ≠ 0 ∧ c.tstate ≠ 5 then 7
      else if s.fenced (ctxStack m) then 0xB
      else 0
    if st ≠ 0 then s.respond n 7 st 0 ctag 0 0
    else
      let k : Ctx := { Ctx.empty with
        typ := b 0 1, prio := b 2 1 % 8, ifc := b 2 1 / 8 % 4, listen := bit (b 2 1) 5, rstrsn := b 3 1, weight := b 4 2
        jobkey := b 6 2, cfgAddr := addrOf b, cfgStrm := b 0x18 2, cmdcred := b 0x1A 2, seed := BitVec.ofNat 64 (b 0x20 8)
        txmsgs := c.txmsgs, rxmsgs := c.rxmsgs, retxpkts := c.retxpkts, errcnt := c.errcnt, admmax := c.admmax }
      ((s.setCtx m k).startStream m).respond n 7 0 0 ctag 0 0)

/-- STREAM_CLOSE (R367): answered once the CLOSE is acknowledged. For a stream neither open nor listening R367 gives no
outcome: nothing happens and the status is a free value (assumption log 6). -/
def execStreamClose (n : Nat) (msg : List Byte) (t : Nat) (s : State) : Out :=
  s.onStream n 8 16 msg t (fun m ctag s =>
    let c := s.ctx m
    if s.fenced (ctxStack m) then s.respond n 8 0xB 0 ctag 0 0
    else if c.busy > 0 ∨ c.inbox.isEmpty = false ∨ c.closing.isSome ∨ s.tongs.nq.any (fun o => o.strm == m) then
      s.respond n 8 7 0 ctag 0 0
    else if c.tstate = 1 then (s.closed m true).respond n 8 0 0 ctag 0 0
    else if c.tstate = 3 then (s.setCtx m { c with closing := some (n, ctag) }).tryClose m
    else let (v, s) := s.fresh 256; s.respond n 8 v 0 ctag 0 0)

/-- The host Crucible commands of a stream that have not started complete with DISCARDED (R321, R368): those in queue H, in
their order, then those that wait in Tongs, which have no number and write no status block. -/
def State.discard (s : State) (m : Nat) : State :=
  let mine (x : CCmd) : Bool := match x.src with | .host k _ => k == m | _ => false
  let s := (List.range 20).foldl (fun s k =>
    let q := s.cruc k
    let t := (s.setCruc k { q with h := q.h.filter (fun x => !mine x) }).crucStat k
    (q.h.filter mine).foldl (fun s x => s.crucEnd k x ⟨0, 0x15, 0, 0, 0⟩) t) s
  let l := s.tongs.hostCruc.filter (fun h => h.strm == m)
  l.foldl (fun s h => (s.inc (CRUC_CCNT_FAILED h.stk)).crucError h.stk 2 0x15 (dCmd h.desc) 0 0)
    { s with tongs := { s.tongs with hostCruc := s.tongs.hostCruc.filter (fun h => h.strm != m) } }

/-- A stream reset (R368, R593). -/
def State.resetStream (s : State) (m : Nat) : State :=
  let c := s.ctx m
  let s := if c.tstate = 2 ∨ c.tstate = 3 then s.sendRst c.ifc c.peerAddr c.peerStrm m 5 else s
  let s := (s.discard m).forget m
  let s := (s.setCtx m c.drop).orphan m
  let s := s.closeAnswer c true
  ((s.unpin m).failNops m cSTREAM_PEER 5).startStream m

/-- STREAM_RESET (R368). A command stream that resets itself has no open conversation to answer on. -/
def execStreamReset (n : Nat) (msg : List Byte) (t : Nat) (s : State) : Out :=
  s.onStream n 9 16 msg t (fun m ctag s =>
    if s.fenced (ctxStack m) then s.respond n 9 0xB 0 ctag 0 0
    else ((s.resetStream m).noteReset 3 m 1).respond n 9 0 0 ctag 0 0)

/-- STREAM_QUERY (R380): the context follows the response in its message. -/
def execStreamQuery (n : Nat) (msg : List Byte) (t : Nat) (s : State) : Out :=
  s.onStream n 10 16 msg t (fun m ctag s =>
    if s.fenced (ctxStack m) then s.respond n 10 0xB 0 ctag 0 0
    else (s.queueMsg n 7 true (cmdResponse 10 0 0 ctag 0 0 ++ (s.ctx m).bytes) none).cmdDone n 280)

/-- Boot streams are present no more (R365): their conversations are gone without a word, and they start from reset where they
are present again (DESIGN CHOICE, assumption log 155). -/
def State.bootGone (s : State) : State :=
  [0, 1, 2, 3].foldl (fun s n =>
    let c := s.ctx n
    let s := ((s.discard n).orphan n).forget n
    let s := (s.setCtx n { Ctx.reset n with
      txmsgs := c.txmsgs, rxmsgs := c.rxmsgs, retxpkts := c.retxpkts, errcnt := c.errcnt, admmax := c.admmax }).unpin n
    { s with
      tongs := { s.tongs with
        cache := s.tongs.cache.filter (fun x => x.strm != n), admq := s.tongs.admq.filter (fun p => p.1 != n) } }.cacheStat) s

end Sys2Proof.Machine
end

