-- ==== Sys2Proof/Machine/CsrWrite.lean ====
section
/-! DEFINITION. Writes of registers (R13–R17, R250): which accesses are refused, how a write changes the fields, and what a
write of each register sets in motion. -/

namespace Sys2Proof.Machine

/-! ### Where a register is, and whether it can be reached -/

/-- The index of an address in a regular array of registers. -/
def nth (base stride n a : Nat) : Option Nat :=
  if base ≤ a ∧ (a - base) % stride = 0 ∧ (a - base) / stride < n then some ((a - base) / stride) else none

/-- Whether an address lies in the main-die CSR window. -/
def mainWindow (a : Nat) : Bool := 0x300000000000 ≤ a && a < 0x300002000000

/-- Whether the domain of the block an address lies in is on (R589, R591). The status of a fenced stack's Crucible stays
readable (R277). -/
def State.csrOn (s : State) (a : Nat) : Bool :=
  if mainWindow a then
    if a < 0x300001000000 then s.domOn 192
    else
      let o := a - 0x300001000000
      let h := o / 0x100000
      let r := o % 0x100000
      if r < 0x10000 then s.domOn (160 + h)
      else if r < 0x80000 then s.domOn (160 + h) && s.domOn (16 * h + (r - 0x10000) / 0x1000)
      else
        let k := 2 * h + (r - 0x80000) / 0x40000
        s.domOn (160 + h) && (s.domOn (170 + k) || a == CRUC_QSTAT k)
  else if a / 65536 = 0x38000002 then s.domOn 198
  else true

/-- Whether a path exists now (R42, R551): the host while compute and Tongs are up, an interface with them; the rack manager
and firmware while firmware runs, a core while the cores domain is on. -/
def State.pathUp (s : State) : Path → Bool
  | .host => s.domOn 192 && [0, 1, 2, 3].any (fun i => (s.ifc i).up)
  | .rm => s.pwr.alive && s.secb.running.isSome
  | .fw => s.pwr.alive && s.secb.running.isSome && s.domOn 196
  | .core i => (i == 0 || i == 1) && s.pwr.alive && s.secb.running.isSome && s.domOn 196

/-- The source field of a refusal's record: Tongs, MGMT or Bellows. -/
def pathSrc : Path → Nat
  | .host => 2 * 256
  | .core _ => 6 * 256
  | _ => 12 * 256

/-- The path as CSR_REFUSED gives it (R580). -/
def pathCode : Path → Nat
  | .host => 0
  | .core _ => 2
  | _ => 1

/-- An access refused under R250: recorded and summarised. -/
def State.csrRefused (s : State) (p : Path) (a : Nat) : State :=
  let s := s.event 0x0203 2 (pathSrc p) (pathCode p) a (a / 2 ^ 32)
  if s.domOn 192 then s.put HAMMER_ERRSUM_CSRREF 1 else s

/-! ### Which fields a write acts on -/

/-- Whether a path may act on a field; `a`: the register's address, which tells the core of a core's register. -/
def Owner.admits (o : Owner) (p : Path) (a : Nat) : Bool :=
  match o, p with
  | .any, _ => true
  | .link, .rm => true
  | .link, .fw => true
  | .linkOrHost, .rm => true
  | .linkOrHost, .fw => true
  | .linkOrHost, .host => true
  | .host, .host => true
  | .rm, .rm => true
  | .fw, .fw => true
  | .core, .core i => a == BIC_COMPLETE i
  | _, _ => false

/-- Whether a write acts on a field (R250). A number written to a completion register is an action whatever it is. -/
def FieldSpec.acts (f : FieldSpec) (old w : Word) : Bool :=
  let n := bitsOf w.toNat f.hi f.lo
  match f.acc with
  | .ro => false
  | .rw => n != bitsOf old.toNat f.hi f.lo
  | .rwl => n != bitsOf old.toNat f.hi f.lo
  | .w1c => n != 0
  | .wo => n != 0 || f.own == .core || f.own == .host

/-- RWL fields are locked at the end of Bellows boot (R478, R553). -/
def State.locked (s : State) : Bool := 4 ≤ s.pwr.step

/-- A field that breaks a bound keeps its previous value. -/
def undo (f : Fd) (broken : Bool) (old new : Word) : Word :=
  if broken then setBits new f.hi f.lo (bitsOf old.toNat f.hi f.lo) else new

/-- Bounds stated in terms of another field, and values reserved in one register of an array (R17, R360, R502, R528, R560). -/
def crossBounds (a : Nat) (old new : Word) : Word :=
  let g (f : Fd) : Nat := bitsOf new.toNat f.hi f.lo
  if a = TONGS_RETX then undo TONGS_RETX_RTOMAX (10 * g TONGS_RETX_RTOMAX < g TONGS_RETX_RTO0) old new
  else if a = CANFD_NBT then undo CANFD_NBT_NSJW (g CANFD_NBT_NTSEG2 < g CANFD_NBT_NSJW) old new
  else if a = CANFD_DBT then undo CANFD_DBT_DSJW (g CANFD_DBT_DTSEG2 < g CANFD_DBT_DSJW) old new
  else match nth (TUYERE_VCMD 8) 64 2 a, nth (QUENCH_LCFG 0) 128 16 a with
    | some i, _ => undo (TUYERE_VCMD_MODE (8 + i)) (g (TUYERE_VCMD_MODE (8 + i)) == 1) old new
    | none, some n => undo (QUENCH_LCFG_M n) ((g (QUENCH_LCFG_DST n) == 3) == (g (QUENCH_LCFG_M n) == 0)) old new
    | none, none => new

/-- The word as it is judged: `VPROT.PROT` of X0 and X1 is read-only (R528). -/
def readOnlyBits (a : Nat) (old w : Word) : Word :=
  match nth (TUYERE_VPROT 8) 64 2 a with
  | some _ => setBits w 0 0 (bitsOf old.toNat 0 0)
  | none => w

/-! ### Caps (R413–R415) -/

/-- The cap source a register belongs to: 0 to 3 in the order of R413, 4 SUPPLY. -/
def capIndex (a : Nat) : Option Nat :=
  if a = TEMPER_CAP_FACILITY then some 0 else if a = TEMPER_CAP_HOST then some 1 else if a = TEMPER_CAP_THERMAL then some 2
  else if a = TEMPER_CAP_FLOW then some 3 else if a = TEMPER_CAP_SUPPLY then some 4 else none

/-- The path that owns a cap (R413). -/
def capOwner (i : Nat) (p : Path) : Bool :=
  match i, p with
  | 0, .rm => true
  | 1, .host => true
  | 2, .fw => true
  | 3, .fw => true
  | _, _ => false

/-- A cap write of another path counted (R415). -/
def State.capRejected (s : State) (i : Nat) : State :=
  let f : Option Fd := match i with
    | 0 => some TEMPER_CAPREJ_FAC
    | 1 => some TEMPER_CAPREJ_HOST
    | 2 => some TEMPER_CAPREJ_THERMAL
    | 3 => some TEMPER_CAPREJ_FLOW
    | _ => none
  match f with
  | some f => (s.inc f).put HAMMER_ERRSUM_CAPREJ 1
  | none => s

/-- FACILITY set by the rack manager: Bellows holds it, and publishes it at the next tick (R413, R414). -/
def State.setFacility (s : State) (w : Nat) : State := { s with cool := { s.cool with facility := min w 1600 } }

/-- A cap write of its owner. -/
def State.capWrite (s : State) (i : Nat) (w : Word) : State :=
  let n := bitsOf w.toNat 15 0
  match i with
  | 0 => s.setFacility n
  | 1 => s.setCap 1 n
  | 2 => s.publish 2 n
  | _ => (s.put TEMPER_CAP_FLOW_STATE (bitsOf w.toNat 17 16)).publish 3 n

/-! ### Refusals of a block's own (R491, R493, R510) -/

/-- Whether two words differ in a field. -/
def differs (f : Fd) (old w : Word) : Bool := bitsOf old.toNat f.hi f.lo != bitsOf w.toNat f.hi f.lo

/-- A write that Quench refuses under R250 (R491, R493): the setpoint of a driven loop, and what a loop not in OFF holds. -/
def State.quenchDenies (s : State) (a : Nat) (old w : Word) : Bool :=
  match nth (QUENCH_LSP 0) 128 16 a, nth (QUENCH_LCFG 0) 128 16 a, nth (QUENCH_LSCALE 0) 128 16 a with
  | some n, _, _ => s.on (QUENCH_LSP_SPEXT n) && differs (QUENCH_LSP_SP n) old w
  | _, some n, _ => s.loopBusy n
  | _, _, some n => s.loopBusy n
  | _, _, _ =>
    match nth (QUENCH_RCCFG 0) 128 16 a, nth (QUENCH_SCTL 0) 64 64 a with
    | some n, _ => s.loopBusy n && (differs (QUENCH_RCCFG_PSRC n) old w || differs (QUENCH_RCCFG_NFIX n) old w)
    | _, some q => s.on (QUENCH_SCTL_OWNED q) && (differs (QUENCH_SCTL_AW q) old w || differs (QUENCH_SCTL_BKEN q) old w)
    | _, _ => false

/-- A profile that R510 refuses. -/
def profileBad (w : Word) : Bool :=
  let ipeak := bitsOf w.toNat 32 24
  bitsOf w.toNat 16 8 > ipeak || bitsOf w.toNat 7 0 > ipeak || bitsOf w.toNat 55 48 ≥ bitsOf w.toNat 63 56

/-- A write to the configuration or data of a pending CAN buffer (R539). -/
def State.pendingBuf (s : State) (a : Nat) : Bool :=
  if CANFD_BCFG 0 ≤ a ∧ a < CANFD_BCFG 64 then
    let n := (a - CANFD_BCFG 0) / 128
    let o := (a - CANFD_BCFG 0) % 128
    (o == 0 || o ≥ 64) && s.on (CANFD_BSTAT_TXPEND n)
  else false

/-! ### What a write sets in motion -/

/-- AIDX (R398): accepted only forward, no further than WIDX, and only past records that read DONE or FAILED. -/
def State.aidxWrite (s : State) (r v : Nat) : State :=
  let a := s.get (TONGS_RING_IDX_AIDX r)
  let d := (v + 2 ^ 32 - a) % 2 ^ 32
  let ok : Bool := d ≤ (s.get (TONGS_RING_IDX_WIDX r) + 2 ^ 32 - a) % 2 ^ 32 &&
    (List.range d).all (fun i => 2 ≤ (s.byte (s.slotAddr r (a + i))).toNat)
  if ok then s.put (TONGS_RING_IDX_AIDX r) v else s.event 0x0402 2 (2 * 256 + r) r v a

/-- The position a snapshot of another source than the T slot carries (R632). -/
def State.snapPos (s : State) : Nat :=
  if s.hammer.run.isSome ∧ s.hammer.pos ≠ 0 then s.hammer.pos - 1 else 2 ^ 64 - 1

/-- `TRCTL.ARM` of Hammer (R634). -/
def State.traceArm (s : State) : State :=
  ({ s with trace := ⟨[], 0⟩ }.put HAMMER_TRSTAT_STATE 1).put HAMMER_TRSTAT_COUNT 0

/-- `SNAPCTL.SNAP` (R627). -/
def State.snapCsr (s : State) (w : Word) : State := s.snapRequest 2 (bitsOf w.toNat 15 0) s.snapPos

/-- `LCTLn` (R492, R493, R495). -/
def State.lctl (s : State) (n : Nat) (w : Word) : State :=
  let s := if w.getLsbD 3 then s.setLoop n { s.loop n with commit := some s.micros } else s
  let s := if w.getLsbD 2 then s.setLoop n { s.loop n with prim := true } else s
  if w.getLsbD 0 then s.loopArm n else s.loopDisarm n

/-- A coefficient of a section that a running loop owns keeps its value in use until COMMIT (R493). -/
def State.coefShadow (s : State) (a : Nat) (old : Word) : State :=
  let q := (a - QUENCH_SPA 0) / 64
  if s.on (QUENCH_SCTL_OWNED q) then
    let n := s.get (QUENCH_SCTL_OWNER q)
    let l := s.loop n
    match Tab.get (fun _ => none) l.shadow a with
    | some _ => s
    | none => s.setLoop n { l with shadow := Tab.set (fun _ => none) l.shadow a (some old) }
  else s

/-- `TRCTL` of Quench (R500). -/
def State.qTrctl (s : State) (w : Word) : State :=
  let s := if w.getLsbD 0 then s.qTraceArm else s
  if w.getLsbD 1 then s.qTrigger 0 else s

/-- Whether a channel's event of the present period would have begun before now (R515). -/
def State.slotPast (s : State) (c : Nat) : Bool :=
  s.periodAt (bankOf c) + s.get (TUYERE_VCMD_SLOT c) * s.vper (bankOf c) / 256 < s.now

/-- `VCMDc` (R511, R513, R515): a change of MODE to or from QUENCH ends its event and empties its accumulator; FIXCMD = 1
written to an open FIXED channel opens it anew. -/
def State.vcmd (s : State) (c : Nat) (old w : Word) : State :=
  let mode := s.get (TUYERE_VCMD_MODE c)
  let s := if bitsOf old.toNat 1 0 ≠ mode then s.setValve c { s.valve c with acc := 0, evOn := false, forced := false, seen := s.slotPast c } else s
  let again : Bool := mode == 2 && w.getLsbD 3 && (s.valve c).want && s.vWanted c
  if again then s.vOpen c else s.vRetarget c

/-- `CTL` of CANFD: recovery from bus-off under BOMAN begins when EN is cleared and set (R541). -/
def State.canCtl (s : State) (old : Word) : State :=
  if s.on CANFD_CTL_EN ∧ old.getLsbD 0 = false then
    (if s.get CANFD_STAT_STATE = 2 then { s with can := { s.can with rejoin := true } } else s).offerNext
  else s

/-- `BCMDn` (R538–R540): CANCEL prevails over TXREQ. -/
def State.bcmd (s : State) (n : Nat) (w : Word) (begun : Bool) : State :=
  let s := if w.getLsbD 2 then s.bufAck n (bitsOf w.toNat 10 3) else s
  if w.getLsbD 1 then s.txCancel n begun else if w.getLsbD 0 then s.txRequest n else s

/-- The effects of a write of the main dies' registers. -/
def State.mainHook (s : State) (a : Nat) (old w : Word) : State :=
  if a = TONGS_SCFG then (if old.getLsbD 0 && !w.getLsbD 0 then s.bootGone else s)
  else if a = HAMMER_SNAPCTL then (if w.getLsbD 16 then s.snapCsr w else s)
  else if a = HAMMER_TRCTL then
    let s := if w.getLsbD 0 then s.traceArm else s
    if w.getLsbD 1 then s.traceTrig 0 else s
  else
    match nth (TONGS_PORTCFG 0) 8 2 a with
    | some n =>
      s.portRestart n (fun i => let m := bitsOf old.toNat 3 0; if i % 2 = 0 then 1 ≤ m && m ≤ 6 else 4 ≤ m && m ≤ 6)
    | none =>
      if a < 0x300001000000 ∨ w.getLsbD 7 = false then s
      else
        let h := (a - 0x300001000000) / 0x100000
        if a = HEARTH_STKSTAT (2 * h) then { s with fenceReq := s.fenceReq ++ [(2 * h, 4)] }
        else if a = HEARTH_STKSTAT (2 * h + 1) then { s with fenceReq := s.fenceReq ++ [(2 * h + 1, 4)] }
        else s

/-- The effects of a write of Quench's registers. -/
def State.quenchHook (s : State) (a : Nat) (old w : Word) : State :=
  if QUENCH_SPA 0 ≤ a then (if (a - QUENCH_SPA 0) % 64 < 48 ∧ old ≠ w then s.coefShadow a old else s)
  else if a = QUENCH_TRCTL then s.qTrctl w
  else
    match nth (QUENCH_LCTL 0) 128 16 a, nth (QUENCH_RCCFG 0) 128 16 a with
    | some n, _ => s.lctl n w
    | _, some n => if w.getLsbD 0 then s else s.rcOff n
    | _, _ => s

/-- The effects of a write of the CAN controller's registers; whether a frame taken up has begun arbitration is not
recorded in a register. -/
def State.canHook (s : State) (a : Nat) (old w : Word) : State :=
  if a = CANFD_CTL then s.canCtl old
  else if a = CANFD_TTCFG then
    if old.getLsbD 0 = w.getLsbD 0 then s else s.ttEnable (w.getLsbD 0)
  else
    match nth (CANFD_BCMD 0) 128 64 a with
    | some n =>
      let (b, s) := s.fresh 2
      s.bcmd n w (s.can.offer == some n && b == 1)
    | none => s

/-- The effects of a write of the BIC's registers. -/
def State.bicHook (s : State) (a : Nat) (w : Word) : State :=
  if a = BIC_COMPLETE 0 then s.coreComplete 0 (bitsOf w.toNat 7 0)
  else if a = BIC_COMPLETE 1 then s.coreComplete 1 (bitsOf w.toNat 7 0)
  else if a = BIC_HCOMPLETE then s.msgComplete (bitsOf w.toNat 7 0) 2
  else if a = BIC_HOSTCFG then (if s.targetUp 2 then s.targetBack 2 else s)
  else match nth (BIC_SRCCFG 0) 8 256 a with
    | some _ => (s.setNotice 0).setNotice 1
    | none => s

/-- What a done write of the register at `a` sets in motion; `old` is the word before it, `w` the word now held with the
action bits written. -/
def State.csrHook (s : State) (a : Nat) (old w : Word) : State :=
  match a / 65536 with
  | 0x38000000 => if a = BELLOWS_KEEPALIVE ∧ w.getLsbD 8 then s.keepAlive else s
  | 0x38000001 => s.quenchHook a old w
  | 0x38000002 =>
    (match nth (TUYERE_VCMD 0) 64 10 a, nth (TUYERE_VPROT 0) 64 10 a with
      | some c, _ => s.vcmd c old w
      | _, some c => s.vRetarget c
      | _, _ => s)
  | 0x38000003 => s.bicHook a w
  | 0x38000004 => if a = EVREC_RSEL then s.latch (bitsOf w.toNat 31 0) else s
  | 0x38000005 => s.canHook a old w
  | _ => if mainWindow a then s.mainHook a old w else s

/-! ### The write -/

/-- The new word with the action bits of the write. -/
def actWord (l : List FieldSpec) (w new : Word) : Word :=
  l.foldl (fun x f => if f.acc = .wo then setBits x f.hi f.lo (bitsOf w.toNat f.hi f.lo) else x) new

/-- The fields stored and the effects taken. -/
def State.csrDone (s : State) (r : RegSpec) (a : Nat) (old w : Word) : State :=
  match nth (TONGS_RING_IDX 0) 16 64 a with
  | some k => if r.fields.any (fun f => f.acts old w) then s.aidxWrite k (bitsOf w.toNat 31 0) else s
  | none =>
    if s.pendingBuf a then s.inc CANFD_STAT_WRREF
    else
      let lock := s.locked
      let new := crossBounds a old (r.fields.foldl (fun new f => f.write lock old w new) old)
      match nth (QUENCH_LSP 0) 128 16 a with
      | some n => if differs (QUENCH_LSP_SP n) old new then s.writeSp n (bitsOf new.toNat 31 0) s.micros else s
      | none => (s.wr a new).csrHook a old (actWord r.fields w new)

/-- A write of the register at an address through a path (R13–R17, R250): false where it is refused, with no effect but the
refusal's record. -/
def State.regWrite (s : State) (p : Path) (a : Nat) (w : Word) : Bool × State :=
  match findReg a with
  | none => (false, s.csrRefused p a)
  | some r =>
    if a % 8 ≠ 0 ∨ s.csrOn a = false then (false, s.csrRefused p a)
    else
      match capIndex a with
      | some i =>
        if capOwner i p then (true, s.capWrite i w) else (false, (s.capRejected i).csrRefused p a)
      | none =>
        let old := s.rd a
        let w := readOnlyBits a old w
        if r.fields.any (fun f => f.acts old w && !f.own.admits p a) then (false, s.csrRefused p a)
        else if r.fields.any (fun f => f.acts old w) && s.quenchDenies a old w then (false, s.csrRefused p a)
        else
          match nth (TUYERE_VPROF 0) 64 10 a with
          | some c =>
            let new := r.fields.foldl (fun new f => f.write false old w new) old
            if profileBad new then (false, (s.errSum BELLOWS_ERRSUM_VALVE).vEvent 0x0807 2 c 0) else (true, s.csrDone r a old w)
          | none => (true, s.csrDone r a old w)

/-- A write as its row gives it: at time `t`, where the path exists and the bits the row names are written. -/
def State.rowWrite (s : State) (p : Path) (a : Nat) (w : Word) (row : Bool) (t : Nat) : Out :=
  let s := s.at t
  if row = false ∨ s.pathUp p = false ∨ (mainWindow a ∧ s.domOn 192 = false) then .next s
  else .next (s.regWrite p a w).2

end Sys2Proof.Machine
end

