-- ==== Sys2Proof/Machine/CsrRead.lean ====
section
/-! DEFINITION. Reads of registers (R13, R14, R145–R148, R433, R500, R631, R634). -/

namespace Sys2Proof.Machine

/-- A word whose bit `i` is `f i`, for `i` below `n`. -/
def wordOf (n : Nat) (f : Nat → Bool) : Word :=
  BitVec.ofNat 64 ((List.range n).foldl (fun a i => if f i then a + 2 ^ i else a) 0)

/-- `RECDATA` (R433): 0 where no accepted image or no present variant is selected. -/
def State.recData (s : State) : Word :=
  let img := s.get TEMPER_RECSEL_IMG
  if (s.image img).isNone then 0
  else
    let r := s.recOf (recKey img (s.get TEMPER_RECSEL_HEAT) (s.get TEMPER_RECSEL_VAR))
    BitVec.ofNat 64 (min r.n 65535 * 2 ^ 48 + r.tl % 2 ^ 32 * 2 ^ 16 + r.p % 65536)

/-- A word of a snapshot window (R631): the shadow at the selected address plus 8i, in the window's own range. -/
def State.snapWord (s : State) (main : Bool) (sel i : Nat) : Word :=
  let a := (s.rd sel).toNat + 8 * i
  let inside : Bool := if main then mainWindow a else 0x380000000000 ≤ a && a < 0x380000080000
  if inside then Tab.get (fun _ => 0) s.shadow a else 0

/-- A stall counter with the cycles of the stall that holds issue now (R625). -/
def State.stallNow (s : State) (a : Nat) : Word :=
  let n := s.cyc - s.hammer.stallAt
  let held (f : Fd) : Word := if f.addr = a then (s.add f n).rd a else s.rd a
  match s.hammer.stall with
  | some (.wait _) => held HAMMER_STALLW_COUNT
  | some .token => held HAMMER_STALLW_COUNT
  | some .admission => held HAMMER_STALLA_ADMIT
  | some .drain => held HAMMER_STALLA_DRAIN
  | none => s.rd a

/-- The time in the present basic cycle in NTU (R542, R560). -/
def State.cycleTime (s : State) : Nat :=
  if s.get CANFD_TTSTAT_TTSTATE = 2 then min 65535 (2 * (s.now - s.can.cycleAt) / (25 * s.nominalBit))
  else s.get CANFD_TTSTAT_CTIME

/-- The word a register shows. Registers that show what the blocks hold are taken from there. -/
def State.csrView (s : State) (a : Nat) : Word :=
  if a = HAMMER_TOKSTAT then
    wordOf 32 (fun i => if i < 16 then (s.tok i).count != 0 else (s.tok (i - 16)).fail.isSome)
  else if a = HAMMER_AMASK0 then s.hammer.amask.extractLsb' 0 64
  else if a = HAMMER_AMASK1 then s.hammer.amask.extractLsb' 64 64
  else if a = HAMMER_AMASK2 then (s.hammer.amask.extractLsb' 128 32).setWidth 64
  else if a = HAMMER_AVAIL0 then s.hammer.avail.extractLsb' 0 64
  else if a = HAMMER_AVAIL1 then s.hammer.avail.extractLsb' 64 64
  else if a = HAMMER_AVAIL2 then (s.hammer.avail.extractLsb' 128 32).setWidth 64
  else if a = HAMMER_SKIPCNT then BitVec.ofNat 64 (s.core.idx - s.core.passed)
  else if a = HAMMER_STALLW then s.stallNow a
  else if a = HAMMER_STALLA then s.stallNow a
  else if a = CANFD_TTSTAT then setBits (s.rd a) 33 18 s.cycleTime
  else if a = TEMPER_CTRL then setBits (s.rd a) 31 26 s.core.k
  else if a = TEMPER_PACESTAT then setBits (s.rd a) 13 13 (if s.paceNow.isSome then 1 else 0)
  else if a = TEMPER_RECDATA then s.recData
  else if let some c := nth (TUYERE_VSTAT 0) 64 10 a then setBits (s.rd a) 31 25 (min 127 (s.winPct c))
  else if HAMMER_SNAPBUF 0 0 ≤ a ∧ a < HAMMER_SNAPBUF 4 0 then
    let d := (a - HAMMER_SNAPBUF 0 0) / 8
    s.snapWord true (HAMMER_SNAPSEL (d / 256)) (d % 256)
  else if BELLOWS_SNAPBUF 0 0 ≤ a ∧ a < BELLOWS_SNAPBUF 2 0 then
    let d := (a - BELLOWS_SNAPBUF 0 0) / 8
    s.snapWord false (BELLOWS_SNAPSEL (d / 256)) (d % 256)
  else s.rd a

/-- A read of Hammer's `TRDATA` (R634): the entry selected, and IDX advances. No rule gives what a read beyond the entries
held returns. -/
def State.hammerTrdata (s : State) : State :=
  let i := s.get HAMMER_TRSEL_IDX
  let (w, s) := match s.trace.ents[i]? with
    | some w => (w, s)
    | none => let (v, s) := s.fresh (2 ^ 64); (BitVec.ofNat 64 v, s)
  (s.wr HAMMER_TRDATA w).put HAMMER_TRSEL_IDX (i + 1)

/-- A read through the CSR windows by the host or over the management link (R13, R250): none where it is refused. The
registers of a core are reached by that core alone (R582). -/
def State.regRead (s : State) (p : Path) (a : Nat) : Option Word × State :=
  let core : Bool := a == BIC_CLAIM 0 || a == BIC_CLAIM 1 || a == BIC_COMPLETE 0 || a == BIC_COMPLETE 1
  if a % 8 ≠ 0 ∨ (findReg a).isNone ∨ s.csrOn a = false ∨ core then (none, s.csrRefused p a)
  else if a = HAMMER_TRDATA then let s := s.hammerTrdata; (some (s.rd a), s)
  else if a = QUENCH_TRDATA then let s := s.quenchTrdata; (some (s.rd a), s)
  else (some (s.csrView a), s)

end Sys2Proof.Machine
end

