-- ==== Sys2Proof/Machine/CsrRows.lean ====
section
/-! DEFINITION. The register writes and reads that have rows of their own, and the write of any other register. -/

namespace Sys2Proof.Machine

/-- A write of `STKSTAT.FENCE` (R278). -/
def execFence (p : Path) (stk : Nat) (w : Word) (t : Nat) (s : State) : Out :=
  s.rowWrite p (HEARTH_STKSTAT stk) w (stk < 20 && w.getLsbD 7) t

/-- A write of `PORTCFGn` (R330). -/
def execPortcfgWrite (p : Path) (port : Nat) (w : Word) (t : Nat) (s : State) : Out :=
  s.rowWrite p (TONGS_PORTCFG port) w (port < 2) t

/-- A write of `RINGr_IDX.AIDX` (R398). -/
def execAidxWrite (p : Path) (r : Nat) (w : Word) (t : Nat) (s : State) : Out := s.rowWrite p (TONGS_RING_IDX r) w (r < 64) t

/-- A write of the HOST cap (R413–R415). -/
def execCapHostWrite (p : Path) (w : Word) (t : Nat) (s : State) : Out := s.rowWrite p TEMPER_CAP_HOST w true t

/-- A write of the FACILITY cap (R413–R415). -/
def execCapFacilityWrite (p : Path) (w : Word) (t : Nat) (s : State) : Out := s.rowWrite p TEMPER_CAP_FACILITY w true t

/-- A write of `KEEPALIVE.KA` (R467). -/
def execKeepaliveKa (p : Path) (w : Word) (t : Nat) (s : State) : Out := s.rowWrite p BELLOWS_KEEPALIVE w (w.getLsbD 8) t

/-- `LCTLn.EN` set (R492). -/
def execLoopArm (p : Path) (n : Nat) (w : Word) (t : Nat) (s : State) : Out :=
  s.rowWrite p (QUENCH_LCTL n) w (n < 16 && w.getLsbD 0) t

/-- `LCTLn.EN` cleared (R492). -/
def execLoopDisarm (p : Path) (n : Nat) (w : Word) (t : Nat) (s : State) : Out :=
  s.rowWrite p (QUENCH_LCTL n) w (n < 16 && !w.getLsbD 0) t

/-- `LCTLn.COMMIT` (R493). -/
def execCommit (p : Path) (n : Nat) (w : Word) (t : Nat) (s : State) : Out :=
  s.rowWrite p (QUENCH_LCTL n) w (n < 16 && w.getLsbD 3) t

/-- `LCTLn.PRIM` (R495). -/
def execPrim (p : Path) (n : Nat) (w : Word) (t : Nat) (s : State) : Out :=
  s.rowWrite p (QUENCH_LCTL n) w (n < 16 && w.getLsbD 2) t

/-- A write of `RCCFGn` (R496). -/
def execRcEn (p : Path) (n : Nat) (w : Word) (t : Nat) (s : State) : Out := s.rowWrite p (QUENCH_RCCFG n) w (n < 16) t

/-- `TRCTL.ARM` of Quench (R500). -/
def execQuenchTraceArm (p : Path) (w : Word) (t : Nat) (s : State) : Out := s.rowWrite p QUENCH_TRCTL w (w.getLsbD 0) t

/-- `TRCTL.FORCE` of Quench (R500). -/
def execQuenchTraceForce (p : Path) (w : Word) (t : Nat) (s : State) : Out := s.rowWrite p QUENCH_TRCTL w (w.getLsbD 1) t

/-- A write of `VCMDc` with MODE FIXED (R511, R513). -/
def execFixcmd (p : Path) (c : Nat) (w : Word) (t : Nat) (s : State) : Out :=
  s.rowWrite p (TUYERE_VCMD c) w (c < 10 && bitsOf w.toNat 1 0 == 2) t

/-- A write of `VPROFc` (R510). -/
def execVprofWrite (p : Path) (c : Nat) (w : Word) (t : Nat) (s : State) : Out := s.rowWrite p (TUYERE_VPROF c) w (c < 10) t

/-- `BCMDn.TXREQ` (R539). -/
def execTxreq (p : Path) (n : Nat) (w : Word) (t : Nat) (s : State) : Out :=
  s.rowWrite p (CANFD_BCMD n) w (n < 64 && w.getLsbD 0) t

/-- `BCMDn.CANCEL` (R540); `begun`: the buffer's frame has begun arbitration. Any path may write `BCMDn` (R560). -/
def execCancel (p : Path) (n : Nat) (w : Word) (begun : Bool) (t : Nat) (s : State) : Out :=
  let s := s.at t
  if n ≥ 64 ∨ w.getLsbD 1 = false ∨ s.pathUp p = false then .next s
  else .next (s.bcmd n w (begun && s.can.offer == some n))

/-- `BCMDn.ACK` (R538). -/
def execBcmdAck (p : Path) (n : Nat) (w : Word) (t : Nat) (s : State) : Out :=
  s.rowWrite p (CANFD_BCMD n) w (n < 64 && w.getLsbD 2) t

/-- `TTCFG.TTEN` set (R544). -/
def execTten (p : Path) (w : Word) (t : Nat) (s : State) : Out := s.rowWrite p CANFD_TTCFG w (w.getLsbD 0) t

/-- A write of `COMPLETEt` (R568). -/
def execBicComplete (p : Path) (c : Nat) (w : Word) (t : Nat) (s : State) : Out := s.rowWrite p (BIC_COMPLETE c) w (c < 2) t

/-- A write of `HCOMPLETE` (R570). -/
def execHcomplete (p : Path) (w : Word) (t : Nat) (s : State) : Out := s.rowWrite p BIC_HCOMPLETE w true t

/-- A write of `RSEL.SEQ` (R581). -/
def execRsel (p : Path) (w : Word) (t : Nat) (s : State) : Out := s.rowWrite p EVREC_RSEL w true t

/-- `SNAPCTL.SNAP` (R627). -/
def execSnapctlSnap (p : Path) (w : Word) (t : Nat) (s : State) : Out := s.rowWrite p HAMMER_SNAPCTL w (w.getLsbD 16) t

/-- `TRCTL.ARM` of Hammer (R634). -/
def execHammerTraceArm (p : Path) (w : Word) (t : Nat) (s : State) : Out := s.rowWrite p HAMMER_TRCTL w (w.getLsbD 0) t

/-- `TRCTL.FORCE` of Hammer (R634). -/
def execHammerTraceForce (p : Path) (w : Word) (t : Nat) (s : State) : Out := s.rowWrite p HAMMER_TRCTL w (w.getLsbD 1) t

/-- A read of Hammer's `TRDATA` (R634). -/
def execHammerTrdata (t : Nat) (s : State) : Out :=
  let s := s.at t
  if s.domOn 192 then .next s.hammerTrdata else .next s

/-- A write of any register (R13–R17, R250). -/
def execRegisterWrite (p : Path) (addr : Nat) (w : Word) (t : Nat) (s : State) : Out := s.rowWrite p addr w true t

end Sys2Proof.Machine
end

