-- ==== Sys2Proof/Machine/Debug.lean ====
section
/-! DEFINITION. Snapshots (R627–R632): which registers are captured, the capture of the main dies and of Bellows. -/

namespace Sys2Proof.Machine

/-- The addresses of a row of the register tables. -/
def RegSpec.addrs (r : RegSpec) : List Nat :=
  (List.range r.c1).flatMap (fun i => (List.range r.c2).flatMap (fun j => (List.range r.c3).map (fun k =>
    r.base + i * r.s1 + j * r.s2 + k * r.s3)))

/-- Whether a row holds status or counters: a field that software cannot set. -/
def RegSpec.status (r : RegSpec) : Bool :=
  r.fields.any (fun f => match f.acc with | .ro => true | .w1c => true | _ => false)

/-- Registers that are never captured: those whose read has a side effect (R631), and the windows themselves. -/
def uncaptured (a : Nat) : Bool :=
  a == BIC_CLAIM 0 || a == BIC_CLAIM 1 || a == HAMMER_TRDATA || a == QUENCH_TRDATA ||
    (EVREC_RDATA 0 ≤ a && a ≤ EVREC_RDATA 3) || (HAMMER_SNAPBUF 0 0 ≤ a && a < HAMMER_SNAPBUF 4 0) ||
    (BELLOWS_SNAPBUF 0 0 ≤ a && a < BELLOWS_SNAPBUF 2 0)

/-- The captured registers of some blocks (R628, R629): status and counters, and `HEATCFG`, which R241 names. -/
def capturedOf (rows : List RegSpec) : List Nat :=
  (rows.filter (fun r => r.status || r.base == HAMMER_HEATCFG)).flatMap (fun r => r.addrs.filter (fun a => !uncaptured a))

/-- Rows of the main dies. -/
def mainRows : List RegSpec := regsHammer ++ regsTemper ++ regsTongs ++ regsHearth ++ regsAnvil ++ regsCruc

/-- Rows of the Bellows proxy window. -/
def planeRows : List RegSpec :=
  regsBellows ++ regsQuench ++ regsTuyere ++ regsBic ++ regsEvrec ++ regsCanfd ++ regsMgmt ++ regsSec

/-- The shadows after a capture of some registers; registers of a domain that is off have none (R591). -/
def State.shadowed (s : State) (l : List Nat) (sh : Tab Word) : Tab Word :=
  l.foldl (fun sh a => if s.csrOn a then Tab.set (fun _ => 0) sh a (s.csrView a) else sh) sh

/-- The Bellows capture (R629); its generation wraps after 2^32 captures (assumption log 145). -/
def State.bellowsCapture (s : State) (src tag : Nat) (main : Bool) : State :=
  let sh := s.shadowed (capturedOf planeRows) (s.shadow.filter (fun e => mainWindow e.1))
  let s := ({ s with shadow := sh }.put BELLOWS_SNAPSTAT_GEN (s.get BELLOWS_SNAPSTAT_GEN + 1)).put BELLOWS_SNAPSTAT_TAG tag
  ((s.putB BELLOWS_SNAPSTAT_MAINVALID main).put BELLOWS_SNAPSTAT_SRC src).put BELLOWS_SNAPMGMT_MCYC (s.mclk / 20)

/-- The capture of the main dies (R628, R632). -/
def State.mainCapture (s : State) (r : SnapReq) (gen : Nat) : State :=
  let sh := s.shadowed (capturedOf mainRows) (s.shadow.filter (fun e => !mainWindow e.1))
  let s := ({ s with shadow := sh, snapReq := none }.put HAMMER_SNAPSTAT_GEN gen).put HAMMER_SNAPSTAT_TAG r.tag
  let s := (s.put HAMMER_SNAPSTAT_JOBID r.job).put HAMMER_SNAPSTAT_SRC r.src
  ((s.put HAMMER_SNAPCYC_CYCLE s.cyc).put HAMMER_SNAPPOS_POS r.pos).traced 6 gen |>.traceTrig 3

/-- The eighth unskipped cycle after a launch: the main dies, then Bellows (R627–R629). -/
def execSnapCapture (t : Nat) (s : State) : Out :=
  let s := s.at t
  match s.snapReq with
  | some r =>
    if s.domOn 192 = false ∨ s.cyc < r.at_ + 8 then .next s
    else .next ((s.mainCapture r ((s.get BELLOWS_SNAPSTAT_GEN + 1) % 2 ^ 32)).bellowsCapture r.src r.tag true)
  | none => .next s

/-- A request of the management link (R627, R630): with compute down, Bellows alone is captured. -/
def State.mgmtSnap (s : State) (tag : Nat) : State :=
  if s.domOn 192 then s.snapRequest 4 tag s.snapPos else s.bellowsCapture 4 tag false

end Sys2Proof.Machine
end

