-- ==== Sys2Proof/Machine/Transmit.lean ====
section
/-! DEFINITION. The choice and sending of frames (R341, R345, R346, R358, R374–R377). -/

namespace Sys2Proof.Machine

/-- A frame a stream may send now: its bytes on the wire, RESP, since when it is ready. -/
structure ReadyFrame where
  strm : Nat
  len : Nat
  resp : Bool
  since : Nat
deriving DecidableEq, Repr

/-- The frame a stream has ready under its window, its credit and the pin limit (R345, R348, R370, R374). -/
def State.readyFrame (s : State) (n : Nat) : Option ReadyFrame :=
  let c := s.ctx n
  let over0 := if s.on (TONGS_PORTCFG_VLAN_EN (portOf c.ifc)) then 102 else 98
  if c.tstate ≠ 3 then none
  else
    match c.resend.findSome? (fun q => c.unacked.find? (fun u => u.pkt.psn == q)) with
    | some u => some ⟨n, u.pkt.pay.length + over0, bit u.pkt.flags 2, u.retx.getD s.now⟩
    | none =>
      if c.inFlight ≥ s.get TONGS_RETX_WIN then none
      else
        match c.nextMsg with
        | none => none
        | some m =>
          let ok : Bool := m.msn.isSome || (seqLt c.txmsn c.peerclim && s.mayPin n)
          if ok then some ⟨n, min (s.segSize c.ifc) (m.len - m.sent) + over0, m.resp, m.ready⟩ else none

/-- A stream kept from beginning its next message by the pin limit alone asks for a pin (R370). -/
def State.askPin (s : State) (n : Nat) : State :=
  let c := s.ctx n
  if c.tstate = 3 && c.resend.isEmpty && c.inFlight < s.get TONGS_RETX_WIN && seqLt c.txmsn c.peerclim &&
    c.nextMsg.any (fun m => m.msn.isNone) && !s.mayPin n then (s.pin n).2 else s

/-- Bytes `o` to `o + k − 1` of a message, read from memory where they stand there; or the location of what fails (R270). -/
def State.msgBytes (s : State) (m : OutMsg) (o k : Nat) : Except Word (List Byte) × State :=
  match m.src with
  | none => (.ok ((m.data.drop o).take k), s)
  | some x =>
    if s.tongsMem (x.addr + o) k = false then (.error (locRefused (x.addr + o)), s)
    else s.tongsRead 5 x.stale (x.addr + o) k

/-- Send a stream's ready frame (R341, R342, R346). Where the bytes of a segment cannot be read, the message ends in a stream error
completion instead (R270). `bad`: the frame's check fails (R264). -/
def State.sendFrame (s : State) (i n : Nat) (bad : Bool) : State :=
  let c := s.ctx n
  match c.resend.findSome? (fun q => c.unacked.find? (fun u => u.pkt.psn == q)) with
  | some u =>
    let p := Pkt.sealed { u.pkt with flags := Nat.lor u.pkt.flags flRetx, clim := c.ownclim }
    let un := c.unacked.map (fun x => if x.pkt.psn = u.pkt.psn then { x with retx := some s.now, base := s.now } else x)
    let c : Ctx := { c with resend := c.resend.filter (fun q => q != u.pkt.psn), retxpkts := c.retxpkts + 1, unacked := un }
    ((s.setCtx n (c.credit s.now)).sendPkt i c.peerAddr p bad).touch n
  | none =>
    match c.nextMsg with
    | none => s
    | some m =>
      let k := min (s.segSize c.ifc) (m.len - m.sent)
      match s.msgBytes m m.sent k with
      | (.error w, s) => s.dataFail n m.nop w
      | (.ok d, s) =>
        let msn := m.msn.getD c.txmsn
        let last := m.sent + k = m.len
        let fl := (if m.sent = 0 then flFirst else 0) + (if last then flLast + flAckReq else 0) + (if m.resp then flResp else 0)
        let p := Pkt.sealed
          { ver := 1, typ := 0, flags := fl, prio := c.prio, hops := 0, opc := m.opc, dstrm := c.peerStrm, sstrm := n,
            psn := c.txnext, msn := msn, w0 := m.len, w1 := m.sent / 64, w2 := k, clim := c.ownclim, pcrc := 0,
            pay := d, net := Net.none }
        let m' : OutMsg := { m with msn := some msn, sent := m.sent + k }
        let j := c.txq.findIdx (fun x => x.msn.isNone || x.sent < x.len)
        let c : Ctx := { c with
          txmsn := if m.msn.isSome then c.txmsn else seqAdd c.txmsn 1
          txnext := seqAdd c.txnext 1
          unacked := c.unacked ++ [⟨p, s.now, s.now, none⟩]
          txq := c.txq.set j m' }
        let s := ((s.setCtx n ((c.readyAt s.now).credit s.now)).sendPkt i c.peerAddr p bad).touch n
        if m.msn.isSome then s else (s.pin n).2

/-- The stream next in turn after `last`. -/
def nextTurn (l : List ReadyFrame) (last : Nat) : Option ReadyFrame :=
  let least (l : List ReadyFrame) : Option ReadyFrame :=
    l.foldl (fun acc f => match acc with
      | none => some f
      | some g => if f.strm < g.strm then some f else acc) none
  match least (l.filter (fun f => f.strm > last)) with
  | some f => some f
  | none => least l

/-- A frame with RESP goes ahead of one without (R374). -/
def respFirst (l : List ReadyFrame) : List ReadyFrame := if l.any (·.resp) then l.filter (·.resp) else l

/-- Deficit round robin across the streams of a class: the stream to send, with the interface's new deficits. -/
def drrStream (w : Nat → Nat) (l : List ReadyFrame) (cls : Nat) : Nat → Ifc → Option ReadyFrame × Ifc
  | 0, x => (none, x)
  | f + 1, x =>
    let cur := Tab.get (fun _ => 0) x.drrStrm cls
    match l.find? (fun r => r.strm == cur && Tab.get (fun _ => 0) x.strmDeficit r.strm ≥ r.len) with
    | some r => (some r, x)
    | none =>
      match nextTurn l cur with
      | none => (none, x)
      | some r =>
        let d := Tab.get (fun _ => 0) x.strmDeficit r.strm + w r.strm * 1024
        drrStream w l cls f { x with
          drrStrm := Tab.set (fun _ => 0) x.drrStrm cls r.strm
          strmDeficit := Tab.set (fun _ => 0) x.strmDeficit r.strm d }

/-- Deficit round robin across classes 0–5 (R374). -/
def drrClassGo (w q : Nat → Nat) (l : Nat → List ReadyFrame) : Nat → Ifc → Option ReadyFrame × Ifc
  | 0, x => (none, x)
  | f + 1, x =>
    let c := x.drrClass
    let d := Tab.get (fun _ => 0) x.deficit c
    let cand := respFirst (l c)
    let (r, x) := if cand.isEmpty then (none, x) else drrStream w cand c (10 * cand.length + 10) x
    match r with
    | some r =>
      if r.len ≤ d then
        (some r, { x with
          deficit := Tab.set (fun _ => 0) x.deficit c (d - r.len)
          strmDeficit := Tab.set (fun _ => 0) x.strmDeficit r.strm (Tab.get (fun _ => 0) x.strmDeficit r.strm - r.len) })
      else
        let n := (c + 1) % 6
        drrClassGo w q l f { x with
          drrClass := n, deficit := Tab.set (fun _ => 0) x.deficit n (Tab.get (fun _ => 0) x.deficit n + q n * 4096) }
    | none =>
      let n := (c + 1) % 6
      let z := Tab.set (fun _ => 0) x.deficit c 0
      drrClassGo w q l f { x with
        drrClass := n, deficit := Tab.set (fun _ => 0) z n (Tab.get (fun _ => 0) z n + q n * 4096) }

/-- Interface rate in bytes per nanosecond (R325). -/
def State.rate (s : State) (i : Nat) : Nat := if s.get (TONGS_PORTCFG_MODE (portOf i)) ≤ 3 then 50 else 25

/-- The strict bucket filled up to now, in 1/64 byte (R375). -/
def State.fillBucket (s : State) (i : Nat) : Ifc :=
  let x := s.ifc i
  { x with
    bucket := min (65536 * 64) (x.bucket + (s.now - x.bucketAt) * s.rate i * s.get TONGS_SCHED_STRICTMAX)
    bucketAt := s.now }

/-- The streams of an interface that have a frame ready and a resolved peer. -/
def State.readyOn (s : State) (i : Nat) : List ReadyFrame :=
  (s.tongs.cache.filter (fun c => (s.ctx c.strm).ifc == i && s.present c.strm && s.known i (s.ctx c.strm).peerAddr)).filterMap
    (fun c => s.readyFrame c.strm)

/-- The oldest ready frame. -/
def oldest (l : List ReadyFrame) : Option ReadyFrame :=
  l.foldl (fun acc f => match acc with
    | none => some f
    | some g => if f.since < g.since then some f else acc) none

/-- One local frame of an interface by the tiers of R374. The answer says whether a frame was sent. -/
def State.sendLocal (s : State) (i : Nat) (bad : Bool) : Bool × State :=
  let x := s.fillBucket i
  match x.ctrl.find? (fun e => s.known i e.1) with
  | some e => (true, ((s.setIfc i { x with ctrl := x.ctrl.erase e }).sendPkt i e.1 e.2 bad).touch e.2.sstrm)
  | none =>
    let l := s.readyOn i
    let cls (k : Nat) : List ReadyFrame := l.filter (fun f => (s.ctx f.strm).prio == k)
    let fits (k : Nat) : List ReadyFrame := respFirst ((cls k).filter (fun f => f.len * 64 ≤ x.bucket))
    let strict := match nextTurn (fits 7) x.strict7 with
      | some f => some (f, { x with bucket := x.bucket - f.len * 64, strict7 := f.strm })
      | none => (nextTurn (fits 6) x.strictLast).map (fun f => (f, { x with bucket := x.bucket - f.len * 64, strictLast := f.strm }))
    match strict with
    | some (f, x) => (true, (s.setIfc i x).sendFrame i f.strm bad)
    | none =>
      match oldest (l.filter (fun f => s.now ≥ f.since + s.get TONGS_SCHED_AGE * us)) with
      | some f => (true, (s.setIfc i x).sendFrame i f.strm bad)
      | none =>
        let q (c : Nat) : Nat := bitsOf (s.rd TONGS_CQ).toNat (8 * c + 7) (8 * c)
        match drrClassGo (fun n => (s.ctx n).weight) q cls 30 x with
        | (some f, x) => (true, (s.setIfc i x).sendFrame i f.strm bad)
        | (none, _) => (false, s.setIfc i x)

/-- What keeps the streams of an interface from sending is asked for: peers resolved (R334), pins (R370), and a cache entry for a
stream that has a message queued (R371). -/
def State.askAll (s : State) (i : Nat) : State :=
  let s := (s.ifc i).ctrl.foldl (fun s e => s.resolve i e.1) s
  s.streams.foldl (fun s n =>
    let c := s.ctx n
    if c.ifc != i || c.tstate != 3 || !s.present n || c.txq.isEmpty then s
    else if s.cached n = false then (s.wantCache n).2
    else
      let s := s.askPin n
      if (s.readyFrame n).isSome then s.resolve i c.peerAddr else s) s

/-- An interface sends its next frame (R358, R374): the relay lane and local traffic alternate while both have one. -/
def execFrameTransmit (i : Nat) (t : TxIn) (s : State) : Out :=
  let s := s.at t.t
  if i ≥ 4 ∨ (s.ifc i).up = false then .next s
  else
    let s := s.askAll i
    let from_ := 1 - portOf i
    let lane := if i % 2 = 0 then Tab.get (fun _ => ([] : List Frame)) s.tongs.relay from_ else []
    let relay (f : Frame) (r : List Frame) : State :=
      (({ s with tongs := { s.tongs with relay := Tab.set (fun _ => []) s.tongs.relay from_ r } }).setIfc i
        { s.ifc i with relayTurn := false }).emit f
    match lane with
    | [] => .next (s.sendLocal i t.bad).2
    | f :: r =>
      if (s.ifc i).relayTurn then .next (relay f r)
      else
        match s.sendLocal i t.bad with
        | (true, s) => .next (s.setIfc i { s.ifc i with relayTurn := true })
        | (false, _) => .next (relay f r)

end Sys2Proof.Machine
end

