-- ==== Sys2Proof/Machine/HostAccess.lean ====
section
/-! DEFINITION. Accesses of the host through command streams (R142, R246, R250, R270, R353, R354, R384, R599): memory, the
CSR windows and the Hammer store. -/

namespace Sys2Proof.Machine

/-- The 16-byte access prefix (R353). -/
def memPrefix (addr len tag status : Nat) : List Byte := toBytes 8 addr ++ toBytes 4 len ++ toBytes 2 tag ++ toBytes 2 status

/-- The MEMRSP of an access (R353, R354), which had reserved `need` bytes: a status other than OK is counted in ERRCNT. A message
shorter than the prefix is answered with a prefix of zeros but for the status. -/
def State.memAnswer (s : State) (n need : Nat) (msg : List Byte) (st : Nat) (data : List Byte) : State :=
  let c := s.ctx n
  let s := if st = 0 then s else s.setCtx n { c with errcnt := min (c.errcnt + 1) (2 ^ 32 - 1) }
  let pre := if msg.length < 16 then memPrefix 0 0 0 st else memPrefix (leAt msg 0 8) (leAt msg 8 4) (leAt msg 12 2) st
  (s.queueMsg n 6 true (pre ++ data) none).cmdDone n need

/-- A host write: the status of R354 and the state. -/
def State.hostWrite (s : State) (a : Nat) (data : List Byte) : Nat × State :=
  let n := data.length
  match region a with
  | .csr _ =>
    if n ≠ 8 then (1, s.csrRefused .host a)
    else
      match s.regWrite .host a (BitVec.ofNat 64 (leAt data 0 8)) with
      | (true, s) => (0, s)
      | (false, s) => (1, s)
  | _ => let r := s.tongsStore a data; (r.1, r.2.2)

/-- A host read: the status of R354, the bytes and the state. -/
def State.hostRead (s : State) (a n : Nat) : Nat × List Byte × State :=
  match region a with
  | .csr _ =>
    if n ≠ 8 then (1, [], s.csrRefused .host a)
    else
      match s.regRead .host a with
      | (some w, s) => (0, toBytes 8 w.toNat, s)
      | (none, s) => (1, [], s)
  | _ =>
    if s.tongsMem a n = false then (1, [], s)
    else
      match s.tongsRead 6 [] a n with
      | (.error _, s) => (2, [], s)
      | (.ok l, s) => (0, l, s)

/-- What a stream may still send goes out, at most `f` frames. -/
def State.sendOut : Nat → State → Nat → State
  | 0, s, _ => s
  | f + 1, s, n => if (s.readyFrame n).isSome then State.sendOut f (s.sendFrame (s.ctx n).ifc n false) n else s

/-- MEMWR (R353, R354, R384, R599): an access to a locked image is answered, then the stream fails. -/
def execMemwr (n : Nat) (msg : List Byte) (t : Nat) (s : State) : Out :=
  let s := s.at t
  match s.takeMsg n 4 msg 16 with
  | (false, s) => .next s
  | (true, s) =>
    let len := leAt msg 8 4
    let bad : Bool := msg.length < 16 || len == 0 || len > 65520 || leAt msg 14 2 != 0 || msg.length != 16 + len
    if s.active = false then .next ((s.memAnswer n 16 msg 5 []).settle n)
    else if bad then .next ((s.memAnswer n 16 msg 4 []).settle n)
    else
      match s.hostWrite (leAt msg 0 8) (msg.drop 16) with
      | (3, s) => .next ((State.sendOut 256 (s.memAnswer n 16 msg 3 []) n).failStream n 7 true)
      | (st, s) => .next ((s.memAnswer n 16 msg st []).settle n)

/-- MEMRD (R353, R354). -/
def execMemrd (n : Nat) (msg : List Byte) (t : Nat) (s : State) : Out :=
  let s := s.at t
  let len := leAt msg 8 4
  let bad : Bool := msg.length != 16 || len == 0 || len > 65536 || leAt msg 14 2 != 0
  let need := 16 + (if bad then 0 else len)
  match s.takeMsg n 5 msg need with
  | (false, s) => .next s
  | (true, s) =>
    if bad then .next ((s.memAnswer n need msg 4 []).settle n)
    else
      match s.hostRead (leAt msg 0 8) len with
      | (st, data, s) => .next ((s.memAnswer n need msg st data).settle n)

/-- A PACE message delivered on a peer stream (R361, R434, R436). -/
def execPace (n : Nat) (msg : List Byte) (t : Nat) (s : State) : Out :=
  let s := s.at t
  let c := s.ctx n
  if c.typ ≠ 6 ∨ c.tstate ≠ 3 then .next s
  else
    let c : Ctx := { c with rxmsn := seqAdd c.rxmsn 1, rxmsgs := c.rxmsgs + 1 }
    .next (((s.setCtx n c).takePace n msg).settle n)

end Sys2Proof.Machine
end

