-- ==== Sys2Proof/Machine/Jobs.lean ====
section
/-! DEFINITION. Job switch and selection (R107–R109, R210, R230–R235, R389). -/

namespace Sys2Proof.Machine

/-- The switch at a heat boundary (R107, R108, R210, R230, R234): what is in flight takes effect, the outgoing job is
saved, and the selected job enters. It waits while a token counts (R107). -/
def execJobSwitch (t : Nat) (s : State) : Out :=
  match s.hammer.stall, s.hammer.marker, s.hammer.run with
  | some .drain, some m, some id =>
    match m.switchTo, s.job id with
    | some next, some j =>
      if s.hammer.tok.any (fun p => p.2.count > 0) then .next s
      else
        let s := ((s.at t).drain).release
        let s := s.saveJob id j m.heat m.coll
        let into := if (s.job next).isSome then next else (s.selectJob.map (·.1)).getD id
        let s := s.hammerIdle
        .next (match s.job into with
          | none => s.jobStat
          | some k =>
            let s := s.traced 4 (id * 256 + into)
            (s.enterJob into k).putB HAMMER_HEATSTAT_SWITCHED true)
    | _, _ => .next s
  | _, _, _ => .next s

/-- Hammer, idle, selects the waiting job of the highest effective class (R389) and enters it. -/
def execJobSelect (t : Nat) (s : State) : Out :=
  let s := s.at t
  if s.hammer.run.isSome then .next s
  else
    match s.selectJob with
    | none => .next s
    | some (id, j) => .next (s.enterJob id j)

end Sys2Proof.Machine
end

