-- ==== Sys2Proof/Machine/Jtag.lean ====
section
/-! DEFINITION. The test access port (R635–R638). -/

namespace Sys2Proof.Machine

/-- What the scanned outputs follow. -/
inductive PinDrive where
  /-- The chip's own logic. -/
  | chip
  /-- Nothing: every scanned output is released (HIGHZ). -/
  | released
  /-- The boundary register's driving bits (EXTEST, CLAMP). -/
  | boundary (b : Nat)
deriving DecidableEq, Repr

/-- The bits of the boundary register that drive a pin (R637): SHDN_N, the PWM outputs, MDC and MDIO; the straps and the
tachometer inputs are observed only. -/
def drivenBits : List Nat := [5, 6, 7, 8, 9, 14, 15]

/-- The driving bits of a boundary register. -/
def drivenPins (b : Nat) : Nat := (drivenBits.map (fun i => if bit b i then 2 ^ i else 0)).sum

/-- Whether EXTEST, HIGHZ and CLAMP take effect now; else they act as BYPASS (R638). -/
def State.tapDrives (s : State) : Bool := !s.on BELLOWS_PWRSTAT_REGON

/-- What the scanned outputs follow under the instruction in force (R636, R638). -/
def State.pinDrive (s : State) : PinDrive :=
  if s.tapDrives = false then .chip
  else
    match s.jtag.ir with
    | 0x03 => .boundary (drivenPins s.jtag.boundary)
    | 0x04 => .released
    | 0x05 => .boundary (drivenPins s.jtag.boundary)
    | _ => .chip

/-- An instruction in force with its data register. -/
def State.tap (s : State) (ir dr : Nat) : State := { s with jtag := { s.jtag with ir := ir, dr := dr } }

/-- What the boundary register captures (R636, R637): the straps and SHDN_N from the state; the levels of the PWM outputs,
tachometers, MDC and MDIO at that instant are free. -/
def State.tapSample (s : State) : Nat × State :=
  let (v, s) := s.fresh 1024
  let low : Bool := match s.pinDrive with | .boundary b => !bit b 5 | _ => false
  let shdn : Bool := s.cool.shdn || s.cool.shdnExt || low
  (s.pwr.slotId % 8 + s.pwr.tcrit % 4 * 8 + (if shdn then 0 else 32) + v * 64, s)

/-- The boundary register loaded with what is shifted in. -/
def State.tapLoad (s : State) (bits : Nat) : State := { s with jtag := { s.jtag with boundary := bits % 2 ^ 16 } }

/-- IDCODE (R636). The TAP runs on VSB12 (R635). -/
def execIdcode (s : State) : Out := .next (if s.pwr.alive then s.tap 0x01 0x1AC209B3 else s)

/-- SAMPLE/PRELOAD (R636): the pins sampled; `bits` is then shifted in. -/
def execSamplePreload (bits : Nat) (s : State) : Out :=
  if s.pwr.alive = false then .next s
  else
    let (v, s) := s.tapSample
    .next ((s.tap 0x02 v).tapLoad bits)

/-- EXTEST (R636, R638). -/
def execExtest (bits : Nat) (s : State) : Out :=
  if s.pwr.alive = false then .next s
  else if s.tapDrives = false then .next (s.tap 0x03 0)
  else
    let (v, s) := s.tapSample
    .next ((s.tap 0x03 v).tapLoad bits)

/-- HIGHZ (R636, R638), with BYPASS selected. -/
def execHighz (s : State) : Out := .next (if s.pwr.alive then s.tap 0x04 0 else s)

/-- CLAMP (R636, R638), with BYPASS selected. -/
def execClamp (s : State) : Out := .next (if s.pwr.alive then s.tap 0x05 0 else s)

/-- BYPASS (R636). -/
def execBypass (s : State) : Out := .next (if s.pwr.alive then s.tap 0xFF 0 else s)

end Sys2Proof.Machine
end

