-- ==== Sys2Proof/Machine/LoadStore.lean ====
section
/-! DEFINITION. The L slot (R125, R126, R172–R175): effective addresses, loads, stores and the post-update of the base
register. -/

namespace Sys2Proof.Machine

/-- The effective address in an Anvil (R125): a byte offset, not reduced. -/
def lsEa (a : Anvil) (f : LSf) : Int :=
  (a.kr f.kb).toNat + (if f.am = 2 then ((a.kr f.ks).toNat : Int) else 0) + sgn 19 f.off * 128

/-- First address and size of the store an operation names in an Anvil (R126). -/
def lsStore (hearth : Bool) (g : Nat) : Nat × Nat :=
  if hearth then (hearthBase (g / 16), 0x1000000) else (anvilBase g, 0x200000)

/-- Whether an effective address obeys R126. -/
def lsEaOk (hearth : Bool) (g : Nat) (ea : Int) : Bool := ea % 128 == 0 && 0 ≤ ea && ea < ((lsStore hearth g).2 : Int)

/-- The byte address an access names, modulo 2^64 (R174). -/
def lsAddr (hearth : Bool) (g : Nat) (ea : Int) : Nat := wrap 64 ((lsStore hearth g).1 + ea)

/-- The executing Anvils whose address obeys R126, with it. -/
def State.lsGood (s : State) (hearth : Bool) (f : LSf) : List (Nat × Nat) :=
  (s.executing f.pred).filterMap (fun g =>
    let ea := lsEa (s.anvil g) f
    if lsEaOk hearth g ea then some (g, lsAddr hearth g ea) else none)

/-- L_ADDR in the executing Anvils whose address does not (R174, R211). -/
def State.lsBad (s : State) (hearth : Bool) (slot : Nat) (f : LSf) : List Flight :=
  (s.executing f.pred).filterMap (fun g =>
    let ea := lsEa (s.anvil g) f
    if lsEaOk hearth g ea then none else some ⟨0, .fault 0x10 6 slot g (locRefused (lsAddr hearth g ea))⟩)

/-- The post-update of `.pu`, made whether or not the access faults (R173, R89). -/
def State.lsPost (s : State) (f : LSf) : List Flight :=
  if f.am = 1 then
    (s.executing f.pred).map (fun g =>
      let a := s.anvil g
      let (r, sat) := intOp 64 false .add (a.kr f.kb).toNat (a.kr f.ks).toNat
      ⟨2, .anvil g (.k f.kb (BitVec.ofNat 64 r)) (flagIf sat fIntSat)⟩)
  else []

/-- The value a store writes. -/
def storeVal (a : Anvil) (file d : Nat) : Nat :=
  match file with
  | 0 => (a.vr d).toNat
  | 1 => (a.gr d).toNat
  | _ => (a.kr d).toNat

/-- A load word. -/
def loadOp (h : Hd) (hearth : Bool) (op : Nat) (f : LSf) : SlotOp :=
  .plain lSlots (lsLegal (h.slot = 5) op f) (lsDests (h.slot = 5) op f) (fun s =>
    ⟨0, .loads h.slot (lsFile op) f.dr (if hearth then 8 else 4) hearth (s.lsGood hearth f)⟩ ::
      (s.lsBad hearth h.slot f ++ s.lsPost f))

/-- A store word. -/
def storeOp (h : Hd) (hearth : Bool) (op : Nat) (f : LSf) : SlotOp :=
  .plain lSlots (lsLegal (h.slot = 5) op f) (lsDests (h.slot = 5) op f) (fun s =>
    ⟨0, .stores h.slot (if lsFile op = 0 then 128 else 8) hearth
        ((s.lsGood hearth f).map (fun p => (p.1, p.2, storeVal (s.anvil p.1) (lsFile op) f.dr)))⟩ ::
      (s.lsBad hearth h.slot f ++ s.lsPost f))

/-- Opcode among those of a row. -/
def oneOf (op : Nat) (l : List Nat) : Bool := l.contains op

/-- `ld.a`, `ld.a.g`, `ld.a.k` (R172). -/
def execLdA (h : Hd) (op : Nat) (f : LSf) (s : State) : Out :=
  let o := loadOp h false op f
  s.slotOp h { o with legal := o.legal && oneOf op [1, 5, 9] }

/-- `st.a`, `st.a.g`, `st.a.k` (R172). -/
def execStA (h : Hd) (op : Nat) (f : LSf) (s : State) : Out :=
  let o := storeOp h false op f
  s.slotOp h { o with legal := o.legal && oneOf op [2, 6, 10] }

/-- `ld.h`, `ld.h.g`, `ld.h.k`: slot L0 only (R172). -/
def execLdH (h : Hd) (op : Nat) (f : LSf) (s : State) : Out :=
  let o := loadOp h true op f
  s.slotOp h { o with legal := o.legal && oneOf op [3, 7, 11] }

/-- `st.h`, `st.h.g`, `st.h.k`: slot L0 only (R172). -/
def execStH (h : Hd) (op : Nat) (f : LSf) (s : State) : Out :=
  let o := storeOp h true op f
  s.slotOp h { o with legal := o.legal && oneOf op [4, 8, 12] }

end Sys2Proof.Machine
end

