-- ==== Sys2Proof/Machine/Matrix.lean ====
section
/-! DEFINITION. The M slot (R157–R163): multiply-accumulate, combine, read-out, packing and accumulator control. -/

namespace Sys2Proof.Machine

/-- The activity class of an `mmac` by its VA type (R406). -/
def mmacClass (t : Nat) : Nat := if elemWidth t = 16 then actMM16 else if elemWidth t = 4 then actMM4 else actMM8

/-- The VB type of an `mmac` (R158). -/
def mmacBt (op : Nat) (f : MAf) : Nat := if f.mod / 16 % 16 = 0 then op else f.mod / 16 % 16

/-- `mmac` (R157–R159): contributions are visible to bank reads from position n + 6 (R198, R199). -/
def execMmac (h : Hd) (op : Nat) (f : MAf) (s : State) : Out :=
  s.slotOp h
    { slots := mSlots, legal := maLegal op f && op != 0x10, ma := true, branch := false, dests := maDests op f, wait := 0
      raw := none
      eff := fun s => s.each f.pred 6 (mmacClass op) (fun g =>
        let a := s.anvil g
        (.mmac f.acc (a.vr f.va) (a.vr f.vb) (a.vr f.vx) op (mmacBt op f) (bit f.mod 3) (bit f.mod 1) (bit f.mod 0), 0)) }

/-- `mcomb` (R160). -/
def execMcomb (h : Hd) (f : MAf) (s : State) : Out :=
  s.slotOp h
    { slots := mSlots, legal := maLegal 0x10 f, ma := true, branch := false, dests := [.acc f.acc], wait := 0, raw := none
      eff := fun s => s.each f.pred 6 actMM8 (fun g => (.mcomb f.acc ((s.anvil g).vr f.va) (f.mod % 128), 0)) }

/-- `mrd` (R161): the bank as left by what was issued at n − 6 or earlier (R199). -/
def execMrd (h : Hd) (f : MRf) (s : State) : Out :=
  s.slotOp h (.plain mSlots (mrLegal 0x40 f) [.v f.vd] (fun s => s.eachSr f.pred 5 actMRC (fun g st =>
    let (x, fl, st) := mrdRow ((s.anvil g).bank f.acc) f.sel (sgn 8 f.mofs) f.rm f.tf st
    (.v f.vd x, fl, st))))

/-- `mpk` (R162). -/
def execMpk (h : Hd) (f : MRf) (s : State) : Out :=
  s.slotOp h (.plain mSlots (mrLegal 0x41 f) [.v f.vd] (fun s => s.each f.pred 5 actMRC (fun g =>
    (.v f.vd (mpkRow ((s.anvil g).bank f.acc) (f.sel + 32 * (f.mod % 4))), 0))))

/-- `mclr` (R66, R199). -/
def execMclr (h : Hd) (f : MCf) (s : State) : Out :=
  s.slotOp h (.plain mSlots (mcLegal 0x60 f) (mcDests 0x60 f) (fun s => s.each f.pred 6 actMRC (fun _ =>
    (.mclr f.acc (BitVec.ofNat 10 f.exp), 0))))

/-- `mrsc` (R67, R199). -/
def execMrsc (h : Hd) (f : MCf) (s : State) : Out :=
  s.slotOp h (.plain mSlots (mcLegal 0x61 f) (mcDests 0x61 f) (fun s => s.each f.pred 6 actMRC (fun _ =>
    (.mrsc f.acc (BitVec.ofNat 10 f.exp), 0))))

/-- What an `mtst` reads: 0x62 INEXACT, 0x63 OVERFLOW, 0x64 SPECIAL, 0x65 any. -/
def bankTest (op : Nat) (b : Bank) : Bool :=
  match op with
  | 0x62 => b.nx
  | 0x63 => b.ovf
  | 0x64 => b.sp
  | _ => b.nx || b.ovf || b.sp

/-- `mtst.*` (accumulator control, R163, R199). -/
def execMtst (h : Hd) (op : Nat) (f : MCf) (s : State) : Out :=
  s.slotOp h (.plain mSlots (mcLegal op f && within op 0x62 0x65) (mcDests op f) (fun s => s.each f.pred 2 actMRC (fun g =>
    (.p f.pd (bankTest op ((s.anvil g).bank f.acc)), 0))))

end Sys2Proof.Machine
end

