-- ==== Sys2Proof/Machine/Memory.lean ====
section
/-! DEFINITION. Write-back, patrol scrub, stack fences and held Anvils (R269, R273, R275–R277). -/

namespace Sys2Proof.Machine

/-- A corrected unit is written back in idle cycles (R269): its stored error is gone. -/
def execWriteBack (unit : Nat) (s : State) : Out :=
  if s.wb.contains unit = false then .next s
  else
    let s := { s with wb := s.wb.filter (· != unit) }
    .next (if errClass (Tab.get errDefault s.errs unit) = 1 then { s with errs := Tab.erase s.errs unit }.moved true unit (unitLen unit) else s)

/-- Bits set among the low `w` of a mask. -/
def bitCount (m w : Nat) : Nat := ((List.range w).filter (bit m)).length

/-- The bits that a symbol of the stack code covers (R267): pin `j` of 32 carries bit `j` of each of the 8 beats; the two check
symbols follow the data, the four address symbols follow them (assumption log 152). -/
def symBits (j : Nat) : List Nat :=
  if j < 32 then (List.range 8).map (fun b => 32 * b + j) else (List.range 8).map (fun b => 256 + 8 * (j - 32) + b)

/-- Whether a mask flips a bit of a symbol. -/
def symHit (m j : Nat) : Bool := (symBits j).any (bit m)

/-- What a code unit with the bits of a mask flipped reads as (R267, R268): 0 right, 1 corrected, 2 uncorrectable, 3 corrected
to something else, 4 taken for right. Which of these an error beyond the code's promise has is open. -/
def State.judge (s : State) (key m : Nat) : Nat × State :=
  if key < 0x200000000000 then
    let data := ((List.range 34).filter (symHit m)).length
    let addr := ((List.range 4).filter (fun j => symHit m (34 + j))).length
    if data + addr = 0 then (0, s)
    else if data + addr = 1 then (if data = 1 then 1 else 2, s)
    else let (c, s) := s.fresh 2; (2 + c, s)
  else
    match bitCount m 72 with
    | 0 => (0, s)
    | 1 => (1, s)
    | 2 => (2, s)
    | _ => let (c, s) := s.fresh 3; (2 + c, s)

/-- The symbol or bit, as a mask, that a decoder takes for the error where it is wrong: open. -/
def State.wrongFix (s : State) (key : Nat) : Nat × State :=
  if key < 0x200000000000 then
    let (j, s) := s.fresh 34
    let (v, s) := s.fresh 255
    ((symBits j).zipIdx.foldl (fun a p => if bit (v + 1) p.2 then a + 2 ^ p.1 else a) 0, s)
  else let (j, s) := s.fresh 72; (2 ^ j, s)

/-- A unit's bytes as they read from now on, with the bits of a mask flipped. -/
def State.flipBytes (s : State) (key m : Nat) : State :=
  let n := unitLen key
  s.tongsWrite key (toBytes n (Nat.xor (ofBytes (s.tongsBytes key n)) (m % 2 ^ (8 * n))))

/-- Bits of a unit flip (R267, R268), beside those that have already. A unit miscorrected is delivered as correct from then on,
and so it stands in memory. -/
def State.upset (s : State) (key flips : Nat) : State :=
  let old := Tab.get errDefault s.errs key
  let m := Nat.xor (old / 4) flips
  let store (s : State) (e : Nat) : State := { s with errs := Tab.set errDefault s.errs key e }
  match s.judge key m with
  | (0, s) => store s 0
  | (3, s) =>
    let (f, s) := s.wrongFix key
    store (s.flipBytes key (Nat.xor m f)) (1 + 4 * f)
  | (4, s) => s.flipBytes key m
  | (c, s) => store s (c + 4 * m)

/-- Patrol reads a range (R273). `found`: what has befallen the unit at `addr` (R253, R264, R267, R268); for a power record `addr`
is its key in `errs`, and more than one bit is uncorrectable (R229). A stack whose `SCRUB.HOURS` is 0 is not patrolled. -/
def execPatrol (addr len : Nat) (found : Upset) (t : Nat) (s : State) : Out :=
  let s := s.at t
  let stack : Option Nat := match region addr with
    | .hbm k _ => some k
    | .ctx k _ => some k
    | _ => none
  if stack.any (fun k => s.get (HEARTH_SCRUB_HOURS (k / 2)) == 0 || s.fenced k) then .next s
  else if 2 ^ 60 ≤ addr then .next { s with errs := Tab.set errDefault s.errs addr (min (bitCount found.flips 512) 2) }
  else
    let u := unitOf (phys addr)
    let s := match stack with
      | some k => s.add (HEARTH_STKERR_LINKRTY k) (min found.rty 4)
      | none => s
    let s := if found.flips = 0 then s else s.upset u found.flips
    let s := if found.transit && !s.transit.contains u then { s with transit := s.transit ++ [u] } else s
    let ues := s.errUnits 2 addr len
    let s := (s.correctRange addr len).moved true addr len
    .next (ues.foldl (fun s k => s.reportUe 10 k) s)

/-- A fence takes effect (R276, R277). Causes 1 training and 5 exit check come from the stack; 2 is a pseudo-channel on which five
attempts of an access have failed, four of them retries (R253); 3 and 4 were asked for by errors and by a write. -/
def execStackFence (stk cause t : Nat) (s : State) : Out :=
  let s := s.at t
  if stk ≥ 20 then .next s
  else
    match cause with
    | 1 => .next (s.fenceStack stk 1)
    | 2 => .next (if s.fenced stk then s else (s.add (HEARTH_STKERR_LINKRTY stk) 4).fenceStack stk 2)
    | 3 => .next (if s.fenceReq.contains (stk, 3) then s.fenceStack stk 3 else s)
    | 4 => .next (if s.fenceReq.contains (stk, 4) then s.fenceStack stk 4 else s)
    | 5 => .next (s.fenceStack stk 5)
    | _ => .next s

/-- A hold takes effect at a heat boundary, or with no job running (R275). -/
def execAnvilHoldEffect (g t : Nat) (s : State) : Out :=
  let s := s.at t
  if g ≥ 160 || s.hammer.avail.getLsbD g = false || s.atBoundary = false then .next s
  else
    match s.holds.find? (fun p => p.1 == g) with
    | some p => .next (s.holdAnvil g p.2)
    | none => .next s

end Sys2Proof.Machine
end

