-- ==== Sys2Proof/Machine/MgmtCmds.lean ====
section
/-! DEFINITION. The management commands (R557) of register access, cooling, holds, resets, event records and snapshots. -/

namespace Sys2Proof.Machine

/-! ### Identity and keep-alive -/

/-- IDENT (R7, R557): ordering code, stepping and serial number. -/
def execIdent (src : BitVec 128) (d : Dgram) (t : Nat) (s : State) : Out :=
  s.request 0x01 src d t (fun s =>
    if d.pay.length ≠ 0 then s.refuse stBAD else (stOK, orderCode ++ toBytes 2 0x00A1 ++ serialBytes, s))

/-- KEEPALIVE (R467). -/
def execKeepalive (src : BitVec 128) (d : Dgram) (t : Nat) (s : State) : Out :=
  s.request 0x02 src d t (fun s => if d.pay.length ≠ 0 then s.refuse stBAD else s.keepAlive.okay)

/-! ### Register access (R556) -/

/-- The words of a CSR access: `n` addresses from `a` on. -/
def csrSpan (a n : Nat) : List Nat := (List.range n).map (fun i => a + 8 * i)

/-- Whether an access meets the main-die window while compute is down. -/
def State.csrNotReady (s : State) (l : List Nat) : Bool := !s.domOn 192 && l.any mainWindow

/-- The words read, in ascending order; none at the first refused word. -/
def State.csrReadAll (s : State) : List Nat → List Byte → Option (List Byte) × State
  | [], b => (some b, s)
  | a :: r, b =>
    match s.regRead .rm a with
    | (some w, s) => s.csrReadAll r (b ++ toBytes 8 w.toNat)
    | (none, s) => (none, s)

/-- The first address of a span that a read is refused at. -/
def State.csrReadBad (s : State) (l : List Nat) : Option Nat := l.find? (fun a => (s.regRead .rm a).1.isNone)

/-- CSR_READ (R557): all words, or a refusal without effect (R558). -/
def execCsrRead (src : BitVec 128) (d : Dgram) (t : Nat) (s : State) : Out :=
  s.request 0x03 src d t (fun s =>
    let n := leAt d.pay 8 2
    let l := csrSpan (leAt d.pay 0 8) n
    if d.pay.length ≠ 10 ∨ n = 0 ∨ n > 128 then s.refuse stBAD
    else if s.csrNotReady l then s.refuse stNOT_READY
    else
      match s.csrReadBad l with
      | some a => (s.csrRefused .rm a).refuse stREFUSED
      | none =>
        match s.csrReadAll l [] with
        | (some b, s) => (stOK, b, s)
        | (none, s) => s.refuse stREFUSED)

/-- Words written in ascending order up to the first refused; the number written. -/
def State.csrWriteAll (s : State) : List (Nat × Nat) → Nat → Bool × Nat × State
  | [], k => (true, k, s)
  | (a, v) :: r, k =>
    match s.regWrite .rm a (BitVec.ofNat 64 v) with
    | (true, s) => s.csrWriteAll r (k + 1)
    | (false, s) => (false, k, s)

/-- CSR_WRITE (R557): the response carries the number of words written. -/
def execCsrWrite (src : BitVec 128) (d : Dgram) (t : Nat) (s : State) : Out :=
  s.request 0x04 src d t (fun s =>
    let n := leAt d.pay 8 2
    let l := csrSpan (leAt d.pay 0 8) n
    if d.pay.length ≠ 16 + 8 * n ∨ n = 0 ∨ n > 128 ∨ leAt d.pay 10 6 ≠ 0 then s.refuse stBAD
    else if s.csrNotReady l then s.refuse stNOT_READY
    else
      let (ok, k, s) := s.csrWriteAll (l.zipIdx.map (fun p => (p.1, leAt d.pay (16 + 8 * p.2) 8))) 0
      ((if ok then stOK else stREFUSED), toBytes 2 k, s))

/-- SET_FACILITY (R413, R414): Bellows holds the value for publication. -/
def execSetFacility (src : BitVec 128) (d : Dgram) (t : Nat) (s : State) : Out :=
  s.request 0x05 src d t (fun s =>
    if d.pay.length ≠ 2 then s.refuse stBAD
    else (s.setFacility (leAt d.pay 0 2)).okay)

/-! ### Cooling (R456, R458, R463, R469, R507) -/

/-- An ALERT condition ends, one of those that share a kind (R550). -/
def State.alertEndOf (s : State) (kind idx code : Nat) : State :=
  { s with
    cool := { s.cool with
      alerts := s.cool.alerts.map (fun (a : Alert) =>
        if a.kind = kind ∧ a.idx = idx ∧ a.code = code then { a with stands := false } else a) } }

/-- Whether the outlet comparators are 5 K below their threshold (R458). -/
def State.outletCool (s : State) : Bool :=
  [1, 3].all (fun n =>
    if s.get (BELLOWS_TSTAT_STATE n) == 1 || s.get (BELLOWS_TSTAT_STATE n) == 2 then !s.on (BELLOWS_TCFG_POL n)
    else s.ntcRaw n ≤ critLimit s.pwr.tcrit 2 - 500)

/-- Whether the cause of a compute stop has cleared (R456, R458, R459, R463). The die and stack comparators are inactive
while compute is down (R445). -/
def State.stopCleared (s : State) : Bool :=
  !s.on BELLOWS_SAFESTAT_LEAKISO && !s.cool.shdnExt && !(s.on BELLOWS_SAFESTAT_THROTTLE && s.cool.byFlow) && s.outletCool

/-- Bring-up restarts from flow confirmation (R456, R598). -/
def State.restart (s : State) : State :=
  let s := ((s.driveShdn false).put BELLOWS_SAFESTAT_CSTOP 0).alertEnd 5 0
  let s := { s with pwr := { s.pwr with step := 4, stepAt := s.now, stop := false } }
  (s.put BELLOWS_PWRSTAT_STATE 2).safety

/-- COOL_RESTART. It also starts anew a bring-up that stopped at flow confirmation. -/
def execCoolRestart (src : BitVec 128) (d : Dgram) (t : Nat) (s : State) : Out :=
  s.request 0x06 src d t (fun s =>
    if d.pay.length ≠ 0 then s.refuse stBAD
    else if s.on BELLOWS_SAFESTAT_CSTOP then (if s.stopCleared then s.restart.okay else s.refuse stSTATE)
    else if s.pwr.step = 4 ∧ s.pwr.stop then s.restart.okay
    else s.okay)

/-- The isolation ends: X1 and then X0 follow their commands again (R463, R522). -/
def State.endIsolation (s : State) (n : Nat) : State :=
  let s := (s.put BELLOWS_SAFESTAT_LEAKISO 0).alertEnd 3 n
  ({ s with tuyere := { s.tuyere with iso := none, seq := true } }.vRetarget 9).vRetarget 8

/-- The loop whose leak holds the isolation. -/
def State.isoLoop (s : State) : Option Nat := (s.cool.alerts.find? (fun a => a.kind == 3 && a.stands)).map (fun a => a.idx)

/-- LEAK_CLEAR (R463): the named loop, and the loop that isolated, must be NORMAL. -/
def execLeakClear (src : BitVec 128) (d : Dgram) (t : Nat) (s : State) : Out :=
  s.request 0x07 src d t (fun s =>
    let n := leAt d.pay 0 1
    if d.pay.length ≠ 1 ∨ n ≥ 4 then s.refuse stBAD
    else if s.on BELLOWS_SAFESTAT_LEAKISO = false then s.okay
    else
      let m := s.isoLoop.getD n
      if s.get (BELLOWS_LEAK_STATE n) ≠ 0 ∨ s.get (BELLOWS_LEAK_STATE m) ≠ 0 then s.refuse stSTATE
      else (s.endIsolation m).okay)

/-- FAN_CLEAR (R469): the channel starts again from 0 at the next tick. -/
def execFanClear (src : BitVec 128) (d : Dgram) (t : Nat) (s : State) : Out :=
  s.request 0x08 src d t (fun s =>
    let c := leAt d.pay 0 1
    if d.pay.length ≠ 1 ∨ c ≥ 4 then s.refuse stBAD
    else if s.get (BELLOWS_FSTAT_STATE c) ≠ 5 then s.okay
    else (((s.put (BELLOWS_FSTAT_STATE c) 0).put (BELLOWS_FSTAT_ATTEMPT c) 0).alertEndOf 6 c 0x060B).okay)

/-- A valve FAULT ends (R507, R509): the channel is idle and obeys its command. -/
def State.valveUnfault (s : State) (c : Nat) : State :=
  let s := (s.put (TUYERE_VSTAT_FAULT c) 0).enterValve c 0
  let s := s.setValve c { s.valve c with aborts := 0, abortAt := none, want := false }
  (s.alertEndOf 6 c 0x0800).vRetarget c

/-- VALVE_CLEAR (R507). -/
def execValveClear (src : BitVec 128) (d : Dgram) (t : Nat) (s : State) : Out :=
  s.request 0x09 src d t (fun s =>
    let c := leAt d.pay 0 1
    if d.pay.length ≠ 1 ∨ c ≥ 10 then s.refuse stBAD
    else if s.on (TUYERE_VSTAT_FAULT c) then (s.valveUnfault c).okay
    else s.okay)

/-- ANVIL_HOLD (R275): the hold takes effect at the next heat boundary. -/
def execAnvilHold (src : BitVec 128) (d : Dgram) (t : Nat) (s : State) : Out :=
  s.request 0x0A src d t (fun s =>
    let g := leAt d.pay 0 1
    if d.pay.length ≠ 1 ∨ g ≥ 160 then s.refuse stBAD
    else if s.domOn 192 = false then s.refuse stNOT_READY
    else if s.holds.any (fun p => p.1 == g) then s.okay
    else State.okay { s with holds := s.holds ++ [(g, 2)] })

/-! ### Resets (R593–R596) -/

/-- Whether a RESET payload is in range (R594). -/
def resetValid (d : Dgram) : Bool :=
  let dom := leAt d.pay 0 1
  let keep := leAt d.pay 1 1
  let ix := leAt d.pay 2 2
  d.pay.length == 4 &&
    (match dom with
    | 0 => keep == 0 && ix == 0
    | 1 => keep ≤ 1 && ix == 0
    | 2 => keep == 0 && ix < 10
    | 3 => keep == 0
    | _ => false)

/-- A RESET request of one domain and keep (R594, R596): one merged into a wider reset is answered OK. A payload that is in
range and names another domain or keep is another command, and this one does nothing. -/
def State.resetRequest (s : State) (dom keep : Nat) (src : BitVec 128) (d : Dgram) (t : Nat)
    (f : State → Nat → MgmtAns) : Out :=
  if resetValid d && (leAt d.pay 0 1 != dom || leAt d.pay 1 1 != keep) then .next (s.at t)
  else
    s.request 0x0B src d t (fun s =>
      if resetValid d = false then s.refuse stBAD
      else if dom ≠ 0 ∧ s.on BELLOWS_SAFESTAT_CSTOP then s.refuse stSTATE
      else if dom ≥ 2 ∧ s.get BELLOWS_PWRSTAT_STATE ≠ 4 then s.refuse stNOT_READY
      else if s.pwr.modAt.isSome then s.okay
      else f s (leAt d.pay 2 2))

/-- Whether a bring-up, which is the end of a compute reset or of a wider one, is in progress. -/
def State.bringingUp (s : State) : Bool := s.pwr.step < 10 && !s.pwr.stop

/-- RESET of the module (R594): it takes effect 10 ms after the response. -/
def execResetModule (src : BitVec 128) (d : Dgram) (t : Nat) (s : State) : Out :=
  s.resetRequest 0 0 src d t (fun s _ =>
    State.okay { s with pwr := { s.pwr with modAt := some (s.now + 10 * ms, 1) } })

/-- RESET of compute without keep (R596, R600): it joins one in progress, and supersedes a keep reset. -/
def execResetCompute (src : BitVec 128) (d : Dgram) (t : Nat) (s : State) : Out :=
  s.resetRequest 1 0 src d t (fun s _ =>
    if s.bringingUp && !s.pwr.keep then s.okay else (s.computeReset false false 1).okay)

/-- RESET of compute with keep (R279, R596, R600): it joins a reset in progress. -/
def execResetComputeKeep (src : BitVec 128) (d : Dgram) (t : Nat) (s : State) : Out :=
  s.resetRequest 1 1 src d t (fun s _ => if s.bringingUp then s.okay else (s.computeReset true false 1).okay)

/-- RESET of a Hearth (R597): it begins at a heat boundary. -/
def execResetHearth (src : BitVec 128) (d : Dgram) (t : Nat) (s : State) : Out :=
  s.resetRequest 2 0 src d t (fun s h =>
    if s.pwr.hearth.contains h then s.okay
    else State.okay { s with pwr := { s.pwr with hearth := s.pwr.hearth ++ [h] } })

/-- RESET of a stream (R368, R593). -/
def execResetStream (src : BitVec 128) (d : Dgram) (t : Nat) (s : State) : Out :=
  s.resetRequest 3 0 src d t (fun s n => ((s.resetStream n).noteReset 3 n 1).okay)

/-! ### Records and snapshots -/

/-- Consecutive readable records from `q` on, at most `n`. -/
def State.recordsFrom (s : State) : Nat → Nat → List Evt
  | 0, _ => []
  | n + 1, q =>
    match s.findRec q with
    | some e => e :: s.recordsFrom n (q + 1)
    | none => []

/-- The first readable sequence number at or above one. -/
def State.firstReadable (s : State) (q : Nat) : Option Nat :=
  ((s.evrec.perm ++ s.evrec.circ).filter (fun e => q ≤ e.seq)).foldl
    (fun m e => match m with | some x => some (min x e.seq) | none => some e.seq) none

/-- EVENT_READ (R557, R581): the head word and up to 40 records. -/
def execEventRead (src : BitVec 128) (d : Dgram) (t : Nat) (s : State) : Out :=
  s.request 0x0C src d t (fun s =>
    if d.pay.length ≠ 6 then s.refuse stBAD
    else
      let l := match s.firstReadable (leAt d.pay 0 4) with
        | some q => s.recordsFrom (min 40 (leAt d.pay 4 2)) q
        | none => []
      (stOK, toBytes 8 (s.rd EVREC_HEAD).toNat ++ l.flatMap Evt.bytes, s))

/-- SNAP (R557, R627, R630). -/
def execMSnap (src : BitVec 128) (d : Dgram) (t : Nat) (s : State) : Out :=
  s.request 0x0E src d t (fun s =>
    if d.pay.length ≠ 2 then s.refuse stBAD else (s.mgmtSnap (leAt d.pay 0 2)).okay)

end Sys2Proof.Machine
end

