-- ==== Sys2Proof/Machine/Packets.lean ====
section
/-! DEFINITION. Packets received and the transport's timers (R339–R351, R369–R373). -/

namespace Sys2Proof.Machine

/-- A packet of the type its row names arrives; another type is another row's. -/
def State.packet (s : State) (types : List Nat) (e : EthIn) (src : BitVec 128) (p : Pkt) (t : Nat) : State :=
  if types.contains p.typ then (s.at t).arrive e src p else s

/-- DATA (R343), and packets of a reserved type (R337, R339). -/
def execData (e : EthIn) (src : BitVec 128) (p : Pkt) (t : Nat) (s : State) : Out :=
  .next (if p.typ ≤ 6 then s.packet [0] e src p t else (s.at t).arrive e src p)
/-- ACK (R346). -/
def execAck (e : EthIn) (src : BitVec 128) (p : Pkt) (t : Nat) (s : State) : Out := .next (s.packet [1] e src p t)
/-- CRED (R349). -/
def execCred (e : EthIn) (src : BitVec 128) (p : Pkt) (t : Nat) (s : State) : Out := .next (s.packet [2] e src p t)
/-- OPEN (R351). -/
def execOpen (e : EthIn) (src : BitVec 128) (p : Pkt) (t : Nat) (s : State) : Out := .next (s.packet [3] e src p t)
/-- OPENACK (R351). -/
def execOpenAck (e : EthIn) (src : BitVec 128) (p : Pkt) (t : Nat) (s : State) : Out := .next (s.packet [4] e src p t)
/-- CLOSE (R351). -/
def execClose (e : EthIn) (src : BitVec 128) (p : Pkt) (t : Nat) (s : State) : Out := .next (s.packet [5] e src p t)
/-- RST (R351). -/
def execRst (e : EthIn) (src : BitVec 128) (p : Pkt) (t : Nat) (s : State) : Out := .next (s.packet [6] e src p t)

/-- The oldest unacknowledged DATA packet has waited 2 µs for its ACK (R344). -/
def execAckTimer (n t : Nat) (s : State) : Out :=
  let s := s.at t
  match (s.ctx n).ackSince with
  | some a => .next (if (s.ctx n).tstate = 3 ∧ s.now ≥ a + 2 * us then s.sendAck n else s)
  | none => .next s

/-- The oldest unacknowledged packet has waited RTO (R346, R347). -/
def execRtoExpiry (n t : Nat) (s : State) : Out :=
  let s := s.at t
  let c := s.ctx n
  match c.unacked with
  | [] => .next s
  | u :: rest =>
    if s.now < u.base + c.rtocur * 100 then .next s
    else if c.expiries ≥ s.get TONGS_RETX_LIMIT then .next (s.failStream n 4 true)
    else
      let c : Ctx := { c with
        expiries := c.expiries + 1
        rtocur := min (2 * c.rtocur) (max c.rtocur (s.get TONGS_RETX_RTOMAX * 10))
        unacked := { u with base := s.now, retx := some s.now } :: rest }
      if u.pkt.typ = 0 then
        .next (s.setCtx n { c with resend := u.pkt.psn :: c.resend.filter (· != u.pkt.psn) })
      else
        let p := Pkt.sealed { u.pkt with flags := Nat.lor u.pkt.flags flRetx, clim := c.ownclim }
        .next ((s.setCtx n { c with retxpkts := c.retxpkts + 1 }).sendCtl c.ifc c.peerAddr p)

/-- A sender blocked by credit for 100 µs probes (R349, R350). -/
def execCredProbe (n t : Nat) (s : State) : Out :=
  let s := s.at t
  let c := s.ctx n
  if c.tstate = 3 ∧ c.crstate ≠ 0 ∧ s.now ≥ c.blockedAt + 100 * us then
    .next ((s.setCtx n { c with crstate := 2, blockedAt := s.now }).sendCred n true)
  else .next s

/-- A boot stream returns to LISTEN 1 s after it failed (R351). -/
def execBootStreamRelisten (n t : Nat) (s : State) : Out :=
  let s := s.at t
  let c := s.ctx n
  match c.failedAt with
  | some f =>
    if n < 4 ∧ c.boot ∧ c.tstate = 5 ∧ s.now ≥ f + sec then
      .next (s.setCtx n { c.drop with tstate := 1, peerAddr := c.cfgAddr, peerStrm := c.cfgStrm, failedAt := none })
    else .next s
  | none => .next s

/-- An entry of the cache that may be evicted (R372). -/
def State.evictable (s : State) (c : Cached) : Bool :=
  !s.tongs.pinned.contains c.strm && (c.acted || s.now ≥ c.since + 20 * us)

/-- N-slot operations that wait for a stream which is not cached ask again, oldest first: the queue was full when they did
(R371). -/
def State.askOps (s : State) : State :=
  (s.tongs.nq.filter (fun o => o.stage == 0 && !s.cached o.strm)).foldl (fun s o => (s.wantCache o.strm).2) s

/-- The stream at the head of the admission queue takes a cache entry (R371–R373), where need be that of a context written back
whole (R372); one whose context cannot be read fails (R270, R385). -/
def execAdmissionRound (t : Nat) (s : State) : Out :=
  let s := s.at t
  match s.tongs.admq with
  | [] => .next s
  | (n, r) :: q =>
    let full : Bool := s.tongs.cache.length ≥ 4096
    let victim := s.tongs.cache.find? s.evictable
    if full && victim.isNone then
      .next { s with tongs := { s.tongs with admq := (n, r + 1) :: q.map (fun p => (p.1, p.2 + 1)) } }
    else
      let s := if full then
          victim.elim s (fun v => s.clearErrs (0x13FFF000000 + 256 * v.strm) 256)
        else s
      let cache := if full then s.tongs.cache.filter (fun c => victim.all (fun v => v.strm != c.strm)) else s.tongs.cache
      let e : Cached := ⟨n, s.now, false⟩
      let q : List (Nat × Nat) := q.map (fun p => (p.1, p.2 + 1))
      let s := ({ s with tongs := { s.tongs with cache := cache ++ [e], admq := q } }).cacheStat
      let s := s.setCtx n { s.ctx n with admmax := max (s.ctx n).admmax (r + 1) }
      let s :=
        match s.ueIn (0x13FFF000000 + 256 * n) 256 with
        | some u => (s.reportUe 8 u).failStream n 6 true
        | none => s.correctRange (0x13FFF000000 + 256 * n) 256
      .next ((s.settle n).askOps)

/-- A pin released goes to the oldest waiting request (R370). -/
def execPinGrant (t : Nat) (s : State) : Out :=
  let s := s.at t
  match s.tongs.pinWait with
  | [] => .next s
  | n :: r =>
    if s.tongs.pinned.length ≥ 3072 then .next s
    else
      let s := ({ s with tongs := { s.tongs with pinWait := r, pinned := s.tongs.pinned ++ [n] } }).cacheStat
      .next (s.settle n)

/-- Completion records waiting for a completion stream go out in one CPL message of up to 16 (R399). -/
def execCplPush (n t : Nat) (s : State) : Out :=
  let s := s.at t
  let mine (p : Nat × List Byte × Nat) : Bool := s.get (TONGS_RING_CFG_CSTRM p.1) == n
  let l := (s.tongs.push.filter mine).take 16
  match l with
  | [] => .next s
  | (_, _, t0) :: _ =>
    if l.length < 16 ∧ s.now < t0 + 2 * us then .next s
    else if s.cached n = false then .next (s.wantCache n).2
    else if (s.ctx n).typ ≠ 4 ∨ (s.ctx n).tstate ≠ 3 then .next s
    else
      let s := { s with tongs := { s.tongs with push := l.foldl (fun acc p => acc.erase p) s.tongs.push } }
      .next (s.queueMsg n 8 false (l.flatMap (fun p => p.2.1)) none)

end Sys2Proof.Machine
end

