-- ==== Sys2Proof/Machine/StreamOps.lean ====
section
/-! DEFINITION. The N slot (R131, R185, R186) and the T slot (R132, R187, R188). -/

namespace Sys2Proof.Machine

/-- A stream operation: its operands as read at the bundle's position (R201). -/
def nsOp (op : Nat) (f : NSf) : SlotOp :=
  .plain [8] (nsLegal op f) [] (fun s =>
    [⟨0, .nop
      { op := op, tok := f.tok, job := s.hammer.run.getD 0, strm := f.strm, a := s.sreg f.sa, b := s.sreg f.sb
        code := f.imm, stage := 0, mark := 0, id := 0, stale := [], gone := false }⟩])

/-- `sig` (R185). -/
def execSig (h : Hd) (f : NSf) (s : State) : Out := s.slotOp h (nsOp 1 f)

/-- `send` (R185). -/
def execSend (h : Hd) (f : NSf) (s : State) : Out := s.slotOp h (nsOp 2 f)

/-- `recv` (R185). -/
def execRecv (h : Hd) (f : NSf) (s : State) : Out := s.slotOp h (nsOp 3 f)

/-- `ared.pp` (R185, R355). -/
def execAredPp (h : Hd) (f : NSf) (s : State) : Out := s.slotOp h (nsOp 4 f)

/-- `pace.grp` (R185, R186): no token; a fault of its stream is an execution fault. -/
def execPaceGrp (h : Hd) (f : NSf) (s : State) : Out := s.slotOp h (nsOp 5 f)

/-- `nfence` (R185). -/
def execNfence (h : Hd) (f : NSf) (s : State) : Out := s.slotOp h (nsOp 6 f)

/-- `rsig` (R185). -/
def execRsig (h : Hd) (f : NSf) (s : State) : Out := s.slotOp h (nsOp 7 f)

/-- A Temper word. -/
def ttOp (op : Nat) (f : TTf) (e : Eff) : SlotOp := .plain [9] (ttLegal op f) [] (fun _ => [⟨0, e⟩])

/-- `heat` (R188, R205, R221–R237). -/
def execHeat (h : Hd) (f : TTf) (s : State) : Out := s.slotOp h (ttOp 1 f (.heat f.heat f.imm))

/-- `opreq` (R187, R421). -/
def execOpreq (h : Hd) (f : TTf) (s : State) : Out := s.slotOp h (ttOp 2 f (.opreq f.opt))

/-- `snap` (R187, R627). -/
def execTSnap (h : Hd) (f : TTf) (s : State) : Out := s.slotOp h (ttOp 3 f (.snap f.imm))

/-- `phint` (R187, R413). -/
def execPhint (h : Hd) (f : TTf) (s : State) : Out := s.slotOp h (ttOp 4 f (.phint f.imm))

end Sys2Proof.Machine
end

