-- ==== Sys2Proof/Machine/Dispatch.lean ====
section
/-! DEFINITION. The dispatch of a command to its meaning: one arm per row of the operation and event table. -/

namespace Sys2Proof.Machine

/-- The effect of a command on everything but the queue. -/
def exec (i : Instr) (s : State) : Host.Outcome State Fault Refusal :=
  match i with
  | .nop h raw => Sys2Proof.Machine.execNop h raw s
  | .br h f => Sys2Proof.Machine.execBr h f s
  | .dbnz h f => Sys2Proof.Machine.execDbnz h f s
  | .brl h f => Sys2Proof.Machine.execBrl h f s
  | .brInd h f => Sys2Proof.Machine.execBrInd h f s
  | .waitm h f => Sys2Proof.Machine.execWaitm h f s
  | .wait h f => Sys2Proof.Machine.execWait h f s
  | .stallEnd => Sys2Proof.Machine.execStallEnd s
  | .amaskSet h f => Sys2Proof.Machine.execAmaskSet h f s
  | .amaskSetAll h f => Sys2Proof.Machine.execAmaskSetAll h f s
  | .sArith h op f => Sys2Proof.Machine.execSArith h op f s
  | .sBitwise h op f => Sys2Proof.Machine.execSBitwise h op f s
  | .sShift h op f => Sys2Proof.Machine.execSShift h op f s
  | .addiS64 h f => Sys2Proof.Machine.execAddiS64 h f s
  | .moviS64 h f => Sys2Proof.Machine.execMoviS64 h f s
  | .ldc h f => Sys2Proof.Machine.execLdc h f s
  | .ldcx h f => Sys2Proof.Machine.execLdcx h f s
  | .ldm h f => Sys2Proof.Machine.execLdm h f s
  | .stm h f => Sys2Proof.Machine.execStm h f s
  | .pcount h f => Sys2Proof.Machine.execPcount h f s
  | .rdbc h f => Sys2Proof.Machine.execRdbc h f s
  | .stop len => Sys2Proof.Machine.execStop len s
  | .jobEnd t => Sys2Proof.Machine.execJobEnd t s
  | .mmac h op f => Sys2Proof.Machine.execMmac h op f s
  | .mcomb h f => Sys2Proof.Machine.execMcomb h f s
  | .mrd h f => Sys2Proof.Machine.execMrd h f s
  | .mpk h f => Sys2Proof.Machine.execMpk h f s
  | .mclr h f => Sys2Proof.Machine.execMclr h f s
  | .mrsc h f => Sys2Proof.Machine.execMrsc h f s
  | .mtst h op f => Sys2Proof.Machine.execMtst h op f s
  | .addSubMulF32 h op f => Sys2Proof.Machine.execAddSubMulF32 h op f s
  | .fmaFmsF32 h op f => Sys2Proof.Machine.execFmaFmsF32 h op f s
  | .minMaxF32 h op f => Sys2Proof.Machine.execMinMaxF32 h op f s
  | .absNegF32 h op f => Sys2Proof.Machine.execAbsNegF32 h op f s
  | .sqrtF32 h f => Sys2Proof.Machine.execSqrtF32 h f s
  | .rcpRsqrtExp2Log2F32 h op f => Sys2Proof.Machine.execRcpRsqrtExp2Log2F32 h op f s
  | .int32Arith h op f => Sys2Proof.Machine.execInt32Arith h op f s
  | .minMaxS32 h op f => Sys2Proof.Machine.execMinMaxS32 h op f s
  | .absS32 h f => Sys2Proof.Machine.execAbsS32 h f s
  | .slaS32 h f => Sys2Proof.Machine.execSlaS32 h f s
  | .b32Bitwise h op f => Sys2Proof.Machine.execB32Bitwise h op f s
  | .b32Shift h op f => Sys2Proof.Machine.execB32Shift h op f s
  | .vArithS64 h op f => Sys2Proof.Machine.execVArithS64 h op f s
  | .vBitwiseB64 h op f => Sys2Proof.Machine.execVBitwiseB64 h op f s
  | .vShiftB64 h op f => Sys2Proof.Machine.execVShiftB64 h op f s
  | .movB64 h f => Sys2Proof.Machine.execMovB64 h f s
  | .cmpanyCmpall h op f => Sys2Proof.Machine.execCmpanyCmpall h op f s
  | .cmpS64U64 h op f => Sys2Proof.Machine.execCmpS64U64 h op f s
  | .cmpm h op f => Sys2Proof.Machine.execCmpm h op f s
  | .selB32 h f => Sys2Proof.Machine.execSelB32 h f s
  | .permB32 h f => Sys2Proof.Machine.execPermB32 h f s
  | .raddRmaxRminF32 h op f => Sys2Proof.Machine.execRaddRmaxRminF32 h op f s
  | .raddS32 h f => Sys2Proof.Machine.execRaddS32 h f s
  | .cvtNarrow h op f => Sys2Proof.Machine.execCvtNarrow h op f s
  | .cvtS32F32 h f => Sys2Proof.Machine.execCvtS32F32 h f s
  | .cvtIntNarrow h op f => Sys2Proof.Machine.execCvtIntNarrow h op f s
  | .cvtWiden h op f => Sys2Proof.Machine.execCvtWiden h op f s
  | .cvtF32S32 h f => Sys2Proof.Machine.execCvtF32S32 h f s
  | .mxq h op f => Sys2Proof.Machine.execMxq h op f s
  | .mxdq h op f => Sys2Proof.Machine.execMxdq h op f s
  | .mxsc h op f => Sys2Proof.Machine.execMxsc h op f s
  | .addiMuliS32 h op f => Sys2Proof.Machine.execAddiMuliS32 h op f s
  | .addiMuliF32 h op f => Sys2Proof.Machine.execAddiMuliF32 h op f s
  | .moviS32 h f => Sys2Proof.Machine.execMoviS32 h f s
  | .moviF32 h f => Sys2Proof.Machine.execMoviF32 h f s
  | .vAddiMuliS64 h op f => Sys2Proof.Machine.execVAddiMuliS64 h op f s
  | .vMoviS64 h f => Sys2Proof.Machine.execVMoviS64 h f s
  | .slliSrliB64 h op f => Sys2Proof.Machine.execSlliSrliB64 h op f s
  | .lextB32 h f => Sys2Proof.Machine.execLextB32 h f s
  | .linsB32 h f => Sys2Proof.Machine.execLinsB32 h f s
  | .binsB8 h f => Sys2Proof.Machine.execBinsB8 h f s
  | .cmpiS64 h f => Sys2Proof.Machine.execCmpiS64 h f s
  | .ldA h op f => Sys2Proof.Machine.execLdA h op f s
  | .stA h op f => Sys2Proof.Machine.execStA h op f s
  | .ldH h op f => Sys2Proof.Machine.execLdH h op f s
  | .stH h op f => Sys2Proof.Machine.execStH h op f s
  | .xfer h op f => Sys2Proof.Machine.execXfer h op f s
  | .xfillHbm h f => Sys2Proof.Machine.execXfillHbm h f s
  | .xfence h f => Sys2Proof.Machine.execXfence h f s
  | .xferComplete unit idx t => Sys2Proof.Machine.execXferComplete unit idx t s
  | .xfenceComplete unit => Sys2Proof.Machine.execXfenceComplete unit s
  | .crcCmd h f => Sys2Proof.Machine.execCrcCmd h f s
  | .crcCmdHi h f => Sys2Proof.Machine.execCrcCmdHi h f s
  | .admission => Sys2Proof.Machine.execAdmission s
  | .sig h f => Sys2Proof.Machine.execSig h f s
  | .send h f => Sys2Proof.Machine.execSend h f s
  | .recv h f => Sys2Proof.Machine.execRecv h f s
  | .aredPp h f => Sys2Proof.Machine.execAredPp h f s
  | .paceGrp h f => Sys2Proof.Machine.execPaceGrp h f s
  | .nfence h f => Sys2Proof.Machine.execNfence h f s
  | .rsig h f => Sys2Proof.Machine.execRsig h f s
  | .heat h f => Sys2Proof.Machine.execHeat h f s
  | .opreq h f => Sys2Proof.Machine.execOpreq h f s
  | .tSnap h f => Sys2Proof.Machine.execTSnap h f s
  | .phint h f => Sys2Proof.Machine.execPhint h f s
  | .jobSwitch t => Sys2Proof.Machine.execJobSwitch t s
  | .jobSelect t => Sys2Proof.Machine.execJobSelect t s
  | .writeBack unit => Sys2Proof.Machine.execWriteBack unit s
  | .patrol addr len found t => Sys2Proof.Machine.execPatrol addr len found t s
  | .stackFence stk cause t => Sys2Proof.Machine.execStackFence stk cause t s
  | .fence p stk w t => Sys2Proof.Machine.execFence p stk w t s
  | .anvilHoldEffect g t => Sys2Proof.Machine.execAnvilHoldEffect g t s
  | .crucNop stk t => Sys2Proof.Machine.execCrucNop stk t s
  | .gemv stk t => Sys2Proof.Machine.execGemv stk t s
  | .attn stk t => Sys2Proof.Machine.execAttn stk t s
  | .amerge stk t => Sys2Proof.Machine.execAmerge stk t s
  | .gather stk t => Sys2Proof.Machine.execGather stk t s
  | .scatter stk t => Sys2Proof.Machine.execScatter stk t s
  | .reduce stk t => Sys2Proof.Machine.execReduce stk t s
  | .eltw stk t => Sys2Proof.Machine.execEltw stk t s
  | .pack stk t => Sys2Proof.Machine.execPack stk t s
  | .unpack stk t => Sys2Proof.Machine.execUnpack stk t s
  | .copy stk t => Sys2Proof.Machine.execCopy stk t s
  | .fill stk t => Sys2Proof.Machine.execFill stk t s
  | .scrub stk t => Sys2Proof.Machine.execScrub stk t s
  | .crucComplete stk t => Sys2Proof.Machine.execCrucComplete stk t s
  | .crucPreempt stk => Sys2Proof.Machine.execCrucPreempt stk s
  | .crucHostAdmit stk => Sys2Proof.Machine.execCrucHostAdmit stk s
  | .portcfgWrite p port w t => Sys2Proof.Machine.execPortcfgWrite p port w t s
  | .linkUp ix t => Sys2Proof.Machine.execLinkUp ix t s
  | .linkBringupRetry ix t => Sys2Proof.Machine.execLinkBringupRetry ix t s
  | .linkDown ix t => Sys2Proof.Machine.execLinkDown ix t s
  | .dadTimeout ix t => Sys2Proof.Machine.execDadTimeout ix t s
  | .neighbourSolicitation ix target src t => Sys2Proof.Machine.execNeighbourSolicitation ix target src t s
  | .arpRequest ix target t => Sys2Proof.Machine.execArpRequest ix target t s
  | .icmpEchoRequest ix dst src data t => Sys2Proof.Machine.execIcmpEchoRequest ix dst src data t s
  | .neighbourResolutionRetry ix a t => Sys2Proof.Machine.execNeighbourResolutionRetry ix a t s
  | .data ix src p t => Sys2Proof.Machine.execData ix src p t s
  | .ack ix src p t => Sys2Proof.Machine.execAck ix src p t s
  | .cred ix src p t => Sys2Proof.Machine.execCred ix src p t s
  | .opn ix src p t => Sys2Proof.Machine.execOpen ix src p t s
  | .openack ix src p t => Sys2Proof.Machine.execOpenAck ix src p t s
  | .close ix src p t => Sys2Proof.Machine.execClose ix src p t s
  | .rst ix src p t => Sys2Proof.Machine.execRst ix src p t s
  | .memwr n msg t => Sys2Proof.Machine.execMemwr n msg t s
  | .memrd n msg t => Sys2Proof.Machine.execMemrd n msg t s
  | .pace n msg t => Sys2Proof.Machine.execPace n msg t s
  | .relayFrame port kind dstMac len p t => Sys2Proof.Machine.execRelayFrame port kind dstMac len p t s
  | .ackTimer n t => Sys2Proof.Machine.execAckTimer n t s
  | .rtoExpiry n t => Sys2Proof.Machine.execRtoExpiry n t s
  | .credProbe n t => Sys2Proof.Machine.execCredProbe n t s
  | .frameTransmit ix t => Sys2Proof.Machine.execFrameTransmit ix t s
  | .bootStreamRelisten n t => Sys2Proof.Machine.execBootStreamRelisten n t s
  | .admissionRound t => Sys2Proof.Machine.execAdmissionRound t s
  | .pinGrant t => Sys2Proof.Machine.execPinGrant t s
  | .cplPush n t => Sys2Proof.Machine.execCplPush n t s
  | .jobSubmit n msg t => Sys2Proof.Machine.execJobSubmit n msg t s
  | .jobCancel n msg t => Sys2Proof.Machine.execJobCancel n msg t s
  | .cancelTimeout t => Sys2Proof.Machine.execCancelTimeout t s
  | .imageAccept n msg t => Sys2Proof.Machine.execImageAccept n msg t s
  | .imageUnload n msg t => Sys2Proof.Machine.execImageUnload n msg t s
  | .crucCmd n msg t => Sys2Proof.Machine.execCrucCmd n msg t s
  | .ringCfg n msg t => Sys2Proof.Machine.execRingCfg n msg t s
  | .streamCfg n msg t => Sys2Proof.Machine.execStreamCfg n msg t s
  | .streamClose n msg t => Sys2Proof.Machine.execStreamClose n msg t s
  | .streamReset n msg t => Sys2Proof.Machine.execStreamReset n msg t s
  | .streamQuery n msg t => Sys2Proof.Machine.execStreamQuery n msg t s
  | .aidxWrite p r w t => Sys2Proof.Machine.execAidxWrite p r w t s
  | .temperInterval die vin t => Sys2Proof.Machine.execTemperInterval die vin t s
  | .kRaise t => Sys2Proof.Machine.execKRaise t s
  | .raisedrop t => Sys2Proof.Machine.execRaisedrop t s
  | .vcoreSettled t => Sys2Proof.Machine.execVcoreSettled t s
  | .droop d t => Sys2Proof.Machine.execDroop d t s
  | .sagWarn mv t => Sys2Proof.Machine.execSagWarn mv t s
  | .sagWarnClear mv t => Sys2Proof.Machine.execSagWarnClear mv t s
  | .calibration meas t => Sys2Proof.Machine.execCalibration meas t s
  | .capStale src t => Sys2Proof.Machine.execCapStale src t s
  | .capHostWrite p w t => Sys2Proof.Machine.execCapHostWrite p w t s
  | .capFacilityWrite p w t => Sys2Proof.Machine.execCapFacilityWrite p w t s
  | .ageingEval slack t => Sys2Proof.Machine.execAgeingEval slack t s
  | .coolingTick k t => Sys2Proof.Machine.execCoolingTick k t s
  | .ntcFault n ohm t => Sys2Proof.Machine.execNtcFault n ohm t s
  | .pressureFault n mv t => Sys2Proof.Machine.execPressureFault n mv t s
  | .sensorRecover n held t => Sys2Proof.Machine.execSensorRecover n held t s
  | .sensorDisagree a b held t => Sys2Proof.Machine.execSensorDisagree a b held t s
  | .sensorSuspect n v held t => Sys2Proof.Machine.execSensorSuspect n v held t s
  | .nopulse held t => Sys2Proof.Machine.execNopulse held t s
  | .dpcollapse dp held t => Sys2Proof.Machine.execDpcollapse dp held t s
  | .dierise rise t => Sys2Proof.Machine.execDierise rise t s
  | .throttleRelease flow dp held t => Sys2Proof.Machine.execThrottleRelease flow dp held t s
  | .timeout t => Sys2Proof.Machine.execTimeout t s
  | .critTrip kind input reading t => Sys2Proof.Machine.execCritTrip kind input reading t s
  | .shdnN low t => Sys2Proof.Machine.execShdnN low t s
  | .leak n ohm t => Sys2Proof.Machine.execLeak n ohm t s
  | .loopFault n ohm held t => Sys2Proof.Machine.execLoopFault n ohm held t s
  | .leakLoopNormal n ohm held t => Sys2Proof.Machine.execLeakLoopNormal n ohm held t s
  | .flowConfirm flow dp held t => Sys2Proof.Machine.execFlowConfirm flow dp held t s
  | .flowUnconfirmed t => Sys2Proof.Machine.execFlowUnconfirmed t s
  | .kickAttempt c t => Sys2Proof.Machine.execKickAttempt c t s
  | .kickAttemptEnd c rpm t => Sys2Proof.Machine.execKickAttemptEnd c rpm t s
  | .tachLoss c gap t => Sys2Proof.Machine.execTachLoss c gap t s
  | .tachClassify c t => Sys2Proof.Machine.execTachClassify c t s
  | .tachRecover c held t => Sys2Proof.Machine.execTachRecover c held t s
  | .keepaliveKa p w t => Sys2Proof.Machine.execKeepaliveKa p w t s
  | .autoMode t => Sys2Proof.Machine.execAutoMode t s
  | .loopPeriod t => Sys2Proof.Machine.execLoopPeriod t s
  | .loopSample n t => Sys2Proof.Machine.execLoopSample n t s
  | .loopOutput n t => Sys2Proof.Machine.execLoopOutput n t s
  | .loopArm p n w t => Sys2Proof.Machine.execLoopArm p n w t s
  | .loopDisarm p n w t => Sys2Proof.Machine.execLoopDisarm p n w t s
  | .commit p n w t => Sys2Proof.Machine.execCommit p n w t s
  | .prim p n w t => Sys2Proof.Machine.execPrim p n w t s
  | .beacon t => Sys2Proof.Machine.execBeacon t s
  | .rcEn p n w t => Sys2Proof.Machine.execRcEn p n w t s
  | .quenchTraceArm p w t => Sys2Proof.Machine.execQuenchTraceArm p w t s
  | .quenchTraceForce p w t => Sys2Proof.Machine.execQuenchTraceForce p w t s
  | .quenchTrdata t => Sys2Proof.Machine.execQuenchTrdata t s
  | .fixcmd p c w t => Sys2Proof.Machine.execFixcmd p c w t s
  | .vprofWrite p c w t => Sys2Proof.Machine.execVprofWrite p c w t s
  | .highSideGrant b t => Sys2Proof.Machine.execHighSideGrant b t s
  | .peakReached c cur vb t => Sys2Proof.Machine.execPeakReached c cur vb t s
  | .tpeakEnd c t => Sys2Proof.Machine.execTpeakEnd c t s
  | .ttphigh c t => Sys2Proof.Machine.execTtphigh c t s
  | .overcur c hs cur t => Sys2Proof.Machine.execOvercur c hs cur t s
  | .abortRetry c t => Sys2Proof.Machine.execAbortRetry c t s
  | .boostReady vb t => Sys2Proof.Machine.execBoostReady vb t s
  | .boostnr c t => Sys2Proof.Machine.execBoostnr c t s
  | .kink c tz t => Sys2Proof.Machine.execKink c tz t s
  | .nomotion c tz t => Sys2Proof.Machine.execNomotion c tz t s
  | .periodStart b t => Sys2Proof.Machine.execPeriodStart b t s
  | .eventStart c t => Sys2Proof.Machine.execEventStart c t s
  | .eventEnd c t => Sys2Proof.Machine.execEventEnd c t s
  | .pkrefuse c t => Sys2Proof.Machine.execPkrefuse c t s
  | .dlim c t => Sys2Proof.Machine.execDlim c t s
  | .coilModel c irms2 t => Sys2Proof.Machine.execCoilModel c irms2 t s
  | .vvlow mv held t => Sys2Proof.Machine.execVvlow mv held t s
  | .vvalveRecover mv held t => Sys2Proof.Machine.execVvalveRecover mv held t s
  | .x1Release t => Sys2Proof.Machine.execX1Release t s
  | .canFrameRx f t => Sys2Proof.Machine.execCanFrameRx f t s
  | .txreq p n w t => Sys2Proof.Machine.execTxreq p n w t s
  | .cancel p n w begun t => Sys2Proof.Machine.execCancel p n w begun t s
  | .bcmdAck p n w t => Sys2Proof.Machine.execBcmdAck p n w t s
  | .canTxComplete n sent tdcv t => Sys2Proof.Machine.execCanTxComplete n sent tdcv t s
  | .canState st tec rec lec t => Sys2Proof.Machine.execCanState st tec rec lec t s
  | .busOffRecovery seqs t => Sys2Proof.Machine.execBusOffRecovery seqs t s
  | .tten p w t => Sys2Proof.Machine.execTten p w t s
  | .referenceMessage f t => Sys2Proof.Machine.execReferenceMessage f t s
  | .referenceTimeout t => Sys2Proof.Machine.execReferenceTimeout t s
  | .ttWindow k t => Sys2Proof.Machine.execTtWindow k t s
  | .ttEventFallback t => Sys2Proof.Machine.execTtEventFallback t s
  | .loopMessage f t => Sys2Proof.Machine.execLoopMessage f t s
  | .alertRx f t => Sys2Proof.Machine.execAlertRx f t s
  | .ident src d t => Sys2Proof.Machine.execIdent src d t s
  | .keepalive src d t => Sys2Proof.Machine.execKeepalive src d t s
  | .csrRead src d t => Sys2Proof.Machine.execCsrRead src d t s
  | .csrWrite src d t => Sys2Proof.Machine.execCsrWrite src d t s
  | .setFacility src d t => Sys2Proof.Machine.execSetFacility src d t s
  | .coolRestart src d t => Sys2Proof.Machine.execCoolRestart src d t s
  | .leakClear src d t => Sys2Proof.Machine.execLeakClear src d t s
  | .fanClear src d t => Sys2Proof.Machine.execFanClear src d t s
  | .valveClear src d t => Sys2Proof.Machine.execValveClear src d t s
  | .anvilHold src d t => Sys2Proof.Machine.execAnvilHold src d t s
  | .resetModule src d t => Sys2Proof.Machine.execResetModule src d t s
  | .moduleReset t => Sys2Proof.Machine.execModuleReset t s
  | .resetCompute src d t => Sys2Proof.Machine.execResetCompute src d t s
  | .resetComputeKeep src d t => Sys2Proof.Machine.execResetComputeKeep src d t s
  | .resetHearth src d t => Sys2Proof.Machine.execResetHearth src d t s
  | .hearthResetStart t => Sys2Proof.Machine.execHearthResetStart t s
  | .resetStream src d t => Sys2Proof.Machine.execResetStream src d t s
  | .eventRead src d t => Sys2Proof.Machine.execEventRead src d t s
  | .eventClear src d t => Sys2Proof.Machine.execEventClear src d t s
  | .mSnap src d t => Sys2Proof.Machine.execMSnap src d t s
  | .claim src d t => Sys2Proof.Machine.execClaim src d t s
  | .config src d t => Sys2Proof.Machine.execConfig src d t s
  | .counter src d t => Sys2Proof.Machine.execCounter src d t s
  | .attest src d t => Sys2Proof.Machine.execAttest src d t s
  | .attestCert src d t => Sys2Proof.Machine.execAttestCert src d t s
  | .fwUpdateBegin src d t => Sys2Proof.Machine.execFwUpdateBegin src d t s
  | .fwUpdateData src d t => Sys2Proof.Machine.execFwUpdateData src d t s
  | .fwUpdateEnd src d norErr t => Sys2Proof.Machine.execFwUpdateEnd src d norErr t s
  | .fwUpdateActivate src d t => Sys2Proof.Machine.execFwUpdateActivate src d t s
  | .fwUpdateCommit src d t => Sys2Proof.Machine.execFwUpdateCommit src d t s
  | .fwUpdateAbandon t => Sys2Proof.Machine.execFwUpdateAbandon t s
  | .debugUnlock src d t => Sys2Proof.Machine.execDebugUnlock src d t s
  | .notifyAck src d t => Sys2Proof.Machine.execNotifyAck src d t s
  | .notifyResend t => Sys2Proof.Machine.execNotifyResend t s
  | .coldReset vsb held t => Sys2Proof.Machine.execColdReset vsb held t s
  | .romBoot errA errB t => Sys2Proof.Machine.execRomBoot errA errB t s
  | .watchdog t => Sys2Proof.Machine.execWatchdog t s
  | .pllLock t => Sys2Proof.Machine.execPllLock t s
  | .bringupReady badAnvils badStacks t => Sys2Proof.Machine.execBringupReady badAnvils badStacks t s
  | .bringupTimeout t => Sys2Proof.Machine.execBringupTimeout t s
  | .refclkLoss t => Sys2Proof.Machine.execRefclkLoss t s
  | .srefLoss t => Sys2Proof.Machine.execSrefLoss t s
  | .vin48Undervoltage mv held t => Sys2Proof.Machine.execVin48Undervoltage mv held t s
  | .vin48Overvoltage mv held t => Sys2Proof.Machine.execVin48Overvoltage mv held t s
  | .vin48Recover mv held t => Sys2Proof.Machine.execVin48Recover mv held t s
  | .vsb12Warn mv held t => Sys2Proof.Machine.execVsb12Warn mv held t s
  | .vsb12Sag mv held t => Sys2Proof.Machine.execVsb12Sag mv held t s
  | .mateConnect held t => Sys2Proof.Machine.execMateConnect held t s
  | .mateDisconnect held t => Sys2Proof.Machine.execMateDisconnect held t s
  | .sourceAssert n t => Sys2Proof.Machine.execSourceAssert n t s
  | .bicClaim c t => Sys2Proof.Machine.execBicClaim c t s
  | .bicComplete p c w t => Sys2Proof.Machine.execBicComplete p c w t s
  | .reevaluate c t => Sys2Proof.Machine.execReevaluate c t s
  | .hcomplete p w t => Sys2Proof.Machine.execHcomplete p w t s
  | .htmo n t => Sys2Proof.Machine.execHtmo n t s
  | .levelRedeliver n target t => Sys2Proof.Machine.execLevelRedeliver n target t s
  | .groupRelease g t => Sys2Proof.Machine.execGroupRelease g t s
  | .norWrite ok t => Sys2Proof.Machine.execNorWrite ok t s
  | .rsel p w t => Sys2Proof.Machine.execRsel p w t s
  | .snapctlSnap p w t => Sys2Proof.Machine.execSnapctlSnap p w t s
  | .snapCapture t => Sys2Proof.Machine.execSnapCapture t s
  | .hammerTraceArm p w t => Sys2Proof.Machine.execHammerTraceArm p w t s
  | .hammerTraceForce p w t => Sys2Proof.Machine.execHammerTraceForce p w t s
  | .hammerTrdata t => Sys2Proof.Machine.execHammerTrdata t s
  | .idcode => Sys2Proof.Machine.execIdcode s
  | .samplePreload bits => Sys2Proof.Machine.execSamplePreload bits s
  | .extest bits => Sys2Proof.Machine.execExtest bits s
  | .highz => Sys2Proof.Machine.execHighz s
  | .clamp => Sys2Proof.Machine.execClamp s
  | .bypass => Sys2Proof.Machine.execBypass s
  | .registerWrite p addr w t => Sys2Proof.Machine.execRegisterWrite p addr w t s
  | .mgmtPortLinkUp t => Sys2Proof.Machine.execMgmtPortLinkUp t s
  | .mgmtPortLinkDown t => Sys2Proof.Machine.execMgmtPortLinkDown t s
  | .mainDieLinkLoss t => Sys2Proof.Machine.execMainDieLinkLoss t s
  | .neighbourAdvertisement ix a mac port t => Sys2Proof.Machine.execNeighbourAdvertisement ix a mac port t s
  | .tuyereDomainOff mv held t => Sys2Proof.Machine.execTuyereDomainOff mv held t s

end Sys2Proof.Machine
end

