-- ==== Sys2Proof/Safety.lean ====
section
/-! DEFINITION. What counts as a safe run, in the terms the claims use. -/

namespace Sys2Proof.Machine

/-- The memory is in its one canonical form: addresses rising, no byte listed that an unlisted address reads as. -/
def State.memOk (s : State) : Bool := Memory.wf s.mem

/-- A state from which the next step goes on. -/
def State.goes (s : State) : Prop := ∃ t, step s = .next t

/-- The one-way state of the security block from one state to a later one (R604, R618): a claim stays, no counter falls. -/
def State.oneWay (s t : State) : Prop :=
  (s.secb.claimed = true → t.secb.claimed = true) ∧ ∀ i, s.counter i ≤ t.counter i

/-! ### Slot words -/

/-- Hammer is about to issue a bundle of this one slot word: a job runs and takes words, its bundle is fetched and still
empty, the word is the last of it and stands in a slot of the list, the bundle lies in the code region, and nothing of
earlier bundles is under way (results, faults, redirects, a heat marker, the start of a heat execution). -/
def State.sole (s : State) (h : Hd) (slots : List Nat) : Prop :=
  s.taking = true ∧ s.hammer.open_ = true ∧ s.hammer.cur = Open.none ∧ h.fin = true ∧ h.slot ∈ slots ∧ h.len < 4 ∧
  s.runImage.any (fun i => 16 * s.hammer.pc + lenBytes h.len ≤ i.codeOff + i.codeBytes) = true ∧
  s.hammer.marker = none ∧ s.hammer.flight = [] ∧ s.hammer.faults = [] ∧ s.hammer.redirs = [] ∧ s.hammer.start = none

/-- What the issue of a bundle of one word does beside the word's own effect (R190, R194), and its frame: one position
and one bundle on; no byte of memory, no register of an Anvil, no other unit touched, Hammer's registers and tokens but
for the scalar registers, the mask, results under way, redirects and faults as they were. -/
def State.movedOn (s t : State) (h : Hd) : Prop :=
  t.hammer.pos = s.hammer.pos + 1 ∧
  t.get HAMMER_ISSUECNT_COUNT = min (s.get HAMMER_ISSUECNT_COUNT + 1) (2 ^ 64 - 1) ∧
  (∀ a, t.byte a = s.byte a) ∧
  t = { s with csr := t.csr, hammer := t.hammer, trace := t.trace, wb := t.wb } ∧
  t.hammer = { s.hammer with
    cur := Open.none, open_ := false, pos := s.hammer.pos + 1, pc := s.hammer.pc + (h.len + 1), s := t.hammer.s
    amask := t.hammer.amask, flight := t.hammer.flight, redirs := t.hammer.redirs, faults := t.hammer.faults
    recent := t.hammer.recent, descs := t.hammer.descs, ending := t.hammer.ending }

/-- An operation of an Anvil slot has issued and its results are under way: in every executing Anvil (R104, R106) the
change `(r g).1` and the flags `(r g).2` will be visible `lat` positions after the bundle (R196, R198), and the Anvil's
activity of class `cls` will be counted once, in stage E (R406, R625). No scalar register, mask, redirect, fault or other CSR
changes. -/
def State.underWay (s t : State) (h : Hd) (pred lat cls : Nat) (r : Nat → AEff × Flags) : Prop :=
  s.movedOn t h ∧ t.hammer.s = s.hammer.s ∧ t.hammer.amask = s.hammer.amask ∧ t.hammer.redirs = [] ∧
  t.hammer.faults = [] ∧ t.hammer.ending = none ∧
  t.hammer.flight = (s.executing pred).flatMap (fun g =>
    [⟨s.hammer.pos + lat, .anvil g (r g).1 (r g).2⟩, ⟨s.hammer.pos + actLag g, .act g cls⟩]) ∧
  ∀ a, a ≠ HAMMER_ISSUECNT → a ≠ HAMMER_PCSTAT → t.rd a = s.rd a

/-- As `underWay`, for an operation that may draw random bits: in every executing Anvil it starts from the generator word
and leaves `(r g word).2.2` in it (R82); the other Anvils' generators keep theirs. -/
def State.underWayDraw (s t : State) (h : Hd) (pred lat cls : Nat) (r : Nat → Word → AEff × Flags × Word) : Prop :=
  s.movedOn t h ∧ t.hammer.s = s.hammer.s ∧ t.hammer.amask = s.hammer.amask ∧ t.hammer.redirs = [] ∧
  t.hammer.faults = [] ∧ t.hammer.ending = none ∧
  t.hammer.flight = (s.executing pred).flatMap (fun g =>
    let x := r g (s.rd (ANVIL_SRGEN g))
    [⟨s.hammer.pos + lat, .anvil g x.1 x.2.1⟩, ⟨s.hammer.pos + actLag g, .act g cls⟩]) ∧
  (∀ g, g < 160 → t.rd (ANVIL_SRGEN g) =
    if g ∈ s.executing pred then (r g (s.rd (ANVIL_SRGEN g))).2.2 else s.rd (ANVIL_SRGEN g)) ∧
  ∀ a, a ≠ HAMMER_ISSUECNT → a ≠ HAMMER_PCSTAT → (∀ g, g < 160 → a ≠ ANVIL_SRGEN g) → t.rd a = s.rd a

/-- A scalar word has issued and written: `s[d]` holds `x` from the next position on, `SFLAGS.INT_SAT` is set where it
saturated (R102), every other scalar register, the mask and every other CSR are as they were, and nothing is under way. -/
def State.wrote (s t : State) (h : Hd) (d : Nat) (x : Word) (sat : Bool) : Prop :=
  s.movedOn t h ∧ t.sreg d = x ∧ (∀ n, n ≠ d → t.sreg n = s.sreg n) ∧ t.hammer.amask = s.hammer.amask ∧
  t.hammer.flight = [] ∧ t.hammer.redirs = [] ∧ t.hammer.faults = [] ∧ t.hammer.ending = none ∧
  t.get HAMMER_SFLAGS_INT_SAT = (if sat then 1 else s.get HAMMER_SFLAGS_INT_SAT) ∧
  ∀ a, a ≠ HAMMER_ISSUECNT → a ≠ HAMMER_PCSTAT → a ≠ HAMMER_SFLAGS → t.rd a = s.rd a

/-- A scalar word has issued, and `s[d]` will hold `x`, with the saturation flag, `lat` positions after the bundle. -/
def State.willWrite (s t : State) (h : Hd) (lat d : Nat) (x : Word) (sat : Bool) : Prop :=
  s.movedOn t h ∧ t.hammer.s = s.hammer.s ∧ t.hammer.amask = s.hammer.amask ∧
  t.hammer.flight = [⟨s.hammer.pos + lat, .s d x sat⟩] ∧ t.hammer.redirs = [] ∧ t.hammer.faults = [] ∧
  t.hammer.ending = none

/-- The frame of the issue of a bundle of one word that hands work to another unit or stores to memory: one position and one
bundle on; the Anvils' and scalar registers, the mask, results under way and Hammer's job as they were. -/
def State.handed (s t : State) (h : Hd) : Prop :=
  t.hammer.pos = s.hammer.pos + 1 ∧ t.hammer.pc = s.hammer.pc + (h.len + 1) ∧ t.hammer.open_ = false ∧
  t.hammer.s = s.hammer.s ∧ t.hammer.amask = s.hammer.amask ∧ t.hammer.run = s.hammer.run ∧ t.hammer.redirs = [] ∧
  t.hammer.faults = [] ∧ t.hammer.ending = none ∧ t.anvils = s.anvils

/-- Issue has ended for the job with a failure of this cause at this bundle (R151): no bundle is open, nothing is under way,
the Anvils' and scalar registers and every byte of memory are as they were. -/
def State.failed (s t : State) (cause : Nat) : Prop :=
  (∃ f, t.hammer.ending = some (some f) ∧ f.cause = cause ∧ f.fpc = s.hammer.pc) ∧ t.hammer.open_ = false ∧
  t.hammer.run = s.hammer.run ∧ t.hammer.flight = [] ∧ t.hammer.s = s.hammer.s ∧ t.anvils = s.anvils ∧
  ∀ a, t.byte a = s.byte a

/-! ### Events -/

/-- What the log writes: the registers of the interrupt controller and of the event recorder, the summary of dropped
records, the cores domain's bit (R572) and the count of outstanding notifications (R559). -/
def logAddr (a : Nat) : Bool :=
  a / 65536 == 0x38000003 || a / 65536 == 0x38000004 || a == BELLOWS_ERRSUM || a == BELLOWS_PDSTAT3 || a == MGMT_STAT

/-- From `u` to `v` nothing changed but the registers listed and the log: event records, interrupt sources and cores, what
is sent of them (messages on the host's stream, notifications), and free values used. -/
def State.only (u v : State) (regs : List Nat) : Prop :=
  (∀ a, a ∉ regs → logAddr a = false → v.rd a = u.rd a) ∧
  (∀ n, ∃ q r b, v.ctx n = { u.ctx n with txq := q, crstate := r, blockedAt := b }) ∧
  v = { u with
    csr := v.csr, evrec := v.evrec, srcs := v.srcs, grps := v.grps, cores := v.cores, free := v.free
    tongs := { u.tongs with ctx := v.tongs.ctx }
    mgmt := { u.mgmt with wire := v.mgmt.wire, ntf := v.mgmt.ntf, ntfSeq := v.mgmt.ntfSeq, merge := v.mgmt.merge } }

/-- Where the recorder has room and its last record does not stand alone (R575, R577), a record of this code is the last
written. -/
def State.recorded (u v : State) (code : Nat) : Prop :=
  u.evrec.nor.length < 448 → u.evrec.lastAlone = none → v.evrec.circ.getLast?.map (·.code) = some code

/-- The command completes with a next state of which `P` holds. -/
def State.runs (s : State) (c : Instr) (P : State → Prop) : Prop := ∃ v, exec c s = .next v ∧ P v

/-- A cooling, Quench or Tuyere action of this code waits for its record, after those that waited before (R476, R578). -/
def State.acted (u v : State) (code : Nat) : Prop :=
  ∃ e, v.evrec.deferred = u.evrec.deferred ++ [e] ∧ e.code = code

/-- The compute complex is down (R589, R595, R600): its domains are off, its blocks hold what reset gives them. -/
def State.downed (v : State) : Prop :=
  (∀ d, d < 195 → v.domOn d = false) ∧ v.hammer = Hammer.reset ∧ v.anvils = [] ∧ v.crucs = [] ∧ v.jobs = [] ∧ v.xq = []

/-- Compute has been stopped and the stop is latched (R455, R456): the regulators are off, HBM is lost, bring-up stands at
flow confirmation with the fast path not armed. -/
def State.stopped (v : State) : Prop :=
  v.downed ∧ v.mem = [] ∧ v.errs = [] ∧ v.on BELLOWS_SAFESTAT_CSTOP = true ∧ v.on BELLOWS_PWRSTAT_REGON = false ∧
  v.get BELLOWS_PWRSTAT_STATE = 6 ∧ v.pwr.step = 4 ∧ v.pwr.stop = true ∧ v.cool.armed = false

/-- Temper has entered its floor (R427–R429): no grant, OP0 the target, and k = 1 from the next frame boundary on, with any
raise given up. -/
def State.floored (u v : State) : Prop :=
  v.get TEMPER_CAPSTAT_GRANT = 0 ∧ v.on TEMPER_CAPSTAT_FLOOR = true ∧ v.get TEMPER_CTRL_KTGT = 1 ∧
  v.get TEMPER_CTRL_OPTGT = 0 ∧ v.temper.vgoal = v.opUv 0 ∧
  (1 ≤ u.core.k → v.core = { u.core with next := (if u.core.k = 1 then none else some 1), raise := none })

/-- THROTTLE has been asserted by a flow trigger (R427, R453, R454): where it did not stand before, the time is kept, the
action waits for its record, and Temper, where it runs and did not have it, is at its floor. -/
def State.throttled (u v : State) : Prop :=
  v.on BELLOWS_SAFESTAT_THROTTLE = true ∧ v.cool.byFlow = true ∧
  (u.on BELLOWS_SAFESTAT_THROTTLE = false →
    v.cool.throttleAt = some u.now ∧ u.acted v 0x0601 ∧
    (u.domOn 192 = true → v.on TEMPER_CAPSTAT_THROTTLE = true ∧
      (u.on TEMPER_CAPSTAT_THROTTLE = false → u.floored v ∧ v.get TEMPER_CAPSTAT_LIMIT = 5))) ∧
  (u.on BELLOWS_SAFESTAT_THROTTLE = true → v.core = u.core)

/-! ### The management port -/

/-- A datagram that is accepted and executed (R551, R553–R555): the port serves the command, it reaches the port, the source is
allowed, the datagram well formed and a request, its number new to a requester of whom fewer than 16 responses are kept. -/
def State.admits (u : State) (cmd : Nat) (src : BitVec 128) (d : Dgram) : Prop :=
  u.mgmtServes cmd = true ∧ u.dgramHere d = true ∧ u.srcAllowed src = true ∧ d.ok cmd = true ∧ d.flags = 0 ∧ (u.kept src).length < 16 ∧
  (u.kept src).find? (fun r => r.seq == d.seq) = none

/-- The request has been answered (R554, R555, R558): the last datagram sent is the response with this status and payload,
and it is kept. -/
def State.replied (v : State) (cmd : Nat) (src : BitVec 128) (d : Dgram) (st : Nat) (pay : List Byte) : Prop :=
  v.mgmt.wire.getLast? = some ⟨src, cmd, 1, st, d.seq, pay, d.sport, v.mgmtVid⟩ ∧
  ⟨src, cmd, 1, st, d.seq, pay, d.sport, none⟩ ∈ v.kept src

/-! ### Jobs -/

/-- Every byte outside a job's completion record is as it was (R394–R396). -/
def State.recordOnly (s t : State) (j : Job) : Prop :=
  ∀ a, (∀ i, i < 64 → phys a ≠ phys (s.slotAddr j.ring j.ridx + i)) → t.byte a = s.byte a

/-- Nothing keeps a job from entering heat `heat` of its image `i` (R143, R229, R235, R275). -/
def State.enterable (s : State) (j : Job) (i : Img) (heat : Nat) : Prop :=
  s.image j.img = some i ∧ i.reqmask &&& ~~~ s.hammer.avail = 0 ∧ heat < i.heatCount ∧ s.ueIn (i.heatAddr heat) 64 = none

/-- Job `id` has Hammer (R98, R108, R109): a job that starts finds its argument, its seed and its entry heat in `s[0]`,
`s[1]` and `s[2]`, zeros in the others, the mask all ones and every flag clear; one that resumes finds its saved registers,
mask and flags. Every Anvil holds its entry values and every token counts 0; the heat execution, with its fresh generators (R81),
waits for its first bundle (R215). -/
def State.entered (s t : State) (id : Nat) (j : Job) (heat : Nat) : Prop :=
  t.hammer.run = some id ∧ t.hammer.start.map (·.heat) = some heat ∧ t.get HAMMER_PCSTAT_RUN = 1 ∧ (∀ k, t.tok k = Tok.zero) ∧
  (∀ g, t.anvil g = Anvil.entry) ∧ t.hammer.avail = s.hammer.avail ∧ t.hammer.flight = [] ∧ t.hammer.ending = none ∧
  t.hammer.stall = none ∧ t.hammer.open_ = false ∧ t.hammer.marker = none ∧
  (∃ j', t.job id = some j' ∧ j'.st = .running ∧ j'.saved = none ∧ j'.arg = j.arg ∧ j'.tag = j.tag) ∧
  match j.saved with
  | none =>
    t.sreg 0 = j.arg ∧ t.sreg 1 = j.seed ∧ t.sreg 2 = BitVec.ofNat 64 j.entry ∧ (∀ n, 3 ≤ n → t.sreg n = 0) ∧
    t.hammer.amask = BitVec.allOnes 160 ∧ t.hammer.pos = 0 ∧ t.rd HAMMER_SFLAGS = 0 ∧
    ∀ g, g < 160 → t.rd (ANVIL_AFLAGS g) = 0 ∧ t.srOf g = srStart j.seed g 0
  | some v =>
    t.hammer.s = v.s ∧ t.hammer.amask = v.amask ∧ t.hammer.pos = v.pos ∧ t.rd HAMMER_SFLAGS = v.sflags ∧
    ∀ g, g < 160 → t.rd (ANVIL_AFLAGS g) = (Tab.get (fun _ => (0 : Flags)) v.aflags g).setWidth 64 ∧
      t.srOf g = srStart j.seed g (v.heatCount + 1)

end Sys2Proof.Machine
end

