-- ==== Sys2Proof/Certificates/Slice0/Obligations.lean ====
section
/-! DEFINITION. The statements about the model that are to be proved, one definition each. -/

open Sys2Proof Sys2Proof.Machine

/-- A legal FP32 word of the V slots alone in its bundle issues; add, sub, mul, min, max, abs and neg give their result in
every executing Anvil 2 positions on, fma and fms 4, sqrt, rcp, rsqrt, exp2 and log2 8; each lane is the function of
the source lanes, the flags are the OR of the lanes'; nothing else changes. (R104, R106, R164, R166, R196, R198). -/
def Obligations.VectorFloatWords : Prop :=
  ∀ (s : State) (h : Hd) (f : VRf), s.sole h [3, 4] →
    let A := fun g => s.vecSrc g f.sf f.a
    let B := fun g => s.vecSrc g f.sf f.b
    let C := fun g => (s.anvil g).vr f.c
    let two := fun (fn : Nat → Nat → Nat × Flags) (g : Nat) =>
      (AEff.v f.d (lanes2 fn (A g) (B g)).1, (lanes2 fn (A g) (B g)).2)
    (∀ op, 1 ≤ op → op ≤ 3 → vrLegal op f = true → ∃ t, exec (.addSubMulF32 h op f) s = .next t ∧
      s.underWay t h f.pred 2 4 (two (if op = 1 then f32Add else if op = 2 then f32Sub else f32Mul))) ∧
    (∀ op, 4 ≤ op → op ≤ 5 → vrLegal op f = true → ∃ t, exec (.fmaFmsF32 h op f) s = .next t ∧
      s.underWay t h f.pred 4 5 (fun g =>
        (.v f.d (lanes3 (f32Fma (op == 5)) (A g) (B g) (C g)).1, (lanes3 (f32Fma (op == 5)) (A g) (B g) (C g)).2))) ∧
    (∀ op, 6 ≤ op → op ≤ 7 → vrLegal op f = true → ∃ t, exec (.minMaxF32 h op f) s = .next t ∧
      s.underWay t h f.pred 2 4 (two (f32MinMax (op == 7)))) ∧
    (∀ op, 8 ≤ op → op ≤ 9 → vrLegal op f = true → ∃ t, exec (.absNegF32 h op f) s = .next t ∧
      s.underWay t h f.pred 2 4 (two (fun a _ => (if op = 8 then a % 2 ^ 31 else (a + 2 ^ 31) % 2 ^ 32, 0)))) ∧
    (vrLegal 10 f = true → ∃ t, exec (.sqrtF32 h f) s = .next t ∧
      s.underWay t h f.pred 8 6 (two (fun a _ => f32Fun .sqrt a))) ∧
    (∀ op, 11 ≤ op → op ≤ 14 → vrLegal op f = true → ∃ t, exec (.rcpRsqrtExp2Log2F32 h op f) s = .next t ∧
      s.underWay t h f.pred 8 6 (two (fun a _ => f32Fun
        (if op = 11 then .rcp else if op = 12 then .rsqrt else if op = 13 then .exp2 else .log2) a)))

/-- A legal 32-bit integer word of the V slots alone in its bundle issues with its result under way for 2 positions:
saturating add, sub and mul (INT_SAT where a lane saturates), min, max, abs, saturating left shift, bitwise
operations, shifts by the low 5 bits. (R86, R87, R104, R106, R164, R198). -/
def Obligations.VectorIntegerWords : Prop :=
  ∀ (s : State) (h : Hd) (f : VRf), s.sole h [3, 4] →
    let two := fun (fn : Nat → Nat → Nat × Flags) (g : Nat) =>
      (AEff.v f.d (lanes2 fn (s.vecSrc g f.sf f.a) (s.vecSrc g f.sf f.b)).1,
        (lanes2 fn (s.vecSrc g f.sf f.a) (s.vecSrc g f.sf f.b)).2)
    -- an exact value narrowed to 32 bits, signed or not, with INT_SAT where it does not fit
    let sat := fun (sg : Bool) (v : Int) =>
      let lo : Int := if sg then -2 ^ 31 else 0
      let hi : Int := if sg then 2 ^ 31 - 1 else 2 ^ 32 - 1
      (wrap 32 (max lo (min hi v)), flagIf (decide (v < lo ∨ hi < v)) fIntSat)
    (∀ op, 0x20 ≤ op → op ≤ 0x25 → vrLegal op f = true → ∃ t, exec (.int32Arith h op f) s = .next t ∧
      s.underWay t h f.pred 2 4 (two (fun a b =>
        let x : Int := if op ≤ 0x22 then sgn 32 a else (a : Int)
        let y : Int := if op ≤ 0x22 then sgn 32 b else (b : Int)
        sat (decide (op ≤ 0x22)) (if op % 3 = 2 then x + y else if op % 3 = 0 then x - y else x * y)))) ∧
    (∀ op, 0x26 ≤ op → op ≤ 0x27 → vrLegal op f = true → ∃ t, exec (.minMaxS32 h op f) s = .next t ∧
      s.underWay t h f.pred 2 4 (two (fun a b =>
        (if op = 0x26 then (if sgn 32 a ≤ sgn 32 b then a else b) else (if sgn 32 b ≤ sgn 32 a then a else b), 0)))) ∧
    (vrLegal 0x28 f = true → ∃ t, exec (.absS32 h f) s = .next t ∧
      s.underWay t h f.pred 2 4 (two (fun a _ => sat true |sgn 32 a|))) ∧
    (vrLegal 0x29 f = true → ∃ t, exec (.slaS32 h f) s = .next t ∧
      s.underWay t h f.pred 2 4 (two (fun a b => sat true (sgn 32 a * 2 ^ (b % 32))))) ∧
    (∀ op, 0x2A ≤ op → op ≤ 0x2C → vrLegal op f = true → ∃ t, exec (.b32Bitwise h op f) s = .next t ∧
      s.underWay t h f.pred 2 4 (two (fun a b =>
        (if op = 0x2A then a &&& b else if op = 0x2B then a ||| b else a ^^^ b, 0)))) ∧
    (∀ op, 0x2D ≤ op → op ≤ 0x2F → vrLegal op f = true → ∃ t, exec (.b32Shift h op f) s = .next t ∧
      s.underWay t h f.pred 2 4 (two (fun a b =>
        (if op = 0x2D then a * 2 ^ (b % 32) % 2 ^ 32 else if op = 0x2E then a / 2 ^ (b % 32)
          else wrap 32 (sgn 32 a / 2 ^ (b % 32)), 0))))

/-- A legal 64-bit word of the V slots alone in its bundle issues with its result under way for 2 positions in the g, k or
p register it names: saturating arithmetic with register or immediate operands (INT_SAT where it saturates), bitwise
operations, shifts by the low 6 bits, moves; a p register receives whether the value is not 0. (R86, R87, R89, R104,
R165, R198). -/
def Obligations.VectorScalarWords : Prop :=
  (∀ (s : State) (h : Hd) (f : VRf), s.sole h [3, 4] →
    let A := fun g => s.scalar g f.sf f.a
    let B := fun g => s.scalar g f.sf f.b
    let one := fun (fn : Nat → Nat → Nat × Flags) (g : Nat) =>
      ((if f.df = 1 then AEff.g f.d (BitVec.ofNat 64 (fn (A g) (B g)).1)
        else if f.df = 2 then .k f.d (BitVec.ofNat 64 (fn (A g) (B g)).1)
        else .p f.d ((fn (A g) (B g)).1 % 2 ^ 64 != 0)), (fn (A g) (B g)).2)
    (∀ op, 0x30 ≤ op → op ≤ 0x35 → vrLegal op f = true → ∃ t, exec (.vArithS64 h op f) s = .next t ∧
      s.underWay t h f.pred 2 4 (one (fun a b =>
        let r := intOp 64 (op ≤ 0x32) (if op % 3 = 0 then .add else if op % 3 = 1 then .sub else .mul) a b
        (r.1, flagIf r.2 fIntSat)))) ∧
    (∀ op, 0x36 ≤ op → op ≤ 0x38 → vrLegal op f = true → ∃ t, exec (.vBitwiseB64 h op f) s = .next t ∧
      s.underWay t h f.pred 2 4 (one (fun a b =>
        let x := BitVec.ofNat 64 a
        let y := BitVec.ofNat 64 b
        ((if op = 0x36 then x &&& y else if op = 0x37 then x ||| y else x ^^^ y).toNat, 0)))) ∧
    (∀ op, 0x39 ≤ op → op ≤ 0x3B → vrLegal op f = true → ∃ t, exec (.vShiftB64 h op f) s = .next t ∧
      s.underWay t h f.pred 2 4 (one (fun a b =>
        let x := BitVec.ofNat 64 a
        ((if op = 0x39 then x <<< (b % 64) else if op = 0x3A then x >>> (b % 64) else x.sshiftRight (b % 64)).toNat, 0)))) ∧
    (vrLegal 0x3C f = true → ∃ t, exec (.movB64 h f) s = .next t ∧
      s.underWay t h f.pred 2 4 (one (fun a _ => (a, 0))))) ∧
  (∀ (s : State) (h : Hd) (f : VIf), s.sole h [3, 4] →
    let A := fun g => s.scalar g f.sf f.a
    let put := fun (x : Nat) => if f.df = 1 then AEff.g f.d (BitVec.ofNat 64 x) else .k f.d (BitVec.ofNat 64 x)
    -- the signed immediate as 64 bits
    let imm := wrap 64 (sgn 16 f.imm)
    (∀ op, 0x88 ≤ op → op ≤ 0x8B → viLegal op f = true → ∃ t, exec (.vAddiMuliS64 h op f) s = .next t ∧
      s.underWay t h f.pred 2 4 (fun g =>
        let r := intOp 64 (op % 2 == 0) (if op ≤ 0x89 then .add else .mul) (A g) imm
        (put r.1, flagIf r.2 fIntSat))) ∧
    (viLegal 0x8C f = true → ∃ t, exec (.vMoviS64 h f) s = .next t ∧
      s.underWay t h f.pred 2 4 (fun _ => (put imm, 0))) ∧
    (∀ op, 0x8D ≤ op → op ≤ 0x8E → viLegal op f = true → ∃ t, exec (.slliSrliB64 h op f) s = .next t ∧
      s.underWay t h f.pred 2 4 (fun g =>
        let x := BitVec.ofNat 64 (A g)
        (put (if op = 0x8D then x <<< f.imm else x >>> f.imm).toNat, 0))))

/-- The saturating integer operation on w-bit operands, for every width w above 0, gives the exact result where it fits in
w bits and the nearest representable value otherwise, and reports saturation exactly in that case; signed and
unsigned, for add, subtract and multiply. (R86). -/
def Obligations.IntegerSaturates : Prop :=
  ∀ (w a b : Nat) (op : IOp), 0 < w →
    (let v := op.eval (sgn w a) (sgn w b)
     sgn w (intOp w true op a b).1 = max (-2 ^ (w - 1)) (min (2 ^ (w - 1) - 1) v) ∧
     ((intOp w true op a b).2 = true ↔ v < -2 ^ (w - 1) ∨ 2 ^ (w - 1) - 1 < v)) ∧
    (let v := op.eval ((a % 2 ^ w : Nat) : Int) ((b % 2 ^ w : Nat) : Int)
     ((intOp w false op a b).1 : Int) = max 0 (min (2 ^ w - 1) v) ∧
     ((intOp w false op a b).2 = true ↔ v < 0 ∨ 2 ^ w - 1 < v))

/-- A legal compare alone in its bundle issues: cmpany and cmpall combine their 32 lane results by OR or AND, 4 positions
on, into the predicate as MOD says (set, AND, OR); cmp.s64 and cmp.u64 do so for scalars and cmpi.s64 sets the
predicate, 2 positions on; cmpm writes all ones or zeros per lane. FP compares raise NAN_IN for a NaN operand. (R84,
R104, R171, R198). -/
def Obligations.CompareWords : Prop :=
  (∀ (s : State) (h : Hd) (f : VRf), s.sole h [3, 4] →
    let cc := condOf (f.mod % 8)
    let comb := fun (old new : Bool) => if f.mod / 8 = 0 then new else if f.mod / 8 = 1 then old && new else old || new
    (∀ op, 0x40 ≤ op → op ≤ 0x43 → vrLegal op f = true → ∃ t, exec (.cmpanyCmpall h op f) s = .next t ∧
      s.underWay t h f.pred 4 6 (fun g =>
        let a := fun i => lane (s.vecSrc g f.sf f.a) i
        let b := fun i => lane (s.vecSrc g f.sf f.b) i
        let holds := fun i => if op ≤ 0x41 then f32Cmp cc (a i) (b i) else intCmp 32 true cc (a i) (b i)
        let all := if op = 0x40 ∨ op = 0x42 then (List.range 32).any holds else (List.range 32).all holds
        (.p f.d (comb ((s.anvil g).p.getLsbD f.d) all),
          if op ≤ 0x41 then (List.range 32).foldl (fun acc i => acc ||| (nanIn (a i) ||| nanIn (b i))) 0 else 0))) ∧
    (∀ op, 0x44 ≤ op → op ≤ 0x45 → vrLegal op f = true → ∃ t, exec (.cmpS64U64 h op f) s = .next t ∧
      s.underWay t h f.pred 2 4 (fun g =>
        (.p f.d (comb ((s.anvil g).p.getLsbD f.d)
          (intCmp 64 (op == 0x44) cc (s.scalar g f.sf f.a) (s.scalar g f.sf f.b))), 0))) ∧
    (∀ op, 0x46 ≤ op → op ≤ 0x47 → vrLegal op f = true → ∃ t, exec (.cmpm h op f) s = .next t ∧
      s.underWay t h f.pred 2 4 (fun g =>
        let fn := fun a b =>
          (if (if op = 0x46 then f32Cmp cc a b else intCmp 32 true cc a b) then 0xFFFFFFFF else 0,
            if op = 0x46 then nanIn a ||| nanIn b else 0)
        (.v f.d (lanes2 fn (s.vecSrc g f.sf f.a) (s.vecSrc g f.sf f.b)).1,
          (lanes2 fn (s.vecSrc g f.sf f.a) (s.vecSrc g f.sf f.b)).2)))) ∧
  (∀ (s : State) (h : Hd) (f : VIf), s.sole h [3, 4] → viLegal 0xA0 f = true →
    ∃ t, exec (.cmpiS64 h f) s = .next t ∧
      s.underWay t h f.pred 2 4 (fun g =>
        (.p f.d (intCmp 64 true (condOf f.mod) (s.scalar g f.sf f.a) (wrap 64 (sgn 16 f.imm))), 0)))

/-- A legal word of the group alone in its bundle issues: sel takes each lane from A or B by lane C, perm takes lane (B
lane mod 32) of A, the reductions give one value in all lanes (radd.s32 the exact sum saturated once), lext reads one
lane into a scalar, lins and bins replace one lane or byte; sel 2 positions on, the rest 4. (R86, R104, R164, R168,
R198). -/
def Obligations.LaneWords : Prop :=
  (∀ (s : State) (h : Hd) (f : VRf), s.sole h [3, 4] →
    let va := fun g => (s.anvil g).vr f.a
    (vrLegal 0x48 f = true → ∃ t, exec (.selB32 h f) s = .next t ∧
      s.underWay t h f.pred 2 4 (fun g =>
        let r := lanes3 (fun a b c => (if c = 0 then b else a, (0 : Flags))) (s.vecSrc g f.sf f.a) (s.vecSrc g f.sf f.b)
          ((s.anvil g).vr f.c)
        (.v f.d r.1, r.2))) ∧
    (vrLegal 0x49 f = true → ∃ t, exec (.permB32 h f) s = .next t ∧
      s.underWay t h f.pred 4 6 (fun g =>
        (.v f.d (packLanes ((List.range 32).map (fun l => lane (va g) (lane ((s.anvil g).vr f.b) l % 32)))), 0))) ∧
    (∀ op, 0x4A ≤ op → op ≤ 0x4C → vrLegal op f = true → ∃ t, exec (.raddRmaxRminF32 h op f) s = .next t ∧
      s.underWay t h f.pred 4 6 (fun g =>
        let r := reduceF32 (if op = 0x4A then f32Add else f32MinMax (op == 0x4B)) 5 ((List.range 32).map (lane (va g)))
        (.v f.d (packLanes (List.replicate 32 r.1)), r.2))) ∧
    (vrLegal 0x4D f = true → ∃ t, exec (.raddS32 h f) s = .next t ∧
      s.underWay t h f.pred 4 6 (fun g =>
        let sum : Int := ((List.range 32).map (fun l => sgn 32 (lane (va g) l))).sum
        (.v f.d (packLanes (List.replicate 32 (wrap 32 (max (-2 ^ 31) (min (2 ^ 31 - 1) sum))))),
          flagIf (decide (sum < -2 ^ 31 ∨ 2 ^ 31 - 1 < sum)) fIntSat)))) ∧
  (∀ (s : State) (h : Hd) (f : VIf), s.sole h [3, 4] →
    (viLegal 0x90 f = true → ∃ t, exec (.lextB32 h f) s = .next t ∧
      s.underWay t h f.pred 4 6 (fun g =>
        let x := BitVec.ofNat 64 (lane ((s.anvil g).vr f.a) f.imm)
        (if f.df = 1 then .g f.d x else .k f.d x, 0))) ∧
    (viLegal 0x91 f = true → ∃ t, exec (.linsB32 h f) s = .next t ∧
      s.underWay t h f.pred 4 6 (fun g => (.v f.d (setElem ((s.anvil g).vr f.d) 32 f.imm (s.scalar g f.sf f.a)), 0))) ∧
    (viLegal 0x92 f = true → ∃ t, exec (.binsB8 h f) s = .next t ∧
      s.underWay t h f.pred 4 6 (fun g => (.v f.d (setElem ((s.anvil g).vr f.d) 8 f.imm (s.scalar g f.sf f.a)), 0))))

/-- A legal word with a 16-bit immediate alone in its bundle issues with its result under way for 2 positions: the
immediate is a signed number for s32 and the upper half of an FP32 number for f32 (a NaN becomes the canonical NaN);
add and multiply act lane by lane, movi writes every lane. (R53, R86, R104, R124, R166, R198). -/
def Obligations.ImmediateWords : Prop :=
  ∀ (s : State) (h : Hd) (f : VIf), s.sole h [3, 4] →
    let one := fun (fn : Nat → Nat × Flags) (g : Nat) =>
      (AEff.v f.d (lanes2 (fun a _ => fn a) (s.vecSrc g f.sf f.a) 0).1, (lanes2 (fun a _ => fn a) (s.vecSrc g f.sf f.a) 0).2)
    let bf := if f32 (f.imm * 2 ^ 16) = .nan then fp32.nanBits else f.imm * 2 ^ 16
    (∀ op, 0x80 ≤ op → op ≤ 0x81 → viLegal op f = true → ∃ t, exec (.addiMuliS32 h op f) s = .next t ∧
      s.underWay t h f.pred 2 4 (one (fun a =>
        let r := intOp 32 true (if op = 0x80 then .add else .mul) a (wrap 32 (sgn 16 f.imm))
        (r.1, flagIf r.2 fIntSat)))) ∧
    (∀ op, 0x82 ≤ op → op ≤ 0x83 → viLegal op f = true → ∃ t, exec (.addiMuliF32 h op f) s = .next t ∧
      s.underWay t h f.pred 2 4 (one (fun a => if op = 0x82 then f32Add a bf else f32Mul a bf))) ∧
    (viLegal 0x84 f = true → ∃ t, exec (.moviS32 h f) s = .next t ∧
      s.underWay t h f.pred 2 4 (fun _ => (.v f.d (packLanes (List.replicate 32 (wrap 32 (sgn 16 f.imm)))), 0))) ∧
    (viLegal 0x85 f = true → ∃ t, exec (.moviF32 h f) s = .next t ∧
      s.underWay t h f.pred 2 4 (fun _ => (.v f.d (packLanes (List.replicate 32 bf)), 0)))

/-- A legal conversion alone in its bundle issues with its result under way for 4 positions: the narrowing ones replace
the part of the destination that MOD names and keep the rest, the widening ones read that part of the source, and
those that round under mode 2 take their random bits from the Anvil's generator, lane by lane in ascending order.
(R74, R76, R82, R90, R104, R169, R198). -/
def Obligations.ConversionWords : Prop :=
  ∀ (s : State) (h : Hd) (f : VRf), s.sole h [3, 4] →
    let va := fun g => (s.anvil g).vr f.a
    let ls := fun g => (List.range 32).map (lane (va g))
    (∀ op, 0x50 ≤ op → op ≤ 0x53 → vrLegal op f = true → ∃ t, exec (.cvtNarrow h op f) s = .next t ∧
      s.underWayDraw t h f.pred 4 5 (fun g st =>
        let fmt := if op = 0x50 then bf16 else if op = 0x51 then fp16 else if op = 0x52 then e4m3 else e5m2
        let r := cvtLanes f.rm (fun m x => ((fmt.convertV m (f32 x)).1, (fmt.convertV m (f32 x)).2 ||| nanIn x)) (ls g) st
        (.v f.d (partPut ((s.anvil g).vr f.d) (if op ≤ 0x51 then 16 else 8) f.mod r.1), r.2.1, r.2.2))) ∧
    (vrLegal 0x54 f = true → ∃ t, exec (.cvtS32F32 h f) s = .next t ∧
      s.underWayDraw t h f.pred 4 5 (fun g st =>
        let r := cvtLanes f.rm (fun m x => (wrap 32 (toInteger 32 m (f32 x)).1, (toInteger 32 m (f32 x)).2 ||| nanIn x)) (ls g) st
        (.v f.d (packLanes r.1), r.2.1, r.2.2))) ∧
    (∀ op, 0x55 ≤ op → op ≤ 0x56 → vrLegal op f = true → ∃ t, exec (.cvtIntNarrow h op f) s = .next t ∧
      s.underWay t h f.pred 4 5 (fun g =>
        let w := if op = 0x55 then 8 else 4
        (.v f.d (partPut ((s.anvil g).vr f.d) w f.mod ((ls g).map (fun x => wrap w (satS w (sgn 32 x)).1))),
          (ls g).foldl (fun acc x => acc ||| flagIf (satS w (sgn 32 x)).2 fIntSat) 0))) ∧
    (∀ op, 0x58 ≤ op → op ≤ 0x5E → op ≠ 0x5C → vrLegal op f = true → ∃ t, exec (.cvtWiden h op f) s = .next t ∧
      s.underWay t h f.pred 4 5 (fun g =>
        let fmt := if op = 0x58 then bf16 else if op = 0x59 then fp16 else if op = 0x5A then e4m3 else e5m2
        let w := if op ≤ 0x59 then 16 else if op = 0x5E then 4 else 8
        let el := (List.range 32).map (fun l => elemAt (va g) w (32 * f.mod + l))
        (.v f.d (packLanes (el.map (fun x => if 0x5D ≤ op then wrap 32 (sgn w x) else (fp32.convertV .rne (fmt.decode x)).1))),
          el.foldl (fun acc x => acc ||| if 0x5D ≤ op then 0 else flagIf (fmt.decode x == .nan) fNanIn) 0))) ∧
    (vrLegal 0x5C f = true → ∃ t, exec (.cvtF32S32 h f) s = .next t ∧
      s.underWayDraw t h f.pred 4 5 (fun g st =>
        let r := cvtLanes f.rm (fun m x => fp32.convertV m (intVal (sgn 32 x) 0)) (ls g) st
        (.v f.d (packLanes r.1), r.2.1, r.2.2)))

/-- A legal microscaling word alone in its bundle issues with its result under way for 4 positions: mxq quantises the 32
lanes to the element type under the scale byte of B into the part MOD names, drawing as its mode says; mxdq converts
each element of that part times the scale to FP32, with the conversion's flags; mxsc writes the scale byte of the
lanes into byte IMM. (R58, R59, R82, R104, R170, R198). -/
def Obligations.MicroscalingWords : Prop :=
  (∀ (s : State) (h : Hd) (f : VRf), s.sole h [3, 4] →
    let va := fun g => (s.anvil g).vr f.a
    let scale := fun g => elemAt ((s.anvil g).vr f.b) 8 0
    (∀ op, 0x60 ≤ op → op ≤ 0x65 → vrLegal op f = true → ∃ t, exec (.mxq h op f) s = .next t ∧
      s.underWayDraw t h f.pred 4 5 (fun g st =>
        let r := mxQuant (op - 0x60) f.rm ((List.range 32).map (fun l => f32 (lane (va g) l))) (scale g) st
        (.v f.d (partPut ((s.anvil g).vr f.d) (elemWidth (mxType (op - 0x60))) f.mod r.1), r.2.1, r.2.2))) ∧
    (∀ op, 0x68 ≤ op → op ≤ 0x6D → vrLegal op f = true → ∃ t, exec (.mxdq h op f) s = .next t ∧
      s.underWay t h f.pred 4 5 (fun g =>
        let ty := mxType (op - 0x68)
        let el := (List.range 32).map (fun l => elemAt (va g) (elemWidth ty) (32 * f.mod + l))
        let out := fun x => fp32.convertV .rne (scaled ty x (some (scale g))).1
        (.v f.d (packLanes (el.map (fun x => (out x).1))),
          el.foldl (fun acc x => acc ||| ((scaled ty x (some (scale g))).2 ||| (out x).2)) 0)))) ∧
  (∀ (s : State) (h : Hd) (f : VIf), s.sole h [3, 4] →
    ∀ op, 0x98 ≤ op → op ≤ 0x9D → viLegal op f = true → ∃ t, exec (.mxsc h op f) s = .next t ∧
      s.underWay t h f.pred 4 5 (fun g =>
        let r := mxScale (op - 0x98) ((List.range 32).map (fun l => f32 (lane ((s.anvil g).vr f.a) l)))
        (.v f.d (setElem ((s.anvil g).vr f.d) 8 f.imm r.1), r.2)))

/-- A legal M-slot word alone in its bundle issues and completes in every executing Anvil: an mmac, mcomb, mclr or mrsc
has its bank operation, with the operands as read now, under way to take effect 6 positions on; mrd and mpk have the
rounded columns and the packed states of the bank under way to v[VD] for 5 positions, mtst the sticky flags its opcode
names to p[PD] for 2. A bank operation that takes effect changes its own bank alone: mclr clears it with its exponent,
mrsc rescales it, mcomb combines the state in the vector, mmac adds the products. (R66, R67, R82, R104, R157, R160,
R161, R162, R163, R198, R199). -/
def Obligations.MatrixWords : Prop :=
  (∀ (s : State) (h : Hd) (f : MAf), s.sole h [1, 2] →
    let a := fun g => s.anvil g
    (∀ op, op ≠ 0x10 → maLegal op f = true → ∃ t, exec (.mmac h op f) s = .next t ∧
      s.underWay t h f.pred 6 (if elemWidth op = 16 then 0 else if elemWidth op = 4 then 2 else 1) (fun g =>
        (.mmac f.acc ((a g).vr f.va) ((a g).vr f.vb) ((a g).vr f.vx) op (if f.mod / 16 % 16 = 0 then op else f.mod / 16 % 16)
          (bit f.mod 3) (bit f.mod 1) (bit f.mod 0), 0))) ∧
    (maLegal 0x10 f = true → ∃ t, exec (.mcomb h f) s = .next t ∧
      s.underWay t h f.pred 6 1 (fun g => (.mcomb f.acc ((a g).vr f.va) (f.mod % 128), 0)))) ∧
  (∀ (s : State) (h : Hd) (f : MRf), s.sole h [1, 2] →
    (mrLegal 0x40 f = true → ∃ t, exec (.mrd h f) s = .next t ∧
      s.underWayDraw t h f.pred 5 3 (fun g st =>
        let r := mrdRow ((s.anvil g).bank f.acc) f.sel (sgn 8 f.mofs) f.rm f.tf st
        (.v f.vd r.1, r.2.1, r.2.2))) ∧
    (mrLegal 0x41 f = true → ∃ t, exec (.mpk h f) s = .next t ∧
      s.underWay t h f.pred 5 3 (fun g => (.v f.vd (mpkRow ((s.anvil g).bank f.acc) (f.sel + 32 * f.mod)), 0)))) ∧
  (∀ (s : State) (h : Hd) (f : MCf), s.sole h [1, 2] →
    (mcLegal 0x60 f = true → ∃ t, exec (.mclr h f) s = .next t ∧
      s.underWay t h f.pred 6 3 (fun _ => (.mclr f.acc (BitVec.ofNat 10 f.exp), 0))) ∧
    (mcLegal 0x61 f = true → ∃ t, exec (.mrsc h f) s = .next t ∧
      s.underWay t h f.pred 6 3 (fun _ => (.mrsc f.acc (BitVec.ofNat 10 f.exp), 0))) ∧
    (∀ op, 0x62 ≤ op → op ≤ 0x65 → mcLegal op f = true → ∃ t, exec (.mtst h op f) s = .next t ∧
      s.underWay t h f.pred 2 3 (fun g =>
        let b := (s.anvil g).bank f.acc
        (.p f.pd (if op = 0x62 then b.nx else if op = 0x63 then b.ovf else if op = 0x64 then b.sp
          else b.nx || b.ovf || b.sp), 0)))) ∧
  -- the bank operations, as they take effect
  (∀ (s : State) (g b : Nat),
    let bank := fun (t : State) (c : Nat) => (t.anvil g).bank c
    let alone := fun (t : State) => (∀ c, c ≠ b → bank t c = bank s c) ∧ (∀ k, k ≠ g → t.anvil k = s.anvil k) ∧ t.mem = s.mem
    (∀ x, let t := s.commit (.anvil g (.mclr b x) 0)
      alone t ∧ bank t b = Bank.clear x ∧ t.csr = s.csr) ∧
    (∀ x, let t := s.commit (.anvil g (.mrsc b x) 0)
      alone t ∧ bank t b = (mrscBank (bank s b) x).1) ∧
    (∀ v k, let t := s.commit (.anvil g (.mcomb b v k) 0)
      alone t ∧ bank t b = (mcombBank (bank s b) v k).1) ∧
    ∀ va vb vx ta tb neg bs ha, let t := s.commit (.anvil g (.mmac b va vb vx ta tb neg bs ha) 0)
      alone t ∧ bank t b = (mmacBank (bank s b) va vb vx ta tb neg bs ha).1)

/-- A legal scalar word alone in its bundle issues: add, sub (signed and unsigned, clamped to the range), the bitwise
operations, the shifts by the low 6 bits, addi, movi and rdbc give s[D] at the next position, mul two positions later;
INT_SAT is set exactly where the exact result does not fit; nothing else changes. (R86, R87, R102, R155, R190, R198). -/
def Obligations.ScalarWords : Prop :=
  ∀ (s : State) (h : Hd) (f : CSf), s.sole h [0] →
    let a := s.sreg f.a
    let b := s.sreg f.b
    let clampS := fun (v : Int) => BitVec.ofInt 64 (max (-2 ^ 63) (min (2 ^ 63 - 1) v))
    let clampU := fun (v : Int) => BitVec.ofInt 64 (max 0 (min (2 ^ 64 - 1) v))
    let outS := fun (v : Int) => decide (v < -2 ^ 63 ∨ 2 ^ 63 - 1 < v)
    let outU := fun (v : Int) => decide (v < 0 ∨ 2 ^ 64 - 1 < v)
    (csLegal 0x48 f = true → ∃ t, exec (.sArith h 0x48 f) s = .next t ∧
      s.wrote t h f.d (clampS (a.toInt + b.toInt)) (outS (a.toInt + b.toInt))) ∧
    (csLegal 0x49 f = true → ∃ t, exec (.sArith h 0x49 f) s = .next t ∧
      s.wrote t h f.d (clampS (a.toInt - b.toInt)) (outS (a.toInt - b.toInt))) ∧
    (csLegal 0x4A f = true → ∃ t, exec (.sArith h 0x4A f) s = .next t ∧
      s.willWrite t h 3 f.d (clampS (a.toInt * b.toInt)) (outS (a.toInt * b.toInt))) ∧
    (csLegal 0x4B f = true → ∃ t, exec (.sArith h 0x4B f) s = .next t ∧
      s.wrote t h f.d (clampU (a.toNat + b.toNat)) (outU (a.toNat + b.toNat))) ∧
    (csLegal 0x4C f = true → ∃ t, exec (.sArith h 0x4C f) s = .next t ∧
      s.wrote t h f.d (clampU (a.toNat - b.toNat)) (outU (a.toNat - b.toNat))) ∧
    (csLegal 0x4D f = true → ∃ t, exec (.sArith h 0x4D f) s = .next t ∧
      s.willWrite t h 3 f.d (clampU (a.toNat * b.toNat)) (outU (a.toNat * b.toNat))) ∧
    (∀ op, 0x4E ≤ op → op ≤ 0x50 → csLegal op f = true → ∃ t, exec (.sBitwise h op f) s = .next t ∧
      s.wrote t h f.d (if op = 0x4E then a &&& b else if op = 0x4F then a ||| b else a ^^^ b) false) ∧
    (∀ op, 0x51 ≤ op → op ≤ 0x53 → csLegal op f = true → ∃ t, exec (.sShift h op f) s = .next t ∧
      s.wrote t h f.d (if op = 0x51 then a <<< (b.toNat % 64) else if op = 0x52 then a >>> (b.toNat % 64)
        else a.sshiftRight (b.toNat % 64)) false) ∧
    (csLegal 0x54 f = true → ∃ t, exec (.addiS64 h f) s = .next t ∧
      s.wrote t h f.d (clampS (a.toInt + sgn 24 f.imm)) (outS (a.toInt + sgn 24 f.imm))) ∧
    (csLegal 0x55 f = true → ∃ t, exec (.moviS64 h f) s = .next t ∧
      s.wrote t h f.d (BitVec.ofInt 64 (sgn 24 f.imm)) false) ∧
    (csLegal 0x5B f = true → ∃ t, exec (.rdbc h f) s = .next t ∧
      s.wrote t h f.d (BitVec.ofNat 64 s.hammer.pos) false) ∧
    (csLegal 0x5A f = true → ∃ t, exec (.pcount h f) s = .next t ∧
      s.willWrite t h 12 f.d (BitVec.ofNat 64 ((List.range 160).filter (fun g =>
        s.effMask.getLsbD g && (s.anvil g).p.getLsbD f.imm)).length) false)

/-- amask.set replaces the 16 mask bits of one Hearth, amask.set.all those of all ten, visible at the next position; the
other bits, every register and all memory are unchanged. (R103, R155, R198). -/
def Obligations.MaskWords : Prop :=
  ∀ (s : State) (h : Hd) (f : CSf), s.sole h [0] →
    let frame := fun (t : State) => s.movedOn t h ∧ t.hammer.s = s.hammer.s ∧ t.hammer.flight = [] ∧ t.hammer.redirs = [] ∧
      t.hammer.faults = [] ∧ t.hammer.ending = none ∧
      ∀ a, a ≠ HAMMER_ISSUECNT → a ≠ HAMMER_PCSTAT → t.rd a = s.rd a
    (csLegal 0x42 f = true → ∃ t, exec (.amaskSet h f) s = .next t ∧ frame t ∧
      ∀ g, g < 160 → t.hammer.amask.getLsbD g = if g / 16 = f.h then f.imm.testBit (g % 16) else s.hammer.amask.getLsbD g) ∧
    (csLegal 0x43 f = true → ∃ t, exec (.amaskSetAll h f) s = .next t ∧ frame t ∧
      ∀ g, g < 160 → t.hammer.amask.getLsbD g = f.imm.testBit (g % 16))

/-- A legal branch alone in its bundle issues. br redirects the bundle at position n + 3 when its condition holds on the
signed or unsigned operands, dbnz decrements with saturation at 0 and redirects unless the result is 0, brl redirects
and links the address after its second delay bundle, br.ind redirects to a register of at most 19 bits and otherwise
meets FETCH_RANGE. No other register and no byte of memory changes. (R127, R154, R198, R204, R211). -/
def Obligations.BranchWords : Prop :=
  ∀ (s : State) (h : Hd) (f : CBf), s.sole h [0] →
    let a := s.sreg f.sa
    let b := s.sreg f.sb
    let jumps := fun (t : State) (tgt : Nat) => t.hammer.redirs = [(s.hammer.pos + 3, tgt)]
    let frame := fun (t : State) => s.movedOn t h ∧ t.hammer.amask = s.hammer.amask ∧ t.hammer.flight = [] ∧
      t.hammer.ending = none
    (cbLegal 1 f = true → ∃ t, exec (.br h f) s = .next t ∧ frame t ∧ t.hammer.s = s.hammer.s ∧ t.hammer.faults = [] ∧
      if (match f.cc with
        | 0 => true
        | 1 => a == b
        | 2 => a != b
        | 3 => decide (a.toInt < b.toInt)
        | 4 => decide (b.toInt ≤ a.toInt)
        | 5 => decide (a.toNat < b.toNat)
        | _ => decide (b.toNat ≤ a.toNat)) = true then jumps t f.tgt else t.hammer.redirs = []) ∧
    (cbLegal 2 f = true → ∃ t, exec (.dbnz h f) s = .next t ∧ frame t ∧ t.hammer.faults = [] ∧
      t.sreg f.sa = BitVec.ofNat 64 (a.toNat - 1) ∧ (∀ n, n ≠ f.sa → t.sreg n = s.sreg n) ∧
      (a = 0 → t.get HAMMER_SFLAGS_INT_SAT = 1) ∧ (a ≠ 0 → t.get HAMMER_SFLAGS_INT_SAT = s.get HAMMER_SFLAGS_INT_SAT) ∧
      if a.toNat ≤ 1 then t.hammer.redirs = [] else jumps t f.tgt) ∧
    (cbLegal 3 f = true → ∃ t, exec (.brl h f) s = .next t ∧ frame t ∧ t.hammer.faults = [] ∧ jumps t f.tgt ∧
      t.sreg f.sb = BitVec.ofNat 64 (s.linkValue s.hammer.pos (h.len + 1)) ∧ ∀ n, n ≠ f.sb → t.sreg n = s.sreg n) ∧
    (cbLegal 4 f = true → ∃ t, exec (.brInd h f) s = .next t ∧ frame t ∧ t.hammer.s = s.hammer.s ∧
      if a.toNat < 2 ^ 19 then jumps t a.toNat ∧ t.hammer.faults = []
      else t.hammer.redirs = [] ∧ t.hammer.faults =
        [⟨s.hammer.pos, s.hammer.pos + 2, 0, ⟨0x03, s.hammer.pc, 255, 0, 0, 0, 255⟩⟩])

/-- wait and waitm whose tokens count 0 and have not failed issue like a nop; where a token still counts, issue is held
and nothing of the bundle happens; where a failed token is waited for with count 0, the job ends with the cause of the
first failing operation. A held wait whose tokens have reached 0 issues when the stall ends, and so does a bundle held
for admission that now finds room. nop changes nothing beside the position. (R100, R114, R150, R155, R192, R193). -/
def Obligations.WaitWords : Prop :=
  let quiet := fun (s t : State) (h : Hd) => s.movedOn t h ∧ t.hammer.s = s.hammer.s ∧ t.hammer.amask = s.hammer.amask ∧
      t.hammer.flight = [] ∧ t.hammer.redirs = [] ∧ t.hammer.faults = [] ∧ t.hammer.ending = none
  -- the waits, with the mask of tokens they name
  let wait := fun (s : State) (h : Hd) (f : CSf) (i : Instr) (m : Nat) => s.sole h [0] →
      let tokens := (List.range 16).filter (fun k => m.testBit k)
      ((∀ k ∈ tokens, (s.tok k).count = 0 ∧ (s.tok k).fail = none) → ∃ t, exec i s = .next t ∧ quiet s t h) ∧
      ((∃ k ∈ tokens, (s.tok k).count ≠ 0) → ∃ t, exec i s = .next t ∧ t.hammer.stall = some (.wait m) ∧
        t.hammer.pos = s.hammer.pos ∧ t = { s with hammer := t.hammer } ∧
        t.hammer = { s.hammer with cur := t.hammer.cur, stall := t.hammer.stall, stallAt := t.hammer.stallAt }) ∧
      (∀ k ∈ tokens, ∀ x, (s.tok k).fail = some x → (∀ j ∈ tokens, (s.tok j).count = 0) →
        (∀ j ∈ tokens, j ≠ k → (s.tok j).fail = none ∨ (s.tok k).failAt < (s.tok j).failAt) →
        ∃ t, exec i s = .next t ∧ t.hammer.ending = some (some x) ∧ t.hammer.open_ = false)
  (∀ (s : State) (h : Hd) (f : CSf), csLegal 0x40 f = true → wait s h f (.waitm h f) (f.imm % 2 ^ 16)) ∧
  (∀ (s : State) (h : Hd) (f : CSf), csLegal 0x41 f = true → wait s h f (.wait h f) (2 ^ f.d)) ∧
  (∀ (s : State) (h : Hd), s.sole h (List.range 10) → ∃ t, exec (.nop h none) s = .next t ∧ quiet s t h) ∧
  (∀ (s : State) (w : Stall), s.hammer.stall = some w → s.verdict = .ok → s.hammer.cur.effs = [] → s.hammer.cur.stop = false →
    (∀ k ∈ (List.range 16).filter (fun k => s.hammer.cur.wait.testBit k), (s.tok k).count = 0 ∧ (s.tok k).fail = none) →
    s.hammer.flight = [] → s.hammer.faults = [] → s.hammer.marker = none → s.hammer.start = none →
    (∀ m, w = .wait m → ∃ t, exec .stallEnd s = .next t ∧ t.hammer.stall = none ∧ t.hammer.pos = s.hammer.pos + 1 ∧
      t.mem = s.mem ∧ t.anvils = s.anvils ∧ t.hammer.s = s.hammer.s ∧ t.hammer.tok = s.hammer.tok) ∧
    (w = .admission → ∃ t, exec .admission s = .next t ∧ t.hammer.stall = none ∧ t.hammer.pos = s.hammer.pos + 1 ∧
      t.mem = s.mem ∧ t.anvils = s.anvils ∧ t.hammer.s = s.hammer.s ∧ t.hammer.tok = s.hammer.tok))

/-- A legal ldc or ldcx alone in its bundle gives s[D] the constant at its index two positions on; ldm reads 8 bytes of a
store sixteen positions on; stm stores 8 bytes, visible at the next position, and no other byte changes. An index
outside the pool, an address that is misaligned or outside the stores, and an uncorrectable error end the job with the
cause the rules name. (R10, R153, R155, R156, R198, R200, R211). -/
def Obligations.ConstantAndMemoryWords : Prop :=
  ∀ (s : State) (h : Hd) (f : CSf), s.sole h [0] →
    let const := fun (i : Instr) (n : Nat) => ∀ img, s.runImage = some img →
      let addr := img.addr + img.constOff + 8 * n
      (8 * n + 8 ≤ img.constBytes → s.ueIn addr 8 = none → ∃ t, exec i s = .next t ∧
        s.willWrite t h 2 f.d (BitVec.ofNat 64 (s.readN addr 8)) false) ∧
      (8 * n + 8 ≤ img.constBytes → s.ueIn addr 8 ≠ none → ∃ t, exec i s = .next t ∧ s.failed t 0x04) ∧
      (img.constBytes < 8 * n + 8 → ∃ t, exec i s = .next t ∧ s.failed t 0x13)
    let a := s.cAddr f
    (csLegal 0x56 f = true → const (.ldc h f) f.imm) ∧
    (csLegal 0x57 f = true → const (.ldcx h f) ((s.sreg f.a).toNat + f.imm)) ∧
    (csLegal 0x58 f = true →
      (s.cAddrOk a = true → s.ueIn a 8 = none → ∃ t, exec (.ldm h f) s = .next t ∧
        s.willWrite t h 16 f.d (BitVec.ofNat 64 (s.readN a 8)) false) ∧
      (s.cAddrOk a = false → ∃ t, exec (.ldm h f) s = .next t ∧ s.failed t 0x12)) ∧
    (csLegal 0x59 f = true →
      (s.cAddrOk a = true → ∃ t, exec (.stm h f) s = .next t ∧ s.handed t h ∧ t.hammer.flight = [] ∧
        (∀ i, i < 8 → t.byte (a + i) = BitVec.ofNat 8 ((s.sreg f.b).toNat / 2 ^ (8 * i))) ∧
        (∀ x, ¬ (a ≤ x ∧ x < a + 8) → t.byte x = s.byte x) ∧
        (s.hammer.descs = [] → t = { s with csr := t.csr, hammer := t.hammer, mem := t.mem, errs := t.errs, wb := t.wb })) ∧
      (s.cAddrOk a = false → ∃ t, exec (.stm h f) s = .next t ∧ s.failed t 0x12))

/-- A legal L-slot word alone in its bundle acts in every executing Anvil at its own effective address, in the Anvil store
or the Hearth store, and has its activity under way to be counted in stage E. A load gives the register the row or 8
bytes read, 4 positions on (Hearth store 8); a store changes the bytes of its row or 8 bytes at the next position and
no others; the post-updating form adds the step to the base register, saturating, 2 positions on. An address that is
misaligned or outside the store is L_ADDR in that Anvil, found 6 positions on. (R89, R125, R126, R172, R173, R174,
R198, R200, R211, R625). -/
def Obligations.StoreAccessWords : Prop :=
  ∀ (s : State) (h : Hd) (f : LSf) (op : Nat), s.sole h [5, 6] → lsLegal (h.slot = 5) op f = true → noDup (lsDests (h.slot = 5) op f) = true →
    let ex := s.executing f.pred
    let len := if op ≤ 4 then 128 else 8
    let base := fun (hearth : Bool) (g : Nat) => if hearth then hearthBase (g / 16) else anvilBase g
    let addr := fun (hearth : Bool) (g : Nat) => base hearth g + (lsEa (s.anvil g) f).toNat
    let good := fun (hearth : Bool) => ∀ g ∈ ex, lsEaOk hearth g (lsEa (s.anvil g) f) = true ∧
      s.reachable (region (addr hearth g)) = true
    -- the activity of class 7 or 8, counted in stage E
    let act := fun (hearth : Bool) (g : Nat) => (⟨s.hammer.pos + actLag g, .act g (if hearth then 8 else 7)⟩ : Flight)
    let post : List Flight := if f.am = 1 then ex.map (fun g =>
      let r := intOp 64 false .add ((s.anvil g).kr f.kb).toNat ((s.anvil g).kr f.ks).toNat
      ⟨s.hammer.pos + 2, .anvil g (.k f.kb (BitVec.ofNat 64 r.1)) (flagIf r.2 fIntSat)⟩) else []
    let load := fun (i : Instr) (hearth : Bool) (lat : Nat) => good hearth → (∀ g ∈ ex, s.ueIn (addr hearth g) len = none) →
      ∃ t, exec i s = .next t ∧ s.handed t h ∧ (∀ x, t.byte x = s.byte x) ∧
        t.hammer.flight = ex.flatMap (fun g => [act hearth g, ⟨s.hammer.pos + lat, .anvil g
          (let x := s.readN (addr hearth g) len
           if op ≤ 4 then .v f.dr (BitVec.ofNat 1024 x) else if op ≤ 8 then .g f.dr (BitVec.ofNat 64 x)
           else .k f.dr (BitVec.ofNat 64 x)) 0⟩]) ++ post
    let store := fun (i : Instr) (hearth : Bool) => good hearth →
      let val := fun g => if op ≤ 4 then ((s.anvil g).vr f.dr).toNat else if op ≤ 8 then ((s.anvil g).gr f.dr).toNat
        else ((s.anvil g).kr f.dr).toNat
      ∃ t, exec i s = .next t ∧ s.handed t h ∧ t.hammer.flight = ex.map (act hearth) ++ post ∧
        (∀ x, (∀ g ∈ ex, ¬ (addr hearth g ≤ x ∧ x < addr hearth g + len)) → t.byte x = s.byte x) ∧
        ∀ g ∈ ex, (∀ k ∈ ex, g < k → addr hearth k + len ≤ addr hearth g ∨ addr hearth g + len ≤ addr hearth k) →
          ∀ i, i < len → t.byte (addr hearth g + i) = BitVec.ofNat 8 (val g / 2 ^ (8 * i))
    let bad := fun (i : Instr) (hearth : Bool) => ∃ t, exec i s = .next t ∧
      ∀ g ∈ ex, lsEaOk hearth g (lsEa (s.anvil g) f) = false →
        ∃ x ∈ t.hammer.faults, x.pos = s.hammer.pos ∧ x.detect = s.hammer.pos + 6 ∧ x.slot = h.slot ∧
          x.fail.cause = 0x10 ∧ x.fail.fanvil = g
    (op ∈ [1, 5, 9] → load (.ldA h op f) false 4 ∧ bad (.ldA h op f) false) ∧
    (op ∈ [2, 6, 10] → store (.stA h op f) false ∧ bad (.stA h op f) false) ∧
    (op ∈ [3, 7, 11] → load (.ldH h op f) true 8 ∧ bad (.ldH h op f) true) ∧
    (op ∈ [4, 8, 12] → store (.stH h op f) true ∧ bad (.stH h op f) true)

/-- In an open pulse frame a legal exchange word alone in its bundle raises its token once for each unit it addresses and
puts one operation at the end of each addressed unit's queue: its own Hearth's, or with broadcast every Hearth with a
masked Anvil, each address advanced by its unit's number times the step. A Crucible command whose descriptor is
aligned, readable and legal joins the normal or the high-priority queue of its stack under the next sequence number;
one refused there fails its token. No register and no byte of memory changes. (R34, R101, R129, R130, R150, R176,
R179, R181, R182, R286, R321, R405). -/
def Obligations.ExchangeWords : Prop :=
  (∀ (s : State) (h : Hd) (f : XEf), s.sole h [7] → s.hammer.recent = [] → s.frameOpen = true →
    let units := if f.bc = 0 then [f.hid] else (List.range 10).filter (fun u => s.hearthField u != 0)
    (∀ u ∈ units, (s.xqOf u).length < 32) → (s.tok f.tok).count + units.length ≤ 255 →
    let step := if f.bc = 0 then 0 else (s.sreg f.ss).toNat
    let adv := fun (a : Word) (u : Nat) => min (a.toNat + u * step) (2 ^ 64 - 1)
    let queued := fun (i : Instr) (kind : XKind) (src dst : Nat → Nat) => ∃ t, exec i s = .next t ∧ s.handed t h ∧
      t.hammer.flight = [] ∧ (∀ x, t.byte x = s.byte x) ∧ (t.tok f.tok).count = (s.tok f.tok).count + units.length ∧
      (∀ k, k ≠ f.tok → t.tok k = s.tok k) ∧
      ∀ u, if u ∈ units then ∃ o, t.xqOf u = s.xqOf u ++ [o] ∧ o.kind = kind ∧ o.tok = f.tok ∧
          o.job = s.hammer.run.getD 0 ∧ o.src = src u ∧ o.dst = dst u ∧ o.shape = s.sreg f.sl ∧ o.stale = []
        else t.xqOf u = s.xqOf u
    (∀ op, 1 ≤ op → op ≤ 9 → xeLegal op f = true →
      queued (.xfer h op f) (.xfer op) (adv (s.sreg f.sa)) (adv (s.sreg f.sd))) ∧
    (xeLegal 0x0A f = true → queued (.xfillHbm h f) .fill (fun _ => (s.sreg f.sa).toNat) (adv (s.sreg f.sd))) ∧
    (xeLegal 0x10 f = true → queued (.xfence h f) (.fence (f.mod % 2 == 1))
      (fun u => s.get (CRUC_CSEQ_NEXT (2 * u))) (fun u => s.get (CRUC_CSEQ_NEXT (2 * u + 1))))) ∧
  (∀ (s : State) (h : Hd) (f : XCf), s.sole h [7] → s.hammer.recent = [] → s.frameOpen = true → f.bc = 0 → f.stk < 20 → (s.tok f.tok).count < 255 →
    let a := (s.sreg f.sa).toNat
    let k := f.stk
    let d := BitVec.ofNat 512 (s.readN a 64)
    a % 64 = 0 → (match region a with | .hearth _ _ => true | .hammer _ => true | _ => false) = true →
    s.rangeOk a 64 = true → s.ueIn a 64 = none → s.fenced k = false →
    let sent := fun (i : Instr) (q : Nat) => s.crucRoom k q = true →
      (descCheck k d = 0 → ∃ t, exec i s = .next t ∧ s.handed t h ∧ (∀ x, t.byte x = s.byte x) ∧
        (t.tok f.tok).count = (s.tok f.tok).count + 1 ∧ (∀ m, m ≠ k → t.cruc m = s.cruc m) ∧
        t.get (CRUC_CSEQ_NEXT k) = (s.get (CRUC_CSEQ_NEXT k) + 1) % 2 ^ 32 ∧
        ∃ x, (t.cruc k).queue q = (s.cruc k).queue q ++ [x] ∧ x.desc = d ∧ x.seq = s.get (CRUC_CSEQ_NEXT k) ∧
          x.src = .job (s.hammer.run.getD 0) f.tok ∧ x.queue = q) ∧
      (descCheck k d ≠ 0 → ∃ t, exec i s = .next t ∧ s.handed t h ∧ t.crucs = s.crucs ∧
        (t.tok f.tok).count = (s.tok f.tok).count ∧ (t.tok f.tok).fail.isSome = true)
    (xcLegal 0x40 f = true → sent (.crcCmd h f) 1) ∧ (xcLegal 0x41 f = true → sent (.crcCmdHi h f) 0))

/-- In an open pulse frame a legal N-slot word alone in its bundle, on an open, cached stream of an accepted type bound to
the job, with the N-slot queue empty and nothing received that waits: sig queues a SIGNAL of its value and code, send
a DATA message of the bytes at its address, recv and rsig post a buffer and offer one more credit, ared.pp offers its
credits and, where it is not empty, queues its first chunk, each with its token raised by one; nfence with nothing
before it completes at once; pace.grp names the job's group without a token. On a stream that is not so, the operation
completes with STREAM_STATE. Other streams, all registers and memory are unchanged. (R34, R101, R150, R153, R185,
R186, R201, R355, R364, R405). -/
def Obligations.StreamWords : Prop :=
  ∀ (s : State) (h : Hd) (f : NSf) (j : Nat), s.sole h [8] → s.hammer.recent = [] → s.hammer.run = some j →
    s.tongs.nq = [] → s.tongs.held = [] → s.frameOpen = true → (s.tok f.tok).count < 255 → s.cached f.strm = true →
    s.fenced (ctxStack f.strm) = false → (s.ctx f.strm).rx = [] → (s.ctx f.strm).inbox = [] →
    let a := (s.sreg f.sa).toNat
    let n := (s.sreg f.sb).toNat
    let c := s.ctx f.strm
    let bound := fun (types : List Nat) => c.tstate = 3 ∧ c.typ ∈ types ∧ ∃ b, s.job j = some b ∧ b.key = c.jobkey ∧ b.key ≠ 0
    let frame := fun (t : State) => s.handed t h ∧ t.hammer.flight = [] ∧ (∀ x, t.byte x = s.byte x) ∧
      (∀ m, m ≠ f.strm → t.ctx m = s.ctx m) ∧ (∀ k, k ≠ f.tok → t.tok k = s.tok k)
    let up := fun (t : State) => (t.tok f.tok).count = (s.tok f.tok).count + 1 ∧ (t.tok f.tok).fail = (s.tok f.tok).fail
    let said := fun (t : State) (opc : Nat) (data : List Byte) => ∃ m, (t.ctx f.strm).txq = c.txq ++ [m] ∧ m.opc = opc ∧
      m.resp = false ∧ m.data = data ∧ m.msn = none ∧ m.src = none
    -- the first of the messages queued, whose bytes are read from memory as they are framed
    let said1 := fun (t : State) (opc b len : Nat) => ∃ m l, (t.ctx f.strm).txq = c.txq ++ m :: l ∧ m.opc = opc ∧
      m.resp = false ∧ m.msn = none ∧ m.src = some ⟨b, len, []⟩
    let posted := fun (t : State) (len : Nat) (sg : Bool) => ∃ p, (t.ctx f.strm).posted = c.posted ++ [p] ∧ p.addr = a ∧
      p.len = len ∧ p.sig = sg ∧ p.tok = f.tok ∧ (t.ctx f.strm).ownclim = (c.ownclim + 1) % 2 ^ 32
    let sized := 1 ≤ n ∧ n ≤ 65536
    let unbound := fun (i : Instr) (types : List Nat) => ¬ bound types → ∃ t, exec i s = .next t ∧ frame t ∧
      (t.tok f.tok).count = (s.tok f.tok).count ∧ (t.tok f.tok).fail.isSome = true ∧
      ((s.tok f.tok).fail = none → ∃ x, (t.tok f.tok).fail = some x ∧ x.cause = 0x40)
    (nsLegal 1 f = true → (bound [5] → ∃ t, exec (.sig h f) s = .next t ∧ frame t ∧ up t ∧
      said t 1 (toBytes 8 a ++ toBytes 8 f.imm)) ∧ unbound (.sig h f) [5]) ∧
    (nsLegal 2 f = true → (bound [3, 6] → sized → s.tongsMem a n = true →
      ∃ t, exec (.send h f) s = .next t ∧ frame t ∧ up t ∧ said1 t 0 a n) ∧ unbound (.send h f) [3, 6]) ∧
    (nsLegal 3 f = true → (bound [2, 6] → sized → s.tongsMem a n = true → c.posted.length < 4 →
      ∃ t, exec (.recv h f) s = .next t ∧ frame t ∧ up t ∧ posted t n false) ∧ unbound (.recv h f) [2, 6]) ∧
    (nsLegal 4 f = true → (bound [6] → sized → chunkMax (groupOf f.strm).1 n ≤ 65536 → s.tongsMem a (16 * n) = true →
      let ch := chunk (groupOf f.strm).1 n (aredSend (groupOf f.strm).1 (groupOf f.strm).2 0)
      ∃ t, exec (.aredPp h f) s = .next t ∧ frame t ∧ up t ∧
        (t.ctx f.strm).ownclim = (c.ownclim + 2 * ((groupOf f.strm).1 - 1)) % 2 ^ 32 ∧
        (ch.2 ≠ 0 → said1 t 2 (a + ch.1) ch.2)) ∧ unbound (.aredPp h f) [6]) ∧
    (nsLegal 7 f = true → (bound [5] → a % 8 = 0 → s.tongsMem a 8 = true → 0x200000000000 ≤ a → a < 0x220000000000 →
      c.posted.length < 4 → ∃ t, exec (.rsig h f) s = .next t ∧ frame t ∧ up t ∧ posted t 8 true) ∧ unbound (.rsig h f) [5]) ∧
    (nsLegal 6 f = true → (bound [1, 2, 3, 4, 5, 6] → ∃ t, exec (.nfence h f) s = .next t ∧ frame t ∧
      t.tok f.tok = s.tok f.tok ∧ t.tongs.nq = []) ∧ unbound (.nfence h f) [1, 2, 3, 4, 5, 6]) ∧
    (nsLegal 5 f = true → bound [6] → ∃ t, exec (.paceGrp h f) s = .next t ∧ frame t ∧ t.tok f.tok = s.tok f.tok ∧
      t.hammer.group = some f.strm ∧ t.hammer.follow = (f.imm == 1))

/-- A legal T-slot word alone in its bundle issues and completes. heat of an image's heat whose entry can be read clears
the power hint and leaves its marker; of a heat the image does not have it ends the job with HEAT_ID; where the entry
cannot be read the bundle meets FETCH_ECC two positions on; with a JOB_CANCEL waiting the job ends CANCELLED at this
bundle. opreq requests its operating point. snap requests a snapshot with its tag at this position, or joins the one
that is pending, which MERGED counts, giving it its tag where no other snap had joined and the launch is no later.
phint stores its power hint, at most 1,600 W. No register and no byte of memory changes where the word completes.
(R153, R187, R188, R205, R221, R229, R390, R413, R421, R627). -/
def Obligations.TemperWords : Prop :=
  ∀ (s : State) (h : Hd) (f : TTf), s.sole h [9] →
    let frame := fun (t : State) => s.handed t h ∧ t.hammer.flight = [] ∧ ∀ x, t.byte x = s.byte x
    (ttLegal 1 f = true → ∀ j i, s.hammer.run.bind s.job = some j → s.runImage = some i →
      (i.heatCount ≤ f.heat → ∃ t, exec (.heat h f) s = .next t ∧ s.failed t 0x06) ∧
      (f.heat < i.heatCount → s.ueIn (i.heatAddr f.heat) 64 = none → j.cancel = [] →
        ∃ t m, exec (.heat h f) s = .next t ∧ frame t ∧ t.temper.reqHint = 0 ∧ t.temper.reqOp = s.temper.reqOp ∧
          t.hammer.marker = some m ∧ m.pos = s.hammer.pos ∧ m.heat = f.heat) ∧
      (f.heat < i.heatCount → s.ueIn (i.heatAddr f.heat) 64 = none → j.cancel ≠ [] →
        ∃ t x, exec (.heat h f) s = .next t ∧ t.hammer.ending = some (some x) ∧ x.cause = cCANCELLED ∧
          t.hammer.open_ = false) ∧
      (f.heat < i.heatCount → s.stopAhead i (h.len + 1) = false → s.ueIn (i.heatAddr f.heat) 64 ≠ none →
        ∃ t x, exec (.heat h f) s = .next t ∧ t.hammer.faults = [x] ∧ x.pos = s.hammer.pos ∧ x.detect = s.hammer.pos + 2 ∧
          x.fail.cause = 0x04 ∧ t.hammer.ending = none)) ∧
    (ttLegal 2 f = true → ∃ t, exec (.opreq h f) s = .next t ∧ frame t ∧ t.hammer.marker = none ∧
      t.temper = { s.temper with reqOp := f.opt }) ∧
    (ttLegal 3 f = true → ∃ t, exec (.tSnap h f) s = .next t ∧ frame t ∧ t.hammer.marker = none ∧ t.temper = s.temper ∧
      match s.snapReq with
      | none => t.snapReq = some ⟨1, f.imm, s.get TONGS_JOBSTAT_RUNJOB, s.hammer.pos, s.cyc⟩
      | some r =>
        t.get HAMMER_SNAPCTL_MERGED = min (s.get HAMMER_SNAPCTL_MERGED + 1) 65535 ∧
        ∃ q, t.snapReq = some q ∧ q.src = r.src ||| 1 ∧ q.at_ = r.at_ ∧ q.job = r.job ∧
          if s.cyc ≤ r.at_ ∧ r.src % 2 = 0 then q.tag = f.imm ∧ q.pos = s.hammer.pos else q.tag = r.tag ∧ q.pos = r.pos) ∧
    (ttLegal 4 f = true → ∃ t, exec (.phint h f) s = .next t ∧ frame t ∧ t.hammer.marker = none ∧
      t.temper = { s.temper with reqHint := min f.imm 1600 })

/-- STOP alone in its bundle issues the bundle and ends issue for the job without a failure. The job whose issue has ended
leaves Hammer once every token counts 0: it leaves the job table, Hammer idles, the job counts as done or, with its
own failure, as failed with a record of its cause, and no byte outside its completion record changes. (R116, R135,
R151, R393, R394). -/
def Obligations.JobEnds : Prop :=
  (∀ (s : State) (len : Nat), s.sole ⟨0, true, len⟩ [0] →
    s.runs (.stop len) (fun t => t.hammer.ending = some none ∧ t.hammer.open_ = false ∧ t.hammer.pos = s.hammer.pos + 1 ∧
      t.hammer.run = s.hammer.run ∧ t.hammer.s = s.hammer.s ∧ t.hammer.amask = s.hammer.amask ∧ t.anvils = s.anvils ∧
      t.jobs = s.jobs ∧ ∀ a, t.byte a = s.byte a)) ∧
  (∀ (s : State) (t id : Nat) (f : Option Fail) (j : Job), s.hammer.ending = some f → s.hammer.run = some id →
    s.hammer.tok.all (fun p => p.2.count == 0) = true → s.job id = some j → (f = none → s.waitFail (2 ^ 16 - 1) = none) →
    s.runs (.jobEnd t) (fun v => v.hammer.run = none ∧ v.hammer.ending = none ∧ v.job id = none ∧
      (∀ k, k ≠ id → (v.job k).isSome = (s.job k).isSome) ∧ v.get TONGS_JOBSTAT_RUNJOB = 255 ∧ v.get HAMMER_PCSTAT_RUN = 0 ∧
      v.hammer.avail = s.hammer.avail ∧ v.anvils = s.anvils ∧ s.recordOnly v j ∧
      (match f with
        | none => v.get HAMMER_JOBCNT_DONE = min (s.get HAMMER_JOBCNT_DONE + 1) (2 ^ 32 - 1) ∧
            v.get HAMMER_JOBCNT_FAILED = s.get HAMMER_JOBCNT_FAILED
        | some e => v.get HAMMER_JOBCNT_FAILED = min (s.get HAMMER_JOBCNT_FAILED + 1) (2 ^ 32 - 1) ∧
            v.get HAMMER_JOBCNT_DONE = s.get HAMMER_JOBCNT_DONE ∧
            (s.on (TONGS_RING_CFG_LOST j.ring) = false → s.recorded v (0x0100 + e.cause)))))

/-- Hammer without a job takes the waiting job selected, which starts or resumes. At a switch, with issue held, no token
counting and nothing in flight, the running job is saved with its registers, mask, next heat and position and waits,
and the job selected enters; HEATSTAT says that it switched. Only the completion record of the entering job changes in
memory. (R98, R107, R108, R109, R230, R234, R389). -/
def Obligations.JobEnters : Prop :=
  (∀ (s : State) (t id heat : Nat) (j : Job) (i : Img), let u := s.at t
    s.hammer.run = none → u.selectJob = some (id, j) →
    heat = (match j.saved with | some v => v.heat | none => j.entry) → u.enterable j i heat →
    s.runs (.jobSelect t) (fun v => s.entered v id j heat ∧ s.recordOnly v j ∧
      (∀ k, k ≠ id → v.job k = s.job k) ∧ v.get TONGS_JOBSTAT_RUNJOB = id % 256)) ∧
  (∀ (s : State) (t id next : Nat) (j k : Job) (m : Marker) (i : Img), let u := s.at t
    s.hammer.stall = some .drain → s.hammer.marker = some m → m.switchTo = some next → s.hammer.run = some id →
    s.job id = some j → s.job next = some k → next ≠ id → k.saved = none → s.hammer.flight = [] →
    s.hammer.tok.all (fun p => p.2.count == 0) = true → u.enterable k i k.entry →
    s.runs (.jobSwitch t) (fun v => s.entered v next k k.entry ∧ s.recordOnly v k ∧ v.get HAMMER_HEATSTAT_SWITCHED = 1 ∧
      (∀ n, n ≠ id → n ≠ next → v.job n = s.job n) ∧
      ∃ o w, v.job id = some o ∧ o.st = .switched ∧ o.switches = j.switches + 1 ∧ o.saved = some w ∧ w.s = s.hammer.s ∧
        w.sflags = s.rd HAMMER_SFLAGS ∧ w.amask = s.hammer.amask ∧ w.heat = m.heat ∧ w.pos = s.hammer.pos))

/-- A transfer of one row that stands behind no fence, where no write is to fail its check, moves its row: each byte of
the destination is the byte of the source, every other byte is as it was, the operation leaves the queue and its token
falls by one. A fill writes its 8-byte pattern over the row. A fence at the head of its queue that waits for no
Crucible command leaves the queue and lowers its token. A transfer refused at admission moves nothing and fails its
token with X_ADDR. (R99, R152, R176, R178, R179, R181). -/
def Obligations.ExchangeCompletes : Prop :=
  (∀ (s : State) (u idx t : Nat) (o : XOp), (s.xqOf u)[idx]? = some o → ((s.xqOf u).take idx).any XOp.isFence = false →
    s.hammer.run = some o.job →
    let len := (shapeOf o.shape).2.1
    let v0 := s.at t
    let done := fun (v : State) => v.xqOf u = (s.xqOf u).eraseIdx idx ∧ (∀ n, n ≠ u → v.xqOf n = s.xqOf n) ∧
      (v.tok o.tok).count = (s.tok o.tok).count - 1 ∧ (∀ k, k ≠ o.tok → v.tok k = s.tok k) ∧ v.anvils = s.anvils ∧
      v.hammer.s = s.hammer.s ∧ v.jobs = s.jobs ∧ v.crucs = s.crucs
    (∀ op, o.kind = .xfer op → o.refused = false → (shapeOf o.shape).1 = 1 → o.stale = [] → s.transit = [] → v0.rangeOk o.src len = true →
      v0.rangeOk o.dst len = true → v0.ueIn o.src len = none → o.dst % 128 = 0 →
      s.runs (.xferComplete u idx t) (fun v => done v ∧ (v.tok o.tok).fail = (s.tok o.tok).fail ∧
        (∀ i, i < len → v.byte (o.dst + i) = s.byte (o.src + i)) ∧
        ∀ a, (∀ i, i < len → phys a ≠ phys (o.dst + i)) → v.byte a = s.byte a)) ∧
    (o.kind = .fill → o.refused = false → (shapeOf o.shape).1 = 1 → v0.rangeOk o.dst len = true → o.dst % 128 = 0 →
      s.runs (.xferComplete u idx t) (fun v => done v ∧ (v.tok o.tok).fail = (s.tok o.tok).fail ∧
        (∀ i, i < len → v.byte (o.dst + i) = BitVec.ofNat 8 (o.src / 2 ^ (8 * (i % 8)))) ∧
        ∀ a, (∀ i, i < len → phys a ≠ phys (o.dst + i)) → v.byte a = s.byte a)) ∧
    (o.isFence = false → o.refused = true →
      s.runs (.xferComplete u idx t) (fun v => done v ∧ (∀ a, v.byte a = s.byte a) ∧
        ((s.tok o.tok).fail = none → ∃ f, (v.tok o.tok).fail = some f ∧ f.cause = 0x20)))) ∧
  (∀ (s : State) (u : Nat) (o : XOp) (q : List XOp) (c : Bool), s.xqOf u = o :: q → o.kind = .fence c →
    s.hammer.run = some o.job → (c = true → (s.cruc (2 * u)).live = [] ∧ (s.cruc (2 * u + 1)).live = []) →
    s.runs (.xfenceComplete u) (fun v => v.xqOf u = q ∧ (∀ n, n ≠ u → v.xqOf n = s.xqOf n) ∧
      (v.tok o.tok).count = (s.tok o.tok).count - 1 ∧ (v.tok o.tok).fail = (s.tok o.tok).fail ∧
      (∀ k, k ≠ o.tok → v.tok k = s.tok k) ∧ v.crucs = s.crucs ∧ v.anvils = s.anvils ∧ v.hammer.s = s.hammer.s ∧
      ∀ a, v.byte a = s.byte a))

/-- A Crucible command that is the head of the queue whose turn it is, with nothing running on its Crucible, leaves its
queue and runs. CRUC_NOP completes at once: it counts as done, its number is the last, its token falls by one, and
nothing but its status block is written. Each of the other twelve writes what its run writes and holds its result,
counting nothing as done; its completion then counts it as done, or as failed where its run met an error. On stacks
without stored errors: GEMV writes the read-out of each dot product, GATHER copies each indexed row, and ELTW writes
each element, converted to the output format. No other Crucible, no register of an Anvil, no exchange queue, job or
N-slot queue changes as a command starts. (R287, R289, R299, R301, R304, R306, R307, R308, R309, R310, R311, R316). -/
def Obligations.CrucibleStarts : Prop :=
  ∀ (s : State) (k t q : Nat) (x : CCmd) (r : List CCmd), k < 20 → (s.cruc k).run = none → (s.cruc k).next = some q →
    (s.cruc k).queue q = x :: r →
    let d := x.desc
    let f := dF d
    let os := outBytes (dOut d)
    let st := crcSrStart x.seed k (f 2 2)
    let same := fun (v : State) => (∀ m, m ≠ k → v.cruc m = s.cruc m) ∧ v.hammer.s = s.hammer.s ∧ v.anvils = s.anvils ∧
      v.xq = s.xq ∧ v.tongs.nq = s.tongs.nq ∧ v.tongs.wire = s.tongs.wire
    let start : CRun := ⟨s.at t, 0, st, 0, 0, 0, 0⟩
    let completes := fun (c : Instr) (y : CRun) => ∃ v w, exec c s = .next v ∧ same v ∧ v.hammer = s.hammer ∧ v.jobs = s.jobs ∧
      (v.cruc k).queue q = r ∧ (v.cruc k).run = some (x, ⟨y.fl, y.err, y.loc, y.ce, y.ue⟩) ∧
      v.get (CRUC_CCNT_DONE k) = s.get (CRUC_CCNT_DONE k) ∧ (∀ a, v.byte a = y.s.byte a) ∧
      exec (.crucComplete k t) v = .next w ∧ w.get (CRUC_CSEQ_LAST k) = x.seq % 2 ^ 32 ∧
      (if y.err = 0 then w.get (CRUC_CCNT_DONE k) = min (s.get (CRUC_CCNT_DONE k) + 1) (2 ^ 32 - 1)
       else w.get (CRUC_CCNT_FAILED k) = min (s.get (CRUC_CCNT_FAILED k) + 1) (2 ^ 32 - 1))
    (dCmd d = 0 → s.runs (.crucNop k t) (fun v => same v ∧ (v.cruc k).queue q = r ∧ ((s.cruc k).susp = none → (v.cruc k).run = none) ∧
        (∀ a, (dSt d = 0 ∨ ∀ i, i < 32 → phys a ≠ phys (dSt d + i)) → v.byte a = s.byte a) ∧
        v.get (CRUC_CSEQ_LAST k) = x.seq % 2 ^ 32 ∧ v.get (CRUC_CCNT_DONE k) = min (s.get (CRUC_CCNT_DONE k) + 1) (2 ^ 32 - 1) ∧
        ∀ job tok, x.src = .job job tok → s.hammer.run = some job →
          (v.tok tok).count = (s.tok tok).count - 1 ∧ (v.tok tok).fail = (s.tok tok).fail)) ∧
    (dCmd d = 1 → completes (.gemv k t) (start.gemv d)) ∧ (dCmd d = 2 → completes (.attn k t) (start.attn k d)) ∧
    (dCmd d = 3 → completes (.amerge k t) (start.amerge d)) ∧ (dCmd d = 4 → completes (.gather k t) (start.gather k d)) ∧
    (dCmd d = 5 → completes (.scatter k t) (start.scatter k d)) ∧ (dCmd d = 6 → completes (.reduce k t) (start.reduce d)) ∧
    (dCmd d = 7 → completes (.eltw k t) (start.eltw d)) ∧ (dCmd d = 8 → completes (.pack k t) (start.pack d)) ∧
    (dCmd d = 9 → completes (.unpack k t) (start.unpack d)) ∧ (dCmd d = 10 → completes (.copy k t) (start.copy d)) ∧
    (dCmd d = 11 → completes (.fill k t) (start.fill d)) ∧ (dCmd d = 12 → completes (.scrub k t) (start.scrub d)) ∧
    -- the bytes of three of them
    (descCheck k d = 0 → s.errs = [] →
      (dCmd d = 1 → dOut d ≠ 6 →
        let (m, kk, wt, xt) := (f 0x30 4, f 0x34 4, f 0x3C 1, f 0x3D 1)
        s.runs (.gemv k t) (fun v => ∀ n j b, n < f 0x3E 1 → j < m → b < os →
          let w := s.readN (f 0x10 8 + j * f 0x38 4) (elemBytes wt kk)
          let y := s.readN (f 0x18 8 + n * up32 (elemBytes xt kk)) (elemBytes xt kk)
          let sc := if maMx wt then s.readN (f 0x28 8 + j * (kk / 32)) (kk / 32) else 0
          v.byte (f 0x20 8 + n * up32 (m * os) + j * os + b) =
            (outElem (dOut d) (dRm d) st (n * m + j) ((gemvDot (dExp d) wt xt kk w y sc).c.value (dExp d) (dMofs d))).1.getD b 0)) ∧
      (dCmd d = 4 →
        let rb := f 0x2C 4
        let row := fun i => f 0x10 8 + s.readN (f 0x20 8 + 4 * i) 4 * f 0x30 4
        (∀ i, i < f 0x28 4 → Rng.inStack k (Rng.one (row i) rb) = true ∧
          (row i + rb ≤ f 0x18 8 ∨ f 0x18 8 + f 0x28 4 * rb ≤ row i)) →
        s.runs (.gather k t) (fun v => ∀ i b, i < f 0x28 4 → b < rb → v.byte (f 0x18 8 + i * rb + b) = s.byte (row i + b))) ∧
      (dCmd d = 7 →
        let (n, ta, tb, op) := (f 0x28 4, f 0x2C 1, f 0x2D 1, f 0x2E 1)
        s.runs (.eltw k t) (fun v => ∀ i b, i < n → b < os →
          let y := widen ta (rowElem ta (s.readN (f 0x10 8) (elemBytes ta n)) i)
          let z := if op = 0 ∨ op = 6 ∨ op = 8 ∨ op = 9 then 0 else widen tb (rowElem tb (s.readN (f 0x18 8) (elemBytes tb n)) i)
          v.byte (f 0x20 8 + i * os + b) =
            (outElem (dOut d) (dRm d) st i (f32 (eltwOp op (f 0x30 4) (f 0x34 4) y z).1)).1.getD b 0)))

/-- COPY makes its output range equal to its input range, FILL repeats its 8-byte pattern over its range, and no other
byte changes; SCRUB changes no byte. A running command that completes without an error counts as done, its sequence
number is the last, and its flags join the Crucible's; its status block, if it has one, is written and nothing else. A
command of the N or H queue is interrupted when a P head may start. A waiting host command is admitted to queue H when
it has room. (R285, R286, R289, R290, R291, R312, R313, R320). -/
def Obligations.CrucibleData : Prop :=
  (∀ (s : State) (k t q : Nat) (x : CCmd) (r : List CCmd), k < 20 → (s.cruc k).run = none → (s.cruc k).next = some q →
    (s.cruc k).queue q = x :: r → descCheck k x.desc = 0 →
    let src := dF x.desc 0x10 8
    let dst := dF x.desc 0x18 8
    let n := dF x.desc 0x20 8
    let elsewhere := fun (v : State) => ∀ a, (∀ i, i < n → phys a ≠ dst + i) → v.byte a = s.byte a
    (dCmd x.desc = 10 → s.ueIn src n = none → s.runs (.copy k t) (fun v => elsewhere v ∧
      ∀ i, i < n → v.byte (dst + i) = s.byte (src + i))) ∧
    (dCmd x.desc = 11 → s.runs (.fill k t) (fun v => elsewhere v ∧
      ∀ i, i < n → v.byte (dst + i) = BitVec.ofNat 8 (src / 2 ^ (8 * (i % 8))))) ∧
    (dCmd x.desc = 12 → s.runs (.scrub k t) (fun v => ∀ a, v.byte a = s.byte a))) ∧
  (∀ (s : State) (k t : Nat) (x : CCmd) (r : CRes), k < 20 → (s.cruc k).run = some (x, r) → r.err = 0 →
    s.runs (.crucComplete k t) (fun v => v.get (CRUC_CCNT_DONE k) = min (s.get (CRUC_CCNT_DONE k) + 1) (2 ^ 32 - 1) ∧
      v.get (CRUC_CSEQ_LAST k) = x.seq % 2 ^ 32 ∧ v.rd (CRUC_CFLAGS k) = s.rd (CRUC_CFLAGS k) ||| r.flags.setWidth 64 ∧
      (∀ m, m ≠ k → v.cruc m = s.cruc m) ∧ v.anvils = s.anvils ∧ v.hammer.s = s.hammer.s ∧
      (∀ a, (dSt x.desc = 0 ∨ ∀ i, i < 32 → phys a ≠ phys (dSt x.desc + i)) → v.byte a = s.byte a) ∧
      ((s.cruc k).susp = none → (v.cruc k).run = none) ∧
      ∀ job tok, x.src = .job job tok → s.hammer.run = some job →
        (v.tok tok).count = (s.tok tok).count - 1 ∧ (v.tok tok).fail = (s.tok tok).fail)) ∧
  (∀ (s : State) (k : Nat) (x : CCmd) (r : CRes), (s.cruc k).run = some (x, r) → x.queue ≠ 0 → (s.cruc k).susp = none →
    (s.cruc k).pNext = true → s.runs (.crucPreempt k) (fun v => (v.cruc k).run = none ∧ (v.cruc k).susp = some (x, r) ∧
      (∀ m, m ≠ k → v.cruc m = s.cruc m) ∧ v.hammer = s.hammer ∧ v.mem = s.mem ∧ v.anvils = s.anvils)) ∧
  (∀ (s : State) (k : Nat) (h : HostCruc), s.tongs.hostCruc.find? (fun h => h.stk == k) = some h → s.crucRoom k 2 = true →
    s.fenced k = false → descCheck k h.desc = 0 → s.runs (.crucHostAdmit k) (fun v =>
      v.tongs.hostCruc = s.tongs.hostCruc.erase h ∧ (∀ m, m ≠ k → v.cruc m = s.cruc m) ∧ v.mem = s.mem ∧ v.hammer = s.hammer ∧
      v.get (CRUC_CSEQ_NEXT k) = (s.get (CRUC_CSEQ_NEXT k) + 1) % 2 ^ 32 ∧
      ∃ x, (v.cruc k).h = (s.cruc k).h ++ [x] ∧ x.desc = h.desc ∧ x.seq = s.get (CRUC_CSEQ_NEXT k) ∧ x.src = .host h.strm h.ctag))

/-- Write-back removes the stored error of the unit it writes and changes no byte. Patrol of a range without errors counts
the interface retries it meets, notes a write to come that will fail its check, and finds a unit with one flipped data
symbol correctable, with one flipped address symbol uncorrectable; it changes no byte of these. A fence that is due
withdraws its stack: FENCED and its cause are set, the Crucible is off and holds no command, its domain is switched
off. A write of STKSTAT.FENCE asks for that fence. A hold that is due takes its Anvil out of the available set, gives
it its entry registers, and clears its store; every other byte stays. (R253, R264, R267, R269, R273, R275, R276, R277,
R278, R323). -/
def Obligations.MemoryCare : Prop :=
  (∀ (s : State) (unit : Nat), s.wb.contains unit = true → s.runs (.writeBack unit) (fun v =>
      v.wb.contains unit = false ∧ v.mem = s.mem ∧ v.hammer = s.hammer ∧ (∀ k, k ≠ unit → Tab.get errDefault v.errs k = Tab.get errDefault s.errs k) ∧
      (errClass (Tab.get errDefault s.errs unit) = 1 → Tab.get errDefault v.errs unit = 0))) ∧
  (∀ (s : State) (addr len t : Nat) (found : Upset) (k off : Nat), region addr = .hbm k off → s.errs = [] → s.fenced k = false →
    s.get (HEARTH_SCRUB_HOURS (k / 2)) ≠ 0 → s.runs (.patrol addr len found t) (fun v => v.hammer = s.hammer ∧
      v.get (HEARTH_STKERR_LINKRTY k) = min (s.get (HEARTH_STKERR_LINKRTY k) + min found.rty 4) (2 ^ 16 - 1) ∧
      (found.transit = true → unitOf (phys addr) ∈ v.transit) ∧ (found.transit = false → v.transit = s.transit) ∧
      (found.flips = 0 → v.errs = [] ∧ v.wb = s.wb ∧ v.mem = s.mem) ∧
      (∀ j, (List.range 38).filter (symHit found.flips) = [j] → v.mem = s.mem ∧
        errClass (Tab.get errDefault v.errs (unitOf (phys addr))) = if j < 34 then 1 else 2))) ∧
  (∀ (s : State) (stk cause t : Nat), stk < 20 → cause ∈ [1, 2, 5] → s.fenced stk = false → s.runs (.stackFence stk cause t) (fun v =>
      v.fenced stk = true ∧ v.get (HEARTH_STKSTAT_FCAUSE stk) = cause ∧ v.cruc stk = Cruc.reset ∧ v.domOn (170 + stk) = false ∧
      v.get (CRUC_QSTAT_OFF stk) = 1 ∧ (∀ m, m < 20 → m ≠ stk → v.fenced m = s.fenced m) ∧ v.anvils = s.anvils ∧
      ∀ a, v.byte a = s.byte a)) ∧
  (∀ (s : State) (p : Path) (stk t : Nat) (w : Word), stk < 20 → w.getLsbD 7 = true → (s.at t).pathUp p = true →
    s.domOn 192 = true → s.domOn (160 + stk / 2) = true → p ≠ .host → (∀ i, p ≠ .core i) →
    s.runs (.fence p stk w t) (fun v => v.fenceReq = s.fenceReq ++ [(stk, 4)] ∧ v.mem = s.mem ∧ v.hammer = s.hammer ∧
      v.crucs = s.crucs)) ∧
  (∀ (s : State) (g reason t : Nat), g < 160 → s.hammer.avail.getLsbD g = true → s.hammer.run = none →
    s.holds.find? (fun p => p.1 == g) = some (g, reason) → s.runs (.anvilHoldEffect g t) (fun v =>
      v.hammer.avail.getLsbD g = false ∧ (∀ k, k ≠ g → v.hammer.avail.getLsbD k = s.hammer.avail.getLsbD k) ∧
      v.anvil g = Anvil.entry ∧ (∀ k, k ≠ g → v.anvil k = s.anvil k) ∧ v.domOn g = false ∧ (∀ p ∈ v.holds, p.1 ≠ g) ∧
      (∀ a, v.byte a = if anvilBase g ≤ phys a ∧ phys a < anvilBase g + 0x200000 then 0 else s.byte a) ∧ s.recorded v 0x0202))

/-- An interface that may come up and is down comes up: PORTSTAT says so, its advertisement, the solicitation of its
global address and its ARP announcement are sent in that order (in a chain on both ports, tagged as the port says),
duplicate detection of a global address runs for one second, and streams that wait to open send their OPEN. An
interface that has tried for 500 ms tries again 500 ms later. An interface that loses its link goes down, is counted
with its uncorrectable codewords, and tries again where its port still provides it. Duplicate detection ends after its
second. A write of PORTCFG by the rack manager or firmware switches the port's domain as ENABLE says and takes both
its interfaces down. Memory, Hammer's registers, the Anvils and jobs are unchanged. (R326, R327, R328, R330, R331,
R334, R356, R366). -/
def Obligations.LinkCommands : Prop :=
  ∀ (s : State) (i t : Nat), i < 4 → let u := s.at t
    let kept := fun (v : State) => v.mem = s.mem ∧ v.anvils = s.anvils ∧ v.hammer.s = s.hammer.s ∧ v.jobs = s.jobs ∧
      ∀ k, k ≠ i → (v.ifc k).up = (s.ifc k).up
    let g := u.global6 i
    let a := u.addr4 i
    -- a multicast of the interface: in a chain, on both ports
    let all := fun (b : Body) => (if u.chain then [0, 1] else [i / 2]).map (fun q => (⟨i, q, u.vidOf q, true, b⟩ : Frame))
    (u.mayUp i = true → (u.ifc i).up = false → s.runs (.linkUp i t) (fun v => kept v ∧ (v.ifc i).up = true ∧
      v.get (upField i) = 1 ∧ (v.ifc i).dadUntil = (if g = 0 then none else some (u.now + 1000000000)) ∧
      v.tongs.wire = s.tongs.wire ++ all (.nadv (u.linkLocal i) 0xFF020000000000000000000000000001#128 false) ++
        (if g = 0 then [] else all (.nsol g)) ++ (if a = 0 then [] else all (.arp true (BitVec.ofNat 32 a))) ∧
      ∀ n ∈ u.onIfc i, (u.ctx n).tstate = 2 → (v.ctx n).ctlSent.isSome = true)) ∧
    (∀ b, (u.ifc i).bringAt = some b → u.mayUp i = true → (u.ifc i).up = false → u.now ≥ b + 500000000 →
      s.runs (.linkBringupRetry i t) (fun v => kept v ∧ (v.ifc i).bringAt = some (u.now + 500000000) ∧ v.csr = s.csr ∧
        v = { u with tongs := { u.tongs with ifc := v.tongs.ifc } })) ∧
    (∀ n, (u.ifc i).up = true → s.runs (.linkDown i ⟨t, n⟩) (fun v => kept v ∧ (v.ifc i).up = false ∧ v.get (upField i) = 0 ∧
      (v.ifc i).bringAt = (if u.mayUp i then some u.now else none) ∧
      v.get (TONGS_PORTSTAT_LINKDOWN (i / 2)) = min (s.get (TONGS_PORTSTAT_LINKDOWN (i / 2)) + 1) (2 ^ 16 - 1) ∧
      v.get (TONGS_PORTSTAT_FEC_UCW (i / 2)) = min (s.get (TONGS_PORTSTAT_FEC_UCW (i / 2)) + n) (2 ^ 32 - 1) ∧
      ({ u with tongs := { u.tongs with ifc := v.tongs.ifc } } : State).only v [TONGS_PORTSTAT (i / 2)])) ∧
    (∀ d, (u.ifc i).dadUntil = some d → u.now ≥ d → s.runs (.dadTimeout i t) (fun v => kept v ∧ (v.ifc i).dadUntil = none ∧
      v = { u with tongs := { u.tongs with ifc := v.tongs.ifc } })) ∧
    (∀ p w port, port < 2 → p = .rm ∨ p = .fw → u.pathUp p = true → s.domOn 192 = true →
      s.runs (.portcfgWrite p port w t) (fun v => v.mem = s.mem ∧ v.anvils = s.anvils ∧ v.hammer.s = s.hammer.s ∧
        (∀ f ∈ [TONGS_PORTCFG_VID port, TONGS_PORTCFG_VLAN_EN port, TONGS_PORTCFG_SEGSZ port, TONGS_PORTCFG_AN_EN port,
          TONGS_PORTCFG_ENABLE port], v.get f = bitsOf w.toNat f.hi f.lo) ∧
        v.domOn (190 + port) = w.getLsbD 4 ∧ (v.ifc (2 * port)).up = false ∧ (v.ifc (2 * port + 1)).up = false))

/-- On an interface that is up, the management port among them, and in a frame that passes its checks: a solicitation or
an ARP request for an address the interface owns is answered, one for another address is dropped and counted. An echo
request to an own address that fits one frame is answered while fewer than 1,000 were in the present second, and
dropped and counted beyond. Resolution of an address is tried again after a second, three times, and then given up. An
advertisement resolves the address being sought; during duplicate detection one of the global address shows it in use.
A chain module passes a frame on to the relay lane of its other port with one hop more. (R4, R332, R333, R334, R356,
R357, R552). -/
def Obligations.NetworkServices : Prop :=
  ∀ (s : State) (x : EthIn) (i t : Nat), i ≤ 4 → x.i = i → x.ucw = 0 → let u := s.at t
    u.portUp i = true → u.frameOk x = true →
    let wire := fun (v : State) => if i = 4 then v.mgmt.frames else v.tongs.wire
    let fr := fun (q : Nat) (b : Body) => (⟨i, q, u.vidOf q, true, b⟩ : Frame)
    let all := fun (b : Body) => (if u.chain then [0, 1] else [i / 2]).map (fun q => fr q b)
    let lost := fun (v : State) => if i = 4 then v.mgmt.dropped else Tab.get (fun _ => 0) v.tongs.dropped i
    -- beside its frames, its counts and what it keeps, nothing of an interface's state changes
    let net := fun (v : State) => v = { u with
      tongs := { u.tongs with wire := v.tongs.wire, ifc := v.tongs.ifc, dropped := v.tongs.dropped }
      mgmt := { u.mgmt with frames := v.mgmt.frames, ifc := v.mgmt.ifc, dropped := v.mgmt.dropped } }
    let sent := fun (c : Instr) (f : Frame) => s.runs c (fun v => net v ∧ wire v = wire s ++ [f] ∧ lost v = lost s)
    let gone := fun (c : Instr) => s.runs c (fun v => net v ∧ wire v = wire s ∧ lost v = lost s + 1 ∧ v.port i = s.port i)
    (∀ target src, if u.owns6 i target then sent (.neighbourSolicitation x target src t) (fr (u.egress i src) (.nadv target src true))
      else gone (.neighbourSolicitation x target src t)) ∧
    (∀ target, if u.owns4 i target then sent (.arpRequest x target t) (fr (i / 2) (.arp true (BitVec.ofNat 32 target)))
      else gone (.arpRequest x target t)) ∧
    (∀ dst src data, u.owns i dst = true → echoLen dst data ≤ (if i = 4 then 1518 else 8290) →
      let used := if u.now / 1000000000 = (u.port i).echoSec then (u.port i).echoCnt else 0
      (used < 1000 → s.runs (.icmpEchoRequest x dst src data t) (fun v => net v ∧ lost v = lost s ∧
        wire v = wire s ++ [fr (u.egress i src) (.echo src data)] ∧ (v.port i).echoCnt = used + 1 ∧
        (v.port i).echoSec = u.now / 1000000000)) ∧
      (1000 ≤ used → gone (.icmpEchoRequest x dst src data t))) ∧
    (∀ a e, i < 4 → u.nbr i a = some e → e.ifc = i → e.addr = a → e.mac = none → u.now ≥ e.at_ + 1000000000 →
      (e.tries < 3 → s.runs (.neighbourResolutionRetry i a t) (fun v =>
        v.nbr i a = some { e with tries := e.tries + 1, at_ := u.now } ∧
        v.tongs.wire = s.tongs.wire ++ all (if isMapped4 a then .arp false (BitVec.ofNat 32 a.toNat) else .nsol a) ∧
        v = { u with tongs := { u.tongs with wire := v.tongs.wire, nbr := v.tongs.nbr } })) ∧
      (3 ≤ e.tries → s.runs (.neighbourResolutionRetry i a t) (fun v => v.nbr i a = none ∧
        v = { u with tongs := { u.tongs with nbr := v.tongs.nbr } }))) ∧
    (∀ a mac port,
      (∀ e, (u.port i).dadUntil = none → u.nbr i a = some e → e.ifc = i → e.addr = a →
        s.runs (.neighbourAdvertisement x a mac port t) (fun v =>
          v.nbr i a = some { e with mac := some mac, port := port, at_ := u.now } ∧
          v = { u with tongs := { u.tongs with nbr := v.tongs.nbr } })) ∧
      ((u.port i).dadUntil.isSome = true → a = u.global6 i → s.runs (.neighbourAdvertisement x a mac port t) (fun v =>
        v.get (dupFd i) = 1 ∧ (v.port i).dadUntil = none ∧ s.recorded v 0x0401 ∧
        (u.setPort i { u.port i with dadUntil := none }).only v [(dupFd i).addr]))) ∧
    (∀ dstMac len p, i = 0 ∨ i = 2 → u.chain = true → u.get (TONGS_PORTCFG_MODE 0) ∈ [1, 2, 3] →
      u.get (TONGS_PORTCFG_MODE 1) ∈ [1, 2, 3] → u.on TONGS_CHAIN_END = false → u.tongs.relay = [] → len ≤ 524288 →
      (∀ y : Pkt, p = some y → y.hops < 8) → s.runs (.relayFrame x 1 dstMac len p t) (fun v =>
        Tab.get (fun _ => []) v.tongs.relay (i / 2) = [⟨i, 1 - i / 2, x.vid, true, .relay dstMac len (p.map Pkt.hop)⟩] ∧
        v = { u with tongs := { u.tongs with relay := v.tongs.relay } } ∧
        ∀ y : Pkt, p = some y → y.hop.hops = y.hops + 1 ∧ y.hop.pcrc = y.pcrc ∧ y.hop.pay = y.pay))

/-- A packet arrives on an interface that is up, in a frame that passes its checks, with its checksums and headers right,
for a cached stream on which nothing waits. DATA with the next sequence number that holds the whole message due puts
its bytes into the posted buffer, consumes it, and counts the message. ACK removes the packets it covers. CRED raises
the credit limit and, where asked, is answered. OPEN opens a listening stream to its sender, OPENACK an opening one,
each answered or accepted with the peer's first sequence number known. CLOSE ends an open stream's conversation; RST
fails it with its reason. (R335, R339, R342, R343, R345, R346, R349, R350, R351, R386). -/
def Obligations.PacketArrival : Prop :=
  ∀ (s : State) (e : EthIn) (t : Nat) (src : BitVec 128) (p : Pkt), let u := s.at t
    let i := e.i
    let n := p.dstrm
    let c := u.ctx n
    i < 4 → (u.ifc i).up = true → e.ucw = 0 → u.frameOk e = true → u.netOk i src p = true → p.pcrc = p.crc → p.badHeader = false → u.present n = true →
    u.cached n = true → u.waitingOn n = 0 → c.inbox = [] →
    let peer := c.peerAddr = src ∧ c.peerStrm = p.sstrm
    let kept := fun (v : State) => v.anvils = s.anvils ∧ v.hammer.s = s.hammer.s ∧ v.hammer.run = s.hammer.run ∧ v.errs = s.errs ∧
      ∀ m, m ≠ n → (v.ctx m).tstate = (s.ctx m).tstate
    let heard := if seqLt c.peerclim p.clim then p.clim else c.peerclim
    (∀ b : Posted, p.typ = 0 → c.tstate = 3 → peer → c.typ = 2 → p.opc = 0 → p.w0 = p.pay.length → p.w1 = 0 →
      p.psn = c.rxcum → c.rxsack = 0 → c.rx = [] → p.msn = c.rxmsn → seqLt p.msn c.ownclim = true →
      c.posted = [b] → b.sig = false → p.pay.length ≤ b.len → u.tongsMem b.addr p.pay.length = true → ctxAt b.addr = none →
      u.imagesIn b.addr p.pay.length = [] → u.tongs.pinned.length < 3072 → u.tongs.pinWait = [] → s.errs = [] → s.transit = [] →
      u.reqUsed (i / 2) + p.frameLen ≤ 4 * 2 ^ 20 → s.runs (.data e src p t) (fun v => kept v ∧
        (∀ k, k < p.pay.length → v.byte (b.addr + k) = p.pay.getD k 0) ∧
        (∀ a, (∀ k, k < p.pay.length → phys a ≠ phys (b.addr + k)) → v.byte a = s.byte a) ∧
        (v.ctx n).posted = [] ∧ (v.ctx n).rx = [] ∧ (v.ctx n).rxcum = (c.rxcum + 1) % 2 ^ 32 ∧
        (v.ctx n).rxmsn = (c.rxmsn + 1) % 2 ^ 32 ∧ (v.ctx n).rxmsgs = c.rxmsgs + 1 ∧ (v.ctx n).peerclim = heard)) ∧
    (p.typ = 1 → c.tstate = 3 → peer → p.pay = List.replicate 16 0 → seqLe p.w0 c.txnext = true → c.closing = none →
      u.tongs.nq = [] → s.runs (.ack e src p t) (fun v => kept v ∧ v.mem = s.mem ∧
        (v.ctx n).unacked = c.unacked.filter (fun x => !seqLt x.pkt.psn p.w0) ∧
        (v.ctx n).txcum = (if seqLt c.txcum p.w0 then p.w0 else c.txcum) ∧ (v.ctx n).peerclim = heard ∧ (v.ctx n).tstate = 3)) ∧
    (p.typ = 2 → c.tstate = 3 → peer → s.runs (.cred e src p t) (fun v => kept v ∧ v.mem = s.mem ∧ (v.ctx n).peerclim = heard ∧
        (bit p.flags 3 = false → v.tongs.ifc = s.tongs.ifc) ∧
        (bit p.flags 3 = true → ∃ x, (v.ifc c.ifc).ctrl = (s.ifc c.ifc).ctrl ++ [(src, x)] ∧ x.typ = 2 ∧ x.dstrm = p.sstrm ∧
          x.sstrm = n ∧ x.clim = c.ownclim))) ∧
    (p.typ = 3 → c.tstate = 1 → (c.cfgAddr = 0 ∨ c.cfgAddr = src) → c.ifc = i → u.tongs.nq = [] →
      s.runs (.opn e src p t) (fun v => kept v ∧ v.mem = s.mem ∧ (v.ctx n).tstate = 3 ∧ (v.ctx n).peerAddr = src ∧
        (v.ctx n).peerStrm = p.sstrm ∧ (v.ctx n).rxinit = p.psn ∧ (v.ctx n).rxcum = (p.psn + 1) % 2 ^ 32 ∧
        (v.ctx n).peerclim = p.clim ∧
        ∃ x, (v.ifc i).ctrl = (s.ifc i).ctrl ++ [(src, x)] ∧ x.typ = 4 ∧ x.dstrm = p.sstrm ∧ x.sstrm = n ∧ x.psn = (v.ctx n).txinit)) ∧
    (p.typ = 4 → c.tstate = 2 → peer → u.tongs.nq = [] → s.runs (.openack e src p t) (fun v => kept v ∧ v.mem = s.mem ∧
        (v.ctx n).tstate = 3 ∧ (v.ctx n).rxinit = p.psn ∧ (v.ctx n).rxcum = (p.psn + 1) % 2 ^ 32 ∧ (v.ctx n).peerclim = p.clim ∧
        (v.ctx n).unacked = [])) ∧
    (p.typ = 5 → c.tstate = 3 → peer → p.psn = c.rxcum → c.rxsack = 0 → u.tongs.nq = [] →
      s.runs (.close e src p t) (fun v => kept v ∧ v.mem = s.mem ∧ (v.ctx n).tstate = (if c.listen then 1 else 0) ∧
        (v.ctx n).unacked = [] ∧ (v.ctx n).posted = [] ∧ (v.ctx n).rx = [] ∧
        ∃ x, (v.ifc c.ifc).ctrl = (s.ifc c.ifc).ctrl ++ [(src, x)] ∧ x.typ = 1 ∧ x.w0 = (p.psn + 1) % 2 ^ 32)) ∧
    (p.typ = 6 → c.tstate ∈ [2, 3, 4] → peer → u.tongs.nq = [] → s.runs (.rst e src p t) (fun v => kept v ∧ v.mem = s.mem ∧
        (v.ctx n).tstate = 5 ∧ (v.ctx n).rstrsn = leAt p.pay 0 4 % 256 ∧ (v.ctx n).unacked = [] ∧ v.tongs.ifc = s.tongs.ifc ∧
        v.get HAMMER_ERRSUM_STREAM = 1 ∧ s.recorded v 0x0400))

/-- When 2 µs have passed since the oldest unacknowledged DATA packet, an ACK of the next expected number is queued. When
the oldest unacknowledged packet has waited its timeout and the limit is not reached, the timeout doubles up to its
maximum and the packet is sent again; at the limit the stream fails with reason 4. A sender blocked for 100 µs asks
for credit. A failed boot stream listens again after a second. A control packet to a known neighbour is the next frame
an interface sends, with an invalid FCS, and counted, where its check failed on the way. (R264, R335, R344, R346,
R347, R349, R350, R351, R374). -/
def Obligations.TransportTimers : Prop :=
  ∀ (s : State) (n t : Nat), let u := s.at t
    let c := u.ctx n
    let kept := fun (v : State) => v.mem = s.mem ∧ v.anvils = s.anvils ∧ v.hammer.s = s.hammer.s ∧
      ∀ m, m ≠ n → (v.ctx m).tstate = (s.ctx m).tstate
    let queued := fun (v : State) (typ : Nat) (q : Pkt → Prop) => ∃ x, (v.ifc c.ifc).ctrl = (s.ifc c.ifc).ctrl ++ [(c.peerAddr, x)] ∧
      x.typ = typ ∧ x.dstrm = c.peerStrm ∧ x.sstrm = n ∧ x.clim = c.ownclim ∧ q x
    (∀ a, c.ackSince = some a → c.tstate = 3 → u.now ≥ a + 2000 → s.runs (.ackTimer n t) (fun v => kept v ∧
      queued v 1 (fun x => x.w0 = c.rxcum) ∧ v.ctx n = { c with ackCount := 0, ackSince := none } ∧ v.csr = s.csr)) ∧
    (∀ x r, c.unacked = x :: r → u.now ≥ x.base + c.rtocur * 100 →
      (c.expiries < u.get TONGS_RETX_LIMIT → s.runs (.rtoExpiry n t) (fun v => kept v ∧ v.csr = s.csr ∧
        (v.ctx n).expiries = c.expiries + 1 ∧ (v.ctx n).rtocur = min (2 * c.rtocur) (max c.rtocur (u.get TONGS_RETX_RTOMAX * 10)) ∧
        (v.ctx n).unacked = { x with base := u.now, retx := some u.now } :: r ∧
        (x.pkt.typ = 0 → (v.ctx n).resend = x.pkt.psn :: c.resend.filter (· != x.pkt.psn) ∧ v.tongs.ifc = s.tongs.ifc) ∧
        (x.pkt.typ ≠ 0 → ∃ y, (v.ifc c.ifc).ctrl = (s.ifc c.ifc).ctrl ++ [(c.peerAddr, y)] ∧ y.psn = x.pkt.psn ∧
          y.typ = x.pkt.typ ∧ bit y.flags 4 = true))) ∧
      (u.get TONGS_RETX_LIMIT ≤ c.expiries → c.tstate ≠ 5 → s.runs (.rtoExpiry n t) (fun v => kept v ∧
        (v.ctx n).tstate = 5 ∧ (v.ctx n).rstrsn = 4 ∧ (v.ctx n).unacked = []))) ∧
    (c.tstate = 3 → c.crstate ≠ 0 → u.now ≥ c.blockedAt + 100000 → s.runs (.credProbe n t) (fun v => kept v ∧
      queued v 2 (fun x => bit x.flags 3 = true) ∧ v.ctx n = { c with crstate := 2, blockedAt := u.now } ∧ v.csr = s.csr)) ∧
    (∀ f, c.failedAt = some f → n < 4 → c.boot = true → c.tstate = 5 → u.now ≥ f + 1000000000 →
      s.runs (.bootStreamRelisten n t) (fun v => kept v ∧ (v.ctx n).tstate = 1 ∧ (v.ctx n).failedAt = none ∧
        (v.ctx n).peerAddr = c.cfgAddr ∧ (v.ctx n).peerStrm = c.cfgStrm ∧ v = { u with tongs := { u.tongs with ctx := v.tongs.ctx } })) ∧
    (∀ i dst p r bad, i < 4 → (u.ifc i).up = true → (u.ifc i).ctrl = (dst, p) :: r → u.known i dst = true → u.tongs.cache = [] →
      (∀ e ∈ r, u.known i e.1 = true) → (∀ m, (u.ctx m).ifc = i → (u.ctx m).txq = []) → u.tongs.relay = [] →
      s.runs (.frameTransmit i ⟨t, bad⟩) (fun v =>
        v.tongs.wire = s.tongs.wire ++ [⟨i, u.egress i dst, u.vidOf (u.egress i dst), !bad, .pkt dst (u.netOut i dst p)⟩] ∧
        (v.ifc i).ctrl = r ∧ (∀ k, k ≠ i → v.ifc k = s.ifc k) ∧ (∀ a, (v.nbr i a).isSome = (s.nbr i a).isSome) ∧
        Tab.get (fun _ => 0) v.tongs.spoilt i = Tab.get (fun _ => 0) s.tongs.spoilt i + (if bad then 1 else 0) ∧
        v = { u with tongs := { u.tongs with
          wire := v.tongs.wire, ifc := v.tongs.ifc, nbr := v.tongs.nbr, spoilt := v.tongs.spoilt } }))

/-- The stream at the head of the admission queue takes a free cache entry, and its context must be readable; those behind
it have waited one admission more. A free pin goes to the stream that has waited longest. Up to 16 completion records
of a completion stream go out as one CPL message when 16 wait or the oldest has waited 2 µs. (R369, R370, R371, R372,
R373, R399). -/
def Obligations.CacheQueues : Prop :=
  ∀ (s : State) (n t : Nat), let u := s.at t
    let kept := fun (v : State) => v.mem = s.mem ∧ v.anvils = s.anvils ∧ v.hammer = s.hammer ∧ v.jobs = s.jobs
    (∀ w q, u.tongs.admq = (n, w) :: q → u.tongs.cache.length < 4096 → s.errs = [] → u.tongs.held = [] → u.tongs.nq = [] →
      (u.ctx n).inbox = [] →
      s.runs (.admissionRound t) (fun v => kept v ∧ v.tongs.cache = s.tongs.cache ++ [⟨n, u.now, false⟩] ∧
        v.tongs.admq = q.map (fun p => (p.1, p.2 + 1)) ∧ (v.ctx n).admmax = max (s.ctx n).admmax (w + 1) ∧
        v.get TONGS_CACHESTAT_ADMQ = q.length % 2 ^ 16 ∧ (∀ m, m ≠ n → v.ctx m = s.ctx m))) ∧
    (∀ q, u.tongs.pinWait = n :: q → u.tongs.pinned.length < 3072 → u.waitingOn n = 0 → (u.ctx n).inbox = [] →
      s.runs (.pinGrant t) (fun v => kept v ∧
      v.tongs.pinWait = q ∧ v.tongs.pinned = s.tongs.pinned ++ [n] ∧ v.tongs.ctx = s.tongs.ctx ∧
      v.get TONGS_CACHESTAT_PINNED = (s.tongs.pinned.length + 1) % 2 ^ 16)) ∧
    (∀ r b t0, u.tongs.push = [(r, b, t0)] → u.get (TONGS_RING_CFG_CSTRM r) = n → u.now ≥ t0 + 2000 → u.cached n = true →
      (u.ctx n).typ = 4 → (u.ctx n).tstate = 3 → s.runs (.cplPush n t) (fun v => kept v ∧ v.tongs.push = [] ∧ v.csr = s.csr ∧
        (∃ m, (v.ctx n).txq = (s.ctx n).txq ++ [m] ∧ m.opc = 8 ∧ m.resp = false ∧ m.data = b ∧ m.msn = none) ∧
        ∀ m, m ≠ n → v.ctx m = s.ctx m))

/-- On an open, cached command stream of an active device on which nothing else waits, a MEMWR of legal form to reachable
memory stores its bytes, and only them, and is answered with status 0; one to an address out of reach stores nothing
and is answered with status 1. A MEMRD answers with the bytes read. Each message is taken and its credit returned. A
well-formed PACE message replaces the stored value of its peer stream, and PACESTAT shows it where the running job's
group is that stream. (R353, R354, R361, R413, R434, R436). -/
def Obligations.MemoryMessages : Prop :=
  ∀ (s : State) (n t : Nat) (msg : List Byte), let u := s.at t
    let c := u.ctx n
    let a := leAt msg 0 8
    let len := leAt msg 8 4
    let answered := fun (v : State) (data : List Byte) => ∃ m, (v.ctx n).txq = c.txq ++ [m] ∧ m.opc = 6 ∧ m.resp = true ∧ m.data = data
    let pre := fun (st : Nat) => toBytes 8 a ++ toBytes 4 len ++ toBytes 2 (leAt msg 12 2) ++ toBytes 2 st
    let kept := fun (v : State) => v.anvils = s.anvils ∧ v.hammer = s.hammer ∧ v.jobs = s.jobs ∧ v.crucs = s.crucs ∧
      (v.ctx n).rxmsn = (c.rxmsn + 1) % 2 ^ 32 ∧ (v.ctx n).rxmsgs = c.rxmsgs + 1 ∧ (v.ctx n).ownclim = (c.ownclim + 1) % 2 ^ 32 ∧
      (v.ctx n).inbox = [] ∧ (v.ctx n).busy = c.busy ∧ ∀ m, m ≠ n → v.ctx m = s.ctx m
    let quiet := n < 65536 ∧ u.present n = true ∧ u.cached n = true ∧ u.waitingOn n = 0 ∧ c.inbox = [] ∧ c.tstate = 3
    let ready := quiet ∧ c.typ = 1 ∧ u.tongs.pinned.length < 3072 ∧ u.tongs.pinWait = [] ∧ u.active = true ∧ s.errs = [] ∧ s.transit = []
    (ready → msg.length = 16 + len → 1 ≤ len → len ≤ 65520 → leAt msg 14 2 = 0 →
      u.respUsed (portOf c.ifc) + 16 ≤ 2 * 2 ^ 20 →
      (u.tongsMem a len = true → ctxAt a = none → s.tongs.images = [] → s.runs (.memwr n msg t) (fun v => kept v ∧ answered v (pre 0) ∧
        (∀ i, i < len → v.byte (a + i) = msg.getD (16 + i) 0) ∧
        ∀ x, (∀ i, i < len → phys x ≠ phys (a + i)) → v.byte x = s.byte x)) ∧
      (region a = .none → s.runs (.memwr n msg t) (fun v => kept v ∧ answered v (pre 1) ∧ v.mem = s.mem))) ∧
    (ready → msg.length = 16 → 1 ≤ len → len ≤ 65536 → leAt msg 14 2 = 0 → u.respUsed (portOf c.ifc) + (16 + len) ≤ 2 * 2 ^ 20 →
      u.tongsMem a len = true → ctxAt a = none → s.runs (.memrd n msg t) (fun v => kept v ∧ answered v (pre 0 ++ u.bytes a len) ∧
        v.mem = s.mem)) ∧
    (quiet → c.typ = 6 → paceOk msg = true → s.runs (.pace n msg t) (fun v => v.mem = s.mem ∧ v.anvils = s.anvils ∧
      v.hammer = s.hammer ∧
      (if s.hammer.run.isSome ∧ s.hammer.group = some n then
          v.get TEMPER_PACESTAT_RXK = leAt msg 0 1 ∧ v.get TEMPER_PACESTAT_RXH = leAt msg 1 1 ∧ v.on TEMPER_PACESTAT_CURRENT = true ∧
          ∀ a, a ≠ TEMPER_PACESTAT → v.rd a = s.rd a
        else v.csr = s.csr) ∧
      Tab.get (fun _ => none) v.temper.pace n = some ⟨leAt msg 0 1, leAt msg 1 1, leAt msg 2 1, u.now⟩ ∧
      (v.ctx n).ownclim = (c.ownclim + 1) % 2 ^ 32 ∧ (v.ctx n).rxmsn = (c.rxmsn + 1) % 2 ^ 32 ∧
      ∀ m, m ≠ n → v.ctx m = s.ctx m ∧ Tab.get (fun _ => none) v.temper.pace m = Tab.get (fun _ => none) s.temper.pace m))

/-- On an open, cached command stream of an active device on which nothing else waits: JOB_SUBMIT that passes every check
puts a queued job with its operands under the lowest free number, takes the ring's next index and answers with both.
JOB_CANCEL of a waiting job of the same stream ends it as cancelled and answers. A cancelled job that runs past its
time is stopped. IMAGE_ACCEPT of an image that passes the checks lists it with its variants' records; IMAGE_UNLOAD of
one no job uses removes it. Each command is answered on its stream. (R140, R378, R380, R381, R382, R387, R388, R390,
R383). -/
def Obligations.JobCommands : Prop :=
  ∀ (s : State) (n t : Nat) (msg : List Byte), let u := s.at t
    let c := u.ctx n
    let ctag := leAt msg 4 4
    let b := fun (o k : Nat) => leAt msg (8 + o) k
    let ready := fun (ctype len : Nat) => msg.length = len ∧ leAt msg 0 1 = ctype ∧ leAt msg 1 3 = 0 ∧ c.inbox = [] ∧ c.typ = 1 ∧
      c.tstate = 3 ∧ n < 65536 ∧ u.present n = true ∧ u.cached n = true ∧ u.waitingOn n = 0 ∧ u.tongs.pinned.length < 3072 ∧ u.tongs.pinWait = [] ∧ u.active = true ∧ u.respUsed (portOf c.ifc) + 24 ≤ 2 * 2 ^ 20
    let answered := fun (v : State) (ctype st result : Nat) => ∃ m ∈ (v.ctx n).txq, m.opc = 7 ∧ m.resp = true ∧
      m.data = toBytes 1 ctype ++ toBytes 1 st ++ toBytes 2 0 ++ toBytes 4 ctag ++ toBytes 8 result ++ toBytes 8 0
    let kept := fun (v : State) => v.anvils = s.anvils ∧ v.hammer = s.hammer ∧ v.crucs = s.crucs ∧
      ∀ m, m ≠ n → v.ctx m = s.ctx m
    let ring := b 7 1
    let w := u.get (TONGS_RING_IDX_WIDX ring)
    (∀ id i, ready 1 72 → b 6 1 < 8 → ring < 64 → b 0x20 2 ≠ 0 → b 0x24 1 = 0 → b 0x25 27 = 0 → u.image (b 0 4) = some i →
      (∀ k, k < id → (u.job k).isSome = true) → u.job id = none → id < 255 → u.ringOn ring = true →
      (w + 2 ^ 32 - u.get (TONGS_RING_IDX_AIDX ring)) % 2 ^ 32 < 2 ^ u.get (TONGS_RING_CFG_LOG2N ring) →
      s.runs (.jobSubmit n msg t) (fun v => kept v ∧ answered v 1 0 (id * 2 ^ 32 + w) ∧
        v.get (TONGS_RING_IDX_WIDX ring) = (w + 1) % 2 ^ 32 ∧ (∀ k, k ≠ id → v.job k = s.job k) ∧
        ∃ j, v.job id = some j ∧ j.img = b 0 4 ∧ j.entry = b 4 2 ∧ j.cls = b 6 1 ∧ j.ring = ring ∧ j.ridx = w ∧ j.st = .queued ∧
          j.arg = BitVec.ofNat 64 (b 8 8) ∧ j.seed = BitVec.ofNat 64 (b 0x10 8) ∧ j.tag = BitVec.ofNat 64 (b 0x18 8) ∧
          j.key = b 0x20 2 ∧ j.strm = n ∧ j.frame = frameOf u.core.idx ∧ j.waitFrom = u.now ∧ j.saved = none ∧ s.recordOnly v j)) ∧
    (∀ j, ready 2 16 → leAt msg 9 7 = 0 → u.job (leAt msg 8 1) = some j → j.strm = n → j.st = .queued → j.saved = none →
      j.cancel = [] → s.runs (.jobCancel n msg t) (fun v => v.anvils = s.anvils ∧ v.hammer = s.hammer ∧ v.crucs = s.crucs ∧
        v.job (leAt msg 8 1) = none ∧ (∀ k, k ≠ leAt msg 8 1 → v.job k = s.job k) ∧ answered v 2 0 0 ∧ s.recordOnly v j ∧
        v.get HAMMER_JOBCNT_FAILED = min (s.get HAMMER_JOBCNT_FAILED + 1) (2 ^ 32 - 1))) ∧
    (∀ id j x r, s.hammer.run = some id → s.job id = some j → j.cancel = x :: r → s.hammer.ending = none → s.hammer.faults = [] →
      s.hammer.flight = [] → s.tongs.nq = [] → u.now ≥ x.1 + u.get TONGS_JOBCFG_CTMO * 1000000 →
      s.runs (.cancelTimeout t) (fun v => (∃ f, v.hammer.ending = some (some f) ∧ f.cause = 0x50) ∧ v.hammer.stall = none ∧
        v.hammer.run = s.hammer.run ∧ v.hammer.s = s.hammer.s ∧ v.mem = s.mem ∧ v.anvils = s.anvils ∧ v.jobs = s.jobs ∧
        v.get HAMMER_PCSTAT_RUN = 0 ∧ ∀ a, a ≠ HAMMER_PCSTAT → v.rd a = s.rd a)) ∧
    (∀ i, ready 3 16 → leAt msg 12 4 = 0 → u.image (b 0 4) = none → u.imageCheck (b 0 4) = (0, none) →
      i = u.imageOf (hammerBase + 64 * b 0 4) (b 0 4) → s.runs (.imageAccept n msg t) (fun v => kept v ∧ answered v 3 0 0 ∧
        v.tongs.images = s.tongs.images ++ [i] ∧ v.mem = s.mem ∧ v.jobs = s.jobs ∧
        ∀ h k, h < i.heatCount → k < (u.heatEntry i h).vcount → k < 4 → h < 4096 → v.recOf (recKey i.base h k) =
          Rec.declared ((u.heatEntry i h).edecl.getD k 0) ((u.heatEntry i h).tdecl.getD k 1))) ∧
    (∀ i, ready 4 16 → leAt msg 12 4 = 0 → u.image (b 0 4) = some i → u.imageBusy (b 0 4) = false →
      s.runs (.imageUnload n msg t) (fun v => kept v ∧ answered v 4 0 0 ∧ v.image (b 0 4) = none ∧
        (∀ k, k ≠ b 0 4 → v.image k = s.image k) ∧ v.mem = s.mem ∧ v.jobs = s.jobs ∧
        ∀ h k, h < 4096 → k < 4 → v.recOf (recKey (b 0 4) h k) = Rec.none))

/-- On an open, cached command stream on which nothing else waits: CRUC_CMD of a good descriptor joins queue H of its
Crucible in an open pulse frame, and waits in Tongs in a closed one. RING_CFG of good parameters sets the ring, clears
its slots and its indices. STREAM_CFG configures a closed stream, which listens or opens. STREAM_CLOSE of a listening
stream closes it, STREAM_RESET puts a stream back to its configured start, STREAM_QUERY answers with the context. The
host moves a ring's accepted index forward past finished records. (R285, R286, R366, R367, R368, R371, R380, R381,
R395, R398, R405). -/
def Obligations.StreamCommands : Prop :=
  ∀ (s : State) (n t : Nat) (msg : List Byte), let u := s.at t
    let c := u.ctx n
    let ctag := leAt msg 4 4
    let b := fun (o k : Nat) => leAt msg (8 + o) k
    let ready := fun (ctype len need : Nat) => msg.length = len ∧ leAt msg 0 1 = ctype ∧ leAt msg 1 3 = 0 ∧ c.inbox = [] ∧ c.typ = 1 ∧
      c.tstate = 3 ∧ n < 65536 ∧ u.present n = true ∧ u.cached n = true ∧ u.waitingOn n = 0 ∧ u.tongs.pinned.length < 3072 ∧ u.tongs.pinWait = [] ∧ u.respUsed (portOf c.ifc) + need ≤ 2 * 2 ^ 20
    let resp := fun (ctype st : Nat) => toBytes 1 ctype ++ toBytes 1 st ++ toBytes 2 0 ++ toBytes 4 ctag ++ toBytes 8 0 ++ toBytes 8 0
    let answered := fun (v : State) (data : List Byte) => ∃ m ∈ (v.ctx n).txq, m.opc = 7 ∧ m.resp = true ∧ m.data = data
    let kept := fun (v : State) => v.anvils = s.anvils ∧ v.hammer = s.hammer
    let m := leAt msg 8 2
    let idle := leAt msg 10 6 = 0 ∧ m ≠ n ∧ m < 65536 ∧ u.fenced (ctxStack m) = false ∧ u.cached m = true ∧ s.tongs.nq = []
    (∀ k d, ready 5 80 24 → k = leAt msg 8 1 → k < 20 → leAt msg 9 7 = 0 → d = BitVec.ofNat 512 (leAt msg 16 64) →
      u.crucRoom k 2 = true → u.tongs.hostCruc = [] → u.fenced k = false → descCheck k d = 0 →
      s.runs (.crucCmd n msg t) (fun v => kept v ∧ v.mem = s.mem ∧ (∀ o, o ≠ k → v.cruc o = s.cruc o) ∧
        if u.frameOpen then
          v.tongs.hostCruc = [] ∧
          ∃ x, (v.cruc k).h = (s.cruc k).h ++ [x] ∧ x.desc = d ∧ x.src = .host n ctag ∧ x.seq = u.get (CRUC_CSEQ_NEXT k)
        else v.tongs.hostCruc = [⟨k, n, ctag, d⟩] ∧ v.cruc k = s.cruc k)) ∧
    (∀ r lg base, ready 6 24 24 → r = b 0 1 → lg = b 1 1 → base = b 8 8 → r < 64 → 4 ≤ lg → lg ≤ 16 → b 4 1 < 2 → b 5 3 = 0 →
      base % 64 = 0 → ringPlace base (64 * 2 ^ lg) = true → u.rangeOk base (64 * 2 ^ lg) = true →
      u.get (TONGS_RING_IDX_WIDX r) = u.get (TONGS_RING_IDX_AIDX r) → s.runs (.ringCfg n msg t) (fun v => kept v ∧
        answered v (resp 6 0) ∧ v.get (TONGS_RING_CFG_BASE r) = base / 64 % 2 ^ 40 ∧ v.get (TONGS_RING_CFG_LOG2N r) = lg ∧
        v.get (TONGS_RING_CFG_PUSH r) = b 4 1 ∧ v.get (TONGS_RING_CFG_CSTRM r) = b 2 2 ∧ v.rd (TONGS_RING_IDX r) = 0 ∧
        ∀ a, v.byte a = if (segs base (64 * 2 ^ lg)).any (fun p => p.1 ≤ phys a && phys a < p.1 + p.2) then 0 else s.byte a)) ∧
    (ready 7 80 24 → idle → 4 ≤ m → u.cfgOk (fun o k => leAt msg (16 + o) k) = true → (u.ctx m).tstate = 0 →
      s.runs (.streamCfg n msg t) (fun v => kept v ∧ v.mem = s.mem ∧ answered v (resp 7 0) ∧
        (v.ctx m).typ = leAt msg 16 1 ∧ (v.ctx m).weight = leAt msg 20 2 ∧ (v.ctx m).jobkey = leAt msg 22 2 ∧
        (v.ctx m).tstate = (if bit (leAt msg 18 1) 5 then 1 else 2) ∧ (∀ k, k ≠ m → k ≠ n → v.ctx k = s.ctx k))) ∧
    (ready 8 16 24 → idle → (u.ctx m).tstate = 1 → (u.ctx m).busy = 0 → (u.ctx m).inbox = [] → (u.ctx m).closing = none →
      s.runs (.streamClose n msg t) (fun v => kept v ∧ v.mem = s.mem ∧ answered v (resp 8 0) ∧ (v.ctx m).tstate = 0)) ∧
    (ready 9 16 24 → idle → (u.ctx m).typ ≠ 0 → (u.ctx m).listen = true → (u.ctx m).closing = none →
      s.runs (.streamReset n msg t) (fun v => kept v ∧ answered v (resp 9 0) ∧ (v.ctx m).tstate = 1 ∧
        ((∀ k x g, x ∈ (u.cruc k).h → x.src ≠ .host m g) → v.mem = s.mem) ∧
        (v.ctx m).posted = [] ∧ (v.ctx m).unacked = [] ∧ (v.ctx m).peerAddr = (u.ctx m).cfgAddr)) ∧
    (ready 10 16 280 → idle → s.runs (.streamQuery n msg t) (fun v => kept v ∧ v.mem = s.mem ∧
      answered v (resp 10 0 ++ (u.ctx m).bytes) ∧ v.ctx m = s.ctx m)) ∧
    (∀ r w, r < 64 → u.pathUp .host = true → let x := u.get (TONGS_RING_IDX_AIDX r)
      let y := bitsOf w 31 0
      let d := (y + 2 ^ 32 - x) % 2 ^ 32
      y ≠ x → d ≤ (u.get (TONGS_RING_IDX_WIDX r) + 2 ^ 32 - x) % 2 ^ 32 →
      (∀ i, i < d → 2 ≤ (u.byte (u.slotAddr r (x + i))).toNat) → w < 2 ^ 32 →
      s.runs (.aidxWrite .host r (BitVec.ofNat 64 w) t) (fun v => v.get (TONGS_RING_IDX_AIDX r) = y ∧
        v.get (TONGS_RING_IDX_WIDX r) = u.get (TONGS_RING_IDX_WIDX r) ∧ u.only v [TONGS_RING_IDX r]))

/-- Where Temper runs, the start of an interval takes the least of the five caps, SUPPLY among them recomputed from the
sample of VIN48, as the cap in force; under THROTTLE or SAG_WARN the grant is 0 and k falls to 1, else the grant is
that cap and k rises by at most KSTEP; no interval starts before the last is over. A raise of k takes effect at the
first frame boundary after 64 positions of which none is stretched, and is dropped 1 µs after its decision without
them. A settled transition puts the target point in force. Droop stretches two positions at the least, those that
begin while it is reported, and counts them. SAG_WARN takes Temper to its floor and leaves it at 42.0 V. No memory,
Anvil or job is touched. (R402, R403, R409, R414, R416, R422, R423, R425, R426, R427, R428, R429). -/
def Obligations.TemperPower : Prop :=
  ∀ (s : State) (t : Nat), let u := s.at t
    let kept := fun (v : State) => v.mem = s.mem ∧ v.anvils = s.anvils ∧ v.hammer = s.hammer ∧ v.jobs = s.jobs ∧ v.crucs = s.crucs
    (∀ (die : List Int) (vin : Nat), u.domOn 192 = true →
      (u.now < s.temper.ivNext → s.runs (.temperInterval die vin t) (fun v => v = u.slew)) ∧
      (s.temper.ivNext ≤ u.now → s.runs (.temperInterval die vin t) (fun v => kept v ∧
        (s.temper.vinSeen < u.samples (10 * us) → v.get TEMPER_CAP_SUPPLY_VIN = vin % 65536 ∧
          v.get TEMPER_CAP_SUPPLY_WATTS = min 1600 (vin % 65536 * s.get TEMPER_SUPPLYCFG_ILIM / 1000)) ∧
        (u.samples (10 * us) ≤ s.temper.vinSeen → v.rd TEMPER_CAP_SUPPLY = s.rd TEMPER_CAP_SUPPLY) ∧
        v.get TEMPER_CAPSTAT_CEFF = [s.get TEMPER_CAP_FACILITY_WATTS, s.get TEMPER_CAP_HOST_WATTS, s.get TEMPER_CAP_THERMAL_WATTS,
          s.get TEMPER_CAP_FLOW_WATTS, v.get TEMPER_CAP_SUPPLY_WATTS].foldl min 65535 ∧
        (s.temper.dieSeen < u.samples (100 * us) → (∃ p ∈ die.zipIdx, p.2 ∉ s.cool.dieSus) →
          (∀ p ∈ die.zipIdx, p.2 ∉ s.cool.dieSus → p.1 ≤ v.temper.die) ∧
          ∃ p ∈ die.zipIdx, p.2 ∉ s.cool.dieSus ∧ p.1 = v.temper.die) ∧
        v.temper.passed = u.core.passed ∧ v.temper.slots = u.core.idx ∧
        (s.temper.rel ≤ u.now → u.now < v.temper.ivNext ∧ v.temper.ivNext ≤ u.now + 2560 ∧
          (v.temper.ivNext - s.temper.rel) % 2560 = 0) ∧
        v.get TEMPER_CTRL_OPREQ = (if s.hammer.run.isSome then s.temper.reqOp % 8 else 0) ∧
        if s.on TEMPER_CAPSTAT_THROTTLE = true ∨ s.on TEMPER_CAPSTAT_SAG_WARN = true then
          v.get TEMPER_CAPSTAT_GRANT = 0 ∧ v.on TEMPER_CAPSTAT_FLOOR = true ∧ v.get TEMPER_CTRL_KTGT = 1 ∧
          (1 ≤ u.core.k → v.core.raise = none ∧ v.core.next = if u.core.k = 1 then none else some 1) ∧
          v.get TEMPER_CAPSTAT_LIMIT = (if s.on TEMPER_CAPSTAT_THROTTLE then 5 else 6)
        else v.get TEMPER_CAPSTAT_GRANT = v.get TEMPER_CAPSTAT_CEFF ∧ v.on TEMPER_CAPSTAT_FLOOR = false ∧
          v.get TEMPER_CTRL_KTGT ≤ u.core.k + s.get TEMPER_CTRLCFG_KSTEP ∧
          (∀ r, v.core.raise = some r → r.k ≤ u.core.k + s.get TEMPER_CTRLCFG_KSTEP ∧ v.core.next = none) ∧
          (∀ k, v.core.next = some k → k < u.core.k) ∧
          v.get TEMPER_CAPSTAT_LIMIT < 5 ∧ v.caps.getD (v.get TEMPER_CAPSTAT_LIMIT) 0 = v.get TEMPER_CAPSTAT_CEFF))) ∧
    (∀ r, s.domOn 192 = true → s.core.raise = some r → s.core.next = none → s.core.idx ≤ r.run + 63 → s.core.begun ≤ 16 * u.now →
      (s.core.runDone r (16 * u.now) = true → s.runs (.kRaise t) (fun v => v = u ∧ v.core.raise = none ∧
        if (r.run + 63) / 32 < v.core.idx / 32 then v.core.k = r.k ∧ v.core.next = none
        else v.core.k = s.core.k ∧ v.core.next = some r.k)) ∧
      (s.core.runDone r (16 * u.now) = false → s.runs (.kRaise t) (fun v => v = u ∧ v.core.raise = some r ∧ v.core.k = s.core.k))) ∧
    (∀ r, u.core.raise = some r →
      (r.at_ + 16000 ≤ 16 * u.now → s.runs (.raisedrop t) (fun v =>
        v.get TEMPER_CNT_RAISEDROP = min (s.get TEMPER_CNT_RAISEDROP + 1) 65535 ∧
        State.only { u with core := { u.core with raise := none } } v [TEMPER_CNT])) ∧
      (16 * u.now < r.at_ + 16000 → s.runs (.raisedrop t) (fun v => v = u))) ∧
    (let w := u.slew
     (s.on TEMPER_CTRL_XFER = true → w.temper.vset = w.temper.vgoal → s.runs (.vcoreSettled t) (fun v =>
      v.get TEMPER_CTRL_OP = s.get TEMPER_CTRL_OPTGT ∧ v.on TEMPER_CTRL_XFER = false ∧ v.get TEMPER_CTRL_KTGT = s.get TEMPER_CTRL_KTGT ∧
      State.only { w with temper := { w.temper with pure := false } } v [TEMPER_CTRL])) ∧
     (∀ d : DroopIn,
      (w.domOn 192 = true → d.uv + 2500 * s.get TEMPER_DROOPCFG_THR < w.temper.vset → s.runs (.droop d t) (fun v =>
        2 ≤ v.core.stretch ∧ u.core.stretch ≤ v.core.stretch ∧ 16 * d.dur < (u.core.ends - 16 * u.now) + 15 * v.core.stretch ∧
        v.get TEMPER_CNT_STRETCH = min (s.get TEMPER_CNT_STRETCH + (v.core.stretch - u.core.stretch)) (2 ^ 32 - 1) ∧
        (∀ r, u.core.raise = some r → ∃ r', v.core.raise = some r' ∧ r'.k = r.k ∧ u.core.idx + 1 + v.core.stretch ≤ r'.run) ∧
        State.only { w with core := { u.core with stretch := v.core.stretch, raise := v.core.raise }
                            temper := { w.temper with pure := false } } v [TEMPER_CNT])) ∧
      (w.temper.vset ≤ d.uv + 2500 * s.get TEMPER_DROOPCFG_THR → s.runs (.droop d t) (fun v => v = w)))) ∧
    (∀ mv, mv < 4100 → s.pwr.vinLow = false → s.runs (.sagWarn mv t) (fun v => kept v ∧ v.pwr = { s.pwr with vinLow := true } ∧
      v.on BELLOWS_PWRSTAT_VINSAG = true ∧ v.get BELLOWS_PWRSTAT_VIN48 = mv ∧ u.recorded v 0x0A01 ∧
      (u.domOn 192 = true → v.on TEMPER_CAPSTAT_SAG_WARN = true ∧ u.floored v ∧
        v.get TEMPER_CNT_FLOORS = min (s.get TEMPER_CNT_FLOORS + 1) 65535 ∧
        v.get TEMPER_CAPSTAT_LIMIT = (if s.on TEMPER_CAPSTAT_THROTTLE then 5 else 6)))) ∧
    (∀ mv, 4200 ≤ mv → s.pwr.vinLow = true → s.runs (.sagWarnClear mv t) (fun v =>
      v.get BELLOWS_PWRSTAT_VIN48 = min 65535 mv ∧
      State.only { u with pwr := { u.pwr with vinLow := false } } v [BELLOWS_PWRSTAT, TEMPER_CAPSTAT] ∧
      (u.domOn 192 = true → v.on TEMPER_CAPSTAT_SAG_WARN = false ∧ v.get TEMPER_CAPSTAT_GRANT = s.get TEMPER_CAPSTAT_GRANT ∧
        v.get TEMPER_CAPSTAT_LIMIT = v.limitNow)))

/-- The tick's calibration of the power model moves CALG by at most 16 within 3,072 to 5,120 where the estimate is at
least 200 W; a cap source without publication for 10 ticks takes STALEW, 1,600 W at the most; the host writes HOST,
stored up to 1,600 W and recorded when it changes, and the rack manager the value that the next tick publishes as
FACILITY, while another path's write is refused and counted; an evaluation of the worst slack, one an hour, below its
minimum raises TRIM by one from the next interval on, up to 16, where AGE_MAX is flagged instead. (R410, R411, R413,
R414, R415, R417, R418, R437, R438). -/
def Obligations.TemperCaps : Prop :=
  ∀ (s : State) (t : Nat), let u := s.at t
    let p := if s.temper.pestN = 0 then fI 0 else fDiv s.temper.pestSum (fI s.temper.pestN)
    let g := s.get TEMPER_MODEL_CALG
    let gone := u.tickNo - s.temper.calTick
    (u.domOn 192 = true →
      (gone = 0 → ∀ m, s.runs (.calibration m t) (fun v => v = u)) ∧
      (1 ≤ gone → ∀ m : Option Nat, s.runs (.calibration m t) (fun v =>
        (∀ w, m = some w → v.get TEMPER_PEST_PMEAS = w % 65536 ∧
          v.get TEMPER_MODEL_CALG = if fLe (fI 200) p then
            (clampI ((g : Int) + clampI (fRne (fDiv (fDiv (fMul (fI g) (fSub (fI w) p)) p)
              (fI (2 ^ s.get TEMPER_MODEL_CALSH)))) (-16) 16) 3072 5120).toNat
          else g) ∧
        (m = none → v.get TEMPER_MODEL_CALG = g ∧ v.get TEMPER_PEST_PMEAS = s.get TEMPER_PEST_PMEAS) ∧
        v.temper.calTicks = (if v.get TEMPER_MODEL_CALG = 3072 ∨ v.get TEMPER_MODEL_CALG = 5120 then s.temper.calTicks + gone else 0) ∧
        ((∃ w, m = some w ∧ 105 * s.get TEMPER_CAPSTAT_CEFF < 100 * w) →
          v.temper.overTicks = (if gone = 1 then s.temper.overTicks else 0) + 1) ∧
        (¬ (∃ w, m = some w ∧ 105 * s.get TEMPER_CAPSTAT_CEFF < 100 * w) → v.temper.overTicks = 0) ∧
        (if s.temper.calTicks < 1000 ∧ 1000 ≤ v.temper.calTicks then v.on TEMPER_CAPSTAT_CAL_BOUND = true
         else v.on TEMPER_CAPSTAT_CAL_BOUND = s.on TEMPER_CAPSTAT_CAL_BOUND) ∧
        (if v.temper.overTicks = 10 then v.on TEMPER_CAPSTAT_MEAS_OVER = true
         else v.on TEMPER_CAPSTAT_MEAS_OVER = s.on TEMPER_CAPSTAT_MEAS_OVER) ∧
        State.only { u with temper := { u.temper with
          pestSum := fI 0, pestN := 0, calTick := u.tickNo, calTicks := v.temper.calTicks, overTicks := v.temper.overTicks } } v
          [TEMPER_PEST, TEMPER_MODEL, TEMPER_CAPSTAT, HAMMER_ERRSUM]))) ∧
    (∀ src, src = 0 ∨ src = 2 ∨ src = 3 → u.domOn 192 = true → src ∉ s.temper.stale →
      Tab.get (fun _ => 0) s.temper.pubs src + 10 * ms ≤ u.now → s.runs (.capStale src t) (fun v =>
        v.get (capField src) = min (s.get TEMPER_CAPCFG_STALEW) 1600 ∧ v.on TEMPER_CAPSTAT_STALE = true ∧ u.recorded v 0x0502 ∧
        State.only { u with temper := { u.temper with
            stale := s.temper.stale ++ [src], recC := v.temper.recC, recLimit := v.temper.recLimit } } v
          [(capField src).addr, TEMPER_CAPSTAT])) ∧
    (∀ w : Word, let x := min (w.toNat % 65536) 1600
      u.domOn 192 = true →
      (u.pathUp .host = true → s.runs (.capHostWrite .host w t) (fun v => v.get TEMPER_CAP_HOST_WATTS = x ∧
        (s.get TEMPER_CAP_HOST_WATTS ≠ x → u.recorded v 0x0500) ∧
        State.only { u with temper := v.temper } v [TEMPER_CAP_HOST])) ∧
      (u.pathUp .rm = true → s.runs (.capFacilityWrite .rm w t) (fun v =>
        State.only { u with cool := { u.cool with facility := x } } v [])) ∧
      (∀ q, q ≠ .host → u.pathUp q = true → s.runs (.capHostWrite q w t) (fun v => u.recorded v 0x0203 ∧
        v.get TEMPER_CAPREJ_HOST = min (s.get TEMPER_CAPREJ_HOST + 1) 65535 ∧ u.only v [TEMPER_CAPREJ, HAMMER_ERRSUM])) ∧
      (∀ q, q ≠ .rm → u.pathUp q = true → s.runs (.capFacilityWrite q w t) (fun v => u.recorded v 0x0203 ∧
        v.get TEMPER_CAPREJ_FAC = min (s.get TEMPER_CAPREJ_FAC + 1) 65535 ∧ u.only v [TEMPER_CAPREJ, HAMMER_ERRSUM]))) ∧
    (∀ slack : List Nat, u.domOn 192 = true → s.temper.agedAt / (3600 * sec) < u.now / (3600 * sec) → s.temper.pure7 = true →
      let worst := slack.foldl min 65535
      let trim := s.temper.trimNext.getD (s.get TEMPER_TRIM_TRIM)
      let aged := { u with temper := { u.temper with agedAt := u.now } }
      s.runs (.ageingEval slack t) (fun v => v.get TEMPER_TRIM_SLACK = worst ∧ v.get TEMPER_TRIM_TRIM = s.get TEMPER_TRIM_TRIM ∧
        if s.get TEMPER_TRIM_SLACKMIN ≤ worst then aged.only v [TEMPER_TRIM]
        else if trim < 16 then u.recorded v 0x0506 ∧
          State.only { u with temper := { u.temper with agedAt := u.now, trimNext := some (trim + 1) } } v [TEMPER_TRIM]
        else v.on TEMPER_CAPSTAT_AGE_MAX = true ∧ u.recorded v 0x0507 ∧
          aged.only v [TEMPER_TRIM, TEMPER_CAPSTAT, HAMMER_ERRSUM])) ∧
    (∀ n die vin, s.temper.trimNext = some n → u.domOn 192 = true → s.temper.ivNext ≤ u.now →
      s.runs (.temperInterval die vin t) (fun v => v.get TEMPER_TRIM_TRIM = n % 32 ∧ v.temper.trimNext = none))

/-- A management tick derives flow state and FLOW cap from the 100 ms mean of flow and publishes the caps to a running
Temper. Three bad samples put a temperature or pressure input out of use, on an outlet input under POL 1 with the
critical path; a second of good samples brings it back. Of a pair that disagrees for more than a second the cooler
input is suspect. An implausible outlet input, die diode or flow meter is suspected. (R413, R417, R442, R443, R444,
R446, R447, R448, R451, R458). -/
def Obligations.CoolingSensors : Prop :=
  ∀ (s : State) (t : Nat), let u := s.at t
    (∀ k : TickIn, s.cool.tick < u.tickNo → s.secb.running.isSome = true → s.runs (.coolingTick k t) (fun v => v.cool.tick = u.tickNo ∧ v.mem = s.mem ∧ v.anvils = s.anvils ∧ v.hammer = s.hammer ∧ v.jobs = s.jobs ∧
      let f := v.flowMean
      let st := nextFlow (s.get BELLOWS_CAPOUT_FSTATE) f (s.get BELLOWS_FLCFG_FLMIN) (s.get BELLOWS_FLCFG_FLCRIT) s.flowLost
      v.get BELLOWS_CAPOUT_FSTATE = st ∧ v.get BELLOWS_CAPOUT_FLOWCAP = flowCap st f (s.get BELLOWS_FLCFG_FLMIN) ∧
      v.get BELLOWS_CAPOUT_THERMAL = v.cool.thermal ∧
      (s.get (BELLOWS_FLOW_STATE 0) ≠ 2 → s.get (BELLOWS_FLOW_KF 0) ≠ 0 ∨ k.flow.getD 0 0 = 0 →
        v.get (BELLOWS_FLOW_FLOW 0) = flowOf (s.get (BELLOWS_FLOW_KF 0)) (k.flow.getD 0 0) ∧
        v.get (BELLOWS_FLOW_STATE 0) = if k.flow.getD 0 0 = 0 then 1 else 0) ∧
      (u.domOn 192 = true → v.get TEMPER_CAP_FACILITY_WATTS = min s.cool.facility 1600 ∧
        v.get TEMPER_CAP_THERMAL_WATTS = min v.cool.thermal 1600 ∧
        v.get TEMPER_CAP_FLOW_WATTS = min (v.get BELLOWS_CAPOUT_FLOWCAP) 1600 ∧ v.get TEMPER_CAP_FLOW_STATE = st ∧
        ∀ p ∈ [0, 2, 3], p ∉ v.temper.stale ∧ Tab.get (fun _ => 0) v.temper.pubs p = u.now))) ∧
    (∀ n (ohm : List Nat), n < 12 → s.ntcValid n = true → ohm.length = 3 →
      (∀ st, (∀ r ∈ ohm, 500000 < r) ∧ st = 1 ∨ (∀ r ∈ ohm, r < 100) ∧ st = 2 → s.runs (.ntcFault n ohm t) (fun v =>
        v.get (BELLOWS_TSTAT_STATE n) = st ∧ v.on BELLOWS_ERRSUM_SENSOR = true ∧
        if (n = 1 ∨ n = 3) ∧ s.on (BELLOWS_TCFG_POL n) = true then
          v.on BELLOWS_SAFESTAT_OUTLET = true ∧ v.on BELLOWS_SAFESTAT_THROTTLE = true ∧ v.cool.shdn = true ∧
          (s.on BELLOWS_SAFESTAT_CSTOP = false → v.stopped)
        else u.only v [BELLOWS_TSTAT n]))) ∧
    (∀ n (mv : List Nat), n < 4 → s.get (BELLOWS_PRESS_STATE n) = 0 → mv.length = 3 → (∀ x ∈ mv, x < 250 ∨ 4750 < x) →
      s.runs (.pressureFault n mv t) (fun v => v.get (BELLOWS_PRESS_STATE n) = (if mv.getD 2 0 < 250 then 1 else 2) ∧ v.on BELLOWS_ERRSUM_SENSOR = true ∧ u.only v [BELLOWS_PRESS n])) ∧
    (∀ n held, sec ≤ held →
      (n < 12 → (s.get (BELLOWS_TSTAT_STATE n) = 1 ∨ s.get (BELLOWS_TSTAT_STATE n) = 2) → s.runs (.sensorRecover n held t) (fun v =>
        v.get (BELLOWS_TSTAT_STATE n) = 0 ∧ v = { u with csr := v.csr } ∧ ∀ a, a ≠ BELLOWS_TSTAT n → v.rd a = s.rd a)) ∧
      (12 ≤ n → n < 16 → s.runs (.sensorRecover n held t) (fun v =>
        v.get (BELLOWS_PRESS_STATE (n - 12)) = 0 ∧ v = { u with csr := v.csr } ∧
        ∀ a, a ≠ BELLOWS_PRESS (n - 12) → v.rd a = s.rd a))) ∧
    (∀ a b held, a < 12 → s.partner a = some b → s.ntcGood a = true → s.ntcGood b = true → sec < held →
      25 * s.get BELLOWS_THCFG_DISAGREE < (s.ntcRaw a - s.ntcRaw b).natAbs →
      let c := if s.ntcRaw a < s.ntcRaw b then a else b
      s.runs (.sensorDisagree a b held t) (fun v => v.on (BELLOWS_TSTAT_SUSPECT c) = true ∧
        v.on BELLOWS_SAFESTAT_SENSOR_DISAGREE = true ∧ u.acted v 0x0605 ∧ u.only v [BELLOWS_SAFESTAT, BELLOWS_TSTAT c])) ∧
    (∀ n (x : Int) held,
      ((n = 1 ∨ n = 3) → s.ntcGood n = true → 2 * sec ≤ held → s.outletOdd n = true → s.runs (.sensorSuspect n x held t) (fun v =>
        v.on (BELLOWS_TSTAT_SUSPECT n) = true ∧ u.acted v 0x0606 ∧ u.only v [BELLOWS_TSTAT n])) ∧
      (12 ≤ n → n < 76 → u.domOn 192 = true → x < s.cool.tin - 200 → n - 12 ∉ s.cool.dieSus → s.runs (.sensorSuspect n x held t) (fun v =>
        u.acted v 0x0606 ∧ State.only { u with cool := { u.cool with dieSus := s.cool.dieSus ++ [n - 12] } } v [])) ∧
      (n = 76 → s.get (BELLOWS_FLOW_STATE 0) ≠ 2 → s.flowOdd x = true → s.runs (.sensorSuspect n x held t) (fun v =>
        v.get (BELLOWS_FLOW_STATE 0) = 2 ∧ u.acted v 0x0606 ∧ u.only v [BELLOWS_FLOW 0])))

/-- While the fast path is armed, a missing flow pulse for 50 ms, a collapse of ΔP for 5 ms and a fast rise of a die each
set their bit and assert THROTTLE; nothing else is touched. THROTTLE falls when flow and ΔP have been back, and no
trigger came, for 100 ms. Two seconds of THROTTLE by flow stop compute, as do a critical comparator, which also drives
SHDN_N, and SHDN_N held low from outside. (R427, R453, R454, R455, R456, R457, R458, R459). -/
def Obligations.CoolingTrips : Prop :=
  ∀ (s : State) (t : Nat), let u := s.at t
    let trip := fun (v : State) (f : Fd) => v.on f = true ∧ u.throttled v ∧ v.on BELLOWS_ERRSUM_SAFETY = true ∧
      State.only { u with cool := v.cool, temper := v.temper, core := v.core } v [BELLOWS_SAFESTAT, TEMPER_CAPSTAT, TEMPER_CTRL, TEMPER_CNT]
    (s.cool.armed = true →
      (∀ held, 50 * ms ≤ held → s.get (BELLOWS_FLOW_STATE 0) ≠ 2 → s.runs (.nopulse held t) (fun v =>
        trip v BELLOWS_SAFESTAT_NOPULSE)) ∧
      (∀ (dp : Int) held, 5 * ms ≤ held → dp < s.get BELLOWS_FLCFG_DPMIN → s.dpValid = true → s.runs (.dpcollapse dp held t)
        (fun v => trip v BELLOWS_SAFESTAT_DPCOLLAPSE)) ∧
      (∀ rise, 200 < rise → u.domOn 192 = true → s.runs (.dierise rise t) (fun v => trip v BELLOWS_SAFESTAT_DIERISE))) ∧
    (∀ flow (dp : Int) held, 100 * ms ≤ held → s.get BELLOWS_FLCFG_FLMIN ≤ flow → s.get BELLOWS_FLCFG_DPMIN ≤ dp →
      s.cool.trigAt + 100 * ms ≤ u.now → s.on BELLOWS_SAFESTAT_THROTTLE = true → s.runs (.throttleRelease flow dp held t) (fun v =>
        v.on BELLOWS_SAFESTAT_THROTTLE = false ∧ v.cool.throttleAt = none ∧ v.cool.byFlow = false ∧ u.acted v 0x0602 ∧
        (u.domOn 192 = true → v.on TEMPER_CAPSTAT_THROTTLE = false ∧ v.get TEMPER_CAPSTAT_LIMIT = v.limitNow) ∧
        State.only { u with cool := v.cool } v [BELLOWS_SAFESTAT, TEMPER_CAPSTAT])) ∧
    (s.on BELLOWS_SAFESTAT_CSTOP = false →
      (∀ a, s.cool.throttleAt = some a → a + 2 * sec ≤ u.now → s.cool.byFlow = true → s.runs (.timeout t) (fun v =>
        v.stopped ∧ v.on BELLOWS_SAFESTAT_TIMEOUT = true ∧ v.cool.shdn = true)) ∧
      (∀ kind input (reading : Int), (kind ≤ 1 ∧ u.domOn 192 = true ∨ kind = 2 ∧ (input = 1 ∨ input = 3)) →
        critLimit s.pwr.tcrit kind ≤ reading → s.runs (.critTrip kind input reading t) (fun v => v.stopped ∧ v.cool.shdn = true ∧
          v.on BELLOWS_SAFESTAT_THROTTLE = true ∧
          v.on (if kind = 0 then BELLOWS_SAFESTAT_DIE else if kind = 1 then BELLOWS_SAFESTAT_HBM else BELLOWS_SAFESTAT_OUTLET)
            = true)) ∧
      (s.cool.shdnExt = false → s.runs (.shdnN true t) (fun v => v.stopped ∧ v.cool.shdnExt = true))) ∧
    (s.on BELLOWS_SAFESTAT_CSTOP = true → s.cool.shdnExt = false → s.runs (.shdnN true t) (fun v => u.acted v 0x0603 ∧
      State.only { u with cool := { u.cool with shdnExt := true } } v [])) ∧
    s.runs (.shdnN false t) (fun v => v = { u with cool := { u.cool with shdnExt := false } })

/-- Five leak readings latch a leak; where the loop's ACT is 1 they isolate the branch: LEAKISO and THROTTLE are latched
and compute is stopped. An open or marginal loop is a loop fault and isolates only where FAULTACT is set too. A second
of normal readings ends both. Flow held with both branch valves open arms the fast path and brings the regulators on
where VIN48 is in range; flow not confirmed in 30 s stops bring-up. (R460, R461, R462, R463, R477, R598). -/
def Obligations.LeaksAndFlow : Prop :=
  ∀ (s : State) (n t : Nat), let u := s.at t
    let note := fun (v : State) (st res : Nat) => v.get (BELLOWS_LEAK_STATE n) = st ∧ v.get (BELLOWS_LEAK_RES n) = min 65535 (res / 10) ∧
      v.on BELLOWS_SAFESTAT_LKWARN = true ∧ v.on BELLOWS_ERRSUM_LEAK = true
    let effect := fun (v : State) (code : Nat) (warn : Prop) =>
      (warn ∨ s.get (BELLOWS_LEAK_ACT n) ≠ 1 ∨ s.on BELLOWS_SAFESTAT_LEAKISO = true → u.acted v code ∧
        State.only { u with cool := v.cool } v [BELLOWS_SAFESTAT, BELLOWS_LEAK n] ∧
        v.on BELLOWS_SAFESTAT_LEAKISO = s.on BELLOWS_SAFESTAT_LEAKISO ∧
        v.on BELLOWS_SAFESTAT_THROTTLE = s.on BELLOWS_SAFESTAT_THROTTLE) ∧
      (¬ warn → s.get (BELLOWS_LEAK_ACT n) = 1 → s.on BELLOWS_SAFESTAT_LEAKISO = false →
        v.on BELLOWS_SAFESTAT_LEAKISO = true ∧ v.on BELLOWS_SAFESTAT_THROTTLE = true ∧ v.tuyere.iso.isSome = true ∧
        (s.on BELLOWS_SAFESTAT_CSTOP = false → v.stopped))
    (∀ ohm : List Nat, n < 4 → ohm.length = 5 → (∀ r ∈ ohm, r < 5000) → s.get (BELLOWS_LEAK_STATE n) ≠ 1 →
      s.runs (.leak n ohm t) (fun v => note v 1 (ohm.getD 4 0) ∧ effect v 0x0607 False)) ∧
    (∀ ohm held, n < 4 → s.get (BELLOWS_LEAK_STATE n) ≠ 2 →
      (30000 < ohm ∧ 100 * ms ≤ held ∨ (5000 ≤ ohm ∧ ohm < 7000 ∨ 13000 < ohm ∧ ohm ≤ 30000) ∧ sec ≤ held) →
      s.runs (.loopFault n ohm held t) (fun v => note v 2 ohm ∧ effect v 0x0608 (s.on (BELLOWS_LEAK_FAULTACT n) = false))) ∧
    (∀ ohm held, n < 4 → 7000 ≤ ohm → ohm ≤ 13000 → sec ≤ held → s.runs (.leakLoopNormal n ohm held t) (fun v =>
      v.get (BELLOWS_LEAK_STATE n) = 0 ∧ v.get (BELLOWS_LEAK_RES n) = ohm / 10 ∧
      (∀ a ∈ v.cool.alerts, a.idx = n → a.kind = 1 ∨ a.kind = 2 → a.stands = false) ∧
      State.only { u with cool := { u.cool with alerts := v.cool.alerts } } v [BELLOWS_LEAK n])) ∧
    (∀ flow (dp : Int) held, s.pwr.step = 4 → s.on BELLOWS_SAFESTAT_CSTOP = false → s.get (TUYERE_VSTAT_STATE 8) = 4 →
      s.get (TUYERE_VSTAT_STATE 9) = 4 → 500 * ms ≤ held → s.get BELLOWS_FLCFG_FLMIN ≤ flow → s.get BELLOWS_FLCFG_DPMIN ≤ dp →
      let armed := { u with cool := { u.cool with armed := true } }
      s.runs (.flowConfirm flow dp held t) (fun v =>
        if s.pwr.vinBad = true then v = armed
        else State.only { armed with pwr := { u.pwr with step := 5, stepAt := u.now, stop := false } } v [BELLOWS_PWRSTAT] ∧
          (s.cool.shdnExt = false → v.on BELLOWS_PWRSTAT_REGON = true ∧ v.get BELLOWS_PWRSTAT_STATE = 3) ∧
          (s.cool.shdnExt = true → v.csr = u.csr))) ∧
    (s.pwr.step = 4 → s.pwr.stop = false → s.pwr.stepAt + 30 * sec ≤ u.now → s.runs (.flowUnconfirmed t) (fun v =>
      u.acted v 0x060F ∧ v = { u with pwr := { u.pwr with stop := true }, evrec := v.evrec }))

/-- A later kick attempt drives full duty. An attempt that reaches 300 rpm ends the kick; the third that does not puts the
channel in FAULT, and its fellows to full duty; an earlier one rests. A lost tachometer drives the channel at full
duty and its fellows a quarter higher until it is classed: TACHLOST goes on, a stall begins a kick. Ten seconds of a
valid tachometer end TACHLOST. A keep-alive write keeps the time; without one for KATIME the module runs by itself.
(R467, R468, R469, R470). -/
def Obligations.Fans : Prop :=
  ∀ (s : State) (c t : Nat), let u := s.at t
    let just := fun (v : State) => State.only { u with cool := v.cool } v [BELLOWS_FSTAT c]
    (c < 4 →
      (∀ k, s.kickOf c = some k → k.on = false → s.get (BELLOWS_FSTAT_ATTEMPT c) < 3 →
        k.start + 5 * (s.get (BELLOWS_FSTAT_ATTEMPT c) + 1) * sec ≤ u.now → s.runs (.kickAttempt c t) (fun v => just v ∧
          v.kickOf c = some { k with on := true } ∧ v.get (BELLOWS_FSTAT_ATTEMPT c) = s.get (BELLOWS_FSTAT_ATTEMPT c) + 1 ∧
          v.get (BELLOWS_FSTAT_DUTY c) = 1000 ∧ u.acted v 0x060A)) ∧
      (∀ k rpm, s.kickOf c = some k → k.on = true →
        (300 ≤ rpm → s.runs (.kickAttemptEnd c rpm t) (fun v => just v ∧ v.kickOf c = none ∧ v.tachOf c = none ∧
          v.get (BELLOWS_FSTAT_STATE c) = 1 ∧ v.get (BELLOWS_FSTAT_RPM c) = min 65535 rpm)) ∧
        (rpm < 300 → k.start + (5 * s.get (BELLOWS_FSTAT_ATTEMPT c) + 3) * sec ≤ u.now →
          (s.get (BELLOWS_FSTAT_ATTEMPT c) = 3 → s.runs (.kickAttemptEnd c rpm t) (fun v =>
            v.get (BELLOWS_FSTAT_STATE c) = 5 ∧ v.get (BELLOWS_FSTAT_DUTY c) = 0 ∧ v.kickOf c = none ∧ u.acted v 0x060B ∧
            v.on BELLOWS_ERRSUM_FAN = true ∧
            (∀ x, x < 4 → x ≠ c → v.get (BELLOWS_FSTAT_DUTY x) =
              if x ∈ s.cool.driven ∧ s.get (BELLOWS_FSTAT_STATE x) ≠ 5 ∧ s.kickOf x = none then 1000
              else s.get (BELLOWS_FSTAT_DUTY x)) ∧
            State.only { u with cool := v.cool } v ([0, 1, 2, 3].map BELLOWS_FSTAT))) ∧
          (s.get (BELLOWS_FSTAT_ATTEMPT c) < 3 → s.runs (.kickAttemptEnd c rpm t) (fun v => just v ∧
            v.kickOf c = some { k with on := false } ∧ v.get (BELLOWS_FSTAT_DUTY c) = 0)))) ∧
      (∀ gap, s.get (BELLOWS_FSTAT_STATE c) = 1 ∨ s.get (BELLOWS_FSTAT_STATE c) = 6 → s.get (BELLOWS_FSTAT_RPM c) ≠ 0 → s.kickOf c = none → s.tachOf c = none →
        3 * 60 * sec ≤ gap * s.get (BELLOWS_FSTAT_RPM c) * (s.get (BELLOWS_FCFG_PPR c) + 1) → s.runs (.tachLoss c gap t) (fun v =>
          v.tachOf c = some ⟨u.now, s.flowMean, s.fanTemp c, false⟩ ∧ v.get (BELLOWS_FSTAT_DUTY c) = 1000 ∧
          v.on BELLOWS_ERRSUM_FAN = true ∧
          (∀ x, x < 4 → x ≠ c → v.get (BELLOWS_FSTAT_DUTY x) =
            if x ∈ s.cool.driven ∧ s.get (BELLOWS_FSTAT_STATE x) ≠ 5 ∧ s.kickOf x = none then
              min 1000 (s.get (BELLOWS_FSTAT_DUTY x) + 250) else s.get (BELLOWS_FSTAT_DUTY x)) ∧
          State.only { u with cool := v.cool } v ([0, 1, 2, 3].map BELLOWS_FSTAT))) ∧
      (∀ e, s.tachOf c = some e → e.classed = false →
        let lost := (s.get (BELLOWS_FCFG_ROLE c) = 1 ∧ s.get BELLOWS_CAPOUT_FSTATE = 0 ∧ 9 * e.flow ≤ 10 * s.flowMean) ∨
          (s.get (BELLOWS_FCFG_ROLE c) = 2 ∧ s.fanTemp c ≤ e.temp + 200 ∧ e.at_ + 10 * sec ≤ u.now)
        let stall := (s.get (BELLOWS_FCFG_ROLE c) = 1 ∧ ¬ (s.get BELLOWS_CAPOUT_FSTATE = 0 ∧ 9 * e.flow ≤ 10 * s.flowMean)) ∨
          (s.get (BELLOWS_FCFG_ROLE c) = 2 ∧ e.temp + 200 < s.fanTemp c)
        (lost → s.runs (.tachClassify c t) (fun v => just v ∧ v.get (BELLOWS_FSTAT_STATE c) = 3 ∧ u.acted v 0x060C ∧
          v.tachOf c = some { e with classed := true } ∧ v.kickOf c = s.kickOf c)) ∧
        (stall → s.runs (.tachClassify c t) (fun v => just v ∧ v.get (BELLOWS_FSTAT_STATE c) = 2 ∧
          v.get (BELLOWS_FSTAT_ATTEMPT c) = 0 ∧ v.get (BELLOWS_FSTAT_DUTY c) = 1000 ∧ v.kickOf c = some ⟨u.now, true⟩))) ∧
      (∀ held, s.get (BELLOWS_FSTAT_STATE c) = 3 → 10 * sec ≤ held → s.runs (.tachRecover c held t) (fun v => just v ∧
        v.get (BELLOWS_FSTAT_STATE c) = 1 ∧ v.tachOf c = none))) ∧
    (∀ w : Word, u.pathUp .rm = true → w.getLsbD 8 = true → bitsOf w.toNat 7 0 = s.get BELLOWS_KEEPALIVE_KATIME →
      s.runs (.keepaliveKa .rm w t) (fun v => v.cool = { s.cool with kaAt := u.now } ∧ ∀ a, v.rd a = s.rd a)) ∧
    (s.on BELLOWS_SAFESTAT_AUTO = false → s.cool.kaAt + s.get BELLOWS_KEEPALIVE_KATIME * sec ≤ u.now → s.runs (.autoMode t) (fun v =>
      v.on BELLOWS_SAFESTAT_AUTO = true ∧ u.acted v 0x060D ∧ u.only v [BELLOWS_SAFESTAT]))

/-- Every 10 ms from step 3 on, the module sends its LOOP message first where the controller is up and takes FD frames,
counts the period's hearings and puts the election's result in force: the master's slot is shown, the module is master
exactly where it was elected and no lower slot claims, and the master of a board of more than four modules has the
thermal model on every valve channel it drives. A LOOP message of another module replaces what is known of it, and a
claim from a lower slot ends the module's own. An ALERT of another module is recorded. (R49, R471, R472, R473, R521,
R549, R550). -/
def Obligations.LoopMaster : Prop :=
  ∀ (s : State) (t : Nat), let u := s.at t
    (3 ≤ s.pwr.step → s.runs (.loopPeriod t) (fun v => v.mem = s.mem ∧ v.hammer = s.hammer ∧ v.anvils = s.anvils ∧ v.jobs = s.jobs ∧
      v.get BELLOWS_LOOP_MASTERID = v.electMaster ∧
      v.on BELLOWS_SAFESTAT_MASTER = (v.electMaster == s.slotId && !v.lowerClaim) ∧
      (v.on BELLOWS_SAFESTAT_MASTER = true → 4 < v.boardSize → ∀ c, c < 8 → s.get (TUYERE_VCMD_MODE c) ≠ 0 →
        v.on (TUYERE_VPROT_PROT c) = true) ∧
      (u.canUp = true → s.on CANFD_CTL_FDEN = true → v.cool.loopSent = (s.cool.loopSent + 1) % 2 ^ 32 ∧
        ∃ fs, v.can.wire = s.can.wire ++ u.loopFrame :: fs) ∧
      (u.canUp = false ∨ s.on CANFD_CTL_FDEN = false → v.can.wire = s.can.wire ∧ ∀ k, k < 8 → v.peer k = (s.peer k).age))) ∧
    (∀ f : CanFrame, let b := leAt f.data 0 1
      let k := b % 8
      u.canTakes f = true → f.fdf = true → f.ide = false → f.rtr = false → f.data.length = 16 → f.id = 0x100 + k → k ≠ s.slotId →
      s.runs (.loopMessage f t) (fun v => v.mem = s.mem ∧ v.hammer = s.hammer ∧
        v.peer k = { s.peer k with
          cand := bit b 3, healthy := bit b 4, flow := leAt f.data 1 1, fresh := true
          claimAt := if bit b 5 then some u.now else (s.peer k).claimAt } ∧
        (∀ m, m ≠ k → v.peer m = s.peer m) ∧
        (bit b 5 = true → k < s.slotId → v.on BELLOWS_SAFESTAT_MASTER = false) ∧
        (bit b 5 = false ∨ s.slotId < k → v = { u with cool := { u.cool with peers := v.cool.peers } }))) ∧
    (∀ f : CanFrame, u.canTakes f = true → f.fdf = true → f.ide = false → f.rtr = false →
      f.data.length = 16 → 0x080 ≤ f.id → f.id < 0x088 → f.id - 0x080 ≠ s.slotId → s.runs (.alertRx f t) (fun v =>
        u.recorded v 0x0610 ∧ u.only v []))

/-- A sample moves the loop to its next instant, and from a valid source sets the output due Δ later within the clamps, an
output already due going to its destination first; a source without a valid value takes a running loop to HOLD. The
output goes to the destination and nowhere else. A loop whose checks pass is armed with its sections taken and
cleared; one that fails a check gets the check's number and is recorded. Clearing EN frees a loop at once. COMMIT,
PRIM and the repetitive controller's EN do what their rules say. The edge of a beacon that Temper has raised is
counted and handed to every running loop. A trace is armed, forced and read. (R480, R481, R486, R487, R489, R492,
R493, R495, R496, R498, R500). -/
def Obligations.QuenchLoops : Prop :=
  ∀ (s : State) (n t : Nat), n < 16 → let u := s.at t
    let l := s.loop n
    let lo := sx 32 (s.get (QUENCH_LCLAMP_OUTMIN n))
    let hi := sx 32 (s.get (QUENCH_LCLAMP_OUTMAX n))
    let only := fun (v : State) (regs : List Nat) => State.only { u with quench := v.quench } v regs
    (l.next ≤ u.micros → (l.wait = true ∨ s.lst n = 1 ∨ s.lst n = 2) → s.get (QUENCH_LCFG_DST n) ≠ 3 → s.runs (.loopSample n t) (fun v =>
      v.mem = s.mem ∧ v.hammer = s.hammer ∧
      ((∀ o d, l.due = some (o, d) → l.next < o) → v.cool = s.cool ∧ v.tuyere = s.tuyere) ∧
      (∀ o d, l.due = some (o, d) → o ≤ l.next → v.get (QUENCH_LSTAT_OUT n) = ux 32 d) ∧
      (v.loop n).next = l.next + s.get (QUENCH_LCFG_PER n) ∧ (v.loop n).wait = false ∧
      (s.qValid (s.get (QUENCH_LCFG_SRC n)) = true → lo ≤ hi →
        (v.lst n = 1 ∨ v.lst n = 3) ∧ ∃ d, (v.loop n).due = some (l.next + s.loopDelta n, d) ∧ lo ≤ d ∧ d ≤ hi) ∧
      (s.qValid (s.get (QUENCH_LCFG_SRC n)) = false → v.lst n = 2 ∧ v.on (QUENCH_LSTAT_SRCFAULT n) = true ∧
        (v.loop n).due = l.due.filter (fun p => decide (l.next < p.1))))) ∧
    (∀ o d, l.due = some (o, d) → o ≤ u.micros → let i := s.get (QUENCH_LCFG_DIDX n)
      s.runs (.loopOutput n t) (fun v => (v.loop n).due = none ∧ v.get (QUENCH_LSTAT_OUT n) = ux 32 d ∧
        (s.get (QUENCH_LCFG_DST n) = 0 → State.only { u with quench := v.quench } v [QUENCH_LSTAT n]) ∧
        (s.get (QUENCH_LCFG_DST n) = 1 → i < 8 → (v.valve i).duty = (clampI d 0 1000).toNat ∧
          State.only { u with quench := v.quench, tuyere := v.tuyere } v [QUENCH_LSTAT n] ∧
          ∀ k, k ≠ i → v.valve k = s.valve k) ∧
        (s.get (QUENCH_LCFG_DST n) = 2 → Tab.get (fun _ => (0 : Int)) v.cool.offs i = clampI d (-1000) 1000 ∧
          State.only { u with quench := v.quench, cool := { u.cool with offs := v.cool.offs } } v [QUENCH_LSTAT n]) ∧
        (s.get (QUENCH_LCFG_DST n) = 3 → v.get (QUENCH_LSP_SP i) = ux 32 d ∧ only v [QUENCH_LSTAT n, QUENCH_LSP i]))) ∧
    (u.pathUp .rm = true → ∀ w : Word,
      (w.getLsbD 0 = true → w.getLsbD 2 = false → w.getLsbD 3 = false → s.loopBusy n = false →
        (s.armError n = 0 → s.runs (.loopArm .rm n w t) (fun v => (v.loop n).next = u.loopT0 n ∧ v.get (QUENCH_LSTAT_ERR n) = 0 ∧
          (v.loop n).due = none ∧
          (if s.on (QUENCH_LCFG_MONLY n) = true ∧ s.on BELLOWS_SAFESTAT_MASTER = false then v.lst n = 4 ∧ (v.loop n).wait = false
           else v.lst n = 0 ∧ (v.loop n).wait = true) ∧
          (∀ q ∈ s.loopSecs n, v.on (QUENCH_SCTL_OWNED q) = true ∧ v.get (QUENCH_SCTL_OWNER q) = n ∧ v.rd (QUENCH_SZ q) = 0) ∧
          (s.get (QUENCH_LCFG_DST n) = 3 → v.on (QUENCH_LSP_SPEXT (s.get (QUENCH_LCFG_DIDX n))) = true))) ∧
        (s.armError n ≠ 0 → s.runs (.loopArm .rm n w t) (fun v => v.get (QUENCH_LSTAT_ERR n) = s.armError n ∧ u.acted v 0x0702 ∧
          v.quench = s.quench ∧ only v [QUENCH_LCTL n, QUENCH_LSTAT n]))) ∧
      (w.getLsbD 0 = false → w.getLsbD 2 = false → w.getLsbD 3 = false → s.loopBusy n = true → s.runs (.loopDisarm .rm n w t) (fun v =>
        v.lst n = 0 ∧ (v.loop n).wait = false ∧ (v.loop n).due = none ∧ (v.loop n).shadow = [] ∧
        ∀ q ∈ s.loopSecs n, v.on (QUENCH_SCTL_OWNED q) = false)) ∧
      (w.getLsbD 0 = true → w.getLsbD 2 = false → w.getLsbD 3 = true → s.loopBusy n = true → s.runs (.commit .rm n w t) (fun v =>
        v.loop n = { l with commit := some u.micros } ∧ only v [QUENCH_LCTL n] ∧ ∀ m, m ≠ n → v.loop m = s.loop m)) ∧
      (w.getLsbD 0 = true → w.getLsbD 2 = true → w.getLsbD 3 = false → s.loopBusy n = true → s.runs (.prim .rm n w t) (fun v =>
        v.loop n = { l with prim := true } ∧ only v [QUENCH_LCTL n] ∧ ∀ m, m ≠ n → v.loop m = s.loop m)) ∧
      (s.loopBusy n = false → s.runs (.rcEn .rm n w t) (fun v =>
        v.get (QUENCH_RCCFG_LGAIN n) = bitsOf w.toNat 63 48 ∧ v.get (QUENCH_RCCFG_FORGET n) = bitsOf w.toNat 47 32 ∧
        v.get (QUENCH_RCCFG_NFIX n) = bitsOf w.toNat 31 21 ∧ v.get (QUENCH_RCCFG_PSRC n) = bitsOf w.toNat 1 1 ∧
        v.get (QUENCH_RCCFG_EN n) = bitsOf w.toNat 0 0 ∧ only v [QUENCH_RCCFG n, QUENCH_RCSTAT n] ∧
        (w.getLsbD 0 = false → v.get (QUENCH_RCSTAT_STATE n) = 0 ∧ v.get (QUENCH_RCSTAT_OUT n) = 0 ∧ (v.loop n).mem = []) ∧
        (w.getLsbD 0 = true → v.quench = s.quench ∧ v.rd (QUENCH_RCSTAT n) = s.rd (QUENCH_RCSTAT n)))) ∧
      (w.getLsbD 0 = true → w.getLsbD 1 = false → s.runs (.quenchTraceArm .rm w t) (fun v => v.get QUENCH_TRSTAT_STATE = 1 ∧
        v.get QUENCH_TRSTAT_CDONE = 0 ∧ v.get QUENCH_TRCTL_PRE = bitsOf w.toNat 31 20 ∧ only v [QUENCH_TRCTL, QUENCH_TRSTAT] ∧
        ∀ c ∈ s.qchans, (v.qchan c).ents = [])) ∧
      (w.getLsbD 0 = false → w.getLsbD 1 = true → s.get QUENCH_TRSTAT_STATE = 1 →
        (∀ c ∈ s.qchans, bitsOf w.toNat 31 20 ≤ (s.qchan c).ents.length) → s.runs (.quenchTraceForce .rm w t) (fun v =>
          v.get QUENCH_TRSTAT_STATE = 2 ∧ v.quench = s.quench ∧ only v [QUENCH_TRCTL, QUENCH_TRSTAT]))) ∧
    (∀ e, (s.qchan (s.get QUENCH_TRSEL_CH)).ents[s.get QUENCH_TRSEL_IDX]? = some e → s.runs (.quenchTrdata t) (fun v =>
      v.rd QUENCH_TRDATA = BitVec.ofNat 64 (e.1 * 2 ^ 32 + e.2) ∧
      v.get QUENCH_TRSEL_IDX = (s.get QUENCH_TRSEL_IDX + 1) % 2 ^ 12 ∧ u.only v [QUENCH_TRDATA, QUENCH_TRSEL])) ∧
    (s.hammer.beaconUp = false → s.runs (.beacon t) (fun v => v = u)) ∧
    (s.hammer.beaconUp = true → s.runs (.beacon t) (fun v => v.quench.edge = some u.micros ∧
      v.get QUENCH_BEACON_COUNT = min (s.get QUENCH_BEACON_COUNT + 1) (2 ^ 32 - 1) ∧
      State.only { u with quench := v.quench, hammer := { u.hammer with beaconUp := false } } v [QUENCH_BEACON, QUENCH_TRSTAT] ∧
      (∀ e, s.quench.edge = some e → v.get QUENCH_BEACON_LASTIV = min (u.micros - e) (2 ^ 32 - 1)) ∧
      let per := s.get (QUENCH_LCFG_PER n)
      (v.loop n).edges = if s.lst n = 1 ∧ per ≠ 0 then
        l.edges ++ [s.quench.edge.map (fun e => (divRne ((u.micros - e : Nat) : Int) (per : Int)).toNat)] else l.edges))

/-- FIXCMD opens an idle channel, which asks for the high side, and closes an open one with its motion checked. A profile
in order is stored and one out of order refused and recorded. The high side goes to the oldest request, straight to
PEAK, or on an X channel to BOOST once VBOOST is ready. IPEAK reached in time begins the peak time, whose end is HOLD
with the high side freed; reached too soon, too late or with an overcurrent, the profile is aborted, the third time
with FAULT. (R504, R507, R508, R509, R510, R511, R513, R514, R517). -/
def Obligations.ValveDrive : Prop :=
  ∀ (s : State) (c t : Nat), c < 10 → let u := s.at t
    let x := s.valve c
    let b := bankOf c
    let mine := fun (v : State) (regs : List Nat) => State.only { u with tuyere := v.tuyere } v (TUYERE_VSTAT c :: regs)
    let aborted := fun (v : State) => (v.vst c = if 3 ≤ x.aborts + 1 then 6 else 5) ∧ (v.valve c).aborts = x.aborts + 1 ∧
      (v.valve c).abortAt = some u.now ∧ v.on (TUYERE_VSTAT_FAULT c) = (s.on (TUYERE_VSTAT_FAULT c) || decide (3 ≤ x.aborts + 1)) ∧
      v.get (TUYERE_VDIAG_ABORTCNT c) = min (s.get (TUYERE_VDIAG_ABORTCNT c) + 1) 255 ∧ v.holder b ≠ some c ∧
      v.on BELLOWS_ERRSUM_VALVE = true ∧
      State.only { u with tuyere := v.tuyere, cool := { u.cool with alerts := v.cool.alerts } } v [TUYERE_VSTAT c, TUYERE_VDIAG c]
    (u.pathUp .rm = true → u.domOn 198 = true → s.on BELLOWS_SAFESTAT_LEAKISO = false → ∀ w : Word, bitsOf w.toNat 1 0 = 2 →
      (w.getLsbD 3 = true → w.getLsbD 4 = false → s.vBlocked c = false → s.vst c = 0 → x.want = false →
        s.runs (.fixcmd .rm c w t) (fun v => v.vst c = 1 ∧ (v.valve c).want = true ∧ (v.valve c).reqAt = some u.now ∧
          (v.valve c).hold = false ∧ v.get (TUYERE_VCMD_MODE c) = 2 ∧ v.on (TUYERE_VCMD_FIXCMD c) = true ∧ mine v [TUYERE_VCMD c] ∧
          ∀ k, k ≠ c → v.valve k = s.valve k)) ∧
      (w.getLsbD 3 = false → s.vst c = 4 → x.want = true → s.runs (.fixcmd .rm c w t) (fun v => v.vst c = 5 ∧
        (v.valve c).want = false ∧ (v.valve c).kchk = true ∧ (v.valve c).since = u.now ∧ mine v [TUYERE_VCMD c] ∧
        ∀ k, k ≠ c → v.valve k = s.valve k))) ∧
    (u.pathUp .rm = true → u.domOn 198 = true → ∀ w : Word, let f := fun hi lo => bitsOf w.toNat hi lo
      2 ≤ f 63 56 → f 55 48 ≤ 254 → 1 ≤ f 47 40 → 50 ≤ f 32 24 → f 32 24 ≤ 300 → 10 ≤ f 16 8 → f 16 8 ≤ 150 → 10 ≤ f 7 0 → f 7 0 ≤ 150 →
      if f 16 8 ≤ f 32 24 ∧ f 7 0 ≤ f 32 24 ∧ f 55 48 < f 63 56 then s.runs (.vprofWrite .rm c w t) (fun v =>
        v.get (TUYERE_VPROF_TPKMAX c) = f 63 56 ∧ v.get (TUYERE_VPROF_TPKMIN c) = f 55 48 ∧ v.get (TUYERE_VPROF_TPEAK c) = f 47 40 ∧
        v.get (TUYERE_VPROF_IPEAK c) = f 32 24 ∧ v.get (TUYERE_VPROF_IHOLD c) = f 16 8 ∧ v.get (TUYERE_VPROF_IHMIN c) = f 7 0 ∧
        u.only v [TUYERE_VPROF c])
      else s.runs (.vprofWrite .rm c w t) (fun v => u.acted v 0x0807 ∧ v.on BELLOWS_ERRSUM_VALVE = true ∧ u.only v [])) ∧
    (s.holder b = none → u.domOn 198 = true → u.nextRequest b = some c →
      (c < 8 ∨ x.noBoost = true → s.runs (.highSideGrant b t) (fun v => v.vst c = 3 ∧ v.holder b = some c ∧
        (v.valve c).reqAt = none ∧ (v.valve c).start = u.now ∧ mine v [])) ∧
      (8 ≤ c → x.noBoost = false → s.on TUYERE_BOOST_READY = true → s.runs (.highSideGrant b t) (fun v => v.vst c = 2 ∧
        v.holder b = some c ∧ (v.valve c).reqAt = none ∧ mine v [])) ∧
      (8 ≤ c → x.noBoost = false → s.on TUYERE_BOOST_READY = false → s.runs (.highSideGrant b t) (fun v =>
        v = u.setValve c { x with
          reqAt := none, bwait := some (x.bwait.getD (u.now + s.get TUYERE_BOOST_BWAIT * ms)) }))) ∧
    (∀ vb, let ready := decide (25 * s.get TUYERE_BOOST_BRDY ≤ vb)
      s.runs (.boostReady vb t) (fun v => v.get TUYERE_BOOST_VBOOST = vb % 65536 ∧ v.on TUYERE_BOOST_READY = ready ∧
        State.only { u with tuyere := v.tuyere } v [TUYERE_BOOST] ∧
        ∀ w, x.bwait = some w → 8 ≤ c → ready = true → s.vst c = 1 → u.now ≤ w →
          v.valve c = { x with bwait := none, reqAt := some u.now })) ∧
    (∀ w, 8 ≤ c → x.bwait = some w → s.vst c = 1 → w ≤ u.now → s.runs (.boostnr c t) (fun v =>
      v.valve c = { x with bwait := none, noBoost := true, reqAt := some u.now } ∧ v.on (TUYERE_VSTAT_BOOSTNR c) = true ∧
      v.get (TUYERE_VDIAG_BNRCNT c) = min (s.get (TUYERE_VDIAG_BNRCNT c) + 1) 255 ∧ u.acted v 0x0803 ∧ mine v [TUYERE_VDIAG c])) ∧
    ((s.vst c = 2 ∨ s.vst c = 3) → x.peakAt = none →
      (∀ cur vb, s.get (TUYERE_VPROF_IPEAK c) ≤ cur →
        let d := u.now - x.start
        (s.get (TUYERE_VPROF_TPKMIN c) * 100000 ≤ d → d ≤ s.get (TUYERE_VPROF_TPKMAX c) * 100000 → s.runs (.peakReached c cur vb t) (fun v => v.vst c = 3 ∧
          (v.valve c).peakAt = some u.now ∧ v.get (TUYERE_VDIAG_TTP c) = tenths d ∧ v.get (TUYERE_VSTAT_ICOIL c) = min 511 cur ∧
          mine v [TUYERE_VDIAG c])) ∧
        (d < s.get (TUYERE_VPROF_TPKMIN c) * 100000 → s.runs (.peakReached c cur vb t) (fun v =>
          v.on (TUYERE_VSTAT_TTPLOW c) = true ∧ aborted v)) ∧
        (s.get (TUYERE_VPROF_TPKMIN c) * 100000 ≤ d → s.get (TUYERE_VPROF_TPKMAX c) * 100000 < d → s.runs (.peakReached c cur vb t)
          (fun v => v.on (TUYERE_VSTAT_TTPHIGH c) = true ∧ aborted v))) ∧
      (x.start + s.get (TUYERE_VPROF_TPKMAX c) * 100000 ≤ u.now → s.runs (.ttphigh c t) (fun v =>
        v.on (TUYERE_VSTAT_TTPHIGH c) = true ∧ aborted v))) ∧
    (∀ p, x.peakAt = some p → s.vst c = 3 → p + s.get (TUYERE_VPROF_TPEAK c) * 100000 ≤ u.now → s.runs (.tpeakEnd c t) (fun v =>
      v.vst c = 4 ∧ v.holder b ≠ some c ∧ (v.valve c).aborts = 0 ∧ v.mem = s.mem ∧ v.hammer = s.hammer ∧
      (c = 8 → s.pwr.step = 3 → s.pwr.stop = false → v.pwr.step = 4 ∧ v.secb.tries = 0) ∧ (c = 9 → v.tuyere.seq = false) ∧ (c < 8 → mine v []))) ∧
    (∀ cur, 350 < cur → s.energised c = true → s.runs (.overcur c false cur t) (fun v =>
      v.on (TUYERE_VSTAT_OVERCUR c) = true ∧ aborted v)) ∧
    (∀ cur, 800 < cur → s.runs (.overcur c true cur t) (fun v => v.get (TUYERE_BANK_IHS b) = min 65535 cur ∧
      ∀ k, k < 10 → if bankOf k = b ∧ s.energised k = true then
          v.on (TUYERE_VSTAT_OVERCUR k) = true ∧ (v.vst k = 5 ∨ v.vst k = 6) ∧ (v.valve k).aborts = (s.valve k).aborts + 1
        else v.valve k = s.valve k ∧ v.rd (TUYERE_VSTAT k) = s.rd (TUYERE_VSTAT k))) ∧
    (∀ a, x.abortAt = some a → s.get (TUYERE_VCMD_MODE c) = 2 → a + 100 * ms ≤ u.now → s.vWanted c = true →
      s.on BELLOWS_SAFESTAT_LEAKISO = false →
      (s.vst c = 0 → s.runs (.abortRetry c t) (fun v => v.vst c = 1 ∧ (v.valve c).reqAt = some u.now ∧
        (v.valve c).abortAt = none ∧ (v.valve c).want = true ∧ mine v [])) ∧
      (s.vst c = 5 → s.runs (.abortRetry c t) (fun v => v = u.setValve c { x with abortAt := none, want := true, reopen := true })))

/-- A kink in time ends a checked closing; without one the closing ends as a no-motion fault, on a second miss in a row
not recorded again but on X0 and X1. A period's start shows the energised fraction and begins the next. An event takes
its on-time from the duty and the accumulator, is not begun at the window's limit, and ends at its end; a request
refused for PKWAIT and a window at its limit return the lost time. The coil model keeps its temperature and flags.
VVALVE lost closes every channel and its return lets each follow its command; after a second the domain is off. In an
isolation X1 follows X0's kink or XGAP. (R512, R515, R516, R517, R518, R519, R520, R523, R524, R589). -/
def Obligations.ValveEvents : Prop :=
  ∀ (s : State) (c t : Nat), c < 10 → let u := s.at t
    let x := s.valve c
    let b := bankOf c
    let mine := fun (v : State) (regs : List Nat) => State.only { u with tuyere := v.tuyere } v (TUYERE_VSTAT c :: regs)
    (∀ tz, s.vst c = 5 → x.reopen = false →
      (x.kchk = true → u.now ≤ x.since + s.get (TUYERE_VKINK_KWIN c) * ms → s.runs (.kink c tz t) (fun v => v.vst c = 0 ∧
        v.get (TUYERE_VDIAG_TCLOSE c) = tenths (u.now - x.since) ∧ (v.valve c).missed = false ∧
        mine v [TUYERE_VDIAG c, TUYERE_XSEQ])) ∧
      (x.since + s.get (TUYERE_VKINK_KWIN c) * ms ≤ u.now →
        (x.kchk = true → s.runs (.nomotion c tz t) (fun v => v.vst c = 0 ∧ v.on (TUYERE_VSTAT_NOMOTION c) = true ∧
          v.get (TUYERE_VDIAG_NMCNT c) = min (s.get (TUYERE_VDIAG_NMCNT c) + 1) 65535 ∧ v.get (TUYERE_VDIAG_TCLOSE c) = 0 ∧
          (v.valve c).missed = true ∧ mine v [TUYERE_VDIAG c, TUYERE_XSEQ] ∧
          if 8 ≤ c ∨ x.missed = false then u.acted v 0x0804 else v.evrec = s.evrec)) ∧
        (x.kchk = false → s.runs (.nomotion c tz t) (fun v => v.vst c = 0 ∧ mine v [TUYERE_XSEQ] ∧
          v.on (TUYERE_VSTAT_NOMOTION c) = s.on (TUYERE_VSTAT_NOMOTION c))))) ∧
    (b < 2 → u.domOn 198 = true → s.periodAt b + s.vper b ≤ u.now → s.runs (.periodStart b t) (fun v =>
      v.periodAt b = s.periodAt b + (u.now - s.periodAt b) / s.vper b * s.vper b ∧
      v.get (TUYERE_VSTAT_DUTYAPP c) = min 1000 (x.onSince (s.periodAt b) u.now * 1000 / (u.now - s.periodAt b)) ∧
      v.valve c = { x with forced := false, seen := false } ∧
      State.only { u with tuyere := v.tuyere } v ((bankChannels b).map TUYERE_VSTAT))) ∧
    (c < 8 → s.get (TUYERE_VCMD_MODE c) = 1 → s.periodAt b + s.get (TUYERE_VCMD_SLOT c) * s.vper b / 256 ≤ u.now →
      x.seen = false → u.domOn 198 = true →
      let r := onTime x.duty (s.vper b / us) (s.get (TUYERE_VCMD_TONMIN c) * 10000) (s.get (TUYERE_VCMD_TOFFMIN c) * 10000) x.acc
      let at_ := s.periodAt b + s.get (TUYERE_VCMD_SLOT c) * s.vper b / 256
      let full := s.thermalProt c = false ∧ s.get (TUYERE_VPROT_LIMIT c) ≤ u.winPct c ∧ 0 < r.1
      (¬ full → s.runs (.eventStart c t) (fun v => (v.valve c).evStart = at_ ∧ (v.valve c).evEnd = at_ + r.1 * us ∧
        (v.valve c).evOn = decide (0 < r.1) ∧ (v.valve c).acc = r.2 ∧ (v.valve c).seen = true ∧ (v.valve c).want = v.vWanted c ∧
        State.only { u with tuyere := v.tuyere } v [TUYERE_VSTAT c])) ∧
      (full → s.runs (.eventStart c t) (fun v => (v.valve c).evOn = false ∧ (v.valve c).acc = r.2 + r.1 ∧
        v.on (TUYERE_VSTAT_DLIM c) = true ∧ v.on (TUYERE_VSTAT_FORCED c) = true ∧ (v.valve c).want = false ∧
        State.only { u with tuyere := v.tuyere } v [TUYERE_VSTAT c]))) ∧
    (c < 8 → x.evOn = true → x.evEnd ≤ u.now → (s.vst c ≠ 1 ∨ x.hold = true) →
      x.evEnd + s.get (TUYERE_VCMD_TOFFMIN c) * 10 * ms ≤ x.evStart + s.vper b →
      s.runs (.eventEnd c t) (fun v => (v.valve c).evOn = false ∧ (v.valve c).want = v.vWanted c ∧ mine v [])) ∧
    (∀ r, x.reqAt = some r → s.vst c = 1 → r + s.get (TUYERE_BANK_PKWAIT b) * ms ≤ u.now → s.runs (.pkrefuse c t) (fun v =>
      v.vst c = 0 ∧ v.on (TUYERE_VSTAT_PKREFUSE c) = true ∧ (v.valve c).reqAt = none ∧
      (v.valve c).want = (x.want && s.get (TUYERE_VCMD_MODE c) != 1) ∧ (v.valve c).evOn = false ∧ v.get (TUYERE_VDIAG_REFCNT c) = min (s.get (TUYERE_VDIAG_REFCNT c) + 1) 65535 ∧
      u.acted v 0x0802 ∧ v.on BELLOWS_ERRSUM_VALVE = true ∧ mine v [TUYERE_VDIAG c] ∧
      (v.valve c).acc = if s.get (TUYERE_VCMD_MODE c) = 1 ∧ x.evOn = true then x.acc + ((x.evEnd - x.evStart) / us : Nat) else x.acc)) ∧
    (c < 8 → s.thermalProt c = false →
      (s.get (TUYERE_VPROT_LIMIT c) ≤ u.winPct c → x.limited = false → s.energised c = true → s.runs (.dlim c t) (fun v =>
        (v.valve c).limited = true ∧ (v.valve c).evOn = false ∧ (v.valve c).want = false ∧ v.on (TUYERE_VSTAT_DLIM c) = true ∧
        v.on (TUYERE_VSTAT_FORCED c) = true ∧ mine v [] ∧
        (v.valve c).acc = if s.get (TUYERE_VCMD_MODE c) = 1 ∧ x.evOn = true then x.acc + ((x.evEnd - u.now) / us : Nat) else x.acc)) ∧
      (u.winPct c < s.get (TUYERE_VPROT_LIMIT c) → x.limited = true → s.runs (.dlim c t) (fun v =>
        (v.valve c).limited = false ∧ (v.valve c).want = v.vWanted c ∧ mine v []))) ∧
    (∀ irms2, s.thermalProt c = true → u.domOn 198 = true → x.step < u.now / (10 * ms) → let tc := s.coilStep c irms2
      s.runs (.coilModel c irms2 t) (fun v => (v.valve c).tc = tc ∧ (v.valve c).step = u.now / (10 * ms) ∧
        ((v.valve c).warm, (v.valve c).hot) = s.coilState c tc ∧ v.get (TUYERE_VSTAT_TCOIL c) = clip16 (fRne (fMul tc (fI 100))) ∧
        ((v.valve c).warm = true → v.on (TUYERE_VSTAT_COILWARN c) = true) ∧
        ((v.valve c).hot = true → v.on (TUYERE_VSTAT_COILHOT c) = true) ∧
        ((v.valve c).warm ≠ x.warm ∨ (v.valve c).hot ≠ x.hot → u.acted v 0x0805) ∧ mine v [])) ∧
    (∀ mv held,
      (mv < 900 → ms ≤ held → s.tuyere.low = false → s.runs (.vvlow mv held t) (fun v => v.tuyere.low = true ∧
        v.on TUYERE_VVMON_VVLOW = true ∧ v.get TUYERE_VVMON_VVALVE = mv ∧ (v.valve c).want = false ∧ u.acted v 0x0806 ∧
        v.mem = s.mem ∧ v.hammer = s.hammer ∧ v.cool = s.cool)) ∧
      (1050 ≤ mv → 10 * ms ≤ held → s.tuyere.low = true → s.runs (.vvalveRecover mv held t) (fun v => v.tuyere.low = false ∧
        v.domOn 198 = true ∧ (v.valve c).want = v.vWanted c ∧ u.acted v 0x0806 ∧ v.mem = s.mem ∧ v.hammer = s.hammer ∧
        v.cool = s.cool)) ∧
      (mv < 900 → sec ≤ held → u.domOn 198 = true → s.runs (.tuyereDomainOff mv held t) (fun v => v.domOn 198 = false ∧
        v.tuyere.low = true ∧ v.valve c = Valve.reset ∧ v.mem = s.mem ∧ v.hammer = s.hammer ∧ v.cool = s.cool ∧
        ∀ a, a ≠ BELLOWS_PDSTAT3 → v.rd a = if a / 65536 = 0x38000002 then regReset a else s.rd a))) ∧
    (∀ i k, s.tuyere.iso = some i → s.on BELLOWS_SAFESTAT_LEAKISO = true → i.x1At = none →
      (i.kinkAt = some k ∧ k + 500 * us ≤ u.now ∨ i.at_ + s.get TUYERE_XSEQ_XGAP * 100000 ≤ u.now) → s.runs (.x1Release t) (fun v =>
        v.tuyere.iso = some { i with x1At := some u.now } ∧ v.get TUYERE_XSEQ_TX1REL = tenths (u.now - i.at_) ∧
        (v.valve 9).want = false ∧ State.only { u with tuyere := v.tuyere } v [TUYERE_XSEQ, TUYERE_VSTAT 9]))

/-- A frame that a filter admits is stored in the buffer the filter names with its identifier, flags, data and time, and
NEWDAT; one that none admits goes to buffer 63 under NOMATCH; a remote frame is counted and dropped. TXREQ makes an
enabled transmit buffer pending, CANCEL ends it before arbitration and after it only stops the retry, ACK clears
NEWDAT only for the present WCNT. A sent frame goes out and leaves the buffer; one not sent stays pending unless it is
cancelled or its window exclusive. Bus states are shown, error-passive and bus-off recorded, and bus-off is left after
128 sequences. (R530, R534, R535, R536, R537, R538, R539, R540, R541). -/
def Obligations.CanFrames : Prop :=
  ∀ (s : State) (t : Nat), let u := s.at t
    let stored := fun (v : State) (b : Nat) (f : CanFrame) =>
      v.on (CANFD_BSTAT_NEWDAT b) = true ∧ v.get (CANFD_BSTAT_WCNT b) = (s.get (CANFD_BSTAT_WCNT b) + 1) % 256 ∧
      v.get (CANFD_BSTAT_RID b) = f.id % 2 ^ 29 ∧ v.on (CANFD_BSTAT_IDE b) = f.ide ∧ v.on (CANFD_BSTAT_FDF b) = f.fdf ∧
      v.on (CANFD_BSTAT_BRS b) = f.brs ∧ v.get (CANFD_BSTAT_DLC b) = f.dlc % 16 ∧
      (s.on (CANFD_BSTAT_NEWDAT b) = true → v.on (CANFD_BSTAT_MSGLOST b) = true) ∧
      v.rd (CANFD_BTS b) = BitVec.ofNat 64 (u.now / us) ∧
      (∀ i, i < 64 → (v.rd (CANFD_BDATA b (i / 8))).toNat / 256 ^ (i % 8) % 256 =
        match f.data[i]? with
        | some x => x.toNat
        | none => (s.rd (CANFD_BDATA b (i / 8))).toNat / 256 ^ (i % 8) % 256) ∧
      u.only v ([CANFD_BSTAT b, CANFD_BTS b] ++ (List.range 8).map (CANFD_BDATA b))
    (∀ f : CanFrame, u.canTakes f = true →
      (f.rtr = true → s.runs (.canFrameRx f t) (fun v => v.get CANFD_STAT_RMTDROP = min (s.get CANFD_STAT_RMTDROP + 1) 65535 ∧
        u.only v [CANFD_STAT])) ∧
      (f.rtr = false → ∀ k, (List.range 128).find? (fun k => s.filterHit k f) = some k →
        s.get (CANFD_FLTA_ACT k) < 2 → s.rxBuf (s.get (CANFD_FLTA_BUF k)) = true →
        s.runs (.canFrameRx f t) (fun v => stored v (s.get (CANFD_FLTA_BUF k)) f)) ∧
      (f.rtr = false → (List.range 128).find? (fun k => s.filterHit k f) = none → s.on CANFD_CTL_NOMATCH = true →
        s.rxBuf 63 = true → s.runs (.canFrameRx f t) (fun v => stored v 63 f))) ∧
    (∀ n p w, n < 64 → u.pathUp p = true →
      (w.getLsbD 0 = true → w.getLsbD 1 = false → w.getLsbD 2 = false → s.txBuf n = true → s.runs (.txreq p n w t) (fun v =>
        v.on (CANFD_BSTAT_TXPEND n) = true ∧ v.can.wire = s.can.wire ∧
        State.only { u with can := v.can } v [CANFD_BSTAT n])) ∧
      (w.getLsbD 1 = true → w.getLsbD 2 = false → s.on (CANFD_BSTAT_TXPEND n) = true →
        (∀ begun, begun = false ∨ s.can.offer ≠ some n → s.runs (.cancel p n w begun t) (fun v =>
          v.on (CANFD_BSTAT_TXPEND n) = false ∧ v.on (CANFD_BSTAT_TXCAN n) = true ∧ v.can.wire = s.can.wire ∧
          State.only { u with can := v.can } v [CANFD_BSTAT n])) ∧
        (s.can.offer = some n → s.runs (.cancel p n w true t) (fun v =>
          v = { u with can := { u.can with cancelling := s.can.cancelling ++ [n] } }))) ∧
      (w.getLsbD 0 = false → w.getLsbD 1 = false → w.getLsbD 2 = true → s.runs (.bcmdAck p n w t) (fun v =>
        v.on (CANFD_BSTAT_NEWDAT n) =
          (if bitsOf w.toNat 10 3 = s.get (CANFD_BSTAT_WCNT n) then false else s.on (CANFD_BSTAT_NEWDAT n)) ∧
        u.only v [CANFD_BSTAT n]))) ∧
    (∀ n tdcv, n < 64 → u.canUp = true → s.on (CANFD_BSTAT_TXPEND n) = true → s.can.offer = some n →
      s.runs (.canTxComplete n true tdcv t) (fun v => v.on (CANFD_BSTAT_TXOK n) = true ∧ v.on (CANFD_BSTAT_TXPEND n) = false ∧
        v.can.wire = s.can.wire ++ [u.bufFrame n] ∧ (n ∈ s.can.cancelling → v.on (CANFD_BSTAT_CANFAIL n) = true) ∧
        ((u.bufFrame n).fdf = true → s.on CANFD_CTL_TDCEN = true → v.get CANFD_TDC_TDCV = min 127 tdcv) ∧
        State.only { u with can := v.can } v [CANFD_BSTAT n, CANFD_TDC]) ∧
      (n ∈ s.can.cancelling ∨ u.exclusive = true → s.runs (.canTxComplete n false tdcv t) (fun v =>
        v.on (CANFD_BSTAT_TXCAN n) = true ∧ v.on (CANFD_BSTAT_TXPEND n) = false ∧ v.can.wire = s.can.wire ∧
        State.only { u with can := v.can } v [CANFD_BSTAT n])) ∧
      (n ∉ s.can.cancelling → u.exclusive = false → s.runs (.canTxComplete n false tdcv t) (fun v =>
        v.on (CANFD_BSTAT_TXPEND n) = true ∧ v = { u with can := { u.can with offer := v.can.offer } }))) ∧
    (∀ st tec rec lec, st < 4 → s.on CANFD_CTL_EN = true → (s.get CANFD_STAT_STATE = 2 → st = 2) → s.runs (.canState st tec rec lec t) (fun v =>
      v.get CANFD_STAT_STATE = st ∧ v.get CANFD_STAT_TEC = min 255 tec ∧ v.get CANFD_STAT_REC = min 255 rec ∧
      (lec < 7 → v.get CANFD_STAT_LEC = lec) ∧ (st = 2 → v.on CANFD_STAT_BOFF = true ∧ v.can.offer = none) ∧
      (st = 1 ∨ st = 2 → st ≠ s.get CANFD_STAT_STATE → u.recorded v 0x0900) ∧
      State.only { u with can := v.can } v [CANFD_STAT])) ∧
    (∀ seqs, 128 ≤ seqs → s.on CANFD_CTL_EN = true → s.get CANFD_STAT_STATE = 2 →
      (s.on CANFD_CTL_BOMAN = false ∨ s.can.rejoin = true) → s.runs (.busOffRecovery seqs t) (fun v =>
        v.get CANFD_STAT_STATE = 0 ∧ v.get CANFD_STAT_TEC = 0 ∧ v.get CANFD_STAT_REC = 0 ∧ v.can.rejoin = false ∧
        State.only { u with can := v.can } v [CANFD_STAT]))

/-- TTEN set checks the matrix: the first check broken is shown and the controller stays out, else it waits for a
reference message. A reference message, heard or sent after a silence by a potential time master, begins the basic
cycle it numbers. A trigger in its cycle opens its window. Three cycle lengths of silence are EVENT. (R542, R543,
R544, R546, R547). -/
def Obligations.CanTime : Prop :=
  ∀ (s : State) (t : Nat), let u := s.at t
    let only := fun (v : State) (regs : List Nat) => State.only { u with can := v.can } v regs
    let cycle := fun (v : State) (p c : Nat) (own : Bool) => v.get CANFD_TTSTAT_CYCLE = c % 64 ∧ v.get CANFD_TTSTAT_CURTM = p ∧
      v.on CANFD_TTSTAT_ISTM = own ∧ v.get CANFD_TTSTAT_CTIME = 0 ∧ v.can.lastRef = u.now ∧ v.can.cycleAt = u.now ∧
      v.can.refSeen = true ∧ v.can.win = none ∧
      if s.get CANFD_TTSTAT_TTSTATE = 3 ∧ s.can.back = false then v.get CANFD_TTSTAT_TTSTATE = 3 ∧ v.can.back = true
      else v.get CANFD_TTSTAT_TTSTATE = 2 ∧ v.can.back = false
    (∀ w : Word, u.pathUp .rm = true → w.getLsbD 0 = true → s.on CANFD_TTCFG_TTEN = false → s.runs (.tten .rm w t) (fun v =>
      v.on CANFD_TTCFG_TTEN = true ∧ v.get CANFD_TTCFG_CYCLEN = bitsOf w.toNat 63 48 ∧ v.get CANFD_TTSTAT_ERR = v.matrixError ∧
      v.get CANFD_TTSTAT_TTSTATE = (if v.matrixError = 0 then 1 else 0) ∧ v.can.lastRef = u.now ∧ v.can.win = none ∧
      only v [CANFD_TTCFG, CANFD_TTSTAT])) ∧
    (∀ f : CanFrame, let d := leAt f.data 0 1
      u.canTakes f = true → s.on CANFD_TTCFG_TTEN = true → s.get CANFD_TTSTAT_TTSTATE ≠ 0 → f.ide = false → f.fdf = false → f.rtr = false →
      f.dlc = 1 → s.get CANFD_TTCFG_RID ≤ f.id → f.id < s.get CANFD_TTCFG_RID + 4 → d < 64 → s.runs (.referenceMessage f t) (fun v =>
        cycle v (f.id - s.get CANFD_TTCFG_RID) (d % 2 ^ s.get CANFD_TTCFG_CCM) false ∧ v.can.wire = s.can.wire ∧ only v [CANFD_TTSTAT])) ∧
    (let p := s.get CANFD_TTCFG_TMPRI
     let own := s.on CANFD_TTSTAT_ISTM
     let c := if s.can.refSeen then (s.get CANFD_TTSTAT_CYCLE + 1) % 2 ^ s.get CANFD_TTCFG_CCM else 0
     u.canUp = true → s.on CANFD_TTCFG_TTEN = true → s.get CANFD_TTSTAT_TTSTATE ≠ 0 → s.on CANFD_TTCFG_TMEN = true →
     s.can.lastRef + s.ntu (s.get CANFD_TTCFG_CYCLEN + (if own then 0 else 64 * (p + 1))) ≤ u.now → s.runs (.referenceTimeout t) (fun v =>
      cycle v p c true ∧ only v [CANFD_TTSTAT] ∧
      v.can.wire = s.can.wire ++ [⟨s.get CANFD_TTCFG_RID + p, false, false, false, false, false, 1, toBytes 1 c⟩] ∧
      v.get CANFD_TTSTAT_REFMISS = if own then s.get CANFD_TTSTAT_REFMISS else min (s.get CANFD_TTSTAT_REFMISS + 1) 65535)) ∧
    (∀ k, let n := s.get CANFD_TTCFG_NTRIG
      let stop := if k + 1 < n then s.get (CANFD_TRIG_TMARK (k + 1)) else s.get CANFD_TTCFG_CYCLEN
      let a := s.can.cycleAt + s.ntu (s.get (CANFD_TRIG_TMARK k))
      let b := s.can.cycleAt + s.ntu stop
      k < n → s.get CANFD_TTSTAT_TTSTATE = 2 → a ≤ u.now → u.now < b →
      s.get CANFD_TTSTAT_CYCLE % 2 ^ s.get (CANFD_TRIG_REP k) = s.get (CANFD_TRIG_OFS k) → s.runs (.ttWindow k t) (fun v =>
        v.get CANFD_TTSTAT_CTIME = s.get (CANFD_TRIG_TMARK k) ∧ v.can.win = some (k, a, b) ∧ v.can.offer = State.offerNow { v with can := { v.can with offer := none } } ∧
        v.can.wire = s.can.wire ∧ only v [CANFD_TTSTAT])) ∧
    (s.on CANFD_TTCFG_TTEN = true → (s.get CANFD_TTSTAT_TTSTATE = 1 ∨ s.get CANFD_TTSTAT_TTSTATE = 2) →
      s.can.lastRef + s.ntu (3 * s.get CANFD_TTCFG_CYCLEN) ≤ u.now → s.runs (.ttEventFallback t) (fun v =>
        v.get CANFD_TTSTAT_TTSTATE = 3 ∧ v.get CANFD_TTSTAT_REFMISS = min (s.get CANFD_TTSTAT_REFMISS + 3) 65535 ∧
        v.can.win = none ∧ v.can.back = false ∧ v.can.wire = s.can.wire ∧ only v [CANFD_TTSTAT]))

/-- A request that is accepted is executed once and answered, the response kept, and nothing but what its command names
changes: IDENT gives ordering code, stepping and serial number; KEEPALIVE keeps the time; CSR_READ gives every word
asked for, is refused whole where one has no register, and is not ready where the main dies are down; CSR_WRITE does
the register write; SET_FACILITY sets the value that the next tick publishes as the FACILITY cap; NOTIFY_ACK ends a
notification and the resend timer sends it again or drops it after 10 s; EVENT_READ gives the head word and the
records; SNAP captures Bellows or requests a capture. (R7, R413, R467, R551, R554, R555, R556, R557, R559, R581, R627,
R630). -/
def Obligations.MgmtAccess : Prop :=
  ∀ (s : State) (src : BitVec 128) (d : Dgram) (t : Nat), let u := s.at t
    let pay := fun (o k : Nat) => leAt d.pay o k
    let w := u.touchUpdate src
    let only := fun (v : State) (regs : List Nat) => State.only { w with mgmt := v.mgmt } v regs
    (u.admits 1 src d → d.pay = [] → s.runs (.ident src d t) (fun v =>
      v.replied 1 src d 0 (orderCode ++ toBytes 2 0x00A1 ++ serialBytes) ∧ only v [])) ∧
    (u.admits 2 src d → d.pay = [] → s.runs (.keepalive src d t) (fun v => v.replied 2 src d 0 [] ∧ v.cool.kaAt = u.now ∧
      State.only { w with mgmt := v.mgmt, cool := { u.cool with kaAt := u.now } } v [])) ∧
    (u.admits 3 src d → d.pay.length = 10 → 1 ≤ pay 8 2 → pay 8 2 ≤ 128 → let l := csrSpan (pay 0 8) (pay 8 2)
      (u.csrNotReady l = true → s.runs (.csrRead src d t) (fun v => v.replied 3 src d 3 [] ∧ only v [])) ∧
      (u.csrNotReady l = false →
        ((∀ a ∈ l, a % 8 = 0 ∧ (findReg a).isSome = true ∧ u.csrOn a = true ∧ logAddr a = false ∧
            a ∉ [HAMMER_TRDATA, QUENCH_TRDATA]) → s.runs (.csrRead src d t) (fun v =>
          v.replied 3 src d 0 (l.flatMap (fun a => toBytes 8 (u.csrView a).toNat)) ∧ only v [])) ∧
        ((∃ a ∈ l, findReg a = none) → s.runs (.csrRead src d t) (fun v => v.replied 3 src d 2 [] ∧ u.recorded v 0x0203 ∧
          only v [HAMMER_ERRSUM])))) ∧
    (u.admits 4 src d → d.pay.length = 24 → pay 8 2 = 1 → pay 10 6 = 0 → u.csrNotReady [pay 0 8] = false →
      s.runs (.csrWrite src d t) (fun v => ∃ x : State, State.only { w with mgmt := x.mgmt } x [] ∧
        let r := x.regWrite .rm (pay 0 8) (BitVec.ofNat 64 (pay 16 8))
        v = { r.2 with mgmt := v.mgmt } ∧
        v.replied 4 src d (if r.1 then 0 else 2) (toBytes 2 (if r.1 then 1 else 0)))) ∧
    (u.admits 5 src d → d.pay.length = 2 → s.runs (.setFacility src d t) (fun v => v.replied 5 src d 0 [] ∧
      State.only { w with mgmt := v.mgmt, cool := { u.cool with facility := min (pay 0 2) 1600 } } v [])) ∧
    (u.admits 0x13 src d → d.pay.length = 4 → bit (s.get (BIC_SRCCFG_TEN 31)) 3 = false → s.get (BIC_SRCCFG_GROUP 31) = 0 →
      (∀ x ∈ s.mgmt.ntf, x.seq = pay 0 4 → (s.src x.src).heldRM = none ∧ x.src < 256) → s.runs (.notifyAck src d t) (fun v =>
        v.replied 0x13 src d 0 [] ∧ v.mgmt.ntf.map (·.seq) = (s.mgmt.ntf.map (·.seq)).filter (· != pay 0 4) ∧ only v [])) ∧
    ((∀ x ∈ s.mgmt.ntf, u.now < x.raised + 10 * sec) → (s.mgmt.ntf.map (·.seq)).Nodup → u.notifyDst.isSome = true →
      s.runs (.notifyResend t) (fun v => State.only { u with mgmt := v.mgmt } v [] ∧
        v.mgmt.ntf = s.mgmt.ntf.map (fun (x : Ntf) => match x.sent with
          | some a => if a + 200 * ms ≤ u.now then { x with sent := some u.now } else x
          | none => x))) ∧
    ((∀ x ∈ s.mgmt.ntf, x.raised + 10 * sec ≤ u.now ∧ (s.src x.src).heldRM = none ∧ x.src < 256) → s.runs (.notifyResend t) (fun v =>
      v.mgmt.ntf = [] ∧ State.only { u with mgmt := v.mgmt } v [] ∧
      v.get MGMT_STAT_NTFDROP = min (s.get MGMT_STAT_NTFDROP + s.mgmt.ntf.length) 65535)) ∧
    (u.admits 0x0C src d → d.pay.length = 6 → s.runs (.eventRead src d t) (fun v => only v [] ∧
      let l := match s.firstReadable (pay 0 4) with
        | some q => s.recordsFrom (min 40 (pay 4 2)) q
        | none => []
      v.replied 0x0C src d 0 (toBytes 8 (s.rd EVREC_HEAD).toNat ++ l.flatMap Evt.bytes))) ∧
    (u.admits 0x0E src d → d.pay.length = 2 →
      (u.domOn 192 = false → s.runs (.mSnap src d t) (fun v => v.replied 0x0E src d 0 [] ∧
        v.get BELLOWS_SNAPSTAT_GEN = (s.get BELLOWS_SNAPSTAT_GEN + 1) % 2 ^ 32 ∧ v.get BELLOWS_SNAPSTAT_TAG = pay 0 2 ∧
        v.on BELLOWS_SNAPSTAT_MAINVALID = false ∧ v.get BELLOWS_SNAPSTAT_SRC = 4 ∧
        State.only { w with mgmt := v.mgmt, shadow := v.shadow } v [BELLOWS_SNAPSTAT, BELLOWS_SNAPMGMT])) ∧
      (u.domOn 192 = true → s.snapReq = none → s.runs (.mSnap src d t) (fun v => v.replied 0x0E src d 0 [] ∧
        v.snapReq = some ⟨4, pay 0 2, s.get TONGS_JOBSTAT_RUNJOB, u.snapPos, u.launchAt 4⟩ ∧
        State.only { w with mgmt := v.mgmt, snapReq := v.snapReq } v [])))

/-- COOL_RESTART releases a stop whose cause has cleared and takes bring-up back to flow confirmation, and is refused
before. LEAK_CLEAR ends an isolation once the loops are normal. FAN_CLEAR and VALVE_CLEAR end a fault. ANVIL_HOLD is
taken for the next heat boundary, and not ready while compute is down. RESET of the module is scheduled 10 ms on and
then takes it back to the ROM, with OTP kept; a compute reset takes the complex down, HBM lost or kept as asked; a
Hearth reset waits for a heat boundary and leaves its stores empty and the Anvils that pass their self-test available,
the others held; a stream reset puts the stream where its configuration does. (R275, R279, R280, R456, R463, R469,
R507, R593, R594, R595, R597, R602). -/
def Obligations.MgmtResets : Prop :=
  ∀ (s : State) (src : BitVec 128) (d : Dgram) (t : Nat), let u := s.at t
    let pay := fun (o k : Nat) => leAt d.pay o k
    let w := u.touchUpdate src
    let only := fun (v : State) (regs : List Nat) => State.only { w with mgmt := v.mgmt } v regs
    let asked := fun (dom keep : Nat) => u.admits 0x0B src d ∧ d.pay.length = 4 ∧ pay 0 1 = dom ∧ pay 1 1 = keep ∧
      s.pwr.modAt = none
    let noted := fun (v : State) (dom ix : Nat) => v.get BELLOWS_RSTSTAT_DOMAIN = dom ∧ v.get BELLOWS_RSTSTAT_INDEX = ix ∧
      v.get BELLOWS_RSTSTAT_CAUSE = 1
    (u.admits 6 src d → d.pay = [] → s.on BELLOWS_SAFESTAT_CSTOP = true →
      (s.stopCleared = true → s.runs (.coolRestart src d t) (fun v => v.replied 6 src d 0 [] ∧
        v.on BELLOWS_SAFESTAT_CSTOP = false ∧ v.get BELLOWS_PWRSTAT_STATE = 2 ∧ v.pwr = { s.pwr with step := 4, stepAt := u.now, stop := false } ∧
        v.cool.shdn = false ∧ State.only { w with mgmt := v.mgmt, cool := v.cool, pwr := v.pwr } v [BELLOWS_SAFESTAT, BELLOWS_PWRSTAT])) ∧
      (s.stopCleared = false → s.runs (.coolRestart src d t) (fun v => v.replied 6 src d 4 [] ∧ only v []))) ∧
    (u.admits 7 src d → d.pay.length = 1 → pay 0 1 < 4 → s.on BELLOWS_SAFESTAT_LEAKISO = true →
      let m := s.isoLoop.getD (pay 0 1)
      (s.get (BELLOWS_LEAK_STATE (pay 0 1)) = 0 → s.get (BELLOWS_LEAK_STATE m) = 0 → s.runs (.leakClear src d t) (fun v =>
        v.replied 7 src d 0 [] ∧ v.on BELLOWS_SAFESTAT_LEAKISO = false ∧ v.tuyere.iso = none ∧ v.tuyere.seq = true ∧
        State.only { w with mgmt := v.mgmt, tuyere := v.tuyere, cool := { u.cool with alerts := v.cool.alerts } } v
          [BELLOWS_SAFESTAT, TUYERE_VSTAT 8, TUYERE_VSTAT 9])) ∧
      (s.get (BELLOWS_LEAK_STATE (pay 0 1)) ≠ 0 → s.runs (.leakClear src d t) (fun v => v.replied 7 src d 4 [] ∧ only v []))) ∧
    (u.admits 8 src d → d.pay.length = 1 → let c := pay 0 1
      c < 4 → s.get (BELLOWS_FSTAT_STATE c) = 5 → s.runs (.fanClear src d t) (fun v => v.replied 8 src d 0 [] ∧
        v.get (BELLOWS_FSTAT_STATE c) = 0 ∧ v.get (BELLOWS_FSTAT_ATTEMPT c) = 0 ∧
        (∀ a ∈ v.cool.alerts, a.kind = 6 → a.idx = c → a.code = 0x060B → a.stands = false) ∧
        State.only { w with mgmt := v.mgmt, cool := { u.cool with alerts := v.cool.alerts } } v [BELLOWS_FSTAT c])) ∧
    (u.admits 9 src d → d.pay.length = 1 → let c := pay 0 1
      c < 10 → s.on (TUYERE_VSTAT_FAULT c) = true → s.runs (.valveClear src d t) (fun v => v.replied 9 src d 0 [] ∧
        v.on (TUYERE_VSTAT_FAULT c) = false ∧ (v.vst c = 0 ∨ v.vst c = 1) ∧ (v.valve c).aborts = 0 ∧
        (v.valve c).want = v.vWanted c ∧
        State.only { w with mgmt := v.mgmt, tuyere := v.tuyere, cool := { u.cool with alerts := v.cool.alerts } } v
          [TUYERE_VSTAT c])) ∧
    (u.admits 0x0A src d → d.pay.length = 1 → pay 0 1 < 160 →
      (u.domOn 192 = false → s.runs (.anvilHold src d t) (fun v => v.replied 0x0A src d 3 [] ∧ only v [])) ∧
      (u.domOn 192 = true → (∀ p ∈ s.holds, p.1 ≠ pay 0 1) → s.runs (.anvilHold src d t) (fun v => v.replied 0x0A src d 0 [] ∧
        State.only { w with mgmt := v.mgmt, holds := s.holds ++ [(pay 0 1, 2)] } v []))) ∧
    (asked 0 0 → pay 2 2 = 0 → s.runs (.resetModule src d t) (fun v => v.replied 0x0B src d 0 [] ∧
      State.only { w with mgmt := v.mgmt, pwr := { u.pwr with modAt := some (u.now + 10 * ms, 1) } } v [])) ∧
    (∀ a cause, s.pwr.modAt = some (a, cause) → a ≤ u.now → s.runs (.moduleReset t) (fun v =>
      v.get BELLOWS_RSTSTAT_DOMAIN = 0 ∧ v.get BELLOWS_RSTSTAT_CAUSE = cause % 256 ∧ v.pwr.step = 2 ∧ v.pwr.modAt = none ∧
      v.hammer = Hammer.reset ∧ v.anvils = [] ∧ v.mem = [] ∧ v.jobs = [] ∧ v.now = u.now ∧ v.pending = s.pending ∧
      v.tuyere = Tuyere.reset ∧ v.quench = Quench.reset ∧ v.temper = Temper.reset ∧ v.jtag = s.jtag ∧
      v.secb = { s.secb with update := none, staged := none, running := none } ∧
      v.get TEMPER_TRIM_TRIM = s.temper.trimNext.getD (s.get TEMPER_TRIM_TRIM) % 32 ∧ (s.jobs = [] → v.get EVREC_HEAD_NEXT = s.get EVREC_HEAD_NEXT))) ∧
    (asked 1 0 → pay 2 2 = 0 → s.on BELLOWS_SAFESTAT_CSTOP = false → (10 ≤ s.pwr.step ∨ s.pwr.stop = true ∨ s.pwr.keep = true) →
      s.runs (.resetCompute src d t) (fun v => v.replied 0x0B src d 0 [] ∧ v.downed ∧ v.mem = [] ∧ noted v 1 0 ∧ v.pwr.keep = false ∧
        v.on BELLOWS_RSTSTAT_KEPT = false)) ∧
    (asked 1 1 → pay 2 2 = 0 → s.on BELLOWS_SAFESTAT_CSTOP = false → (10 ≤ s.pwr.step ∨ s.pwr.stop = true) →
      s.runs (.resetComputeKeep src d t) (fun v => v.replied 0x0B src d 0 [] ∧ v.downed ∧ noted v 1 0 ∧ v.pwr.keep = true ∧
        ∀ a, v.byte a = match region (phys a) with
          | .hbm k _ => if s.holdsData k then s.byte a else 0
          | _ => 0)) ∧
    (asked 2 0 → pay 2 2 < 10 → s.on BELLOWS_SAFESTAT_CSTOP = false → s.get BELLOWS_PWRSTAT_STATE = 4 → pay 2 2 ∉ s.pwr.hearth →
      s.runs (.resetHearth src d t) (fun v => v.replied 0x0B src d 0 [] ∧
        State.only { w with mgmt := v.mgmt, pwr := { u.pwr with hearth := s.pwr.hearth ++ [pay 2 2] } } v [])) ∧
    (∀ h r bad, s.pwr.hearth = h :: r → h < 10 → u.atBoundary = true → s.runs (.hearthResetStart ⟨t, bad⟩) (fun v => v.pwr.hearth = r ∧
      noted v 2 h ∧ v.domOn (160 + h) = true ∧
      (∀ g, g < 160 → g / 16 = h → v.hammer.avail.getLsbD g = decide (g % 16 ∉ bad) ∧ (g % 16 ∉ bad → v.domOn g = true) ∧
        ∀ i, i < 0x200000 → v.byte (anvilBase g + i) = 0) ∧
      ∀ i, i < 0x1000000 → v.byte (hearthBase h + i) = 0)) ∧
    (asked 3 0 → s.on BELLOWS_SAFESTAT_CSTOP = false → s.get BELLOWS_PWRSTAT_STATE = 4 → s.tongs.nq = [] →
      s.runs (.resetStream src d t) (fun v => v.replied 0x0B src d 0 [] ∧ noted v 3 (pay 2 2) ∧ v.mem = s.mem ∧ v.hammer = s.hammer ∧
        (v.ctx (pay 2 2)).tstate = if (s.ctx (pay 2 2)).typ = 0 then 0 else if (s.ctx (pay 2 2)).listen then 1 else 2))

/-- A CLAIM whose signature and digest are right burns the owner's digest and sets CLAIMED for good; CONFIG replaces the
owner's configuration and COUNTER raises one of counters 32 to 63 where the owner signed a record of a new CFGSEQ; any
other is answered TOKEN, and before the claim STATE, with no effect. ATTEST answers with the report or a certificate.
Every token is judged against the challenge, which is then drawn anew: an accepted DEBUG_UNLOCK raises the debug
level, an accepted EVENT_CLEAR clears the circulating area or, permanently, both; a refused one is counted and
recorded. (R579, R604, R613, R614, R615, R616, R617, R618, R619, R620, R621). -/
def Obligations.SecurityCommands : Prop :=
  ∀ (s : State) (src : BitVec 128) (d : Dgram) (t : Nat), let u := s.at t
    let p := d.pay
    let w := u.touchUpdate src
    let only := fun (v : State) (regs : List Nat) => State.only { w with mgmt := v.mgmt } v regs
    let still := fun (v : State) => v.mem = s.mem ∧ v.hammer = s.hammer ∧ v.anvils = s.anvils ∧ v.cool = s.cool ∧
      v.tuyere = s.tuyere ∧ v.can = s.can
    let kept := fun (v : State) => still v ∧ v.pwr = s.pwr
    let drawn := fun (v : State) => ∃ k, v.rd (SEC_CHAL 0) = BitVec.ofNat 64 (Config.freeValue k % 2 ^ 64) ∧
      v.rd (SEC_CHAL 1) = BitVec.ofNat 64 (Config.freeValue (k + 1) % 2 ^ 64)
    let refused := fun (v : State) (cmd : Nat) => v.replied cmd src d 6 [] ∧ u.recorded v 0x0007 ∧ v.secb = w.secb ∧
      v.get SEC_SECSTAT_TOKREF = min (s.get SEC_SECSTAT_TOKREF + 1) 255 ∧ v.on BELLOWS_ERRSUM_SEC = true ∧
      v.get SEC_SECSTAT_DEBUG = s.get SEC_SECSTAT_DEBUG
    (u.admits 0x0F src d →
      (∀ q key signed sig, cfgParts p = some (1, q, key, signed, sig) → key.length = 57 →
        let h : BitVec 512 := BitVec.ofNat 512 (ofBytes (digest64 key))
        s.runs (.claim src d t) (fun v => kept v ∧
          if s.secb.claimed = false ∧ (s.secb.ownerh = 0 ∨ s.secb.ownerh = h) ∧
            signedBy key (ascii "OKF-CLAIM") (serialBytes ++ s.chal ++ key) sig = true then
            v.replied 0x0F src d 0 [] ∧ v.secb = { w.secb with ownerh := h, claimed := true, ownerKey := key } ∧
            v.on SEC_SECSTAT_CLAIMED = true ∧ u.recorded v 0x0B05
          else v.replied 0x0F src d 6 [] ∧ only v [])) ∧
      (∀ q body signed sig, cfgParts p = some (2, q, body, signed, sig) → s.runs (.config src d t) (fun v => kept v ∧
        if s.secb.claimed = false then v.replied 0x0F src d 4 [] ∧ only v []
        else if s.ownerSigned q signed sig = true then
          v.replied 0x0F src d 0 [] ∧ v.secb = { w.secb with config := p, cfgSeq := q } ∧ u.recorded v 0x0B06
        else v.replied 0x0F src d 6 [] ∧ only v [])) ∧
      (∀ q body signed sig, cfgParts p = some (3, q, body, signed, sig) → body.length = 4 → leAt body 2 2 = 0 →
        let i := leAt body 0 1
        let x := leAt body 1 1
        32 ≤ i → i ≤ 63 → x ≤ 64 → s.runs (.counter src d t) (fun v => kept v ∧
          if s.secb.claimed = false then v.replied 0x0F src d 4 [] ∧ only v []
          else if s.ownerSigned q signed sig = true then
            v.replied 0x0F src d 0 [] ∧ v.counter i = max (s.counter i) x ∧ v.secb.cfgSeq = q ∧
            (∀ k, k ≠ i → v.counter k = s.counter k) ∧ v.secb = { w.secb with cnt := v.secb.cnt, cfgSeq := q } ∧
            (s.counter i < x → u.recorded v 0x0B04)
          else v.replied 0x0F src d 6 [] ∧ only v []))) ∧
    (u.admits 0x10 src d → p.length = 40 → leAt p 33 7 = 0 →
      (leAt p 32 1 ≤ 1 → s.runs (.attest src d t) (fun v => v.replied 0x10 src d 0 (u.report (p.take 32) (leAt p 32 1 == 1)) ∧
        only v [])) ∧
      (2 ≤ leAt p 32 1 → leAt p 32 1 ≤ 4 → s.runs (.attestCert src d t) (fun v =>
        v.replied 0x10 src d 0 ((Config.cert (leAt p 32 1)).take 1024) ∧ only v []))) ∧
    (u.admits 0x12 src d → s.runs (.debugUnlock src d t) (fun v => kept v ∧ drawn v ∧
      if s.tokenOk p [3] = true then v.replied 0x12 src d 0 [] ∧ u.recorded v 0x0B07 ∧ v.secb = w.secb ∧
        v.get SEC_SECSTAT_DEBUG = max (leAt p 6 2) (s.get SEC_SECSTAT_DEBUG)
      else refused v 0x12)) ∧
    (u.admits 0x0D src d → s.evrec.drops = none → s.evrec.nor.length < 448 → s.runs (.eventClear src d t) (fun v => still v ∧ drawn v ∧
      v.pwr = (if s.tokenOk p [1, 2] = true ∧ leAt p 4 1 ≠ 1 then { s.pwr with norSeq := none } else s.pwr) ∧
      if s.tokenOk p [1, 2] = true then v.replied 0x0D src d 0 [] ∧
        if leAt p 4 1 = 1 then v.evrec.perm.take s.evrec.perm.length = s.evrec.perm ∧
          (v.evrec.circ.getLast?.map (·.code) = some 1) ∧ (∀ e ∈ v.evrec.circ, e.seq < 256 ∨ e.code = 1) ∧
          v.get EVREC_STAT_CLEARS = min (s.get EVREC_STAT_CLEARS + 1) 65535
        else (∃ e, v.evrec.perm = [e] ∧ v.evrec.circ = [e] ∧ e.seq = 0 ∧ e.code = 2) ∧ v.get EVREC_HEAD_NEXT = 1
      else refused v 0x0D))

/-- BEGIN takes the slot that is not running, marks it invalid and empties it; DATA writes its bytes there and nowhere
else; END accepts the slot only where every check of it passes, and ends the update; ACTIVATE makes an accepted slot
the trial slot and schedules a module reset; COMMIT raises the counters to the running image's SVN and KEYSVN, never
lowering one; an update of another requester is not disturbed, and one without a request for 60 s is abandoned. (R594,
R607, R608, R611, R612, R618). -/
def Obligations.FirmwareUpdate : Prop :=
  ∀ (s : State) (src : BitVec 128) (d : Dgram) (t : Nat), let u := s.at t
    let p := d.pay
    let kept := fun (v : State) => v.mem = s.mem ∧ v.hammer = s.hammer ∧ v.anvils = s.anvils ∧ v.cool = s.cool ∧ v.tuyere = s.tuyere ∧
      v.can = s.can
    let w := (u.touchUpdate src).lapseUpdate
    let ready := fun (sub : Nat) => u.admits 0x11 src d ∧ 8 ≤ p.length ∧ leAt p 0 1 = sub ∧ leAt p 1 3 = 0
    (ready 0 → w.updateHeld src = false → ∀ k, s.secb.running = some k → 1 ≤ leAt p 4 4 → leAt p 4 4 ≤ 4194304 →
      let n := if k = 0 then 1 else 0
      s.runs (.fwUpdateBegin src d t) (fun v => kept v ∧ v.pwr = s.pwr ∧ v.replied 0x11 src d 0 [] ∧
        v.secb.update = some ⟨src, u.now, n, leAt p 4 4⟩ ∧ v.secb.staged = none ∧ v.slot n = { FwSlot.empty with invalid := true } ∧
        v.slot (1 - n) = s.slot (1 - n) ∧ v.on SEC_SECSTAT_UPD = true ∧
        v.secb = { s.secb with update := v.secb.update, staged := none, slotA := v.secb.slotA, slotB := v.secb.slotB })) ∧
    (w.updateHeld src = true →
      (ready 0 → s.runs (.fwUpdateBegin src d t) (fun v => v.replied 0x11 src d 4 [] ∧ v.secb = s.secb)) ∧
      (ready 1 → s.runs (.fwUpdateData src d t) (fun v => v.replied 0x11 src d 4 [] ∧ v.secb = s.secb)) ∧
      (ready 4 → s.runs (.fwUpdateCommit src d t) (fun v => v.replied 0x11 src d 4 [] ∧ v.secb = s.secb))) ∧
    (∀ x, s.secb.update = some x → x.at_ + 60 * sec ≤ u.now →
      (ready 1 → s.runs (.fwUpdateData src d t) (fun v => v.replied 0x11 src d 4 [] ∧ v.secb = { s.secb with update := none })) ∧
      (ready 2 → ∀ e, s.runs (.fwUpdateEnd src d e t) (fun v => v.replied 0x11 src d 4 [] ∧ v.secb = { s.secb with update := none }))) ∧
    (∀ x, s.secb.update = some x → x.src = src → u.now < x.at_ + 60 * sec → x.slot ≤ 1 →
      (ready 1 → let off := leAt p 4 4
        let data := p.drop 8
        off + data.length ≤ x.len → data.length ≤ 1392 → s.runs (.fwUpdateData src d t) (fun v => kept v ∧ v.pwr = s.pwr ∧
          v.replied 0x11 src d 0 [] ∧ v.secb.update = some { x with at_ := u.now } ∧
          (∀ i, Tab.get (fun _ => 0xFF) (v.slot x.slot).bytes i = if off ≤ i ∧ i < off + data.length then data.getD (i - off) 0
            else Tab.get (fun _ => 0xFF) (s.slot x.slot).bytes i) ∧
          (v.slot x.slot).invalid = (s.slot x.slot).invalid ∧ v.slot (1 - x.slot) = s.slot (1 - x.slot) ∧ v.secb.staged = s.secb.staged)) ∧
      (ready 2 → ∀ norErr, s.runs (.fwUpdateEnd src d norErr t) (fun v => kept v ∧ v.pwr = s.pwr ∧ v.secb.update = none ∧
        v.on SEC_SECSTAT_UPD = false ∧
        if s.slotCheck x.slot norErr = 0 then v.replied 0x11 src d 0 [] ∧ u.recorded v 0x0B03 ∧ v.secb.staged = some x.slot ∧
          v.slot x.slot = { s.slot x.slot with invalid := false } ∧ v.slot (1 - x.slot) = s.slot (1 - x.slot)
        else v.replied 0x11 src d 6 [] ∧ v.secb = { s.secb with update := none }))) ∧
    (∀ k, s.secb.staged = some k → w.updateHeld src = false → ready 3 → s.runs (.fwUpdateActivate src d t) (fun v => kept v ∧
      v.replied 0x11 src d 0 [] ∧ v.secb = { s.secb with trial := some k, tries := 0, update := none } ∧
      v.pwr = { s.pwr with modAt := some (u.now + 10 * ms, 6) } ∧ v.on SEC_SECSTAT_TRIAL = true)) ∧
    (∀ k, s.secb.running = some k → w.updateHeld src = false → ready 4 → s.runs (.fwUpdateCommit src d t) (fun v => kept v ∧
      v.pwr = s.pwr ∧ v.replied 0x11 src d 0 [] ∧ v.secb.trial = none ∧ v.on SEC_SECSTAT_TRIAL = false ∧
      v.counter 0 = max (s.counter 0) (s.slot k).svn ∧ v.counter 1 = max (s.counter 1) (s.slot k).keysvn ∧
      (∀ i, 2 ≤ i → v.counter i = s.counter i) ∧ v.secb.running = s.secb.running ∧ v.secb.claimed = s.secb.claimed)) ∧
    (∀ x, s.secb.update = some x → x.at_ + 60 * sec ≤ u.now → s.runs (.fwUpdateAbandon t) (fun v => kept v ∧
      v.secb = { s.secb with update := none } ∧ v.on SEC_SECSTAT_UPD = false ∧ v = { u with csr := v.csr, secb := v.secb }))

/-- VSB12 at 11.0 V for 10 ms on a mated module releases cold reset and counts a power-up. The ROM runs the slot that the
choice of R608 names from the slots it finds valid, with the board link and valves X1 and X0 commanded open, or stays
in recovery. The PLL's lock releases compute reset: the Hammer domain is on, k is 1, the stacks that keep nothing
train, and the step follows. Domains on and stacks trained end bring-up: every Anvil but those that failed their self-
test is available, every unfenced stack but those that failed training is up, and the state is ACTIVE. The limits of
steps 2, 3, 5 and 6 stop bring-up there, those of 5 and 6 with the rails and what HBM kept. (R275, R276, R280, R585,
R593, R598, R602, R607, R608, R609, R642, R653). -/
def Obligations.BringUp : Prop :=
  ∀ (s : State) (t : Nat), let u := s.at t
    (∀ vsb held, s.pwr.alive = false → s.pwr.mate = true → 1100 ≤ vsb → 10 * ms ≤ held → s.runs (.coldReset vsb held t) (fun v =>
      v.pwr = { s.pwr with
        alive := true, step := 2, stepAt := u.now, bootAt := u.now, stop := false, pcyc := min (s.pwr.pcyc + 1) (2 ^ 24 - 1) } ∧
      v.get BELLOWS_PWRSTAT_VSB12 = min 65535 vsb ∧ State.only { u with pwr := v.pwr } v [BELLOWS_PWRSTAT])) ∧
    (∀ eA eB, s.pwr.alive = true → s.pwr.step = 2 → s.pwr.stop = false →
      let a : Bool := s.slotCheck 0 eA == 0 && !(s.slot 0).invalid
      let b : Bool := s.slotCheck 1 eB == 0 && !(s.slot 1).invalid
      let best : Bool → Bool → Option Nat := fun x y => if x && y then some (if (s.slot 1).svn ≤ (s.slot 0).svn then 0 else 1)
        else if x then some 0 else if y then some 1 else none
      let again : Nat → Bool := fun k => (if k = 0 then a else b) && decide (s.secb.tries < 2)
      let pick : Option Nat := match s.secb.trial with
        | none => best a b
        | some k => if again k then some k else best (k != 0 && a) (k == 0 && b)
      s.runs (.romBoot eA eB t) (fun v => v.mem = s.mem ∧ v.hammer = s.hammer ∧
        (match s.secb.trial with
          | none => v.secb.trial = none ∧ v.secb.tries = s.secb.tries
          | some k => if again k = true then v.secb.trial = some k ∧ v.secb.tries = s.secb.tries + 1
            else v.secb.trial = none ∧ (v.slot k).rejected = true ∧ v.on BELLOWS_ERRSUM_SEC = true) ∧ v.secb.watchdog = none ∧
        match pick with
        | some k => v.secb.running = some k ∧ v.get SEC_SECSTAT_FWSVN = (s.slot k).svn % 256 ∧ v.get BELLOWS_PWRSTAT_STATE = 2 ∧
            v.pwr = { s.pwr with loss := false, step := 3, stepAt := u.now } ∧ v.tuyere.seq = true ∧
            v.on CANFD_CTL_EN = true ∧ v.on CANFD_TTCFG_TTEN = true ∧ (∀ c ∈ [8, 9], v.get (TUYERE_VCMD_MODE c) = 2 ∧ v.on (TUYERE_VCMD_FIXCMD c) = true)
        | none => v.secb.running = s.secb.running ∧ v.pwr = { s.pwr with loss := false, stop := true } ∧ v.tuyere = s.tuyere)) ∧
    ((s.pwr.step = 5 ∨ s.pwr.step = 6) → s.on BELLOWS_PWRSTAT_REGON = true → s.runs (.pllLock t) (fun v =>
      v.domOn 192 = true ∧ v.get BELLOWS_PWRSTAT_STATE = 3 ∧ v.pwr = { s.pwr with pll := true, step := 7, stepAt := u.now, stop := false } ∧
      (s.pwr.vinLow = true → v.on TEMPER_CAPSTAT_SAG_WARN = true ∧ v.on TEMPER_CAPSTAT_FLOOR = true) ∧
      (s.on BELLOWS_SAFESTAT_THROTTLE = true → v.on TEMPER_CAPSTAT_THROTTLE = true) ∧
      (∀ k, k < 20 → v.get (HEARTH_STKSTAT_STATE k) =
        if s.fenced k = false ∧ s.get (HEARTH_STKSTAT_STATE k) = 0 then 1 else s.get (HEARTH_STKSTAT_STATE k)) ∧
      State.only { u with
          pwr := v.pwr, temper := v.temper, core := { Pulse.reset with begun := 16 * u.now }, hammer := { u.hammer with avail := 0 } } v
        ([BELLOWS_PDSTAT3, BELLOWS_PWRSTAT, TEMPER_CAPSTAT, TEMPER_CTRL, TEMPER_CNT] ++ (List.range 20).map HEARTH_STKSTAT))) ∧
    (∀ badA badS, s.pwr.step = 7 → s.hammer.run = none → s.runs (.bringupReady badA badS t) (fun v =>
      v.pwr = { s.pwr with step := 10, stepAt := u.now } ∧ v.get BELLOWS_PWRSTAT_STATE = 4 ∧ v.domOn 193 = true ∧ v.domOn 194 = true ∧
      v.on BELLOWS_RSTSTAT_KEPT =
        (s.pwr.keep && (List.range 20).all (fun k => v.fenced k || v.on (HEARTH_STKSTAT_KEPT k))) ∧ (∀ h, h < 10 → v.domOn (160 + h) = true) ∧
      (∀ g, g < 160 → v.domOn g = !badA.contains g ∧ v.hammer.avail.getLsbD g = !badA.contains g) ∧
      ∀ k, k < 20 →
        let kept : Bool := s.get (HEARTH_STKSTAT_STATE k) == 3
        let cause := if kept then 5 else 1
        if s.fenced k = true then v.fenced k = true
        else if (k, cause) ∈ badS then v.fenced k = true ∧ v.get (HEARTH_STKSTAT_FCAUSE k) = cause ∧ v.domOn (170 + k) = false
        else v.fenced k = false ∧ v.get (HEARTH_STKSTAT_STATE k) = 2 ∧ v.on (HEARTH_STKSTAT_KEPT k) = kept ∧
          v.domOn (170 + k) = true)) ∧
    (s.pwr.alive = true → s.pwr.stop = false →
      (s.pwr.step = 2 ∧ s.pwr.stepAt + 400 * ms ≤ u.now ∨ s.pwr.step = 3 ∧ s.pwr.stepAt + 100 * ms ≤ u.now → s.runs (.bringupTimeout t) (fun v =>
        v = { u with pwr := { u.pwr with stop := true } })) ∧
      (s.on BELLOWS_PWRSTAT_REGON = true → ((s.pwr.step = 5 ∧ s.pwr.stepAt + 20 * ms ≤ u.now) ∨
          (s.pwr.step = 6 ∧ s.pwr.stepAt + ms ≤ u.now)) → s.runs (.bringupTimeout t) (fun v =>
        v.on BELLOWS_PWRSTAT_REGON = false ∧ v.get BELLOWS_PWRSTAT_STATE = 6 ∧ v.get BELLOWS_RSTSTAT_DOMAIN = 1 ∧
        v.get BELLOWS_RSTSTAT_CAUSE = 7 ∧ u.recorded v 0x0A00 ∧ v.pwr = { s.pwr with stop := true, keep := false } ∧
        (∀ k, k < 20 → v.get (HEARTH_STKSTAT_STATE k) = 0) ∧
        State.only { u with pwr := v.pwr, mem := [], errs := [], wb := [], transit := [] } v
          ([BELLOWS_PWRSTAT, BELLOWS_RSTSTAT] ++ (List.range 20).map HEARTH_STKSTAT))))

/-- VIN48 out of range takes the regulators off and the compute complex down, HBM lost, and its return in range lets
bring-up go on where flow allows; VSB12 below its warning is recorded and below its sag resets Bellows cold; mating
connects and disconnects VSB12; loss of REFCLK or of the link to the main dies is a compute reset with cause 8; loss
of SREF takes the interfaces down and resets nothing; firmware that does not service the watchdog for 2 s is reset
with cause 5 and noted; the management port's link follows its events. (R328, R551, R585, R586, R587, R593, R595,
R598, R600, R610, R653, R654). -/
def Obligations.SupplyAndResets : Prop :=
  ∀ (s : State) (t : Nat), let u := s.at t
    let noted := fun (v : State) (dom cause : Nat) => v.get BELLOWS_RSTSTAT_DOMAIN = dom ∧ v.get BELLOWS_RSTSTAT_CAUSE = cause
    let lost := fun (v : State) (cause : Nat) => v.downed ∧ v.mem = [] ∧ v.errs = [] ∧ noted v 1 cause ∧
      v.on BELLOWS_RSTSTAT_KEPT = false ∧ v.get BELLOWS_RSTSTAT_COMPUTES = min (s.get BELLOWS_RSTSTAT_COMPUTES + 1) 65535 ∧
      v.cool = s.cool ∧ v.quench = s.quench ∧ v.tuyere = s.tuyere ∧ v.can = s.can ∧ v.secb = s.secb
    let unplugged := fun (v : State) => v.mem = [] ∧ v.hammer = Hammer.reset ∧ v.anvils = [] ∧ v.jobs = [] ∧ v.quench = Quench.reset ∧
      v.tuyere = Tuyere.reset ∧ v.jtag = Jtag.reset ∧ v.pwr.alive = false ∧ v.pwr.loss = true ∧ v.pwr.pcyc = s.pwr.pcyc ∧
      (s.jobs = [] → v.evrec = s.evrec.saved) ∧ v.secb = { s.secb with update := none, staged := none, running := none }
    let vin := fun (c : Instr) (mv cause : Nat) =>
      (s.on BELLOWS_PWRSTAT_REGON = false → s.runs c (fun v => v.get BELLOWS_PWRSTAT_VIN48 = min 65535 mv ∧
        (cause = 3 → v.on BELLOWS_PWRSTAT_VINOV = true) ∧
        State.only { u with pwr := { u.pwr with vinBad := true } } v [BELLOWS_PWRSTAT])) ∧
      (s.on BELLOWS_PWRSTAT_REGON = true → 5 ≤ s.pwr.step → s.runs c (fun v => lost v cause ∧
        v.get BELLOWS_PWRSTAT_VIN48 = min 65535 mv ∧ v.on BELLOWS_PWRSTAT_REGON = false ∧ v.get BELLOWS_PWRSTAT_STATE = 5 ∧
        (cause = 3 → v.on BELLOWS_PWRSTAT_VINOV = true) ∧
        v.pwr = { s.pwr with vinBad := true, keep := false, hearth := [], pll := false, step := 5, stepAt := u.now, stop := false }))
    (∀ mv held, mv < 3800 → 2 * us ≤ held → s.pwr.alive = true → s.pwr.vinBad = false →
      vin (.vin48Undervoltage mv held t) mv 2) ∧
    (∀ mv held, 6200 < mv → 10 * us ≤ held → s.pwr.alive = true → s.pwr.vinBad = false →
      vin (.vin48Overvoltage mv held t) mv 3) ∧
    (∀ mv held, 4000 ≤ mv → mv ≤ 6000 → 10 * ms ≤ held → s.pwr.vinBad = true → s.runs (.vin48Recover mv held t) (fun v =>
      v.get BELLOWS_PWRSTAT_VIN48 = mv ∧ State.only { u with pwr := v.pwr } v [BELLOWS_PWRSTAT] ∧
      if s.pwr.step = 5 ∧ s.pwr.stop = false ∧ s.on BELLOWS_PWRSTAT_REGON = false then
        if s.get BELLOWS_CAPOUT_FSTATE = 0 then
          v.pwr = { s.pwr with vinBad := false, stepAt := u.now } ∧
          v.on BELLOWS_PWRSTAT_REGON = (!s.cool.shdnExt && !s.on BELLOWS_SAFESTAT_CSTOP)
        else v.pwr = { s.pwr with vinBad := false, step := 4, stepAt := u.now } ∧ v.on BELLOWS_PWRSTAT_REGON = false ∧
            v.get BELLOWS_PWRSTAT_STATE = 2
      else v.pwr = { s.pwr with vinBad := false } ∧ v.on BELLOWS_PWRSTAT_REGON = s.on BELLOWS_PWRSTAT_REGON)) ∧
    (s.pwr.alive = true →
      (∀ mv held, mv < 1080 → 100 * us ≤ held → s.pwr.vsbLow = false → s.runs (.vsb12Warn mv held t) (fun v =>
        v.pwr = { s.pwr with vsbLow := true } ∧ v.on BELLOWS_PWRSTAT_VSBWARN = true ∧ v.get BELLOWS_PWRSTAT_VSB12 = mv ∧
        u.recorded v 0x0A02 ∧ State.only { u with pwr := v.pwr } v [BELLOWS_PWRSTAT])) ∧
      (∀ mv held, 1120 ≤ mv → s.pwr.vsbLow = true → s.runs (.vsb12Warn mv held t) (fun v =>
        v.pwr = { s.pwr with vsbLow := false } ∧ v.get BELLOWS_PWRSTAT_VSB12 = min 65535 mv ∧
        State.only { u with pwr := v.pwr } v [BELLOWS_PWRSTAT])) ∧
      (∀ mv held, mv < 1020 → 10 * us ≤ held → s.runs (.vsb12Sag mv held t) (fun v => unplugged v ∧ noted v 4 4)) ∧
      (∀ held, 20 * us ≤ held → s.pwr.mate = true → s.runs (.mateDisconnect held t) (fun v => unplugged v ∧ noted v 4 0 ∧
        v.pwr.mate = false)) ∧
      (s.on MGMT_CFG_ENABLE = true → s.runs (.mgmtPortLinkUp t) (fun v => v.on MGMT_STAT_LINK = true ∧
        (s.secb.running = none ∨ s.on MGMT_STAT_LINK = true → State.only u v []) ∧
        (s.secb.running.isSome = true → s.on MGMT_STAT_LINK = false →
          (∃ x l, v.mgmt.frames = s.mgmt.frames ++ x :: l) ∧
          State.only { u with mgmt := { u.mgmt with ifc := v.mgmt.ifc, frames := v.mgmt.frames } } v [])))) ∧
    (∀ held, 10 * ms ≤ held → s.runs (.mateConnect held t) (fun v => v = { u with pwr := { u.pwr with mate := true } })) ∧
    s.runs (.mgmtPortLinkDown t) (fun v => v.on MGMT_STAT_LINK = false ∧
      State.only { u with mgmt := { u.mgmt with ifc := { u.mgmt.ifc with dadUntil := none } } } v []) ∧
    (s.domOn 192 = true →
      s.runs (.refclkLoss t) (fun v => lost v 8 ∧ v.pwr.stop = true ∧ v.pwr.pll = false ∧
        (5 ≤ s.pwr.step → s.on BELLOWS_PWRSTAT_REGON = true → v.pwr.step = 6 ∧ v.get BELLOWS_PWRSTAT_STATE = 5 ∧
          v.on BELLOWS_PWRSTAT_REGON = true)) ∧
      s.runs (.mainDieLinkLoss t) (fun v => lost v 8 ∧ v.pwr.pll = false ∧
        (5 ≤ s.pwr.step → s.on BELLOWS_PWRSTAT_REGON = true → v.pwr.step = 6 ∧ v.pwr.stop = false ∧
          v.get BELLOWS_PWRSTAT_STATE = 5))) ∧
    s.runs (.srefLoss t) (fun v => (∀ i, i < 4 → (v.ifc i).up = false) ∧ v.pwr = s.pwr ∧
      State.only { u with tongs := { u.tongs with ifc := v.tongs.ifc } } v [TONGS_PORTSTAT 0, TONGS_PORTSTAT 1]) ∧
    (∀ k, s.secb.running = some k → s.pwr.bootAt + 2 * sec ≤ u.now → s.runs (.watchdog t) (fun v => noted v 0 5 ∧
      v.pwr.step = 2 ∧ v.pwr.alive = true ∧ v.hammer = Hammer.reset ∧ v.mem = [] ∧ v.quench = Quench.reset ∧ v.tuyere = Tuyere.reset ∧
      v.secb = { s.secb with update := none, staged := none, running := none, watchdog := some k }))

/-- An assertion of an edge source counts and is pending for the core it is delivered to, whose notice rises where nothing
is in service; a level source asserts once; a grouped one waits for its group. A claim takes the pending source of the
highest priority, the lower number on a tie, gives its count and clears it; with nothing pending it changes nothing. A
completion ends the source's activity and is re-evaluated two MGMT cycles later: a level source still asserted is
pending again. A completion of the host, or its timeout, ends the delivery and sends the copy held; a level source is
delivered again; a group's time releases its members. (R562, R563, R564, R566, R567, R568, R570, R571). -/
def Obligations.Interrupts : Prop :=
  ∀ (s : State) (t : Nat), let u := s.at t
    let pend := fun (v : State) (c n : Nat) => bit (v.get (BIC_SRCSTAT_PENDT n)) c
    (∀ n, n < 256 → (n < 35 ∨ 64 ≤ n) →
      (∀ c, c < 2 → s.get (BIC_SRCCFG_GROUP n) = 0 →
        ((s.on (BIC_SRCCFG_DELIV n) = true ∧ bit (s.get (BIC_SRCCFG_TEN n)) c = true) ∨
          (s.on (BIC_SRCCFG_DELIV n) = false ∧ s.get (BIC_SRCCFG_TEN n) = 2 ^ c ∧ s.domOn 196 = true)) →
        (s.on (BIC_SRCCFG_TYPE n) = false → s.runs (.sourceAssert n t) (fun v => State.only u v [] ∧ pend v c n = true ∧
          v.get (BIC_SRCSTAT_COUNT n) = min (s.get (BIC_SRCSTAT_COUNT n) + 1) 65535 ∧
          ((s.coreIrq c).active = [] → (v.coreIrq c).notice = true))) ∧
        (s.on (BIC_SRCCFG_TYPE n) = true → s.on (BIC_SRCSTAT_LEVEL n) = false → s.runs (.sourceAssert n t) (fun v =>
          State.only u v [] ∧ pend v c n = true ∧ v.on (BIC_SRCSTAT_LEVEL n) = true))) ∧
      (s.on (BIC_SRCCFG_TYPE n) = true → s.on (BIC_SRCSTAT_LEVEL n) = true → s.runs (.sourceAssert n t) (fun v => v = u)) ∧
      (let g := s.get (BIC_SRCCFG_GROUP n)
       let gr := Tab.get (fun _ => (⟨0, none⟩ : Grp)) s.grps g
       s.on (BIC_SRCCFG_TYPE n) = false → g ≠ 0 → gr.count + 1 < s.get (BIC_GRP_COUNT g) → s.runs (.sourceAssert n t) (fun v =>
        Tab.get (fun _ => (⟨0, none⟩ : Grp)) v.grps g = ⟨gr.count + 1, some (gr.first.getD u.now)⟩ ∧
        (v.src n).grouped = (s.src n).grouped + 1 ∧ (∀ a, a ≠ BIC_SRCSTAT n → v.rd a = s.rd a) ∧
        v.get (BIC_SRCSTAT_PENDT n) = s.get (BIC_SRCSTAT_PENDT n) ∧ v = { u with csr := v.csr, srcs := v.srcs, grps := v.grps }))) ∧
    (∀ c, c < 2 → s.domOn 196 = true →
      ((∀ n, n < 256 → pend s c n = false) → s.runs (.bicClaim c t) (fun v => v.on (BIC_CLAIM_VALID c) = false ∧
        (∀ a, a ≠ BIC_CLAIM c → v.rd a = s.rd a) ∧ v = { u with csr := v.csr })) ∧
      (∀ n, Tab.wf regReset s.csr = true → n < 256 → pend s c n = true →
        (∀ m, m < 256 → pend s c m = true → s.get (BIC_SRCCFG_PRIO m) < s.get (BIC_SRCCFG_PRIO n) ∨
          (s.get (BIC_SRCCFG_PRIO m) = s.get (BIC_SRCCFG_PRIO n) ∧ n ≤ m)) → s.runs (.bicClaim c t) (fun v =>
        v.on (BIC_CLAIM_VALID c) = true ∧ v.get (BIC_CLAIM_SRC c) = n ∧ v.get (BIC_CLAIM_PRIO c) = s.get (BIC_SRCCFG_PRIO n) ∧
        v.get (BIC_CLAIM_COUNT c) = s.get (BIC_SRCSTAT_COUNT n) ∧ v.get (BIC_SRCSTAT_COUNT n) = 0 ∧ pend v c n = false ∧
        bit (v.get (BIC_SRCSTAT_ACTIVE n)) c = true ∧ (v.coreIrq c).active = n :: (s.coreIrq c).active.filter (· != n) ∧
        (∀ d, d ≠ c → v.coreIrq d = s.coreIrq d) ∧ (∀ a, a ≠ BIC_CLAIM c → a ≠ BIC_SRCSTAT n → v.rd a = s.rd a) ∧
        v = { u with csr := v.csr, cores := v.cores })) ∧
      (∀ w : Word, s.pwr.alive = true → s.secb.running.isSome = true → let n := w.toNat % 256
        (s.coreIrq c).active.contains n = true → s.runs (.bicComplete (.core c) c w t) (fun v =>
          bit (v.get (BIC_SRCSTAT_ACTIVE n)) c = false ∧ (v.coreIrq c).active = (s.coreIrq c).active.filter (· != n) ∧
          (v.coreIrq c).reeval = (s.coreIrq c).reeval ++ [(n, u.mclk + 40)] ∧ (∀ a, a ≠ BIC_SRCSTAT n → v.rd a = s.rd a) ∧
          v = { u with csr := v.csr, cores := v.cores })) ∧
      ((∀ x ∈ (s.coreIrq c).reeval, x.2 ≤ u.mclk → x.1 < 256) → s.runs (.reevaluate c t) (fun v => State.only u v [] ∧
        (v.coreIrq c).reeval = (s.coreIrq c).reeval.filter (fun x => decide (u.mclk < x.2)) ∧
        (v.coreIrq c).active = (s.coreIrq c).active ∧
        ∀ x ∈ (s.coreIrq c).reeval, x.2 ≤ u.mclk → s.on (BIC_SRCSTAT_LEVEL x.1) = true → s.on (BIC_SRCCFG_DELIV x.1) = true →
          pend v c x.1 = true))) ∧
    (let ended := fun (v : State) (n : Nat) => State.only u v [] ∧
      if (s.src n).heldH.isSome = true ∧ s.on (BIC_SRCCFG_TYPE n) = false ∧ u.targetUp 2 = true then
        v.src n = { s.src n with outH := some u.now, lastH := u.now, heldH := none } ∧ bit (v.get (BIC_SRCSTAT_ACTIVE n)) 2 = true
      else v.src n = { s.src n with outH := none } ∧ bit (v.get (BIC_SRCSTAT_ACTIVE n)) 2 = false
     (∀ w : Word, u.pathUp .host = true → (s.src (w.toNat % 256)).outH.isSome = true → s.runs (.hcomplete .host w t) (fun v =>
      ended v (w.toNat % 256))) ∧
     (∀ n a, n < 256 → (s.src n).outH = some a → a + s.get BIC_HOSTCFG_HTMO * sec ≤ u.now → s.runs (.htmo n t) (fun v => ended v n ∧
      v.get BIC_STAT_HTMOCNT = min (s.get BIC_STAT_HTMOCNT + 1) 65535))) ∧
    (∀ n, n < 256 → s.on (BIC_SRCSTAT_LEVEL n) = true →
      (bit (s.get (BIC_SRCCFG_TEN n)) 2 = true → (s.src n).outH = none → (s.src n).lastH + sec ≤ u.now → u.targetUp 2 = true →
        s.runs (.levelRedeliver n 2 t) (fun v => State.only u v [] ∧ (v.src n).outH = some u.now ∧ (v.src n).lastH = u.now)) ∧
      (bit (s.get (BIC_SRCCFG_TEN n)) 3 = true → (s.src n).outRM = none → (s.src n).lastRM + sec ≤ u.now → u.targetUp 3 = true →
        s.mgmt.ntf.length < 32 → s.runs (.levelRedeliver n 3 t) (fun v => State.only u v [] ∧ (v.src n).outRM = some u.now ∧
          v.mgmt.ntf.map (·.src) = s.mgmt.ntf.map (·.src) ++ [n]))) ∧
    (∀ g a, 1 ≤ g → g < 16 → (Tab.get (fun _ => (⟨0, none⟩ : Grp)) s.grps g).first = some a →
      a + s.get (BIC_GRP_TIME g) * us ≤ u.now → s.runs (.groupRelease g t) (fun v => State.only u v [] ∧
        Tab.get (fun _ => (⟨0, none⟩ : Grp)) v.grps g = ⟨0, none⟩ ∧
        ∀ n, n < 256 → s.get (BIC_SRCCFG_GROUP n) = g → (v.src n).grouped = 0))

/-- A completion by a core that names a source not active for that core changes nothing but BIC.STAT.SPURIOUS, which
counts it and saturates. (R569). -/
def Obligations.SpuriousCompletion : Prop :=
  ∀ (s : State) (c : Nat) (w : Word) (t : Nat), c < 2 → s.pwr.alive = true → s.secb.running.isSome = true → s.domOn 196 = true →
    (s.coreIrq c).active.contains (w.toNat % 256) = false →
    s.runs (.bicComplete (.core c) c w t) (fun v =>
      v.get BIC_STAT_SPURIOUS = min (s.get BIC_STAT_SPURIOUS + 1) 65535 ∧
      v.get BIC_STAT_HTMOCNT = s.get BIC_STAT_HTMOCNT ∧ v.get BIC_STAT_HELDOVF = s.get BIC_STAT_HELDOVF ∧
      v.get BIC_STAT_WAKES = s.get BIC_STAT_WAKES ∧ (∀ a, a ≠ BIC_STAT → v.rd a = s.rd a) ∧ v = { s.at t with csr := v.csr })

/-- The oldest record that awaits NOR is written there, or its failure is counted and it waits on. A write of RSEL latches
the record asked for, or says that it is not yet written or not readable. A snapshot requested finds one pending or
begins one; eight unskipped cycles on, every register captured has its shadow and both dies carry the same generation.
Arming empties the trace, forcing keeps the newest PRE entries, a read of TRDATA gives the entry selected and moves
on. (R575, R581, R583, R627, R628, R629, R631, R632, R634). -/
def Obligations.RecorderAndSnapshots : Prop :=
  ∀ (s : State) (t : Nat), let u := s.at t
    (∀ q r, s.evrec.nor = q :: r →
      s.runs (.norWrite true t) (fun v => v.evrec = { s.evrec with nor := r } ∧ v.pwr = { s.pwr with norSeq := some q } ∧
        v.get EVREC_STAT_PENDING = r.length % 65536 ∧ State.only { u with pwr := v.pwr } v []) ∧
      s.runs (.norWrite false t) (fun v => v.get EVREC_STAT_NORERR = min (s.get EVREC_STAT_NORERR + 1) 65535 ∧
        (∀ a, a ≠ EVREC_STAT → v.rd a = s.rd a) ∧ v = { u with csr := v.csr })) ∧
    (∀ w : Word, s.pwr.alive = true → s.secb.running.isSome = true → let q := w.toNat % 2 ^ 32
      s.runs (.rsel .rm w t) (fun v => v.get EVREC_RSEL_SEQ = q ∧ v = { u with csr := v.csr } ∧
        (∀ a, a ≠ EVREC_RSEL → (∀ i, i < 4 → a ≠ EVREC_RDATA i) → v.rd a = s.rd a) ∧
        match s.findRec q with
        | some e => v.get EVREC_RSEL_RSTAT = 0 ∧ ∀ i, i < 4 → v.rd (EVREC_RDATA i) = BitVec.ofNat 64 (leAt e.bytes (8 * i) 8)
        | none => v.get EVREC_RSEL_RSTAT = (if s.get EVREC_HEAD_NEXT ≤ q then 1 else 2) ∧
            ∀ i, i < 4 → v.rd (EVREC_RDATA i) = s.rd (EVREC_RDATA i))) ∧
    (s.domOn 192 = true → u.pathUp .host = true →
      (∀ w : Word, w.getLsbD 16 = true → s.runs (.snapctlSnap .host w t) (fun v =>
        (∀ a, a ≠ HAMMER_SNAPCTL → v.rd a = s.rd a) ∧ v = { u with csr := v.csr, snapReq := v.snapReq } ∧
        v.get HAMMER_SNAPCTL_TAG = w.toNat % 65536 ∧
        match s.snapReq with
        | some r => v.snapReq = some (if u.launchAt 2 ≤ r.at_ ∧ r.src % 4 = 0 then
              { r with src := Nat.lor r.src 2, tag := w.toNat % 65536, pos := u.snapPos } else { r with src := Nat.lor r.src 2 }) ∧
            v.get HAMMER_SNAPCTL_MERGED = min (s.get HAMMER_SNAPCTL_MERGED + 1) 65535
        | none => v.snapReq = some ⟨2, w.toNat % 65536, s.get TONGS_JOBSTAT_RUNJOB, u.snapPos, u.launchAt 2⟩)) ∧
      (∀ r, s.snapReq = some r → r.at_ + 8 ≤ u.cyc → s.runs (.snapCapture t) (fun v => v.snapReq = none ∧
        v.get BELLOWS_SNAPSTAT_GEN = (s.get BELLOWS_SNAPSTAT_GEN + 1) % 2 ^ 32 ∧ v.get HAMMER_SNAPSTAT_GEN = v.get BELLOWS_SNAPSTAT_GEN ∧
        v.on BELLOWS_SNAPSTAT_MAINVALID = true ∧ v.get HAMMER_SNAPSTAT_TAG = r.tag % 65536 ∧ v.get BELLOWS_SNAPSTAT_TAG = r.tag % 65536 ∧
        v.get HAMMER_SNAPSTAT_JOBID = r.job % 256 ∧ v.get HAMMER_SNAPSTAT_SRC = r.src % 8 ∧ v.get BELLOWS_SNAPSTAT_SRC = r.src % 8 ∧
        v.get HAMMER_SNAPCYC_CYCLE = u.cyc % 2 ^ 64 ∧ v.get HAMMER_SNAPPOS_POS = r.pos % 2 ^ 64 ∧
        (∀ a, (a ∈ capturedOf mainRows ∨ a ∈ capturedOf planeRows) → u.csrOn a = true →
          Tab.get (fun _ => 0) v.shadow a = u.csrView a) ∧
        v = { u with csr := v.csr, shadow := v.shadow, snapReq := none, trace := v.trace })) ∧
      (∀ w : Word, w.getLsbD 0 = true → w.getLsbD 1 = false → s.runs (.hammerTraceArm .host w t) (fun v =>
        v.trace = ⟨[], 0⟩ ∧ v.get HAMMER_TRSTAT_STATE = 1 ∧ v.get HAMMER_TRSTAT_COUNT = 0 ∧
        (∀ a, a ≠ HAMMER_TRSTAT → v.rd a = s.rd a) ∧ v = { u with csr := v.csr, trace := v.trace })) ∧
      (∀ w : Word, w.getLsbD 0 = false → w.getLsbD 1 = true → let pre := s.get HAMMER_TRCFG_PRE
        let l := s.trace.ents
        s.runs (.hammerTraceForce .host w t) (fun v => (∀ a, a ≠ HAMMER_TRSTAT → v.rd a = s.rd a) ∧
          v = { u with csr := v.csr, trace := v.trace } ∧
          if s.get HAMMER_TRSTAT_STATE = 1 ∧ pre ≤ l.length then
            v.trace = ⟨l.drop (l.length - pre), 0⟩ ∧ v.get HAMMER_TRSTAT_STATE = 2 ∧ v.get HAMMER_TRSTAT_COUNT = pre
          else v.trace = s.trace ∧ v.rd HAMMER_TRSTAT = s.rd HAMMER_TRSTAT)) ∧
      (let i := s.get HAMMER_TRSEL_IDX
       s.runs (.hammerTrdata t) (fun v => v.get HAMMER_TRSEL_IDX = (i + 1) % 4096 ∧
        (∀ w, s.trace.ents[i]? = some w → v.rd HAMMER_TRDATA = w) ∧
        (∀ a, a ≠ HAMMER_TRDATA → a ≠ HAMMER_TRSEL → v.rd a = s.rd a) ∧ v = { u with csr := v.csr, free := v.free })))

/-- The test access port runs on VSB12: IDCODE selects the identity register with the spec's value, SAMPLE/PRELOAD samples
the boundary register and loads it, BYPASS selects the one-bit bypass. While the regulators are off, EXTEST and CLAMP
drive the scanned outputs from the boundary register and HIGHZ releases them; while they are on, the outputs follow
the chip as under BYPASS. No instruction touches a valve channel, the cooling plane, a register or the time. (The
order of the boundary register's bits is the model's, assumption log 20: no clause names a place in it.) (R638). -/
def Obligations.TestAccessPort : Prop :=
  ∀ (s : State), s.pwr.alive = true →
    let frame := fun (v : State) => v = { s with jtag := v.jtag, free := v.free }
    let asBypass := fun (v : State) => v.jtag.dr = 0 ∧ v.pinDrive = .chip ∧ v.jtag.boundary = s.jtag.boundary
    s.runs .idcode (fun v => frame v ∧ v.jtag.ir = 1 ∧ v.jtag.dr = 0x1AC209B3 ∧ v.pinDrive = .chip) ∧
    s.runs .bypass (fun v => frame v ∧ v.jtag.ir = 0xFF ∧ asBypass v) ∧
    (∀ b, s.runs (.samplePreload b) (fun v => frame v ∧ v.jtag.ir = 2 ∧ v.jtag.boundary = b % 2 ^ 16 ∧ v.pinDrive = .chip)) ∧
    (s.on BELLOWS_PWRSTAT_REGON = true →
      (∀ b, s.runs (.extest b) (fun v => frame v ∧ asBypass v)) ∧ s.runs .highz (fun v => frame v ∧ asBypass v) ∧
      s.runs .clamp (fun v => frame v ∧ asBypass v)) ∧
    (s.on BELLOWS_PWRSTAT_REGON = false →
      (∀ b, s.runs (.extest b) (fun v => frame v ∧ v.jtag.boundary = b % 2 ^ 16 ∧ v.pinDrive = .boundary (drivenPins v.jtag.boundary))) ∧
      s.runs .highz (fun v => frame v ∧ v.pinDrive = .released ∧ v.jtag.dr = 0) ∧
      s.runs .clamp (fun v => frame v ∧ v.pinDrive = .boundary (drivenPins s.jtag.boundary) ∧ v.jtag.dr = 0))

/-- A write to an address that holds no register, is not aligned or whose domain is off is refused: an event is recorded,
a summary bit set, and nothing else changes; so is one to a field of the BELLOWS block that the path does not own. An
accepted write to a register of the BELLOWS block stores each read-write field whose value is in its bounds, clears
the bits of a write-1-to-clear field where 1 is written, leaves a read-only field and a locked one as they were, and
changes no other register. (R13, R14, R16, R17, R250, R478). -/
def Obligations.RegisterWrites : Prop :=
  ∀ (s : State) (p : Path) (a : Nat) (w : Word) (t : Nat), let u := s.at t
    u.pathUp p = true →
    let o := fun (f : FieldSpec) => bitsOf (s.rd a).toNat f.hi f.lo
    let n := fun (f : FieldSpec) => bitsOf w.toNat f.hi f.lo
    let refused := fun (v : State) => u.recorded v 0x0203 ∧ State.only u v [HAMMER_ERRSUM] ∧
      (s.domOn 192 = true → v.on HAMMER_ERRSUM_CSRREF = true)
    ((mainWindow a = true → s.domOn 192 = true) → (a % 8 ≠ 0 ∨ findReg a = none ∨ u.csrOn a = false) →
      s.runs (.registerWrite p a w t) refused) ∧
    (∀ r, findReg a = some r → a % 8 = 0 → a / 65536 = 0x38000000 → a ≠ BELLOWS_KEEPALIVE →
      ((∃ f ∈ r.fields, f.acts (s.rd a) w = true ∧ f.own.admits p a = false) → s.runs (.registerWrite p a w t) refused) ∧
      ((∀ f ∈ r.fields, f.acts (s.rd a) w = true → f.own.admits p a = true) → s.runs (.registerWrite p a w t) (fun v =>
        (∀ b, b ≠ a → v.rd b = s.rd b) ∧ v = { u with csr := v.csr } ∧
        ∀ f ∈ r.fields, bitsOf (v.rd a).toNat f.hi f.lo = match f.acc with
          | .rw => if f.min ≤ n f ∧ n f ≤ f.max then n f else o f
          | .rwl => if f.min ≤ n f ∧ n f ≤ f.max ∧ s.pwr.step < 4 then n f else o f
          | .w1c => o f - Nat.land (o f) (n f)
          | _ => o f)))

/-- A step takes the command at the front of the queue and answers what that command does to the rest of the state with
the rest of the queue; with an empty queue the device idles (assumption log 1: the queue and idling are the model's).
(95_what_each_step_holds.md). -/
def Obligations.StepRuns : Prop :=
  (∀ (s : State) (c : Instr) (rest : List Instr), s.pending = c :: rest → step s = exec c { s with pending := rest }) ∧
  ∀ s : State, s.pending = [] → step s = .next s

/-- After cold reset every register holds its reset value, no byte of memory is listed and the memory is in its canonical
form, the ROM is about to run with the regulators off and the compute complex down, no job exists, no record is held,
the TAP holds IDCODE, nothing waits, and a command that arrives then runs (the values that the spec does not give are
the model's: assumption log 4, 14 and 15). (R281, R593, R595, R598, R635). -/
def Obligations.AfterReset : Prop :=
  let s := State.reset
  s.memOk = true ∧ (∀ a, s.byte a = 0) ∧ (∀ a, s.rd a = regReset a) ∧ s.pwr.step = 2 ∧ s.pwr.stop = false ∧
  s.on BELLOWS_PWRSTAT_REGON = false ∧ (∀ d, d < 195 → s.domOn d = false) ∧ s.jobs = [] ∧ s.evrec.circ = [] ∧ s.evrec.nor = [] ∧
  s.hammer = Hammer.reset ∧ s.jtag = ⟨1, 0x1AC209B3, 0⟩ ∧ s.pinDrive = .chip ∧ s.pending = [] ∧
  ∀ c : Instr, step { s with pending := [c] } = exec c s

/-- From every state whose memory is in its canonical form (addresses rising, no byte listed that an unlisted address
reads as), whatever command is at the front of the queue, a step that goes on leaves the memory in that form. (R247,
R280, R281). -/
def Obligations.MemoryStaysCanonical : Prop :=
  ∀ s t : State, step s = .next t → s.memOk = true → t.memOk = true

/-- From every state, whatever command is at the front of the queue, the step goes on: no command ends in a fault or a
refusal; the queue is then the rest of it, time does not run back, a claim of the device stays, and no monotonic
counter falls. (R604, R618). -/
def Obligations.EveryStepGoesOn : Prop :=
  ∀ s : State, ∃ t, step s = .next t ∧ t.pending = s.pending.drop 1 ∧ s.now ≤ t.now ∧ s.oneWay t
end

