-- ==== Sys2Proof/Laws/Tab.lean ====
section
/-! SUPPORT. The laws of sparse tables: a read after a write, and that every operation keeps the canonical form. -/

namespace Sys2Proof.Machine

variable {α : Type}

theorem Tab.get_erase_ne (d : Nat → α) (t : Tab α) {k j : Nat} (h : j ≠ k) :
    Tab.get d (t.erase k) j = Tab.get d t j := by
  induction t with
  | nil => rfl
  | cons p r ih =>
    obtain ⟨q, v⟩ := p
    by_cases hq : q = k
    · subst hq
      have : (Tab.erase ((q, v) :: r) q) = Tab.erase r q := by simp [Tab.erase]
      rw [this, ih]; simp [Tab.get, h.symm]
    · have : (Tab.erase ((q, v) :: r) k) = (q, v) :: Tab.erase r k := by simp [Tab.erase, hq]
      rw [this]; simp only [Tab.get]; rw [ih]

theorem Tab.get_erase_self (d : Nat → α) (t : Tab α) (k : Nat) : Tab.get d (t.erase k) k = d k := by
  induction t with
  | nil => rfl
  | cons p r ih =>
    obtain ⟨q, v⟩ := p
    by_cases hq : q = k
    · subst hq
      have : (Tab.erase ((q, v) :: r) q) = Tab.erase r q := by simp [Tab.erase]
      rw [this, ih]
    · have : (Tab.erase ((q, v) :: r) k) = (q, v) :: Tab.erase r k := by simp [Tab.erase, hq]
      rw [this]; simp only [Tab.get, hq, if_false]; exact ih

theorem Tab.get_insert_self (d : Nat → α) (t : Tab α) (k : Nat) (v : α) (h : ∀ p ∈ t, p.1 ≠ k) :
    Tab.get d (Tab.insert k v t) k = v := by
  induction t with
  | nil => simp [Tab.insert, Tab.get]
  | cons p r ih =>
    obtain ⟨q, w⟩ := p
    have hq : q ≠ k := h (q, w) (by simp)
    simp only [Tab.insert]
    split
    · simp [Tab.get]
    · simp only [Tab.get, hq, if_false]; exact ih (fun p hp => h p (by simp [hp]))

theorem Tab.get_insert_ne (d : Nat → α) (t : Tab α) {k j : Nat} (v : α) (h : j ≠ k) :
    Tab.get d (Tab.insert k v t) j = Tab.get d t j := by
  induction t with
  | nil => simp [Tab.insert, Tab.get, h.symm]
  | cons p r ih =>
    obtain ⟨q, w⟩ := p
    simp only [Tab.insert]
    split
    · simp [Tab.get, h.symm]
    · simp only [Tab.get]; rw [ih]

theorem Tab.not_mem_erase (t : Tab α) (k : Nat) : ∀ p ∈ t.erase k, p.1 ≠ k := by
  intro p hp; simpa using (List.mem_filter.mp hp).2

variable [DecidableEq α]

/-- A read after a write of the same key gives the value written. -/
@[simp] theorem Tab.get_set_self (d : Nat → α) (t : Tab α) (k : Nat) (v : α) :
    Tab.get d (Tab.set d t k v) k = v := by
  unfold Tab.set; split
  · next h => rw [Tab.get_erase_self, h]
  · exact Tab.get_insert_self _ _ _ _ (Tab.not_mem_erase _ _)

/-- A write leaves every other key alone. -/
theorem Tab.get_set_ne (d : Nat → α) (t : Tab α) {k j : Nat} (v : α) (h : j ≠ k) :
    Tab.get d (Tab.set d t k v) j = Tab.get d t j := by
  unfold Tab.set; split
  · exact Tab.get_erase_ne _ _ h
  · rw [Tab.get_insert_ne _ _ _ h, Tab.get_erase_ne _ _ h]

/-- A read after a write, at any key. -/
theorem Tab.get_set (d : Nat → α) (t : Tab α) (k j : Nat) (v : α) :
    Tab.get d (Tab.set d t k v) j = if j = k then v else Tab.get d t j := by
  split
  · next h => subst h; simp
  · next h => exact Tab.get_set_ne _ _ _ h

theorem Tab.wf_iff (d : Nat → α) (t : Tab α) :
    Tab.wf d t = true ↔ t.Pairwise (fun p q => p.1 < q.1) ∧ ∀ p ∈ t, p.2 ≠ d p.1 := by
  simp [Tab.wf]

/-- Any part of a canonical table is canonical. -/
theorem Tab.wf_filter (d : Nat → α) (t : Tab α) (f : Nat × α → Bool) (h : Tab.wf d t = true) :
    Tab.wf d (t.filter f) = true := by
  rw [Tab.wf_iff] at h ⊢
  exact ⟨h.1.filter _, fun p hp => h.2 p (List.mem_filter.mp hp).1⟩

theorem Tab.mem_insert (t : Tab α) (k : Nat) (v : α) (p : Nat × α) :
    p ∈ Tab.insert k v t ↔ p = (k, v) ∨ p ∈ t := by
  induction t with
  | nil => simp [Tab.insert]
  | cons q r ih =>
    obtain ⟨q, w⟩ := q
    simp only [Tab.insert]
    split
    · simp
    · simp only [List.mem_cons, ih]; tauto

theorem Tab.pairwise_insert (t : Tab α) (k : Nat) (v : α) (h : t.Pairwise (fun p q => p.1 < q.1))
    (hk : ∀ p ∈ t, p.1 ≠ k) : (Tab.insert k v t).Pairwise (fun p q => p.1 < q.1) := by
  induction t with
  | nil => simp [Tab.insert]
  | cons q r ih =>
    obtain ⟨q, w⟩ := q
    have hq : q ≠ k := hk (q, w) (by simp)
    rw [List.pairwise_cons] at h
    simp only [Tab.insert]
    split
    · next hlt =>
      refine List.pairwise_cons.mpr ⟨?_, List.pairwise_cons.mpr h⟩
      intro p hp
      rcases List.mem_cons.mp hp with rfl | hp
      · exact hlt
      · exact lt_trans hlt (h.1 p hp)
    · next hlt =>
      refine List.pairwise_cons.mpr ⟨?_, ih h.2 (fun p hp => hk p (by simp [hp]))⟩
      intro p hp
      rcases (Tab.mem_insert r k v p).mp hp with rfl | hp
      · show q < k; omega
      · exact h.1 p hp

/-- A write keeps the canonical form. -/
theorem Tab.wf_set (d : Nat → α) (t : Tab α) (k : Nat) (v : α) (h : Tab.wf d t = true) :
    Tab.wf d (Tab.set d t k v) = true := by
  have he : Tab.wf d (t.erase k) = true := Tab.wf_filter d t _ h
  unfold Tab.set; split
  · exact he
  · next hv =>
    rw [Tab.wf_iff] at he ⊢
    refine ⟨Tab.pairwise_insert _ _ _ he.1 (Tab.not_mem_erase _ _), fun p hp => ?_⟩
    rcases (Tab.mem_insert _ _ _ _).mp hp with rfl | hp
    · exact hv
    · exact he.2 p hp

end Sys2Proof.Machine
end

