-- ==== Sys2Proof/Laws/Csr.lean ====
section
/-! SUPPORT. The laws of CSR words and fields: what a field reads after a write of it, of another register, or of
another field of the same register. -/

namespace Sys2Proof.Machine

theorem testBit_bitsOf (w hi lo i : Nat) :
    (bitsOf w hi lo).testBit i = (decide (i < hi + 1 - lo) && w.testBit (lo + i)) := by
  unfold bitsOf
  rw [Nat.testBit_mod_two_pow, Nat.testBit_div_two_pow, Nat.add_comm i lo]

/-- The arithmetic of a field write: the part above, the new value, the part below. -/
theorem setBits_arith (n lo m x : Nat) :
    n - n / lo % m * lo + x * lo = n / lo / m * (lo * m) + x * lo + n % lo := by
  have h1 : n = lo * (n / lo) + n % lo := (Nat.div_add_mod n lo).symm
  have h2 : n / lo = m * (n / lo / m) + n / lo % m := (Nat.div_add_mod (n / lo) m).symm
  have h3 : n = n / lo / m * (lo * m) + n / lo % m * lo + n % lo := by
    conv_lhs => rw [h1]
    conv_lhs => rw [h2]
    ring
  have h4 : n / lo % m * lo ≤ n := by
    calc n / lo % m * lo ≤ n / lo * lo := Nat.mul_le_mul_right _ (Nat.mod_le _ _)
      _ ≤ n := Nat.div_mul_le_self _ _
  omega

theorem testBit_setBits (w : Word) (hi lo v i : Nat) (hl : lo ≤ hi) (hi6 : hi < 64) :
    (setBits w hi lo v).toNat.testBit i =
      if lo ≤ i ∧ i ≤ hi then v.testBit (i - lo) else w.toNat.testBit i := by
  have hw : w.toNat < 2 ^ 64 := w.isLt
  obtain ⟨k, rfl⟩ : ∃ k, hi = lo + k := ⟨hi - lo, by omega⟩
  have hk : lo + k + 1 - lo = k + 1 := by omega
  have hval : (setBits w (lo + k) lo v).toNat =
      (w.toNat / 2 ^ lo / 2 ^ (k + 1) * 2 ^ (k + 1) + v % 2 ^ (k + 1)) * 2 ^ lo + w.toNat % 2 ^ lo := by
    have hlt : (w.toNat / 2 ^ lo / 2 ^ (k + 1) * 2 ^ (k + 1) + v % 2 ^ (k + 1)) * 2 ^ lo + w.toNat % 2 ^ lo < 2 ^ 64 := by
      have hp : (2 : Nat) ^ 64 = 2 ^ (64 - (lo + k + 1)) * 2 ^ (k + 1) * 2 ^ lo := by
        rw [← pow_add, ← pow_add]; congr 1; omega
      have h1 : w.toNat / 2 ^ lo / 2 ^ (k + 1) < 2 ^ (64 - (lo + k + 1)) := by
        rw [Nat.div_div_eq_div_mul, ← pow_add]
        apply Nat.div_lt_of_lt_mul
        rw [← pow_add]
        calc w.toNat < 2 ^ 64 := hw
          _ ≤ 2 ^ (lo + (k + 1) + (64 - (lo + k + 1))) := Nat.pow_le_pow_right (by omega) (by omega)
      have h2 : v % 2 ^ (k + 1) < 2 ^ (k + 1) := Nat.mod_lt _ (Nat.two_pow_pos _)
      have h3 : w.toNat % 2 ^ lo < 2 ^ lo := Nat.mod_lt _ (Nat.two_pow_pos _)
      rw [hp]
      set A := w.toNat / 2 ^ lo / 2 ^ (k + 1)
      set P := 2 ^ (64 - (lo + k + 1))
      set Q := 2 ^ (k + 1)
      set L := 2 ^ lo
      have h4 : A * Q + v % Q + 1 ≤ P * Q := by
        have : (A + 1) * Q ≤ P * Q := Nat.mul_le_mul_right _ h1
        have : A * Q + Q = (A + 1) * Q := by ring
        omega
      have h5 : (A * Q + v % Q + 1) * L ≤ P * Q * L := Nat.mul_le_mul_right _ h4
      have h6 : (A * Q + v % Q + 1) * L = (A * Q + v % Q) * L + L := by ring
      omega
    unfold setBits
    simp only [hk, BitVec.toNat_ofNat]
    rw [setBits_arith]
    have : w.toNat / 2 ^ lo / 2 ^ (k + 1) * (2 ^ lo * 2 ^ (k + 1)) + v % 2 ^ (k + 1) * 2 ^ lo + w.toNat % 2 ^ lo =
      (w.toNat / 2 ^ lo / 2 ^ (k + 1) * 2 ^ (k + 1) + v % 2 ^ (k + 1)) * 2 ^ lo + w.toNat % 2 ^ lo := by ring
    rw [this, Nat.mod_eq_of_lt hlt]
  rw [hval, Nat.mul_comm, Nat.testBit_two_pow_mul_add _ (Nat.mod_lt _ (Nat.two_pow_pos _))]
  by_cases h1 : i < lo
  · have : ¬ (lo ≤ i ∧ i ≤ lo + k) := by omega
    simp [h1, this, Nat.testBit_mod_two_pow]
  · rw [Nat.mul_comm, if_neg h1, Nat.testBit_two_pow_mul_add _ (Nat.mod_lt _ (Nat.two_pow_pos _))]
    by_cases h2 : i - lo < k + 1
    · have : lo ≤ i ∧ i ≤ lo + k := by omega
      simp [h2, this, Nat.testBit_mod_two_pow]
    · have : ¬ (lo ≤ i ∧ i ≤ lo + k) := by omega
      rw [if_neg h2, if_neg this, Nat.testBit_div_two_pow, Nat.testBit_div_two_pow]
      congr 1; omega

/-- A register after a write of it. -/
@[simp] theorem State.rd_wr_self (s : State) (a : Nat) (w : Word) : (s.wr a w).rd a = w := Tab.get_set_self _ _ _ _

/-- A register after a write of another one. -/
theorem State.rd_wr_ne (s : State) {a b : Nat} (w : Word) (h : b ≠ a) : (s.wr a w).rd b = s.rd b :=
  Tab.get_set_ne _ _ _ h

/-- The register that holds a field, after a write of the field. -/
theorem State.rd_put_self (s : State) (f : Fd) (v : Nat) : (s.put f v).rd f.addr = setBits (s.rd f.addr) f.hi f.lo v :=
  State.rd_wr_self _ _ _

/-- Another register after a write of a field. -/
theorem State.rd_put_ne (s : State) (f : Fd) (v : Nat) {b : Nat} (h : b ≠ f.addr) : (s.put f v).rd b = s.rd b :=
  State.rd_wr_ne _ _ h

/-- A field reads the value written, cut to its width. -/
theorem State.get_put_self (s : State) (f : Fd) (v : Nat) (hl : f.lo ≤ f.hi) (hh : f.hi < 64) :
    (s.put f v).get f = v % 2 ^ (f.hi + 1 - f.lo) := by
  unfold State.get
  rw [State.rd_put_self]
  apply Nat.eq_of_testBit_eq
  intro i
  rw [testBit_bitsOf, testBit_setBits _ _ _ _ _ hl hh, Nat.testBit_mod_two_pow]
  by_cases h : i < f.hi + 1 - f.lo
  · have : f.lo ≤ f.lo + i ∧ f.lo + i ≤ f.hi := by omega
    simp [h, this]
  · simp [h]

/-- A field of another register is unchanged by the write of a field. -/
theorem State.get_put_ne (s : State) (f g : Fd) (v : Nat) (h : g.addr ≠ f.addr) : (s.put f v).get g = s.get g := by
  unfold State.get; rw [State.rd_put_ne _ _ _ h]

/-- A field whose bits are apart from those written is unchanged. -/
theorem State.get_put_apart (s : State) (f g : Fd) (v : Nat) (hl : f.lo ≤ f.hi) (hh : f.hi < 64)
    (h : g.hi < f.lo ∨ f.hi < g.lo) : (s.put f v).get g = s.get g := by
  by_cases ha : g.addr = f.addr
  · unfold State.get
    rw [ha, State.rd_put_self]
    apply Nat.eq_of_testBit_eq
    intro i
    rw [testBit_bitsOf, testBit_bitsOf, testBit_setBits _ _ _ _ _ hl hh]
    by_cases hi : i < g.hi + 1 - g.lo
    · have : ¬ (f.lo ≤ g.lo + i ∧ g.lo + i ≤ f.hi) := by omega
      simp [this]
    · simp [hi]
  · exact State.get_put_ne s f g v ha

/-- A write of a register leaves the fields of the others. -/
theorem State.get_wr_ne (s : State) {a : Nat} (g : Fd) (w : Word) (h : g.addr ≠ a) : (s.wr a w).get g = s.get g := by
  unfold State.get; rw [State.rd_wr_ne _ _ h]

/-- A one-bit field after it has been set to a truth value. -/
theorem State.on_putB_self (s : State) (f : Fd) (b : Bool) (hl : f.lo = f.hi) (hh : f.hi < 64) :
    (s.putB f b).on f = b := by
  unfold State.on State.putB
  rw [State.get_put_self _ _ _ (by omega) hh]
  have : f.hi + 1 - f.lo = 1 := by omega
  rw [this]; cases b <;> simp

/-- A counter field one higher, at its maximum unchanged. -/
theorem State.get_inc_self (s : State) (f : Fd) (hl : f.lo ≤ f.hi) (hh : f.hi < 64) :
    (s.inc f).get f = min (s.get f + 1) (2 ^ (f.hi + 1 - f.lo) - 1) := by
  unfold State.inc State.add
  rw [State.get_put_self _ _ _ hl hh]
  apply Nat.mod_eq_of_lt
  have := Nat.two_pow_pos (f.hi + 1 - f.lo)
  omega

end Sys2Proof.Machine
end

