-- ==== Sys2Proof/Laws/Issue.lean ====
section
/-! SUPPORT. What issuing a bundle of one slot word does, said once: the word's register results and its activity take their
places, its generators change, and the bundle position and address move on. -/

namespace Sys2Proof.Machine

/-- An effect that only joins the results in flight. -/
def Flight.reg (f : Flight) : Bool :=
  match f.eff with
  | .s _ _ _ => true
  | .mask _ _ => true
  | .anvil _ _ _ => true
  | .act _ _ => true
  | _ => false

/-- An effect that only writes a generator. -/
def Flight.charge (f : Flight) : Bool :=
  match f.eff with
  | .sr _ _ => true
  | _ => false

/-- The generators after the effects of a bundle. -/
def State.charged (s : State) (l : List Flight) : State :=
  l.foldl (fun s f => match f.eff with
    | .sr g st => s.wr (ANVIL_SRGEN g) st
    | _ => s) s

/-- A register write changes registers alone. -/
theorem State.wr_alone (s : State) (a : Nat) (w : Word) : s.wr a w = { s with csr := (s.wr a w).csr } := rfl

theorem State.wr_onHammer (s : State) (a : Nat) (w : Word) (k : Hammer → Hammer) :
    (s.onHammer k).wr a w = (s.wr a w).onHammer k := rfl

theorem State.charged_hammer (s : State) (l : List Flight) : (s.charged l).hammer = s.hammer := by
  induction l generalizing s with
  | nil => rfl
  | cons f r ih =>
    simp only [State.charged, List.foldl_cons] at ih ⊢
    rw [ih]
    split
    · rw [State.wr_alone]
    · rfl

theorem State.charged_rest (s : State) (l : List Flight) : s.charged l = { s with csr := (s.charged l).csr } := by
  induction l generalizing s with
  | nil => rfl
  | cons f r ih =>
    simp only [State.charged, List.foldl_cons] at ih ⊢
    rw [ih]
    split
    · rw [State.wr_alone]
    · rfl

theorem State.charged_onHammer (s : State) (l : List Flight) (k : Hammer → Hammer) :
    (s.onHammer k).charged l = (s.charged l).onHammer k := by
  induction l generalizing s with
  | nil => rfl
  | cons f r ih =>
    simp only [State.charged, List.foldl_cons] at ih ⊢
    rw [← ih]
    congr 1
    split
    · exact State.wr_onHammer _ _ _ _
    · rfl

theorem State.foldl_issueEff (n u : Nat) (stop idle : Bool) (l : List Flight) (s : State)
    (h : ∀ f ∈ l, f.reg = true ∨ f.charge = true) :
    l.foldl (State.issueEff n u stop idle) s =
      (s.charged l).onHammer (fun x =>
        { x with flight := x.flight ++ (l.filter Flight.reg).map (fun f => ⟨n + f.due, f.eff⟩) }) := by
  induction l generalizing s with
  | nil => simp [State.charged, State.onHammer]
  | cons f r ih =>
    have hr : ∀ f ∈ r, f.reg = true ∨ f.charge = true := fun f hf => h f (by simp [hf])
    rw [List.foldl_cons, ih _ hr]
    rcases h f (by simp) with hf | hf
    · have hc : State.charged s (f :: r) = s.charged r := by
        simp only [State.charged, List.foldl_cons]
        congr 1
        unfold Flight.reg at hf; split at hf <;> simp_all
      have hi : State.issueEff n u stop idle s f = s.fly (n + f.due) f.eff := by
        unfold Flight.reg at hf; unfold State.issueEff; split at hf <;> simp_all
      rw [hi, hc]
      unfold State.fly
      rw [State.charged_onHammer]
      simp [State.onHammer, hf, State.charged_hammer]
    · have hn : f.reg = false := by
        unfold Flight.charge at hf; unfold Flight.reg; split at hf <;> simp_all
      have hi : (State.issueEff n u stop idle s f).charged r = s.charged (f :: r) := by
        unfold Flight.charge at hf; unfold State.issueEff
        simp only [State.charged, List.foldl_cons]
        split at hf <;> simp_all
      rw [hi]; simp [hn]

/-- The state after the issue of a bundle of one word whose effects are `l`, before the results due at the next position
are taken up. -/
def State.issuedWith (s : State) (h : Hd) (l : List Flight) : State :=
  (((s.inc HAMMER_ISSUECNT_COUNT).put HAMMER_PCSTAT_PC s.hammer.pc).charged l).onHammer (fun x =>
    { x with
      cur := Open.none, open_ := false, pos := s.hammer.pos + 1, pc := s.hammer.pc + (h.len + 1), redirs := []
      recent := x.recent.filter (fun r => s.hammer.pos < r.1 + 8)
      descs := x.descs.filter (fun d => s.hammer.pos ≤ d.pos + 3)
      flight := (l.filter Flight.reg).map (fun f => ⟨s.hammer.pos + f.due, f.eff⟩) })

theorem foldl_keep {α β : Type} (f : β → α → β) (l : List α) (b : β) (h : ∀ a ∈ l, ∀ b, f b a = b) : l.foldl f b = b := by
  induction l generalizing b with
  | nil => rfl
  | cons a r ih => rw [List.foldl_cons, h a (by simp)]; exact ih _ (fun x hx => h x (by simp [hx]))

theorem tokIncr_reg (l : List Flight) (t : Nat) (h : ∀ f ∈ l, f.reg = true ∨ f.charge = true) : tokIncr l t = 0 := by
  unfold tokIncr
  rw [List.length_eq_zero_iff, List.filter_eq_nil_iff]
  intro f hf
  rcases h f hf with h | h
  · unfold Flight.reg at h; split at h <;> simp_all
  · unfold Flight.charge at h; split at h <;> simp_all

theorem admissible_reg (s : State) (l : List Flight) (h : ∀ f ∈ l, f.reg = true ∨ f.charge = true) :
    s.admissible l = true := by
  unfold State.admissible
  rw [List.all_eq_true]
  intro f hf
  rcases h f hf with h | h
  · unfold Flight.reg at h; split at h <;> simp_all
  · unfold Flight.charge at h; split at h <;> simp_all

theorem State.put_alone (s : State) (f : Fd) (v : Nat) : s.put f v = { s with csr := (s.put f v).csr } := rfl

theorem State.inc_alone (s : State) (f : Fd) : s.inc f = { s with csr := (s.inc f).csr } := rfl

theorem State.orFlags_hammer (s : State) (g : Nat) (fl : Flags) : (s.orFlags g fl).hammer = s.hammer := by
  unfold State.orFlags
  split
  · rfl
  · rw [State.wr_alone]

theorem State.applyA_hammer (s : State) (g : Nat) (e : AEff) : (s.applyA g e).hammer = s.hammer := by
  unfold State.applyA; split <;> simp only [State.orFlags_hammer, State.setAnvil]

theorem State.setBytes_hammer (s : State) (a : Nat) (l : List Byte) : (s.setBytes a l).hammer = s.hammer := by
  induction l generalizing s a with
  | nil => rfl
  | cons b r ih => rw [State.setBytes, ih]; rfl

theorem State.writeN_hammer (s : State) (a n v : Nat) : (s.writeN a n v).hammer = s.hammer := by
  unfold State.writeN State.writeBytes State.clearErrs; exact State.setBytes_hammer _ _ _

/-- A register result or activity that takes effect changes of Hammer the scalar registers and the mask only. -/
theorem State.commit_hammer (s : State) (n : Nat) (e : Eff) (he : Flight.reg ⟨n, e⟩ = true) :
    (s.commit e).hammer = { s.hammer with s := (s.commit e).hammer.s, amask := (s.commit e).hammer.amask } := by
  cases e <;> simp [Flight.reg] at he
  · unfold State.commit
    dsimp only
    split
    · rw [State.put_alone]; rfl
    · rfl
  · rfl
  · show ((s.applyA _ _).orFlags _ _).hammer = _
    unfold State.commit
    rw [State.orFlags_hammer, State.applyA_hammer]
  · unfold State.commit
    dsimp only
    split <;> rw [State.inc_alone]

theorem State.foldl_commit_hammer (l : List Flight) (s : State) (h : ∀ f ∈ l, f.reg = true) :
    (l.foldl (fun s f => s.commit f.eff) s).hammer = { s.hammer with
      s := (l.foldl (fun s f => s.commit f.eff) s).hammer.s
      amask := (l.foldl (fun s f => s.commit f.eff) s).hammer.amask } := by
  induction l generalizing s with
  | nil => rfl
  | cons f r ih =>
    simp only [List.foldl_cons]
    rw [ih _ (fun x hx => h x (by simp [hx])), State.commit_hammer s f.due f.eff (h f (by simp))]

/-- Register results that take effect at a position leave the rest of Hammer and take their places in flight away. -/
theorem State.commitAt_hammer (s : State) (p : Nat) (h : ∀ f ∈ s.hammer.flight, f.reg = true) :
    (s.commitAt p).hammer = { s.hammer with
      flight := s.hammer.flight.filter (fun f => f.due != p)
      s := (s.commitAt p).hammer.s, amask := (s.commitAt p).hammer.amask } := by
  unfold State.commitAt
  dsimp only
  rw [State.foldl_commit_hammer _ _ (fun f hf => h f (List.mem_filter.mp hf).1)]
  rfl

/-- Hammer at the start of an issue: counted, its address shown, the bundle taken. -/
def State.opening (s : State) : State :=
  ((s.inc HAMMER_ISSUECNT_COUNT).put HAMMER_PCSTAT_PC s.hammer.pc).onHammer (fun x => { x with cur := Open.none, open_ := false })

/-- Hammer after the effects of a bundle of `u` units at position `n` and address `pc`: the next position and address, and
the results due there. -/
def State.closing (s : State) (n pc u : Nat) : State :=
  let next := (s.hammer.redirAt (n + 1)).getD (pc + u)
  (s.onHammer (fun h =>
    { h with
      pos := n + 1
      pc := next
      redirs := h.redirs.filter (fun r => r.1 > n + 1)
      recent := h.recent.filter (fun r => n < r.1 + 8)
      descs := h.descs.filter (fun d => n ≤ d.pos + 3) })).commitAt (n + 1)

/-- The links of the branches of a bundle. -/
def State.linked (s : State) (l : List Flight) (n u : Nat) : State :=
  l.foldl (fun s f => match f.eff with
    | .link d => s.fly (n + f.due) (.s d (BitVec.ofNat 64 (s.linkValue n u)) false)
    | _ => s) s

/-- What an issue ends with: a fault found at its own position ends the job's issue, a heat marker two positions old its
heat. -/
def State.issueEnd (s : State) (n : Nat) : State :=
  if s.hammer.faults.any (fun f => f.detect ≤ n) then s.stopJob none
  else
    match s.hammer.marker with
    | some m => if n = m.pos + 2 then s.boundary m else s
    | none => s

/-- A bundle of one legal word issues (R190): the tests before it pass, and its effects happen in order. -/
theorem slotOp_issue (s : State) (h : Hd) (o : SlotOp) (hs : s.sole h o.slots) (hl : o.legal = true)
    (hd : noDup o.dests = true) (hw : (maskTokens o.wait).all (fun t => (s.tok t).count == 0) = true)
    (hf : s.waitFail o.wait = none) (hr : o.raw.all (fun w => checkBundle w == .ok && w % 2 ^ 32 / 2 ^ 30 == h.len) = true)
    (ht : (List.range 16).all (fun t => tokIncr (o.eff s) t == 0 || decide ((s.tok t).count + tokIncr (o.eff s) t ≤ 255)) = true)
    (ha : s.admissible (o.eff s) = true) :
    s.slotOp h o = .next ((((o.eff s).foldl
      (State.issueEff s.hammer.pos (h.len + 1) false (s.hammer.tok.all (fun t => t.2.count == 0))) s.opening).linked
        (o.eff s) s.hammer.pos (h.len + 1)).closing s.hammer.pos s.hammer.pc (h.len + 1)
        |>.issueEnd s.hammer.pos) := by
  obtain ⟨htk, ho, hc, hfin, hsl, hlen, hroom, hmk, hfl, hfa, hre, hsta⟩ := hs
  have hst : s.hammer.stall = none := by
    have := htk; simp [State.taking] at this; exact this.1.2
  have hcont : o.slots.contains h.slot = true := by simpa using hsl
  have hj : (s.join h o) = s.onHammer (fun x => { x with
      cur := { Open.none with
        words := 1, last := some h.slot, wait := o.wait, ma := if o.ma then 1 else 0, branch := o.branch, dests := o.dests
        effs := o.eff s, badRaw := o.raw
        sr := (o.eff s).filterMap (fun f => match f.eff with | .sr g st => some (g, st) | _ => none)
        len := h.len } }) := by
    unfold State.join
    simp only [hc, Open.none, hcont, hl, Bool.and_true, if_true]
    cases hr' : o.raw <;> simp [State.onHammer] <;> rfl
  unfold State.slotOp
  simp only [htk, ho, hfin, Bool.true_eq_false, if_false, if_true]
  set J := s.join h o with hJ
  have hJh : J.hammer.stall = none := by rw [hj]; exact hst
  have hv : J.verdict = .ok := by
    unfold State.verdict
    have hri : J.runImage = s.runImage := by rw [hj]; rfl
    obtain ⟨i, hi, hroom⟩ : ∃ i, s.runImage = some i ∧ 16 * s.hammer.pc + lenBytes h.len ≤ i.codeOff + i.codeBytes := by
      cases hq : s.runImage with
      | none => simp [hq] at hroom
      | some i => exact ⟨i, rfl, by simpa [hq] using hroom⟩
    rw [hri, hi]
    have hcap : ¬ 1 > lenCap h.len := by
      unfold lenCap; split <;> omega
    rw [hj]
    have : ¬ (16 * s.hammer.pc + lenBytes h.len > i.codeOff + i.codeBytes) := by omega
    cases hr' : o.raw with
    | none =>
      simp only [State.onHammer, Open.none, Option.map_none, hd]
      simp [hcap, this]
      split <;> omega
    | some w =>
      obtain ⟨hw', hlw⟩ : checkBundle w = .ok ∧ w % 2 ^ 32 / 2 ^ 30 = h.len := by rw [hr'] at hr; simpa using hr
      simp only [State.onHammer, Open.none, Option.map_some, hw', hd, hlw]
      simp [hcap, this]
      split <;> omega
  have hcw : J.hammer.cur.wait = o.wait := by rw [hj]; rfl
  have hce : J.hammer.cur.effs = o.eff s := by rw [hj]; rfl
  have htok : ∀ t, J.tok t = s.tok t := by intro t; rw [hj]; rfl
  unfold State.tryIssue
  rw [hv]
  simp only [hcw, hce, htok]
  have h1 : (maskTokens o.wait).any (fun t => decide ((s.tok t).count > 0)) = false := by
    rw [List.any_eq_false]
    intro t htm
    have := List.all_eq_true.mp hw t htm
    simp at this; simp [this]
  have h2 : J.waitFail o.wait = none := by
    have : J.waitFail o.wait = s.waitFail o.wait := by unfold State.waitFail; simp only [htok]
    rw [this, hf]
  have h3 : ((List.range 16).any fun t => decide (tokIncr (o.eff s) t > 0) && decide ((s.tok t).count + tokIncr (o.eff s) t > 255)) = false := by
    rw [List.any_eq_false]; intro t htm
    have := List.all_eq_true.mp ht t htm
    simp at this ⊢; omega
  have h4 : J.admissible (o.eff s) = true := by
    have : J.admissible (o.eff s) = s.admissible (o.eff s) := by rw [hj]; rfl
    rw [this, ha]
  rw [h1]
  simp only [h2, h3, h4, Bool.false_eq_true, if_false, Bool.true_eq_false]
  have h5 : J.release = J := by unfold State.release; rw [hJh]
  rw [h5]
  congr 1
  have hp : J.hammer.pos = s.hammer.pos := by rw [hj]; rfl
  have hpc : J.hammer.pc = s.hammer.pc := by rw [hj]; rfl
  have hcl : J.hammer.cur.len = h.len := by rw [hj]; rfl
  have hcs : J.hammer.cur.stop = false := by rw [hj]; rfl
  have hop : J.opening = s.opening := by rw [hj]; rfl
  have hlen4 : h.len % 4 = h.len := Nat.mod_eq_of_lt hlen
  have hid : J.opening.hammer.tok.all (fun t => t.2.count == 0) = s.hammer.tok.all (fun t => t.2.count == 0) := by
    rw [hop]; rfl
  have hshow : J.issue = (((J.hammer.cur.effs.foldl
      (State.issueEff J.hammer.pos (J.hammer.cur.len % 4 + 1) J.hammer.cur.stop (J.opening.hammer.tok.all (fun t => t.2.count == 0)))
        J.opening).linked J.hammer.cur.effs J.hammer.pos (J.hammer.cur.len % 4 + 1)).closing J.hammer.pos J.hammer.pc
        (J.hammer.cur.len % 4 + 1) |> fun s => if s.hammer.faults.any (fun f => f.detect ≤ J.hammer.pos) || J.hammer.cur.stop
          then s.stopJob none else match s.hammer.marker with
            | some m => if J.hammer.pos = m.pos + 2 then s.boundary m else s
            | none => s) := by
    have hh : J.heatStarts = J := by
      have : J.hammer.start = none := by rw [hj]; exact hsta
      unfold State.heatStarts; rw [this]
    unfold State.issue
    rw [hh]
    rfl
  rw [hshow, hcl, hcs, hlen4, hp, hpc, hce, hid, hop]
  simp only [Bool.or_false]
  rfl

/-- A bundle of one legal word that only changes registers: its results are under way, those due at the next position are
taken up (R190, R196). -/
theorem slotOp_sole (s : State) (h : Hd) (o : SlotOp) (hs : s.sole h o.slots) (hl : o.legal = true)
    (hd : noDup o.dests = true) (hw : (maskTokens o.wait).all (fun t => (s.tok t).count == 0) = true)
    (hf : s.waitFail o.wait = none) (hr : o.raw.all (fun w => checkBundle w == .ok && w % 2 ^ 32 / 2 ^ 30 == h.len) = true)
    (he : ∀ f ∈ o.eff s, f.reg = true ∨ f.charge = true) :
    s.slotOp h o = .next ((s.issuedWith h (o.eff s)).commitAt (s.hammer.pos + 1)) := by
  rw [slotOp_issue s h o hs hl hd hw hf hr
    (by rw [List.all_eq_true]; intro t _; simp [tokIncr_reg _ _ he]) (admissible_reg _ _ he)]
  obtain ⟨_, _, _, _, _, _, _, hmk, hfl, hfa, hre, _⟩ := hs
  congr 1
  rw [State.foldl_issueEff _ _ _ _ _ _ he]
  unfold State.linked
  rw [foldl_keep (f := fun (s : State) (f : Flight) => _) (l := o.eff s)]
  swap
  · intro f hf b
    rcases he f hf with h | h
    · unfold Flight.reg at h; split at h <;> simp_all
    · unfold Flight.charge at h; split at h <;> simp_all
  have hoh : s.opening.hammer = { s.hammer with cur := Open.none, open_ := false } := rfl
  set Y := s.opening.charged (o.eff s) with hY
  have hYh : Y.hammer = { s.hammer with cur := Open.none, open_ := false } := by rw [hY, State.charged_hammer, hoh]
  have hcl : ((Y.onHammer (fun x =>
      { x with flight := x.flight ++ ((o.eff s).filter Flight.reg).map (fun f => ⟨s.hammer.pos + f.due, f.eff⟩) })).closing
        s.hammer.pos s.hammer.pc (h.len + 1)) = (s.issuedWith h (o.eff s)).commitAt (s.hammer.pos + 1) := by
    unfold State.closing
    dsimp only
    congr 1
    have e : s.issuedWith h (o.eff s) = Y.onHammer (fun x =>
      { x with
        cur := Open.none, open_ := false, pos := s.hammer.pos + 1, pc := s.hammer.pc + (h.len + 1), redirs := []
        recent := x.recent.filter (fun r => s.hammer.pos < r.1 + 8)
        descs := x.descs.filter (fun d => s.hammer.pos ≤ d.pos + 3)
        flight := ((o.eff s).filter Flight.reg).map (fun f => ⟨s.hammer.pos + f.due, f.eff⟩) }) := by
      rw [hY]; unfold State.opening; rw [State.charged_onHammer]; rfl
    rw [e]
    simp only [State.onHammer, hYh, Hammer.redirAt, hmk, hre, hfl, List.nil_append, List.find?_nil, Option.map_none,
      Option.getD_none, List.filter_nil]
  rw [hcl]
  set Z := s.issuedWith h (o.eff s) with hZ
  have hZh : Z.hammer.faults = [] ∧ Z.hammer.marker = none := by
    rw [hZ]; unfold State.issuedWith
    simp only [State.onHammer, State.charged_hammer]
    exact ⟨hfa, hmk⟩
  have hZr : ∀ f ∈ Z.hammer.flight, f.reg = true := by
    intro f hf
    have hf : f ∈ ((o.eff s).filter Flight.reg).map (fun f => (⟨s.hammer.pos + f.due, f.eff⟩ : Flight)) := hf
    obtain ⟨x, hx, rfl⟩ := List.mem_map.mp hf
    exact (List.mem_filter.mp hx).2
  have h6 : (Z.commitAt (s.hammer.pos + 1)).hammer.faults = [] := by rw [State.commitAt_hammer _ _ hZr]; exact hZh.1
  have h7 : (Z.commitAt (s.hammer.pos + 1)).hammer.marker = none := by rw [State.commitAt_hammer _ _ hZr]; exact hZh.2
  unfold State.issueEnd
  rw [h6, h7]
  simp

end Sys2Proof.Machine
end

