-- ==== Sys2Proof/Laws/Anvil.lean ====
section
/-! SUPPORT. What an operation of the Anvil slots does, said once: in a bundle of its own its results are under way in
every executing Anvil. -/

namespace Sys2Proof.Machine

@[simp] theorem Flight.reg_anvil (n g : Nat) (e : AEff) (fl : Flags) : Flight.reg ⟨n, .anvil g e fl⟩ = true := rfl
@[simp] theorem Flight.reg_s (n d : Nat) (x : Word) (sat : Bool) : Flight.reg ⟨n, .s d x sat⟩ = true := rfl
@[simp] theorem Flight.reg_mask (n h f : Nat) : Flight.reg ⟨n, .mask h f⟩ = true := rfl
@[simp] theorem Flight.reg_act (n g c : Nat) : Flight.reg ⟨n, .act g c⟩ = true := rfl
@[simp] theorem Flight.reg_sr (n g : Nat) (st : Word) : Flight.reg ⟨n, .sr g st⟩ = false := rfl

theorem State.each_reg (s : State) (pred lat cls : Nat) (f : Nat → AEff × Flags) :
    ∀ x ∈ s.each pred lat cls f, x.reg = true ∨ x.charge = true := by
  intro x hx
  simp only [State.each, List.mem_flatMap] at hx
  obtain ⟨g, _, hx⟩ := hx
  simp only [List.mem_cons, List.not_mem_nil, or_false] at hx
  rcases hx with rfl | rfl <;> simp [Flight.reg, Flight.charge]

theorem State.eachSr_reg (s : State) (pred lat cls : Nat) (f : Nat → Word → AEff × Flags × Word) :
    ∀ x ∈ s.eachSr pred lat cls f, x.reg = true ∨ x.charge = true := by
  intro x hx
  simp only [State.eachSr, List.mem_flatMap] at hx
  obtain ⟨g, _, hx⟩ := hx
  split at hx
  · simp only [List.append_nil, List.mem_cons, List.not_mem_nil, or_false] at hx
    rcases hx with rfl | rfl <;> simp [Flight.reg, Flight.charge]
  · simp only [List.cons_append, List.nil_append, List.mem_cons, List.not_mem_nil, or_false] at hx
    rcases hx with rfl | rfl | rfl <;> simp [Flight.reg, Flight.charge]

/-- The results of an operation and its activity, in order of the Anvils. -/
theorem flatMap_filter_reg (l : List Nat) (lat cls : Nat) (f : Nat → AEff × Flags) (n : Nat) :
    ((l.flatMap (fun g => [⟨lat, .anvil g (f g).1 (f g).2⟩, ⟨actLag g, .act g cls⟩])).filter Flight.reg).map
      (fun x => (⟨n + x.due, x.eff⟩ : Flight)) =
      l.flatMap (fun g => [⟨n + lat, .anvil g (f g).1 (f g).2⟩, ⟨n + actLag g, .act g cls⟩]) := by
  induction l with
  | nil => rfl
  | cons g r ih => simp [List.flatMap_cons, List.filter_cons, ← ih]

theorem flatMap_filter_reg_sr (l : List Nat) (lat cls : Nat) (st : Nat → Word) (f : Nat → Word → AEff × Flags × Word)
    (n : Nat) :
    ((l.flatMap (fun g => [⟨lat, .anvil g (f g (st g)).1 (f g (st g)).2.1⟩, ⟨actLag g, .act g cls⟩] ++
      (if (f g (st g)).2.2 = st g then [] else [⟨0, .sr g (f g (st g)).2.2⟩]))).filter Flight.reg).map
      (fun x => (⟨n + x.due, x.eff⟩ : Flight)) =
      l.flatMap (fun g => [⟨n + lat, .anvil g (f g (st g)).1 (f g (st g)).2.1⟩, ⟨n + actLag g, .act g cls⟩]) := by
  induction l with
  | nil => rfl
  | cons g r ih =>
    rw [List.flatMap_cons, List.filter_append, List.map_append, ih]
    split <;> simp [List.filter_cons]

theorem SRGEN_inj {g g' : Nat} (h : ANVIL_SRGEN g = ANVIL_SRGEN g') : g = g' := by
  simp only [ANVIL_SRGEN] at h; omega

theorem State.executing_lt (s : State) (pred g : Nat) (h : g ∈ s.executing pred) : g < 160 := by
  simp [State.executing] at h; exact h.1

theorem State.executing_nodup (s : State) (pred : Nat) : (s.executing pred).Nodup :=
  List.nodup_range.filter _

/-- Another register after an effect that only charges. -/
theorem State.charged_rd_ne (s : State) (l : List Flight) (a : Nat)
    (h1 : ∀ f ∈ l, ∀ g st, f.eff = .sr g st → a ≠ ANVIL_SRGEN g) :
    (s.charged l).rd a = s.rd a := by
  induction l generalizing s with
  | nil => rfl
  | cons f r ih =>
    simp only [State.charged, List.foldl_cons] at ih ⊢
    rw [ih _ (fun x hx => h1 x (by simp [hx]))]
    split
    · next g st e => exact State.rd_wr_ne _ _ (h1 f (by simp) g st e)
    · rfl

/-- Nothing due at a position: no result takes effect. -/
theorem State.commitAt_none (s : State) (p : Nat) (h : ∀ f ∈ s.hammer.flight, f.due ≠ p) : s.commitAt p = s := by
  have h1 : s.hammer.flight.filter (fun f => f.due == p) = [] := by
    rw [List.filter_eq_nil_iff]; intro f hf; simpa using h f hf
  have h2 : s.hammer.flight.filter (fun f => f.due != p) = s.hammer.flight := by
    rw [List.filter_eq_self]; intro f hf; simpa using h f hf
  unfold State.commitAt
  simp only [h1, h2, List.foldl_nil]
  rfl

@[simp] theorem maskTokens_zero : maskTokens 0 = [] := by decide

theorem waitFail_zero (s : State) : s.waitFail 0 = none := by simp [State.waitFail]

theorem State.srOf_sole (s : State) (g : Nat) (h : s.hammer.cur = Open.none) (hs : s.hammer.start = none) :
    s.srOf g = s.rd (ANVIL_SRGEN g) := by
  unfold State.srOf; rw [h, hs]; rfl

/-- The frame of a bundle of one word whose effects only change registers later than the next position. -/
theorem issuedWith_movedOn (s : State) (h : Hd) (l : List Flight)
    (hr : ∀ f ∈ l, ∀ g st, f.eff = .sr g st → g < 160) : s.movedOn (s.issuedWith h l) h := by
  have e : s.issuedWith h l = { s with csr := (s.issuedWith h l).csr, hammer := (s.issuedWith h l).hammer } := by
    unfold State.issuedWith
    rw [State.charged_rest]
    rfl
  refine ⟨rfl, ?_, fun a => ?_, ?_, ?_⟩
  · have : (s.issuedWith h l).get HAMMER_ISSUECNT_COUNT =
        (((s.inc HAMMER_ISSUECNT_COUNT).put HAMMER_PCSTAT_PC s.hammer.pc).charged l).get HAMMER_ISSUECNT_COUNT := rfl
    rw [this]
    have h2 : (((s.inc HAMMER_ISSUECNT_COUNT).put HAMMER_PCSTAT_PC s.hammer.pc).charged l).get HAMMER_ISSUECNT_COUNT =
        ((s.inc HAMMER_ISSUECNT_COUNT).put HAMMER_PCSTAT_PC s.hammer.pc).get HAMMER_ISSUECNT_COUNT := by
      unfold State.get
      rw [State.charged_rd_ne]
      intro f hf g st heq
      have := hr f hf g st heq
      simp only [ANVIL_SRGEN, HAMMER_ISSUECNT]; omega
    rw [h2, State.get_put_ne _ _ _ _ (by decide)]
    exact State.get_inc_self _ _ (by decide) (by decide)
  · rw [e]; rfl
  · rw [e]
  · unfold State.issuedWith
    simp only [State.onHammer, State.charged_hammer]
    rfl

theorem actLag_lt (g : Nat) : 2 ≤ actLag g := by unfold actLag; split <;> omega

/-- An operation in every executing Anvil, in a bundle of its own (R104, R106, R196, R198). -/
theorem slotOp_underWay (s : State) (h : Hd) (slots : List Nat) (legal : Bool) (dests : List Dest) (pred lat cls : Nat)
    (r : State → Nat → AEff × Flags) (hs : s.sole h slots) (hl : legal = true) (hd : noDup dests = true) (hlat : 2 ≤ lat) :
    ∃ t, s.slotOp h (.plain slots legal dests (fun s => s.each pred lat cls (r s))) = .next t ∧
      s.underWay t h pred lat cls (r s) := by
  have hso := slotOp_sole s h (.plain slots legal dests (fun s => s.each pred lat cls (r s))) hs hl hd (by simp [SlotOp.plain])
    (waitFail_zero s) rfl (State.each_reg s pred lat cls (r s))
  obtain ⟨_, _, _, _, _, _, _, _, _, hfa, _⟩ := id hs
  have hend : s.hammer.ending = none := by
    have := hs.1; simp [State.taking] at this; exact this.2
  have hfli : (s.issuedWith h (s.each pred lat cls (r s))).hammer.flight = (s.executing pred).flatMap (fun g =>
      [⟨s.hammer.pos + lat, .anvil g (r s g).1 (r s g).2⟩, ⟨s.hammer.pos + actLag g, .act g cls⟩]) :=
    flatMap_filter_reg _ _ _ _ _
  have hnsr : ∀ f ∈ s.each pred lat cls (r s), ∀ g st, f.eff ≠ .sr g st := by
    intro f hf g st heq
    simp only [State.each, List.mem_flatMap] at hf
    obtain ⟨k, _, hf⟩ := hf
    simp only [List.mem_cons, List.not_mem_nil, or_false] at hf
    rcases hf with rfl | rfl <;> simp at heq
  rw [State.commitAt_none] at hso
  swap
  · intro f hf
    have hf : f ∈ (s.issuedWith h (s.each pred lat cls (r s))).hammer.flight := hf
    rw [hfli, List.mem_flatMap] at hf
    obtain ⟨g, _, hf⟩ := hf
    have := actLag_lt g
    simp only [List.mem_cons, List.not_mem_nil, or_false] at hf
    rcases hf with rfl | rfl
    · show s.hammer.pos + lat ≠ s.hammer.pos + 1
      omega
    · show s.hammer.pos + actLag g ≠ s.hammer.pos + 1
      omega
  refine ⟨_, hso, issuedWith_movedOn s h _ (fun f hf g st e => absurd e (hnsr f hf g st)), ?_, ?_, rfl, ?_, ?_, hfli, ?_⟩
  · unfold State.issuedWith; simp only [State.onHammer, State.charged_hammer]; rfl
  · unfold State.issuedWith; simp only [State.onHammer, State.charged_hammer]; rfl
  · unfold State.issuedWith; simp only [State.onHammer, State.charged_hammer]; exact hfa
  · unfold State.issuedWith; simp only [State.onHammer, State.charged_hammer]; exact hend
  · intro a ha1 ha2
    show (((s.inc HAMMER_ISSUECNT_COUNT).put HAMMER_PCSTAT_PC s.hammer.pc).charged (s.each pred lat cls (r s))).rd a = _
    rw [State.charged_rd_ne, State.rd_put_ne _ _ _ ha2, State.inc, State.add, State.rd_put_ne _ _ _ ha1]
    exact fun f hf g st e => absurd e (hnsr f hf g st)

/-- The generators after an operation that may draw, in each Anvil of a list (R82). -/
theorem State.charged_sr (s : State) (l : List Nat) (hl : l.Nodup) (lat cls : Nat) (st : Nat → Word)
    (hst : ∀ g ∈ l, st g = s.rd (ANVIL_SRGEN g)) (f : Nat → Word → AEff × Flags × Word) (g : Nat) :
    (s.charged (l.flatMap (fun g => [⟨lat, .anvil g (f g (st g)).1 (f g (st g)).2.1⟩, ⟨actLag g, .act g cls⟩] ++
      (if (f g (st g)).2.2 = st g then [] else [⟨0, .sr g (f g (st g)).2.2⟩])))).rd (ANVIL_SRGEN g) =
      if g ∈ l then (f g (s.rd (ANVIL_SRGEN g))).2.2 else s.rd (ANVIL_SRGEN g) := by
  induction l generalizing s with
  | nil => rfl
  | cons k r ih =>
    rw [List.flatMap_cons]
    have hsplit : ∀ (a b : List Flight), s.charged (a ++ b) = (s.charged a).charged b := by
      intro a b; simp [State.charged, List.foldl_append]
    rw [hsplit]
    set S := s.charged ([⟨lat, .anvil k (f k (st k)).1 (f k (st k)).2.1⟩, ⟨actLag k, .act k cls⟩] ++
      (if (f k (st k)).2.2 = st k then [] else [⟨0, .sr k (f k (st k)).2.2⟩])) with hS
    have hSr : ∀ x, S.rd (ANVIL_SRGEN x) = if x = k then (f k (st k)).2.2 else s.rd (ANVIL_SRGEN x) := by
      intro x
      rw [hS]
      split
      · next h =>
        show s.rd (ANVIL_SRGEN x) = _
        split
        · next hx => subst hx; rw [h, hst x (by simp)]
        · rfl
      · next h =>
        show (s.wr (ANVIL_SRGEN k) (f k (st k)).2.2).rd (ANVIL_SRGEN x) = _
        split
        · next hx => subst hx; simp
        · next hx => rw [State.rd_wr_ne _ _ (fun hq => hx (SRGEN_inj hq))]
    rw [ih S (List.nodup_cons.mp hl).2]
    · by_cases h1 : g = k
      · subst h1
        simp only [(List.nodup_cons.mp hl).1, if_false, List.mem_cons, true_or, if_true]
        rw [hSr, if_pos rfl, hst g (by simp)]
      · simp only [List.mem_cons, h1, false_or]
        rw [hSr, if_neg h1]
    · intro x hx
      have hne : x ≠ k := fun h => (List.nodup_cons.mp hl).1 (h ▸ hx)
      rw [hSr, if_neg hne, hst x (by simp [hx])]

/-- An operation that may draw, in every executing Anvil, in a bundle of its own (R82, R104, R106, R196, R198). -/
theorem slotOp_underWayDraw (s : State) (h : Hd) (slots : List Nat) (legal : Bool) (dests : List Dest) (pred lat cls : Nat)
    (r : State → Nat → Word → AEff × Flags × Word) (hs : s.sole h slots) (hl : legal = true) (hd : noDup dests = true)
    (hlat : 2 ≤ lat) :
    ∃ t, s.slotOp h (.plain slots legal dests (fun s => s.eachSr pred lat cls (r s))) = .next t ∧
      s.underWayDraw t h pred lat cls (r s) := by
  have hso := slotOp_sole s h (.plain slots legal dests (fun s => s.eachSr pred lat cls (r s))) hs hl hd
    (by simp [SlotOp.plain]) (waitFail_zero s) rfl (State.eachSr_reg s pred lat cls (r s))
  obtain ⟨_, _, hcur, _, _, _, _, _, _, hfa, _, hsta⟩ := id hs
  have hend : s.hammer.ending = none := by
    have := hs.1; simp [State.taking] at this; exact this.2
  have hsr : ∀ g, s.srOf g = s.rd (ANVIL_SRGEN g) := fun g => State.srOf_sole s g hcur hsta
  set L := s.eachSr pred lat cls (r s) with hL
  have hL' : L = (s.executing pred).flatMap (fun g =>
      [⟨lat, .anvil g (r s g (s.rd (ANVIL_SRGEN g))).1 (r s g (s.rd (ANVIL_SRGEN g))).2.1⟩, ⟨actLag g, .act g cls⟩] ++
      (if (r s g (s.rd (ANVIL_SRGEN g))).2.2 = s.rd (ANVIL_SRGEN g) then []
        else [⟨0, .sr g (r s g (s.rd (ANVIL_SRGEN g))).2.2⟩])) := by
    rw [hL]; unfold State.eachSr; simp only [hsr]
  have hfli : (s.issuedWith h L).hammer.flight = (s.executing pred).flatMap (fun g =>
      [⟨s.hammer.pos + lat, .anvil g (r s g (s.rd (ANVIL_SRGEN g))).1 (r s g (s.rd (ANVIL_SRGEN g))).2.1⟩,
        ⟨s.hammer.pos + actLag g, .act g cls⟩]) := by
    rw [hL']; exact flatMap_filter_reg_sr _ _ _ _ _ _
  have hmem : ∀ x ∈ L, (∃ g ∈ s.executing pred, ∃ e fl, x = ⟨lat, .anvil g e fl⟩) ∨ (∃ g ∈ s.executing pred, x = ⟨actLag g, .act g cls⟩) ∨
      ∃ g ∈ s.executing pred, ∃ st, x = ⟨0, .sr g st⟩ := by
    intro x hx
    rw [hL', List.mem_flatMap] at hx
    obtain ⟨g, hg, hx⟩ := hx
    split at hx
    · simp only [List.append_nil, List.mem_cons, List.not_mem_nil, or_false] at hx
      rcases hx with rfl | rfl
      · exact .inl ⟨g, hg, _, _, rfl⟩
      · exact .inr (.inl ⟨g, hg, rfl⟩)
    · simp only [List.cons_append, List.nil_append, List.mem_cons, List.not_mem_nil, or_false] at hx
      rcases hx with rfl | rfl | rfl
      · exact .inl ⟨g, hg, _, _, rfl⟩
      · exact .inr (.inl ⟨g, hg, rfl⟩)
      · exact .inr (.inr ⟨g, hg, _, rfl⟩)
  have heff : (SlotOp.plain slots legal dests (fun s => s.eachSr pred lat cls (r s))).eff s = L := rfl
  rw [heff, State.commitAt_none] at hso
  swap
  · intro f hf
    rw [hfli, List.mem_flatMap] at hf
    obtain ⟨g, _, hf⟩ := hf
    have := actLag_lt g
    simp only [List.mem_cons, List.not_mem_nil, or_false] at hf
    rcases hf with rfl | rfl
    · show s.hammer.pos + lat ≠ s.hammer.pos + 1
      omega
    · show s.hammer.pos + actLag g ≠ s.hammer.pos + 1
      omega
  have hpre : ∀ a, a ≠ HAMMER_ISSUECNT → a ≠ HAMMER_PCSTAT →
      ((s.inc HAMMER_ISSUECNT_COUNT).put HAMMER_PCSTAT_PC s.hammer.pc).rd a = s.rd a := by
    intro a h1 h2
    rw [State.rd_put_ne _ _ _ h2, State.inc, State.add, State.rd_put_ne _ _ _ h1]
  refine ⟨_, hso, issuedWith_movedOn s h _ ?_, ?_, ?_, rfl, ?_, ?_, hfli, ?_, ?_⟩
  · intro f hf g st heq
    rcases hmem f hf with ⟨k, hk, e, fl, rfl⟩ | ⟨k, hk, rfl⟩ | ⟨k, hk, st', rfl⟩ <;> simp at heq
    obtain ⟨rfl, _⟩ := heq; exact State.executing_lt _ _ _ hk
  · unfold State.issuedWith; simp only [State.onHammer, State.charged_hammer]; rfl
  · unfold State.issuedWith; simp only [State.onHammer, State.charged_hammer]; rfl
  · unfold State.issuedWith; simp only [State.onHammer, State.charged_hammer]; exact hfa
  · unfold State.issuedWith; simp only [State.onHammer, State.charged_hammer]; exact hend
  · intro g hg
    show (((s.inc HAMMER_ISSUECNT_COUNT).put HAMMER_PCSTAT_PC s.hammer.pc).charged L).rd (ANVIL_SRGEN g) = _
    have hp : ∀ x, ((s.inc HAMMER_ISSUECNT_COUNT).put HAMMER_PCSTAT_PC s.hammer.pc).rd (ANVIL_SRGEN x) = s.rd (ANVIL_SRGEN x) := by
      intro x
      apply hpre
      · simp only [ANVIL_SRGEN, HAMMER_ISSUECNT]; omega
      · simp only [ANVIL_SRGEN, HAMMER_PCSTAT]; omega
    rw [hL', State.charged_sr _ _ (State.executing_nodup _ _) _ _ (fun g => s.rd (ANVIL_SRGEN g)) (fun g _ => (hp g).symm), hp]
  · intro a ha1 ha2 ha4
    show (((s.inc HAMMER_ISSUECNT_COUNT).put HAMMER_PCSTAT_PC s.hammer.pc).charged L).rd a = _
    rw [State.charged_rd_ne, hpre a ha1 ha2]
    intro f hf g st heq
    rcases hmem f hf with ⟨k, hk, e, fl, rfl⟩ | ⟨k, hk, rfl⟩ | ⟨k, hk, st', rfl⟩ <;> simp at heq
    obtain ⟨rfl, _⟩ := heq; exact ha4 _ (State.executing_lt _ _ _ hk)

end Sys2Proof.Machine
end

