-- ==== Sys2Proof/Laws/Log.lean ====
section
/-! SUPPORT. What event records and interrupts touch: nothing outside the log. One lemma for each operation of the
recorder and of the interrupt controller, to be cited in place of unfolding it. -/

namespace Sys2Proof.Machine

theorem State.only_refl (u : State) (l : List Nat) : u.only u l :=
  ⟨fun _ _ _ => rfl, fun _ => ⟨_, _, _, rfl⟩, rfl⟩

theorem State.only_trans {u v w : State} {l : List Nat} (h : u.only v l) (k : v.only w l) : u.only w l := by
  obtain ⟨h1, h2, h3⟩ := h
  obtain ⟨k1, k2, k3⟩ := k
  refine ⟨fun a ha hb => (k1 a ha hb).trans (h1 a ha hb), fun n => ?_, ?_⟩
  · obtain ⟨q, r, b, hq⟩ := h2 n
    obtain ⟨q', r', b', hq'⟩ := k2 n
    exact ⟨q', r', b', by rw [hq', hq]⟩
  · clear h1 h2 k1 k2
    obtain ⟨c, e, s, g, i, f, x, a, b, d, m, hv⟩ : ∃ c e s g i f x a b d m, v = { u with
        csr := c, evrec := e, srcs := s, grps := g, cores := i, free := f, tongs := { u.tongs with ctx := x }
        mgmt := { u.mgmt with wire := a, ntf := b, ntfSeq := d, merge := m } } := ⟨_, _, _, _, _, _, _, _, _, _, _, h3⟩
    subst hv
    exact k3

theorem State.only_mono {u v : State} {l m : List Nat} (h : u.only v l) (hs : ∀ a ∈ l, a ∈ m) : u.only v m :=
  ⟨fun a ha hb => h.1 a (fun hc => ha (hs a hc)) hb, h.2⟩

/-- A register of the list, or of the log, written. -/
theorem State.only_wr (u : State) (a : Nat) (w : Word) (l : List Nat) (h : a ∈ l ∨ logAddr a = true) : u.only (u.wr a w) l := by
  refine ⟨fun b hb hl => State.rd_wr_ne _ _ ?_, fun _ => ⟨_, _, _, rfl⟩, rfl⟩
  rintro rfl
  rcases h with h | h
  · exact hb h
  · rw [hl] at h; cases h

theorem State.only_put (u : State) (f : Fd) (v : Nat) (l : List Nat) (h : f.addr ∈ l ∨ logAddr f.addr = true) :
    u.only (u.put f v) l := State.only_wr _ _ _ _ h

theorem State.only_putB (u : State) (f : Fd) (v : Bool) (l : List Nat) (h : f.addr ∈ l ∨ logAddr f.addr = true) :
    u.only (u.putB f v) l := State.only_wr _ _ _ _ h

theorem State.only_add (u : State) (f : Fd) (n : Nat) (l : List Nat) (h : f.addr ∈ l ∨ logAddr f.addr = true) :
    u.only (u.add f n) l := State.only_wr _ _ _ _ h

theorem State.only_inc (u : State) (f : Fd) (l : List Nat) (h : f.addr ∈ l ∨ logAddr f.addr = true) :
    u.only (u.inc f) l := State.only_wr _ _ _ _ h

/-- A chain of changes, each within the list and the log. -/
theorem State.only_foldl {α : Type} (f : State → α → State) (l : List Nat) (xs : List α)
    (h : ∀ s : State, ∀ x ∈ xs, s.only (f s x) l) (s : State) : s.only (xs.foldl f s) l := by
  induction xs generalizing s with
  | nil => exact State.only_refl _ _
  | cons x r ih =>
    exact State.only_trans (h s x (by simp)) (ih (fun s y hy => h s y (by simp [hy])) _)

/-! ### Primitives -/

theorem State.only_setSrc (u : State) (n : Nat) (x : Src) (l : List Nat) : u.only (u.setSrc n x) l :=
  ⟨fun _ _ _ => rfl, fun _ => ⟨_, _, _, rfl⟩, rfl⟩

theorem State.only_setCore (u : State) (n : Nat) (x : CoreIrq) (l : List Nat) : u.only (u.setCore n x) l :=
  ⟨fun _ _ _ => rfl, fun _ => ⟨_, _, _, rfl⟩, rfl⟩

theorem State.only_evrec (u : State) (e : Evrec) (l : List Nat) : u.only { u with evrec := e } l :=
  ⟨fun _ _ _ => rfl, fun _ => ⟨_, _, _, rfl⟩, rfl⟩

theorem State.only_grps (u : State) (e : Tab Grp) (l : List Nat) : u.only { u with grps := e } l :=
  ⟨fun _ _ _ => rfl, fun _ => ⟨_, _, _, rfl⟩, rfl⟩

theorem State.only_fresh (u : State) (n : Nat) (l : List Nat) : u.only (u.fresh n).2 l :=
  ⟨fun _ _ _ => rfl, fun _ => ⟨_, _, _, rfl⟩, rfl⟩

theorem State.only_mgmt (u : State) (w : List Reply) (n : List Ntf) (q : Nat) (m : Bool) (l : List Nat) :
    u.only { u with mgmt := { u.mgmt with wire := w, ntf := n, ntfSeq := q, merge := m } } l :=
  ⟨fun _ _ _ => rfl, fun _ => ⟨_, _, _, rfl⟩, rfl⟩

theorem State.ctx_setCtx (u : State) (n m : Nat) (c : Ctx) : (u.setCtx n c).ctx m = if m = n then c else u.ctx m := by
  unfold State.ctx State.setCtx
  rw [Tab.get_set]

theorem Ctx.credit_eq (c : Ctx) (now : Nat) : ∃ r b, c.credit now = { c with crstate := r, blockedAt := b } := by
  unfold Ctx.credit
  split
  · exact ⟨0, c.blockedAt, rfl⟩
  · split
    · exact ⟨1, now, rfl⟩
    · exact ⟨c.crstate, c.blockedAt, rfl⟩

/-- A stream's queue and credit state replaced. -/
theorem State.only_setCtx (u : State) (n : Nat) (q : List OutMsg) (r b : Nat) (l : List Nat) :
    u.only (u.setCtx n { u.ctx n with txq := q, crstate := r, blockedAt := b }) l := by
  refine ⟨fun _ _ _ => rfl, fun m => ?_, rfl⟩
  rw [State.ctx_setCtx]
  split
  · rename_i h; subst h; exact ⟨q, r, b, rfl⟩
  · exact ⟨_, _, _, rfl⟩

theorem State.only_queueMsg (u : State) (n opc : Nat) (resp : Bool) (data : List Byte) (nop : Option Nat) (l : List Nat) :
    u.only (u.queueMsg n opc resp data nop) l := by
  unfold State.queueMsg
  generalize hq : (u.ctx n).txq ++ [(⟨opc, resp, data, none, 0, u.now, nop, none⟩ : OutMsg)] = q
  obtain ⟨r, b, h⟩ := Ctx.credit_eq { u.ctx n with txq := q } u.now
  simp only [hq, h]
  split
  · exact State.only_setCtx u n q r b l
  · exact State.only_refl _ _

/-! ### Interrupts -/

theorem State.only_setNotice (u : State) (t : Nat) (l : List Nat) : u.only (u.setNotice t) l := by
  unfold State.setNotice; exact State.only_setCore _ _ _ _

theorem logAddr_src (n : Nat) (h : n < 256) : logAddr (BIC_SRCSTAT n) = true := by
  have : BIC_SRCSTAT n / 65536 = 0x38000003 := by unfold BIC_SRCSTAT; omega
  simp [logAddr, this]

theorem State.only_ntfSync (u : State) (l : List Nat) : u.only u.ntfSync l := State.only_put _ _ _ _ (.inr (by decide))

theorem State.only_notifyFrame (u : State) (d : BitVec 128) (x : Ntf) (l : List Nat) : u.only (u.notifyFrame d x) l :=
  ⟨fun _ _ _ => rfl, fun _ => ⟨_, _, _, rfl⟩, rfl⟩

theorem State.only_notify (u : State) (n prio evt : Nat) (l : List Nat) : u.only (u.notify n prio evt).2 l := by
  unfold State.notify
  split
  · exact State.only_mgmt _ _ _ _ _ _
  · have h1 := State.only_mgmt u u.mgmt.wire (u.mgmt.ntf ++ [⟨u.mgmt.ntfSeq, n, prio, u.mgmt.merge, evt, u.now,
      u.notifyDst.map (fun _ => u.now)⟩]) (seqAdd u.mgmt.ntfSeq 1) false l
    have h2 := State.only_trans h1 (State.only_ntfSync _ l)
    simp only
    cases hd : u.notifyDst with
    | none => rw [hd] at h2; exact h2
    | some a => rw [hd] at h2; exact State.only_trans h2 (State.only_notifyFrame _ _ _ _)

theorem State.only_deliver (u : State) (n t : Nat) (h : n < 256) (l : List Nat) : u.only (u.deliver n t) l := by
  have ha : ∀ f : Fd, f.addr = BIC_SRCSTAT n → f.addr ∈ l ∨ logAddr f.addr = true := fun f hf => .inr (hf ▸ logAddr_src n h)
  unfold State.deliver
  extract_lets x cnt prio seq
  split
  rename_i sent s1 heq
  have hp : u.only s1 l := by
    by_cases ht : t = 2
    · rw [if_pos ht] at heq
      have : s1 = _ := (congrArg Prod.snd heq).symm
      rw [this]; exact State.only_queueMsg _ _ _ _ _ _ _
    · rw [if_neg ht] at heq
      have : s1 = _ := (congrArg Prod.snd heq).symm
      rw [this]; exact State.only_notify _ _ _ _ _
  have h1 : ∀ (y : Src) (a b : Nat), u.only (((s1.setSrc n y).put (BIC_SRCSTAT_PENDT n) a).put (BIC_SRCSTAT_ACTIVE n) b) l :=
    fun y a b => State.only_trans hp (State.only_trans (State.only_setSrc _ _ _ _) (State.only_trans
      (State.only_put _ _ _ _ (ha _ rfl)) (State.only_put _ _ _ _ (ha _ rfl))))
  extract_lets x' s2 s3
  split
  · exact State.only_trans (h1 _ _ _) (State.only_put _ _ _ _ (ha _ rfl))
  · exact h1 _ _ _

theorem State.only_assign (u : State) (n t : Nat) (h : n < 256) (l : List Nat) : u.only (u.assign n t) l := by
  have ha : ∀ f : Fd, f.addr = BIC_SRCSTAT n → f.addr ∈ l ∨ logAddr f.addr = true := fun f hf => .inr (hf ▸ logAddr_src n h)
  unfold State.assign
  split
  · exact State.only_trans (State.only_put _ _ _ _ (ha _ rfl)) (State.only_setNotice _ _ _)
  · extract_lets x out s1
    have hp : u.only s1 l := State.only_put _ _ _ _ (ha _ rfl)
    split
    · rename_i _ held _
      clear_value held
      cases held with
      | none => exact State.only_trans hp (State.only_setSrc _ _ _ _)
      | some c =>
        refine State.only_trans hp (State.only_trans ?_ (State.only_setSrc _ _ _ _))
        split
        · exact State.only_inc _ _ _ (.inr (by decide))
        · exact State.only_refl _ _
    · exact State.only_trans hp (State.only_deliver _ _ _ h _)

theorem State.only_setDom_cores (u : State) (b : Bool) (l : List Nat) : u.only (u.setDom 196 b) l := by
  unfold State.setDom
  exact State.only_putB _ _ _ _ (.inr (by decide))

theorem State.only_route (u : State) (n : Nat) (h : n < 256) (l : List Nat) : u.only (u.route n) l := by
  unfold State.route
  simp only
  have hw : u.only (u.watch n) l := by
    unfold State.watch
    split
    · exact State.only_trans (State.only_setDom_cores _ _ _) (State.only_inc _ _ _ (.inr (by decide)))
    · exact State.only_refl _ _
  refine State.only_trans hw ?_
  split
  · refine State.only_foldl _ _ _ (fun s x _ => ?_) _
    split
    · exact State.only_assign _ _ _ h _
    · exact State.only_refl _ _
  · split
    · exact State.only_refl _ _
    · exact State.only_trans (State.only_setSrc _ _ _ _) (State.only_assign _ _ _ h _)

/-- By descending priority, no source is added. -/
theorem State.mem_byPrio (u : State) (l : List Nat) (n : Nat) (h : n ∈ u.byPrio l) : n ∈ l := by
  unfold State.byPrio at h
  obtain ⟨p, _, hp⟩ := List.mem_flatMap.mp h
  exact (List.mem_filter.mp hp).1

theorem State.only_releaseGroup (u : State) (g : Nat) (l : List Nat) : u.only (u.releaseGroup g) l := by
  unfold State.releaseGroup
  refine State.only_trans (State.only_grps u _ _) (State.only_foldl _ _ _ (fun s n hn => ?_) _)
  simp only
  split
  · exact State.only_trans (State.only_setSrc _ _ _ _) (State.only_route _ _ (by simpa using State.mem_byPrio _ _ _ hn) _)
  · exact State.only_refl _ _

/-- What raising an interrupt source may touch. -/
theorem State.only_raise (u : State) (n : Nat) (h : n < 256) (l : List Nat) : u.only (u.raise n) l := by
  have ha : ∀ f : Fd, f.addr = BIC_SRCSTAT n → f.addr ∈ l ∨ logAddr f.addr = true := fun f hf => .inr (hf ▸ logAddr_src n h)
  unfold State.raise
  extract_lets level s1 g
  have h1 : u.only s1 l := by
    unfold s1; split
    · exact State.only_put _ _ _ _ (ha _ rfl)
    · exact State.only_inc _ _ _ (ha _ rfl)
  split
  · exact State.only_trans h1 (State.only_route _ _ h _)
  · split
    · exact State.only_trans (State.only_trans h1 (State.only_trans (State.only_grps _ _ _) (State.only_setSrc _ _ _ _)))
        (State.only_releaseGroup _ _ _)
    · exact State.only_trans h1 (State.only_trans (State.only_grps _ _ _) (State.only_setSrc _ _ _ _))

theorem State.only_lower (u : State) (n : Nat) (h : n < 256) (l : List Nat) : u.only (u.lower n) l := by
  have ha : ∀ f : Fd, f.addr = BIC_SRCSTAT n → f.addr ∈ l ∨ logAddr f.addr = true := fun f hf => .inr (hf ▸ logAddr_src n h)
  unfold State.lower
  exact State.only_trans (State.only_put _ _ _ _ (ha _ rfl)) (State.only_trans (State.only_put _ _ _ _ (ha _ rfl))
    (State.only_trans (State.only_setSrc _ _ _ _) (State.only_trans (State.only_setNotice _ _ _) (State.only_setNotice _ _ _))))

theorem State.only_setLevel (u : State) (n : Nat) (b : Bool) (h : n < 256) (l : List Nat) : u.only (u.setLevel n b) l := by
  unfold State.setLevel
  split
  · split
    · exact State.only_refl _ _
    · exact State.only_raise _ _ h _
  · split
    · exact State.only_lower _ _ h _
    · exact State.only_refl _ _

/-! ### Event records -/

theorem State.only_appendEvt (u : State) (e : Evt) (l : List Nat) : u.only (u.appendEvt e) l := by
  unfold State.appendEvt
  exact State.only_trans (State.only_put u _ _ _ (.inr (by decide))) (State.only_evrec _ _ _)

theorem State.only_evrecSync (u : State) (l : List Nat) : u.only u.evrecSync l := by
  unfold State.evrecSync State.evrecLevel
  exact State.only_trans (State.only_put _ _ _ _ (.inr (by decide))) (State.only_trans
    (State.only_put _ _ _ _ (.inr (by decide))) (State.only_setLevel _ _ _ (by decide) _))

theorem State.only_dropGroup (u : State) (g : List Evt) (l : List Nat) : u.only (u.dropGroup g) l := by
  unfold State.dropGroup
  split
  · exact State.only_refl _ _
  · exact State.only_trans (State.only_add u _ _ _ (.inr (by decide))) (State.only_trans
      (State.only_put _ _ _ _ (.inr (by decide))) (State.only_evrec _ _ _))

theorem State.only_eventGroup (u : State) (g : List Evt) (l : List Nat) : u.only (u.eventGroup g).2 l := by
  unfold State.eventGroup
  split
  · exact State.only_refl _ _
  · rename_i e tail
    extract_lets n low lost
    clear_value lost
    split
    · exact State.only_dropGroup _ _ _
    · exact State.only_trans (State.only_foldl State.appendEvt _ lost (fun s e _ => State.only_appendEvt s e l) u)
        (State.only_trans (State.only_foldl State.appendEvt _ (e :: tail) (fun s e _ => State.only_appendEvt s e l) _)
          (State.only_trans (State.only_evrec _ _ _) (State.only_evrecSync _ _)))

theorem State.only_eventSeq (u : State) (code sev src p0 p1 p2 : Nat) (l : List Nat) :
    u.only (u.eventSeq code sev src p0 p1 p2).2 l := by
  unfold State.eventSeq
  simp only
  split
  · split
    · exact State.only_trans (State.only_evrec _ _ _) (State.only_evrecSync _ _)
    · exact State.only_eventGroup _ _ _
  · exact State.only_eventGroup _ _ _

/-- What an event record may touch. -/
theorem State.only_event (u : State) (code sev src p0 p1 p2 : Nat) (l : List Nat) :
    u.only (u.event code sev src p0 p1 p2) l := State.only_eventSeq _ _ _ _ _ _ _ _

/-- What an event record and its interrupt may touch. -/
theorem State.only_eventIrq (u : State) (irq code sev src p0 p1 p2 : Nat) (h : irq < 256) (l : List Nat) :
    u.only (u.eventIrq irq code sev src p0 p1 p2) l := by
  unfold State.eventIrq
  exact State.only_trans (State.only_eventSeq _ _ _ _ _ _ _ _) (State.only_trans
    (State.only_put _ _ _ _ (.inr (logAddr_src irq h))) (State.only_raise _ _ h _))

end Sys2Proof.Machine
end

