-- ==== Sys2Proof/Laws/State.lean ====
section
/-! SUPPORT. What each update of the state leaves in each of its fields. -/

namespace Sys2Proof.Machine

variable (s : State)

/-! ### `State.wr` -/

theorem State.wr_csr (a : Nat) (w : Word) : (s.wr a w).csr = Tab.set regReset s.csr a w := rfl
@[simp] theorem State.wr_mem (a : Nat) (w : Word) : (s.wr a w).mem = s.mem := rfl
@[simp] theorem State.wr_errs (a : Nat) (w : Word) : (s.wr a w).errs = s.errs := rfl
@[simp] theorem State.wr_transit (a : Nat) (w : Word) : (s.wr a w).transit = s.transit := rfl
@[simp] theorem State.wr_wb (a : Nat) (w : Word) : (s.wr a w).wb = s.wb := rfl
@[simp] theorem State.wr_now (a : Nat) (w : Word) : (s.wr a w).now = s.now := rfl
@[simp] theorem State.wr_free (a : Nat) (w : Word) : (s.wr a w).free = s.free := rfl
@[simp] theorem State.wr_hammer (a : Nat) (w : Word) : (s.wr a w).hammer = s.hammer := rfl
@[simp] theorem State.wr_anvils (a : Nat) (w : Word) : (s.wr a w).anvils = s.anvils := rfl
@[simp] theorem State.wr_xq (a : Nat) (w : Word) : (s.wr a w).xq = s.xq := rfl
@[simp] theorem State.wr_crucs (a : Nat) (w : Word) : (s.wr a w).crucs = s.crucs := rfl
@[simp] theorem State.wr_tongs (a : Nat) (w : Word) : (s.wr a w).tongs = s.tongs := rfl
@[simp] theorem State.wr_jobs (a : Nat) (w : Word) : (s.wr a w).jobs = s.jobs := rfl
@[simp] theorem State.wr_ueTimes (a : Nat) (w : Word) : (s.wr a w).ueTimes = s.ueTimes := rfl
@[simp] theorem State.wr_holds (a : Nat) (w : Word) : (s.wr a w).holds = s.holds := rfl
@[simp] theorem State.wr_fenceReq (a : Nat) (w : Word) : (s.wr a w).fenceReq = s.fenceReq := rfl
@[simp] theorem State.wr_evrec (a : Nat) (w : Word) : (s.wr a w).evrec = s.evrec := rfl
@[simp] theorem State.wr_srcs (a : Nat) (w : Word) : (s.wr a w).srcs = s.srcs := rfl
@[simp] theorem State.wr_grps (a : Nat) (w : Word) : (s.wr a w).grps = s.grps := rfl
@[simp] theorem State.wr_cores (a : Nat) (w : Word) : (s.wr a w).cores = s.cores := rfl
@[simp] theorem State.wr_temper (a : Nat) (w : Word) : (s.wr a w).temper = s.temper := rfl
@[simp] theorem State.wr_core (a : Nat) (w : Word) : (s.wr a w).core = s.core := rfl
@[simp] theorem State.wr_mclk (a : Nat) (w : Word) : (s.wr a w).mclk = s.mclk := rfl
@[simp] theorem State.wr_trace (a : Nat) (w : Word) : (s.wr a w).trace = s.trace := rfl
@[simp] theorem State.wr_snapReq (a : Nat) (w : Word) : (s.wr a w).snapReq = s.snapReq := rfl
@[simp] theorem State.wr_shadow (a : Nat) (w : Word) : (s.wr a w).shadow = s.shadow := rfl
@[simp] theorem State.wr_cool (a : Nat) (w : Word) : (s.wr a w).cool = s.cool := rfl
@[simp] theorem State.wr_quench (a : Nat) (w : Word) : (s.wr a w).quench = s.quench := rfl
@[simp] theorem State.wr_tuyere (a : Nat) (w : Word) : (s.wr a w).tuyere = s.tuyere := rfl
@[simp] theorem State.wr_can (a : Nat) (w : Word) : (s.wr a w).can = s.can := rfl
@[simp] theorem State.wr_mgmt (a : Nat) (w : Word) : (s.wr a w).mgmt = s.mgmt := rfl
@[simp] theorem State.wr_pwr (a : Nat) (w : Word) : (s.wr a w).pwr = s.pwr := rfl
@[simp] theorem State.wr_secb (a : Nat) (w : Word) : (s.wr a w).secb = s.secb := rfl
@[simp] theorem State.wr_jtag (a : Nat) (w : Word) : (s.wr a w).jtag = s.jtag := rfl
@[simp] theorem State.wr_pending (a : Nat) (w : Word) : (s.wr a w).pending = s.pending := rfl

/-! ### `State.put` -/

theorem State.put_csr (f : Fd) (v : Nat) : (s.put f v).csr = (s.wr f.addr (setBits (s.rd f.addr) f.hi f.lo v)).csr := rfl
@[simp] theorem State.put_mem (f : Fd) (v : Nat) : (s.put f v).mem = s.mem := rfl
@[simp] theorem State.put_errs (f : Fd) (v : Nat) : (s.put f v).errs = s.errs := rfl
@[simp] theorem State.put_transit (f : Fd) (v : Nat) : (s.put f v).transit = s.transit := rfl
@[simp] theorem State.put_wb (f : Fd) (v : Nat) : (s.put f v).wb = s.wb := rfl
@[simp] theorem State.put_now (f : Fd) (v : Nat) : (s.put f v).now = s.now := rfl
@[simp] theorem State.put_free (f : Fd) (v : Nat) : (s.put f v).free = s.free := rfl
@[simp] theorem State.put_hammer (f : Fd) (v : Nat) : (s.put f v).hammer = s.hammer := rfl
@[simp] theorem State.put_anvils (f : Fd) (v : Nat) : (s.put f v).anvils = s.anvils := rfl
@[simp] theorem State.put_xq (f : Fd) (v : Nat) : (s.put f v).xq = s.xq := rfl
@[simp] theorem State.put_crucs (f : Fd) (v : Nat) : (s.put f v).crucs = s.crucs := rfl
@[simp] theorem State.put_tongs (f : Fd) (v : Nat) : (s.put f v).tongs = s.tongs := rfl
@[simp] theorem State.put_jobs (f : Fd) (v : Nat) : (s.put f v).jobs = s.jobs := rfl
@[simp] theorem State.put_ueTimes (f : Fd) (v : Nat) : (s.put f v).ueTimes = s.ueTimes := rfl
@[simp] theorem State.put_holds (f : Fd) (v : Nat) : (s.put f v).holds = s.holds := rfl
@[simp] theorem State.put_fenceReq (f : Fd) (v : Nat) : (s.put f v).fenceReq = s.fenceReq := rfl
@[simp] theorem State.put_evrec (f : Fd) (v : Nat) : (s.put f v).evrec = s.evrec := rfl
@[simp] theorem State.put_srcs (f : Fd) (v : Nat) : (s.put f v).srcs = s.srcs := rfl
@[simp] theorem State.put_grps (f : Fd) (v : Nat) : (s.put f v).grps = s.grps := rfl
@[simp] theorem State.put_cores (f : Fd) (v : Nat) : (s.put f v).cores = s.cores := rfl
@[simp] theorem State.put_temper (f : Fd) (v : Nat) : (s.put f v).temper = s.temper := rfl
@[simp] theorem State.put_core (f : Fd) (v : Nat) : (s.put f v).core = s.core := rfl
@[simp] theorem State.put_mclk (f : Fd) (v : Nat) : (s.put f v).mclk = s.mclk := rfl
@[simp] theorem State.put_trace (f : Fd) (v : Nat) : (s.put f v).trace = s.trace := rfl
@[simp] theorem State.put_snapReq (f : Fd) (v : Nat) : (s.put f v).snapReq = s.snapReq := rfl
@[simp] theorem State.put_shadow (f : Fd) (v : Nat) : (s.put f v).shadow = s.shadow := rfl
@[simp] theorem State.put_cool (f : Fd) (v : Nat) : (s.put f v).cool = s.cool := rfl
@[simp] theorem State.put_quench (f : Fd) (v : Nat) : (s.put f v).quench = s.quench := rfl
@[simp] theorem State.put_tuyere (f : Fd) (v : Nat) : (s.put f v).tuyere = s.tuyere := rfl
@[simp] theorem State.put_can (f : Fd) (v : Nat) : (s.put f v).can = s.can := rfl
@[simp] theorem State.put_mgmt (f : Fd) (v : Nat) : (s.put f v).mgmt = s.mgmt := rfl
@[simp] theorem State.put_pwr (f : Fd) (v : Nat) : (s.put f v).pwr = s.pwr := rfl
@[simp] theorem State.put_secb (f : Fd) (v : Nat) : (s.put f v).secb = s.secb := rfl
@[simp] theorem State.put_jtag (f : Fd) (v : Nat) : (s.put f v).jtag = s.jtag := rfl
@[simp] theorem State.put_pending (f : Fd) (v : Nat) : (s.put f v).pending = s.pending := rfl

/-! ### `State.putB` -/

theorem State.putB_csr (f : Fd) (b : Bool) : (s.putB f b).csr = (s.put f (if b then 1 else 0)).csr := rfl
@[simp] theorem State.putB_mem (f : Fd) (b : Bool) : (s.putB f b).mem = s.mem := rfl
@[simp] theorem State.putB_errs (f : Fd) (b : Bool) : (s.putB f b).errs = s.errs := rfl
@[simp] theorem State.putB_transit (f : Fd) (b : Bool) : (s.putB f b).transit = s.transit := rfl
@[simp] theorem State.putB_wb (f : Fd) (b : Bool) : (s.putB f b).wb = s.wb := rfl
@[simp] theorem State.putB_now (f : Fd) (b : Bool) : (s.putB f b).now = s.now := rfl
@[simp] theorem State.putB_free (f : Fd) (b : Bool) : (s.putB f b).free = s.free := rfl
@[simp] theorem State.putB_hammer (f : Fd) (b : Bool) : (s.putB f b).hammer = s.hammer := rfl
@[simp] theorem State.putB_anvils (f : Fd) (b : Bool) : (s.putB f b).anvils = s.anvils := rfl
@[simp] theorem State.putB_xq (f : Fd) (b : Bool) : (s.putB f b).xq = s.xq := rfl
@[simp] theorem State.putB_crucs (f : Fd) (b : Bool) : (s.putB f b).crucs = s.crucs := rfl
@[simp] theorem State.putB_tongs (f : Fd) (b : Bool) : (s.putB f b).tongs = s.tongs := rfl
@[simp] theorem State.putB_jobs (f : Fd) (b : Bool) : (s.putB f b).jobs = s.jobs := rfl
@[simp] theorem State.putB_ueTimes (f : Fd) (b : Bool) : (s.putB f b).ueTimes = s.ueTimes := rfl
@[simp] theorem State.putB_holds (f : Fd) (b : Bool) : (s.putB f b).holds = s.holds := rfl
@[simp] theorem State.putB_fenceReq (f : Fd) (b : Bool) : (s.putB f b).fenceReq = s.fenceReq := rfl
@[simp] theorem State.putB_evrec (f : Fd) (b : Bool) : (s.putB f b).evrec = s.evrec := rfl
@[simp] theorem State.putB_srcs (f : Fd) (b : Bool) : (s.putB f b).srcs = s.srcs := rfl
@[simp] theorem State.putB_grps (f : Fd) (b : Bool) : (s.putB f b).grps = s.grps := rfl
@[simp] theorem State.putB_cores (f : Fd) (b : Bool) : (s.putB f b).cores = s.cores := rfl
@[simp] theorem State.putB_temper (f : Fd) (b : Bool) : (s.putB f b).temper = s.temper := rfl
@[simp] theorem State.putB_core (f : Fd) (b : Bool) : (s.putB f b).core = s.core := rfl
@[simp] theorem State.putB_mclk (f : Fd) (b : Bool) : (s.putB f b).mclk = s.mclk := rfl
@[simp] theorem State.putB_trace (f : Fd) (b : Bool) : (s.putB f b).trace = s.trace := rfl
@[simp] theorem State.putB_snapReq (f : Fd) (b : Bool) : (s.putB f b).snapReq = s.snapReq := rfl
@[simp] theorem State.putB_shadow (f : Fd) (b : Bool) : (s.putB f b).shadow = s.shadow := rfl
@[simp] theorem State.putB_cool (f : Fd) (b : Bool) : (s.putB f b).cool = s.cool := rfl
@[simp] theorem State.putB_quench (f : Fd) (b : Bool) : (s.putB f b).quench = s.quench := rfl
@[simp] theorem State.putB_tuyere (f : Fd) (b : Bool) : (s.putB f b).tuyere = s.tuyere := rfl
@[simp] theorem State.putB_can (f : Fd) (b : Bool) : (s.putB f b).can = s.can := rfl
@[simp] theorem State.putB_mgmt (f : Fd) (b : Bool) : (s.putB f b).mgmt = s.mgmt := rfl
@[simp] theorem State.putB_pwr (f : Fd) (b : Bool) : (s.putB f b).pwr = s.pwr := rfl
@[simp] theorem State.putB_secb (f : Fd) (b : Bool) : (s.putB f b).secb = s.secb := rfl
@[simp] theorem State.putB_jtag (f : Fd) (b : Bool) : (s.putB f b).jtag = s.jtag := rfl
@[simp] theorem State.putB_pending (f : Fd) (b : Bool) : (s.putB f b).pending = s.pending := rfl

/-! ### `State.add` -/

theorem State.add_csr (f : Fd) (n : Nat) : (s.add f n).csr = (s.put f (min (s.get f + n) (2 ^ (f.hi + 1 - f.lo) - 1))).csr := rfl
@[simp] theorem State.add_mem (f : Fd) (n : Nat) : (s.add f n).mem = s.mem := rfl
@[simp] theorem State.add_errs (f : Fd) (n : Nat) : (s.add f n).errs = s.errs := rfl
@[simp] theorem State.add_transit (f : Fd) (n : Nat) : (s.add f n).transit = s.transit := rfl
@[simp] theorem State.add_wb (f : Fd) (n : Nat) : (s.add f n).wb = s.wb := rfl
@[simp] theorem State.add_now (f : Fd) (n : Nat) : (s.add f n).now = s.now := rfl
@[simp] theorem State.add_free (f : Fd) (n : Nat) : (s.add f n).free = s.free := rfl
@[simp] theorem State.add_hammer (f : Fd) (n : Nat) : (s.add f n).hammer = s.hammer := rfl
@[simp] theorem State.add_anvils (f : Fd) (n : Nat) : (s.add f n).anvils = s.anvils := rfl
@[simp] theorem State.add_xq (f : Fd) (n : Nat) : (s.add f n).xq = s.xq := rfl
@[simp] theorem State.add_crucs (f : Fd) (n : Nat) : (s.add f n).crucs = s.crucs := rfl
@[simp] theorem State.add_tongs (f : Fd) (n : Nat) : (s.add f n).tongs = s.tongs := rfl
@[simp] theorem State.add_jobs (f : Fd) (n : Nat) : (s.add f n).jobs = s.jobs := rfl
@[simp] theorem State.add_ueTimes (f : Fd) (n : Nat) : (s.add f n).ueTimes = s.ueTimes := rfl
@[simp] theorem State.add_holds (f : Fd) (n : Nat) : (s.add f n).holds = s.holds := rfl
@[simp] theorem State.add_fenceReq (f : Fd) (n : Nat) : (s.add f n).fenceReq = s.fenceReq := rfl
@[simp] theorem State.add_evrec (f : Fd) (n : Nat) : (s.add f n).evrec = s.evrec := rfl
@[simp] theorem State.add_srcs (f : Fd) (n : Nat) : (s.add f n).srcs = s.srcs := rfl
@[simp] theorem State.add_grps (f : Fd) (n : Nat) : (s.add f n).grps = s.grps := rfl
@[simp] theorem State.add_cores (f : Fd) (n : Nat) : (s.add f n).cores = s.cores := rfl
@[simp] theorem State.add_temper (f : Fd) (n : Nat) : (s.add f n).temper = s.temper := rfl
@[simp] theorem State.add_core (f : Fd) (n : Nat) : (s.add f n).core = s.core := rfl
@[simp] theorem State.add_mclk (f : Fd) (n : Nat) : (s.add f n).mclk = s.mclk := rfl
@[simp] theorem State.add_trace (f : Fd) (n : Nat) : (s.add f n).trace = s.trace := rfl
@[simp] theorem State.add_snapReq (f : Fd) (n : Nat) : (s.add f n).snapReq = s.snapReq := rfl
@[simp] theorem State.add_shadow (f : Fd) (n : Nat) : (s.add f n).shadow = s.shadow := rfl
@[simp] theorem State.add_cool (f : Fd) (n : Nat) : (s.add f n).cool = s.cool := rfl
@[simp] theorem State.add_quench (f : Fd) (n : Nat) : (s.add f n).quench = s.quench := rfl
@[simp] theorem State.add_tuyere (f : Fd) (n : Nat) : (s.add f n).tuyere = s.tuyere := rfl
@[simp] theorem State.add_can (f : Fd) (n : Nat) : (s.add f n).can = s.can := rfl
@[simp] theorem State.add_mgmt (f : Fd) (n : Nat) : (s.add f n).mgmt = s.mgmt := rfl
@[simp] theorem State.add_pwr (f : Fd) (n : Nat) : (s.add f n).pwr = s.pwr := rfl
@[simp] theorem State.add_secb (f : Fd) (n : Nat) : (s.add f n).secb = s.secb := rfl
@[simp] theorem State.add_jtag (f : Fd) (n : Nat) : (s.add f n).jtag = s.jtag := rfl
@[simp] theorem State.add_pending (f : Fd) (n : Nat) : (s.add f n).pending = s.pending := rfl

/-! ### `State.inc` -/

theorem State.inc_csr (f : Fd) : (s.inc f).csr = (s.add f 1).csr := rfl
@[simp] theorem State.inc_mem (f : Fd) : (s.inc f).mem = s.mem := rfl
@[simp] theorem State.inc_errs (f : Fd) : (s.inc f).errs = s.errs := rfl
@[simp] theorem State.inc_transit (f : Fd) : (s.inc f).transit = s.transit := rfl
@[simp] theorem State.inc_wb (f : Fd) : (s.inc f).wb = s.wb := rfl
@[simp] theorem State.inc_now (f : Fd) : (s.inc f).now = s.now := rfl
@[simp] theorem State.inc_free (f : Fd) : (s.inc f).free = s.free := rfl
@[simp] theorem State.inc_hammer (f : Fd) : (s.inc f).hammer = s.hammer := rfl
@[simp] theorem State.inc_anvils (f : Fd) : (s.inc f).anvils = s.anvils := rfl
@[simp] theorem State.inc_xq (f : Fd) : (s.inc f).xq = s.xq := rfl
@[simp] theorem State.inc_crucs (f : Fd) : (s.inc f).crucs = s.crucs := rfl
@[simp] theorem State.inc_tongs (f : Fd) : (s.inc f).tongs = s.tongs := rfl
@[simp] theorem State.inc_jobs (f : Fd) : (s.inc f).jobs = s.jobs := rfl
@[simp] theorem State.inc_ueTimes (f : Fd) : (s.inc f).ueTimes = s.ueTimes := rfl
@[simp] theorem State.inc_holds (f : Fd) : (s.inc f).holds = s.holds := rfl
@[simp] theorem State.inc_fenceReq (f : Fd) : (s.inc f).fenceReq = s.fenceReq := rfl
@[simp] theorem State.inc_evrec (f : Fd) : (s.inc f).evrec = s.evrec := rfl
@[simp] theorem State.inc_srcs (f : Fd) : (s.inc f).srcs = s.srcs := rfl
@[simp] theorem State.inc_grps (f : Fd) : (s.inc f).grps = s.grps := rfl
@[simp] theorem State.inc_cores (f : Fd) : (s.inc f).cores = s.cores := rfl
@[simp] theorem State.inc_temper (f : Fd) : (s.inc f).temper = s.temper := rfl
@[simp] theorem State.inc_core (f : Fd) : (s.inc f).core = s.core := rfl
@[simp] theorem State.inc_mclk (f : Fd) : (s.inc f).mclk = s.mclk := rfl
@[simp] theorem State.inc_trace (f : Fd) : (s.inc f).trace = s.trace := rfl
@[simp] theorem State.inc_snapReq (f : Fd) : (s.inc f).snapReq = s.snapReq := rfl
@[simp] theorem State.inc_shadow (f : Fd) : (s.inc f).shadow = s.shadow := rfl
@[simp] theorem State.inc_cool (f : Fd) : (s.inc f).cool = s.cool := rfl
@[simp] theorem State.inc_quench (f : Fd) : (s.inc f).quench = s.quench := rfl
@[simp] theorem State.inc_tuyere (f : Fd) : (s.inc f).tuyere = s.tuyere := rfl
@[simp] theorem State.inc_can (f : Fd) : (s.inc f).can = s.can := rfl
@[simp] theorem State.inc_mgmt (f : Fd) : (s.inc f).mgmt = s.mgmt := rfl
@[simp] theorem State.inc_pwr (f : Fd) : (s.inc f).pwr = s.pwr := rfl
@[simp] theorem State.inc_secb (f : Fd) : (s.inc f).secb = s.secb := rfl
@[simp] theorem State.inc_jtag (f : Fd) : (s.inc f).jtag = s.jtag := rfl
@[simp] theorem State.inc_pending (f : Fd) : (s.inc f).pending = s.pending := rfl

/-! ### `State.setByte` -/

theorem State.setByte_mem (a : Nat) (b : Byte) : (s.setByte a b).mem = Tab.set memDefault s.mem (phys a) b := rfl
@[simp] theorem State.setByte_csr (a : Nat) (b : Byte) : (s.setByte a b).csr = s.csr := rfl
@[simp] theorem State.setByte_errs (a : Nat) (b : Byte) : (s.setByte a b).errs = s.errs := rfl
@[simp] theorem State.setByte_transit (a : Nat) (b : Byte) : (s.setByte a b).transit = s.transit := rfl
@[simp] theorem State.setByte_wb (a : Nat) (b : Byte) : (s.setByte a b).wb = s.wb := rfl
@[simp] theorem State.setByte_now (a : Nat) (b : Byte) : (s.setByte a b).now = s.now := rfl
@[simp] theorem State.setByte_free (a : Nat) (b : Byte) : (s.setByte a b).free = s.free := rfl
@[simp] theorem State.setByte_hammer (a : Nat) (b : Byte) : (s.setByte a b).hammer = s.hammer := rfl
@[simp] theorem State.setByte_anvils (a : Nat) (b : Byte) : (s.setByte a b).anvils = s.anvils := rfl
@[simp] theorem State.setByte_xq (a : Nat) (b : Byte) : (s.setByte a b).xq = s.xq := rfl
@[simp] theorem State.setByte_crucs (a : Nat) (b : Byte) : (s.setByte a b).crucs = s.crucs := rfl
@[simp] theorem State.setByte_tongs (a : Nat) (b : Byte) : (s.setByte a b).tongs = s.tongs := rfl
@[simp] theorem State.setByte_jobs (a : Nat) (b : Byte) : (s.setByte a b).jobs = s.jobs := rfl
@[simp] theorem State.setByte_ueTimes (a : Nat) (b : Byte) : (s.setByte a b).ueTimes = s.ueTimes := rfl
@[simp] theorem State.setByte_holds (a : Nat) (b : Byte) : (s.setByte a b).holds = s.holds := rfl
@[simp] theorem State.setByte_fenceReq (a : Nat) (b : Byte) : (s.setByte a b).fenceReq = s.fenceReq := rfl
@[simp] theorem State.setByte_evrec (a : Nat) (b : Byte) : (s.setByte a b).evrec = s.evrec := rfl
@[simp] theorem State.setByte_srcs (a : Nat) (b : Byte) : (s.setByte a b).srcs = s.srcs := rfl
@[simp] theorem State.setByte_grps (a : Nat) (b : Byte) : (s.setByte a b).grps = s.grps := rfl
@[simp] theorem State.setByte_cores (a : Nat) (b : Byte) : (s.setByte a b).cores = s.cores := rfl
@[simp] theorem State.setByte_temper (a : Nat) (b : Byte) : (s.setByte a b).temper = s.temper := rfl
@[simp] theorem State.setByte_core (a : Nat) (b : Byte) : (s.setByte a b).core = s.core := rfl
@[simp] theorem State.setByte_mclk (a : Nat) (b : Byte) : (s.setByte a b).mclk = s.mclk := rfl
@[simp] theorem State.setByte_trace (a : Nat) (b : Byte) : (s.setByte a b).trace = s.trace := rfl
@[simp] theorem State.setByte_snapReq (a : Nat) (b : Byte) : (s.setByte a b).snapReq = s.snapReq := rfl
@[simp] theorem State.setByte_shadow (a : Nat) (b : Byte) : (s.setByte a b).shadow = s.shadow := rfl
@[simp] theorem State.setByte_cool (a : Nat) (b : Byte) : (s.setByte a b).cool = s.cool := rfl
@[simp] theorem State.setByte_quench (a : Nat) (b : Byte) : (s.setByte a b).quench = s.quench := rfl
@[simp] theorem State.setByte_tuyere (a : Nat) (b : Byte) : (s.setByte a b).tuyere = s.tuyere := rfl
@[simp] theorem State.setByte_can (a : Nat) (b : Byte) : (s.setByte a b).can = s.can := rfl
@[simp] theorem State.setByte_mgmt (a : Nat) (b : Byte) : (s.setByte a b).mgmt = s.mgmt := rfl
@[simp] theorem State.setByte_pwr (a : Nat) (b : Byte) : (s.setByte a b).pwr = s.pwr := rfl
@[simp] theorem State.setByte_secb (a : Nat) (b : Byte) : (s.setByte a b).secb = s.secb := rfl
@[simp] theorem State.setByte_jtag (a : Nat) (b : Byte) : (s.setByte a b).jtag = s.jtag := rfl
@[simp] theorem State.setByte_pending (a : Nat) (b : Byte) : (s.setByte a b).pending = s.pending := rfl

/-! ### `State.setCtx` -/

theorem State.setCtx_tongs (n : Nat) (c : Ctx) : (s.setCtx n c).tongs = { s.tongs with ctx := Tab.set Ctx.reset s.tongs.ctx n c } := rfl
@[simp] theorem State.setCtx_csr (n : Nat) (c : Ctx) : (s.setCtx n c).csr = s.csr := rfl
@[simp] theorem State.setCtx_mem (n : Nat) (c : Ctx) : (s.setCtx n c).mem = s.mem := rfl
@[simp] theorem State.setCtx_errs (n : Nat) (c : Ctx) : (s.setCtx n c).errs = s.errs := rfl
@[simp] theorem State.setCtx_transit (n : Nat) (c : Ctx) : (s.setCtx n c).transit = s.transit := rfl
@[simp] theorem State.setCtx_wb (n : Nat) (c : Ctx) : (s.setCtx n c).wb = s.wb := rfl
@[simp] theorem State.setCtx_now (n : Nat) (c : Ctx) : (s.setCtx n c).now = s.now := rfl
@[simp] theorem State.setCtx_free (n : Nat) (c : Ctx) : (s.setCtx n c).free = s.free := rfl
@[simp] theorem State.setCtx_hammer (n : Nat) (c : Ctx) : (s.setCtx n c).hammer = s.hammer := rfl
@[simp] theorem State.setCtx_anvils (n : Nat) (c : Ctx) : (s.setCtx n c).anvils = s.anvils := rfl
@[simp] theorem State.setCtx_xq (n : Nat) (c : Ctx) : (s.setCtx n c).xq = s.xq := rfl
@[simp] theorem State.setCtx_crucs (n : Nat) (c : Ctx) : (s.setCtx n c).crucs = s.crucs := rfl
@[simp] theorem State.setCtx_jobs (n : Nat) (c : Ctx) : (s.setCtx n c).jobs = s.jobs := rfl
@[simp] theorem State.setCtx_ueTimes (n : Nat) (c : Ctx) : (s.setCtx n c).ueTimes = s.ueTimes := rfl
@[simp] theorem State.setCtx_holds (n : Nat) (c : Ctx) : (s.setCtx n c).holds = s.holds := rfl
@[simp] theorem State.setCtx_fenceReq (n : Nat) (c : Ctx) : (s.setCtx n c).fenceReq = s.fenceReq := rfl
@[simp] theorem State.setCtx_evrec (n : Nat) (c : Ctx) : (s.setCtx n c).evrec = s.evrec := rfl
@[simp] theorem State.setCtx_srcs (n : Nat) (c : Ctx) : (s.setCtx n c).srcs = s.srcs := rfl
@[simp] theorem State.setCtx_grps (n : Nat) (c : Ctx) : (s.setCtx n c).grps = s.grps := rfl
@[simp] theorem State.setCtx_cores (n : Nat) (c : Ctx) : (s.setCtx n c).cores = s.cores := rfl
@[simp] theorem State.setCtx_temper (n : Nat) (c : Ctx) : (s.setCtx n c).temper = s.temper := rfl
@[simp] theorem State.setCtx_core (n : Nat) (c : Ctx) : (s.setCtx n c).core = s.core := rfl
@[simp] theorem State.setCtx_mclk (n : Nat) (c : Ctx) : (s.setCtx n c).mclk = s.mclk := rfl
@[simp] theorem State.setCtx_trace (n : Nat) (c : Ctx) : (s.setCtx n c).trace = s.trace := rfl
@[simp] theorem State.setCtx_snapReq (n : Nat) (c : Ctx) : (s.setCtx n c).snapReq = s.snapReq := rfl
@[simp] theorem State.setCtx_shadow (n : Nat) (c : Ctx) : (s.setCtx n c).shadow = s.shadow := rfl
@[simp] theorem State.setCtx_cool (n : Nat) (c : Ctx) : (s.setCtx n c).cool = s.cool := rfl
@[simp] theorem State.setCtx_quench (n : Nat) (c : Ctx) : (s.setCtx n c).quench = s.quench := rfl
@[simp] theorem State.setCtx_tuyere (n : Nat) (c : Ctx) : (s.setCtx n c).tuyere = s.tuyere := rfl
@[simp] theorem State.setCtx_can (n : Nat) (c : Ctx) : (s.setCtx n c).can = s.can := rfl
@[simp] theorem State.setCtx_mgmt (n : Nat) (c : Ctx) : (s.setCtx n c).mgmt = s.mgmt := rfl
@[simp] theorem State.setCtx_pwr (n : Nat) (c : Ctx) : (s.setCtx n c).pwr = s.pwr := rfl
@[simp] theorem State.setCtx_secb (n : Nat) (c : Ctx) : (s.setCtx n c).secb = s.secb := rfl
@[simp] theorem State.setCtx_jtag (n : Nat) (c : Ctx) : (s.setCtx n c).jtag = s.jtag := rfl
@[simp] theorem State.setCtx_pending (n : Nat) (c : Ctx) : (s.setCtx n c).pending = s.pending := rfl

/-! ### `State.setIfc` -/

theorem State.setIfc_tongs (i : Nat) (x : Ifc) : (s.setIfc i x).tongs = { s.tongs with ifc := Tab.set (fun _ => Ifc.reset) s.tongs.ifc i x } := rfl
@[simp] theorem State.setIfc_csr (i : Nat) (x : Ifc) : (s.setIfc i x).csr = s.csr := rfl
@[simp] theorem State.setIfc_mem (i : Nat) (x : Ifc) : (s.setIfc i x).mem = s.mem := rfl
@[simp] theorem State.setIfc_errs (i : Nat) (x : Ifc) : (s.setIfc i x).errs = s.errs := rfl
@[simp] theorem State.setIfc_transit (i : Nat) (x : Ifc) : (s.setIfc i x).transit = s.transit := rfl
@[simp] theorem State.setIfc_wb (i : Nat) (x : Ifc) : (s.setIfc i x).wb = s.wb := rfl
@[simp] theorem State.setIfc_now (i : Nat) (x : Ifc) : (s.setIfc i x).now = s.now := rfl
@[simp] theorem State.setIfc_free (i : Nat) (x : Ifc) : (s.setIfc i x).free = s.free := rfl
@[simp] theorem State.setIfc_hammer (i : Nat) (x : Ifc) : (s.setIfc i x).hammer = s.hammer := rfl
@[simp] theorem State.setIfc_anvils (i : Nat) (x : Ifc) : (s.setIfc i x).anvils = s.anvils := rfl
@[simp] theorem State.setIfc_xq (i : Nat) (x : Ifc) : (s.setIfc i x).xq = s.xq := rfl
@[simp] theorem State.setIfc_crucs (i : Nat) (x : Ifc) : (s.setIfc i x).crucs = s.crucs := rfl
@[simp] theorem State.setIfc_jobs (i : Nat) (x : Ifc) : (s.setIfc i x).jobs = s.jobs := rfl
@[simp] theorem State.setIfc_ueTimes (i : Nat) (x : Ifc) : (s.setIfc i x).ueTimes = s.ueTimes := rfl
@[simp] theorem State.setIfc_holds (i : Nat) (x : Ifc) : (s.setIfc i x).holds = s.holds := rfl
@[simp] theorem State.setIfc_fenceReq (i : Nat) (x : Ifc) : (s.setIfc i x).fenceReq = s.fenceReq := rfl
@[simp] theorem State.setIfc_evrec (i : Nat) (x : Ifc) : (s.setIfc i x).evrec = s.evrec := rfl
@[simp] theorem State.setIfc_srcs (i : Nat) (x : Ifc) : (s.setIfc i x).srcs = s.srcs := rfl
@[simp] theorem State.setIfc_grps (i : Nat) (x : Ifc) : (s.setIfc i x).grps = s.grps := rfl
@[simp] theorem State.setIfc_cores (i : Nat) (x : Ifc) : (s.setIfc i x).cores = s.cores := rfl
@[simp] theorem State.setIfc_temper (i : Nat) (x : Ifc) : (s.setIfc i x).temper = s.temper := rfl
@[simp] theorem State.setIfc_core (i : Nat) (x : Ifc) : (s.setIfc i x).core = s.core := rfl
@[simp] theorem State.setIfc_mclk (i : Nat) (x : Ifc) : (s.setIfc i x).mclk = s.mclk := rfl
@[simp] theorem State.setIfc_trace (i : Nat) (x : Ifc) : (s.setIfc i x).trace = s.trace := rfl
@[simp] theorem State.setIfc_snapReq (i : Nat) (x : Ifc) : (s.setIfc i x).snapReq = s.snapReq := rfl
@[simp] theorem State.setIfc_shadow (i : Nat) (x : Ifc) : (s.setIfc i x).shadow = s.shadow := rfl
@[simp] theorem State.setIfc_cool (i : Nat) (x : Ifc) : (s.setIfc i x).cool = s.cool := rfl
@[simp] theorem State.setIfc_quench (i : Nat) (x : Ifc) : (s.setIfc i x).quench = s.quench := rfl
@[simp] theorem State.setIfc_tuyere (i : Nat) (x : Ifc) : (s.setIfc i x).tuyere = s.tuyere := rfl
@[simp] theorem State.setIfc_can (i : Nat) (x : Ifc) : (s.setIfc i x).can = s.can := rfl
@[simp] theorem State.setIfc_mgmt (i : Nat) (x : Ifc) : (s.setIfc i x).mgmt = s.mgmt := rfl
@[simp] theorem State.setIfc_pwr (i : Nat) (x : Ifc) : (s.setIfc i x).pwr = s.pwr := rfl
@[simp] theorem State.setIfc_secb (i : Nat) (x : Ifc) : (s.setIfc i x).secb = s.secb := rfl
@[simp] theorem State.setIfc_jtag (i : Nat) (x : Ifc) : (s.setIfc i x).jtag = s.jtag := rfl
@[simp] theorem State.setIfc_pending (i : Nat) (x : Ifc) : (s.setIfc i x).pending = s.pending := rfl

/-! ### `State.setSrc` -/

theorem State.setSrc_srcs (n : Nat) (x : Src) : (s.setSrc n x).srcs = Tab.set (fun _ => Src.reset) s.srcs n x := rfl
@[simp] theorem State.setSrc_csr (n : Nat) (x : Src) : (s.setSrc n x).csr = s.csr := rfl
@[simp] theorem State.setSrc_mem (n : Nat) (x : Src) : (s.setSrc n x).mem = s.mem := rfl
@[simp] theorem State.setSrc_errs (n : Nat) (x : Src) : (s.setSrc n x).errs = s.errs := rfl
@[simp] theorem State.setSrc_transit (n : Nat) (x : Src) : (s.setSrc n x).transit = s.transit := rfl
@[simp] theorem State.setSrc_wb (n : Nat) (x : Src) : (s.setSrc n x).wb = s.wb := rfl
@[simp] theorem State.setSrc_now (n : Nat) (x : Src) : (s.setSrc n x).now = s.now := rfl
@[simp] theorem State.setSrc_free (n : Nat) (x : Src) : (s.setSrc n x).free = s.free := rfl
@[simp] theorem State.setSrc_hammer (n : Nat) (x : Src) : (s.setSrc n x).hammer = s.hammer := rfl
@[simp] theorem State.setSrc_anvils (n : Nat) (x : Src) : (s.setSrc n x).anvils = s.anvils := rfl
@[simp] theorem State.setSrc_xq (n : Nat) (x : Src) : (s.setSrc n x).xq = s.xq := rfl
@[simp] theorem State.setSrc_crucs (n : Nat) (x : Src) : (s.setSrc n x).crucs = s.crucs := rfl
@[simp] theorem State.setSrc_tongs (n : Nat) (x : Src) : (s.setSrc n x).tongs = s.tongs := rfl
@[simp] theorem State.setSrc_jobs (n : Nat) (x : Src) : (s.setSrc n x).jobs = s.jobs := rfl
@[simp] theorem State.setSrc_ueTimes (n : Nat) (x : Src) : (s.setSrc n x).ueTimes = s.ueTimes := rfl
@[simp] theorem State.setSrc_holds (n : Nat) (x : Src) : (s.setSrc n x).holds = s.holds := rfl
@[simp] theorem State.setSrc_fenceReq (n : Nat) (x : Src) : (s.setSrc n x).fenceReq = s.fenceReq := rfl
@[simp] theorem State.setSrc_evrec (n : Nat) (x : Src) : (s.setSrc n x).evrec = s.evrec := rfl
@[simp] theorem State.setSrc_grps (n : Nat) (x : Src) : (s.setSrc n x).grps = s.grps := rfl
@[simp] theorem State.setSrc_cores (n : Nat) (x : Src) : (s.setSrc n x).cores = s.cores := rfl
@[simp] theorem State.setSrc_temper (n : Nat) (x : Src) : (s.setSrc n x).temper = s.temper := rfl
@[simp] theorem State.setSrc_core (n : Nat) (x : Src) : (s.setSrc n x).core = s.core := rfl
@[simp] theorem State.setSrc_mclk (n : Nat) (x : Src) : (s.setSrc n x).mclk = s.mclk := rfl
@[simp] theorem State.setSrc_trace (n : Nat) (x : Src) : (s.setSrc n x).trace = s.trace := rfl
@[simp] theorem State.setSrc_snapReq (n : Nat) (x : Src) : (s.setSrc n x).snapReq = s.snapReq := rfl
@[simp] theorem State.setSrc_shadow (n : Nat) (x : Src) : (s.setSrc n x).shadow = s.shadow := rfl
@[simp] theorem State.setSrc_cool (n : Nat) (x : Src) : (s.setSrc n x).cool = s.cool := rfl
@[simp] theorem State.setSrc_quench (n : Nat) (x : Src) : (s.setSrc n x).quench = s.quench := rfl
@[simp] theorem State.setSrc_tuyere (n : Nat) (x : Src) : (s.setSrc n x).tuyere = s.tuyere := rfl
@[simp] theorem State.setSrc_can (n : Nat) (x : Src) : (s.setSrc n x).can = s.can := rfl
@[simp] theorem State.setSrc_mgmt (n : Nat) (x : Src) : (s.setSrc n x).mgmt = s.mgmt := rfl
@[simp] theorem State.setSrc_pwr (n : Nat) (x : Src) : (s.setSrc n x).pwr = s.pwr := rfl
@[simp] theorem State.setSrc_secb (n : Nat) (x : Src) : (s.setSrc n x).secb = s.secb := rfl
@[simp] theorem State.setSrc_jtag (n : Nat) (x : Src) : (s.setSrc n x).jtag = s.jtag := rfl
@[simp] theorem State.setSrc_pending (n : Nat) (x : Src) : (s.setSrc n x).pending = s.pending := rfl

/-! ### `State.setCore` -/

theorem State.setCore_cores (t : Nat) (x : CoreIrq) : (s.setCore t x).cores = Tab.set (fun _ => (⟨[], [], false⟩ : CoreIrq)) s.cores t x := rfl
@[simp] theorem State.setCore_csr (t : Nat) (x : CoreIrq) : (s.setCore t x).csr = s.csr := rfl
@[simp] theorem State.setCore_mem (t : Nat) (x : CoreIrq) : (s.setCore t x).mem = s.mem := rfl
@[simp] theorem State.setCore_errs (t : Nat) (x : CoreIrq) : (s.setCore t x).errs = s.errs := rfl
@[simp] theorem State.setCore_transit (t : Nat) (x : CoreIrq) : (s.setCore t x).transit = s.transit := rfl
@[simp] theorem State.setCore_wb (t : Nat) (x : CoreIrq) : (s.setCore t x).wb = s.wb := rfl
@[simp] theorem State.setCore_now (t : Nat) (x : CoreIrq) : (s.setCore t x).now = s.now := rfl
@[simp] theorem State.setCore_free (t : Nat) (x : CoreIrq) : (s.setCore t x).free = s.free := rfl
@[simp] theorem State.setCore_hammer (t : Nat) (x : CoreIrq) : (s.setCore t x).hammer = s.hammer := rfl
@[simp] theorem State.setCore_anvils (t : Nat) (x : CoreIrq) : (s.setCore t x).anvils = s.anvils := rfl
@[simp] theorem State.setCore_xq (t : Nat) (x : CoreIrq) : (s.setCore t x).xq = s.xq := rfl
@[simp] theorem State.setCore_crucs (t : Nat) (x : CoreIrq) : (s.setCore t x).crucs = s.crucs := rfl
@[simp] theorem State.setCore_tongs (t : Nat) (x : CoreIrq) : (s.setCore t x).tongs = s.tongs := rfl
@[simp] theorem State.setCore_jobs (t : Nat) (x : CoreIrq) : (s.setCore t x).jobs = s.jobs := rfl
@[simp] theorem State.setCore_ueTimes (t : Nat) (x : CoreIrq) : (s.setCore t x).ueTimes = s.ueTimes := rfl
@[simp] theorem State.setCore_holds (t : Nat) (x : CoreIrq) : (s.setCore t x).holds = s.holds := rfl
@[simp] theorem State.setCore_fenceReq (t : Nat) (x : CoreIrq) : (s.setCore t x).fenceReq = s.fenceReq := rfl
@[simp] theorem State.setCore_evrec (t : Nat) (x : CoreIrq) : (s.setCore t x).evrec = s.evrec := rfl
@[simp] theorem State.setCore_srcs (t : Nat) (x : CoreIrq) : (s.setCore t x).srcs = s.srcs := rfl
@[simp] theorem State.setCore_grps (t : Nat) (x : CoreIrq) : (s.setCore t x).grps = s.grps := rfl
@[simp] theorem State.setCore_temper (t : Nat) (x : CoreIrq) : (s.setCore t x).temper = s.temper := rfl
@[simp] theorem State.setCore_core (t : Nat) (x : CoreIrq) : (s.setCore t x).core = s.core := rfl
@[simp] theorem State.setCore_mclk (t : Nat) (x : CoreIrq) : (s.setCore t x).mclk = s.mclk := rfl
@[simp] theorem State.setCore_trace (t : Nat) (x : CoreIrq) : (s.setCore t x).trace = s.trace := rfl
@[simp] theorem State.setCore_snapReq (t : Nat) (x : CoreIrq) : (s.setCore t x).snapReq = s.snapReq := rfl
@[simp] theorem State.setCore_shadow (t : Nat) (x : CoreIrq) : (s.setCore t x).shadow = s.shadow := rfl
@[simp] theorem State.setCore_cool (t : Nat) (x : CoreIrq) : (s.setCore t x).cool = s.cool := rfl
@[simp] theorem State.setCore_quench (t : Nat) (x : CoreIrq) : (s.setCore t x).quench = s.quench := rfl
@[simp] theorem State.setCore_tuyere (t : Nat) (x : CoreIrq) : (s.setCore t x).tuyere = s.tuyere := rfl
@[simp] theorem State.setCore_can (t : Nat) (x : CoreIrq) : (s.setCore t x).can = s.can := rfl
@[simp] theorem State.setCore_mgmt (t : Nat) (x : CoreIrq) : (s.setCore t x).mgmt = s.mgmt := rfl
@[simp] theorem State.setCore_pwr (t : Nat) (x : CoreIrq) : (s.setCore t x).pwr = s.pwr := rfl
@[simp] theorem State.setCore_secb (t : Nat) (x : CoreIrq) : (s.setCore t x).secb = s.secb := rfl
@[simp] theorem State.setCore_jtag (t : Nat) (x : CoreIrq) : (s.setCore t x).jtag = s.jtag := rfl
@[simp] theorem State.setCore_pending (t : Nat) (x : CoreIrq) : (s.setCore t x).pending = s.pending := rfl

/-! ### `State.setAnvil` -/

theorem State.setAnvil_anvils (g : Nat) (a : Anvil) : (s.setAnvil g a).anvils = Tab.set (fun _ => Anvil.entry) s.anvils g a := rfl
@[simp] theorem State.setAnvil_csr (g : Nat) (a : Anvil) : (s.setAnvil g a).csr = s.csr := rfl
@[simp] theorem State.setAnvil_mem (g : Nat) (a : Anvil) : (s.setAnvil g a).mem = s.mem := rfl
@[simp] theorem State.setAnvil_errs (g : Nat) (a : Anvil) : (s.setAnvil g a).errs = s.errs := rfl
@[simp] theorem State.setAnvil_transit (g : Nat) (a : Anvil) : (s.setAnvil g a).transit = s.transit := rfl
@[simp] theorem State.setAnvil_wb (g : Nat) (a : Anvil) : (s.setAnvil g a).wb = s.wb := rfl
@[simp] theorem State.setAnvil_now (g : Nat) (a : Anvil) : (s.setAnvil g a).now = s.now := rfl
@[simp] theorem State.setAnvil_free (g : Nat) (a : Anvil) : (s.setAnvil g a).free = s.free := rfl
@[simp] theorem State.setAnvil_hammer (g : Nat) (a : Anvil) : (s.setAnvil g a).hammer = s.hammer := rfl
@[simp] theorem State.setAnvil_xq (g : Nat) (a : Anvil) : (s.setAnvil g a).xq = s.xq := rfl
@[simp] theorem State.setAnvil_crucs (g : Nat) (a : Anvil) : (s.setAnvil g a).crucs = s.crucs := rfl
@[simp] theorem State.setAnvil_tongs (g : Nat) (a : Anvil) : (s.setAnvil g a).tongs = s.tongs := rfl
@[simp] theorem State.setAnvil_jobs (g : Nat) (a : Anvil) : (s.setAnvil g a).jobs = s.jobs := rfl
@[simp] theorem State.setAnvil_ueTimes (g : Nat) (a : Anvil) : (s.setAnvil g a).ueTimes = s.ueTimes := rfl
@[simp] theorem State.setAnvil_holds (g : Nat) (a : Anvil) : (s.setAnvil g a).holds = s.holds := rfl
@[simp] theorem State.setAnvil_fenceReq (g : Nat) (a : Anvil) : (s.setAnvil g a).fenceReq = s.fenceReq := rfl
@[simp] theorem State.setAnvil_evrec (g : Nat) (a : Anvil) : (s.setAnvil g a).evrec = s.evrec := rfl
@[simp] theorem State.setAnvil_srcs (g : Nat) (a : Anvil) : (s.setAnvil g a).srcs = s.srcs := rfl
@[simp] theorem State.setAnvil_grps (g : Nat) (a : Anvil) : (s.setAnvil g a).grps = s.grps := rfl
@[simp] theorem State.setAnvil_cores (g : Nat) (a : Anvil) : (s.setAnvil g a).cores = s.cores := rfl
@[simp] theorem State.setAnvil_temper (g : Nat) (a : Anvil) : (s.setAnvil g a).temper = s.temper := rfl
@[simp] theorem State.setAnvil_core (g : Nat) (a : Anvil) : (s.setAnvil g a).core = s.core := rfl
@[simp] theorem State.setAnvil_mclk (g : Nat) (a : Anvil) : (s.setAnvil g a).mclk = s.mclk := rfl
@[simp] theorem State.setAnvil_trace (g : Nat) (a : Anvil) : (s.setAnvil g a).trace = s.trace := rfl
@[simp] theorem State.setAnvil_snapReq (g : Nat) (a : Anvil) : (s.setAnvil g a).snapReq = s.snapReq := rfl
@[simp] theorem State.setAnvil_shadow (g : Nat) (a : Anvil) : (s.setAnvil g a).shadow = s.shadow := rfl
@[simp] theorem State.setAnvil_cool (g : Nat) (a : Anvil) : (s.setAnvil g a).cool = s.cool := rfl
@[simp] theorem State.setAnvil_quench (g : Nat) (a : Anvil) : (s.setAnvil g a).quench = s.quench := rfl
@[simp] theorem State.setAnvil_tuyere (g : Nat) (a : Anvil) : (s.setAnvil g a).tuyere = s.tuyere := rfl
@[simp] theorem State.setAnvil_can (g : Nat) (a : Anvil) : (s.setAnvil g a).can = s.can := rfl
@[simp] theorem State.setAnvil_mgmt (g : Nat) (a : Anvil) : (s.setAnvil g a).mgmt = s.mgmt := rfl
@[simp] theorem State.setAnvil_pwr (g : Nat) (a : Anvil) : (s.setAnvil g a).pwr = s.pwr := rfl
@[simp] theorem State.setAnvil_secb (g : Nat) (a : Anvil) : (s.setAnvil g a).secb = s.secb := rfl
@[simp] theorem State.setAnvil_jtag (g : Nat) (a : Anvil) : (s.setAnvil g a).jtag = s.jtag := rfl
@[simp] theorem State.setAnvil_pending (g : Nat) (a : Anvil) : (s.setAnvil g a).pending = s.pending := rfl

/-! ### `State.setCruc` -/

theorem State.setCruc_crucs (k : Nat) (c : Cruc) : (s.setCruc k c).crucs = Tab.set (fun _ => Cruc.reset) s.crucs k c := rfl
@[simp] theorem State.setCruc_csr (k : Nat) (c : Cruc) : (s.setCruc k c).csr = s.csr := rfl
@[simp] theorem State.setCruc_mem (k : Nat) (c : Cruc) : (s.setCruc k c).mem = s.mem := rfl
@[simp] theorem State.setCruc_errs (k : Nat) (c : Cruc) : (s.setCruc k c).errs = s.errs := rfl
@[simp] theorem State.setCruc_transit (k : Nat) (c : Cruc) : (s.setCruc k c).transit = s.transit := rfl
@[simp] theorem State.setCruc_wb (k : Nat) (c : Cruc) : (s.setCruc k c).wb = s.wb := rfl
@[simp] theorem State.setCruc_now (k : Nat) (c : Cruc) : (s.setCruc k c).now = s.now := rfl
@[simp] theorem State.setCruc_free (k : Nat) (c : Cruc) : (s.setCruc k c).free = s.free := rfl
@[simp] theorem State.setCruc_hammer (k : Nat) (c : Cruc) : (s.setCruc k c).hammer = s.hammer := rfl
@[simp] theorem State.setCruc_anvils (k : Nat) (c : Cruc) : (s.setCruc k c).anvils = s.anvils := rfl
@[simp] theorem State.setCruc_xq (k : Nat) (c : Cruc) : (s.setCruc k c).xq = s.xq := rfl
@[simp] theorem State.setCruc_tongs (k : Nat) (c : Cruc) : (s.setCruc k c).tongs = s.tongs := rfl
@[simp] theorem State.setCruc_jobs (k : Nat) (c : Cruc) : (s.setCruc k c).jobs = s.jobs := rfl
@[simp] theorem State.setCruc_ueTimes (k : Nat) (c : Cruc) : (s.setCruc k c).ueTimes = s.ueTimes := rfl
@[simp] theorem State.setCruc_holds (k : Nat) (c : Cruc) : (s.setCruc k c).holds = s.holds := rfl
@[simp] theorem State.setCruc_fenceReq (k : Nat) (c : Cruc) : (s.setCruc k c).fenceReq = s.fenceReq := rfl
@[simp] theorem State.setCruc_evrec (k : Nat) (c : Cruc) : (s.setCruc k c).evrec = s.evrec := rfl
@[simp] theorem State.setCruc_srcs (k : Nat) (c : Cruc) : (s.setCruc k c).srcs = s.srcs := rfl
@[simp] theorem State.setCruc_grps (k : Nat) (c : Cruc) : (s.setCruc k c).grps = s.grps := rfl
@[simp] theorem State.setCruc_cores (k : Nat) (c : Cruc) : (s.setCruc k c).cores = s.cores := rfl
@[simp] theorem State.setCruc_temper (k : Nat) (c : Cruc) : (s.setCruc k c).temper = s.temper := rfl
@[simp] theorem State.setCruc_core (k : Nat) (c : Cruc) : (s.setCruc k c).core = s.core := rfl
@[simp] theorem State.setCruc_mclk (k : Nat) (c : Cruc) : (s.setCruc k c).mclk = s.mclk := rfl
@[simp] theorem State.setCruc_trace (k : Nat) (c : Cruc) : (s.setCruc k c).trace = s.trace := rfl
@[simp] theorem State.setCruc_snapReq (k : Nat) (c : Cruc) : (s.setCruc k c).snapReq = s.snapReq := rfl
@[simp] theorem State.setCruc_shadow (k : Nat) (c : Cruc) : (s.setCruc k c).shadow = s.shadow := rfl
@[simp] theorem State.setCruc_cool (k : Nat) (c : Cruc) : (s.setCruc k c).cool = s.cool := rfl
@[simp] theorem State.setCruc_quench (k : Nat) (c : Cruc) : (s.setCruc k c).quench = s.quench := rfl
@[simp] theorem State.setCruc_tuyere (k : Nat) (c : Cruc) : (s.setCruc k c).tuyere = s.tuyere := rfl
@[simp] theorem State.setCruc_can (k : Nat) (c : Cruc) : (s.setCruc k c).can = s.can := rfl
@[simp] theorem State.setCruc_mgmt (k : Nat) (c : Cruc) : (s.setCruc k c).mgmt = s.mgmt := rfl
@[simp] theorem State.setCruc_pwr (k : Nat) (c : Cruc) : (s.setCruc k c).pwr = s.pwr := rfl
@[simp] theorem State.setCruc_secb (k : Nat) (c : Cruc) : (s.setCruc k c).secb = s.secb := rfl
@[simp] theorem State.setCruc_jtag (k : Nat) (c : Cruc) : (s.setCruc k c).jtag = s.jtag := rfl
@[simp] theorem State.setCruc_pending (k : Nat) (c : Cruc) : (s.setCruc k c).pending = s.pending := rfl

/-! ### `State.setJob` -/

theorem State.setJob_jobs (j : Nat) (x : Option Job) : (s.setJob j x).jobs = Tab.set (fun _ => none) s.jobs j x := rfl
@[simp] theorem State.setJob_csr (j : Nat) (x : Option Job) : (s.setJob j x).csr = s.csr := rfl
@[simp] theorem State.setJob_mem (j : Nat) (x : Option Job) : (s.setJob j x).mem = s.mem := rfl
@[simp] theorem State.setJob_errs (j : Nat) (x : Option Job) : (s.setJob j x).errs = s.errs := rfl
@[simp] theorem State.setJob_transit (j : Nat) (x : Option Job) : (s.setJob j x).transit = s.transit := rfl
@[simp] theorem State.setJob_wb (j : Nat) (x : Option Job) : (s.setJob j x).wb = s.wb := rfl
@[simp] theorem State.setJob_now (j : Nat) (x : Option Job) : (s.setJob j x).now = s.now := rfl
@[simp] theorem State.setJob_free (j : Nat) (x : Option Job) : (s.setJob j x).free = s.free := rfl
@[simp] theorem State.setJob_hammer (j : Nat) (x : Option Job) : (s.setJob j x).hammer = s.hammer := rfl
@[simp] theorem State.setJob_anvils (j : Nat) (x : Option Job) : (s.setJob j x).anvils = s.anvils := rfl
@[simp] theorem State.setJob_xq (j : Nat) (x : Option Job) : (s.setJob j x).xq = s.xq := rfl
@[simp] theorem State.setJob_crucs (j : Nat) (x : Option Job) : (s.setJob j x).crucs = s.crucs := rfl
@[simp] theorem State.setJob_tongs (j : Nat) (x : Option Job) : (s.setJob j x).tongs = s.tongs := rfl
@[simp] theorem State.setJob_ueTimes (j : Nat) (x : Option Job) : (s.setJob j x).ueTimes = s.ueTimes := rfl
@[simp] theorem State.setJob_holds (j : Nat) (x : Option Job) : (s.setJob j x).holds = s.holds := rfl
@[simp] theorem State.setJob_fenceReq (j : Nat) (x : Option Job) : (s.setJob j x).fenceReq = s.fenceReq := rfl
@[simp] theorem State.setJob_evrec (j : Nat) (x : Option Job) : (s.setJob j x).evrec = s.evrec := rfl
@[simp] theorem State.setJob_srcs (j : Nat) (x : Option Job) : (s.setJob j x).srcs = s.srcs := rfl
@[simp] theorem State.setJob_grps (j : Nat) (x : Option Job) : (s.setJob j x).grps = s.grps := rfl
@[simp] theorem State.setJob_cores (j : Nat) (x : Option Job) : (s.setJob j x).cores = s.cores := rfl
@[simp] theorem State.setJob_temper (j : Nat) (x : Option Job) : (s.setJob j x).temper = s.temper := rfl
@[simp] theorem State.setJob_core (j : Nat) (x : Option Job) : (s.setJob j x).core = s.core := rfl
@[simp] theorem State.setJob_mclk (j : Nat) (x : Option Job) : (s.setJob j x).mclk = s.mclk := rfl
@[simp] theorem State.setJob_trace (j : Nat) (x : Option Job) : (s.setJob j x).trace = s.trace := rfl
@[simp] theorem State.setJob_snapReq (j : Nat) (x : Option Job) : (s.setJob j x).snapReq = s.snapReq := rfl
@[simp] theorem State.setJob_shadow (j : Nat) (x : Option Job) : (s.setJob j x).shadow = s.shadow := rfl
@[simp] theorem State.setJob_cool (j : Nat) (x : Option Job) : (s.setJob j x).cool = s.cool := rfl
@[simp] theorem State.setJob_quench (j : Nat) (x : Option Job) : (s.setJob j x).quench = s.quench := rfl
@[simp] theorem State.setJob_tuyere (j : Nat) (x : Option Job) : (s.setJob j x).tuyere = s.tuyere := rfl
@[simp] theorem State.setJob_can (j : Nat) (x : Option Job) : (s.setJob j x).can = s.can := rfl
@[simp] theorem State.setJob_mgmt (j : Nat) (x : Option Job) : (s.setJob j x).mgmt = s.mgmt := rfl
@[simp] theorem State.setJob_pwr (j : Nat) (x : Option Job) : (s.setJob j x).pwr = s.pwr := rfl
@[simp] theorem State.setJob_secb (j : Nat) (x : Option Job) : (s.setJob j x).secb = s.secb := rfl
@[simp] theorem State.setJob_jtag (j : Nat) (x : Option Job) : (s.setJob j x).jtag = s.jtag := rfl
@[simp] theorem State.setJob_pending (j : Nat) (x : Option Job) : (s.setJob j x).pending = s.pending := rfl

/-! ### `State.setTok` -/

theorem State.setTok_hammer (t : Nat) (x : Tok) : (s.setTok t x).hammer = { s.hammer with tok := Tab.set (fun _ => Tok.zero) s.hammer.tok t x } := rfl
@[simp] theorem State.setTok_csr (t : Nat) (x : Tok) : (s.setTok t x).csr = s.csr := rfl
@[simp] theorem State.setTok_mem (t : Nat) (x : Tok) : (s.setTok t x).mem = s.mem := rfl
@[simp] theorem State.setTok_errs (t : Nat) (x : Tok) : (s.setTok t x).errs = s.errs := rfl
@[simp] theorem State.setTok_transit (t : Nat) (x : Tok) : (s.setTok t x).transit = s.transit := rfl
@[simp] theorem State.setTok_wb (t : Nat) (x : Tok) : (s.setTok t x).wb = s.wb := rfl
@[simp] theorem State.setTok_now (t : Nat) (x : Tok) : (s.setTok t x).now = s.now := rfl
@[simp] theorem State.setTok_free (t : Nat) (x : Tok) : (s.setTok t x).free = s.free := rfl
@[simp] theorem State.setTok_anvils (t : Nat) (x : Tok) : (s.setTok t x).anvils = s.anvils := rfl
@[simp] theorem State.setTok_xq (t : Nat) (x : Tok) : (s.setTok t x).xq = s.xq := rfl
@[simp] theorem State.setTok_crucs (t : Nat) (x : Tok) : (s.setTok t x).crucs = s.crucs := rfl
@[simp] theorem State.setTok_tongs (t : Nat) (x : Tok) : (s.setTok t x).tongs = s.tongs := rfl
@[simp] theorem State.setTok_jobs (t : Nat) (x : Tok) : (s.setTok t x).jobs = s.jobs := rfl
@[simp] theorem State.setTok_ueTimes (t : Nat) (x : Tok) : (s.setTok t x).ueTimes = s.ueTimes := rfl
@[simp] theorem State.setTok_holds (t : Nat) (x : Tok) : (s.setTok t x).holds = s.holds := rfl
@[simp] theorem State.setTok_fenceReq (t : Nat) (x : Tok) : (s.setTok t x).fenceReq = s.fenceReq := rfl
@[simp] theorem State.setTok_evrec (t : Nat) (x : Tok) : (s.setTok t x).evrec = s.evrec := rfl
@[simp] theorem State.setTok_srcs (t : Nat) (x : Tok) : (s.setTok t x).srcs = s.srcs := rfl
@[simp] theorem State.setTok_grps (t : Nat) (x : Tok) : (s.setTok t x).grps = s.grps := rfl
@[simp] theorem State.setTok_cores (t : Nat) (x : Tok) : (s.setTok t x).cores = s.cores := rfl
@[simp] theorem State.setTok_temper (t : Nat) (x : Tok) : (s.setTok t x).temper = s.temper := rfl
@[simp] theorem State.setTok_core (t : Nat) (x : Tok) : (s.setTok t x).core = s.core := rfl
@[simp] theorem State.setTok_mclk (t : Nat) (x : Tok) : (s.setTok t x).mclk = s.mclk := rfl
@[simp] theorem State.setTok_trace (t : Nat) (x : Tok) : (s.setTok t x).trace = s.trace := rfl
@[simp] theorem State.setTok_snapReq (t : Nat) (x : Tok) : (s.setTok t x).snapReq = s.snapReq := rfl
@[simp] theorem State.setTok_shadow (t : Nat) (x : Tok) : (s.setTok t x).shadow = s.shadow := rfl
@[simp] theorem State.setTok_cool (t : Nat) (x : Tok) : (s.setTok t x).cool = s.cool := rfl
@[simp] theorem State.setTok_quench (t : Nat) (x : Tok) : (s.setTok t x).quench = s.quench := rfl
@[simp] theorem State.setTok_tuyere (t : Nat) (x : Tok) : (s.setTok t x).tuyere = s.tuyere := rfl
@[simp] theorem State.setTok_can (t : Nat) (x : Tok) : (s.setTok t x).can = s.can := rfl
@[simp] theorem State.setTok_mgmt (t : Nat) (x : Tok) : (s.setTok t x).mgmt = s.mgmt := rfl
@[simp] theorem State.setTok_pwr (t : Nat) (x : Tok) : (s.setTok t x).pwr = s.pwr := rfl
@[simp] theorem State.setTok_secb (t : Nat) (x : Tok) : (s.setTok t x).secb = s.secb := rfl
@[simp] theorem State.setTok_jtag (t : Nat) (x : Tok) : (s.setTok t x).jtag = s.jtag := rfl
@[simp] theorem State.setTok_pending (t : Nat) (x : Tok) : (s.setTok t x).pending = s.pending := rfl

/-! ### `State.onHammer` -/

theorem State.onHammer_hammer (f : Hammer → Hammer) : (s.onHammer f).hammer = f s.hammer := rfl
@[simp] theorem State.onHammer_csr (f : Hammer → Hammer) : (s.onHammer f).csr = s.csr := rfl
@[simp] theorem State.onHammer_mem (f : Hammer → Hammer) : (s.onHammer f).mem = s.mem := rfl
@[simp] theorem State.onHammer_errs (f : Hammer → Hammer) : (s.onHammer f).errs = s.errs := rfl
@[simp] theorem State.onHammer_transit (f : Hammer → Hammer) : (s.onHammer f).transit = s.transit := rfl
@[simp] theorem State.onHammer_wb (f : Hammer → Hammer) : (s.onHammer f).wb = s.wb := rfl
@[simp] theorem State.onHammer_now (f : Hammer → Hammer) : (s.onHammer f).now = s.now := rfl
@[simp] theorem State.onHammer_free (f : Hammer → Hammer) : (s.onHammer f).free = s.free := rfl
@[simp] theorem State.onHammer_anvils (f : Hammer → Hammer) : (s.onHammer f).anvils = s.anvils := rfl
@[simp] theorem State.onHammer_xq (f : Hammer → Hammer) : (s.onHammer f).xq = s.xq := rfl
@[simp] theorem State.onHammer_crucs (f : Hammer → Hammer) : (s.onHammer f).crucs = s.crucs := rfl
@[simp] theorem State.onHammer_tongs (f : Hammer → Hammer) : (s.onHammer f).tongs = s.tongs := rfl
@[simp] theorem State.onHammer_jobs (f : Hammer → Hammer) : (s.onHammer f).jobs = s.jobs := rfl
@[simp] theorem State.onHammer_ueTimes (f : Hammer → Hammer) : (s.onHammer f).ueTimes = s.ueTimes := rfl
@[simp] theorem State.onHammer_holds (f : Hammer → Hammer) : (s.onHammer f).holds = s.holds := rfl
@[simp] theorem State.onHammer_fenceReq (f : Hammer → Hammer) : (s.onHammer f).fenceReq = s.fenceReq := rfl
@[simp] theorem State.onHammer_evrec (f : Hammer → Hammer) : (s.onHammer f).evrec = s.evrec := rfl
@[simp] theorem State.onHammer_srcs (f : Hammer → Hammer) : (s.onHammer f).srcs = s.srcs := rfl
@[simp] theorem State.onHammer_grps (f : Hammer → Hammer) : (s.onHammer f).grps = s.grps := rfl
@[simp] theorem State.onHammer_cores (f : Hammer → Hammer) : (s.onHammer f).cores = s.cores := rfl
@[simp] theorem State.onHammer_temper (f : Hammer → Hammer) : (s.onHammer f).temper = s.temper := rfl
@[simp] theorem State.onHammer_core (f : Hammer → Hammer) : (s.onHammer f).core = s.core := rfl
@[simp] theorem State.onHammer_mclk (f : Hammer → Hammer) : (s.onHammer f).mclk = s.mclk := rfl
@[simp] theorem State.onHammer_trace (f : Hammer → Hammer) : (s.onHammer f).trace = s.trace := rfl
@[simp] theorem State.onHammer_snapReq (f : Hammer → Hammer) : (s.onHammer f).snapReq = s.snapReq := rfl
@[simp] theorem State.onHammer_shadow (f : Hammer → Hammer) : (s.onHammer f).shadow = s.shadow := rfl
@[simp] theorem State.onHammer_cool (f : Hammer → Hammer) : (s.onHammer f).cool = s.cool := rfl
@[simp] theorem State.onHammer_quench (f : Hammer → Hammer) : (s.onHammer f).quench = s.quench := rfl
@[simp] theorem State.onHammer_tuyere (f : Hammer → Hammer) : (s.onHammer f).tuyere = s.tuyere := rfl
@[simp] theorem State.onHammer_can (f : Hammer → Hammer) : (s.onHammer f).can = s.can := rfl
@[simp] theorem State.onHammer_mgmt (f : Hammer → Hammer) : (s.onHammer f).mgmt = s.mgmt := rfl
@[simp] theorem State.onHammer_pwr (f : Hammer → Hammer) : (s.onHammer f).pwr = s.pwr := rfl
@[simp] theorem State.onHammer_secb (f : Hammer → Hammer) : (s.onHammer f).secb = s.secb := rfl
@[simp] theorem State.onHammer_jtag (f : Hammer → Hammer) : (s.onHammer f).jtag = s.jtag := rfl
@[simp] theorem State.onHammer_pending (f : Hammer → Hammer) : (s.onHammer f).pending = s.pending := rfl

/-! ### `State.setXq` -/

theorem State.setXq_xq (h : Nat) (q : List XOp) : (s.setXq h q).xq = Tab.set (fun _ => []) s.xq h q := rfl
@[simp] theorem State.setXq_csr (h : Nat) (q : List XOp) : (s.setXq h q).csr = s.csr := rfl
@[simp] theorem State.setXq_mem (h : Nat) (q : List XOp) : (s.setXq h q).mem = s.mem := rfl
@[simp] theorem State.setXq_errs (h : Nat) (q : List XOp) : (s.setXq h q).errs = s.errs := rfl
@[simp] theorem State.setXq_transit (h : Nat) (q : List XOp) : (s.setXq h q).transit = s.transit := rfl
@[simp] theorem State.setXq_wb (h : Nat) (q : List XOp) : (s.setXq h q).wb = s.wb := rfl
@[simp] theorem State.setXq_now (h : Nat) (q : List XOp) : (s.setXq h q).now = s.now := rfl
@[simp] theorem State.setXq_free (h : Nat) (q : List XOp) : (s.setXq h q).free = s.free := rfl
@[simp] theorem State.setXq_hammer (h : Nat) (q : List XOp) : (s.setXq h q).hammer = s.hammer := rfl
@[simp] theorem State.setXq_anvils (h : Nat) (q : List XOp) : (s.setXq h q).anvils = s.anvils := rfl
@[simp] theorem State.setXq_crucs (h : Nat) (q : List XOp) : (s.setXq h q).crucs = s.crucs := rfl
@[simp] theorem State.setXq_tongs (h : Nat) (q : List XOp) : (s.setXq h q).tongs = s.tongs := rfl
@[simp] theorem State.setXq_jobs (h : Nat) (q : List XOp) : (s.setXq h q).jobs = s.jobs := rfl
@[simp] theorem State.setXq_ueTimes (h : Nat) (q : List XOp) : (s.setXq h q).ueTimes = s.ueTimes := rfl
@[simp] theorem State.setXq_holds (h : Nat) (q : List XOp) : (s.setXq h q).holds = s.holds := rfl
@[simp] theorem State.setXq_fenceReq (h : Nat) (q : List XOp) : (s.setXq h q).fenceReq = s.fenceReq := rfl
@[simp] theorem State.setXq_evrec (h : Nat) (q : List XOp) : (s.setXq h q).evrec = s.evrec := rfl
@[simp] theorem State.setXq_srcs (h : Nat) (q : List XOp) : (s.setXq h q).srcs = s.srcs := rfl
@[simp] theorem State.setXq_grps (h : Nat) (q : List XOp) : (s.setXq h q).grps = s.grps := rfl
@[simp] theorem State.setXq_cores (h : Nat) (q : List XOp) : (s.setXq h q).cores = s.cores := rfl
@[simp] theorem State.setXq_temper (h : Nat) (q : List XOp) : (s.setXq h q).temper = s.temper := rfl
@[simp] theorem State.setXq_core (h : Nat) (q : List XOp) : (s.setXq h q).core = s.core := rfl
@[simp] theorem State.setXq_mclk (h : Nat) (q : List XOp) : (s.setXq h q).mclk = s.mclk := rfl
@[simp] theorem State.setXq_trace (h : Nat) (q : List XOp) : (s.setXq h q).trace = s.trace := rfl
@[simp] theorem State.setXq_snapReq (h : Nat) (q : List XOp) : (s.setXq h q).snapReq = s.snapReq := rfl
@[simp] theorem State.setXq_shadow (h : Nat) (q : List XOp) : (s.setXq h q).shadow = s.shadow := rfl
@[simp] theorem State.setXq_cool (h : Nat) (q : List XOp) : (s.setXq h q).cool = s.cool := rfl
@[simp] theorem State.setXq_quench (h : Nat) (q : List XOp) : (s.setXq h q).quench = s.quench := rfl
@[simp] theorem State.setXq_tuyere (h : Nat) (q : List XOp) : (s.setXq h q).tuyere = s.tuyere := rfl
@[simp] theorem State.setXq_can (h : Nat) (q : List XOp) : (s.setXq h q).can = s.can := rfl
@[simp] theorem State.setXq_mgmt (h : Nat) (q : List XOp) : (s.setXq h q).mgmt = s.mgmt := rfl
@[simp] theorem State.setXq_pwr (h : Nat) (q : List XOp) : (s.setXq h q).pwr = s.pwr := rfl
@[simp] theorem State.setXq_secb (h : Nat) (q : List XOp) : (s.setXq h q).secb = s.secb := rfl
@[simp] theorem State.setXq_jtag (h : Nat) (q : List XOp) : (s.setXq h q).jtag = s.jtag := rfl
@[simp] theorem State.setXq_pending (h : Nat) (q : List XOp) : (s.setXq h q).pending = s.pending := rfl

/-! ### `State.setLoop` -/

theorem State.setLoop_quench (n : Nat) (x : QLoop) : (s.setLoop n x).quench = { s.quench with loops := Tab.set (fun _ => QLoop.off) s.quench.loops n x } := rfl
@[simp] theorem State.setLoop_csr (n : Nat) (x : QLoop) : (s.setLoop n x).csr = s.csr := rfl
@[simp] theorem State.setLoop_mem (n : Nat) (x : QLoop) : (s.setLoop n x).mem = s.mem := rfl
@[simp] theorem State.setLoop_errs (n : Nat) (x : QLoop) : (s.setLoop n x).errs = s.errs := rfl
@[simp] theorem State.setLoop_transit (n : Nat) (x : QLoop) : (s.setLoop n x).transit = s.transit := rfl
@[simp] theorem State.setLoop_wb (n : Nat) (x : QLoop) : (s.setLoop n x).wb = s.wb := rfl
@[simp] theorem State.setLoop_now (n : Nat) (x : QLoop) : (s.setLoop n x).now = s.now := rfl
@[simp] theorem State.setLoop_free (n : Nat) (x : QLoop) : (s.setLoop n x).free = s.free := rfl
@[simp] theorem State.setLoop_hammer (n : Nat) (x : QLoop) : (s.setLoop n x).hammer = s.hammer := rfl
@[simp] theorem State.setLoop_anvils (n : Nat) (x : QLoop) : (s.setLoop n x).anvils = s.anvils := rfl
@[simp] theorem State.setLoop_xq (n : Nat) (x : QLoop) : (s.setLoop n x).xq = s.xq := rfl
@[simp] theorem State.setLoop_crucs (n : Nat) (x : QLoop) : (s.setLoop n x).crucs = s.crucs := rfl
@[simp] theorem State.setLoop_tongs (n : Nat) (x : QLoop) : (s.setLoop n x).tongs = s.tongs := rfl
@[simp] theorem State.setLoop_jobs (n : Nat) (x : QLoop) : (s.setLoop n x).jobs = s.jobs := rfl
@[simp] theorem State.setLoop_ueTimes (n : Nat) (x : QLoop) : (s.setLoop n x).ueTimes = s.ueTimes := rfl
@[simp] theorem State.setLoop_holds (n : Nat) (x : QLoop) : (s.setLoop n x).holds = s.holds := rfl
@[simp] theorem State.setLoop_fenceReq (n : Nat) (x : QLoop) : (s.setLoop n x).fenceReq = s.fenceReq := rfl
@[simp] theorem State.setLoop_evrec (n : Nat) (x : QLoop) : (s.setLoop n x).evrec = s.evrec := rfl
@[simp] theorem State.setLoop_srcs (n : Nat) (x : QLoop) : (s.setLoop n x).srcs = s.srcs := rfl
@[simp] theorem State.setLoop_grps (n : Nat) (x : QLoop) : (s.setLoop n x).grps = s.grps := rfl
@[simp] theorem State.setLoop_cores (n : Nat) (x : QLoop) : (s.setLoop n x).cores = s.cores := rfl
@[simp] theorem State.setLoop_temper (n : Nat) (x : QLoop) : (s.setLoop n x).temper = s.temper := rfl
@[simp] theorem State.setLoop_core (n : Nat) (x : QLoop) : (s.setLoop n x).core = s.core := rfl
@[simp] theorem State.setLoop_mclk (n : Nat) (x : QLoop) : (s.setLoop n x).mclk = s.mclk := rfl
@[simp] theorem State.setLoop_trace (n : Nat) (x : QLoop) : (s.setLoop n x).trace = s.trace := rfl
@[simp] theorem State.setLoop_snapReq (n : Nat) (x : QLoop) : (s.setLoop n x).snapReq = s.snapReq := rfl
@[simp] theorem State.setLoop_shadow (n : Nat) (x : QLoop) : (s.setLoop n x).shadow = s.shadow := rfl
@[simp] theorem State.setLoop_cool (n : Nat) (x : QLoop) : (s.setLoop n x).cool = s.cool := rfl
@[simp] theorem State.setLoop_tuyere (n : Nat) (x : QLoop) : (s.setLoop n x).tuyere = s.tuyere := rfl
@[simp] theorem State.setLoop_can (n : Nat) (x : QLoop) : (s.setLoop n x).can = s.can := rfl
@[simp] theorem State.setLoop_mgmt (n : Nat) (x : QLoop) : (s.setLoop n x).mgmt = s.mgmt := rfl
@[simp] theorem State.setLoop_pwr (n : Nat) (x : QLoop) : (s.setLoop n x).pwr = s.pwr := rfl
@[simp] theorem State.setLoop_secb (n : Nat) (x : QLoop) : (s.setLoop n x).secb = s.secb := rfl
@[simp] theorem State.setLoop_jtag (n : Nat) (x : QLoop) : (s.setLoop n x).jtag = s.jtag := rfl
@[simp] theorem State.setLoop_pending (n : Nat) (x : QLoop) : (s.setLoop n x).pending = s.pending := rfl

/-! ### `State.setValve` -/

theorem State.setValve_tuyere (c : Nat) (v : Valve) : (s.setValve c v).tuyere = { s.tuyere with valves := Tab.set (fun _ => Valve.reset) s.tuyere.valves c v } := rfl
@[simp] theorem State.setValve_csr (c : Nat) (v : Valve) : (s.setValve c v).csr = s.csr := rfl
@[simp] theorem State.setValve_mem (c : Nat) (v : Valve) : (s.setValve c v).mem = s.mem := rfl
@[simp] theorem State.setValve_errs (c : Nat) (v : Valve) : (s.setValve c v).errs = s.errs := rfl
@[simp] theorem State.setValve_transit (c : Nat) (v : Valve) : (s.setValve c v).transit = s.transit := rfl
@[simp] theorem State.setValve_wb (c : Nat) (v : Valve) : (s.setValve c v).wb = s.wb := rfl
@[simp] theorem State.setValve_now (c : Nat) (v : Valve) : (s.setValve c v).now = s.now := rfl
@[simp] theorem State.setValve_free (c : Nat) (v : Valve) : (s.setValve c v).free = s.free := rfl
@[simp] theorem State.setValve_hammer (c : Nat) (v : Valve) : (s.setValve c v).hammer = s.hammer := rfl
@[simp] theorem State.setValve_anvils (c : Nat) (v : Valve) : (s.setValve c v).anvils = s.anvils := rfl
@[simp] theorem State.setValve_xq (c : Nat) (v : Valve) : (s.setValve c v).xq = s.xq := rfl
@[simp] theorem State.setValve_crucs (c : Nat) (v : Valve) : (s.setValve c v).crucs = s.crucs := rfl
@[simp] theorem State.setValve_tongs (c : Nat) (v : Valve) : (s.setValve c v).tongs = s.tongs := rfl
@[simp] theorem State.setValve_jobs (c : Nat) (v : Valve) : (s.setValve c v).jobs = s.jobs := rfl
@[simp] theorem State.setValve_ueTimes (c : Nat) (v : Valve) : (s.setValve c v).ueTimes = s.ueTimes := rfl
@[simp] theorem State.setValve_holds (c : Nat) (v : Valve) : (s.setValve c v).holds = s.holds := rfl
@[simp] theorem State.setValve_fenceReq (c : Nat) (v : Valve) : (s.setValve c v).fenceReq = s.fenceReq := rfl
@[simp] theorem State.setValve_evrec (c : Nat) (v : Valve) : (s.setValve c v).evrec = s.evrec := rfl
@[simp] theorem State.setValve_srcs (c : Nat) (v : Valve) : (s.setValve c v).srcs = s.srcs := rfl
@[simp] theorem State.setValve_grps (c : Nat) (v : Valve) : (s.setValve c v).grps = s.grps := rfl
@[simp] theorem State.setValve_cores (c : Nat) (v : Valve) : (s.setValve c v).cores = s.cores := rfl
@[simp] theorem State.setValve_temper (c : Nat) (v : Valve) : (s.setValve c v).temper = s.temper := rfl
@[simp] theorem State.setValve_core (c : Nat) (v : Valve) : (s.setValve c v).core = s.core := rfl
@[simp] theorem State.setValve_mclk (c : Nat) (v : Valve) : (s.setValve c v).mclk = s.mclk := rfl
@[simp] theorem State.setValve_trace (c : Nat) (v : Valve) : (s.setValve c v).trace = s.trace := rfl
@[simp] theorem State.setValve_snapReq (c : Nat) (v : Valve) : (s.setValve c v).snapReq = s.snapReq := rfl
@[simp] theorem State.setValve_shadow (c : Nat) (v : Valve) : (s.setValve c v).shadow = s.shadow := rfl
@[simp] theorem State.setValve_cool (c : Nat) (v : Valve) : (s.setValve c v).cool = s.cool := rfl
@[simp] theorem State.setValve_quench (c : Nat) (v : Valve) : (s.setValve c v).quench = s.quench := rfl
@[simp] theorem State.setValve_can (c : Nat) (v : Valve) : (s.setValve c v).can = s.can := rfl
@[simp] theorem State.setValve_mgmt (c : Nat) (v : Valve) : (s.setValve c v).mgmt = s.mgmt := rfl
@[simp] theorem State.setValve_pwr (c : Nat) (v : Valve) : (s.setValve c v).pwr = s.pwr := rfl
@[simp] theorem State.setValve_secb (c : Nat) (v : Valve) : (s.setValve c v).secb = s.secb := rfl
@[simp] theorem State.setValve_jtag (c : Nat) (v : Valve) : (s.setValve c v).jtag = s.jtag := rfl
@[simp] theorem State.setValve_pending (c : Nat) (v : Valve) : (s.setValve c v).pending = s.pending := rfl

/-! ### `State.setHolder` -/

theorem State.setHolder_tuyere (b : Nat) (c : Option Nat) : (s.setHolder b c).tuyere = { s.tuyere with holder := Tab.set (fun _ => none) s.tuyere.holder b c } := rfl
@[simp] theorem State.setHolder_csr (b : Nat) (c : Option Nat) : (s.setHolder b c).csr = s.csr := rfl
@[simp] theorem State.setHolder_mem (b : Nat) (c : Option Nat) : (s.setHolder b c).mem = s.mem := rfl
@[simp] theorem State.setHolder_errs (b : Nat) (c : Option Nat) : (s.setHolder b c).errs = s.errs := rfl
@[simp] theorem State.setHolder_transit (b : Nat) (c : Option Nat) : (s.setHolder b c).transit = s.transit := rfl
@[simp] theorem State.setHolder_wb (b : Nat) (c : Option Nat) : (s.setHolder b c).wb = s.wb := rfl
@[simp] theorem State.setHolder_now (b : Nat) (c : Option Nat) : (s.setHolder b c).now = s.now := rfl
@[simp] theorem State.setHolder_free (b : Nat) (c : Option Nat) : (s.setHolder b c).free = s.free := rfl
@[simp] theorem State.setHolder_hammer (b : Nat) (c : Option Nat) : (s.setHolder b c).hammer = s.hammer := rfl
@[simp] theorem State.setHolder_anvils (b : Nat) (c : Option Nat) : (s.setHolder b c).anvils = s.anvils := rfl
@[simp] theorem State.setHolder_xq (b : Nat) (c : Option Nat) : (s.setHolder b c).xq = s.xq := rfl
@[simp] theorem State.setHolder_crucs (b : Nat) (c : Option Nat) : (s.setHolder b c).crucs = s.crucs := rfl
@[simp] theorem State.setHolder_tongs (b : Nat) (c : Option Nat) : (s.setHolder b c).tongs = s.tongs := rfl
@[simp] theorem State.setHolder_jobs (b : Nat) (c : Option Nat) : (s.setHolder b c).jobs = s.jobs := rfl
@[simp] theorem State.setHolder_ueTimes (b : Nat) (c : Option Nat) : (s.setHolder b c).ueTimes = s.ueTimes := rfl
@[simp] theorem State.setHolder_holds (b : Nat) (c : Option Nat) : (s.setHolder b c).holds = s.holds := rfl
@[simp] theorem State.setHolder_fenceReq (b : Nat) (c : Option Nat) : (s.setHolder b c).fenceReq = s.fenceReq := rfl
@[simp] theorem State.setHolder_evrec (b : Nat) (c : Option Nat) : (s.setHolder b c).evrec = s.evrec := rfl
@[simp] theorem State.setHolder_srcs (b : Nat) (c : Option Nat) : (s.setHolder b c).srcs = s.srcs := rfl
@[simp] theorem State.setHolder_grps (b : Nat) (c : Option Nat) : (s.setHolder b c).grps = s.grps := rfl
@[simp] theorem State.setHolder_cores (b : Nat) (c : Option Nat) : (s.setHolder b c).cores = s.cores := rfl
@[simp] theorem State.setHolder_temper (b : Nat) (c : Option Nat) : (s.setHolder b c).temper = s.temper := rfl
@[simp] theorem State.setHolder_core (b : Nat) (c : Option Nat) : (s.setHolder b c).core = s.core := rfl
@[simp] theorem State.setHolder_mclk (b : Nat) (c : Option Nat) : (s.setHolder b c).mclk = s.mclk := rfl
@[simp] theorem State.setHolder_trace (b : Nat) (c : Option Nat) : (s.setHolder b c).trace = s.trace := rfl
@[simp] theorem State.setHolder_snapReq (b : Nat) (c : Option Nat) : (s.setHolder b c).snapReq = s.snapReq := rfl
@[simp] theorem State.setHolder_shadow (b : Nat) (c : Option Nat) : (s.setHolder b c).shadow = s.shadow := rfl
@[simp] theorem State.setHolder_cool (b : Nat) (c : Option Nat) : (s.setHolder b c).cool = s.cool := rfl
@[simp] theorem State.setHolder_quench (b : Nat) (c : Option Nat) : (s.setHolder b c).quench = s.quench := rfl
@[simp] theorem State.setHolder_can (b : Nat) (c : Option Nat) : (s.setHolder b c).can = s.can := rfl
@[simp] theorem State.setHolder_mgmt (b : Nat) (c : Option Nat) : (s.setHolder b c).mgmt = s.mgmt := rfl
@[simp] theorem State.setHolder_pwr (b : Nat) (c : Option Nat) : (s.setHolder b c).pwr = s.pwr := rfl
@[simp] theorem State.setHolder_secb (b : Nat) (c : Option Nat) : (s.setHolder b c).secb = s.secb := rfl
@[simp] theorem State.setHolder_jtag (b : Nat) (c : Option Nat) : (s.setHolder b c).jtag = s.jtag := rfl
@[simp] theorem State.setHolder_pending (b : Nat) (c : Option Nat) : (s.setHolder b c).pending = s.pending := rfl

/-! ### `State.setPeer` -/

theorem State.setPeer_cool (k : Nat) (p : Peer) : (s.setPeer k p).cool = { s.cool with peers := Tab.set (fun _ => Peer.none) s.cool.peers k p } := rfl
@[simp] theorem State.setPeer_csr (k : Nat) (p : Peer) : (s.setPeer k p).csr = s.csr := rfl
@[simp] theorem State.setPeer_mem (k : Nat) (p : Peer) : (s.setPeer k p).mem = s.mem := rfl
@[simp] theorem State.setPeer_errs (k : Nat) (p : Peer) : (s.setPeer k p).errs = s.errs := rfl
@[simp] theorem State.setPeer_transit (k : Nat) (p : Peer) : (s.setPeer k p).transit = s.transit := rfl
@[simp] theorem State.setPeer_wb (k : Nat) (p : Peer) : (s.setPeer k p).wb = s.wb := rfl
@[simp] theorem State.setPeer_now (k : Nat) (p : Peer) : (s.setPeer k p).now = s.now := rfl
@[simp] theorem State.setPeer_free (k : Nat) (p : Peer) : (s.setPeer k p).free = s.free := rfl
@[simp] theorem State.setPeer_hammer (k : Nat) (p : Peer) : (s.setPeer k p).hammer = s.hammer := rfl
@[simp] theorem State.setPeer_anvils (k : Nat) (p : Peer) : (s.setPeer k p).anvils = s.anvils := rfl
@[simp] theorem State.setPeer_xq (k : Nat) (p : Peer) : (s.setPeer k p).xq = s.xq := rfl
@[simp] theorem State.setPeer_crucs (k : Nat) (p : Peer) : (s.setPeer k p).crucs = s.crucs := rfl
@[simp] theorem State.setPeer_tongs (k : Nat) (p : Peer) : (s.setPeer k p).tongs = s.tongs := rfl
@[simp] theorem State.setPeer_jobs (k : Nat) (p : Peer) : (s.setPeer k p).jobs = s.jobs := rfl
@[simp] theorem State.setPeer_ueTimes (k : Nat) (p : Peer) : (s.setPeer k p).ueTimes = s.ueTimes := rfl
@[simp] theorem State.setPeer_holds (k : Nat) (p : Peer) : (s.setPeer k p).holds = s.holds := rfl
@[simp] theorem State.setPeer_fenceReq (k : Nat) (p : Peer) : (s.setPeer k p).fenceReq = s.fenceReq := rfl
@[simp] theorem State.setPeer_evrec (k : Nat) (p : Peer) : (s.setPeer k p).evrec = s.evrec := rfl
@[simp] theorem State.setPeer_srcs (k : Nat) (p : Peer) : (s.setPeer k p).srcs = s.srcs := rfl
@[simp] theorem State.setPeer_grps (k : Nat) (p : Peer) : (s.setPeer k p).grps = s.grps := rfl
@[simp] theorem State.setPeer_cores (k : Nat) (p : Peer) : (s.setPeer k p).cores = s.cores := rfl
@[simp] theorem State.setPeer_temper (k : Nat) (p : Peer) : (s.setPeer k p).temper = s.temper := rfl
@[simp] theorem State.setPeer_core (k : Nat) (p : Peer) : (s.setPeer k p).core = s.core := rfl
@[simp] theorem State.setPeer_mclk (k : Nat) (p : Peer) : (s.setPeer k p).mclk = s.mclk := rfl
@[simp] theorem State.setPeer_trace (k : Nat) (p : Peer) : (s.setPeer k p).trace = s.trace := rfl
@[simp] theorem State.setPeer_snapReq (k : Nat) (p : Peer) : (s.setPeer k p).snapReq = s.snapReq := rfl
@[simp] theorem State.setPeer_shadow (k : Nat) (p : Peer) : (s.setPeer k p).shadow = s.shadow := rfl
@[simp] theorem State.setPeer_quench (k : Nat) (p : Peer) : (s.setPeer k p).quench = s.quench := rfl
@[simp] theorem State.setPeer_tuyere (k : Nat) (p : Peer) : (s.setPeer k p).tuyere = s.tuyere := rfl
@[simp] theorem State.setPeer_can (k : Nat) (p : Peer) : (s.setPeer k p).can = s.can := rfl
@[simp] theorem State.setPeer_mgmt (k : Nat) (p : Peer) : (s.setPeer k p).mgmt = s.mgmt := rfl
@[simp] theorem State.setPeer_pwr (k : Nat) (p : Peer) : (s.setPeer k p).pwr = s.pwr := rfl
@[simp] theorem State.setPeer_secb (k : Nat) (p : Peer) : (s.setPeer k p).secb = s.secb := rfl
@[simp] theorem State.setPeer_jtag (k : Nat) (p : Peer) : (s.setPeer k p).jtag = s.jtag := rfl
@[simp] theorem State.setPeer_pending (k : Nat) (p : Peer) : (s.setPeer k p).pending = s.pending := rfl

/-! ### `State.setRec` -/

theorem State.setRec_temper (k : Nat) (r : Rec) : (s.setRec k r).temper = { s.temper with recs := Tab.set (fun _ => Rec.none) s.temper.recs k r } := rfl
@[simp] theorem State.setRec_csr (k : Nat) (r : Rec) : (s.setRec k r).csr = s.csr := rfl
@[simp] theorem State.setRec_mem (k : Nat) (r : Rec) : (s.setRec k r).mem = s.mem := rfl
@[simp] theorem State.setRec_errs (k : Nat) (r : Rec) : (s.setRec k r).errs = s.errs := rfl
@[simp] theorem State.setRec_transit (k : Nat) (r : Rec) : (s.setRec k r).transit = s.transit := rfl
@[simp] theorem State.setRec_wb (k : Nat) (r : Rec) : (s.setRec k r).wb = s.wb := rfl
@[simp] theorem State.setRec_now (k : Nat) (r : Rec) : (s.setRec k r).now = s.now := rfl
@[simp] theorem State.setRec_free (k : Nat) (r : Rec) : (s.setRec k r).free = s.free := rfl
@[simp] theorem State.setRec_hammer (k : Nat) (r : Rec) : (s.setRec k r).hammer = s.hammer := rfl
@[simp] theorem State.setRec_anvils (k : Nat) (r : Rec) : (s.setRec k r).anvils = s.anvils := rfl
@[simp] theorem State.setRec_xq (k : Nat) (r : Rec) : (s.setRec k r).xq = s.xq := rfl
@[simp] theorem State.setRec_crucs (k : Nat) (r : Rec) : (s.setRec k r).crucs = s.crucs := rfl
@[simp] theorem State.setRec_tongs (k : Nat) (r : Rec) : (s.setRec k r).tongs = s.tongs := rfl
@[simp] theorem State.setRec_jobs (k : Nat) (r : Rec) : (s.setRec k r).jobs = s.jobs := rfl
@[simp] theorem State.setRec_ueTimes (k : Nat) (r : Rec) : (s.setRec k r).ueTimes = s.ueTimes := rfl
@[simp] theorem State.setRec_holds (k : Nat) (r : Rec) : (s.setRec k r).holds = s.holds := rfl
@[simp] theorem State.setRec_fenceReq (k : Nat) (r : Rec) : (s.setRec k r).fenceReq = s.fenceReq := rfl
@[simp] theorem State.setRec_evrec (k : Nat) (r : Rec) : (s.setRec k r).evrec = s.evrec := rfl
@[simp] theorem State.setRec_srcs (k : Nat) (r : Rec) : (s.setRec k r).srcs = s.srcs := rfl
@[simp] theorem State.setRec_grps (k : Nat) (r : Rec) : (s.setRec k r).grps = s.grps := rfl
@[simp] theorem State.setRec_cores (k : Nat) (r : Rec) : (s.setRec k r).cores = s.cores := rfl
@[simp] theorem State.setRec_core (k : Nat) (r : Rec) : (s.setRec k r).core = s.core := rfl
@[simp] theorem State.setRec_mclk (k : Nat) (r : Rec) : (s.setRec k r).mclk = s.mclk := rfl
@[simp] theorem State.setRec_trace (k : Nat) (r : Rec) : (s.setRec k r).trace = s.trace := rfl
@[simp] theorem State.setRec_snapReq (k : Nat) (r : Rec) : (s.setRec k r).snapReq = s.snapReq := rfl
@[simp] theorem State.setRec_shadow (k : Nat) (r : Rec) : (s.setRec k r).shadow = s.shadow := rfl
@[simp] theorem State.setRec_cool (k : Nat) (r : Rec) : (s.setRec k r).cool = s.cool := rfl
@[simp] theorem State.setRec_quench (k : Nat) (r : Rec) : (s.setRec k r).quench = s.quench := rfl
@[simp] theorem State.setRec_tuyere (k : Nat) (r : Rec) : (s.setRec k r).tuyere = s.tuyere := rfl
@[simp] theorem State.setRec_can (k : Nat) (r : Rec) : (s.setRec k r).can = s.can := rfl
@[simp] theorem State.setRec_mgmt (k : Nat) (r : Rec) : (s.setRec k r).mgmt = s.mgmt := rfl
@[simp] theorem State.setRec_pwr (k : Nat) (r : Rec) : (s.setRec k r).pwr = s.pwr := rfl
@[simp] theorem State.setRec_secb (k : Nat) (r : Rec) : (s.setRec k r).secb = s.secb := rfl
@[simp] theorem State.setRec_jtag (k : Nat) (r : Rec) : (s.setRec k r).jtag = s.jtag := rfl
@[simp] theorem State.setRec_pending (k : Nat) (r : Rec) : (s.setRec k r).pending = s.pending := rfl

/-! ### `State.reply` -/

theorem State.reply_mgmt (r : Reply) : (s.reply r).mgmt = { s.mgmt with wire := s.mgmt.wire ++ [{ r with vid := s.mgmtVid }] } := rfl
@[simp] theorem State.reply_csr (r : Reply) : (s.reply r).csr = s.csr := rfl
@[simp] theorem State.reply_mem (r : Reply) : (s.reply r).mem = s.mem := rfl
@[simp] theorem State.reply_errs (r : Reply) : (s.reply r).errs = s.errs := rfl
@[simp] theorem State.reply_transit (r : Reply) : (s.reply r).transit = s.transit := rfl
@[simp] theorem State.reply_wb (r : Reply) : (s.reply r).wb = s.wb := rfl
@[simp] theorem State.reply_now (r : Reply) : (s.reply r).now = s.now := rfl
@[simp] theorem State.reply_free (r : Reply) : (s.reply r).free = s.free := rfl
@[simp] theorem State.reply_hammer (r : Reply) : (s.reply r).hammer = s.hammer := rfl
@[simp] theorem State.reply_anvils (r : Reply) : (s.reply r).anvils = s.anvils := rfl
@[simp] theorem State.reply_xq (r : Reply) : (s.reply r).xq = s.xq := rfl
@[simp] theorem State.reply_crucs (r : Reply) : (s.reply r).crucs = s.crucs := rfl
@[simp] theorem State.reply_tongs (r : Reply) : (s.reply r).tongs = s.tongs := rfl
@[simp] theorem State.reply_jobs (r : Reply) : (s.reply r).jobs = s.jobs := rfl
@[simp] theorem State.reply_ueTimes (r : Reply) : (s.reply r).ueTimes = s.ueTimes := rfl
@[simp] theorem State.reply_holds (r : Reply) : (s.reply r).holds = s.holds := rfl
@[simp] theorem State.reply_fenceReq (r : Reply) : (s.reply r).fenceReq = s.fenceReq := rfl
@[simp] theorem State.reply_evrec (r : Reply) : (s.reply r).evrec = s.evrec := rfl
@[simp] theorem State.reply_srcs (r : Reply) : (s.reply r).srcs = s.srcs := rfl
@[simp] theorem State.reply_grps (r : Reply) : (s.reply r).grps = s.grps := rfl
@[simp] theorem State.reply_cores (r : Reply) : (s.reply r).cores = s.cores := rfl
@[simp] theorem State.reply_temper (r : Reply) : (s.reply r).temper = s.temper := rfl
@[simp] theorem State.reply_core (r : Reply) : (s.reply r).core = s.core := rfl
@[simp] theorem State.reply_mclk (r : Reply) : (s.reply r).mclk = s.mclk := rfl
@[simp] theorem State.reply_trace (r : Reply) : (s.reply r).trace = s.trace := rfl
@[simp] theorem State.reply_snapReq (r : Reply) : (s.reply r).snapReq = s.snapReq := rfl
@[simp] theorem State.reply_shadow (r : Reply) : (s.reply r).shadow = s.shadow := rfl
@[simp] theorem State.reply_cool (r : Reply) : (s.reply r).cool = s.cool := rfl
@[simp] theorem State.reply_quench (r : Reply) : (s.reply r).quench = s.quench := rfl
@[simp] theorem State.reply_tuyere (r : Reply) : (s.reply r).tuyere = s.tuyere := rfl
@[simp] theorem State.reply_can (r : Reply) : (s.reply r).can = s.can := rfl
@[simp] theorem State.reply_pwr (r : Reply) : (s.reply r).pwr = s.pwr := rfl
@[simp] theorem State.reply_secb (r : Reply) : (s.reply r).secb = s.secb := rfl
@[simp] theorem State.reply_jtag (r : Reply) : (s.reply r).jtag = s.jtag := rfl
@[simp] theorem State.reply_pending (r : Reply) : (s.reply r).pending = s.pending := rfl

end Sys2Proof.Machine
end

