-- ==== Sys2Proof/Laws/Memory.lean ====
section
/-! SUPPORT. Every operation that changes the memory keeps its canonical form, and what it leaves at each address. -/

namespace Sys2Proof.Machine

theorem State.memOk_setByte (s : State) (a : Nat) (b : Byte) (h : s.memOk = true) : (s.setByte a b).memOk = true :=
  Tab.wf_set _ _ _ _ h

theorem State.memOk_setBytes (l : List Byte) (s : State) (a : Nat) (h : s.memOk = true) : (s.setBytes a l).memOk = true := by
  induction l generalizing s a with
  | nil => exact h
  | cons b r ih => exact ih _ _ (s.memOk_setByte a b h)

theorem State.memOk_clearErrs (s : State) (a n : Nat) (h : s.memOk = true) : (s.clearErrs a n).memOk = true := h

theorem State.memOk_writeBytes (s : State) (a : Nat) (l : List Byte) (h : s.memOk = true) : (s.writeBytes a l).memOk = true :=
  State.memOk_setBytes l s a h

theorem State.memOk_writeN (s : State) (a n v : Nat) (h : s.memOk = true) : (s.writeN a n v).memOk = true :=
  s.memOk_writeBytes a _ h

theorem State.memOk_clearMem (s : State) (a n : Nat) (h : s.memOk = true) : (s.clearMem a n).memOk = true :=
  Tab.wf_filter _ _ _ h

theorem State.memOk_memReset (s : State) (keep : Bool) (h : s.memOk = true) : (s.memReset keep).memOk = true :=
  Tab.wf_filter _ _ _ h

/-- An update that leaves the memory alone keeps its form. -/
theorem State.memOk_of_mem {s t : State} (e : t.mem = s.mem) (h : s.memOk = true) : t.memOk = true := by
  unfold State.memOk; rw [e]; exact h

/-- So does a fold of updates that each keep it. -/
theorem State.memOk_foldl {α : Type} (f : State → α → State) (l : List α)
    (hf : ∀ s : State, ∀ x ∈ l, s.memOk = true → (f s x).memOk = true) (s : State) (h : s.memOk = true) :
    (l.foldl f s).memOk = true := by
  induction l generalizing s with
  | nil => exact h
  | cons x r ih => exact ih (fun s y hy => hf s y (by simp [hy])) _ (hf s x (by simp) h)

theorem State.memOk_reset : State.reset.memOk = true := rfl

/-- The byte just written. -/
theorem State.byte_setByte_self (s : State) (a : Nat) (b : Byte) : (s.setByte a b).byte a = b := Tab.get_set_self _ _ _ _

/-- Every other byte. -/
theorem State.byte_setByte_ne (s : State) {a c : Nat} (b : Byte) (h : phys c ≠ phys a) : (s.setByte a b).byte c = s.byte c :=
  Tab.get_set_ne _ _ _ h

/-- A byte outside a run of bytes written. -/
theorem State.byte_setBytes_ne (l : List Byte) (s : State) (a c : Nat) (h : ∀ i, i < l.length → phys c ≠ phys (a + i)) :
    (s.setBytes a l).byte c = s.byte c := by
  induction l generalizing s a with
  | nil => rfl
  | cons b r ih =>
    refine (ih (s.setByte a b) (a + 1) fun i hi => ?_).trans (s.byte_setByte_ne b (h 0 (by simp)))
    rw [show a + 1 + i = a + (i + 1) by omega]
    exact h (i + 1) (by simpa using hi)

end Sys2Proof.Machine
end

