-- ==== Sys2Proof/WellFormed.lean ====
section
/-! DEFINITION. Which terms of `Instr` are commands the block can be given: a slot word that obeys the format and
opcode tables and stands in a slot that has it (R111, R113, R118–R132, R134), an event whose operands lie in their ranges. A
term that is not is refused by `Instr.wf`; the meanings do not rely on it. -/

namespace Sys2Proof

namespace Machine

/-- A core is one of the two of Bellows (R562). -/
def Path.fits : Path → Bool
  | .core i => i < 2
  | _ => true

/-- The header fields of a datagram have their widths (R554). -/
def Dgram.fits (d : Dgram) : Bool :=
  d.ver < 256 && d.flags < 256 && d.status < 256 && d.seq < 2 ^ 32 && d.len < 65536 && d.rsv < 65536 && d.crc < 2 ^ 32 &&
    d.sport < 65536 && d.dport < 65536

/-- What stands around a frame has its range: interface 4 is the management port (R551). -/
def EthIn.fits (e : EthIn) (n : Nat) : Bool := e.i < n && (match e.vid with | some v => v < 4096 | none => true)

/-- The header fields of a packet have their widths (R336). -/
def Pkt.fits (p : Pkt) : Bool :=
  p.ver < 16 && p.typ < 16 && p.flags < 256 && p.prio < 8 && p.hops < 32 && p.opc < 256 && p.dstrm < 65536 &&
    p.sstrm < 65536 && p.psn < 2 ^ 32 && p.msn < 2 ^ 32 && p.w0 < 2 ^ 32 && p.w1 < 65536 && p.w2 < 65536 &&
    p.clim < 2 ^ 32 && p.pcrc < 2 ^ 32

/-- The fields of a CAN frame have their widths (R530, R536). -/
def CanFrame.fits (f : CanFrame) : Bool :=
  f.id < (if f.ide then 2 ^ 29 else 2 ^ 11) && f.dlc < 16 && f.data.length ≤ 64 && (f.fdf || f.data.length ≤ 8)

end Machine

/-- A word stands in one of the slots that have its format, in a bundle of a length code (R111, R113). -/
def Hd.fits (h : Hd) (l : List Nat) : Bool := h.slot < 10 && h.len < 4 && l.contains h.slot

open Machine in
/-- Whether a term is a command (see the head of the file). -/
def Instr.wf (i : Instr) : Bool :=
  match i with
  | .nop h raw => h.fits (List.range 10) && (match raw with | some r => r < 2 ^ 512 | none => true)
  | .br h f => h.fits [0] && cbLegal 1 f
  | .dbnz h f => h.fits [0] && cbLegal 2 f
  | .brl h f => h.fits [0] && cbLegal 3 f
  | .brInd h f => h.fits [0] && cbLegal 4 f
  | .waitm h f => h.fits [0] && csLegal 0x40 f
  | .wait h f => h.fits [0] && csLegal 0x41 f
  | .stallEnd => true
  | .amaskSet h f => h.fits [0] && csLegal 0x42 f
  | .amaskSetAll h f => h.fits [0] && csLegal 0x43 f
  | .sArith h op f => h.fits [0] && within op 0x48 0x4D && csLegal op f
  | .sBitwise h op f => h.fits [0] && within op 0x4E 0x50 && csLegal op f
  | .sShift h op f => h.fits [0] && within op 0x51 0x53 && csLegal op f
  | .addiS64 h f => h.fits [0] && csLegal 0x54 f
  | .moviS64 h f => h.fits [0] && csLegal 0x55 f
  | .ldc h f => h.fits [0] && csLegal 0x56 f
  | .ldcx h f => h.fits [0] && csLegal 0x57 f
  | .ldm h f => h.fits [0] && csLegal 0x58 f
  | .stm h f => h.fits [0] && csLegal 0x59 f
  | .pcount h f => h.fits [0] && csLegal 0x5A f
  | .rdbc h f => h.fits [0] && csLegal 0x5B f
  | .stop len => len < 4
  | .jobEnd _ => true
  | .mmac h op f => h.fits mSlots && op != 0x10 && maLegal op f
  | .mcomb h f => h.fits mSlots && maLegal 0x10 f
  | .mrd h f => h.fits mSlots && mrLegal 0x40 f
  | .mpk h f => h.fits mSlots && mrLegal 0x41 f
  | .mclr h f => h.fits mSlots && mcLegal 0x60 f
  | .mrsc h f => h.fits mSlots && mcLegal 0x61 f
  | .mtst h op f => h.fits mSlots && within op 0x62 0x65 && mcLegal op f
  | .addSubMulF32 h op f => h.fits vSlots && within op 0x01 0x03 && vrLegal op f
  | .fmaFmsF32 h op f => h.fits vSlots && within op 0x04 0x05 && vrLegal op f
  | .minMaxF32 h op f => h.fits vSlots && within op 0x06 0x07 && vrLegal op f
  | .absNegF32 h op f => h.fits vSlots && within op 0x08 0x09 && vrLegal op f
  | .sqrtF32 h f => h.fits vSlots && vrLegal 0x0A f
  | .rcpRsqrtExp2Log2F32 h op f => h.fits vSlots && within op 0x0B 0x0E && vrLegal op f
  | .int32Arith h op f => h.fits vSlots && within op 0x20 0x25 && vrLegal op f
  | .minMaxS32 h op f => h.fits vSlots && within op 0x26 0x27 && vrLegal op f
  | .absS32 h f => h.fits vSlots && vrLegal 0x28 f
  | .slaS32 h f => h.fits vSlots && vrLegal 0x29 f
  | .b32Bitwise h op f => h.fits vSlots && within op 0x2A 0x2C && vrLegal op f
  | .b32Shift h op f => h.fits vSlots && within op 0x2D 0x2F && vrLegal op f
  | .vArithS64 h op f => h.fits vSlots && within op 0x30 0x35 && vrLegal op f
  | .vBitwiseB64 h op f => h.fits vSlots && within op 0x36 0x38 && vrLegal op f
  | .vShiftB64 h op f => h.fits vSlots && within op 0x39 0x3B && vrLegal op f
  | .movB64 h f => h.fits vSlots && vrLegal 0x3C f
  | .cmpanyCmpall h op f => h.fits vSlots && within op 0x40 0x43 && vrLegal op f
  | .cmpS64U64 h op f => h.fits vSlots && within op 0x44 0x45 && vrLegal op f
  | .cmpm h op f => h.fits vSlots && within op 0x46 0x47 && vrLegal op f
  | .selB32 h f => h.fits vSlots && vrLegal 0x48 f
  | .permB32 h f => h.fits vSlots && vrLegal 0x49 f
  | .raddRmaxRminF32 h op f => h.fits vSlots && within op 0x4A 0x4C && vrLegal op f
  | .raddS32 h f => h.fits vSlots && vrLegal 0x4D f
  | .cvtNarrow h op f => h.fits vSlots && within op 0x50 0x53 && vrLegal op f
  | .cvtS32F32 h f => h.fits vSlots && vrLegal 0x54 f
  | .cvtIntNarrow h op f => h.fits vSlots && within op 0x55 0x56 && vrLegal op f
  | .cvtWiden h op f => h.fits vSlots && within op 0x58 0x5E && op != 0x5C && vrLegal op f
  | .cvtF32S32 h f => h.fits vSlots && vrLegal 0x5C f
  | .mxq h op f => h.fits vSlots && within op 0x60 0x65 && vrLegal op f
  | .mxdq h op f => h.fits vSlots && within op 0x68 0x6D && vrLegal op f
  | .mxsc h op f => h.fits vSlots && within op 0x98 0x9D && viLegal op f
  | .addiMuliS32 h op f => h.fits vSlots && within op 0x80 0x81 && viLegal op f
  | .addiMuliF32 h op f => h.fits vSlots && within op 0x82 0x83 && viLegal op f
  | .moviS32 h f => h.fits vSlots && viLegal 0x84 f
  | .moviF32 h f => h.fits vSlots && viLegal 0x85 f
  | .vAddiMuliS64 h op f => h.fits vSlots && within op 0x88 0x8B && viLegal op f
  | .vMoviS64 h f => h.fits vSlots && viLegal 0x8C f
  | .slliSrliB64 h op f => h.fits vSlots && within op 0x8D 0x8E && viLegal op f
  | .lextB32 h f => h.fits vSlots && viLegal 0x90 f
  | .linsB32 h f => h.fits vSlots && viLegal 0x91 f
  | .binsB8 h f => h.fits vSlots && viLegal 0x92 f
  | .cmpiS64 h f => h.fits vSlots && viLegal 0xA0 f
  | .ldA h op f => h.fits lSlots && oneOf op [1, 5, 9] && lsLegal (h.slot == 5) op f
  | .stA h op f => h.fits lSlots && oneOf op [2, 6, 10] && lsLegal (h.slot == 5) op f
  | .ldH h op f => h.fits lSlots && oneOf op [3, 7, 11] && lsLegal (h.slot == 5) op f
  | .stH h op f => h.fits lSlots && oneOf op [4, 8, 12] && lsLegal (h.slot == 5) op f
  | .xfer h op f => h.fits [7] && within op 1 9 && xeLegal op f
  | .xfillHbm h f => h.fits [7] && xeLegal 0x0A f
  | .xfence h f => h.fits [7] && xeLegal 0x10 f
  | .xferComplete unit _ _ => unit < 10
  | .xfenceComplete unit => unit < 10
  | .crcCmd h f => h.fits [7] && xcLegal 0x40 f
  | .crcCmdHi h f => h.fits [7] && xcLegal 0x41 f
  | .admission => true
  | .sig h f => h.fits [8] && nsLegal 1 f
  | .send h f => h.fits [8] && nsLegal 2 f
  | .recv h f => h.fits [8] && nsLegal 3 f
  | .aredPp h f => h.fits [8] && nsLegal 4 f
  | .paceGrp h f => h.fits [8] && nsLegal 5 f
  | .nfence h f => h.fits [8] && nsLegal 6 f
  | .rsig h f => h.fits [8] && nsLegal 7 f
  | .heat h f => h.fits [9] && ttLegal 1 f
  | .opreq h f => h.fits [9] && ttLegal 2 f
  | .tSnap h f => h.fits [9] && ttLegal 3 f
  | .phint h f => h.fits [9] && ttLegal 4 f
  | .jobSwitch _ => true
  | .jobSelect _ => true
  | .writeBack _ => true
  | .patrol _ _ _ _ => true
  | .stackFence stk _ _ => stk < 20
  | .fence p stk _ _ => p.fits && stk < 20
  | .anvilHoldEffect g _ => g < 160
  | .crucNop stk _ => stk < 20
  | .gemv stk _ => stk < 20
  | .attn stk _ => stk < 20
  | .amerge stk _ => stk < 20
  | .gather stk _ => stk < 20
  | .scatter stk _ => stk < 20
  | .reduce stk _ => stk < 20
  | .eltw stk _ => stk < 20
  | .pack stk _ => stk < 20
  | .unpack stk _ => stk < 20
  | .copy stk _ => stk < 20
  | .fill stk _ => stk < 20
  | .scrub stk _ => stk < 20
  | .crucComplete stk _ => stk < 20
  | .crucPreempt stk => stk < 20
  | .crucHostAdmit stk => stk < 20
  | .portcfgWrite p port _ _ => p.fits && port < 2
  | .linkUp i _ => i < 4
  | .linkBringupRetry i _ => i < 4
  | .linkDown i _ => i < 4
  | .dadTimeout i _ => i < 4
  | .neighbourSolicitation e _ _ _ => e.fits 5
  | .arpRequest e _ _ => e.fits 5
  | .icmpEchoRequest e _ _ _ _ => e.fits 5
  | .neighbourResolutionRetry i _ _ => i < 4
  | .data e _ p _ => e.fits 4 && p.fits
  | .ack e _ p _ => e.fits 4 && p.fits
  | .cred e _ p _ => e.fits 4 && p.fits
  | .opn e _ p _ => e.fits 4 && p.fits
  | .openack e _ p _ => e.fits 4 && p.fits
  | .close e _ p _ => e.fits 4 && p.fits
  | .rst e _ p _ => e.fits 4 && p.fits
  | .memwr n _ _ => n < 65536
  | .memrd n _ _ => n < 65536
  | .pace n _ _ => n < 65536
  | .relayFrame e _ _ _ p _ => e.fits 4 && (match p with | some q => q.fits | none => true)
  | .ackTimer n _ => n < 65536
  | .rtoExpiry n _ => n < 65536
  | .credProbe n _ => n < 65536
  | .frameTransmit i _ => i < 4
  | .bootStreamRelisten n _ => n < 4
  | .admissionRound _ => true
  | .pinGrant _ => true
  | .cplPush n _ => n < 65536
  | .jobSubmit n _ _ => n < 65536
  | .jobCancel n _ _ => n < 65536
  | .cancelTimeout _ => true
  | .imageAccept n _ _ => n < 65536
  | .imageUnload n _ _ => n < 65536
  | .crucCmd n _ _ => n < 65536
  | .ringCfg n _ _ => n < 65536
  | .streamCfg n _ _ => n < 65536
  | .streamClose n _ _ => n < 65536
  | .streamReset n _ _ => n < 65536
  | .streamQuery n _ _ => n < 65536
  | .aidxWrite p r _ _ => p.fits && r < 64
  | .temperInterval die vin _ => die.length == 64 && vin < 65536
  | .kRaise _ => true
  | .raisedrop _ => true
  | .vcoreSettled _ => true
  | .droop _ _ => true
  | .sagWarn _ _ => true
  | .sagWarnClear _ _ => true
  | .calibration _ _ => true
  | .capStale _ _ => true
  | .capHostWrite p _ _ => p.fits
  | .capFacilityWrite p _ _ => p.fits
  | .ageingEval l _ => l.length == 80
  | .coolingTick _ _ => true
  | .ntcFault n _ _ => n < 12
  | .pressureFault n _ _ => n < 4
  | .sensorRecover _ _ _ => true
  | .sensorDisagree _ _ _ _ => true
  | .sensorSuspect _ _ _ _ => true
  | .nopulse _ _ => true
  | .dpcollapse _ _ _ => true
  | .dierise _ _ => true
  | .throttleRelease _ _ _ _ => true
  | .timeout _ => true
  | .critTrip _ _ _ _ => true
  | .shdnN _ _ => true
  | .leak n _ _ => n < 4
  | .loopFault n _ _ _ => n < 4
  | .leakLoopNormal n _ _ _ => n < 4
  | .flowConfirm _ _ _ _ => true
  | .flowUnconfirmed _ => true
  | .kickAttempt c _ => c < 4
  | .kickAttemptEnd c _ _ => c < 4
  | .tachLoss c _ _ => c < 4
  | .tachClassify c _ => c < 4
  | .tachRecover c _ _ => c < 4
  | .keepaliveKa p _ _ => p.fits
  | .autoMode _ => true
  | .loopPeriod _ => true
  | .loopSample n _ => n < 16
  | .loopOutput n _ => n < 16
  | .loopArm p n _ _ => p.fits && n < 16
  | .loopDisarm p n _ _ => p.fits && n < 16
  | .commit p n _ _ => p.fits && n < 16
  | .prim p n _ _ => p.fits && n < 16
  | .beacon _ => true
  | .rcEn p n _ _ => p.fits && n < 16
  | .quenchTraceArm p _ _ => p.fits
  | .quenchTraceForce p _ _ => p.fits
  | .quenchTrdata _ => true
  | .fixcmd p c _ _ => p.fits && c < 10
  | .vprofWrite p c _ _ => p.fits && c < 10
  | .highSideGrant _ _ => true
  | .peakReached c _ _ _ => c < 10
  | .tpeakEnd c _ => c < 10
  | .ttphigh c _ => c < 10
  | .overcur c _ _ _ => c < 10
  | .abortRetry c _ => c < 10
  | .boostReady _ _ => true
  | .boostnr c _ => c < 10
  | .kink c _ _ => c < 10
  | .nomotion c _ _ => c < 10
  | .periodStart _ _ => true
  | .eventStart c _ => c < 10
  | .eventEnd c _ => c < 10
  | .pkrefuse c _ => c < 10
  | .dlim c _ => c < 10
  | .coilModel c _ _ => c < 10
  | .vvlow _ _ _ => true
  | .vvalveRecover _ _ _ => true
  | .x1Release _ => true
  | .canFrameRx f _ => f.fits
  | .txreq p n _ _ => p.fits && n < 64
  | .cancel p n _ _ _ => p.fits && n < 64
  | .bcmdAck p n _ _ => p.fits && n < 64
  | .canTxComplete n _ _ _ => n < 64
  | .canState _ _ _ _ _ => true
  | .busOffRecovery _ _ => true
  | .tten p _ _ => p.fits
  | .referenceMessage f _ => f.fits
  | .referenceTimeout _ => true
  | .ttWindow _ _ => true
  | .ttEventFallback _ => true
  | .loopMessage f _ => f.fits
  | .alertRx f _ => f.fits
  | .ident _ d _ => d.fits
  | .keepalive _ d _ => d.fits
  | .csrRead _ d _ => d.fits
  | .csrWrite _ d _ => d.fits
  | .setFacility _ d _ => d.fits
  | .coolRestart _ d _ => d.fits
  | .leakClear _ d _ => d.fits
  | .fanClear _ d _ => d.fits
  | .valveClear _ d _ => d.fits
  | .anvilHold _ d _ => d.fits
  | .resetModule _ d _ => d.fits
  | .moduleReset _ => true
  | .resetCompute _ d _ => d.fits
  | .resetComputeKeep _ d _ => d.fits
  | .resetHearth _ d _ => d.fits
  | .hearthResetStart _ => true
  | .resetStream _ d _ => d.fits
  | .eventRead _ d _ => d.fits
  | .eventClear _ d _ => d.fits
  | .mSnap _ d _ => d.fits
  | .claim _ d _ => d.fits
  | .config _ d _ => d.fits
  | .counter _ d _ => d.fits
  | .attest _ d _ => d.fits
  | .attestCert _ d _ => d.fits
  | .fwUpdateBegin _ d _ => d.fits
  | .fwUpdateData _ d _ => d.fits
  | .fwUpdateEnd _ d _ _ => d.fits
  | .fwUpdateActivate _ d _ => d.fits
  | .fwUpdateCommit _ d _ => d.fits
  | .fwUpdateAbandon _ => true
  | .debugUnlock _ d _ => d.fits
  | .notifyAck _ d _ => d.fits
  | .notifyResend _ => true
  | .coldReset _ _ _ => true
  | .romBoot _ _ _ => true
  | .watchdog _ => true
  | .pllLock _ => true
  | .bringupReady _ _ _ => true
  | .bringupTimeout _ => true
  | .refclkLoss _ => true
  | .srefLoss _ => true
  | .vin48Undervoltage _ _ _ => true
  | .vin48Overvoltage _ _ _ => true
  | .vin48Recover _ _ _ => true
  | .vsb12Warn _ _ _ => true
  | .vsb12Sag _ _ _ => true
  | .mateConnect _ _ => true
  | .mateDisconnect _ _ => true
  | .sourceAssert n _ => n < 256
  | .bicClaim c _ => c < 2
  | .bicComplete p c _ _ => p.fits && c < 2
  | .reevaluate c _ => c < 2
  | .hcomplete p _ _ => p.fits
  | .htmo n _ => n < 256
  | .levelRedeliver n _ _ => n < 256
  | .groupRelease _ _ => true
  | .norWrite _ _ => true
  | .rsel p _ _ => p.fits
  | .snapctlSnap p _ _ => p.fits
  | .snapCapture _ => true
  | .hammerTraceArm p _ _ => p.fits
  | .hammerTraceForce p _ _ => p.fits
  | .hammerTrdata _ => true
  | .idcode => true
  | .samplePreload _ => true
  | .extest _ => true
  | .highz => true
  | .clamp => true
  | .bypass => true
  | .registerWrite p addr _ _ => p.fits && addr < 2 ^ 48
  | .mgmtPortLinkUp _ => true
  | .mgmtPortLinkDown _ => true
  | .mainDieLinkLoss _ => true
  | .neighbourAdvertisement e _ _ port _ => e.fits 5 && port < 2
  | .tuyereDomainOff _ _ _ => true

end Sys2Proof
end

