-- ==== Sys2Proof/Laws/PerInstr.lean ====
section
/-! SUPPORT. For every command: a slot word that is well formed stands in one of the ten slots of a bundle with one of the four
length codes (R111, R113). -/

namespace Sys2Proof.Laws

/-- The place of a slot word; an event has none. -/
def headOf (i : Instr) : Option Hd :=
  match i with
  | .nop h _ => some h
  | .br h _ => some h
  | .dbnz h _ => some h
  | .brl h _ => some h
  | .brInd h _ => some h
  | .waitm h _ => some h
  | .wait h _ => some h
  | .amaskSet h _ => some h
  | .amaskSetAll h _ => some h
  | .sArith h _ _ => some h
  | .sBitwise h _ _ => some h
  | .sShift h _ _ => some h
  | .addiS64 h _ => some h
  | .moviS64 h _ => some h
  | .ldc h _ => some h
  | .ldcx h _ => some h
  | .ldm h _ => some h
  | .stm h _ => some h
  | .pcount h _ => some h
  | .rdbc h _ => some h
  | .mmac h _ _ => some h
  | .mcomb h _ => some h
  | .mrd h _ => some h
  | .mpk h _ => some h
  | .mclr h _ => some h
  | .mrsc h _ => some h
  | .mtst h _ _ => some h
  | .addSubMulF32 h _ _ => some h
  | .fmaFmsF32 h _ _ => some h
  | .minMaxF32 h _ _ => some h
  | .absNegF32 h _ _ => some h
  | .sqrtF32 h _ => some h
  | .rcpRsqrtExp2Log2F32 h _ _ => some h
  | .int32Arith h _ _ => some h
  | .minMaxS32 h _ _ => some h
  | .absS32 h _ => some h
  | .slaS32 h _ => some h
  | .b32Bitwise h _ _ => some h
  | .b32Shift h _ _ => some h
  | .vArithS64 h _ _ => some h
  | .vBitwiseB64 h _ _ => some h
  | .vShiftB64 h _ _ => some h
  | .movB64 h _ => some h
  | .cmpanyCmpall h _ _ => some h
  | .cmpS64U64 h _ _ => some h
  | .cmpm h _ _ => some h
  | .selB32 h _ => some h
  | .permB32 h _ => some h
  | .raddRmaxRminF32 h _ _ => some h
  | .raddS32 h _ => some h
  | .cvtNarrow h _ _ => some h
  | .cvtS32F32 h _ => some h
  | .cvtIntNarrow h _ _ => some h
  | .cvtWiden h _ _ => some h
  | .cvtF32S32 h _ => some h
  | .mxq h _ _ => some h
  | .mxdq h _ _ => some h
  | .mxsc h _ _ => some h
  | .addiMuliS32 h _ _ => some h
  | .addiMuliF32 h _ _ => some h
  | .moviS32 h _ => some h
  | .moviF32 h _ => some h
  | .vAddiMuliS64 h _ _ => some h
  | .vMoviS64 h _ => some h
  | .slliSrliB64 h _ _ => some h
  | .lextB32 h _ => some h
  | .linsB32 h _ => some h
  | .binsB8 h _ => some h
  | .cmpiS64 h _ => some h
  | .ldA h _ _ => some h
  | .stA h _ _ => some h
  | .ldH h _ _ => some h
  | .stH h _ _ => some h
  | .xfer h _ _ => some h
  | .xfillHbm h _ => some h
  | .xfence h _ => some h
  | .crcCmd h _ => some h
  | .crcCmdHi h _ => some h
  | .sig h _ => some h
  | .send h _ => some h
  | .recv h _ => some h
  | .aredPp h _ => some h
  | .paceGrp h _ => some h
  | .nfence h _ => some h
  | .rsig h _ => some h
  | .heat h _ => some h
  | .opreq h _ => some h
  | .tSnap h _ => some h
  | .phint h _ => some h
  | _ => none

/-- A conjunction's left part. -/
theorem band {a b : Bool} (h : (a && b) = true) : a = true := by
  cases a with
  | false => exact h
  | true => rfl

/-- What `Hd.fits` says of the place itself. -/
theorem fits_lt {h k : Hd} {l : List Nat} (w : h.fits l = true) (e : some h = some k) : k.slot < 10 ∧ k.len < 4 := by
  cases e
  unfold Hd.fits at w
  simp only [Bool.and_eq_true, decide_eq_true_eq] at w
  exact w.1

/-- A well-formed slot word stands in a slot of R113, in a bundle of a length code of R111. -/
def Fields.Statement (i : Instr) : Prop := i.wf = true → ∀ h, headOf i = some h → h.slot < 10 ∧ h.len < 4

theorem Fields.nop (h : Hd) (raw : Option Nat) : Fields.Statement (.nop h raw) := fun w _ e => fits_lt (band w) e
theorem Fields.br (h : Hd) (f : CBf) : Fields.Statement (.br h f) := fun w _ e => fits_lt (band w) e
theorem Fields.dbnz (h : Hd) (f : CBf) : Fields.Statement (.dbnz h f) := fun w _ e => fits_lt (band w) e
theorem Fields.brl (h : Hd) (f : CBf) : Fields.Statement (.brl h f) := fun w _ e => fits_lt (band w) e
theorem Fields.brInd (h : Hd) (f : CBf) : Fields.Statement (.brInd h f) := fun w _ e => fits_lt (band w) e
theorem Fields.waitm (h : Hd) (f : CSf) : Fields.Statement (.waitm h f) := fun w _ e => fits_lt (band w) e
theorem Fields.wait (h : Hd) (f : CSf) : Fields.Statement (.wait h f) := fun w _ e => fits_lt (band w) e
theorem Fields.stallEnd : Fields.Statement .stallEnd := fun _ k e => (Option.some_ne_none k e.symm).elim
theorem Fields.amaskSet (h : Hd) (f : CSf) : Fields.Statement (.amaskSet h f) := fun w _ e => fits_lt (band w) e
theorem Fields.amaskSetAll (h : Hd) (f : CSf) : Fields.Statement (.amaskSetAll h f) := fun w _ e => fits_lt (band w) e
theorem Fields.sArith (h : Hd) (op : Nat) (f : CSf) :
    Fields.Statement (.sArith h op f) := fun w _ e => fits_lt (band (band w)) e
theorem Fields.sBitwise (h : Hd) (op : Nat) (f : CSf) :
    Fields.Statement (.sBitwise h op f) := fun w _ e => fits_lt (band (band w)) e
theorem Fields.sShift (h : Hd) (op : Nat) (f : CSf) :
    Fields.Statement (.sShift h op f) := fun w _ e => fits_lt (band (band w)) e
theorem Fields.addiS64 (h : Hd) (f : CSf) : Fields.Statement (.addiS64 h f) := fun w _ e => fits_lt (band w) e
theorem Fields.moviS64 (h : Hd) (f : CSf) : Fields.Statement (.moviS64 h f) := fun w _ e => fits_lt (band w) e
theorem Fields.ldc (h : Hd) (f : CSf) : Fields.Statement (.ldc h f) := fun w _ e => fits_lt (band w) e
theorem Fields.ldcx (h : Hd) (f : CSf) : Fields.Statement (.ldcx h f) := fun w _ e => fits_lt (band w) e
theorem Fields.ldm (h : Hd) (f : CSf) : Fields.Statement (.ldm h f) := fun w _ e => fits_lt (band w) e
theorem Fields.stm (h : Hd) (f : CSf) : Fields.Statement (.stm h f) := fun w _ e => fits_lt (band w) e
theorem Fields.pcount (h : Hd) (f : CSf) : Fields.Statement (.pcount h f) := fun w _ e => fits_lt (band w) e
theorem Fields.rdbc (h : Hd) (f : CSf) : Fields.Statement (.rdbc h f) := fun w _ e => fits_lt (band w) e
theorem Fields.stop (len : Nat) : Fields.Statement (.stop len) := fun _ k e => (Option.some_ne_none k e.symm).elim
theorem Fields.jobEnd (t : Nat) : Fields.Statement (.jobEnd t) := fun _ k e => (Option.some_ne_none k e.symm).elim
theorem Fields.mmac (h : Hd) (op : Nat) (f : MAf) : Fields.Statement (.mmac h op f) := fun w _ e => fits_lt (band (band w)) e
theorem Fields.mcomb (h : Hd) (f : MAf) : Fields.Statement (.mcomb h f) := fun w _ e => fits_lt (band w) e
theorem Fields.mrd (h : Hd) (f : MRf) : Fields.Statement (.mrd h f) := fun w _ e => fits_lt (band w) e
theorem Fields.mpk (h : Hd) (f : MRf) : Fields.Statement (.mpk h f) := fun w _ e => fits_lt (band w) e
theorem Fields.mclr (h : Hd) (f : MCf) : Fields.Statement (.mclr h f) := fun w _ e => fits_lt (band w) e
theorem Fields.mrsc (h : Hd) (f : MCf) : Fields.Statement (.mrsc h f) := fun w _ e => fits_lt (band w) e
theorem Fields.mtst (h : Hd) (op : Nat) (f : MCf) : Fields.Statement (.mtst h op f) := fun w _ e => fits_lt (band (band w)) e
theorem Fields.addSubMulF32 (h : Hd) (op : Nat) (f : VRf) :
    Fields.Statement (.addSubMulF32 h op f) := fun w _ e => fits_lt (band (band w)) e
theorem Fields.fmaFmsF32 (h : Hd) (op : Nat) (f : VRf) :
    Fields.Statement (.fmaFmsF32 h op f) := fun w _ e => fits_lt (band (band w)) e
theorem Fields.minMaxF32 (h : Hd) (op : Nat) (f : VRf) :
    Fields.Statement (.minMaxF32 h op f) := fun w _ e => fits_lt (band (band w)) e
theorem Fields.absNegF32 (h : Hd) (op : Nat) (f : VRf) :
    Fields.Statement (.absNegF32 h op f) := fun w _ e => fits_lt (band (band w)) e
theorem Fields.sqrtF32 (h : Hd) (f : VRf) : Fields.Statement (.sqrtF32 h f) := fun w _ e => fits_lt (band w) e
theorem Fields.rcpRsqrtExp2Log2F32 (h : Hd) (op : Nat) (f : VRf) :
    Fields.Statement (.rcpRsqrtExp2Log2F32 h op f) := fun w _ e => fits_lt (band (band w)) e
theorem Fields.int32Arith (h : Hd) (op : Nat) (f : VRf) :
    Fields.Statement (.int32Arith h op f) := fun w _ e => fits_lt (band (band w)) e
theorem Fields.minMaxS32 (h : Hd) (op : Nat) (f : VRf) :
    Fields.Statement (.minMaxS32 h op f) := fun w _ e => fits_lt (band (band w)) e
theorem Fields.absS32 (h : Hd) (f : VRf) : Fields.Statement (.absS32 h f) := fun w _ e => fits_lt (band w) e
theorem Fields.slaS32 (h : Hd) (f : VRf) : Fields.Statement (.slaS32 h f) := fun w _ e => fits_lt (band w) e
theorem Fields.b32Bitwise (h : Hd) (op : Nat) (f : VRf) :
    Fields.Statement (.b32Bitwise h op f) := fun w _ e => fits_lt (band (band w)) e
theorem Fields.b32Shift (h : Hd) (op : Nat) (f : VRf) :
    Fields.Statement (.b32Shift h op f) := fun w _ e => fits_lt (band (band w)) e
theorem Fields.vArithS64 (h : Hd) (op : Nat) (f : VRf) :
    Fields.Statement (.vArithS64 h op f) := fun w _ e => fits_lt (band (band w)) e
theorem Fields.vBitwiseB64 (h : Hd) (op : Nat) (f : VRf) :
    Fields.Statement (.vBitwiseB64 h op f) := fun w _ e => fits_lt (band (band w)) e
theorem Fields.vShiftB64 (h : Hd) (op : Nat) (f : VRf) :
    Fields.Statement (.vShiftB64 h op f) := fun w _ e => fits_lt (band (band w)) e
theorem Fields.movB64 (h : Hd) (f : VRf) : Fields.Statement (.movB64 h f) := fun w _ e => fits_lt (band w) e
theorem Fields.cmpanyCmpall (h : Hd) (op : Nat) (f : VRf) :
    Fields.Statement (.cmpanyCmpall h op f) := fun w _ e => fits_lt (band (band w)) e
theorem Fields.cmpS64U64 (h : Hd) (op : Nat) (f : VRf) :
    Fields.Statement (.cmpS64U64 h op f) := fun w _ e => fits_lt (band (band w)) e
theorem Fields.cmpm (h : Hd) (op : Nat) (f : VRf) : Fields.Statement (.cmpm h op f) := fun w _ e => fits_lt (band (band w)) e
theorem Fields.selB32 (h : Hd) (f : VRf) : Fields.Statement (.selB32 h f) := fun w _ e => fits_lt (band w) e
theorem Fields.permB32 (h : Hd) (f : VRf) : Fields.Statement (.permB32 h f) := fun w _ e => fits_lt (band w) e
theorem Fields.raddRmaxRminF32 (h : Hd) (op : Nat) (f : VRf) :
    Fields.Statement (.raddRmaxRminF32 h op f) := fun w _ e => fits_lt (band (band w)) e
theorem Fields.raddS32 (h : Hd) (f : VRf) : Fields.Statement (.raddS32 h f) := fun w _ e => fits_lt (band w) e
theorem Fields.cvtNarrow (h : Hd) (op : Nat) (f : VRf) :
    Fields.Statement (.cvtNarrow h op f) := fun w _ e => fits_lt (band (band w)) e
theorem Fields.cvtS32F32 (h : Hd) (f : VRf) : Fields.Statement (.cvtS32F32 h f) := fun w _ e => fits_lt (band w) e
theorem Fields.cvtIntNarrow (h : Hd) (op : Nat) (f : VRf) :
    Fields.Statement (.cvtIntNarrow h op f) := fun w _ e => fits_lt (band (band w)) e
theorem Fields.cvtWiden (h : Hd) (op : Nat) (f : VRf) :
    Fields.Statement (.cvtWiden h op f) := fun w _ e => fits_lt (band (band (band w))) e
theorem Fields.cvtF32S32 (h : Hd) (f : VRf) : Fields.Statement (.cvtF32S32 h f) := fun w _ e => fits_lt (band w) e
theorem Fields.mxq (h : Hd) (op : Nat) (f : VRf) : Fields.Statement (.mxq h op f) := fun w _ e => fits_lt (band (band w)) e
theorem Fields.mxdq (h : Hd) (op : Nat) (f : VRf) : Fields.Statement (.mxdq h op f) := fun w _ e => fits_lt (band (band w)) e
theorem Fields.mxsc (h : Hd) (op : Nat) (f : VIf) : Fields.Statement (.mxsc h op f) := fun w _ e => fits_lt (band (band w)) e
theorem Fields.addiMuliS32 (h : Hd) (op : Nat) (f : VIf) :
    Fields.Statement (.addiMuliS32 h op f) := fun w _ e => fits_lt (band (band w)) e
theorem Fields.addiMuliF32 (h : Hd) (op : Nat) (f : VIf) :
    Fields.Statement (.addiMuliF32 h op f) := fun w _ e => fits_lt (band (band w)) e
theorem Fields.moviS32 (h : Hd) (f : VIf) : Fields.Statement (.moviS32 h f) := fun w _ e => fits_lt (band w) e
theorem Fields.moviF32 (h : Hd) (f : VIf) : Fields.Statement (.moviF32 h f) := fun w _ e => fits_lt (band w) e
theorem Fields.vAddiMuliS64 (h : Hd) (op : Nat) (f : VIf) :
    Fields.Statement (.vAddiMuliS64 h op f) := fun w _ e => fits_lt (band (band w)) e
theorem Fields.vMoviS64 (h : Hd) (f : VIf) : Fields.Statement (.vMoviS64 h f) := fun w _ e => fits_lt (band w) e
theorem Fields.slliSrliB64 (h : Hd) (op : Nat) (f : VIf) :
    Fields.Statement (.slliSrliB64 h op f) := fun w _ e => fits_lt (band (band w)) e
theorem Fields.lextB32 (h : Hd) (f : VIf) : Fields.Statement (.lextB32 h f) := fun w _ e => fits_lt (band w) e
theorem Fields.linsB32 (h : Hd) (f : VIf) : Fields.Statement (.linsB32 h f) := fun w _ e => fits_lt (band w) e
theorem Fields.binsB8 (h : Hd) (f : VIf) : Fields.Statement (.binsB8 h f) := fun w _ e => fits_lt (band w) e
theorem Fields.cmpiS64 (h : Hd) (f : VIf) : Fields.Statement (.cmpiS64 h f) := fun w _ e => fits_lt (band w) e
theorem Fields.ldA (h : Hd) (op : Nat) (f : LSf) : Fields.Statement (.ldA h op f) := fun w _ e => fits_lt (band (band w)) e
theorem Fields.stA (h : Hd) (op : Nat) (f : LSf) : Fields.Statement (.stA h op f) := fun w _ e => fits_lt (band (band w)) e
theorem Fields.ldH (h : Hd) (op : Nat) (f : LSf) : Fields.Statement (.ldH h op f) := fun w _ e => fits_lt (band (band w)) e
theorem Fields.stH (h : Hd) (op : Nat) (f : LSf) : Fields.Statement (.stH h op f) := fun w _ e => fits_lt (band (band w)) e
theorem Fields.xfer (h : Hd) (op : Nat) (f : XEf) : Fields.Statement (.xfer h op f) := fun w _ e => fits_lt (band (band w)) e
theorem Fields.xfillHbm (h : Hd) (f : XEf) : Fields.Statement (.xfillHbm h f) := fun w _ e => fits_lt (band w) e
theorem Fields.xfence (h : Hd) (f : XEf) : Fields.Statement (.xfence h f) := fun w _ e => fits_lt (band w) e
theorem Fields.xferComplete (unit : Nat) (idx : Nat) (t : Nat) :
    Fields.Statement (.xferComplete unit idx t) := fun _ k e => (Option.some_ne_none k e.symm).elim
theorem Fields.xfenceComplete (unit : Nat) :
    Fields.Statement (.xfenceComplete unit) := fun _ k e => (Option.some_ne_none k e.symm).elim
theorem Fields.crcCmd (h : Hd) (f : XCf) : Fields.Statement (.crcCmd h f) := fun w _ e => fits_lt (band w) e
theorem Fields.crcCmdHi (h : Hd) (f : XCf) : Fields.Statement (.crcCmdHi h f) := fun w _ e => fits_lt (band w) e
theorem Fields.admission : Fields.Statement .admission := fun _ k e => (Option.some_ne_none k e.symm).elim
theorem Fields.sig (h : Hd) (f : NSf) : Fields.Statement (.sig h f) := fun w _ e => fits_lt (band w) e
theorem Fields.send (h : Hd) (f : NSf) : Fields.Statement (.send h f) := fun w _ e => fits_lt (band w) e
theorem Fields.recv (h : Hd) (f : NSf) : Fields.Statement (.recv h f) := fun w _ e => fits_lt (band w) e
theorem Fields.aredPp (h : Hd) (f : NSf) : Fields.Statement (.aredPp h f) := fun w _ e => fits_lt (band w) e
theorem Fields.paceGrp (h : Hd) (f : NSf) : Fields.Statement (.paceGrp h f) := fun w _ e => fits_lt (band w) e
theorem Fields.nfence (h : Hd) (f : NSf) : Fields.Statement (.nfence h f) := fun w _ e => fits_lt (band w) e
theorem Fields.rsig (h : Hd) (f : NSf) : Fields.Statement (.rsig h f) := fun w _ e => fits_lt (band w) e
theorem Fields.heat (h : Hd) (f : TTf) : Fields.Statement (.heat h f) := fun w _ e => fits_lt (band w) e
theorem Fields.opreq (h : Hd) (f : TTf) : Fields.Statement (.opreq h f) := fun w _ e => fits_lt (band w) e
theorem Fields.tSnap (h : Hd) (f : TTf) : Fields.Statement (.tSnap h f) := fun w _ e => fits_lt (band w) e
theorem Fields.phint (h : Hd) (f : TTf) : Fields.Statement (.phint h f) := fun w _ e => fits_lt (band w) e
theorem Fields.jobSwitch (t : Nat) : Fields.Statement (.jobSwitch t) := fun _ k e => (Option.some_ne_none k e.symm).elim
theorem Fields.jobSelect (t : Nat) : Fields.Statement (.jobSelect t) := fun _ k e => (Option.some_ne_none k e.symm).elim
theorem Fields.writeBack (unit : Nat) : Fields.Statement (.writeBack unit) := fun _ k e => (Option.some_ne_none k e.symm).elim
theorem Fields.patrol (addr : Nat) (len : Nat) (found : Machine.Upset) (t : Nat) :
    Fields.Statement (.patrol addr len found t) := fun _ k e => (Option.some_ne_none k e.symm).elim
theorem Fields.stackFence (stk : Nat) (cause : Nat) (t : Nat) :
    Fields.Statement (.stackFence stk cause t) := fun _ k e => (Option.some_ne_none k e.symm).elim
theorem Fields.fence (p : Machine.Path) (stk : Nat) (w : Word) (t : Nat) :
    Fields.Statement (.fence p stk w t) := fun _ k e => (Option.some_ne_none k e.symm).elim
theorem Fields.anvilHoldEffect (g : Nat) (t : Nat) :
    Fields.Statement (.anvilHoldEffect g t) := fun _ k e => (Option.some_ne_none k e.symm).elim
theorem Fields.crucNop (stk : Nat) (t : Nat) :
    Fields.Statement (.crucNop stk t) := fun _ k e => (Option.some_ne_none k e.symm).elim
theorem Fields.gemv (stk : Nat) (t : Nat) : Fields.Statement (.gemv stk t) := fun _ k e => (Option.some_ne_none k e.symm).elim
theorem Fields.attn (stk : Nat) (t : Nat) : Fields.Statement (.attn stk t) := fun _ k e => (Option.some_ne_none k e.symm).elim
theorem Fields.amerge (stk : Nat) (t : Nat) :
    Fields.Statement (.amerge stk t) := fun _ k e => (Option.some_ne_none k e.symm).elim
theorem Fields.gather (stk : Nat) (t : Nat) :
    Fields.Statement (.gather stk t) := fun _ k e => (Option.some_ne_none k e.symm).elim
theorem Fields.scatter (stk : Nat) (t : Nat) :
    Fields.Statement (.scatter stk t) := fun _ k e => (Option.some_ne_none k e.symm).elim
theorem Fields.reduce (stk : Nat) (t : Nat) :
    Fields.Statement (.reduce stk t) := fun _ k e => (Option.some_ne_none k e.symm).elim
theorem Fields.eltw (stk : Nat) (t : Nat) : Fields.Statement (.eltw stk t) := fun _ k e => (Option.some_ne_none k e.symm).elim
theorem Fields.pack (stk : Nat) (t : Nat) : Fields.Statement (.pack stk t) := fun _ k e => (Option.some_ne_none k e.symm).elim
theorem Fields.unpack (stk : Nat) (t : Nat) :
    Fields.Statement (.unpack stk t) := fun _ k e => (Option.some_ne_none k e.symm).elim
theorem Fields.copy (stk : Nat) (t : Nat) : Fields.Statement (.copy stk t) := fun _ k e => (Option.some_ne_none k e.symm).elim
theorem Fields.fill (stk : Nat) (t : Nat) : Fields.Statement (.fill stk t) := fun _ k e => (Option.some_ne_none k e.symm).elim
theorem Fields.scrub (stk : Nat) (t : Nat) : Fields.Statement (.scrub stk t) := fun _ k e => (Option.some_ne_none k e.symm).elim
theorem Fields.crucComplete (stk : Nat) (t : Nat) :
    Fields.Statement (.crucComplete stk t) := fun _ k e => (Option.some_ne_none k e.symm).elim
theorem Fields.crucPreempt (stk : Nat) : Fields.Statement (.crucPreempt stk) := fun _ k e => (Option.some_ne_none k e.symm).elim
theorem Fields.crucHostAdmit (stk : Nat) :
    Fields.Statement (.crucHostAdmit stk) := fun _ k e => (Option.some_ne_none k e.symm).elim
theorem Fields.portcfgWrite (p : Machine.Path) (port : Nat) (w : Word) (t : Nat) :
    Fields.Statement (.portcfgWrite p port w t) := fun _ k e => (Option.some_ne_none k e.symm).elim
theorem Fields.linkUp (i : Nat) (t : Nat) : Fields.Statement (.linkUp i t) := fun _ k e => (Option.some_ne_none k e.symm).elim
theorem Fields.linkBringupRetry (i : Nat) (t : Nat) :
    Fields.Statement (.linkBringupRetry i t) := fun _ k e => (Option.some_ne_none k e.symm).elim
theorem Fields.linkDown (i : Nat) (t : Machine.LossIn) :
    Fields.Statement (.linkDown i t) := fun _ k e => (Option.some_ne_none k e.symm).elim
theorem Fields.dadTimeout (i : Nat) (t : Nat) :
    Fields.Statement (.dadTimeout i t) := fun _ k e => (Option.some_ne_none k e.symm).elim
theorem Fields.neighbourSolicitation (e : Machine.EthIn) (target : BitVec 128) (src : BitVec 128) (t : Nat) :
    Fields.Statement (.neighbourSolicitation e target src t) := fun _ k e => (Option.some_ne_none k e.symm).elim
theorem Fields.arpRequest (e : Machine.EthIn) (target : Nat) (t : Nat) :
    Fields.Statement (.arpRequest e target t) := fun _ k e => (Option.some_ne_none k e.symm).elim
theorem Fields.icmpEchoRequest (e : Machine.EthIn) (dst : BitVec 128) (src : BitVec 128) (data : List Byte) (t : Nat) :
    Fields.Statement (.icmpEchoRequest e dst src data t) := fun _ k e => (Option.some_ne_none k e.symm).elim
theorem Fields.neighbourResolutionRetry (i : Nat) (a : BitVec 128) (t : Nat) :
    Fields.Statement (.neighbourResolutionRetry i a t) := fun _ k e => (Option.some_ne_none k e.symm).elim
theorem Fields.data (e : Machine.EthIn) (src : BitVec 128) (p : Machine.Pkt) (t : Nat) :
    Fields.Statement (.data e src p t) := fun _ k e => (Option.some_ne_none k e.symm).elim
theorem Fields.ack (e : Machine.EthIn) (src : BitVec 128) (p : Machine.Pkt) (t : Nat) :
    Fields.Statement (.ack e src p t) := fun _ k e => (Option.some_ne_none k e.symm).elim
theorem Fields.cred (e : Machine.EthIn) (src : BitVec 128) (p : Machine.Pkt) (t : Nat) :
    Fields.Statement (.cred e src p t) := fun _ k e => (Option.some_ne_none k e.symm).elim
theorem Fields.opn (e : Machine.EthIn) (src : BitVec 128) (p : Machine.Pkt) (t : Nat) :
    Fields.Statement (.opn e src p t) := fun _ k e => (Option.some_ne_none k e.symm).elim
theorem Fields.openack (e : Machine.EthIn) (src : BitVec 128) (p : Machine.Pkt) (t : Nat) :
    Fields.Statement (.openack e src p t) := fun _ k e => (Option.some_ne_none k e.symm).elim
theorem Fields.close (e : Machine.EthIn) (src : BitVec 128) (p : Machine.Pkt) (t : Nat) :
    Fields.Statement (.close e src p t) := fun _ k e => (Option.some_ne_none k e.symm).elim
theorem Fields.rst (e : Machine.EthIn) (src : BitVec 128) (p : Machine.Pkt) (t : Nat) :
    Fields.Statement (.rst e src p t) := fun _ k e => (Option.some_ne_none k e.symm).elim
theorem Fields.memwr (n : Nat) (msg : List Byte) (t : Nat) :
    Fields.Statement (.memwr n msg t) := fun _ k e => (Option.some_ne_none k e.symm).elim
theorem Fields.memrd (n : Nat) (msg : List Byte) (t : Nat) :
    Fields.Statement (.memrd n msg t) := fun _ k e => (Option.some_ne_none k e.symm).elim
theorem Fields.pace (n : Nat) (msg : List Byte) (t : Nat) :
    Fields.Statement (.pace n msg t) := fun _ k e => (Option.some_ne_none k e.symm).elim
theorem Fields.relayFrame (e : Machine.EthIn) (kind : Nat) (dstMac : Nat) (len : Nat) (p : Option Machine.Pkt) (t : Nat) :
    Fields.Statement (.relayFrame e kind dstMac len p t) := fun _ k e => (Option.some_ne_none k e.symm).elim
theorem Fields.ackTimer (n : Nat) (t : Nat) :
    Fields.Statement (.ackTimer n t) := fun _ k e => (Option.some_ne_none k e.symm).elim
theorem Fields.rtoExpiry (n : Nat) (t : Nat) :
    Fields.Statement (.rtoExpiry n t) := fun _ k e => (Option.some_ne_none k e.symm).elim
theorem Fields.credProbe (n : Nat) (t : Nat) :
    Fields.Statement (.credProbe n t) := fun _ k e => (Option.some_ne_none k e.symm).elim
theorem Fields.frameTransmit (i : Nat) (t : Machine.TxIn) :
    Fields.Statement (.frameTransmit i t) := fun _ k e => (Option.some_ne_none k e.symm).elim
theorem Fields.bootStreamRelisten (n : Nat) (t : Nat) :
    Fields.Statement (.bootStreamRelisten n t) := fun _ k e => (Option.some_ne_none k e.symm).elim
theorem Fields.admissionRound (t : Nat) :
    Fields.Statement (.admissionRound t) := fun _ k e => (Option.some_ne_none k e.symm).elim
theorem Fields.pinGrant (t : Nat) : Fields.Statement (.pinGrant t) := fun _ k e => (Option.some_ne_none k e.symm).elim
theorem Fields.cplPush (n : Nat) (t : Nat) : Fields.Statement (.cplPush n t) := fun _ k e => (Option.some_ne_none k e.symm).elim
theorem Fields.jobSubmit (n : Nat) (msg : List Byte) (t : Nat) :
    Fields.Statement (.jobSubmit n msg t) := fun _ k e => (Option.some_ne_none k e.symm).elim
theorem Fields.jobCancel (n : Nat) (msg : List Byte) (t : Nat) :
    Fields.Statement (.jobCancel n msg t) := fun _ k e => (Option.some_ne_none k e.symm).elim
theorem Fields.cancelTimeout (t : Nat) : Fields.Statement (.cancelTimeout t) := fun _ k e => (Option.some_ne_none k e.symm).elim
theorem Fields.imageAccept (n : Nat) (msg : List Byte) (t : Nat) :
    Fields.Statement (.imageAccept n msg t) := fun _ k e => (Option.some_ne_none k e.symm).elim
theorem Fields.imageUnload (n : Nat) (msg : List Byte) (t : Nat) :
    Fields.Statement (.imageUnload n msg t) := fun _ k e => (Option.some_ne_none k e.symm).elim
theorem Fields.crucCmd (n : Nat) (msg : List Byte) (t : Nat) :
    Fields.Statement (.crucCmd n msg t) := fun _ k e => (Option.some_ne_none k e.symm).elim
theorem Fields.ringCfg (n : Nat) (msg : List Byte) (t : Nat) :
    Fields.Statement (.ringCfg n msg t) := fun _ k e => (Option.some_ne_none k e.symm).elim
theorem Fields.streamCfg (n : Nat) (msg : List Byte) (t : Nat) :
    Fields.Statement (.streamCfg n msg t) := fun _ k e => (Option.some_ne_none k e.symm).elim
theorem Fields.streamClose (n : Nat) (msg : List Byte) (t : Nat) :
    Fields.Statement (.streamClose n msg t) := fun _ k e => (Option.some_ne_none k e.symm).elim
theorem Fields.streamReset (n : Nat) (msg : List Byte) (t : Nat) :
    Fields.Statement (.streamReset n msg t) := fun _ k e => (Option.some_ne_none k e.symm).elim
theorem Fields.streamQuery (n : Nat) (msg : List Byte) (t : Nat) :
    Fields.Statement (.streamQuery n msg t) := fun _ k e => (Option.some_ne_none k e.symm).elim
theorem Fields.aidxWrite (p : Machine.Path) (r : Nat) (w : Word) (t : Nat) :
    Fields.Statement (.aidxWrite p r w t) := fun _ k e => (Option.some_ne_none k e.symm).elim
theorem Fields.temperInterval (die : List Int) (vin : Nat) (t : Nat) :
    Fields.Statement (.temperInterval die vin t) := fun _ k e => (Option.some_ne_none k e.symm).elim
theorem Fields.kRaise (t : Nat) : Fields.Statement (.kRaise t) := fun _ k e => (Option.some_ne_none k e.symm).elim
theorem Fields.raisedrop (t : Nat) : Fields.Statement (.raisedrop t) := fun _ k e => (Option.some_ne_none k e.symm).elim
theorem Fields.vcoreSettled (t : Nat) : Fields.Statement (.vcoreSettled t) := fun _ k e => (Option.some_ne_none k e.symm).elim
theorem Fields.droop (d : Machine.DroopIn) (t : Nat) :
    Fields.Statement (.droop d t) := fun _ k e => (Option.some_ne_none k e.symm).elim
theorem Fields.sagWarn (mv : Nat) (t : Nat) :
    Fields.Statement (.sagWarn mv t) := fun _ k e => (Option.some_ne_none k e.symm).elim
theorem Fields.sagWarnClear (mv : Nat) (t : Nat) :
    Fields.Statement (.sagWarnClear mv t) := fun _ k e => (Option.some_ne_none k e.symm).elim
theorem Fields.calibration (meas : Option Nat) (t : Nat) :
    Fields.Statement (.calibration meas t) := fun _ k e => (Option.some_ne_none k e.symm).elim
theorem Fields.capStale (src : Nat) (t : Nat) :
    Fields.Statement (.capStale src t) := fun _ k e => (Option.some_ne_none k e.symm).elim
theorem Fields.capHostWrite (p : Machine.Path) (w : Word) (t : Nat) :
    Fields.Statement (.capHostWrite p w t) := fun _ k e => (Option.some_ne_none k e.symm).elim
theorem Fields.capFacilityWrite (p : Machine.Path) (w : Word) (t : Nat) :
    Fields.Statement (.capFacilityWrite p w t) := fun _ k e => (Option.some_ne_none k e.symm).elim
theorem Fields.ageingEval (slack : List Nat) (t : Nat) :
    Fields.Statement (.ageingEval slack t) := fun _ k e => (Option.some_ne_none k e.symm).elim
theorem Fields.coolingTick (k : Machine.TickIn) (t : Nat) :
    Fields.Statement (.coolingTick k t) := fun _ k e => (Option.some_ne_none k e.symm).elim
theorem Fields.ntcFault (n : Nat) (ohm : List Nat) (t : Nat) :
    Fields.Statement (.ntcFault n ohm t) := fun _ k e => (Option.some_ne_none k e.symm).elim
theorem Fields.pressureFault (n : Nat) (mv : List Nat) (t : Nat) :
    Fields.Statement (.pressureFault n mv t) := fun _ k e => (Option.some_ne_none k e.symm).elim
theorem Fields.sensorRecover (n : Nat) (held : Nat) (t : Nat) :
    Fields.Statement (.sensorRecover n held t) := fun _ k e => (Option.some_ne_none k e.symm).elim
theorem Fields.sensorDisagree (a : Nat) (b : Nat) (held : Nat) (t : Nat) :
    Fields.Statement (.sensorDisagree a b held t) := fun _ k e => (Option.some_ne_none k e.symm).elim
theorem Fields.sensorSuspect (n : Nat) (v : Int) (held : Nat) (t : Nat) :
    Fields.Statement (.sensorSuspect n v held t) := fun _ k e => (Option.some_ne_none k e.symm).elim
theorem Fields.nopulse (held : Nat) (t : Nat) :
    Fields.Statement (.nopulse held t) := fun _ k e => (Option.some_ne_none k e.symm).elim
theorem Fields.dpcollapse (dp : Int) (held : Nat) (t : Nat) :
    Fields.Statement (.dpcollapse dp held t) := fun _ k e => (Option.some_ne_none k e.symm).elim
theorem Fields.dierise (rise : Nat) (t : Nat) :
    Fields.Statement (.dierise rise t) := fun _ k e => (Option.some_ne_none k e.symm).elim
theorem Fields.throttleRelease (flow : Nat) (dp : Int) (held : Nat) (t : Nat) :
    Fields.Statement (.throttleRelease flow dp held t) := fun _ k e => (Option.some_ne_none k e.symm).elim
theorem Fields.timeout (t : Nat) : Fields.Statement (.timeout t) := fun _ k e => (Option.some_ne_none k e.symm).elim
theorem Fields.critTrip (kind : Nat) (input : Nat) (reading : Int) (t : Nat) :
    Fields.Statement (.critTrip kind input reading t) := fun _ k e => (Option.some_ne_none k e.symm).elim
theorem Fields.shdnN (low : Bool) (t : Nat) :
    Fields.Statement (.shdnN low t) := fun _ k e => (Option.some_ne_none k e.symm).elim
theorem Fields.leak (n : Nat) (ohm : List Nat) (t : Nat) :
    Fields.Statement (.leak n ohm t) := fun _ k e => (Option.some_ne_none k e.symm).elim
theorem Fields.loopFault (n : Nat) (ohm : Nat) (held : Nat) (t : Nat) :
    Fields.Statement (.loopFault n ohm held t) := fun _ k e => (Option.some_ne_none k e.symm).elim
theorem Fields.leakLoopNormal (n : Nat) (ohm : Nat) (held : Nat) (t : Nat) :
    Fields.Statement (.leakLoopNormal n ohm held t) := fun _ k e => (Option.some_ne_none k e.symm).elim
theorem Fields.flowConfirm (flow : Nat) (dp : Int) (held : Nat) (t : Nat) :
    Fields.Statement (.flowConfirm flow dp held t) := fun _ k e => (Option.some_ne_none k e.symm).elim
theorem Fields.flowUnconfirmed (t : Nat) :
    Fields.Statement (.flowUnconfirmed t) := fun _ k e => (Option.some_ne_none k e.symm).elim
theorem Fields.kickAttempt (c : Nat) (t : Nat) :
    Fields.Statement (.kickAttempt c t) := fun _ k e => (Option.some_ne_none k e.symm).elim
theorem Fields.kickAttemptEnd (c : Nat) (rpm : Nat) (t : Nat) :
    Fields.Statement (.kickAttemptEnd c rpm t) := fun _ k e => (Option.some_ne_none k e.symm).elim
theorem Fields.tachLoss (c : Nat) (gap : Nat) (t : Nat) :
    Fields.Statement (.tachLoss c gap t) := fun _ k e => (Option.some_ne_none k e.symm).elim
theorem Fields.tachClassify (c : Nat) (t : Nat) :
    Fields.Statement (.tachClassify c t) := fun _ k e => (Option.some_ne_none k e.symm).elim
theorem Fields.tachRecover (c : Nat) (held : Nat) (t : Nat) :
    Fields.Statement (.tachRecover c held t) := fun _ k e => (Option.some_ne_none k e.symm).elim
theorem Fields.keepaliveKa (p : Machine.Path) (w : Word) (t : Nat) :
    Fields.Statement (.keepaliveKa p w t) := fun _ k e => (Option.some_ne_none k e.symm).elim
theorem Fields.autoMode (t : Nat) : Fields.Statement (.autoMode t) := fun _ k e => (Option.some_ne_none k e.symm).elim
theorem Fields.loopPeriod (t : Nat) : Fields.Statement (.loopPeriod t) := fun _ k e => (Option.some_ne_none k e.symm).elim
theorem Fields.loopSample (n : Nat) (t : Nat) :
    Fields.Statement (.loopSample n t) := fun _ k e => (Option.some_ne_none k e.symm).elim
theorem Fields.loopOutput (n : Nat) (t : Nat) :
    Fields.Statement (.loopOutput n t) := fun _ k e => (Option.some_ne_none k e.symm).elim
theorem Fields.loopArm (p : Machine.Path) (n : Nat) (w : Word) (t : Nat) :
    Fields.Statement (.loopArm p n w t) := fun _ k e => (Option.some_ne_none k e.symm).elim
theorem Fields.loopDisarm (p : Machine.Path) (n : Nat) (w : Word) (t : Nat) :
    Fields.Statement (.loopDisarm p n w t) := fun _ k e => (Option.some_ne_none k e.symm).elim
theorem Fields.commit (p : Machine.Path) (n : Nat) (w : Word) (t : Nat) :
    Fields.Statement (.commit p n w t) := fun _ k e => (Option.some_ne_none k e.symm).elim
theorem Fields.prim (p : Machine.Path) (n : Nat) (w : Word) (t : Nat) :
    Fields.Statement (.prim p n w t) := fun _ k e => (Option.some_ne_none k e.symm).elim
theorem Fields.beacon (t : Nat) : Fields.Statement (.beacon t) := fun _ k e => (Option.some_ne_none k e.symm).elim
theorem Fields.rcEn (p : Machine.Path) (n : Nat) (w : Word) (t : Nat) :
    Fields.Statement (.rcEn p n w t) := fun _ k e => (Option.some_ne_none k e.symm).elim
theorem Fields.quenchTraceArm (p : Machine.Path) (w : Word) (t : Nat) :
    Fields.Statement (.quenchTraceArm p w t) := fun _ k e => (Option.some_ne_none k e.symm).elim
theorem Fields.quenchTraceForce (p : Machine.Path) (w : Word) (t : Nat) :
    Fields.Statement (.quenchTraceForce p w t) := fun _ k e => (Option.some_ne_none k e.symm).elim
theorem Fields.quenchTrdata (t : Nat) : Fields.Statement (.quenchTrdata t) := fun _ k e => (Option.some_ne_none k e.symm).elim
theorem Fields.fixcmd (p : Machine.Path) (c : Nat) (w : Word) (t : Nat) :
    Fields.Statement (.fixcmd p c w t) := fun _ k e => (Option.some_ne_none k e.symm).elim
theorem Fields.vprofWrite (p : Machine.Path) (c : Nat) (w : Word) (t : Nat) :
    Fields.Statement (.vprofWrite p c w t) := fun _ k e => (Option.some_ne_none k e.symm).elim
theorem Fields.highSideGrant (b : Nat) (t : Nat) :
    Fields.Statement (.highSideGrant b t) := fun _ k e => (Option.some_ne_none k e.symm).elim
theorem Fields.peakReached (c : Nat) (cur : Nat) (vb : Nat) (t : Nat) :
    Fields.Statement (.peakReached c cur vb t) := fun _ k e => (Option.some_ne_none k e.symm).elim
theorem Fields.tpeakEnd (c : Nat) (t : Nat) :
    Fields.Statement (.tpeakEnd c t) := fun _ k e => (Option.some_ne_none k e.symm).elim
theorem Fields.ttphigh (c : Nat) (t : Nat) : Fields.Statement (.ttphigh c t) := fun _ k e => (Option.some_ne_none k e.symm).elim
theorem Fields.overcur (c : Nat) (hs : Bool) (cur : Nat) (t : Nat) :
    Fields.Statement (.overcur c hs cur t) := fun _ k e => (Option.some_ne_none k e.symm).elim
theorem Fields.abortRetry (c : Nat) (t : Nat) :
    Fields.Statement (.abortRetry c t) := fun _ k e => (Option.some_ne_none k e.symm).elim
theorem Fields.boostReady (vb : Nat) (t : Nat) :
    Fields.Statement (.boostReady vb t) := fun _ k e => (Option.some_ne_none k e.symm).elim
theorem Fields.boostnr (c : Nat) (t : Nat) : Fields.Statement (.boostnr c t) := fun _ k e => (Option.some_ne_none k e.symm).elim
theorem Fields.kink (c : Nat) (tz : Nat) (t : Nat) :
    Fields.Statement (.kink c tz t) := fun _ k e => (Option.some_ne_none k e.symm).elim
theorem Fields.nomotion (c : Nat) (tz : Nat) (t : Nat) :
    Fields.Statement (.nomotion c tz t) := fun _ k e => (Option.some_ne_none k e.symm).elim
theorem Fields.periodStart (b : Nat) (t : Nat) :
    Fields.Statement (.periodStart b t) := fun _ k e => (Option.some_ne_none k e.symm).elim
theorem Fields.eventStart (c : Nat) (t : Nat) :
    Fields.Statement (.eventStart c t) := fun _ k e => (Option.some_ne_none k e.symm).elim
theorem Fields.eventEnd (c : Nat) (t : Nat) :
    Fields.Statement (.eventEnd c t) := fun _ k e => (Option.some_ne_none k e.symm).elim
theorem Fields.pkrefuse (c : Nat) (t : Nat) :
    Fields.Statement (.pkrefuse c t) := fun _ k e => (Option.some_ne_none k e.symm).elim
theorem Fields.dlim (c : Nat) (t : Nat) : Fields.Statement (.dlim c t) := fun _ k e => (Option.some_ne_none k e.symm).elim
theorem Fields.coilModel (c : Nat) (irms2 : Nat) (t : Nat) :
    Fields.Statement (.coilModel c irms2 t) := fun _ k e => (Option.some_ne_none k e.symm).elim
theorem Fields.vvlow (mv : Nat) (held : Nat) (t : Nat) :
    Fields.Statement (.vvlow mv held t) := fun _ k e => (Option.some_ne_none k e.symm).elim
theorem Fields.vvalveRecover (mv : Nat) (held : Nat) (t : Nat) :
    Fields.Statement (.vvalveRecover mv held t) := fun _ k e => (Option.some_ne_none k e.symm).elim
theorem Fields.x1Release (t : Nat) : Fields.Statement (.x1Release t) := fun _ k e => (Option.some_ne_none k e.symm).elim
theorem Fields.canFrameRx (f : Machine.CanFrame) (t : Nat) :
    Fields.Statement (.canFrameRx f t) := fun _ k e => (Option.some_ne_none k e.symm).elim
theorem Fields.txreq (p : Machine.Path) (n : Nat) (w : Word) (t : Nat) :
    Fields.Statement (.txreq p n w t) := fun _ k e => (Option.some_ne_none k e.symm).elim
theorem Fields.cancel (p : Machine.Path) (n : Nat) (w : Word) (begun : Bool) (t : Nat) :
    Fields.Statement (.cancel p n w begun t) := fun _ k e => (Option.some_ne_none k e.symm).elim
theorem Fields.bcmdAck (p : Machine.Path) (n : Nat) (w : Word) (t : Nat) :
    Fields.Statement (.bcmdAck p n w t) := fun _ k e => (Option.some_ne_none k e.symm).elim
theorem Fields.canTxComplete (n : Nat) (sent : Bool) (tdcv : Nat) (t : Nat) :
    Fields.Statement (.canTxComplete n sent tdcv t) := fun _ k e => (Option.some_ne_none k e.symm).elim
theorem Fields.canState (st : Nat) (tec : Nat) (rec : Nat) (lec : Nat) (t : Nat) :
    Fields.Statement (.canState st tec rec lec t) := fun _ k e => (Option.some_ne_none k e.symm).elim
theorem Fields.busOffRecovery (seqs : Nat) (t : Nat) :
    Fields.Statement (.busOffRecovery seqs t) := fun _ k e => (Option.some_ne_none k e.symm).elim
theorem Fields.tten (p : Machine.Path) (w : Word) (t : Nat) :
    Fields.Statement (.tten p w t) := fun _ k e => (Option.some_ne_none k e.symm).elim
theorem Fields.referenceMessage (f : Machine.CanFrame) (t : Nat) :
    Fields.Statement (.referenceMessage f t) := fun _ k e => (Option.some_ne_none k e.symm).elim
theorem Fields.referenceTimeout (t : Nat) :
    Fields.Statement (.referenceTimeout t) := fun _ k e => (Option.some_ne_none k e.symm).elim
theorem Fields.ttWindow (k : Nat) (t : Nat) :
    Fields.Statement (.ttWindow k t) := fun _ k e => (Option.some_ne_none k e.symm).elim
theorem Fields.ttEventFallback (t : Nat) :
    Fields.Statement (.ttEventFallback t) := fun _ k e => (Option.some_ne_none k e.symm).elim
theorem Fields.loopMessage (f : Machine.CanFrame) (t : Nat) :
    Fields.Statement (.loopMessage f t) := fun _ k e => (Option.some_ne_none k e.symm).elim
theorem Fields.alertRx (f : Machine.CanFrame) (t : Nat) :
    Fields.Statement (.alertRx f t) := fun _ k e => (Option.some_ne_none k e.symm).elim
theorem Fields.ident (src : BitVec 128) (d : Machine.Dgram) (t : Nat) :
    Fields.Statement (.ident src d t) := fun _ k e => (Option.some_ne_none k e.symm).elim
theorem Fields.keepalive (src : BitVec 128) (d : Machine.Dgram) (t : Nat) :
    Fields.Statement (.keepalive src d t) := fun _ k e => (Option.some_ne_none k e.symm).elim
theorem Fields.csrRead (src : BitVec 128) (d : Machine.Dgram) (t : Nat) :
    Fields.Statement (.csrRead src d t) := fun _ k e => (Option.some_ne_none k e.symm).elim
theorem Fields.csrWrite (src : BitVec 128) (d : Machine.Dgram) (t : Nat) :
    Fields.Statement (.csrWrite src d t) := fun _ k e => (Option.some_ne_none k e.symm).elim
theorem Fields.setFacility (src : BitVec 128) (d : Machine.Dgram) (t : Nat) :
    Fields.Statement (.setFacility src d t) := fun _ k e => (Option.some_ne_none k e.symm).elim
theorem Fields.coolRestart (src : BitVec 128) (d : Machine.Dgram) (t : Nat) :
    Fields.Statement (.coolRestart src d t) := fun _ k e => (Option.some_ne_none k e.symm).elim
theorem Fields.leakClear (src : BitVec 128) (d : Machine.Dgram) (t : Nat) :
    Fields.Statement (.leakClear src d t) := fun _ k e => (Option.some_ne_none k e.symm).elim
theorem Fields.fanClear (src : BitVec 128) (d : Machine.Dgram) (t : Nat) :
    Fields.Statement (.fanClear src d t) := fun _ k e => (Option.some_ne_none k e.symm).elim
theorem Fields.valveClear (src : BitVec 128) (d : Machine.Dgram) (t : Nat) :
    Fields.Statement (.valveClear src d t) := fun _ k e => (Option.some_ne_none k e.symm).elim
theorem Fields.anvilHold (src : BitVec 128) (d : Machine.Dgram) (t : Nat) :
    Fields.Statement (.anvilHold src d t) := fun _ k e => (Option.some_ne_none k e.symm).elim
theorem Fields.resetModule (src : BitVec 128) (d : Machine.Dgram) (t : Nat) :
    Fields.Statement (.resetModule src d t) := fun _ k e => (Option.some_ne_none k e.symm).elim
theorem Fields.moduleReset (t : Nat) : Fields.Statement (.moduleReset t) := fun _ k e => (Option.some_ne_none k e.symm).elim
theorem Fields.resetCompute (src : BitVec 128) (d : Machine.Dgram) (t : Nat) :
    Fields.Statement (.resetCompute src d t) := fun _ k e => (Option.some_ne_none k e.symm).elim
theorem Fields.resetComputeKeep (src : BitVec 128) (d : Machine.Dgram) (t : Nat) :
    Fields.Statement (.resetComputeKeep src d t) := fun _ k e => (Option.some_ne_none k e.symm).elim
theorem Fields.resetHearth (src : BitVec 128) (d : Machine.Dgram) (t : Nat) :
    Fields.Statement (.resetHearth src d t) := fun _ k e => (Option.some_ne_none k e.symm).elim
theorem Fields.hearthResetStart (t : Machine.SelfTest) :
    Fields.Statement (.hearthResetStart t) := fun _ k e => (Option.some_ne_none k e.symm).elim
theorem Fields.resetStream (src : BitVec 128) (d : Machine.Dgram) (t : Nat) :
    Fields.Statement (.resetStream src d t) := fun _ k e => (Option.some_ne_none k e.symm).elim
theorem Fields.eventRead (src : BitVec 128) (d : Machine.Dgram) (t : Nat) :
    Fields.Statement (.eventRead src d t) := fun _ k e => (Option.some_ne_none k e.symm).elim
theorem Fields.eventClear (src : BitVec 128) (d : Machine.Dgram) (t : Nat) :
    Fields.Statement (.eventClear src d t) := fun _ k e => (Option.some_ne_none k e.symm).elim
theorem Fields.mSnap (src : BitVec 128) (d : Machine.Dgram) (t : Nat) :
    Fields.Statement (.mSnap src d t) := fun _ k e => (Option.some_ne_none k e.symm).elim
theorem Fields.claim (src : BitVec 128) (d : Machine.Dgram) (t : Nat) :
    Fields.Statement (.claim src d t) := fun _ k e => (Option.some_ne_none k e.symm).elim
theorem Fields.config (src : BitVec 128) (d : Machine.Dgram) (t : Nat) :
    Fields.Statement (.config src d t) := fun _ k e => (Option.some_ne_none k e.symm).elim
theorem Fields.counter (src : BitVec 128) (d : Machine.Dgram) (t : Nat) :
    Fields.Statement (.counter src d t) := fun _ k e => (Option.some_ne_none k e.symm).elim
theorem Fields.attest (src : BitVec 128) (d : Machine.Dgram) (t : Nat) :
    Fields.Statement (.attest src d t) := fun _ k e => (Option.some_ne_none k e.symm).elim
theorem Fields.attestCert (src : BitVec 128) (d : Machine.Dgram) (t : Nat) :
    Fields.Statement (.attestCert src d t) := fun _ k e => (Option.some_ne_none k e.symm).elim
theorem Fields.fwUpdateBegin (src : BitVec 128) (d : Machine.Dgram) (t : Nat) :
    Fields.Statement (.fwUpdateBegin src d t) := fun _ k e => (Option.some_ne_none k e.symm).elim
theorem Fields.fwUpdateData (src : BitVec 128) (d : Machine.Dgram) (t : Nat) :
    Fields.Statement (.fwUpdateData src d t) := fun _ k e => (Option.some_ne_none k e.symm).elim
theorem Fields.fwUpdateEnd (src : BitVec 128) (d : Machine.Dgram) (norErr : Bool) (t : Nat) :
    Fields.Statement (.fwUpdateEnd src d norErr t) := fun _ k e => (Option.some_ne_none k e.symm).elim
theorem Fields.fwUpdateActivate (src : BitVec 128) (d : Machine.Dgram) (t : Nat) :
    Fields.Statement (.fwUpdateActivate src d t) := fun _ k e => (Option.some_ne_none k e.symm).elim
theorem Fields.fwUpdateCommit (src : BitVec 128) (d : Machine.Dgram) (t : Nat) :
    Fields.Statement (.fwUpdateCommit src d t) := fun _ k e => (Option.some_ne_none k e.symm).elim
theorem Fields.fwUpdateAbandon (t : Nat) :
    Fields.Statement (.fwUpdateAbandon t) := fun _ k e => (Option.some_ne_none k e.symm).elim
theorem Fields.debugUnlock (src : BitVec 128) (d : Machine.Dgram) (t : Nat) :
    Fields.Statement (.debugUnlock src d t) := fun _ k e => (Option.some_ne_none k e.symm).elim
theorem Fields.notifyAck (src : BitVec 128) (d : Machine.Dgram) (t : Nat) :
    Fields.Statement (.notifyAck src d t) := fun _ k e => (Option.some_ne_none k e.symm).elim
theorem Fields.notifyResend (t : Nat) : Fields.Statement (.notifyResend t) := fun _ k e => (Option.some_ne_none k e.symm).elim
theorem Fields.coldReset (vsb : Nat) (held : Nat) (t : Nat) :
    Fields.Statement (.coldReset vsb held t) := fun _ k e => (Option.some_ne_none k e.symm).elim
theorem Fields.romBoot (errA : Bool) (errB : Bool) (t : Nat) :
    Fields.Statement (.romBoot errA errB t) := fun _ k e => (Option.some_ne_none k e.symm).elim
theorem Fields.watchdog (t : Nat) : Fields.Statement (.watchdog t) := fun _ k e => (Option.some_ne_none k e.symm).elim
theorem Fields.pllLock (t : Nat) : Fields.Statement (.pllLock t) := fun _ k e => (Option.some_ne_none k e.symm).elim
theorem Fields.bringupReady (badAnvils : List Nat) (badStacks : List (Nat × Nat)) (t : Nat) :
    Fields.Statement (.bringupReady badAnvils badStacks t) := fun _ k e => (Option.some_ne_none k e.symm).elim
theorem Fields.bringupTimeout (t : Nat) :
    Fields.Statement (.bringupTimeout t) := fun _ k e => (Option.some_ne_none k e.symm).elim
theorem Fields.refclkLoss (t : Nat) : Fields.Statement (.refclkLoss t) := fun _ k e => (Option.some_ne_none k e.symm).elim
theorem Fields.srefLoss (t : Nat) : Fields.Statement (.srefLoss t) := fun _ k e => (Option.some_ne_none k e.symm).elim
theorem Fields.vin48Undervoltage (mv : Nat) (held : Nat) (t : Nat) :
    Fields.Statement (.vin48Undervoltage mv held t) := fun _ k e => (Option.some_ne_none k e.symm).elim
theorem Fields.vin48Overvoltage (mv : Nat) (held : Nat) (t : Nat) :
    Fields.Statement (.vin48Overvoltage mv held t) := fun _ k e => (Option.some_ne_none k e.symm).elim
theorem Fields.vin48Recover (mv : Nat) (held : Nat) (t : Nat) :
    Fields.Statement (.vin48Recover mv held t) := fun _ k e => (Option.some_ne_none k e.symm).elim
theorem Fields.vsb12Warn (mv : Nat) (held : Nat) (t : Nat) :
    Fields.Statement (.vsb12Warn mv held t) := fun _ k e => (Option.some_ne_none k e.symm).elim
theorem Fields.vsb12Sag (mv : Nat) (held : Nat) (t : Nat) :
    Fields.Statement (.vsb12Sag mv held t) := fun _ k e => (Option.some_ne_none k e.symm).elim
theorem Fields.mateConnect (held : Nat) (t : Nat) :
    Fields.Statement (.mateConnect held t) := fun _ k e => (Option.some_ne_none k e.symm).elim
theorem Fields.mateDisconnect (held : Nat) (t : Nat) :
    Fields.Statement (.mateDisconnect held t) := fun _ k e => (Option.some_ne_none k e.symm).elim
theorem Fields.sourceAssert (n : Nat) (t : Nat) :
    Fields.Statement (.sourceAssert n t) := fun _ k e => (Option.some_ne_none k e.symm).elim
theorem Fields.bicClaim (c : Nat) (t : Nat) :
    Fields.Statement (.bicClaim c t) := fun _ k e => (Option.some_ne_none k e.symm).elim
theorem Fields.bicComplete (p : Machine.Path) (c : Nat) (w : Word) (t : Nat) :
    Fields.Statement (.bicComplete p c w t) := fun _ k e => (Option.some_ne_none k e.symm).elim
theorem Fields.reevaluate (c : Nat) (t : Nat) :
    Fields.Statement (.reevaluate c t) := fun _ k e => (Option.some_ne_none k e.symm).elim
theorem Fields.hcomplete (p : Machine.Path) (w : Word) (t : Nat) :
    Fields.Statement (.hcomplete p w t) := fun _ k e => (Option.some_ne_none k e.symm).elim
theorem Fields.htmo (n : Nat) (t : Nat) : Fields.Statement (.htmo n t) := fun _ k e => (Option.some_ne_none k e.symm).elim
theorem Fields.levelRedeliver (n : Nat) (target : Nat) (t : Nat) :
    Fields.Statement (.levelRedeliver n target t) := fun _ k e => (Option.some_ne_none k e.symm).elim
theorem Fields.groupRelease (g : Nat) (t : Nat) :
    Fields.Statement (.groupRelease g t) := fun _ k e => (Option.some_ne_none k e.symm).elim
theorem Fields.norWrite (ok : Bool) (t : Nat) :
    Fields.Statement (.norWrite ok t) := fun _ k e => (Option.some_ne_none k e.symm).elim
theorem Fields.rsel (p : Machine.Path) (w : Word) (t : Nat) :
    Fields.Statement (.rsel p w t) := fun _ k e => (Option.some_ne_none k e.symm).elim
theorem Fields.snapctlSnap (p : Machine.Path) (w : Word) (t : Nat) :
    Fields.Statement (.snapctlSnap p w t) := fun _ k e => (Option.some_ne_none k e.symm).elim
theorem Fields.snapCapture (t : Nat) : Fields.Statement (.snapCapture t) := fun _ k e => (Option.some_ne_none k e.symm).elim
theorem Fields.hammerTraceArm (p : Machine.Path) (w : Word) (t : Nat) :
    Fields.Statement (.hammerTraceArm p w t) := fun _ k e => (Option.some_ne_none k e.symm).elim
theorem Fields.hammerTraceForce (p : Machine.Path) (w : Word) (t : Nat) :
    Fields.Statement (.hammerTraceForce p w t) := fun _ k e => (Option.some_ne_none k e.symm).elim
theorem Fields.hammerTrdata (t : Nat) : Fields.Statement (.hammerTrdata t) := fun _ k e => (Option.some_ne_none k e.symm).elim
theorem Fields.idcode : Fields.Statement .idcode := fun _ k e => (Option.some_ne_none k e.symm).elim
theorem Fields.samplePreload (bits : Nat) :
    Fields.Statement (.samplePreload bits) := fun _ k e => (Option.some_ne_none k e.symm).elim
theorem Fields.extest (bits : Nat) : Fields.Statement (.extest bits) := fun _ k e => (Option.some_ne_none k e.symm).elim
theorem Fields.highz : Fields.Statement .highz := fun _ k e => (Option.some_ne_none k e.symm).elim
theorem Fields.clamp : Fields.Statement .clamp := fun _ k e => (Option.some_ne_none k e.symm).elim
theorem Fields.bypass : Fields.Statement .bypass := fun _ k e => (Option.some_ne_none k e.symm).elim
theorem Fields.registerWrite (p : Machine.Path) (addr : Nat) (w : Word) (t : Nat) :
    Fields.Statement (.registerWrite p addr w t) := fun _ k e => (Option.some_ne_none k e.symm).elim
theorem Fields.mgmtPortLinkUp (t : Nat) :
    Fields.Statement (.mgmtPortLinkUp t) := fun _ k e => (Option.some_ne_none k e.symm).elim
theorem Fields.mgmtPortLinkDown (t : Nat) :
    Fields.Statement (.mgmtPortLinkDown t) := fun _ k e => (Option.some_ne_none k e.symm).elim
theorem Fields.mainDieLinkLoss (t : Nat) :
    Fields.Statement (.mainDieLinkLoss t) := fun _ k e => (Option.some_ne_none k e.symm).elim
theorem Fields.neighbourAdvertisement (e : Machine.EthIn) (a : BitVec 128) (mac : Nat) (port : Nat) (t : Nat) :
    Fields.Statement (.neighbourAdvertisement e a mac port t) := fun _ k e => (Option.some_ne_none k e.symm).elim
theorem Fields.tuyereDomainOff (mv : Nat) (held : Nat) (t : Nat) :
    Fields.Statement (.tuyereDomainOff mv held t) := fun _ k e => (Option.some_ne_none k e.symm).elim

end Sys2Proof.Laws
end

