-- ==== Sys2Proof/Laws/Recorder.lean ====
section
/-! SUPPORT. Interrupts do not touch the recorder, so a record just written is the last one. -/

namespace Sys2Proof.Machine

theorem State.evrec_foldl {α : Type} (f : State → α → State) (xs : List α) (h : ∀ s : State, ∀ x ∈ xs, (f s x).evrec = s.evrec)
    (s : State) : (xs.foldl f s).evrec = s.evrec := by
  induction xs generalizing s with
  | nil => rfl
  | cons x r ih => exact (ih (fun s y hy => h s y (by simp [hy])) _).trans (h s x (by simp))

@[simp] theorem State.evrec_put (u : State) (f : Fd) (v : Nat) : (u.put f v).evrec = u.evrec := rfl
@[simp] theorem State.evrec_setCtx (u : State) (n : Nat) (x : Ctx) : (u.setCtx n x).evrec = u.evrec := rfl
@[simp] theorem State.evrec_setCore (u : State) (n : Nat) (x : CoreIrq) : (u.setCore n x).evrec = u.evrec := rfl
@[simp] theorem State.evrec_setNotice (u : State) (t : Nat) : (u.setNotice t).evrec = u.evrec := by
  unfold State.setNotice; exact State.evrec_setCore _ _ _
@[simp] theorem State.evrec_setSrc (u : State) (n : Nat) (x : Src) : (u.setSrc n x).evrec = u.evrec := rfl

theorem State.evrec_queueMsg (u : State) (n opc : Nat) (resp : Bool) (data : List Byte) (nop : Option Nat) :
    (u.queueMsg n opc resp data nop).evrec = u.evrec := by
  unfold State.queueMsg
  extract_lets c m c'
  clear_value c'
  split
  · exact State.evrec_setCtx _ _ _
  · rfl

theorem State.evrec_notify (u : State) (n prio evt : Nat) : (u.notify n prio evt).2.evrec = u.evrec := by
  unfold State.notify
  split
  · rfl
  · simp only
    split <;> rfl

theorem State.evrec_deliver (u : State) (n t : Nat) : (u.deliver n t).evrec = u.evrec := by
  unfold State.deliver
  extract_lets x cnt prio seq
  split
  rename_i sent s1 heq
  have hp : s1.evrec = u.evrec := by
    by_cases ht : t = 2
    · rw [if_pos ht] at heq
      have : s1 = _ := (congrArg Prod.snd heq).symm
      rw [this]; exact State.evrec_queueMsg _ _ _ _ _ _
    · rw [if_neg ht] at heq
      have : s1 = _ := (congrArg Prod.snd heq).symm
      rw [this]; exact State.evrec_notify _ _ _ _
  extract_lets x' s2 s3
  have h3 : s3.evrec = u.evrec := hp
  split
  · exact h3
  · exact h3

theorem State.evrec_assign (u : State) (n t : Nat) : (u.assign n t).evrec = u.evrec := by
  unfold State.assign
  split
  · rfl
  · extract_lets x out s1
    split
    · rename_i _ held _
      clear_value held
      cases held with
      | none => rfl
      | some c =>
        simp only [State.evrec_setSrc]
        split <;> rfl
    · exact State.evrec_deliver s1 n t

theorem State.evrec_route (u : State) (n : Nat) : (u.route n).evrec = u.evrec := by
  unfold State.route
  simp only
  have hw : (u.watch n).evrec = u.evrec := by
    unfold State.watch
    split <;> rfl
  rw [← hw]
  generalize u.watch n = v
  split
  · refine State.evrec_foldl _ _ (fun s x _ => ?_) _
    split
    · exact State.evrec_assign _ _ _
    · rfl
  · split
    · rfl
    · exact State.evrec_assign _ _ _

theorem State.evrec_releaseGroup (u : State) (g : Nat) : (u.releaseGroup g).evrec = u.evrec := by
  unfold State.releaseGroup
  refine State.evrec_foldl _ _ (fun s n hn => ?_) _
  simp only
  split
  · exact State.evrec_route _ _
  · rfl

/-- Raising an interrupt leaves the recorder. -/
@[simp] theorem State.evrec_raise (u : State) (n : Nat) : (u.raise n).evrec = u.evrec := by
  unfold State.raise
  extract_lets level s1 g
  have h1 : s1.evrec = u.evrec := by
    unfold s1; split <;> rfl
  split
  · exact (State.evrec_route _ _).trans h1
  · split
    · exact (State.evrec_releaseGroup _ _).trans h1
    · exact h1

@[simp] theorem State.evrec_lower (u : State) (n : Nat) : (u.lower n).evrec = u.evrec := by
  unfold State.lower
  simp only [State.evrec_setNotice, State.evrec_setSrc, State.evrec_put]

@[simp] theorem State.evrec_setLevel (u : State) (n : Nat) (b : Bool) : (u.setLevel n b).evrec = u.evrec := by
  unfold State.setLevel
  split
  · split
    · rfl
    · exact State.evrec_raise _ _
  · split
    · exact State.evrec_lower _ _
    · rfl

@[simp] theorem State.evrec_evrecSync (u : State) : u.evrecSync.evrec = u.evrec := by
  unfold State.evrecSync State.evrecLevel
  exact (State.evrec_setLevel _ _ _).trans ((State.evrec_put _ _ _).trans (State.evrec_put _ _ _))

/-- A group is written whole where the buffer takes it; its last record is then the last of the circulating area. -/
theorem State.eventGroup_last (u : State) (g : List Evt) (hn : u.evrec.nor.length + g.length < 449) (hg : g ≠ []) :
    (u.eventGroup g).2.evrec.circ.getLast?.map (·.code) = g.getLast?.map (·.code) := by
  obtain ⟨r, e, rfl⟩ : ∃ r e, g = r ++ [e] := ⟨g.dropLast, g.getLast hg, (List.dropLast_append_getLast hg).symm⟩
  have happ : ∀ (s : State) (x : Evt), (s.appendEvt x).evrec.circ.getLast?.map (·.code) = some x.code := by
    intro s x
    unfold State.appendEvt
    simp only
    rw [List.getLast?_drop]
    simp
  have hfold : ∀ s : State, ((r ++ [e]).foldl State.appendEvt s).evrec.circ.getLast?.map (·.code) = some e.code := by
    intro s; rw [List.foldl_append]; exact happ _ e
  cases hc : r ++ [e] with
  | nil => simp at hc
  | cons x l =>
    rw [hc] at hfold
    have hlen : (r ++ [e]).length = l.length + 1 := by rw [hc]; rfl
    unfold State.eventGroup
    simp only
    have hno : ∀ lost : List Evt, lost.length ≤ 1 →
        ¬ (u.evrec.nor.length ≥ 448 ∧ Decidable.decide (x.sevsrc / 4096 ≤ 1) = true ∨
          u.evrec.nor.length + lost.length + (x :: l).length > 512) := by
      intro lost h1
      have : (x :: l).length = (r ++ [e]).length := by rw [hc]
      rw [hlen] at hn
      simp only [List.length_cons]
      omega
    rw [if_neg (hno _ (by split <;> simp))]
    simp only [State.evrec_evrecSync]
    rw [hfold, ← hc]; simp

/-- An event record where the recorder has room is the last one. -/
theorem State.recorded_event (u : State) (code sev src p0 p1 p2 : Nat) : u.recorded (u.event code sev src p0 p1 p2) code := by
  intro h1 h2
  unfold State.event State.eventSeq
  simp only [h2]
  rw [State.eventGroup_last _ _ (by simp; omega) (by simp)]
  rfl

/-- As `recorded_event`, with the interrupt that names the record. -/
theorem State.recorded_eventIrq (u : State) (irq code sev src p0 p1 p2 : Nat) :
    u.recorded (u.eventIrq irq code sev src p0 p1 p2) code := by
  intro h1 h2
  have h := State.recorded_event u code sev src p0 p1 p2 h1 h2
  have he : (u.eventIrq irq code sev src p0 p1 p2).evrec = (u.event code sev src p0 p1 p2).evrec :=
    (State.evrec_raise _ _).trans (State.evrec_put _ _ _)
  rw [he]; exact h

end Sys2Proof.Machine
end

