-- ==== Sys2Proof/Laws/Scalar.lean ====
section
/-! SUPPORT. What a scalar word does, said once: in a bundle of its own it writes one register at the next position, or
later. -/

namespace Sys2Proof.Machine

/-- A word that writes one scalar register after more than one position. -/
theorem slotOp_willWrite (s : State) (h : Hd) (o : SlotOp) (hs : s.sole h o.slots) (hl : o.legal = true)
    (hd : noDup o.dests = true) (hw : o.wait = 0) (hr : o.raw = none) (lat d : Nat) (x : Word) (sat : Bool)
    (he : o.eff s = [⟨lat, .s d x sat⟩]) (hlat : 2 ≤ lat) :
    ∃ t, s.slotOp h o = .next t ∧ s.willWrite t h lat d x sat := by
  have hso := slotOp_sole s h o hs hl hd (by simp [hw]) (by rw [hw]; exact waitFail_zero s) (by rw [hr]; rfl)
    (by rw [he]; intro f hf; simp at hf; subst hf; exact .inl rfl)
  have hend : s.hammer.ending = none := by
    have := hs.1; simp [State.taking] at this; exact this.2
  obtain ⟨_, _, _, _, _, _, _, _, _, hfa, _⟩ := id hs
  rw [he] at hso
  rw [State.commitAt_none] at hso
  swap
  · intro f hf
    have : f ∈ [(⟨s.hammer.pos + lat, .s d x sat⟩ : Flight)] := hf
    simp at this; subst this
    show s.hammer.pos + lat ≠ s.hammer.pos + 1
    omega
  refine ⟨_, hso, issuedWith_movedOn s h _ ?_, rfl, rfl, rfl, rfl, hfa, hend⟩
  · intro f hf g st heq; simp at hf; subst hf; simp at heq

/-- A word that writes one scalar register at the next position. -/
theorem slotOp_wrote (s : State) (h : Hd) (o : SlotOp) (hs : s.sole h o.slots) (hl : o.legal = true)
    (hd : noDup o.dests = true) (hw : o.wait = 0) (hr : o.raw = none) (d : Nat) (x : Word) (sat : Bool)
    (he : o.eff s = [⟨1, .s d x sat⟩]) :
    ∃ t, s.slotOp h o = .next t ∧ s.wrote t h d x sat := by
  have hso := slotOp_sole s h o hs hl hd (by simp [hw]) (by rw [hw]; exact waitFail_zero s) (by rw [hr]; rfl)
    (by rw [he]; intro f hf; simp at hf; subst hf; exact .inl rfl)
  have hend : s.hammer.ending = none := by
    have := hs.1; simp [State.taking] at this; exact this.2
  obtain ⟨_, _, _, _, _, _, _, _, _, hfa, _⟩ := id hs
  rw [he] at hso
  set Z := s.issuedWith h [⟨1, .s d x sat⟩] with hZ
  have hm : s.movedOn Z h := by
    refine issuedWith_movedOn s h _ ?_
    intro f hf g st heq; simp at hf; subst hf; simp at heq
  have hc : Z.commitAt (s.hammer.pos + 1) =
      (Z.onHammer (fun h => { h with flight := [] })).commit (.s d x sat) := by
    have e : Z.hammer.flight = [⟨s.hammer.pos + 1, .s d x sat⟩] := rfl
    unfold State.commitAt
    rw [e]; simp
  have hrd : ∀ a, a ≠ HAMMER_ISSUECNT → a ≠ HAMMER_PCSTAT → Z.rd a = s.rd a := by
    intro a h1 h2
    show (((s.inc HAMMER_ISSUECNT_COUNT).put HAMMER_PCSTAT_PC s.hammer.pc)).rd a = _
    rw [State.rd_put_ne _ _ _ h2, State.inc, State.add, State.rd_put_ne _ _ _ h1]
  have hs1 : HAMMER_SFLAGS ≠ HAMMER_ISSUECNT ∧ HAMMER_SFLAGS ≠ HAMMER_PCSTAT := by decide
  rw [hc] at hso
  set W := (Z.onHammer (fun h => { h with flight := [] })).setS d x with hW
  have hWr : ∀ a, W.rd a = Z.rd a := fun a => rfl
  have hWs : ∀ n, W.sreg n = if n = d then x else s.sreg n := by
    intro n
    show Tab.get (fun _ => 0) (Tab.set (fun _ => 0) s.hammer.s d x) n = _
    rw [Tab.get_set]; rfl
  have hcom : (Z.onHammer (fun h => { h with flight := [] })).commit (.s d x sat) =
      if sat then W.put HAMMER_SFLAGS_INT_SAT 1 else W := rfl
  rw [hcom] at hso
  have key : ∀ t : State, t.hammer = W.hammer → t.anvils = W.anvils → (∀ a, a ≠ HAMMER_SFLAGS → t.rd a = W.rd a) →
      t = { W with csr := t.csr } → t.get HAMMER_SFLAGS_INT_SAT = (if sat then 1 else s.get HAMMER_SFLAGS_INT_SAT) →
      s.wrote t h d x sat := by
    intro t h1 _ h3 h4 h5
    obtain ⟨m1, m2, m3, m4, m5⟩ := hm
    have hWh : W.hammer = { Z.hammer with flight := [], s := W.hammer.s } := rfl
    have hWe : W = { s with csr := W.csr, hammer := W.hammer, trace := W.trace, wb := W.wb } := by
      have : W = { Z with hammer := W.hammer } := rfl
      rw [this, m4]
    refine ⟨⟨?_, ?_, ?_, ?_, ?_⟩, ?_, ?_, ?_, ?_, ?_, ?_, ?_, h5, ?_⟩
    · rw [h1]; exact m1
    · unfold State.get; rw [h3 _ (by decide)]; exact m2
    · intro a; rw [h4]; exact m3 a
    · rw [h4, hWe]
    · rw [h1, hWh, m5]
    · show Tab.get _ t.hammer.s d = x
      rw [h1]; have := hWs d; simpa [State.sreg] using this
    · intro n hn
      have := hWs n; rw [if_neg hn] at this; rw [← this]; unfold State.sreg; rw [h1]
    · rw [h1]; rfl
    · rw [h1]; rfl
    · rw [h1]; rfl
    · rw [h1]; exact hfa
    · rw [h1]; exact hend
    · intro a a1 a2 a3; rw [h3 a a3, hWr, hrd a a1 a2]
  cases sat with
  | false =>
    refine ⟨W, hso, key W rfl rfl (fun _ _ => rfl) rfl ?_⟩
    show W.get HAMMER_SFLAGS_INT_SAT = s.get HAMMER_SFLAGS_INT_SAT
    unfold State.get; rw [hWr, hrd _ hs1.1 hs1.2]
  | true =>
    refine ⟨_, hso, key _ rfl rfl (fun a ha => State.rd_put_ne _ _ _ ha) rfl ?_⟩
    exact State.get_put_self _ _ _ (by decide) (by decide)

end Sys2Proof.Machine
end

