-- ==== Sys2Proof/Machine/Fetch.lean ====
section
/-! DEFINITION. The bundle that stands at the program counter (R110–R115, R136, R137). -/

namespace Sys2Proof.Machine

/-- The commands of the bundle that stands at the program counter in the Hammer store, whatever bits stand there (R137): what
the sender that carries a job's code sends next (assumption log 7); none outside the code region (R136). -/
def State.fetched (s : State) : List Instr :=
  match s.runImage with
  | some i => if i.inCode s.hammer.pc then Sys2Proof.decodeBundle (s.readN (i.addr + 16 * s.hammer.pc) 64) else []
  | none => []

end Sys2Proof.Machine
end

