-- ==== Sys2Proof/Tests/Slice0.lean ====
section
/-! SUPPORT. Tests: ill-formed terms are refused, the step takes the front of the queue, the spec's worked examples, and
for every statement with hypotheses a concrete state and operands that meet them. -/

namespace Sys2Proof.Tests

open Sys2Proof.Machine

set_option Elab.async false

/-! ### Well-formed terms -/

def hd (slot : Nat) : Hd := ⟨slot, true, 1⟩
def cb : CBf := ⟨0, 0, 0, 0⟩
def cs : CSf := ⟨0, 0, 0, 0, 0⟩
def ma : MAf := ⟨0, 0, 0, 0, 0, 0⟩
def mr : MRf := ⟨0, 0, 0, 0, 0, 0, 0, 0⟩
def mc : MCf := ⟨0, 0, 0, 0⟩
def vr : VRf := ⟨0, 0, 0, 0, 0, 0, 0, 0, 0⟩
def vi : VIf := ⟨0, 0, 0, 0, 0, 0, 0⟩
def ls : LSf := ⟨0, 0, 0, 0, 0, 0⟩
def xe : XEf := ⟨0, 0, 0, 0, 0, 0, 0, 0⟩
def xc : XCf := ⟨0, 0, 0, 0, 0⟩
def ns : NSf := ⟨0, 0, 0, 0, 0⟩
def tt : TTf := ⟨0, 0, 0⟩
def pk : Pkt := ⟨1, 0, 0, 0, 0, 0, 0, 0, 0, 0, 0, 0, 0, 0, 0, [], Net.none⟩
/-- A good frame received on an interface. -/
def rx (i : Nat) : EthIn := ⟨i, 0, true, none, false⟩
def fr : CanFrame := ⟨0, false, false, false, false, false, 0, []⟩
def dg : Dgram := ⟨1, 0, 0, 0, 0, 0, 0, [], true, true, none, false, 0, 0, 0⟩

theorem test_wf_accepts_slot_words :
    ([.nop (hd 9) none, .br (hd 0) cb, .wait (hd 0) { cs with d := 3 }, .sArith (hd 0) 0x48 cs, .mmac (hd 1) 0x01 ma,
      .mrd (hd 2) mr, .mtst (hd 1) 0x62 mc, .fmaFmsF32 (hd 3) 4 vr, .moviS32 (hd 4) vi, .ldA (hd 5) 1 ls, .ldH (hd 5) 3 ls,
      .xfer (hd 7) 1 xe, .crcCmd (hd 7) xc, .sig (hd 8) ns, .heat (hd 9) tt, .stop 3] : List Instr).all Instr.wf = true := by
  decide

theorem test_wf_refuses_header :
    ([.nop (hd 10) none, .nop ⟨0, true, 4⟩ none, .nop (hd 0) (some (2 ^ 512)), .br (hd 1) cb, .mmac (hd 3) 0x01 ma,
      .fmaFmsF32 (hd 5) 4 vr, .ldA (hd 4) 1 ls, .xfer (hd 8) 1 xe, .sig (hd 7) ns, .heat (hd 8) tt, .stop 4] : List Instr).all
      (fun i => !i.wf) = true := by decide +kernel

theorem test_wf_refuses_control :
    ([.br (hd 0) { cb with sa := 16 }, .br (hd 0) { cb with sa := 1 }, .br (hd 0) { cb with cc := 7 },
      .br (hd 0) { cb with tgt := 2 ^ 19 }, .dbnz (hd 0) { cb with sb := 1 }, .brl (hd 0) { cb with sa := 1 },
      .brInd (hd 0) { cb with tgt := 1 }, .waitm (hd 0) { cs with d := 1 }, .waitm (hd 0) { cs with imm := 2 ^ 16 },
      .wait (hd 0) { cs with imm := 1 }, .wait (hd 0) { cs with d := 16 }, .amaskSet (hd 0) { cs with h := 10 },
      .amaskSetAll (hd 0) { cs with h := 1 }, .sArith (hd 0) 0x4E cs, .sArith (hd 0) 0x48 { cs with imm := 1 },
      .sBitwise (hd 0) 0x51 cs, .sShift (hd 0) 0x54 cs, .addiS64 (hd 0) { cs with b := 1 }, .moviS64 (hd 0) { cs with a := 1 },
      .ldc (hd 0) { cs with a := 1 }, .ldcx (hd 0) { cs with b := 1 }, .ldm (hd 0) { cs with h := 1 },
      .stm (hd 0) { cs with d := 1 }, .pcount (hd 0) { cs with imm := 8 }, .rdbc (hd 0) { cs with imm := 1 }] : List Instr).all
      (fun i => !i.wf) = true := by decide

theorem test_wf_refuses_matrix :
    ([.mmac (hd 1) 0 ma, .mmac (hd 1) 13 ma, .mmac (hd 1) 0x10 ma, .mmac (hd 1) 1 { ma with acc := 4 },
      .mmac (hd 1) 1 { ma with vx := 1 }, .mmac (hd 1) 1 { ma with mod := 4 }, .mmac (hd 1) 1 { ma with mod := 48 },
      .mmac (hd 1) 1 { ma with pred := 1 }, .mcomb (hd 1) { ma with vb := 1 }, .mcomb (hd 1) { ma with mod := 96 },
      .mrd (hd 1) { mr with tf := 6 }, .mrd (hd 1) { mr with rm := 3 }, .mrd (hd 1) { mr with sel := 24 },
      .mpk (hd 1) { mr with tf := 1 }, .mpk (hd 1) { mr with mod := 3 }, .mclr (hd 1) { mc with pd := 1 },
      .mrsc (hd 1) { mc with exp := 1024 }, .mtst (hd 1) 0x66 mc, .mtst (hd 1) 0x62 { mc with exp := 1 }] : List Instr).all
      (fun i => !i.wf) = true := by decide

theorem test_wf_refuses_vector :
    ([.addSubMulF32 (hd 3) 4 vr, .addSubMulF32 (hd 3) 1 { vr with c := 1 }, .addSubMulF32 (hd 3) 1 { vr with df := 1 },
      .fmaFmsF32 (hd 3) 4 { vr with rm := 1 }, .minMaxF32 (hd 3) 6 { vr with d := 64 }, .absNegF32 (hd 3) 8 { vr with b := 1 },
      .sqrtF32 (hd 3) { vr with mod := 1 }, .rcpRsqrtExp2Log2F32 (hd 3) 15 vr, .int32Arith (hd 3) 0x26 vr,
      .minMaxS32 (hd 3) 0x28 vr, .absS32 (hd 3) { vr with b := 1 }, .slaS32 (hd 3) { vr with sf := 3 }, .b32Bitwise (hd 3) 0x2D vr,
      .b32Shift (hd 3) 0x30 vr, .vArithS64 (hd 3) 0x30 vr, .vBitwiseB64 (hd 3) 0x39 vr, .vShiftB64 (hd 3) 0x39 vr,
      .movB64 (hd 3) vr, .cmpanyCmpall (hd 3) 0x40 vr, .cmpS64U64 (hd 3) 0x46 vr, .cmpm (hd 3) 0x46 { vr with mod := 7 },
      .selB32 (hd 3) { vr with mod := 1 }, .permB32 (hd 3) { vr with sf := 1 }, .raddRmaxRminF32 (hd 3) 0x4D vr,
      .raddS32 (hd 3) { vr with b := 1 }, .cvtNarrow (hd 3) 0x50 { vr with mod := 2 }, .cvtS32F32 (hd 3) { vr with rm := 3 },
      .cvtIntNarrow (hd 3) 0x57 vr, .cvtWiden (hd 3) 0x5C vr, .cvtF32S32 (hd 3) { vr with mod := 1 },
      .mxq (hd 3) 0x66 vr, .mxq (hd 3) 0x60 { vr with mod := 4 }, .mxdq (hd 3) 0x68 { vr with rm := 1 }] : List Instr).all
      (fun i => !i.wf) = true := by decide

theorem test_wf_refuses_immediate :
    ([.mxsc (hd 3) 0x98 { vi with imm := 128 }, .addiMuliS32 (hd 3) 0x82 vi, .addiMuliF32 (hd 3) 0x82 { vi with imm := 2 ^ 16 },
      .moviS32 (hd 3) { vi with a := 1 }, .moviF32 (hd 3) { vi with df := 1 }, .vAddiMuliS64 (hd 3) 0x88 vi,
      .vMoviS64 (hd 3) { vi with df := 3 }, .slliSrliB64 (hd 3) 0x8D { vi with df := 1, sf := 1, imm := 64 },
      .lextB32 (hd 3) { vi with df := 1, imm := 32 }, .linsB32 (hd 3) vi, .binsB8 (hd 3) { vi with sf := 1, imm := 128 },
      .cmpiS64 (hd 3) { vi with df := 3, sf := 1, mod := 6 }] : List Instr).all (fun i => !i.wf) = true := by decide

theorem test_wf_refuses_stores_and_units :
    ([.ldA (hd 5) 2 ls, .ldA (hd 5) 1 { ls with am := 3 }, .ldA (hd 5) 1 { ls with ks := 1 }, .ldA (hd 5) 9 { ls with dr := 16 },
      .stA (hd 5) 1 ls, .ldH (hd 6) 3 ls, .stH (hd 5) 4 { ls with off := 2 ^ 19 }, .xfer (hd 7) 10 xe,
      .xfer (hd 7) 1 { xe with hid := 10 }, .xfer (hd 7) 1 { xe with ss := 1 }, .xfer (hd 7) 1 { xe with bc := 1, hid := 1 },
      .xfillHbm (hd 7) { xe with mod := 1 }, .xfence (hd 7) { xe with sa := 1 }, .xfence (hd 7) { xe with mod := 2 },
      .crcCmd (hd 7) { xc with stk := 20 }, .crcCmdHi (hd 7) { xc with tok := 16 }, .sig (hd 8) { ns with sb := 1 },
      .send (hd 8) { ns with imm := 1 }, .recv (hd 8) { ns with strm := 2 ^ 16 }, .aredPp (hd 8) { ns with imm := 1 },
      .paceGrp (hd 8) { ns with imm := 2 }, .nfence (hd 8) { ns with sa := 1 }, .rsig (hd 8) { ns with sb := 1 },
      .heat (hd 9) { tt with imm := 8 }, .heat (hd 9) { tt with heat := 2 ^ 12 }, .opreq (hd 9) { tt with opt := 8 },
      .tSnap (hd 9) { tt with imm := 2 ^ 16 }, .phint (hd 9) { tt with opt := 1 }] : List Instr).all (fun i => !i.wf) = true := by
  decide

theorem test_wf_refuses_unit_numbers :
    ([.xferComplete 10 0 0, .xfenceComplete 10, .stackFence 20 1 0, .fence .host 20 0 0, .fence (.core 2) 0 0 0,
      .anvilHoldEffect 160 0, .crucNop 20 0, .gemv 20 0, .attn 20 0, .amerge 20 0, .gather 20 0, .scatter 20 0, .reduce 20 0,
      .eltw 20 0, .pack 20 0, .unpack 20 0, .copy 20 0, .fill 20 0, .scrub 20 0, .crucComplete 20 0, .crucPreempt 20,
      .crucHostAdmit 20, .portcfgWrite .rm 2 0 0, .linkUp 4 0, .linkBringupRetry 4 0, .linkDown 4 ⟨0, 0⟩, .dadTimeout 4 0,
      .neighbourSolicitation (rx 5) 0 0 0, .arpRequest (rx 5) 0 0, .icmpEchoRequest (rx 5) 0 0 [] 0, .neighbourResolutionRetry 4 0 0,
      .neighbourAdvertisement (rx 0) 0 0 2 0, .relayFrame (rx 4) 1 0 0 none 0, .frameTransmit 4 ⟨0, false⟩, .bootStreamRelisten 4 0,
      .ntcFault 12 [] 0, .pressureFault 4 [] 0, .leak 4 [] 0, .loopFault 4 0 0 0, .leakLoopNormal 4 0 0 0, .kickAttempt 4 0,
      .kickAttemptEnd 4 0 0, .tachLoss 4 0 0, .tachClassify 4 0, .tachRecover 4 0 0, .loopSample 16 0, .loopOutput 16 0,
      .loopArm .rm 16 0 0, .loopDisarm .rm 16 0 0, .commit .rm 16 0 0, .prim .rm 16 0 0, .rcEn .rm 16 0 0] : List Instr).all
      (fun i => !i.wf) = true := by decide

theorem test_wf_refuses_more_unit_numbers :
    ([.memwr 65536 [] 0, .memrd 65536 [] 0, .pace 65536 [] 0, .ackTimer 65536 0, .rtoExpiry 65536 0, .credProbe 65536 0,
      .cplPush 65536 0, .jobSubmit 65536 [] 0, .jobCancel 65536 [] 0, .imageAccept 65536 [] 0, .imageUnload 65536 [] 0,
      .crucCmd 65536 [] 0, .ringCfg 65536 [] 0, .streamCfg 65536 [] 0, .streamClose 65536 [] 0, .streamReset 65536 [] 0,
      .streamQuery 65536 [] 0, .aidxWrite .host 64 0 0, .capHostWrite (.core 2) 0 0, .keepaliveKa (.core 2) 0 0,
      .fixcmd .rm 10 0 0, .vprofWrite .rm 10 0 0, .peakReached 10 0 0 0, .tpeakEnd 10 0, .ttphigh 10 0, .overcur 10 false 0 0,
      .abortRetry 10 0, .boostnr 10 0, .kink 10 0 0, .nomotion 10 0 0, .eventStart 10 0, .eventEnd 10 0, .pkrefuse 10 0,
      .dlim 10 0, .coilModel 10 0 0, .txreq .rm 64 0 0, .cancel .rm 64 0 false 0, .bcmdAck .rm 64 0 0,
      .canTxComplete 64 true 0 0, .sourceAssert 256 0, .bicClaim 2 0, .bicComplete .rm 2 0 0, .reevaluate 2 0, .htmo 256 0,
      .levelRedeliver 256 2 0, .registerWrite .rm (2 ^ 48) 0 0] : List Instr).all (fun i => !i.wf) = true := by decide

theorem test_wf_refuses_frames :
    ([.canFrameRx { fr with id := 2 ^ 11 } 0, .canFrameRx { fr with ide := true, id := 2 ^ 29 } 0, .canFrameRx { fr with dlc := 16 } 0,
      .referenceMessage { fr with data := List.replicate 9 0 } 0,
      .loopMessage { fr with fdf := true, data := List.replicate 65 0 } 0] : List Instr).all (fun i => !i.wf) = true := by decide

theorem test_wf_refuses_datagrams :
    ([.ident 0 { dg with ver := 256 } 0, .keepalive 0 { dg with flags := 256 } 0, .csrRead 0 { dg with status := 256 } 0,
      .csrWrite 0 { dg with seq := 2 ^ 32 } 0, .claim 0 { dg with len := 65536 } 0, .attest 0 { dg with rsv := 65536 } 0,
      .fwUpdateBegin 0 { dg with crc := 2 ^ 32 } 0] : List Instr).all (fun i => !i.wf) = true := by decide

theorem test_wf_refuses_packets :
    ([.data (rx 4) 0 pk 0, .data { rx 0 with vid := some 4096 } 0 pk 0, .data (rx 0) 0 { pk with ver := 16 } 0, .ack (rx 0) 0 { pk with typ := 16 } 0, .cred (rx 0) 0 { pk with flags := 256 } 0,
      .opn (rx 0) 0 { pk with prio := 8 } 0, .openack (rx 0) 0 { pk with hops := 32 } 0, .close (rx 0) 0 { pk with opc := 256 } 0,
      .rst (rx 0) 0 { pk with dstrm := 65536 } 0, .data (rx 0) 0 { pk with sstrm := 65536 } 0, .data (rx 0) 0 { pk with psn := 2 ^ 32 } 0,
      .data (rx 0) 0 { pk with msn := 2 ^ 32 } 0, .data (rx 0) 0 { pk with w0 := 2 ^ 32 } 0, .data (rx 0) 0 { pk with w1 := 65536 } 0,
      .data (rx 0) 0 { pk with w2 := 65536 } 0, .data (rx 0) 0 { pk with clim := 2 ^ 32 } 0, .data (rx 0) 0 { pk with pcrc := 2 ^ 32 } 0] :
      List Instr).all (fun i => !i.wf) = true := by decide

/-! ### The queue -/

/-- The table's rows have no bits. -/
theorem test_no_word_is_a_command : decodeTableWord 0 0 = none ∧ State.reset.withFetchWord 64 5 = State.reset := ⟨rfl, rfl⟩

theorem test_step_idles : step State.reset = .next State.reset := rfl

/-- The first command runs, the second waits. -/
theorem test_step_takes_front : (match step { State.reset with pending := [.highz, .bypass] } with
    | .next v => v.pending == [.bypass] && v.jtag.ir != 0xFF
    | _ => false) = true := by decide

/-! ### The spec's worked examples and tables -/

/-- The example of R8: Anvil 11 of Hearth 7 is Anvil 123. -/
theorem test_anvil_store_address : anvilBase 123 = 0x21000F600000 ∧ region 0x21000F600000 = .anvil 123 0 := by decide

/-- The example of R248. -/
theorem test_interleave : interleave 0x100003A40 = (7, 0xCCCCA40) ∧ phys 0x100003A40 = 0x10700CCCCA40 := by decide

/-- The example of R249. -/
theorem test_aflags_address : ANVIL_AFLAGS 123 = 0x30000171B100 := by decide

/-- The bundle encoded in "Worked example: encoding one bundle", from its bytes. -/
def exampleBundle : Nat := ofBytes [0x00, 0x00, 0x30, 0x42, 0x00, 0x00, 0x00, 0x00, 0x30, 0x41, 0x00, 0x00, 0xE0, 0x18, 0x00, 0x01,
  0x04, 0x00, 0x00, 0x84, 0x01, 0x01, 0x00, 0x00, 0x00, 0x00, 0x00, 0x00, 0x00, 0x00, 0x00, 0x00]

theorem test_bundle_checks : checkBundle exampleBundle = .ok := by decide

theorem test_decode_bundle : decodeBundle exampleBundle =
    [.wait ⟨0, false, 1⟩ { cs with d := 3 }, .mmac ⟨1, false, 1⟩ 0x01 { ma with va := 3, vb := 7 },
      .ldA ⟨5, true, 1⟩ 0x01 { ls with dr := 12, kb := 2, off := 4 }] := by decide +kernel

/-- One word of each format, its fields where R120 to R132 place them. -/
theorem test_decode_words :
    decodeSlot (hd 0) (0x01 * 2 ^ 40 + 1 * 2 ^ 36 + 2 * 2 ^ 32 + 0b011 * 2 ^ 29 + 0x7FFFF) = some (.br (hd 0) ⟨1, 2, 3, 0x7FFFF⟩) ∧
    decodeSlot (hd 0) (0x48 * 2 ^ 40 + 3 * 2 ^ 36 + 1 * 2 ^ 32 + 2 * 2 ^ 28) = some (.sArith (hd 0) 0x48 ⟨3, 1, 2, 0, 0⟩) ∧
    decodeSlot (hd 1) (0x01 * 2 ^ 40 + 16 * 2 ^ 35 + 2 * 2 ^ 33 + 5 * 2 ^ 27 + 63 * 2 ^ 21) = some (.mmac (hd 1) 0x01 ⟨16, 2, 5, 63, 0, 0⟩) ∧
    decodeSlot (hd 2) (0x40 * 2 ^ 40 + 1 * 2 ^ 33 + 7 * 2 ^ 27 + 3 * 2 ^ 22 + 0xFF * 2 ^ 14 + 1 * 2 ^ 12 + 5 * 2 ^ 9) =
      some (.mrd (hd 2) ⟨0, 1, 7, 3, 0xFF, 1, 5, 0⟩) ∧
    decodeSlot (hd 1) (0x60 * 2 ^ 40 + 3 * 2 ^ 33 + 0x3FF * 2 ^ 23) = some (.mclr (hd 1) ⟨0, 3, 0x3FF, 0⟩) ∧
    decodeSlot (hd 3) (0x01 * 2 ^ 40 + 4 * 2 ^ 29 + 5 * 2 ^ 23 + 63 * 2 ^ 17) = some (.addSubMulF32 (hd 3) 0x01 ⟨0, 4, 5, 63, 0, 0, 0, 0, 0⟩) ∧
    decodeSlot (hd 4) (0x84 * 2 ^ 40 + 9 * 2 ^ 29 + 0xFFFE) = some (.moviS32 (hd 4) ⟨0, 9, 0, 0, 0, 0, 0xFFFE⟩) ∧
    decodeSlot (hd 5) (0x01 * 2 ^ 40 + 63 * 2 ^ 29 + 2 * 2 ^ 25 + 3 * 2 ^ 21 + 1 * 2 ^ 19 + 0x7FFFF) =
      some (.ldA (hd 5) 0x01 ⟨0, 63, 2, 3, 1, 0x7FFFF⟩) ∧
    decodeSlot (hd 7) (0x01 * 2 ^ 40 + 3 * 2 ^ 36 + 1 * 2 ^ 32 + 2 * 2 ^ 28 + 4 * 2 ^ 24 + 9 * 2 ^ 15) =
      some (.xfer (hd 7) 0x01 ⟨3, 1, 2, 4, 0, 0, 9, 0⟩) ∧
    decodeSlot (hd 7) (0x40 * 2 ^ 40 + 5 * 2 ^ 36 + 1 * 2 ^ 32 + 19 * 2 ^ 27) = some (.crcCmd (hd 7) ⟨5, 1, 19, 0, 0⟩) ∧
    decodeSlot (hd 8) (0x01 * 2 ^ 40 + 2 * 2 ^ 36 + 1 * 2 ^ 32 + 65535 * 2 ^ 12 + 4095) = some (.sig (hd 8) ⟨2, 1, 0, 65535, 4095⟩) ∧
    decodeSlot (hd 9) (0x01 * 2 ^ 40 + 4095 * 2 ^ 28 + 7) = some (.heat (hd 9) ⟨4095, 0, 7⟩) := by decide +kernel

/-- Words of a reserved opcode, an unassigned one, a reserved predicate and a `nop` with a field set are no commands (R114, R118). -/
theorem test_decode_illegal : decodeSlot (hd 0) (0x80 * 2 ^ 40) = none ∧ decodeSlot (hd 0) (0x05 * 2 ^ 40) = none ∧
    decodeSlot (hd 1) (0x01 * 2 ^ 40 + 8 * 2 ^ 35) = none ∧ decodeSlot (hd 3) (1 * 2 ^ 29) = none := by decide +kernel

/-- "Worked example: two trim events on one slot" (R515): the second period, and the three periods at d = 20. -/
theorem test_on_time : onTime 75 2000000 100000 100000 8100 = (158100, 0) ∧ onTime 20 2000000 100000 100000 0 = (0, 40000) ∧
    onTime 20 2000000 100000 100000 80000 = (120000, 0) := by decide

/-- Signed and unsigned 32-bit saturation (R86). -/
theorem test_integer_saturates : intOp 32 true .add 0x7FFFFFFF 1 = (0x7FFFFFFF, true) ∧ intOp 32 false .sub 0 1 = (0, true) ∧
    intOp 32 true .mul 0xFFFFFFFF 5 = (0xFFFFFFFB, false) := by decide

/-- "Worked example: one cell read out five ways": its value in FP32, BF16, FP16, E4M3 and E5M2. -/
theorem test_one_cell_five_ways :
    let x := FVal.fin false 0x00010110000400000000 (-64)
    (fp32.convertV .rne x).1 = 0x3F808800 ∧ (bf16.convertV .rne x).1 = 0x3F81 ∧ (bf16.convertV .rtz x).1 = 0x3F80 ∧
    (fp16.convertV .rne x).1 = 0x3C04 ∧ (e4m3.convertV .rne x).1 = 0x38 ∧ (e5m2.convertV .rne x).1 = 0x3C := by decide

/-- One and one is two; a NaN operand is reported (R83, R84). -/
theorem test_f32_add : f32Add 0x3F800000 0x3F800000 = (0x40000000, 0) ∧ (f32Add 0x7FC00001 0).2 ≠ 0 := by decide

/-- A product of two BF16 operands added to a cell of a bank with E = 0. -/
def bfAdd (x : Cell × Bool × Bool) (p : Nat × Nat) : Cell × Bool × Bool :=
  let r := contribute 0 x.1 [(product 1 p.1 none 1 p.2 none false).1]
  (r.1, x.2.1 || r.2.nx, x.2.2 || r.2.ovf)

/-- "Worked example: cancellation". -/
theorem test_cell_cancellation : [(0x4300, 0x4300), (0x4300, 0xC300), (0x3A80, 0x3A80)].foldl bfAdd (Cell.zero, false, false) =
    (⟨2 ^ 44, .fin⟩, false, false) := by decide

/-- "Worked example: rounding below the window": 1.5, 0.5 and 0.75 LSBs. -/
theorem test_cell_rounding : [(0x3FC0, 0x1F80), (0x3F80, 0x1F00), (0x3FC0, 0x1F00)].foldl bfAdd (Cell.zero, false, false) =
    (⟨3, .fin⟩, true, false) := by decide

/-- "Worked example: saturation": the second order ends at −2^−64 with OVERFLOW set. -/
theorem test_cell_saturation :
    [(0x4300, 0x4300), (0x4300, 0x4300), (0x4300, 0x4300), (0x4300, 0xC300), (0x4300, 0xC300)].foldl bfAdd
      (Cell.zero, false, false) = (⟨-1, .fin⟩, false, true) := by decide

/-! ### What the statements' hypotheses are met by -/

/-- Fields of registers set. -/
def tPut (s : State) (l : List (Fd × Nat)) : State := l.foldl (fun s p => s.put p.1 p.2) s

/-- Power domains switched on. -/
def tDom (s : State) (l : List Nat) : State := l.foldl (fun s d => s.setDom d true) s

def tImg : Img := ⟨0, 0x200, 0x80, 0x20, 0xC0, 2, 0x180, 0x10, 0, 0⟩

def tJob : Job :=
  { img := 0, entry := 0, cls := 0, ring := 0, arg := 5, seed := 6, tag := 7, key := 9, group := 0, gflags := 0, strm := 4
    ridx := 0, st := .running, frame := 0, accepted := 0, waitFrom := 0, started := 0, switches := 0, saved := none, cancel := []
    cflags := 0, rflags := 0 }

/-- A job runs on Anvil 159 alone, its two stores and the Hammer store on, at the last bundle of its code. -/
def tRun : State :=
  { tDom State.reset [159, 169, 192] with
    hammer := { Hammer.reset with run := some 0, open_ := true, pc := 8, amask := BitVec.ofNat 160 (2 ^ 159) }
    jobs := [(0, some tJob)], tongs := { Tongs.reset with images := [tImg] } }

theorem sole_c : tRun.sole (hd 0) [0] := by unfold State.sole; decide +kernel
theorem sole_m : tRun.sole (hd 2) [1, 2] := by unfold State.sole; decide +kernel
theorem sole_v : tRun.sole (hd 4) [3, 4] := by unfold State.sole; decide +kernel
theorem sole_l : tRun.sole (hd 5) [5, 6] := by unfold State.sole; decide +kernel
theorem sole_x : tRun.sole (hd 7) [7] := by unfold State.sole; decide +kernel
theorem sole_t : tRun.sole (hd 9) [9] := by unfold State.sole; decide +kernel
theorem sole_any : tRun.sole (hd 9) (List.range 10) := by unfold State.sole; decide +kernel

def v1 : VRf := { vr with pred := 31, d := 63, a := 63 }
def v2 : VRf := { v1 with b := 63 }
def v3 : VRf := { v2 with c := 63 }
def vs : VRf := { v1 with d := 31, a := 33, b := 33, df := 1, sf := 1 }
def i1 : VIf := { vi with pred := 31, d := 63, a := 63, imm := 65535 }
def is : VIf := { i1 with d := 31, a := 33, df := 1, sf := 1 }

theorem test_hyp_VectorFloatWords : tRun.sole (hd 4) [3, 4] ∧
    (([1, 3, 6, 7].all (vrLegal · v2) && [4, 5].all (vrLegal · v3) &&
    [8, 9, 10, 11, 14].all (vrLegal · v1)) = true) :=
  ⟨sole_v, by decide⟩

theorem test_hyp_VectorIntegerWords : tRun.sole (hd 4) [3, 4] ∧
    (([0x20, 0x25, 0x26, 0x27, 0x29, 0x2A, 0x2C, 0x2D, 0x2F].all (vrLegal · v2) && vrLegal 0x28 v1) = true) :=
  ⟨sole_v, by decide⟩

theorem test_hyp_VectorScalarWords : tRun.sole (hd 4) [3, 4] ∧
    (([0x30, 0x35, 0x36, 0x38, 0x39, 0x3B].all (vrLegal · vs) && vrLegal 0x3C { vs with b := 0, df := 3, d := 7 } &&
      [0x88, 0x8B].all (viLegal · is) && viLegal 0x8C { is with a := 0, sf := 0 } &&
      [0x8D, 0x8E].all (viLegal · { is with imm := 63 })) = true) :=
  ⟨sole_v, by decide⟩

theorem test_hyp_IntegerSaturates : 0 < 1 := by decide

theorem test_hyp_CompareWords : tRun.sole (hd 4) [3, 4] ∧
    (let f := { v2 with df := 3, d := 7 }
    ([0x40, 0x41].all (vrLegal · { f with mod := 22 }) && [0x42, 0x43].all (vrLegal · { f with mod := 21 }) &&
      [0x44, 0x45].all (vrLegal · { f with mod := 21, sf := 1, a := 33, b := 33 }) && vrLegal 0x46 { v2 with mod := 6 } &&
      vrLegal 0x47 { v2 with mod := 5 } && viLegal 0xA0 { is with df := 3, d := 7, mod := 5 }) = true) :=
  ⟨sole_v, by decide⟩

theorem test_hyp_LaneWords : tRun.sole (hd 4) [3, 4] ∧
    ((vrLegal 0x48 v3 && vrLegal 0x49 v2 && [0x4A, 0x4C, 0x4D].all (vrLegal · v1) &&
      viLegal 0x90 { i1 with d := 31, df := 1, imm := 31 } && viLegal 0x91 { is with d := 63, df := 0, imm := 31 } &&
      viLegal 0x92 { is with d := 63, df := 0, imm := 127 }) = true) :=
  ⟨sole_v, by decide⟩

theorem test_hyp_ImmediateWords : tRun.sole (hd 4) [3, 4] ∧
    (([0x80, 0x81, 0x82, 0x83].all (viLegal · i1) && [0x84, 0x85].all (viLegal · { i1 with a := 0 })) = true) :=
  ⟨sole_v, by decide⟩

theorem test_hyp_ConversionWords : tRun.sole (hd 4) [3, 4] ∧
    (let f := { v1 with rm := 2 }
    ([0x50, 0x51].all (vrLegal · { f with mod := 1 }) && [0x52, 0x53].all (vrLegal · { f with mod := 3 }) && vrLegal 0x54 f &&
      vrLegal 0x55 { v1 with mod := 3 } && vrLegal 0x56 { v1 with mod := 7 } && [0x58, 0x59].all (vrLegal · { v1 with mod := 1 }) &&
      [0x5A, 0x5B, 0x5D].all (vrLegal · { v1 with mod := 3 }) && vrLegal 0x5E { v1 with mod := 7 } && vrLegal 0x5C f) = true) :=
  ⟨sole_v, by decide⟩

theorem test_hyp_MicroscalingWords : tRun.sole (hd 4) [3, 4] ∧
    (([0x60, 0x65].all (vrLegal · { v2 with rm := 2, mod := 3 }) && vrLegal 0x64 { v2 with mod := 7 } &&
      [0x68, 0x6D].all (vrLegal · { v2 with mod := 3 }) && [0x98, 0x9D].all (viLegal · { i1 with imm := 127 })) = true) :=
  ⟨sole_v, by decide⟩

theorem test_hyp_MatrixWords : tRun.sole (hd 2) [1, 2] ∧
    (let f := { ma with pred := 31, acc := 3, va := 63, vb := 63 }
    let r := { mr with pred := 31, acc := 3, vd := 63 }
    let c := { mc with pred := 31, acc := 3 }
    (maLegal 1 { f with mod := 0x0B } && maLegal 12 { f with vx := 63, mod := 0xBB } && maLegal 0x10 { f with vb := 0, mod := 95 } &&
      mrLegal 0x40 { r with sel := 23, rm := 2, mofs := 255 } && mrLegal 0x41 { r with sel := 31, mod := 2 } &&
      [0x60, 0x61].all (mcLegal · { c with exp := 1023 }) && [0x62, 0x65].all (mcLegal · { c with pd := 7 })) = true) :=
  ⟨sole_m, by decide⟩

def c3 : CSf := { cs with d := 15, a := 15, b := 15 }

theorem test_hyp_ScalarWords : tRun.sole (hd 0) [0] ∧
    (([0x48, 0x49, 0x4A, 0x4B, 0x4C, 0x4D, 0x4E, 0x50, 0x51, 0x53].all (csLegal · c3) &&
      csLegal 0x54 { c3 with b := 0, imm := 2 ^ 24 - 1 } && csLegal 0x55 { cs with d := 15, imm := 2 ^ 24 - 1 } &&
      csLegal 0x5B { cs with d := 15 } && csLegal 0x5A { cs with d := 15, imm := 7 }) = true) :=
  ⟨sole_c, by decide⟩

theorem test_hyp_MaskWords : tRun.sole (hd 0) [0] ∧
    ((csLegal 0x42 { cs with h := 9, imm := 65535 } && csLegal 0x43 { cs with imm := 65535 }) = true) :=
  ⟨sole_c, by decide⟩

theorem test_hyp_BranchWords : tRun.sole (hd 0) [0] ∧
    (let f : CBf := ⟨15, 15, 0, 2 ^ 19 - 1⟩
    (cbLegal 1 { f with cc := 6 } && cbLegal 1 { f with sa := 0, sb := 0 } && cbLegal 2 { f with sb := 0 } &&
      cbLegal 3 { f with sa := 0 } && cbLegal 4 { f with sb := 0, tgt := 0 }) = true) :=
  ⟨sole_c, by decide⟩

def tFail : Fail := ⟨0x20, 8, 255, 0, 0, 0, 0⟩

/-- `tRun` with Hammer changed. -/
def tHam (f : Hammer → Hammer) : State := tRun.onHammer f

def tFree : State := tHam (fun h => { h with tok := [] })
def tBusy : State := tHam (fun h => { h with tok := [(15, ⟨1, none, 0⟩)] })
def tBad : State := tHam (fun h => { h with tok := [(14, ⟨0, some tFail, 1⟩), (15, ⟨0, some tFail, 2⟩)] })
def tHeld (w : Stall) : State :=
  tHam (fun h => { h with stall := some w, cur := { Open.none with words := 1, last := some 0, len := 1, wait := 2 ^ 15 } })

theorem test_hyp_WaitWords_free : csLegal 0x40 { cs with imm := 0xC000 } = true ∧ csLegal 0x41 { cs with d := 15 } = true ∧
    tFree.sole (hd 0) [0] ∧ ∀ k ∈ [14, 15], (tFree.tok k).count = 0 ∧ (tFree.tok k).fail = none := by
  unfold State.sole; decide +kernel

theorem test_hyp_WaitWords_busy : tBusy.sole (hd 0) [0] ∧ (tBusy.tok 15).count ≠ 0 := by unfold State.sole; decide +kernel

theorem test_hyp_WaitWords_failed : tBad.sole (hd 0) [0] ∧ (tBad.tok 14).fail = some tFail ∧
    (∀ j ∈ [14, 15], (tBad.tok j).count = 0) ∧ (tBad.tok 14).failAt < (tBad.tok 15).failAt := by unfold State.sole; decide +kernel

theorem test_hyp_WaitWords_nop : tRun.sole (hd 9) (List.range 10) := sole_any

theorem test_hyp_WaitWords_held : ∀ w ∈ [Stall.wait (2 ^ 15), .admission], (tHeld w).hammer.stall = some w ∧
    (tHeld w).verdict = .ok ∧ (tHeld w).hammer.cur.effs = [] ∧ (tHeld w).hammer.cur.stop = false ∧
    (∀ k ∈ (List.range 16).filter (fun k => (tHeld w).hammer.cur.wait.testBit k),
      ((tHeld w).tok k).count = 0 ∧ ((tHeld w).tok k).fail = none) ∧
    (tHeld w).hammer.flight = [] ∧ (tHeld w).hammer.faults = [] ∧ (tHeld w).hammer.marker = none ∧
    (tHeld w).hammer.start = none := by decide +kernel

/-- A unit with an uncorrectable error. -/
def tUe (s : State) (unit : Nat) : State := { s with errs := [(unit, 2)] }

theorem test_hyp_ConstantAndMemoryWords_pool : tRun.sole (hd 0) [0] ∧ tRun.runImage = some tImg ∧
    csLegal 0x56 { cs with imm := 1 } = true ∧ csLegal 0x57 { cs with a := 15, imm := 1 } = true ∧
    8 * 1 + 8 ≤ tImg.constBytes ∧ tImg.constBytes < 8 * 2 + 8 ∧ tRun.ueIn (tImg.addr + tImg.constOff + 8) 8 = none ∧
    (tUe tRun 0x220000000188).ueIn (tImg.addr + tImg.constOff + 8) 8 ≠ none := ⟨sole_c, by decide +kernel⟩

theorem sole_ue : (tUe tRun 0x220000000188).sole (hd 0) [0] := by unfold State.sole; decide +kernel

/-- `tRun` with scalar registers 1 and 2 set. -/
def tS (a b : Word) : State := tHam (fun h => { h with s := [(1, a), (2, b)] })

theorem test_hyp_ConstantAndMemoryWords_memory : (tS 0x210013FFFFF8 0).sole (hd 0) [0] ∧ (tS 0 0).sole (hd 0) [0] ∧
    csLegal 0x58 { cs with a := 1 } = true ∧ csLegal 0x59 { cs with a := 1, b := 2 } = true ∧
    (tS 0x210013FFFFF8 0).cAddr { cs with a := 1 } = 0x210013FFFFF8 ∧ (tS 0x210013FFFFF8 0).cAddrOk 0x210013FFFFF8 = true ∧
    (tS 0x210013FFFFF8 0).ueIn 0x210013FFFFF8 8 = none ∧ (tS 0 0).cAddrOk ((tS 0 0).cAddr { cs with a := 1 }) = false := by
  refine ⟨?_, ?_, by decide +kernel⟩ <;> (unfold State.sole; decide +kernel)

/-- `tRun` with `k[15]` of Anvil 159 set. -/
def lBase (x : Word) : State := { tRun with anvils := [(159, { Anvil.entry with k := [(15, x)] })] }

theorem sole_base (n : Nat) : (lBase (BitVec.ofNat 64 n)).sole (hd 5) [5, 6] := sole_l

/-- The last rows of the two stores, and a row past both. -/
theorem test_hyp_StoreAccessWords : (∀ n, (lBase (BitVec.ofNat 64 n)).sole (hd 5) [5, 6]) ∧
    let f : LSf := { ls with kb := 15, off := 1 }
    (∀ op ∈ [1, 2, 3, 4, 5, 6, 7, 8, 9, 10, 11, 12], lsLegal true op f = true ∧ noDup (lsDests true op f) = true) ∧
    lsLegal true 12 { f with dr := 14, am := 1 } = true ∧ noDup (lsDests true 12 { f with dr := 14, am := 1 }) = true ∧
    tRun.executing 0 = [159] ∧
    (lsEaOk false 159 (lsEa ((lBase 0x1FFF00).anvil 159) f) = true ∧
      tRun.reachable (region (anvilBase 159 + (lsEa ((lBase 0x1FFF00).anvil 159) f).toNat)) = true ∧
      tRun.ueIn (anvilBase 159 + 0x1FFF80) 128 = none) ∧
    (lsEaOk true 159 (lsEa ((lBase 0xFFFF00).anvil 159) f) = true ∧
      tRun.reachable (region (hearthBase 9 + (lsEa ((lBase 0xFFFF00).anvil 159) f).toNat)) = true ∧
      tRun.ueIn (hearthBase 9 + 0xFFFF80) 128 = none) ∧
    lsEaOk false 159 (lsEa ((lBase 0x1000000).anvil 159) f) = false ∧ lsEaOk true 159 (lsEa ((lBase 0x1000000).anvil 159) f) = false :=
  ⟨sole_base, by decide +kernel⟩

/-- A FILL of 32 bytes of stack 19, and a command code that does not exist, as they stand in the Hammer store. -/
def tFillCells : List Host.Cell := [(0x220000000000, 0x0B), (0x22000000001C, 0x30), (0x22000000001D, 0x11), (0x220000000020, 0x20)]
def tXc (m : List Host.Cell) : State :=
  { tHam (fun h => { h with s := [(1, 0x220000000000)], tok := [(15, ⟨254, none, 0⟩)] }) with mem := m }

theorem test_hyp_ExchangeWords :
    let s := tXc []
    let f : XEf := { xe with tok := 15, sa := 15, sd := 15, sl := 15, hid := 9 }
    s.sole (hd 7) [7] ∧ s.hammer.recent = [] ∧ s.frameOpen = true ∧ (s.xqOf 9).length < 32 ∧ (s.tok 15).count + 1 ≤ 255 ∧
    (List.range 10).filter (fun u => s.hearthField u != 0) = [9] ∧
    [1, 9, 10].all (xeLegal · f) = true ∧ [1, 9, 10].all (xeLegal · { f with bc := 1, hid := 0, ss := 15 }) = true ∧
    xeLegal 0x10 { xe with tok := 15, hid := 9, mod := 1 } = true ∧ xeLegal 0x10 { xe with tok := 15, bc := 1 } = true := by
  refine ⟨?_, by decide +kernel⟩
  unfold State.sole; decide +kernel

theorem test_hyp_ExchangeWords_command : ∀ m ∈ [tFillCells, [(0x220000000000, (0x0D : Byte))]], ∀ op ∈ [0x40, 0x41],
    let s := tXc m
    let f : XCf := { xc with tok := 15, sa := 1, stk := 19 }
    s.sole (hd 7) [7] ∧ s.hammer.recent = [] ∧ s.frameOpen = true ∧ f.bc = 0 ∧ f.stk < 20 ∧ (s.tok f.tok).count < 255 ∧
    (s.sreg f.sa).toNat % 64 = 0 ∧ region (s.sreg f.sa).toNat = .hammer 0 ∧ s.rangeOk (s.sreg f.sa).toNat 64 = true ∧
    s.ueIn (s.sreg f.sa).toNat 64 = none ∧ s.fenced 19 = false ∧ xcLegal op f = true ∧ s.crucRoom 19 0 = true ∧
    s.crucRoom 19 1 = true := by unfold State.sole; decide +kernel

theorem test_hyp_ExchangeWords_descriptors : descCheck 19 (BitVec.ofNat 512 ((tXc tFillCells).readN 0x220000000000 64)) = 0 ∧
    descCheck 19 (BitVec.ofNat 512 ((tXc [(0x220000000000, 0x0D)]).readN 0x220000000000 64)) ≠ 0 := by decide +kernel

/-- Stream 65535 of the type, bound to the job; `a` and `b` in s[1] and s[2]. -/
def tStrm (typ : Nat) (a b : Word) : State :=
  { tHam (fun h => { h with s := [(1, a), (2, b)], tok := [(15, ⟨254, none, 0⟩)] }) with
    tongs := { tRun.tongs with
      ctx := [(65535, { Ctx.empty with typ := typ, tstate := 3, jobkey := 9 })], cache := [⟨65535, 0, false⟩] } }

def nf : NSf := { ns with tok := 15, sa := 1, sb := 2, strm := 65535 }

theorem test_hyp_StreamWords : ∀ typ ∈ [0, 2, 3, 5, 6], let s := tStrm typ 0x220000000000 65536
    s.sole (hd 8) [8] ∧ s.hammer.recent = [] ∧ s.hammer.run = some 0 ∧ s.tongs.nq = [] ∧ s.tongs.held = [] ∧ s.frameOpen = true ∧
    (s.tok nf.tok).count < 255 ∧ (s.ctx nf.strm).rx = [] ∧ (s.ctx nf.strm).inbox = [] ∧
    s.cached nf.strm = true ∧ s.fenced (ctxStack nf.strm) = false ∧ (s.ctx nf.strm).tstate = 3 ∧ (s.ctx nf.strm).typ = typ ∧
    s.job 0 = some tJob ∧ tJob.key = (s.ctx nf.strm).jobkey ∧ tJob.key ≠ 0 ∧ (s.ctx nf.strm).posted.length < 4 ∧ s.errs = [] ∧
    s.tongsMem 0x220000000000 65536 = true ∧ s.ueIn 0x220000000000 65536 = none := by unfold State.sole; decide +kernel

theorem test_hyp_StreamWords_words : (nsLegal 1 { nf with sb := 0, imm := 4095 } && nsLegal 2 nf && nsLegal 3 nf && nsLegal 4 nf &&
    nsLegal 7 { nf with sb := 0 } && nsLegal 6 { nf with sa := 0, sb := 0 } && nsLegal 5 { ns with strm := 65535, imm := 1 }) = true := by
  decide

/-- An array that is short enough for a group of any size. -/
theorem test_hyp_StreamWords_ared : chunkMax (groupOf 65535).1 4096 ≤ 65536 ∧ (tStrm 6 0x220000000000 4096).tongsMem 0x220000000000 65536 = true ∧
    (tStrm 6 0x220000000000 4096).sole (hd 8) [8] := by
  refine ⟨?_, by decide +kernel, by unfold State.sole; decide +kernel⟩
  have h : (4096 + (2 + Config.groupSize 65535) - 1) / (2 + Config.groupSize 65535) ≤ 4096 :=
    Nat.div_le_of_le_mul (by omega)
  show 16 * ((4096 + (2 + Config.groupSize 65535) - 1) / (2 + Config.groupSize 65535)) ≤ 65536
  omega

theorem test_hyp_StreamWords_signal : let s := tStrm 5 0x210013FFFFF8 1
    s.sole (hd 8) [8] ∧ 0x210013FFFFF8 % 8 = 0 ∧ s.tongsMem 0x210013FFFFF8 8 = true ∧ 0x200000000000 ≤ 0x210013FFFFF8 ∧
    0x210013FFFFF8 < 0x220000000000 ∧ (∀ k, k ≤ 16 * 1 → ctxAt (0x220000000000 + k) = none) := by
  unfold State.sole; decide +kernel

theorem test_hyp_TemperWords : tRun.sole (hd 9) [9] ∧ (ttLegal 1 { tt with heat := 2, imm := 7 } = true ∧
    ttLegal 1 { tt with heat := 1 } = true ∧ ttLegal 2 { tt with opt := 7 } = true ∧ ttLegal 3 { tt with imm := 65535 } = true ∧
    ttLegal 4 { tt with imm := 65535 } = true ∧ tRun.hammer.run.bind tRun.job = some tJob ∧ tRun.runImage = some tImg ∧
    tJob.cancel = [] ∧ tImg.heatCount ≤ 2 ∧ 1 < tImg.heatCount ∧ tRun.ueIn (tImg.heatAddr 1) 64 = none ∧ tRun.snapReq = none) :=
  ⟨sole_t, by decide +kernel⟩

/-- A cancelled job; a heat entry that cannot be read; a snapshot pending. -/
theorem test_hyp_TemperWords_more :
    (let j := { tJob with cancel := [(4, 1)] }
     let s := { tRun with jobs := [(0, some j)] }
     s.sole (hd 9) [9] ∧ s.hammer.run.bind s.job = some j ∧ s.runImage = some tImg ∧ j.cancel ≠ []) ∧
    (let s := tUe tRun (tImg.heatAddr 1)
     s.sole (hd 9) [9] ∧ s.hammer.run.bind s.job = some tJob ∧ s.runImage = some tImg ∧
     s.stopAhead tImg ((hd 9).len + 1) = false ∧ s.ueIn (tImg.heatAddr 1) 64 ≠ none) ∧
    (∀ src ∈ [1, 4], let s := { tRun with snapReq := some ⟨src, 7, 0, 3, 20⟩ }
     s.sole (hd 9) [9] ∧ s.snapReq = some ⟨src, 7, 0, 3, 20⟩ ∧ s.cyc ≤ 20) := by unfold State.sole; decide +kernel

theorem test_hyp_JobEnds : tRun.sole ⟨0, true, 1⟩ [0] ∧
    ∀ f ∈ [none, some tFail], let s := tHam (fun h => { h with ending := some f })
      s.hammer.ending = some f ∧ s.hammer.run = some 0 ∧ s.hammer.tok.all (fun p => p.2.count == 0) = true ∧
      s.job 0 = some tJob ∧ s.waitFail (2 ^ 16 - 1) = none := ⟨sole_c, by decide +kernel⟩

/-- A job that waits, new or switched at heat 1. -/
def tWait : Job := { tJob with st := .queued, entry := 1 }
def tSaved : Saved := ⟨[], 0, BitVec.allOnes 160, 1, false, [], 5, 1, none, false, []⟩
def tSwitched : Job := { tJob with st := .switched, saved := some tSaved }
def tIdle (j : Job) : State := { State.reset with jobs := [(254, some j)], tongs := { Tongs.reset with images := [tImg] } }

theorem test_hyp_JobEnters_start : ∀ j ∈ [tWait, tSwitched], let u := (tIdle j).at 10
    (tIdle j).hammer.run = none ∧ u.selectJob = some (254, j) ∧
    (match j.saved with | some v => v.heat | none => j.entry) = 1 ∧ u.enterable j tImg 1 := by
  unfold State.enterable; decide +kernel

def tMarker : Marker := ⟨5, 1, false, 0, 8, 0, some 254⟩
def tSwitch : State :=
  { tHam (fun h => { h with stall := some .drain, marker := some tMarker }) with jobs := [(0, some tJob), (254, some tWait)] }

theorem test_hyp_JobEnters_switch : let u := tSwitch.at 10
    tSwitch.hammer.stall = some .drain ∧ tSwitch.hammer.marker = some tMarker ∧ tMarker.switchTo = some 254 ∧
    tSwitch.hammer.run = some 0 ∧ tSwitch.job 0 = some tJob ∧ tSwitch.job 254 = some tWait ∧ tWait.saved = none ∧
    tSwitch.hammer.flight = [] ∧ tSwitch.hammer.tok.all (fun p => p.2.count == 0) = true ∧ u.enterable tWait tImg 1 := by
  unfold State.enterable; decide +kernel

/-- An exchange operation of one row of the Anvil store of Anvil 159. -/
def tOp (k : XKind) (refused : Bool) : XOp := ⟨k, 15, 0, 0x210013E00000, 0x210013FFFF80, 0, refused, []⟩
def tX (o : XOp) : State := { tRun with xq := [(9, [o])] }

theorem test_hyp_ExchangeCompletes : ∀ o ∈ [tOp (.xfer 7) false, tOp .fill false, tOp (.xfer 1) true], let s := tX o
    (s.xqOf 9)[0]? = some o ∧ ((s.xqOf 9).take 0).any XOp.isFence = false ∧ s.hammer.run = some o.job ∧ o.isFence = false ∧
    (shapeOf o.shape).1 = 1 ∧ o.stale = [] ∧ (s.at 10).rangeOk o.src 128 = true ∧ (s.at 10).rangeOk o.dst 128 = true ∧
    (s.at 10).ueIn o.src 128 = none ∧ s.transit = [] ∧ o.dst % 128 = 0 ∧ (shapeOf o.shape).2.1 = 128 := by decide +kernel

theorem test_hyp_ExchangeCompletes_fence : ∀ c ∈ [true, false], let s := tX (tOp (.fence c) false)
    s.xqOf 9 = [tOp (.fence c) false] ∧ s.hammer.run = some 0 ∧ (s.cruc 18).live = [] ∧ (s.cruc 19).live = [] := by
  decide +kernel

/-- A command of a Crucible by its code and three words at 0x10, 0x18 and 0x20. -/
def tDesc (c a b n : Nat) : BitVec 512 := BitVec.ofNat 512 (c + a * 2 ^ 128 + b * 2 ^ 192 + n * 2 ^ 256)
def tCmd (c a b n : Nat) : CCmd := ⟨tDesc c a b n, 1, .host 4 2, 0, 1⟩
def tCruc (x : CCmd) : State := { tRun with crucs := [(19, { Cruc.reset with n := [x] })] }

theorem test_hyp_CrucibleStarts : ∀ c ∈ [0, 1, 2, 3, 4, 5, 6, 7, 8, 9, 10, 11, 12], let x := tCmd c 0 0 0
    ((tCruc x).cruc 19).run = none ∧ ((tCruc x).cruc 19).next = some 1 ∧ ((tCruc x).cruc 19).queue 1 = [x] ∧
    dCmd x.desc = c ∧ dSt x.desc = 0 ∧ x.src = .host 4 2 ∧ ((tCruc x).cruc 19).susp = none := by decide +kernel

theorem test_hyp_CrucibleData_start :
    ∀ x ∈ [tCmd 10 0x113000000020 0x113000000000 32, tCmd 11 0 0x113000000000 32, tCmd 12 0 0x113000000000 32],
      ((tCruc x).cruc 19).run = none ∧ ((tCruc x).cruc 19).next = some 1 ∧ ((tCruc x).cruc 19).queue 1 = [x] ∧
      descCheck 19 x.desc = 0 ∧ (tCruc x).ueIn 0x113000000020 32 = none := by decide +kernel

/-- Commands at 0x100000 of stack 19: one dot product of 32 BF16 elements, one row of 32 bytes gathered, 16 FP32 sums. -/
def tGemv : CCmd := { tCmd 1 0x113000100000 0x113000110000 0x113000120000 with
  desc := (tDesc 1 0x113000100000 0x113000110000 0x113000120000) ||| BitVec.ofNat 512
    (1 * 2 ^ 384 + 32 * 2 ^ 416 + 64 * 2 ^ 448 + 1 * 2 ^ 480 + 1 * 2 ^ 488 + 1 * 2 ^ 496) }
def tGather : CCmd := { tCmd 4 0x113000100000 0x113000110000 0x113000120000 with
  desc := (tDesc 4 0x113000100000 0x113000110000 0x113000120000) ||| BitVec.ofNat 512
    (1 * 2 ^ 320 + 32 * 2 ^ 352 + 64 * 2 ^ 384) }
def tEltw : CCmd := { tCmd 7 0x113000100000 0x113000110000 0x113000120000 with
  desc := (tDesc 7 0x113000100000 0x113000110000 0x113000120000) ||| BitVec.ofNat 512 (16 * 2 ^ 320 + 13 * 2 ^ 352 + 13 * 2 ^ 360 + 1 * 2 ^ 368) }

theorem test_hyp_CrucibleStarts_data : ∀ x ∈ [tGemv, tGather, tEltw],
    ((tCruc x).cruc 19).run = none ∧ ((tCruc x).cruc 19).next = some 1 ∧ ((tCruc x).cruc 19).queue 1 = [x] ∧
    descCheck 19 x.desc = 0 ∧ (tCruc x).errs = [] ∧ dOut x.desc ≠ 6 := by decide +kernel

def tRes : CRes := ⟨0, 0, 0, 0, 0⟩
def tBusyCruc (src : CSrc) : State := { tRun with
  crucs := [(19, { Cruc.reset with run := some ({ tCmd 12 0 0 0 with src := src }, tRes), p := [{ tCmd 0 0 0 0 with queue := 0, seq := 2 }] })] }
def tHost : HostCruc := ⟨19, 4, 2, tDesc 11 0 0x113000000000 32⟩

theorem test_hyp_CrucibleData_rest :
    (∀ src ∈ [CSrc.job 0 15, .host 4 2], let c := (tBusyCruc src).cruc 19
      c.run = some ({ tCmd 12 0 0 0 with src := src }, tRes) ∧ tRes.err = 0 ∧ (tBusyCruc src).hammer.run = some 0 ∧ c.susp = none ∧
      c.pNext = true) ∧ (tCmd 12 0 0 0).queue ≠ 0 ∧
    let s := { tRun with tongs := { tRun.tongs with hostCruc := [tHost] } }
    s.tongs.hostCruc.find? (fun h => h.stk == 19) = some tHost ∧ s.crucRoom 19 2 = true ∧ s.fenced 19 = false ∧
    descCheck 19 tHost.desc = 0 := by decide +kernel

theorem test_hyp_MemoryCare :
    ({ State.reset with wb := [64], errs := [(64, 1)] }.wb.contains 64 = true) ∧
    (region 0x113000000000 = .hbm 19 0 ∧ State.reset.errs = [] ∧ State.reset.fenced 19 = false ∧
      State.reset.get (HEARTH_SCRUB_HOURS 9) ≠ 0 ∧ (∀ b ∈ [8, 272], ((List.range 38).filter (symHit (2 ^ b))).length = 1)) ∧
    (let s := { tDom State.reset [169, 192, 196] with secb := { Sec.reset with running := some 0 } }
     (0x80#64).getLsbD 7 = true ∧ (s.at 10).pathUp .rm = true ∧ (s.at 10).pathUp .fw = true ∧ s.domOn 192 = true ∧ s.domOn 169 = true) ∧
    (let s := { State.reset with holds := [(159, 2)] }
     s.hammer.avail.getLsbD 159 = true ∧ s.hammer.run = none ∧ s.holds.find? (fun p => p.1 == 159) = some (159, 2)) := by
  decide +kernel

/-! ### Links, transport, streams and jobs -/

/-- Both ports with two interfaces, enabled and powered; the last interface as given. -/
def tPort (f : Ifc) : State :=
  let s := tPut (tDom State.reset [190, 191, 192, 196]) [(TONGS_PORTCFG_MODE 0, 4), (TONGS_PORTCFG_ENABLE 0, 1),
    (TONGS_PORTCFG_MODE 1, 6), (TONGS_PORTCFG_ENABLE 1, 1), (TONGS_XPORT_IPV4_EN, 1), (TONGS_IF_IPV4_ADDR 3, 7)]
  { s with
    tongs := { s.tongs with ifc := [(3, f)] }, secb := { Sec.reset with running := some 0 }
    csr := s.csr ++ [(TONGS_IF_MAC 3, 1), (TONGS_IF_IPV6H 3, 2), (TONGS_IF_IPV6L 3, 5)] }

/-- The global address of its last interface. -/
def tGlobal : BitVec 128 := 2#64 ++ 5#64

def tUp : Ifc := { Ifc.reset with up := true }

theorem test_hyp_LinkCommands :
    ((tPort Ifc.reset).at 10).mayUp 3 = true ∧ ((tPort Ifc.reset).at 10).mayUp 1 = true ∧ ((tPort Ifc.reset).ifc 3).up = false ∧
    (let s := tPort { Ifc.reset with bringAt := some 0 }
     ((s.at 500000000).ifc 3).bringAt = some 0 ∧ (s.at 500000000).mayUp 3 = true ∧ (s.at 500000000).now ≥ 0 + 500000000) ∧
    ((tPort tUp).ifc 3).up = true ∧
    (let s := tPort { tUp with dadUntil := some 1000000000 }
     ((s.at 1000000000).ifc 3).dadUntil = some 1000000000 ∧ (s.at 1000000000).now ≥ 1000000000) ∧
    ((tPort tUp).at 10).pathUp .rm = true ∧ ((tPort tUp).at 10).pathUp .fw = true ∧ (tPort tUp).domOn 192 = true := by decide +kernel

def tEcho (k : Nat) : State := tPort { tUp with echoCnt := k }
def tNbr (mac : Option Nat) (tries : Nat) : State :=
  { tPort tUp with tongs := { (tPort tUp).tongs with nbr := [⟨3, 5, mac, 0, tries, 0⟩] } }

/-- The management port up, with an address of each family. -/
def tMgmt (f : Ifc) : State :=
  let s := tPut (tDom State.reset [192, 196]) [(MGMT_CFG_ENABLE, 1), (MGMT_STAT_LINK, 1), (MGMT_CFG_IPV4_EN, 1), (MGMT_IPV4_ADDR, 7)]
  { s with
    mgmt := { s.mgmt with ifc := f }, secb := { Sec.reset with running := some 0 }, pwr := { s.pwr with alive := true }
    csr := s.csr ++ [(MGMT_MAC, 1), (MGMT_IPV6H, 2), (MGMT_IPV6L, 5)] }

theorem test_hyp_NetworkServices :
    (let u := (tPort tUp).at 10
     u.portUp 3 = true ∧ u.frameOk (rx 3) = true ∧ (rx 3).i = 3 ∧ (rx 3).ucw = 0 ∧ u.owns6 3 tGlobal = true ∧ u.owns6 3 5 = false ∧
     u.owns4 3 7 = true ∧ u.owns4 3 8 = false ∧ u.owns 3 tGlobal = true ∧ u.owns 3 (mapped4 7) = true ∧
     echoLen tGlobal (List.replicate 8224 0) ≤ 8290 ∧ echoLen (mapped4 7) (List.replicate 8244 0) ≤ 8290) ∧
    (∀ c ∈ [999, 1000], let u := (tEcho c).at 10
     (u.port 3).echoCnt = c ∧ u.now / 1000000000 = (u.port 3).echoSec ∧ u.portUp 3 = true ∧ u.owns 3 tGlobal = true) := by
  decide +kernel

theorem test_hyp_NetworkServices_neighbours :
    (∀ k ∈ [2, 3], let v := (tNbr none k).at 1000000000
      v.nbr 3 5 = some ⟨3, 5, none, 0, k, 0⟩ ∧ v.now ≥ 0 + 1000000000 ∧ v.portUp 3 = true) ∧
    (let v := (tNbr none 2).at 10
     (v.port 3).dadUntil = none ∧ v.nbr 3 5 = some ⟨3, 5, none, 0, 2, 0⟩ ∧ v.frameOk (rx 3) = true) ∧
    (let v := (tPort { tUp with dadUntil := some 99 }).at 10
     (v.port 3).dadUntil.isSome = true ∧ tGlobal = v.global6 3 ∧ v.portUp 3 = true) := by decide +kernel

theorem test_hyp_NetworkServices_management :
    (let u := (tMgmt Ifc.reset).at 10
     u.portUp 4 = true ∧ u.frameOk (rx 4) = true ∧ u.owns6 4 tGlobal = true ∧ u.owns6 4 5 = false ∧ u.owns4 4 7 = true ∧
     u.owns4 4 8 = false ∧ u.owns 4 tGlobal = true ∧ echoLen tGlobal (List.replicate 1452 0) ≤ 1518) ∧
    (∀ c ∈ [999, 1000], let u := (tMgmt { Ifc.reset with echoCnt := c }).at 10
     (u.port 4).echoCnt = c ∧ u.now / 1000000000 = (u.port 4).echoSec) ∧
    (let v := (tMgmt { Ifc.reset with dadUntil := some 99 }).at 10
     (v.port 4).dadUntil.isSome = true ∧ tGlobal = v.global6 4 ∧ v.portUp 4 = true) := by decide +kernel

theorem test_hyp_NetworkServices_relay : ∀ i ∈ [0, 2],
    let s := tPut State.reset [(TONGS_XPORT_TOPO, 2), (TONGS_PORTCFG_MODE 0, 1), (TONGS_PORTCFG_MODE 1, 3)]
    let u := ({ s with tongs := { s.tongs with ifc := [(0, tUp), (2, tUp)] } }).at 10
    u.portUp i = true ∧ u.frameOk (rx i) = true ∧
    u.chain = true ∧ u.get (TONGS_PORTCFG_MODE 0) ∈ [1, 2, 3] ∧ u.get (TONGS_PORTCFG_MODE 1) ∈ [1, 2, 3] ∧
    u.on TONGS_CHAIN_END = false ∧ u.tongs.relay = [] ∧ 524288 ≤ 524288 ∧ { pk with hops := 7 }.hops < 8 := by decide +kernel

/-- Stream 65535 on the last interface with its peer at address 9, stream 2; as the case wants it. -/
def tCtx : Ctx :=
  { Ctx.empty with typ := 2, tstate := 3, ifc := 3, peerAddr := 9, peerStrm := 2, ownclim := 1, rtocur := 10, cmdcred := 16 }
def tNet (c : Ctx) : State :=
  let s := tDom (tPort tUp) [159, 169]
  { s with
    tongs := { s.tongs with ctx := [(65535, c)], cache := [⟨65535, 0, false⟩] }
    csr := (s.put BELLOWS_PWRSTAT_STATE 4).csr }

def tPkt (typ : Nat) (pay : List Byte) : Pkt :=
  { pk with
    typ := typ, dstrm := 65535, sstrm := 2, pay := pay, net := { Net.none with dst := tGlobal, dport := 50110 }
    w0 := if typ = 0 then pay.length else 0, w2 := if typ = 0 then pay.length else 0 }.sealed

def tBuf : Posted := ⟨0x210013FFFF80, 2, 15, 0, false, 0⟩

theorem test_hyp_PacketArrival : ∀ x ∈ [(0, 3, [1, 2]), (1, 3, List.replicate 16 0), (2, 3, []), (3, 1, []), (4, 2, []), (5, 3, []),
      (6, 4, [])],
    let s := tNet { tCtx with tstate := x.2.1, posted := [tBuf] }
    let u := s.at 10
    let p := tPkt x.1 x.2.2
    (u.ifc 3).up = true ∧ u.frameOk (rx 3) = true ∧ (rx 3).ucw = 0 ∧ u.netOk 3 9 p = true ∧ u.waitingOn 65535 = 0 ∧
    p.pcrc = p.crc ∧ p.badHeader = false ∧ u.present 65535 = true ∧ u.cached 65535 = true ∧ p.typ = x.1 ∧ (u.ctx 65535).inbox = [] ∧
    p.dstrm = 65535 ∧ (u.ctx 65535).tstate = x.2.1 ∧ (u.ctx 65535).peerAddr = 9 ∧ (u.ctx 65535).peerStrm = p.sstrm ∧
    (u.ctx 65535).cfgAddr = 0 ∧ (u.ctx 65535).ifc = 3 ∧ u.tongs.nq = [] ∧ p.psn = (u.ctx 65535).rxcum ∧
    (u.ctx 65535).rxsack = 0 ∧ (u.ctx 65535).closing = none ∧ seqLe p.w0 (u.ctx 65535).txnext = (x.1 != 0) := by decide +kernel

theorem test_hyp_PacketArrival_data : let u := (tNet { tCtx with posted := [tBuf] }).at 10
    let p := tPkt 0 [1, 2]
    let c := u.ctx 65535
    c.typ = 2 ∧ p.opc = 0 ∧ p.w0 = p.pay.length ∧ p.w1 = 0 ∧ c.rx = [] ∧ c.inbox = [] ∧ p.msn = c.rxmsn ∧
    seqLt p.msn c.ownclim = true ∧ c.posted = [tBuf] ∧ tBuf.sig = false ∧ p.pay.length ≤ tBuf.len ∧
    u.tongsMem tBuf.addr p.pay.length = true ∧ ctxAt tBuf.addr = none ∧ u.imagesIn tBuf.addr p.pay.length = [] ∧
    u.tongs.pinned.length < 3072 ∧ u.tongs.pinWait = [] ∧ u.errs = [] ∧ u.transit = [] ∧
    u.reqUsed 1 + p.frameLen ≤ 4 * 2 ^ 20 := by
  decide +kernel

def tTx : TxPkt := ⟨tPkt 0 [1, 2], 0, 0, none⟩

theorem test_hyp_TransportTimers :
    (let u := (tNet { tCtx with ackSince := some 0 }).at 2000
     (u.ctx 65535).ackSince = some 0 ∧ (u.ctx 65535).tstate = 3 ∧ u.now ≥ 0 + 2000) ∧
    (∀ e ∈ [0, 255], ∀ typ ∈ [0, 3], let x : TxPkt := { tTx with pkt := tPkt typ [] }
      let u := (tNet { tCtx with unacked := [x], expiries := e }).at 1000
      (u.ctx 65535).unacked = [x] ∧ u.now ≥ x.base + (u.ctx 65535).rtocur * 100 ∧ (u.ctx 65535).tstate ≠ 5 ∧
      (if e = 0 then e < u.get TONGS_RETX_LIMIT else u.get TONGS_RETX_LIMIT ≤ e)) ∧
    (let u := (tNet { tCtx with crstate := 1 }).at 100000
     (u.ctx 65535).tstate = 3 ∧ (u.ctx 65535).crstate ≠ 0 ∧ u.now ≥ (u.ctx 65535).blockedAt + 100000) ∧
    (let s : State := { State.reset with tongs := { Tongs.reset with ctx := [(3, { Ctx.reset 3 with tstate := 5, failedAt := some 0 })] } }
     let c := (s.at 1000000000).ctx 3
     c.failedAt = some 0 ∧ c.boot = true ∧ c.tstate = 5 ∧ (s.at 1000000000).now ≥ 0 + 1000000000) ∧
    (let f : Ifc := { tUp with ctrl := [(5, tPkt 2 [])] }
     let s := { tNbr (some 1) 0 with tongs := { (tNbr (some 1) 0).tongs with ifc := [(3, f)] } }
     let u := s.at 10
     (u.ifc 3).up = true ∧ (u.ifc 3).ctrl = [(5, tPkt 2 [])] ∧ u.known 3 5 = true ∧ u.tongs.cache = [] ∧ u.tongs.relay = [] ∧
     u.tongs.ctx = []) := by
  decide +kernel

theorem test_hyp_CacheQueues :
    (let u := ({ State.reset with tongs := { Tongs.reset with admq := [(65535, 3), (4, 1)] } }).at 10
     u.tongs.admq = [(65535, 3), (4, 1)] ∧ u.tongs.cache.length < 4096 ∧ u.errs = [] ∧ u.tongs.held = [] ∧ u.tongs.nq = [] ∧
     (u.ctx 65535).inbox = []) ∧
    (let u := ({ State.reset with tongs := { Tongs.reset with pinWait := [65535, 4] } }).at 10
     u.tongs.pinWait = [65535, 4] ∧ u.tongs.pinned.length < 3072 ∧ u.waitingOn 65535 = 0 ∧
     (u.ctx 65535).inbox = []) ∧
    (let s := tNet { tCtx with typ := 4 }
     let u := { tPut s [(TONGS_RING_CFG_CSTRM 63, 65535)] with tongs := { s.tongs with push := [(63, [1], 0)] } }.at 2000
     u.tongs.push = [(63, [1], 0)] ∧ u.get (TONGS_RING_CFG_CSTRM 63) = 65535 ∧ u.now ≥ 0 + 2000 ∧ u.cached 65535 = true ∧
     (u.ctx 65535).typ = 4 ∧ (u.ctx 65535).tstate = 3) := by decide +kernel

/-- A message from its fields: each a width in bytes and a value. -/
def tMsg (l : List (Nat × Nat)) : List Byte := l.flatMap (fun p => toBytes p.1 p.2)

/-- A command stream, open and cached, on an active device. -/
def tCmdS : State := tNet { tCtx with typ := 1 }

theorem tCmdS_ready : let u := tCmdS.at 10
    let c := u.ctx 65535
    c.inbox = [] ∧ c.typ = 1 ∧ c.tstate = 3 ∧ u.present 65535 = true ∧ u.cached 65535 = true ∧ u.waitingOn 65535 = 0 ∧
    u.tongs.pinned.length < 3072 ∧ u.tongs.pinWait = [] ∧ u.active = true ∧ u.errs = [] ∧ u.transit = [] ∧
    u.respUsed (portOf c.ifc) = 0 ∧ u.domOn 192 = true := by decide +kernel

theorem test_hyp_MemoryMessages : let u := tCmdS.at 10
    (let m := tMsg [(8, 0x210013FFFFFF), (4, 1), (4, 0), (1, 7)]
     m.length = 16 + leAt m 8 4 ∧ 1 ≤ leAt m 8 4 ∧ leAt m 8 4 ≤ 65520 ∧ leAt m 14 2 = 0 ∧ u.tongsMem (leAt m 0 8) 1 = true ∧
     ctxAt (leAt m 0 8) = none ∧ tCmdS.tongs.images = []) ∧
    (let m := tMsg [(8, 0x400000000000), (4, 1), (4, 0), (1, 7)]
     m.length = 16 + leAt m 8 4 ∧ leAt m 14 2 = 0 ∧ region (leAt m 0 8) = .none) ∧
    (let m := tMsg [(8, 0x220000000000), (4, 65536), (4, 0)]
     m.length = 16 ∧ 1 ≤ leAt m 8 4 ∧ leAt m 8 4 ≤ 65536 ∧ leAt m 14 2 = 0 ∧ u.tongsMem (leAt m 0 8) (leAt m 8 4) = true ∧
     ctxAt (leAt m 0 8) = none ∧ 16 + leAt m 8 4 ≤ 2 * 2 ^ 20) ∧
    (((tNet { tCtx with typ := 6 }).at 10).ctx 65535).typ = 6 ∧ paceOk (tMsg [(1, 32), (1, 0), (1, 3), (13, 0)]) = true := by
  decide +kernel

/-- Ring 63 in the store of Hearth 9, sixteen slots. -/
def tRing (widx : Nat) : State := tPut tCmdS
  [(TONGS_RING_CFG_LOG2N 63, 4), (TONGS_RING_CFG_BASE 63, 0x200009000000 / 64), (TONGS_RING_IDX_WIDX 63, widx)]

def tSubmit : List Byte := tMsg [(1, 1), (3, 0), (4, 2), (4, 0), (2, 0), (1, 7), (1, 63), (8, 5), (8, 6), (8, 7), (2, 9), (30, 0)]

theorem test_hyp_JobCommands_submit :
    let s := { tRing 15 with
      jobs := (List.range 254).map (fun k => (k, some tJob)), tongs := { (tRing 15).tongs with images := [tImg] } }
    let u := s.at 10
    tSubmit.length = 72 ∧ leAt tSubmit 0 1 = 1 ∧ leAt tSubmit 1 3 = 0 ∧ leAt tSubmit 14 1 < 8 ∧ leAt tSubmit 15 1 = 63 ∧
    leAt tSubmit 40 2 ≠ 0 ∧ leAt tSubmit 44 1 = 0 ∧ leAt tSubmit 45 27 = 0 ∧ u.image (leAt tSubmit 8 4) = some tImg ∧
    (∀ k, k < 254 → (u.job k).isSome = true) ∧ u.job 254 = none ∧ u.ringOn 63 = true ∧
    (u.get (TONGS_RING_IDX_WIDX 63) + 2 ^ 32 - u.get (TONGS_RING_IDX_AIDX 63)) % 2 ^ 32 < 2 ^ u.get (TONGS_RING_CFG_LOG2N 63) ∧
    ((u.ctx 65535).tstate = 3 ∧ u.active = true ∧ u.cached 65535 = true ∧ u.tongs.pinWait = [] ∧ u.waitingOn 65535 = 0 ∧ u.respUsed 1 = 0) := by decide +kernel

def tShort (ctype v : Nat) : List Byte := tMsg [(1, ctype), (3, 0), (4, 2), (8, v)]

theorem test_hyp_JobCommands_cancel : let j := { tJob with st := .queued, strm := 65535 }
    let u := ({ tCmdS with jobs := [(254, some j)] }).at 10
    (tShort 2 254).length = 16 ∧ leAt (tShort 2 254) 0 1 = 2 ∧ leAt (tShort 2 254) 1 3 = 0 ∧ leAt (tShort 2 254) 9 7 = 0 ∧
    u.job (leAt (tShort 2 254) 8 1) = some j ∧ j.strm = 65535 ∧ j.saved = none ∧ j.cancel = [] ∧
    (let v := { tRun with jobs := [(0, some { tJob with cancel := [(0, 4, 2)] })] }
     let w := v.at (v.get TONGS_JOBCFG_CTMO * 1000000)
     v.hammer.run = some 0 ∧ v.job 0 = some { tJob with cancel := [(0, 4, 2)] } ∧ v.hammer.ending = none ∧ v.hammer.faults = [] ∧
     v.hammer.flight = [] ∧ v.tongs.nq = [] ∧ w.now ≥ 0 + w.get TONGS_JOBCFG_CTMO * 1000000) := by decide +kernel

/-- An image of one bundle and one heat (R139, R217), with the SHAKE256 digest of its bytes. -/
def tImage : List Byte :=
  let at_ := [(0, 0x46), (1, 0x4C), (2, 0x4B), (3, 0x41), (4, 0x01), (6, 0xA1), (9, 0x01), (12, 0xC0), (16, 0x10), (20, 0x80), (24, 0x01),
    (28, 0xD0), (128, 0x01), (144, 0x0C), (148, 0x01), (152, 0x01)]
  let dig := toBytes 64 0x8cf21a157b59db5eb71fec918e945d41e21aad0d0cdaa79cce10f13fc324f941780b7f7751dddd42b30cb6fd9908d99a77b359e87e661eac67f6b50680cd2adb
  (List.range 256).map (fun i => if 64 ≤ i ∧ i < 128 then dig.getD (i - 64) 0 else BitVec.ofNat 8 ((at_.lookup i).getD 0))

def tImaged : State :=
  { tCmdS with mem := ((List.range 256).map (fun i => (0x220000000000 + i, tImage.getD i 0))).filter (fun p => p.2 != 0) }

theorem test_hyp_JobCommands_image : let u := tImaged.at 10
    (tShort 3 0).length = 16 ∧ leAt (tShort 3 0) 0 1 = 3 ∧ leAt (tShort 3 0) 12 4 = 0 ∧ u.image 0 = none ∧
    u.imageCheck 0 = (0, none) ∧
    (let v := ({ tCmdS with tongs := { tCmdS.tongs with images := [tImg] } }).at 10
     leAt (tShort 4 0) 0 1 = 4 ∧ leAt (tShort 4 0) 12 4 = 0 ∧ v.image 0 = some tImg ∧ v.imageBusy 0 = false) := by decide +kernel

/-- The same with two further streams cached, and in a closed frame: at k = 1 the second. -/
def tTwo : State := { tCmdS with tongs := { tCmdS.tongs with cache := tCmdS.tongs.cache ++ [⟨65534, 0, false⟩, ⟨3, 0, false⟩] } }

theorem test_hyp_StreamCommands_frames : (tCmdS.at 10).frameOpen = true ∧ (tCmdS.at 30).frameOpen = false := by decide +kernel

theorem test_hyp_StreamCommands : let u := tTwo.at 10
    (let m := tMsg [(1, 5), (3, 0), (4, 2), (8, 19), (64, (tDesc 11 0 0x113000000000 32).toNat)]
     m.length = 80 ∧ leAt m 0 1 = 5 ∧ leAt m 1 3 = 0 ∧ leAt m 8 1 = 19 ∧ leAt m 9 7 = 0 ∧ u.crucRoom 19 2 = true ∧ u.tongs.hostCruc = [] ∧
     u.fenced 19 = false ∧ descCheck 19 (BitVec.ofNat 512 (leAt m 16 64)) = 0) ∧
    (∀ lg ∈ [4, 16], let m := tMsg [(1, 6), (3, 0), (4, 2), (1, 63), (1, lg), (2, 65535), (1, 1), (3, 0), (8, 0x200009000000)]
     m.length = 24 ∧ leAt m 0 1 = 6 ∧ leAt m 1 3 = 0 ∧ leAt m 8 1 = 63 ∧ leAt m 9 1 = lg ∧ leAt m 12 1 < 2 ∧ leAt m 13 3 = 0 ∧
     leAt m 16 8 % 64 = 0 ∧ ringPlace (leAt m 16 8) (64 * 2 ^ lg) = true ∧ u.rangeOk (leAt m 16 8) (64 * 2 ^ lg) = true ∧
     u.get (TONGS_RING_IDX_WIDX 63) = u.get (TONGS_RING_IDX_AIDX 63)) ∧
    (let m := tMsg [(1, 7), (3, 0), (4, 2), (2, 65534), (6, 0), (1, 2), (1, 0), (1, 0x38), (1, 0), (2, 1), (2, 9), (56, 0)]
     m.length = 80 ∧ leAt m 0 1 = 7 ∧ leAt m 1 3 = 0 ∧ leAt m 8 2 = 65534 ∧ u.cached 65534 = true ∧ leAt m 10 6 = 0 ∧ u.fenced (ctxStack 65534) = false ∧
     u.tongs.nq = [] ∧ u.cfgOk (fun o k => leAt m (16 + o) k) = true ∧ (u.ctx 65534).tstate = 0) ∧
    (∀ c ∈ [8, 9, 10], let m := tShort c 3
     m.length = 16 ∧ leAt m 0 1 = c ∧ leAt m 8 2 = 3 ∧ leAt m 10 6 = 0 ∧ u.cached 3 = true ∧ u.fenced (ctxStack 3) = false ∧ (u.ctx 3).tstate = 1 ∧
     (u.ctx 3).busy = 0 ∧ (u.ctx 3).inbox = [] ∧ (u.ctx 3).closing = none ∧ (u.ctx 3).typ ≠ 0 ∧ (u.ctx 3).listen = true) ∧
    (let v := ({ tRing 1 with mem := [(0x200009000000, 2)] }).at 10
     v.pathUp .host = true ∧ v.get (TONGS_RING_IDX_AIDX 63) = 0 ∧ v.get (TONGS_RING_IDX_WIDX 63) = 1 ∧
     (∀ i, i < 1 → 2 ≤ (v.byte (v.slotAddr 63 (0 + i))).toNat)) := by decide +kernel

/-! ### Temper, cooling, Quench, Tuyere -/

/-- A running module with the compute complex up. -/
def tMod : State :=
  { tPut (tDom State.reset [192, 196, 198]) [(MGMT_CFG_ENABLE, 1), (MGMT_STAT_LINK, 1)] with
    secb := { Sec.reset with running := some 0 } }

def tTemper (f : Temper → Temper) : State := { tMod with temper := f tMod.temper }

/-- The CORE pulse gate, as the case wants it. -/
def tCore (f : Pulse → Pulse) : State := { tMod with core := f tMod.core }

theorem test_hyp_TemperPower_interval :
    (∀ nx ∈ [10, 11], let s := tTemper (fun x => { x with ivNext := nx })
      (s.at 10).domOn 192 = true ∧ (nx = 11 → (s.at 10).now < s.temper.ivNext) ∧ (nx = 10 → s.temper.ivNext ≤ (s.at 10).now) ∧
      s.temper.rel ≤ (s.at 10).now ∧ s.temper.vinSeen < (s.at 10).samples (10 * us) ∧ s.temper.dieSeen < (s.at 10).samples (100 * us) ∧
      (∃ p ∈ ([5, 6] : List Int).zipIdx, p.2 ∉ s.cool.dieSus) ∧ 1 ≤ (s.at 10).core.k) ∧
    (let s := tTemper (fun x => { x with vinSeen := 1 })
     (s.at 10).samples (10 * us) ≤ s.temper.vinSeen) ∧
    (tMod.on TEMPER_CAPSTAT_THROTTLE = false ∧ tMod.on TEMPER_CAPSTAT_SAG_WARN = false ∧
      (tPut tMod [(TEMPER_CAPSTAT_THROTTLE, 1)]).on TEMPER_CAPSTAT_THROTTLE = true ∧
      (tPut tMod [(TEMPER_CAPSTAT_SAG_WARN, 1)]).on TEMPER_CAPSTAT_SAG_WARN = true) := by decide +kernel

/-- A raise from position 0 on: complete at position 64, in force at frame 2 or not yet; not complete. -/
theorem test_hyp_TemperPower_raise :
    (let s := tCore (fun c => { c with raise := some ⟨32, 0, 0⟩ })
     s.domOn 192 = true ∧ s.core.raise = some ⟨32, 0, 0⟩ ∧ s.core.next = none ∧ s.core.idx ≤ 0 + 63 ∧ s.core.begun ≤ 16 * (s.at 40).now ∧
     s.core.runDone ⟨32, 0, 0⟩ (16 * (s.at 40).now) = true ∧ (0 + 63) / 32 < (s.at 40).core.idx / 32 ∧
     s.core.runDone ⟨32, 0, 0⟩ (16 * (s.at 39).now) = false) ∧
    (let s := tCore (fun c => { c with raise := some ⟨32, 0, 5⟩ })
     s.core.runDone ⟨32, 0, 5⟩ (16 * (s.at 44).now) = true ∧ ¬ (5 + 63) / 32 < (s.at 44).core.idx / 32) ∧
    (let s := tCore (fun c => { c with raise := some ⟨32, 0, 5000⟩ })
     (s.at 1000).core.raise = some ⟨32, 0, 5000⟩ ∧ 0 + 16000 ≤ 16 * (s.at 1000).now ∧ 16 * (s.at 999).now < 0 + 16000) := by
  decide +kernel

theorem test_hyp_TemperPower_rest :
    (let s := tPut tMod [(TEMPER_CTRL_XFER, 1)]
     s.on TEMPER_CTRL_XFER = true ∧ (s.at 10).slew.temper.vset = (s.at 10).slew.temper.vgoal) ∧
    (let s := tCore (fun c => { c with raise := some ⟨32, 0, 3⟩ })
     let w := (s.at 1).slew
     w.domOn 192 = true ∧ 0 + 2500 * s.get TEMPER_DROOPCFG_THR < w.temper.vset ∧
     w.temper.vset ≤ 2000000 + 2500 * s.get TEMPER_DROOPCFG_THR ∧ (s.at 1).core.raise = some ⟨32, 0, 3⟩) ∧
    (4099 < 4100 ∧ tMod.pwr.vinLow = false ∧ 4200 ≤ 4200 ∧ { tMod.pwr with vinLow := true }.vinLow = true) := by decide +kernel

theorem test_hyp_TemperCaps :
    (∀ src ∈ [0, 2, 3], src ∉ tMod.temper.stale ∧ Tab.get (fun _ => 0) tMod.temper.pubs src + 10 * ms ≤ (tMod.at 10000000).now ∧
      (tMod.at 10000000).domOn 192 = true) ∧
    (∀ p ∈ [Path.rm, .fw, .core 1], (tMod.at 10).pathUp p = true) ∧ tMod.get TEMPER_CAP_HOST_WATTS ≠ min (5 % 65536) 1600 ∧
    (∀ k ∈ [15, 16], let s := tPut (tTemper (fun x => { x with pure7 := true })) [(TEMPER_TRIM_TRIM, k), (TEMPER_TRIM_SLACKMIN, 5)]
      (s.at (3600 * sec)).domOn 192 = true ∧ s.temper.agedAt / (3600 * sec) < (s.at (3600 * sec)).now / (3600 * sec) ∧
      s.temper.pure7 = true ∧ s.get TEMPER_TRIM_SLACKMIN ≤ 5 ∧ 4 < s.get TEMPER_TRIM_SLACKMIN ∧
      s.temper.trimNext.getD (s.get TEMPER_TRIM_TRIM) = k) ∧
    (let s := tTemper (fun x => { x with trimNext := some 16 })
     s.temper.trimNext = some 16 ∧ (s.at 10).domOn 192 = true ∧ s.temper.ivNext ≤ (s.at 10).now) := by decide +kernel

/-- The host's path goes through an interface that is up. -/
theorem test_hyp_TemperCaps_host : ((tPort tUp).at 10).pathUp .host = true ∧ ((tPort tUp).at 10).domOn 192 = true := by
  decide +kernel

theorem test_hyp_TemperCaps_calibration :
    (∀ x ∈ [0, 1], (tMod.at (x * ms)).tickNo - tMod.temper.calTick = x ∧ (tMod.at (x * ms)).domOn 192 = true) ∧
    (∀ c ∈ [0, 999], let s := tTemper (fun x => { x with calTicks := c, overTicks := 9, pestN := 1, pestSum := fI (200 * c) })
     s.temper.calTicks < 1000 ∧ fLe (fI 200) (fDiv s.temper.pestSum (fI s.temper.pestN)) = (c == 999) ∧
     105 * s.get TEMPER_CAPSTAT_CEFF < 100 * 65535) := by decide +kernel

def tNtc : State := tPut tMod
  [(BELLOWS_TCFG_EN 11, 1), (BELLOWS_TCFG_EN 3, 1), (BELLOWS_TCFG_EN 1, 1), (BELLOWS_TCFG_POL 3, 1),
   (BELLOWS_TSTAT_STATE 1, 0), (BELLOWS_TSTAT_STATE 3, 0), (BELLOWS_TSTAT_STATE 11, 0)]

theorem test_hyp_CoolingSensors :
    (tMod.cool.tick < (tMod.at ms).tickNo ∧ tMod.secb.running.isSome = true ∧ tMod.get (BELLOWS_FLOW_STATE 0) ≠ 2 ∧
      tMod.get (BELLOWS_FLOW_KF 0) ≠ 0 ∧ (tMod.at ms).domOn 192 = true) ∧
    (tNtc.ntcValid 11 = true ∧ tNtc.ntcValid 3 = true ∧ tNtc.on (BELLOWS_TCFG_POL 3) = true ∧ (∀ r ∈ [500001, 500001, 500001], 500000 < r) ∧
      ∀ r ∈ [99, 99, 99], r < 100) ∧
    (tMod.get (BELLOWS_PRESS_STATE 3) = 0 ∧ ∀ x ∈ [249, 4751, 249], x < 250 ∨ 4750 < x) ∧
    (∀ k ∈ [1, 2], (tPut tMod [(BELLOWS_TSTAT_STATE 11, k)]).get (BELLOWS_TSTAT_STATE 11) = k) ∧ sec ≤ sec ∧
    (let s := tPut tNtc [(BELLOWS_TSTAT_RAW 1, 5000), (BELLOWS_TSTAT_RAW 3, 1000), (BELLOWS_THCFG_DISAGREE, 1)]
     s.partner 1 = some 3 ∧ s.ntcGood 1 = true ∧ s.ntcGood 3 = true ∧ 25 * s.get BELLOWS_THCFG_DISAGREE < (s.ntcRaw 1 - s.ntcRaw 3).natAbs) ∧
    (let s := { tPut tNtc [(BELLOWS_TSTAT_RAW 3, 0)] with cool := { tNtc.cool with last := ⟨0, 0, 0, 400 * 65536⟩, tout := 2700 } }
     s.ntcGood 3 = true ∧ s.outletOdd 3 = true ∧ (s.at 10).domOn 192 = true ∧ (2299 : Int) < s.cool.tin - 200 ∧
     75 - 12 ∉ s.cool.dieSus ∧ s.get (BELLOWS_FLOW_STATE 0) ≠ 2 ∧ s.flowOdd 0 = true) := by decide +kernel

def tCool (f : Cool → Cool) (l : List (Fd × Nat)) : State := { tPut tMod l with cool := f (tPut tMod l).cool }

theorem test_hyp_CoolingTrips :
    (let s := tCool (fun x => { x with armed := true }) [(BELLOWS_FLOW_STATE 0, 0), (BELLOWS_FLCFG_DPMIN, 5)]
     s.cool.armed = true ∧ s.get (BELLOWS_FLOW_STATE 0) ≠ 2 ∧ (4 : Int) < s.get BELLOWS_FLCFG_DPMIN ∧ s.dpValid = true ∧
     (s.at 10).domOn 192 = true) ∧
    (let s := tCool (fun x => { x with throttleAt := some 0, byFlow := true }) [(BELLOWS_SAFESTAT_THROTTLE, 1)]
     s.on BELLOWS_SAFESTAT_THROTTLE = true ∧ s.get BELLOWS_FLCFG_FLMIN ≤ s.get BELLOWS_FLCFG_FLMIN ∧ s.on BELLOWS_SAFESTAT_CSTOP = false ∧
     s.cool.trigAt + 100 * ms ≤ (s.at (100 * ms)).now ∧
     s.cool.throttleAt = some 0 ∧ 0 + 2 * sec ≤ (s.at (2 * sec)).now ∧ s.cool.byFlow = true) ∧
    ((tPut tMod [(BELLOWS_SAFESTAT_CSTOP, 1)]).on BELLOWS_SAFESTAT_CSTOP = true ∧ tMod.cool.shdnExt = false) ∧
    (tMod.on BELLOWS_SAFESTAT_CSTOP = false ∧ (tMod.at 10).domOn 192 = true ∧ critLimit tMod.pwr.tcrit 0 ≤ 10500 ∧
      critLimit tMod.pwr.tcrit 1 ≤ 9500 ∧ critLimit tMod.pwr.tcrit 2 ≤ 6500) := by decide +kernel

theorem test_hyp_LeaksAndFlow :
    (∀ x ∈ [(1, 0, 0, 0), (1, 1, 1, 0), (1, 1, 1, 1), (2, 0, 0, 0)], let (act, fact, st, iso) := x
      let s := tPut tMod [(BELLOWS_LEAK_ACT 3, act), (BELLOWS_LEAK_FAULTACT 3, fact), (BELLOWS_LEAK_STATE 3, 3 * st), (BELLOWS_SAFESTAT_LEAKISO, iso)]
      s.get (BELLOWS_LEAK_ACT 3) = act ∧ s.on (BELLOWS_LEAK_FAULTACT 3) = (fact == 1) ∧ s.get (BELLOWS_LEAK_STATE 3) ≠ 1 ∧
      s.get (BELLOWS_LEAK_STATE 3) ≠ 2 ∧ s.on BELLOWS_SAFESTAT_LEAKISO = (iso == 1)) ∧
    [4999, 4999, 4999, 4999, 4999].length = 5 ∧ (∀ r ∈ [4999, 4999, 4999, 4999, 4999], r < 5000) ∧
    (30000 < 30001 ∧ 100 * ms ≤ 100 * ms ∧ 5000 ≤ 5000 ∧ 6999 < 7000 ∧ 13000 < 13001 ∧ 30000 ≤ 30000) ∧
    (∀ vb ∈ [true, false], let s := { tPut tMod [(TUYERE_VSTAT_STATE 8, 4), (TUYERE_VSTAT_STATE 9, 4)] with
        pwr := { tMod.pwr with step := 4, vinBad := vb } }
     s.pwr.step = 4 ∧ s.on BELLOWS_SAFESTAT_CSTOP = false ∧ s.get (TUYERE_VSTAT_STATE 8) = 4 ∧ s.get (TUYERE_VSTAT_STATE 9) = 4 ∧
     s.pwr.vinBad = vb ∧ s.pwr.stop = false ∧ s.pwr.stepAt + 30 * sec ≤ (s.at (30 * sec)).now) := by decide +kernel

theorem test_hyp_Fans :
    (∀ on ∈ [true, false], ∀ n ∈ [2, 3], let s := tCool (fun x => { x with kicks := [(3, some ⟨0, on⟩)] }) [(BELLOWS_FSTAT_ATTEMPT 3, n)]
      let u := s.at (18 * sec)
      s.kickOf 3 = some ⟨0, on⟩ ∧ s.get (BELLOWS_FSTAT_ATTEMPT 3) = n ∧ (n < 3 → 0 + 5 * (n + 1) * sec ≤ u.now) ∧ 0 + (5 * n + 3) * sec ≤ u.now) ∧
    (∀ st ∈ [1, 6], let s := tPut tMod [(BELLOWS_FSTAT_STATE 3, st), (BELLOWS_FSTAT_RPM 3, 1000)]
     s.get (BELLOWS_FSTAT_STATE 3) = st ∧ s.get (BELLOWS_FSTAT_RPM 3) ≠ 0 ∧ s.kickOf 3 = none ∧ s.tachOf 3 = none ∧
     3 * 60 * sec ≤ 180000000 * s.get (BELLOWS_FSTAT_RPM 3) * (s.get (BELLOWS_FCFG_PPR 3) + 1)) ∧
    (∀ x ∈ [(1, 0, 0, true), (1, 1, 0, false), (2, 0, 0, true), (2, 0, -9999, false)], let (role, fst, temp, lost) := x
      let e : TachEv := ⟨0, 0, temp, false⟩
      let s := tCool (fun y => { y with tach := [(3, some e)] }) [(BELLOWS_FCFG_ROLE 3, role), (BELLOWS_CAPOUT_FSTATE, fst), (BELLOWS_FCFG_SRC 3, 15)]
      s.tachOf 3 = some e ∧ e.classed = false ∧ s.get (BELLOWS_FCFG_ROLE 3) = role ∧ s.get BELLOWS_CAPOUT_FSTATE = fst ∧
      9 * e.flow ≤ 10 * s.flowMean ∧ (role = 2 → decide (s.fanTemp 3 ≤ e.temp + 200) = lost) ∧ e.at_ + 10 * sec ≤ (s.at (10 * sec)).now) ∧
    (tPut tMod [(BELLOWS_FSTAT_STATE 3, 3)]).get (BELLOWS_FSTAT_STATE 3) = 3 ∧
    ((tMod.at 10).pathUp .rm = true ∧ let w := BitVec.ofNat 64 (256 + tMod.get BELLOWS_KEEPALIVE_KATIME)
      w.getLsbD 8 = true ∧ bitsOf w.toNat 7 0 = tMod.get BELLOWS_KEEPALIVE_KATIME) ∧
    (tMod.on BELLOWS_SAFESTAT_AUTO = false ∧ tMod.cool.kaAt + tMod.get BELLOWS_KEEPALIVE_KATIME * sec ≤ (tMod.at (255 * sec)).now) := by
  decide +kernel

/-- The controller on the bus with FD frames, time-triggered operation off. -/
def tBus (l : List (Fd × Nat)) : State := tPut tMod ([(CANFD_CTL_EN, 1), (CANFD_STAT_STATE, 0), (CANFD_CTL_FDEN, 1)] ++ l)

theorem test_hyp_LoopMaster :
    (let s := { tBus [(BELLOWS_LOOP_SLOT, 3)] with pwr := { tMod.pwr with step := 3 } }
     3 ≤ s.pwr.step ∧ (s.at 10).canUp = true) ∧ (tMod.at 10).canUp = false ∧
    (∀ k ∈ [0, 7], ∀ claim ∈ [0, 32], let f : CanFrame := { fr with id := 0x100 + k, fdf := true, data := List.replicate 16 (BitVec.ofNat 8 (k + claim)) }
     (tBus []).slotId = 0 ∧ (tBus [(BELLOWS_LOOP_SLOT, 3)]).slotId = 3 ∧ f.data.length = 16 ∧ leAt f.data 0 1 % 8 = k ∧
     bit (leAt f.data 0 1) 5 = (claim == 32) ∧ f.id = 0x100 + leAt f.data 0 1 % 8) ∧
    (let s := tBus [(BELLOWS_LOOP_SLOT, 3)]
     (s.at 10).canTakes { fr with fdf := true } = true ∧ (s.at 10).canTakes fr = true ∧ 0x080 ≤ 0x087 ∧ 0x087 < 0x088 ∧ 0x087 - 0x080 ≠ s.slotId) := by decide +kernel

/-- Loop 15 with its state, source and destination, and its record. -/
def tLoop (st src dst didx : Nat) (l : QLoop) (m : List (Fd × Nat)) : State :=
  { tPut tNtc ([(QUENCH_LSTAT_STATE 15, st), (QUENCH_LCFG_SRC 15, src), (QUENCH_LCFG_DST 15, dst), (QUENCH_LCFG_DIDX 15, didx),
      (QUENCH_LCFG_PER 15, 1000), (QUENCH_LCFG_PHASE 15, 128)] ++ m) with quench := { Quench.reset with loops := [(15, l)] } }

theorem test_hyp_QuenchLoops_sample : ∀ src ∈ [12, 0], let s := tLoop 1 src 2 3 QLoop.off [(BELLOWS_TCFG_EN 0, 0), (BELLOWS_TSTAT_STATE 0, 1)]
    (s.loop 15).next ≤ (s.at 1000).micros ∧ s.lst 15 = 1 ∧ s.get (QUENCH_LCFG_DST 15) ≠ 3 ∧
    s.qValid (s.get (QUENCH_LCFG_SRC 15)) = (src == 12) ∧
    sx 32 (s.get (QUENCH_LCLAMP_OUTMIN 15)) ≤ sx 32 (s.get (QUENCH_LCLAMP_OUTMAX 15)) := by decide +kernel

theorem test_hyp_QuenchLoops_output : ∀ dst ∈ [0, 1, 2, 3], let s := tLoop 1 12 dst 7 { QLoop.off with due := some (1, 5) } []
    (s.loop 15).due = some (1, 5) ∧ 1 ≤ (s.at 1000).micros ∧ s.get (QUENCH_LCFG_DST 15) = dst ∧ s.get (QUENCH_LCFG_DIDX 15) < 8 := by
  decide +kernel

theorem test_hyp_QuenchLoops_arm :
    (∀ monly ∈ [0, 1], let s := tLoop 0 12 1 7 QLoop.off [(QUENCH_LCFG_MONLY 15, monly)]
     s.loopBusy 15 = false ∧ s.armError 15 = 0 ∧ (s.at 10).pathUp .rm = true ∧ s.on (QUENCH_LCFG_MONLY 15) = (monly == 1)) ∧
    (tLoop 0 12 1 8 QLoop.off []).armError 15 ≠ 0 ∧ (tLoop 0 12 1 8 QLoop.off []).loopBusy 15 = false ∧
    (tLoop 1 12 1 7 QLoop.off []).loopBusy 15 = true ∧
    ((1#64).getLsbD 0 = true ∧ (1#64).getLsbD 2 = false ∧ (1#64).getLsbD 3 = false ∧ (0#64).getLsbD 0 = false ∧
      (9#64).getLsbD 3 = true ∧ (5#64).getLsbD 2 = true ∧ (2#64).getLsbD 1 = true) := by decide +kernel

/-- An output due at the sample, and one due later; a beacon raised by Temper. -/
theorem test_hyp_QuenchLoops_due :
    (∀ o ∈ [0, 1], let s := tLoop 1 12 2 3 { QLoop.off with due := some (o, 5) } []
     (s.loop 15).due = some (o, 5) ∧ (s.loop 15).next = 0 ∧ (s.loop 15).next ≤ (s.at 1000).micros ∧ s.lst 15 = 1) ∧
    { tMod.hammer with beaconUp := true }.beaconUp = true ∧ tMod.hammer.beaconUp = false := by decide +kernel

theorem test_hyp_QuenchLoops_trace :
    let s := { tPut tMod [(QUENCH_TRSTAT_STATE, 1), (QUENCH_TRCFG_EN 7, 1), (QUENCH_TRSEL_CH, 7)] with
      quench := { Quench.reset with chans := [(7, ⟨[(3, 4)], 0, 0⟩)] } }
    let w : Word := BitVec.ofNat 64 (1 * 2 ^ 20 + 2)
    w.getLsbD 0 = false ∧ w.getLsbD 1 = true ∧ s.get QUENCH_TRSTAT_STATE = 1 ∧ 7 ∈ s.qchans ∧
    (∀ c ∈ s.qchans, bitsOf w.toNat 31 20 ≤ (s.qchan c).ents.length) ∧
    (s.qchan (s.get QUENCH_TRSEL_CH)).ents[s.get QUENCH_TRSEL_IDX]? = some (3, 4) := by decide +kernel

/-- A valve channel with its state, its record and other fields. -/
def tValve (c st : Nat) (v : Valve) (l : List (Fd × Nat)) : State :=
  let s := tPut tMod ((TUYERE_VSTAT_STATE c, st) :: l)
  { s with tuyere := { s.tuyere with valves := [(c, v)] } }

theorem test_hyp_ValveDrive_commands :
    ((tMod.at 10).pathUp .rm = true ∧ (tMod.at 10).domOn 198 = true ∧ tMod.on BELLOWS_SAFESTAT_LEAKISO = false) ∧
    (let s := tValve 9 0 Valve.reset []
     bitsOf (10#64).toNat 1 0 = 2 ∧ (10#64).getLsbD 3 = true ∧ (10#64).getLsbD 4 = false ∧ s.vBlocked 9 = false ∧ s.vst 9 = 0 ∧
     (s.valve 9).want = false) ∧
    (let s := tValve 9 4 { Valve.reset with want := true } []
     (2#64).getLsbD 3 = false ∧ s.vst 9 = 4 ∧ (s.valve 9).want = true) ∧
    (let f := fun (w : Word) hi lo => bitsOf w.toNat hi lo
     let w := BitVec.ofNat 64 (255 * 2 ^ 56 + 254 * 2 ^ 48 + 1 * 2 ^ 40 + 300 * 2 ^ 24 + 150 * 2 ^ 8 + 10)
     let x := BitVec.ofNat 64 (2 * 2 ^ 56 + 254 * 2 ^ 48 + 1 * 2 ^ 40 + 50 * 2 ^ 24 + 10 * 2 ^ 8 + 150)
     ∀ y, y = w ∨ y = x → 2 ≤ f y 63 56 ∧ f y 55 48 ≤ 254 ∧ 1 ≤ f y 47 40 ∧ 50 ≤ f y 32 24 ∧ f y 32 24 ≤ 300 ∧ 10 ≤ f y 16 8 ∧
       f y 16 8 ≤ 150 ∧ 10 ≤ f y 7 0 ∧ f y 7 0 ≤ 150) := by
  refine ⟨by decide +kernel, by decide +kernel, by decide +kernel, ?_⟩
  intro f w x y h
  rcases h with h | h <;> (subst h; decide +kernel)

theorem test_hyp_ValveDrive_high_side :
    (∀ x ∈ [(7, false, 0), (9, true, 0), (9, false, 1), (9, false, 0)], let (c, nb, rdy) := x
     let s := tValve c 1 { Valve.reset with reqAt := some 0, noBoost := nb } [(TUYERE_BOOST_READY, rdy)]
     s.holder (bankOf c) = none ∧ (s.at 10).domOn 198 = true ∧ (s.at 10).nextRequest (bankOf c) = some c ∧ (s.valve c).noBoost = nb ∧
     s.on TUYERE_BOOST_READY = (rdy == 1)) ∧
    (let s := tValve 9 1 { Valve.reset with bwait := some 10 } []
     (s.valve 9).bwait = some 10 ∧ s.vst 9 = 1 ∧ (s.at 10).now ≤ 10 ∧ 10 ≤ (s.at 10).now) ∧
    (∀ st ∈ [2, 3], let s := tValve 9 st Valve.reset [(TUYERE_VPROF_TPKMIN 9, 2), (TUYERE_VPROF_TPKMAX 9, 100)]
     s.vst 9 = st ∧ (s.valve 9).peakAt = none ∧ s.get (TUYERE_VPROF_TPKMIN 9) * 100000 ≤ (s.at 200000).now - (s.valve 9).start ∧
     (s.at 199999).now - (s.valve 9).start < s.get (TUYERE_VPROF_TPKMIN 9) * 100000 ∧
     (s.valve 9).start + s.get (TUYERE_VPROF_TPKMAX 9) * 100000 ≤ (s.at 10000000).now ∧ s.energised 9 = true) ∧
    (∀ c ∈ [0, 8, 9], let s := tValve c 3 { Valve.reset with peakAt := some 0 } []
     (s.valve c).peakAt = some 0 ∧ s.vst c = 3 ∧ 0 + s.get (TUYERE_VPROF_TPEAK c) * 100000 ≤ (s.at (s.get (TUYERE_VPROF_TPEAK c) * 100000)).now) ∧
    (∀ st ∈ [0, 5], let s := tValve 9 st { Valve.reset with abortAt := some 0 } [(TUYERE_VCMD_MODE 9, 2), (TUYERE_VCMD_FIXCMD 9, 1)]
     (s.valve 9).abortAt = some 0 ∧ s.get (TUYERE_VCMD_MODE 9) = 2 ∧ 0 + 100 * ms ≤ (s.at (100 * ms)).now ∧ s.vWanted 9 = true ∧
     s.on BELLOWS_SAFESTAT_LEAKISO = false ∧ s.vst 9 = st) := by decide +kernel

theorem test_hyp_ValveEvents_motion :
    (∀ k ∈ [true, false], let s := tValve 9 5 { Valve.reset with kchk := k } [(TUYERE_VKINK_KWIN 9, 1)]
     s.vst 9 = 5 ∧ (s.valve 9).reopen = false ∧ (s.valve 9).kchk = k ∧ (s.at 1000000).now ≤ (s.valve 9).since + s.get (TUYERE_VKINK_KWIN 9) * ms ∧
     (s.valve 9).since + s.get (TUYERE_VKINK_KWIN 9) * ms ≤ (s.at 1000000).now) ∧
    (let u := tMod.at (tMod.vper 1)
     bankOf 7 < 2 ∧ u.domOn 198 = true ∧ tMod.periodAt (bankOf 7) + tMod.vper (bankOf 7) ≤ u.now) ∧
    (∀ r, r = some 5 → let s := tValve 9 1 { Valve.reset with reqAt := some 5 } []
     (s.valve 9).reqAt = r ∧ s.vst 9 = 1 ∧ 5 + s.get (TUYERE_BANK_PKWAIT 2) * ms ≤ (s.at (5 + s.get (TUYERE_BANK_PKWAIT 2) * ms)).now) := by
  refine ⟨by decide +kernel, by decide +kernel, ?_⟩
  intro r h; subst h; decide +kernel

theorem test_hyp_ValveEvents_events :
    (∀ d ∈ [0, 1000], ∀ lim ∈ [0, 100], let s := tValve 7 0 { Valve.reset with duty := d } [(TUYERE_VCMD_MODE 7, 1), (TUYERE_VPROT_LIMIT 7, lim), (TUYERE_VCMD_SLOT 7, 0)]
     let u := s.at 10
     let r := onTime (s.valve 7).duty (s.vper 1 / us) (s.get (TUYERE_VCMD_TONMIN 7) * 10000) (s.get (TUYERE_VCMD_TOFFMIN 7) * 10000) (s.valve 7).acc
     s.get (TUYERE_VCMD_MODE 7) = 1 ∧ s.periodAt 1 + s.get (TUYERE_VCMD_SLOT 7) * s.vper 1 / 256 ≤ u.now ∧ (s.valve 7).seen = false ∧
     u.domOn 198 = true ∧ decide (s.thermalProt 7 = false ∧ s.get (TUYERE_VPROT_LIMIT 7) ≤ u.winPct 7 ∧ 0 < r.1) = (lim == 0 && d == 1000)) ∧
    (let s := tValve 7 4 { Valve.reset with evOn := true, evEnd := 10, limited := true } [(TUYERE_VPROT_LIMIT 7, 60)]
     (s.valve 7).evOn = true ∧ (s.valve 7).evEnd ≤ (s.at 10).now ∧ s.vst 7 ≠ 1 ∧
     (s.valve 7).evEnd + s.get (TUYERE_VCMD_TOFFMIN 7) * 10 * ms ≤ s.periodAt 1 + s.vper 1 + s.get (TUYERE_VCMD_SLOT 7) * s.vper 1 / 256 ∧
     s.thermalProt 7 = false ∧ (s.at 10).winPct 7 < s.get (TUYERE_VPROT_LIMIT 7) ∧ (s.valve 7).limited = true) ∧
    (let s := tValve 7 4 Valve.reset [(TUYERE_VPROT_LIMIT 7, 0)]
     s.thermalProt 7 = false ∧ s.get (TUYERE_VPROT_LIMIT 7) ≤ (s.at 10).winPct 7 ∧ (s.valve 7).limited = false ∧ s.energised 7 = true) ∧
    (tMod.thermalProt 9 = true ∧ (tMod.at 10).domOn 198 = true ∧ (tMod.valve 9).step < (tMod.at (10 * ms)).now / (10 * ms)) := by decide +kernel

theorem test_hyp_ValveEvents_supply :
    (899 < 900 ∧ ms ≤ ms ∧ tMod.tuyere.low = false ∧ 1050 ≤ 1050 ∧ 10 * ms ≤ 10 * ms ∧ { tMod.tuyere with low := true }.low = true ∧
      (tMod.at 10).domOn 198 = true) ∧
    (∀ k ∈ [some 10, none], let i : Iso := ⟨0, k, none⟩
     let s := { tPut tMod [(BELLOWS_SAFESTAT_LEAKISO, 1)] with tuyere := { Tuyere.reset with iso := some i } }
     let t := if k = none then s.get TUYERE_XSEQ_XGAP * 100000 else 10 + 500 * us
     s.tuyere.iso = some i ∧ s.on BELLOWS_SAFESTAT_LEAKISO = true ∧ i.x1At = none ∧
     (if k = none then i.at_ + s.get TUYERE_XSEQ_XGAP * 100000 ≤ (s.at t).now else 10 + 500 * us ≤ (s.at t).now)) := by decide +kernel

/-! ### CAN -/

theorem test_hyp_CanFrames_receive :
    (let s := tBus []
     let f : CanFrame := { fr with rtr := true, fdf := true }
     (s.at 10).canTakes f = true ∧ f.rtr = true) ∧
    (let s := tBus [(CANFD_FLTA_TYPE 127, 2), (CANFD_FLTA_ID1 127, 2047), (CANFD_FLTA_ACT 127, 1), (CANFD_FLTA_BUF 127, 62), (CANFD_BCFG_EN 62, 1)]
     let f : CanFrame := { fr with id := 2047, dlc := 8, data := [1, 2, 3, 4, 5, 6, 7, 8] }
     (s.at 10).canTakes f = true ∧ f.fdf = false ∧ f.rtr = false ∧ (List.range 128).find? (fun k => s.filterHit k f) = some 127 ∧
     s.get (CANFD_FLTA_ACT 127) < 2 ∧ s.rxBuf (s.get (CANFD_FLTA_BUF 127)) = true) ∧
    (let s := tBus [(CANFD_CTL_NOMATCH, 1), (CANFD_BCFG_EN 63, 1)]
     let f : CanFrame := { fr with id := 2047, dlc := 1, data := [1] }
     (s.at 10).canTakes f = true ∧ f.rtr = false ∧ (List.range 128).find? (fun k => s.filterHit k f) = none ∧
     s.on CANFD_CTL_NOMATCH = true ∧ s.rxBuf 63 = true) := by decide +kernel

/-- Buffer 63 an enabled transmit buffer, pending, and the controller's record. -/
def tTxb (pend : Nat) (f : Can → Can) (l : List (Fd × Nat)) : State :=
  let s := tBus ([(CANFD_BCFG_EN 63, 1), (CANFD_BCFG_DIR 63, 1), (CANFD_BSTAT_TXPEND 63, pend)] ++ l)
  { s with can := f s.can }

theorem test_hyp_CanFrames_transmit :
    (let s := tTxb 0 id []
     (s.at 10).pathUp .rm = true ∧ (s.at 10).pathUp (.core 1) = true ∧ s.txBuf 63 = true ∧
     ((1#64).getLsbD 0 = true ∧ (1#64).getLsbD 1 = false ∧ (1#64).getLsbD 2 = false) ∧
     ((2#64).getLsbD 1 = true ∧ (2#64).getLsbD 2 = false) ∧ ((4#64).getLsbD 0 = false ∧ (4#64).getLsbD 1 = false ∧ (4#64).getLsbD 2 = true)) ∧
    (let s := tTxb 1 id []
     s.on (CANFD_BSTAT_TXPEND 63) = true ∧ s.can.offer ≠ some 63) ∧
    (∀ l ∈ [[63], []], let s := tTxb 1 (fun c => { c with offer := some 63, cancelling := l }) []
     (s.at 10).canUp = true ∧ s.on (CANFD_BSTAT_TXPEND 63) = true ∧ s.can.offer = some 63 ∧ s.can.cancelling = l ∧
     (s.at 10).exclusive = false) ∧
    (let s := tTxb 1 (fun c => { c with offer := some 63, win := some (0, 0, 5) }) [(CANFD_TTCFG_TTEN, 1), (CANFD_TTSTAT_TTSTATE, 2)]
     (s.at 10).canUp = true ∧ (s.at 10).exclusive = true) := by decide +kernel

theorem test_hyp_CanFrames_states :
    (∀ st ∈ [0, 1, 2, 3], st < 4) ∧ (tBus []).on CANFD_CTL_EN = true ∧ 1 ≠ (tBus []).get CANFD_STAT_STATE ∧
    (∀ x ∈ [(0, false), (1, true)], let (bom, rj) := x
     let s := { tBus [(CANFD_STAT_STATE, 2), (CANFD_CTL_BOMAN, bom)] with can := { Can.reset with rejoin := rj } }
     s.on CANFD_CTL_EN = true ∧ s.get CANFD_STAT_STATE = 2 ∧ (s.on CANFD_CTL_BOMAN = false ∨ s.can.rejoin = true)) := by decide +kernel

theorem test_hyp_CanTime :
    ((tBus []).at 10).pathUp .rm = true ∧ (1#64).getLsbD 0 = true ∧ (tBus [(CANFD_TTCFG_TTEN, 0)]).on CANFD_TTCFG_TTEN = false ∧
    (∀ x ∈ [(0x100, 1, 0), (0x103, 3, 63)], let (i, st, d) := x
     let s := tBus [(CANFD_TTCFG_TTEN, 1), (CANFD_TTSTAT_TTSTATE, st), (CANFD_TTCFG_RID, 0x100)]
     let f : CanFrame := { fr with id := i, dlc := 1, data := [BitVec.ofNat 8 d] }
     (s.at 10).canTakes f = true ∧ s.on CANFD_TTCFG_TTEN = true ∧ s.get CANFD_TTSTAT_TTSTATE ≠ 0 ∧ f.ide = false ∧ f.fdf = false ∧
     f.rtr = false ∧ f.dlc = 1 ∧ s.get CANFD_TTCFG_RID ≤ f.id ∧ f.id < s.get CANFD_TTCFG_RID + 4 ∧ leAt f.data 0 1 < 64) ∧
    (∀ own ∈ [0, 1], let s := tBus [(CANFD_TTCFG_TTEN, 1), (CANFD_TTSTAT_TTSTATE, 2), (CANFD_TTCFG_TMEN, 1), (CANFD_TTCFG_TMPRI, 3), (CANFD_TTSTAT_ISTM, own)]
     let u := s.at (s.ntu (s.get CANFD_TTCFG_CYCLEN + 256))
     u.canUp = true ∧ s.on CANFD_TTCFG_TTEN = true ∧ s.get CANFD_TTSTAT_TTSTATE ≠ 0 ∧ s.on CANFD_TTCFG_TMEN = true ∧
     s.on CANFD_TTSTAT_ISTM = (own == 1) ∧
     s.can.lastRef + s.ntu (s.get CANFD_TTCFG_CYCLEN + (if own = 1 then 0 else 64 * (s.get CANFD_TTCFG_TMPRI + 1))) ≤ u.now) ∧
    (let s := tBus [(CANFD_TTCFG_TTEN, 1), (CANFD_TTSTAT_TTSTATE, 2), (CANFD_TTCFG_NTRIG, 2), (CANFD_TTCFG_CYCLEN, 1000),
       (CANFD_TRIG_TMARK 0, 0), (CANFD_TRIG_TMARK 1, 999)]
     (∀ k ∈ [0, 1], let a := s.can.cycleAt + s.ntu (s.get (CANFD_TRIG_TMARK k))
       let b := s.can.cycleAt + s.ntu (if k + 1 < 2 then s.get (CANFD_TRIG_TMARK (k + 1)) else s.get CANFD_TTCFG_CYCLEN)
       k < s.get CANFD_TTCFG_NTRIG ∧ s.get CANFD_TTSTAT_TTSTATE = 2 ∧ a ≤ (s.at a).now ∧ (s.at a).now < b ∧
       s.get CANFD_TTSTAT_CYCLE % 2 ^ s.get (CANFD_TRIG_REP k) = s.get (CANFD_TRIG_OFS k)) ∧
     s.can.lastRef + s.ntu (3 * s.get CANFD_TTCFG_CYCLEN) ≤ (s.at (s.ntu 3000)).now) := by decide +kernel

/-! ### The management port -/

/-- A link-local source. -/
def tSrc : BitVec 128 := 0xFE800000000000000000000000000001#128

/-- The addresses of the management port. -/
def tOn (s : State) : State := { s with csr := s.csr ++ [(MGMT_MAC, 1), (MGMT_IPV6H, 2), (MGMT_IPV6L, 5)] }

def tMan : State := tOn tMod

/-- A request, to the port's global address, whose checksum is right. -/
def tD (cmd : Nat) (pay : List Byte) : Dgram :=
  { dg with
    seq := 5, len := pay.length, pay := pay, dst := tGlobal, dport := 50111
    crc := crc32c (toBytes 1 1 ++ toBytes 1 cmd ++ toBytes 1 0 ++ toBytes 1 0 ++ toBytes 4 5 ++ toBytes 2 pay.length ++ toBytes 2 0 ++ pay) }

/-- Every command of the port is admitted from the source by a running module that has kept no response. -/
theorem admits_of (u : State) (cmd : Nat) (pay : List Byte) (h : u.mgmtServes cmd = true) (r : u.dgramHere (tD cmd pay) = true) (a : u.srcAllowed tSrc = true)
    (e : u.mgmt.seen = []) (l : pay.length ≤ 1400) : u.admits cmd tSrc (tD cmd pay) := by
  refine ⟨h, r, a, ?_, rfl, ?_, ?_⟩
  · simp [Dgram.ok, tD, dg, l]
  · simp [State.kept, e]
  · simp [State.kept, e]

def tDark : State := tOn { tMod with csr := (tPut (tDom State.reset [196, 198]) [(MGMT_CFG_ENABLE, 1), (MGMT_STAT_LINK, 1)]).csr }

theorem test_hyp_MgmtAccess_registers :
    (tMan.at 10).admits 1 tSrc (tD 1 []) ∧ (tMan.at 10).admits 2 tSrc (tD 2 []) ∧
    (let p := tMsg [(8, 0x300000000000), (2, 128)]
     (tDark.at 10).admits 3 tSrc (tD 3 p) ∧ p.length = 10 ∧ leAt p 8 2 = 128 ∧ (tDark.at 10).csrNotReady (csrSpan (leAt p 0 8) 128) = true) ∧
    (let p := tMsg [(8, BELLOWS_KEEPALIVE), (2, 1)]
     let l := csrSpan (leAt p 0 8) 1
     (tDark.at 10).admits 3 tSrc (tD 3 p) ∧ p.length = 10 ∧ leAt p 8 2 = 1 ∧ (tDark.at 10).csrNotReady l = false ∧
     ∀ a ∈ l, a % 8 = 0 ∧ (findReg a).isSome = true ∧ (tDark.at 10).csrOn a = true ∧ logAddr a = false ∧ a ∉ [HAMMER_TRDATA, QUENCH_TRDATA]) ∧
    (let p := tMsg [(8, 0x300000000000), (2, 128)]
     (tMan.at 10).admits 3 tSrc (tD 3 p) ∧ (tMan.at 10).csrNotReady (csrSpan (leAt p 0 8) 128) = false ∧
     0x300000000000 + 8 * 127 ∈ csrSpan (leAt p 0 8) 128 ∧ (findReg (0x300000000000 + 8 * 127)).isNone = true) ∧
    (let p := tMsg [(8, BELLOWS_KEEPALIVE), (2, 1), (6, 0), (8, 300)]
     (tDark.at 10).admits 4 tSrc (tD 4 p) ∧ p.length = 24 ∧ leAt p 8 2 = 1 ∧ leAt p 10 6 = 0 ∧ (tDark.at 10).csrNotReady [leAt p 0 8] = false) ∧
    ((tMan.at 10).admits 5 tSrc (tD 5 (tMsg [(2, 1601)])) ∧ (tDark.at 10).admits 5 tSrc (tD 5 (tMsg [(2, 0)])) ∧
     (tMsg [(2, 1601)]).length = 2 ∧ (tMan.at 10).domOn 192 = true ∧ (tDark.at 10).domOn 192 = false) := by
  unfold State.admits
  refine ⟨?_, ?_, ?_, ?_, ?_, ?_, ?_⟩ <;> decide +kernel

theorem test_hyp_MgmtAccess_records :
    (let s := { tMan with mgmt := { tMan.mgmt with ntf := [⟨6, 255, 0, false, 0, 0, some 0⟩, ⟨7, 0, 0, false, 0, 0, none⟩] } }
     let p := tMsg [(4, 6)]
     (s.at 10).admits 0x13 tSrc (tD 0x13 p) ∧ p.length = 4 ∧ bit (s.get (BIC_SRCCFG_TEN 31)) 3 = false ∧ s.get (BIC_SRCCFG_GROUP 31) = 0 ∧
     (∀ x ∈ s.mgmt.ntf, x.seq = leAt p 0 4 → (s.src x.src).heldRM = none ∧ x.src < 256) ∧
     (∀ x ∈ s.mgmt.ntf, (s.at (200 * ms)).now < x.raised + 10 * sec) ∧ (s.mgmt.ntf.map (·.seq)).Nodup ∧
     (∀ x ∈ s.mgmt.ntf, x.raised + 10 * sec ≤ (s.at (10 * sec)).now ∧ (s.src x.src).heldRM = none ∧ x.src < 256)) ∧
    ({ tMan with mgmt := { tMan.mgmt with lastSrc := some tSrc } }.at 10).notifyDst.isSome = true ∧
    (let p := tMsg [(4, 0), (2, 41)]
     (tMan.at 10).admits 0x0C tSrc (tD 0x0C p) ∧ p.length = 6) ∧
    (let p := tMsg [(2, 65535)]
     (tMan.at 10).admits 0x0E tSrc (tD 0x0E p) ∧ (tDark.at 10).admits 0x0E tSrc (tD 0x0E p) ∧ p.length = 2 ∧
     (tDark.at 10).domOn 192 = false ∧ (tMan.at 10).domOn 192 = true ∧ tMan.snapReq = none) := by
  unfold State.admits; decide +kernel

theorem test_hyp_MgmtResets_cooling :
    (∀ iso ∈ [0, 1], let s := tOn (tCool (fun x => { x with shdnExt := iso == 1 }) [(BELLOWS_SAFESTAT_CSTOP, 1)])
     (s.at 10).admits 6 tSrc (tD 6 []) ∧ s.on BELLOWS_SAFESTAT_CSTOP = true ∧ s.stopCleared = (iso == 0)) ∧
    (∀ st ∈ [0, 1], let s := tPut tMan [(BELLOWS_SAFESTAT_LEAKISO, 1), (BELLOWS_LEAK_STATE 3, st)]
     (s.at 10).admits 7 tSrc (tD 7 [3]) ∧ s.on BELLOWS_SAFESTAT_LEAKISO = true ∧ s.get (BELLOWS_LEAK_STATE 3) = st ∧ s.isoLoop.getD 3 = 3) ∧
    (let s := tPut tMan [(BELLOWS_FSTAT_STATE 3, 5)]
     (s.at 10).admits 8 tSrc (tD 8 [3]) ∧ s.get (BELLOWS_FSTAT_STATE (leAt [3] 0 1)) = 5) ∧
    (let s := tPut tMan [(TUYERE_VSTAT_FAULT 9, 1)]
     (s.at 10).admits 9 tSrc (tD 9 [9]) ∧ s.on (TUYERE_VSTAT_FAULT (leAt [9] 0 1)) = true) ∧
    ((tDark.at 10).admits 0x0A tSrc (tD 0x0A [159]) ∧ (tDark.at 10).domOn 192 = false ∧ (tMan.at 10).admits 0x0A tSrc (tD 0x0A [159]) ∧
     (tMan.at 10).domOn 192 = true ∧ (∀ p ∈ tMan.holds, p.1 ≠ leAt [159] 0 1) ∧ leAt [159] 0 1 < 160) := by
  unfold State.admits; decide +kernel

theorem test_hyp_MgmtResets_resets :
    (∀ x ∈ [(0, 0, 0), (1, 0, 0), (1, 1, 0), (2, 0, 9), (3, 0, 65535)], let (dm, keep, ix) := x
     let s := { tPut tMan [(BELLOWS_PWRSTAT_STATE, 4)] with pwr := { tMan.pwr with step := 10 } }
     let p := tMsg [(1, dm), (1, keep), (2, ix)]
     (s.at 10).admits 0x0B tSrc (tD 0x0B p) ∧ p.length = 4 ∧ leAt p 0 1 = dm ∧ leAt p 1 1 = keep ∧ leAt p 2 2 = ix ∧ s.pwr.modAt = none ∧
     s.on BELLOWS_SAFESTAT_CSTOP = false ∧ 10 ≤ s.pwr.step ∧ s.get BELLOWS_PWRSTAT_STATE = 4 ∧ 9 ∉ s.pwr.hearth ∧ s.tongs.nq = []) ∧
    (let s := { tMan with pwr := { tMan.pwr with modAt := some (10, 1) } }
     s.pwr.modAt = some (10, 1) ∧ 10 ≤ (s.at 10).now ∧ s.jobs = []) ∧
    (let s := { tMan with pwr := { tMan.pwr with hearth := [9, 0] } }
     s.pwr.hearth = 9 :: [0] ∧ (s.at 10).atBoundary = true ∧ 159 < 160 ∧ 159 / 16 = 9) := by
  unfold State.admits; decide +kernel

/-! ### Security, firmware -/

def tRec (kind q : Nat) (body : List Byte) : List Byte :=
  tMsg [(1, kind), (3, 0), (4, q), (4, body.length)] ++ body ++ List.replicate 114 7

theorem test_hyp_SecurityCommands_admitted :
    (tMan.at 10).admits 0x0F tSrc (tD 0x0F (tRec 1 0 (List.replicate 57 9))) ∧
    ∀ k ∈ [(2, []), (3, [32, 64, 0, 0]), (3, [63, 0, 0, 0])], (tMan.at 10).admits 0x0F tSrc (tD 0x0F (tRec k.1 1 k.2)) := by
  unfold State.admits; decide +kernel

theorem test_hyp_SecurityCommands_config :
    (let p := tRec 1 0 (List.replicate 57 9)
     cfgParts p = some (1, 0, List.replicate 57 9, p.take 69, p.drop 69) ∧ (List.replicate 57 (9 : Byte)).length = 57) ∧
    (∀ x ∈ [(2, []), (3, [32, 64, 0, 0]), (3, [63, 0, 0, 0])], let (k, body) := x
     let p := tRec k 1 body
     cfgParts p = some (k, 1, body, p.take (12 + body.length), p.drop (12 + body.length))) ∧
    (∀ body ∈ [[32, 64, 0, 0], [63, 0, 0, 0]],
     body.length = 4 ∧ leAt body 2 2 = 0 ∧ 32 ≤ leAt body 0 1 ∧ leAt body 0 1 ≤ 63 ∧ leAt body 1 1 ≤ 64) := by
  refine ⟨?_, ?_, ?_⟩ <;> decide +kernel

theorem test_hyp_SecurityCommands_tokens :
    (∀ k ∈ [0, 1, 2, 4], let p := List.replicate 32 5 ++ tMsg [(1, k), (7, 0)]
     (tMan.at 10).admits 0x10 tSrc (tD 0x10 p) ∧ p.length = 40 ∧ leAt p 33 7 = 0 ∧ leAt p 32 1 = k) ∧
    (tMan.at 10).admits 0x12 tSrc (tD 0x12 (List.replicate 162 1)) ∧
    (tMan.at 10).admits 0x0D tSrc (tD 0x0D (List.replicate 162 1)) ∧ tMan.evrec.drops = none ∧ tMan.evrec.nor.length < 448 := by
  unfold State.admits; decide +kernel

def tUpd (f : Sec → Sec) : State := { tMan with secb := f tMan.secb }

theorem test_hyp_FirmwareUpdate_begin :
    (∀ x ∈ [(0, 1), (1, 4194304)], let (k, len) := x
     let s := tUpd (fun b => { b with running := some k })
     let p := tMsg [(1, 0), (3, 0), (4, len)]
     (s.at 10).admits 0x11 tSrc (tD 0x11 p) ∧ p.length = 8 ∧ leAt p 0 1 = 0 ∧ leAt p 1 3 = 0 ∧
     ((s.at 10).touchUpdate tSrc).lapseUpdate.updateHeld tSrc = false ∧ s.secb.running = some k ∧ leAt p 4 4 = len) ∧
    (∀ sub ∈ [0, 1, 4], let s := tUpd (fun b => { b with update := some ⟨1, 0, 1, 100⟩ })
     let p := tMsg [(1, sub), (3, 0), (4, 1)]
     (s.at 10).admits 0x11 tSrc (tD 0x11 p) ∧ 8 ≤ p.length ∧ leAt p 0 1 = sub ∧ leAt p 1 3 = 0 ∧
     ((s.at 10).touchUpdate tSrc).lapseUpdate.updateHeld tSrc = true) := by
  unfold State.admits; decide +kernel

theorem test_hyp_FirmwareUpdate_write :
    (∀ sub ∈ [1, 2], let s := tUpd (fun b => { b with update := some ⟨tSrc, 0, 1, 100⟩ })
     let p := tMsg [(1, sub), (3, 0), (4, 98), (1, 5), (1, 6)]
     (s.at 10).admits 0x11 tSrc (tD 0x11 p) ∧ 8 ≤ p.length ∧ leAt p 0 1 = sub ∧ leAt p 1 3 = 0 ∧
     s.secb.update = some ⟨tSrc, 0, 1, 100⟩ ∧ (s.at 10).now < 0 + 60 * sec ∧ leAt p 4 4 + (p.drop 8).length ≤ 100 ∧ (p.drop 8).length ≤ 1392) ∧
    (∀ sub ∈ [3, 4], let s := tUpd (fun b => { b with staged := some 1 })
     let p := tMsg [(1, sub), (3, 0), (4, 0)]
     (s.at 10).admits 0x11 tSrc (tD 0x11 p) ∧ 8 ≤ p.length ∧ leAt p 0 1 = sub ∧ leAt p 1 3 = 0 ∧
     ((s.at 10).touchUpdate tSrc).lapseUpdate.updateHeld tSrc = false ∧ s.secb.staged = some 1 ∧ s.secb.running = some 0) ∧
    (let s := tUpd (fun b => { b with update := some ⟨tSrc, 0, 1, 100⟩ })
     (∀ sub ∈ [1, 2], let p := tMsg [(1, sub), (3, 0), (4, 98), (1, 5)]
      (s.at (60 * sec)).admits 0x11 tSrc (tD 0x11 p) ∧ 8 ≤ p.length ∧ leAt p 0 1 = sub ∧ leAt p 1 3 = 0) ∧
     s.secb.update = some ⟨tSrc, 0, 1, 100⟩ ∧ 0 + 60 * sec ≤ (s.at (60 * sec)).now) := by
  unfold State.admits; decide +kernel

/-! ### Supply, bring-up -/

def tPwr (f : Pwr → Pwr) (l : List (Fd × Nat)) : State := { tPut tMod l with pwr := f tMod.pwr }

theorem test_hyp_BringUp :
    (let s := tPwr (fun x => { x with alive := false }) []
     s.pwr.alive = false ∧ s.pwr.mate = true ∧ 1100 ≤ 1100 ∧ 10 * ms ≤ 10 * ms) ∧
    (let s := State.reset
     s.pwr.alive = true ∧ s.pwr.step = 2 ∧ s.pwr.stop = false ∧ s.pwr.stepAt + 400 * ms ≤ (s.at (400 * ms)).now) ∧
    (∀ k ∈ [5, 6], let s := tPwr (fun x => { x with step := k }) [(BELLOWS_PWRSTAT_REGON, 1)]
     (s.pwr.step = 5 ∨ s.pwr.step = 6) ∧ s.on BELLOWS_PWRSTAT_REGON = true ∧ s.pwr.alive = true ∧ s.pwr.stop = false ∧
     (if k = 5 then s.pwr.stepAt + 20 * ms ≤ (s.at (20 * ms)).now else s.pwr.stepAt + ms ≤ (s.at ms).now)) ∧
    (let s := tPwr (fun x => { x with step := 3 }) []
     s.pwr.alive = true ∧ s.pwr.stop = false ∧ s.pwr.step = 3 ∧ s.pwr.stepAt + 100 * ms ≤ (s.at (100 * ms)).now) ∧
    (let s := tPwr (fun x => { x with step := 6, vinLow := true }) [(BELLOWS_PWRSTAT_REGON, 1), (BELLOWS_SAFESTAT_THROTTLE, 1)]
     s.pwr.vinLow = true ∧ s.on BELLOWS_SAFESTAT_THROTTLE = true ∧ s.fenced 0 = false ∧ s.get (HEARTH_STKSTAT_STATE 0) = 0) ∧
    (∀ keep ∈ [true, false], let s := tPwr (fun x => { x with step := 7, keep := keep }) [(HEARTH_STKSTAT_FENCED 19, 1)]
     s.pwr.step = 7 ∧ s.hammer.run = none ∧ s.pwr.keep = keep ∧ (s.fenced 19 = true) ∧ s.fenced 0 = false) := by decide +kernel

theorem test_hyp_SupplyAndResets_supply :
    (∀ reg ∈ [0, 1], let s := tPwr (fun x => { x with step := 5 }) [(BELLOWS_PWRSTAT_REGON, reg)]
     3799 < 3800 ∧ 2 * us ≤ 2 * us ∧ 6200 < 6201 ∧ s.pwr.alive = true ∧ s.pwr.vinBad = false ∧ s.on BELLOWS_PWRSTAT_REGON = (reg == 1) ∧ 5 ≤ s.pwr.step) ∧
    (∀ x ∈ [(5, 0), (5, 1), (10, 0)], let (k, fst) := x
     let s := tPwr (fun x => { x with step := k, vinBad := true }) [(BELLOWS_CAPOUT_FSTATE, fst)]
     s.pwr.vinBad = true ∧ s.pwr.step = k ∧ s.pwr.stop = false ∧ s.on BELLOWS_PWRSTAT_REGON = false ∧ s.get BELLOWS_CAPOUT_FSTATE = fst) ∧
    (tMod.pwr.alive = true ∧ tMod.pwr.vsbLow = false ∧ (tPwr (fun x => { x with vsbLow := true }) []).pwr.vsbLow = true ∧ tMod.pwr.mate = true ∧
     tMod.on MGMT_CFG_ENABLE = true ∧ tMod.jobs = []) ∧
    (let s := tPut tMod [(MGMT_STAT_LINK, 0)]
     s.secb.running.isSome = true ∧ s.on MGMT_STAT_LINK = false ∧ tMod.on MGMT_STAT_LINK = true ∧ State.reset.secb.running = none ∧
     State.reset.on MGMT_CFG_ENABLE = true) ∧
    (tMod.domOn 192 = true ∧ let s := tPwr (fun x => { x with step := 10 }) [(BELLOWS_PWRSTAT_REGON, 1)]
     s.domOn 192 = true ∧ 5 ≤ s.pwr.step ∧ s.on BELLOWS_PWRSTAT_REGON = true) ∧
    (tMod.secb.running = some 0 ∧ tMod.pwr.bootAt + 2 * sec ≤ (tMod.at (2 * sec)).now) := by decide +kernel

/-! ### Interrupts, records, the TAP, registers, steps -/

theorem test_hyp_Interrupts_assert :
    (∀ n ∈ [0, 34, 64, 255], (n < 35 ∨ 64 ≤ n) ∧
      (∀ c ∈ [0, 1], ∀ typ ∈ [0, 1], let s := tPut tMod [(BIC_SRCCFG_TYPE n, typ), (BIC_SRCCFG_DELIV n, 1), (BIC_SRCCFG_TEN n, 3)]
       s.get (BIC_SRCCFG_GROUP n) = 0 ∧ s.on (BIC_SRCCFG_DELIV n) = true ∧ bit (s.get (BIC_SRCCFG_TEN n)) c = true ∧
       s.on (BIC_SRCCFG_TYPE n) = (typ == 1) ∧ s.on (BIC_SRCSTAT_LEVEL n) = false) ∧
      (∀ c ∈ [0, 1], let s := tPut tMod [(BIC_SRCCFG_DELIV n, 0), (BIC_SRCCFG_TEN n, 2 ^ c)]
       s.on (BIC_SRCCFG_DELIV n) = false ∧ s.get (BIC_SRCCFG_TEN n) = 2 ^ c ∧ s.domOn 196 = true ∧ (s.coreIrq c).active = [])) ∧
    (let s := tPut tMod [(BIC_SRCCFG_TYPE 34, 1), (BIC_SRCSTAT_LEVEL 34, 1)]
     s.on (BIC_SRCCFG_TYPE 34) = true ∧ s.on (BIC_SRCSTAT_LEVEL 34) = true) ∧
    (let s := { tPut tMod [(BIC_SRCCFG_TYPE 34, 0), (BIC_SRCCFG_GROUP 34, 15), (BIC_GRP_COUNT 15, 3)] with grps := [(15, ⟨1, some 5⟩)] }
     let gr := Tab.get (fun _ => (⟨0, none⟩ : Grp)) s.grps 15
     s.on (BIC_SRCCFG_TYPE 34) = false ∧ s.get (BIC_SRCCFG_GROUP 34) = 15 ∧ gr.count + 1 < s.get (BIC_GRP_COUNT 15) ∧
     gr.first = some 5 ∧ 5 + s.get (BIC_GRP_TIME 15) * us ≤ (s.at sec).now) := by decide +kernel

theorem test_hyp_Interrupts_serve :
    (∀ c ∈ [0, 1], tMod.domOn 196 = true ∧ (∀ n ∈ List.range 256, bit (tMod.get (BIC_SRCSTAT_PENDT n)) c = false)) ∧
    (let s := tPut tMod [(BIC_SRCSTAT_PENDT 33, 1), (BIC_SRCCFG_PRIO 33, 5), (BIC_SRCSTAT_PENDT 255, 1), (BIC_SRCCFG_PRIO 255, 5)]
     Tab.wf regReset s.csr = true ∧ bit (s.get (BIC_SRCSTAT_PENDT 33)) 0 = true ∧
     ∀ m ∈ List.range 256, bit (s.get (BIC_SRCSTAT_PENDT m)) 0 = true → s.get (BIC_SRCCFG_PRIO m) < s.get (BIC_SRCCFG_PRIO 33) ∨
       (s.get (BIC_SRCCFG_PRIO m) = s.get (BIC_SRCCFG_PRIO 33) ∧ 33 ≤ m)) ∧
    (let s := { tMod with cores := [(1, ⟨[255], [(255, 0), (0, 9)], true⟩)] }
     s.pwr.alive = true ∧ s.secb.running.isSome = true ∧ (255#64).toNat % 256 = 255 ∧ (s.coreIrq 1).active.contains 255 = true ∧
     (s.coreIrq 1).reeval ≠ [] ∧
     ∀ x ∈ (s.coreIrq 1).reeval, x.2 ≤ (s.at 10).mclk → x.1 < 256) ∧
    (let s := { tMod with srcs := [(255, { Src.reset with outH := some 0 })] }
     (s.src 255).outH.isSome = true ∧ (s.src 255).outH = some 0 ∧ 0 + s.get BIC_HOSTCFG_HTMO * sec ≤ (s.at (1000 * sec)).now) ∧
    (let s := { tPut tMod [(BIC_SRCSTAT_LEVEL 255, 1), (BIC_SRCCFG_TEN 255, 12)] with
       tongs := { Tongs.reset with ctx := [(tMod.get BIC_HOSTCFG_STRM, { tCtx with typ := 5, tstate := 3 })] } }
     s.on (BIC_SRCSTAT_LEVEL 255) = true ∧ bit (s.get (BIC_SRCCFG_TEN 255)) 2 = true ∧ bit (s.get (BIC_SRCCFG_TEN 255)) 3 = true ∧
     (s.src 255).outH = none ∧ (s.src 255).outRM = none ∧ (s.src 255).lastH + sec ≤ (s.at sec).now ∧ (s.src 255).lastRM + sec ≤ (s.at sec).now ∧
     (s.at sec).targetUp 2 = true ∧ (s.at sec).targetUp 3 = true ∧ s.mgmt.ntf.length < 32) := by decide +kernel

theorem test_hyp_Interrupts_host : let s := { tPort tUp with srcs := [(255, { Src.reset with outH := some 0 })] }
    (s.at 10).pathUp .host = true ∧ (s.src ((255#64).toNat % 256)).outH.isSome = true := by decide +kernel

theorem test_hyp_SpuriousCompletion :
    ∀ c ∈ [0, 1], let s := { tMod with cores := [(c, ⟨[254], [], false⟩)] }
    c < 2 ∧ s.pwr.alive = true ∧ s.secb.running.isSome = true ∧ s.domOn 196 = true ∧
    (s.coreIrq c).active.contains ((255#64).toNat % 256) = false := by decide +kernel

theorem test_hyp_RecorderAndSnapshots :
    (let s := { tMod with evrec := { tMod.evrec with nor := [3, 4] } }
     s.evrec.nor = 3 :: [4]) ∧
    (tMod.pwr.alive = true ∧ tMod.secb.running.isSome = true ∧ tMod.domOn 192 = true) ∧
    ((tPort tUp).domOn 192 = true ∧ ((tPort tUp).at 10).pathUp .host = true) ∧
    ((0x1FFFF#64).getLsbD 16 = true ∧ tMod.snapReq = none ∧
      ∀ src ∈ [1, 4], { tMod with snapReq := some ⟨src, 5, 0, 0, 99⟩ }.snapReq = some ⟨src, 5, 0, 0, 99⟩ ∧ tMod.launchAt 2 ≤ 99) ∧
    (let s := { tMod with snapReq := some ⟨4, 65535, 0, 0, 0⟩ }
     s.snapReq = some ⟨4, 65535, 0, 0, 0⟩ ∧ 0 + 8 ≤ (s.at 1000).cyc) ∧
    (((1#64).getLsbD 0 = true ∧ (1#64).getLsbD 1 = false) ∧ (2#64).getLsbD 0 = false ∧ (2#64).getLsbD 1 = true) ∧
    (∀ x ∈ [(2, 1), (3, 1), (1, 0)], let s : State := { tPut tMod [(HAMMER_TRCFG_PRE, x.1), (HAMMER_TRSTAT_STATE, x.2)] with trace := ⟨[7, 8], 0⟩ }
     s.domOn 192 = true ∧ s.get HAMMER_TRCFG_PRE = x.1 ∧ s.get HAMMER_TRSTAT_STATE = x.2 ∧ s.trace.ents[s.get HAMMER_TRSEL_IDX]? = some 7) := by
  decide +kernel

theorem test_hyp_TestAccessPort : ∀ reg ∈ [0, 1], let s := tPut tMod [(BELLOWS_PWRSTAT_REGON, reg)]
    s.pwr.alive = true ∧ s.on BELLOWS_PWRSTAT_REGON = (reg == 1) := by decide +kernel

theorem test_hyp_RegisterWrites_refused :
    (tMod.at 10).pathUp .rm = true ∧ (tDark.at 10).pathUp .rm = true ∧
    ((mainWindow 0x38000000 = true → tDark.domOn 192 = true) ∧ 0x38000001 % 8 ≠ 0 ∧ findReg 0x3800FFF8 = none ∧
     (mainWindow 0x300000000000 = true → tMod.domOn 192 = true) ∧ (tMod.at 10).csrOn 0x300001000000 = false) ∧
    (∃ r f, findReg BELLOWS_PWRSTAT = some r ∧ BELLOWS_PWRSTAT % 8 = 0 ∧ BELLOWS_PWRSTAT / 65536 = 0x38000000 ∧ BELLOWS_PWRSTAT ≠ BELLOWS_KEEPALIVE ∧
      f ∈ r.fields) := by
  refine ⟨by decide +kernel, by decide +kernel, by decide +kernel, ?_⟩
  exact ⟨(findReg BELLOWS_PWRSTAT).get (by decide +kernel), ((findReg BELLOWS_PWRSTAT).get (by decide +kernel)).fields.head (by decide +kernel),
    by simp, by decide +kernel, by decide +kernel, by decide +kernel, by simp⟩

theorem test_hyp_StepRuns :
    ({ tMod with pending := [.idcode, .bypass] } : State).pending = .idcode :: [.bypass] ∧ tMod.pending = [] := by decide +kernel

theorem test_hyp_MemoryStaysCanonical : step { State.reset with pending := [.idcode] } =
      .next ((fun o => match o with | .next v => v | _ => State.reset) (execIdcode State.reset)) ∧
    State.reset.memOk = true ∧ ({ tRun with mem := [(5, 7)] } : State).memOk = true :=
  ⟨rfl, by decide +kernel, by decide +kernel⟩

end Sys2Proof.Tests
end

