-- ==== Sys2Proof/Proofs/Irq.lean ====
section
/-! SUPPORT. What an assertion of an interrupt source leaves as it was, whatever the source's number. -/

namespace Sys2Proof.Machine

/-- The registers that an assertion of source `n` may write: the source's status, the interrupt controller's page, the word
with the cores domain (R572) and the management port's status (R559). -/
def irqAddr (n a : Nat) : Bool :=
  a == BIC_SRCSTAT n || a / 65536 == 0x38000003 || a == BELLOWS_PDSTAT3 || a == MGMT_STAT

/-- From `u` to `v` an assertion of source `n` was handled: registers of the interrupt controller, sources, groups, cores and
what is sent of them may differ, a power domain only by the cores' going on. -/
def State.irqOnly (n : Nat) (u v : State) : Prop :=
  (∀ a, irqAddr n a = false → v.rd a = u.rd a) ∧
  (∀ d, d ≠ 196 → v.domOn d = u.domOn d) ∧ (u.domOn 196 = true → v.domOn 196 = true) ∧
  v = { u with
    csr := v.csr, srcs := v.srcs, grps := v.grps, cores := v.cores, free := v.free
    tongs := { u.tongs with ctx := v.tongs.ctx }
    mgmt := { u.mgmt with wire := v.mgmt.wire, ntf := v.mgmt.ntf, ntfSeq := v.mgmt.ntfSeq, merge := v.mgmt.merge } }

/-- A power domain is read in the words `PDSTAT0` to `PDSTAT3`. -/
theorem State.domOn_congr {u v : State} (h : ∀ a, BELLOWS_PDSTAT 0 ≤ a → a ≤ BELLOWS_PDSTAT3 → v.rd a = u.rd a) (d : Nat) :
    v.domOn d = u.domOn d := by
  have hp : d < 192 → BELLOWS_PDSTAT 0 ≤ BELLOWS_PDSTAT (d / 64) ∧ BELLOWS_PDSTAT (d / 64) ≤ BELLOWS_PDSTAT3 := by
    intro hd; unfold BELLOWS_PDSTAT BELLOWS_PDSTAT3; omega
  unfold State.domOn
  split
  · next hd => rw [h _ (hp hd).1 (hp hd).2]
  · rw [h _ (by decide) le_rfl]

/-- A write below or above those words leaves the power domains. -/
theorem State.domOn_wr (u : State) {a : Nat} (w : Word) (h : a < BELLOWS_PDSTAT 0 ∨ BELLOWS_PDSTAT3 < a) (d : Nat) :
    (u.wr a w).domOn d = u.domOn d :=
  State.domOn_congr (fun b _ _ => State.rd_wr_ne _ _ (by omega)) d

/-- Every power domain after the cores' domain has been switched on. -/
theorem State.domOn_setDom_cores (u : State) (d : Nat) :
    (u.setDom 196 true).domOn d = if d = 196 then true else u.domOn d := by
  have hrd : (u.setDom 196 true).rd BELLOWS_PDSTAT3 = setBits (u.rd BELLOWS_PDSTAT3) 4 4 1 := State.rd_wr_self _ _ _
  unfold State.domOn
  split
  · next hd =>
    have hne : BELLOWS_PDSTAT (d / 64) ≠ BELLOWS_PDSTAT3 := by unfold BELLOWS_PDSTAT BELLOWS_PDSTAT3; omega
    rw [if_neg (by omega)]
    exact congrArg (fun w : Word => w.getLsbD (d % 64)) (State.rd_wr_ne _ _ hne)
  · next hd =>
    rw [hrd, ← BitVec.testBit_toNat, testBit_setBits _ _ _ _ _ le_rfl (by decide), BitVec.testBit_toNat]
    by_cases h : d = 196
    · subst h; rfl
    · rw [if_neg h, if_neg (by omega)]

/-! ### Steps -/

theorem State.irqOnly_refl (n : Nat) (u : State) : u.irqOnly n u := ⟨fun _ _ => rfl, fun _ _ => rfl, id, rfl⟩

theorem State.irqOnly_trans {n : Nat} {u v w : State} (h : u.irqOnly n v) (k : v.irqOnly n w) : u.irqOnly n w := by
  obtain ⟨h1, h2, h3, h4⟩ := h
  obtain ⟨k1, k2, k3, k4⟩ := k
  refine ⟨fun a ha => (k1 a ha).trans (h1 a ha), fun d hd => (k2 d hd).trans (h2 d hd), fun x => k3 (h3 x), ?_⟩
  rw [k4, h4]

/-- A register of the interrupt controller's page. -/
theorem irqAddr_page (n : Nat) {a : Nat} (h : a / 65536 = 0x38000003) : irqAddr n a = true := by simp [irqAddr, h]

theorem irqAddr_of_lt {m n a : Nat} (hm : m < 256) (h : irqAddr n a = false) : irqAddr m a = false := by
  have hs : BIC_SRCSTAT m / 65536 = 0x38000003 := by unfold BIC_SRCSTAT; omega
  simp only [irqAddr, Bool.or_eq_false_iff, beq_eq_false_iff_ne] at h ⊢
  obtain ⟨⟨⟨_, hp⟩, hd⟩, hg⟩ := h
  exact ⟨⟨⟨fun e => hp (e ▸ hs), hp⟩, hd⟩, hg⟩

/-- What a source of the table may touch, any source may. -/
theorem State.irqOnly_of_lt {m n : Nat} {u v : State} (hm : m < 256) (h : u.irqOnly m v) : u.irqOnly n v :=
  ⟨fun a ha => h.1 a (irqAddr_of_lt hm ha), h.2⟩

/-- A change beside the registers, within the parts named. -/
theorem State.irqOnly_beside {n : Nat} {u v : State} (hc : v.csr = u.csr)
    (h : v = { u with
      csr := v.csr, srcs := v.srcs, grps := v.grps, cores := v.cores, free := v.free
      tongs := { u.tongs with ctx := v.tongs.ctx }
      mgmt := { u.mgmt with wire := v.mgmt.wire, ntf := v.mgmt.ntf, ntfSeq := v.mgmt.ntfSeq, merge := v.mgmt.merge } }) :
    u.irqOnly n v := by
  have hr : ∀ a, v.rd a = u.rd a := fun a => by unfold State.rd; rw [hc]
  have hd : ∀ d, v.domOn d = u.domOn d := State.domOn_congr (fun a _ _ => hr a)
  exact ⟨fun a _ => hr a, fun d _ => hd d, fun x => (hd 196).trans x, h⟩

theorem State.irqOnly_wr (n : Nat) (u : State) {a : Nat} (w : Word) (h : irqAddr n a = true) (ha : BELLOWS_PDSTAT3 < a) :
    u.irqOnly n (u.wr a w) := by
  refine ⟨fun b hb => State.rd_wr_ne _ _ ?_, fun d _ => u.domOn_wr w (.inr ha) d, fun x => (u.domOn_wr w (.inr ha) 196).trans x, rfl⟩
  rintro rfl
  rw [h] at hb; cases hb

/-- A field of the source's status written. -/
theorem State.irqOnly_put (n : Nat) (u : State) (f : Fd) (v : Nat) (h : f.addr = BIC_SRCSTAT n) : u.irqOnly n (u.put f v) :=
  State.irqOnly_wr n u _ (by simp only [irqAddr, h, beq_self_eq_true, Bool.true_or])
    (by rw [h]; unfold BIC_SRCSTAT BELLOWS_PDSTAT3; omega)

theorem State.irqOnly_setSrc (n : Nat) (u : State) (m : Nat) (x : Src) : u.irqOnly n (u.setSrc m x) :=
  State.irqOnly_beside rfl rfl

theorem State.irqOnly_setNotice (n : Nat) (u : State) (t : Nat) : u.irqOnly n (u.setNotice t) := by
  unfold State.setNotice; exact State.irqOnly_beside rfl rfl

theorem State.irqOnly_setCtx (n : Nat) (u : State) (m : Nat) (c : Ctx) : u.irqOnly n (u.setCtx m c) :=
  State.irqOnly_beside rfl rfl

theorem State.irqOnly_queueMsg (n : Nat) (u : State) (m opc : Nat) (resp : Bool) (data : List Byte) (nop : Option Nat) :
    u.irqOnly n (u.queueMsg m opc resp data nop) := by
  unfold State.queueMsg
  extract_lets c x c'
  clear_value c'
  split
  · exact State.irqOnly_setCtx _ _ _ _
  · exact State.irqOnly_refl _ _

theorem State.irqOnly_ntfSync (n : Nat) (u : State) : u.irqOnly n u.ntfSync :=
  State.irqOnly_wr n u _ (by simp only [irqAddr, beq_self_eq_true, Bool.or_true]) (by decide)

theorem State.irqOnly_notifyFrame (n : Nat) (u : State) (a : BitVec 128) (x : Ntf) : u.irqOnly n (u.notifyFrame a x) :=
  State.irqOnly_beside rfl rfl

theorem State.irqOnly_notify (n : Nat) (u : State) (m prio evt : Nat) : u.irqOnly n (u.notify m prio evt).2 := by
  unfold State.notify
  split
  · exact State.irqOnly_beside rfl rfl
  · extract_lets d x m s1 s2
    have h2 : u.irqOnly n s2 := State.irqOnly_trans (State.irqOnly_beside rfl rfl) (State.irqOnly_ntfSync n s1)
    cases d with
    | none => exact h2
    | some a => exact State.irqOnly_trans h2 (State.irqOnly_notifyFrame _ _ _ _)

theorem State.irqOnly_deliver (n : Nat) (u : State) (t : Nat) : u.irqOnly n (u.deliver n t) := by
  unfold State.deliver
  extract_lets x cnt prio seq
  split
  rename_i sent s1 heq
  have hsent : u.irqOnly n s1 := by
    split at heq
    · cases heq; exact State.irqOnly_queueMsg _ _ _ _ _ _ _
    · have : s1 = (u.notify n prio seq).2 := by rw [heq]
      rw [this]; exact State.irqOnly_notify _ _ _ _ _
  extract_lets x' s2 s3
  have h3 : u.irqOnly n s3 := State.irqOnly_trans hsent (State.irqOnly_trans (State.irqOnly_setSrc _ _ _ _)
    (State.irqOnly_trans (State.irqOnly_put _ _ _ _ rfl) (State.irqOnly_put _ _ _ _ rfl)))
  split
  · exact State.irqOnly_trans h3 (State.irqOnly_put _ _ _ _ rfl)
  · exact h3

theorem State.irqOnly_wakes (n : Nat) (u : State) : u.irqOnly n (u.inc BIC_STAT_WAKES) :=
  State.irqOnly_wr n u _ (irqAddr_page n rfl) (by decide)

theorem State.irqOnly_heldOvf (n : Nat) (u : State) : u.irqOnly n (u.inc BIC_STAT_HELDOVF) :=
  State.irqOnly_wr n u _ (irqAddr_page n rfl) (by decide)

theorem State.irqOnly_assign (n : Nat) (u : State) (t : Nat) : u.irqOnly n (u.assign n t) := by
  unfold State.assign
  split
  · exact State.irqOnly_trans (State.irqOnly_put _ _ _ _ rfl) (State.irqOnly_setNotice _ _ _)
  · extract_lets x out s1
    have hp : u.irqOnly n s1 := State.irqOnly_put _ _ _ _ rfl
    refine State.irqOnly_trans hp ?_
    split
    · rename_i _ held _
      clear_value held
      cases held with
      | none => exact State.irqOnly_setSrc _ _ _ _
      | some c =>
        refine State.irqOnly_trans ?_ (State.irqOnly_setSrc _ _ _ _)
        split
        · exact State.irqOnly_heldOvf _ _
        · exact State.irqOnly_refl _ _
    · exact State.irqOnly_deliver _ _ _

theorem State.irqOnly_wake (n : Nat) (u : State) : u.irqOnly n (u.setDom 196 true) := by
  refine ⟨fun a ha => State.rd_wr_ne _ _ ?_, fun d hd => ?_, fun _ => ?_, rfl⟩
  · rintro rfl; simp [irqAddr] at ha
  · rw [State.domOn_setDom_cores, if_neg hd]
  · rw [State.domOn_setDom_cores, if_pos rfl]

theorem State.irqOnly_watch (n : Nat) (u : State) : u.irqOnly n (u.watch n) := by
  unfold State.watch
  split
  · exact State.irqOnly_trans (State.irqOnly_wake n u) (State.irqOnly_wakes n _)
  · exact State.irqOnly_refl _ _

theorem State.irqOnly_foldl {α : Type} (n : Nat) (f : State → α → State) (l : List α)
    (h : ∀ s : State, ∀ x ∈ l, s.irqOnly n (f s x)) (s : State) : s.irqOnly n (l.foldl f s) := by
  induction l generalizing s with
  | nil => exact State.irqOnly_refl _ _
  | cons x r ih => exact State.irqOnly_trans (h s x (by simp)) (ih (fun s y hy => h s y (by simp [hy])) _)

theorem State.irqOnly_route (n : Nat) (u : State) : u.irqOnly n (u.route n) := by
  unfold State.route
  extract_lets s ten
  refine State.irqOnly_trans (State.irqOnly_watch n u) ?_
  split
  · refine State.irqOnly_foldl n _ _ (fun v t _ => ?_) _
    split
    · exact State.irqOnly_assign _ _ _
    · exact State.irqOnly_refl _ _
  · split
    · exact State.irqOnly_setSrc _ _ _ _
    · exact State.irqOnly_trans (State.irqOnly_setSrc _ _ _ _) (State.irqOnly_assign _ _ _)

theorem State.irqOnly_releaseGroup (n : Nat) (u : State) (g : Nat) : u.irqOnly n (u.releaseGroup g) := by
  unfold State.releaseGroup
  refine State.irqOnly_trans (State.irqOnly_beside rfl rfl) (State.irqOnly_foldl n _ _ (fun v m hm => ?_) _)
  extract_lets x
  have hlt : m < 256 := by simpa using State.mem_byPrio _ _ _ hm
  split
  · exact State.irqOnly_trans (State.irqOnly_setSrc _ _ _ _) (State.irqOnly_of_lt hlt (State.irqOnly_route m _))
  · exact State.irqOnly_refl _ _

/-- An assertion of any source. -/
theorem State.irqOnly_raise (n : Nat) (u : State) : u.irqOnly n (u.raise n) := by
  unfold State.raise
  extract_lets level s1 g gr gr' s2 x s3
  have h1 : u.irqOnly n s1 := by
    unfold s1; split
    · exact State.irqOnly_put _ _ _ _ rfl
    · exact State.irqOnly_put _ _ _ _ rfl
  have h3 : s1.irqOnly n s3 := State.irqOnly_beside rfl rfl
  refine State.irqOnly_trans h1 ?_
  split
  · exact State.irqOnly_route _ _
  · refine State.irqOnly_trans h3 ?_
    split
    · exact State.irqOnly_releaseGroup _ _ _
    · exact State.irqOnly_refl _ _

/-- The end of a level source's condition. -/
theorem State.irqOnly_lower (n : Nat) (u : State) : u.irqOnly n (u.lower n) := by
  unfold State.lower
  exact State.irqOnly_trans (State.irqOnly_put _ _ _ _ rfl) (State.irqOnly_trans (State.irqOnly_put _ _ _ _ rfl)
    (State.irqOnly_trans (State.irqOnly_setSrc _ _ _ _)
      (State.irqOnly_trans (State.irqOnly_setNotice _ _ _) (State.irqOnly_setNotice _ _ _))))

theorem State.irqOnly_setLevel (n : Nat) (u : State) (b : Bool) : u.irqOnly n (u.setLevel n b) := by
  unfold State.setLevel
  split
  · split
    · exact State.irqOnly_refl _ _
    · exact State.irqOnly_raise _ _
  · split
    · exact State.irqOnly_lower _ _
    · exact State.irqOnly_refl _ _

end Sys2Proof.Machine
end

