-- ==== Sys2Proof/Proofs/RegWrite.lean ====
section
/-! SUPPORT and RegisterWrites (O56). Power domains across event records, a refused access, the fields of a word after a
write of its register, and the write of a register of the BELLOWS block. -/

namespace Sys2Proof.Machine

/-! ### Power domains across event records -/

/-- No power domain but the cores' differs. -/
def State.domsKept (u v : State) : Prop := ∀ d, d ≠ 196 → v.domOn d = u.domOn d

theorem State.domsKept_refl (u : State) : u.domsKept u := fun _ _ => rfl

theorem State.domsKept_trans {u v w : State} (h : u.domsKept v) (k : v.domsKept w) : u.domsKept w :=
  fun d hd => (k d hd).trans (h d hd)

/-- What has the same registers. -/
theorem State.domsKept_csr {u v : State} (h : v.csr = u.csr) : u.domsKept v :=
  fun d _ => State.domOn_congr (fun a _ _ => by unfold State.rd; rw [h]) d

theorem State.domsKept_put (u : State) (f : Fd) (x : Nat) (h : f.addr < BELLOWS_PDSTAT 0 ∨ BELLOWS_PDSTAT3 < f.addr) :
    u.domsKept (u.put f x) := fun d _ => u.domOn_wr _ h d

theorem State.domsKept_foldl {α : Type} (f : State → α → State) (l : List α) (h : ∀ s x, State.domsKept s (f s x))
    (s : State) : s.domsKept (l.foldl f s) := by
  induction l generalizing s with
  | nil => exact s.domsKept_refl
  | cons x r ih => exact State.domsKept_trans (h s x) (ih _)

theorem State.domsKept_setLevel (u : State) (n : Nat) (b : Bool) : u.domsKept (u.setLevel n b) :=
  (State.irqOnly_setLevel n u b).2.1

theorem State.domsKept_appendEvt (u : State) (e : Evt) : u.domsKept (u.appendEvt e) :=
  State.domsKept_trans (u.domsKept_put _ _ (.inr (by decide))) (State.domsKept_csr rfl)

theorem State.domsKept_evrecSync (u : State) : u.domsKept u.evrecSync :=
  State.domsKept_trans (u.domsKept_put _ _ (.inr (by decide)))
    (State.domsKept_trans (State.domsKept_put _ _ _ (.inr (by decide))) (State.domsKept_setLevel _ _ _))

theorem State.domsKept_dropGroup (u : State) (g : List Evt) : u.domsKept (u.dropGroup g) := by
  cases g with
  | nil => exact u.domsKept_refl
  | cons e l =>
    have h1 : u.domsKept (u.add EVREC_STAT_DROPPED (e :: l).length) := u.domsKept_put _ _ (.inr (by decide))
    have h2 := State.domsKept_put (u.add EVREC_STAT_DROPPED (e :: l).length) BELLOWS_ERRSUM_EVDROP 1 (.inr (by decide))
    exact State.domsKept_trans h1 (State.domsKept_trans h2 (State.domsKept_csr rfl))

theorem State.domsKept_eventGroup (u : State) (g : List Evt) : u.domsKept (u.eventGroup g).2 := by
  unfold State.eventGroup
  split
  · exact u.domsKept_refl
  · rename_i e tail
    extract_lets n low lost
    clear_value lost
    split
    · exact u.domsKept_dropGroup (e :: tail)
    · refine State.domsKept_trans (State.domsKept_foldl State.appendEvt lost State.domsKept_appendEvt u)
        (State.domsKept_trans (State.domsKept_foldl State.appendEvt (e :: tail) State.domsKept_appendEvt _)
          (State.domsKept_trans ?_ (State.domsKept_evrecSync _)))
      exact State.domsKept_csr rfl

theorem State.domsKept_eventSeq (u : State) (code sev src p0 p1 p2 : Nat) :
    u.domsKept (u.eventSeq code sev src p0 p1 p2).2 := by
  unfold State.eventSeq
  extract_lets e
  split
  · split
    · refine State.domsKept_trans ?_ (State.domsKept_evrecSync _)
      exact State.domsKept_csr rfl
    · exact State.domsKept_eventGroup _ _
  · exact State.domsKept_eventGroup _ _

/-- An event record leaves the compute domain as it was. -/
theorem State.domOn_event (u : State) (code sev src p0 p1 p2 : Nat) :
    (u.event code sev src p0 p1 p2).domOn 192 = u.domOn 192 := State.domsKept_eventSeq _ _ _ _ _ _ _ _ (by decide)

/-! ### Time passed -/

theorem State.rd_at (s : State) (t a : Nat) : (s.at t).rd a = s.rd a := by
  unfold State.at; extract_lets dt m; split <;> rfl

theorem State.domOn_at (s : State) (t d : Nat) : (s.at t).domOn d = s.domOn d :=
  State.domOn_congr (fun a _ _ => s.rd_at t a) d

theorem State.pwr_at (s : State) (t : Nat) : (s.at t).pwr = s.pwr := by
  unfold State.at; extract_lets dt m; split <;> rfl

/-! ### A refused access -/

/-- What a refused access leaves behind: the record, the summary bit, nothing else. -/
theorem State.csrRefused_spec (u : State) (p : Path) (a : Nat) :
    u.recorded (u.csrRefused p a) 0x0203 ∧ State.only u (u.csrRefused p a) [HAMMER_ERRSUM] ∧
      (u.domOn 192 = true → (u.csrRefused p a).on HAMMER_ERRSUM_CSRREF = true) := by
  unfold State.csrRefused
  extract_lets v
  have hrec : u.recorded v 0x0203 := u.recorded_event _ _ _ _ _ _
  have honly : u.only v [HAMMER_ERRSUM] := u.only_event _ _ _ _ _ _ _
  have hdom : v.domOn 192 = u.domOn 192 := u.domOn_event _ _ _ _ _ _
  clear_value v
  split
  · refine ⟨by rwa [State.recorded, State.put_evrec], State.only_trans honly (State.only_put _ _ _ _ (.inl (by simp))), fun _ => ?_⟩
    unfold State.on
    rw [State.get_put_self _ _ _ (by decide) (by decide)]; rfl
  · next hoff => exact ⟨hrec, honly, fun h => absurd (hdom.trans h) hoff⟩

/-! ### Fields of a word -/

theorem bitsOf_lt (n hi lo : Nat) : bitsOf n hi lo < 2 ^ (hi + 1 - lo) := Nat.mod_lt _ (Nat.two_pow_pos _)

/-- The bits written. -/
theorem bitsOf_setBits_self (w : Word) (hi lo v : Nat) (hl : lo ≤ hi) (hh : hi < 64) :
    bitsOf (setBits w hi lo v).toNat hi lo = v % 2 ^ (hi + 1 - lo) := by
  apply Nat.eq_of_testBit_eq
  intro i
  rw [testBit_bitsOf, testBit_setBits _ _ _ _ _ hl hh, Nat.testBit_mod_two_pow]
  by_cases h : i < hi + 1 - lo
  · rw [if_pos (by omega), Nat.add_sub_cancel_left]
  · simp only [h, decide_false, Bool.false_and]

/-- Bits apart from those written. -/
theorem bitsOf_setBits_apart (w : Word) (hi lo v hi' lo' : Nat) (hl : lo ≤ hi) (hh : hi < 64) (h : hi' < lo ∨ hi < lo') :
    bitsOf (setBits w hi lo v).toNat hi' lo' = bitsOf w.toNat hi' lo' := by
  apply Nat.eq_of_testBit_eq
  intro i
  rw [testBit_bitsOf, testBit_bitsOf, testBit_setBits _ _ _ _ _ hl hh]
  by_cases hi : i < hi' + 1 - lo'
  · rw [if_neg (by omega)]
  · simp only [hi, decide_false, Bool.false_and]

/-- The value a field holds after a write of `w` where `old` stood (R14, R17). -/
def FieldSpec.stored (f : FieldSpec) (lock : Bool) (old w : Word) : Nat :=
  let o := bitsOf old.toNat f.hi f.lo
  let n := bitsOf w.toNat f.hi f.lo
  match f.acc with
  | .rw => if f.min ≤ n ∧ n ≤ f.max then n else o
  | .rwl => if f.min ≤ n ∧ n ≤ f.max ∧ lock = false then n else o
  | .w1c => o - Nat.land o n
  | _ => o

/-- A field's bits lie in the word. -/
def FieldSpec.inWord (f : FieldSpec) : Prop := f.lo ≤ f.hi ∧ f.hi < 64

/-- Two fields share no bit. -/
def FieldSpec.apart (f g : FieldSpec) : Prop := g.hi < f.lo ∨ f.hi < g.lo

theorem FieldSpec.write_self (f : FieldSpec) (lock : Bool) (old w new : Word) (hf : f.inWord)
    (hn : bitsOf new.toNat f.hi f.lo = bitsOf old.toNat f.hi f.lo) :
    bitsOf (f.write lock old w new).toNat f.hi f.lo = f.stored lock old w := by
  obtain ⟨hl, hh⟩ := hf
  unfold FieldSpec.write FieldSpec.stored
  extract_lets o n ok
  have ho : o < 2 ^ (f.hi + 1 - f.lo) := bitsOf_lt _ _ _
  have hw : n < 2 ^ (f.hi + 1 - f.lo) := bitsOf_lt _ _ _
  have hok : ok = true ↔ f.min ≤ n ∧ n ≤ f.max := by simp [ok]
  cases f.acc with
  | ro => exact hn
  | wo => exact hn
  | rw =>
    simp only [← hok]
    split
    · rw [bitsOf_setBits_self _ _ _ _ hl hh, Nat.mod_eq_of_lt hw]
    · exact hn
  | rwl =>
    simp only [← and_assoc, ← hok, Bool.and_eq_true, Bool.not_eq_true']
    split
    · rw [bitsOf_setBits_self _ _ _ _ hl hh, Nat.mod_eq_of_lt hw]
    · exact hn
  | w1c => exact (bitsOf_setBits_self _ _ _ _ hl hh).trans (Nat.mod_eq_of_lt (by omega))

theorem FieldSpec.write_apart (f g : FieldSpec) (lock : Bool) (old w new : Word) (hf : f.inWord) (h : f.apart g) :
    bitsOf (f.write lock old w new).toNat g.hi g.lo = bitsOf new.toNat g.hi g.lo := by
  obtain ⟨hl, hh⟩ := hf
  unfold FieldSpec.write
  extract_lets o n ok
  cases f.acc with
  | ro => rfl
  | wo => rfl
  | rw => dsimp only; split; exacts [bitsOf_setBits_apart _ _ _ _ _ _ hl hh h, rfl]
  | rwl => dsimp only; split; exacts [bitsOf_setBits_apart _ _ _ _ _ _ hl hh h, rfl]
  | w1c => exact bitsOf_setBits_apart _ _ _ _ _ _ hl hh h

theorem foldl_write_apart (l : List FieldSpec) (g : FieldSpec) (lock : Bool) (old w new : Word)
    (hl : ∀ f ∈ l, f.inWord) (h : ∀ f ∈ l, f.apart g) :
    bitsOf (l.foldl (fun new f => f.write lock old w new) new).toNat g.hi g.lo = bitsOf new.toNat g.hi g.lo := by
  induction l generalizing new with
  | nil => rfl
  | cons f r ih =>
    rw [List.forall_mem_cons] at hl h
    exact (ih _ hl.2 h.2).trans (f.write_apart g lock old w new hl.1 h.1)

/-- The fields of a register after all of them were written in turn. -/
theorem foldl_write_fields (l : List FieldSpec) (lock : Bool) (old w new : Word) (hl : ∀ f ∈ l, f.inWord)
    (hp : l.Pairwise FieldSpec.apart) (hn : ∀ f ∈ l, bitsOf new.toNat f.hi f.lo = bitsOf old.toNat f.hi f.lo) :
    ∀ f ∈ l, bitsOf (l.foldl (fun new f => f.write lock old w new) new).toNat f.hi f.lo = f.stored lock old w := by
  induction l generalizing new with
  | nil => simp
  | cons g r ih =>
    rw [List.forall_mem_cons] at hl hn
    rw [List.pairwise_cons] at hp
    obtain ⟨hg, hr⟩ := hp
    refine List.forall_mem_cons.mpr ⟨?_, ?_⟩
    · exact (foldl_write_apart r g lock old w _ hl.2 (fun f hf => (hg f hf).symm)).trans
        (g.write_self lock old w new hl.1 hn.1)
    · exact ih _ hl.2 hr (fun f hf => (g.write_apart f lock old w new hl.1 (hg f hf)).trans (hn.2 f hf))

/-! ### Registers of the BELLOWS block -/

/-- The fields of a row lie in the word and share no bit. -/
def RegSpec.fieldsApart (r : RegSpec) : Bool :=
  decide ((∀ f ∈ r.fields, f.lo ≤ f.hi ∧ f.hi < 64) ∧ r.fields.Pairwise (fun f g => g.hi < f.lo ∨ f.hi < g.lo))

theorem RegSpec.fieldsApart_iff {r : RegSpec} :
    r.fieldsApart = true ↔ (∀ f ∈ r.fields, f.inWord) ∧ r.fields.Pairwise FieldSpec.apart := by
  unfold RegSpec.fieldsApart; exact decide_eq_true_iff

theorem regsBellows_fieldsApart : regsBellows.all RegSpec.fieldsApart = true := by decide +kernel

theorem fieldsApart_of_findReg {a : Nat} {r : RegSpec} (hp : a / 65536 = 0x38000000) (h : findReg a = some r) :
    (∀ f ∈ r.fields, f.inWord) ∧ r.fields.Pairwise FieldSpec.apart := by
  unfold findReg at h
  rw [show regsAt a = regsBellows by simp [regsAt, hp]] at h
  have hr := List.all_eq_true.mp regsBellows_fieldsApart r (List.mem_of_find?_eq_some h)
  exact RegSpec.fieldsApart_iff.mp hr

/-- An array of registers of another page does not hold the address. -/
theorem nth_bellows {base stride n a : Nat} (hp : a / 65536 = 0x38000000)
    (h : 0x380000010000 ≤ base ∨ base + stride * n < 0x380000000000) : nth base stride n a = none := by
  have ha : 0x380000000000 ≤ a ∧ a < 0x380000010000 := by omega
  unfold nth
  refine if_neg (fun ⟨h1, h2, h3⟩ => ?_)
  rcases h with h | h
  · omega
  · have hd : a - base = stride * ((a - base) / stride) := by
      have := Nat.div_add_mod (a - base) stride; omega
    have : stride * ((a - base) / stride) < stride * n := by
      refine Nat.mul_lt_mul_of_pos_left h3 (Nat.pos_of_ne_zero ?_)
      rintro rfl
      simp only [Nat.zero_mul] at hd h
      omega
    omega

theorem csrOn_bellows (u : State) {a : Nat} (hp : a / 65536 = 0x38000000) : u.csrOn a = true := by
  have hm : mainWindow a = false := by simp [mainWindow]; omega
  unfold State.csrOn
  rw [if_neg (by simp [hm]), if_neg (by omega)]

theorem capIndex_bellows {a : Nat} (hp : a / 65536 = 0x38000000) : capIndex a = none := by
  unfold capIndex
  rw [if_neg, if_neg, if_neg, if_neg, if_neg] <;> (rintro rfl; revert hp; decide)

theorem readOnlyBits_bellows {a : Nat} (old w : Word) (hp : a / 65536 = 0x38000000) : readOnlyBits a old w = w := by
  unfold readOnlyBits
  rw [nth_bellows hp (by decide)]

theorem crossBounds_bellows {a : Nat} (old new : Word) (hp : a / 65536 = 0x38000000) : crossBounds a old new = new := by
  unfold crossBounds
  extract_lets g
  rw [if_neg, if_neg, if_neg, nth_bellows hp (by decide), nth_bellows hp (by decide)] <;>
    (rintro rfl; revert hp; decide)

theorem quenchDenies_bellows (u : State) {a : Nat} (old w : Word) (hp : a / 65536 = 0x38000000) :
    u.quenchDenies a old w = false := by
  unfold State.quenchDenies
  rw [nth_bellows hp (by decide), nth_bellows hp (by decide), nth_bellows hp (by decide), nth_bellows hp (by decide),
    nth_bellows hp (by decide)]

theorem pendingBuf_bellows (u : State) {a : Nat} (hp : a / 65536 = 0x38000000) : u.pendingBuf a = false := by
  unfold State.pendingBuf CANFD_BCFG
  rw [if_neg (by omega)]

theorem csrHook_bellows (u : State) {a : Nat} (old w : Word) (hp : a / 65536 = 0x38000000) (hk : a ≠ BELLOWS_KEEPALIVE) :
    u.csrHook a old w = u := by
  unfold State.csrHook
  rw [hp]
  exact if_neg (fun h => hk h.1)

/-- The write of a register of the BELLOWS block, but for `KEEPALIVE`: the fields stored and nothing set in motion. -/
theorem csrDone_bellows (u : State) (r : RegSpec) {a : Nat} (old w : Word) (hp : a / 65536 = 0x38000000)
    (hk : a ≠ BELLOWS_KEEPALIVE) :
    u.csrDone r a old w = u.wr a (r.fields.foldl (fun new f => f.write u.locked old w new) old) := by
  unfold State.csrDone
  rw [nth_bellows hp (by decide), nth_bellows hp (by decide), pendingBuf_bellows u hp]
  dsimp only
  rw [if_neg (by decide), crossBounds_bellows _ _ hp, csrHook_bellows _ _ _ hp hk]

/-- A write of a register of the BELLOWS block is refused where it acts on a field the path does not own. -/
theorem regWrite_bellows (u : State) (p : Path) {a : Nat} (w : Word) {r : RegSpec} (hr : findReg a = some r) (h8 : a % 8 = 0)
    (hp : a / 65536 = 0x38000000) (hk : a ≠ BELLOWS_KEEPALIVE) :
    u.regWrite p a w =
      if r.fields.any (fun f => f.acts (u.rd a) w && !f.own.admits p a) then (false, u.csrRefused p a)
      else (true, u.wr a (r.fields.foldl (fun new f => f.write u.locked (u.rd a) w new) (u.rd a))) := by
  unfold State.regWrite
  rw [hr]
  dsimp only
  rw [if_neg (by simp [h8, csrOn_bellows u hp]), capIndex_bellows hp]
  dsimp only
  rw [readOnlyBits_bellows _ _ hp, quenchDenies_bellows u _ _ hp, Bool.and_false, if_neg (by decide : ¬ false = true),
    nth_bellows hp (by decide), csrDone_bellows u r _ _ hp hk]

/-- A write of no register, of one misaligned or of one whose domain is off is refused. -/
theorem regWrite_unreachable (u : State) (p : Path) (a : Nat) (w : Word)
    (h : a % 8 ≠ 0 ∨ findReg a = none ∨ u.csrOn a = false) : u.regWrite p a w = (false, u.csrRefused p a) := by
  unfold State.regWrite
  cases hr : findReg a with
  | none => rfl
  | some r =>
    rw [hr] at h
    exact if_pos (h.imp_right (fun h => h.resolve_left (by simp)))

/-- The write command where the path is up and the main dies' window reachable. -/
theorem exec_registerWrite (s : State) (p : Path) (a : Nat) (w : Word) (t : Nat) (hp : (s.at t).pathUp p = true)
    (hm : mainWindow a = true → (s.at t).domOn 192 = true) :
    exec (.registerWrite p a w t) s = .next ((s.at t).regWrite p a w).2 := by
  refine (?_ : s.rowWrite p a w true t = _)
  unfold State.rowWrite
  extract_lets u
  refine if_neg ?_
  rintro (h | h | ⟨h1, h2⟩)
  · cases h
  · rw [hp] at h; cases h
  · rw [hm h1] at h2; cases h2

/-- Settles O56: a refused write leaves its record and the summary bit; an accepted one stores every field of the register
by its access code. The lock of RWL fields from bring-up step 4 on is the model's choice (assumption log 118). -/
theorem registerWrites : Obligations.RegisterWrites := by
  intro s p a w t u hup o n refused
  have hrefused : refused (u.csrRefused p a) := by
    obtain ⟨h1, h2, h3⟩ := u.csrRefused_spec p a
    exact ⟨h1, h2, fun h => h3 ((s.domOn_at t 192).trans h)⟩
  have hold : u.rd a = s.rd a := s.rd_at t a
  refine ⟨fun hm hbad => ⟨_, exec_registerWrite s p a w t hup (fun h => (s.domOn_at t 192).trans (hm h)), ?_⟩,
    fun r hr h8 hpg hk => ?_⟩
  · rw [regWrite_unreachable u p a w hbad]; exact hrefused
  · have hexec := exec_registerWrite s p a w t hup (fun h => by simp [mainWindow] at h; omega)
    rw [regWrite_bellows u p w hr h8 hpg hk, hold] at hexec
    refine ⟨fun ⟨f, hf, hact, hadm⟩ => ⟨_, hexec, ?_⟩, fun hown => ⟨_, hexec, ?_⟩⟩
    · rw [if_pos (List.any_eq_true.mpr ⟨f, hf, by simp [hact, hadm]⟩)]; exact hrefused
    · rw [if_neg (by simpa using hown)]
      obtain ⟨hin, hap⟩ := fieldsApart_of_findReg hpg hr
      refine ⟨fun b hb => (State.rd_wr_ne _ _ hb).trans (s.rd_at t b), rfl, fun f hf => ?_⟩
      have hlock : u.locked = false ↔ s.pwr.step < 4 := by
        unfold State.locked; rw [s.pwr_at t]; simp
      simp only [State.rd_wr_self, foldl_write_fields r.fields u.locked (s.rd a) w (s.rd a) hin hap (fun _ _ => rfl) f hf,
        FieldSpec.stored, hlock, o, n] <;> rfl

end Sys2Proof.Machine
end

