-- ==== Sys2Proof/Proofs/NetServices.lean ====
section
/-! SUPPORT and NetworkServices (O27). What a frame sent, a frame dropped, an interface's record and a neighbour entry change;
then the network services of an interface that is up. -/

namespace Sys2Proof.Machine

/-! ### What an interface has sent and dropped -/

/-- The frames sent on the wire that interface `i` is of: the management port's, or the main dies'. -/
def State.wireOf (u : State) (i : Nat) : List Frame := if i = 4 then u.mgmt.frames else u.tongs.wire

/-- The frames interface `i` dropped. -/
def State.lostOf (u : State) (i : Nat) : Nat := if i = 4 then u.mgmt.dropped else Tab.get (fun _ => 0) u.tongs.dropped i

/-- From `u` to `v` nothing changed but frames, their counts and what is kept of an interface. -/
def State.netOnly (u v : State) : Prop :=
  v = { u with
    tongs := { u.tongs with wire := v.tongs.wire, ifc := v.tongs.ifc, dropped := v.tongs.dropped }
    mgmt := { u.mgmt with frames := v.mgmt.frames, ifc := v.mgmt.ifc, dropped := v.mgmt.dropped } }

theorem State.netOnly_trans {u v w : State} (h : u.netOnly v) (k : v.netOnly w) : u.netOnly w := by
  unfold State.netOnly at *
  rw [k, h]

theorem State.tongs_at (s : State) (t : Nat) : (s.at t).tongs = s.tongs := by
  unfold State.at; extract_lets dt m; split <;> rfl

theorem State.mgmt_at (s : State) (t : Nat) : (s.at t).mgmt = s.mgmt := by
  unfold State.at; extract_lets dt m; split <;> rfl

theorem State.evrec_at (s : State) (t : Nat) : (s.at t).evrec = s.evrec := by
  unfold State.at; extract_lets dt m; split <;> rfl

theorem State.wireOf_at (s : State) (t i : Nat) : (s.at t).wireOf i = s.wireOf i := by
  unfold State.wireOf; rw [s.tongs_at, s.mgmt_at]

theorem State.lostOf_at (s : State) (t i : Nat) : (s.at t).lostOf i = s.lostOf i := by
  unfold State.lostOf; rw [s.tongs_at, s.mgmt_at]

theorem State.port_at (s : State) (t i : Nat) : (s.at t).port i = s.port i := by
  unfold State.port State.ifc; rw [s.tongs_at, s.mgmt_at]

/-! ### A frame sent -/

theorem State.netOnly_emit (u : State) (f : Frame) : u.netOnly (u.emit f) := by
  unfold State.emit; split <;> rfl

theorem State.wireOf_emit (u : State) (f : Frame) : (u.emit f).wireOf f.ifc = u.wireOf f.ifc ++ [f] := by
  unfold State.emit State.wireOf; split <;> rfl

theorem State.lostOf_emit (u : State) (f : Frame) (i : Nat) : (u.emit f).lostOf i = u.lostOf i := by
  unfold State.emit; split <;> rfl

theorem State.port_emit (u : State) (f : Frame) (i : Nat) : (u.emit f).port i = u.port i := by
  unfold State.emit; split <;> rfl

theorem State.vidOf_emit (u : State) (f : Frame) (q : Nat) : (u.emit f).vidOf q = u.vidOf q := by
  unfold State.emit; split <;> rfl

theorem State.emit_main (u : State) (f : Frame) (h : f.ifc ≠ 4) :
    u.emit f = { u with tongs := { u.tongs with wire := u.tongs.wire ++ [f] } } := if_neg h

/-- A frame to all: in a chain on both ports, else on the interface's own. -/
theorem State.putAll_main (u : State) (i : Nat) (b : Body) (h : i < 4) :
    u.putAll i b = { u with tongs := { u.tongs with
      wire := u.tongs.wire ++ (if u.chain then [0, 1] else [i / 2]).map (fun q => (⟨i, q, u.vidOf q, true, b⟩ : Frame)) } } := by
  have hne : i ≠ 4 := by omega
  unfold State.putAll State.put1
  cases hc : u.chain with
  | false => exact u.emit_main _ hne
  | true =>
    rw [if_pos (by simp [hne]), State.vidOf_emit, u.emit_main _ hne, State.emit_main _ _ hne]
    simp

/-! ### A frame dropped, and an interface's record -/

theorem State.netOnly_dropFrame (u : State) (i : Nat) : u.netOnly (u.dropFrame i) := by
  unfold State.dropFrame; split <;> rfl

theorem State.wireOf_dropFrame (u : State) (i : Nat) : (u.dropFrame i).wireOf i = u.wireOf i := by
  unfold State.dropFrame; split <;> rfl

theorem State.lostOf_dropFrame (u : State) (i : Nat) : (u.dropFrame i).lostOf i = u.lostOf i + 1 := by
  unfold State.dropFrame State.lostOf
  by_cases h : i = 4
  · simp only [h, if_true]
  · simp only [h, if_false, Tab.get_set_self]

theorem State.port_dropFrame (u : State) (i : Nat) : (u.dropFrame i).port i = u.port i := by
  unfold State.dropFrame; split <;> rfl

theorem State.netOnly_setPort (u : State) (i : Nat) (x : Ifc) : u.netOnly (u.setPort i x) := by
  unfold State.setPort; split <;> rfl

theorem State.wireOf_setPort (u : State) (i : Nat) (x : Ifc) : (u.setPort i x).wireOf i = u.wireOf i := by
  unfold State.setPort; split <;> rfl

theorem State.lostOf_setPort (u : State) (i : Nat) (x : Ifc) : (u.setPort i x).lostOf i = u.lostOf i := by
  unfold State.setPort; split <;> rfl

theorem State.vidOf_setPort (u : State) (i : Nat) (x : Ifc) (q : Nat) : (u.setPort i x).vidOf q = u.vidOf q := by
  unfold State.setPort; split <;> rfl

theorem State.evrec_setPort (u : State) (i : Nat) (x : Ifc) : (u.setPort i x).evrec = u.evrec := by
  unfold State.setPort; split <;> rfl

theorem State.port_setPort (u : State) (i : Nat) (x : Ifc) : (u.setPort i x).port i = x := by
  unfold State.setPort State.port
  split
  · rfl
  · exact Tab.get_set_self _ _ _ _

/-- What is kept of an interface is no part of the log. -/
theorem State.port_only {u v : State} {l : List Nat} (h : u.only v l) (i : Nat) : v.port i = u.port i := by
  obtain ⟨_, _, hv⟩ := h
  unfold State.port State.ifc
  rw [hv]

/-! ### Neighbour entries -/

theorem State.nbr_putNbr (u : State) (e : Nbr) {i : Nat} {a : BitVec 128} (hi : e.ifc = i) (ha : e.addr = a) :
    (u.putNbr e).nbr i a = some e := by
  subst hi ha
  unfold State.nbr State.putNbr
  extract_lets l l'
  have hl : ∀ x ∈ l', (x.ifc == e.ifc && x.addr == e.addr) ≠ true := by
    intro x hx
    exact Bool.eq_false_iff.mp <| (Bool.not_eq_true' _).mp (List.mem_filter.mp (List.mem_of_mem_drop hx)).2
  rw [List.find?_append, List.find?_eq_none.mpr hl]
  simp

/-- Without the entries of an address, it has none. -/
theorem nbr_filter_none (l : List Nbr) (i : Nat) (a : BitVec 128) :
    (l.filter (fun x => !(x.ifc == i && x.addr == a))).find? (fun e => e.ifc == i && e.addr == a) = none := by
  refine List.find?_eq_none.mpr (fun x hx => ?_)
  exact Bool.eq_false_iff.mp <| (Bool.not_eq_true' _).mp (List.mem_filter.mp hx).2

/-! ### Services -/

/-- A frame that passes its checks is taken. -/
theorem State.frameIn_taken (u : State) (e : EthIn) (f : State → State) (hi : e.i ≤ 4) (hc : e.ucw = 0)
    (hu : u.portUp e.i = true) (hf : u.frameOk e = true) : u.frameIn e f = f u := by
  have hcount : u.countUcw e.i e.ucw = u := if_pos (.inl hc)
  unfold State.frameIn
  rw [if_neg (by simp [hu]; omega)]
  simp only [hcount, if_pos hf]

/-- A frame answered on an interface. -/
theorem State.put1_sent (u : State) (i q : Nat) (b : Body) :
    u.netOnly (u.put1 i q b) ∧ (u.put1 i q b).wireOf i = u.wireOf i ++ [⟨i, q, u.vidOf q, true, b⟩] ∧
      (u.put1 i q b).lostOf i = u.lostOf i :=
  ⟨u.netOnly_emit _, u.wireOf_emit ⟨i, q, u.vidOf q, true, b⟩, u.lostOf_emit _ i⟩

/-- A frame dropped on an interface. -/
theorem State.dropFrame_gone (u : State) (i : Nat) :
    u.netOnly (u.dropFrame i) ∧ (u.dropFrame i).wireOf i = u.wireOf i ∧ (u.dropFrame i).lostOf i = u.lostOf i + 1 ∧
      (u.dropFrame i).port i = u.port i :=
  ⟨u.netOnly_dropFrame i, u.wireOf_dropFrame i, u.lostOf_dropFrame i, u.port_dropFrame i⟩

/-- An interface's record of answered echo requests, renewed with the second. -/
def State.echoPort (u : State) (i : Nat) : Ifc :=
  if u.now / sec = (u.port i).echoSec then u.port i else { u.port i with echoSec := u.now / sec, echoCnt := 0 }

theorem State.echoPort_sec (u : State) (i : Nat) : (u.echoPort i).echoSec = u.now / sec := by
  unfold State.echoPort
  split
  · next h => exact h.symm
  · rfl

theorem State.echoPort_cnt (u : State) (i : Nat) :
    (u.echoPort i).echoCnt = if u.now / sec = (u.port i).echoSec then (u.port i).echoCnt else 0 := by
  unfold State.echoPort; split <;> rfl

/-- An echo request answered: counted in its second. -/
theorem State.echo_answered (u : State) (i q : Nat) (b : Body) (x : Ifc) :
    let v := (u.setPort i x).put1 i q b
    u.netOnly v ∧ v.lostOf i = u.lostOf i ∧ v.wireOf i = u.wireOf i ++ [⟨i, q, u.vidOf q, true, b⟩] ∧ v.port i = x := by
  intro v
  obtain ⟨h1, h2, h3⟩ := (u.setPort i x).put1_sent i q b
  refine ⟨State.netOnly_trans (u.netOnly_setPort i x) h1, h3.trans (u.lostOf_setPort i x), ?_, ?_⟩
  · rw [h2, u.wireOf_setPort, u.vidOf_setPort]
  · exact (State.port_emit _ _ _).trans (u.port_setPort i x)

theorem dupFd_bounds (i : Nat) : (dupFd i).lo = (dupFd i).hi ∧ (dupFd i).hi < 64 := by
  unfold dupFd; split <;> exact ⟨rfl, by simp⟩

theorem logAddr_dupFd (i : Nat) (h : i ≤ 4) : logAddr (dupFd i).addr = false := by
  interval_cases i <;> decide

/-- The global address found in use during duplicate detection: shown, recorded, and detection ended. -/
theorem State.dad_found (u : State) (i : Nat) (x : Ifc) (h : i ≤ 4) (hx : x.dadUntil = none) :
    let v := ((u.setPort i x).putB (dupFd i) true).event 0x0401 2 (2 * 256 + i) i 0 0
    v.get (dupFd i) = 1 ∧ (v.port i).dadUntil = none ∧ u.recorded v 0x0401 ∧ (u.setPort i x).only v [(dupFd i).addr] := by
  intro v
  obtain ⟨hlo, hhi⟩ := dupFd_bounds i
  obtain ⟨w, hw⟩ : ∃ w, (u.setPort i x).putB (dupFd i) true = w := ⟨_, rfl⟩
  have hv : v = w.event 0x0401 2 (2 * 256 + i) i 0 0 := by rw [← hw]
  clear_value v
  subst hv
  have hput : (u.setPort i x).only w [(dupFd i).addr] := hw ▸ State.only_putB _ _ _ _ (.inl (by simp))
  have hall := State.only_trans hput (w.only_event 0x0401 2 (2 * 256 + i) i 0 0 _)
  refine ⟨?_, ?_, ?_, hall⟩
  · have hrd := (w.only_event 0x0401 2 (2 * 256 + i) i 0 0 []).1 (dupFd i).addr (by simp) (logAddr_dupFd i h)
    have hget : w.get (dupFd i) = 1 := by
      rw [← hw]
      refine (State.get_put_self _ _ _ (by omega) hhi).trans ?_
      rw [show (dupFd i).hi + 1 - (dupFd i).lo = 1 by omega]; rfl
    unfold State.get at hget ⊢
    rw [hrd, hget]
  · rw [State.port_only hall, u.port_setPort, hx]
  · have hrec := w.recorded_event 0x0401 2 (2 * 256 + i) i 0 0
    have hwe : w.evrec = u.evrec := by rw [← hw]; exact u.evrec_setPort i x
    unfold State.recorded at hrec ⊢
    rwa [hwe] at hrec

/-- A neighbour entry put changes the list of entries alone. -/
theorem State.putNbr_eq (u : State) (e : Nbr) : ∃ l, u.putNbr e = { u with tongs := { u.tongs with nbr := l } } := ⟨_, rfl⟩

/-! ### Commands -/

/-- A further attempt of resolution: the entry renewed, a solicitation or an ARP request sent. -/
theorem State.solicit_putNbr (u : State) (i : Nat) (a : BitVec 128) (e : Nbr) (hi : i < 4) (he : e.ifc = i) (ha : e.addr = a) :
    ((u.putNbr e).solicit i a).nbr i a = some e ∧
    ((u.putNbr e).solicit i a).tongs.wire = u.tongs.wire ++ (if u.chain then [0, 1] else [i / 2]).map (fun q =>
      (⟨i, q, u.vidOf q, true, if isMapped4 a then .arp false (BitVec.ofNat 32 a.toNat) else .nsol a⟩ : Frame)) ∧
    (u.putNbr e).solicit i a = { u with tongs := { u.tongs with
      wire := ((u.putNbr e).solicit i a).tongs.wire, nbr := ((u.putNbr e).solicit i a).tongs.nbr } } := by
  have hself := u.nbr_putNbr e he ha
  obtain ⟨l, hl⟩ := u.putNbr_eq e
  rw [hl] at hself ⊢
  unfold State.solicit
  rw [State.putAll_main _ i _ hi]
  exact ⟨hself, rfl, rfl⟩

/-- The retry of a resolution that has waited a second for an answer. -/
theorem exec_resolutionRetry (s : State) (i : Nat) (a : BitVec 128) (t : Nat) (e : Nbr) (hn : (s.at t).nbr i a = some e)
    (hm : e.mac = none) (ht : (s.at t).now ≥ e.at_ + 1000000000) :
    exec (.neighbourResolutionRetry i a t) s = .next (
      if e.tries < 3 then ((s.at t).putNbr { e with tries := e.tries + 1, at_ := (s.at t).now }).solicit i a
      else { s.at t with tongs := { (s.at t).tongs with
        nbr := (s.at t).tongs.nbr.filter (fun x => !(x.ifc == i && x.addr == a)) } }) := by
  refine (?_ : execNeighbourResolutionRetry i a t s = _)
  unfold execNeighbourResolutionRetry
  generalize s.at t = u at *
  dsimp only
  rw [hn]
  dsimp only
  rw [if_neg (by rw [hm]; unfold sec; simp; omega)]
  split <;> rfl

/-- A frame alone in the relay lane of the port it came in by. -/
def State.relayed (u : State) (x : EthIn) (dstMac len : Nat) (p : Option Pkt) : State :=
  { u with tongs := { u.tongs with
    relay := Tab.set (fun _ => []) [] (x.i / 2) [⟨x.i, 1 - x.i / 2, x.vid, true, .relay dstMac len (p.map Pkt.hop)⟩] } }

/-- A chain module passes a frame on from one port to the relay lane of the other. -/
theorem exec_relayFrame (s : State) (x : EthIn) (dstMac len : Nat) (p : Option Pkt) (t : Nat) (hi : x.i = 0 ∨ x.i = 2)
    (hc : x.ucw = 0) (hu : (s.at t).portUp x.i = true) (hf : (s.at t).frameOk x = true) (hch : (s.at t).chain = true)
    (h0 : (s.at t).get (TONGS_PORTCFG_MODE 0) ∈ [1, 2, 3]) (h1 : (s.at t).get (TONGS_PORTCFG_MODE 1) ∈ [1, 2, 3])
    (hend : (s.at t).on TONGS_CHAIN_END = false) (hlane : (s.at t).tongs.relay = []) (hlen : len ≤ 524288)
    (hp : ∀ y : Pkt, p = some y → y.hops < 8) :
    exec (.relayFrame x 1 dstMac len p t) s = .next ((s.at t).relayed x dstMac len p) := by
  refine (?_ : execRelayFrame x 1 dstMac len p t s = _)
  unfold execRelayFrame
  generalize s.at t = u at *
  extract_lets -lift v port single atEnd pass
  have hsingle : ∀ q, u.get (TONGS_PORTCFG_MODE q) ∈ [1, 2, 3] → single q = true := by
    intro q hq
    unfold single
    simp only [List.mem_cons, List.not_mem_nil, or_false] at hq
    rcases hq with hq | hq | hq <;> rw [hq] <;> rfl
  have hpass : pass = true := by
    unfold pass atEnd
    rw [hend]
    split <;> rfl
  have hmany : p.any (fun x => decide (x.hops ≥ 8)) = false := by
    cases p with
    | none => rfl
    | some y => simpa using hp y rfl
  have hok : u.frameOk { x with frag := false } = true := by
    unfold State.frameOk at hf ⊢
    simp only [Bool.and_eq_true] at hf
    simp [hf.1.1, hf.2]
  refine (if_neg ?_).trans ?_
  · rintro (⟨hx0, hx2⟩ | h | h | h)
    · omega
    · exact Bool.false_ne_true (h.symm.trans hch)
    · exact Bool.false_ne_true (h.symm.trans (hsingle 0 h0))
    · exact Bool.false_ne_true (h.symm.trans (hsingle 1 h1))
  rw [u.frameIn_taken { x with frag := false } _ (by dsimp only; omega) hc hu hok]
  dsimp only
  rw [if_neg (by simp [hpass]), hmany, if_neg (by decide : ¬ false = true), hlane]
  exact congrArg _ (if_neg (by simpa [Tab.get] using hlen))

/-- An echo request that fits one frame is answered while fewer than 1,000 were in its second. -/
theorem exec_echoRequest (s : State) (x : EthIn) (dst src : BitVec 128) (data : List Byte) (t : Nat)
    (hin : ∀ f, (s.at t).frameIn x f = f (s.at t)) (hown : (s.at t).owns x.i dst = true)
    (hfit : echoLen dst data ≤ maxFrame x.i) :
    exec (.icmpEchoRequest x dst src data t) s = .next (
      if ((s.at t).echoPort x.i).echoCnt < 1000 then
        ((s.at t).setPort x.i { (s.at t).echoPort x.i with echoCnt := ((s.at t).echoPort x.i).echoCnt + 1 }).put1 x.i
          ((s.at t).egress x.i src) (.echo src data)
      else (s.at t).dropFrame x.i) := by
  refine (congrArg Host.Outcome.next (hin _)).trans (congrArg _ ?_)
  refine if_congr ?_ rfl rfl
  simp only [hown, hfit, Bool.true_and, decide_true, decide_eq_true_eq]
  rfl

/-- Settles O27: each service of an interface that is up, by the lemmas on frames sent and dropped above. The limits of 8,290
and 1,518 bytes and the port of an ARP reply are the model's (assumption log 153), as is the count of dropped frames (log 38). -/
theorem networkServices : Obligations.NetworkServices := by
  intro s x i t hi4 hxi hucw u hup hok wire fr all lost net sent gone
  subst hxi
  have hin : ∀ f, u.frameIn x f = f u := fun f => u.frameIn_taken x f hi4 hucw hup hok
  have hwire : u.wireOf x.i = wire s := s.wireOf_at t x.i
  have hlost : u.lostOf x.i = lost s := s.lostOf_at t x.i
  have hgone : ∀ c, exec c s = .next (u.dropFrame x.i) → gone c := by
    intro c hc
    obtain ⟨h1, h2, h3, h4⟩ := u.dropFrame_gone x.i
    exact ⟨_, hc, h1, h2.trans hwire, h3.trans (by rw [hlost]), h4.trans (s.port_at t x.i)⟩
  have hsent : ∀ c q b, exec c s = .next (u.put1 x.i q b) → sent c (fr q b) := by
    intro c q b hc
    obtain ⟨h1, h2, h3⟩ := u.put1_sent x.i q b
    exact ⟨_, hc, h1, h2.trans (by rw [hwire]), h3.trans hlost⟩
  refine ⟨fun target src => ?_, fun target => ?_, fun dst src data hown hfit => ?_,
    fun a e hi hnbr hifc haddr hmac hage => ?_, fun a mac port => ⟨fun e hdad hnbr hifc haddr => ?_,
    fun hdad ha => ?_⟩, fun dstMac len p hi hch h0 h1 hend hlane hlen hp => ?_⟩
  · have hexec : exec (.neighbourSolicitation x target src t) s = _ := congrArg Host.Outcome.next (hin _)
    split
    · next h => exact hsent _ _ _ (hexec.trans (congrArg _ (if_pos h)))
    · next h => exact hgone _ (hexec.trans (congrArg _ (if_neg h)))
  · have hexec : exec (.arpRequest x target t) s = _ := congrArg Host.Outcome.next (hin _)
    split
    · next h => exact hsent _ _ _ (hexec.trans (congrArg _ (if_pos h)))
    · next h => exact hgone _ (hexec.trans (congrArg _ (if_neg h)))
  · intro used
    have hexec := exec_echoRequest s x dst src data t hin hown hfit
    have hcnt : (u.echoPort x.i).echoCnt = used := u.echoPort_cnt x.i
    refine ⟨fun hused => ?_, fun hused => hgone _ (hexec.trans (congrArg _ (if_neg (by rw [hcnt]; omega))))⟩
    obtain ⟨h1, h2, h3, h4⟩ := u.echo_answered x.i (u.egress x.i src) (.echo src data)
      { u.echoPort x.i with echoCnt := (u.echoPort x.i).echoCnt + 1 }
    exact ⟨_, hexec.trans (congrArg _ (if_pos (by rw [hcnt]; exact hused))), h1, h2.trans hlost, h3.trans (by rw [hwire]),
      by rw [h4, ← hcnt], by rw [h4]; exact u.echoPort_sec x.i⟩
  · have hexec := exec_resolutionRetry s x.i a t e hnbr hmac hage
    refine ⟨fun htry => ?_, fun htry => ?_⟩
    · obtain ⟨h1, h2, h3⟩ := u.solicit_putNbr x.i a { e with tries := e.tries + 1, at_ := u.now } hi hifc haddr
      exact ⟨_, hexec.trans (congrArg _ (if_pos htry)), h1, h2.trans (by rw [s.tongs_at t]), h3⟩
    · refine ⟨_, hexec.trans (congrArg _ (if_neg (by omega))), ?_, rfl⟩
      exact nbr_filter_none _ _ _
  · have hexec : exec (.neighbourAdvertisement x a mac port t) s = _ := congrArg Host.Outcome.next (hin _)
    simp only [hdad, Option.isSome_none, Bool.false_and, Bool.false_eq_true, if_false, hnbr] at hexec
    have hself := u.nbr_putNbr { e with mac := some mac, port := port, at_ := u.now } hifc haddr
    obtain ⟨l, hl⟩ := u.putNbr_eq { e with mac := some mac, port := port, at_ := u.now }
    rw [hl] at hexec hself
    exact ⟨_, hexec, hself, rfl⟩
  · have hexec : exec (.neighbourAdvertisement x a mac port t) s = _ := congrArg Host.Outcome.next (hin _)
    subst ha
    simp only [hdad, beq_self_eq_true, Bool.and_self, if_true] at hexec
    obtain ⟨h1, h2, h3, h4⟩ := u.dad_found x.i { u.port x.i with dadUntil := none } hi4 rfl
    refine ⟨_, hexec, h1, h2, ?_, h4⟩
    unfold State.recorded at h3 ⊢
    rwa [show u.evrec = s.evrec from s.evrec_at t] at h3
  · have hexec := exec_relayFrame s x dstMac len p t hi hucw hup hok hch h0 h1 hend hlane hlen hp
    refine ⟨_, hexec, ?_, rfl, fun y _ => ⟨rfl, rfl, rfl⟩⟩
    simp only [State.relayed, Tab.get_set_self]

end Sys2Proof.Machine
end

