-- ==== Sys2Proof/Proofs/Access.lean ====
section
/-! SUPPORT. What the accesses of a C-slot word leave as they were: counting and correcting touch registers alone, a report or a
descriptor met by a store touches no byte of memory, no Anvil and of Hammer the tokens only. -/

namespace Sys2Proof.Machine

/-! ### Counting and correcting -/

/-- From `u` to `v` reads were counted and corrected: registers other than `ISSUECNT`, and the units awaiting write-back. -/
def State.countsOnly (u v : State) : Prop :=
  v = { u with csr := v.csr, wb := v.wb } ∧ v.rd HAMMER_ISSUECNT = u.rd HAMMER_ISSUECNT

theorem State.countsOnly_refl (u : State) : u.countsOnly u := ⟨rfl, rfl⟩

theorem State.countsOnly_trans {u v w : State} (h : u.countsOnly v) (k : v.countsOnly w) : u.countsOnly w :=
  ⟨by rw [k.1, h.1], k.2.trans h.2⟩

theorem State.countsOnly_put (u : State) (f : Fd) (x : Nat) (h : f.addr ≠ HAMMER_ISSUECNT) : u.countsOnly (u.put f x) :=
  ⟨rfl, State.rd_put_ne _ _ _ h.symm⟩

theorem State.countsOnly_foldl {α : Type} (f : State → α → State) (l : List α) (h : ∀ s x, State.countsOnly s (f s x))
    (s : State) : s.countsOnly (l.foldl f s) := by
  induction l generalizing s with
  | nil => exact s.countsOnly_refl
  | cons x r ih => exact State.countsOnly_trans (h s x) (ih _)

/-- The counter of corrected errors is never the count of issued bundles. -/
theorem errHome_ce_ne (key : Nat) : (errHome key).2.1.addr ≠ HAMMER_ISSUECNT := by
  unfold errHome
  split <;> simp only [HEARTH_HSECNT, ANVIL_SECNT, HAMMER_SECNT, HEARTH_STKERR, HAMMER_ISSUECNT] <;> omega

theorem State.countsOnly_correct (u : State) (key : Nat) : u.countsOnly (u.correct key) := by
  have h : u.countsOnly ((u.inc (errHome key).2.1).put HAMMER_ERRSUM_MEMCE 1) :=
    State.countsOnly_trans (State.countsOnly_put _ _ _ (errHome_ce_ne key)) (State.countsOnly_put _ _ _ (by decide))
  unfold State.correct
  extract_lets s
  split
  · exact h
  · exact State.countsOnly_trans h ⟨rfl, rfl⟩

theorem State.countsOnly_correctRange (u : State) (a n : Nat) : u.countsOnly (u.correctRange a n) :=
  State.countsOnly_foldl _ _ State.countsOnly_correct u

theorem State.countsOnly_movedAt (crm : Bool) (u : State) (p : Nat × Nat) : u.countsOnly (State.movedAt crm u p) := by
  have hne : ∀ k, (if crm then HEARTH_HBMCR_COUNT k else HEARTH_HBMMP_COUNT k).addr ≠ HAMMER_ISSUECNT := by
    intro k; cases crm <;> simp only [Bool.false_eq_true, if_false, if_true, HEARTH_HBMCR_COUNT, HEARTH_HBMMP_COUNT,
      HEARTH_HBMCR, HEARTH_HBMMP, HAMMER_ISSUECNT] <;> omega
  unfold State.movedAt
  split
  · exact State.countsOnly_put _ _ _ (hne _)
  · exact State.countsOnly_put _ _ _ (hne _)
  · exact State.countsOnly_put _ _ _ (by simp only [HEARTH_HSCNT, HAMMER_ISSUECNT]; omega)
  · exact State.countsOnly_put _ _ _ (by simp only [ANVIL_ACNT, HAMMER_ISSUECNT]; omega)
  · exact State.countsOnly_put _ _ _ (by decide)
  · exact State.countsOnly_refl u

theorem State.countsOnly_moved (u : State) (crm : Bool) (a n : Nat) : u.countsOnly (u.moved crm a n) :=
  State.countsOnly_foldl _ _ (State.countsOnly_movedAt crm) u

/-! ### Reports and commands that are refused -/

/-- From `u` to `v` the memory and the Anvils are as they were, and Hammer but for its tokens. -/
def State.tokensOnly (u v : State) : Prop :=
  v.mem = u.mem ∧ v.anvils = u.anvils ∧ v.hammer = { u.hammer with tok := v.hammer.tok }

theorem State.tokensOnly_refl (u : State) : u.tokensOnly u := ⟨rfl, rfl, rfl⟩

theorem State.tokensOnly_trans {u v w : State} (h : u.tokensOnly v) (k : v.tokensOnly w) : u.tokensOnly w := by
  obtain ⟨h1, h2, h3⟩ := h
  obtain ⟨k1, k2, k3⟩ := k
  exact ⟨k1.trans h1, k2.trans h2, by rw [k3, h3]⟩

/-- A change beside memory, Anvils and Hammer. -/
theorem State.tokensOnly_beside {u v : State} (h1 : v.mem = u.mem) (h2 : v.anvils = u.anvils) (h3 : v.hammer = u.hammer) :
    u.tokensOnly v := ⟨h1, h2, by rw [h3]⟩

theorem State.tokensOnly_put (u : State) (f : Fd) (x : Nat) : u.tokensOnly (u.put f x) := State.tokensOnly_beside rfl rfl rfl

theorem State.tokensOnly_putB (u : State) (f : Fd) (x : Bool) : u.tokensOnly (u.putB f x) := State.tokensOnly_beside rfl rfl rfl

theorem State.tokensOnly_inc (u : State) (f : Fd) : u.tokensOnly (u.inc f) := State.tokensOnly_beside rfl rfl rfl

theorem State.tokensOnly_raise (u : State) (n : Nat) : u.tokensOnly (u.raise n) := by
  have h := (State.irqOnly_raise n u).2.2.2
  exact State.tokensOnly_beside (by rw [h]) (by rw [h]) (by rw [h])

theorem State.tokensOnly_eventSeq (u : State) (code sev src p0 p1 p2 : Nat) :
    u.tokensOnly (u.eventSeq code sev src p0 p1 p2).2 := by
  have h := (State.only_eventSeq u code sev src p0 p1 p2 []).2.2
  exact State.tokensOnly_beside (by rw [h]) (by rw [h]) (by rw [h])

theorem State.tokensOnly_eventIrq (u : State) (irq code sev src p0 p1 p2 : Nat) :
    u.tokensOnly (u.eventIrq irq code sev src p0 p1 p2) := by
  unfold State.eventIrq
  exact State.tokensOnly_trans (State.tokensOnly_eventSeq ..) (State.tokensOnly_trans (State.tokensOnly_put _ _ _)
    (State.tokensOnly_raise _ _))

theorem State.tokensOnly_memUe (u : State) (consumer key : Nat) (loc : Word) : u.tokensOnly (u.memUe consumer key loc) := by
  unfold State.memUe
  extract_lets h
  exact State.tokensOnly_trans (State.tokensOnly_put _ _ _) (State.tokensOnly_eventIrq _ _ _ _ _ _ _ _)

theorem State.tokensOnly_noteUe (u : State) (k span n : Nat) : u.tokensOnly (u.noteUe k span n).2 :=
  State.tokensOnly_beside rfl rfl rfl

/-- An uncorrectable error reported changes no byte, no Anvil and nothing of Hammer's but tokens. -/
theorem State.tokensOnly_reportUe (u : State) (consumer key : Nat) : u.tokensOnly (u.reportUe consumer key) := by
  unfold State.reportUe
  extract_lets s stack
  have h : u.tokensOnly s := State.tokensOnly_trans (State.tokensOnly_inc _ _) (State.tokensOnly_memUe _ _ _ _)
  clear_value s
  have hs : ∀ k, u.tokensOnly (stack k) := by
    intro k
    unfold stack
    have hn := State.tokensOnly_trans h (State.tokensOnly_noteUe s (1000 + k) sec 64)
    split
    rename_i due v heq
    rw [heq] at hn
    split
    · exact State.tokensOnly_trans hn ⟨rfl, rfl, rfl⟩
    · exact hn
  split
  · next g _ _ =>
    have hn := State.tokensOnly_trans h (State.tokensOnly_noteUe s g (3600 * sec) 4)
    split
    rename_i due v heq
    rw [heq] at hn
    split
    · exact State.tokensOnly_trans hn ⟨rfl, rfl, rfl⟩
    · exact hn
  · exact hs _
  · exact hs _
  · exact h

theorem State.tokensOnly_crucStat (u : State) (k : Nat) : u.tokensOnly (u.crucStat k) := by
  unfold State.crucStat
  extract_lets c s1 s2
  have h1 : u.tokensOnly s1 := State.tokensOnly_trans (State.tokensOnly_put _ _ _) (State.tokensOnly_trans
    (State.tokensOnly_put _ _ _) (State.tokensOnly_put _ _ _))
  have h2 : s1.tokensOnly s2 := State.tokensOnly_trans (State.tokensOnly_putB _ _ _) (State.tokensOnly_putB _ _ _)
  exact State.tokensOnly_trans h1 (State.tokensOnly_trans h2 (State.tokensOnly_putB _ _ _))

theorem State.tokensOnly_tokDone (u : State) (job t : Nat) (f : Option Fail) : u.tokensOnly (u.tokDone job t f) := by
  unfold State.tokDone
  split
  · exact u.tokensOnly_refl
  · cases f <;> exact ⟨rfl, rfl, rfl⟩

theorem State.tokensOnly_setCtx (u : State) (n : Nat) (c : Ctx) : u.tokensOnly (u.setCtx n c) :=
  State.tokensOnly_beside rfl rfl rfl

theorem State.tokensOnly_cacheStat (u : State) : u.tokensOnly u.cacheStat :=
  State.tokensOnly_trans (State.tokensOnly_put _ _ _) (State.tokensOnly_trans (State.tokensOnly_put _ _ _)
    (State.tokensOnly_put _ _ _))

theorem State.tokensOnly_unpin (u : State) (n : Nat) : u.tokensOnly (u.unpin n) := by
  unfold State.unpin
  split
  · exact u.tokensOnly_refl
  · refine State.tokensOnly_trans ?_ (State.tokensOnly_cacheStat _)
    exact State.tokensOnly_beside rfl rfl rfl

theorem State.tokensOnly_cmdDone (u : State) (n need : Nat) : u.tokensOnly (u.cmdDone n need) := by
  unfold State.cmdDone
  extract_lets c
  split
  · exact u.tokensOnly_refl
  · exact State.tokensOnly_trans (State.tokensOnly_setCtx _ _ _) (State.tokensOnly_unpin _ _)

theorem State.tokensOnly_respond (u : State) (n ctype status sub ctag result : Nat) (loc : Word) :
    u.tokensOnly (u.respond n ctype status sub ctag result loc) := by
  unfold State.respond
  generalize cmdResponse ctype status sub ctag result loc = data
  have h := (State.only_queueMsg u n 7 true data none []).2.2
  have hq : u.tokensOnly (u.queueMsg n 7 true data none) :=
    State.tokensOnly_beside (by rw [h]) (by rw [h]) (by rw [h])
  exact State.tokensOnly_trans hq (State.tokensOnly_cmdDone _ _ _)

theorem State.tokensOnly_crucAnswer (u : State) (k : Nat) (src : CSrc) (st err seq : Nat) (fl : Flags) (loc : Word) :
    u.tokensOnly (u.crucAnswer k src st err seq fl loc) := by
  unfold State.crucAnswer
  split
  · next job t =>
    extract_lets f s
    have h : u.tokensOnly s := by
      unfold s
      split
      · exact State.tokensOnly_beside rfl rfl rfl
      · exact u.tokensOnly_refl
    exact State.tokensOnly_trans h (State.tokensOnly_tokDone _ _ _ _)
  · exact State.tokensOnly_respond _ _ _ _ _ _ _ _

theorem State.tokensOnly_crucError (u : State) (k queue err cmd seq : Nat) (loc : Word) :
    u.tokensOnly (u.crucError k queue err cmd seq loc) := by
  unfold State.crucError
  extract_lets s1 s2 s3
  have h2 : u.tokensOnly s2 := State.tokensOnly_trans (State.tokensOnly_put _ _ _) (State.tokensOnly_trans
    (State.tokensOnly_put _ _ _) (State.tokensOnly_trans (State.tokensOnly_put _ _ _) (State.tokensOnly_trans
    (State.tokensOnly_put _ _ _) (State.tokensOnly_put _ _ _))))
  have h3 : s2.tokensOnly s3 := by
    unfold s3
    split
    · exact State.tokensOnly_put _ _ _
    · exact State.tokensOnly_refl _
  exact State.tokensOnly_trans h2 (State.tokensOnly_trans h3 (State.tokensOnly_eventIrq _ _ _ _ _ _ _ _))

theorem State.tokensOnly_crucRefuse (u : State) (k queue err cmd : Nat) (src : CSrc) (loc : Word) :
    u.tokensOnly (u.crucRefuse k queue err cmd src loc) := by
  unfold State.crucRefuse
  exact State.tokensOnly_trans (State.tokensOnly_inc _ _) (State.tokensOnly_trans (State.tokensOnly_crucError _ _ _ _ _ _ _)
    (State.tokensOnly_crucAnswer _ _ _ _ _ _ _ _))

theorem State.tokensOnly_setCruc (u : State) (k : Nat) (c : Cruc) : u.tokensOnly (u.setCruc k c) :=
  State.tokensOnly_beside rfl rfl rfl

/-- A waiting command whose descriptor now reads `d` (R201): renewed, or refused. -/
def State.refetched (s : State) (x : DescAt) (y : CCmd) (d : BitVec 512) : State :=
  let c := s.cruc x.stk
  match descCheck x.stk d with
  | 0 =>
    let new (l : List CCmd) : List CCmd := l.map (fun z => if z.seq = x.seq then { z with desc := d } else z)
    (s.setCruc x.stk { c with p := new c.p, n := new c.n }).crucStat x.stk
  | e =>
    let out (l : List CCmd) : List CCmd := l.filter (fun z => z.seq != x.seq)
    let s := (s.setCruc x.stk { c with p := out c.p, n := out c.n }).crucStat x.stk
    let s := if s.get (CRUC_CSEQ_NEXT x.stk) = seqAdd x.seq 1 then s.put (CRUC_CSEQ_NEXT x.stk) x.seq else s
    s.crucRefuse x.stk y.queue e (dCmd d) y.src 0

theorem State.crucRefetch_eq (s : State) (x : DescAt) :
    s.crucRefetch x = match ((s.cruc x.stk).p ++ (s.cruc x.stk).n).find? (fun y => y.seq == x.seq) with
      | none => s
      | some y => s.refetched x y (BitVec.ofNat 512 (s.readN x.addr 64)) := rfl

theorem State.tokensOnly_refetched (u : State) (x : DescAt) (y : CCmd) (d : BitVec 512) : u.tokensOnly (u.refetched x y d) := by
  have hs : ∀ c, u.tokensOnly ((u.setCruc x.stk c).crucStat x.stk) := fun c =>
    State.tokensOnly_trans (State.tokensOnly_setCruc _ _ _) (State.tokensOnly_crucStat _ _)
  unfold State.refetched
  extract_lets c new out s s'
  have h' : u.tokensOnly s' := by
    unfold s'
    split
    · exact State.tokensOnly_trans (hs _) (State.tokensOnly_put _ _ _)
    · exact hs _
  split
  · exact hs _
  · exact State.tokensOnly_trans h' (State.tokensOnly_crucRefuse _ _ _ _ _ _ _)

theorem State.tokensOnly_crucRefetch (u : State) (x : DescAt) : u.tokensOnly (u.crucRefetch x) := by
  rw [State.crucRefetch_eq]
  split
  · exact u.tokensOnly_refl
  · exact u.tokensOnly_refetched _ _ _

/-- A store that meets copies of descriptors. -/
theorem State.tokensOnly_meetDescs (u : State) (p a n : Nat) : u.tokensOnly (u.meetDescs p a n) := by
  unfold State.meetDescs
  generalize u.hammer.descs.filter _ = l
  induction l generalizing u with
  | nil => exact u.tokensOnly_refl
  | cons d r ih =>
    refine State.tokensOnly_trans ?_ (ih _)
    unfold State.fresh
    dsimp only
    split
    · exact State.tokensOnly_beside rfl rfl rfl
    · refine State.tokensOnly_trans ?_ (State.tokensOnly_crucRefetch _ _)
      exact State.tokensOnly_beside rfl rfl rfl

end Sys2Proof.Machine
end

