-- ==== Sys2Proof/Proofs/ConstMem.lean ====
section
/-! SUPPORT and ConstantAndMemoryWords (O15). How a bundle of one memory word of the C slot issues: its single effect at the
opening state, then either a result under way, a fault that ends the job, or a store that is visible at the next position. -/

namespace Sys2Proof.Machine

/-! ### The bundle -/

/-- An effect that reads or writes memory for the C slot, or is a fault. -/
def Flight.access (f : Flight) : Bool :=
  match f.eff with
  | .ldm _ _ => true
  | .stm _ _ => true
  | .ldc _ _ => true
  | .fault _ _ _ _ _ => true
  | _ => false

theorem tokIncr_access (f : Flight) (t : Nat) (h : f.access = true) : tokIncr [f] t = 0 := by
  unfold tokIncr
  unfold Flight.access at h
  split at h <;> simp_all

theorem admissible_access (s : State) (f : Flight) (h : f.access = true) : s.admissible [f] = true := by
  unfold State.admissible
  unfold Flight.access at h
  split at h <;> simp_all

theorem linked_access (s : State) (f : Flight) (n u : Nat) (h : f.access = true) : s.linked [f] n u = s := by
  unfold State.linked
  unfold Flight.access at h
  split at h <;> simp_all

/-- Hammer one position on, before the results due there are taken up. -/
def State.stepped (s : State) (n pc : Nat) : State :=
  s.onHammer (fun h =>
    { h with
      pos := n + 1
      pc := pc
      redirs := []
      recent := h.recent.filter (fun r => n < r.1 + 8)
      descs := h.descs.filter (fun d => n ≤ d.pos + 3) })

/-- Without a redirect the next bundle is the one behind. -/
theorem State.closing_plain (s : State) (n pc u : Nat) (hm : s.hammer.marker = none) (hr : s.hammer.redirs = []) :
    s.closing n pc u = (s.stepped n (pc + u)).commitAt (n + 1) := by
  unfold State.closing State.stepped Hammer.redirAt
  simp only [State.onHammer, hm, hr, List.find?_nil, Option.map_none, Option.getD_none, List.filter_nil]

/-- Without a fault or a marker nothing follows. -/
theorem State.issueEnd_plain (s : State) (n : Nat) (hf : s.hammer.faults = []) (hm : s.hammer.marker = none) :
    s.issueEnd n = s := by
  unfold State.issueEnd
  rw [hf, hm]; rfl

/-- A memory word of the C slot alone in its bundle issues with its one effect. -/
theorem csOp_issue (s : State) (h : Hd) (f : CSf) (op : Nat) (eff : State → List Flight) (e : Flight) (hs : s.sole h [0])
    (hop : 0x56 ≤ op ∧ op ≤ 0x59) (hl : csLegal op f = true) (he : eff s = [e]) (ha : e.access = true) :
    s.slotOp h (csOp op f eff) = .next (((State.issueEff s.hammer.pos (h.len + 1) false
      (s.hammer.tok.all (fun t => t.2.count == 0)) s.opening e).closing s.hammer.pos s.hammer.pc (h.len + 1)).issueEnd
        s.hammer.pos) := by
  have hd : noDup (csDests op f) = true := by
    unfold csDests
    rw [if_neg (by omega), if_neg (by omega)]
    split <;> rfl
  have hso := slotOp_issue s h (csOp op f eff) hs hl hd (by simp [csOp, SlotOp.plain]) (waitFail_zero s) rfl
    (by simp [csOp, SlotOp.plain, he, tokIncr_access e _ ha]) (by simp [csOp, SlotOp.plain, he, admissible_access s e ha])
  rw [hso]
  simp only [csOp, SlotOp.plain, he, List.foldl_cons, List.foldl_nil, linked_access _ e _ _ ha]

/-! ### What the opening leaves -/

theorem State.opening_hammer (s : State) : s.opening.hammer = { s.hammer with cur := Open.none, open_ := false } := rfl

theorem State.opening_frame (s : State) : s.opening = { s with csr := s.opening.csr, hammer := s.opening.hammer } := rfl

theorem State.opening_issued (s : State) :
    s.opening.get HAMMER_ISSUECNT_COUNT = min (s.get HAMMER_ISSUECNT_COUNT + 1) (2 ^ 64 - 1) :=
  (State.get_put_ne _ _ _ _ (by decide)).trans (State.get_inc_self _ _ (by decide) (by decide))

theorem State.domOn_opening (s : State) (d : Nat) : s.opening.domOn d = s.domOn d := by
  refine State.domOn_congr (fun a h1 _ => ?_) d
  have hlow : HAMMER_ISSUECNT < BELLOWS_PDSTAT 0 ∧ HAMMER_PCSTAT < BELLOWS_PDSTAT 0 := by decide
  exact (State.rd_put_ne _ HAMMER_PCSTAT_PC _ (show a ≠ HAMMER_PCSTAT by omega)).trans
    (State.rd_put_ne _ HAMMER_ISSUECNT_COUNT _ (show a ≠ HAMMER_ISSUECNT by omega))

theorem State.cAddrOk_opening (s : State) (a : Nat) : s.opening.cAddrOk a = s.cAddrOk a := by
  unfold State.cAddrOk State.reachable
  simp only [State.domOn_opening]

theorem State.readN_of_mem {u v : State} (h : v.mem = u.mem) (a n : Nat) : v.readN a n = u.readN a n := by
  induction n with
  | zero => rfl
  | succ n ih => rw [State.readN, State.readN, ih, State.byte, State.byte, h]

/-! ### A result under way -/

/-- A word that has counted and corrected, and whose result is due later than the next position. -/
theorem willWrite_of_counts (s X : State) (h : Hd) (lat d : Nat) (x : Word) (hs : s.sole h [0]) (hX : s.opening.countsOnly X)
    (hlat : 2 ≤ lat) :
    s.willWrite (((X.fly (s.hammer.pos + lat) (.s d x false)).closing s.hammer.pos s.hammer.pc (h.len + 1)).issueEnd
      s.hammer.pos) h lat d x false := by
  obtain ⟨htk, _, _, _, _, _, _, hmk, hfl, hfa, hre, _⟩ := hs
  have hend : s.hammer.ending = none := by simp [State.taking] at htk; exact htk.2
  obtain ⟨hX1, hX2⟩ := hX
  have hXh : X.hammer = { s.hammer with cur := Open.none, open_ := false } := by rw [hX1]; rfl
  have hXm : X.mem = s.mem := by rw [hX1]; rfl
  set Y := X.fly (s.hammer.pos + lat) (.s d x false) with hY
  have hYh : Y.hammer = { X.hammer with flight := X.hammer.flight ++ [⟨s.hammer.pos + lat, .s d x false⟩] } := rfl
  rw [State.closing_plain _ _ _ _ (by rw [hYh, hXh]; exact hmk) (by rw [hYh, hXh]; exact hre)]
  set Z := Y.stepped s.hammer.pos (s.hammer.pc + (h.len + 1)) with hZ
  have hZh : Z.hammer = { s.hammer with
      cur := Open.none, open_ := false, pos := s.hammer.pos + 1, pc := s.hammer.pc + (h.len + 1), redirs := []
      flight := [⟨s.hammer.pos + lat, .s d x false⟩], recent := Z.hammer.recent, descs := Z.hammer.descs } := by
    rw [hZ, State.stepped, State.onHammer, hYh, hXh, hfl]; rfl
  rw [State.commitAt_none _ _ (by
    intro f hf
    rw [hZh] at hf
    obtain rfl := List.mem_singleton.mp hf
    dsimp only
    omega)]
  rw [State.issueEnd_plain _ _ (by rw [hZh]; exact hfa) (by rw [hZh]; exact hmk)]
  refine ⟨⟨by rw [hZh], ?_, fun a => ?_, ?_, by rw [hZh]⟩, by rw [hZh], by rw [hZh], by rw [hZh], by rw [hZh],
    by rw [hZh]; exact hfa, by rw [hZh]; exact hend⟩
  · refine Eq.trans ?_ s.opening_issued
    unfold State.get
    rw [show Z.rd HAMMER_ISSUECNT_COUNT.addr = X.rd HAMMER_ISSUECNT from rfl, hX2]
  · show Tab.get memDefault X.mem (phys a) = _
    rw [hXm]; rfl
  · have : Z = { X with hammer := Z.hammer } := rfl
    rw [this, hX1]; rfl

/-! ### A fault -/

theorem State.drain_idle (u : State) (h : u.hammer.flight = []) : u.drain = u := by
  unfold State.drain
  exact List.foldlRecOn (motive := fun v => v = u) _ _ rfl
    (fun v hv i _ => by rw [hv]; exact u.commitAt_none _ (by rw [h]; simp))

/-- Issue stops for one fault with nothing in flight: the job ends with it. -/
theorem State.stopJob_faulted (u : State) (F : FaultAt) (hf : u.hammer.flight = []) (hF : u.hammer.faults = [F]) :
    (u.stopJob none).hammer = { u.hammer with
      cur := Open.none, open_ := false, stall := none, marker := none, redirs := [], faults := [], ending := some (some F.fail) } ∧
    (u.stopJob none).mem = u.mem ∧ (u.stopJob none).anvils = u.anvils := by
  unfold State.stopJob
  rw [u.drain_idle hf]
  dsimp only
  rw [hF, State.put_hammer, State.put_mem, State.put_anvils]
  exact ⟨rfl, rfl, rfl⟩

/-- A word that has met a fault found at its own position ends the job, whatever was reported of it. -/
theorem failed_of_fault (s Y : State) (h : Hd) (cause : Nat) (loc : Word) (hs : s.sole h [0]) (hY : s.opening.tokensOnly Y)
    (hc : cause ≠ cCANCELLED) :
    s.failed (((Y.addFault s.hammer.pos cause 0 0 255 loc).closing s.hammer.pos s.hammer.pc (h.len + 1)).issueEnd
      s.hammer.pos) cause := by
  obtain ⟨_, _, _, _, _, _, _, hmk, hfl, hfa, hre, _⟩ := hs
  obtain ⟨hYm, hYa, hYh⟩ := hY
  set F : FaultAt := ⟨s.hammer.pos, s.hammer.pos + 0, 0,
    ⟨cause, if cause = cCANCELLED then 0 else Y.hammer.pc, 255, 0, 0, loc, 255⟩⟩ with hF
  have hpc : F.fail.fpc = s.hammer.pc := by rw [hF]; dsimp only; rw [if_neg hc, hYh]; rfl
  set X := Y.addFault s.hammer.pos cause 0 0 255 loc with hX
  have hXh : X.hammer = { Y.hammer with faults := Y.hammer.faults ++ [F] } := rfl
  rw [State.closing_plain _ _ _ _ (by rw [hXh, hYh]; exact hmk) (by rw [hXh, hYh]; exact hre)]
  set Z := X.stepped s.hammer.pos (s.hammer.pc + (h.len + 1)) with hZ
  have hZf : Z.hammer.flight = [] := by
    show Y.hammer.flight = []
    rw [hYh]; exact hfl
  have hZF : Z.hammer.faults = [F] := by
    show Y.hammer.faults ++ [F] = [F]
    rw [hYh]
    show s.hammer.faults ++ [F] = [F]
    rw [hfa]; rfl
  rw [State.commitAt_none _ _ (by rw [hZf]; simp)]
  have hend : Z.issueEnd s.hammer.pos = Z.stopJob none := by
    unfold State.issueEnd
    rw [hZF]
    exact if_pos (by simp [hF])
  rw [hend]
  obtain ⟨hVh, hVm, hVa⟩ := Z.stopJob_faulted F hZf hZF
  have hZY : Z.hammer.run = s.hammer.run ∧ Z.hammer.s = s.hammer.s := by
    show Y.hammer.run = _ ∧ Y.hammer.s = _
    rw [hYh]
    exact ⟨rfl, rfl⟩
  refine ⟨⟨F.fail, by rw [hVh], rfl, hpc⟩, by rw [hVh], by rw [hVh]; exact hZY.1, by rw [hVh]; exact hZf,
    by rw [hVh]; exact hZY.2, hVa.trans hYa, fun a => ?_⟩
  unfold State.byte
  rw [hVm, show Z.mem = Y.mem from rfl, hYm]
  rfl

/-! ### A store -/

theorem phys_low {x : Nat} (h : x < 0x14000000000) : phys x < 0x200000000000 := by
  unfold phys interleave
  rw [if_pos h]
  dsimp only
  have : (x / 4096 % 20 + x / 4096 / 20) % 20 < 20 := Nat.mod_lt _ (by decide)
  omega

theorem phys_high {x : Nat} (h : 0x14000000000 ≤ x) : phys x = x := by
  unfold phys
  exact if_neg (by omega)

/-- A byte of a store has no other address. -/
theorem phys_ne_store {a x : Nat} (ha : 0x200000000000 ≤ a) (h : x ≠ a) : phys x ≠ phys a := by
  rw [phys_high (by omega : 0x14000000000 ≤ a)]
  by_cases hx : x < 0x14000000000
  · have := phys_low hx; omega
  · rw [phys_high (by omega)]; exact h

theorem region_of_low {a : Nat} (h : a < 0x200000000000) :
    (∃ k o, region a = .hbm k o) ∨ (∃ k o, region a = .ctx k o) ∨ region a = .none := by
  unfold region
  split
  · exact .inl ⟨_, _, rfl⟩
  · split
    · exact .inr (.inl ⟨_, _, rfl⟩)
    · split
      · dsimp only
        split
        · exact .inl ⟨_, _, rfl⟩
        · exact .inr (.inl ⟨_, _, rfl⟩)
      · rw [if_neg (by omega), if_neg (by omega), if_neg (by omega), if_neg (by omega), if_neg (by omega)]
        exact .inr (.inr rfl)

/-- What `ldm` and `stm` reach lies in the stores. -/
theorem cAddrOk_store {u : State} {a : Nat} (h : u.cAddrOk a = true) : 0x200000000000 ≤ a := by
  by_contra hlow
  unfold State.cAddrOk at h
  rcases region_of_low (by omega : a < 0x200000000000) with ⟨k, o, e⟩ | ⟨k, o, e⟩ | e <;> simp [e] at h

theorem State.byte_setBytes_at (l : List Byte) (s : State) (a : Nat) (ha : 0x200000000000 ≤ a) (i : Nat) (hi : i < l.length) :
    (s.setBytes a l).byte (a + i) = l[i] := by
  induction l generalizing s a i with
  | nil => simp at hi
  | cons b r ih =>
    cases i with
    | zero =>
      exact (State.byte_setBytes_ne r (s.setByte a b) (a + 1) a
        (fun j _ => phys_ne_store (by omega) (by omega))).trans (s.byte_setByte_self a b)
    | succ i =>
      have := ih (s.setByte a b) (a + 1) (by omega) i (by simpa using hi)
      rw [show a + (i + 1) = a + 1 + i by omega]
      exact this

/-- The bytes of a number written to a store. -/
theorem State.byte_writeN_at (s : State) (a n v i : Nat) (ha : 0x200000000000 ≤ a) (hi : i < n) :
    (s.writeN a n v).byte (a + i) = BitVec.ofNat 8 (v / 2 ^ (8 * i)) := by
  have hlen : (toBytes n v).length = n := by simp [toBytes]
  have := State.byte_setBytes_at (toBytes n v) s a ha i (by rw [hlen]; exact hi)
  refine Eq.trans this ?_
  simp [toBytes]

/-- Every other byte. -/
theorem State.byte_writeN_ne (s : State) (a n v x : Nat) (ha : 0x200000000000 ≤ a) (hx : ¬ (a ≤ x ∧ x < a + n)) :
    (s.writeN a n v).byte x = s.byte x := by
  have hlen : (toBytes n v).length = n := by simp [toBytes]
  exact State.byte_setBytes_ne (toBytes n v) s a x (fun i hi => phys_ne_store (by omega) (by rw [hlen] at hi; omega))

theorem State.setBytes_frame (l : List Byte) (s : State) (a : Nat) : s.setBytes a l = { s with mem := (s.setBytes a l).mem } := by
  induction l generalizing s a with
  | nil => rfl
  | cons b r ih =>
    have h := ih (s.setByte a b) (a + 1)
    exact h.trans rfl

theorem State.writeN_frame (s : State) (a n v : Nat) :
    s.writeN a n v = { s with mem := (s.writeN a n v).mem, errs := (s.writeN a n v).errs, wb := (s.writeN a n v).wb } := by
  unfold State.writeN State.writeBytes State.clearErrs
  dsimp only
  rw [State.setBytes_frame]

/-- From `u` to `v` registers, Hammer, bytes and errors alone. -/
def State.storeOnly (u v : State) : Prop := v = { u with csr := v.csr, hammer := v.hammer, mem := v.mem, errs := v.errs, wb := v.wb }

theorem State.storeOnly_trans {u v w : State} (h : u.storeOnly v) (k : v.storeOnly w) : u.storeOnly w := by
  unfold State.storeOnly at *
  rw [k, h]

theorem State.meetDescs_none (s : State) (p a n : Nat) (h : s.hammer.descs = []) : s.meetDescs p a n = s := by
  unfold State.meetDescs
  rw [h]; rfl

/-- What `stm` leaves: the frame of its bundle, its bytes, and every other byte. -/
structure State.stored (s t : State) (h : Hd) (a v : Nat) : Prop where
  handed : s.handed t h
  flight : t.hammer.flight = []
  at_ : ∀ i, i < 8 → t.byte (a + i) = BitVec.ofNat 8 (v / 2 ^ (8 * i))
  beside : ∀ x, ¬ (a ≤ x ∧ x < a + 8) → t.byte x = s.byte x
  frame : s.hammer.descs = [] → s.storeOnly t

/-- A store due at the next position, in a word that has counted. -/
theorem stored_of_counts (s X : State) (h : Hd) (a v : Nat) (hs : s.sole h [0]) (hX : s.opening.countsOnly X)
    (ha : 0x200000000000 ≤ a) :
    s.stored (((X.fly (s.hammer.pos + 1) (.store s.hammer.pos a 8 v)).closing s.hammer.pos s.hammer.pc (h.len + 1)).issueEnd
      s.hammer.pos) h a v := by
  obtain ⟨htk, _, _, _, _, _, _, hmk, hfl, hfa, hre, _⟩ := hs
  have hend : s.hammer.ending = none := by simp [State.taking] at htk; exact htk.2
  obtain ⟨hX1, -⟩ := hX
  have hXh : X.hammer = { s.hammer with cur := Open.none, open_ := false } := by rw [hX1]; rfl
  set Y := X.fly (s.hammer.pos + 1) (.store s.hammer.pos a 8 v) with hY
  have hYh : Y.hammer = { X.hammer with flight := X.hammer.flight ++ [⟨s.hammer.pos + 1, .store s.hammer.pos a 8 v⟩] } := rfl
  rw [State.closing_plain _ _ _ _ (by rw [hYh, hXh]; exact hmk) (by rw [hYh, hXh]; exact hre)]
  set Z := Y.stepped s.hammer.pos (s.hammer.pc + (h.len + 1)) with hZ
  have hZf : Z.hammer.flight = [⟨s.hammer.pos + 1, .store s.hammer.pos a 8 v⟩] := by
    show X.hammer.flight ++ _ = _
    rw [hXh]
    show s.hammer.flight ++ _ = _
    rw [hfl]; rfl
  set W := Z.onHammer (fun h => { h with flight := [] }) with hW
  have hWh : W.hammer = { s.hammer with
      cur := Open.none, open_ := false, pos := s.hammer.pos + 1, pc := s.hammer.pc + (h.len + 1), redirs := [], flight := []
      recent := W.hammer.recent, descs := s.hammer.descs.filter (fun d => s.hammer.pos ≤ d.pos + 3) } := by
    rw [hW, State.onHammer, hZ, State.stepped, State.onHammer, hYh, hXh]
  have hWe : W = { s with csr := W.csr, hammer := W.hammer, wb := W.wb } := by
    have : W = { X with hammer := W.hammer } := rfl
    rw [this, hX1]; rfl
  have hcommit : Z.commitAt (s.hammer.pos + 1) = W.commit (.store s.hammer.pos a 8 v) := by
    unfold State.commitAt
    rw [hZf]
    simp only [beq_self_eq_true, bne_self_eq_false, List.filter_cons, List.filter_nil, if_true, Bool.false_eq_true, if_false,
      List.foldl_cons, List.foldl_nil]
    rfl
  rw [hcommit]
  set V := (W.writeN a 8 v).onHammer (fun h => { h with recent := h.recent ++ [(s.hammer.pos, a, W.bytes a 8)] }) with hV
  have hVh : V.hammer = { W.hammer with recent := V.hammer.recent } := by
    rw [hV, State.onHammer, State.writeN_hammer]
  obtain ⟨htm, hta, hth⟩ : V.tokensOnly (V.meetDescs s.hammer.pos a 8) := V.tokensOnly_meetDescs _ _ _
  have hcom : W.commit (.store s.hammer.pos a 8 v) = V.meetDescs s.hammer.pos a 8 := rfl
  rw [hcom]
  set t := V.meetDescs s.hammer.pos a 8 with ht
  rw [State.issueEnd_plain _ _ (by rw [hth, hVh, hWh]; exact hfa) (by rw [hth, hVh, hWh]; exact hmk)]
  have hWb : ∀ x, W.byte x = s.byte x := fun x => by
    show Tab.get memDefault W.mem (phys x) = _
    rw [hWe]; rfl
  have htb : ∀ x, t.byte x = (W.writeN a 8 v).byte x := fun x => by
    show Tab.get memDefault t.mem (phys x) = _
    rw [htm]; rfl
  have hth' : t.hammer = { W.hammer with recent := V.hammer.recent, tok := t.hammer.tok } := by rw [hth, hVh]
  refine ⟨⟨?_, ?_, ?_, ?_, ?_, ?_, ?_, ?_, ?_, ?_⟩, ?_, ?_, ?_, ?_⟩
  any_goals rw [hth', hWh]
  · exact hfa
  · exact hend
  · rw [hta]
    show (W.writeN a 8 v).anvils = _
    rw [State.writeN_frame, hWe]
  · intro i hi
    rw [htb, State.byte_writeN_at _ _ _ _ _ ha hi]
  · intro x hx
    rw [htb, State.byte_writeN_ne _ _ _ _ _ ha hx, hWb]
  · intro hd
    have htV : t = V := V.meetDescs_none _ _ _ (by rw [hVh, hWh]; show s.hammer.descs.filter _ = _; rw [hd]; rfl)
    have hW' : s.storeOnly W := by unfold State.storeOnly; rw [hWe]
    have hN : W.storeOnly (W.writeN a 8 v) := by unfold State.storeOnly; rw [State.writeN_frame]
    have hV' : (W.writeN a 8 v).storeOnly V := rfl
    rw [htV]
    exact State.storeOnly_trans hW' (State.storeOnly_trans hN hV')

/-! ### The words -/

theorem constEff_issue (s : State) (h : Hd) (f : CSf) (op n : Nat) (hop : 0x56 ≤ op ∧ op ≤ 0x59) (hs : s.sole h [0])
    (hl : csLegal op f = true) (eff : State → List Flight) (he : eff s = s.constEff f.d n) (img : Img) (hi : s.runImage = some img) :
    let addr := img.addr + img.constOff + 8 * n
    (8 * n + 8 ≤ img.constBytes → s.ueIn addr 8 = none → ∃ t, s.slotOp h (csOp op f eff) = .next t ∧
      s.willWrite t h 2 f.d (BitVec.ofNat 64 (s.readN addr 8)) false) ∧
    (8 * n + 8 ≤ img.constBytes → s.ueIn addr 8 ≠ none → ∃ t, s.slotOp h (csOp op f eff) = .next t ∧ s.failed t 0x04) ∧
    (img.constBytes < 8 * n + 8 → ∃ t, s.slotOp h (csOp op f eff) = .next t ∧ s.failed t 0x13) := by
  intro addr
  unfold State.constEff at he
  rw [hi] at he
  dsimp only at he
  have hue : s.opening.ueIn addr 8 = s.ueIn addr 8 := rfl
  refine ⟨fun hin hok => ?_, fun hin hbad => ?_, fun hout => ?_⟩
  · rw [if_pos hin] at he
    refine ⟨_, csOp_issue s h f op eff _ hs hop hl he rfl, ?_⟩
    unfold State.issueEff
    dsimp only
    rw [hue, hok]
    dsimp only
    rw [State.readN_of_mem (rfl : s.opening.mem = s.mem)]
    exact willWrite_of_counts s _ h 2 f.d _ hs
      (State.countsOnly_trans (State.countsOnly_correctRange _ _ _) (State.countsOnly_moved _ _ _ _)) le_rfl
  · rw [if_pos hin] at he
    obtain ⟨k, hk⟩ := Option.ne_none_iff_exists'.mp hbad
    refine ⟨_, csOp_issue s h f op eff _ hs hop hl he rfl, ?_⟩
    unfold State.issueEff
    dsimp only
    rw [hue, hk]
    exact failed_of_fault s _ h 0x04 _ hs (State.tokensOnly_reportUe _ _ _) (by decide)
  · rw [if_neg (by omega)] at he
    refine ⟨_, csOp_issue s h f op eff _ hs hop hl he rfl, ?_⟩
    exact failed_of_fault s _ h 0x13 _ hs (State.tokensOnly_refl _) (by decide)

/-- Settles O15: each word issues with its one effect, which is a result under way, a fault, or a store. That the index of `ldcx`
is not reduced is the model's choice (assumption log 150). -/
theorem constantAndMemoryWords : Obligations.ConstantAndMemoryWords := by
  intro s h f hs const a
  have hok := s.cAddrOk_opening a
  refine ⟨fun hl img hi => ?_, fun hl img hi => ?_, fun hl => ⟨fun ha hue => ?_, fun ha => ?_⟩,
    fun hl => ⟨fun ha => ?_, fun ha => ?_⟩⟩
  · exact constEff_issue s h f 0x56 f.imm (by decide) hs hl _ rfl img hi
  · exact constEff_issue s h f 0x57 _ (by decide) hs hl _ rfl img hi
  · refine ⟨_, csOp_issue s h f 0x58 _ _ hs (by decide) hl rfl rfl, ?_⟩
    have hue' : s.opening.ueIn (s.cAddr f) 8 = none := hue
    unfold State.issueEff
    dsimp only
    rw [if_neg (by rw [hok, ha]; decide), hue']
    dsimp only
    rw [State.readN_of_mem (rfl : s.opening.mem = s.mem)]
    exact willWrite_of_counts s _ h 16 f.d _ hs
      (State.countsOnly_trans (State.countsOnly_correctRange _ _ _) (State.countsOnly_moved _ _ _ _)) (by decide)
  · refine ⟨_, csOp_issue s h f 0x58 _ _ hs (by decide) hl rfl rfl, ?_⟩
    unfold State.issueEff
    dsimp only
    rw [if_pos (by rw [hok, ha])]
    exact failed_of_fault s _ h 0x12 _ hs (State.tokensOnly_refl _) (by decide)
  · have hexec := csOp_issue s h f 0x59 (fun s => [⟨1, .stm (s.cAddr f) (s.sreg f.b).toNat⟩]) _ hs (by decide) hl rfl rfl
    unfold State.issueEff at hexec
    dsimp only at hexec
    rw [if_neg (by rw [hok, ha]; decide)] at hexec
    obtain ⟨h1, h2, h3, h4, h5⟩ := stored_of_counts s _ h a (s.sreg f.b).toNat hs (State.countsOnly_moved s.opening false a 8)
      (cAddrOk_store ha)
    exact ⟨_, hexec, h1, h2, h3, h4, h5⟩
  · refine ⟨_, csOp_issue s h f 0x59 _ _ hs (by decide) hl rfl rfl, ?_⟩
    unfold State.issueEff
    dsimp only
    rw [if_pos (by rw [hok, ha])]
    exact failed_of_fault s _ h 0x12 _ hs (State.tokensOnly_refl _) (by decide)

end Sys2Proof.Machine
end

