-- ==== Sys2Proof/Proofs/MgmtRequest.lean ====
section
/-! SUPPORT. What an admitted management request changes beside its command: who was heard, notifications flushed, the
activity source raised, and the response sent and kept. -/

namespace Sys2Proof.Machine

/-! ### Only the log and the management port -/

/-- From `w` to `v` nothing changed but the registers listed, the log and the management port. -/
def State.onlyM (w v : State) (l : List Nat) : Prop := State.only { w with mgmt := v.mgmt } v l

theorem State.onlyM_refl (w : State) (l : List Nat) : w.onlyM w l := State.only_refl w l

theorem State.onlyM_of_only {w v : State} {l : List Nat} (h : w.only v l) : w.onlyM v l := by
  obtain ⟨h1, h2, h3⟩ := h
  exact ⟨h1, h2, by rw [h3]⟩

theorem State.onlyM_trans {w v z : State} {l : List Nat} (h : w.onlyM v l) (k : v.onlyM z l) : w.onlyM z l := by
  refine State.only_trans ?_ k
  obtain ⟨h1, h2, h3⟩ := h
  exact ⟨h1, h2, by rw [h3]⟩

theorem State.onlyM_mono {w v : State} {l m : List Nat} (h : w.onlyM v l) (hs : ∀ a ∈ l, a ∈ m) : w.onlyM v m :=
  State.only_mono h hs

/-- A change of the management port and of the free values used. -/
theorem State.onlyM_port (w : State) (m : Mgmt) (f : Nat) (l : List Nat) : w.onlyM { w with mgmt := m, free := f } l :=
  ⟨fun _ _ _ => rfl, fun _ => ⟨_, _, _, rfl⟩, rfl⟩

/-! ### The response -/

/-- A response sent and kept. -/
def State.answered (v : State) (src : BitVec 128) (r : Reply) : State := (v.reply r).keep src r

theorem State.answered_eq (v : State) (src : BitVec 128) (r : Reply) :
    ∃ l, v.answered src r = { v with mgmt := { v.mgmt with
      wire := v.mgmt.wire ++ [{ r with vid := v.mgmtVid }], seen := l } } := ⟨_, rfl⟩

theorem State.onlyM_answered (v : State) (src : BitVec 128) (r : Reply) (l : List Nat) : v.onlyM (v.answered src r) l := by
  obtain ⟨m, h⟩ := v.answered_eq src r
  rw [h]
  exact State.onlyM_port v _ v.free l

/-- The entry put at the end is found where the others are of other sources. -/
theorem find_seen_last (l : List Seen) (x : Seen) (src : BitVec 128) (hl : ∀ y ∈ l, (y.src == src) = false) (hx : x.src = src) :
    (l ++ [x]).find? (fun y => y.src == src) = some x := by
  rw [List.find?_append, List.find?_eq_none.mpr (by simpa using hl)]
  simp [hx]

theorem State.mem_kept_keep (v : State) (src : BitVec 128) (r : Reply) : r ∈ (v.keep src r).kept src := by
  unfold State.keep
  extract_lets l l' others others'
  have ho : ∀ y ∈ others', (y.src == src) = false := by
    intro y hy
    have hm : y ∈ others := by
      unfold others' at hy
      split at hy
      · exact hy
      · exact List.mem_of_mem_drop hy
    exact (Bool.not_eq_true' _).mp (List.mem_filter.mp hm).2
  unfold State.kept
  rw [find_seen_last others' _ src ho rfl]
  simp

/-- A response is the last datagram sent, and kept. -/
theorem State.replied_answered (v : State) (cmd : Nat) (src : BitVec 128) (d : Dgram) (st : Nat) (pay : List Byte) :
    (v.answered src ⟨src, cmd, 1, st, d.seq, pay, d.sport, none⟩).replied cmd src d st pay := by
  refine ⟨?_, State.mem_kept_keep _ _ _⟩
  obtain ⟨l, h⟩ := v.answered_eq src ⟨src, cmd, 1, st, d.seq, pay, d.sport, none⟩
  rw [h]
  simp only [List.getLast?_append, List.getLast?_singleton, Option.some_or]
  rfl

/-! ### The request taken -/

/-- The request heard: its source noted, waiting notifications sent (R555, R559). -/
def State.received (u : State) (src : BitVec 128) : State :=
  let s := (u.heard src).touchUpdate src
  State.flushNtf { s with mgmt := { s.mgmt with lastSrc := some src } }

/-- The state in which an admitted request is executed. -/
def State.taken (u : State) (src : BitVec 128) : State :=
  if (u.received src).secb.running.isSome then (u.received src).raise 31 else u.received src

theorem State.heard_eq (u : State) (src : BitVec 128) :
    ∃ l, u.heard src = { u with mgmt := { u.mgmt with seen := l } } ∧ (u.heard src).kept src = u.kept src := by
  unfold State.heard
  split
  · next x hx =>
    refine ⟨_, rfl, ?_⟩
    unfold State.kept
    have hsrc : x.src = src := by simpa using List.find?_some hx
    dsimp only
    rw [find_seen_last _ x src (fun y hy => by simpa using (List.mem_filter.mp hy).2) hsrc, hx]
  · exact ⟨_, rfl, rfl⟩

theorem State.touchUpdate_mgmt (u : State) (src : BitVec 128) (m : Mgmt) :
    State.touchUpdate { u with mgmt := m } src = { u.touchUpdate src with mgmt := m } := by
  unfold State.touchUpdate
  cases u.secb.update with
  | none => rfl
  | some x =>
    dsimp only
    split <;> rfl

theorem State.touchUpdate_eq (u : State) (src : BitVec 128) : ∃ b, u.touchUpdate src = { u with secb := b } := by
  unfold State.touchUpdate
  split
  · split
    · exact ⟨_, rfl⟩
    · exact ⟨_, rfl⟩
  · exact ⟨_, rfl⟩

/-- Frames of notifications sent: the wire and the free values used. -/
theorem State.foldl_notifyFrame (a : BitVec 128) (l : List Ntf) (u : State) :
    ∃ w f, l.foldl (fun (s : State) x => s.notifyFrame a x) u = { u with mgmt := { u.mgmt with wire := w }, free := f } := by
  induction l generalizing u with
  | nil => exact ⟨_, _, rfl⟩
  | cons x r ih =>
    obtain ⟨w, f, h⟩ := ih (u.notifyFrame a x)
    exact ⟨w, f, h⟩

/-- A notification that waited is now sent. -/
def Ntf.flushed (now : Nat) (x : Ntf) : Ntf := if x.sent.isNone then { x with sent := some now } else x

theorem Ntf.flushed_seq (now : Nat) (x : Ntf) : (x.flushed now).seq = x.seq := by unfold Ntf.flushed; split <;> rfl

theorem Ntf.flushed_src (now : Nat) (x : Ntf) : (x.flushed now).src = x.src := by unfold Ntf.flushed; split <;> rfl

theorem State.flushNtf_eq (u : State) : ∃ w f n, u.flushNtf = { u with mgmt := { u.mgmt with wire := w, ntf := n }, free := f } ∧
    (n = u.mgmt.ntf ∨ n = u.mgmt.ntf.map (Ntf.flushed u.now)) := by
  unfold State.flushNtf
  split
  · exact ⟨_, _, _, rfl, .inl rfl⟩
  · next a _ =>
    extract_lets wait m s'
    obtain ⟨w, f, h⟩ := State.foldl_notifyFrame a wait s'
    exact ⟨w, f, _, h, .inr rfl⟩

/-- A request heard changes the port, the update's deadline and free values. -/
theorem State.received_eq (u : State) (src : BitVec 128) :
    ∃ m f, u.received src = { u.touchUpdate src with mgmt := m, free := f } ∧
      (m.ntf = u.mgmt.ntf ∨ m.ntf = u.mgmt.ntf.map (Ntf.flushed u.now)) ∧ (u.received src).kept src = u.kept src := by
  obtain ⟨l, hl, hk⟩ := u.heard_eq src
  obtain ⟨b, hb⟩ := u.touchUpdate_eq src
  have ht : (u.heard src).touchUpdate src = { u.touchUpdate src with mgmt := (u.heard src).mgmt } := by
    rw [hl]; exact u.touchUpdate_mgmt src _
  unfold State.received
  rw [ht]
  obtain ⟨w, f, n, h, hn⟩ := State.flushNtf_eq { u.touchUpdate src with
    mgmt := { (u.heard src).mgmt with lastSrc := some src } }
  dsimp only at h hn ⊢
  rw [h]
  refine ⟨_, f, rfl, ?_, ?_⟩
  · rw [hl, hb] at hn; exact hn
  · rw [← hk]; rfl

/-- Nothing but the log, the port and the update's deadline differs where a request is executed. -/
theorem State.onlyM_taken (u : State) (src : BitVec 128) : (u.touchUpdate src).onlyM (u.taken src) [] := by
  obtain ⟨m, f, h, -, -⟩ := u.received_eq src
  have hr : (u.touchUpdate src).onlyM (u.received src) [] := by rw [h]; exact State.onlyM_port _ _ _ _
  unfold State.taken
  split
  · exact State.onlyM_trans hr (State.onlyM_of_only (State.only_raise _ 31 (by decide) _))
  · exact hr

theorem State.csr_received (u : State) (src : BitVec 128) : (u.received src).csr = u.csr := by
  obtain ⟨m, f, h, -, -⟩ := u.received_eq src
  obtain ⟨b, hb⟩ := u.touchUpdate_eq src
  rw [h, hb]

theorem State.evrec_taken (u : State) (src : BitVec 128) : (u.taken src).evrec = u.evrec := by
  obtain ⟨m, f, h, -, -⟩ := u.received_eq src
  obtain ⟨b, hb⟩ := u.touchUpdate_eq src
  have hr : (u.received src).evrec = u.evrec := by rw [h, hb]
  unfold State.taken
  split
  · exact (State.evrec_raise _ _).trans hr
  · exact hr

/-- From the request's arrival to its execution: what an assertion of source 31 may write. -/
theorem State.irqOnly_taken (u : State) (src : BitVec 128) : (u.received src).irqOnly 31 (u.taken src) := by
  unfold State.taken
  split
  · exact State.irqOnly_raise _ _
  · exact State.irqOnly_refl _ _

theorem State.rd_received (u : State) (src : BitVec 128) (a : Nat) : (u.received src).rd a = u.rd a := by
  unfold State.rd; rw [u.csr_received]

theorem State.domOn_received (u : State) (src : BitVec 128) (n : Nat) : (u.received src).domOn n = u.domOn n :=
  State.domOn_congr (fun a _ _ => u.rd_received src a) n

theorem State.rd_taken (u : State) (src : BitVec 128) {a : Nat} (h : irqAddr 31 a = false) : (u.taken src).rd a = u.rd a :=
  ((u.irqOnly_taken src).1 a h).trans (u.rd_received src a)

theorem State.domOn_taken (u : State) (src : BitVec 128) {n : Nat} (h : n ≠ 196) : (u.taken src).domOn n = u.domOn n :=
  ((u.irqOnly_taken src).2.1 n h).trans (u.domOn_received src n)

theorem State.domOn_taken_mono (u : State) (src : BitVec 128) (n : Nat) (h : u.domOn n = true) : (u.taken src).domOn n = true := by
  by_cases hn : n = 196
  · subst hn
    exact (u.irqOnly_taken src).2.2.1 ((u.domOn_received src 196).trans h)
  · exact (u.domOn_taken src hn).trans h

/-- The response of an answer. -/
def replyOf (cmd : Nat) (src : BitVec 128) (d : Dgram) (a : MgmtAns) : Reply := ⟨src, cmd, 1, a.1, d.seq, a.2.1, d.sport, none⟩

/-- An admitted request is executed once and answered (R553, R555). -/
theorem State.request_admitted (s : State) (cmd : Nat) (src : BitVec 128) (d : Dgram) (t : Nat) (f : State → MgmtAns)
    (h : (s.at t).admits cmd src d) :
    s.request cmd src d t f =
      .next ((f ((s.at t).taken src)).2.2.answered src (replyOf cmd src d (f ((s.at t).taken src)))) := by
  obtain ⟨h1, h2, h3, h4, h5, h6, h7⟩ := h
  obtain ⟨m, fr, -, -, hk⟩ := (s.at t).received_eq src
  unfold State.request
  generalize s.at t = u at *
  extract_lets s1 s2 m3 s3 l
  have hl : l = u.kept src := hk
  rw [if_neg (by simp [s1, h1]), if_neg (by simp [s1, h2]), if_neg (by simp [s1, h3]), if_neg (by simp [h4]), if_neg (by simp [h5]), hl, h7]
  dsimp only
  rw [if_neg (by omega)]
  rfl

end Sys2Proof.Machine
end

