-- ==== Sys2Proof/Proofs/CsrView.lean ====
section
/-! SUPPORT. What a register shows does not depend on the log, the management port or the update's deadline. -/

namespace Sys2Proof.Machine

/-- Two states whose registers outside the log, and whose blocks that registers show, are the same. -/
structure State.sameView (u x : State) : Prop where
  rd : ∀ a, logAddr a = false → x.rd a = u.rd a
  hammer : x.hammer = u.hammer
  core : x.core = u.core
  temper : x.temper = u.temper
  images : x.tongs.images = u.tongs.images
  shadow : x.shadow = u.shadow
  can : x.can = u.can
  now : x.now = u.now
  tuyere : x.tuyere = u.tuyere

section
variable {u x : State}

theorem State.sameView.get (h : u.sameView x) (f : Fd) (hf : logAddr f.addr = false) : x.get f = u.get f := by
  unfold State.get; rw [h.rd _ hf]

theorem State.sameView.cyc (h : u.sameView x) : x.cyc = u.cyc := by unfold State.cyc; rw [h.core]

theorem State.sameView.stallNow (h : u.sameView x) (a : Nat) (ha : logAddr a = false) : x.stallNow a = u.stallNow a := by
  have hadd : ∀ (f : Fd) (n : Nat), f.addr = a → (x.add f n).rd a = (u.add f n).rd a := by
    intro f n hfa
    subst hfa
    unfold State.add
    rw [State.rd_put_self, State.rd_put_self, h.get f ha, h.rd _ ha]
  have hheld : ∀ (f : Fd) (n : Nat), (if f.addr = a then (x.add f n).rd a else x.rd a) =
      if f.addr = a then (u.add f n).rd a else u.rd a := by
    intro f n
    split
    · next e => exact hadd f n e
    · exact h.rd a ha
  unfold State.stallNow
  simp only [h.cyc, h.hammer]
  rcases u.hammer.stall with _ | (_ | _ | _ | _)
  · exact h.rd a ha
  · exact hheld HAMMER_STALLW_COUNT _
  · exact hheld HAMMER_STALLW_COUNT _
  · exact hheld HAMMER_STALLA_ADMIT _
  · exact hheld HAMMER_STALLA_DRAIN _

theorem State.sameView.cycleTime (h : u.sameView x) : x.cycleTime = u.cycleTime := by
  have hnb : x.nominalBit = u.nominalBit := by
    unfold State.nominalBit
    simp only [h.get CANFD_NBT_NBRP (by decide), h.get CANFD_NBT_NTSEG1 (by decide), h.get CANFD_NBT_NTSEG2 (by decide)]
  unfold State.cycleTime
  rw [h.get CANFD_TTSTAT_TTSTATE (by decide), h.get CANFD_TTSTAT_CTIME (by decide), h.now, h.can, hnb]

theorem State.sameView.paceNow (h : u.sameView x) : x.paceNow = u.paceNow := by
  unfold State.paceNow State.groupStrm
  rw [h.hammer, h.temper, h.now, h.get TEMPER_PACECFG_TTL (by decide)]

theorem State.sameView.recData (h : u.sameView x) : x.recData = u.recData := by
  unfold State.recData State.recOf State.image
  rw [h.images, h.temper, h.get TEMPER_RECSEL_IMG (by decide), h.get TEMPER_RECSEL_HEAT (by decide),
    h.get TEMPER_RECSEL_VAR (by decide)]

theorem State.sameView.winPct (h : u.sameView x) (c : Nat) (hc : c < 10) : x.winPct c = u.winPct c := by
  unfold State.winPct State.valve
  rw [h.get (TUYERE_VCMD_WIN c) (by interval_cases c <;> decide), h.now, h.tuyere]

theorem State.sameView.snapWord (h : u.sameView x) (main : Bool) (sel i : Nat) (hs : logAddr sel = false) :
    x.snapWord main sel i = u.snapWord main sel i := by
  unfold State.snapWord
  rw [h.rd sel hs, h.shadow]

theorem nth_lt {base stride n a i : Nat} (h : nth base stride n a = some i) : i < n := by
  unfold nth at h
  split at h
  · next hc => cases h; exact hc.2.2
  · cases h

/-- A register outside the log shows the same word. -/
theorem State.sameView.csrView (h : u.sameView x) (a : Nat) (ha : logAddr a = false) : x.csrView a = u.csrView a := by
  have htok : ∀ t, x.tok t = u.tok t := fun t => by unfold State.tok; rw [h.hammer]
  have hmain : ∀ n, n < 4 → logAddr (HAMMER_SNAPSEL n) = false := by decide
  have hplane : ∀ n, n < 2 → logAddr (BELLOWS_SNAPSEL n) = false := by decide
  unfold State.csrView
  simp only [htok, h.hammer, h.core, h.stallNow a ha, h.rd a ha, h.cycleTime, h.paceNow, h.recData]
  iterate 14 refine ite_congr rfl (fun _ => rfl) (fun _ => ?_)
  split
  · next c hc => rw [h.winPct c (nth_lt hc)]
  · refine ite_congr rfl (fun hin => ?_) (fun _ => ite_congr rfl (fun hin => ?_) (fun _ => rfl))
    · exact h.snapWord _ _ _ (hmain _ (by unfold HAMMER_SNAPBUF at hin ⊢; omega))
    · exact h.snapWord _ _ _ (hplane _ (by unfold BELLOWS_SNAPBUF at hin ⊢; omega))

end

end Sys2Proof.Machine
end

