-- ==== Sys2Proof/Proofs/Notify.lean ====
section
/-! SUPPORT. Assertions that do not reach the rack manager leave its notifications, and notifications ended, resent and
dropped. -/

namespace Sys2Proof.Machine

/-! ### Assertions beside the rack manager -/

/-- From `u` to `v` no notification changed, and nothing held for the rack manager. -/
def State.rmKept (u v : State) : Prop := v.mgmt = u.mgmt ∧ ∀ n, (v.src n).heldRM = (u.src n).heldRM

theorem State.rmKept_refl (u : State) : u.rmKept u := ⟨rfl, fun _ => rfl⟩

theorem State.rmKept_trans {u v w : State} (h : u.rmKept v) (k : v.rmKept w) : u.rmKept w :=
  ⟨k.1.trans h.1, fun n => (k.2 n).trans (h.2 n)⟩

/-- A change beside the management port and the sources. -/
theorem State.rmKept_beside {u v : State} (hm : v.mgmt = u.mgmt) (hs : v.srcs = u.srcs) : u.rmKept v :=
  ⟨hm, fun n => by unfold State.src; rw [hs]⟩

theorem State.rmKept_put (u : State) (f : Fd) (x : Nat) : u.rmKept (u.put f x) := State.rmKept_beside rfl rfl

theorem State.src_setSrc (u : State) (n m : Nat) (x : Src) : (u.setSrc n x).src m = if m = n then x else u.src m :=
  Tab.get_set _ _ _ _ _

/-- A source replaced by one that holds the same for the rack manager. -/
theorem State.rmKept_setSrc (u : State) (n : Nat) (x : Src) (h : x.heldRM = (u.src n).heldRM) : u.rmKept (u.setSrc n x) := by
  refine ⟨rfl, fun m => ?_⟩
  rw [State.src_setSrc]
  split
  · next e => rw [e, h]
  · rfl

theorem State.rmKept_setNotice (u : State) (t : Nat) : u.rmKept (u.setNotice t) := by
  unfold State.setNotice; exact State.rmKept_beside rfl rfl

theorem State.rmKept_setCtx (u : State) (n : Nat) (c : Ctx) : u.rmKept (u.setCtx n c) := State.rmKept_beside rfl rfl

theorem State.rmKept_foldl {α : Type} (f : State → α → State) (l : List α) (h : ∀ s : State, ∀ x ∈ l, s.rmKept (f s x)) (s : State) :
    s.rmKept (l.foldl f s) := by
  induction l generalizing s with
  | nil => exact s.rmKept_refl
  | cons x r ih => exact State.rmKept_trans (h s x (by simp)) (ih (fun s y hy => h s y (by simp [hy])) _)

theorem State.rmKept_queueMsg (u : State) (n opc : Nat) (resp : Bool) (data : List Byte) (nop : Option Nat) :
    u.rmKept (u.queueMsg n opc resp data nop) := by
  unfold State.queueMsg
  extract_lets c x c'
  clear_value c'
  split
  · exact State.rmKept_setCtx _ _ _
  · exact State.rmKept_refl _

theorem State.rmKept_deliver_host (u : State) (n : Nat) : u.rmKept (u.deliver n 2) := by
  unfold State.deliver
  extract_lets x cnt prio seq
  rw [if_pos rfl]
  dsimp only
  generalize hq : u.queueMsg _ _ _ _ _ = s1
  have h1 : u.rmKept s1 := hq ▸ State.rmKept_queueMsg _ _ _ _ _ _
  have hx : x.heldRM = (s1.src n).heldRM := (h1.2 n).symm
  have h2 := State.rmKept_trans h1 (State.rmKept_setSrc s1 n { x with outH := some s1.now, lastH := s1.now, heldH := none } hx)
  have h3 := State.rmKept_trans h2 (State.rmKept_put _ (BIC_SRCSTAT_PENDT n) (setBit (s1.get (BIC_SRCSTAT_PENDT n)) 2 false))
  rw [if_pos rfl]
  split
  · exact State.rmKept_trans h3 (State.rmKept_trans (State.rmKept_put _ _ _) (State.rmKept_put _ _ _))
  · exact State.rmKept_trans h3 (State.rmKept_put _ _ _)

theorem State.rmKept_assign (u : State) (n t : Nat) (ht : t ≤ 2) : u.rmKept (u.assign n t) := by
  unfold State.assign
  split
  · exact State.rmKept_trans (State.rmKept_put _ _ _) (State.rmKept_setNotice _ _)
  · obtain rfl : t = 2 := by omega
    extract_lets x out s1
    have h1 : u.rmKept s1 := State.rmKept_put _ _ _
    refine State.rmKept_trans h1 ?_
    have hx : x.heldRM = (s1.src n).heldRM := (h1.2 n).symm
    clear_value s1
    simp only [if_true]
    split
    · rename_i _ held _
      clear_value held
      cases held with
      | none => exact State.rmKept_setSrc _ _ _ hx
      | some c =>
        dsimp only
        split
        · exact State.rmKept_trans (State.rmKept_put _ _ _) (State.rmKept_setSrc _ _ _ hx)
        · exact State.rmKept_setSrc _ _ _ hx
    · exact State.rmKept_deliver_host _ _

theorem State.rmKept_watch (u : State) (n : Nat) : u.rmKept (u.watch n) := by
  unfold State.watch
  split
  · exact State.rmKept_beside rfl rfl
  · exact State.rmKept_refl _

/-- A bit of a target other than the rack manager. -/
theorem target_le {ten t : Nat} (h4 : t < 4) (hb : bit ten t = true) (h3 : bit ten 3 = false) : t ≤ 2 := by
  by_contra hgt
  obtain rfl : t = 3 := by omega
  rw [hb] at h3; cases h3

theorem State.nextTarget_le (u : State) (n ten t : Nat) (h : u.nextTarget n ten = some t) (h3 : bit ten 3 = false) : t ≤ 2 := by
  unfold State.nextTarget at h
  extract_lets rr order wakes at h
  have hb := List.find?_some h
  have hm := List.mem_of_find?_eq_some h
  obtain ⟨i, -, rfl⟩ := List.mem_map.mp hm
  exact target_le (Nat.mod_lt _ (by decide)) (Bool.and_eq_true_iff.mp hb).1 h3

theorem State.rd_watch_cfg (u : State) (n m : Nat) (hm : m < 256) : (u.watch n).rd (BIC_SRCCFG m) = u.rd (BIC_SRCCFG m) := by
  unfold State.watch
  split
  · refine (State.rd_put_ne _ _ _ ?_).trans (State.rd_wr_ne _ _ ?_)
    · simp only [BIC_SRCCFG, BIC_STAT]; omega
    · simp only [BIC_SRCCFG, BELLOWS_PDSTAT3]; omega
  · rfl

theorem State.rmKept_route (u : State) (n : Nat) (hn : n < 256) (h3 : bit (u.get (BIC_SRCCFG_TEN n)) 3 = false) :
    u.rmKept (u.route n) := by
  unfold State.route
  extract_lets s ten
  have hs : u.rmKept s := u.rmKept_watch n
  have hten : bit ten 3 = false := by
    have : ten = u.get (BIC_SRCCFG_TEN n) := by unfold ten s State.get; rw [u.rd_watch_cfg n n hn]
    rw [this]; exact h3
  clear_value s ten
  refine State.rmKept_trans hs ?_
  split
  · refine State.rmKept_foldl _ _ (fun v t ht => ?_) _
    split
    · next hb => exact State.rmKept_assign _ _ _ (target_le (List.mem_range.mp ht) hb hten)
    · exact State.rmKept_refl _
  · split
    · exact State.rmKept_setSrc s n { s.src n with waits := true } rfl
    · next t ht =>
      exact State.rmKept_trans (State.rmKept_setSrc s n { s.src n with rr := t, waits := false } rfl)
        (State.rmKept_assign _ _ _ (s.nextTarget_le n ten t ht hten))

/-- An assertion of a source that is in no group and does not go to the rack manager. -/
theorem State.rmKept_raise (u : State) (n : Nat) (hn : n < 256) (hg : u.get (BIC_SRCCFG_GROUP n) = 0)
    (h3 : bit (u.get (BIC_SRCCFG_TEN n)) 3 = false) : u.rmKept (u.raise n) := by
  unfold State.raise
  extract_lets level s1 g gr gr' s2 x s3
  have hne : BIC_SRCCFG n ≠ BIC_SRCSTAT n := by unfold BIC_SRCCFG BIC_SRCSTAT; omega
  have h1 : u.rmKept s1 ∧ s1.rd (BIC_SRCCFG n) = u.rd (BIC_SRCCFG n) := by
    unfold s1; split
    · exact ⟨State.rmKept_put _ _ _, State.rd_put_ne _ _ _ hne⟩
    · exact ⟨State.rmKept_put _ _ _, State.rd_put_ne _ _ _ hne⟩
  obtain ⟨hk, hr⟩ := h1
  have hget : ∀ f : Fd, f.addr = BIC_SRCCFG n → s1.get f = u.get f := fun f hf => by unfold State.get; rw [hf, hr]
  have hg1 : g = 0 := (hget _ rfl).trans hg
  rw [if_pos hg1]
  exact State.rmKept_trans hk (State.rmKept_route _ _ hn (by rw [hget _ rfl]; exact h3))

end Sys2Proof.Machine
end

