-- ==== Sys2Proof/Proofs/Resend.lean ====
section
/-! SUPPORT. Notifications completed by the rack manager, sent again and dropped (R559, R570). -/

namespace Sys2Proof.Machine

/-! ### Completion -/

theorem logAddr_setSrcActive (n : Nat) (h : n < 256) : logAddr (BIC_SRCSTAT_ACTIVE n).addr = true := logAddr_src n h

/-- The rack manager completes a source of which nothing is held for it: its mark alone goes. -/
theorem State.msgComplete_idle (u : State) (n : Nat) (h : (u.src n).heldRM = none) :
    u.msgComplete n 3 = u ∨ ∃ a, u.msgComplete n 3 =
      (u.setSrc n { u.src n with outRM := none }).put (BIC_SRCSTAT_ACTIVE n) a := by
  unfold State.msgComplete
  simp only [h, Option.isSome_none, Bool.false_and, Bool.false_eq_true, if_false, show ¬ (3 : Nat) = 2 by decide]
  split
  · exact .inl rfl
  · exact .inr ⟨_, rfl⟩

theorem State.only_msgComplete (u : State) (n : Nat) (hn : n < 256) (h : (u.src n).heldRM = none) : u.only (u.msgComplete n 3) [] := by
  rcases u.msgComplete_idle n h with e | ⟨a, e⟩ <;> rw [e]
  · exact State.only_refl _ _
  · exact State.only_trans (State.only_setSrc _ _ _ _) (State.only_put _ _ _ _ (.inr (logAddr_src n hn)))

theorem State.rmKept_msgComplete (u : State) (n : Nat) (h : (u.src n).heldRM = none) : u.rmKept (u.msgComplete n 3) := by
  rcases u.msgComplete_idle n h with e | ⟨a, e⟩ <;> rw [e]
  · exact State.rmKept_refl _
  · exact State.rmKept_trans (State.rmKept_setSrc u n { u.src n with outRM := none } rfl) (State.rmKept_put _ _ _)

theorem State.rd_msgComplete (u : State) (n a : Nat) (h : (u.src n).heldRM = none) (ha : a ≠ BIC_SRCSTAT n) :
    (u.msgComplete n 3).rd a = u.rd a := by
  rcases u.msgComplete_idle n h with e | ⟨x, e⟩ <;> rw [e]
  exact State.rd_put_ne _ _ _ ha

/-! ### Sent again -/

/-- A notification after the resend timer: sent again 200 ms after the last time. -/
def Ntf.resent (now : Nat) (x : Ntf) : Ntf :=
  match x.sent with
  | some a => if a + 200 * ms ≤ now then { x with sent := some now } else x
  | none => x

theorem Ntf.resent_seq (now : Nat) (x : Ntf) : (x.resent now).seq = x.seq := by
  unfold Ntf.resent
  split
  · split <;> rfl
  · rfl

/-- From `u` to `v` frames of notifications were sent and their list is `l`. -/
def State.resentTo (u v : State) (l : List Ntf) : Prop :=
  ∃ w f, v = { u with mgmt := { u.mgmt with wire := w, ntf := l }, free := f }

/-- The entry of one number is replaced where no other has the number. -/
theorem map_replace (p r : List Ntf) (x y : Ntf) (hp : ∀ z ∈ p, z.seq ≠ x.seq) (hr : ∀ z ∈ r, z.seq ≠ x.seq) (f : Ntf → Ntf)
    (hf : f x = y) : (p ++ x :: r).map (fun z => if z.seq = x.seq then f z else z) = p ++ y :: r := by
  have hkeep : ∀ l : List Ntf, (∀ z ∈ l, z.seq ≠ x.seq) → l.map (fun z => if z.seq = x.seq then f z else z) = l :=
    fun l hl => (List.map_congr_left (fun z hz => if_neg (hl z hz))).trans (List.map_id _)
  rw [List.map_append, List.map_cons, hkeep p hp, hkeep r hr, if_pos rfl, hf]

theorem State.resendOne_resent (u v : State) (p r : List Ntf) (x : Ntf) (a : BitVec 128) (hd : u.notifyDst = some a)
    (hv : u.resentTo v (p ++ x :: r)) (hage : u.now < x.raised + 10 * sec) (hp : ∀ z ∈ p, z.seq ≠ x.seq)
    (hr : ∀ z ∈ r, z.seq ≠ x.seq) : u.resentTo (v.resendOne x) (p ++ x.resent u.now :: r) := by
  obtain ⟨w, f, rfl⟩ := hv
  unfold State.resendOne Ntf.resent
  rw [if_neg (by dsimp only; omega)]
  cases hs : x.sent with
  | none => exact ⟨w, f, rfl⟩
  | some b =>
    have hd' : State.notifyDst { u with mgmt := { u.mgmt with wire := w, ntf := p ++ x :: r }, free := f } = some a := hd
    rw [hd']
    dsimp only
    split
    · rw [map_replace p r x { x with sent := some u.now } hp hr (fun y => { y with sent := some u.now }) rfl]
      exact ⟨_, _, rfl⟩
    · exact ⟨w, f, rfl⟩

/-- The resend timer while no notification is 10 s old. -/
theorem State.foldl_resendOne_resent (u : State) (a : BitVec 128) (hd : u.notifyDst = some a) (r p : List Ntf) (v : State)
    (hv : u.resentTo v (p ++ r)) (hage : ∀ x ∈ r, u.now < x.raised + 10 * sec) (hnd : ((p ++ r).map (·.seq)).Nodup) :
    u.resentTo (r.foldl State.resendOne v) (p ++ r.map (Ntf.resent u.now)) := by
  induction r generalizing p v with
  | nil => exact hv
  | cons x r ih =>
    rw [List.map_append, List.map_cons, List.nodup_append] at hnd
    obtain ⟨hnp, hnr, hdis⟩ := hnd
    rw [List.nodup_cons] at hnr
    obtain ⟨hxr, hnr⟩ := hnr
    have hp : ∀ z ∈ p, z.seq ≠ x.seq := fun z hz => hdis _ (List.mem_map_of_mem hz) _ (by simp)
    have hr : ∀ z ∈ r, z.seq ≠ x.seq := fun z hz e => hxr (e ▸ List.mem_map_of_mem (f := (·.seq)) hz)
    have h1 := u.resendOne_resent v p r x a hd hv (hage x (by simp)) hp hr
    have h2 := ih (p ++ [x.resent u.now]) (v.resendOne x) (by simpa using h1) (fun y hy => hage y (by simp [hy])) (by
      rw [List.map_append, List.map_append, List.nodup_append, List.nodup_append]
      refine ⟨⟨hnp, by simp, ?_⟩, hnr, ?_⟩
      · intro m hm k hk
        simp only [List.map_cons, List.map_nil, List.mem_singleton, x.resent_seq] at hk
        rw [hk]
        obtain ⟨z, hz, rfl⟩ := List.mem_map.mp hm
        exact hp z hz
      · intro m hm k hk
        rw [← List.map_append, List.map_append, List.mem_append] at hm
        rcases hm with hm | hm
        · exact hdis m hm k (by simp [hk])
        · simp only [List.map_cons, List.map_nil, List.mem_singleton, x.resent_seq] at hm
          obtain ⟨z, hz, rfl⟩ := List.mem_map.mp hk
          rw [hm]
          exact (hr z hz).symm)
    simpa using h2

/-! ### Dropped -/

/-- From `u` to `v`, `k` notifications were dropped and the list is `l`. -/
structure State.droppedTo (u v : State) (k : Nat) (l : List Ntf) : Prop where
  only : u.onlyM v []
  held : ∀ n, (v.src n).heldRM = (u.src n).heldRM
  ntf : v.mgmt.ntf = l
  count : v.get MGMT_STAT_NTFDROP = min (u.get MGMT_STAT_NTFDROP + k) 65535

/-- A notification dropped is counted; the list of the others stays. -/
theorem State.mgmtDrop_ntf (u : State) :
    u.onlyM (u.mgmtDrop MGMT_STAT_NTFDROP).ntfSync [] ∧ u.rmKept (u.mgmtDrop MGMT_STAT_NTFDROP).ntfSync ∧
      (u.mgmtDrop MGMT_STAT_NTFDROP).ntfSync.get MGMT_STAT_NTFDROP = min (u.get MGMT_STAT_NTFDROP + 1) 65535 := by
  unfold State.mgmtDrop State.ntfSync
  refine ⟨State.onlyM_of_only ?_, ?_, ?_⟩
  · exact State.only_trans (State.only_inc _ _ _ (.inr (by decide))) (State.only_trans
      (State.only_put _ _ _ _ (.inr (by decide))) (State.only_put _ _ _ _ (.inr (by decide))))
  · exact State.rmKept_trans (State.rmKept_put u MGMT_STAT_NTFDROP _) (State.rmKept_trans (State.rmKept_put _ _ _)
      (State.rmKept_put _ _ _))
  · rw [State.get_put_apart _ MGMT_STAT_NTFOUT MGMT_STAT_NTFDROP _ (by decide) (by decide) (by decide),
      State.get_put_ne _ BELLOWS_ERRSUM_MGMT MGMT_STAT_NTFDROP _ (by decide)]
    exact State.get_inc_self u MGMT_STAT_NTFDROP (by decide) (by decide)

/-- A saturating count, one higher. -/
theorem min_count_succ (a k : Nat) : min (min (a + k) 65535 + 1) 65535 = min (a + (k + 1)) 65535 := by omega

theorem State.resendOne_dropped (u v : State) (k : Nat) (l : List Ntf) (x : Ntf) (hv : u.droppedTo v k l)
    (hage : x.raised + 10 * sec ≤ u.now) (hheld : (u.src x.src).heldRM = none) (hn : x.src < 256) :
    u.droppedTo (v.resendOne x) (k + 1) (l.filter (fun y => y.seq != x.seq)) := by
  obtain ⟨hv1, hv2, hv3, hv4⟩ := hv
  have hnow : v.now = u.now := by
    have := hv1.2.2
    rw [this]
  unfold State.resendOne
  rw [if_pos (by rw [hnow]; exact hage)]
  extract_lets m s1 s2
  have hs1 : v.onlyM s1 [] := State.onlyM_port v _ v.free []
  have hk1 : ∀ n, (s1.src n).heldRM = (u.src n).heldRM := fun n => hv2 n
  have hm1 : s1.mgmt.ntf = l.filter (fun y => y.seq != x.seq) := by rw [← hv3]
  have hc1 : s1.get MGMT_STAT_NTFDROP = v.get MGMT_STAT_NTFDROP := rfl
  obtain ⟨hs2, ⟨hm2, hk2⟩, hc2⟩ : s1.onlyM s2 [] ∧ s1.rmKept s2 ∧
      s2.get MGMT_STAT_NTFDROP = min (s1.get MGMT_STAT_NTFDROP + 1) 65535 := s1.mgmtDrop_ntf
  have hh : (s2.src x.src).heldRM = none := (hk2 _).trans ((hk1 _).trans hheld)
  clear_value s1
  clear_value s2
  refine ⟨State.onlyM_trans hv1 (State.onlyM_trans hs1 (State.onlyM_trans hs2
    (State.onlyM_of_only (s2.only_msgComplete _ hn hh)))), fun n => ?_, ?_, ?_⟩
  · exact ((s2.rmKept_msgComplete _ hh).2 n).trans ((hk2 n).trans (hk1 n))
  · rw [(s2.rmKept_msgComplete _ hh).1, hm2, hm1]
  · have hget : (s2.msgComplete x.src 3).get MGMT_STAT_NTFDROP = s2.get MGMT_STAT_NTFDROP := by
      unfold State.get
      rw [s2.rd_msgComplete _ _ hh (by simp only [MGMT_STAT, BIC_SRCSTAT]; omega)]
    rw [hget, hc2, hc1, hv4, min_count_succ]

/-- The resend timer where every notification is 10 s old. -/
theorem State.foldl_resendOne_dropped (u : State) (r : List Ntf) (k : Nat) (l : List Ntf) (v : State) (hv : u.droppedTo v k l)
    (hr : ∀ x ∈ r, x.raised + 10 * sec ≤ u.now ∧ (u.src x.src).heldRM = none ∧ x.src < 256) :
    u.droppedTo (r.foldl State.resendOne v) (k + r.length) (l.filter (fun y => r.all (fun x => y.seq != x.seq))) := by
  induction r generalizing k l v with
  | nil => simpa using hv
  | cons x r ih =>
    obtain ⟨h1, h2, h3⟩ := hr x (by simp)
    have := ih (k + 1) _ _ (u.resendOne_dropped v k l x hv h1 h2 h3) (fun y hy => hr y (by simp [hy]))
    rw [List.filter_filter] at this
    rw [List.foldl_cons, List.length_cons, show k + (r.length + 1) = k + 1 + r.length by omega]
    simpa only [List.all_cons, Bool.and_comm] using this

end Sys2Proof.Machine
end

