-- ==== Sys2Proof/Proofs/MgmtCommands.lean ====
section
/-! SUPPORT. What each management command reads and does in the state in which an admitted request is executed. -/

namespace Sys2Proof.Machine

/-! ### The state in which a request is executed -/

/-- Beside registers, log and port the request changes the deadline of an update. -/
theorem State.taken_frame (u : State) (src : BitVec 128) : ∃ b, u.taken src = { u with
    csr := (u.taken src).csr, evrec := (u.taken src).evrec, srcs := (u.taken src).srcs, grps := (u.taken src).grps
    cores := (u.taken src).cores, free := (u.taken src).free, tongs := { u.tongs with ctx := (u.taken src).tongs.ctx }
    mgmt := (u.taken src).mgmt, secb := b } := by
  obtain ⟨b, hb⟩ := u.touchUpdate_eq src
  obtain ⟨-, -, h⟩ := u.onlyM_taken src
  rw [hb] at h
  exact ⟨b, h⟩

theorem State.touchUpdate_rd (u : State) (src : BitVec 128) (a : Nat) : (u.touchUpdate src).rd a = u.rd a := by
  obtain ⟨b, hb⟩ := u.touchUpdate_eq src
  rw [hb]; rfl

/-- The registers outside the log, and what they show, are as at the request's arrival. -/
theorem State.sameView_taken (u : State) (src : BitVec 128) : u.sameView (u.taken src) := by
  obtain ⟨b, h⟩ := u.taken_frame src
  exact ⟨fun a ha => ((u.onlyM_taken src).1 a (by simp) ha).trans (u.touchUpdate_rd src a), by rw [h], by rw [h], by rw [h],
    by rw [h], by rw [h], by rw [h], by rw [h], by rw [h]⟩

/-- A register reached at the request's arrival is still reached. -/
theorem State.csrOn_taken (u : State) (src : BitVec 128) (a : Nat) (h : u.csrOn a = true) : (u.taken src).csrOn a = true := by
  have hd := u.domOn_taken_mono src
  unfold State.csrOn at h ⊢
  dsimp only at h ⊢
  split
  · next hm =>
    rw [if_pos hm] at h
    split
    · next h1 => rw [if_pos h1] at h; exact hd _ h
    · next h1 =>
      rw [if_neg h1] at h
      split
      · next h2 => rw [if_pos h2] at h; exact hd _ h
      · next h2 =>
        rw [if_neg h2] at h
        split
        · next h3 =>
          rw [if_pos h3, Bool.and_eq_true] at h
          rw [hd _ h.1, hd _ h.2]; rfl
        · next h3 =>
          rw [if_neg h3, Bool.and_eq_true, Bool.or_eq_true] at h
          rw [hd _ h.1, Bool.true_and, Bool.or_eq_true]
          exact h.2.imp_left (hd _)
  · next hm =>
    rw [if_neg hm] at h
    split
    · next h1 => rw [if_pos h1] at h; exact hd _ h
    · rfl

/-! ### Register access -/

theorem State.csrNotReady_taken (u : State) (src : BitVec 128) (l : List Nat) : (u.taken src).csrNotReady l = u.csrNotReady l := by
  unfold State.csrNotReady; rw [u.domOn_taken src (by decide)]

/-- A register that the management link reads without effect. -/
def State.readable (u : State) (a : Nat) : Prop :=
  a % 8 = 0 ∧ (findReg a).isSome = true ∧ u.csrOn a = true ∧ logAddr a = false ∧ a ∉ [HAMMER_TRDATA, QUENCH_TRDATA]

theorem State.regRead_readable (u : State) (p : Path) (a : Nat) (h : u.readable a) : u.regRead p a = (some (u.csrView a), u) := by
  obtain ⟨h8, hr, hon, hlog, htr⟩ := h
  have hcore : (a == BIC_CLAIM 0 || a == BIC_CLAIM 1 || a == BIC_COMPLETE 0 || a == BIC_COMPLETE 1) = false := by
    simp only [Bool.or_eq_false_iff, beq_eq_false_iff_ne]
    refine ⟨⟨⟨?_, ?_⟩, ?_⟩, ?_⟩ <;> (rintro rfl; revert hlog; decide)
  simp only [List.mem_cons, List.not_mem_nil, or_false, not_or] at htr
  unfold State.regRead
  dsimp only
  rw [hcore, if_neg (by
    rintro (h | h | h | h)
    · exact h h8
    · rw [Option.isNone_iff_eq_none] at h; rw [h] at hr; cases hr
    · rw [hon] at h; cases h
    · cases h), if_neg htr.1, if_neg htr.2]

theorem State.csrReadBad_readable (u : State) (l : List Nat) (h : ∀ a ∈ l, u.readable a) : u.csrReadBad l = none := by
  refine List.find?_eq_none.mpr (fun a ha => ?_)
  rw [u.regRead_readable .rm a (h a ha)]
  simp

theorem State.csrReadAll_readable (u : State) (l : List Nat) (b : List Byte) (h : ∀ a ∈ l, u.readable a) :
    u.csrReadAll l b = (some (b ++ l.flatMap (fun a => toBytes 8 (u.csrView a).toNat)), u) := by
  induction l generalizing b with
  | nil => simp [State.csrReadAll]
  | cons a r ih =>
    rw [State.csrReadAll, u.regRead_readable .rm a (h a (by simp))]
    dsimp only
    rw [ih _ (fun x hx => h x (by simp [hx]))]
    simp

/-- Where an address holds no register the read is refused. -/
theorem State.csrReadBad_some (u : State) (l : List Nat) (h : ∃ a ∈ l, findReg a = none) : ∃ a, u.csrReadBad l = some a := by
  obtain ⟨a, ha, hr⟩ := h
  refine Option.isSome_iff_exists.mp (List.find?_isSome.mpr ⟨a, ha, ?_⟩)
  have hbad : u.regRead .rm a = (none, u.csrRefused .rm a) := by
    unfold State.regRead
    exact if_pos (.inr (.inl (by rw [hr]; rfl)))
  rw [hbad]; rfl

/-- A write of one word. -/
theorem State.csrWriteAll_one (u : State) (a v : Nat) :
    u.csrWriteAll [(a, v)] 0 = ((u.regWrite .rm a (BitVec.ofNat 64 v)).1, if (u.regWrite .rm a (BitVec.ofNat 64 v)).1 then 1 else 0,
      (u.regWrite .rm a (BitVec.ofNat 64 v)).2) := by
  rw [State.csrWriteAll]
  rcases u.regWrite .rm a (BitVec.ofNat 64 v) with ⟨_ | _, w⟩ <;> rfl

/-! ### Notifications -/

/-- The numbers and sources of the notifications are those at the request's arrival. -/
theorem State.ntf_taken (u : State) (src : BitVec 128) (hg : u.get (BIC_SRCCFG_GROUP 31) = 0)
    (h3 : bit (u.get (BIC_SRCCFG_TEN 31)) 3 = false) :
    ((u.taken src).mgmt.ntf = u.mgmt.ntf ∨ (u.taken src).mgmt.ntf = u.mgmt.ntf.map (Ntf.flushed u.now)) ∧
      ∀ n, ((u.taken src).src n).heldRM = (u.src n).heldRM := by
  obtain ⟨m, f, h, hn, -⟩ := u.received_eq src
  obtain ⟨b, hb⟩ := u.touchUpdate_eq src
  rw [hb] at h
  have hget : ∀ g : Fd, (u.received src).get g = u.get g := fun g => by unfold State.get; rw [u.rd_received]
  have hk : (u.received src).rmKept (u.taken src) := by
    unfold State.taken
    split
    · exact State.rmKept_raise _ 31 (by decide) ((hget _).trans hg) (by rw [hget]; exact h3)
    · exact State.rmKept_refl _
  have hm : (u.received src).mgmt = m := by rw [h]
  have hs : ∀ n, (u.received src).src n = u.src n := fun n => by rw [h]; rfl
  exact ⟨by rw [hk.1, hm]; exact hn, fun n => by rw [hk.2 n, hs]⟩

/-- The list of notifications without those of one number. -/
def State.withoutNtf (u : State) (q : Nat) : State :=
  { u with mgmt := { u.mgmt with ntf := u.mgmt.ntf.filter (fun y => y.seq != q) } }

theorem map_seq_filter (l : List Ntf) (q : Nat) :
    (l.filter (fun y => y.seq != q)).map (·.seq) = (l.map (·.seq)).filter (· != q) := by
  rw [List.filter_map]; rfl

/-- A notification acknowledged: its source is completed, and nothing held follows. -/
theorem State.acknowledged (u : State) (q n : Nat) (hn : n < 256) (hh : (u.src n).heldRM = none) :
    u.onlyM (((u.withoutNtf q).ntfSync).msgComplete n 3) [] ∧
      (((u.withoutNtf q).ntfSync).msgComplete n 3).mgmt.ntf = u.mgmt.ntf.filter (fun y => y.seq != q) := by
  have h1 : u.onlyM (u.withoutNtf q) [] := State.onlyM_port u _ u.free []
  have hk : (u.withoutNtf q).rmKept (u.withoutNtf q).ntfSync := State.rmKept_put _ _ _
  have h2 : (u.withoutNtf q).only (u.withoutNtf q).ntfSync [] := State.only_ntfSync _ _
  have hh2 : ((u.withoutNtf q).ntfSync.src n).heldRM = none := (hk.2 n).trans hh
  refine ⟨State.onlyM_trans h1 (State.onlyM_of_only (State.only_trans h2 (State.only_msgComplete _ n hn hh2))), ?_⟩
  rw [(State.rmKept_msgComplete _ n hh2).1, hk.1]
  rfl

/-! ### Event records and snapshots -/

theorem State.findRec_congr {u v : State} (h : v.evrec = u.evrec) (q : Nat) : v.findRec q = u.findRec q := by
  unfold State.findRec; rw [h]

theorem State.recordsFrom_congr {u v : State} (h : v.evrec = u.evrec) (n q : Nat) : v.recordsFrom n q = u.recordsFrom n q := by
  induction n generalizing q with
  | zero => rfl
  | succ n ih => rw [State.recordsFrom, State.recordsFrom, State.findRec_congr h]; simp only [ih]

theorem State.firstReadable_congr {u v : State} (h : v.evrec = u.evrec) (q : Nat) : v.firstReadable q = u.firstReadable q := by
  unfold State.firstReadable; rw [h]

theorem leAt_lt (l : List Byte) (o n : Nat) : leAt l o n < 256 ^ n := by
  have key : ∀ (l : List Byte) (n : Nat), ofBytes (l.take n) < 256 ^ n := by
    intro l n
    induction n generalizing l with
    | zero => simp [ofBytes]
    | succ n ih =>
      cases l with
      | nil => simp [ofBytes]
      | cons b r =>
        have h1 := ih r
        have h2 : b.toNat < 256 := b.isLt
        rw [List.take_succ_cons, ofBytes, pow_succ]
        omega
  exact key _ _

/-- The status of a Bellows capture put: its number, tag and source, and the time. -/
def State.captureStat (u : State) (gen tag src cyc : Nat) (main : Bool) : State :=
  ((((u.put BELLOWS_SNAPSTAT_GEN gen).put BELLOWS_SNAPSTAT_TAG tag).putB BELLOWS_SNAPSTAT_MAINVALID main).put
    BELLOWS_SNAPSTAT_SRC src).put BELLOWS_SNAPMGMT_MCYC cyc

theorem State.captureStat_gen (u : State) (gen tag src cyc : Nat) (main : Bool) :
    (u.captureStat gen tag src cyc main).get BELLOWS_SNAPSTAT_GEN = gen % 2 ^ 32 := by
  unfold State.captureStat State.putB
  rw [State.get_put_ne _ _ _ _ (by decide), State.get_put_apart _ _ _ _ (by decide) (by decide) (by decide),
    State.get_put_apart _ _ _ _ (by decide) (by decide) (by decide),
    State.get_put_apart _ _ _ _ (by decide) (by decide) (by decide)]
  exact State.get_put_self _ _ _ (by decide) (by decide)

theorem State.captureStat_tag (u : State) (gen tag src cyc : Nat) (main : Bool) :
    (u.captureStat gen tag src cyc main).get BELLOWS_SNAPSTAT_TAG = tag % 2 ^ 16 := by
  unfold State.captureStat State.putB
  rw [State.get_put_ne _ _ _ _ (by decide), State.get_put_apart _ _ _ _ (by decide) (by decide) (by decide),
    State.get_put_apart _ _ _ _ (by decide) (by decide) (by decide)]
  exact State.get_put_self _ _ _ (by decide) (by decide)

theorem State.captureStat_main (u : State) (gen tag src cyc : Nat) (main : Bool) :
    (u.captureStat gen tag src cyc main).on BELLOWS_SNAPSTAT_MAINVALID = main := by
  unfold State.captureStat State.on
  rw [State.get_put_ne _ _ _ _ (by decide), State.get_put_apart _ _ _ _ (by decide) (by decide) (by decide)]
  exact State.on_putB_self _ _ _ rfl (by decide)

theorem State.captureStat_src (u : State) (gen tag src cyc : Nat) (main : Bool) :
    (u.captureStat gen tag src cyc main).get BELLOWS_SNAPSTAT_SRC = src % 2 ^ 3 := by
  unfold State.captureStat
  rw [State.get_put_ne _ _ _ _ (by decide)]
  exact State.get_put_self _ _ _ (by decide) (by decide)

theorem State.only_captureStat (u : State) (gen tag src cyc : Nat) (main : Bool) :
    u.only (u.captureStat gen tag src cyc main) [BELLOWS_SNAPSTAT, BELLOWS_SNAPMGMT] := by
  have hput : ∀ (s : State) (f : Fd) (x : Nat), f.addr ∈ [BELLOWS_SNAPSTAT, BELLOWS_SNAPMGMT] →
      s.only (s.put f x) [BELLOWS_SNAPSTAT, BELLOWS_SNAPMGMT] := fun s f x hf => State.only_put s f x _ (.inl hf)
  unfold State.captureStat State.putB
  exact State.only_trans (hput u _ _ (by decide)) (State.only_trans (hput _ _ _ (by decide)) (State.only_trans
    (hput _ _ _ (by decide)) (State.only_trans (hput _ _ _ (by decide)) (hput _ _ _ (by decide)))))

/-- A capture of Bellows: the shadow taken, then its status. -/
theorem State.bellowsCapture_eq (u : State) (src tag : Nat) (main : Bool) : ∃ sh cyc, u.bellowsCapture src tag main =
    State.captureStat { u with shadow := sh } (u.get BELLOWS_SNAPSTAT_GEN + 1) tag src cyc main := by
  unfold State.bellowsCapture
  extract_lets sh s1
  refine ⟨sh, s1.mclk / 20, ?_⟩
  clear_value sh
  unfold State.captureStat
  rfl

/-- What a capture of Bellows leaves: a state of which the status is known, and only the shadow taken beside. -/
theorem State.bellowsCapture_spec (u : State) (src tag : Nat) (main : Bool) : ∃ v sh, u.bellowsCapture src tag main = v ∧
    v.get BELLOWS_SNAPSTAT_GEN = (u.get BELLOWS_SNAPSTAT_GEN + 1) % 2 ^ 32 ∧ v.get BELLOWS_SNAPSTAT_TAG = tag % 2 ^ 16 ∧
    v.on BELLOWS_SNAPSTAT_MAINVALID = main ∧ v.get BELLOWS_SNAPSTAT_SRC = src % 2 ^ 3 ∧
    State.only { u with shadow := sh } v [BELLOWS_SNAPSTAT, BELLOWS_SNAPMGMT] := by
  obtain ⟨sh, cyc, h⟩ := u.bellowsCapture_eq src tag main
  exact ⟨_, sh, h, State.captureStat_gen _ _ _ _ _ _, State.captureStat_tag _ _ _ _ _ _, State.captureStat_main _ _ _ _ _ _,
    State.captureStat_src _ _ _ _ _ _, State.only_captureStat _ _ _ _ _ _⟩

/-! ### The commands -/

/-- An admitted request answers `pay` with status `st` and leaves `x`, but for the response. -/
theorem State.request_answers {s : State} {cmd : Nat} {src : BitVec 128} {d : Dgram} {t : Nat} {f : State → MgmtAns}
    {P : State → Prop} (h : (s.at t).admits cmd src d) (st : Nat) (pay : List Byte) (x : State)
    (hf : f ((s.at t).taken src) = (st, pay, x))
    (hP : ∀ v, v.replied cmd src d st pay → (∃ w l, v = { x with mgmt := { x.mgmt with wire := w, seen := l } }) → P v) :
    ∃ v, s.request cmd src d t f = .next v ∧ P v := by
  have hr := s.request_admitted cmd src d t f h
  rw [hf] at hr
  refine ⟨_, hr, hP _ (x.replied_answered cmd src d st pay) ?_⟩
  obtain ⟨l, hl⟩ := x.answered_eq src (replyOf cmd src d (st, pay, x))
  exact ⟨_, l, hl⟩

/-- The response is of the management port. -/
theorem State.onlyM_response {w x v : State} {l : List Nat} (h : w.onlyM x l)
    (hv : ∃ m k, v = { x with mgmt := { x.mgmt with wire := m, seen := k } }) : w.onlyM v l := by
  obtain ⟨m, k, rfl⟩ := hv
  exact State.onlyM_trans h (State.onlyM_port x _ x.free l)

/-- A change of the cooling plane on both sides. -/
theorem State.onlyM_cool {w x : State} {l : List Nat} (h : w.onlyM x l) (c : Cool) :
    State.onlyM { w with cool := c } { x with cool := c } l := by
  obtain ⟨h1, h2, h3⟩ := h
  exact ⟨h1, h2, by rw [h3]⟩

/-- A change of the shadow on both sides. -/
theorem State.onlyM_shadow {w x : State} {l : List Nat} (h : w.onlyM x l) (c : Tab Word) :
    State.onlyM { w with shadow := c } { x with shadow := c } l := by
  obtain ⟨h1, h2, h3⟩ := h
  exact ⟨h1, h2, by rw [h3]⟩

/-- A change of the snapshot request on both sides. -/
theorem State.onlyM_snapReq {w x : State} {l : List Nat} (h : w.onlyM x l) (c : Option SnapReq) :
    State.onlyM { w with snapReq := c } { x with snapReq := c } l := by
  obtain ⟨h1, h2, h3⟩ := h
  exact ⟨h1, h2, by rw [h3]⟩


end Sys2Proof.Machine
end

