-- ==== Sys2Proof/Proofs/MgmtAccess.lean ====
section
/-! MgmtAccess (O46). Each management command run from the arrival of its request. -/

namespace Sys2Proof.Machine

theorem State.get_at (s : State) (t : Nat) (f : Fd) : (s.at t).get f = s.get f := by unfold State.get; rw [s.rd_at]

theorem State.src_at (s : State) (t n : Nat) : (s.at t).src n = s.src n := by
  unfold State.src State.at; extract_lets dt m; split <;> rfl

theorem State.snapReq_at (s : State) (t : Nat) : (s.at t).snapReq = s.snapReq := by
  unfold State.at; extract_lets dt m; split <;> rfl

section
variable {s : State} {src : BitVec 128} {d : Dgram} {t : Nat}

/-! ### Identity, keep-alive and facility cap -/

theorem runs_ident (h : (s.at t).admits 1 src d) (hp : d.pay = []) : s.runs (.ident src d t) (fun v =>
    v.replied 1 src d 0 (orderCode ++ toBytes 2 0x00A1 ++ serialBytes) ∧ ((s.at t).touchUpdate src).onlyM v []) := by
  change ∃ v, execIdent src d t s = .next v ∧ _
  unfold execIdent
  refine State.request_answers h 0 (orderCode ++ toBytes 2 0x00A1 ++ serialBytes) ((s.at t).taken src) ?_
    (fun v hv hm => ⟨hv, State.onlyM_response ((s.at t).onlyM_taken src) hm⟩)
  rw [hp]
  rfl

theorem runs_keepalive (h : (s.at t).admits 2 src d) (hp : d.pay = []) : s.runs (.keepalive src d t) (fun v =>
    v.replied 2 src d 0 [] ∧ v.cool.kaAt = (s.at t).now ∧
      State.onlyM { (s.at t).touchUpdate src with cool := { (s.at t).cool with kaAt := (s.at t).now } } v []) := by
  change ∃ v, execKeepalive src d t s = .next v ∧ _
  unfold execKeepalive
  obtain ⟨b, hb⟩ := (s.at t).taken_frame src
  have hc : { ((s.at t).taken src).cool with kaAt := ((s.at t).taken src).now } = { (s.at t).cool with kaAt := (s.at t).now } := by
    rw [hb]
  refine State.request_answers h 0 [] { (s.at t).taken src with cool := { (s.at t).cool with kaAt := (s.at t).now } } ?_
    (fun v hv hm => ⟨hv, ?_, State.onlyM_response (State.onlyM_cool ((s.at t).onlyM_taken src) _) hm⟩)
  · rw [hp, ← hc]
    rfl
  · obtain ⟨m, k, rfl⟩ := hm
    rfl

theorem runs_setFacility (h : (s.at t).admits 5 src d) (hp : d.pay.length = 2) : s.runs (.setFacility src d t) (fun v =>
    v.replied 5 src d 0 [] ∧ State.onlyM { (s.at t).touchUpdate src with
      cool := { (s.at t).cool with facility := min (leAt d.pay 0 2) 1600 } } v []) := by
  change ∃ v, execSetFacility src d t s = .next v ∧ _
  unfold execSetFacility
  obtain ⟨b, hb⟩ := (s.at t).taken_frame src
  have hc : ((s.at t).taken src).cool = (s.at t).cool := by rw [hb]
  refine State.request_answers h 0 [] { (s.at t).taken src with
      cool := { (s.at t).cool with facility := min (leAt d.pay 0 2) 1600 } } ?_
    (fun v hv hm => ⟨hv, State.onlyM_response (State.onlyM_cool ((s.at t).onlyM_taken src) _) hm⟩)
  rw [if_neg (not_not_intro hp), ← hc]
  rfl

/-! ### Registers -/

theorem runs_csrRead_notReady (h : (s.at t).admits 3 src d) (hp : d.pay.length = 10) (h1 : 1 ≤ leAt d.pay 8 2)
    (h2 : leAt d.pay 8 2 ≤ 128) (hr : (s.at t).csrNotReady (csrSpan (leAt d.pay 0 8) (leAt d.pay 8 2)) = true) :
    s.runs (.csrRead src d t) (fun v => v.replied 3 src d 3 [] ∧ ((s.at t).touchUpdate src).onlyM v []) := by
  change ∃ v, execCsrRead src d t s = .next v ∧ _
  unfold execCsrRead
  refine State.request_answers h 3 [] ((s.at t).taken src) ?_
    (fun v hv hm => ⟨hv, State.onlyM_response ((s.at t).onlyM_taken src) hm⟩)
  dsimp only
  rw [if_neg (by omega), if_pos (((s.at t).csrNotReady_taken src _).trans hr)]
  rfl

theorem runs_csrRead (h : (s.at t).admits 3 src d) (hp : d.pay.length = 10) (h1 : 1 ≤ leAt d.pay 8 2)
    (h2 : leAt d.pay 8 2 ≤ 128) (hr : (s.at t).csrNotReady (csrSpan (leAt d.pay 0 8) (leAt d.pay 8 2)) = false)
    (hl : ∀ a ∈ csrSpan (leAt d.pay 0 8) (leAt d.pay 8 2), (s.at t).readable a) : s.runs (.csrRead src d t) (fun v =>
      v.replied 3 src d 0 ((csrSpan (leAt d.pay 0 8) (leAt d.pay 8 2)).flatMap (fun a => toBytes 8 ((s.at t).csrView a).toNat)) ∧
        ((s.at t).touchUpdate src).onlyM v []) := by
  change ∃ v, execCsrRead src d t s = .next v ∧ _
  unfold execCsrRead
  refine State.request_answers h 0 _ ((s.at t).taken src) ?_
    (fun v hv hm => ⟨hv, State.onlyM_response ((s.at t).onlyM_taken src) hm⟩)
  generalize s.at t = u at *
  dsimp only
  generalize csrSpan (leAt d.pay 0 8) (leAt d.pay 8 2) = l at *
  have hx : ∀ a ∈ l, (u.taken src).readable a := fun a ha => by
    obtain ⟨h8, hreg, hon, hlog, htr⟩ := hl a ha
    exact ⟨h8, hreg, u.csrOn_taken src a hon, hlog, htr⟩
  have hview : ∀ a ∈ l, toBytes 8 ((u.taken src).csrView a).toNat = toBytes 8 (u.csrView a).toNat := fun a ha => by
    obtain ⟨-, -, -, hlog, -⟩ := hl a ha
    rw [(u.sameView_taken src).csrView a hlog]
  rw [if_neg (by omega), if_neg (by rw [u.csrNotReady_taken src, hr]; decide), (u.taken src).csrReadBad_readable l hx,
    (u.taken src).csrReadAll_readable l [] hx]
  simp only [List.nil_append, List.flatMap_congr hview]
  rfl

theorem runs_csrRead_refused (h : (s.at t).admits 3 src d) (hp : d.pay.length = 10) (h1 : 1 ≤ leAt d.pay 8 2)
    (h2 : leAt d.pay 8 2 ≤ 128) (hr : (s.at t).csrNotReady (csrSpan (leAt d.pay 0 8) (leAt d.pay 8 2)) = false)
    (hl : ∃ a ∈ csrSpan (leAt d.pay 0 8) (leAt d.pay 8 2), findReg a = none) : s.runs (.csrRead src d t) (fun v =>
      v.replied 3 src d 2 [] ∧ (s.at t).recorded v 0x0203 ∧ ((s.at t).touchUpdate src).onlyM v [HAMMER_ERRSUM]) := by
  change ∃ v, execCsrRead src d t s = .next v ∧ _
  unfold execCsrRead
  obtain ⟨a, ha⟩ := ((s.at t).taken src).csrReadBad_some _ hl
  obtain ⟨hrec, honly, -⟩ := ((s.at t).taken src).csrRefused_spec .rm a
  refine State.request_answers h 2 [] (((s.at t).taken src).csrRefused .rm a) ?_ (fun v hv hm => ⟨hv, ?_,
    State.onlyM_response (State.onlyM_trans (State.onlyM_mono ((s.at t).onlyM_taken src) (by simp))
      (State.onlyM_of_only honly)) hm⟩)
  · dsimp only
    rw [if_neg (by omega), if_neg (by rw [(s.at t).csrNotReady_taken src, hr]; decide), ha]
    rfl
  · obtain ⟨m, k, rfl⟩ := hm
    unfold State.recorded at hrec ⊢
    rwa [(s.at t).evrec_taken src] at hrec

theorem runs_csrWrite (h : (s.at t).admits 4 src d) (hp : d.pay.length = 24) (h1 : leAt d.pay 8 2 = 1)
    (h2 : leAt d.pay 10 6 = 0) (hr : (s.at t).csrNotReady [leAt d.pay 0 8] = false) : s.runs (.csrWrite src d t) (fun v =>
      ∃ x : State, ((s.at t).touchUpdate src).onlyM x [] ∧
        let r := x.regWrite .rm (leAt d.pay 0 8) (BitVec.ofNat 64 (leAt d.pay 16 8))
        v = { r.2 with mgmt := v.mgmt } ∧
        v.replied 4 src d (if r.1 then 0 else 2) (toBytes 2 (if r.1 then 1 else 0))) := by
  change ∃ v, execCsrWrite src d t s = .next v ∧ _
  unfold execCsrWrite
  refine State.request_answers h _ _ (((s.at t).taken src).regWrite .rm (leAt d.pay 0 8) (BitVec.ofNat 64 (leAt d.pay 16 8))).2 ?_
    (fun v hv hm => ⟨_, (s.at t).onlyM_taken src, ?_, hv⟩)
  · have hspan : csrSpan (leAt d.pay 0 8) 1 = [leAt d.pay 0 8] := rfl
    dsimp only
    rw [h1, hspan, if_neg (by omega), if_neg (by rw [(s.at t).csrNotReady_taken src, hr]; decide)]
    simp only [List.zipIdx_cons, List.zipIdx_nil, List.map_cons, List.map_nil, Nat.mul_zero, Nat.add_zero, State.csrWriteAll_one]
    rfl
  · obtain ⟨m, k, rfl⟩ := hm
    rfl

/-! ### Notifications -/

theorem runs_notifyAck (h : (s.at t).admits 0x13 src d) (hp : d.pay.length = 4) (h3 : bit (s.get (BIC_SRCCFG_TEN 31)) 3 = false)
    (hg : s.get (BIC_SRCCFG_GROUP 31) = 0)
    (hheld : ∀ x ∈ s.mgmt.ntf, x.seq = leAt d.pay 0 4 → (s.src x.src).heldRM = none ∧ x.src < 256) :
    s.runs (.notifyAck src d t) (fun v => v.replied 0x13 src d 0 [] ∧
      v.mgmt.ntf.map (·.seq) = (s.mgmt.ntf.map (·.seq)).filter (· != leAt d.pay 0 4) ∧ ((s.at t).touchUpdate src).onlyM v []) := by
  change ∃ v, execNotifyAck src d t s = .next v ∧ _
  unfold execNotifyAck
  obtain ⟨hntf, hsrc⟩ := (s.at t).ntf_taken src ((s.get_at t _).trans hg) (by rw [s.get_at]; exact h3)
  rw [s.mgmt_at] at hntf
  have hfl : ∀ y : Ntf, y ∈ ((s.at t).taken src).mgmt.ntf → ∃ x ∈ s.mgmt.ntf, x.seq = y.seq ∧ x.src = y.src := by
    intro y hy
    rcases hntf with e | e <;> rw [e] at hy
    · exact ⟨y, hy, rfl, rfl⟩
    · obtain ⟨x, hx, rfl⟩ := List.mem_map.mp hy
      exact ⟨x, hx, (x.flushed_seq _).symm, (x.flushed_src _).symm⟩
  have hseq : ((s.at t).taken src).mgmt.ntf.map (·.seq) = s.mgmt.ntf.map (·.seq) := by
    rcases hntf with e | e <;> rw [e]
    rw [List.map_map]
    exact List.map_congr_left (fun x _ => x.flushed_seq _)
  cases hf : ((s.at t).taken src).mgmt.ntf.find? (fun x => x.seq == leAt d.pay 0 4) with
  | none =>
    refine State.request_answers h 0 [] ((s.at t).taken src) ?_
      (fun v hv hm => ⟨hv, ?_, State.onlyM_response ((s.at t).onlyM_taken src) hm⟩)
    · rw [if_neg (not_not_intro hp), hf]
      rfl
    · obtain ⟨m, k, rfl⟩ := hm
      refine hseq.trans (List.filter_eq_self.mpr ?_).symm
      rw [← hseq]
      intro q hq
      obtain ⟨y, hy, rfl⟩ := List.mem_map.mp hq
      simpa using List.find?_eq_none.mp hf y hy
  | some y =>
    have hyq : y.seq = leAt d.pay 0 4 := by simpa using List.find?_some hf
    obtain ⟨x, hx, hxs, hxn⟩ := hfl y (List.mem_of_find?_eq_some hf)
    obtain ⟨hh, hn⟩ := hheld x hx (hxs.trans hyq)
    rw [hxn] at hh hn
    obtain ⟨ho, hl⟩ := ((s.at t).taken src).acknowledged y.seq y.src hn ((hsrc _).trans (by rw [s.src_at]; exact hh))
    refine State.request_answers h 0 [] _ ?_
      (fun v hv hm => ⟨hv, ?_, State.onlyM_response (State.onlyM_trans ((s.at t).onlyM_taken src) ho) hm⟩)
    · rw [if_neg (not_not_intro hp), hf]
      rfl
    · obtain ⟨m, k, rfl⟩ := hm
      refine (congrArg (List.map (·.seq)) hl).trans ?_
      rw [map_seq_filter, hseq, hyq]

/-- The resend timer where no notification is 10 s old. -/
theorem runs_notifyResend_again (hage : ∀ x ∈ s.mgmt.ntf, (s.at t).now < x.raised + 10 * sec)
    (hnd : (s.mgmt.ntf.map (·.seq)).Nodup) (hd : (s.at t).notifyDst.isSome = true) : s.runs (.notifyResend t) (fun v =>
      (s.at t).onlyM v [] ∧ v.mgmt.ntf = s.mgmt.ntf.map (Ntf.resent (s.at t).now)) := by
  obtain ⟨a, ha⟩ := Option.isSome_iff_exists.mp hd
  rw [← s.mgmt_at t] at hage hnd ⊢
  refine ⟨(s.at t).mgmt.ntf.foldl State.resendOne (s.at t), rfl, ?_⟩
  obtain ⟨w, f, hw⟩ := (s.at t).foldl_resendOne_resent a ha (s.at t).mgmt.ntf [] (s.at t) ⟨_, _, rfl⟩ hage hnd
  rw [hw]
  exact ⟨State.onlyM_port _ _ f [], rfl⟩

/-- The resend timer where every notification is 10 s old. -/
theorem runs_notifyResend_drop (hall : ∀ x ∈ s.mgmt.ntf, x.raised + 10 * sec ≤ (s.at t).now ∧ (s.src x.src).heldRM = none ∧
    x.src < 256) : s.runs (.notifyResend t) (fun v => v.mgmt.ntf = [] ∧ (s.at t).onlyM v [] ∧
      v.get MGMT_STAT_NTFDROP = min (s.get MGMT_STAT_NTFDROP + s.mgmt.ntf.length) 65535) := by
  have hcap : s.get MGMT_STAT_NTFDROP < 65536 := bitsOf_lt _ _ _
  have h0 : (s.at t).droppedTo (s.at t) 0 s.mgmt.ntf :=
    ⟨State.onlyM_refl _ _, fun _ => rfl, by rw [s.mgmt_at], by rw [s.get_at]; omega⟩
  obtain ⟨honly, -, hl, hc⟩ := (s.at t).foldl_resendOne_dropped s.mgmt.ntf 0 s.mgmt.ntf (s.at t) h0
    (fun x hx => by rw [s.src_at]; exact hall x hx)
  refine ⟨(s.at t).mgmt.ntf.foldl State.resendOne (s.at t), rfl, ?_⟩
  rw [s.mgmt_at]
  refine ⟨hl.trans (List.filter_eq_nil_iff.mpr fun y hy hall => ?_), honly, ?_⟩
  · simpa using List.all_eq_true.mp hall y hy
  · rw [hc, s.get_at, Nat.zero_add]

/-! ### Event records and snapshots -/

theorem runs_eventRead (h : (s.at t).admits 0x0C src d) (hp : d.pay.length = 6) : s.runs (.eventRead src d t) (fun v =>
    ((s.at t).touchUpdate src).onlyM v [] ∧
      let l := match s.firstReadable (leAt d.pay 0 4) with
        | some q => s.recordsFrom (min 40 (leAt d.pay 4 2)) q
        | none => []
      v.replied 0x0C src d 0 (toBytes 8 (s.rd EVREC_HEAD).toNat ++ l.flatMap Evt.bytes)) := by
  change ∃ v, execEventRead src d t s = .next v ∧ _
  unfold execEventRead
  have hev : ((s.at t).taken src).evrec = s.evrec := ((s.at t).evrec_taken src).trans (s.evrec_at t)
  have hhead : ((s.at t).taken src).rd EVREC_HEAD = s.rd EVREC_HEAD := ((s.at t).rd_taken src (by decide)).trans (s.rd_at t _)
  refine State.request_answers h 0 _ ((s.at t).taken src) ?_
    (fun v hv hm => ⟨State.onlyM_response ((s.at t).onlyM_taken src) hm, hv⟩)
  rw [if_neg (not_not_intro hp)]
  simp only [State.firstReadable_congr hev, State.recordsFrom_congr hev, hhead]
  rfl

theorem runs_mSnap_bellows (h : (s.at t).admits 0x0E src d) (hp : d.pay.length = 2) (hd : (s.at t).domOn 192 = false) :
    s.runs (.mSnap src d t) (fun v => v.replied 0x0E src d 0 [] ∧
      v.get BELLOWS_SNAPSTAT_GEN = (s.get BELLOWS_SNAPSTAT_GEN + 1) % 2 ^ 32 ∧ v.get BELLOWS_SNAPSTAT_TAG = leAt d.pay 0 2 ∧
      v.on BELLOWS_SNAPSTAT_MAINVALID = false ∧ v.get BELLOWS_SNAPSTAT_SRC = 4 ∧
      State.only { (s.at t).touchUpdate src with mgmt := v.mgmt, shadow := v.shadow } v [BELLOWS_SNAPSTAT, BELLOWS_SNAPMGMT]) := by
  change ∃ v, execMSnap src d t s = .next v ∧ _
  unfold execMSnap
  have hgen : ((s.at t).taken src).get BELLOWS_SNAPSTAT_GEN = s.get BELLOWS_SNAPSTAT_GEN :=
    (((s.at t).sameView_taken src).get _ (by decide)).trans (s.get_at t _)
  have htag : leAt d.pay 0 2 % 2 ^ 16 = leAt d.pay 0 2 := Nat.mod_eq_of_lt (leAt_lt d.pay 0 2)
  obtain ⟨v0, sh, hcap, h1, h2, h3, h4, hcapOnly⟩ := ((s.at t).taken src).bellowsCapture_spec 4 (leAt d.pay 0 2) false
  have honly := State.onlyM_trans (State.onlyM_mono (State.onlyM_shadow ((s.at t).onlyM_taken src) sh)
    (m := [BELLOWS_SNAPSTAT, BELLOWS_SNAPMGMT]) (by simp)) (State.onlyM_of_only hcapOnly)
  refine State.request_answers h 0 [] v0 ?_ (fun v hv hm => ⟨hv, ?_, ?_, ?_, ?_, ?_⟩)
  · rw [if_neg (not_not_intro hp), State.mgmtSnap, (s.at t).domOn_taken src (by decide), hd, if_neg (by decide), hcap]
    rfl
  · obtain ⟨m, k, rfl⟩ := hm
    exact h1.trans (by rw [hgen])
  · obtain ⟨m, k, rfl⟩ := hm
    exact h2.trans htag
  · obtain ⟨m, k, rfl⟩ := hm
    exact h3
  · obtain ⟨m, k, rfl⟩ := hm
    exact h4
  · have hsh : v.shadow = sh := by
      obtain ⟨m, k, rfl⟩ := hm
      obtain ⟨-, -, h3⟩ := honly
      rw [h3]
    rw [hsh]
    exact State.onlyM_response honly hm

theorem runs_mSnap_main (h : (s.at t).admits 0x0E src d) (hp : d.pay.length = 2) (hd : (s.at t).domOn 192 = true)
    (hreq : s.snapReq = none) : s.runs (.mSnap src d t) (fun v => v.replied 0x0E src d 0 [] ∧
      v.snapReq = some ⟨4, leAt d.pay 0 2, s.get TONGS_JOBSTAT_RUNJOB, (s.at t).snapPos, (s.at t).launchAt 4⟩ ∧
      State.only { (s.at t).touchUpdate src with mgmt := v.mgmt, snapReq := v.snapReq } v []) := by
  change ∃ v, execMSnap src d t s = .next v ∧ _
  unfold execMSnap
  have hsv := (s.at t).sameView_taken src
  have hrun : ((s.at t).taken src).get TONGS_JOBSTAT_RUNJOB = s.get TONGS_JOBSTAT_RUNJOB :=
    (hsv.get _ (by decide)).trans (s.get_at t _)
  have hpos : ((s.at t).taken src).snapPos = (s.at t).snapPos := by unfold State.snapPos; rw [hsv.hammer]
  have hlaunch : ((s.at t).taken src).launchAt 4 = (s.at t).launchAt 4 := by unfold State.launchAt State.cyc; rw [hsv.core]
  have hnone : ((s.at t).taken src).snapReq = none := by
    obtain ⟨b, hb⟩ := (s.at t).taken_frame src
    rw [hb]
    exact (s.snapReq_at t).trans hreq
  generalize hr : (some ⟨4, leAt d.pay 0 2, s.get TONGS_JOBSTAT_RUNJOB, (s.at t).snapPos, (s.at t).launchAt 4⟩ :
    Option SnapReq) = r
  refine State.request_answers h 0 [] { (s.at t).taken src with snapReq := r } ?_ (fun v hv hm => ⟨hv, ?_, ?_⟩)
  · rw [if_neg (not_not_intro hp), State.mgmtSnap, (s.at t).domOn_taken src (by decide), if_pos hd, State.snapRequest]
    dsimp only
    rw [hnone]
    dsimp only
    rw [hrun, hpos, hlaunch, hr]
    rfl
  · obtain ⟨m, k, rfl⟩ := hm
    rfl
  · have hsr : v.snapReq = r := by
      obtain ⟨m, k, rfl⟩ := hm
      rfl
    rw [hsr]
    exact State.onlyM_response (State.onlyM_snapReq ((s.at t).onlyM_taken src) r) hm

end

/-- Settles O46: what an admitted request changes before its command (`State.onlyM_taken`) and by its response
(`State.onlyM_response`) is of the management port and the log; each command is followed from there. What log entries
101, 116, 127, 129, 136 and 137 say of payloads and limits, 145 of GEN going from all ones to 0, and 157 of the
response's port are the model's choices. -/
theorem mgmtAccess : Obligations.MgmtAccess := by
  intro s src d t u pay w only
  refine ⟨runs_ident, runs_keepalive, ?_, runs_csrWrite, runs_setFacility, runs_notifyAck, runs_notifyResend_again,
    runs_notifyResend_drop, runs_eventRead, ?_⟩
  · intro h hp h1 h2 l
    exact ⟨runs_csrRead_notReady h hp h1 h2, fun hr => ⟨runs_csrRead h hp h1 h2 hr, runs_csrRead_refused h hp h1 h2 hr⟩⟩
  · exact fun h hp => ⟨runs_mSnap_bellows h hp, runs_mSnap_main h hp⟩

end Sys2Proof.Machine
end

