-- ==== Sys2Proof/Proofs/Handover.lean ====
section
/-! SUPPORT. How a bundle of one X-slot or N-slot word issues: what its effects may touch of Hammer while they hand work to
another unit, and that nothing else follows. -/

namespace Sys2Proof.Machine

/-! ### What a word that hands work over may touch -/

/-- From `u` to `v` the memory and the Anvils are as they were, and Hammer but for its tokens, the descriptors a store may still
meet, and the job's group. -/
def State.handsOver (u v : State) : Prop :=
  v.mem = u.mem ∧ v.anvils = u.anvils ∧
  v.hammer = { u.hammer with
    tok := v.hammer.tok, descs := v.hammer.descs, group := v.hammer.group, follow := v.hammer.follow }

theorem State.handsOver_trans {u v w : State} (h : u.handsOver v) (k : v.handsOver w) : u.handsOver w := by
  obtain ⟨h1, h2, h3⟩ := h
  obtain ⟨k1, k2, k3⟩ := k
  exact ⟨k1.trans h1, k2.trans h2, by rw [k3, h3]⟩

theorem State.handsOver_of_tokensOnly {u v : State} (h : u.tokensOnly v) : u.handsOver v := by
  obtain ⟨h1, h2, h3⟩ := h
  exact ⟨h1, h2, by rw [h3]⟩

/-! ### The bundle -/

/-- An effect that hands work to another unit. -/
def Flight.hands (f : Flight) : Bool :=
  match f.eff with
  | .xop _ _ => true
  | .crc _ _ _ _ => true
  | .nop _ => true
  | _ => false

theorem linked_hands (s : State) (l : List Flight) (n u : Nat) (h : ∀ f ∈ l, f.hands = true) : s.linked l n u = s := by
  unfold State.linked
  refine foldl_keep _ _ _ (fun f hf b => ?_)
  have hf := h f hf
  unfold Flight.hands at hf
  split at hf <;> simp_all

/-- The effects of a word's bundle, from the opening state on. -/
def State.effects (s : State) (h : Hd) (l : List Flight) : State :=
  l.foldl (State.issueEff s.hammer.pos (h.len + 1) false (s.hammer.tok.all (fun t => t.2.count == 0))) s.opening

/-- The position passed, after effects that handed work over. -/
def State.passed (s X : State) (h : Hd) : State := X.stepped s.hammer.pos (s.hammer.pc + (h.len + 1))

section
variable {s X : State} {h : Hd} {slots : List Nat} (hs : s.sole h slots) (hX : s.opening.handsOver X)
include hs hX

theorem issueEnd_passed :
    (X.closing s.hammer.pos s.hammer.pc (h.len + 1)).issueEnd s.hammer.pos = s.passed X h := by
  obtain ⟨_, _, _, _, _, _, _, hmk, hfl, hfa, hre, _⟩ := hs
  obtain ⟨-, -, hXh⟩ := hX
  have hXf : X.hammer.flight = [] := by rw [hXh]; exact hfl
  rw [State.closing_plain _ _ _ _ (by rw [hXh]; exact hmk) (by rw [hXh]; exact hre)]
  have hZf : (s.passed X h).hammer.flight = [] := hXf
  rw [show X.stepped s.hammer.pos (s.hammer.pc + (h.len + 1)) = s.passed X h from rfl,
    State.commitAt_none _ _ (by rw [hZf]; simp)]
  exact State.issueEnd_plain _ _ (show X.hammer.faults = [] by rw [hXh]; exact hfa)
    (show X.hammer.marker = none by rw [hXh]; exact hmk)

/-- The frame of a word that has handed its work over. -/
theorem handed_passed : s.handed (s.passed X h) h := by
  obtain ⟨htk, _, _, _, _, _, _, _, _, hfa, _, _⟩ := hs
  have hend : s.hammer.ending = none := by simp [State.taking] at htk; exact htk.2
  obtain ⟨-, hXa, hXh⟩ := hX
  refine ⟨rfl, rfl, ?_, ?_, ?_, ?_, rfl, ?_, ?_, hXa⟩
  · show X.hammer.open_ = false; rw [hXh]; rfl
  · show X.hammer.s = _; rw [hXh]; rfl
  · show X.hammer.amask = _; rw [hXh]; rfl
  · show X.hammer.run = _; rw [hXh]; rfl
  · show X.hammer.faults = []; rw [hXh]; exact hfa
  · show X.hammer.ending = none; rw [hXh]; exact hend

theorem flight_passed : (s.passed X h).hammer.flight = [] := by
  obtain ⟨_, _, _, _, _, _, _, _, hfl, _, _, _⟩ := hs
  show X.hammer.flight = []
  rw [hX.2.2]; exact hfl

end

theorem byte_passed {s X : State} (hX : s.opening.handsOver X) (h : Hd) (a : Nat) : (s.passed X h).byte a = s.byte a := by
  show Tab.get memDefault X.mem (phys a) = _
  rw [hX.1]; rfl

/-- A legal word alone in its bundle whose effects hand work to units that can take it issues with them. -/
theorem slotOp_hands (s : State) (h : Hd) (slots : List Nat) (legal : Bool) (eff : State → List Flight) (hs : s.sole h slots)
    (hl : legal = true) (he : ∀ f ∈ eff s, f.hands = true)
    (ht : ∀ k, k < 16 → tokIncr (eff s) k = 0 ∨ (s.tok k).count + tokIncr (eff s) k ≤ 255)
    (ha : s.admissible (eff s) = true) (hX : s.opening.handsOver (s.effects h (eff s))) :
    s.slotOp h (.plain slots legal [] eff) = .next (s.passed (s.effects h (eff s)) h) := by
  have hso := slotOp_issue s h (.plain slots legal [] eff) hs hl rfl (by simp [SlotOp.plain]) (waitFail_zero s) rfl
    (by
      rw [List.all_eq_true]
      intro k hk
      rw [Bool.or_eq_true, beq_iff_eq]
      exact (ht k (List.mem_range.mp hk)).imp_right decide_eq_true) ha
  rw [hso]
  simp only [SlotOp.plain]
  rw [linked_hands _ _ _ _ he]
  exact congrArg _ (issueEnd_passed hs hX)

/-! ### Reads and registers at the opening -/

theorem State.get_opening (s : State) (f : Fd) (h1 : f.addr ≠ HAMMER_ISSUECNT) (h2 : f.addr ≠ HAMMER_PCSTAT) :
    s.opening.get f = s.get f :=
  (State.get_put_ne _ HAMMER_PCSTAT_PC f _ h2).trans (State.get_put_ne _ HAMMER_ISSUECNT_COUNT f _ h1)

/-- Where no store is younger than 8 positions, an asynchronous read sees the memory as it is (R200). -/
theorem State.drawStale_none (s : State) (n : Nat) (h : s.hammer.recent = []) : s.drawStale n = ([], s) := by
  unfold State.drawStale
  rw [h]; rfl

/-! ### Registers alone -/

/-- From `u` to `v` registers alone. -/
def State.csrOnly (u v : State) : Prop := v = { u with csr := v.csr }

theorem State.csrOnly_refl (u : State) : u.csrOnly u := rfl

theorem State.csrOnly_trans {u v w : State} (h : u.csrOnly v) (k : v.csrOnly w) : u.csrOnly w := by
  unfold State.csrOnly at *
  rw [k, h]

theorem State.csrOnly_put (u : State) (f : Fd) (x : Nat) : u.csrOnly (u.put f x) := rfl

theorem State.csrOnly_putB (u : State) (f : Fd) (x : Bool) : u.csrOnly (u.putB f x) := rfl

section
variable {u v : State} (h : u.csrOnly v)
include h

theorem State.csrOnly_hammer : v.hammer = u.hammer := by rw [h]
theorem State.csrOnly_mem : v.mem = u.mem := by rw [h]
theorem State.csrOnly_anvils : v.anvils = u.anvils := by rw [h]
theorem State.csrOnly_crucs : v.crucs = u.crucs := by rw [h]

end

theorem State.csrOnly_crucStat (u : State) (k : Nat) : u.csrOnly (u.crucStat k) := by
  unfold State.crucStat
  extract_lets c s1 s2
  have h1 : u.csrOnly s1 := State.csrOnly_trans (State.csrOnly_put _ _ _) (State.csrOnly_trans (State.csrOnly_put _ _ _)
    (State.csrOnly_put _ _ _))
  have h2 : s1.csrOnly s2 := State.csrOnly_trans (State.csrOnly_putB _ _ _) (State.csrOnly_putB _ _ _)
  exact State.csrOnly_trans h1 (State.csrOnly_trans h2 (State.csrOnly_putB _ _ _))

/-! ### Tokens -/

theorem State.tok_setTok (u : State) (t k : Nat) (x : Tok) : (u.setTok t x).tok k = if k = t then x else u.tok k :=
  Tab.get_set _ _ _ _ _

theorem State.tok_tokUp (u : State) (t n k : Nat) :
    (u.tokUp t n).tok k = if k = t then { u.tok t with count := (u.tok t).count + n } else u.tok k :=
  u.tok_setTok _ _ _

theorem State.tokensOnly_tokUp (u : State) (t n : Nat) : u.tokensOnly (u.tokUp t n) := ⟨rfl, rfl, rfl⟩

/-- The tokens after a completion for the running job. -/
theorem State.tok_tokDone (u : State) (j t : Nat) (f : Option Fail) (h : u.hammer.run = some j) (k : Nat) :
    ((u.tokDone j t f).tok k = if k = t then
      { u.tok t with
        count := (u.tok t).count - 1
        fail := (u.tok t).fail.or f
        failAt := if (u.tok t).fail.isNone && f.isSome then u.now else (u.tok t).failAt }
      else u.tok k) := by
  unfold State.tokDone
  rw [if_neg (by simp [h])]
  cases f with
  | none => exact (u.tok_setTok _ _ _).trans (by simp)
  | some e =>
    refine (u.tok_setTok _ _ _).trans ?_
    cases (u.tok t).fail <;> simp

end Sys2Proof.Machine
end

