-- ==== Sys2Proof/Proofs/Exchange.lean ====
section
/-! ExchangeWords (O17), first part. Exchange words: one operation joins the queue of each addressed unit. -/

namespace Sys2Proof.Machine

/-! ### One operation -/

/-- Beside the unit's queue an operation that joins it writes registers. -/
theorem State.csrOnly_pushX (u : State) (n : Nat) (o : XOp) : (u.setXq n (u.xqOf n ++ [o])).csrOnly (u.pushX n o) := by
  unfold State.pushX
  extract_lets v
  have h : (u.setXq n (u.xqOf n ++ [o])).csrOnly v := rfl
  split
  · exact State.csrOnly_trans h (State.csrOnly_trans (State.csrOnly_crucStat _ _) (State.csrOnly_crucStat _ _))
  · exact h

theorem State.pushX_hammer (u : State) (n : Nat) (o : XOp) : (u.pushX n o).hammer = u.hammer := by
  rw [u.csrOnly_pushX n o]; rfl

theorem State.tokensOnly_pushX (u : State) (n : Nat) (o : XOp) : u.tokensOnly (u.pushX n o) := by
  refine State.tokensOnly_beside ?_ ?_ ?_ <;> rw [u.csrOnly_pushX n o] <;> rfl

theorem State.xqOf_pushX (u : State) (n : Nat) (o : XOp) (m : Nat) :
    (u.pushX n o).xqOf m = if m = n then u.xqOf n ++ [o] else u.xqOf m := by
  rw [u.csrOnly_pushX n o]
  exact Tab.get_set _ _ _ _ _

theorem issueEff_xop (n w : Nat) (stop idle : Bool) (u : State) (k : Nat) (o : XOp) (h : u.hammer.recent = []) :
    State.issueEff n w stop idle u ⟨0, .xop k o⟩ =
      (u.pushX k { o with stale := [], refused := !u.xferOk o }).tokUp o.tok 1 := by
  unfold State.issueEff
  dsimp only
  rw [u.drawStale_none n h]

/-! ### One operation for each unit -/

/-- From `u` to `v` an operation of token `t` has joined the queue of each unit of the list: `mk k` for unit `k`, with nothing
stale. -/
def State.enlisted (u v : State) (l : List Nat) (mk : Nat → XOp) (t : Nat) : Prop :=
  u.tokensOnly v ∧ (v.tok t).count = (u.tok t).count + l.length ∧ (∀ k, k ≠ t → v.tok k = u.tok k) ∧
  ∀ k, if k ∈ l then ∃ r, v.xqOf k = u.xqOf k ++ [{ mk k with stale := [], refused := r }] else v.xqOf k = u.xqOf k

theorem foldl_issueEff_xop (n w : Nat) (stop idle : Bool) (mk : Nat → XOp) (t : Nat) (hmk : ∀ k, (mk k).tok = t) (l : List Nat)
    (hl : l.Nodup) (u : State) (h : u.hammer.recent = []) :
    u.enlisted ((l.map (fun k => (⟨0, .xop k (mk k)⟩ : Flight))).foldl (State.issueEff n w stop idle) u) l mk t := by
  induction l generalizing u with
  | nil => exact ⟨u.tokensOnly_refl, rfl, fun _ _ => rfl, fun k => by simp⟩
  | cons a r ih =>
    rw [List.map_cons, List.foldl_cons, issueEff_xop _ _ _ _ _ _ _ h]
    obtain ⟨ha, hr⟩ := List.nodup_cons.mp hl
    set o : XOp := { mk a with stale := [], refused := !u.xferOk (mk a) } with ho
    set v := (u.pushX a o).tokUp (mk a).tok 1 with hv
    have hpush : ∀ k, (u.pushX a o).tok k = u.tok k := fun k => by unfold State.tok; rw [u.pushX_hammer]
    have hvt : ∀ k, v.tok k = if k = t then { u.tok t with count := (u.tok t).count + 1 } else u.tok k := fun k => by
      rw [hv, State.tok_tokUp, hmk, hpush, hpush]
    have hvx : ∀ k, v.xqOf k = if k = a then u.xqOf a ++ [o] else u.xqOf k := u.xqOf_pushX a o
    have huv : u.tokensOnly v := State.tokensOnly_trans (u.tokensOnly_pushX a o) (State.tokensOnly_tokUp _ _ _)
    obtain ⟨h1, h2, h3, h4⟩ := ih hr v (by rw [huv.2.2]; exact h)
    refine ⟨State.tokensOnly_trans huv h1, ?_, fun k hk => ?_, fun k => ?_⟩
    · rw [h2, hvt, if_pos rfl, List.length_cons]
      dsimp only
      omega
    · rw [h3 k hk, hvt, if_neg hk]
    · have hk := h4 k
      by_cases hka : k = a
      · subst hka
        rw [if_neg ha, hvx, if_pos rfl] at hk
        rw [if_pos List.mem_cons_self]
        exact ⟨_, hk⟩
      · rw [hvx, if_neg hka] at hk
        simpa only [List.mem_cons, hka, false_or] using hk

/-! ### The words -/

theorem tokIncr_xop (mk : Nat → XOp) (t : Nat) (hmk : ∀ k, (mk k).tok = t) (l : List Nat) (k : Nat) :
    tokIncr (l.map (fun u => (⟨0, .xop u (mk u)⟩ : Flight))) k = if t = k then l.length else 0 := by
  unfold tokIncr
  rw [List.filter_map, List.length_map]
  by_cases h : t = k
  · rw [if_pos h, List.filter_eq_self.mpr (fun u _ => by simp [hmk, h])]
  · rw [if_neg h, List.filter_eq_nil_iff.mpr (fun u _ => by simp [hmk, h]), List.length_nil]

theorem admissible_xop (s : State) (mk : Nat → XOp) (l : List Nat) (ho : s.frameOpen = true)
    (hq : ∀ u ∈ l, (s.xqOf u).length < 32) : s.admissible (l.map (fun u => (⟨0, .xop u (mk u)⟩ : Flight))) = true := by
  unfold State.admissible
  rw [List.all_eq_true]
  intro f hf
  obtain ⟨u, hu, rfl⟩ := List.mem_map.mp hf
  have h : (Tab.get (fun _ => []) s.xq u).length < 32 := hq u hu
  simp [ho, h]

/-- The units that an exchange word addresses (R129). -/
def State.addressed (s : State) (f : XEf) : List Nat := if f.bc = 0 then [f.hid] else s.maskedHearths

theorem State.addressed_nodup (s : State) (f : XEf) : (s.addressed f).Nodup := by
  unfold State.addressed State.maskedHearths
  split
  · exact List.nodup_singleton _
  · exact List.nodup_range.filter _

/-- A legal exchange word alone in its bundle puts one operation in the queue of each unit it addresses. -/
theorem exchangeWord_queued (s : State) (h : Hd) (f : XEf) (legal : Bool) (mk : State → Nat → XOp) (hs : s.sole h [7])
    (hl : legal = true) (hr : s.hammer.recent = []) (ho : s.frameOpen = true) (hq : ∀ u ∈ s.addressed f, (s.xqOf u).length < 32)
    (ht : (s.tok f.tok).count + (s.addressed f).length ≤ 255) (hmk : ∀ u, (mk s u).tok = f.tok) :
    ∃ t, s.slotOp h (.plain [7] legal [] (fun s => (s.addressed f).map (fun u => ⟨0, .xop u (mk s u)⟩))) = .next t ∧
      s.handed t h ∧ t.hammer.flight = [] ∧ (∀ x, t.byte x = s.byte x) ∧
      (t.tok f.tok).count = (s.tok f.tok).count + (s.addressed f).length ∧ (∀ k, k ≠ f.tok → t.tok k = s.tok k) ∧
      ∀ u, if u ∈ s.addressed f then ∃ r, t.xqOf u = s.xqOf u ++ [{ mk s u with stale := [], refused := r }]
        else t.xqOf u = s.xqOf u := by
  set l := s.addressed f
  obtain ⟨h1, h2, h3, h4⟩ := foldl_issueEff_xop s.hammer.pos (h.len + 1) false (s.hammer.tok.all (fun t => t.2.count == 0)) (mk s)
    f.tok hmk l (s.addressed_nodup f) s.opening hr
  have hX := State.handsOver_of_tokensOnly h1
  refine ⟨_, slotOp_hands s h [7] legal _ hs hl (fun g hg => ?_) (fun k _ => ?_) (admissible_xop s (mk s) l ho hq) hX,
    handed_passed hs hX, flight_passed hs hX, byte_passed hX h, h2, h3, h4⟩
  · obtain ⟨u, -, rfl⟩ := List.mem_map.mp hg
    rfl
  · rw [tokIncr_xop (mk s) f.tok hmk]
    by_cases hk : f.tok = k
    · subst hk
      exact .inr (by rw [if_pos rfl]; exact ht)
    · exact .inl (if_neg hk)

end Sys2Proof.Machine
end

