-- ==== Sys2Proof/Proofs/CrucibleWords.lean ====
section
/-! ExchangeWords (O17), second part. Crucible commands: a descriptor that can be read and is legal joins its queue, and one
refused fails its token. -/

namespace Sys2Proof.Machine

/-! ### What reading the descriptor leaves -/

/-- A register that neither counts corrected errors nor sums errors up keeps its value where a range is corrected. -/
theorem State.rd_correctRange (u : State) (a n : Nat) {b : Nat} (h1 : ∀ key, b ≠ (errHome key).2.1.addr)
    (h2 : b ≠ HAMMER_ERRSUM) : (u.correctRange a n).rd b = u.rd b := by
  have hc : ∀ (v : State) key, (v.correct key).rd b = v.rd b := by
    intro v key
    unfold State.correct
    extract_lets w
    have hw : w.rd b = v.rd b := (State.rd_put_ne _ HAMMER_ERRSUM_MEMCE _ h2).trans (State.rd_put_ne _ _ _ (h1 key))
    split
    · exact hw
    · exact hw
  unfold State.correctRange
  generalize u.errUnits 1 a n = l
  induction l generalizing u with
  | nil => rfl
  | cons x r ih => exact (ih (u.correct x)).trans (hc u x)

/-- Where counters of corrected errors lie, beside a Crucible's and a stack's registers. -/
theorem errHome_ce_beside (key k : Nat) :
    CRUC_CSEQ k ≠ (errHome key).2.1.addr ∧ HEARTH_STKSTAT k ≠ (errHome key).2.1.addr := by
  unfold errHome
  split <;> simp only [HEARTH_HSECNT, ANVIL_SECNT, HAMMER_SECNT, HEARTH_STKERR, HEARTH_STKSTAT, CRUC_CSEQ] <;> omega

theorem State.fenced_correctRange (u : State) (a n k : Nat) : (u.correctRange a n).fenced k = u.fenced k := by
  unfold State.fenced State.on State.get
  rw [u.rd_correctRange a n (fun key => (errHome_ce_beside key k).2) (by simp only [HEARTH_STKSTAT, HAMMER_ERRSUM]; omega)]

theorem State.nextSeq_correctRange (u : State) (a n k : Nat) :
    (u.correctRange a n).get (CRUC_CSEQ_NEXT k) = u.get (CRUC_CSEQ_NEXT k) := by
  unfold State.get
  rw [u.rd_correctRange a n (fun key => (errHome_ce_beside key k).1) (by simp only [CRUC_CSEQ, HAMMER_ERRSUM]; omega)]

/-- The opening of a bundle leaves what a stack's status shows. -/
theorem State.stackStatus_opening (s : State) (k : Nat) (f : Fd) (hf : f.addr = HEARTH_STKSTAT k) : s.opening.get f = s.get f :=
  s.get_opening f (by rw [hf]; simp only [HEARTH_STKSTAT, HAMMER_ISSUECNT]; omega)
    (by rw [hf]; simp only [HEARTH_STKSTAT, HAMMER_PCSTAT]; omega)

theorem State.fenced_opening (s : State) (k : Nat) : s.opening.fenced k = s.fenced k := by
  unfold State.fenced State.on
  rw [s.stackStatus_opening k _ rfl]

theorem State.reachable_opening (s : State) (r : Region) : s.opening.reachable r = s.reachable r := by
  have hst : ∀ k, s.opening.get (HEARTH_STKSTAT_STATE k) = s.get (HEARTH_STKSTAT_STATE k) :=
    fun k => s.stackStatus_opening k _ rfl
  cases r <;> simp only [State.reachable, s.fenced_opening, hst, s.domOn_opening]

theorem State.rangeOk_opening (s : State) (a n : Nat) : s.opening.rangeOk a n = s.rangeOk a n := by
  unfold State.rangeOk
  simp only [s.reachable_opening]

/-! ### Admission -/

theorem State.rd_crucStat (u : State) (k : Nat) {a : Nat} (h : a ≠ CRUC_QSTAT k) : (u.crucStat k).rd a = u.rd a := by
  unfold State.crucStat
  extract_lets c s1 s2
  have h1 : s1.rd a = u.rd a := ((State.rd_put_ne _ (CRUC_QSTAT_HQ k) _ h).trans (State.rd_put_ne _ (CRUC_QSTAT_PQ k) _ h)).trans
    (State.rd_put_ne _ (CRUC_QSTAT_NQ k) _ h)
  have h2 : s2.rd a = s1.rd a :=
    (State.rd_put_ne _ (CRUC_QSTAT_BWAIT k) _ h).trans (State.rd_put_ne _ (CRUC_QSTAT_RUN k) _ h)
  exact (State.rd_put_ne _ (CRUC_QSTAT_FHOLD k) _ h).trans (h2.trans h1)

theorem State.cruc_setCruc (u : State) (k m : Nat) (c : Cruc) : (u.setCruc k c).cruc m = if m = k then c else u.cruc m :=
  Tab.get_set _ _ _ _ _

/-- A command that has joined queue `q` of Crucible `k` under the next sequence number. -/
structure State.joined (u v : State) (k q : Nat) (d : BitVec 512) (src : CSrc) : Prop where
  hammer : v.hammer = u.hammer
  mem : v.mem = u.mem
  anvils : v.anvils = u.anvils
  others : ∀ m, m ≠ k → v.cruc m = u.cruc m
  next : v.get (CRUC_CSEQ_NEXT k) = (u.get (CRUC_CSEQ_NEXT k) + 1) % 2 ^ 32
  last : ∃ x, (v.cruc k).queue q = (u.cruc k).queue q ++ [x] ∧ x.desc = d ∧ x.seq = u.get (CRUC_CSEQ_NEXT k) ∧
    x.src = src ∧ x.queue = q

/-- A command at the end of a queue. -/
def Cruc.enqueue (c : Cruc) (q : Nat) (x : CCmd) : Cruc :=
  match q with
  | 0 => { c with p := c.p ++ [x] }
  | 1 => { c with n := c.n ++ [x] }
  | _ => { c with h := c.h ++ [x] }

theorem Cruc.queue_enqueue (c : Cruc) (q : Nat) (x : CCmd) : (c.enqueue q x).queue q = c.queue q ++ [x] := by
  unfold Cruc.enqueue
  split <;> simp_all [Cruc.queue]

/-- A legal descriptor joins its queue under the next sequence number (R286). -/
theorem State.crucAdmit_legal (u : State) (k q : Nat) (d : BitVec 512) (src : CSrc) (seed : Word) (hf : u.fenced k = false)
    (hd : descCheck k d = 0) :
    u.crucAdmit k q d src seed =
      ((u.setCruc k ((u.cruc k).enqueue q ⟨d, u.get (CRUC_CSEQ_NEXT k), src, seed, q⟩)).put (CRUC_CSEQ_NEXT k)
        (u.get (CRUC_CSEQ_NEXT k) + 1)).crucStat k := by
  unfold State.crucAdmit
  rw [if_neg (by rw [hf]; decide), hd]
  rfl

/-- An illegal one is refused with the check it breaks. -/
theorem State.crucAdmit_illegal (u : State) (k q : Nat) (d : BitVec 512) (src : CSrc) (seed : Word) (hf : u.fenced k = false)
    (hd : descCheck k d ≠ 0) : u.crucAdmit k q d src seed = u.crucRefuse k q (descCheck k d) (dCmd d) src 0 := by
  unfold State.crucAdmit
  rw [if_neg (by rw [hf]; decide)]
  split
  · next h => exact absurd h hd
  · rfl

theorem State.joined_crucAdmit (u : State) (k q : Nat) (d : BitVec 512) (src : CSrc) (seed : Word) (hf : u.fenced k = false)
    (hd : descCheck k d = 0) : u.joined (u.crucAdmit k q d src seed) k q d src := by
  rw [u.crucAdmit_legal k q d src seed hf hd]
  set x : CCmd := ⟨d, u.get (CRUC_CSEQ_NEXT k), src, seed, q⟩
  set w := (u.setCruc k ((u.cruc k).enqueue q x)).put (CRUC_CSEQ_NEXT k) (u.get (CRUC_CSEQ_NEXT k) + 1)
  have hwc : ∀ m, w.cruc m = if m = k then (u.cruc k).enqueue q x else u.cruc m := fun m =>
    (congrArg (fun c => Tab.get (fun _ => Cruc.reset) c m) (State.put_crucs _ _ _)).trans (u.cruc_setCruc k m _)
  have hwn : w.get (CRUC_CSEQ_NEXT k) = (u.get (CRUC_CSEQ_NEXT k) + 1) % 2 ^ 32 :=
    State.get_put_self _ _ _ (show 32 ≤ 63 by decide) (show 63 < 64 by decide)
  have hwh : w.hammer = u.hammer ∧ w.mem = u.mem ∧ w.anvils = u.anvils := ⟨State.put_hammer _ _ _, State.put_mem _ _ _, State.put_anvils _ _ _⟩
  clear_value w
  have hst := w.csrOnly_crucStat k
  have hsc : ∀ m, (w.crucStat k).cruc m = if m = k then (u.cruc k).enqueue q x else u.cruc m := fun m => by
    rw [← hwc]
    unfold State.cruc
    rw [State.csrOnly_crucs hst]
  obtain ⟨h1, h2, h3⟩ := hwh
  refine ⟨(State.csrOnly_hammer hst).trans h1, (State.csrOnly_mem hst).trans h2, (State.csrOnly_anvils hst).trans h3,
    fun m hm => by rw [hsc, if_neg hm], ?_, ⟨x, by rw [hsc, if_pos rfl, Cruc.queue_enqueue], rfl, rfl, rfl, rfl⟩⟩
  rw [← hwn]
  unfold State.get
  rw [w.rd_crucStat k (by simp only [CRUC_CSEQ, CRUC_QSTAT]; omega)]

/-! ### Refusal -/

/-- The command of a running job that is refused changes no Crucible, and its operation completes with a failure. -/
structure State.rejected (u v : State) (t : Nat) : Prop where
  tokens : u.tokensOnly v
  crucs : v.crucs = u.crucs
  count : (v.tok t).count = (u.tok t).count - 1
  fail : (v.tok t).fail.isSome = true

theorem State.eventIrq_crucs (u : State) (irq code sev src p0 p1 p2 : Nat) (h : irq < 256) :
    (u.eventIrq irq code sev src p0 p1 p2).crucs = u.crucs := by
  rw [(u.only_eventIrq irq code sev src p0 p1 p2 h []).2.2]

theorem State.eventIrq_hammer (u : State) (irq code sev src p0 p1 p2 : Nat) (h : irq < 256) :
    (u.eventIrq irq code sev src p0 p1 p2).hammer = u.hammer := by
  rw [(u.only_eventIrq irq code sev src p0 p1 p2 h []).2.2]

theorem State.crucError_frame (u : State) (k queue err cmd seq : Nat) (loc : Word) (hk : k < 20) :
    (u.crucError k queue err cmd seq loc).crucs = u.crucs ∧ (u.crucError k queue err cmd seq loc).hammer = u.hammer := by
  unfold State.crucError
  extract_lets s1 s2 s3
  have h2 : u.csrOnly s2 := State.csrOnly_trans (State.csrOnly_put _ _ _) (State.csrOnly_trans (State.csrOnly_put _ _ _)
    (State.csrOnly_trans (State.csrOnly_put _ _ _) (State.csrOnly_trans (State.csrOnly_put _ _ _) (State.csrOnly_put _ _ _))))
  have h3 : s2.csrOnly s3 := by
    unfold s3
    split
    · exact State.csrOnly_put _ _ _
    · exact State.csrOnly_refl _
  have h4 := State.csrOnly_trans h2 h3
  clear_value s3
  exact ⟨(State.eventIrq_crucs s3 _ _ _ _ _ _ _ (by omega)).trans (State.csrOnly_crucs h4),
    (State.eventIrq_hammer s3 _ _ _ _ _ _ _ (by omega)).trans (State.csrOnly_hammer h4)⟩

/-- The answer to a job's command that failed is its operation's completion. -/
theorem State.crucAnswer_failed (u : State) (k j t st err seq : Nat) (fl : Flags) (loc : Word) (he : err ≠ 0) :
    ∃ (z : State) (e : Fail), u.crucAnswer k (.job j t) st err seq fl loc = z.tokDone j t (some e) ∧ z.hammer = u.hammer ∧ z.crucs = u.crucs := by
  unfold State.crucAnswer
  dsimp only
  rw [if_neg he]
  refine ⟨_, _, rfl, ?_⟩
  split <;> exact ⟨rfl, rfl⟩

theorem State.tokDone_crucs (u : State) (j t : Nat) (f : Option Fail) : (u.tokDone j t f).crucs = u.crucs := by
  unfold State.tokDone
  split
  · rfl
  · cases f <;> rfl

theorem State.rejected_crucRefuse (u : State) (k queue err cmd j t : Nat) (loc : Word) (hk : k < 20) (he : err ≠ 0)
    (hr : u.hammer.run = some j) : u.rejected (u.crucRefuse k queue err cmd (.job j t) loc) t := by
  have hto := u.tokensOnly_crucRefuse k queue err cmd (.job j t) loc
  unfold State.crucRefuse at hto ⊢
  obtain ⟨hwc, hwh⟩ := (u.inc (CRUC_CCNT_REFUSED k)).crucError_frame k queue err cmd 0 loc hk
  obtain ⟨z, e, hz, hzh, hzc⟩ := ((u.inc (CRUC_CCNT_REFUSED k)).crucError k queue err cmd 0 loc).crucAnswer_failed k j t 0 err 0 0
    loc he
  rw [hz] at hto ⊢
  have hh : z.hammer = u.hammer := hzh.trans (hwh.trans (State.inc_hammer _ _))
  have hzt : z.tok t = u.tok t := by unfold State.tok; rw [hh]
  have htok := (z.tok_tokDone j t (some e) (by rw [hh]; exact hr) t).trans (if_pos rfl)
  refine ⟨hto, (z.tokDone_crucs _ _ _).trans (hzc.trans (hwc.trans (State.inc_crucs _ _))), by rw [htok, hzt], ?_⟩
  rw [htok]
  dsimp only
  cases (z.tok t).fail <;> rfl

/-! ### The command word -/

/-- An aligned descriptor that can be read is admitted as it stands in memory (R182, R201). -/
theorem State.crucFetch_read (u : State) (k q a j t : Nat) (ha : a % 64 = 0)
    (hr : (match region a with | .hearth _ _ => true | .hammer _ => true | _ => false) = true) (ho : u.rangeOk a 64 = true)
    (hu : u.ueIn a 64 = none) :
    ∃ seed, u.crucFetch k q a j t [] = (u.correctRange a 64).crucAdmit k q (BitVec.ofNat 512 (u.readN a 64)) (.job j t) seed := by
  unfold State.crucFetch
  extract_lets src seed okRegion
  have hreg : okRegion = true := hr
  rw [if_neg (by rw [hreg, ho]; simp [ha]), hu]
  exact ⟨seed, rfl⟩

section
variable {u : State} {k q a j t : Nat} (ha : a % 64 = 0)
  (hreg : (match region a with | .hearth _ _ => true | .hammer _ => true | _ => false) = true) (ho : u.rangeOk a 64 = true)
  (hu : u.ueIn a 64 = none) (hf : u.fenced k = false)
include ha hreg ho hu hf

theorem State.joined_crucFetch (hd : descCheck k (BitVec.ofNat 512 (u.readN a 64)) = 0) :
    u.joined (u.crucFetch k q a j t []) k q (BitVec.ofNat 512 (u.readN a 64)) (.job j t) := by
  obtain ⟨seed, he⟩ := u.crucFetch_read k q a j t ha hreg ho hu
  obtain ⟨hw, -⟩ := u.countsOnly_correctRange a 64
  obtain ⟨h1, h2, h3, h4, h5, h6⟩ := State.joined_crucAdmit (u.correctRange a 64) k q _ (.job j t) seed
    ((u.fenced_correctRange a 64 k).trans hf) hd
  rw [u.nextSeq_correctRange] at h5 h6
  have hc : ∀ m, (u.correctRange a 64).cruc m = u.cruc m := fun m => by rw [hw]; rfl
  rw [hc] at h6
  rw [he]
  exact ⟨h1.trans (by rw [hw]), h2.trans (by rw [hw]), h3.trans (by rw [hw]), fun m hm => (h4 m hm).trans (hc m), h5, h6⟩

theorem State.rejected_crucFetch (hd : descCheck k (BitVec.ofNat 512 (u.readN a 64)) ≠ 0) (hk : k < 20)
    (hr : u.hammer.run = some j) : u.rejected (u.crucFetch k q a j t []) t := by
  obtain ⟨seed, he⟩ := u.crucFetch_read k q a j t ha hreg ho hu
  obtain ⟨hw, -⟩ := u.countsOnly_correctRange a 64
  have hh : (u.correctRange a 64).hammer = u.hammer := by rw [hw]
  obtain ⟨h1, h2, h3, h4⟩ := State.rejected_crucRefuse (u.correctRange a 64) k q _ (dCmd (BitVec.ofNat 512 (u.readN a 64))) j t 0 hk
    hd (by rw [hh]; exact hr)
  rw [he, State.crucAdmit_illegal _ k q _ _ seed ((u.fenced_correctRange a 64 k).trans hf) hd]
  refine ⟨State.tokensOnly_trans (State.tokensOnly_beside (by rw [hw]) (by rw [hw]) hh) h1, h2.trans (by rw [hw]), ?_, h4⟩
  rw [h3]
  unfold State.tok
  rw [hh]

end

theorem issueEff_crc (n w : Nat) (stop idle : Bool) (u : State) (k : Nat) (pri : Bool) (t a : Nat) (h : u.hammer.recent = []) :
    ∃ l, State.issueEff n w stop idle u ⟨0, .crc k pri t a⟩ =
      ((u.tokUp t 1).crucFetch k (if pri then 0 else 1) a (u.hammer.run.getD 0) t []).onHammer (fun x => { x with descs := l }) := by
  unfold State.issueEff
  dsimp only
  rw [u.drawStale_none n h]
  dsimp only
  generalize (u.tokUp t 1).crucFetch k (if pri = true then 0 else 1) a (u.hammer.run.getD 0) t [] = v
  by_cases hv : v.get (CRUC_CSEQ_NEXT k) = u.get (CRUC_CSEQ_NEXT k)
  · exact ⟨v.hammer.descs, by rw [if_pos hv]; rfl⟩
  · exact ⟨v.hammer.descs ++ [⟨n, k, u.get (CRUC_CSEQ_NEXT k), a⟩], by rw [if_neg hv]; rfl⟩

theorem tokIncr_crc (k : Nat) (pri : Bool) (t a m : Nat) : tokIncr [⟨0, .crc k pri t a⟩] m = if t = m then 1 else 0 := by
  unfold tokIncr
  by_cases h : t = m <;> simp [h]

/-- A legal command word alone in its bundle issues with the reading of its descriptor. -/
theorem crucWord_issue (s : State) (h : Hd) (legal : Bool) (k t a : Nat) (pri : Bool) (eff : State → List Flight) (hs : s.sole h [7])
    (hl : legal = true) (he : eff s = [⟨0, .crc k pri t a⟩]) (hr : s.hammer.recent = []) (ho : s.frameOpen = true)
    (hroom : s.crucRoom k (if pri then 0 else 1) = true) (ht : (s.tok t).count < 255) :
    let v := (s.opening.tokUp t 1).crucFetch k (if pri then 0 else 1) a (s.hammer.run.getD 0) t []
    s.opening.tokensOnly v →
    ∃ w, s.slotOp h (.plain [7] legal [] eff) = .next w ∧ s.handed w h ∧ (∀ x, w.byte x = s.byte x) ∧ w.crucs = v.crucs ∧
      w.csr = v.csr ∧ ∀ m, w.tok m = v.tok m := by
  intro v hv
  obtain ⟨l, hX⟩ := issueEff_crc s.hammer.pos (h.len + 1) false (s.hammer.tok.all (fun t => t.2.count == 0)) s.opening k pri t a hr
  have hX' : s.effects h (eff s) = v.onHammer (fun x => { x with descs := l }) := by rw [he]; exact hX
  have hover : s.opening.handsOver (s.effects h (eff s)) := by
    rw [hX']
    exact State.handsOver_trans (State.handsOver_of_tokensOnly hv) ⟨rfl, rfl, rfl⟩
  refine ⟨_, slotOp_hands s h [7] legal eff hs hl (fun g hg => ?_) (fun m _ => ?_) ?_ hover, handed_passed hs hover,
    byte_passed hover h, ?_, ?_, fun m => ?_⟩
  · rw [he] at hg
    rw [List.mem_singleton.mp hg]
    rfl
  · rw [he, tokIncr_crc]
    by_cases hm : t = m
    · subst hm
      exact .inr (by rw [if_pos rfl]; omega)
    · exact .inl (if_neg hm)
  · rw [he]
    simp [State.admissible, ho, hroom]
  · rw [hX']; rfl
  · rw [hX']; rfl
  · rw [hX']; rfl

/-- The outcome of a command word whose descriptor can be read: admitted, or refused for the check it breaks. -/
theorem crucWord_sent (s : State) (h : Hd) (legal : Bool) (k t a : Nat) (pri : Bool) (eff : State → List Flight) (hs : s.sole h [7])
    (hl : legal = true) (he : eff s = [⟨0, .crc k pri t a⟩]) (hr : s.hammer.recent = []) (ho : s.frameOpen = true)
    (hk : k < 20) (ht : (s.tok t).count < 255) (ha : a % 64 = 0)
    (hreg : (match region a with | .hearth _ _ => true | .hammer _ => true | _ => false) = true) (hrange : s.rangeOk a 64 = true)
    (hu : s.ueIn a 64 = none) (hf : s.fenced k = false) (hroom : s.crucRoom k (if pri then 0 else 1) = true) :
    let q := if pri then 0 else 1
    let d := BitVec.ofNat 512 (s.readN a 64)
    (descCheck k d = 0 → ∃ w, s.slotOp h (.plain [7] legal [] eff) = .next w ∧ s.handed w h ∧ (∀ x, w.byte x = s.byte x) ∧
      (w.tok t).count = (s.tok t).count + 1 ∧ (∀ m, m ≠ k → w.cruc m = s.cruc m) ∧
      w.get (CRUC_CSEQ_NEXT k) = (s.get (CRUC_CSEQ_NEXT k) + 1) % 2 ^ 32 ∧
      ∃ x, (w.cruc k).queue q = (s.cruc k).queue q ++ [x] ∧ x.desc = d ∧ x.seq = s.get (CRUC_CSEQ_NEXT k) ∧
        x.src = .job (s.hammer.run.getD 0) t ∧ x.queue = q) ∧
    (descCheck k d ≠ 0 → ∃ w, s.slotOp h (.plain [7] legal [] eff) = .next w ∧ s.handed w h ∧ w.crucs = s.crucs ∧
      (w.tok t).count = (s.tok t).count ∧ (w.tok t).fail.isSome = true) := by
  intro q d
  set u := s.opening.tokUp t 1 with hu'
  have htu : s.opening.tokensOnly u := State.tokensOnly_tokUp _ _ _
  have hcount : (u.tok t).count = (s.tok t).count + 1 := by
    rw [hu', State.tok_tokUp, if_pos rfl]
    rfl
  have hread : u.readN a 64 = s.readN a 64 := State.readN_of_mem (rfl : u.mem = s.mem) _ _
  have hrange' : u.rangeOk a 64 = true := (s.rangeOk_opening a 64).trans hrange
  have hf' : u.fenced k = false := (s.fenced_opening k).trans hf
  have hseq : u.get (CRUC_CSEQ_NEXT k) = s.get (CRUC_CSEQ_NEXT k) :=
    s.get_opening (CRUC_CSEQ_NEXT k) (by simp only [CRUC_CSEQ, HAMMER_ISSUECNT]; omega)
      (by simp only [CRUC_CSEQ, HAMMER_PCSTAT]; omega)
  have hrun : s.hammer.run = some (s.hammer.run.getD 0) := by
    obtain ⟨htk, _⟩ := hs
    cases hrj : s.hammer.run with
    | none => simp [State.taking, hrj] at htk
    | some j => rfl
  constructor
  · intro hd
    obtain ⟨h1, h2, h3, h4, h5, h6⟩ := State.joined_crucFetch (u := u) (q := q) (j := s.hammer.run.getD 0) (t := t) ha hreg hrange' hu
      hf' (by rw [hread]; exact hd)
    obtain ⟨w, hw, hh, hb, hc, hcsr, htok⟩ := crucWord_issue s h legal k t a pri eff hs hl he hr ho hroom ht
      (State.tokensOnly_trans htu (State.tokensOnly_beside h2 h3 h1))
    have hwc : ∀ m, w.cruc m = _ := fun m => congrArg (fun c => Tab.get (fun _ => Cruc.reset) c m) hc
    have hwt : w.tok t = u.tok t := (htok t).trans (congrArg (fun x : Hammer => Tab.get (fun _ => Tok.zero) x.tok t) h1)
    refine ⟨w, hw, hh, hb, by rw [hwt, hcount], fun m hm => (hwc m).trans (h4 m hm), ?_, ?_⟩
    · rw [← hseq, ← h5]
      unfold State.get State.rd
      rw [hcsr]
    · rw [hread, hseq] at h6
      obtain ⟨x, hx, h7⟩ := h6
      exact ⟨x, by rw [hwc]; exact hx, h7⟩
  · intro hd
    obtain ⟨h1, h2, h3, h4⟩ := State.rejected_crucFetch (u := u) (q := q) (j := s.hammer.run.getD 0) (t := t) ha hreg hrange' hu hf'
      (by rw [hread]; exact hd) hk hrun
    obtain ⟨w, hw, hh, -, hc, -, htok⟩ := crucWord_issue s h legal k t a pri eff hs hl he hr ho hroom ht
      (State.tokensOnly_trans htu h1)
    exact ⟨w, hw, hh, hc.trans h2, by rw [htok, h3, hcount]; rfl, by rw [htok]; exact h4⟩

/-- Settles O17: an exchange word puts one operation in the queue of each unit it addresses (`exchangeWord_queued`); a Crucible
command is admitted or refused (`crucWord_sent`). -/
theorem exchangeWords : Obligations.ExchangeWords := by
  constructor
  · intro s h f hs hr ho units hq ht step adv queued
    have hqueued : ∀ (i : Instr) (kind : XKind) (src dst : State → Nat → Nat) (legal : Bool), legal = true →
        exec i s = s.slotOp h (.plain [7] legal [] (fun s => (s.addressed f).map (fun u =>
          ⟨0, .xop u ⟨kind, f.tok, s.hammer.run.getD 0, src s u, dst s u, s.sreg f.sl, false, []⟩⟩))) →
        queued i kind (src s) (dst s) := by
      intro i kind src dst legal hl hi
      obtain ⟨t, h1, h2, h3, h4, h5, h6, h7⟩ := exchangeWord_queued s h f legal
        (fun s u => ⟨kind, f.tok, s.hammer.run.getD 0, src s u, dst s u, s.sreg f.sl, false, []⟩) hs hl hr ho hq ht (fun _ => rfl)
      refine ⟨t, hi.trans h1, h2, h3, h4, h5, h6, fun u => ?_⟩
      have hu := h7 u
      by_cases hm : u ∈ s.addressed f
      · rw [if_pos hm] at hu
        rw [if_pos (show u ∈ units from hm)]
        obtain ⟨r, hu⟩ := hu
        exact ⟨_, hu, rfl, rfl, rfl, rfl, rfl, rfl, rfl⟩
      · rw [if_neg hm] at hu
        rw [if_neg (show u ∉ units from hm)]
        exact hu
    refine ⟨fun op h1 h9 hl => ?_, fun hl => ?_, fun hl => ?_⟩
    · exact hqueued (.xfer h op f) _ (fun s u => advance (s.sreg f.sa).toNat u (if f.bc = 0 then 0 else (s.sreg f.ss).toNat))
        (fun s u => advance (s.sreg f.sd).toNat u (if f.bc = 0 then 0 else (s.sreg f.ss).toNat)) (xeLegal op f && within op 1 9)
        (by simp [hl, within, h1, h9]) rfl
    · exact hqueued (.xfillHbm h f) _ (fun s _ => (s.sreg f.sa).toNat)
        (fun s u => advance (s.sreg f.sd).toNat u (if f.bc = 0 then 0 else (s.sreg f.ss).toNat)) (xeLegal 0x0A f) hl rfl
    · exact hqueued (.xfence h f) _ (fun s u => s.get (CRUC_CSEQ_NEXT (2 * u))) (fun s u => s.get (CRUC_CSEQ_NEXT (2 * u + 1)))
        (xeLegal 0x10 f) hl rfl
  · intro s h f hs hr ho hbc hk ht a k d ha hreg hrange hu hf sent
    exact ⟨fun hl hroom => crucWord_sent s h _ k f.tok a false _ hs hl (if_pos hbc) hr ho hk ht ha hreg hrange hu hf hroom,
      fun hl hroom => crucWord_sent s h _ k f.tok a true _ hs hl (if_pos hbc) hr ho hk ht ha hreg hrange hu hf hroom⟩

end Sys2Proof.Machine
end

