-- ==== Sys2Proof/Proofs/NopIssue.lean ====
section
/-! SUPPORT for StreamWords (O18). How an N-slot operation that finds the queue empty is tried as its bundle issues, and what each
outcome of the trial leaves. -/

namespace Sys2Proof.Machine

/-! ### The trial of one operation -/

/-- Stream types that an N-slot operation takes (R186). -/
def nopTypes (op : Nat) : List Nat :=
  match op with
  | 1 => [5]
  | 2 => [3, 6]
  | 3 => [2, 6]
  | 4 => [6]
  | 7 => [5]
  | _ => [1, 2, 3, 4, 5, 6]

/-- The conditions of R186. -/
theorem State.nopStreamOk_iff (u : State) (o : NOp) :
    u.nopStreamOk o = true ↔ (u.ctx o.strm).tstate = 3 ∧ (u.ctx o.strm).typ ∈ nopTypes o.op ∧
      ∃ b, u.job o.job = some b ∧ b.key = (u.ctx o.strm).jobkey ∧ b.key ≠ 0 := by
  have h : u.nopStreamOk o = ((u.ctx o.strm).tstate == 3 && (nopTypes o.op).contains (u.ctx o.strm).typ &&
      (u.ctx o.strm).jobkey == (match u.job o.job with | some j => j.key | none => 0) &&
      (match u.job o.job with | some j => j.key | none => 0) != 0) := rfl
  rw [h]
  cases u.job o.job with
  | none => simp
  | some b =>
    simp only [Bool.and_eq_true, beq_iff_eq, List.contains_iff_mem, bne_iff_ne, Option.some.injEq, exists_eq_left']
    exact ⟨fun ⟨⟨⟨h1, h2⟩, h3⟩, h4⟩ => ⟨h1, h2, h3.symm, h4⟩, fun ⟨h1, h2, h3, h4⟩ => ⟨⟨⟨h1, h2⟩, h3.symm⟩, h4⟩⟩

section
variable {u : State} {o : NOp} (hf : u.fenced (ctxStack o.strm) = false) (hc : u.cached o.strm = true)
include hf hc

theorem State.nopTry_unbound (hb : ¬ u.nopStreamOk o = true) :
    u.nopTry o = u.nopDone o.id (some (Fail.stream cSTREAM_STATE o.strm 0)) := by
  unfold State.nopTry
  simp [hf, hc, hb]

variable (hb : u.nopStreamOk o = true)
include hb

theorem State.nopTry_sig (h : o.op = 1) :
    u.nopTry o = (u.queueMsg o.strm 1 false (toBytes 8 o.a.toNat ++ toBytes 8 o.code) (some o.id)).setNop { o with stage := 1 } := by
  unfold State.nopTry
  simp [hf, hc, hb, h]

theorem State.nopTry_send (h : o.op = 2) (hn : 1 ≤ o.b.toNat ∧ o.b.toNat ≤ 65536) (hm : u.tongsMem o.a.toNat o.b.toNat = true) :
    u.nopTry o = (u.queueSrc o.strm 0 o.a.toNat o.b.toNat o.stale o.id).setNop { o with stage := 1 } := by
  unfold State.nopTry
  simp [hf, hc, hb, h, hm]
  omega

/-- Where fewer than four buffers are posted, one more is posted with a credit (R364). -/
theorem State.nopTry_recv (h : o.op = 3) (hn : 1 ≤ o.b.toNat ∧ o.b.toNat ≤ 65536) (hm : u.tongsMem o.a.toNat o.b.toNat = true)
    (hp : (u.ctx o.strm).posted.length < 4) :
    u.nopTry o = (u.setCtx o.strm { u.ctx o.strm with
      posted := (u.ctx o.strm).posted ++ [⟨o.a.toNat, o.b.toNat, o.tok, o.job, false, o.id⟩]
      ownclim := seqAdd (u.ctx o.strm).ownclim 1 }).setNop { o with stage := 1 } := by
  have hn1 : o.b.toNat ≠ 0 := by omega
  have hn2 : ¬ 65536 < o.b.toNat := by omega
  unfold State.nopTry
  simp [hf, hc, hb, h, hm, hn1, hn2, hp]

theorem State.nopTry_rsig (h : o.op = 7) (ha : o.a.toNat % 8 = 0) (hm : u.tongsMem o.a.toNat 8 = true)
    (h1 : 0x200000000000 ≤ o.a.toNat) (h2 : o.a.toNat < 0x220000000000) (hp : (u.ctx o.strm).posted.length < 4) :
    u.nopTry o = (u.setCtx o.strm { u.ctx o.strm with
      posted := (u.ctx o.strm).posted ++ [⟨o.a.toNat, 8, o.tok, o.job, true, o.id⟩]
      ownclim := seqAdd (u.ctx o.strm).ownclim 1 }).setNop { o with stage := 1 } := by
  have h1' : ¬ o.a.toNat < 0x200000000000 := by omega
  have h2' : ¬ 0x220000000000 ≤ o.a.toNat := by omega
  unfold State.nopTry
  simp [hf, hc, hb, h, hm, ha, h1', h2', hp]

theorem State.nopTry_ared (h : o.op = 4) (hn : 1 ≤ o.b.toNat ∧ o.b.toNat ≤ 65536)
    (hx : chunkMax (groupOf o.strm).1 o.b.toNat ≤ 65536) (hm : u.tongsMem o.a.toNat (16 * o.b.toNat) = true) :
    u.nopTry o = State.aredGo (2 * (groupOf o.strm).1) ((u.setCtx o.strm { u.ctx o.strm with
      ownclim := seqAdd (u.ctx o.strm).ownclim (2 * ((groupOf o.strm).1 - 1)) }).setNop { o with stage := 1 })
        { o with stage := 1 } := by
  have hn1 : o.b.toNat ≠ 0 := by omega
  have hn2 : ¬ 65536 < o.b.toNat := by omega
  have hx' : ¬ 65536 < chunkMax (groupOf o.strm).1 o.b.toNat := by omega
  unfold State.nopTry
  simp [hf, hc, hb, h, hm, hn1, hn2, hx']

theorem State.nopTry_fence (h : o.op = 6) (hq : u.tongs.nq = [o]) : u.nopTry o = u.nopDone o.id none := by
  unfold State.nopTry
  simp [hf, hc, hb, h, hq]

end

/-! ### What a trial leaves -/

/-- From `u` to `v` an operation of token `t` on stream `n` was tried: Hammer but for that token, memory, Anvils, the packets put
aside, the other streams and the messages received are as they were, and no operation waits to begin. -/
structure State.tried (u v : State) (n t : Nat) : Prop where
  tokens : u.tokensOnly v
  others : ∀ k, k ≠ t → v.tok k = u.tok k
  held : v.tongs.held = u.tongs.held
  inbox : (v.ctx n).inbox = (u.ctx n).inbox
  streams : ∀ m, m ≠ n → v.ctx m = u.ctx m
  begun : ∀ x ∈ v.tongs.nq, x.stage ≠ 0

/-- A stream's context changed, but not what it has received, and the one operation of the queue begun. -/
theorem State.tried_begun (u : State) (o : NOp) (n t : Nat) (c : Ctx) (hq : u.tongs.nq = [o]) (hc : c.inbox = (u.ctx n).inbox) :
    u.tried ((u.setCtx n c).setNop { o with stage := 1 }) n t ∧ ((u.setCtx n c).setNop { o with stage := 1 }).ctx n = c := by
  have hctx : ∀ m, ((u.setCtx n c).setNop { o with stage := 1 }).ctx m = if m = n then c else u.ctx m := fun m => u.ctx_setCtx n m c
  have hnq : ((u.setCtx n c).setNop { o with stage := 1 }).tongs.nq = [{ o with stage := 1 }] := by
    show u.tongs.nq.map _ = _
    rw [hq]
    simp
  refine ⟨⟨⟨rfl, rfl, rfl⟩, fun _ _ => rfl, rfl, ?_, fun m hm => by rw [hctx, if_neg hm], ?_⟩, by rw [hctx, if_pos rfl]⟩
  · rw [hctx, if_pos rfl, hc]
  · rw [hnq]
    simp

/-- The one operation of the queue completed at once. -/
theorem State.nopDone_only (u : State) (o : NOp) (f : Option Fail) (hq : u.tongs.nq = [o]) :
    u.nopDone o.id f = ({ u with tongs := { u.tongs with nq := [] } } : State).tokDone o.job o.tok f := by
  unfold State.nopDone State.nopOf
  simp [hq]

theorem State.tongs_tokDone (u : State) (j t : Nat) (f : Option Fail) : (u.tokDone j t f).tongs = u.tongs := by
  unfold State.tokDone
  split
  · rfl
  · cases f <;> rfl

theorem State.tried_done (u : State) (o : NOp) (n : Nat) (f : Option Fail) (hq : u.tongs.nq = [o])
    (hr : u.hammer.run = some o.job) :
    u.tried (u.nopDone o.id f) n o.tok ∧ (u.nopDone o.id f).tongs.nq = [] := by
  rw [u.nopDone_only o f hq]
  set w : State := { u with tongs := { u.tongs with nq := [] } }
  have ht := w.tongs_tokDone o.job o.tok f
  have hctx : ∀ m, (w.tokDone o.job o.tok f).ctx m = u.ctx m := fun m => by unfold State.ctx; rw [ht]
  refine ⟨⟨w.tokensOnly_tokDone _ _ _, fun k hk => ?_, by rw [ht], by rw [hctx], fun m _ => hctx m, ?_⟩, by rw [ht]⟩
  · exact (w.tok_tokDone o.job o.tok f hr k).trans (if_neg hk)
  · rw [ht]
    simp [w]

/-- Its token's count falls by one, and it takes the failure unless it has one. -/
theorem State.tok_nopDone (u : State) (o : NOp) (f : Option Fail) (hq : u.tongs.nq = [o]) (hr : u.hammer.run = some o.job) :
    (u.nopDone o.id f).tok o.tok = { u.tok o.tok with
      count := (u.tok o.tok).count - 1
      fail := (u.tok o.tok).fail.or f
      failAt := if (u.tok o.tok).fail.isNone && f.isSome then u.now else (u.tok o.tok).failAt } := by
  rw [u.nopDone_only o f hq]
  exact (State.tok_tokDone _ o.job o.tok f (by exact hr) o.tok).trans (if_pos rfl)

/-- After the trial of the one operation that waits, nothing more of its stream goes on. -/
theorem State.settle_tried (u : State) (o : NOp) (t : Nat) (hq : u.tongs.nq = [o]) (hst : o.stage = 0) (hh : u.tongs.held = [])
    (hi : (u.ctx o.strm).inbox = []) (hv : u.tried (u.nopTry o) o.strm t) : u.settle o.strm = u.nopTry o := by
  have hpass : u.nopPass o.strm = u.nopTry o := by
    unfold State.nopPass State.nopOf
    simp [hq, hst]
  have hwait : u.waitingOn o.strm = 1 := by
    unfold State.waitingOn
    simp [hq, hst, hh]
  set v := u.nopTry o with hvd
  have hvh : v.tongs.held = [] := hv.held.trans hh
  have hvw : v.waitingOn o.strm = 0 := by
    unfold State.waitingOn
    rw [hvh, List.filter_eq_nil_iff.mpr (fun x hx => by simp [hv.begun x hx])]
    rfl
  have hre : v.reprocess o.strm = v := by
    unfold State.reprocess
    rw [hvh]
    exact congrArg (fun l => ({ v with tongs := { v.tongs with held := l } } : State)) hvh.symm
  have hgo : u.settleGo 1 o.strm = v := by
    unfold State.settleGo
    dsimp only
    rw [hpass, hre, ite_self, hvw, hwait]
    exact if_pos (by decide)
  unfold State.settle
  rw [hwait, hgo]
  unfold State.answerBad
  rw [hv.inbox, hi]

end Sys2Proof.Machine
end

