-- ==== Sys2Proof/Proofs/AllReduce.lean ====
section
/-! SUPPORT for StreamWords (O18). How the exact all-reduce begins (R355): whatever chunks are empty, one that this member receives
is not, so that the operation stays, with the messages of its first steps queued. -/

namespace Sys2Proof.Machine

/-- The last chunk of an array that is not empty holds bytes. -/
theorem chunk_last_pos {g p : Nat} (hg : 0 < g) (hp : 0 < p) : (chunk g p (g - 1)).2 ≠ 0 := by
  unfold chunk
  dsimp only
  rw [Nat.sub_add_cancel hg, Nat.mul_div_cancel_left p hg]
  have h : (g - 1) * p / g < p := by
    rw [Nat.div_lt_iff_lt_mul hg, Nat.mul_comm p g]
    exact (Nat.mul_lt_mul_right hp).mpr (by omega)
  omega

/-- The member of rank `r` receives the last chunk at step `r`. -/
theorem aredRecv_rank {g r : Nat} (hr : r < g) : aredRecv g r r = g - 1 := by
  unfold aredRecv
  by_cases h : r < g - 1
  · rw [if_pos h, show r + 2 * g - 1 - r = g - 1 + g by omega, Nat.add_mod_right, Nat.mod_eq_of_lt (by omega)]
  · rw [if_neg h, show r + 2 * g - (r - (g - 1)) = g - 1 + g + g by omega, Nat.add_mod_right, Nat.add_mod_right,
      Nat.mod_eq_of_lt (by omega)]

theorem groupOf_rank (n : Nat) : (groupOf n).2 < (groupOf n).1 ∧ 2 ≤ (groupOf n).1 :=
  ⟨Nat.mod_lt _ (by show 0 < 2 + _; omega), by show 2 ≤ 2 + _; omega⟩

/-- From `u` to `v` messages were queued on stream `n`, in order, and the queue holds the one operation, begun. -/
structure State.queues (u v : State) (n id : Nat) (l : List OutMsg) : Prop where
  hammer : v.hammer = u.hammer
  mem : v.mem = u.mem
  anvils : v.anvils = u.anvils
  held : v.tongs.held = u.tongs.held
  streams : ∀ m, m ≠ n → v.ctx m = u.ctx m
  stream : ∃ r b, v.ctx n = { u.ctx n with txq := (u.ctx n).txq ++ l, crstate := r, blockedAt := b }
  only : ∃ x : NOp, v.tongs.nq = [x] ∧ x.id = id ∧ x.stage ≠ 0

theorem State.queues_refl (u : State) (n id : Nat) (h : ∃ x : NOp, u.tongs.nq = [x] ∧ x.id = id ∧ x.stage ≠ 0) :
    u.queues u n id [] :=
  ⟨rfl, rfl, rfl, rfl, fun _ _ => rfl, ⟨(u.ctx n).crstate, (u.ctx n).blockedAt, by rw [List.append_nil]⟩, h⟩

theorem State.queues_trans {u v w : State} {n id : Nat} {l m : List OutMsg} (h : u.queues v n id l) (k : v.queues w n id m) :
    u.queues w n id (l ++ m) := by
  obtain ⟨r, b, hs⟩ := h.stream
  obtain ⟨r', b', ks⟩ := k.stream
  exact ⟨k.hammer.trans h.hammer, k.mem.trans h.mem, k.anvils.trans h.anvils, k.held.trans h.held,
    fun x hx => (k.streams x hx).trans (h.streams x hx), ⟨r', b', by rw [ks, hs, List.append_assoc]⟩, k.only⟩

theorem State.queues_setNop (u : State) (n : Nat) (o : NOp) (h : ∃ x : NOp, u.tongs.nq = [x] ∧ x.id = o.id) (ho : o.stage ≠ 0) :
    u.queues (u.setNop o) n o.id [] := by
  obtain ⟨x, hx, hid⟩ := h
  refine ⟨rfl, rfl, rfl, rfl, fun _ _ => rfl, ⟨(u.ctx n).crstate, (u.ctx n).blockedAt, by rw [List.append_nil]; rfl⟩, o, ?_, rfl, ho⟩
  show u.tongs.nq.map _ = _
  rw [hx]
  simp [hid]

/-- What was queued after an operation was tried belongs to its trial. -/
theorem State.tried_queues {u v w : State} {n t id : Nat} {l : List OutMsg} (h : u.tried v n t) (k : v.queues w n id l) :
    u.tried w n t := by
  obtain ⟨r, b, hs⟩ := k.stream
  obtain ⟨x, hx, -, hst⟩ := k.only
  refine ⟨State.tokensOnly_trans h.tokens (State.tokensOnly_beside k.mem k.anvils k.hammer), fun m hm => ?_, k.held.trans h.held,
    by rw [hs]; exact h.inbox, fun m hm => (k.streams m hm).trans (h.streams m hm), fun y hy => ?_⟩
  · rw [← h.others m hm]
    unfold State.tok
    rw [k.hammer]
  · rw [hx] at hy
    rw [List.mem_singleton.mp hy]
    exact hst

/-- A message of an operation whose bytes stand in memory (R341). -/
def srcMsg (opc a len : Nat) (st : Stale) (ready nop : Nat) : OutMsg := ⟨opc, false, [], none, 0, ready, some nop, some ⟨a, len, st⟩⟩

/-- On an open stream a message joins the queue. -/
theorem State.queueSrc_open (u : State) (n opc a len : Nat) (st : Stale) (nop : Nat) (h : (u.ctx n).tstate = 3) :
    ∃ r b, u.queueSrc n opc a len st nop = u.setCtx n { u.ctx n with
      txq := (u.ctx n).txq ++ [srcMsg opc a len st u.now nop], crstate := r, blockedAt := b } := by
  unfold State.queueSrc
  dsimp only
  rw [if_pos h]
  obtain ⟨r, b, hc⟩ := Ctx.credit_eq { u.ctx n with txq := (u.ctx n).txq ++ [srcMsg opc a len st u.now nop] } u.now
  exact ⟨r, b, congrArg _ hc⟩

theorem State.queueMsg_open (u : State) (n opc : Nat) (resp : Bool) (data : List Byte) (nop : Option Nat)
    (h : (u.ctx n).tstate = 3) :
    ∃ r b, u.queueMsg n opc resp data nop = u.setCtx n { u.ctx n with
      txq := (u.ctx n).txq ++ [⟨opc, resp, data, none, 0, u.now, nop, none⟩], crstate := r, blockedAt := b } := by
  unfold State.queueMsg
  dsimp only
  rw [if_pos h]
  obtain ⟨r, b, hc⟩ := Ctx.credit_eq { u.ctx n with txq := (u.ctx n).txq ++ [⟨opc, resp, data, none, 0, u.now, nop, none⟩] } u.now
  exact ⟨r, b, congrArg _ hc⟩

theorem State.queues_queueSrc (u : State) (n opc a len : Nat) (st : Stale) (nop id : Nat) (h : (u.ctx n).tstate = 3)
    (hq : ∃ x : NOp, u.tongs.nq = [x] ∧ x.id = id ∧ x.stage ≠ 0) :
    u.queues (u.queueSrc n opc a len st nop) n id [srcMsg opc a len st u.now nop] := by
  obtain ⟨r, b, he⟩ := u.queueSrc_open n opc a len st nop h
  rw [he]
  exact ⟨rfl, rfl, rfl, rfl, fun m hm => by rw [State.ctx_setCtx, if_neg hm], ⟨r, b, by rw [State.ctx_setCtx, if_pos rfl]⟩, hq⟩

/-! ### The steps -/

/-- The bytes of the chunk that a member sends at its operation's present step, and of the one it receives. -/
def NOp.sends (o : NOp) : Nat × Nat := chunk (groupOf o.strm).1 o.b.toNat (aredSend (groupOf o.strm).1 (groupOf o.strm).2 o.mark)
/-- See `NOp.sends`. -/
def NOp.receives (o : NOp) : Nat × Nat := chunk (groupOf o.strm).1 o.b.toNat (aredRecv (groupOf o.strm).1 (groupOf o.strm).2 o.mark)

/-- The state and the operation once the chunk of the present step, where it is not empty, is queued. -/
def State.aredSent (u : State) (o : NOp) : State × NOp :=
  if o.sends.2 = 0 then (u, { o with stage := o.stage + 1 })
  else (u.queueSrc o.strm 2 (o.a.toNat + o.sends.1) o.sends.2 (if o.mark = 0 then o.stale else []) o.id, o)

theorem State.aredGo_step (f : Nat) (u : State) (o : NOp) (h : o.mark < 2 * ((groupOf o.strm).1 - 1)) :
    State.aredGo (f + 1) u o =
      if o.receives.2 = 0 then State.aredGo f (u.aredSent o).1 { (u.aredSent o).2 with mark := o.mark + 1 }
      else (u.aredSent o).1.setNop (u.aredSent o).2 := by
  rw [State.aredGo]
  unfold State.aredSent
  have hm : ¬ o.mark ≥ 2 * ((groupOf o.strm).1 - 1) := by omega
  by_cases hs : o.sends.2 = 0
  · have hs' := hs
    unfold NOp.sends at hs'
    simp only [if_neg hm, if_pos hs, if_pos hs']
    rfl
  · have hs' := hs
    unfold NOp.sends at hs'
    simp only [if_neg hm, if_neg hs, if_neg hs']
    rfl

/-- What the chunk of the present step makes. -/
theorem State.queues_aredSent (u : State) (o : NOp) (ht : (u.ctx o.strm).tstate = 3)
    (hq : ∃ x : NOp, u.tongs.nq = [x] ∧ x.id = o.id ∧ x.stage ≠ 0) (ho : o.stage ≠ 0) :
    u.queues (u.aredSent o).1 o.strm o.id (if o.sends.2 = 0 then [] else
      [srcMsg 2 (o.a.toNat + o.sends.1) o.sends.2 (if o.mark = 0 then o.stale else []) u.now o.id]) ∧
    (u.aredSent o).2 = { o with stage := (u.aredSent o).2.stage } ∧ (u.aredSent o).2.stage ≠ 0 := by
  unfold State.aredSent
  by_cases h : o.sends.2 = 0
  · rw [if_pos h, if_pos h]
    exact ⟨u.queues_refl _ _ hq, rfl, Nat.succ_ne_zero _⟩
  · rw [if_neg h, if_neg h]
    exact ⟨u.queues_queueSrc _ _ _ _ _ _ _ ht hq, rfl, ho⟩

/-- Before a step whose chunk holds bytes is past, the operation does not complete. -/
theorem State.queues_aredGo (f : Nat) (u : State) (o : NOp) (k : Nat) (hk : k < 2 * ((groupOf o.strm).1 - 1))
    (hr : (chunk (groupOf o.strm).1 o.b.toNat (aredRecv (groupOf o.strm).1 (groupOf o.strm).2 k)).2 ≠ 0) (hm : o.mark ≤ k)
    (ht : (u.ctx o.strm).tstate = 3) (hq : ∃ x : NOp, u.tongs.nq = [x] ∧ x.id = o.id ∧ x.stage ≠ 0) (ho : o.stage ≠ 0) :
    ∃ l, u.queues (State.aredGo f u o) o.strm o.id l := by
  induction f generalizing u o with
  | zero =>
    obtain ⟨x, hx, hid, -⟩ := hq
    exact ⟨_, u.queues_setNop o.strm o ⟨x, hx, hid⟩ ho⟩
  | succ f ih =>
    obtain ⟨h1, h2, h3⟩ := u.queues_aredSent o ht hq ho
    rw [u.aredGo_step f o (by omega)]
    generalize (u.aredSent o).1 = v at h1 ⊢
    generalize (u.aredSent o).2 = y at h2 h3 ⊢
    have hys : y.strm = o.strm := by rw [h2]
    have hyi : y.id = o.id := by rw [h2]
    have hvt : (v.ctx o.strm).tstate = 3 := by
      obtain ⟨r, b, hs⟩ := h1.stream
      rw [hs]
      exact ht
    by_cases he : o.receives.2 = 0
    · have hmk : o.mark ≠ k := by
        rintro rfl
        exact hr he
      obtain ⟨l, hl⟩ := ih v { y with mark := o.mark + 1 } (by rw [hys]; exact hk) (by rw [h2]; exact hr) (by show o.mark + 1 ≤ k; omega)
        (by rw [hys]; exact hvt) (by rw [hyi]; exact h1.only) h3
      rw [if_pos he]
      refine ⟨_, State.queues_trans (m := l) h1 ?_⟩
      rw [← hys, ← hyi]
      exact hl
    · obtain ⟨x, hx, hid, -⟩ := h1.only
      rw [if_neg he]
      refine ⟨_, State.queues_trans (m := []) h1 ?_⟩
      rw [← hyi]
      exact v.queues_setNop o.strm y ⟨x, hx, by rw [hyi]; exact hid⟩ h3

/-- An all-reduce of an array that is not empty begins with the message of its first chunk, where that is not empty. -/
theorem State.queues_aredFirst (u : State) (o : NOp) (hn : 1 ≤ o.b.toNat) (hm : o.mark = 0)
    (ht : (u.ctx o.strm).tstate = 3) (hq : ∃ x : NOp, u.tongs.nq = [x] ∧ x.id = o.id ∧ x.stage ≠ 0) (ho : o.stage ≠ 0) :
    ∃ l, u.queues (State.aredGo (2 * (groupOf o.strm).1) u o) o.strm o.id l ∧
      (o.sends.2 ≠ 0 → ∃ l', l = srcMsg 2 (o.a.toNat + o.sends.1) o.sends.2 o.stale u.now o.id :: l') := by
  obtain ⟨hr, hg⟩ := groupOf_rank o.strm
  set g := (groupOf o.strm).1
  set r := (groupOf o.strm).2
  have hlast : (chunk g o.b.toNat (aredRecv g r r)).2 ≠ 0 := by rw [aredRecv_rank hr]; exact chunk_last_pos (by omega) (by omega)
  obtain ⟨h1, h2, h3⟩ := u.queues_aredSent o ht hq ho
  obtain ⟨f, hf⟩ : ∃ f, 2 * g = f + 1 := ⟨2 * g - 1, by omega⟩
  rw [hf, u.aredGo_step f o (by omega)]
  set m := if o.sends.2 = 0 then [] else [srcMsg 2 (o.a.toNat + o.sends.1) o.sends.2 (if o.mark = 0 then o.stale else []) u.now o.id]
    with hmd
  have hfirst : o.sends.2 ≠ 0 → m = [srcMsg 2 (o.a.toNat + o.sends.1) o.sends.2 o.stale u.now o.id] := fun h => by
    rw [hmd, if_neg h, if_pos hm]
  clear_value m
  generalize (u.aredSent o).1 = v at h1 ⊢
  generalize (u.aredSent o).2 = y at h2 h3 ⊢
  have hys : y.strm = o.strm := by rw [h2]
  have hyi : y.id = o.id := by rw [h2]
  have hrest : ∃ l, v.queues (if o.receives.2 = 0 then State.aredGo f v { y with mark := o.mark + 1 } else v.setNop y) o.strm o.id l := by
    by_cases he : o.receives.2 = 0
    · have hmr : o.mark ≠ r := by
        intro h
        unfold NOp.receives at he
        rw [h] at he
        exact hlast he
      obtain ⟨b, c, hs⟩ := h1.stream
      rw [if_pos he, ← hys, ← hyi]
      exact v.queues_aredGo f { y with mark := o.mark + 1 } r (by rw [hys]; show r < 2 * (g - 1); omega)
        (by rw [hys, h2]; exact hlast) (by show o.mark + 1 ≤ r; omega) (by rw [hys, hs]; exact ht) (by rw [hyi]; exact h1.only) h3
    · obtain ⟨x, hx, hid, -⟩ := h1.only
      rw [if_neg he, ← hyi]
      exact ⟨_, v.queues_setNop o.strm y ⟨x, hx, by rw [hyi]; exact hid⟩ h3⟩
  obtain ⟨l, hl⟩ := hrest
  exact ⟨m ++ l, State.queues_trans h1 hl, fun h => ⟨l, by rw [hfirst h]; rfl⟩⟩

end Sys2Proof.Machine
end

