-- ==== Sys2Proof/Proofs/StreamWords.lean ====
section
/-! StreamWords (O18). A legal N-slot word alone in its bundle queues its operation, which is tried at once (R185, R371). -/

namespace Sys2Proof.Machine

/-- An N-slot word is about to issue, its operation first in the queue, its stream cached, and nothing received that waits. -/
structure State.nopReady (s : State) (h : Hd) (f : NSf) (j : Nat) : Prop where
  sole : s.sole h [8]
  recent : s.hammer.recent = []
  run : s.hammer.run = some j
  nq : s.tongs.nq = []
  held : s.tongs.held = []
  frame : s.frameOpen = true
  count : (s.tok f.tok).count < 255
  cached : s.cached f.strm = true
  unfenced : s.fenced (ctxStack f.strm) = false
  inbox : (s.ctx f.strm).inbox = []

/-- The frame of a stream word: other streams, other tokens, registers and memory are as they were. -/
def State.nopFrame (s t : State) (h : Hd) (f : NSf) : Prop :=
  s.handed t h ∧ t.hammer.flight = [] ∧ (∀ x, t.byte x = s.byte x) ∧ (∀ m, m ≠ f.strm → t.ctx m = s.ctx m) ∧
  ∀ k, k ≠ f.tok → t.tok k = s.tok k

/-- The token of a stream word is raised by one. -/
def State.raised (s t : State) (f : NSf) : Prop :=
  (t.tok f.tok).count = (s.tok f.tok).count + 1 ∧ (t.tok f.tok).fail = (s.tok f.tok).fail

/-- A buffer of the word's address was posted on its stream, and one more credit offered. -/
def State.posts (s t : State) (f : NSf) (len : Nat) (sg : Bool) : Prop :=
  ∃ p, (t.ctx f.strm).posted = (s.ctx f.strm).posted ++ [p] ∧ p.addr = (s.sreg f.sa).toNat ∧ p.len = len ∧ p.sig = sg ∧
    p.tok = f.tok ∧ (t.ctx f.strm).ownclim = ((s.ctx f.strm).ownclim + 1) % 2 ^ 32

/-- The operation of the word, as it stands in the queue. -/
def State.nopOfWord (s : State) (op : Nat) (f : NSf) : NOp :=
  { op := op, tok := f.tok, job := s.hammer.run.getD 0, strm := f.strm, a := s.sreg f.sa, b := s.sreg f.sb
    code := f.imm, stage := 0, mark := 0, id := s.tongs.nextNop, stale := [], gone := false }

/-- The state in which that operation is tried. -/
def State.nopQueued (s : State) (op : Nat) (f : NSf) : State :=
  ({ s.opening with tongs := { s.tongs with nextNop := s.tongs.nextNop + 1, nq := [s.nopOfWord op f] } } : State).tokUp f.tok 1

theorem State.tokensOnly_nopQueued (s : State) (op : Nat) (f : NSf) : s.opening.tokensOnly (s.nopQueued op f) := ⟨rfl, rfl, rfl⟩

theorem State.tok_nopQueued (s : State) (op : Nat) (f : NSf) (k : Nat) :
    (s.nopQueued op f).tok k = if k = f.tok then { s.tok f.tok with count := (s.tok f.tok).count + 1 } else s.tok k :=
  State.tok_tokUp _ _ _ _

theorem tokIncr_nop (o : NOp) (k : Nat) : tokIncr [⟨0, .nop o⟩] k = if o.op ≠ 5 ∧ o.tok = k then 1 else 0 := by
  unfold tokIncr
  by_cases h : o.op = 5 <;> by_cases hk : o.tok = k <;> simp [h, hk]

theorem State.tongsMem_nopQueued (s : State) (op : Nat) (f : NSf) (a n : Nat) : (s.nopQueued op f).tongsMem a n = s.tongsMem a n := by
  have h : (s.nopQueued op f).rangeOk a n = s.rangeOk a n := s.rangeOk_opening a n
  unfold State.tongsMem
  rw [h]

/-- The state in which an all-reduce has offered its credits and begins. -/
def State.aredOffered (s : State) (op : Nat) (f : NSf) : State :=
  ((s.nopQueued op f).setCtx f.strm { s.ctx f.strm with
    ownclim := seqAdd (s.ctx f.strm).ownclim (2 * ((groupOf f.strm).1 - 1)) }).setNop { s.nopOfWord op f with stage := 1 }

theorem State.nq_aredOffered (s : State) (op : Nat) (f : NSf) :
    (s.aredOffered op f).tongs.nq = [{ s.nopOfWord op f with stage := 1 }] := by
  show List.map _ [s.nopOfWord op f] = _
  simp

section
variable {s : State} {h : Hd} {f : NSf} {j op : Nat} (hr : s.nopReady h f j)
include hr

theorem State.fenced_nopQueued : (s.nopQueued op f).fenced (ctxStack f.strm) = false := (s.fenced_opening _).trans hr.unfenced

theorem State.nopStreamOk_nopQueued :
    (s.nopQueued op f).nopStreamOk (s.nopOfWord op f) = true ↔ (s.ctx f.strm).tstate = 3 ∧ (s.ctx f.strm).typ ∈ nopTypes op ∧
      ∃ b, s.job j = some b ∧ b.key = (s.ctx f.strm).jobkey ∧ b.key ≠ 0 := by
  have hj : (s.nopOfWord op f).job = j := by
    show s.hammer.run.getD 0 = j
    rw [hr.run]; rfl
  rw [State.nopStreamOk_iff, hj]
  rfl

variable (hl : nsLegal op f = true)
include hl

/-- The bundle of an N-slot word whose effect hands work over issues. -/
theorem nsOp_hands {X : State} (hX : s.opening.handsOver X)
    (he : State.issueEff s.hammer.pos (h.len + 1) false (s.hammer.tok.all (fun t => t.2.count == 0)) s.opening
      ⟨0, .nop { s.nopOfWord op f with id := 0 }⟩ = X) :
    s.slotOp h (nsOp op f) = .next (s.passed X h) := by
  subst he
  refine slotOp_hands s h [8] _ _ hr.sole hl (fun g hg => ?_) (fun k _ => ?_) ?_ hX
  · rw [List.mem_singleton.mp hg]
    rfl
  · rw [tokIncr_nop]
    split
    next hk =>
      have hc := hr.count
      rw [show f.tok = k from hk.2] at hc
      exact .inr (by omega)
    · exact .inl rfl
  · have hw : s.nqWaiting = 0 := by unfold State.nqWaiting; rw [hr.nq]; rfl
    simp [State.admissible, hr.frame, hw, hr.cached]

/-- The word issues, its operation is tried, and what the trial leaves stands. -/
theorem nopWord_issue (hop : op ≠ 5)
    (hv : (s.nopQueued op f).tried ((s.nopQueued op f).nopTry (s.nopOfWord op f)) f.strm f.tok) :
    ∃ t, s.slotOp h (nsOp op f) = .next t ∧ s.nopFrame t h f ∧
      t.tongs = ((s.nopQueued op f).nopTry (s.nopOfWord op f)).tongs ∧
      t.tok f.tok = ((s.nopQueued op f).nopTry (s.nopOfWord op f)).tok f.tok := by
  have hset : (s.nopQueued op f).settle f.strm = (s.nopQueued op f).nopTry (s.nopOfWord op f) :=
    State.settle_tried _ (s.nopOfWord op f) f.tok rfl rfl hr.held hr.inbox hv
  have he : State.issueEff s.hammer.pos (h.len + 1) false (s.hammer.tok.all (fun t => t.2.count == 0)) s.opening
      ⟨0, .nop { s.nopOfWord op f with id := 0 }⟩ = (s.nopQueued op f).nopTry (s.nopOfWord op f) := by
    rw [← hset]
    unfold State.issueEff
    dsimp only
    rw [if_neg (show ¬ (s.nopOfWord op f).op = 5 from hop), State.drawStale_none _ _ (show s.opening.hammer.recent = [] from hr.recent)]
    dsimp only
    rw [show s.opening.tongs.nq = [] from hr.nq]
    rfl
  have hX := State.handsOver_of_tokensOnly (State.tokensOnly_trans (s.tokensOnly_nopQueued op f) hv.tokens)
  refine ⟨_, nsOp_hands hr hl hX he, ⟨handed_passed hr.sole hX, flight_passed hr.sole hX, byte_passed hX h,
    fun m hm => ?_, fun k hk => ?_⟩, rfl, rfl⟩
  · exact hv.streams m hm
  · exact (hv.others k hk).trans ((s.tok_nopQueued op f k).trans (if_neg hk))

/-- The word issues and its operation completes at once. -/
theorem nopWord_done (hop : op ≠ 5) (fl : Option Fail)
    (hd : (s.nopQueued op f).nopTry (s.nopOfWord op f) = (s.nopQueued op f).nopDone (s.nopOfWord op f).id fl) :
    ∃ t, s.slotOp h (nsOp op f) = .next t ∧ s.nopFrame t h f ∧ t.tongs.nq = [] ∧ t.tok f.tok = { s.tok f.tok with
      fail := (s.tok f.tok).fail.or fl
      failAt := if (s.tok f.tok).fail.isNone && fl.isSome then s.now else (s.tok f.tok).failAt } := by
  have hrun : (s.nopQueued op f).hammer.run = some (s.nopOfWord op f).job := by
    show s.hammer.run = some (s.hammer.run.getD 0)
    rw [hr.run]; rfl
  obtain ⟨hv, hnq⟩ := State.tried_done (s.nopQueued op f) (s.nopOfWord op f) f.strm fl rfl hrun
  rw [← hd] at hv hnq
  obtain ⟨t, hi, hfr, htg, htk⟩ := nopWord_issue hr hl hop hv
  refine ⟨t, hi, hfr, by rw [htg, hnq], ?_⟩
  have hk : (s.nopQueued op f).tok f.tok = { s.tok f.tok with count := (s.tok f.tok).count + 1 } :=
    (s.tok_nopQueued op f f.tok).trans (if_pos rfl)
  rw [htk, hd]
  refine (State.tok_nopDone _ (s.nopOfWord op f) fl rfl hrun).trans ?_
  show { (s.nopQueued op f).tok f.tok with
    count := ((s.nopQueued op f).tok f.tok).count - 1
    fail := ((s.nopQueued op f).tok f.tok).fail.or fl
    failAt := if ((s.nopQueued op f).tok f.tok).fail.isNone && fl.isSome then s.now else ((s.nopQueued op f).tok f.tok).failAt } = _
  rw [hk]
  rfl

/-- The operation on a stream that is not open, not of an accepted type or not bound to the job completes with STREAM_STATE. -/
theorem nopWord_unbound (hop : op ≠ 5) (hb : ¬ ((s.ctx f.strm).tstate = 3 ∧ (s.ctx f.strm).typ ∈ nopTypes op ∧
      ∃ b, s.job j = some b ∧ b.key = (s.ctx f.strm).jobkey ∧ b.key ≠ 0)) :
    ∃ t, s.slotOp h (nsOp op f) = .next t ∧ s.nopFrame t h f ∧ (t.tok f.tok).count = (s.tok f.tok).count ∧
      (t.tok f.tok).fail.isSome = true ∧ ((s.tok f.tok).fail = none → ∃ x, (t.tok f.tok).fail = some x ∧ x.cause = 0x40) := by
  obtain ⟨t, hi, hfr, -, htk⟩ := nopWord_done hr hl hop (some (Fail.stream cSTREAM_STATE f.strm 0))
    (State.nopTry_unbound (o := s.nopOfWord op f) (State.fenced_nopQueued hr) hr.cached
      (mt (State.nopStreamOk_nopQueued hr).mp hb))
  refine ⟨t, hi, hfr, by rw [htk], ?_, fun hn => ⟨_, by rw [htk, hn]; rfl, rfl⟩⟩
  rw [htk]
  cases (s.tok f.tok).fail <;> rfl

/-- The word issues and its operation begins: its stream's context becomes `c`, and its token stays raised by one. -/
theorem nopWord_begun (hop : op ≠ 5) (c : Ctx)
    (hd : (s.nopQueued op f).nopTry (s.nopOfWord op f) = ((s.nopQueued op f).setCtx f.strm c).setNop { s.nopOfWord op f with stage := 1 })
    (hc : c.inbox = (s.ctx f.strm).inbox) :
    ∃ t, s.slotOp h (nsOp op f) = .next t ∧ s.nopFrame t h f ∧ s.raised t f ∧ t.ctx f.strm = c := by
  obtain ⟨hv, hctx⟩ := State.tried_begun (s.nopQueued op f) (s.nopOfWord op f) f.strm f.tok c rfl hc
  rw [← hd] at hv hctx
  obtain ⟨t, hi, hfr, htg, htk⟩ := nopWord_issue hr hl hop hv
  have hk : t.tok f.tok = { s.tok f.tok with count := (s.tok f.tok).count + 1 } := by
    rw [htk, hd]
    exact (s.tok_nopQueued op f f.tok).trans (if_pos rfl)
  refine ⟨t, hi, hfr, ⟨by rw [hk], by rw [hk]⟩, ?_⟩
  unfold State.ctx
  rw [htg]
  exact hctx

/-! ### The words on a stream that is ready -/

variable (hb : (s.ctx f.strm).tstate = 3 ∧ (s.ctx f.strm).typ ∈ nopTypes op ∧
  ∃ b, s.job j = some b ∧ b.key = (s.ctx f.strm).jobkey ∧ b.key ≠ 0)

/-- The word issues and its operation posts a buffer with a credit (R364). -/
theorem nopWord_posted (hop : op ≠ 5) {len : Nat} {sg : Bool}
    (hd : (s.nopQueued op f).nopTry (s.nopOfWord op f) = ((s.nopQueued op f).setCtx f.strm { s.ctx f.strm with
      posted := (s.ctx f.strm).posted ++ [⟨(s.sreg f.sa).toNat, len, f.tok, s.hammer.run.getD 0, sg, s.tongs.nextNop⟩]
      ownclim := seqAdd (s.ctx f.strm).ownclim 1 }).setNop { s.nopOfWord op f with stage := 1 }) :
    ∃ t, s.slotOp h (nsOp op f) = .next t ∧ s.nopFrame t h f ∧ s.raised t f ∧ s.posts t f len sg := by
  obtain ⟨t, hi, hfr, hup, hc⟩ := nopWord_begun hr hl hop _ hd rfl
  exact ⟨t, hi, hfr, hup, _, by rw [hc], rfl, rfl, rfl, rfl, by rw [hc]; rfl⟩

include hb

theorem sig_queued (hop : op = 1) :
    ∃ t, s.slotOp h (nsOp op f) = .next t ∧ s.nopFrame t h f ∧ s.raised t f ∧
      ∃ m, (t.ctx f.strm).txq = (s.ctx f.strm).txq ++ [m] ∧ m.opc = 1 ∧ m.resp = false ∧
        m.data = toBytes 8 (s.sreg f.sa).toNat ++ toBytes 8 f.imm ∧ m.msn = none ∧ m.src = none := by
  have htry := State.nopTry_sig (u := s.nopQueued op f) (o := s.nopOfWord op f) (State.fenced_nopQueued hr) hr.cached
    ((State.nopStreamOk_nopQueued hr).mpr hb) hop
  obtain ⟨r, b, hq⟩ := (s.nopQueued op f).queueMsg_open f.strm 1 false (toBytes 8 (s.sreg f.sa).toNat ++ toBytes 8 f.imm)
    (some s.tongs.nextNop) hb.1
  obtain ⟨t, hi, hfr, hup, hc⟩ := nopWord_begun hr hl (by omega) _
    (htry.trans (congrArg (State.setNop · { s.nopOfWord op f with stage := 1 }) hq)) rfl
  exact ⟨t, hi, hfr, hup, _, by rw [hc]; rfl, rfl, rfl, rfl, rfl, rfl⟩

theorem send_queued (hop : op = 2) (hn : 1 ≤ (s.sreg f.sb).toNat ∧ (s.sreg f.sb).toNat ≤ 65536)
    (hm : s.tongsMem (s.sreg f.sa).toNat (s.sreg f.sb).toNat = true) :
    ∃ t, s.slotOp h (nsOp op f) = .next t ∧ s.nopFrame t h f ∧ s.raised t f ∧
      ∃ m l, (t.ctx f.strm).txq = (s.ctx f.strm).txq ++ m :: l ∧ m.opc = 0 ∧ m.resp = false ∧ m.msn = none ∧
        m.src = some ⟨(s.sreg f.sa).toNat, (s.sreg f.sb).toNat, []⟩ := by
  have htry := State.nopTry_send (u := s.nopQueued op f) (o := s.nopOfWord op f) (State.fenced_nopQueued hr) hr.cached
    ((State.nopStreamOk_nopQueued hr).mpr hb) hop hn ((s.tongsMem_nopQueued op f _ _).trans hm)
  obtain ⟨r, b, hq⟩ := (s.nopQueued op f).queueSrc_open f.strm 0 (s.sreg f.sa).toNat (s.sreg f.sb).toNat [] s.tongs.nextNop hb.1
  obtain ⟨t, hi, hfr, hup, hc⟩ := nopWord_begun hr hl (by omega) _
    (htry.trans (congrArg (State.setNop · { s.nopOfWord op f with stage := 1 }) hq)) rfl
  exact ⟨t, hi, hfr, hup, _, [], by rw [hc]; rfl, rfl, rfl, rfl, rfl⟩

theorem recv_posted (hop : op = 3) (hn : 1 ≤ (s.sreg f.sb).toNat ∧ (s.sreg f.sb).toNat ≤ 65536)
    (hm : s.tongsMem (s.sreg f.sa).toNat (s.sreg f.sb).toNat = true) (hp : (s.ctx f.strm).posted.length < 4) :
    ∃ t, s.slotOp h (nsOp op f) = .next t ∧ s.nopFrame t h f ∧ s.raised t f ∧ s.posts t f (s.sreg f.sb).toNat false :=
  nopWord_posted hr hl (by omega) (State.nopTry_recv (u := s.nopQueued op f) (o := s.nopOfWord op f)
    (State.fenced_nopQueued hr) hr.cached ((State.nopStreamOk_nopQueued hr).mpr hb) hop hn ((s.tongsMem_nopQueued op f _ _).trans hm) hp)

theorem rsig_posted (hop : op = 7) (ha : (s.sreg f.sa).toNat % 8 = 0) (hm : s.tongsMem (s.sreg f.sa).toNat 8 = true)
    (h1 : 0x200000000000 ≤ (s.sreg f.sa).toNat) (h2 : (s.sreg f.sa).toNat < 0x220000000000)
    (hp : (s.ctx f.strm).posted.length < 4) :
    ∃ t, s.slotOp h (nsOp op f) = .next t ∧ s.nopFrame t h f ∧ s.raised t f ∧ s.posts t f 8 true :=
  nopWord_posted hr hl (by omega) (State.nopTry_rsig (u := s.nopQueued op f) (o := s.nopOfWord op f)
    (State.fenced_nopQueued hr) hr.cached ((State.nopStreamOk_nopQueued hr).mpr hb) hop ha ((s.tongsMem_nopQueued op f _ _).trans hm) h1 h2 hp)

/-- The all-reduce offers its credits, and queues its first chunk where that is not empty (R355). -/
theorem ared_queued (hop : op = 4) (hn : 1 ≤ (s.sreg f.sb).toNat ∧ (s.sreg f.sb).toNat ≤ 65536)
    (hx : chunkMax (groupOf f.strm).1 (s.sreg f.sb).toNat ≤ 65536)
    (hm : s.tongsMem (s.sreg f.sa).toNat (16 * (s.sreg f.sb).toNat) = true) :
    let ch := chunk (groupOf f.strm).1 (s.sreg f.sb).toNat (aredSend (groupOf f.strm).1 (groupOf f.strm).2 0)
    ∃ t, s.slotOp h (nsOp op f) = .next t ∧ s.nopFrame t h f ∧ s.raised t f ∧
      (t.ctx f.strm).ownclim = ((s.ctx f.strm).ownclim + 2 * ((groupOf f.strm).1 - 1)) % 2 ^ 32 ∧
      (ch.2 ≠ 0 → ∃ m l, (t.ctx f.strm).txq = (s.ctx f.strm).txq ++ m :: l ∧ m.opc = 2 ∧ m.resp = false ∧ m.msn = none ∧
        m.src = some ⟨(s.sreg f.sa).toNat + ch.1, ch.2, []⟩) := by
  intro ch
  obtain ⟨hoff, hctx⟩ := State.tried_begun (s.nopQueued op f) (s.nopOfWord op f) f.strm f.tok { s.ctx f.strm with
    ownclim := seqAdd (s.ctx f.strm).ownclim (2 * ((groupOf f.strm).1 - 1)) } rfl rfl
  have htry : (s.nopQueued op f).nopTry (s.nopOfWord op f) =
      State.aredGo (2 * (groupOf f.strm).1) (s.aredOffered op f) { s.nopOfWord op f with stage := 1 } :=
    State.nopTry_ared (u := s.nopQueued op f) (o := s.nopOfWord op f) (State.fenced_nopQueued hr) hr.cached
      ((State.nopStreamOk_nopQueued hr).mpr hb) hop hn hx ((s.tongsMem_nopQueued op f _ _).trans hm)
  have hnq := s.nq_aredOffered op f
  have hham : (s.aredOffered op f).hammer = (s.nopQueued op f).hammer := rfl
  change State.tried _ (s.aredOffered op f) _ _ at hoff
  change (s.aredOffered op f).ctx _ = _ at hctx
  generalize s.aredOffered op f = v0 at hoff hctx htry hnq hham
  obtain ⟨l, hq, hfirst⟩ := v0.queues_aredFirst { s.nopOfWord op f with stage := 1 } hn.1 rfl
    (by show (v0.ctx f.strm).tstate = 3; rw [hctx]; exact hb.1) ⟨_, hnq, rfl, Nat.one_ne_zero⟩ Nat.one_ne_zero
  have hq' : v0.queues ((s.nopQueued op f).nopTry (s.nopOfWord op f)) f.strm s.tongs.nextNop l := by
    rw [htry]
    exact hq
  obtain ⟨t, hi, hfr, htg, htk⟩ := nopWord_issue hr hl (by omega) (State.tried_queues hoff hq')
  have hk : t.tok f.tok = { s.tok f.tok with count := (s.tok f.tok).count + 1 } := by
    rw [htk]
    unfold State.tok
    rw [hq'.hammer, hham]
    exact (s.tok_nopQueued op f f.tok).trans (if_pos rfl)
  obtain ⟨r, b, hs⟩ := hq'.stream
  have hc : t.ctx f.strm = _ := (congrArg (fun x : Tongs => Tab.get Ctx.reset x.ctx f.strm) htg).trans hs
  rw [hctx] at hc
  refine ⟨t, hi, hfr, ⟨by rw [hk], by rw [hk]⟩, by rw [hc]; rfl, fun hch => ?_⟩
  obtain ⟨l', rfl⟩ := hfirst hch
  exact ⟨_, l', by rw [hc], rfl, rfl, rfl, rfl⟩
/-- A fence with nothing before it completes at once. -/
theorem nfence_done (hop : op = 6) :
    ∃ t, s.slotOp h (nsOp op f) = .next t ∧ s.nopFrame t h f ∧ t.tok f.tok = s.tok f.tok ∧ t.tongs.nq = [] := by
  obtain ⟨t, hi, hfr, hnq, htk⟩ := nopWord_done hr hl (by omega) none
    (State.nopTry_fence (u := s.nopQueued op f) (o := s.nopOfWord op f) (State.fenced_nopQueued hr) hr.cached
      ((State.nopStreamOk_nopQueued hr).mpr hb) hop rfl)
  refine ⟨t, hi, hfr, ?_, hnq⟩
  rw [htk]
  simp

/-- `pace.grp` names the job's group at once, without a token. -/
theorem paceGrp_named (hop : op = 5) (ht : (s.ctx f.strm).typ = 6) :
    ∃ t, s.slotOp h (nsOp op f) = .next t ∧ s.nopFrame t h f ∧ t.tok f.tok = s.tok f.tok ∧ t.hammer.group = some f.strm ∧
      t.hammer.follow = (f.imm == 1) := by
  have hok : s.opening.nopStreamOk { s.nopOfWord op f with id := 0, op := 4 } = true := by
    refine (State.nopStreamOk_iff _ _).mpr ⟨hb.1, List.mem_singleton.mpr ht, ?_⟩
    obtain ⟨b, hj, hk⟩ := hb.2.2
    refine ⟨b, ?_, hk⟩
    show s.job (s.hammer.run.getD 0) = some b
    rw [hr.run]
    exact hj
  have hX : s.opening.handsOver (s.opening.onHammer (fun x => { x with group := some f.strm, follow := f.imm == 1 })) :=
    ⟨rfl, rfl, rfl⟩
  refine ⟨_, nsOp_hands hr hl hX ?_, ⟨handed_passed hr.sole hX, flight_passed hr.sole hX, byte_passed hX h, fun _ _ => rfl,
    fun _ _ => rfl⟩, rfl, rfl, rfl⟩
  unfold State.issueEff
  dsimp only
  rw [if_pos (show (s.nopOfWord op f).op = 5 from hop), if_pos hok]
  rfl

end

/-- Settles O18: the operation of a word is tried as its bundle issues (`nopWord_issue`). What it does on a stream that is ready is a
lemma for each word; on one that is not, it completes with STREAM_STATE (`nopWord_unbound`). That a group's size and a
member's rank are functions of its stream is the model's choice (assumption log 9). -/
theorem streamWords : Obligations.StreamWords := by
  intro s h f j hs hrec hrun hnq hheld hfo ht hc hf _ hi a n c bound frame up said said1 posted sized unbound
  have hr : s.nopReady h f j := ⟨hs, hrec, hrun, hnq, hheld, hfo, ht, hc, hf, hi⟩
  refine ⟨fun hl => ⟨fun hb => sig_queued hr hl hb rfl, nopWord_unbound hr hl (by decide)⟩,
    fun hl => ⟨fun hb hn hm => send_queued hr hl hb rfl hn hm, nopWord_unbound hr hl (by decide)⟩,
    fun hl => ⟨fun hb hn hm hp => recv_posted hr hl hb rfl hn hm hp, nopWord_unbound hr hl (by decide)⟩,
    fun hl => ⟨fun hb hn hx hm => ared_queued hr hl hb rfl hn hx hm, nopWord_unbound hr hl (by decide)⟩,
    fun hl => ⟨fun hb h8 hm h1 h2 hp => rsig_posted hr hl hb rfl h8 hm h1 h2 hp, nopWord_unbound hr hl (by decide)⟩,
    fun hl => ⟨fun hb => nfence_done hr hl hb rfl, nopWord_unbound hr hl (by decide)⟩, fun hl hb => ?_⟩
  obtain ⟨h3, h6, hj⟩ := hb
  have h6 : (s.ctx f.strm).typ = 6 := List.mem_singleton.mp h6
  exact paceGrp_named hr hl ⟨h3, by rw [h6]; decide, hj⟩ rfl h6

end Sys2Proof.Machine
end

