-- ==== Sys2Proof/Proofs/BoardOutputs.lean ====
section
/-! SUPPORT for LoopMaster (O40). What may change when the module takes or gives up the board's outputs (R473, R490): fan channels,
valve channels and loops, and of the registers none that the election reads. -/

namespace Sys2Proof.Machine

/-- The registers that the election and the valve commands of the master read: they stand while outputs are driven or released. -/
def boardReg (a : Nat) : Prop :=
  a = BELLOWS_LOOP ∨ a = BELLOWS_SAFESTAT ∨ ∃ c, a = TUYERE_VCMD c ∨ a = TUYERE_VPROT c

/-- From `u` to `v` nothing changed but registers, fan channels, valve channels, loops and the actions recorded. -/
def State.outputsRest (u v : State) : Prop :=
  v = { u with
    csr := v.csr, evrec := v.evrec, quench := v.quench, tuyere := v.tuyere
    cool := { u.cool with kicks := v.cool.kicks, tach := v.cool.tach, driven := v.cool.driven } }

theorem State.outputsRest_trans {u v w : State} (h : u.outputsRest v) (k : v.outputsRest w) : u.outputsRest w := by
  unfold State.outputsRest at *
  rw [k, h]

/-- From `u` to `v` outputs alone were driven or released. -/
structure State.outputsOnly (u v : State) : Prop where
  rest : u.outputsRest v
  regs : ∀ a, boardReg a → v.rd a = u.rd a

theorem State.outputsOnly_refl (u : State) : u.outputsOnly u := ⟨rfl, fun _ _ => rfl⟩

theorem State.outputsOnly_trans {u v w : State} (h : u.outputsOnly v) (k : v.outputsOnly w) : u.outputsOnly w :=
  ⟨State.outputsRest_trans h.rest k.rest, fun a ha => (k.regs a ha).trans (h.regs a ha)⟩

theorem State.outputsOnly_foldl {α : Type} (f : State → α → State) (l : List α) (h : ∀ s : State, ∀ x ∈ l, s.outputsOnly (f s x))
    (u : State) : u.outputsOnly (l.foldl f u) := by
  induction l generalizing u with
  | nil => exact u.outputsOnly_refl
  | cons x r ih =>
    exact State.outputsOnly_trans (h u x List.mem_cons_self) (ih (fun s y hy => h s y (List.mem_cons_of_mem _ hy)) _)

theorem State.outputsOnly_put (u : State) (f : Fd) (x : Nat) (hf : ¬ boardReg f.addr) : u.outputsOnly (u.put f x) :=
  ⟨rfl, fun _ ha => State.rd_put_ne u f x (fun h => hf (h ▸ ha))⟩

theorem State.outputsOnly_wr (u : State) (b : Nat) (w : Word) (hf : ¬ boardReg b) : u.outputsOnly (u.wr b w) :=
  ⟨rfl, fun _ ha => State.rd_wr_ne u w (fun h => hf (h ▸ ha))⟩

/-! ### Registers of the outputs -/

theorem boardReg_vstat (c : Nat) : ¬ boardReg (TUYERE_VSTAT c) := by
  rintro (h | h | ⟨k, h | h⟩) <;> simp only [TUYERE_VSTAT, BELLOWS_LOOP, BELLOWS_SAFESTAT, TUYERE_VCMD, TUYERE_VPROT] at h <;> omega

theorem boardReg_fstat {c : Nat} (hc : c < 4) : ¬ boardReg (BELLOWS_FSTAT c) := by
  rintro (h | h | ⟨k, h | h⟩) <;> simp only [BELLOWS_FSTAT, BELLOWS_LOOP, BELLOWS_SAFESTAT, TUYERE_VCMD, TUYERE_VPROT] at h <;> omega

/-- A register of Quench. -/
theorem boardReg_quench {a : Nat} (h1 : 61572651221248 ≤ a) (h2 : a < 61572651286784) : ¬ boardReg a := by
  rintro (h | h | ⟨k, h | h⟩) <;> simp only [BELLOWS_LOOP, BELLOWS_SAFESTAT, TUYERE_VCMD, TUYERE_VPROT] at h <;> omega

theorem boardReg_lstat {n : Nat} (h : n < 16) : ¬ boardReg (QUENCH_LSTAT n) :=
  boardReg_quench (by simp only [QUENCH_LSTAT]; omega) (by simp only [QUENCH_LSTAT]; omega)

theorem boardReg_rcstat {n : Nat} (h : n < 16) : ¬ boardReg (QUENCH_RCSTAT n) :=
  boardReg_quench (by simp only [QUENCH_RCSTAT]; omega) (by simp only [QUENCH_RCSTAT]; omega)

/-- Sections, those that a loop names behind the last one too. -/
theorem boardReg_sz {q : Nat} (h : q < 72) : ¬ boardReg (QUENCH_SZ q) :=
  boardReg_quench (by simp only [QUENCH_SZ]; omega) (by simp only [QUENCH_SZ]; omega)

theorem boardReg_sctl {q : Nat} (h : q < 72) : ¬ boardReg (QUENCH_SCTL q) :=
  boardReg_quench (by simp only [QUENCH_SCTL]; omega) (by simp only [QUENCH_SCTL]; omega)

/-! ### Fans -/

theorem State.outputsOnly_action (u : State) (code sev src p0 p1 p2 : Nat) : u.outputsOnly (u.action code sev src p0 p1 p2) :=
  ⟨rfl, fun _ _ => rfl⟩

theorem State.outputsOnly_fanRelease (u : State) {c : Nat} (hc : c < 4) : u.outputsOnly (u.fanRelease c) := by
  unfold State.fanRelease
  extract_lets w
  have hw : u.outputsOnly w := ⟨rfl, fun _ _ => rfl⟩
  exact State.outputsOnly_trans hw (State.outputsOnly_trans (State.outputsOnly_put _ _ _ (boardReg_fstat hc))
    (State.outputsOnly_trans (State.outputsOnly_put _ _ _ (boardReg_fstat hc)) (State.outputsOnly_put _ _ _ (boardReg_fstat hc))))

/-! ### Valves -/

theorem State.outputsOnly_vstat (u : State) (f : Nat → Fd) (c x : Nat) (hf : (f c).addr = TUYERE_VSTAT c) :
    u.outputsOnly (u.put (f c) x) := u.outputsOnly_put _ _ (by rw [hf]; exact boardReg_vstat c)

theorem State.outputsOnly_setValve (u : State) (c : Nat) (v : Valve) : u.outputsOnly (u.setValve c v) := ⟨rfl, fun _ _ => rfl⟩

theorem State.outputsOnly_freeHigh (u : State) (c : Nat) : u.outputsOnly (u.freeHigh c) := by
  unfold State.freeHigh
  split
  · exact ⟨rfl, fun _ _ => rfl⟩
  · exact u.outputsOnly_refl

theorem State.outputsOnly_showCurrent (u : State) (c : Nat) : u.outputsOnly (u.showCurrent c) := by
  unfold State.showCurrent
  split
  · exact u.outputsOnly_vstat TUYERE_VSTAT_ICOIL c _ rfl
  · exact u.outputsOnly_vstat TUYERE_VSTAT_ICOIL c _ rfl
  · exact u.outputsOnly_vstat TUYERE_VSTAT_ICOIL c _ rfl
  · exact u.outputsOnly_refl

theorem State.outputsOnly_enterValve (u : State) (c st : Nat) : u.outputsOnly (u.enterValve c st) := by
  unfold State.enterValve
  extract_lets was s1 _ _ s2 is _ s3
  have h1 : u.outputsOnly s1 := u.outputsOnly_vstat TUYERE_VSTAT_STATE c _ rfl
  have h2 : s1.outputsOnly s2 := s1.outputsOnly_setValve _ _
  have h3 : s2.outputsOnly s3 := s2.outputsOnly_setValve _ _
  exact State.outputsOnly_trans (State.outputsOnly_trans h1 (State.outputsOnly_trans h2 h3))
    (State.outputsOnly_trans (State.outputsOnly_vstat _ TUYERE_VSTAT_WINPCT c _ rfl) (State.outputsOnly_showCurrent _ c))

theorem State.outputsOnly_vRequest (u : State) (c : Nat) (hold : Bool) : u.outputsOnly (u.vRequest c hold) :=
  State.outputsOnly_trans (u.outputsOnly_setValve _ _) (State.outputsOnly_enterValve _ _ _)

theorem State.outputsOnly_vOpen (u : State) (c : Nat) : u.outputsOnly (u.vOpen c) := by
  unfold State.vOpen
  split
  · exact u.outputsOnly_refl
  · split
    · exact u.outputsOnly_vRequest c false
    · exact State.outputsOnly_trans (u.outputsOnly_freeHigh c) (State.outputsOnly_vRequest _ c true)
    · exact State.outputsOnly_trans (u.outputsOnly_freeHigh c) (State.outputsOnly_vRequest _ c true)
    · exact u.outputsOnly_vRequest c true
    · exact u.outputsOnly_setValve _ _
    · exact u.outputsOnly_refl

theorem State.outputsOnly_vClose (u : State) (c : Nat) : u.outputsOnly (u.vClose c) := by
  unfold State.vClose
  extract_lets st _ w _
  have hw : u.outputsOnly w := u.outputsOnly_setValve _ _
  have hclose : ∀ (x : State) (v : Valve) (n : Nat), w.outputsOnly x → w.outputsOnly ((x.setValve c v).enterValve c n) :=
    fun x v n hx => State.outputsOnly_trans hx (State.outputsOnly_trans (x.outputsOnly_setValve _ _) (State.outputsOnly_enterValve _ _ _))
  refine State.outputsOnly_trans hw ?_
  clear_value st w
  split
  · exact w.outputsOnly_enterValve c 0
  · exact hclose _ _ 5 (w.outputsOnly_freeHigh c)
  · exact hclose _ _ 5 (w.outputsOnly_freeHigh c)
  · exact hclose _ _ 5 w.outputsOnly_refl
  · exact w.outputsOnly_refl

theorem State.outputsOnly_vFlag (u : State) (c : Nat) : u.outputsOnly (u.vFlag c) := by
  unfold State.vFlag
  split
  · exact u.outputsOnly_vstat TUYERE_VSTAT_FORCED c _ rfl
  · exact u.outputsOnly_refl

theorem State.outputsOnly_vRetarget (u : State) (c : Nat) : u.outputsOnly (u.vRetarget c) := by
  unfold State.vRetarget
  extract_lets s1 w v s2
  have h1 : u.outputsOnly s1 := u.outputsOnly_vFlag c
  have h2 : s1.outputsOnly s2 := s1.outputsOnly_setValve _ _
  refine State.outputsOnly_trans h1 ?_
  split
  · exact s1.outputsOnly_refl
  · split
    · exact State.outputsOnly_trans h2 (s2.outputsOnly_vOpen c)
    · exact State.outputsOnly_trans h2 (s2.outputsOnly_vClose c)

theorem State.outputsOnly_vRetargetAll (u : State) : u.outputsOnly u.vRetargetAll :=
  State.outputsOnly_foldl _ _ (fun s c _ => s.outputsOnly_vRetarget c) u

/-! ### Loops -/

theorem State.outputsOnly_setLoop (u : State) (n : Nat) (l : QLoop) : u.outputsOnly (u.setLoop n l) := ⟨rfl, fun _ _ => rfl⟩

theorem State.mem_outers {u : State} {n m : Nat} (h : m ∈ u.outers n) : m < 16 :=
  List.mem_range.mp (List.mem_filter.mp h).1

theorem State.outputsOnly_realign (f : Nat) (u : State) (n : Nat) : u.outputsOnly (State.realign f u n) := by
  induction f generalizing u n with
  | zero => exact u.outputsOnly_refl
  | succ f ih => exact State.outputsOnly_foldl _ _ (fun s m _ => State.outputsOnly_trans (s.outputsOnly_setLoop _ _) (ih _ m)) u

theorem State.outputsOnly_enterLoop (u : State) {n : Nat} (hn : n < 16) (st : Nat) : u.outputsOnly (u.enterLoop n st) := by
  unfold State.enterLoop
  extract_lets old s1
  have h1 : u.outputsOnly s1 := u.outputsOnly_put _ _ (boardReg_lstat hn)
  split
  · exact h1
  · exact State.outputsOnly_trans h1 (s1.outputsOnly_action _ _ _ _ _ _)

theorem State.outputsOnly_holdOuters (f : Nat) (u : State) (n : Nat) : u.outputsOnly (State.holdOuters f u n) := by
  induction f generalizing u n with
  | zero => exact u.outputsOnly_refl
  | succ f ih =>
    refine State.outputsOnly_foldl _ _ (fun s m hm => ?_) u
    split
    · exact State.outputsOnly_trans (s.outputsOnly_enterLoop (State.mem_outers hm) 2) (ih _ m)
    · exact s.outputsOnly_refl

theorem State.outputsOnly_leaveRun (u : State) {n : Nat} (hn : n < 16) (st : Nat) : u.outputsOnly (u.leaveRun n st) := by
  unfold State.leaveRun
  extract_lets was s1
  have h1 : u.outputsOnly s1 := u.outputsOnly_enterLoop hn st
  split
  · exact State.outputsOnly_trans h1 (State.outputsOnly_holdOuters 16 s1 n)
  · exact h1

theorem State.mem_loopSecs {u : State} {n q : Nat} (h : q ∈ u.loopSecs n) : q < 72 := by
  unfold State.loopSecs at h
  obtain ⟨k, hk, rfl⟩ := List.mem_map.mp h
  have hfirst : u.get (QUENCH_LCFG_FIRST n) < 64 := bitsOf_lt _ _ _
  have hnsec : u.get (QUENCH_LCFG_NSEC n) < 8 := bitsOf_lt _ _ _
  have hk := List.mem_range.mp hk
  omega

theorem State.outputsOnly_startLoop (u : State) {n : Nat} (hn : n < 16) (t0 : Nat) : u.outputsOnly (u.startLoop n t0) := by
  unfold State.startLoop
  extract_lets _ l s1 s2
  have h1 : u.outputsOnly s1 := State.outputsOnly_trans (u.outputsOnly_setLoop n l) (State.outputsOnly_foldl _ _ (fun s q hq =>
    have hq := State.mem_loopSecs hq
    State.outputsOnly_trans (s.outputsOnly_wr _ _ (boardReg_sz hq)) (State.outputsOnly_put _ _ _ (boardReg_sctl hq))) _)
  have h2 : s1.outputsOnly s2 := s1.outputsOnly_put _ _ (boardReg_lstat hn)
  exact State.outputsOnly_trans (State.outputsOnly_trans h1 h2) (State.outputsOnly_trans (State.outputsOnly_put _ _ _ (boardReg_rcstat hn))
    (State.outputsOnly_trans (State.outputsOnly_put _ _ _ (boardReg_rcstat hn)) (State.outputsOnly_put _ _ _ (boardReg_rcstat hn))))

theorem State.outputsOnly_quenchMaster (u : State) : u.outputsOnly u.quenchMaster := by
  refine State.outputsOnly_foldl _ _ (fun s n hn => ?_) u
  have hn := List.mem_range.mp hn
  split
  · exact s.outputsOnly_refl
  · split
    · split
      · exact State.outputsOnly_trans (s.outputsOnly_startLoop hn _) (State.outputsOnly_realign 16 _ n)
      · exact s.outputsOnly_refl
    · split
      · exact State.outputsOnly_trans (s.outputsOnly_setLoop _ _) (State.outputsOnly_leaveRun _ hn 4)
      · exact s.outputsOnly_refl

end Sys2Proof.Machine
end

