-- ==== Sys2Proof/Proofs/Election.lean ====
section
/-! LoopMaster (O40). The election (R471-R473): its result is put in force, the outputs follow, and the master of a large board turns
the thermal model on (R49, R521). -/

namespace Sys2Proof.Machine

/-! ### Driving the outputs or not -/

/-- From `u` to `v` the module became master, or is it no longer, and the outputs followed. -/
structure State.masterSet (u v : State) (b : Bool) : Prop where
  rest : u.outputsRest v
  regs : ∀ a, boardReg a → a ≠ BELLOWS_SAFESTAT → v.rd a = u.rd a
  master : v.on BELLOWS_SAFESTAT_MASTER = b

theorem boardReg_safestat : boardReg BELLOWS_SAFESTAT := .inr (.inl rfl)
theorem boardReg_loop : boardReg BELLOWS_LOOP := .inl rfl
theorem boardReg_vcmd (c : Nat) : boardReg (TUYERE_VCMD c) := .inr (.inr ⟨c, .inl rfl⟩)
theorem boardReg_vprot (c : Nat) : boardReg (TUYERE_VPROT c) := .inr (.inr ⟨c, .inr rfl⟩)

theorem State.masterSet_setMaster (u : State) (b : Bool) : u.masterSet (u.setMaster b) b := by
  unfold State.setMaster
  split
  next h => exact ⟨rfl, fun _ _ _ => rfl, h⟩
  next h =>
    extract_lets s1 s2
    have h2 : s1.outputsOnly s2 := State.outputsOnly_foldl _ _ (fun s c hc => by
      split
      · exact s.outputsOnly_fanRelease (by fin_cases hc <;> decide)
      · exact s.outputsOnly_refl) s1
    have h3 := State.outputsOnly_trans h2 (State.outputsOnly_trans s2.outputsOnly_vRetargetAll s2.vRetargetAll.outputsOnly_quenchMaster)
    refine ⟨State.outputsRest_trans (v := s1) rfl h3.rest, fun a ha hs => (h3.regs a ha).trans (State.rd_put_ne _ _ _ hs), ?_⟩
    have hon : s1.on BELLOWS_SAFESTAT_MASTER = b := State.on_putB_self _ _ _ rfl (by decide)
    rw [← hon]
    unfold State.on State.get
    rw [h3.regs _ boardReg_safestat]

/-! ### The thermal model -/

/-- From `u` to `v` the thermal model was turned on for the channels of `l` that are driven. -/
structure State.protects (u v : State) (l : List Nat) : Prop where
  rest : u.outputsRest v
  regs : ∀ a, boardReg a → (∀ c, a ≠ TUYERE_VPROT c) → v.rd a = u.rd a
  stays : ∀ c, u.on (TUYERE_VPROT_PROT c) = true → v.on (TUYERE_VPROT_PROT c) = true
  set : ∀ c ∈ l, u.get (TUYERE_VCMD_MODE c) ≠ 0 → v.on (TUYERE_VPROT_PROT c) = true

theorem State.protects_refl (u : State) : u.protects u [] := ⟨rfl, fun _ _ _ => rfl, fun _ h => h, fun _ h => absurd h List.not_mem_nil⟩

theorem vprot_apart (a c : Nat) (h : a = BELLOWS_LOOP ∨ a = BELLOWS_SAFESTAT ∨ ∃ d, a = TUYERE_VCMD d) : a ≠ TUYERE_VPROT c := by
  obtain rfl | rfl | ⟨d, rfl⟩ := h <;> simp only [BELLOWS_LOOP, BELLOWS_SAFESTAT, TUYERE_VCMD, TUYERE_VPROT] <;> omega

theorem State.protects_mode {u v : State} {l : List Nat} (h : u.protects v l) (c : Nat) :
    v.get (TUYERE_VCMD_MODE c) = u.get (TUYERE_VCMD_MODE c) := by
  unfold State.get
  rw [h.regs _ (boardReg_vcmd c) (fun d => vprot_apart _ d (.inr (.inr ⟨c, rfl⟩)))]

theorem State.protects_trans {u v w : State} {l m : List Nat} (h : u.protects v l) (k : v.protects w m) : u.protects w (l ++ m) := by
  refine ⟨State.outputsRest_trans h.rest k.rest, fun a ha hp => (k.regs a ha hp).trans (h.regs a ha hp), fun c hc => k.stays c (h.stays c hc),
    fun c hc hm => ?_⟩
  obtain hc | hc := List.mem_append.mp hc
  · exact k.stays c (h.set c hc hm)
  · exact k.set c hc (by rwa [State.protects_mode h])

/-- A channel's thermal model turned on, where the channel is driven. -/
def State.protect (u : State) (c : Nat) : State :=
  if u.get (TUYERE_VCMD_MODE c) = 0 ∨ u.on (TUYERE_VPROT_PROT c) then u else (u.put (TUYERE_VPROT_PROT c) 1).vRetarget c

theorem State.protects_protect (u : State) (c : Nat) : u.protects (u.protect c) [c] := by
  unfold State.protect
  split
  next h =>
    refine ⟨rfl, fun _ _ _ => rfl, fun _ h => h, fun d hd hm => ?_⟩
    rw [List.mem_singleton.mp hd] at hm ⊢
    exact h.resolve_left hm
  next h =>
    have hv := (u.put (TUYERE_VPROT_PROT c) 1).outputsOnly_vRetarget c
    have hon : ∀ d, ((u.put (TUYERE_VPROT_PROT c) 1).vRetarget c).on (TUYERE_VPROT_PROT d) = if d = c then true else u.on (TUYERE_VPROT_PROT d) := by
      intro d
      have hd : ((u.put (TUYERE_VPROT_PROT c) 1).vRetarget c).on (TUYERE_VPROT_PROT d) = (u.put (TUYERE_VPROT_PROT c) 1).on (TUYERE_VPROT_PROT d) := by
        unfold State.on State.get
        rw [hv.regs _ (boardReg_vprot d)]
      rw [hd]
      unfold State.on
      by_cases hdc : d = c
      · rw [if_pos hdc, hdc, State.get_put_self _ _ _ (le_refl _) (show 0 < 64 by decide)]
        rfl
      · rw [if_neg hdc, State.get_put_ne _ _ _ _ (by simp only [TUYERE_VPROT]; omega)]
    refine ⟨State.outputsRest_trans (v := u.put (TUYERE_VPROT_PROT c) 1) rfl hv.rest,
      fun a ha hp => (hv.regs a ha).trans (State.rd_put_ne _ _ _ (hp c)), fun d hd => ?_, fun d hd _ => ?_⟩
    · rw [hon, hd, ite_self]
    · rw [hon, if_pos (List.mem_singleton.mp hd)]

theorem State.protects_foldl (l : List Nat) (u : State) : u.protects (l.foldl State.protect u) l := by
  induction l generalizing u with
  | nil => exact u.protects_refl
  | cons c r ih => exact State.protects_trans (u.protects_protect c) (ih _)

/-- The master of a board of more than four modules protects the channels that it drives. -/
theorem State.protects_masterProt (u : State) :
    u.protects u.masterProt (if u.on BELLOWS_SAFESTAT_MASTER = true ∧ 4 < u.boardSize then List.range 8 else []) := by
  unfold State.masterProt
  by_cases h : u.on BELLOWS_SAFESTAT_MASTER = true ∧ 4 < u.boardSize
  · rw [if_pos h, if_pos h]
    exact State.protects_foldl (List.range 8) u
  · rw [if_neg h, if_neg h]
    exact u.protects_refl

/-! ### The result -/

section
variable {u v : State} (h : u.outputsRest v)
include h

theorem State.peer_outputsRest (k : Nat) : v.peer k = u.peer k := by
  unfold State.peer
  rw [h]

theorem State.electMaster_outputsRest : v.electMaster = u.electMaster := by
  unfold State.electMaster
  simp only [State.peer_outputsRest h]

theorem State.lowerClaim_outputsRest (hs : v.slotId = u.slotId) : v.lowerClaim = u.lowerClaim := by
  unfold State.lowerClaim
  have hn : v.now = u.now := by rw [h]
  simp only [State.peer_outputsRest h, hs, hn]

theorem State.boardSize_outputsRest (hs : v.slotId = u.slotId) : v.boardSize = u.boardSize := by
  unfold State.boardSize
  simp only [State.peer_outputsRest h, hs]

end

theorem State.electMaster_lt (u : State) : u.electMaster < 16 := by
  unfold State.electMaster
  cases h : (List.range 8).find? _ with
  | none => decide
  | some k =>
    have := List.mem_range.mp (List.mem_of_find?_eq_some h)
    show k < 16
    omega

/-- The election put its result in force. -/
structure State.elected (u v : State) : Prop where
  rest : u.outputsRest v
  slot : v.slotId = u.slotId
  shown : v.get BELLOWS_LOOP_MASTERID = u.electMaster
  master : v.on BELLOWS_SAFESTAT_MASTER = (u.electMaster == u.slotId && !u.lowerClaim)
  prot : v.on BELLOWS_SAFESTAT_MASTER = true → 4 < u.boardSize → ∀ c, c < 8 → u.get (TUYERE_VCMD_MODE c) ≠ 0 →
    v.on (TUYERE_VPROT_PROT c) = true

theorem State.elected_election (u : State) : u.elected u.election := by
  unfold State.election
  extract_lets m old s1 s2
  have h1 : u.outputsRest s1 := rfl
  have h1s : s1.slotId = u.slotId := State.get_put_apart u BELLOWS_LOOP_MASTERID BELLOWS_LOOP_SLOT m (by decide) (by decide) (by decide)
  have h1m : s1.get BELLOWS_LOOP_MASTERID = m :=
    (State.get_put_self u BELLOWS_LOOP_MASTERID m (by decide) (by decide)).trans (Nat.mod_eq_of_lt u.electMaster_lt)
  have h1c : ∀ c, s1.get (TUYERE_VCMD_MODE c) = u.get (TUYERE_VCMD_MODE c) := fun c =>
    State.get_put_ne _ _ _ _ (by simp only [TUYERE_VCMD, BELLOWS_LOOP]; omega)
  have h2 : s1.outputsOnly s2 := by
    unfold s2
    split
    · exact s1.outputsOnly_refl
    · exact s1.outputsOnly_action _ _ _ _ _ _
  clear_value s1 s2
  have h2s : s2.slotId = u.slotId := by
    rw [← h1s]
    unfold State.slotId State.get
    rw [h2.regs _ boardReg_loop]
  have h12 := State.outputsRest_trans h1 h2.rest
  rw [h2s, State.lowerClaim_outputsRest h12 h2s]
  have h3 := s2.masterSet_setMaster (m == u.slotId && !u.lowerClaim)
  generalize s2.setMaster (m == u.slotId && !u.lowerClaim) = s3 at h3 ⊢
  have h4 := s3.protects_masterProt
  have hloop : s3.masterProt.rd BELLOWS_LOOP = s1.rd BELLOWS_LOOP :=
    ((h4.regs _ boardReg_loop (fun c => vprot_apart _ c (.inl rfl))).trans (h3.regs _ boardReg_loop (by decide))).trans
      (h2.regs _ boardReg_loop)
  have hmaster : s3.masterProt.on BELLOWS_SAFESTAT_MASTER = s3.on BELLOWS_SAFESTAT_MASTER := by
    unfold State.on State.get
    rw [h4.regs _ boardReg_safestat (fun c => vprot_apart _ c (.inr (.inl rfl)))]
  have h3s : s3.slotId = u.slotId := by
    rw [← h2s]
    unfold State.slotId State.get
    rw [h3.regs _ boardReg_loop (by decide)]
  have h123 := State.outputsRest_trans h12 h3.rest
  refine ⟨State.outputsRest_trans h123 h4.rest, ?_, ?_, hmaster.trans h3.master, fun hm hb c hc hmode => ?_⟩
  · rw [← h1s]
    unfold State.slotId State.get
    rw [hloop]
  · refine Eq.trans ?_ h1m
    unfold State.get
    rw [hloop]
  · rw [if_pos ⟨hmaster.symm.trans hm, by rw [State.boardSize_outputsRest h123 h3s]; exact hb⟩] at h4
    refine h4.set c (List.mem_range.mpr hc) ?_
    have h3c : s3.get (TUYERE_VCMD_MODE c) = s1.get (TUYERE_VCMD_MODE c) := by
      unfold State.get
      rw [h3.regs _ (boardReg_vcmd c) (by simp only [TUYERE_VCMD, BELLOWS_SAFESTAT]; omega), h2.regs _ (boardReg_vcmd c)]
    rw [h3c, h1c]
    exact hmode

end Sys2Proof.Machine
end

