-- ==== Sys2Proof/Proofs/LoopMaster.lean ====
section
/-! LoopMaster (O40), second part: the board messages sent and heard (R471-R473, R549, R550). -/

namespace Sys2Proof.Machine

/-! ### What is known of the modules -/

theorem State.peer_setPeer (u : State) (k m : Nat) (p : Peer) : (u.setPeer k p).peer m = if m = k then p else u.peer m :=
  Tab.get_set _ _ _ _ _

/-- From `u` to `v` what is known of other modules alone. -/
def State.peersOnly (u v : State) : Prop := v = { u with cool := { u.cool with peers := v.cool.peers } }

/-- The hearings of a period counted (R472). -/
theorem State.peers_aged (l : List Nat) (u : State) (hn : l.Nodup) :
    let v := l.foldl (fun (s : State) k => s.setPeer k (s.peer k).age) u
    u.peersOnly v ∧ ∀ m, v.peer m = if m ∈ l then (u.peer m).age else u.peer m := by
  induction l generalizing u with
  | nil => exact ⟨rfl, fun _ => rfl⟩
  | cons k r ih =>
    obtain ⟨hk, hr⟩ := List.nodup_cons.mp hn
    obtain ⟨h1, h2⟩ := ih (u.setPeer k (u.peer k).age) hr
    refine ⟨h1.trans rfl, fun m => (h2 m).trans ?_⟩
    rw [u.peer_setPeer]
    by_cases hm : m = k
    · subst hm
      rw [if_neg hk, if_pos rfl, if_pos List.mem_cons_self]
    · rw [if_neg hm]
      simp only [List.mem_cons, hm, false_or]

/-! ### The messages of a period -/

/-- From `u` to `v` the board messages were sent: nothing else changed but what the module knows of itself, its alerts and the free
values. -/
structure State.sent (u v : State) : Prop where
  rest : v = { u with free := v.free, cool := v.cool, can := v.can }
  up : u.canUp = true → u.on CANFD_CTL_FDEN = true → v.cool.loopSent = (u.cool.loopSent + 1) % 2 ^ 32 ∧
    ∃ fs, v.can.wire = u.can.wire ++ u.loopFrame :: fs
  down : u.canUp = false ∨ u.on CANFD_CTL_FDEN = false → v = u

theorem State.statusFrame_free (u : State) : ∃ x, u.statusFrame.2 = { u with free := x } := by
  unfold State.statusFrame
  cases u.on BELLOWS_SAFESTAT_MASTER
  · exact ⟨u.free, rfl⟩
  · exact ⟨_, rfl⟩

theorem State.sent_sendBoard (u : State) : u.sent u.sendBoard := by
  unfold State.sendBoard
  by_cases h : u.canUp = false ∨ u.on CANFD_CTL_FDEN = false
  · rw [if_pos h]
    refine ⟨rfl, fun h1 h2 => ?_, fun _ => rfl⟩
    simp [h1, h2] at h
  · rw [if_neg h]
    obtain ⟨x, hs⟩ := u.statusFrame_free
    generalize u.statusFrame = p at hs ⊢
    obtain ⟨sf, w⟩ := p
    subst hs
    exact ⟨rfl, fun _ _ => ⟨rfl, _, rfl⟩, fun hd => absurd hd h⟩

/-! ### Hearing a module -/

/-- A module's record once its LOOP message has come (R472, R473). -/
def Peer.hears (p : Peer) (f : CanFrame) (now : Nat) : Peer :=
  { p with
    cand := bit (leAt f.data 0 1) 3, healthy := bit (leAt f.data 0 1) 4, flow := leAt f.data 1 1, fresh := true
    claimAt := if bit (leAt f.data 0 1) 5 then some now else p.claimAt }

/-- A claim from a lower slot ends the module's own. -/
def State.yields (u : State) (f : CanFrame) : Bool := bit (leAt f.data 0 1) 5 && leAt f.data 0 1 % 8 < u.slotId

/-- The state once a LOOP message is heard. -/
def State.hears (u : State) (f : CanFrame) : State :=
  let v := u.setPeer (leAt f.data 0 1 % 8) ((u.peer (leAt f.data 0 1 % 8)).hears f u.now)
  if u.yields f then v.setMaster false else v

theorem State.hears_kept (u : State) (f : CanFrame) (h : u.yields f = false) :
    u.hears f = u.setPeer (leAt f.data 0 1 % 8) ((u.peer (leAt f.data 0 1 % 8)).hears f u.now) := by
  unfold State.hears
  rw [h]
  rfl

theorem State.hears_yields (u : State) (f : CanFrame) (h : u.yields f = true) :
    (u.setPeer (leAt f.data 0 1 % 8) ((u.peer (leAt f.data 0 1 % 8)).hears f u.now)).masterSet (u.hears f) false := by
  unfold State.hears
  rw [h]
  exact State.masterSet_setMaster _ _

theorem State.outputsRest_hears (u : State) (f : CanFrame) :
    (u.setPeer (leAt f.data 0 1 % 8) ((u.peer (leAt f.data 0 1 % 8)).hears f u.now)).outputsRest (u.hears f) := by
  cases h : u.yields f with
  | true => exact (u.hears_yields f h).rest
  | false =>
    rw [u.hears_kept f h]
    rfl

theorem execLoopMessage_taken (s : State) (f : CanFrame) (t : Nat) (ht : (s.at t).canTakes f = true) (hfd : f.fdf = true)
    (hide : f.ide = false) (hrtr : f.rtr = false) (hlen : f.data.length = 16) (hid : f.id = 0x100 + leAt f.data 0 1 % 8)
    (hk : leAt f.data 0 1 % 8 ≠ (s.at t).slotId) : exec (.loopMessage f t) s = .next ((s.at t).hears f) :=
  if_neg (by simp [ht, hfd, hide, hrtr, hlen, hid, hk])

/-! ### The statement -/

theorem State.at_eq (s : State) (t : Nat) : ∃ m c, s.at t = { s with now := max s.now t, mclk := m, core := c } := by
  unfold State.at
  extract_lets dt m
  split
  · exact ⟨_, _, rfl⟩
  · exact ⟨_, s.core, rfl⟩

section
variable (s : State) (t : Nat)

theorem State.mem_at : (s.at t).mem = s.mem := by obtain ⟨_, _, h⟩ := s.at_eq t; rw [h]
theorem State.hammer_at : (s.at t).hammer = s.hammer := by obtain ⟨_, _, h⟩ := s.at_eq t; rw [h]
theorem State.anvils_at : (s.at t).anvils = s.anvils := by obtain ⟨_, _, h⟩ := s.at_eq t; rw [h]
theorem State.jobs_at : (s.at t).jobs = s.jobs := by obtain ⟨_, _, h⟩ := s.at_eq t; rw [h]
theorem State.cool_at : (s.at t).cool = s.cool := by obtain ⟨_, _, h⟩ := s.at_eq t; rw [h]
theorem State.can_at : (s.at t).can = s.can := by obtain ⟨_, _, h⟩ := s.at_eq t; rw [h]

theorem State.peer_at (k : Nat) : (s.at t).peer k = s.peer k := by unfold State.peer; rw [s.cool_at]
theorem State.slotId_at : (s.at t).slotId = s.slotId := s.get_at t _

end

/-- The state at the end of a period, its hearings counted, before the election. -/
def State.counted (u : State) : State := (List.range 8).foldl (fun (s : State) k => s.setPeer k (s.peer k).age) u.sendBoard

/-- What stands as the messages are sent and the hearings counted. -/
theorem State.counted_rest (u : State) : u.counted = { u with free := u.counted.free, cool := u.counted.cool, can := u.counted.can } := by
  have hsent := u.sent_sendBoard.rest
  obtain ⟨hpeers, -⟩ := State.peers_aged (List.range 8) u.sendBoard List.nodup_range
  change State.peersOnly _ u.counted at hpeers
  generalize u.counted = x at hpeers ⊢
  generalize u.sendBoard = w at hsent hpeers
  rw [hpeers, hsent]

/-- Every module's hearings are counted. -/
theorem State.counted_sent (u : State) : ∃ w, u.sent w ∧ w.peersOnly u.counted ∧ ∀ k, k < 8 → u.counted.peer k = (w.peer k).age := by
  obtain ⟨h1, h2⟩ := State.peers_aged (List.range 8) u.sendBoard List.nodup_range
  exact ⟨_, u.sent_sendBoard, h1, fun k hk => (h2 k).trans (if_pos (List.mem_range.mpr hk))⟩

/-- Settles O40: what the module sends (`sent_sendBoard`), the hearings counted (`peers_aged`), the election put in force
(`elected_election`). That a module knows the size of its board from those it hears, and that the channels a master drives are those
whose MODE is not OFF, is the model's choice (assumption log 147). -/
theorem loopMaster : Obligations.LoopMaster := by
  intro s t u
  have hslot : u.slotId = s.slotId := s.slotId_at t
  refine ⟨fun hstep => ?_, ?_, fun f ht hfd hide hrtr hlen h1 h2 hk => ?_⟩
  · have hexec : exec (.loopPeriod t) s = .next u.counted.election := if_neg (by rw [s.pwr_at]; omega)
    refine ⟨_, hexec, ?_⟩
    have hcount := u.counted_rest
    obtain ⟨w, hsent, hpeers, haged⟩ := u.counted_sent
    generalize u.counted = x at hcount hpeers haged ⊢
    obtain ⟨hr, hvs, hshown, hmaster, hprot⟩ := x.elected_election
    generalize x.election = v at hr hvs hshown hmaster hprot ⊢
    have hget : ∀ g, x.get g = s.get g := fun g => by
      rw [← s.get_at t]
      unfold State.get State.rd
      rw [hcount]
    have hloop : v.cool.loopSent = w.cool.loopSent := by rw [hr, hpeers]
    have hcan : v.can = w.can := by rw [hr, hpeers]
    refine ⟨by rw [hr, hcount]; exact s.mem_at t, by rw [hr, hcount]; exact s.hammer_at t, by rw [hr, hcount]; exact s.anvils_at t,
      by rw [hr, hcount]; exact s.jobs_at t, ?_, ?_, fun hm hb c hc h0 => ?_, fun hup hfd => ?_, fun hdown => ?_⟩
    · rw [hshown, State.electMaster_outputsRest hr]
    · rw [hmaster, State.electMaster_outputsRest hr, State.lowerClaim_outputsRest hr hvs, show x.slotId = s.slotId from hget _]
    · exact hprot hm (by rw [← State.boardSize_outputsRest hr hvs]; exact hb) c hc (by rw [hget]; exact h0)
    · rw [hloop, hcan, ← s.cool_at t, ← s.can_at t]
      exact hsent.up hup (by rw [← hfd]; unfold State.on; rw [s.get_at t])
    · have hw := hsent.down (hdown.imp_right fun h => by rw [← h]; unfold State.on; rw [s.get_at t])
      refine ⟨by rw [hcan, hw, s.can_at t], fun k hk => ?_⟩
      rw [State.peer_outputsRest hr, haged k hk, hw, s.peer_at t]
  · intro f b k ht hfd hide hrtr hlen hid hk
    refine ⟨_, execLoopMessage_taken s f t ht hfd hide hrtr hlen hid (by rw [s.slotId_at]; exact hk), ?_⟩
    have hrest := u.outputsRest_hears f
    have hvp : ∀ m, (u.hears f).peer m = if m = k then (s.peer k).hears f u.now else s.peer m := fun m => by
      rw [State.peer_outputsRest hrest, State.peer_setPeer, s.peer_at, s.peer_at]
    refine ⟨by rw [hrest]; exact s.mem_at t, by rw [hrest]; exact s.hammer_at t, (hvp k).trans (if_pos rfl),
      fun m hm => (hvp m).trans (if_neg hm), fun hb hlt => ?_, fun h => ?_⟩
    · exact (u.hears_yields f (by unfold State.yields; rw [hslot]; exact (Bool.and_eq_true _ _).mpr ⟨hb, decide_eq_true hlt⟩)).master
    · have hy : u.yields f = false := by
        unfold State.yields
        rw [hslot, Bool.and_eq_false_iff]
        exact h.imp_right fun hlt => decide_eq_false (by omega)
      rw [u.hears_kept f hy]
      rfl
  · have hexec : exec (.alertRx f t) s = .next (u.event 0x0610 2 (14 * 256 + (f.id - 0x080)) (f.id - 0x080) (leAt f.data 0 1)
        (leAt f.data 4 4)) := by
      have ht : (s.at t).canTakes f = true := ht
      refine if_neg ?_
      rw [s.slotId_at]
      simp only [ht, hfd, hide, hrtr, hlen, Bool.false_eq_true, Bool.true_eq_false, ne_eq, not_true_eq_false, false_or]
      omega
    exact ⟨_, hexec, u.recorded_event _ _ _ _ _ _, u.only_event _ _ _ _ _ _ _⟩

end Sys2Proof.Machine
end

