-- ==== Sys2Proof/Proofs/IntArith.lean ====
section
/-! IntegerSaturates (O4). Two's-complement numbers, the low bits of an integer, and saturation (R51, R86), as bit vectors say
them. -/

namespace Sys2Proof.Machine

/-! ### Two's complement -/

theorem sgn_eq_toInt (w x : Nat) : sgn w x = (BitVec.ofNat w x).toInt := by
  unfold sgn
  rw [BitVec.toInt_eq_toNat_cond, BitVec.toNat_ofNat]
  cases w with
  | zero => simp [Nat.mod_one]
  | succ w =>
    rw [Nat.add_sub_cancel, pow_succ]
    congr 1
    rw [Nat.mul_comm (2 ^ w) 2]
    simp

theorem sgn_toNat {w : Nat} (x : BitVec w) : sgn w x.toNat = x.toInt := by
  rw [sgn_eq_toInt, BitVec.ofNat_toNat, BitVec.setWidth_eq]

theorem wrap_eq_toNat (w : Nat) (v : Int) : wrap w v = (BitVec.ofInt w v).toNat := by
  rw [BitVec.toNat_ofInt]; rfl

theorem ofNat_wrap (w : Nat) (v : Int) : BitVec.ofNat w (wrap w v) = BitVec.ofInt w v := by
  rw [wrap_eq_toNat, BitVec.ofNat_toNat, BitVec.setWidth_eq]

theorem sgn_wrap {w : Nat} {v : Int} (hw : 0 < w) (hlo : -2 ^ (w - 1) ≤ v) (hhi : v ≤ 2 ^ (w - 1) - 1) : sgn w (wrap w v) = v := by
  rw [sgn_eq_toInt, ofNat_wrap, BitVec.toInt_ofInt]
  obtain ⟨k, rfl⟩ := Nat.exists_eq_add_of_lt hw
  simp only [Nat.zero_add, Nat.add_sub_cancel] at *
  refine Int.bmod_eq_of_le ?_ ?_ <;> push_cast [pow_succ] <;> omega

theorem wrap_of_nonneg {w : Nat} {v : Int} (h0 : 0 ≤ v) (hhi : v ≤ 2 ^ w - 1) : (wrap w v : Int) = v := by
  unfold wrap
  rw [Int.toNat_of_nonneg (Int.emod_nonneg _ (by positivity))]
  exact Int.emod_eq_of_lt h0 (by push_cast; omega)

theorem sgn_range (w x : Nat) : -2 ^ (w - 1) ≤ sgn w x ∧ sgn w x ≤ 2 ^ (w - 1) - 1 := by
  rw [sgn_eq_toInt]
  have h1 := BitVec.le_toInt (BitVec.ofNat w x)
  have h2 := BitVec.toInt_lt (x := BitVec.ofNat w x)
  omega

/-- A number of `v` bits sign-extended to `w` bits. -/
theorem sgn_wrap_sgn {v w : Nat} (hv : 0 < v) (hw : v ≤ w) (x : Nat) : sgn w (wrap w (sgn v x)) = sgn v x := by
  obtain ⟨h1, h2⟩ := sgn_range v x
  have hp : (2 : Int) ^ (v - 1) ≤ 2 ^ (w - 1) := pow_le_pow_right₀ (by decide) (by omega)
  exact sgn_wrap (by omega) (by omega) (by omega)

/-! ### Saturation -/

/-- The nearest signed number of `w` bits, and whether it is another. -/
def clampS (w : Nat) (v : Int) : Int := max (-2 ^ (w - 1)) (min (2 ^ (w - 1) - 1) v)
/-- See `clampS`. -/
def outS (w : Nat) (v : Int) : Bool := decide (v < -2 ^ (w - 1) ∨ 2 ^ (w - 1) - 1 < v)
/-- The nearest unsigned number of `w` bits, and whether it is another. -/
def clampU (w : Nat) (v : Int) : Int := max 0 (min (2 ^ w - 1) v)
/-- See `clampU`. -/
def outU (w : Nat) (v : Int) : Bool := decide (v < 0 ∨ 2 ^ w - 1 < v)

theorem satS_eq (w : Nat) (v : Int) : satS w v = (clampS w v, outS w v) := by
  unfold satS clampS outS
  have hp : (0 : Int) < 2 ^ (w - 1) := by positivity
  push_cast
  split
  · rw [Prod.mk.injEq]; exact ⟨by omega, (decide_eq_true (by omega)).symm⟩
  · split
    · rw [Prod.mk.injEq]; exact ⟨by omega, (decide_eq_true (by omega)).symm⟩
    · rw [Prod.mk.injEq]; exact ⟨by omega, (decide_eq_false (by omega)).symm⟩

theorem satU_eq (w : Nat) (v : Int) : satU w v = (clampU w v, outU w v) := by
  unfold satU clampU outU
  have hp : (0 : Int) < 2 ^ w := by positivity
  push_cast
  split
  · rw [Prod.mk.injEq]; exact ⟨by omega, (decide_eq_true (by omega)).symm⟩
  · split
    · rw [Prod.mk.injEq]; exact ⟨by omega, (decide_eq_true (by omega)).symm⟩
    · rw [Prod.mk.injEq]; exact ⟨by omega, (decide_eq_false (by omega)).symm⟩

theorem intOp_signed (w : Nat) (op : IOp) (a b : Nat) :
    intOp w true op a b = (wrap w (clampS w (op.eval (sgn w a) (sgn w b))), outS w (op.eval (sgn w a) (sgn w b))) := by
  unfold intOp
  simp only [if_true, satS_eq]

theorem intOp_unsigned (w : Nat) (op : IOp) (a b : Nat) :
    intOp w false op a b = (wrap w (clampU w (op.eval ((a % 2 ^ w : Nat) : Int) ((b % 2 ^ w : Nat) : Int))),
      outU w (op.eval ((a % 2 ^ w : Nat) : Int) ((b % 2 ^ w : Nat) : Int))) := by
  unfold intOp
  simp only [Bool.false_eq_true, if_false, satU_eq]

theorem sgn_wrap_clampS {w : Nat} (hw : 0 < w) (v : Int) : sgn w (wrap w (clampS w v)) = clampS w v := by
  have hp : (0 : Int) < 2 ^ (w - 1) := by positivity
  refine sgn_wrap hw ?_ ?_ <;> unfold clampS <;> omega

theorem wrap_clampU (w : Nat) (v : Int) : (wrap w (clampU w v) : Int) = clampU w v := by
  have hp : (0 : Int) < 2 ^ w := by positivity
  refine wrap_of_nonneg ?_ ?_ <;> unfold clampU <;> omega

/-- Settles O4: `intOp` keeps the low bits of the clamped exact result, which has no others. -/
theorem integerSaturates : Obligations.IntegerSaturates := by
  intro w a b op hw
  refine ⟨⟨?_, ?_⟩, ?_, ?_⟩
  · rw [intOp_signed]; exact sgn_wrap_clampS hw _
  · rw [intOp_signed]; exact decide_eq_true_iff
  · rw [intOp_unsigned]; exact wrap_clampU w _
  · rw [intOp_unsigned]; exact decide_eq_true_iff

end Sys2Proof.Machine
end

