-- ==== Sys2Proof/Proofs/ScalarWords.lean ====
section
/-! ScalarWords (O11). The scalar words of the C slot: one register at the next position, or later (R155, R198). -/

namespace Sys2Proof.Machine

/-! ### Operations on 64-bit words -/

/-- The exact result of an operation on two words, signed or not. -/
def exactOf (sg : Bool) (o : IOp) (a b : Word) : Int := if sg then o.eval a.toInt b.toInt else o.eval a.toNat b.toNat

/-- The nearest word, signed or not. -/
def clampWord (sg : Bool) (v : Int) : Word := BitVec.ofInt 64 (if sg then clampS 64 v else clampU 64 v)

/-- Whether it is another. -/
def outWord (sg : Bool) (v : Int) : Bool := if sg then outS 64 v else outU 64 v

theorem ofNat_intOp (sg : Bool) (o : IOp) (a b : Word) :
    BitVec.ofNat 64 (intOp 64 sg o a.toNat b.toNat).1 = clampWord sg (exactOf sg o a b) ∧
      (intOp 64 sg o a.toNat b.toNat).2 = outWord sg (exactOf sg o a b) := by
  cases sg with
  | true =>
    rw [intOp_signed, sgn_toNat, sgn_toNat]
    exact ⟨ofNat_wrap _ _, rfl⟩
  | false =>
    rw [intOp_unsigned, Nat.mod_eq_of_lt a.isLt, Nat.mod_eq_of_lt b.isLt]
    exact ⟨ofNat_wrap _ _, rfl⟩

/-- A word and a sign-extended immediate. -/
theorem ofNat_intOp_imm (o : IOp) (a : Word) {w : Nat} (hw : 0 < w) (hw64 : w ≤ 64) (i : Nat) :
    let v := o.eval a.toInt (sgn w i)
    BitVec.ofNat 64 (intOp 64 true o a.toNat (wrap 64 (sgn w i))).1 = clampWord true v ∧
      (intOp 64 true o a.toNat (wrap 64 (sgn w i))).2 = outWord true v := by
  rw [intOp_signed, sgn_toNat, sgn_wrap_sgn hw hw64]
  exact ⟨ofNat_wrap _ _, rfl⟩

/-! ### The words -/

theorem noDup_csDests {op : Nat} (f : CSf) (h : 0x48 ≤ op) : noDup (csDests op f) = true := by
  unfold csDests
  rw [if_neg (by omega), if_neg (by omega)]
  split <;> rfl

/-- The predicate number of `pcount` (R155). -/
theorem csLegal_pcount {f : CSf} (h : csLegal 0x5A f = true) : f.imm < 8 := by
  simp [csLegal] at h
  exact h.2.2

section
variable {s : State} {h : Hd} {f : CSf} {op : Nat} (hs : s.sole h [0]) (hop : 0x48 ≤ op)
include hs hop

/-- A scalar word that writes at the next position. -/
theorem csOp_wrote {legal : Bool} (hl : legal = true) (eff : State → List Flight) {x : Word} {sat : Bool}
    (he : eff s = [⟨1, .s f.d x sat⟩]) :
    ∃ t, s.slotOp h { csOp op f eff with legal := legal } = .next t ∧ s.wrote t h f.d x sat :=
  slotOp_wrote s h { csOp op f eff with legal := legal } hs hl (noDup_csDests f hop) rfl rfl f.d x sat he

/-- A scalar word that writes later. -/
theorem csOp_willWrite {legal : Bool} (hl : legal = true) (eff : State → List Flight) {lat : Nat} {x : Word} {sat : Bool}
    (he : eff s = [⟨lat, .s f.d x sat⟩]) (hlat : 2 ≤ lat) :
    ∃ t, s.slotOp h { csOp op f eff with legal := legal } = .next t ∧ s.willWrite t h lat f.d x sat :=
  slotOp_willWrite s h { csOp op f eff with legal := legal } hs hl (noDup_csDests f hop) rfl rfl lat f.d x sat he hlat

end

theorem legal_within {legal : Bool} {op lo hi : Nat} (hl : legal = true) (h1 : lo ≤ op) (h2 : op ≤ hi) :
    (legal && within op lo hi) = true := by
  unfold within
  simp [hl, h1, h2]

section
variable {s : State} {h : Hd} {f : CSf} {op : Nat} (hs : s.sole h [0]) (h1 : 0x48 ≤ op) (h2 : op ≤ 0x4D)
  (hl : csLegal op f = true) (sg : Bool) (o : IOp) (ha : arithOf (op - 0x48) = (sg, o))
include hs h1 h2 hl ha

/-- Scalar addition and subtraction. -/
theorem sArith_wrote (ho : o ≠ .mul) :
    let v := exactOf sg o (s.sreg f.a) (s.sreg f.b)
    ∃ t, exec (.sArith h op f) s = .next t ∧ s.wrote t h f.d (clampWord sg v) (outWord sg v) := by
  obtain ⟨e1, e2⟩ := ofNat_intOp sg o (s.sreg f.a) (s.sreg f.b)
  refine csOp_wrote hs h1 (legal_within hl h1 h2) _ ?_
  rw [← e1, ← e2, ha]
  simp only [if_neg ho]

/-- Scalar multiplication. -/
theorem sArith_willWrite (ho : o = .mul) :
    let v := exactOf sg o (s.sreg f.a) (s.sreg f.b)
    ∃ t, exec (.sArith h op f) s = .next t ∧ s.willWrite t h 3 f.d (clampWord sg v) (outWord sg v) := by
  obtain ⟨e1, e2⟩ := ofNat_intOp sg o (s.sreg f.a) (s.sreg f.b)
  refine csOp_willWrite hs h1 (legal_within hl h1 h2) _ ?_ (by decide)
  rw [← e1, ← e2, ha]
  simp only [if_pos ho]

end

/-- Addition of the signed 24-bit immediate. -/
theorem sAddi_wrote {s : State} {h : Hd} {f : CSf} (hs : s.sole h [0]) (hl : csLegal 0x54 f = true) :
    let v := IOp.add.eval (s.sreg f.a).toInt (sgn 24 f.imm)
    ∃ t, exec (.addiS64 h f) s = .next t ∧ s.wrote t h f.d (clampWord true v) (outWord true v) := by
  obtain ⟨e1, e2⟩ := ofNat_intOp_imm .add (s.sreg f.a) (w := 24) (by decide) (by decide) f.imm
  refine csOp_wrote (op := 0x54) hs (by decide) hl _ ?_
  rw [← e1, ← e2]
  rfl

/-- Settles O11: each word has one effect, whose value is the clamped exact result (`ofNat_intOp`), the row's bit operation, or
what it reads. -/
theorem scalarWords : Obligations.ScalarWords := by
  intro s h f hs a b clampS' clampU' outS' outU'
  refine ⟨fun hl => ?_, fun hl => ?_, fun hl => ?_, fun hl => ?_, fun hl => ?_, fun hl => ?_, fun op h1 h2 hl => ?_,
    fun op h1 h2 hl => ?_, fun hl => ?_, fun hl => ?_, fun hl => ?_, fun hl => ?_⟩
  · exact sArith_wrote hs (by decide) (by decide) hl true .add rfl (by decide)
  · exact sArith_wrote hs (by decide) (by decide) hl true .sub rfl (by decide)
  · exact sArith_willWrite hs (by decide) (by decide) hl true .mul rfl rfl
  · exact sArith_wrote hs (by decide) (by decide) hl false .add rfl (by decide)
  · exact sArith_wrote hs (by decide) (by decide) hl false .sub rfl (by decide)
  · exact sArith_willWrite hs (by decide) (by decide) hl false .mul rfl rfl
  · refine csOp_wrote hs (by omega) (legal_within hl h1 h2) _ ?_
    interval_cases op <;> rfl
  · refine csOp_wrote hs (by omega) (legal_within hl h1 h2) _ ?_
    interval_cases op <;> rfl
  · exact sAddi_wrote hs hl
  · exact csOp_wrote (op := 0x55) hs (by decide) hl _ rfl
  · exact csOp_wrote (op := 0x5B) hs (by decide) hl _ rfl
  · refine csOp_willWrite (op := 0x5A) hs (by decide) hl _ ?_ (by decide)
    rw [Nat.mod_eq_of_lt (csLegal_pcount hl)]
    rfl

end Sys2Proof.Machine
end

