-- ==== Sys2Proof/Proofs/VectorOps.lean ====
section
/-! SUPPORT. What the V-slot words share: a legal word alone in its bundle has its result under way in every executing Anvil, and a
lane's function matters on 32-bit operands alone. -/

namespace Sys2Proof.Machine

/-! ### The words -/

theorem noDup_vrDests (op : Nat) (f : VRf) : noDup (vrDests op f) = true := by
  unfold vrDests
  split <;> rfl

theorem noDup_viDests (op : Nat) (f : VIf) : noDup (viDests op f) = true := by
  unfold viDests
  split <;> rfl

section
variable {s : State} {h : Hd} (hs : s.sole h [3, 4]) {op lo hi : Nat} (h1 : lo ≤ op) (h2 : op ≤ hi) {lat cls : Nat}
  (hlat : 2 ≤ lat) {r : State → Nat → AEff × Flags} {r' : Nat → AEff × Flags} (hr : ∀ g, r s g = r' g)
include hs h1 h2 hlat hr

/-- A VR word whose results are `r'`. -/
theorem vrOp_underWay {f : VRf} (hl : vrLegal op f = true) :
    ∃ t, s.slotOp h (vrOp op lo hi f lat cls r) = .next t ∧ s.underWay t h f.pred lat cls r' := by
  rw [← funext hr]
  exact slotOp_underWay s h vSlots _ _ f.pred lat cls r hs (legal_within hl h1 h2) (noDup_vrDests op f) hlat

/-- A VI word whose results are `r'`. -/
theorem viOp_underWay {f : VIf} (hl : viLegal op f = true) :
    ∃ t, s.slotOp h (viOp op lo hi f lat cls r) = .next t ∧ s.underWay t h f.pred lat cls r' := by
  rw [← funext hr]
  exact slotOp_underWay s h vSlots _ _ f.pred lat cls r hs (legal_within hl h1 h2) (noDup_viDests op f) hlat

end

/-- A VR word that may draw, whose results and generators are `r'`. -/
theorem vrSr_underWayDraw {s : State} {h : Hd} (hs : s.sole h [3, 4]) {op lo hi : Nat} (h1 : lo ≤ op) (h2 : op ≤ hi) {f : VRf}
    (hl : vrLegal op f = true) {r : State → Nat → Word → Row × Flags × Word} {r' : Nat → Word → AEff × Flags × Word}
    (hr : ∀ g st, (AEff.v f.d (r s g st).1, (r s g st).2.1, (r s g st).2.2) = r' g st) :
    ∃ t, s.slotOp h (vrSr op lo hi f r) = .next t ∧ s.underWayDraw t h f.pred 4 5 r' := by
  rw [← funext fun g => funext (hr g)]
  exact slotOp_underWayDraw s h vSlots _ _ f.pred latVF actVF
    (fun s g st => (AEff.v f.d (r s g st).1, (r s g st).2.1, (r s g st).2.2)) hs (legal_within hl h1 h2) (noDup_vrDests op f)
    (by decide)

/-! ### Lanes -/

theorem lane_lt (x : Row) (l : Nat) : lane x l < 2 ^ 32 := Nat.mod_lt _ (by decide)

theorem lanes2_congr {fn fn' : Nat → Nat → Nat × Flags} (h : ∀ a b, a < 2 ^ 32 → b < 2 ^ 32 → fn a b = fn' a b) (x y : Row) :
    lanes2 fn x y = lanes2 fn' x y := by
  unfold lanes2
  simp only [h _ _ (lane_lt _ _) (lane_lt _ _)]

theorem lanes3_congr {fn fn' : Nat → Nat → Nat → Nat × Flags} (h : ∀ a b c, fn a b c = fn' a b c) (x y z : Row) :
    lanes3 fn x y z = lanes3 fn' x y z := by
  rw [show fn = fn' from funext fun a => funext fun b => funext (h a b)]

/-- A lane-by-lane VR operation, by its function on 32-bit operands. -/
theorem vrLanes_congr {fn fn' : Nat → Nat → Nat × Flags} (h : ∀ a b, a < 2 ^ 32 → b < 2 ^ 32 → fn a b = fn' a b) (f : VRf)
    (s : State) (g : Nat) :
    vrLanes f fn s g = (AEff.v f.d (lanes2 fn' (s.vecSrc g f.sf f.a) (s.vecSrc g f.sf f.b)).1,
      (lanes2 fn' (s.vecSrc g f.sf f.a) (s.vecSrc g f.sf f.b)).2) := by
  rw [← lanes2_congr h]; rfl

/-- A lane-by-lane VI operation, by its function on 32-bit operands. -/
theorem viLanes_congr {fn fn' : Nat → Nat × Flags} (h : ∀ a, a < 2 ^ 32 → fn a = fn' a) (f : VIf) (s : State) (g : Nat) :
    viLanes f fn s g = (AEff.v f.d (lanes2 (fun a _ => fn' a) (s.vecSrc g f.sf f.a) 0).1,
      (lanes2 (fun a _ => fn' a) (s.vecSrc g f.sf f.a) 0).2) := by
  rw [← lanes2_congr (fn := fun a _ => fn a) (fun a _ ha _ => h a ha)]; rfl

/-! ### Scalars -/

/-- The register a scalar V-slot word writes: file 1 g, file 2 k, else p (R165). -/
theorem fileEff_eq (file d x : Nat) :
    fileEff file d x = if file = 1 then AEff.g d (BitVec.ofNat 64 x) else if file = 2 then .k d (BitVec.ofNat 64 x)
      else .p d (x % 2 ^ 64 != 0) := by
  unfold fileEff
  split
  · rfl
  · rfl
  · next h1 h2 => rw [if_neg h1, if_neg h2]

theorem fileEff_gk {file : Nat} (h : file = 1 ∨ file = 2) (d x : Nat) :
    fileEff file d x = if file = 1 then AEff.g d (BitVec.ofNat 64 x) else .k d (BitVec.ofNat 64 x) := by
  rcases h with rfl | rfl <;> rfl

/-! ### Integer results -/

/-- A bitwise operation on numbers of `w` bits. -/
theorem toNat_bitwise {w a b : Nat} (ha : a < 2 ^ w) (hb : b < 2 ^ w) (i : Nat) :
    (bitwise i (BitVec.ofNat w a) (BitVec.ofNat w b)).toNat = if i = 0 then a &&& b else if i = 1 then a ||| b else a ^^^ b := by
  unfold bitwise
  split
  · simp [Nat.mod_eq_of_lt ha, Nat.mod_eq_of_lt hb]
  · simp [Nat.mod_eq_of_lt ha, Nat.mod_eq_of_lt hb]
  · next h0 h1 => simp [Nat.mod_eq_of_lt ha, Nat.mod_eq_of_lt hb, if_neg h0, if_neg h1]

/-- A shift of a number of `w` bits. -/
theorem toNat_shift {w a : Nat} (ha : a < 2 ^ w) (i n : Nat) :
    (shift i (BitVec.ofNat w a) n).toNat =
      if i = 0 then a * 2 ^ n % 2 ^ w else if i = 1 then a / 2 ^ n else wrap w (sgn w a / 2 ^ n) := by
  unfold shift
  split
  · simp [Nat.shiftLeft_eq]
  · simp [Nat.shiftRight_eq_div_pow, Nat.mod_eq_of_lt ha]
  · next h0 h1 =>
    rw [if_neg h0, if_neg h1, sgn_eq_toInt, wrap_eq_toNat, BitVec.sshiftRight, Int.shiftRight_eq_div_pow]
    norm_cast

end Sys2Proof.Machine
end

