-- ==== Sys2Proof/Proofs/VectorInteger.lean ====
section
/-! VectorIntegerWords (O2) and VectorScalarWords (O3). The 32-bit lanes and the 64-bit scalars of the V slots (R86, R87). -/

namespace Sys2Proof.Machine

/-! ### Saturating results -/

/-- An exact value cut to `w` bits, signed or not, with INT_SAT where it does not fit (R86). -/
def satOf (w : Nat) (sg : Bool) (v : Int) : Nat × Flags :=
  (wrap w (if sg then clampS w v else clampU w v), flagIf (if sg then outS w v else outU w v) fIntSat)

theorem satFl_satS (w : Nat) (v : Int) : satFl (wrap w (satS w v).1, (satS w v).2) = satOf w true v := by
  rw [satS_eq]; rfl

theorem satFl_intOp {w a b : Nat} (ha : a < 2 ^ w) (hb : b < 2 ^ w) (sg : Bool) (o : IOp) :
    satFl (intOp w sg o a b) = satOf w sg (o.eval (if sg then sgn w a else a) (if sg then sgn w b else b)) := by
  cases sg with
  | true => rw [intOp_signed]; rfl
  | false => rw [intOp_unsigned, Nat.mod_eq_of_lt ha, Nat.mod_eq_of_lt hb]; rfl

theorem intCmp_le (w a b : Nat) : intCmp w true .le a b = decide (sgn w a ≤ sgn w b) := by
  unfold intCmp Cond.holds
  simp only [if_true, sub_nonpos]

theorem intCmp_ge (w a b : Nat) : intCmp w true .ge a b = decide (sgn w b ≤ sgn w a) := by
  unfold intCmp Cond.holds
  simp only [if_true, ge_iff_le, sub_nonneg]

/-- Settles O2: each word is its function on 32-bit lanes (`vrLanes_congr`). -/
theorem vectorIntegerWords : Obligations.VectorIntegerWords := by
  intro s h f hs two sat
  refine ⟨fun op h1 h2 hl => ?_, fun op h1 h2 hl => ?_, fun hl => ?_, fun hl => ?_, fun op h1 h2 hl => ?_,
    fun op h1 h2 hl => ?_⟩
  · refine vrOp_underWay hs h1 h2 (by decide) (vrLanes_congr (fun a b ha hb => ?_) f s) hl
    have key := satFl_intOp ha hb
    interval_cases op <;> exact key _ _
  · refine vrOp_underWay hs h1 h2 (by decide) (vrLanes_congr (fun a b _ _ => ?_) f s) hl
    have hop : op = 0x26 ∨ op = 0x27 := by omega
    rcases hop with rfl | rfl
    · exact congrArg noFl (by simp only [if_true, intCmp_le, decide_eq_true_eq])
    · exact congrArg noFl (by simp [intCmp_ge])
  · refine vrOp_underWay hs le_rfl le_rfl (by decide) (vrLanes_congr (fun a b _ _ => ?_) f s) hl
    exact (satFl_satS 32 (sgn 32 a).natAbs).trans (by rw [Int.natCast_natAbs]; rfl)
  · refine vrOp_underWay hs le_rfl le_rfl (by decide) (vrLanes_congr (fun a b _ _ => ?_) f s) hl
    exact (satFl_satS 32 (sgn 32 a * (2 ^ (b % 32) : Nat))).trans (by push_cast; rfl)
  · refine vrOp_underWay hs h1 h2 (by decide) (vrLanes_congr (fun a b ha hb => ?_) f s) hl
    have key := toNat_bitwise ha hb (op - 0x2A)
    interval_cases op <;> exact congrArg noFl key
  · refine vrOp_underWay hs h1 h2 (by decide) (vrLanes_congr (fun a b ha _ => ?_) f s) hl
    have key := toNat_shift ha (op - 0x2D) (b % 32)
    interval_cases op <;> exact congrArg noFl key

/-! ### Scalars -/

/-- A scalar VR operation: its function's result in the file named, with its flags. -/
theorem vrScalar_eq (f : VRf) (fn : Nat → Nat → Nat × Flags) (s : State) (g : Nat) :
    let x := fn (s.scalar g f.sf f.a) (s.scalar g f.sf f.b)
    vrScalar f fn s g = (if f.df = 1 then AEff.g f.d (BitVec.ofNat 64 x.1) else if f.df = 2 then .k f.d (BitVec.ofNat 64 x.1)
      else .p f.d (x.1 % 2 ^ 64 != 0), x.2) := by
  intro x
  rw [← fileEff_eq]
  rfl

/-- The destination of a VI word that writes a scalar (R165). -/
theorem viLegal_gk {op : Nat} {f : VIf} (h : viLegal op f = true) (h1 : 0x88 ≤ op) (h2 : op ≤ 0x8E) : f.df = 1 ∨ f.df = 2 := by
  unfold viLegal at h
  interval_cases op <;> simp at h <;> tauto

/-- The distance of `slli` and `srli` (R124). -/
theorem viLegal_shift {op : Nat} {f : VIf} (h : viLegal op f = true) (h1 : 0x8D ≤ op) (h2 : op ≤ 0x8E) : f.imm < 64 := by
  unfold viLegal at h
  interval_cases op <;> simp at h <;> tauto

/-- Settles O3: each word is its function on the scalars it reads, written to the file it names (`fileEff_eq`). -/
theorem vectorScalarWords : Obligations.VectorScalarWords := by
  refine ⟨?_, ?_⟩
  · intro s h f hs A B one
    refine ⟨fun op h1 h2 hl => ?_, fun op h1 h2 hl => ?_, fun op h1 h2 hl => ?_, fun hl => ?_⟩
    · refine vrOp_underWay hs h1 h2 (by decide) (fun g => (vrScalar_eq f _ s g).trans ?_) hl
      interval_cases op <;> rfl
    · refine vrOp_underWay hs h1 h2 (by decide) (fun g => (vrScalar_eq f _ s g).trans ?_) hl
      interval_cases op <;> rfl
    · refine vrOp_underWay hs h1 h2 (by decide) (fun g => (vrScalar_eq f _ s g).trans ?_) hl
      interval_cases op <;> rfl
    · exact vrOp_underWay hs le_rfl le_rfl (by decide) (fun g => vrScalar_eq f _ s g) hl
  · intro s h f hs A put imm
    have gk := fun (op : Nat) (hl : viLegal op f = true) h1 h2 => fileEff_gk (viLegal_gk hl h1 h2) f.d
    refine ⟨fun op h1 h2 hl => ?_, fun hl => ?_, fun op h1 h2 hl => ?_⟩
    · refine viOp_underWay hs h1 h2 (by decide) (fun g => ?_) hl
      have hd := gk op hl (by omega) (by omega)
      interval_cases op <;> exact congrArg₂ Prod.mk (hd _) rfl
    · exact viOp_underWay hs le_rfl le_rfl (by decide)
        (fun g => congrArg₂ Prod.mk (gk 0x8C hl (by decide) (by decide) _) rfl) hl
    · refine viOp_underWay hs h1 h2 (by decide) (fun g => ?_) hl
      refine congrArg₂ Prod.mk ((gk op hl (by omega) (by omega) _).trans ?_) rfl
      rw [Nat.mod_eq_of_lt (viLegal_shift hl h1 h2)]
      interval_cases op <;> rfl

end Sys2Proof.Machine
end

