-- ==== Sys2Proof/Proofs/VectorLanes.lean ====
section
/-! CompareWords (O5), LaneWords (O6) and ImmediateWords (O7). Compares, selection, permutation, reductions, lane access and immediate
operands of the V slots (R164, R166, R168, R171). -/

namespace Sys2Proof.Machine

/-! ### Compares -/

theorem combineP_eq (how : Nat) (old new : Bool) :
    combineP how old new = if how = 0 then new else if how = 1 then old && new else old || new := by
  unfold combineP
  split
  · rfl
  · rfl
  · next h0 h1 => rw [if_neg h0, if_neg h1]

theorem foldl_or_zero (l : List Nat) : l.foldl (fun (acc : Flags) _ => acc ||| 0) 0 = 0 :=
  List.foldlRecOn (motive := fun x => x = 0) l _ rfl (fun x hx _ _ => by rw [hx]; rfl)

/-- Settles O5: a compare of lanes or scalars, combined into its predicate (`combineP_eq`). -/
theorem compareWords : Obligations.CompareWords := by
  refine ⟨?_, ?_⟩
  · intro s h f hs cc comb
    refine ⟨fun op h1 h2 hl => ?_, fun op h1 h2 hl => ?_, fun op h1 h2 hl => ?_⟩
    · refine vrOp_underWay hs h1 h2 (by decide) (fun g => ?_) hl
      refine congrArg₂ Prod.mk (congrArg (AEff.p f.d) ((combineP_eq _ _ _).trans ?_)) ?_
      · interval_cases op <;> rfl
      · interval_cases op
        · rfl
        · rfl
        · exact foldl_or_zero _
        · exact foldl_or_zero _
    · refine vrOp_underWay hs h1 h2 (by decide) (fun g => ?_) hl
      exact congrArg₂ Prod.mk (congrArg (AEff.p f.d) (combineP_eq _ _ _)) rfl
    · refine vrOp_underWay hs h1 h2 (by decide) (vrLanes_congr (fun a b _ _ => ?_) f s) hl
      interval_cases op <;> rfl
  · intro s h f hs hl
    exact viOp_underWay hs le_rfl le_rfl (by decide) (fun g => rfl) hl

/-! ### Selection, permutation, reduction and lane access -/

theorem foldl_add_sgn (l : List Nat) (x : Int) :
    l.foldl (fun (acc : Int) a => acc + sgn 32 a) x = x + (l.map (sgn 32)).sum := by
  induction l generalizing x with
  | nil => simp
  | cons a r ih => rw [List.foldl_cons, ih, List.map_cons, List.sum_cons]; omega

/-- The place of `lext`, `lins` and `bins` (R124). -/
theorem viLegal_place {op : Nat} {f : VIf} (h : viLegal op f = true) :
    (op = 0x90 → (f.df = 1 ∨ f.df = 2) ∧ f.imm < 32) ∧ (op = 0x91 → f.imm < 32) ∧ (op = 0x92 → f.imm < 128) := by
  unfold viLegal at h
  refine ⟨?_, ?_, ?_⟩ <;> rintro rfl <;> simp at h <;> tauto

/-- Settles O6: each word is its function of the registers it reads; `radd.s32` saturates the exact sum once (`satS_eq`). -/
theorem laneWords : Obligations.LaneWords := by
  refine ⟨?_, ?_⟩
  · intro s h f hs va
    refine ⟨fun hl => ?_, fun hl => ?_, fun op h1 h2 hl => ?_, fun hl => ?_⟩
    · refine vrOp_underWay hs le_rfl le_rfl (by decide) (fun g => ?_) hl
      have hsel : ∀ a b c, noFl (if c ≠ 0 then a else b) = (if c = 0 then b else a, (0 : Flags)) := fun a b c => by
        rw [ite_not]; rfl
      rw [← lanes3_congr hsel]
    · exact vrOp_underWay hs le_rfl le_rfl (by decide) (fun g => rfl) hl
    · exact vrOp_underWay hs h1 h2 (by decide) (fun g => rfl) hl
    · refine vrOp_underWay hs le_rfl le_rfl (by decide) (fun g => ?_) hl
      rw [foldl_add_sgn, Int.zero_add, lanesOf, List.map_map]
      dsimp only
      rw [satS_eq]
      rfl
  · intro s h f hs
    refine ⟨fun hl => ?_, fun hl => ?_, fun hl => ?_⟩
    · obtain ⟨hd, hi⟩ := (viLegal_place hl).1 rfl
      refine viOp_underWay hs le_rfl le_rfl (by decide) (fun g => ?_) hl
      rw [Nat.mod_eq_of_lt hi, fileEff_gk hd]
    · have hi := (viLegal_place hl).2.1 rfl
      refine viOp_underWay hs le_rfl le_rfl (by decide) (fun g => ?_) hl
      rw [Nat.mod_eq_of_lt hi]
    · have hi := (viLegal_place hl).2.2 rfl
      refine viOp_underWay hs le_rfl le_rfl (by decide) (fun g => ?_) hl
      rw [Nat.mod_eq_of_lt hi]

/-! ### Immediates -/

theorem viLegal_imm {op : Nat} {f : VIf} (h : viLegal op f = true) : f.imm < 2 ^ 16 := by
  unfold viLegal at h
  simp only [Bool.and_eq_true, decide_eq_true_eq] at h
  tauto

theorem bfImm_eq {f : VIf} (h : f.imm < 2 ^ 16) :
    bfImm f = if f32 (f.imm * 2 ^ 16) = .nan then fp32.nanBits else f.imm * 2 ^ 16 := by
  unfold bfImm
  rw [Nat.mod_eq_of_lt h]

/-- Settles O7: the immediate read as a number of 16 bits, or as the upper half of an FP32 number (`bfImm_eq`). That a NaN immediate
gives the canonical NaN and no flag is the model's choice (assumption log 12). -/
theorem immediateWords : Obligations.ImmediateWords := by
  intro s h f hs one bf
  refine ⟨fun op h1 h2 hl => ?_, fun op h1 h2 hl => ?_, fun hl => ?_, fun hl => ?_⟩
  · exact viOp_underWay hs h1 h2 (by decide) (viLanes_congr (fun a _ => rfl) f s) hl
  · have hb : bfImm f = bf := bfImm_eq (viLegal_imm hl)
    refine viOp_underWay hs h1 h2 (by decide) (viLanes_congr (fun a _ => ?_) f s) hl
    rw [hb]
  · exact viOp_underWay hs le_rfl le_rfl (by decide) (fun g => rfl) hl
  · have hb : bfImm f = bf := bfImm_eq (viLegal_imm hl)
    refine viOp_underWay hs le_rfl le_rfl (by decide) (fun g => ?_) hl
    rw [hb]

end Sys2Proof.Machine
end

