-- ==== Sys2Proof/Proofs/Conversions.lean ====
section
/-! ConversionWords (O8) and MicroscalingWords (O9). Conversions between element formats and microscaling (R74, R82, R169, R170). -/

namespace Sys2Proof.Machine

/-! ### Conversions -/

/-- The part a conversion names (R169). -/
theorem vrLegal_part {op : Nat} {f : VRf} (h : vrLegal op f = true) (hop : op ∈ [0x50, 0x51, 0x52, 0x53, 0x55, 0x56]) :
    f.mod < 8 := by
  unfold vrLegal at h
  fin_cases hop <;> simp [cvtWidth] at h <;> omega

/-- Elements computed with their flags: the elements, and the OR of the flags. -/
theorem map_foldl_pairs {α : Type} (F : α → Nat × Flags) (l : List α) :
    (l.map F).map (·.1) = l.map (fun x => (F x).1) ∧
      (l.map F).foldl (fun acc p => acc ||| p.2) 0 = l.foldl (fun acc x => acc ||| (F x).2) 0 := by
  rw [List.map_map, List.foldl_map]
  exact ⟨rfl, rfl⟩

/-- A widening conversion whose results are `r'`; 0x5C is another word. -/
theorem vrOp_widen {s : State} {h : Hd} (hs : s.sole h [3, 4]) {op : Nat} (h1 : 0x58 ≤ op) (h2 : op ≤ 0x5E) (h3 : op ≠ 0x5C)
    {f : VRf} (hl : vrLegal op f = true) {r : State → Nat → AEff × Flags} {r' : Nat → AEff × Flags} (hr : ∀ g, r s g = r' g) :
    ∃ t, s.slotOp h { vrOp op 0x58 0x5E f latVF actVF r with legal := vrLegal op f && within op 0x58 0x5E && op != 0x5C } =
      .next t ∧ s.underWay t h f.pred 4 5 r' := by
  rw [← funext hr]
  exact slotOp_underWay s h vSlots _ _ f.pred latVF actVF r hs
    (by rw [legal_within hl h1 h2]; exact bne_iff_ne.mpr h3) (noDup_vrDests op f) (by decide)

/-- Settles O8: the lanes converted one after the other, each with its draw, into the part named or from it. -/
theorem conversionWords : Obligations.ConversionWords := by
  intro s h f hs va ls
  refine ⟨fun op h1 h2 hl => ?_, fun hl => ?_, fun op h1 h2 hl => ?_, fun op h1 h2 h3 hl => ?_, fun hl => ?_⟩
  · have hm : f.mod % 8 = f.mod := Nat.mod_eq_of_lt (vrLegal_part hl (by interval_cases op <;> decide))
    have hw : cvtWidth op = if op ≤ 0x51 then 16 else 8 := by interval_cases op <;> rfl
    have hf : cvtFmt (op - 0x50) = if op = 0x50 then bf16 else if op = 0x51 then fp16 else if op = 0x52 then e4m3 else e5m2 := by
      interval_cases op <;> rfl
    refine vrSr_underWayDraw hs h1 h2 hl (fun g st => ?_)
    rw [hm, hw, hf]
    dsimp only
    rfl
  · exact vrSr_underWayDraw hs le_rfl le_rfl hl (fun g st => rfl)
  · have hm : f.mod % 8 = f.mod := Nat.mod_eq_of_lt (vrLegal_part hl (by interval_cases op <;> decide))
    refine vrOp_underWay hs h1 h2 (by decide) (fun g => ?_) hl
    rw [hm]
    dsimp only
    rw [(map_foldl_pairs _ _).1, (map_foldl_pairs _ _).2]
    interval_cases op <;> rfl
  · have hw : cvtWidth op = if op ≤ 0x59 then 16 else if op = 0x5E then 4 else 8 := by interval_cases op <;> rfl
    have hf : cvtFmt (op - 0x58) = if op = 0x58 then bf16 else if op = 0x59 then fp16 else if op = 0x5A then e4m3 else e5m2 := by
      interval_cases op <;> rfl
    refine vrOp_widen hs h1 h2 h3 hl (fun g => ?_)
    dsimp only
    rw [(map_foldl_pairs _ _).1, (map_foldl_pairs _ _).2, hw, hf]
    refine congrArg₂ Prod.mk (congrArg (fun l => AEff.v f.d (packLanes l)) (List.map_congr_left fun x _ => ?_))
      (congrArg (fun fn => List.foldl fn 0 _) (funext fun acc => funext fun x => ?_))
    · rw [apply_ite Prod.fst]; rfl
    · rw [apply_ite Prod.snd]; rfl
  · exact vrSr_underWayDraw hs le_rfl le_rfl hl (fun g st => rfl)

/-! ### Microscaling -/

/-- The byte `mxsc` writes (R124). -/
theorem viLegal_mxsc {op : Nat} {f : VIf} (h : viLegal op f = true) (h1 : 0x98 ≤ op) (h2 : op ≤ 0x9D) : f.imm < 128 := by
  unfold viLegal at h
  interval_cases op <;> simp at h <;> omega

/-- Settles O9: the lanes quantised one after the other, the elements scaled and converted, the scale of the lanes. That `mxq` and
`mxdq` raise the flags of a conversion is the model's choice (assumption log 148). -/
theorem microscalingWords : Obligations.MicroscalingWords := by
  refine ⟨?_, ?_⟩
  · intro s h f hs va scale
    refine ⟨fun op h1 h2 hl => ?_, fun op h1 h2 hl => ?_⟩
    · refine vrSr_underWayDraw hs h1 h2 hl (fun g st => ?_)
      dsimp only
      rw [lanesOf, List.map_map]
      rfl
    · refine vrOp_underWay hs h1 h2 (by decide) (fun g => ?_) hl
      dsimp only
      rw [(map_foldl_pairs _ _).1, (map_foldl_pairs _ _).2]
      rfl
  · intro s h f hs op h1 h2 hl
    refine viOp_underWay hs h1 h2 (by decide) (fun g => ?_) hl
    dsimp only
    rw [Nat.mod_eq_of_lt (viLegal_mxsc hl h1 h2), lanesOf, List.map_map]
    rfl

end Sys2Proof.Machine
end

