-- ==== Sys2Proof/Proofs/MatrixWords.lean ====
section
/-! MatrixWords (O10). The words of the M slot, and what a bank operation that takes effect changes (R157–R163, R199). -/

namespace Sys2Proof.Machine

/-! ### Bank operations -/

theorem State.anvil_setAnvil (s : State) (g k : Nat) (a : Anvil) : (s.setAnvil g a).anvil k = if k = g then a else s.anvil k :=
  Tab.get_set _ _ _ _ _

theorem Anvil.bank_setBank (a : Anvil) (b c : Nat) (x : Bank) : (a.setBank b x).bank c = if c = b then x else a.bank c :=
  Tab.get_set _ _ _ _ _

theorem State.orFlags_rest (s : State) (g : Nat) (fl : Flags) : s.orFlags g fl = { s with csr := (s.orFlags g fl).csr } := by
  unfold State.orFlags
  split
  · rfl
  · rfl

/-- From `s` to `t` Anvil `g` has bank `b` replaced by `x`: every other bank, every other Anvil and every byte of memory is as it
was. -/
theorem bank_replaced (s : State) (g b : Nat) (x : Bank) {t : State} (hm : t.mem = s.mem)
    (ha : t.anvils = (s.setAnvil g ((s.anvil g).setBank b x)).anvils) :
    ((∀ c, c ≠ b → (t.anvil g).bank c = (s.anvil g).bank c) ∧ (∀ k, k ≠ g → t.anvil k = s.anvil k) ∧ t.mem = s.mem) ∧
      (t.anvil g).bank b = x := by
  have hk : ∀ k, t.anvil k = if k = g then (s.anvil g).setBank b x else s.anvil k := fun k => by
    rw [← s.anvil_setAnvil]
    exact congrArg (fun a => Tab.get (fun _ => Anvil.entry) a k) ha
  have hg := (hk g).trans (if_pos rfl)
  refine ⟨⟨fun c hc => ?_, fun k hne => (hk k).trans (if_neg hne), hm⟩, ?_⟩
  · rw [hg, Anvil.bank_setBank, if_neg hc]
  · rw [hg, Anvil.bank_setBank, if_pos rfl]

/-- A bank operation that takes effect. -/
theorem commit_bank (s : State) (g b : Nat) (e : AEff) (x : Bank) (fl : Flags)
    (he : s.applyA g e = (s.setAnvil g ((s.anvil g).setBank b x)).orFlags g fl) :
    let t := s.commit (.anvil g e 0)
    ((∀ c, c ≠ b → (t.anvil g).bank c = (s.anvil g).bank c) ∧ (∀ k, k ≠ g → t.anvil k = s.anvil k) ∧ t.mem = s.mem) ∧
      (t.anvil g).bank b = x := by
  have ht : s.commit (.anvil g e 0) = (s.setAnvil g ((s.anvil g).setBank b x)).orFlags g fl := by rw [← he]; rfl
  exact bank_replaced s g b x (by rw [ht, State.orFlags_rest]; rfl) (by rw [ht, State.orFlags_rest])

/-! ### The words -/

/-- A word that only changes registers, alone in its bundle, issues alike whether it counts as multiply-accumulate or not (R133). -/
theorem slotOp_ma {s : State} {h : Hd} {slots : List Nat} (hs : s.sole h slots) {legal : Bool} (hl : legal = true)
    {dests : List Dest} (hd : noDup dests = true) {eff : State → List Flight} (he : ∀ f ∈ eff s, f.reg = true ∨ f.charge = true) :
    s.slotOp h { SlotOp.plain slots legal dests eff with ma := true } = s.slotOp h (.plain slots legal dests eff) := by
  rw [slotOp_sole s h (.plain slots legal dests eff) hs hl hd (by simp [SlotOp.plain]) (waitFail_zero s) rfl he]
  exact slotOp_sole s h { SlotOp.plain slots legal dests eff with ma := true } hs hl hd (by simp [SlotOp.plain]) (waitFail_zero s)
    rfl he

section
variable {s : State} {h : Hd} (hs : s.sole h [1, 2]) {legal : Bool} (hl : legal = true) {dests : List Dest}
  (hd : noDup dests = true) {pred lat cls : Nat} (hlat : 2 ≤ lat) {r : State → Nat → AEff × Flags} {r' : Nat → AEff × Flags}
  (hr : ∀ g, r s g = r' g)
include hs hl hd hlat hr

/-- An M-slot word whose results are `r'`. -/
theorem mOp_underWay : ∃ t, s.slotOp h (.plain mSlots legal dests (fun s => s.each pred lat cls (r s))) = .next t ∧
    s.underWay t h pred lat cls r' := by
  rw [← funext hr]
  exact slotOp_underWay s h mSlots legal dests pred lat cls r hs hl hd hlat

/-- One that multiplies or combines. -/
theorem maOp_underWay :
    ∃ t, s.slotOp h { SlotOp.plain mSlots legal dests (fun s => s.each pred lat cls (r s)) with ma := true } = .next t ∧
      s.underWay t h pred lat cls r' := by
  rw [slotOp_ma (slots := mSlots) hs hl hd (State.each_reg s pred lat cls (r s))]
  exact mOp_underWay hs hl hd hlat hr

end

theorem noDup_maDests (op : Nat) (f : MAf) : noDup (maDests op f) = true := by
  unfold maDests
  split <;> rfl

theorem noDup_mcDests (op : Nat) (f : MCf) : noDup (mcDests op f) = true := by
  unfold mcDests
  split
  · rfl
  · split <;> rfl

/-- The group `mpk` packs (R162). -/
theorem mrLegal_mpk {f : MRf} (h : mrLegal 0x41 f = true) : f.mod < 4 := by
  unfold mrLegal at h
  simp at h
  tauto

/-- The sticky flag an `mtst` names (R163). -/
theorem bankTest_eq {op : Nat} (h1 : 0x62 ≤ op) (h2 : op ≤ 0x65) (b : Bank) :
    bankTest op b = if op = 0x62 then b.nx else if op = 0x63 then b.ovf else if op = 0x64 then b.sp else b.nx || b.ovf || b.sp := by
  interval_cases op <;> rfl

/-- Settles O10: each word has its operation under way in every executing Anvil, and a bank operation that takes effect replaces its
bank (`commit_bank`). -/
theorem matrixWords : Obligations.MatrixWords := by
  refine ⟨?_, ?_, ?_, ?_⟩
  · intro s h f hs a
    refine ⟨fun op hop hl => ?_, fun hl => ?_⟩
    · exact maOp_underWay hs ((Bool.and_eq_true _ _).mpr ⟨hl, bne_iff_ne.mpr hop⟩) (noDup_maDests op f) (by decide) (fun g => rfl)
    · exact maOp_underWay hs hl rfl (by decide) (fun g => rfl)
  · intro s h f hs
    refine ⟨fun hl => ?_, fun hl => ?_⟩
    · exact slotOp_underWayDraw s h mSlots _ _ f.pred 5 actMRC (fun s g st =>
        let r := mrdRow ((s.anvil g).bank f.acc) f.sel (sgn 8 f.mofs) f.rm f.tf st
        (.v f.vd r.1, r.2.1, r.2.2)) hs hl rfl (by decide)
    · refine mOp_underWay hs hl rfl (by decide) (fun g => ?_)
      rw [Nat.mod_eq_of_lt (mrLegal_mpk hl)]
  · intro s h f hs
    refine ⟨fun hl => ?_, fun hl => ?_, fun op h1 h2 hl => ?_⟩
    · exact mOp_underWay hs hl rfl (by decide) (fun g => rfl)
    · exact mOp_underWay hs hl rfl (by decide) (fun g => rfl)
    · refine mOp_underWay hs (legal_within hl h1 h2) (noDup_mcDests op f) (by decide) (fun g => ?_)
      rw [bankTest_eq h1 h2]
  · intro s g b bank alone
    refine ⟨fun x => ?_, fun x => ?_, fun v k => ?_, fun va vb vx ta tb neg bs ha => ?_⟩
    · obtain ⟨h1, h2⟩ := commit_bank s g b (.mclr b x) (Bank.clear x) 0 rfl
      exact ⟨h1, h2, rfl⟩
    · exact commit_bank s g b _ _ (mrscBank ((s.anvil g).bank b) x).2 (by dsimp only [State.applyA])
    · exact commit_bank s g b _ _ (mcombBank ((s.anvil g).bank b) v k).2 (by dsimp only [State.applyA])
    · exact commit_bank s g b _ _ (mmacBank ((s.anvil g).bank b) va vb vx ta tb neg bs ha).2 (by dsimp only [State.applyA])

end Sys2Proof.Machine
end

