-- ==== Sys2Proof/Proofs/LoadStoreIssue.lean ====
section
/-! SUPPORT. How a bundle of one L-slot word issues: each Anvil's access adds results and faults to those under way, and nothing
else follows before the next position (R172–R175, R211). -/

namespace Sys2Proof.Machine

/-! ### What an access may touch -/

/-- From `u` to `v` the memory and the Anvils are as they were, and Hammer but for its tokens, for the results `fl` that are newly
under way, and for the faults `fa` newly found. -/
def State.accessed (u v : State) (fl : List Flight) (fa : List FaultAt) : Prop :=
  v.mem = u.mem ∧ v.anvils = u.anvils ∧
  v.hammer = { u.hammer with
    tok := v.hammer.tok, flight := u.hammer.flight ++ fl, faults := u.hammer.faults ++ fa }

theorem State.accessed_trans {u v w : State} {fl fl' : List Flight} {fa fa' : List FaultAt} (h : u.accessed v fl fa)
    (k : v.accessed w fl' fa') : u.accessed w (fl ++ fl') (fa ++ fa') := by
  obtain ⟨h1, h2, h3⟩ := h
  obtain ⟨k1, k2, k3⟩ := k
  exact ⟨k1.trans h1, k2.trans h2, by rw [k3, h3, List.append_assoc, List.append_assoc]⟩

theorem State.accessed_of_tokensOnly {u v : State} (h : u.tokensOnly v) : u.accessed v [] [] := by
  obtain ⟨h1, h2, h3⟩ := h
  exact ⟨h1, h2, by rw [h3, List.append_nil, List.append_nil]⟩

theorem State.accessed_refl (u : State) : u.accessed u [] [] := State.accessed_of_tokensOnly u.tokensOnly_refl

theorem State.accessed_fly (u : State) (due : Nat) (e : Eff) : u.accessed (u.fly due e) [⟨due, e⟩] [] :=
  ⟨rfl, rfl, by rw [List.append_nil]; rfl⟩

theorem State.accessed_correctRange (u : State) (a n : Nat) : u.accessed (u.correctRange a n) [] [] := by
  have h := (State.countsOnly_correctRange u a n).1
  exact State.accessed_of_tokensOnly (State.tokensOnly_beside (by rw [h]) (by rw [h]) (by rw [h]))

/-- What `addFault` notes. -/
def State.faultAt (u : State) (n cause after slot fanvil : Nat) (loc : Word) : FaultAt :=
  ⟨n, n + after, slot, ⟨cause, if cause = cCANCELLED then 0 else u.hammer.pc, fanvil, 0, 0, loc, 255⟩⟩

theorem State.accessed_addFault (u : State) (n cause after slot fanvil : Nat) (loc : Word) :
    u.accessed (u.addFault n cause after slot fanvil loc) [] [u.faultAt n cause after slot fanvil loc] :=
  ⟨rfl, rfl, by rw [List.append_nil]; rfl⟩

/-- From `u` to `v` a word at position `n` has accessed, and every fault is found later. -/
def State.accesses (n : Nat) (u v : State) : Prop := ∃ fl fa, u.accessed v fl fa ∧ ∀ f ∈ fa, n < f.detect

theorem State.accesses_trans {n : Nat} {u v w : State} (h : State.accesses n u v) (k : State.accesses n v w) :
    State.accesses n u w := by
  obtain ⟨fl, fa, h, hl⟩ := h
  obtain ⟨fl', fa', k, kl⟩ := k
  exact ⟨_, _, State.accessed_trans h k, fun f hf => (List.mem_append.mp hf).elim (hl f) (kl f)⟩

theorem State.accesses_quiet {n : Nat} {u v : State} {fl : List Flight} (h : u.accessed v fl []) : State.accesses n u v :=
  ⟨fl, [], h, by simp⟩

theorem State.accesses_addFault (u : State) (n cause slot fanvil : Nat) {after : Nat} (loc : Word) (h : 0 < after) :
    State.accesses n u (u.addFault n cause after slot fanvil loc) := by
  refine ⟨_, _, u.accessed_addFault n cause after slot fanvil loc, fun f hf => ?_⟩
  rw [List.mem_singleton.mp hf]
  show n < n + after
  omega

theorem State.accesses_foldl {α : Type} {n : Nat} (f : State → α → State) (l : List α)
    (h : ∀ u, ∀ x ∈ l, State.accesses n u (f u x)) (u : State) : State.accesses n u (l.foldl f u) :=
  List.foldlRecOn (motive := fun v => State.accesses n u v) l f (State.accesses_quiet u.accessed_refl)
    (fun v hv x hx => State.accesses_trans hv (h v x hx))

/-! ### One Anvil's access -/

theorem State.accesses_issueLoad (n slot file d lat : Nat) (hearth : Bool) (u : State) (p : Nat × Nat) :
    State.accesses n u (State.issueLoad n slot file d lat hearth u p) := by
  unfold State.issueLoad
  extract_lets len
  split
  · exact u.accesses_addFault _ _ _ _ _ (by decide)
  · split
    · next k _ =>
      exact State.accesses_trans (State.accesses_quiet (State.accessed_of_tokensOnly (u.tokensOnly_reportUe 1 k)))
        (State.accesses_addFault _ _ _ _ _ _ (by cases hearth <;> decide))
    · exact State.accesses_trans (State.accesses_quiet (u.accessed_correctRange _ _))
        (State.accesses_trans (State.accesses_quiet (State.accessed_fly _ _ _)) (State.accesses_quiet (State.accessed_fly _ _ _)))

theorem State.accesses_issueStore (n slot len : Nat) (hearth : Bool) (u : State) (p : Nat × Nat × Nat) :
    State.accesses n u (State.issueStore n slot len hearth u p) := by
  unfold State.issueStore
  split
  · exact u.accesses_addFault _ _ _ _ _ (by decide)
  · exact State.accesses_trans (State.accesses_quiet (State.accessed_fly _ _ _)) (State.accesses_quiet (State.accessed_fly _ _ _))

/-- From `u` to `v` what a read finds is as it was. -/
def State.readsAlike (u v : State) : Prop :=
  (∀ a n, v.readN a n = u.readN a n) ∧ (∀ a n, v.ueIn a n = u.ueIn a n) ∧ ∀ r, v.reachable r = u.reachable r

theorem State.readsAlike_trans {u v w : State} (h : u.readsAlike v) (k : v.readsAlike w) : u.readsAlike w := by
  obtain ⟨h1, h2, h3⟩ := h
  obtain ⟨k1, k2, k3⟩ := k
  exact ⟨fun a n => (k1 a n).trans (h1 a n), fun a n => (k2 a n).trans (h2 a n), fun r => (k3 r).trans (h3 r)⟩

theorem State.readsAlike_fly (u : State) (due : Nat) (e : Eff) : u.readsAlike (u.fly due e) :=
  ⟨State.readN_of_mem (u := u) (v := u.fly due e) rfl, fun _ _ => rfl, fun _ => rfl⟩

theorem State.readsAlike_opening (u : State) : u.readsAlike u.opening :=
  ⟨State.readN_of_mem (u := u) (v := u.opening) rfl, fun _ _ => rfl, u.reachable_opening⟩

/-- Counters of corrected errors lie beside what tells whether a power domain is on. -/
theorem errHome_ce_off_pdstat (key : Nat) {b : Nat} (h1 : BELLOWS_PDSTAT 0 ≤ b) (h2 : b ≤ BELLOWS_PDSTAT3) :
    b ≠ (errHome key).2.1.addr := by
  unfold BELLOWS_PDSTAT at h1
  unfold BELLOWS_PDSTAT3 at h2
  unfold errHome
  split <;> simp only [HEARTH_HSECNT, ANVIL_SECNT, HAMMER_SECNT, HEARTH_STKERR] <;> omega

theorem State.readsAlike_correctRange (u : State) (a n : Nat) : u.readsAlike (u.correctRange a n) := by
  have h := (State.countsOnly_correctRange u a n).1
  have hdom : ∀ d, (u.correctRange a n).domOn d = u.domOn d := State.domOn_congr fun b h1 h2 =>
    u.rd_correctRange a n (fun key => errHome_ce_off_pdstat key h1 h2)
      (by have : HAMMER_ERRSUM < BELLOWS_PDSTAT 0 := by decide
          omega)
  have hst : ∀ k, (u.correctRange a n).get (HEARTH_STKSTAT_STATE k) = u.get (HEARTH_STKSTAT_STATE k) := fun k => by
    unfold State.get
    rw [u.rd_correctRange a n (fun key => (errHome_ce_beside key k).2) (by simp only [HEARTH_STKSTAT, HAMMER_ERRSUM]; omega)]
  refine ⟨fun a n => State.readN_of_mem (by rw [h]) a n, fun a n => ?_, fun r => ?_⟩
  · unfold State.ueIn State.errUnits
    rw [h]
  · cases r <;> simp only [State.reachable, State.fenced_correctRange, hst, hdom]

/-- A load that reads its value: its activity and the value are under way. -/
theorem State.issueLoad_good (n slot file d lat : Nat) (hearth : Bool) (u : State) (g a : Nat)
    (hr : u.reachable (region a) = true) (hu : u.ueIn a (if file = 0 then 128 else 8) = none) :
    let v := State.issueLoad n slot file d lat hearth u (g, a)
    u.readsAlike v ∧ u.accessed v [⟨n + actLag g, .act g (if hearth then 8 else 7)⟩,
      ⟨n + lat, .anvil g (loadEff file d (u.readN a (if file = 0 then 128 else 8))) 0⟩] [] := by
  intro v
  have hv : v = ((u.correctRange a (if file = 0 then 128 else 8)).fly (n + actLag g) (.act g (if hearth then 8 else 7))).fly
      (n + lat) (.anvil g (loadEff file d (u.readN a (if file = 0 then 128 else 8))) 0) := by
    show State.issueLoad n slot file d lat hearth u (g, a) = _
    unfold State.issueLoad
    dsimp only
    rw [if_neg (by rw [hr]; decide), hu]
  rw [hv]
  exact ⟨State.readsAlike_trans (u.readsAlike_correctRange _ _) (State.readsAlike_trans (State.readsAlike_fly _ _ _)
    (State.readsAlike_fly _ _ _)), State.accessed_trans (u.accessed_correctRange _ _) (State.accessed_trans
    (State.accessed_fly _ _ _) (State.accessed_fly _ _ _))⟩

/-- A store within reach: its activity and the bytes are under way. -/
theorem State.issueStore_good (n slot len : Nat) (hearth : Bool) (u : State) (g a x : Nat)
    (hr : u.reachable (region a) = true) :
    let v := State.issueStore n slot len hearth u (g, a, x)
    u.readsAlike v ∧
      u.accessed v [⟨n + actLag g, .act g (if hearth then 8 else 7)⟩, ⟨n + 1, .store n a len x⟩] [] := by
  intro v
  have hv : v = (u.fly (n + actLag g) (.act g (if hearth then 8 else 7))).fly (n + 1) (.store n a len x) :=
    if_neg (by rw [hr]; decide)
  rw [hv]
  exact ⟨State.readsAlike_trans (State.readsAlike_fly _ _ _) (State.readsAlike_fly _ _ _),
    State.accessed_trans (State.accessed_fly _ _ _) (State.accessed_fly _ _ _)⟩

/-- Accesses one after the other, each of which finds what the first finds: their results, in order. -/
theorem State.accessed_foldl {α : Type} (f : State → α → State) (out : α → List Flight) (l : List α) (s u : State)
    (h : ∀ v, s.readsAlike v → ∀ x ∈ l, v.readsAlike (f v x) ∧ v.accessed (f v x) (out x) []) (hu : s.readsAlike u) :
    s.readsAlike (l.foldl f u) ∧ u.accessed (l.foldl f u) (l.flatMap out) [] := by
  induction l generalizing u with
  | nil => exact ⟨hu, u.accessed_refl⟩
  | cons x r ih =>
    obtain ⟨h1, h2⟩ := h u hu x (by simp)
    obtain ⟨h3, h4⟩ := ih (f u x) (fun v hv y hy => h v hv y (by simp [hy])) (State.readsAlike_trans hu h1)
    exact ⟨h3, State.accessed_trans h2 h4⟩

/-! ### The effects of a word -/

/-- An effect of an L-slot word. -/
def Flight.ofL (f : Flight) : Bool :=
  match f.eff with
  | .loads _ _ _ _ _ _ => true
  | .stores _ _ _ _ => true
  | .fault _ after _ _ _ => decide (0 < after)
  | .anvil _ _ _ => true
  | _ => false

theorem State.accesses_issueEff (n u : Nat) (stop idle : Bool) (s : State) (f : Flight) (hf : f.ofL = true) :
    State.accesses n s (State.issueEff n u stop idle s f) := by
  unfold Flight.ofL at hf
  unfold State.issueEff
  split at hf
  · next e => rw [e]; exact State.accesses_foldl _ _ (fun v p _ => State.accesses_issueLoad _ _ _ _ _ _ v p) s
  · next e => rw [e]; exact State.accesses_foldl _ _ (fun v p _ => State.accesses_issueStore _ _ _ _ v p) s
  · next e => rw [e]; exact s.accesses_addFault _ _ _ _ _ (of_decide_eq_true hf)
  · next e => rw [e]; exact State.accesses_quiet (s.accessed_fly _ _)
  · exact absurd hf (by decide)

/-- Register results join those under way. -/
theorem State.accessed_issueEff_anvil (n u : Nat) (stop idle : Bool) (s : State) (l : List Flight)
    (hl : ∀ f ∈ l, ∃ g e fl, f.eff = .anvil g e fl) :
    s.accessed (l.foldl (State.issueEff n u stop idle) s) (l.map (fun f => ⟨n + f.due, f.eff⟩)) [] := by
  induction l generalizing s with
  | nil => exact s.accessed_refl
  | cons f r ih =>
    obtain ⟨g, e, fl, hf⟩ := hl f (by simp)
    have h1 : State.issueEff n u stop idle s f = s.fly (n + f.due) f.eff := by
      unfold State.issueEff
      rw [hf]
    refine State.accessed_trans (v := s.fly (n + f.due) f.eff) (s.accessed_fly _ _) ?_
    rw [List.foldl_cons, h1]
    exact ih _ (fun x hx => hl x (by simp [hx]))

/-- A fault among the effects is found. -/
theorem State.faults_issueEff (n u : Nat) (stop idle : Bool) (s : State) (l : List Flight) (hl : ∀ f ∈ l, f.ofL = true)
    {cause after slot g : Nat} {loc : Word} (hf : ⟨0, .fault cause after slot g loc⟩ ∈ l) :
    ∃ x ∈ (l.foldl (State.issueEff n u stop idle) s).hammer.faults,
      x.pos = n ∧ x.detect = n + after ∧ x.slot = slot ∧ x.fail.cause = cause ∧ x.fail.fanvil = g := by
  obtain ⟨l1, l2, rfl⟩ := List.append_of_mem hf
  rw [List.foldl_append, List.foldl_cons]
  set v := l1.foldl (State.issueEff n u stop idle) s
  obtain ⟨fl, fa, ⟨-, -, h3⟩, -⟩ := State.accesses_foldl (State.issueEff n u stop idle) l2
    (fun w f hf => State.accesses_issueEff n u stop idle w f (hl f (by simp [hf])))
    (v.addFault n cause after slot g loc)
  refine ⟨v.faultAt n cause after slot g loc, ?_, rfl, rfl, rfl, rfl, rfl⟩
  show _ ∈ (l2.foldl (State.issueEff n u stop idle) (v.addFault n cause after slot g loc)).hammer.faults
  rw [h3]
  exact List.mem_append_left _ (List.mem_append_right _ (List.mem_singleton.mpr rfl))

/-! ### The bundle -/

theorem tokIncr_ofL (l : List Flight) (t : Nat) (h : ∀ f ∈ l, f.ofL = true) : tokIncr l t = 0 := by
  unfold tokIncr
  rw [List.length_eq_zero_iff, List.filter_eq_nil_iff]
  intro f hf
  have h := h f hf
  unfold Flight.ofL at h
  split at h <;> simp_all

theorem admissible_ofL (s : State) (l : List Flight) (h : ∀ f ∈ l, f.ofL = true) : s.admissible l = true := by
  unfold State.admissible
  rw [List.all_eq_true]
  intro f hf
  have h := h f hf
  unfold Flight.ofL at h
  split at h <;> simp_all

theorem linked_ofL (s : State) (l : List Flight) (n u : Nat) (h : ∀ f ∈ l, f.ofL = true) : s.linked l n u = s := by
  unfold State.linked
  refine foldl_keep _ _ _ (fun f hf b => ?_)
  have hf := h f hf
  unfold Flight.ofL at hf
  split at hf <;> simp_all

/-- A result that takes effect leaves of Hammer what is under way, the faults, and the rest but for scalar registers, mask, tokens
and the stores kept for asynchronous reads. -/
theorem State.commit_beside (s : State) (e : Eff) :
    (s.commit e).hammer = { s.hammer with
      s := (s.commit e).hammer.s, amask := (s.commit e).hammer.amask
      recent := (s.commit e).hammer.recent, tok := (s.commit e).hammer.tok } := by
  cases e with
  | s d x sat => cases sat <;> rfl
  | anvil g a fl =>
    have h : (s.commit (.anvil g a fl)).hammer = s.hammer := by
      unfold State.commit
      rw [State.orFlags_hammer, State.applyA_hammer]
    rw [h]
  | act g c =>
    unfold State.commit
    dsimp only
    split <;> rw [State.inc_alone]
  | store p a n v =>
    set W := (s.writeN a n v).onHammer (fun h => { h with recent := h.recent ++ [(p, a, s.bytes a n)] }) with hW
    have h : (s.commit (.store p a n v)).hammer = { W.hammer with tok := (s.commit (.store p a n v)).hammer.tok } :=
      (W.tokensOnly_meetDescs p a n).2.2
    have hW' : W.hammer = { s.hammer with recent := W.hammer.recent } := by rw [hW, State.onHammer, State.writeN_hammer]
    rw [h, hW']
  | _ => rfl

theorem State.commitAt_beside (s : State) (p : Nat) :
    (s.commitAt p).hammer = { s.hammer with
      flight := s.hammer.flight.filter (fun f => f.due != p)
      s := (s.commitAt p).hammer.s, amask := (s.commitAt p).hammer.amask
      recent := (s.commitAt p).hammer.recent, tok := (s.commitAt p).hammer.tok } := by
  unfold State.commitAt
  dsimp only
  refine List.foldlRecOn (motive := fun v : State => v.hammer = { s.hammer with
      flight := s.hammer.flight.filter (fun f => f.due != p)
      s := v.hammer.s, amask := v.hammer.amask, recent := v.hammer.recent, tok := v.hammer.tok }) _ _ rfl
    (fun v hv f _ => ?_)
  rw [v.commit_beside f.eff, hv]

theorem passed_rest {s X : State} {fl : List Flight} {fa : List FaultAt} (hX : s.opening.accessed X fl fa) (h : Hd) :
    (s.passed X h).mem = s.mem ∧ (s.passed X h).anvils = s.anvils := by
  obtain ⟨hm, ha, -⟩ := hX
  exact ⟨hm, ha⟩

section
variable {s X : State} {h : Hd} {slots : List Nat} {fl : List Flight} {fa : List FaultAt} (hs : s.sole h slots)
  (hX : s.opening.accessed X fl fa)
include hs hX

/-- Hammer behind a bundle of accesses, before the results due there are taken up. -/
theorem passed_hammer : (s.passed X h).hammer = { s.hammer with
    cur := Open.none, open_ := false, pos := s.hammer.pos + 1, pc := s.hammer.pc + (h.len + 1), redirs := [], flight := fl
    faults := fa, tok := (s.passed X h).hammer.tok, recent := (s.passed X h).hammer.recent
    descs := (s.passed X h).hammer.descs } := by
  obtain ⟨_, _, _, _, _, _, _, _, hfl, hfa, _, _⟩ := hs
  obtain ⟨-, -, hXh⟩ := hX
  have h1 : s.opening.hammer.flight ++ fl = fl := by rw [show s.opening.hammer.flight = [] from hfl, List.nil_append]
  have h2 : s.opening.hammer.faults ++ fa = fa := by rw [show s.opening.hammer.faults = [] from hfa, List.nil_append]
  rw [h1, h2] at hXh
  rw [State.passed, State.stepped, State.onHammer]
  dsimp only
  rw [hXh]
  rfl

/-- A bundle of accesses whose faults are found later ends with the results due at the next position. -/
theorem issueEnd_accessed (hd : ∀ f ∈ fa, s.hammer.pos < f.detect) :
    (X.closing s.hammer.pos s.hammer.pc (h.len + 1)).issueEnd s.hammer.pos =
      (s.passed X h).commitAt (s.hammer.pos + 1) := by
  have hZ := passed_hammer hs hX
  obtain ⟨_, _, _, _, _, _, _, hmk, _, _, hre, _⟩ := hs
  obtain ⟨-, -, hXh⟩ := hX
  rw [State.closing_plain _ _ _ _ (by rw [hXh]; exact hmk) (by rw [hXh]; exact hre)]
  change ((s.passed X h).commitAt (s.hammer.pos + 1)).issueEnd s.hammer.pos = _
  set t := (s.passed X h).commitAt (s.hammer.pos + 1) with ht
  have hth := (s.passed X h).commitAt_beside (s.hammer.pos + 1)
  rw [← ht, hZ] at hth
  have hf : t.hammer.faults = fa := by rw [hth]
  have hm : t.hammer.marker = none := by rw [hth]; exact hmk
  unfold State.issueEnd
  rw [hf, hm, if_neg]
  rw [List.any_eq_true]
  rintro ⟨f, hf, hle⟩
  exact absurd (of_decide_eq_true hle) (by have := hd f hf; omega)

end

/-- A legal L-slot word alone in its bundle issues with its accesses (R190). -/
theorem slotOp_accesses (s : State) (h : Hd) (legal : Bool) (dests : List Dest) (eff : State → List Flight)
    (hs : s.sole h [5, 6]) (hl : legal = true) (hd : noDup dests = true) (he : ∀ f ∈ eff s, f.ofL = true) :
    s.slotOp h (.plain lSlots legal dests eff) = .next ((s.passed (s.effects h (eff s)) h).commitAt (s.hammer.pos + 1)) := by
  have hso := slotOp_issue s h (.plain lSlots legal dests eff) hs hl hd (by simp [SlotOp.plain]) (waitFail_zero s) rfl
    (by simp [SlotOp.plain, tokIncr_ofL _ _ he]) (admissible_ofL s _ he)
  obtain ⟨fl, fa, hX, hlate⟩ := State.accesses_foldl (n := s.hammer.pos)
    (State.issueEff s.hammer.pos (h.len + 1) false (s.hammer.tok.all (fun t => t.2.count == 0))) (eff s)
    (fun v f hf => State.accesses_issueEff _ _ _ _ v f (he f hf)) s.opening
  rw [hso]
  simp only [SlotOp.plain]
  rw [linked_ofL _ _ _ _ he]
  exact congrArg _ (issueEnd_accessed hs hX hlate)

end Sys2Proof.Machine
end

