-- ==== Sys2Proof/Proofs/StoreAccess.lean ====
section
/-! StoreAccessWords (O16). Loads and stores of the Anvils' L slots, in every executing Anvil at its own effective address (R125, R126,
R172–R175). -/

namespace Sys2Proof.Machine

/-! ### Addresses -/

/-- Where the word's access lies in Anvil `g`: its store's first byte and the effective address (R126). -/
def State.lsAt (s : State) (hearth : Bool) (f : LSf) (g : Nat) : Nat :=
  (if hearth then hearthBase (g / 16) else anvilBase g) + (lsEa (s.anvil g) f).toNat

/-- An effective address that obeys R126 is not reduced. -/
theorem lsAddr_eq {hearth : Bool} {g : Nat} {ea : Int} (hg : g < 160) (h : lsEaOk hearth g ea = true) :
    lsAddr hearth g ea = (if hearth then hearthBase (g / 16) else anvilBase g) + ea.toNat := by
  unfold lsEaOk at h
  unfold lsAddr wrap
  simp only [Bool.and_eq_true, decide_eq_true_eq] at h
  obtain ⟨⟨-, h0⟩, h1⟩ := h
  cases hearth <;> simp only [lsStore, hearthBase, anvilBase, Bool.false_eq_true, if_false, if_true] at h1 ⊢ <;> omega

theorem State.lsAt_low (s : State) (hearth : Bool) (f : LSf) (g : Nat) : 0x200000000000 ≤ s.lsAt hearth f g := by
  unfold State.lsAt hearthBase anvilBase
  cases hearth <;> simp only [Bool.false_eq_true, if_false, if_true] <;> omega

/-- Where every address obeys R126, each executing Anvil accesses its own. -/
theorem State.lsGood_eq {s : State} {hearth : Bool} {f : LSf}
    (h : ∀ g ∈ s.executing f.pred, lsEaOk hearth g (lsEa (s.anvil g) f) = true) :
    s.lsGood hearth f = (s.executing f.pred).map (fun g => (g, s.lsAt hearth f g)) := by
  unfold State.lsGood
  rw [← List.filterMap_eq_map]
  refine List.filterMap_congr fun g hg => ?_
  dsimp only
  rw [if_pos (h g hg), lsAddr_eq (s.executing_lt _ _ hg) (h g hg)]
  rfl

theorem State.lsBad_eq {s : State} {hearth : Bool} {f : LSf} (slot : Nat)
    (h : ∀ g ∈ s.executing f.pred, lsEaOk hearth g (lsEa (s.anvil g) f) = true) : s.lsBad hearth slot f = [] := by
  unfold State.lsBad
  rw [List.filterMap_eq_nil_iff]
  exact fun g hg => if_pos (h g hg)

/-- An address that does not obey R126 is a fault of its Anvil. -/
theorem State.mem_lsBad {s : State} {hearth : Bool} {f : LSf} (slot : Nat) {g : Nat} (hg : g ∈ s.executing f.pred)
    (h : lsEaOk hearth g (lsEa (s.anvil g) f) = false) : ∃ loc, ⟨0, .fault 0x10 6 slot g loc⟩ ∈ s.lsBad hearth slot f :=
  ⟨_, List.mem_filterMap.mpr ⟨g, hg, if_neg (by rw [h]; decide)⟩⟩

/-! ### Effects -/

/-- The activity of the word's accesses, under way (R406, R625). -/
def State.lsActs (s : State) (hearth : Bool) (f : LSf) : List Flight :=
  (s.executing f.pred).map (fun g => ⟨s.hammer.pos + actLag g, .act g (if hearth then 8 else 7)⟩)

/-- The post-updates of `.pu`, under way. -/
def State.lsPosted (s : State) (f : LSf) : List Flight := (s.lsPost f).map (fun x => ⟨s.hammer.pos + x.due, x.eff⟩)

theorem State.lsPost_anvil (s : State) (f : LSf) : ∀ x ∈ s.lsPost f, x.due = 2 ∧ ∃ g e fl, x.eff = .anvil g e fl := by
  unfold State.lsPost
  split
  · intro x hx
    obtain ⟨g, -, rfl⟩ := List.mem_map.mp hx
    exact ⟨rfl, _, _, _, rfl⟩
  · simp

theorem State.lsPosted_due (s : State) (f : LSf) : ∀ x ∈ s.lsPosted f, x.due = s.hammer.pos + 2 := by
  intro x hx
  obtain ⟨y, hy, rfl⟩ := List.mem_map.mp hx
  exact congrArg _ (s.lsPost_anvil f y hy).1

/-- The effects of an L-slot word whose accesses are `e`. -/
def State.lsEffects (s : State) (hearth : Bool) (slot : Nat) (f : LSf) (e : Eff) : List Flight :=
  ⟨0, e⟩ :: (s.lsBad hearth slot f ++ s.lsPost f)

theorem State.lsEffects_ofL (s : State) (hearth : Bool) (slot : Nat) (f : LSf) {e : Eff} (he : Flight.ofL ⟨0, e⟩ = true) :
    ∀ x ∈ s.lsEffects hearth slot f e, x.ofL = true := by
  intro x hx
  rcases List.mem_cons.mp hx with rfl | hx
  · exact he
  · rcases List.mem_append.mp hx with hx | hx
    · obtain ⟨g, -, hx⟩ := List.mem_filterMap.mp hx
      dsimp only at hx
      split at hx
      · exact absurd hx (by simp)
      · rw [← Option.some.inj hx]; rfl
    · obtain ⟨-, g, a, fl, hx⟩ := s.lsPost_anvil f x hx
      unfold Flight.ofL
      rw [hx]

/-- Accesses without a fault, then the post-updates. -/
theorem State.accessed_lsEffects (s : State) (h : Hd) {hearth : Bool} {f : LSf} {e : Eff} {fl : List Flight}
    (hok : ∀ g ∈ s.executing f.pred, lsEaOk hearth g (lsEa (s.anvil g) f) = true)
    (he : s.opening.accessed (State.issueEff s.hammer.pos (h.len + 1) false (s.hammer.tok.all (fun t => t.2.count == 0)) s.opening
      ⟨0, e⟩) fl []) :
    s.opening.accessed (s.effects h (s.lsEffects hearth h.slot f e)) (fl ++ s.lsPosted f) [] := by
  unfold State.effects State.lsEffects
  rw [s.lsBad_eq h.slot hok, List.nil_append, List.foldl_cons]
  exact State.accessed_trans he (State.accessed_issueEff_anvil _ _ _ _ _ _ fun x hx => (s.lsPost_anvil f x hx).2)

section
variable {s X : State} {h : Hd} {slots : List Nat} {fl : List Flight} (hs : s.sole h slots) (hX : s.opening.accessed X fl [])
include hs hX

/-- The frame of a bundle of accesses without a fault, whatever stores have then taken effect. -/
theorem handed_accessed {t : State} (ha : t.anvils = (s.passed X h).anvils) (ht : t.hammer = { (s.passed X h).hammer with
    flight := t.hammer.flight, recent := t.hammer.recent, tok := t.hammer.tok }) : s.handed t h := by
  have hend : s.hammer.ending = none := by
    have htk := hs.1
    simp [State.taking] at htk
    exact htk.2
  rw [passed_hammer hs hX] at ht
  refine ⟨?_, ?_, ?_, ?_, ?_, ?_, ?_, ?_, ?_, ha.trans (passed_rest hX h).2⟩ <;> rw [ht]
  exact hend

end

/-! ### Faults -/

/-- An address that is misaligned or outside the store is `L_ADDR` in its Anvil, found 6 positions on (R174, R211). -/
theorem lsOp_bad {s : State} {h : Hd} {f : LSf} (hearth : Bool) {legal : Bool} {dests : List Dest} {e : State → Eff}
    (hs : s.sole h [5, 6]) (hl : legal = true) (hd : noDup dests = true) (he : Flight.ofL ⟨0, e s⟩ = true) :
    ∃ t, s.slotOp h (.plain lSlots legal dests (fun s => s.lsEffects hearth h.slot f (e s))) = .next t ∧
      ∀ g ∈ s.executing f.pred, lsEaOk hearth g (lsEa (s.anvil g) f) = false →
        ∃ x ∈ t.hammer.faults, x.pos = s.hammer.pos ∧ x.detect = s.hammer.pos + 6 ∧ x.slot = h.slot ∧
          x.fail.cause = 0x10 ∧ x.fail.fanvil = g := by
  have hL := s.lsEffects_ofL hearth h.slot f he
  refine ⟨_, slotOp_accesses s h legal dests _ hs hl hd hL, fun g hg hbad => ?_⟩
  obtain ⟨loc, hmem⟩ := s.mem_lsBad h.slot hg hbad
  rw [State.commitAt_beside]
  exact State.faults_issueEff _ _ _ _ _ _ hL (List.mem_cons_of_mem _ (List.mem_append_left _ hmem))

/-! ### The register or the bytes of an access -/

/-- Bytes of an access (R172). -/
theorem lsLen_eq (op : Nat) : (if lsFile op = 0 then 128 else 8) = if op ≤ 4 then 128 else 8 := by
  unfold lsFile
  by_cases h4 : op ≤ 4 <;> by_cases h8 : op ≤ 8 <;> simp [h4, h8]

theorem loadEff_lsFile (op d x : Nat) : loadEff (lsFile op) d x =
    if op ≤ 4 then AEff.v d (BitVec.ofNat 1024 x) else if op ≤ 8 then .g d (BitVec.ofNat 64 x) else .k d (BitVec.ofNat 64 x) := by
  unfold lsFile
  by_cases h4 : op ≤ 4 <;> by_cases h8 : op ≤ 8 <;> simp [h4, h8, loadEff]

theorem storeVal_lsFile (a : Anvil) (op d : Nat) : storeVal a (lsFile op) d =
    if op ≤ 4 then (a.vr d).toNat else if op ≤ 8 then (a.gr d).toNat else (a.kr d).toNat := by
  unfold lsFile
  by_cases h4 : op ≤ 4 <;> by_cases h8 : op ≤ 8 <;> simp [h4, h8, storeVal]

/-! ### Stores that take effect -/

/-- One store at the next position: its bytes, every other byte, and the frame (R175, R196). -/
theorem State.commit_store (u : State) (n a len v : Nat) (ha : 0x200000000000 ≤ a) :
    let w := u.commit (.store n a len v)
    w.anvils = u.anvils ∧ w.hammer = { u.hammer with recent := w.hammer.recent, tok := w.hammer.tok } ∧
      (∀ x, ¬ (a ≤ x ∧ x < a + len) → w.byte x = u.byte x) ∧
      ∀ i, i < len → w.byte (a + i) = BitVec.ofNat 8 (v / 2 ^ (8 * i)) := by
  intro w
  set W := (u.writeN a len v).onHammer (fun h => { h with recent := h.recent ++ [(n, a, u.bytes a len)] }) with hW
  obtain ⟨hm, han, hh⟩ : W.tokensOnly w := W.tokensOnly_meetDescs n a len
  have hWh : W.hammer = { u.hammer with recent := W.hammer.recent } := by rw [hW, State.onHammer, State.writeN_hammer]
  have hb : ∀ x, w.byte x = (u.writeN a len v).byte x := fun x => by
    show Tab.get memDefault w.mem (phys x) = _
    rw [hm]; rfl
  refine ⟨?_, ?_, fun x hx => (hb x).trans (u.byte_writeN_ne a len v x ha hx),
    fun i hi => (hb _).trans (u.byte_writeN_at a len v i ha hi)⟩
  · rw [han]
    show (u.writeN a len v).anvils = _
    rw [State.writeN_frame]
  · rw [hh, hWh]

/-- The stores of ascending Anvils, one after the other: a byte holds what the last store to it wrote (R175, R202). -/
theorem State.commit_stores (n len : Nat) (addr val : Nat → Nat) (hlow : ∀ g, 0x200000000000 ≤ addr g) (l : List Nat)
    (hl : l.Pairwise (· < ·)) (u : State) :
    let w := l.foldl (fun s g => s.commit (.store n (addr g) len (val g))) u
    w.anvils = u.anvils ∧ w.hammer = { u.hammer with recent := w.hammer.recent, tok := w.hammer.tok } ∧
      (∀ x, (∀ g ∈ l, ¬ (addr g ≤ x ∧ x < addr g + len)) → w.byte x = u.byte x) ∧
      ∀ g ∈ l, (∀ k ∈ l, g < k → addr k + len ≤ addr g ∨ addr g + len ≤ addr k) →
        ∀ i, i < len → w.byte (addr g + i) = BitVec.ofNat 8 (val g / 2 ^ (8 * i)) := by
  induction l generalizing u with
  | nil => exact ⟨rfl, rfl, fun _ _ => rfl, by simp⟩
  | cons g r ih =>
    obtain ⟨hg, hr⟩ := List.pairwise_cons.mp hl
    obtain ⟨a1, a2, a3, a4⟩ := u.commit_store n (addr g) len (val g) (hlow g)
    obtain ⟨b1, b2, b3, b4⟩ := ih hr (u.commit (.store n (addr g) len (val g)))
    refine ⟨b1.trans a1, by rw [List.foldl_cons, b2, a2], fun x hx => ?_, fun k hk hlast i hi => ?_⟩
    · exact (b3 x fun k hk => hx k (List.mem_cons_of_mem _ hk)).trans (a3 x (hx g (List.mem_cons_self ..)))
    · rcases List.mem_cons.mp hk with rfl | hk
      · refine (b3 _ fun j hj => ?_).trans (a4 i hi)
        have := hlast j (List.mem_cons_of_mem _ hj) (hg j hj)
        omega
      · exact b4 k hk (fun j hj => hlast j (List.mem_cons_of_mem _ hj)) i hi

/-- Of what is under way the stores are due at the next position, the activity and the post-updates later. -/
theorem filter_stores (n : Nat) (act : Nat → Flight) (store : Nat → Eff) (hact : ∀ g, (act g).due ≠ n + 1) (l : List Nat)
    (post : List Flight) (hpost : ∀ x ∈ post, x.due = n + 2) :
    (l.flatMap (fun g => [act g, ⟨n + 1, store g⟩]) ++ post).filter (fun f => f.due == n + 1) = l.map (fun g => ⟨n + 1, store g⟩) ∧
      (l.flatMap (fun g => [act g, ⟨n + 1, store g⟩]) ++ post).filter (fun f => f.due != n + 1) = l.map act ++ post := by
  induction l with
  | nil =>
    refine ⟨?_, ?_⟩
    · rw [List.flatMap_nil, List.nil_append, List.filter_eq_nil_iff.mpr fun x hx => by rw [hpost x hx]; simp]
      rfl
    · exact List.filter_eq_self.mpr fun x hx => by rw [hpost x hx]; simp
  | cons g r ih =>
    obtain ⟨h1, h2⟩ := ih
    rw [List.flatMap_cons, List.append_assoc]
    simp [hact g, h1, h2]

/-! ### Loads and stores -/

section
variable {s : State} (h : Hd) {f : LSf} (op : Nat) {hearth : Bool}
  (hgood : ∀ g ∈ s.executing f.pred, lsEaOk hearth g (lsEa (s.anvil g) f) = true ∧
    s.reachable (region (s.lsAt hearth f g)) = true)
include hgood

/-- A load's effects: the activity and the value in every executing Anvil, then the post-updates. -/
theorem accessed_loads (lat : Nat)
    (hue : ∀ g ∈ s.executing f.pred, s.ueIn (s.lsAt hearth f g) (if op ≤ 4 then 128 else 8) = none) :
    s.opening.accessed
      (s.effects h (s.lsEffects hearth h.slot f (.loads h.slot (lsFile op) f.dr lat hearth (s.lsGood hearth f))))
      ((s.executing f.pred).flatMap (fun g => [⟨s.hammer.pos + actLag g, .act g (if hearth then 8 else 7)⟩,
        ⟨s.hammer.pos + lat, .anvil g
          (let x := s.readN (s.lsAt hearth f g) (if op ≤ 4 then 128 else 8)
           if op ≤ 4 then .v f.dr (BitVec.ofNat 1024 x) else if op ≤ 8 then .g f.dr (BitVec.ofNat 64 x)
           else .k f.dr (BitVec.ofNat 64 x)) 0⟩]) ++ s.lsPosted f) [] := by
  have hok := fun g hg => (hgood g hg).1
  obtain ⟨-, hload⟩ := State.accessed_foldl
    (fun v g => State.issueLoad s.hammer.pos h.slot (lsFile op) f.dr lat hearth v (g, s.lsAt hearth f g))
    (fun g => [⟨s.hammer.pos + actLag g, .act g (if hearth then 8 else 7)⟩, ⟨s.hammer.pos + lat, .anvil g
      (loadEff (lsFile op) f.dr (s.readN (s.lsAt hearth f g) (if lsFile op = 0 then 128 else 8))) 0⟩])
    (s.executing f.pred) s s.opening (fun v ⟨hv1, hv2, hv3⟩ g hg => by
      rw [← hv1]
      exact State.issueLoad_good _ _ _ _ _ _ v g _ ((hv3 _).trans (hgood g hg).2)
        ((hv2 _ _).trans (by rw [lsLen_eq]; exact hue g hg))) s.readsAlike_opening
  simp only [lsLen_eq, loadEff_lsFile] at hload
  refine s.accessed_lsEffects h hok ?_
  unfold State.issueEff
  dsimp only
  rw [State.lsGood_eq hok, List.foldl_map]
  exact hload

/-- A store's effects: the activity and the store in every executing Anvil, then the post-updates. -/
theorem accessed_stores :
    s.opening.accessed
      (s.effects h (s.lsEffects hearth h.slot f (.stores h.slot (if lsFile op = 0 then 128 else 8) hearth
        ((s.lsGood hearth f).map (fun p => (p.1, p.2, storeVal (s.anvil p.1) (lsFile op) f.dr))))))
      ((s.executing f.pred).flatMap (fun g => [⟨s.hammer.pos + actLag g, .act g (if hearth then 8 else 7)⟩,
        ⟨s.hammer.pos + 1, .store s.hammer.pos (s.lsAt hearth f g) (if op ≤ 4 then 128 else 8)
          (storeVal (s.anvil g) (lsFile op) f.dr)⟩]) ++ s.lsPosted f) [] := by
  have hok := fun g hg => (hgood g hg).1
  obtain ⟨-, hstore⟩ := State.accessed_foldl
    (fun v g => State.issueStore s.hammer.pos h.slot (if op ≤ 4 then 128 else 8) hearth v
      (g, s.lsAt hearth f g, storeVal (s.anvil g) (lsFile op) f.dr))
    (fun g => [⟨s.hammer.pos + actLag g, .act g (if hearth then 8 else 7)⟩, ⟨s.hammer.pos + 1, .store s.hammer.pos
      (s.lsAt hearth f g) (if op ≤ 4 then 128 else 8) (storeVal (s.anvil g) (lsFile op) f.dr)⟩])
    (s.executing f.pred) s s.opening
    (fun v ⟨_, _, hv3⟩ g hg => State.issueStore_good _ _ _ _ v g _ _ ((hv3 _).trans (hgood g hg).2)) s.readsAlike_opening
  refine s.accessed_lsEffects h hok ?_
  unfold State.issueEff
  dsimp only
  rw [State.lsGood_eq hok, List.map_map, List.foldl_map, lsLen_eq]
  exact hstore

end

/-- The stores under way behind a bundle take effect at the next position, in ascending Anvil order; the rest stays under way. -/
theorem commitAt_stores {s X : State} {h : Hd} {slots : List Nat} (hs : s.sole h slots) {hearth : Bool} {f : LSf} {store : Nat → Eff}
    (hX : s.opening.accessed X ((s.executing f.pred).flatMap (fun g =>
      [⟨s.hammer.pos + actLag g, .act g (if hearth then 8 else 7)⟩, ⟨s.hammer.pos + 1, store g⟩]) ++ s.lsPosted f) []) :
    (s.passed X h).commitAt (s.hammer.pos + 1) = (s.executing f.pred).foldl (fun v g => v.commit (store g))
      ((s.passed X h).onHammer (fun x => { x with flight := s.lsActs hearth f ++ s.lsPosted f })) := by
  obtain ⟨h1, h2⟩ := filter_stores s.hammer.pos (fun g => ⟨s.hammer.pos + actLag g, .act g (if hearth then 8 else 7)⟩) store
    (fun g => by have := actLag_lt g; dsimp only; omega) (s.executing f.pred) (s.lsPosted f) (s.lsPosted_due f)
  unfold State.commitAt
  rw [passed_hammer hs hX]
  dsimp only
  rw [h1, h2, List.foldl_map]
  rfl

section
variable {s : State} {h : Hd} {f : LSf} (op : Nat) {hearth : Bool} {legal : Bool} {dests : List Dest} (hs : s.sole h [5, 6])
  (hl : legal = true) (hd : noDup dests = true)
  (hgood : ∀ g ∈ s.executing f.pred, lsEaOk hearth g (lsEa (s.anvil g) f) = true ∧
    s.reachable (region (s.lsAt hearth f g)) = true)
include hs hl hd hgood

/-- A load whose addresses and bytes are good: in every executing Anvil its activity and the value are under way (R172, R198). -/
theorem loads_run {lat : Nat} (hlat : 2 ≤ lat)
    (hue : ∀ g ∈ s.executing f.pred, s.ueIn (s.lsAt hearth f g) (if op ≤ 4 then 128 else 8) = none) :
    ∃ t, s.slotOp h (.plain lSlots legal dests (fun s => s.lsEffects hearth h.slot f
        (.loads h.slot (lsFile op) f.dr lat hearth (s.lsGood hearth f)))) = .next t ∧ s.handed t h ∧
      (∀ x, t.byte x = s.byte x) ∧
      t.hammer.flight = (s.executing f.pred).flatMap (fun g => [⟨s.hammer.pos + actLag g, .act g (if hearth then 8 else 7)⟩,
        ⟨s.hammer.pos + lat, .anvil g
          (let x := s.readN (s.lsAt hearth f g) (if op ≤ 4 then 128 else 8)
           if op ≤ 4 then .v f.dr (BitVec.ofNat 1024 x) else if op ≤ 8 then .g f.dr (BitVec.ofNat 64 x)
           else .k f.dr (BitVec.ofNat 64 x)) 0⟩]) ++ s.lsPosted f := by
  refine ⟨_, slotOp_accesses s h legal dests _ hs hl hd (s.lsEffects_ofL hearth h.slot f rfl), ?_⟩
  have hX := accessed_loads h op hgood lat hue
  have hfl := congrArg Hammer.flight (passed_hammer hs hX)
  rw [State.commitAt_none _ _ fun x hx => ?_]
  · refine ⟨handed_accessed hs hX rfl rfl, fun x => ?_, hfl⟩
    show Tab.get memDefault _ (phys x) = _
    rw [(passed_rest hX h).1]; rfl
  · rw [hfl] at hx
    rcases List.mem_append.mp hx with hx | hx
    · obtain ⟨g, -, hx⟩ := List.mem_flatMap.mp hx
      have := actLag_lt g
      simp only [List.mem_cons, List.not_mem_nil, or_false] at hx
      rcases hx with rfl | rfl <;> dsimp only <;> omega
    · rw [s.lsPosted_due f x hx]; omega

/-- A store whose addresses are good: in every executing Anvil its activity is under way, and its bytes are written (R172, R175). -/
theorem stores_run :
    let len := if op ≤ 4 then 128 else 8
    let addr := s.lsAt hearth f
    let ex := s.executing f.pred
    ∃ t, s.slotOp h (.plain lSlots legal dests (fun s => s.lsEffects hearth h.slot f
        (.stores h.slot (if lsFile op = 0 then 128 else 8) hearth
          ((s.lsGood hearth f).map (fun p => (p.1, p.2, storeVal (s.anvil p.1) (lsFile op) f.dr)))))) = .next t ∧ s.handed t h ∧
      t.hammer.flight = s.lsActs hearth f ++ s.lsPosted f ∧
      (∀ x, (∀ g ∈ ex, ¬ (addr g ≤ x ∧ x < addr g + len)) → t.byte x = s.byte x) ∧
      ∀ g ∈ ex, (∀ k ∈ ex, g < k → addr k + len ≤ addr g ∨ addr g + len ≤ addr k) →
        ∀ i, i < len → t.byte (addr g + i) = BitVec.ofNat 8 (storeVal (s.anvil g) (lsFile op) f.dr / 2 ^ (8 * i)) := by
  intro len addr ex
  refine ⟨_, slotOp_accesses s h legal dests _ hs hl hd (s.lsEffects_ofL hearth h.slot f rfl), ?_⟩
  have hX := accessed_stores h op hgood
  rw [commitAt_stores hs hX]
  obtain ⟨c1, c2, c3, c4⟩ := State.commit_stores s.hammer.pos len addr (fun g => storeVal (s.anvil g) (lsFile op) f.dr)
    (s.lsAt_low hearth f) ex (List.pairwise_lt_range.filter _) (State.onHammer _ (fun x => { x with
      flight := s.lsActs hearth f ++ s.lsPosted f }))
  refine ⟨handed_accessed hs hX c1 (by rw [c2]; rfl), by rw [c2]; rfl, fun x hx => (c3 x hx).trans ?_, c4⟩
  show Tab.get memDefault _ (phys x) = _
  rw [show ∀ (u : State) k, (u.onHammer k).mem = u.mem from fun _ _ => rfl, (passed_rest hX h).1]; rfl

end

/-- Settles O16: the accesses of a load (`loads_run`), the bytes of a store (`stores_run`), the faults of both (`lsOp_bad`). That the
effective address is not reduced, and when an Anvil's activity counts, is the model's choice (assumption log 22 and 31). -/
theorem storeAccessWords : Obligations.StoreAccessWords := by
  intro s h f op hs hl hd ex len base addr good act post load store bad
  have hpost : s.lsPosted f = post := by
    show (s.lsPost f).map _ = if f.am = 1 then _ else []
    unfold State.lsPost
    split
    · rw [List.map_map]; rfl
    · rfl
  have hval : (fun g => storeVal (s.anvil g) (lsFile op) f.dr) = fun g => if op ≤ 4 then ((s.anvil g).vr f.dr).toNat
      else if op ≤ 8 then ((s.anvil g).gr f.dr).toNat else ((s.anvil g).kr f.dr).toNat :=
    funext fun g => storeVal_lsFile _ _ _
  have legal := fun (l : List Nat) (ho : op ∈ l) =>
    (Bool.and_eq_true (lsLegal (h.slot = 5) op f) (oneOf op l)).mpr ⟨hl, List.contains_iff_mem.mpr ho⟩
  refine ⟨fun ho => ⟨fun hg hu => ?_, ?_⟩, fun ho => ⟨fun hg => ?_, ?_⟩, fun ho => ⟨fun hg hu => ?_, ?_⟩,
    fun ho => ⟨fun hg => ?_, ?_⟩⟩
  · rw [← hpost]; exact loads_run op hs (legal _ ho) hd hg (by decide) hu
  · exact lsOp_bad false hs (legal _ ho) hd rfl
  · rw [← hpost, ← hval]; exact stores_run op hs (legal _ ho) hd hg
  · exact lsOp_bad false hs (legal _ ho) hd rfl
  · rw [← hpost]; exact loads_run op hs (legal _ ho) hd hg (by decide) hu
  · exact lsOp_bad true hs (legal _ ho) hd rfl
  · rw [← hpost, ← hval]; exact stores_run op hs (legal _ ho) hd hg
  · exact lsOp_bad true hs (legal _ ho) hd rfl

end Sys2Proof.Machine
end

