-- ==== Sys2Proof/Proofs/VectorFloat.lean ====
section
/-! VectorFloatWords (O1). The FP32 lanes of the V slots (R166). -/

namespace Sys2Proof.Machine

/-- Settles O1: each word is its function on 32-bit lanes (`vrLanes_congr`), fma and fms on three sources. -/
theorem vectorFloatWords : Obligations.VectorFloatWords := by
  intro s h f hs A B C two
  refine ⟨fun op h1 h2 hl => ?_, fun op h1 h2 hl => ?_, fun op h1 h2 hl => ?_, fun op h1 h2 hl => ?_, fun hl => ?_,
    fun op h1 h2 hl => ?_⟩
  · exact vrOp_underWay hs h1 h2 (by decide) (vrLanes_congr (fun _ _ _ _ => rfl) f s) hl
  · exact vrOp_underWay hs h1 h2 (by decide) (fun _ => rfl) hl
  · exact vrOp_underWay hs h1 h2 (by decide) (vrLanes_congr (fun _ _ _ _ => rfl) f s) hl
  · exact vrOp_underWay hs h1 h2 (by decide) (vrLanes_congr (fun _ _ _ _ => rfl) f s) hl
  · exact vrOp_underWay hs le_rfl le_rfl (by decide) (vrLanes_congr (fun _ _ _ _ => rfl) f s) hl
  · refine vrOp_underWay hs h1 h2 (by decide) (vrLanes_congr (fun a b _ _ => ?_) f s) hl
    interval_cases op <;> rfl

end Sys2Proof.Machine
end

