-- ==== Sys2Proof/Proofs/MaskWords.lean ====
section
/-! MaskWords (O12). The mask fields that the C slot replaces, one Hearth's or all ten (R103, R155). -/

namespace Sys2Proof.Machine

/-! ### A field of the mask -/

theorem testBit_replaced (n lo k x i : Nat) :
    (n - n / 2 ^ lo % 2 ^ k * 2 ^ lo + x % 2 ^ k * 2 ^ lo).testBit i =
      if lo ≤ i ∧ i < lo + k then x.testBit (i - lo) else n.testBit i := by
  have hval : n - n / 2 ^ lo % 2 ^ k * 2 ^ lo + x % 2 ^ k * 2 ^ lo =
      2 ^ lo * (2 ^ k * (n / 2 ^ lo / 2 ^ k) + x % 2 ^ k) + n % 2 ^ lo := by
    rw [setBits_arith]
    ring
  rw [hval, Nat.testBit_two_pow_mul_add _ (Nat.mod_lt _ (Nat.two_pow_pos _))]
  by_cases h1 : i < lo
  · rw [if_pos h1, if_neg (by omega), Nat.testBit_mod_two_pow, decide_eq_true h1, Bool.true_and]
  · rw [if_neg h1, Nat.testBit_two_pow_mul_add _ (Nat.mod_lt _ (Nat.two_pow_pos _))]
    by_cases h2 : i - lo < k
    · rw [if_pos h2, if_pos (by omega), Nat.testBit_mod_two_pow, decide_eq_true h2, Bool.true_and]
    · rw [if_neg h2, if_neg (by omega), Nat.testBit_div_two_pow, Nat.testBit_div_two_pow]
      congr 1
      omega

/-- An Anvil's bit after the field of a Hearth has been replaced (R103). -/
theorem getLsbD_setMask (m : BitVec 160) (k f g : Nat) (hg : g < 160) :
    (setMask m k f).getLsbD g = if g / 16 = k then f.testBit (g % 16) else m.getLsbD g := by
  unfold setMask
  rw [BitVec.getLsbD_ofNat, decide_eq_true hg, Bool.true_and, testBit_replaced]
  by_cases h : g / 16 = k
  · rw [if_pos h, if_pos (by omega)]
    congr 1
    omega
  · rw [if_neg h, if_neg (by omega)]
    rfl

theorem getLsbD_foldl_setMask (l : List Nat) (m : BitVec 160) (f g : Nat) (hg : g < 160) :
    (l.foldl (fun m k => setMask m k f) m).getLsbD g = if g / 16 ∈ l then f.testBit (g % 16) else m.getLsbD g := by
  induction l generalizing m with
  | nil => rfl
  | cons k r ih =>
    rw [List.foldl_cons, ih, getLsbD_setMask m k f g hg]
    by_cases hr : g / 16 ∈ r <;> by_cases hk : g / 16 = k <;> simp [hr, hk]

/-! ### The words -/

theorem State.foldl_commit_mask (l : List Nat) (f p : Nat) (u : State) :
    (l.map (fun k => (⟨p, .mask k f⟩ : Flight))).foldl (fun s x => s.commit x.eff) u =
      u.onHammer (fun x => { x with amask := l.foldl (fun m k => setMask m k f) x.amask }) := by
  induction l generalizing u with
  | nil => rfl
  | cons k r ih => exact ih _

/-- A bundle of one legal word that replaces the fields of the Hearths of `l`, visible at the next position. -/
theorem slotOp_masks (s : State) (h : Hd) (op : Nat) (f : CSf) (l : List Nat) (hs : s.sole h [0]) (hl : csLegal op f = true)
    (hd : noDup (csDests op f) = true) :
    ∃ t, s.slotOp h (csOp op f (fun _ => l.map (fun k => ⟨1, .mask k f.imm⟩))) = .next t ∧
      (s.movedOn t h ∧ t.hammer.s = s.hammer.s ∧ t.hammer.flight = [] ∧ t.hammer.redirs = [] ∧ t.hammer.faults = [] ∧
        t.hammer.ending = none ∧ ∀ a, a ≠ HAMMER_ISSUECNT → a ≠ HAMMER_PCSTAT → t.rd a = s.rd a) ∧
      t.hammer.amask = l.foldl (fun m k => setMask m k f.imm) s.hammer.amask := by
  set L : List Flight := l.map (fun k => ⟨1, .mask k f.imm⟩) with hL
  have hmask : ∀ x ∈ L, ∃ k, x = ⟨1, .mask k f.imm⟩ := fun x hx => by
    obtain ⟨k, -, rfl⟩ := List.mem_map.mp hx
    exact ⟨k, rfl⟩
  have hso := slotOp_sole s h (csOp op f (fun _ => L)) hs hl hd (by simp [csOp, SlotOp.plain]) (waitFail_zero s) rfl
    (fun x hx => by
      obtain ⟨k, rfl⟩ := hmask x hx
      exact .inl rfl)
  obtain ⟨htk, _, _, _, _, _, _, _, _, hfa, _⟩ := id hs
  have hend : s.hammer.ending = none := by simp [State.taking] at htk; exact htk.2
  have hsr : ∀ x ∈ L, ∀ g st, x.eff = .sr g st → g < 160 := fun x hx g st he => by
    obtain ⟨k, rfl⟩ := hmask x hx
    cases he
  have hm := issuedWith_movedOn s h L hsr
  have hrd : ∀ a, a ≠ HAMMER_ISSUECNT → a ≠ HAMMER_PCSTAT → (s.issuedWith h L).rd a = s.rd a := fun a h1 h2 =>
    (State.charged_rd_ne _ L a (fun x hx g st he => by
      obtain ⟨k, rfl⟩ := hmask x hx
      cases he)).trans ((State.rd_put_ne _ HAMMER_PCSTAT_PC _ h2).trans (State.rd_put_ne _ HAMMER_ISSUECNT_COUNT _ h1))
  have hZ : (s.issuedWith h L).hammer = { s.hammer with
      cur := Open.none, open_ := false, pos := s.hammer.pos + 1, pc := s.hammer.pc + (h.len + 1), redirs := []
      flight := l.map (fun k => ⟨s.hammer.pos + 1, .mask k f.imm⟩)
      recent := (s.issuedWith h L).hammer.recent, descs := (s.issuedWith h L).hammer.descs } := by
    unfold State.issuedWith
    simp only [State.onHammer, State.charged_hammer, hL, List.filter_map, List.map_map]
    congr 1
    exact congrArg _ (List.filter_eq_self.mpr (fun _ _ => rfl))
  change s.slotOp h _ = .next ((s.issuedWith h L).commitAt (s.hammer.pos + 1)) at hso
  generalize s.issuedWith h L = Z at *
  have hc : Z.commitAt (s.hammer.pos + 1) = Z.onHammer (fun x =>
      { x with flight := [], amask := l.foldl (fun m k => setMask m k f.imm) x.amask }) := by
    have hall : Z.hammer.flight = l.map (fun k => ⟨s.hammer.pos + 1, .mask k f.imm⟩) := by rw [hZ]
    have hdue : Z.hammer.flight.filter (fun x => x.due == s.hammer.pos + 1) = Z.hammer.flight := by simp [hall]
    have hrest : Z.hammer.flight.filter (fun x => x.due != s.hammer.pos + 1) = [] := by simp [hall]
    unfold State.commitAt
    dsimp only
    rw [hdue, hrest, hall, State.foldl_commit_mask]
    rfl
  rw [hc] at hso
  obtain ⟨m1, m2, m3, m4, m5⟩ := hm
  refine ⟨_, hso, ⟨⟨m1, m2, m3, by rw [m4]; rfl, ?_⟩, ?_, rfl, ?_, ?_, ?_, hrd⟩, ?_⟩
  all_goals simp only [State.onHammer]
  all_goals rw [hZ]
  · exact hfa
  · exact hend

/-- Settles O12: the words replace the fields of one Hearth or of all ten (`slotOp_masks`), bit by bit (`getLsbD_foldl_setMask`). -/
theorem maskWords : Obligations.MaskWords := by
  intro s h f hs frame
  refine ⟨fun hl => ?_, fun hl => ?_⟩
  · obtain ⟨t, ht, hf, hm⟩ := slotOp_masks s h 0x42 f [f.h] hs hl rfl
    refine ⟨t, ht, hf, fun g hg => ?_⟩
    rw [hm, getLsbD_foldl_setMask _ _ _ _ hg]
    simp only [List.mem_singleton]
  · obtain ⟨t, ht, hf, hm⟩ := slotOp_masks s h 0x43 f (List.range 10) hs hl rfl
    refine ⟨t, ht, hf, fun g hg => ?_⟩
    rw [hm, getLsbD_foldl_setMask _ _ _ _ hg, if_pos (List.mem_range.mpr (by omega))]

end Sys2Proof.Machine
end

