-- ==== Sys2Proof/Proofs/BranchWords.lean ====
section
/-! BranchWords (O13). A branch gives its bundle a redirect for the third bundle on, a register for the next, a link, or a fault found
two bundles on (R154, R204, R211). -/

namespace Sys2Proof.Machine

/-! ### The trace -/

/-- From `u` to `v` the trace and its status alone changed. -/
structure State.traceOnly (u v : State) : Prop where
  rest : v = { u with csr := v.csr, trace := v.trace }
  regs : ∀ a, a ≠ HAMMER_TRSTAT → v.rd a = u.rd a

theorem State.traceOnly_refl (u : State) : u.traceOnly u := ⟨rfl, fun _ _ => rfl⟩

theorem State.traceOnly_trans {u v w : State} (h : u.traceOnly v) (k : v.traceOnly w) : u.traceOnly w := by
  refine ⟨?_, fun a ha => (k.regs a ha).trans (h.regs a ha)⟩
  rw [k.rest, h.rest]

theorem State.traceOnly_put (u : State) (f : Fd) (x : Nat) (h : f.addr = HAMMER_TRSTAT) : u.traceOnly (u.put f x) :=
  ⟨rfl, fun _ ha => State.rd_put_ne _ _ _ (h ▸ ha)⟩

/-- A trace entry changes the trace and its status. -/
theorem State.traceOnly_traced (u : State) (ty data : Nat) : u.traceOnly (u.traced ty data) := by
  unfold State.traced
  extract_lets st e
  split
  · exact u.traceOnly_refl
  · split
    extract_lets l after s1 s2
    have h1 : u.traceOnly s1 := by
      unfold s1
      split
      · exact u.traceOnly_put HAMMER_TRSTAT_LOST _ rfl
      · exact u.traceOnly_refl
    have h2 : s1.traceOnly s2 :=
      State.traceOnly_trans (v := { s1 with trace := ⟨l, after⟩ }) ⟨rfl, fun a _ => by simp only [State.rd]⟩
        (State.traceOnly_put _ HAMMER_TRSTAT_COUNT _ rfl)
    have h3 := State.traceOnly_trans h1 h2
    clear_value s2
    split
    · exact State.traceOnly_trans h3 (s2.traceOnly_put HAMMER_TRSTAT_STATE _ rfl)
    · exact h3

theorem State.traced_hammer (u : State) (ty data : Nat) : (u.traced ty data).hammer = u.hammer := by
  rw [(u.traceOnly_traced ty data).rest]

/-! ### The end of an issue -/

/-- Redirects of later bundles wait, and the next bundle is the one behind. -/
theorem State.closing_later (X : State) (n pc u : Nat) (hm : X.hammer.marker = none) (hr : ∀ r ∈ X.hammer.redirs, n + 1 < r.1) :
    X.closing n pc u = ((X.stepped n (pc + u)).onHammer (fun x => { x with redirs := X.hammer.redirs })).commitAt (n + 1) := by
  have hfind : X.hammer.redirAt (n + 1) = none := by
    unfold Hammer.redirAt
    rw [hm, List.find?_eq_none.mpr (fun r hr' => by have := hr r hr'; simp; omega)]
    rfl
  have hfilter : X.hammer.redirs.filter (fun r => Decidable.decide (r.1 > n + 1)) = X.hammer.redirs :=
    List.filter_eq_self.mpr (fun r hr' => by simpa using hr r hr')
  unfold State.closing State.stepped
  simp only [State.onHammer, hfind, hfilter, Option.getD_none]

/-- Faults that are found later change nothing yet. -/
theorem State.issueEnd_later (s : State) (n : Nat) (hf : ∀ f ∈ s.hammer.faults, n < f.detect) (hm : s.hammer.marker = none) :
    s.issueEnd n = s := by
  have hno : s.hammer.faults.any (fun f => f.detect ≤ n) = false := by
    rw [List.any_eq_false]
    intro f hf'
    have := hf f hf'
    simp
    omega
  unfold State.issueEnd
  rw [hno, hm]
  rfl

/-! ### What a branch leaves -/

/-- Hammer, opened for the issue, has taken up the effects of a branch: a register result `w` due at the next position, redirects of
the third bundle on, faults found two bundles on. -/
structure State.branched (s X : State) (w : Option (Nat × Word × Bool)) (rd : List (Nat × Nat)) (ft : List FaultAt) : Prop where
  hammer : X.hammer = { s.opening.hammer with
    flight := w.toList.map (fun x => ⟨s.hammer.pos + 1, .s x.1 x.2.1 x.2.2⟩), redirs := rd, faults := ft }
  rest : X = { s.opening with csr := X.csr, hammer := X.hammer, trace := X.trace }
  regs : ∀ a, a ≠ HAMMER_TRSTAT → X.rd a = s.opening.rd a
  later : ∀ r ∈ rd, s.hammer.pos + 1 < r.1
  found : ∀ f ∈ ft, s.hammer.pos < f.detect

/-- The bundle of a branch has issued: the frame, and what is due later. -/
structure State.departed (s t : State) (h : Hd) (rd : List (Nat × Nat)) (ft : List FaultAt) : Prop where
  moved : s.movedOn t h
  amask : t.hammer.amask = s.hammer.amask
  flight : t.hammer.flight = []
  ending : t.hammer.ending = none
  redirs : t.hammer.redirs = rd
  faults : t.hammer.faults = ft

section
variable {s X : State} {h : Hd} {rd : List (Nat × Nat)} {ft : List FaultAt} (hs : s.sole h [0])
include hs

/-- The results of the next position taken up, an issue is over. -/
theorem departed_of_branched {w : Option (Nat × Word × Bool)} (hX : s.branched X w rd ft) {t : State}
    (hh : t.hammer = { s.hammer with
      cur := Open.none, open_ := false, pos := s.hammer.pos + 1, pc := s.hammer.pc + (h.len + 1), flight := [], redirs := rd
      faults := ft, recent := t.hammer.recent, descs := t.hammer.descs, s := t.hammer.s })
    (ht : t = { X with csr := t.csr, hammer := t.hammer }) (hc : t.rd HAMMER_ISSUECNT = X.rd HAMMER_ISSUECNT) :
    s.departed t h rd ft := by
  obtain ⟨htk, _, _, _, _, _, _, hmk, hfl, hfa, hre, _⟩ := hs
  have hend : s.hammer.ending = none := by simp [State.taking] at htk; exact htk.2
  refine ⟨⟨by rw [hh], ?_, fun a => ?_, ?_, ?_⟩, by rw [hh], by rw [hh], by rw [hh]; exact hend, by rw [hh], by rw [hh]⟩
  · refine Eq.trans ?_ s.opening_issued
    unfold State.get
    rw [show t.rd HAMMER_ISSUECNT_COUNT.addr = _ from hc, hX.regs _ (by decide)]
  · rw [ht, hX.rest]
    rfl
  · rw [ht, hX.rest]
    rfl
  · have hfa' : t.hammer.faults = ft := by rw [hh]
    have hrd' : t.hammer.redirs = rd := by rw [hh]
    rw [hfa', hrd']
    have he' : t.hammer.ending = s.hammer.ending := by rw [hh]
    have ha' : t.hammer.amask = s.hammer.amask := by rw [hh]
    have hf' : t.hammer.flight = [] := by rw [hh]
    rw [he', ha', hf']
    exact hh

/-- Hammer as the bundle of a branch closes, before the results of the next position. -/
theorem closing_branched {w : Option (Nat × Word × Bool)} (hX : s.branched X w rd ft) :
    ∃ Z : State, X.closing s.hammer.pos s.hammer.pc (h.len + 1) = Z.commitAt (s.hammer.pos + 1) ∧
      Z = { X with hammer := Z.hammer } ∧ Z.hammer = { s.hammer with
        cur := Open.none, open_ := false, pos := s.hammer.pos + 1, pc := s.hammer.pc + (h.len + 1), redirs := rd, faults := ft
        flight := w.toList.map (fun x => ⟨s.hammer.pos + 1, .s x.1 x.2.1 x.2.2⟩)
        recent := Z.hammer.recent, descs := Z.hammer.descs } := by
  obtain ⟨_, _, _, _, _, _, _, hmk, _⟩ := hs
  refine ⟨_, X.closing_later _ _ _ (by rw [hX.hammer]; exact hmk) (by rw [hX.hammer]; exact hX.later), rfl, ?_⟩
  simp only [State.stepped, State.onHammer, hX.hammer]
  rfl

/-- A branch that writes no register. -/
theorem issued_branch (hX : s.branched X none rd ft) :
    let t := (X.closing s.hammer.pos s.hammer.pc (h.len + 1)).issueEnd s.hammer.pos
    s.departed t h rd ft ∧ t.hammer.s = s.hammer.s := by
  obtain ⟨Z, hc, hZ, hZh⟩ := closing_branched hs hX
  obtain ⟨_, _, _, _, _, _, _, hmk, _⟩ := id hs
  rw [hc, State.commitAt_none _ _ (by rw [hZh]; simp), State.issueEnd_later _ _ (by rw [hZh]; exact hX.found) (by rw [hZh]; exact hmk)]
  refine ⟨departed_of_branched hs hX ?_ (by rw [hZ]) (by rw [hZ]; rfl), by rw [hZh]⟩
  have hs' : Z.hammer.s = s.hammer.s := by rw [hZh]
  rw [hs']
  exact hZh

/-- A branch that writes a register at the next position. -/
theorem issued_branch_write {d : Nat} {x : Word} {sat : Bool} (hX : s.branched X (some (d, x, sat)) rd ft) :
    let t := (X.closing s.hammer.pos s.hammer.pc (h.len + 1)).issueEnd s.hammer.pos
    s.departed t h rd ft ∧ (∀ n, t.sreg n = if n = d then x else s.sreg n) ∧
      t.get HAMMER_SFLAGS_INT_SAT = if sat then 1 else s.get HAMMER_SFLAGS_INT_SAT := by
  obtain ⟨Z, hc, hZ, hZh⟩ := closing_branched hs hX
  obtain ⟨_, _, _, _, _, _, _, hmk, _⟩ := id hs
  set W := (Z.onHammer (fun y => { y with flight := [] })).setS d x with hW
  have hcom : Z.commitAt (s.hammer.pos + 1) = if sat then W.put HAMMER_SFLAGS_INT_SAT 1 else W := by
    have hfl : Z.hammer.flight = [⟨s.hammer.pos + 1, .s d x sat⟩] := by rw [hZh]; rfl
    unfold State.commitAt
    rw [hfl]
    simp [hW, State.commit]
  have hWh : W.hammer = { s.hammer with
      cur := Open.none, open_ := false, pos := s.hammer.pos + 1, pc := s.hammer.pc + (h.len + 1), flight := [], redirs := rd
      faults := ft, recent := W.hammer.recent, descs := W.hammer.descs, s := W.hammer.s } := by
    rw [hW]
    simp only [State.setS, State.onHammer]
    rw [hZh]
  have hWs : ∀ n, W.sreg n = if n = d then x else s.sreg n := by
    intro n
    have hZs : Z.hammer.s = s.hammer.s := by rw [hZh]
    show Tab.get (fun _ => 0) (Tab.set (fun _ => 0) Z.hammer.s d x) n = _
    rw [Tab.get_set, hZs]
    rfl
  have hWc : W.csr = X.csr := by rw [hW]; simp only [State.setS, State.onHammer]; rw [hZ]
  have hsat : W.get HAMMER_SFLAGS_INT_SAT = s.get HAMMER_SFLAGS_INT_SAT := by
    have h1 : W.get HAMMER_SFLAGS_INT_SAT = X.get HAMMER_SFLAGS_INT_SAT := by
      unfold State.get State.rd
      rw [hWc]
    have h2 : X.get HAMMER_SFLAGS_INT_SAT = s.opening.get HAMMER_SFLAGS_INT_SAT := by
      unfold State.get
      rw [hX.regs _ (by decide)]
    rw [h1, h2, s.get_opening _ (by decide) (by decide)]
  have hWX : W = { X with csr := W.csr, hammer := W.hammer } := by
    rw [hW]
    simp only [State.setS, State.onHammer]
    rw [hZ]
  have key : ∀ t : State, t.hammer = W.hammer → t = { W with csr := t.csr } → t.rd HAMMER_ISSUECNT = W.rd HAMMER_ISSUECNT →
      t.get HAMMER_SFLAGS_INT_SAT = (if sat then 1 else s.get HAMMER_SFLAGS_INT_SAT) →
      s.departed (t.issueEnd s.hammer.pos) h rd ft ∧ (∀ n, (t.issueEnd s.hammer.pos).sreg n = if n = d then x else s.sreg n) ∧
      (t.issueEnd s.hammer.pos).get HAMMER_SFLAGS_INT_SAT = if sat then 1 else s.get HAMMER_SFLAGS_INT_SAT := by
    intro t h1 h2 h3 h4
    rw [State.issueEnd_later _ _ (by rw [h1, hWh]; exact hX.found) (by rw [h1, hWh]; exact hmk)]
    refine ⟨departed_of_branched hs hX (by rw [h1]; exact hWh) ?_ (h3.trans (by unfold State.rd; rw [hWc])), fun n => ?_, h4⟩
    · rw [h2, hWX]
    · unfold State.sreg
      rw [h1]
      exact hWs n
  rw [hc, hcom]
  cases sat with
  | false => exact key W rfl rfl rfl hsat
  | true =>
    exact key (W.put HAMMER_SFLAGS_INT_SAT 1) rfl rfl (State.rd_put_ne _ HAMMER_SFLAGS_INT_SAT _ (by decide))
      (State.get_put_self _ _ _ (by decide) (by decide))

end

/-! ### The effects -/

theorem State.branched_opening {s : State} {h : Hd} (hs : s.sole h [0]) : s.branched s.opening none [] [] := by
  obtain ⟨_, _, _, _, _, _, _, _, hfl, hfa, hre, _⟩ := hs
  refine ⟨?_, rfl, fun _ _ => rfl, by simp, by simp⟩
  show _ = ({ s.hammer with cur := Open.none, open_ := false, flight := [], redirs := [], faults := [] } : Hammer)
  rw [s.opening_hammer, ← hfl, ← hfa, ← hre]

section
variable {s X : State} {h : Hd} (u : Nat) (stop idle : Bool)

/-- A redirect of the bundle at position `n` + 3 (R204). -/
theorem State.branched_redirect {w : Option (Nat × Word × Bool)} (hs : s.sole h [0]) (hX : s.branched X w [] []) (tgt : Nat) :
    s.branched (State.issueEff s.hammer.pos u stop idle X ⟨0, .redirect tgt⟩) w [(s.hammer.pos + 3, tgt)] [] := by
  obtain ⟨_, _, _, _, _, _, _, hmk, _⟩ := hs
  have hm : X.hammer.marker.isSome = false := by
    rw [hX.hammer]
    show s.hammer.marker.isSome = false
    rw [hmk]
    rfl
  have he : State.issueEff s.hammer.pos u stop idle X ⟨0, .redirect tgt⟩ =
      (X.onHammer (fun x => { x with redirs := x.redirs ++ [(s.hammer.pos + 3, tgt)] })).traced 1 tgt := by
    unfold State.issueEff
    dsimp only
    rw [hm, if_neg (by decide)]
  set V := X.onHammer (fun x => { x with redirs := x.redirs ++ [(s.hammer.pos + 3, tgt)] }) with hV
  obtain ⟨h1, h2⟩ := V.traceOnly_traced 1 tgt
  have h3 := V.traced_hammer 1 tgt
  rw [he]
  generalize V.traced 1 tgt = W at h1 h2 h3
  refine ⟨?_, ?_, fun a ha => (h2 a ha).trans (hX.regs a ha), by simp, by simp⟩
  · rw [h3, hV]
    simp only [State.onHammer]
    rw [hX.hammer]
    rfl
  · rw [h1, hV]
    simp only [State.onHammer]
    rw [hX.rest]

/-- A result of the next position. -/
theorem State.branched_fly {rd : List (Nat × Nat)} {ft : List FaultAt} (hX : s.branched X none rd ft) (d : Nat) (x : Word) (sat : Bool) :
    s.branched (X.fly (s.hammer.pos + 1) (.s d x sat)) (some (d, x, sat)) rd ft := by
  refine ⟨?_, ?_, hX.regs, hX.later, hX.found⟩
  · simp only [State.fly, State.onHammer]
    rw [hX.hammer]
    rfl
  · simp only [State.fly, State.onHammer]
    rw [hX.rest]

/-- A fault found two bundles on (R211). -/
theorem State.branched_fault (hX : s.branched X none [] []) (cause : Nat) (hc : cause ≠ cCANCELLED) :
    s.branched (X.addFault s.hammer.pos cause 2 0 255 0) none []
      [⟨s.hammer.pos, s.hammer.pos + 2, 0, ⟨cause, s.hammer.pc, 255, 0, 0, 0, 255⟩⟩] := by
  have hpc : X.hammer.pc = s.hammer.pc := by rw [hX.hammer]; rfl
  refine ⟨?_, ?_, hX.regs, by simp, by simp⟩
  · simp only [State.addFault, State.onHammer, if_neg hc, hpc]
    rw [hX.hammer]
    rfl
  · simp only [State.addFault, State.onHammer]
    rw [hX.rest]

/-- The link behind the second delay bundle is the same once the branch's own redirect waits. -/
theorem State.linkValue_branched {w : Option (Nat × Word × Bool)} (hs : s.sole h [0]) {rd : List (Nat × Nat)} (hX : s.branched X w rd [])
    (hrd : ∀ r ∈ rd, r.1 = s.hammer.pos + 3) : X.linkValue s.hammer.pos u = s.linkValue s.hammer.pos u := by
  obtain ⟨_, _, _, _, _, _, _, hmk, _, _, hre, _⟩ := hs
  have hfind : ∀ p, p < s.hammer.pos + 3 → X.hammer.redirAt p = s.hammer.redirAt p := by
    intro p hp
    unfold Hammer.redirAt
    rw [hX.hammer]
    dsimp only
    rw [show s.opening.hammer.marker = none from hmk, hmk, hre,
      List.find?_eq_none.mpr (fun r hr => by have := hrd r hr; simp; omega)]
    rfl
  have hhead : ∀ i a, X.headAt i a = s.headAt i a := fun i a => by
    unfold State.headAt
    rw [State.readN_of_mem (u := s) (by rw [hX.rest]; rfl), show X.ueIn = s.ueIn by unfold State.ueIn State.errUnits; rw [hX.rest]; rfl]
  have hri : X.runImage = s.runImage := by
    have hrun : X.hammer.run = s.hammer.run := by rw [hX.hammer]; rfl
    unfold State.runImage
    rw [hrun]
    unfold State.job State.image
    rw [hX.rest]
    rfl
  unfold State.linkValue State.afterBundle
  rw [hri, hfind _ (by omega), hfind _ (by omega), show X.hammer.pc = s.hammer.pc by rw [hX.hammer]; rfl,
    show X.hammer.marker = s.hammer.marker by rw [hX.hammer]; rfl]
  simp only [hhead]

end

/-! ### The words -/

theorem noDup_cbDests (op : Nat) (f : CBf) : noDup (cbDests op f) = true := by
  unfold cbDests
  split <;> rfl

/-- An effect of a branch. -/
def Flight.branches (f : Flight) : Bool :=
  match f.eff with
  | .s _ _ _ => true
  | .redirect _ => true
  | .link _ => true
  | .fault _ _ _ _ _ => true
  | _ => false

/-- A branch alone in its bundle issues with its effects. -/
theorem branchOp_issue (s : State) (h : Hd) (op : Nat) (f : CBf) (eff : State → List Flight) (hs : s.sole h [0])
    (hl : cbLegal op f = true) (he : ∀ x ∈ eff s, x.branches = true) :
    s.slotOp h (branchOp op f eff) = .next (((((eff s).foldl (State.issueEff s.hammer.pos (h.len + 1) false
      (s.hammer.tok.all (fun t => t.2.count == 0))) s.opening).linked (eff s) s.hammer.pos (h.len + 1)).closing s.hammer.pos
        s.hammer.pc (h.len + 1)).issueEnd s.hammer.pos) := by
  have htok : ∀ t, tokIncr (eff s) t = 0 := fun t => by
    unfold tokIncr
    rw [List.length_eq_zero_iff, List.filter_eq_nil_iff]
    intro x hx
    have := he x hx
    unfold Flight.branches at this
    split at this <;> simp_all
  have hadm : s.admissible (eff s) = true := by
    unfold State.admissible
    rw [List.all_eq_true]
    intro x hx
    have := he x hx
    unfold Flight.branches at this
    split at this <;> simp_all
  exact slotOp_issue s h (branchOp op f eff) hs hl (noDup_cbDests op f) (by simp [branchOp]) (waitFail_zero s) rfl
    (by simp [branchOp, htok]) hadm

section
variable {s : State} {h : Hd} {f : CBf} {op : Nat} (hs : s.sole h [0]) (hl : cbLegal op f = true)
include hs hl

theorem branch_falls (eff : State → List Flight) (he : eff s = []) :
    ∃ t, s.slotOp h (branchOp op f eff) = .next t ∧ s.departed t h [] [] ∧ t.hammer.s = s.hammer.s := by
  have hso := branchOp_issue s h op f eff hs hl (by rw [he]; simp)
  rw [he] at hso
  exact ⟨_, hso, issued_branch hs (State.branched_opening hs)⟩

theorem branch_jumps (eff : State → List Flight) (tgt : Nat) (he : eff s = [⟨0, .redirect tgt⟩]) :
    ∃ t, s.slotOp h (branchOp op f eff) = .next t ∧ s.departed t h [(s.hammer.pos + 3, tgt)] [] ∧ t.hammer.s = s.hammer.s := by
  have hso := branchOp_issue s h op f eff hs hl (by rw [he]; simp [Flight.branches])
  rw [he] at hso
  exact ⟨_, hso, issued_branch hs (State.branched_redirect (h.len + 1) false (s.hammer.tok.all (fun t => t.2.count == 0)) hs
    (State.branched_opening hs) tgt)⟩

theorem branch_faults (eff : State → List Flight) (cause : Nat) (hc : cause ≠ cCANCELLED) (he : eff s = [⟨0, .fault cause 2 0 255 0⟩]) :
    ∃ t, s.slotOp h (branchOp op f eff) = .next t ∧ s.departed t h []
      [⟨s.hammer.pos, s.hammer.pos + 2, 0, ⟨cause, s.hammer.pc, 255, 0, 0, 0, 255⟩⟩] ∧ t.hammer.s = s.hammer.s := by
  have hso := branchOp_issue s h op f eff hs hl (by rw [he]; simp [Flight.branches])
  rw [he] at hso
  exact ⟨_, hso, issued_branch hs (State.branched_fault (State.branched_opening hs) cause hc)⟩

/-- A branch that writes a register, and may redirect. -/
theorem branch_writes (eff : State → List Flight) (d : Nat) (x : Word) (sat : Bool) (jump : Option Nat)
    (he : eff s = ⟨1, .s d x sat⟩ :: jump.toList.map (fun tgt => ⟨0, .redirect tgt⟩)) :
    ∃ t, s.slotOp h (branchOp op f eff) = .next t ∧ s.departed t h (jump.toList.map (fun tgt => (s.hammer.pos + 3, tgt))) [] ∧
      (∀ n, t.sreg n = if n = d then x else s.sreg n) ∧
      t.get HAMMER_SFLAGS_INT_SAT = if sat then 1 else s.get HAMMER_SFLAGS_INT_SAT := by
  have hso := branchOp_issue s h op f eff hs hl (by rw [he]; cases jump <;> simp [Flight.branches])
  rw [he] at hso
  have hw := State.branched_fly (State.branched_opening hs) d x sat
  cases jump with
  | none => exact ⟨_, hso, issued_branch_write hs hw⟩
  | some tgt => exact ⟨_, hso, issued_branch_write hs (State.branched_redirect (h.len + 1) false (s.hammer.tok.all (fun t => t.2.count == 0)) hs hw tgt)⟩

/-- A branch that redirects and links. -/
theorem branch_links (eff : State → List Flight) (tgt d : Nat) (he : eff s = [⟨0, .redirect tgt⟩, ⟨1, .link d⟩]) :
    ∃ t, s.slotOp h (branchOp op f eff) = .next t ∧ s.departed t h [(s.hammer.pos + 3, tgt)] [] ∧
      ∀ n, t.sreg n = if n = d then BitVec.ofNat 64 (s.linkValue s.hammer.pos (h.len + 1)) else s.sreg n := by
  have hso := branchOp_issue s h op f eff hs hl (by rw [he]; simp [Flight.branches])
  rw [he] at hso
  have hX := State.branched_redirect (h.len + 1) false (s.hammer.tok.all (fun t => t.2.count == 0)) hs (State.branched_opening hs) tgt
  obtain ⟨h1, h2, -⟩ := issued_branch_write hs (State.branched_fly hX d
    (BitVec.ofNat 64 (s.linkValue s.hammer.pos (h.len + 1))) false)
  rw [← State.linkValue_branched (h.len + 1) hs hX (by simp)] at h1 h2 ⊢
  exact ⟨_, hso, h1, h2⟩

end

/-- The decrement of `dbnz` (R154): it saturates at 0. -/
theorem intOp_decrement (a : Word) : intOp 64 false .sub a.toNat 1 = (a.toNat - 1, decide (a = 0)) := by
  have ha : a.toNat < 2 ^ 64 := a.isLt
  have h0 : a = 0 ↔ a.toNat = 0 := by
    rw [← BitVec.toNat_inj]
    rfl
  rw [intOp_unsigned, Nat.mod_eq_of_lt ha]
  rw [show IOp.sub.eval (a.toNat : Int) ((1 % 2 ^ 64 : Nat) : Int) = (a.toNat : Int) - 1 from rfl]
  unfold clampU outU wrap
  rw [Prod.mk.injEq]
  refine ⟨?_, ?_⟩
  · omega
  · rw [decide_eq_decide, h0]
    omega

/-- Settles O13: `br` and `br.ind` redirect, fall through or fault, `dbnz` writes its count (`intOp_decrement`), `brl` its link
(`branch_links`). -/
theorem branchWords : Obligations.BranchWords := by
  intro s h f hs a b jumps frame
  have framed : ∀ {t rd ft}, s.departed t h rd ft → frame t := fun d => ⟨d.moved, d.amask, d.flight, d.ending⟩
  refine ⟨fun hl => ?_, fun hl => ?_, fun hl => ?_, fun hl => ?_⟩
  · show ∃ t, exec (.br h f) s = .next t ∧ frame t ∧ t.hammer.s = s.hammer.s ∧ t.hammer.faults = [] ∧
      if branchTaken f.cc a b = true then jumps t f.tgt else t.hammer.redirs = []
    by_cases hc : branchTaken f.cc a b = true
    · obtain ⟨t, ht, hd, hS⟩ := branch_jumps hs hl
        (fun s => if branchTaken f.cc (s.sreg f.sa) (s.sreg f.sb) then [⟨0, .redirect f.tgt⟩] else []) f.tgt (if_pos hc)
      refine ⟨t, ht, framed hd, hS, hd.faults, ?_⟩
      rw [if_pos hc]
      exact hd.redirs
    · obtain ⟨t, ht, hd, hS⟩ := branch_falls hs hl
        (fun s => if branchTaken f.cc (s.sreg f.sa) (s.sreg f.sb) then [⟨0, .redirect f.tgt⟩] else []) (if_neg hc)
      refine ⟨t, ht, framed hd, hS, hd.faults, ?_⟩
      rw [if_neg hc]
      exact hd.redirs
  · obtain ⟨t, ht, hd, hS, hI⟩ := branch_writes hs hl (op := 2) (fun s =>
      ⟨1, .s f.sa (BitVec.ofNat 64 (intOp 64 false .sub (s.sreg f.sa).toNat 1).1) (intOp 64 false .sub (s.sreg f.sa).toNat 1).2⟩ ::
        (if (intOp 64 false .sub (s.sreg f.sa).toNat 1).1 = 0 then [] else [⟨0, .redirect f.tgt⟩]))
      f.sa (BitVec.ofNat 64 (a.toNat - 1)) (decide (a = 0)) (if a.toNat ≤ 1 then none else some f.tgt) (by
        rw [intOp_decrement]
        by_cases h1 : a.toNat ≤ 1
        · rw [if_pos h1, if_pos (by show a.toNat - 1 = 0; omega)]
          rfl
        · rw [if_neg h1, if_neg (by show ¬ a.toNat - 1 = 0; omega)]
          rfl)
    refine ⟨t, ht, framed hd, hd.faults, (hS f.sa).trans (if_pos rfl), fun n hn => (hS n).trans (if_neg hn), fun h0 => ?_,
      fun h0 => ?_, ?_⟩
    · rw [hI, decide_eq_true h0, if_pos rfl]
    · rw [hI, decide_eq_false h0, if_neg (by decide)]
    · have hr := hd.redirs
      by_cases h1 : a.toNat ≤ 1
      · rw [if_pos h1] at hr ⊢
        exact hr
      · rw [if_neg h1] at hr ⊢
        exact hr
  · obtain ⟨t, ht, hd, hS⟩ := branch_links hs hl (fun _ => [⟨0, .redirect f.tgt⟩, ⟨1, .link f.sb⟩]) f.tgt f.sb rfl
    exact ⟨t, ht, framed hd, hd.faults, hd.redirs, (hS f.sb).trans (if_pos rfl), fun n hn => (hS n).trans (if_neg hn)⟩
  · by_cases hc : a.toNat < 2 ^ 19
    · obtain ⟨t, ht, hd, hS⟩ := branch_jumps hs hl (fun s =>
        if (s.sreg f.sa).toNat < 2 ^ 19 then [⟨0, .redirect (s.sreg f.sa).toNat⟩] else [⟨0, .fault 0x03 2 0 255 0⟩]) a.toNat (if_pos hc)
      refine ⟨t, ht, framed hd, hS, ?_⟩
      rw [if_pos hc]
      exact ⟨hd.redirs, hd.faults⟩
    · obtain ⟨t, ht, hd, hS⟩ := branch_faults hs hl (fun s =>
        if (s.sreg f.sa).toNat < 2 ^ 19 then [⟨0, .redirect (s.sreg f.sa).toNat⟩] else [⟨0, .fault 0x03 2 0 255 0⟩]) 0x03 (by decide) (if_neg hc)
      refine ⟨t, ht, framed hd, hS, ?_⟩
      rw [if_neg hc]
      exact ⟨hd.redirs, hd.faults⟩

end Sys2Proof.Machine
end

