-- ==== Sys2Proof/Proofs/EmptyIssue.lean ====
section
/-! SUPPORT. The tests at stage I (R100, R150, R192), and the issue of a bundle without effects: a wait, STOP or a held bundle
(R116, R155, R190). -/

namespace Sys2Proof.Machine

/-! ### The tests -/

theorem maskTokens_eq (m : Nat) : maskTokens m = (List.range 16).filter (fun k => m.testBit k) := by
  unfold maskTokens
  refine List.filter_congr (fun k _ => ?_)
  rw [Nat.testBit_eq_decide_div_mod_eq]
  rfl

section
variable {u : State} (hv : u.verdict = .ok)
include hv

/-- A token of the wait still counts: the bundle is held (R192). -/
theorem State.tryIssue_waits (h : ∃ k ∈ maskTokens u.hammer.cur.wait, (u.tok k).count ≠ 0) :
    u.tryIssue = u.hold (.wait u.hammer.cur.wait) := by
  obtain ⟨k, hk, hc⟩ := h
  unfold State.tryIssue
  rw [hv]
  exact if_pos (List.any_eq_true.mpr ⟨k, hk, decide_eq_true (Nat.pos_of_ne_zero hc)⟩)

variable (h : ∀ k ∈ maskTokens u.hammer.cur.wait, (u.tok k).count = 0)
include h

theorem State.tryIssue_counted : u.tryIssue = match u.waitFail u.hammer.cur.wait with
    | some f => u.release.stopJob (some f)
    | none =>
      if (List.range 16).any (fun t => tokIncr u.hammer.cur.effs t > 0 && (u.tok t).count + tokIncr u.hammer.cur.effs t > 255) then
        u.hold .token
      else if u.admissible u.hammer.cur.effs = false then (u.wantGroup u.hammer.cur.effs).hold .admission
      else u.release.issue := by
  have hno : (maskTokens u.hammer.cur.wait).any (fun t => (u.tok t).count > 0) = false :=
    List.any_eq_false.mpr (fun k hk => by simp [h k hk])
  unfold State.tryIssue
  rw [hv]
  exact if_neg (by rw [hno]; decide)

/-- A failed token of the wait ends the job (R100). -/
theorem State.tryIssue_fails {x : Fail} (hx : u.waitFail u.hammer.cur.wait = some x) : u.tryIssue = u.release.stopJob (some x) := by
  rw [State.tryIssue_counted hv h, hx]

/-- A bundle without effects that waits for nothing issues. -/
theorem State.tryIssue_issues (hx : u.waitFail u.hammer.cur.wait = none) (he : u.hammer.cur.effs = []) :
    u.tryIssue = u.release.issue := by
  have hno : (List.range 16).any (fun t => tokIncr [] t > 0 && (u.tok t).count + tokIncr [] t > 255) = false :=
    List.any_eq_false.mpr (fun t _ => by simp [tokIncr])
  rw [State.tryIssue_counted hv h, hx]
  dsimp only
  rw [he, hno, if_neg (by decide), if_neg (by simp [State.admissible])]

end

/-! ### The failure a wait meets -/

/-- The earlier of the failures seen so far and that of a token. -/
def State.earlier (s : State) (acc : Option (Nat × Fail)) (t : Nat) : Option (Nat × Fail) :=
  match (s.tok t).fail, acc with
  | none, _ => acc
  | some f, none => some ((s.tok t).failAt, f)
  | some f, some a => if (s.tok t).failAt < a.1 then some ((s.tok t).failAt, f) else some a

theorem State.waitFail_eq (s : State) (m : Nat) : s.waitFail m = ((maskTokens m).foldl s.earlier none).map (·.2) := rfl

theorem State.earlier_unfailed {s : State} {t : Nat} (h : (s.tok t).fail = none) (acc : Option (Nat × Fail)) : s.earlier acc t = acc := by
  unfold State.earlier
  rw [h]

theorem State.earlier_kept {s : State} {t : Nat} {a : Nat × Fail} (h : a.1 ≤ (s.tok t).failAt) : s.earlier (some a) t = some a := by
  unfold State.earlier
  split
  · rfl
  · simp_all
  · next f b e1 e2 =>
    cases e2
    rw [if_neg (by omega)]

theorem State.foldl_earlier_kept {s : State} {a : Nat × Fail} (l : List Nat) (h : ∀ t ∈ l, (s.tok t).fail = none ∨ a.1 ≤ (s.tok t).failAt) :
    l.foldl s.earlier (some a) = some a := by
  induction l with
  | nil => rfl
  | cons t r ih =>
    have ht : s.earlier (some a) t = some a := (h t (by simp)).elim (fun h => State.earlier_unfailed h _) State.earlier_kept
    rw [List.foldl_cons, ht]
    exact ih (fun x hx => h x (by simp [hx]))

theorem State.waitFail_none {s : State} {m : Nat} (h : ∀ k ∈ maskTokens m, (s.tok k).fail = none) : s.waitFail m = none := by
  rw [State.waitFail_eq, foldl_keep _ _ _ (fun t ht b => State.earlier_unfailed (h t ht) b)]
  rfl

/-- A wait meets the failure of the first failing operation (R100). -/
theorem State.foldl_earlier_first {s : State} {k : Nat} {x : Fail} (hk : (s.tok k).fail = some x) (l : List Nat) (hl : k ∈ l)
    (h : ∀ j ∈ l, j ≠ k → (s.tok j).fail = none ∨ (s.tok k).failAt < (s.tok j).failAt) (acc : Option (Nat × Fail))
    (ha : ∀ a ∈ acc, (s.tok k).failAt < a.1) : l.foldl s.earlier acc = some ((s.tok k).failAt, x) := by
  induction l generalizing acc with
  | nil => cases hl
  | cons t r ih =>
    rw [List.foldl_cons]
    by_cases ht : t = k
    · subst ht
      have hfirst : s.earlier acc t = some ((s.tok t).failAt, x) := by
        unfold State.earlier
        rw [hk]
        cases acc with
        | none => rfl
        | some a => exact if_pos (ha a rfl)
      rw [hfirst]
      refine State.foldl_earlier_kept r (fun j hj => ?_)
      by_cases hjt : j = t
      · exact .inr (by rw [hjt])
      · exact (h j (by simp [hj]) hjt).imp_right Nat.le_of_lt
    · refine ih ((List.mem_cons.mp hl).resolve_left (Ne.symm ht)) (fun j hj => h j (by simp [hj])) _ (fun a ha' => ?_)
      obtain hn | hlt := h t (by simp) ht
      · rw [State.earlier_unfailed hn] at ha'
        exact ha a ha'
      · unfold State.earlier at ha'
        split at ha'
        · exact ha a ha'
        · cases ha'
          exact hlt
        · next f b e1 e2 =>
          split at ha'
          · cases ha'
            exact hlt
          · cases ha'
            exact ha a rfl

theorem State.waitFail_first {s : State} {m k : Nat} {x : Fail} (hk : k ∈ maskTokens m) (hx : (s.tok k).fail = some x)
    (h : ∀ j ∈ maskTokens m, j ≠ k → (s.tok j).fail = none ∨ (s.tok k).failAt < (s.tok j).failAt) : s.waitFail m = some x := by
  rw [State.waitFail_eq, State.foldl_earlier_first hx _ hk h none (by simp)]
  rfl

/-! ### The end of a stall, and of issue -/

/-- A stall that is over changes its count and the trace. -/
theorem State.release_eq (u : State) : ∃ c x, u.release = { u with csr := c, trace := x, hammer := { u.hammer with stall := none } } := by
  unfold State.release
  split
  next h => exact ⟨u.csr, u.trace, by rw [← h]⟩
  next w h =>
    extract_lets n s1 m
    have hs : ∀ v : State, v = { s1 with csr := v.csr } → ∀ ty d, ∃ c x, v.traced ty d = { u with
        csr := c, trace := x, hammer := { u.hammer with stall := none } } := by
      intro v hv ty d
      refine ⟨(v.traced ty d).csr, (v.traced ty d).trace, (v.traceOnly_traced ty d).rest.trans ?_⟩
      rw [hv]
      rfl
    cases w with
    | wait _ => exact hs (s1.add HAMMER_STALLW_COUNT n) rfl _ _
    | token => exact hs (s1.add HAMMER_STALLW_COUNT n) rfl _ _
    | admission => exact hs (s1.add HAMMER_STALLA_ADMIT n) rfl _ _
    | drain => exact hs (s1.add HAMMER_STALLA_DRAIN n) rfl _ _

theorem State.release_free {u : State} (h : u.hammer.stall = none) : u.release = u := by
  unfold State.release
  rw [h]

/-- Issue ends with nothing in flight and no fault pending (R116, R135, R151). -/
theorem State.stopJob_clean (u : State) (f : Option Fail) (hf : u.hammer.flight = []) (hF : u.hammer.faults = []) :
    u.stopJob f = (u.onHammer (fun h => { h with
      cur := Open.none, open_ := false, stall := none, marker := none, redirs := [], faults := [], ending := some f })).put
        HAMMER_PCSTAT_RUN 0 := by
  unfold State.stopJob
  rw [u.drain_idle hf]
  dsimp only
  rw [hF]
  rfl

/-! ### Issue -/

/-- The close of an issue with nothing in flight. -/
theorem State.closing_idle (X : State) (n pc u : Nat) (hf : X.hammer.flight = []) : ∃ p r c d,
    X.closing n pc u = X.onHammer (fun h => { h with pos := n + 1, pc := p, redirs := r, recent := c, descs := d }) := by
  unfold State.closing
  exact ⟨_, _, _, _, State.commitAt_none _ _ (by simp [State.onHammer, hf])⟩

/-- A bundle without effects issues: one position on, and issue ends where it bears STOP. -/
theorem State.issue_empty (u : State) (he : u.hammer.cur.effs = []) (hst : u.hammer.start = none) (hf : u.hammer.flight = [])
    (hF : u.hammer.faults = []) (hm : u.hammer.marker = none) : ∃ c p r rc d,
    let Z : State := { u with csr := c, hammer := { u.hammer with
      cur := Open.none, open_ := false, pos := u.hammer.pos + 1, pc := p, redirs := r, recent := rc, descs := d } }
    u.issue = if u.hammer.cur.stop then Z.stopJob none else Z := by
  have hh : u.heatStarts = u := by
    unfold State.heatStarts
    rw [hst]
  obtain ⟨p, r, rc, d, hc⟩ := u.opening.closing_idle u.hammer.pos u.hammer.pc (u.hammer.cur.len % 4 + 1) hf
  refine ⟨u.opening.csr, p, r, rc, d, ?_⟩
  intro Z
  have hZ : u.opening.closing u.hammer.pos u.hammer.pc (u.hammer.cur.len % 4 + 1) = Z := hc.trans rfl
  have hi : u.issue = (((u.hammer.cur.effs.foldl (State.issueEff u.hammer.pos (u.hammer.cur.len % 4 + 1) u.hammer.cur.stop
      (u.opening.hammer.tok.all (fun t => t.2.count == 0))) u.opening).linked u.hammer.cur.effs u.hammer.pos
        (u.hammer.cur.len % 4 + 1)).closing u.hammer.pos u.hammer.pc (u.hammer.cur.len % 4 + 1)
      |> fun s => if s.hammer.faults.any (fun f => f.detect ≤ u.hammer.pos) || u.hammer.cur.stop then s.stopJob none
        else match s.hammer.marker with
          | some m => if u.hammer.pos = m.pos + 2 then s.boundary m else s
          | none => s) := by
    unfold State.issue
    rw [hh]
    rfl
  rw [he, List.foldl_nil, show ∀ n w, u.opening.linked [] n w = u.opening from fun _ _ => rfl, hZ] at hi
  rw [hi]
  beta_reduce
  rw [show Z.hammer.faults = [] from hF, show Z.hammer.marker = none from hm]
  rfl

end Sys2Proof.Machine
end

