-- ==== Sys2Proof/Proofs/WaitWords.lean ====
section
/-! WaitWords (O14). Waits, their stall and its end (R100, R155, R192, R193, R207). -/

namespace Sys2Proof.Machine

/-- Hammer with an open bundle of one wait. -/
def State.waiting (s : State) (h : Hd) (m : Nat) : State :=
  s.onHammer (fun x => { x with cur := { Open.none with words := 1, last := some h.slot, wait := m, len := h.len } })

/-- The bundle of a legal wait is well formed (R133, R134). -/
theorem verdict_waiting {s : State} {h : Hd} (hs : s.sole h [0]) (m : Nat) : (s.waiting h m).verdict = .ok := by
  obtain ⟨_, _, _, _, _, hlen, hroom, _⟩ := hs
  obtain ⟨i, hi, hfit⟩ : ∃ i, s.runImage = some i ∧ 16 * s.hammer.pc + lenBytes h.len ≤ i.codeOff + i.codeBytes := by
    cases hq : s.runImage with
    | none => simp [hq] at hroom
    | some i => exact ⟨i, rfl, by simpa [hq] using hroom⟩
  have hcap : ¬ 1 > lenCap h.len := by
    unfold lenCap
    split <;> omega
  have hpast : ¬ 16 * s.hammer.pc + lenBytes h.len > i.codeOff + i.codeBytes := by omega
  unfold State.verdict
  rw [show (s.waiting h m).runImage = some i from hi]
  simp [State.waiting, State.onHammer, Open.none, hcap, hpast, noDup]

section
variable {s : State} {h : Hd} {f : CSf} {op m : Nat} (hs : s.sole h [0]) (hl : csLegal op f = true) (hop : op < 0x42)
include hs hl hop

theorem wait_tryIssue : s.slotOp h { csOp op f (fun _ => []) with wait := m } = .next (s.waiting h m).tryIssue := by
  obtain ⟨htk, ho, hc, hfin, hsl, -⟩ := hs
  have hd : csDests op f = [] := by
    unfold csDests
    rw [if_neg (by omega), if_neg (by omega), if_neg (by omega)]
  have hj : s.join h { csOp op f (fun _ => []) with wait := m } = s.waiting h m := by
    unfold State.join
    rw [hc]
    simp [csOp, SlotOp.plain, Open.none, hl, hd, State.waiting, List.mem_singleton.mp hsl]
  unfold State.slotOp
  simp only [htk, ho, hfin, Bool.true_eq_false, if_false, if_true, hj]

/-- A wait that waits for nothing issues like a nop. -/
theorem wait_issues (h0 : ∀ k ∈ maskTokens m, (s.tok k).count = 0 ∧ (s.tok k).fail = none) :
    ∃ t, s.slotOp h { csOp op f (fun _ => []) with wait := m } = .next t ∧ s.movedOn t h ∧ t.hammer.s = s.hammer.s ∧
      t.hammer.amask = s.hammer.amask ∧ t.hammer.flight = [] ∧ t.hammer.redirs = [] ∧ t.hammer.faults = [] ∧ t.hammer.ending = none := by
  have hd : noDup (csDests op f) = true := by
    unfold csDests
    rw [if_neg (by omega), if_neg (by omega), if_neg (by omega)]
    rfl
  have hso := slotOp_sole s h { csOp op f (fun _ => []) with wait := m } hs hl hd
    (List.all_eq_true.mpr (fun k hk => by simp [(h0 k hk).1])) (State.waitFail_none (fun k hk => (h0 k hk).2)) rfl (fun _ hx => by cases hx)
  obtain ⟨htk, _, _, _, _, _, _, _, _, hfa, _⟩ := id hs
  have hend : s.hammer.ending = none := by simp [State.taking] at htk; exact htk.2
  rw [State.commitAt_none _ _ (fun x hx => by cases hx)] at hso
  exact ⟨_, hso, issuedWith_movedOn s h [] (fun x hx => by cases hx), rfl, rfl, rfl, rfl, hfa, hend⟩

/-- A wait whose token counts holds issue, and nothing else happens. -/
theorem wait_holds (h0 : ∃ k ∈ maskTokens m, (s.tok k).count ≠ 0) :
    ∃ t, s.slotOp h { csOp op f (fun _ => []) with wait := m } = .next t ∧ t.hammer.stall = some (.wait m) ∧
      t.hammer.pos = s.hammer.pos ∧ t = { s with hammer := t.hammer } ∧
      t.hammer = { s.hammer with cur := t.hammer.cur, stall := t.hammer.stall, stallAt := t.hammer.stallAt } := by
  refine ⟨_, wait_tryIssue hs hl hop, ?_⟩
  have hst : s.hammer.stall = none := by
    have := hs.1
    simp [State.taking] at this
    exact this.1.2
  have hst' : (s.waiting h m).hammer.stall = none := hst
  rw [State.tryIssue_waits (verdict_waiting hs m) h0]
  unfold State.hold
  rw [hst', State.release_free hst']
  exact ⟨rfl, rfl, rfl, rfl⟩

/-- A wait for a failed token ends the job with its failure. -/
theorem wait_fails {k : Nat} {x : Fail} (hk : k ∈ maskTokens m) (hx : (s.tok k).fail = some x)
    (h0 : ∀ j ∈ maskTokens m, (s.tok j).count = 0)
    (h1 : ∀ j ∈ maskTokens m, j ≠ k → (s.tok j).fail = none ∨ (s.tok k).failAt < (s.tok j).failAt) :
    ∃ t, s.slotOp h { csOp op f (fun _ => []) with wait := m } = .next t ∧ t.hammer.ending = some (some x) ∧ t.hammer.open_ = false := by
  refine ⟨_, wait_tryIssue hs hl hop, ?_⟩
  obtain ⟨htk, _, _, _, _, _, _, _, hfl, hfa, _⟩ := id hs
  have hst' : (s.waiting h m).hammer.stall = none := by
    simp [State.taking] at htk
    exact htk.1.2
  rw [State.tryIssue_fails (verdict_waiting hs m) h0 (State.waitFail_first (s := s.waiting h m) hk hx h1), State.release_free hst',
    State.stopJob_clean (s.waiting h m) _ hfl hfa]
  exact ⟨rfl, rfl⟩

end

/-- A legal wait, in the three cases of the tokens that it names. -/
theorem wait_cases {op m : Nat} (hop : op < 0x42) {s : State} {h : Hd} {f : CSf} (hl : csLegal op f = true) (hs : s.sole h [0]) :
    let tokens := (List.range 16).filter (fun k => m.testBit k)
    let i := s.slotOp h { csOp op f (fun _ => []) with wait := m }
    ((∀ k ∈ tokens, (s.tok k).count = 0 ∧ (s.tok k).fail = none) → ∃ t, i = .next t ∧ s.movedOn t h ∧ t.hammer.s = s.hammer.s ∧
      t.hammer.amask = s.hammer.amask ∧ t.hammer.flight = [] ∧ t.hammer.redirs = [] ∧ t.hammer.faults = [] ∧ t.hammer.ending = none) ∧
    ((∃ k ∈ tokens, (s.tok k).count ≠ 0) → ∃ t, i = .next t ∧ t.hammer.stall = some (.wait m) ∧
      t.hammer.pos = s.hammer.pos ∧ t = { s with hammer := t.hammer } ∧
      t.hammer = { s.hammer with cur := t.hammer.cur, stall := t.hammer.stall, stallAt := t.hammer.stallAt }) ∧
    (∀ k ∈ tokens, ∀ x, (s.tok k).fail = some x → (∀ j ∈ tokens, (s.tok j).count = 0) →
      (∀ j ∈ tokens, j ≠ k → (s.tok j).fail = none ∨ (s.tok k).failAt < (s.tok j).failAt) →
      ∃ t, i = .next t ∧ t.hammer.ending = some (some x) ∧ t.hammer.open_ = false) := by
  rw [← maskTokens_eq m]
  exact ⟨wait_issues hs hl hop, wait_holds hs hl hop, fun k hk x hx h0 h1 => wait_fails hs hl hop hk hx h0 h1⟩

/-- `nop` alone in its bundle. -/
theorem nop_issues {s : State} {h : Hd} (hs : s.sole h (List.range 10)) : ∃ t, exec (.nop h none) s = .next t ∧ s.movedOn t h ∧
    t.hammer.s = s.hammer.s ∧ t.hammer.amask = s.hammer.amask ∧ t.hammer.flight = [] ∧ t.hammer.redirs = [] ∧ t.hammer.faults = [] ∧
    t.hammer.ending = none := by
  have hso := slotOp_sole s h ⟨List.range 10, true, false, false, [], 0, none, fun _ => []⟩ hs rfl rfl (by simp) (waitFail_zero s) rfl
    (fun _ hx => by cases hx)
  obtain ⟨htk, _, _, _, _, _, _, _, _, hfa, _⟩ := id hs
  have hend : s.hammer.ending = none := by simp [State.taking] at htk; exact htk.2
  rw [State.commitAt_none _ _ (fun x hx => by cases hx)] at hso
  exact ⟨_, hso, issuedWith_movedOn s h [] (fun x hx => by cases hx), rfl, rfl, rfl, rfl, hfa, hend⟩

/-- A held bundle without effects, whose tokens count 0 and have not failed, issues as it is tried again. -/
theorem State.tryIssue_resumes (u : State) (hv : u.verdict = .ok) (he : u.hammer.cur.effs = []) (hstop : u.hammer.cur.stop = false)
    (h0 : ∀ k ∈ maskTokens u.hammer.cur.wait, (u.tok k).count = 0 ∧ (u.tok k).fail = none) (hf : u.hammer.flight = [])
    (hF : u.hammer.faults = []) (hm : u.hammer.marker = none) (hst : u.hammer.start = none) :
    u.tryIssue.hammer.stall = none ∧ u.tryIssue.hammer.pos = u.hammer.pos + 1 ∧ u.tryIssue.mem = u.mem ∧
      u.tryIssue.anvils = u.anvils ∧ u.tryIssue.hammer.s = u.hammer.s ∧ u.tryIssue.hammer.tok = u.hammer.tok := by
  obtain ⟨c, x, hr⟩ := u.release_eq
  rw [State.tryIssue_issues hv (fun k hk => (h0 k hk).1) (State.waitFail_none (fun k hk => (h0 k hk).2)) he, hr]
  set v : State := { u with csr := c, trace := x, hammer := { u.hammer with stall := none } }
  obtain ⟨_, _, _, _, _, hi⟩ := v.issue_empty he hst hf hF hm
  rw [hi, if_neg (by rw [show v.hammer.cur.stop = false from hstop]; decide)]
  exact ⟨rfl, rfl, rfl, rfl, rfl, rfl⟩

theorem State.verdict_at (s : State) (t : Nat) : (s.at t).verdict = s.verdict := by
  obtain ⟨_, _, h⟩ := s.at_eq t
  rw [h]
  rfl

/-- Settles O14: a wait in its three cases (`wait_cases`), `nop`, and a held bundle tried again (`tryIssue_resumes`), for admission in
the first open frame. -/
theorem waitWords : Obligations.WaitWords := by
  unfold Obligations.WaitWords
  intro quiet wait
  refine ⟨fun s h f hl hs => wait_cases (by decide) hl hs, fun s h f hl hs => wait_cases (by decide) hl hs, fun s h hs => nop_issues hs,
    fun s w hw hv he hstop h0 hf hF hm hst => ?_⟩
  rw [← maskTokens_eq] at h0
  refine ⟨fun m hwm => ?_, fun hwa => ?_⟩
  · have hx : exec .stallEnd s = .next s.tryIssue := by
      show execStallEnd s = _
      unfold execStallEnd
      rw [hw, hwm]
    exact ⟨_, hx, s.tryIssue_resumes hv he hstop h0 hf hF hm hst⟩
  · have hx : exec .admission s = .next s.toOpenFrame.tryIssue := by
      show execAdmission s = _
      unfold execAdmission
      rw [hw, hwa]
    refine ⟨_, hx, ?_⟩
    unfold State.toOpenFrame
    split
    · exact s.tryIssue_resumes hv he hstop h0 hf hF hm hst
    · have hh := s.hammer_at s.core.opensAt
      have htok : ∀ k, (s.at s.core.opensAt).tok k = s.tok k := fun k => by
        unfold State.tok
        rw [hh]
      obtain ⟨h1, h2, h3, h4, h5, h6⟩ := (s.at s.core.opensAt).tryIssue_resumes ((s.verdict_at _).trans hv) (by rw [hh]; exact he)
        (by rw [hh]; exact hstop) (by rw [hh]; intro k hk; rw [htok]; exact h0 k hk) (by rw [hh]; exact hf) (by rw [hh]; exact hF)
        (by rw [hh]; exact hm) (by rw [hh]; exact hst)
      rw [hh] at h2 h5 h6
      exact ⟨h1, h2, h3.trans (s.mem_at _), h4.trans (s.anvils_at _), h5, h6⟩

end Sys2Proof.Machine
end

