-- ==== Sys2Proof/Proofs/Retire.lean ====
section
/-! SUPPORT. The completion record of a job, and the job that leaves the table with its last one (R390, R393-R395, R399, R400). -/

namespace Sys2Proof.Machine

/-! ### Notes and answers -/

/-- From `u` to `v` nothing changed but the registers listed, the log, the trace, and what streams send, hold and pin. -/
structure State.noted (u v : State) (regs : List Nat) : Prop where
  regs : ∀ a, a ∉ regs → logAddr a = false → v.rd a = u.rd a
  rest : v = { u with
    csr := v.csr, evrec := v.evrec, srcs := v.srcs, grps := v.grps, cores := v.cores, free := v.free, trace := v.trace
    tongs := { u.tongs with ctx := v.tongs.ctx, pinned := v.tongs.pinned }, mgmt := v.mgmt }

theorem State.noted_refl (u : State) (l : List Nat) : u.noted u l := ⟨fun _ _ _ => rfl, rfl⟩

theorem State.noted_trans {u v w : State} {l : List Nat} (h : u.noted v l) (k : v.noted w l) : u.noted w l := by
  refine ⟨fun a ha hb => (k.regs a ha hb).trans (h.regs a ha hb), ?_⟩
  rw [k.rest, h.rest]

theorem State.noted_mono {u v : State} {l m : List Nat} (h : u.noted v l) (hs : ∀ a ∈ l, a ∈ m) : u.noted v m :=
  ⟨fun a ha hb => h.regs a (fun hc => ha (hs a hc)) hb, h.rest⟩

theorem State.noted_of_only {u v : State} {l : List Nat} (h : u.only v l) : u.noted v l := by
  obtain ⟨h1, -, h3⟩ := h
  exact ⟨h1, by rw [h3]⟩

theorem State.noted_put (u : State) (f : Fd) (x : Nat) {l : List Nat} (h : f.addr ∈ l) : u.noted (u.put f x) l :=
  ⟨fun _ ha _ => State.rd_put_ne _ _ _ (fun hc => ha (hc ▸ h)), rfl⟩

theorem State.noted_of_traceOnly {u v : State} (h : u.traceOnly v) {l : List Nat} (hl : HAMMER_TRSTAT ∈ l) : u.noted v l :=
  ⟨fun a ha _ => h.regs a (fun hc => ha (hc ▸ hl)), by rw [h.rest]⟩

theorem State.noted_foldl {α : Type} (f : State → α → State) (l : List Nat) (xs : List α) (h : ∀ s : State, ∀ x ∈ xs, s.noted (f s x) l)
    (s : State) : s.noted (xs.foldl f s) l := by
  induction xs generalizing s with
  | nil => exact s.noted_refl _
  | cons x r ih => exact State.noted_trans (h s x (by simp)) (ih (fun s y hy => h s y (by simp [hy])) _)

section
variable {u v : State} {l : List Nat} (h : u.noted v l)
include h

theorem State.noted_hammer : v.hammer = u.hammer := by rw [h.rest]
theorem State.noted_anvils : v.anvils = u.anvils := by rw [h.rest]
theorem State.noted_crucs : v.crucs = u.crucs := by rw [h.rest]
theorem State.noted_jobs : v.jobs = u.jobs := by rw [h.rest]
theorem State.noted_job (k : Nat) : v.job k = u.job k := by
  unfold State.job
  rw [State.noted_jobs h]
theorem State.noted_byte (a : Nat) : v.byte a = u.byte a := by
  unfold State.byte
  rw [h.rest]

end

theorem State.noted_setCtx (u : State) (n : Nat) (c : Ctx) (l : List Nat) : u.noted (u.setCtx n c) l := ⟨fun _ _ _ => rfl, rfl⟩

theorem State.noted_cacheStat (u : State) {l : List Nat} (h : TONGS_CACHESTAT ∈ l) : u.noted u.cacheStat l :=
  State.noted_trans (u.noted_put TONGS_CACHESTAT_ADMQ _ h)
    (State.noted_trans (State.noted_put _ TONGS_CACHESTAT_PINNED _ h) (State.noted_put _ TONGS_CACHESTAT_CACHED _ h))

theorem State.noted_unpin (u : State) (n : Nat) {l : List Nat} (h : TONGS_CACHESTAT ∈ l) : u.noted (u.unpin n) l := by
  unfold State.unpin
  split
  · exact u.noted_refl l
  · exact State.noted_trans (v := { u with tongs := { u.tongs with pinned := u.tongs.pinned.filter (· != n) } })
      ⟨fun _ _ _ => rfl, rfl⟩ (State.noted_cacheStat _ h)

theorem State.noted_cmdDone (u : State) (n need : Nat) {l : List Nat} (h : TONGS_CACHESTAT ∈ l) : u.noted (u.cmdDone n need) l := by
  unfold State.cmdDone
  extract_lets c
  split
  · exact u.noted_refl l
  · exact State.noted_trans (u.noted_setCtx n _ l) (State.noted_unpin _ n h)

theorem State.noted_respond (u : State) (n ctype status sub ctag result : Nat) (loc : Word) {l : List Nat} (h : TONGS_CACHESTAT ∈ l) :
    u.noted (u.respond n ctype status sub ctag result loc) l := by
  unfold State.respond
  generalize cmdResponse ctype status sub ctag result loc = data
  exact State.noted_trans (State.noted_of_only (u.only_queueMsg n 7 true data none l)) (State.noted_cmdDone _ _ _ h)

theorem State.evrec_respond (u : State) (n ctype status sub ctag result : Nat) (loc : Word) :
    (u.respond n ctype status sub ctag result loc).evrec = u.evrec := by
  have hput : ∀ (v : State) (f : Fd) (x : Nat), (v.put f x).evrec = v.evrec := fun _ _ _ => by simp only [State.put, State.wr]
  have hdone : ∀ (v : State) need, (v.cmdDone n need).evrec = v.evrec := fun v need => by
    unfold State.cmdDone State.unpin State.cacheStat
    extract_lets c
    split
    · rfl
    · split <;> simp only [hput, State.setCtx]
  unfold State.respond
  rw [hdone, State.evrec_queueMsg]

theorem State.noted_jobStat (u : State) {l : List Nat} (h : TONGS_JOBSTAT ∈ l) : u.noted u.jobStat l :=
  State.noted_trans (u.noted_put TONGS_JOBSTAT_RUNJOB _ h)
    (State.noted_trans (State.noted_put _ TONGS_JOBSTAT_WAITING _ h) (State.noted_put _ TONGS_JOBSTAT_USED _ h))

theorem State.jobStat_runjob (u : State) : u.jobStat.get TONGS_JOBSTAT_RUNJOB = u.hammer.run.getD 255 % 256 := by
  unfold State.jobStat
  extract_lets l s
  rw [State.get_put_apart _ TONGS_JOBSTAT_USED TONGS_JOBSTAT_RUNJOB _ (by decide) (by decide) (by decide),
    State.get_put_apart _ TONGS_JOBSTAT_WAITING TONGS_JOBSTAT_RUNJOB _ (by decide) (by decide) (by decide)]
  exact State.get_put_self u TONGS_JOBSTAT_RUNJOB _ (by decide) (by decide)

theorem State.traceOnly_traceTrig (u : State) (k : Nat) : u.traceOnly (u.traceTrig k) := by
  unfold State.traceTrig
  extract_lets pre
  split
  · exact State.traceOnly_trans (v := { u with trace := u.trace.keep pre }) ⟨rfl, fun a _ => by simp only [State.rd]⟩
      (State.traceOnly_trans (State.traceOnly_put _ HAMMER_TRSTAT_STATE _ rfl) (State.traceOnly_put _ HAMMER_TRSTAT_COUNT _ rfl))
  · exact u.traceOnly_refl

/-! ### The record -/

/-- Bytes in the slot of a job's ring, while the ring is enabled (R394, R395). -/
def State.slotWritten (u : State) (j : Job) (b : List Byte) : State :=
  if u.get (TONGS_RING_CFG_LOG2N j.ring) = 0 ∨ u.on (TONGS_RING_CFG_LOST j.ring) then u else u.writeBytes (u.slotAddr j.ring j.ridx) b

theorem toBytes_length (n v : Nat) : (toBytes n v).length = n := by
  unfold toBytes
  simp

theorem recordBytes_length (id : Nat) (j : Job) (st gen aflags : Nat) (f : Option Fail) (elapsed bundles : Nat) :
    (recordBytes id j st gen aflags f elapsed bundles).length = 64 := by
  unfold recordBytes
  simp only [List.length_append, toBytes_length]

theorem State.slotWritten_rest (u : State) (j : Job) (b : List Byte) :
    u.slotWritten j b = { u with mem := (u.slotWritten j b).mem, errs := (u.slotWritten j b).errs, wb := (u.slotWritten j b).wb } := by
  unfold State.slotWritten
  split
  · rfl
  · unfold State.writeBytes State.clearErrs
    rw [State.setBytes_frame]

theorem State.recordOnly_slotWritten (u : State) (j : Job) (b : List Byte) (hb : b.length = 64) : u.recordOnly (u.slotWritten j b) j := by
  intro a ha
  unfold State.slotWritten
  split
  · rfl
  · exact State.byte_setBytes_ne b u _ a (by rw [hb]; exact ha)

theorem State.writeRecord_open (u : State) (id : Nat) (j : Job) (st aflags : Nat) (f : Option Fail) (elapsed bundles : Nat) (h : st < 2) :
    ∃ b, b.length = 64 ∧ u.writeRecord id j st aflags f elapsed bundles = u.slotWritten j b := by
  unfold State.writeRecord
  exact ⟨_, recordBytes_length _ _ _ _ _ _ _ _, if_pos h⟩

/-- A record kept for its ring's PUSH (R399). -/
def State.pushedRec (u : State) (r : Nat) (b : List Byte) : State :=
  if u.on (TONGS_RING_CFG_PUSH r) then { u with tongs := { u.tongs with push := u.tongs.push ++ [(r, b, u.now)] } } else u

theorem State.pushedRec_rest (u : State) (r : Nat) (b : List Byte) :
    ∃ l, u.pushedRec r b = { u with tongs := { u.tongs with push := l } } := by
  unfold State.pushedRec
  split
  · exact ⟨_, rfl⟩
  · exact ⟨u.tongs.push, rfl⟩

/-- The records of a record that finds its ring lost (R400). -/
def lostGroup (u : State) (r : Nat) (b : List Byte) : List Evt :=
  evt u 0x0404 3 (2 * 256 + r) r 0 0 :: (List.range 6).map (fun i =>
    evt u 0x0008 0 (2 * 256 + r) (leAt b (12 * i) 4) (leAt b (12 * i + 4) 4) (leAt b (12 * i + 8) 4))

/-- The last record of a job is pushed, and recorded where its ring is lost. -/
theorem State.writeRecord_final (u : State) (id : Nat) (j : Job) (st aflags : Nat) (f : Option Fail) (elapsed bundles : Nat) (h : 2 ≤ st) :
    ∃ b, b.length = 64 ∧ u.writeRecord id j st aflags f elapsed bundles =
      if u.on (TONGS_RING_CFG_LOST j.ring) then
        (((u.slotWritten j b).pushedRec j.ring b).eventGroup (lostGroup ((u.slotWritten j b).pushedRec j.ring b) j.ring b)).2
      else (u.slotWritten j b).pushedRec j.ring b :=
  ⟨_, recordBytes_length _ _ _ _ _ _ _ _, if_neg (by omega)⟩

/-- What a stream sends and what its credit stands at may have changed; the rest of its context is as it was. -/
def State.sendsOnly (u v : State) : Prop := ∀ n, ∃ q r b, v.ctx n = { u.ctx n with txq := q, crstate := r, blockedAt := b }

theorem State.sendsOnly_of_ctx {u v : State} (h : v.tongs.ctx = u.tongs.ctx) : u.sendsOnly v := fun n =>
  ⟨_, _, _, by unfold State.ctx; rw [h]⟩

theorem State.sendsOnly_trans {u v w : State} (h : u.sendsOnly v) (k : v.sendsOnly w) : u.sendsOnly w := fun n => by
  obtain ⟨q, r, b, e⟩ := h n
  obtain ⟨q', r', b', e'⟩ := k n
  exact ⟨q', r', b', by rw [e', e]⟩

/-- From `u` to `v` a record of job `j` was written: its slot, the pushes and the log changed. -/
structure State.slotRecorded (u v : State) (j : Job) : Prop where
  bytes : u.recordOnly v j
  regs : ∀ a, logAddr a = false → v.rd a = u.rd a
  rest : v = { u with
    csr := v.csr, mem := v.mem, errs := v.errs, wb := v.wb, evrec := v.evrec, srcs := v.srcs, grps := v.grps, cores := v.cores, free := v.free
    tongs := { u.tongs with ctx := v.tongs.ctx, push := v.tongs.push }, mgmt := v.mgmt }
  sends : u.sendsOnly v
  evrec : u.on (TONGS_RING_CFG_LOST j.ring) = false → v.evrec = u.evrec

theorem State.slotRecorded_writeRecord (u : State) (id : Nat) (j : Job) (st aflags : Nat) (f : Option Fail) (elapsed bundles : Nat) (h : 2 ≤ st) :
    u.slotRecorded (u.writeRecord id j st aflags f elapsed bundles) j := by
  obtain ⟨b, hb, e⟩ := u.writeRecord_final id j st aflags f elapsed bundles h
  obtain ⟨l, hl⟩ := (u.slotWritten j b).pushedRec_rest j.ring b
  have hs := u.slotWritten_rest j b
  have hm := u.recordOnly_slotWritten j b hb
  rw [e, hl]
  generalize u.slotWritten j b = w at hs hm
  split
  next hx =>
    obtain ⟨h1, h2, h3⟩ := State.only_eventGroup { w with tongs := { w.tongs with push := l } }
      (lostGroup { w with tongs := { w.tongs with push := l } } j.ring b) []
    generalize (State.eventGroup _ _).2 = v at h1 h2 h3
    refine ⟨fun a ha => ?_, fun a ha => ?_, ?_, State.sendsOnly_trans (State.sendsOnly_of_ctx (by rw [hs])) h2,
      fun hf => absurd hx (by rw [hf]; decide)⟩
    · rw [← hm a ha]
      unfold State.byte
      rw [h3]
    · rw [h1 a (by simp) ha, hs]
      rfl
    · rw [h3, hs]
  next => exact ⟨hm, fun _ _ => by rw [hs]; rfl, by rw [hs], State.sendsOnly_of_ctx (by rw [hs]), fun _ => by rw [hs]⟩

/-! ### The job that leaves -/

/-- The registers that change as a job leaves the table. -/
def retireRegs : List Nat := [HAMMER_TRSTAT, HAMMER_JOBCNT, HAMMER_ERRSUM, TONGS_CACHESTAT, TONGS_JOBSTAT]

/-- The job's end is counted; a failure is raised and recorded (R393). -/
def State.tally (u : State) (id ridx : Nat) (f : Option Fail) : State :=
  match f with
  | none => u.inc HAMMER_JOBCNT_DONE
  | some e =>
    (((u.inc HAMMER_JOBCNT_FAILED).put HAMMER_ERRSUM_JOBFAIL 1).traceTrig 1).eventIrq 23 (0x0100 + e.cause) 3 0
      (id * 2 ^ 24 + ridx % 2 ^ 24) e.fpc e.p0

theorem State.get_inc (u : State) (f : Fd) (hl : f.lo ≤ f.hi) (hh : f.hi < 64) :
    (u.inc f).get f = min (u.get f + 1) (2 ^ (f.hi + 1 - f.lo) - 1) := by
  unfold State.inc State.add
  rw [State.get_put_self _ f _ hl hh, Nat.mod_eq_of_lt]
  have := Nat.two_pow_pos (f.hi + 1 - f.lo)
  omega

theorem State.recorded_of_evrec {u v w : State} {code : Nat} (h : v.recorded w code) (e : v.evrec = u.evrec) : u.recorded w code := by
  unfold State.recorded at *
  rwa [e] at h

theorem State.get_of_rd {u v : State} {f : Fd} (h : v.rd f.addr = u.rd f.addr) : v.get f = u.get f := by
  unfold State.get
  rw [h]

theorem State.jobcnt_inc_done (u : State) :
    (u.inc HAMMER_JOBCNT_DONE).get HAMMER_JOBCNT_DONE = min (u.get HAMMER_JOBCNT_DONE + 1) (2 ^ 32 - 1) ∧
      (u.inc HAMMER_JOBCNT_DONE).get HAMMER_JOBCNT_FAILED = u.get HAMMER_JOBCNT_FAILED :=
  ⟨u.get_inc HAMMER_JOBCNT_DONE (by decide) (by decide),
    u.get_put_apart HAMMER_JOBCNT_DONE HAMMER_JOBCNT_FAILED _ (by decide) (by decide) (by decide)⟩

theorem State.jobcnt_inc_failed (u : State) :
    (u.inc HAMMER_JOBCNT_FAILED).get HAMMER_JOBCNT_FAILED = min (u.get HAMMER_JOBCNT_FAILED + 1) (2 ^ 32 - 1) ∧
      (u.inc HAMMER_JOBCNT_FAILED).get HAMMER_JOBCNT_DONE = u.get HAMMER_JOBCNT_DONE :=
  ⟨u.get_inc HAMMER_JOBCNT_FAILED (by decide) (by decide),
    u.get_put_apart HAMMER_JOBCNT_FAILED HAMMER_JOBCNT_DONE _ (by decide) (by decide) (by decide)⟩

/-- A failed job is counted, and its cause recorded. -/
theorem State.tally_failed (u : State) (id ridx : Nat) (e : Fail) :
    u.noted (u.tally id ridx (some e)) retireRegs ∧ u.sendsOnly (u.tally id ridx (some e)) ∧
      (u.tally id ridx (some e)).rd HAMMER_JOBCNT = (u.inc HAMMER_JOBCNT_FAILED).rd HAMMER_JOBCNT ∧
      u.recorded (u.tally id ridx (some e)) (0x0100 + e.cause) := by
  unfold State.tally
  simp only
  have h1 : (u.inc HAMMER_JOBCNT_FAILED).noted ((u.inc HAMMER_JOBCNT_FAILED).put HAMMER_ERRSUM_JOBFAIL 1) retireRegs :=
    State.noted_put _ _ _ (by decide)
  have h1' : ((u.inc HAMMER_JOBCNT_FAILED).put HAMMER_ERRSUM_JOBFAIL 1).rd HAMMER_JOBCNT = (u.inc HAMMER_JOBCNT_FAILED).rd HAMMER_JOBCNT :=
    State.rd_put_ne _ _ _ (by decide)
  have hu : u.noted ((u.inc HAMMER_JOBCNT_FAILED).put HAMMER_ERRSUM_JOBFAIL 1) retireRegs :=
    State.noted_trans (u.noted_put HAMMER_JOBCNT_FAILED _ (by decide)) h1
  have hc : ((u.inc HAMMER_JOBCNT_FAILED).put HAMMER_ERRSUM_JOBFAIL 1).tongs.ctx = u.tongs.ctx ∧
      ((u.inc HAMMER_JOBCNT_FAILED).put HAMMER_ERRSUM_JOBFAIL 1).evrec = u.evrec := ⟨rfl, rfl⟩
  generalize (u.inc HAMMER_JOBCNT_FAILED).put HAMMER_ERRSUM_JOBFAIL 1 = x at h1 h1' hu hc
  have h2 := x.traceOnly_traceTrig 1
  generalize x.traceTrig 1 = y at h2
  have hr := y.recorded_eventIrq 23 (0x0100 + e.cause) 3 0 (id * 2 ^ 24 + ridx % 2 ^ 24) e.fpc e.p0
  have h3 := y.only_eventIrq 23 (0x0100 + e.cause) 3 0 (id * 2 ^ 24 + ridx % 2 ^ 24) e.fpc e.p0 (by decide) []
  generalize y.eventIrq 23 (0x0100 + e.cause) 3 0 (id * 2 ^ 24 + ridx % 2 ^ 24) e.fpc e.p0 = v at hr h3
  refine ⟨State.noted_trans hu (State.noted_trans (State.noted_of_traceOnly h2 (by decide)) (State.noted_mono (State.noted_of_only h3) (by simp))),
    State.sendsOnly_trans (State.sendsOnly_of_ctx (v := y) ?_) h3.2.1, ?_, State.recorded_of_evrec hr ?_⟩
  · rw [h2.rest]
    exact hc.1
  · rw [h3.1 _ (by simp) (by decide), h2.regs _ (by decide), h1']
  · rw [h2.rest]
    exact hc.2

/-- The answers to those who cancelled job `j` (R390). -/
def State.cancelAnswered (u : State) (j : Job) : State := j.cancel.foldl (fun s p => s.respond p.2.1 2 0 0 p.2.2 0 0) u

theorem State.retire_eq (u : State) (id : Nat) (j : Job) (f : Option Fail) (aflags elapsed bundles : Nat) :
    u.retire id j f aflags elapsed bundles =
      (((((u.writeRecord id j (if f.isSome then 3 else 2) aflags f elapsed bundles).setJob id none).traced 7
        ((if f.isSome then 3 else 2) * 256 + id)).tally id j.ridx f).cancelAnswered j).jobStat := by
  cases f <;> rfl

theorem State.noted_cancelAnswered (u : State) (j : Job) : u.noted (u.cancelAnswered j) [TONGS_CACHESTAT] :=
  State.noted_foldl _ _ _ (fun s _ _ => s.noted_respond _ _ _ _ _ _ _ (by simp)) u

theorem State.evrec_cancelAnswered (u : State) (j : Job) : (u.cancelAnswered j).evrec = u.evrec := by
  unfold State.cancelAnswered
  generalize j.cancel = l
  induction l generalizing u with
  | nil => rfl
  | cons p r ih => exact (ih _).trans (u.evrec_respond _ _ _ _ _ _ _)

theorem State.evrec_jobStat (u : State) : u.jobStat.evrec = u.evrec := by
  simp only [State.jobStat, State.put_evrec]

/-- Job `id` has left the table with its last record, and counts as done or as failed; those who cancelled it have their answers. -/
structure State.retired (u v : State) (id : Nat) (j : Job) (f : Option Fail) : Prop where
  hammer : v.hammer = u.hammer
  anvils : v.anvils = u.anvils
  crucs : v.crucs = u.crucs
  job : ∀ k, v.job k = if k = id then none else u.job k
  bytes : u.recordOnly v j
  regs : ∀ a, a ∉ retireRegs → logAddr a = false → v.rd a = u.rd a
  running : v.get TONGS_JOBSTAT_RUNJOB = u.hammer.run.getD 255 % 256
  done : v.get HAMMER_JOBCNT_DONE = if f.isSome then u.get HAMMER_JOBCNT_DONE else min (u.get HAMMER_JOBCNT_DONE + 1) (2 ^ 32 - 1)
  failed : v.get HAMMER_JOBCNT_FAILED = if f.isSome then min (u.get HAMMER_JOBCNT_FAILED + 1) (2 ^ 32 - 1) else u.get HAMMER_JOBCNT_FAILED
  recorded : ∀ e ∈ f, u.on (TONGS_RING_CFG_LOST j.ring) = false → u.recorded v (0x0100 + e.cause)
  sends : ∃ w, u.sendsOnly w ∧ v.tongs.ctx = (w.cancelAnswered j).tongs.ctx
  tongs : v.tongs = { u.tongs with ctx := v.tongs.ctx, pinned := v.tongs.pinned, push := v.tongs.push }

theorem State.recorded_evrec_right {u v w : State} {code : Nat} (h : u.recorded v code) (e : w.evrec = v.evrec) : u.recorded w code := by
  unfold State.recorded at *
  rwa [e]

theorem State.tally_facts (u : State) (id ridx : Nat) (f : Option Fail) :
    u.noted (u.tally id ridx f) retireRegs ∧ u.sendsOnly (u.tally id ridx f) ∧
      (u.tally id ridx f).get HAMMER_JOBCNT_DONE =
        (if f.isSome then u.get HAMMER_JOBCNT_DONE else min (u.get HAMMER_JOBCNT_DONE + 1) (2 ^ 32 - 1)) ∧
      (u.tally id ridx f).get HAMMER_JOBCNT_FAILED =
        (if f.isSome then min (u.get HAMMER_JOBCNT_FAILED + 1) (2 ^ 32 - 1) else u.get HAMMER_JOBCNT_FAILED) ∧
      ∀ e ∈ f, u.recorded (u.tally id ridx f) (0x0100 + e.cause) := by
  cases f with
  | none =>
    simp only [State.tally]
    refine ⟨u.noted_put HAMMER_JOBCNT_DONE _ (by decide), State.sendsOnly_of_ctx (by rw [State.inc, State.add, State.put_tongs]), ?_, ?_,
      fun e he => by simp at he⟩
    · rw [if_neg (by decide), u.jobcnt_inc_done.1]
    · rw [if_neg (by decide), u.jobcnt_inc_done.2]
  | some e =>
    obtain ⟨h1, h2, h3, h4⟩ := u.tally_failed id ridx e
    refine ⟨h1, h2, ?_, ?_, fun x hx => ?_⟩
    · rw [State.get_of_rd (f := HAMMER_JOBCNT_DONE) h3, if_pos Option.isSome_some, u.jobcnt_inc_failed.2]
    · rw [State.get_of_rd (f := HAMMER_JOBCNT_FAILED) h3, if_pos Option.isSome_some, u.jobcnt_inc_failed.1]
    · obtain rfl := Option.mem_some_iff.mp hx
      exact h4

theorem State.job_setJob (u : State) (id : Nat) (x : Option Job) (k : Nat) : (u.setJob id x).job k = if k = id then x else u.job k := by
  unfold State.job State.setJob
  split
  next h => rw [h, Tab.get_set_self]
  next h => exact Tab.get_set_ne _ _ _ h

/-- Job `id` out of the table, its last record written and its end traced. -/
structure State.removed (u v : State) (id : Nat) (j : Job) : Prop where
  hammer : v.hammer = u.hammer
  anvils : v.anvils = u.anvils
  crucs : v.crucs = u.crucs
  job : ∀ k, v.job k = if k = id then none else u.job k
  bytes : u.recordOnly v j
  regs : ∀ a, a ≠ HAMMER_TRSTAT → logAddr a = false → v.rd a = u.rd a
  sends : u.sendsOnly v
  tongs : v.tongs = { u.tongs with ctx := v.tongs.ctx, push := v.tongs.push }
  evrec : u.on (TONGS_RING_CFG_LOST j.ring) = false → v.evrec = u.evrec

theorem State.removed_traced {u w : State} {j : Job} (h : u.slotRecorded w j) (id d : Nat) :
    u.removed ((w.setJob id none).traced 7 d) id j := by
  have hx := (w.setJob id none).traceOnly_traced 7 d
  generalize (w.setJob id none).traced 7 d = x at hx
  have hh : x.hammer = w.hammer ∧ x.anvils = w.anvils ∧ x.crucs = w.crucs ∧ x.jobs = (w.setJob id none).jobs ∧ x.mem = w.mem ∧
      x.tongs = w.tongs ∧ x.evrec = w.evrec := by
    rw [hx.rest]
    exact ⟨rfl, rfl, rfl, rfl, rfl, rfl, rfl⟩
  obtain ⟨h1, h2, h3, h4, h5, h6, h7⟩ := hh
  have hw : w.hammer = u.hammer ∧ w.anvils = u.anvils ∧ w.crucs = u.crucs ∧ w.jobs = u.jobs := by
    rw [h.rest]
    exact ⟨rfl, rfl, rfl, rfl⟩
  obtain ⟨k1, k2, k3, k4⟩ := hw
  refine ⟨h1.trans k1, h2.trans k2, h3.trans k3, fun k => ?_, fun a ha => ?_, fun a ha hl => ?_,
    State.sendsOnly_trans h.sends (State.sendsOnly_of_ctx (by rw [h6])), ?_, fun hf => h7.trans (h.evrec hf)⟩
  · have : x.job k = (w.setJob id none).job k := by
      unfold State.job
      rw [h4]
    rw [this, State.job_setJob]
    unfold State.job
    rw [k4]
  · rw [← h.bytes a ha]
    unfold State.byte
    rw [h5]
  · rw [hx.regs a ha, ← h.regs a hl]
    rfl
  · rw [h6, h.rest]

theorem State.retired_retire (u : State) (id : Nat) (j : Job) (f : Option Fail) (aflags elapsed bundles : Nat) :
    u.retired (u.retire id j f aflags elapsed bundles) id j f := by
  rw [State.retire_eq]
  have hx := State.removed_traced (u.slotRecorded_writeRecord id j (if f.isSome then 3 else 2) aflags f elapsed bundles (by split <;> decide))
    id ((if f.isSome then 3 else 2) * 256 + id)
  generalize ((u.writeRecord id j _ aflags f elapsed bundles).setJob id none).traced 7 _ = x at hx
  obtain ⟨hy, sy, dy, fy, ry⟩ := x.tally_facts id j.ridx f
  generalize x.tally id j.ridx f = y at hy sy dy fy ry
  have hz := y.noted_cancelAnswered j
  have ez := y.evrec_cancelAnswered j
  have cz : ∃ v, u.sendsOnly v ∧ (y.cancelAnswered j).tongs.ctx = (v.cancelAnswered j).tongs.ctx :=
    ⟨y, State.sendsOnly_trans hx.sends sy, rfl⟩
  generalize y.cancelAnswered j = z at hz ez cz
  have hv := z.noted_jobStat (l := [TONGS_JOBSTAT]) (by simp)
  have rv := z.jobStat_runjob
  have ev := z.evrec_jobStat
  have cv : z.jobStat.tongs = z.tongs := by rw [State.jobStat, State.put_tongs, State.put_tongs, State.put_tongs]
  generalize z.jobStat = v at hv rv ev cv
  have hyv := State.noted_trans (State.noted_mono hz (m := [TONGS_CACHESTAT, TONGS_JOBSTAT]) (by decide))
    (State.noted_mono hv (m := [TONGS_CACHESTAT, TONGS_JOBSTAT]) (by decide))
  have hxv := State.noted_trans hy (State.noted_mono hyv (m := retireRegs) (by decide))
  have hcnt : v.rd HAMMER_JOBCNT = y.rd HAMMER_JOBCNT ∧ x.rd HAMMER_JOBCNT = u.rd HAMMER_JOBCNT :=
    ⟨hyv.regs _ (by decide) (by decide), hx.regs _ (by decide) (by decide)⟩
  refine ⟨(State.noted_hammer hxv).trans hx.hammer, (State.noted_anvils hxv).trans hx.anvils, (State.noted_crucs hxv).trans hx.crucs,
    fun k => (State.noted_job hxv k).trans (hx.job k), fun a ha => (State.noted_byte hxv a).trans (hx.bytes a ha),
    fun a ha hl => (hxv.regs a ha hl).trans (hx.regs a (fun hc => ha (by rw [hc]; decide)) hl), ?_, ?_, ?_, fun e he hf => ?_, ?_, ?_⟩
  · rw [rv, State.noted_hammer (State.noted_trans hy (State.noted_mono hz (m := retireRegs) (by decide))), hx.hammer]
  · rw [State.get_of_rd (f := HAMMER_JOBCNT_DONE) hcnt.1, dy, State.get_of_rd (f := HAMMER_JOBCNT_DONE) hcnt.2]
  · rw [State.get_of_rd (f := HAMMER_JOBCNT_FAILED) hcnt.1, fy, State.get_of_rd (f := HAMMER_JOBCNT_FAILED) hcnt.2]
  · exact State.recorded_evrec_right (State.recorded_of_evrec (ry e he) (hx.evrec hf)) (ev.trans ez)
  · rw [cv]
    exact cz
  · rw [hxv.rest, hx.tongs]

/-! ### The heat that ends with the job, and Hammer without one -/

/-- The end of a heat changes what Temper learned and Hammer's share in it. -/
theorem State.heatEnd_eq (u : State) (learn : Bool) :
    ∃ p, u.heatEnd learn = { u with hammer := { u.hammer with coll := false }, temper := p } := by
  unfold State.heatEnd State.heatSample
  extract_lets now e s
  split
  · exact ⟨_, rfl⟩
  · split
    · exact ⟨_, rfl⟩
    · extract_lets en
      split
      · exact ⟨_, rfl⟩
      · exact ⟨_, rfl⟩

end Sys2Proof.Machine
end

