-- ==== Sys2Proof/Proofs/JobEnds.lean ====
section
/-! JobEnds (O20). The STOP word and the end of a job (R116, R135, R151, R393, R394). -/

namespace Sys2Proof.Machine

/-- Hammer with an open bundle of the STOP word alone. -/
def State.stopping (s : State) (len : Nat) : State := s.onHammer (fun x => { x with cur := { Open.none with stop := true, len := len } })

theorem verdict_stopping {s : State} {len : Nat} (hs : s.sole ⟨0, true, len⟩ [0]) : (s.stopping len).verdict = .ok := by
  obtain ⟨_, _, _, _, _, hlen, hroom, _⟩ := hs
  obtain ⟨i, hi, hfit⟩ : ∃ i, s.runImage = some i ∧ 16 * s.hammer.pc + lenBytes len ≤ i.codeOff + i.codeBytes := by
    cases hq : s.runImage with
    | none => simp [hq] at hroom
    | some i => exact ⟨i, rfl, by simpa [hq] using hroom⟩
  have hpast : ¬ 16 * s.hammer.pc + lenBytes len > i.codeOff + i.codeBytes := by omega
  unfold State.verdict
  rw [show (s.stopping len).runImage = some i from hi]
  simp [State.stopping, State.onHammer, Open.none, hpast, noDup]

theorem execStop_sole {s : State} {len : Nat} (hs : s.sole ⟨0, true, len⟩ [0]) : exec (.stop len) s = .next (s.stopping len).tryIssue := by
  obtain ⟨htk, ho, hc, _⟩ := hs
  show execStop len s = _
  unfold execStop
  simp only [htk, ho, Bool.true_eq_false, if_false, if_true]
  rw [State.stopping, State.onHammer, State.onHammer, hc]

/-- STOP alone issues its bundle, and issue ends without a failure (R116, R151). -/
theorem stop_issues {s : State} {len : Nat} (hs : s.sole ⟨0, true, len⟩ [0]) : ∃ c h, (s.stopping len).tryIssue = { s with csr := c, hammer := h } ∧
    h.ending = some none ∧ h.open_ = false ∧ h.pos = s.hammer.pos + 1 ∧ h.run = s.hammer.run ∧ h.s = s.hammer.s ∧ h.amask = s.hammer.amask := by
  have hv := verdict_stopping hs
  obtain ⟨htk, _, _, _, _, _, _, hm, hf, hF, _, hst⟩ := hs
  have hstall : (s.stopping len).hammer.stall = none := by
    simp [State.taking] at htk
    exact htk.1.2
  obtain ⟨c, p, r, rc, d, hi⟩ := (s.stopping len).issue_empty rfl hst hf hF hm
  extract_lets src Z at hi
  have hz : Z.stopJob none = _ := Z.stopJob_clean none hf hF
  rw [State.tryIssue_issues hv (fun k hk => by simp [State.stopping, State.onHammer, Open.none, maskTokens, bit] at hk) (waitFail_zero _) rfl,
    State.release_free hstall, hi, if_pos (show (s.stopping len).hammer.cur.stop = true from rfl), hz]
  exact ⟨_, _, rfl, rfl, rfl, rfl, rfl, rfl, rfl⟩

/-! ### The end of a job -/

/-- The state a job leaves Hammer from: its heat has ended, Hammer idles. -/
theorem State.left_eq (u : State) (learn : Bool) : ∃ p, (u.heatEnd learn).hammerIdle = { u with
    csr := (u.put HAMMER_PCSTAT_RUN 0).csr, temper := p
    hammer := { Hammer.reset with avail := u.hammer.avail, beaconAt := u.hammer.beaconAt, beaconUp := u.hammer.beaconUp, amask := u.hammer.amask } } := by
  obtain ⟨p, h⟩ := u.heatEnd_eq learn
  rw [h]
  exact ⟨_, rfl⟩

/-- Hammer has been left at instant `t`: it idles, and memory, table and log are as they were. -/
structure State.left (s v : State) : Prop where
  hammer : v.hammer = { Hammer.reset with
    avail := s.hammer.avail, beaconAt := s.hammer.beaconAt, beaconUp := s.hammer.beaconUp, amask := s.hammer.amask }
  anvils : v.anvils = s.anvils
  job : ∀ k, v.job k = s.job k
  byte : ∀ a, v.byte a = s.byte a
  evrec : v.evrec = s.evrec
  regs : ∀ a, a ≠ HAMMER_PCSTAT → v.rd a = s.rd a
  stopped : v.get HAMMER_PCSTAT_RUN = 0

theorem State.left_at (s : State) (t : Nat) (learn : Bool) : s.left ((s.at t).heatEnd learn).hammerIdle := by
  obtain ⟨p, hp⟩ := (s.at t).left_eq learn
  obtain ⟨m, c, hm⟩ := s.at_eq t
  have hrd : ∀ a, (((s.at t).heatEnd learn).hammerIdle).rd a = ((s.at t).put HAMMER_PCSTAT_RUN 0).rd a := fun a => by
    rw [hp]
    rfl
  refine ⟨?_, ?_, ?_, ?_, ?_, fun a ha => ?_, ?_⟩
  · rw [hp, hm]
  · rw [hp, hm]
  · rw [hp, hm]
    exact fun _ => rfl
  · rw [hp, hm]
    exact fun _ => rfl
  · rw [hp, hm]
  · rw [hrd, State.rd_put_ne _ _ _ ha, State.rd_at]
  · rw [State.get_of_rd (hrd _)]
    exact State.get_put_self _ HAMMER_PCSTAT_RUN 0 (by decide) (by decide)

theorem execJobEnd_quiet (s : State) (t id : Nat) (f : Option Fail) (j : Job) (he : s.hammer.ending = some f) (hr : s.hammer.run = some id)
    (ht : s.hammer.tok.all (fun p => p.2.count == 0) = true) (hj : s.job id = some j) (hw : f = none → s.waitFail (2 ^ 16 - 1) = none) :
    ∃ l a e n, exec (.jobEnd t) s = .next (((s.at t).heatEnd l).hammerIdle.retire id j f a e n) := by
  have hno : s.hammer.tok.any (fun p => p.2.count > 0) = false :=
    List.any_eq_false.mpr (fun p hp => by simpa using List.all_eq_true.mp ht p hp)
  show ∃ l a e n, execJobEnd t s = _
  unfold execJobEnd
  rw [he, hr]
  dsimp only
  rw [hno, hj, if_neg (by decide)]
  cases f with
  | some e => exact ⟨_, _, _, _, rfl⟩
  | none =>
    have hf : (s.at t).waitFail (2 ^ 16 - 1) = none := by
      rw [← hw rfl]
      obtain ⟨_, _, h⟩ := s.at_eq t
      rw [h]
      rfl
    dsimp only
    rw [hf]
    exact ⟨_, _, _, _, rfl⟩

/-- Settles O20: STOP by `stop_issues`, the end of a job by `retired_retire` from the state in which Hammer idles. -/
theorem jobEnds : Obligations.JobEnds := by
  unfold Obligations.JobEnds
  refine ⟨fun s len hs => ?_, fun s t id f j he hr ht hj hn => ?_⟩
  · obtain ⟨c, h, e, h1, h2, h3, h4, h5, h6⟩ := stop_issues hs
    refine ⟨_, execStop_sole hs, ?_⟩
    rw [e]
    exact ⟨h1, h2, h3, h4, h5, h6, rfl, rfl, fun _ => rfl⟩
  · obtain ⟨l, a, e, n, hx⟩ := execJobEnd_quiet s t id f j he hr ht hj hn
    have hw := s.left_at t l
    have hu := (((s.at t).heatEnd l).hammerIdle).retired_retire id j f a e n
    refine ⟨_, hx, ?_⟩
    generalize (((s.at t).heatEnd l).hammerIdle).retire id j f a e n = v at hu
    generalize ((s.at t).heatEnd l).hammerIdle = w at hu hw
    have hring : TONGS_RING_CFG j.ring ≠ HAMMER_PCSTAT := by
      simp only [TONGS_RING_CFG, HAMMER_PCSTAT]
      omega
    have hslot : w.slotAddr j.ring j.ridx = s.slotAddr j.ring j.ridx := by
      unfold State.slotAddr
      rw [State.get_of_rd (f := TONGS_RING_CFG_BASE j.ring) (hw.regs _ hring), State.get_of_rd (f := TONGS_RING_CFG_LOG2N j.ring) (hw.regs _ hring)]
    have hj' : ∀ k, k ≠ id → v.job k = s.job k := fun k hk => by rw [hu.job, if_neg hk, hw.job]
    refine ⟨by rw [hu.hammer, hw.hammer]; rfl, by rw [hu.hammer, hw.hammer]; rfl, by rw [hu.job, if_pos rfl], fun k hk => by rw [hj' k hk],
      by rw [hu.running, hw.hammer]; rfl, ?_, by rw [hu.hammer, hw.hammer], hu.anvils.trans hw.anvils, fun a ha => ?_, ?_⟩
    · rw [State.get_of_rd (f := HAMMER_PCSTAT_RUN) (hu.regs _ (by decide) (by decide)), hw.stopped]
    · rw [hu.bytes a (by rw [hslot]; exact ha), hw.byte]
    · have hd : w.get HAMMER_JOBCNT_DONE = s.get HAMMER_JOBCNT_DONE := State.get_of_rd (hw.regs _ (by decide))
      have hf : w.get HAMMER_JOBCNT_FAILED = s.get HAMMER_JOBCNT_FAILED := State.get_of_rd (hw.regs _ (by decide))
      have hl : w.on (TONGS_RING_CFG_LOST j.ring) = s.on (TONGS_RING_CFG_LOST j.ring) := by
        unfold State.on
        rw [State.get_of_rd (f := TONGS_RING_CFG_LOST j.ring) (hw.regs _ hring)]
      cases f with
      | none => exact ⟨by rw [hu.done, hd]; rfl, by rw [hu.failed, hf]; rfl⟩
      | some x =>
        exact ⟨by rw [hu.failed, hf]; rfl, by rw [hu.done, hd]; rfl,
          fun h => State.recorded_of_evrec (hu.recorded x rfl (hl.trans h)) hw.evrec⟩

end Sys2Proof.Machine
end

