-- ==== Sys2Proof/Proofs/JobEnters.lean ====
section
/-! JobEnters (O21). A job whose ring number is far out of range: `TONGS_RING_CFG` of it is the address of `EVREC_HEAD`. The heat's power
record is mended as the job enters (R229), the event of it moves `EVREC_HEAD`, and the job's record is written where the ring's base
then stands, beside the slot that the statement allows. -/

namespace Sys2Proof.Machine

/-- The ring whose configuration register has the address of `EVREC_HEAD`. -/
def farRing : Nat := 549755764496

/-- A waiting job of that ring. -/
def farJob : Job :=
  { img := 0, entry := 0, cls := 0, ring := farRing, arg := 0, seed := 0, tag := 0, key := 0, group := 0, gflags := 0, strm := 0,
    ridx := 0, st := .queued, frame := 0, accepted := 0, waitFrom := 0, started := 0, switches := 0, saved := none, cancel := [],
    cflags := 0, rflags := 0 }

/-- Its image, of one heat. -/
def farImg : Img := ⟨0, 0, 0, 0, 0, 1, 0, 0, 0, 0⟩

/-- Hammer idle and the job waiting: the heat has one variant, whose power record fails its code, and the ring is enabled. -/
def farState : State := { State.reset with
  csr := [(EVREC_HEAD, 2 ^ 41)], jobs := [(1, some farJob)], mem := [(phys hammerBase, 1)], errs := [(recErr 0, 2)]
  tongs := { State.reset.tongs with images := [farImg] } }

theorem farState_selects : (farState.at 0).selectJob = some (1, farJob) := by decide +kernel

theorem farState_enterable : (farState.at 0).enterable farJob farImg 0 := by
  unfold State.enterable
  decide +kernel

/-- The slot is the 64 bytes at 0; the byte asked for lies beside it. -/
theorem farSlot_apart : ∀ i, i < 64 → phys 274877907008 ≠ phys (farState.slotAddr farJob.ring farJob.ridx + i) := by
  decide +kernel

/-- The byte of a state reached, where one is. -/
def outByte (o : Out) (a : Nat) : Option Byte :=
  match o with
  | .next v => some (v.byte a)
  | _ => none

/-- The record's first byte, RUNNING, stands beside the slot. -/
theorem farState_writes : farState.byte 274877907008 = 0 ∧ outByte (exec (.jobSelect 0) farState) 274877907008 = some 1 := by
  decide +kernel

/-- Refutes O21: the selected job's record is not written in its slot where its ring number is out of range (`farState`). -/
theorem not_jobEnters : ¬ Obligations.JobEnters := by
  unfold Obligations.JobEnters
  intro h
  obtain ⟨v, hv, -, hslot, -⟩ := h.1 farState 0 1 0 farJob farImg rfl farState_selects rfl farState_enterable
  obtain ⟨h0, h1⟩ := farState_writes
  rw [hv] at h1
  have hb := hslot 274877907008 farSlot_apart
  rw [h0] at hb
  exact absurd (Option.some.inj h1) (by rw [hb]; decide)

end Sys2Proof.Machine
end

