-- ==== Sys2Proof/Proofs/ExchangeCompletes.lean ====
section
/-! ExchangeCompletes (O22). Transfers and fences of the exchange units complete (R99, R152, R176, R178, R179, R181). -/

namespace Sys2Proof.Machine

/-! ### Bytes under their keys -/

/-- The interleaved view gives each address a key of its own (R248). -/
theorem phys_low_inj {a b : Nat} (ha : a < 0x14000000000) (hb : b < 0x14000000000) (h : phys a = phys b) : a = b := by
  unfold phys interleave at h
  rw [if_pos ha, if_pos hb] at h
  dsimp only at h
  have ho : ∀ x : Nat, x < 0x14000000000 → x / 4096 / 20 * 4096 + x % 4096 < 0x1000000000 := fun x _ => by omega
  have oa := ho a ha
  have ob := ho b hb
  have hoff : a / 4096 / 20 * 4096 + a % 4096 = b / 4096 / 20 * 4096 + b % 4096 := by omega
  have hq : a / 4096 / 20 = b / 4096 / 20 := by omega
  have hst : (a / 4096 % 20 + a / 4096 / 20) % 20 = (b / 4096 % 20 + b / 4096 / 20) % 20 := by omega
  rw [hq] at hst
  generalize b / 4096 / 20 = q at hq hst
  have hg : a / 4096 % 20 = b / 4096 % 20 := by omega
  omega

/-- Two addresses less than 2^40 apart have different keys. -/
theorem phys_ne_near {a b : Nat} (h : a < b) (hw : b < a + 2 ^ 40) : phys a ≠ phys b := by
  by_cases hb : b < 0x14000000000
  · exact fun he => absurd (phys_low_inj (by omega) hb he) (by omega)
  · rw [phys_high (by omega : 0x14000000000 ≤ b)]
    by_cases ha : a < 0x14000000000
    · unfold phys
      rw [if_pos ha]
      dsimp only
      omega
    · rw [phys_high (by omega)]
      omega

/-- Bytes written in a row are read back. -/
theorem State.byte_setBytes_in (l : List Byte) (s : State) (a : Nat) (hl : l.length ≤ 2 ^ 40) (i : Nat) (hi : i < l.length) :
    (s.setBytes a l).byte (a + i) = l[i] := by
  induction l generalizing s a i with
  | nil => simp at hi
  | cons b r ih =>
    have hr : r.length < 2 ^ 40 := by simpa using hl
    cases i with
    | zero =>
      exact (State.byte_setBytes_ne r (s.setByte a b) (a + 1) a (fun j hj => phys_ne_near (by omega) (by omega))).trans
        (s.byte_setByte_self a b)
    | succ i =>
      have := ih (s.setByte a b) (a + 1) hr.le i (by simpa using hi)
      rw [show a + (i + 1) = a + 1 + i by omega]
      exact this

/-! ### One row -/

/-- From `s` to `v` the bytes `l` were written from address `a` on: registers, stored errors and write-backs changed besides. -/
def State.rowWritten (s v : State) (a : Nat) (l : List Byte) : Prop :=
  v = { s with csr := v.csr, mem := (s.setBytes a l).mem, errs := v.errs, wb := v.wb }

theorem State.rowWritten_writeBytes {s t : State} (h : s.countsOnly t) (a : Nat) (l : List Byte) : s.rowWritten (t.writeBytes a l) a l := by
  obtain ⟨h, -⟩ := h
  have hm : ∀ (l : List Byte) (s t : State) (a : Nat), t.mem = s.mem → (t.setBytes a l).mem = (s.setBytes a l).mem := by
    intro l
    induction l with
    | nil => exact fun _ _ _ h => h
    | cons b r ih => exact fun s t a h => ih _ _ _ (by simp only [State.setByte, h])
  have hf := State.setBytes_frame l t a
  unfold State.rowWritten State.writeBytes State.clearErrs
  rw [hf]
  simp only [hm l s t a (by rw [h])]
  rw [h]

theorem State.rowWritten_counts {s v w : State} {a : Nat} {l : List Byte} (h : s.rowWritten v a l) (k : v.countsOnly w) : s.rowWritten w a l := by
  obtain ⟨k, -⟩ := k
  unfold State.rowWritten at *
  rw [k, h]

theorem State.rowWritten_csr {s v w : State} {a : Nat} {l : List Byte} (h : s.rowWritten v a l) (k : w = { v with csr := w.csr }) :
    s.rowWritten w a l := by
  unfold State.rowWritten at *
  rw [k, h]

theorem State.lostRange_ok {s : State} {a n : Nat} (h : s.rangeOk a n = true) : s.lostRange a n = none := if_pos h

/-- The bytes of a row of a transfer reach the destination (R178). -/
theorem State.moveRow_xfer {s : State} (u : Nat) {o : XOp} {op : Nat} (hk : o.kind = .xfer op) (hst : o.stale = []) (ht : s.transit = [])
    (hs : s.rangeOk o.src (shapeOf o.shape).2.1 = true) (hd : s.rangeOk o.dst (shapeOf o.shape).2.1 = true)
    (hu : s.ueIn o.src (shapeOf o.shape).2.1 = none) :
    ∃ v, s.moveRow u o 0 = (none, v) ∧ s.rowWritten v o.dst (s.bytes o.src (shapeOf o.shape).2.1) := by
  have hrow : o.row 0 = (some o.src, o.dst) := by
    unfold XOp.row
    simp [hk]
  rcases hsh : shapeOf o.shape with ⟨rows, len, sp, dp⟩
  rw [hsh] at hs hd hu
  dsimp only at hs hd hu ⊢
  have hct := s.countsOnly_correctRange o.src len
  have htake : (s.correctRange o.src len).takeTransit 2 o.dst len = (none, s.correctRange o.src len) := by
    unfold State.takeTransit
    rw [hct.1]
    dsimp only
    rw [ht]
    rfl
  unfold State.moveRow
  rw [hsh, hrow]
  simp only [Option.bind_some, State.lostRange_ok hs, State.lostRange_ok hd, Option.map_none, Option.or_none, hu, htake]
  have hw := State.rowWritten_counts (State.rowWritten_counts
    (State.rowWritten_writeBytes hct o.dst ((s.view o.stale).bytes o.src len)) (State.countsOnly_moved _ false o.src len))
    (State.countsOnly_moved _ false o.dst len)
  rw [hst] at hw ⊢
  refine ⟨_, rfl, ?_⟩
  split
  · exact State.rowWritten_csr hw rfl
  · exact hw

/-- The pattern of a fill over one row (R178). -/
def fillRow (o : XOp) : List Byte := (List.replicate ((shapeOf o.shape).2.1 / 8) (toBytes 8 o.src)).flatten

theorem State.moveRow_fill {s : State} (u : Nat) {o : XOp} (hk : o.kind = .fill) (hd : s.rangeOk o.dst (shapeOf o.shape).2.1 = true) :
    ∃ v, s.moveRow u o 0 = (none, v) ∧ s.rowWritten v o.dst (fillRow o) := by
  have hrow : o.row 0 = (none, o.dst) := by
    unfold XOp.row
    simp [hk]
  unfold fillRow
  rcases hsh : shapeOf o.shape with ⟨rows, len, sp, dp⟩
  rw [hsh] at hd
  dsimp only at hd ⊢
  unfold State.moveRow
  rw [hsh, hrow]
  simp only [Option.bind_none, State.lostRange_ok hd, Option.map_none, Option.or_none]
  exact ⟨_, rfl, State.rowWritten_counts (State.rowWritten_writeBytes s.countsOnly_refl o.dst _) (State.countsOnly_moved _ false o.dst len)⟩

/-! ### The operation leaves its queue -/

theorem State.xqOf_setXq (s : State) (u : Nat) (l : List XOp) (n : Nat) : (s.setXq u l).xqOf n = if n = u then l else s.xqOf n := by
  unfold State.xqOf State.setXq
  split
  next h => rw [h, Tab.get_set_self]
  next h => exact Tab.get_set_ne _ _ _ h

theorem State.tokDone_frame (s : State) (j t : Nat) (f : Option Fail) :
    ∃ c x, s.tokDone j t f = { s with csr := c, hammer := { s.hammer with tok := x } } := by
  unfold State.tokDone
  split
  · exact ⟨_, _, rfl⟩
  · cases f <;> exact ⟨_, _, rfl⟩

/-- Operation `o` has left queue `u`, which is now `q`; its token has fallen by one. -/
def State.leftQueue (s v : State) (u : Nat) (q : List XOp) (o : XOp) : Prop :=
  v.xqOf u = q ∧ (∀ n, n ≠ u → v.xqOf n = s.xqOf n) ∧ (v.tok o.tok).count = (s.tok o.tok).count - 1 ∧
    (∀ k, k ≠ o.tok → v.tok k = s.tok k) ∧ v.anvils = s.anvils ∧ v.hammer.s = s.hammer.s ∧ v.jobs = s.jobs ∧ v.crucs = s.crucs

/-- An operation of the running job completes once its queue has lost it, whatever was written on the way. -/
theorem State.leftQueue_tokDone {s w : State} {u : Nat} {q : List XOp} {o : XOp} (hr : s.hammer.run = some o.job)
    (hx : w.xq = (s.setXq u q).xq) (ha : w.anvils = s.anvils) (hj : w.jobs = s.jobs) (hc : w.crucs = s.crucs) (hh : w.hammer = s.hammer)
    (f : Option Fail) : s.leftQueue (w.tokDone o.job o.tok f) u q o ∧
      ((w.tokDone o.job o.tok f).tok o.tok).fail = (s.tok o.tok).fail.or f ∧ ∀ a, (w.tokDone o.job o.tok f).byte a = w.byte a := by
  have htok := w.tok_tokDone o.job o.tok f (by rw [hh, hr])
  have hst : ∀ k, w.tok k = s.tok k := fun k => by
    unfold State.tok
    rw [hh]
  obtain ⟨c, x, e⟩ := w.tokDone_frame o.job o.tok f
  generalize w.tokDone o.job o.tok f = v at htok e
  have hq : ∀ n, v.xqOf n = if n = u then q else s.xqOf n := fun n => by
    rw [← State.xqOf_setXq]
    unfold State.xqOf
    rw [e, hx]
  refine ⟨⟨by rw [hq, if_pos rfl], fun n hn => by rw [hq, if_neg hn], ?_, fun k hk => ?_, ?_, ?_, ?_, ?_⟩, ?_, fun a => ?_⟩
  · rw [htok, if_pos rfl, hst]
  · rw [htok, if_neg hk, hst]
  · rw [e, ha]
  · rw [e, hh]
  · rw [e, hj]
  · rw [e, hc]
  · rw [htok, if_pos rfl, hst]
  · rw [e]
    rfl

/-- What completes a transfer behind no fence. -/
theorem execXferComplete_unfenced {s : State} {u idx t : Nat} {o : XOp} (ho : (s.xqOf u)[idx]? = some o) (hf : o.isFence = false)
    (hq : ((s.xqOf u).take idx).any XOp.isFence = false) :
    let X := (s.at t).setXq u ((s.xqOf u).eraseIdx idx)
    exec (.xferComplete u idx t) s = .next (
      if o.refused then X.tokDone o.job o.tok (some (Fail.of cX_ADDR 0 0 (locRefused (X.xferBad o))))
      else (X.moveRows u o (List.range (shapeOf o.shape).1)).2.tokDone o.job o.tok (X.moveRows u o (List.range (shapeOf o.shape).1)).1) := by
  intro X
  show execXferComplete u idx t s = _
  unfold execXferComplete
  dsimp only
  rw [ho]
  dsimp only
  rw [hf, hq, if_neg (by decide)]
  split <;> rfl

theorem State.moveRows_one {s v : State} {u : Nat} {o : XOp} (h : s.moveRow u o 0 = (none, v)) :
    s.moveRows u o (List.range 1) = (none, v) := by
  show s.moveRows u o [0] = _
  unfold State.moveRows
  rw [h]
  rfl

/-- The queue of the exchange unit, at the instant `t`, has lost the operation. -/
theorem State.setXq_at (s : State) (t u : Nat) (q : List XOp) :
    ∃ m c, (s.at t).setXq u q = { s.setXq u q with now := max s.now t, mclk := m, core := c } := by
  obtain ⟨m, c, h⟩ := s.at_eq t
  exact ⟨m, c, by rw [h]; rfl⟩

/-- A transfer of one row completes with the bytes of the row. -/
theorem transfer_completes {s : State} {u idx t : Nat} {o : XOp} {l : List Byte} (ho : (s.xqOf u)[idx]? = some o) (hf : o.isFence = false)
    (hq : ((s.xqOf u).take idx).any XOp.isFence = false) (hr : s.hammer.run = some o.job) (hn : o.refused = false)
    (h1 : (shapeOf o.shape).1 = 1) (hl : l.length ≤ 2 ^ 40)
    (hm : ∃ v, ((s.at t).setXq u ((s.xqOf u).eraseIdx idx)).moveRow u o 0 = (none, v) ∧
      ((s.at t).setXq u ((s.xqOf u).eraseIdx idx)).rowWritten v o.dst l) :
    ∃ v, exec (.xferComplete u idx t) s = .next v ∧ s.leftQueue v u ((s.xqOf u).eraseIdx idx) o ∧
      (v.tok o.tok).fail = (s.tok o.tok).fail ∧ (∀ i, (h : i < l.length) → v.byte (o.dst + i) = l[i]) ∧
      ∀ a, (∀ i, i < l.length → phys a ≠ phys (o.dst + i)) → v.byte a = s.byte a := by
  obtain ⟨w, hw, hb⟩ := hm
  have hx := execXferComplete_unfenced (t := t) ho hf hq
  dsimp only at hx
  rw [hn, h1, State.moveRows_one hw, if_neg (by decide)] at hx
  obtain ⟨m, c, hX⟩ := s.setXq_at t u ((s.xqOf u).eraseIdx idx)
  rw [hX] at hb
  have hbyte : ∀ a, w.byte a = (State.setBytes { s.setXq u ((s.xqOf u).eraseIdx idx) with now := max s.now t, mclk := m, core := c } o.dst l).byte a :=
    fun a => by rw [hb]; rfl
  obtain ⟨hd, hfail, hv⟩ := State.leftQueue_tokDone (w := w) hr (q := (s.xqOf u).eraseIdx idx) (by rw [hb]) (by rw [hb]; rfl) (by rw [hb]; rfl)
    (by rw [hb]; rfl) (by rw [hb]; rfl) none
  refine ⟨_, hx, hd, by rw [hfail, Option.or_none], fun i hi => ?_, fun a ha => ?_⟩
  · rw [hv, hbyte]
    exact State.byte_setBytes_in l _ o.dst hl i hi
  · rw [hv, hbyte, State.byte_setBytes_ne l _ o.dst a ha]
    rfl

/-- The fence at the head of its queue completes where the stacks have no Crucible command (R181). -/
theorem fence_completes {s : State} {u : Nat} {o : XOp} {q : List XOp} {c : Bool} (hq : s.xqOf u = o :: q) (hk : o.kind = .fence c)
    (hr : s.hammer.run = some o.job) (hc : c = true → (s.cruc (2 * u)).live = [] ∧ (s.cruc (2 * u + 1)).live = []) :
    ∃ v, exec (.xfenceComplete u) s = .next v ∧ s.leftQueue v u q o ∧ (v.tok o.tok).fail = (s.tok o.tok).fail ∧
      ∀ a, v.byte a = s.byte a := by
  have hx : exec (.xfenceComplete u) s =
      .next ((((s.setXq u q).crucStat (2 * u)).crucStat (2 * u + 1)).tokDone o.job o.tok none) := by
    show execXfenceComplete u s = _
    unfold execXfenceComplete
    rw [hq]
    dsimp only
    rw [hk]
    dsimp only
    refine if_neg ?_
    cases c with
    | false => simp
    | true =>
      obtain ⟨h1, h2⟩ := hc rfl
      simp [h1, h2]
  have hw := State.csrOnly_trans ((s.setXq u q).csrOnly_crucStat (2 * u)) (((s.setXq u q).crucStat (2 * u)).csrOnly_crucStat (2 * u + 1))
  generalize ((s.setXq u q).crucStat (2 * u)).crucStat (2 * u + 1) = w at hx hw
  unfold State.csrOnly at hw
  obtain ⟨hd, hfail, hv⟩ := State.leftQueue_tokDone (w := w) hr (q := q) (by rw [hw]) (by rw [hw, State.setXq_anvils])
    (by rw [hw, State.setXq_jobs]) (by rw [hw, State.setXq_crucs]) (by rw [hw, State.setXq_hammer]) none
  refine ⟨_, hx, hd, by rw [hfail, Option.or_none], fun a => ?_⟩
  rw [hv]
  unfold State.byte
  rw [hw, State.setXq_mem]

/-- A transfer refused at admission moves nothing, and its token fails (R178). -/
theorem refused_completes {s : State} {u idx t : Nat} {o : XOp} (ho : (s.xqOf u)[idx]? = some o) (hf : o.isFence = false)
    (hq : ((s.xqOf u).take idx).any XOp.isFence = false) (hr : s.hammer.run = some o.job) (hn : o.refused = true) :
    ∃ v, exec (.xferComplete u idx t) s = .next v ∧ s.leftQueue v u ((s.xqOf u).eraseIdx idx) o ∧ (∀ a, v.byte a = s.byte a) ∧
      ((s.tok o.tok).fail = none → ∃ f, (v.tok o.tok).fail = some f ∧ f.cause = 0x20) := by
  have hx := execXferComplete_unfenced (t := t) ho hf hq
  dsimp only at hx
  rw [hn, if_pos rfl] at hx
  obtain ⟨m, c, hX⟩ := s.setXq_at t u ((s.xqOf u).eraseIdx idx)
  generalize (s.at t).setXq u ((s.xqOf u).eraseIdx idx) = w at hx hX
  obtain ⟨hd, hfail, hv⟩ := State.leftQueue_tokDone (w := w) hr (q := (s.xqOf u).eraseIdx idx) (by rw [hX]) (by rw [hX]; rfl) (by rw [hX]; rfl)
    (by rw [hX]; rfl) (by rw [hX]; rfl) (some (Fail.of cX_ADDR 0 0 (locRefused (w.xferBad o))))
  refine ⟨_, hx, hd, fun a => ?_, fun h => ⟨_, by rw [hfail, h]; rfl, rfl⟩⟩
  rw [hv, hX]
  rfl

theorem shapeOf_len (w : Word) : ∃ k, (shapeOf w).2.1 = 8 * k ∧ (shapeOf w).2.1 ≤ 2 ^ 40 := by
  have h : (shapeOf w).2.1 = (w.toNat / 2 ^ 16 % 2 ^ 16 + 1) * 128 := rfl
  exact ⟨(w.toNat / 2 ^ 16 % 2 ^ 16 + 1) * 16, by omega, by omega⟩

theorem fillRow_length (o : XOp) : (fillRow o).length = (shapeOf o.shape).2.1 := by
  obtain ⟨k, hk, -⟩ := shapeOf_len o.shape
  unfold fillRow
  rw [hk]
  simp [toBytes_length]
  omega

/-- A repeated list has its period. -/
theorem getElem?_flatten_replicate {α : Type} (l : List α) (n i : Nat) (h : i < n * l.length) :
    (List.replicate n l).flatten[i]? = l[i % l.length]? := by
  induction n generalizing i with
  | zero => omega
  | succ n ih =>
    rw [List.replicate_succ, List.flatten_cons, List.getElem?_append]
    split
    next hi => rw [Nat.mod_eq_of_lt hi]
    next hi =>
      rw [Nat.mod_eq_sub_mod (by omega)]
      exact ih _ (by rw [Nat.succ_mul] at h; omega)

theorem fillRow_getElem (o : XOp) (i : Nat) (h : i < (fillRow o).length) : (fillRow o)[i] = BitVec.ofNat 8 (o.src / 2 ^ (8 * (i % 8))) := by
  obtain ⟨k, hk, -⟩ := shapeOf_len o.shape
  have hi : i < 8 * k := by rwa [fillRow_length, hk] at h
  have hp := getElem?_flatten_replicate (toBytes 8 o.src) ((shapeOf o.shape).2.1 / 8) i (by rw [toBytes_length, hk]; omega)
  refine Option.some.inj ((List.getElem?_eq_getElem h).symm.trans (Eq.trans hp ?_))
  rw [toBytes_length, List.getElem?_eq_getElem (by rw [toBytes_length]; omega)]
  simp [toBytes]

/-- Settles O22: transfers by `transfer_completes` on the bytes of the source and of the pattern, the fence and the refusal by their
completions. -/
theorem exchangeCompletes : Obligations.ExchangeCompletes := by
  unfold Obligations.ExchangeCompletes
  refine ⟨fun s u idx t o ho hq hr => ?_, fun s u o q c hq hk hr hc => ?_⟩
  · intro len v0 done
    refine ⟨fun op hk hn h1 hst ht hs hd hu hal => ?_, fun hk hn h1 hd hal => ?_, fun hf hn => refused_completes ho hf hq hr hn⟩
    · obtain ⟨-, -, hlen⟩ := shapeOf_len o.shape
      have hf : o.isFence = false := by
        unfold XOp.isFence
        rw [hk]
      obtain ⟨m, c, hX⟩ := s.setXq_at t u ((s.xqOf u).eraseIdx idx)
      have hL : (((s.at t).setXq u ((s.xqOf u).eraseIdx idx)).bytes o.src len).length = len := by simp [State.bytes]
      obtain ⟨v, hx, hd', hfail, hin, hout⟩ := transfer_completes (t := t) ho hf hq hr hn h1 (by rw [hL]; exact hlen)
        (State.moveRow_xfer u hk hst (by rw [hX]; exact ht) hs hd hu)
      refine ⟨v, hx, hd', hfail, fun i hi => ?_, fun a ha => hout a (fun i hi => ha i (by rwa [hL] at hi))⟩
      rw [hin i (by rw [hL]; exact hi)]
      simp only [State.bytes, List.getElem_map, List.getElem_range, hX]
      rfl
    · obtain ⟨-, -, hlen⟩ := shapeOf_len o.shape
      have hf : o.isFence = false := by
        unfold XOp.isFence
        rw [hk]
      have hL := fillRow_length o
      obtain ⟨v, hx, hd', hfail, hin, hout⟩ := transfer_completes (t := t) ho hf hq hr hn h1 (by rw [hL]; exact hlen)
        (State.moveRow_fill u hk hd)
      refine ⟨v, hx, hd', hfail, fun i hi => ?_, fun a ha => hout a (fun i hi => ha i (by rwa [hL] at hi))⟩
      rw [hin i (by rw [hL]; exact hi), fillRow_getElem]
  · obtain ⟨v, hx, ⟨h1, h2, h3, h4, h5, h6, h7, h8⟩, hf, hb⟩ := fence_completes hq hk hr hc
    exact ⟨v, hx, h1, h2, h3, hf, h4, h8, h5, h6, hb⟩

end Sys2Proof.Machine
end

