-- ==== Sys2Proof/Proofs/CommandStreams.lean ====
section
/-! SUPPORT. A command on an open, cached stream on which nothing else waits: it is taken, processed and answered (R370, R378, R379, R381). -/

namespace Sys2Proof.Machine

/-- From `u` to `v` the context of stream `n` alone changed. -/
structure State.streamOnly (u v : State) (n : Nat) : Prop where
  rest : v = { u with tongs := { u.tongs with ctx := v.tongs.ctx } }
  others : ∀ m, m ≠ n → v.ctx m = u.ctx m

theorem State.streamOnly_setCtx (u : State) (n : Nat) (c : Ctx) : u.streamOnly (u.setCtx n c) n :=
  ⟨rfl, fun m hm => by rw [State.ctx_setCtx, if_neg hm]⟩

theorem State.streamOnly_trans {u v w : State} {n : Nat} (h : u.streamOnly v n) (k : v.streamOnly w n) : u.streamOnly w n :=
  ⟨by rw [k.rest, h.rest], fun m hm => (k.others m hm).trans (h.others m hm)⟩

section
variable {u v : State} {n : Nat} (h : u.streamOnly v n)
include h

theorem State.streamOnly_anvils : v.anvils = u.anvils := by rw [h.rest]
theorem State.streamOnly_hammer : v.hammer = u.hammer := by rw [h.rest]
theorem State.streamOnly_crucs : v.crucs = u.crucs := by rw [h.rest]
theorem State.streamOnly_mem : v.mem = u.mem := by rw [h.rest]
theorem State.streamOnly_images : v.tongs.images = u.tongs.images := by rw [h.rest]
theorem State.streamOnly_jobs : v.jobs = u.jobs := by rw [h.rest]

theorem State.streamOnly_rd (a : Nat) : v.rd a = u.rd a := by
  unfold State.rd
  rw [h.rest]

theorem State.streamOnly_byte (a : Nat) : v.byte a = u.byte a := by
  unfold State.byte
  rw [h.rest]

theorem State.streamOnly_job (k : Nat) : v.job k = u.job k := by
  unfold State.job
  rw [h.rest]

theorem State.streamOnly_image (k : Nat) : v.image k = u.image k := by
  unfold State.image
  rw [h.rest]

theorem State.streamOnly_recOf (k : Nat) : v.recOf k = u.recOf k := by
  unfold State.recOf
  rw [h.rest]

theorem State.streamOnly_waitingOn (m : Nat) : v.waitingOn m = u.waitingOn m := by
  unfold State.waitingOn
  rw [h.rest]

end

/-! ### The answer -/

/-- The message that answers a command is queued on the stream. -/
def Ctx.answers (c : Ctx) (ctype status ctag result : Nat) : Prop :=
  ∃ m ∈ c.txq, m.opc = 7 ∧ m.resp = true ∧ m.data = cmdResponse ctype status 0 ctag result 0

/-- An open stream is answered, and nothing but its context changes. -/
theorem State.respond_open (u : State) (n ctype status ctag result : Nat) (ho : (u.ctx n).tstate = 3) (hn : n < 65536) :
    u.streamOnly (u.respond n ctype status 0 ctag result 0) n ∧
      ((u.respond n ctype status 0 ctag result 0).ctx n).answers ctype status ctag result ∧
      ((u.respond n ctype status 0 ctag result 0).ctx n).inbox = (u.ctx n).inbox := by
  obtain ⟨r, b, hq⟩ := u.queueMsg_open n 7 true (cmdResponse ctype status 0 ctag result 0) none ho
  unfold State.respond
  rw [hq]
  generalize hm : (⟨7, true, cmdResponse ctype status 0 ctag result 0, none, 0, u.now, none, none⟩ : OutMsg) = m
  generalize hc : ({ u.ctx n with txq := (u.ctx n).txq ++ [m], crstate := r, blockedAt := b } : Ctx) = c
  generalize hd : ({ c with busy := c.busy - 1, resv := c.resv - cmdNeed ctype, ownclim := seqAdd c.ownclim 1 } : Ctx) = d
  have hdq : d.txq = (u.ctx n).txq ++ [m] ∧ d.inbox = (u.ctx n).inbox := by
    rw [← hd, ← hc]
    exact ⟨rfl, rfl⟩
  have hdone : (u.setCtx n c).cmdDone n (cmdNeed ctype) = (u.setCtx n c).setCtx n d := by
    unfold State.cmdDone
    rw [State.ctx_setCtx, if_pos rfl]
    dsimp only
    rw [if_neg (by omega), hd]
    unfold State.unpin
    refine if_pos ?_
    rw [State.ctx_setCtx, if_pos rfl]
    unfold Ctx.mustPin
    rw [hdq.1, List.any_append]
    simp [← hm]
  rw [hdone]
  refine ⟨State.streamOnly_trans (u.streamOnly_setCtx n c) ((u.setCtx n c).streamOnly_setCtx n d), ?_, ?_⟩
  · rw [State.ctx_setCtx, if_pos rfl]
    exact ⟨m, by rw [hdq.1]; simp, by rw [← hm], by rw [← hm], by rw [← hm]⟩
  · rw [State.ctx_setCtx, if_pos rfl]
    exact hdq.2

/-- A stream on which nothing waits has settled. -/
theorem State.settle_quiet {u : State} {n : Nat} (h0 : u.waitingOn n = 0) (hi : (u.ctx n).inbox = []) : u.settle n = u := by
  unfold State.settle
  rw [h0]
  unfold State.settleGo State.answerBad
  rw [hi]

/-! ### The command taken -/

/-- A command can be taken from stream `n` at once (R370, R378, R379). -/
structure State.ready (u : State) (n ctype len : Nat) (msg : List Byte) : Prop where
  length : msg.length = len
  ctype : leAt msg 0 1 = ctype
  zero : leAt msg 1 3 = 0
  inbox : (u.ctx n).inbox = []
  typ : (u.ctx n).typ = 1
  open_ : (u.ctx n).tstate = 3
  low : n < 65536
  present : u.present n = true
  cached : u.cached n = true
  waiting : u.waitingOn n = 0
  pins : u.tongs.pinned.length < 3072
  pinWait : u.tongs.pinWait = []
  active : u.active = true
  room : u.respUsed (portOf (u.ctx n).ifc) + 24 ≤ 2 * 2 ^ 20

/-- From `u` to `v` a command of stream `n` was taken. -/
structure State.took (u v : State) (n : Nat) : Prop where
  rest : v = { u with csr := v.csr, tongs := { u.tongs with
    ctx := v.tongs.ctx, cache := v.tongs.cache, pinned := v.tongs.pinned, pinWait := v.tongs.pinWait } }
  regs : ∀ a, a ≠ TONGS_CACHESTAT → v.rd a = u.rd a
  others : ∀ m, m ≠ n → v.ctx m = u.ctx m
  inbox : (v.ctx n).inbox = []
  open_ : (v.ctx n).tstate = 3

theorem State.csrOnly_cacheStat (u : State) : u.csrOnly u.cacheStat :=
  State.csrOnly_trans (State.csrOnly_put _ _ _) (State.csrOnly_trans (State.csrOnly_put _ _ _) (State.csrOnly_put _ _ _))

theorem State.rd_cacheStat (u : State) {a : Nat} (ha : a ≠ TONGS_CACHESTAT) : u.cacheStat.rd a = u.rd a := by
  unfold State.cacheStat
  rw [State.rd_put_ne _ _ _ ha, State.rd_put_ne _ _ _ ha, State.rd_put_ne _ _ _ ha]

/-- A pin is granted where it may be (R370). -/
theorem State.pin_free {u : State} (n : Nat) (hp : u.tongs.pinned.length < 3072) (hw : u.tongs.pinWait = []) :
    ∃ v, u.pin n = (true, v) ∧ v = { u with csr := v.csr, tongs := { u.tongs with pinned := v.tongs.pinned, pinWait := v.tongs.pinWait } } ∧
      ∀ a, a ≠ TONGS_CACHESTAT → v.rd a = u.rd a := by
  unfold State.pin
  split
  · exact ⟨u, rfl, rfl, fun _ _ => rfl⟩
  · rw [if_pos (by simp [State.mayPin, hp, hw])]
    refine ⟨_, rfl, ?_⟩
    generalize hx : ({ u with tongs := { u.tongs with pinned := u.tongs.pinned ++ [n], pinWait := u.tongs.pinWait.filter (· != n) } } : State) = x
    have hc : x.cacheStat = { x with csr := x.cacheStat.csr } := x.csrOnly_cacheStat
    have hr : ∀ a, a ≠ TONGS_CACHESTAT → x.cacheStat.rd a = x.rd a := fun a ha => x.rd_cacheStat ha
    generalize x.cacheStat = v at hc hr
    refine ⟨by rw [hc, ← hx], fun a ha => ?_⟩
    rw [hr a ha, ← hx]
    rfl

/-- A stream's use reorders the cache alone. -/
theorem State.touch_eq (u : State) (n : Nat) : ∃ l, u.touch n = { u with tongs := { u.tongs with cache := l } } := by
  unfold State.touch
  split
  · exact ⟨u.tongs.cache, rfl⟩
  · exact ⟨_, rfl⟩

theorem State.takeMsg_ready {u : State} {n ctype len : Nat} {msg : List Byte} (h : u.ready n ctype len msg) :
    ∃ v, u.takeMsg n 7 msg 24 = (true, v) ∧ u.took v n := by
  obtain ⟨x, hp, hx, hxr⟩ := State.pin_free n h.pins h.pinWait
  obtain ⟨l, ht⟩ := x.touch_eq n
  have hno : ¬ (n ≥ 65536 ∨ (u.ctx n).typ ≠ 1 ∨ (u.ctx n).tstate ≠ 3 ∨ u.present n = false ∨ u.cached n = false ∨
      u.respUsed (portOf (u.ctx n).ifc) + 24 > 2 * 2 ^ 20) := by
    have := h.low
    have := h.room
    simp [h.typ, h.open_, h.present, h.cached]
    omega
  unfold State.takeMsg
  dsimp only
  rw [h.inbox]
  dsimp only
  rw [if_neg hno, hp]
  dsimp only
  rw [ht]
  refine ⟨_, rfl, ?_, fun a ha => ?_, fun m hm => ?_, ?_, ?_⟩
  · rw [hx]
    rfl
  · rw [← hxr a ha]
    rfl
  · rw [State.ctx_setCtx, if_neg hm]
    unfold State.ctx
    rw [hx]
  · rw [State.ctx_setCtx, if_pos rfl]
  · rw [State.ctx_setCtx, if_pos rfl]
    exact h.open_

/-- A command that is ready reaches its processing, and the stream settles after it. -/
theorem State.command_ready {s : State} {n ctype len t : Nat} {msg : List Byte} (h : (s.at t).ready n ctype len msg) (hl : 8 ≤ len)
    (hc : ctype ≠ 10) (f : Nat → State → State) :
    ∃ v, s.command n ctype len msg t f = .next ((f (leAt msg 4 4) v).settle n) ∧ (s.at t).took v n := by
  obtain ⟨v, hv, htk⟩ := State.takeMsg_ready h
  have hact : v.active = true := by
    have hg : v.get BELLOWS_PWRSTAT_STATE = (s.at t).get BELLOWS_PWRSTAT_STATE := State.get_of_rd (htk.regs _ (by decide))
    unfold State.active
    rw [hg]
    exact h.active
  refine ⟨v, ?_, htk⟩
  have hlen := h.length
  have hz := h.zero
  have hneed : cmdNeed ctype = 24 := if_neg hc
  unfold State.command
  dsimp only
  rw [if_neg (by rw [h.ctype]; omega), hneed, hv]
  dsimp only
  rw [hact, if_neg (by simp), if_neg (by omega)]

end Sys2Proof.Machine
end

