-- ==== Sys2Proof/Proofs/JobCommands.lean ====
section
/-! JobCommands (O32). Jobs and images commanded by the host (R140, R378, R380-R383, R387, R388, R390). -/

namespace Sys2Proof.Machine

/-! ### What every command keeps -/

/-- Anvils, Hammer, Crucibles and the other streams are as they were. -/
def State.keptBut (s v : State) (n : Nat) : Prop :=
  v.anvils = s.anvils ∧ v.hammer = s.hammer ∧ v.crucs = s.crucs ∧ ∀ m, m ≠ n → v.ctx m = s.ctx m

/-- A command processed into `x` and answered: stream `n` has its answer, and what `x` keeps stays. -/
theorem State.closes {x : State} {n : Nat} (ho : (x.ctx n).tstate = 3) (hi : (x.ctx n).inbox = []) (h0 : x.waitingOn n = 0) (hn : n < 65536)
    (ctype status ctag result : Nat) : ∃ v, (x.respond n ctype status 0 ctag result 0).settle n = v ∧ x.streamOnly v n ∧
      (v.ctx n).answers ctype status ctag result := by
  obtain ⟨h1, h2, h3⟩ := x.respond_open n ctype status ctag result ho hn
  exact ⟨_, State.settle_quiet ((State.streamOnly_waitingOn h1 n).trans h0) (h3.trans hi), h1, h2⟩

section
variable {s w : State} {t n : Nat} (h : (s.at t).took w n)
include h

theorem State.took_kept : s.keptBut w n := by
  obtain ⟨m, c, e⟩ := s.at_eq t
  refine ⟨?_, ?_, ?_, fun k hk => ?_⟩
  · rw [h.rest, e]
  · rw [h.rest, e]
  · rw [h.rest, e]
  · rw [h.others k hk, e]
    rfl

theorem State.took_rd {a : Nat} (ha : a ≠ TONGS_CACHESTAT) : w.rd a = s.rd a := by
  rw [h.regs a ha, State.rd_at]

theorem State.took_job (k : Nat) : w.job k = s.job k := by
  unfold State.job
  rw [h.rest]
  exact congrArg (fun l => Tab.get (fun _ => none) l k) (State.jobs_at s t)

theorem State.took_jobs : w.jobs = s.jobs := by
  rw [h.rest]
  exact State.jobs_at s t

theorem State.took_mem : w.mem = s.mem := by
  rw [h.rest]
  exact State.mem_at s t

theorem State.took_images : w.tongs.images = s.tongs.images := by
  rw [h.rest]
  show (s.at t).tongs.images = s.tongs.images
  rw [State.tongs_at]

theorem State.took_byte (a : Nat) : w.byte a = s.byte a := by
  unfold State.byte
  rw [h.rest]
  exact congrArg (fun l => Tab.get memDefault l (phys a)) (State.mem_at s t)

theorem State.took_image (k : Nat) : w.image k = (s.at t).image k := by
  unfold State.image
  rw [h.rest]

theorem State.took_waitingOn (k : Nat) : w.waitingOn k = (s.at t).waitingOn k := by
  unfold State.waitingOn
  rw [h.rest]

end

/-! ### A job cancelled that runs past its time -/

/-- The end of issue at instant `t`, with nothing in flight, changes Hammer and its run bit alone (R151). -/
theorem State.stopJob_at {s : State} (t : Nat) (f : Fail) (hF : s.hammer.faults = []) (hf : s.hammer.flight = []) :
    let v := (s.at t).stopJob (some f)
    v.hammer.ending = some (some f) ∧ v.hammer.stall = none ∧ v.hammer.run = s.hammer.run ∧ v.hammer.s = s.hammer.s ∧ v.mem = s.mem ∧
      v.anvils = s.anvils ∧ v.jobs = s.jobs ∧ v.get HAMMER_PCSTAT_RUN = 0 ∧ ∀ a, a ≠ HAMMER_PCSTAT → v.rd a = s.rd a := by
  intro v
  have hh := s.hammer_at t
  obtain ⟨X, hv, hX⟩ : ∃ X : State, v = X.put HAMMER_PCSTAT_RUN 0 ∧ X = { s.at t with hammer := { s.hammer with
      cur := Open.none, open_ := false, stall := none, marker := none, redirs := [], faults := [], ending := some (some f) } } := by
    refine ⟨_, State.stopJob_clean _ _ (by rw [hh, hf]) (by rw [hh, hF]), ?_⟩
    rw [State.onHammer, hh]
  have hrd : ∀ a, X.rd a = s.rd a := fun a => by
    rw [hX, ← State.rd_at s t]
    rfl
  rw [hv]
  refine ⟨?_, ?_, ?_, ?_, ?_, ?_, ?_, X.get_put_self HAMMER_PCSTAT_RUN 0 (by decide) (by decide), fun a ha => by rw [State.rd_put_ne _ _ _ ha, hrd]⟩
  · rw [State.put_hammer, hX]
  · rw [State.put_hammer, hX]
  · rw [State.put_hammer, hX]
  · rw [State.put_hammer, hX]
  · rw [State.put_mem, hX]
    exact State.mem_at s t
  · rw [State.put_anvils, hX]
    exact State.anvils_at s t
  · rw [State.put_jobs, hX]
    exact State.jobs_at s t

theorem cancelTimeout_stops {s : State} {t id : Nat} {j : Job} {x : Nat × Nat × Nat} {r : List (Nat × Nat × Nat)} (hr : s.hammer.run = some id)
    (hj : s.job id = some j) (hc : j.cancel = x :: r) (he : s.hammer.ending = none) (hF : s.hammer.faults = []) (hf : s.hammer.flight = [])
    (hq : s.tongs.nq = []) (ht : (s.at t).now ≥ x.1 + (s.at t).get TONGS_JOBCFG_CTMO * 1000000) :
    exec (.cancelTimeout t) s = .next ((s.at t).stopJob (some (Fail.of cCANCELLED 0 0 0))) := by
  have hh := s.hammer_at t
  have hw : ∀ k, ((s.at t).stopJob (some (Fail.of cCANCELLED 0 0 0))).withdrawNops k = (s.at t).stopJob (some (Fail.of cCANCELLED 0 0 0)) := fun k => by
    rw [State.stopJob_clean _ _ (by rw [hh, hf]) (by rw [hh, hF])]
    unfold State.withdrawNops
    rw [State.put_tongs, State.onHammer_tongs, State.tongs_at, hq]
    rfl
  have hja : (s.at t).job id = some j := by
    unfold State.job
    rw [State.jobs_at]
    exact hj
  show execCancelTimeout t s = _
  unfold execCancelTimeout
  dsimp only
  rw [hh, hr]
  dsimp only
  rw [hja, Option.bind_some, hc, List.head?_cons]
  dsimp only
  rw [if_neg (by unfold ms; omega), he, if_neg (by decide), hw]

/-! ### Images -/

theorem State.image_unloadImage (u : State) (base k : Nat) :
    (u.unloadImage base).image k = if k = base then none else u.image k := by
  unfold State.image State.unloadImage
  dsimp only
  rw [List.find?_filter]
  split
  next h =>
    rw [h]
    exact List.find?_eq_none.mpr (fun i _ => by simp)
  next h =>
    refine congrFun (congrArg _ (funext fun i => ?_)) _
    by_cases hi : i.base = k
    · simp [hi, h]
    · simp [hi]

theorem Tab.get_filter_out {α : Type} (d : Nat → α) (t : Tab α) (p : Nat × α → Bool) (k : Nat) (h : ∀ x, p (k, x) = false) :
    Tab.get d (t.filter p) k = d k := by
  induction t with
  | nil => rfl
  | cons e r ih =>
    obtain ⟨k', v⟩ := e
    rw [List.filter_cons]
    split
    next hp =>
      have hne : k' ≠ k := fun hk => by rw [hk, h] at hp; exact absurd hp (by decide)
      exact (if_neg hne).trans ih
    next => exact ih

/-- The records of an image unloaded are gone (R220). -/
theorem State.recOf_unloadImage (u : State) (base h k : Nat) (hh : h < 4096) (hk : k < 4) :
    (u.unloadImage base).recOf (recKey base h k) = Rec.none :=
  Tab.get_filter_out _ _ _ _ (fun _ => by
    simp only [Bool.or_eq_false_iff, decide_eq_false_iff_not]
    unfold recKey
    omega)

theorem imageUnload_body (n : Nat) (msg : List Byte) (t : Nat) (s : State) : ∃ f, exec (.imageUnload n msg t) s = s.command n 4 16 msg t f ∧
    ∀ ctag (w : State) i, leAt msg 12 4 = 0 → w.image (leAt msg 8 4) = some i → w.imageBusy (leAt msg 8 4) = false →
      f ctag w = (w.unloadImage (leAt msg 8 4)).respond n 4 0 0 ctag 0 0 := by
  have hx : exec (.imageUnload n msg t) s = execImageUnload n msg t s := rfl
  rw [hx]
  unfold execImageUnload
  refine ⟨_, rfl, fun ctag w i h0 hi hb => ?_⟩
  dsimp only
  rw [h0, hi, hb]
  rfl

theorem State.imageBusy_took {s w : State} {t n : Nat} (h : (s.at t).took w n) (k : Nat) : w.imageBusy k = (s.at t).imageBusy k := by
  unfold State.imageBusy State.jobList
  rw [h.rest]

/-- An image that no job uses is removed, with its records (R220, R380). -/
theorem imageUnload_removes {s : State} {n t : Nat} {msg : List Byte} {i : Img} (hr : (s.at t).ready n 4 16 msg) (h0 : leAt msg 12 4 = 0)
    (hi : (s.at t).image (leAt msg 8 4) = some i) (hb : (s.at t).imageBusy (leAt msg 8 4) = false) :
    s.runs (.imageUnload n msg t) (fun v => s.keptBut v n ∧ (v.ctx n).answers 4 0 (leAt msg 4 4) 0 ∧ v.image (leAt msg 8 4) = none ∧
      (∀ k, k ≠ leAt msg 8 4 → v.image k = s.image k) ∧ v.mem = s.mem ∧ v.jobs = s.jobs ∧
      ∀ h k, h < 4096 → k < 4 → v.recOf (recKey (leAt msg 8 4) h k) = Rec.none) := by
  obtain ⟨f, hx, hf⟩ := imageUnload_body n msg t s
  obtain ⟨w, hw, tk⟩ := State.command_ready hr (by decide) (by decide) f
  rw [hw, hf _ w i h0 (by rw [State.took_image tk, hi]) (by rw [State.imageBusy_took tk, hb])] at hx
  obtain ⟨v, hv, hvs, hva⟩ := State.closes (x := w.unloadImage (leAt msg 8 4)) (n := n) tk.open_ tk.inbox
    ((State.took_waitingOn tk n).trans hr.waiting) hr.low 4 0 (leAt msg 4 4) 0
  rw [hv] at hx
  obtain ⟨k1, k2, k3, k4⟩ := State.took_kept tk
  refine ⟨v, hx, ⟨(State.streamOnly_anvils hvs).trans k1, (State.streamOnly_hammer hvs).trans k2, (State.streamOnly_crucs hvs).trans k3,
    fun m hm => (hvs.others m hm).trans (k4 m hm)⟩, hva, ?_, fun k hk => ?_, (State.streamOnly_mem hvs).trans (show w.mem = s.mem from State.took_mem tk),
    (State.streamOnly_jobs hvs).trans (show w.jobs = s.jobs from State.took_jobs tk), fun h k hh hk => ?_⟩
  · rw [State.streamOnly_image hvs, State.image_unloadImage, if_pos rfl]
  · rw [State.streamOnly_image hvs, State.image_unloadImage, if_neg hk, State.took_image tk]
    unfold State.image
    rw [State.tongs_at]
  · rw [State.streamOnly_recOf hvs, State.recOf_unloadImage _ _ _ _ hh hk]

/-- The last of the checks of an image. -/
theorem State.imageCheck_heats {u : State} {base : Nat} (h : u.imageCheck base = (0, none)) :
    (List.range (u.imageOf (hammerBase + 64 * base) base).heatCount).all (u.heatOk (u.imageOf (hammerBase + 64 * base) base)) = true := by
  have hne : ∀ {k : Nat} {o : Option Nat}, k ≠ 0 → (k, o) = (0, none) → False := fun hk he => hk (congrArg Prod.fst he)
  unfold State.imageCheck at h
  by_cases hA : 64 * base + 128 > 2 ^ 23
  · rw [if_pos hA] at h
    exact (hne (by decide) h).elim
  rw [if_neg hA] at h
  cases hu : u.ueIn (hammerBase + 64 * base) 128 with
  | some k => simp [hu] at h
  | none =>
    cases he : u.imageHeader (hammerBase + 64 * base) base with
    | succ e => simp [hu, he] at h
    | zero =>
      simp only [hu, he] at h
      split at h
      · exact (hne (by decide) h).elim
      split at h
      · exact (hne (by decide) h).elim
      split at h
      · exact (hne (by decide) h).elim
      split at h
      · exact (hne (by decide) h).elim
      next hk => exact (Bool.not_eq_false _).mp hk
/-- The heats of an image that passes have four variants at most (R218). -/
theorem State.vcount_le_four {u : State} {base : Nat} (h : u.imageCheck base = (0, none)) {k : Nat}
    (hk : k < (u.imageOf (hammerBase + 64 * base) base).heatCount) :
    (u.heatEntry (u.imageOf (hammerBase + 64 * base) base) k).vcount ≤ 4 := by
  have hh := List.all_eq_true.mp (State.imageCheck_heats h) k (List.mem_range.mpr hk)
  unfold State.heatOk at hh
  simp only [Bool.and_eq_true, decide_eq_true_eq, Nat.add_zero] at hh
  obtain ⟨⟨⟨⟨-, hv⟩, -⟩, -⟩, -⟩ := hh
  exact hv

theorem recKey_inj {b h h' k k' : Nat} (hk : k < 4) (hk' : k' < 4)
    (e : recKey b h k = recKey b h' k') : h = h' ∧ k = k' := by
  unfold recKey at e
  omega

theorem State.recOf_setRec (u : State) (k : Nat) (r : Rec) (m : Nat) : (u.setRec k r).recOf m = if m = k then r else u.recOf m :=
  Tab.get_set _ _ _ _ _

/-- Records put in a row. -/
def State.setRecs (u : State) (l : List (Nat × Rec)) : State := l.foldl (fun s p => s.setRec p.1 p.2) u

/-- Where one value stands for a key, its record is that value. -/
theorem State.recOf_setRecs (l : List (Nat × Rec)) (k : Nat) (r : Rec) (hl : ∀ p ∈ l, p.1 = k → p.2 = r) (u : State)
    (h : u.recOf k = r ∨ ∃ p ∈ l, p.1 = k) : (u.setRecs l).recOf k = r := by
  induction l generalizing u with
  | nil => simpa [State.setRecs] using h
  | cons p l ih =>
    refine ih (fun q hq => hl q (List.mem_cons_of_mem _ hq)) _ ?_
    by_cases hp : p.1 = k
    · exact .inl (by rw [State.recOf_setRec, if_pos hp.symm, hl p (by simp) hp])
    · refine h.imp (fun hu => by rw [State.recOf_setRec, if_neg (Ne.symm hp), hu]) (fun ⟨q, hq, hqk⟩ => ⟨q, ?_, hqk⟩)
      exact (List.mem_cons.mp hq).resolve_left (fun he => hp (he ▸ hqk))

theorem State.setRecs_eq (l : List (Nat × Rec)) (u : State) : ∃ p, u.setRecs l = { u with temper := p } := by
  induction l generalizing u with
  | nil => exact ⟨u.temper, rfl⟩
  | cons q r ih =>
    obtain ⟨p, h⟩ := ih (u.setRec q.1 q.2)
    exact ⟨p, h⟩

/-- The records of the variants of an image within its bounds. -/
theorem State.recOf_variants {u : State} {i : Img} (hv : ∀ h, h < i.heatCount → (u.heatEntry i h).vcount ≤ 4)
    (x : State) {h k : Nat} (hh : h < i.heatCount) (hk : k < (u.heatEntry i h).vcount) :
    (x.setRecs (u.variants i)).recOf (recKey i.base h k) =
      Rec.declared ((u.heatEntry i h).edecl.getD k 0) ((u.heatEntry i h).tdecl.getD k 1) := by
  refine State.recOf_setRecs _ _ _ (fun p hp he => ?_) x (.inr
    ⟨(recKey i.base h k, Rec.declared ((u.heatEntry i h).edecl.getD k 0) ((u.heatEntry i h).tdecl.getD k 1)), ?_, rfl⟩)
  · simp only [State.variants, List.mem_flatMap, List.mem_range, List.mem_map] at hp
    obtain ⟨h', hh', k', hk', rfl⟩ := hp
    obtain ⟨rfl, rfl⟩ := recKey_inj (by have := hv h' hh'; omega) (by have := hv h hh; omega) he
    rfl
  · simp only [State.variants, List.mem_flatMap, List.mem_range, List.mem_map]
    exact ⟨h, hh, k, hk, rfl⟩

section
variable {u v : State} (h : v.mem = u.mem)
include h

theorem State.bytes_of_mem : v.bytes = u.bytes := by
  unfold State.bytes State.byte
  rw [h]

theorem State.imageOf_of_mem : v.imageOf = u.imageOf := by
  funext a base
  simp only [State.imageOf, State.readN_of_mem h]

theorem State.imageHeader_of_mem : v.imageHeader = u.imageHeader := by
  funext a base
  simp only [State.imageHeader, State.readN_of_mem h]

theorem State.heatEntry_of_mem : v.heatEntry = u.heatEntry := by
  funext i k
  simp only [State.heatEntry, State.readN_of_mem h]

theorem State.heatOk_of_mem : v.heatOk = u.heatOk := by
  funext i k
  simp only [State.heatOk, State.readN_of_mem h]

theorem State.variants_of_mem : v.variants = u.variants := by
  unfold State.variants
  rw [State.heatEntry_of_mem h]

end

/-- The checks of an image read memory, stored errors, images and records alone. -/
theorem State.imageCheck_alike {u v : State} (hm : v.mem = u.mem) (he : v.errs = u.errs) (hi : v.tongs.images = u.tongs.images)
    (ht : v.temper = u.temper) (base : Nat) : v.imageCheck base = u.imageCheck base := by
  have hu : v.ueIn = u.ueIn := by
    unfold State.ueIn State.errUnits
    rw [he]
  unfold State.imageCheck
  rw [hu, State.bytes_of_mem hm, State.imageOf_of_mem hm, State.imageHeader_of_mem hm, State.heatOk_of_mem hm, State.variants_of_mem hm, hi, ht]

/-- An image put at the end of the list. -/
def State.listed (u : State) (i : Img) : State := { u with tongs := { u.tongs with images := u.tongs.images ++ [i] } }

theorem imageAccept_body (n : Nat) (msg : List Byte) (t : Nat) (s : State) : ∃ f, exec (.imageAccept n msg t) s = s.command n 3 16 msg t f ∧
    ∀ ctag (w : State) i, leAt msg 12 4 = 0 → w.image (leAt msg 8 4) = none → w.imageCheck (leAt msg 8 4) = (0, none) →
      i = w.imageOf (hammerBase + 64 * leAt msg 8 4) (leAt msg 8 4) →
      ∃ c, w.countsOnly c ∧ f ctag w =
        ((c.listed i).setRecs (c.variants i)).respond n 3 0 0 ctag 0 0 := by
  have hx : exec (.imageAccept n msg t) s = execImageAccept n msg t s := rfl
  rw [hx]
  unfold execImageAccept
  refine ⟨_, rfl, fun ctag w i h0 hi hb he => ?_⟩
  refine ⟨_, State.countsOnly_trans (w.countsOnly_correctRange i.addr i.bytes) (State.countsOnly_moved _ false i.addr i.bytes), ?_⟩
  dsimp only
  rw [if_neg (by rw [h0]; decide), if_neg (by rw [hi]; decide)]
  simp only [hb, ← he]
  rfl

/-- An image that passes the checks is listed with the records of its variants (R140, R219, R220). -/
theorem imageAccept_lists {s : State} {n t : Nat} {msg : List Byte} {i : Img} (hr : (s.at t).ready n 3 16 msg) (h0 : leAt msg 12 4 = 0)
    (hi : (s.at t).image (leAt msg 8 4) = none) (hb : (s.at t).imageCheck (leAt msg 8 4) = (0, none))
    (he : i = (s.at t).imageOf (hammerBase + 64 * leAt msg 8 4) (leAt msg 8 4)) :
    s.runs (.imageAccept n msg t) (fun v => s.keptBut v n ∧ (v.ctx n).answers 3 0 (leAt msg 4 4) 0 ∧
      v.tongs.images = s.tongs.images ++ [i] ∧ v.mem = s.mem ∧ v.jobs = s.jobs ∧
      ∀ h k, h < i.heatCount → k < ((s.at t).heatEntry i h).vcount → v.recOf (recKey i.base h k) =
        Rec.declared (((s.at t).heatEntry i h).edecl.getD k 0) (((s.at t).heatEntry i h).tdecl.getD k 1)) := by
  obtain ⟨f, hx, hf⟩ := imageAccept_body n msg t s
  obtain ⟨w, hw, tk⟩ := State.command_ready hr (by decide) (by decide) f
  have hmem : w.mem = (s.at t).mem := by rw [tk.rest]
  have hc : w.imageCheck (leAt msg 8 4) = (s.at t).imageCheck (leAt msg 8 4) :=
    State.imageCheck_alike hmem (by rw [tk.rest]) (by rw [tk.rest]) (by rw [tk.rest]) _
  have ho : w.imageOf = (s.at t).imageOf := State.imageOf_of_mem hmem
  obtain ⟨c, ⟨hcw, -⟩, hfc⟩ := hf (leAt msg 4 4) w i h0 (by rw [State.took_image tk, hi]) (hc.trans hb) (by rw [ho]; exact he)
  rw [hw, hfc] at hx
  have hcu : c.heatEntry = (s.at t).heatEntry := State.heatEntry_of_mem ((by rw [hcw] : c.mem = w.mem).trans hmem)
  have hvc : ∀ k, k < i.heatCount → ((s.at t).heatEntry i k).vcount ≤ 4 := fun k hk => by
    rw [he] at hk ⊢
    exact State.vcount_le_four hb hk
  have hrec := fun h k (hh : h < i.heatCount) (hk : k < (c.heatEntry i h).vcount) => State.recOf_variants (u := c) (by rw [hcu]; exact hvc)
    (c.listed i) hh hk
  obtain ⟨p, hp⟩ := State.setRecs_eq (c.variants i) (c.listed i)
  generalize (c.listed i).setRecs (c.variants i) = x at hx hrec hp
  unfold State.listed at hp
  have hctx : ∀ m, x.ctx m = w.ctx m := fun m => by
    rw [hp, hcw]
    rfl
  have hwait : x.waitingOn n = w.waitingOn n := by
    rw [hp, hcw]
    rfl
  obtain ⟨v, hv, hvs, hva⟩ := State.closes (x := x) (n := n) (by rw [hctx]; exact tk.open_) (by rw [hctx]; exact tk.inbox)
    (hwait.trans ((State.took_waitingOn tk n).trans hr.waiting)) hr.low 3 0 (leAt msg 4 4) 0
  rw [hv] at hx
  obtain ⟨k1, k2, k3, k4⟩ := State.took_kept tk
  have hxw : x.anvils = w.anvils ∧ x.hammer = w.hammer ∧ x.crucs = w.crucs ∧ x.tongs.images = w.tongs.images ++ [i] ∧ x.mem = w.mem ∧
      x.jobs = w.jobs := by
    rw [hp, hcw]
    exact ⟨rfl, rfl, rfl, rfl, rfl, rfl⟩
  obtain ⟨x1, x2, x3, x4, x5, x6⟩ := hxw
  refine ⟨v, hx, ⟨(State.streamOnly_anvils hvs).trans (x1.trans k1), (State.streamOnly_hammer hvs).trans (x2.trans k2),
    (State.streamOnly_crucs hvs).trans (x3.trans k3), fun m hm => (hvs.others m hm).trans ((hctx m).trans (k4 m hm))⟩, hva, ?_,
    (State.streamOnly_mem hvs).trans (x5.trans (State.took_mem tk)), (State.streamOnly_jobs hvs).trans (x6.trans (State.took_jobs tk)),
    fun h k hh hk => ?_⟩
  · rw [State.streamOnly_images hvs, x4, State.took_images tk]
  · rw [State.streamOnly_recOf hvs, hrec h k hh (by rw [hcu]; exact hk), hcu]

/-! ### A waiting job cancelled -/

theorem jobCancel_body (n : Nat) (msg : List Byte) (t : Nat) (s : State) : ∃ f, exec (.jobCancel n msg t) s = s.command n 2 16 msg t f ∧
    ∀ ctag (w : State) j, leAt msg 9 7 = 0 → w.job (leAt msg 8 1) = some j → j.strm = n → j.st = .queued → j.saved = none → j.cancel = [] →
      let k : Job := { j with cancel := [(w.now, n, ctag)] }
      f ctag w = (w.setJob (leAt msg 8 1) (some k)).retire (leAt msg 8 1) k (some (Fail.of cCANCELLED 0 0 0)) 0 0 0 := by
  have hx : exec (.jobCancel n msg t) s = execJobCancel n msg t s := rfl
  rw [hx]
  unfold execJobCancel
  refine ⟨_, rfl, fun ctag w j h0 hj hs hq hsv hc => ?_⟩
  dsimp only
  rw [if_neg (by rw [h0]; decide)]
  simp only [hj, hc, List.nil_append]
  rw [if_neg (by rw [hs]; simp), if_neg (by rw [hq]; decide)]
  unfold State.cancelWaiting
  simp only [hsv]

/-- The command's job is answered as it leaves (R390). -/
theorem jobCancel_cancels {s : State} {n t : Nat} {msg : List Byte} {j : Job} (hr : (s.at t).ready n 2 16 msg) (h0 : leAt msg 9 7 = 0)
    (hj : (s.at t).job (leAt msg 8 1) = some j) (hs : j.strm = n) (hq : j.st = .queued) (hsv : j.saved = none) (hc : j.cancel = []) :
    s.runs (.jobCancel n msg t) (fun v => v.anvils = s.anvils ∧ v.hammer = s.hammer ∧ v.crucs = s.crucs ∧ v.job (leAt msg 8 1) = none ∧
      (∀ k, k ≠ leAt msg 8 1 → v.job k = s.job k) ∧ (v.ctx n).answers 2 0 (leAt msg 4 4) 0 ∧ s.recordOnly v j ∧
      v.get HAMMER_JOBCNT_FAILED = min (s.get HAMMER_JOBCNT_FAILED + 1) (2 ^ 32 - 1)) := by
  obtain ⟨f, hx, hf⟩ := jobCancel_body n msg t s
  obtain ⟨w, hw, tk⟩ := State.command_ready hr (by decide) (by decide) f
  have hjw : w.job (leAt msg 8 1) = some j := by
    rw [← hj]
    unfold State.job
    rw [tk.rest]
  rw [hw, hf _ w j h0 hjw hs hq hsv hc] at hx
  generalize hk : ({ j with cancel := [(w.now, n, leAt msg 4 4)] } : Job) = k at hx
  have hkr : k.ring = j.ring ∧ k.ridx = j.ridx ∧ k.cancel = [(w.now, n, leAt msg 4 4)] := by
    rw [← hk]
    exact ⟨rfl, rfl, rfl⟩
  obtain ⟨hring, hridx, hcan⟩ := hkr
  have hret := (w.setJob (leAt msg 8 1) (some k)).retired_retire (leAt msg 8 1) k (some (Fail.of cCANCELLED 0 0 0)) 0 0 0
  have hset : ∀ a, (w.setJob (leAt msg 8 1) (some k)).rd a = w.rd a := fun a => by
    unfold State.rd
    rw [State.setJob_csr]
  generalize (w.setJob (leAt msg 8 1) (some k)).retire (leAt msg 8 1) k (some (Fail.of cCANCELLED 0 0 0)) 0 0 0 = v at hx hret
  obtain ⟨y, hy, hvy⟩ := hret.sends
  obtain ⟨q, r, b, hyc⟩ := hy n
  have hyn : (y.ctx n).tstate = 3 ∧ (y.ctx n).inbox = [] := by
    rw [hyc]
    exact ⟨tk.open_, tk.inbox⟩
  obtain ⟨-, ha, hin⟩ := y.respond_open n 2 0 (leAt msg 4 4) 0 hyn.1 hr.low
  have hctx : v.ctx n = (y.respond n 2 0 0 (leAt msg 4 4) 0 0).ctx n := by
    unfold State.ctx
    rw [hvy]
    unfold State.cancelAnswered
    rw [hcan]
    rfl
  have hwait : v.waitingOn n = w.waitingOn n := by
    unfold State.waitingOn
    rw [hret.tongs]
    rfl
  rw [State.settle_quiet (hwait.trans ((State.took_waitingOn tk n).trans hr.waiting)) (by rw [hctx, hin, hyn.2])] at hx
  obtain ⟨k1, k2, k3, -⟩ := State.took_kept tk
  refine ⟨v, hx, hret.anvils.trans k1, hret.hammer.trans k2, hret.crucs.trans k3, by rw [hret.job, if_pos rfl], fun m hm => ?_, by rw [hctx]; exact ha,
    fun a hapart => ?_, ?_⟩
  · rw [hret.job, if_neg hm, State.job_setJob, if_neg hm, State.took_job tk]
  · have hcfg : TONGS_RING_CFG j.ring ≠ TONGS_CACHESTAT := by
      simp only [TONGS_RING_CFG, TONGS_CACHESTAT]
      omega
    have hslot : (w.setJob (leAt msg 8 1) (some k)).slotAddr k.ring k.ridx = s.slotAddr j.ring j.ridx := by
      rw [hring, hridx]
      unfold State.slotAddr
      rw [State.get_of_rd (f := TONGS_RING_CFG_BASE j.ring) ((hset _).trans (State.took_rd tk hcfg)),
        State.get_of_rd (f := TONGS_RING_CFG_LOG2N j.ring) ((hset _).trans (State.took_rd tk hcfg))]
    rw [hret.bytes a (by rw [hslot]; exact hapart)]
    exact State.took_byte tk a
  · rw [hret.failed, if_pos Option.isSome_some, State.get_of_rd (f := HAMMER_JOBCNT_FAILED) ((hset _).trans (State.took_rd tk (by decide)))]

/-! ### A job submitted -/

/-- The job of a JOB_SUBMIT on stream `n`, at index `w` of its ring (R387, R388). -/
def State.submittedJob (u : State) (n : Nat) (msg : List Byte) (w : Nat) : Job :=
  { img := leAt msg (8 + 0) 4, entry := leAt msg (8 + 4) 2, cls := leAt msg (8 + 6) 1, ring := leAt msg (8 + 7) 1
    arg := BitVec.ofNat 64 (leAt msg (8 + 8) 8), seed := BitVec.ofNat 64 (leAt msg (8 + 0x10) 8), tag := BitVec.ofNat 64 (leAt msg (8 + 0x18) 8)
    key := leAt msg (8 + 0x20) 2, group := leAt msg (8 + 0x22) 2, gflags := leAt msg (8 + 0x24) 1, strm := n, ridx := w, st := .queued
    frame := frameOf u.core.idx, accepted := u.jobList.foldl (fun a p => max a (p.2.accepted + 1)) 0, waitFrom := u.now, started := 0
    switches := 0, saved := none, cancel := [], cflags := 0, rflags := 0 }

/-- The checks of R382 that a JOB_SUBMIT passes; `w`: the ring's next index. -/
structure State.submits (u : State) (msg : List Byte) (id w : Nat) : Prop where
  cls : leAt msg (8 + 6) 1 < 8
  ring : leAt msg (8 + 7) 1 < 64
  key : leAt msg (8 + 32) 2 ≠ 0
  gflags : leAt msg (8 + 36) 1 = 0
  zero : leAt msg (8 + 37) 27 = 0
  image : (u.image (leAt msg (8 + 0) 4)).isNone = false
  free : u.freeJob = some id
  on : u.ringOn (leAt msg (8 + 7) 1) = true
  next : u.get (TONGS_RING_IDX_WIDX (leAt msg (8 + 7) 1)) = w
  room : (w + 2 ^ 32 - u.get (TONGS_RING_IDX_AIDX (leAt msg (8 + 7) 1))) % 2 ^ 32 < 2 ^ u.get (TONGS_RING_CFG_LOG2N (leAt msg (8 + 7) 1))

/-- The table and the ring with the job in them, its record EMPTY. -/
def State.withJob (u : State) (id w : Nat) (j : Job) : State :=
  (((u.put (TONGS_RING_IDX_WIDX j.ring) (w + 1)).setJob id (some j)).writeRecord id j 0 0 none 0 0).jobStat

theorem jobSubmit_body (n : Nat) (msg : List Byte) (t : Nat) (s : State) : ∃ f, exec (.jobSubmit n msg t) s = s.command n 1 72 msg t f ∧
    ∀ ctag (u : State) id w, u.submits msg id w →
      f ctag u = (u.withJob id w (u.submittedJob n msg w)).respond n 1 0 0 ctag (id * 2 ^ 32 + w) 0 := by
  have hx : exec (.jobSubmit n msg t) s = execJobSubmit n msg t s := rfl
  rw [hx]
  unfold execJobSubmit
  refine ⟨_, rfl, fun ctag u id w h => ?_⟩
  dsimp only
  rw [if_neg (by have := h.cls; have := h.ring; have := h.key; have := h.gflags; have := h.zero; omega), if_neg (by rw [h.image]; decide)]
  have hfull := Nat.not_le_of_lt h.room
  simp only [h.free, h.next]
  rw [if_neg (by rw [h.on]; decide), if_neg hfull, if_neg (by rw [h.gflags]; simp)]
  rfl

theorem State.freeJob_lowest {u : State} {id : Nat} (hu : ∀ k, k < id → (u.job k).isSome = true) (hn : u.job id = none) (hi : id < 255) :
    u.freeJob = some id :=
  List.find?_range_eq_some.mpr ⟨by rw [hn]; rfl, List.mem_range.mpr hi, fun k hk => (Option.not_isNone _).trans (hu k hk)⟩

/-- A submission passes its checks after the command is taken as before. -/
theorem State.submits_took {s w : State} {t n : Nat} {msg : List Byte} {id x : Nat} (tk : (s.at t).took w n) (h : (s.at t).submits msg id x) :
    w.submits msg id x := by
  have hjob : w.freeJob = (s.at t).freeJob := by
    unfold State.freeJob State.job
    rw [tk.rest]
  have hcfg : w.rd (TONGS_RING_CFG (leAt msg (8 + 7) 1)) = (s.at t).rd (TONGS_RING_CFG (leAt msg (8 + 7) 1)) := tk.regs _ (by
    simp only [TONGS_RING_CFG, TONGS_CACHESTAT]
    omega)
  have hidx : w.rd (TONGS_RING_IDX (leAt msg (8 + 7) 1)) = (s.at t).rd (TONGS_RING_IDX (leAt msg (8 + 7) 1)) := tk.regs _ (by
    simp only [TONGS_RING_IDX, TONGS_CACHESTAT]
    omega)
  refine ⟨h.cls, h.ring, h.key, h.gflags, h.zero, by rw [State.took_image tk]; exact h.image, hjob.trans h.free, ?_, ?_, ?_⟩
  · rw [← h.on]
    unfold State.ringOn State.on
    rw [State.get_of_rd (f := TONGS_RING_CFG_LOG2N _) hcfg, State.get_of_rd (f := TONGS_RING_CFG_LOST _) hcfg]
  · rw [← h.next]
    exact State.get_of_rd hidx
  · rw [State.get_of_rd (f := TONGS_RING_IDX_AIDX _) hidx, State.get_of_rd (f := TONGS_RING_CFG_LOG2N _) hcfg]
    exact h.room

theorem State.rd_jobStat (u : State) {a : Nat} (ha : a ≠ TONGS_JOBSTAT) : u.jobStat.rd a = u.rd a := by
  rw [State.jobStat, State.rd_put_ne _ _ _ ha, State.rd_put_ne _ _ _ ha, State.rd_put_ne _ _ _ ha]

/-- What a job put into the table leaves as it was. -/
structure State.jobAdded (u x : State) (id w : Nat) (j : Job) : Prop where
  hammer : x.hammer = u.hammer
  anvils : x.anvils = u.anvils
  crucs : x.crucs = u.crucs
  tongs : x.tongs = u.tongs
  job : ∀ k, x.job k = if k = id then some j else u.job k
  bytes : u.recordOnly x j
  index : x.get (TONGS_RING_IDX_WIDX j.ring) = (w + 1) % 2 ^ 32

theorem State.jobAdded_withJob (u : State) (id w : Nat) (j : Job) : u.jobAdded (u.withJob id w j) id w j := by
  unfold State.withJob
  have hrd := fun a (ha : a ≠ TONGS_RING_IDX j.ring) => State.rd_put_ne u (TONGS_RING_IDX_WIDX j.ring) (w + 1) ha
  have hget : (u.put (TONGS_RING_IDX_WIDX j.ring) (w + 1)).get (TONGS_RING_IDX_WIDX j.ring) = (w + 1) % 2 ^ 32 :=
    u.get_put_self (TONGS_RING_IDX_WIDX j.ring) (w + 1) (by simp) (by simp)
  have hp : u.put (TONGS_RING_IDX_WIDX j.ring) (w + 1) = { u with csr := (u.put (TONGS_RING_IDX_WIDX j.ring) (w + 1)).csr } := rfl
  generalize u.put (TONGS_RING_IDX_WIDX j.ring) (w + 1) = p at hrd hget hp
  obtain ⟨b, hb, he⟩ := (p.setJob id (some j)).writeRecord_open id j 0 0 none 0 0 (by decide)
  rw [he]
  have hjob : ∀ k, (p.setJob id (some j)).job k = if k = id then some j else u.job k := fun k => by
    rw [State.job_setJob]
    unfold State.job
    rw [hp]
  have hbytes := (p.setJob id (some j)).recordOnly_slotWritten j b hb
  have hrest := (p.setJob id (some j)).slotWritten_rest j b
  have hset : ∀ a, (p.setJob id (some j)).rd a = p.rd a := fun a => by
    unfold State.rd
    rw [State.setJob_csr]
  have hcfg : TONGS_RING_CFG j.ring ≠ TONGS_RING_IDX j.ring := by
    simp only [TONGS_RING_CFG, TONGS_RING_IDX]
    omega
  have hslot : (p.setJob id (some j)).slotAddr j.ring j.ridx = u.slotAddr j.ring j.ridx := by
    unfold State.slotAddr
    rw [State.get_of_rd (f := TONGS_RING_CFG_BASE j.ring) ((hset _).trans (hrd _ hcfg)),
      State.get_of_rd (f := TONGS_RING_CFG_LOG2N j.ring) ((hset _).trans (hrd _ hcfg))]
  generalize (p.setJob id (some j)).slotWritten j b = y at hbytes hrest
  have hn := y.noted_jobStat (l := [TONGS_JOBSTAT]) (by simp)
  have ht : y.jobStat.tongs = y.tongs := by rw [State.jobStat, State.put_tongs, State.put_tongs, State.put_tongs]
  have hx : ∀ a, a ≠ TONGS_JOBSTAT → y.jobStat.rd a = y.rd a := fun a ha => y.rd_jobStat ha
  generalize y.jobStat = x at hn ht hx
  have hy : y.hammer = u.hammer ∧ y.anvils = u.anvils ∧ y.crucs = u.crucs ∧ y.tongs = u.tongs ∧ y.jobs = (p.setJob id (some j)).jobs ∧
      y.csr = p.csr := by
    rw [hrest]
    refine ⟨?_, ?_, ?_, ?_, rfl, State.setJob_csr p id (some j)⟩
    · rw [State.setJob_hammer, hp]
    · rw [State.setJob_anvils, hp]
    · rw [State.setJob_crucs, hp]
    · rw [State.setJob_tongs, hp]
  obtain ⟨h1, h2, h3, h4, h5, h6⟩ := hy
  refine ⟨(State.noted_hammer hn).trans h1, (State.noted_anvils hn).trans h2, (State.noted_crucs hn).trans h3, ht.trans h4, fun k => ?_,
    fun a ha => ?_, ?_⟩
  · rw [State.noted_job hn, ← hjob]
    unfold State.job
    rw [h5]
  · rw [State.noted_byte hn, hbytes a (by rw [hslot]; exact ha)]
    unfold State.byte
    rw [State.setJob_mem, hp]
  · have hidx : x.rd (TONGS_RING_IDX j.ring) = p.rd (TONGS_RING_IDX j.ring) := by
      rw [hx _ (by simp only [TONGS_RING_IDX, TONGS_JOBSTAT]; omega)]
      unfold State.rd
      rw [h6]
    rw [State.get_of_rd (f := TONGS_RING_IDX_WIDX j.ring) hidx, hget]

/-- A submission that passes every check queues its job (R387, R388). -/
theorem jobSubmit_queues {s : State} {n t id x : Nat} {msg : List Byte} (hr : (s.at t).ready n 1 72 msg) (h : (s.at t).submits msg id x) :
    ∃ j : Job, j = (s.at t).submittedJob n msg x ∧
    s.runs (.jobSubmit n msg t) (fun v => s.keptBut v n ∧ (v.ctx n).answers 1 0 (leAt msg 4 4) (id * 2 ^ 32 + x) ∧
      v.get (TONGS_RING_IDX_WIDX j.ring) = (x + 1) % 2 ^ 32 ∧ (∀ k, v.job k = if k = id then some j else s.job k) ∧ s.recordOnly v j) := by
  obtain ⟨f, hx, hf⟩ := jobSubmit_body n msg t s
  obtain ⟨w, hw, tk⟩ := State.command_ready hr (by decide) (by decide) f
  rw [hw, hf _ w id x (State.submits_took tk h)] at hx
  have hj : w.submittedJob n msg x = (s.at t).submittedJob n msg x := by
    unfold State.submittedJob State.jobList
    rw [tk.rest]
  rw [hj] at hx
  generalize (s.at t).submittedJob n msg x = j at hx
  refine ⟨j, rfl, ?_⟩
  have hy := w.jobAdded_withJob id x j
  generalize w.withJob id x j = y at hx hy
  have hctx : ∀ m, y.ctx m = w.ctx m := fun m => by
    unfold State.ctx
    rw [hy.tongs]
  have hwait : y.waitingOn n = w.waitingOn n := by
    unfold State.waitingOn
    rw [hy.tongs]
  obtain ⟨v, hv, hvs, hva⟩ := State.closes (x := y) (n := n) (by rw [hctx]; exact tk.open_) (by rw [hctx]; exact tk.inbox)
    (hwait.trans ((State.took_waitingOn tk n).trans hr.waiting)) hr.low 1 0 (leAt msg 4 4) (id * 2 ^ 32 + x)
  rw [hv] at hx
  obtain ⟨k1, k2, k3, k4⟩ := State.took_kept tk
  refine ⟨v, hx, ⟨(State.streamOnly_anvils hvs).trans (hy.anvils.trans k1), (State.streamOnly_hammer hvs).trans (hy.hammer.trans k2),
    (State.streamOnly_crucs hvs).trans (hy.crucs.trans k3), fun m hm => ?_⟩, hva, ?_, fun k => ?_, fun a ha => ?_⟩
  · rw [hvs.others m hm, hctx]
    exact k4 m hm
  · rw [State.get_of_rd (State.streamOnly_rd hvs _)]
    exact hy.index
  · rw [State.streamOnly_job hvs, hy.job, State.took_job tk]
  · have hcfg : TONGS_RING_CFG j.ring ≠ TONGS_CACHESTAT := by
      simp only [TONGS_RING_CFG, TONGS_CACHESTAT]
      omega
    have hslot : w.slotAddr j.ring j.ridx = s.slotAddr j.ring j.ridx := by
      unfold State.slotAddr
      rw [State.get_of_rd (f := TONGS_RING_CFG_BASE j.ring) (State.took_rd tk hcfg), State.get_of_rd (f := TONGS_RING_CFG_LOG2N j.ring) (State.took_rd tk hcfg)]
    rw [State.streamOnly_byte hvs, hy.bytes a (by rw [hslot]; exact ha), State.took_byte tk]

/-- Settles O32: each command taken by `command_ready`, processed, and answered by `closes`; the cancelled job past its time by the end of issue. -/
theorem jobCommands : Obligations.JobCommands := by
  unfold Obligations.JobCommands
  intro s n t msg u c ctag b ready answered kept ring w
  have hready : ∀ ctype len, ready ctype len → u.ready n ctype len msg := fun ctype len
    ⟨h1, h2, h3, h4, h5, h6, h7, h8, h9, h10, h11, h12, h13, h14⟩ => ⟨h1, h2, h3, h4, h5, h6, h7, h8, h9, h10, h11, h12, h13, h14⟩
  have hans : ∀ (v : State) ctype result, (v.ctx n).answers ctype 0 ctag result → answered v ctype 0 result := fun v ctype result h => h
  refine ⟨?_, ?_, ?_, ?_, ?_⟩
  · intro id i hr hcls hring hkey hgf hz hi hlow hnone hid hon hroom
    have hsub : u.submits msg id w :=
      ⟨hcls, hring, hkey, hgf, hz, by rw [show u.image (leAt msg (8 + 0) 4) = some i from hi]; rfl, State.freeJob_lowest hlow hnone hid, hon, rfl, hroom⟩
    obtain ⟨j, hj, v, hx, hk, ha, hw, hjobs, hrec⟩ := jobSubmit_queues (hready 1 72 hr) hsub
    refine ⟨v, hx, hk, hans v 1 _ ha, ?_, fun k hk => by rw [hjobs, if_neg hk], j, by rw [hjobs, if_pos rfl], ?_⟩
    · have hring : j.ring = ring := by rw [hj]; rfl
      rw [← hring]
      exact hw
    · rw [hj] at hrec ⊢
      exact ⟨rfl, rfl, rfl, rfl, rfl, rfl, rfl, rfl, rfl, rfl, rfl, rfl, rfl, rfl, hrec⟩
  · intro j hr h0 hj hs hq hsv hc
    obtain ⟨v, hx, h1, h2, h3, h4, h5, h6, h7, h8⟩ := jobCancel_cancels (hready 2 16 hr) h0 hj hs hq hsv hc
    exact ⟨v, hx, h1, h2, h3, h4, h5, hans v 2 0 h6, h7, h8⟩
  · intro id j x r hr hj hc he hF hf hq ht
    obtain ⟨h1, h2⟩ := State.stopJob_at t (Fail.of cCANCELLED 0 0 0) hF hf
    exact ⟨_, cancelTimeout_stops hr hj hc he hF hf hq ht, ⟨_, h1, rfl⟩, h2⟩
  · intro i hr h0 hi hb he
    obtain ⟨v, hx, hk, ha, h1, h2, h3, h4⟩ := imageAccept_lists (hready 3 16 hr) h0 hi hb he
    exact ⟨v, hx, hk, hans v 3 0 ha, h1, h2, h3, fun h k hh hk _ _ => h4 h k hh hk⟩
  · intro i hr h0 hi hb
    obtain ⟨v, hx, hk, ha, h⟩ := imageUnload_removes (hready 4 16 hr) h0 hi hb
    exact ⟨v, hx, hk, hans v 4 0 ha, h⟩

end Sys2Proof.Machine
end

