-- ==== Sys2Proof/Proofs/HeatMarker.lean ====
section
/-! SUPPORT. What a heat marker does (R188, R205, R221-R229, R236): its three answers, and what reading a heat's entry and choosing its
variant leave as they were. -/

namespace Sys2Proof.Machine

/-! ### Choosing a variant -/

/-- From `u` to `v` a heat's variant was chosen: memory, Anvils, Hammer but for the beacon, and Temper but for its power records are
as they were. -/
structure State.chose (u v : State) : Prop where
  mem : v.mem = u.mem
  anvils : v.anvils = u.anvils
  hammer : v.hammer = { u.hammer with beaconAt := v.hammer.beaconAt, beaconUp := v.hammer.beaconUp }
  temper : v.temper = { u.temper with recs := v.temper.recs }

theorem State.chose_refl (u : State) : u.chose u := ⟨rfl, rfl, rfl, rfl⟩

theorem State.chose_trans {u v w : State} (h : u.chose v) (k : v.chose w) : u.chose w :=
  ⟨k.mem.trans h.mem, k.anvils.trans h.anvils, by rw [k.hammer, h.hammer], by rw [k.temper, h.temper]⟩

theorem State.chose_put (u : State) (f : Fd) (x : Nat) : u.chose (u.put f x) := ⟨rfl, rfl, rfl, rfl⟩

theorem State.chose_putB (u : State) (f : Fd) (x : Bool) : u.chose (u.putB f x) := State.chose_put _ _ _

theorem State.chose_inc (u : State) (f : Fd) : u.chose (u.inc f) := State.chose_put _ _ _

theorem State.chose_of_countsOnly {u v : State} (h : u.countsOnly v) : u.chose v := by
  obtain ⟨h, -⟩ := h
  rw [h]
  exact ⟨rfl, rfl, rfl, rfl⟩

theorem State.chose_event (u : State) (code sev src p0 p1 p2 : Nat) : u.chose (u.event code sev src p0 p1 p2) := by
  obtain ⟨-, -, h⟩ := State.only_event u code sev src p0 p1 p2 []
  rw [h]
  exact ⟨rfl, rfl, rfl, rfl⟩

theorem State.chose_mendRecs (u : State) (i : Img) (id : Nat) (e : HeatEntry) : u.chose (u.mendRecs i id e) := by
  unfold State.mendRecs
  refine List.foldlRecOn (motive := fun v => u.chose v) _ _ u.chose_refl (fun v hv n _ => State.chose_trans hv ?_)
  extract_lets k s1 s2
  have h : v.chose s2 := ⟨rfl, rfl, rfl, rfl⟩
  split
  · exact State.chose_trans h (State.chose_event ..)
  · exact v.chose_refl

theorem State.chose_chooseHeat (u : State) (i : Img) (id : Nat) (coll : Bool) : u.chose (u.chooseHeat i id coll).2.2 := by
  unfold State.chooseHeat
  extract_lets e p g c s1 s2
  have h1 : u.chose s1 := State.chose_trans (State.chose_put _ _ _) (State.chose_trans (State.chose_put _ _ _) (State.chose_put _ _ _))
  have h2 : s1.chose s2 := State.chose_trans (State.chose_putB _ _ _) (State.chose_trans (State.chose_putB _ _ _)
    (State.chose_putB _ _ _))
  exact State.chose_trans h1 (State.chose_trans h2 (State.chose_trans (State.chose_put _ _ _) (State.chose_mendRecs ..)))

theorem State.chose_readHeat (u : State) (i : Img) (id : Nat) : u.chose (u.readHeat i id) :=
  State.chose_of_countsOnly (State.countsOnly_trans (State.countsOnly_correctRange ..) (State.countsOnly_moved ..))

theorem State.chose_beacon (u : State) : u.chose u.beacon := by
  unfold State.beacon
  split
  · exact State.chose_inc _ _
  · exact ⟨rfl, rfl, rfl, rfl⟩

theorem State.chose_noteFit (u : State) (c : Choice) : u.chose (u.noteFit c) := by
  unfold State.noteFit
  split
  · exact State.chose_inc _ _
  · exact u.chose_refl

theorem State.chose_if {u a b : State} {p : Prop} [Decidable p] (ha : u.chose a) (hb : u.chose b) : u.chose (if p then a else b) := by
  split <;> assumption

/-- The entry read, the variant chosen, and the beacon of a marker that asks for one. -/
theorem State.chose_choice (u : State) (i : Img) (id imm : Nat) (coll : Bool) :
    let v := ((u.readHeat i id).chooseHeat i id coll).2.2
    u.chose (if imm % 2 = 1 then v.beacon else v) := by
  intro v
  have hv : u.chose v := State.chose_trans (u.chose_readHeat i id) (State.chose_chooseHeat ..)
  exact State.chose_if (State.chose_trans hv v.chose_beacon) hv

/-! ### Code read ahead -/

theorem State.headAt_congr {u v : State} (hm : v.mem = u.mem) (he : v.errs = u.errs) (i : Img) (pc : Nat) :
    v.headAt i pc = u.headAt i pc := by
  unfold State.headAt State.ueIn State.errUnits
  rw [he, State.readN_of_mem hm]

/-- Whether STOP is near depends on the code and the program counter alone. -/
theorem State.stopAhead_congr {u v : State} (hm : v.mem = u.mem) (he : v.errs = u.errs) (hp : v.hammer.pc = u.hammer.pc) (i : Img)
    (n : Nat) : v.stopAhead i n = u.stopAhead i n := by
  unfold State.stopAhead State.afterBundle
  simp only [State.headAt_congr hm he, hp]

/-! ### The marker -/

/-- Before the choice: a marker discards the redirects of its bundle, and the power hint ends with its heat (R205, R413). -/
def State.unhinted (u : State) : State :=
  { u.onHammer (fun h => { h with redirs := [] }) with temper := { u.temper with reqHint := 0 } }

section
variable {u : State} {j : Job} {i : Img} (hj : u.hammer.run.bind u.job = some j) (hi : u.runImage = some i) (hm : u.hammer.marker = none)
  (n k id imm : Nat) (idle : Bool)
include hj hi hm

/-- A heat that the image does not have (R153). -/
theorem State.heatMark_absent (hid : i.heatCount ≤ id) : u.heatMark n k id imm false idle = u.addFault n 0x06 0 9 255 0 := by
  unfold State.heatMark
  rw [hj, hi]
  simp only [hm, Option.isSome_none, Bool.or_self, Bool.false_eq_true, if_false, ge_iff_le, hid, if_true]

/-- A heat whose entry cannot be read (R229). -/
theorem State.heatMark_unread (hid : id < i.heatCount) (hs : u.unhinted.stopAhead i k = false) {x : Nat}
    (hx : u.ueIn (i.heatAddr id) 64 = some x) :
    u.heatMark n k id imm false idle =
      ((u.unhinted.reportUe 9 x).addFault n 0x04 2 9 255 (locOf x)).onHammer
        (fun h => { h with marker := some ⟨n, id, false, 0, 0, 0, none⟩ }) := by
  have hx' : u.unhinted.ueIn (i.heatAddr id) 64 = some x := hx
  unfold State.heatMark
  rw [hj, hi]
  simp only [hm, Option.isSome_none, Bool.or_self, Bool.false_eq_true, if_false, ge_iff_le, Nat.not_le.mpr hid]
  rw [← State.unhinted, hs, hx']
  rfl

/-- A heat whose entry can be read leaves its marker, after its variant was chosen where STOP is not near (R205, R206, R221). -/
theorem State.heatMark_marks (hid : id < i.heatCount) (hx : u.ueIn (i.heatAddr id) 64 = none) (hc : j.cancel = []) :
    ∃ w m, u.unhinted.chose w ∧ m.pos = n ∧ m.heat = id ∧
      u.heatMark n k id imm false idle = w.onHammer (fun h => { h with marker := some m }) := by
  have hx' : u.unhinted.ueIn (i.heatAddr id) 64 = none := hx
  unfold State.heatMark
  rw [hj, hi]
  simp only [hm, Option.isSome_none, Bool.or_self, Bool.false_eq_true, if_false, ge_iff_le, Nat.not_le.mpr hid, hc, List.isEmpty_nil,
    Bool.not_true]
  rw [← State.unhinted, hx']
  cases u.unhinted.stopAhead i k with
  | true => exact ⟨_, _, u.unhinted.chose_refl, rfl, rfl, rfl⟩
  | false =>
    refine ⟨_, _, ?_, rfl, rfl, rfl⟩
    have hb := u.unhinted.chose_choice i id imm (imm / 2 % 2 == 1)
    have hd := fun p [Decidable p] => State.chose_if (p := p) (State.chose_trans hb (State.chose_inc _ HAMMER_HEATCNT_SWDEFER)) hb
    exact State.chose_if (State.chose_trans (hd _) (State.chose_noteFit _ _)) (hd _)

/-- With a JOB_CANCEL waiting the bundle ends the job (R390). -/
theorem State.heatMark_cancels (hid : id < i.heatCount) (hx : u.ueIn (i.heatAddr id) 64 = none) (hc : j.cancel ≠ []) :
    ∃ w, u.unhinted.chose w ∧ u.heatMark n k id imm false idle = w.addFault n cCANCELLED 0 20 255 0 := by
  have hx' : u.unhinted.ueIn (i.heatAddr id) 64 = none := hx
  unfold State.heatMark
  rw [hj, hi]
  simp only [hm, Option.isSome_none, Bool.or_self, Bool.false_eq_true, if_false, ge_iff_le, Nat.not_le.mpr hid,
    List.isEmpty_eq_false_iff.mpr hc, Bool.not_false, if_true]
  rw [← State.unhinted, hx']
  cases u.unhinted.stopAhead i k with
  | true => exact ⟨_, u.unhinted.chose_refl, rfl⟩
  | false => exact ⟨_, u.unhinted.chose_choice i id imm (imm / 2 % 2 == 1), rfl⟩

end

end Sys2Proof.Machine
end

