-- ==== Sys2Proof/Proofs/TemperWords.lean ====
section
/-! TemperWords (O19). The words of the T slot: each issues with one effect, which leaves a marker, a fault, a request of Temper's or
one of a snapshot (R187, R188). -/

namespace Sys2Proof.Machine

/-! ### The bundle -/

/-- The effect of a T-slot word. -/
def Eff.isTemper : Eff → Bool
  | .heat _ _ => true
  | .opreq _ => true
  | .snap _ => true
  | .phint _ => true
  | _ => false

section
variable {e : Eff} (he : e.isTemper = true)
include he

theorem tokIncr_temper (k : Nat) : tokIncr [⟨0, e⟩] k = 0 := by
  unfold tokIncr
  unfold Eff.isTemper at he
  split at he <;> simp_all

theorem admissible_temper (s : State) : s.admissible [⟨0, e⟩] = true := by
  unfold State.admissible
  unfold Eff.isTemper at he
  split at he <;> simp_all

theorem linked_temper (s : State) (n u : Nat) : s.linked [⟨0, e⟩] n u = s := by
  unfold State.linked
  unfold Eff.isTemper at he
  split at he <;> simp_all

end

/-- Hammer, opened for the issue, with the effect `e` of a T-slot word taken up. -/
def State.temperEff (s : State) (h : Hd) (e : Eff) : State :=
  State.issueEff s.hammer.pos (h.len + 1) false (s.hammer.tok.all (fun t => t.2.count == 0)) s.opening ⟨0, e⟩

/-- A legal T-slot word alone in its bundle issues with its effect. -/
theorem ttOp_issue {s : State} {h : Hd} {f : TTf} {op : Nat} {e : Eff} (hs : s.sole h [9]) (hl : ttLegal op f = true)
    (he : e.isTemper = true) :
    s.slotOp h (ttOp op f e) =
      .next (((s.temperEff h e).closing s.hammer.pos s.hammer.pc (h.len + 1)).issueEnd s.hammer.pos) := by
  have hso := slotOp_issue s h (ttOp op f e) hs hl rfl (by simp [ttOp, SlotOp.plain]) (waitFail_zero s) rfl
    (by simp [ttOp, SlotOp.plain, tokIncr_temper he]) (admissible_temper he s)
  rw [hso]
  simp only [ttOp, SlotOp.plain, linked_temper he, List.foldl_cons, List.foldl_nil]
  rfl

/-! ### What an effect leaves, and the end of the issue -/

/-- An effect of the bundle that issues has left the marker `m` and the faults `l`; memory, the Anvils and the rest of Hammer but tokens
and the beacon are as they were. -/
structure State.tookUp (s X : State) (m : Option Marker) (l : List FaultAt) : Prop where
  mem : X.mem = s.mem
  anvils : X.anvils = s.anvils
  hammer : X.hammer = { s.opening.hammer with
    redirs := [], marker := m, faults := l, tok := X.hammer.tok, beaconAt := X.hammer.beaconAt, beaconUp := X.hammer.beaconUp }

section
variable {s X : State} {h : Hd} (hs : s.sole h [9])
include hs

theorem tookUp_beside (hm : X.mem = s.mem) (ha : X.anvils = s.anvils) (hh : X.hammer = s.opening.hammer) : s.tookUp X none [] := by
  obtain ⟨_, _, _, _, _, _, _, hmk, _, hfa, hre, _⟩ := hs
  refine ⟨hm, ha, ?_⟩
  rw [hh, s.opening_hammer, ← hmk, ← hfa, ← hre]

theorem tookUp_unhinted : s.tookUp s.opening.unhinted none [] := by
  refine tookUp_beside hs rfl rfl ?_
  obtain ⟨_, _, _, _, _, _, _, _, _, _, hre, _⟩ := hs
  show ({ s.opening.hammer with redirs := [] } : Hammer) = _
  rw [s.opening_hammer, ← hre]

end

section
variable {s X Y : State} {h : Hd} {m : Option Marker} {l : List FaultAt} (hX : s.tookUp X m l)
include hX

theorem tookUp_chose (hY : X.chose Y) : s.tookUp Y m l :=
  ⟨hY.mem.trans hX.mem, hY.anvils.trans hX.anvils, by rw [hY.hammer, hX.hammer]⟩

theorem tookUp_tokensOnly (hY : X.tokensOnly Y) : s.tookUp Y m l := by
  obtain ⟨h1, h2, h3⟩ := hY
  exact ⟨h1.trans hX.mem, h2.trans hX.anvils, by rw [h3, hX.hammer]⟩

theorem tookUp_marker (x : Marker) : s.tookUp (X.onHammer (fun h => { h with marker := some x })) (some x) l :=
  ⟨hX.mem, hX.anvils, by simp only [State.onHammer]; rw [hX.hammer]⟩

theorem tookUp_addFault (n cause after slot fanvil : Nat) (loc : Word) : s.tookUp (X.addFault n cause after slot fanvil loc) m
    (l ++ [⟨n, n + after, slot, ⟨cause, if cause = cCANCELLED then 0 else s.hammer.pc, fanvil, 0, 0, loc, 255⟩⟩]) := by
  refine ⟨hX.mem, hX.anvils, ?_⟩
  simp only [State.addFault, State.onHammer]
  rw [hX.hammer, s.opening_hammer]

theorem byte_tookUp (h : Hd) (a : Nat) : (s.passed X h).byte a = s.byte a := by
  show Tab.get memDefault X.mem (phys a) = _
  rw [hX.mem]
  rfl

variable (hs : s.sole h [9])
include hs

/-- Hammer after the position of the effect. -/
theorem passed_tookUp : (s.passed X h).hammer = { s.hammer with
    cur := Open.none, open_ := false, pos := s.hammer.pos + 1, pc := s.hammer.pc + (h.len + 1), flight := [], redirs := [], marker := m
    faults := l, ending := none, tok := X.hammer.tok, beaconAt := X.hammer.beaconAt, beaconUp := X.hammer.beaconUp
    recent := (s.passed X h).hammer.recent, descs := (s.passed X h).hammer.descs } := by
  obtain ⟨htk, _, _, _, _, _, _, _, hfl, _, _, _⟩ := hs
  have hend : s.hammer.ending = none := by simp [State.taking] at htk; exact htk.2
  rw [← hfl, ← hend]
  simp only [State.passed, State.stepped, State.onHammer]
  rw [hX.hammer, s.opening_hammer]

/-- Neither a marker at this position nor its faults redirect the next bundle (R204, R205). -/
theorem closing_tookUp (hm : ∀ x ∈ m, x.pos = s.hammer.pos) :
    X.closing s.hammer.pos s.hammer.pc (h.len + 1) = s.passed X h := by
  have hf : (s.passed X h).hammer.flight = [] := by rw [passed_tookUp hX hs]
  have hr : X.hammer.redirs = [] := by rw [hX.hammer]
  have hto : X.hammer.redirAt (s.hammer.pos + 1) = none := by
    have hk : X.hammer.marker = m := by rw [hX.hammer]
    unfold Hammer.redirAt
    rw [hk, hr]
    cases m with
    | none => rfl
    | some x => simp [hm x rfl]
  refine Eq.trans ?_ (State.commitAt_none _ (s.hammer.pos + 1) (by rw [hf]; simp))
  unfold State.closing
  rw [hto]
  simp only [State.passed, State.stepped, State.onHammer, hr, List.filter_nil, Option.getD_none]

/-- A marker at this position has its boundary two bundles on (R205), and faults found later end nothing yet (R211). -/
theorem issueEnd_tookUp (hm : ∀ x ∈ m, x.pos = s.hammer.pos) (hl : ∀ x ∈ l, s.hammer.pos < x.detect) :
    (X.closing s.hammer.pos s.hammer.pc (h.len + 1)).issueEnd s.hammer.pos = s.passed X h := by
  rw [closing_tookUp hX hs hm]
  have hk : (s.passed X h).hammer.marker = m := by rw [passed_tookUp hX hs]
  have hf : (s.passed X h).hammer.faults = l := by rw [passed_tookUp hX hs]
  unfold State.issueEnd
  rw [hf, hk, if_neg (by simpa using hl)]
  cases m with
  | none => rfl
  | some x => exact if_neg (by rw [hm x rfl]; omega)

/-- A fault found at its own position ends issue for the job with its failure (R151). -/
theorem stopped_tookUp {F : FaultAt} (hl : l = [F]) (hF : F.detect ≤ s.hammer.pos) (hm : m = none) :
    let t := (X.closing s.hammer.pos s.hammer.pc (h.len + 1)).issueEnd s.hammer.pos
    t.hammer.ending = some (some F.fail) ∧ t.hammer.open_ = false ∧ t.hammer.run = s.hammer.run ∧ t.hammer.flight = [] ∧
      t.hammer.s = s.hammer.s ∧ t.anvils = s.anvils ∧ ∀ a, t.byte a = s.byte a := by
  subst hl hm
  have hh := passed_tookUp hX hs
  have hf : (s.passed X h).hammer.faults = [F] := by rw [hh]
  have hend : (s.passed X h).issueEnd s.hammer.pos = (s.passed X h).stopJob none := by
    unfold State.issueEnd
    rw [hf]
    exact if_pos (by simp [hF])
  rw [closing_tookUp hX hs (by simp), hend]
  obtain ⟨h1, h2, h3⟩ := (s.passed X h).stopJob_faulted F (by rw [hh]) hf
  intro t
  refine ⟨by rw [h1], by rw [h1], by rw [h1, hh], by rw [h1, hh], by rw [h1, hh], h3.trans hX.anvils, fun a => ?_⟩
  refine Eq.trans ?_ (byte_tookUp hX h a)
  unfold State.byte
  rw [h2]

end

/-- The frame of a word that has met no fault. -/
theorem handed_tookUp {s X : State} {h : Hd} {m : Option Marker} (hX : s.tookUp X m []) (hs : s.sole h [9]) :
    s.handed (s.passed X h) h ∧ (s.passed X h).hammer.flight = [] ∧ ∀ a, (s.passed X h).byte a = s.byte a := by
  have hh := passed_tookUp hX hs
  refine ⟨⟨?_, ?_, ?_, ?_, ?_, ?_, ?_, ?_, ?_, hX.anvils⟩, ?_, byte_tookUp hX h⟩
  all_goals rw [hh]

/-! ### Markers -/

section
variable {s : State} {h : Hd} {f : TTf} {j : Job} {i : Img} (hs : s.sole h [9]) (hl : ttLegal 1 f = true)
  (hj : s.hammer.run.bind s.job = some j) (hi : s.runImage = some i)
include hs hl hj hi

/-- A heat that the image does not have ends the job with HEAT_RANGE, code 0x06 (R153, R188). -/
theorem heat_absent (hid : i.heatCount ≤ f.heat) : ∃ t, exec (.heat h f) s = .next t ∧ s.failed t 0x06 := by
  obtain ⟨_, _, _, _, _, _, _, hmk, _⟩ := id hs
  have hX := tookUp_addFault (tookUp_beside hs (X := s.opening) rfl rfl rfl) s.hammer.pos 0x06 0 9 255 0
  rw [← State.heatMark_absent (u := s.opening) hj hi hmk _ (h.len + 1) f.heat f.imm
    (s.hammer.tok.all (fun t => t.2.count == 0)) hid] at hX
  obtain ⟨he, hrest⟩ := stopped_tookUp hX hs rfl (Nat.le_refl _) rfl
  exact ⟨_, ttOp_issue hs hl rfl, ⟨_, he, rfl, rfl⟩, hrest⟩

theorem heat_marks (hid : f.heat < i.heatCount) (hx : s.ueIn (i.heatAddr f.heat) 64 = none) (hc : j.cancel = []) :
    ∃ t m, exec (.heat h f) s = .next t ∧ (s.handed t h ∧ t.hammer.flight = [] ∧ ∀ a, t.byte a = s.byte a) ∧
      t.temper.reqHint = 0 ∧ t.temper.reqOp = s.temper.reqOp ∧ t.hammer.marker = some m ∧ m.pos = s.hammer.pos ∧ m.heat = f.heat := by
  obtain ⟨_, _, _, _, _, _, _, hmk, _⟩ := id hs
  obtain ⟨w, m, hw, hpos, hheat, heq⟩ := State.heatMark_marks (u := s.opening) hj hi hmk s.hammer.pos (h.len + 1) f.heat f.imm
    (s.hammer.tok.all (fun t => t.2.count == 0)) hid hx hc
  have hX := tookUp_marker (tookUp_chose (tookUp_unhinted hs) hw) m
  have hexec := ttOp_issue (e := .heat f.heat f.imm) hs hl rfl
  rw [show s.temperEff h (.heat f.heat f.imm) = _ from heq, issueEnd_tookUp hX hs (by simp [hpos]) (by simp)] at hexec
  have hq : w.temper.reqHint = 0 ∧ w.temper.reqOp = s.temper.reqOp := by
    rw [hw.temper]
    exact ⟨rfl, rfl⟩
  exact ⟨_, m, hexec, handed_tookUp hX hs, hq.1, hq.2, by rw [passed_tookUp hX hs], hpos, hheat⟩

theorem heat_cancels (hid : f.heat < i.heatCount) (hx : s.ueIn (i.heatAddr f.heat) 64 = none) (hc : j.cancel ≠ []) :
    ∃ t x, exec (.heat h f) s = .next t ∧ t.hammer.ending = some (some x) ∧ x.cause = cCANCELLED ∧ t.hammer.open_ = false := by
  obtain ⟨_, _, _, _, _, _, _, hmk, _⟩ := id hs
  obtain ⟨w, hw, heq⟩ := State.heatMark_cancels (u := s.opening) hj hi hmk s.hammer.pos (h.len + 1) f.heat f.imm
    (s.hammer.tok.all (fun t => t.2.count == 0)) hid hx hc
  have hX := tookUp_addFault (tookUp_chose (tookUp_unhinted hs) hw) s.hammer.pos cCANCELLED 0 20 255 0
  rw [← heq] at hX
  obtain ⟨he, ho, -⟩ := stopped_tookUp hX hs rfl (Nat.le_refl _) rfl
  exact ⟨_, _, ttOp_issue hs hl rfl, he, rfl, ho⟩

theorem heat_unread (hid : f.heat < i.heatCount) (hst : s.stopAhead i (h.len + 1) = false)
    (hx : s.ueIn (i.heatAddr f.heat) 64 ≠ none) :
    ∃ t x, exec (.heat h f) s = .next t ∧ t.hammer.faults = [x] ∧ x.pos = s.hammer.pos ∧ x.detect = s.hammer.pos + 2 ∧
      x.fail.cause = 0x04 ∧ t.hammer.ending = none := by
  obtain ⟨_, _, _, _, _, _, _, hmk, _⟩ := id hs
  obtain ⟨k, hk⟩ := Option.ne_none_iff_exists'.mp hx
  have hst' : s.opening.unhinted.stopAhead i (h.len + 1) = false :=
    (State.stopAhead_congr (u := s) (v := s.opening.unhinted) rfl rfl rfl i _).trans hst
  have heq := State.heatMark_unread (u := s.opening) hj hi hmk s.hammer.pos (h.len + 1) f.heat f.imm
    (s.hammer.tok.all (fun t => t.2.count == 0)) hid hst' hk
  have hX := tookUp_marker (tookUp_addFault (tookUp_tokensOnly (tookUp_unhinted hs) (State.tokensOnly_reportUe _ 9 k))
    s.hammer.pos 0x04 2 9 255 (locOf k)) ⟨s.hammer.pos, f.heat, false, 0, 0, 0, none⟩
  have hexec := ttOp_issue (e := .heat f.heat f.imm) hs hl rfl
  rw [show s.temperEff h (.heat f.heat f.imm) = _ from heq, issueEnd_tookUp hX hs (by simp) (by simp)] at hexec
  have hh := passed_tookUp hX hs
  exact ⟨_, _, hexec, by rw [hh]; rfl, rfl, rfl, rfl, by rw [hh]⟩

end

/-! ### The words -/

section
variable {s : State} {h : Hd} (hs : s.sole h [9])
include hs

/-- A word without a marker or a fault completes. -/
theorem temperWord_completes {f : TTf} {op : Nat} {e : Eff} (hl : ttLegal op f = true) (he : e.isTemper = true)
    (hm : (s.temperEff h e).mem = s.mem) (ha : (s.temperEff h e).anvils = s.anvils)
    (hh : (s.temperEff h e).hammer = s.opening.hammer) :
    let t := s.passed (s.temperEff h e) h
    s.slotOp h (ttOp op f e) = .next t ∧ (s.handed t h ∧ t.hammer.flight = [] ∧ ∀ a, t.byte a = s.byte a) ∧ t.hammer.marker = none := by
  have hX := tookUp_beside hs hm ha hh
  refine ⟨?_, handed_tookUp hX hs, ?_⟩
  · rw [ttOp_issue hs hl he, issueEnd_tookUp hX hs (by simp) (by simp)]
  · rw [passed_tookUp hX hs]

end

/-! ### Snapshots -/

/-- The position passed changes Hammer alone. -/
theorem State.passed_temper (s X : State) (h : Hd) : (s.passed X h).temper = X.temper := rfl
theorem State.passed_snapReq (s X : State) (h : Hd) : (s.passed X h).snapReq = X.snapReq := rfl
theorem State.passed_get (s X : State) (h : Hd) (f : Fd) : (s.passed X h).get f = X.get f := rfl

/-- A `snap` that finds no request makes one (R627). -/
theorem State.snapRequest_alone {u : State} (h : u.snapReq = none) (tag pos : Nat) :
    u.snapRequest 1 tag pos = { u with snapReq := some ⟨1, tag, u.get TONGS_JOBSTAT_RUNJOB, pos, u.cyc⟩ } := by
  unfold State.snapRequest
  rw [h]
  rfl

/-- A `snap` that finds a request pending joins it, and gives it its tag where it is the first to launch (R627). -/
theorem State.snapRequest_joins {u : State} {r : SnapReq} (h : u.snapReq = some r) (tag pos : Nat) :
    ∃ q, u.snapRequest 1 tag pos = { u with snapReq := some q }.inc HAMMER_SNAPCTL_MERGED ∧ q.src = r.src ||| 1 ∧ q.at_ = r.at_ ∧
      q.job = r.job ∧ if u.cyc ≤ r.at_ ∧ r.src % 2 = 0 then q.tag = tag ∧ q.pos = pos else q.tag = r.tag ∧ q.pos = r.pos := by
  unfold State.snapRequest
  rw [h]
  refine ⟨_, rfl, ?_⟩
  by_cases hc : u.cyc ≤ r.at_ ∧ r.src % 2 = 0
  · simp [State.launchAt, hc]
  · simp [State.launchAt, hc]

section
variable {s : State} {h : Hd} {f : TTf} (hs : s.sole h [9]) (hl : ttLegal 3 f = true)
include hs hl

theorem snap_requests (hr : s.snapReq = none) : ∃ t, exec (.tSnap h f) s = .next t ∧
    (s.handed t h ∧ t.hammer.flight = [] ∧ ∀ a, t.byte a = s.byte a) ∧ t.hammer.marker = none ∧ t.temper = s.temper ∧
    t.snapReq = some ⟨1, f.imm, s.get TONGS_JOBSTAT_RUNJOB, s.hammer.pos, s.cyc⟩ := by
  have heq : s.temperEff h (.snap f.imm) = _ := State.snapRequest_alone (u := s.opening) hr f.imm s.hammer.pos
  obtain ⟨hx, hf, hm⟩ := temperWord_completes hs (e := .snap f.imm) hl rfl (by rw [heq]; rfl) (by rw [heq]; rfl) (by rw [heq])
  rw [heq] at hx hf hm
  refine ⟨_, hx, hf, hm, rfl, ?_⟩
  rw [← s.get_opening TONGS_JOBSTAT_RUNJOB (by decide) (by decide)]
  rfl

theorem snap_joins {r : SnapReq} (hr : s.snapReq = some r) : ∃ t, exec (.tSnap h f) s = .next t ∧
    (s.handed t h ∧ t.hammer.flight = [] ∧ ∀ a, t.byte a = s.byte a) ∧ t.hammer.marker = none ∧ t.temper = s.temper ∧
    t.get HAMMER_SNAPCTL_MERGED = min (s.get HAMMER_SNAPCTL_MERGED + 1) 65535 ∧
    ∃ q, t.snapReq = some q ∧ q.src = r.src ||| 1 ∧ q.at_ = r.at_ ∧ q.job = r.job ∧
      if s.cyc ≤ r.at_ ∧ r.src % 2 = 0 then q.tag = f.imm ∧ q.pos = s.hammer.pos else q.tag = r.tag ∧ q.pos = r.pos := by
  obtain ⟨q, hq, hrest⟩ := State.snapRequest_joins (u := s.opening) hr f.imm s.hammer.pos
  have heq : s.temperEff h (.snap f.imm) = _ := hq
  obtain ⟨hx, hf, hm⟩ := temperWord_completes hs (e := .snap f.imm) hl rfl (by rw [heq, State.inc_mem]; rfl)
    (by rw [heq, State.inc_anvils]; rfl) (by rw [heq, State.inc_hammer])
  rw [heq] at hx hf hm
  refine ⟨_, hx, hf, hm, ?_, ?_, q, ?_, hrest⟩
  · rw [State.passed_temper, State.inc_temper]
    rfl
  · rw [State.passed_get, State.get_inc_self _ _ (by decide) (by decide),
      ← s.get_opening HAMMER_SNAPCTL_MERGED (by decide) (by decide)]
    rfl
  · rw [State.passed_snapReq, State.inc_snapReq]

end

/-- Settles O19: a marker by the three answers of `heatMark`, the other words by their effect on Temper or on the snapshot request.
That a `snap` joins the request that is pending is the model's choice (assumption log 30). -/
theorem temperWords : Obligations.TemperWords := by
  intro s h f hs frame
  refine ⟨fun hl j i hj hi => ⟨heat_absent hs hl hj hi, heat_marks hs hl hj hi, heat_cancels hs hl hj hi, heat_unread hs hl hj hi⟩,
    fun hl => ?_, fun hl => ?_, fun hl => ?_⟩
  · obtain ⟨hx, hf, hm⟩ := temperWord_completes hs (e := .opreq f.opt) hl rfl rfl rfl rfl
    exact ⟨_, hx, hf, hm, rfl⟩
  · cases hr : s.snapReq with
    | none => exact snap_requests hs hl hr
    | some r => exact snap_joins hs hl hr
  · obtain ⟨hx, hf, hm⟩ := temperWord_completes hs (e := .phint f.imm) hl rfl rfl rfl rfl
    exact ⟨_, hx, hf, hm, rfl⟩

end Sys2Proof.Machine
end

