-- ==== Sys2Proof/Proofs/ResetState.lean ====
section
/-! The state after cold reset (O58): no domain is switched on. -/

namespace Sys2Proof.Machine

/-- At reset no domain of the words `PDSTAT0` to `PDSTAT2` is on. -/
theorem State.rd_reset_pdstat {k : Nat} (h : k < 3) : State.reset.rd (BELLOWS_PDSTAT k) = 0 := by
  obtain rfl | rfl | rfl : k = 0 ∨ k = 1 ∨ k = 2 := by omega
  all_goals decide

/-- Of the domains at reset none is on: neither those of `PDSTAT0` to `PDSTAT2` nor the three of the words after them. -/
theorem State.domOn_reset {d : Nat} (hd : d < 195) : State.reset.domOn d = false := by
  unfold State.domOn
  split
  · rw [State.rd_reset_pdstat (by omega)]
    exact BitVec.getLsbD_zero
  · obtain rfl | rfl | rfl : d = 192 ∨ d = 193 ∨ d = 194 := by omega
    all_goals decide

/-- Settles O58: every part of the statement is read off the reset state. The values that the spec does not
give are the model's (assumption log 4, 14, 15 and 141). -/
theorem afterReset : Obligations.AfterReset := by
  refine ⟨State.memOk_reset, fun _ => rfl, fun _ => rfl, rfl, rfl, ?_, fun d hd => State.domOn_reset hd, rfl, rfl, rfl,
    rfl, rfl, rfl, rfl, fun _ => rfl⟩
  decide

end Sys2Proof.Machine
end

