-- ==== Sys2Proof/Proofs/MemCanonRules.lean ====
section
/-! The canonical form of the memory (`State.memOk`), as a property to carry through the model's functions.
A function that leaves the memory alone has the rule `(s.f …).memOk = s.memOk`; one that writes bytes has
`s.memOk = true → (s.f …).memOk = true`. All of them are `simp` rules, so the rule of a function follows from those
of the functions it is made of. `simp` is run with `-implicitDefEqProofs` here and below: else it passes over the
rules that hold by definition, and the kernel would compare whole states by unfolding. -/

namespace Sys2Proof.Machine

@[simp] theorem State.memOk_mk (csr : Tab Word) (mem : List Host.Cell) (errs transit wb now free hammer anvils xq crucs tongs jobs
    ueTimes holds fenceReq evrec srcs grps cores temper core mclk trace snapReq shadow cool quench tuyere can mgmt pwr secb jtag pending) :
    State.memOk ⟨csr, mem, errs, transit, wb, now, free, hammer, anvils, xq, crucs, tongs, jobs, ueTimes, holds, fenceReq, evrec, srcs,
      grps, cores, temper, core, mclk, trace, snapReq, shadow, cool, quench, tuyere, can, mgmt, pwr, secb, jtag, pending⟩ =
    Memory.wf mem := (rfl)

@[simp] theorem State.wf_mem (s : State) : Memory.wf s.mem = s.memOk := (rfl)

@[simp] theorem State.memOk_ite (p : Prop) [Decidable p] (s t : State) : (if p then s else t).memOk = if p then s.memOk else t.memOk :=
  apply_ite State.memOk p s t

@[simp] theorem State.snd_ite {α β : Type} (p : Prop) [Decidable p] (x y : α × β) : (if p then x else y).2 = if p then x.2 else y.2 :=
  apply_ite Prod.snd p x y

@[simp] theorem State.memOk_foldl_eq {α : Type} {f : State → α → State} (h : ∀ s a, (f s a).memOk = s.memOk) (l : List α) (s : State) :
    (l.foldl f s).memOk = s.memOk := by
  induction l generalizing s with
  | nil => rfl
  | cons a l ih => exact (ih (f s a)).trans (h s a)

theorem State.memOk_foldl_snd {α β : Type} {f : β × State → α → β × State} (h : ∀ x a, (f x a).2.memOk = x.2.memOk) (l : List α)
    (x : β × State) : (l.foldl f x).2.memOk = x.2.memOk := by
  induction l generalizing x with
  | nil => rfl
  | cons a l ih => exact (ih (f x a)).trans (h x a)

theorem State.memOk_of_eq {α : Type} {x : α × State} {b : Bool} (h : x.2.memOk = b) {a : α} {t : State} (e : x = (a, t)) : t.memOk = b := by
  subst e; exact h

theorem State.memOk_of_eq₂ {α β : Type} {x : α × β × State} {b : Bool} (h : x.2.2.memOk = b) {a : α} {c : β} {t : State}
    (e : x = (a, c, t)) : t.memOk = b := by
  subst e; exact h

end Sys2Proof.Machine
end

