-- ==== Sys2Proof/Proofs/MemCanonFrame.lean ====
section
/-! What each function of the state does to the memory's canonical form, in the order in which the
functions use one another. The bytes are written by the rules of `Laws/Memory.lean` only (`State.memOk_setBytes`,
`State.memOk_clearMem` and their like); everything else is a frame. -/

namespace Sys2Proof.Machine

@[simp] theorem State.memOk_setS (s : State) (n : ℕ) (x : Word) :
    (s.setS n x).memOk = s.memOk := by simp -implicitDefEqProofs [State.setS]

@[simp] theorem State.memOk_wr (s : State) (a : ℕ) (w : Word) :
    (s.wr a w).memOk = s.memOk := congrArg Memory.wf (s.wr_mem a w)

@[simp] theorem State.memOk_put (s : State) (f : Fd) (v : ℕ) :
    (s.put f v).memOk = s.memOk := congrArg Memory.wf (s.put_mem f v)

@[simp] theorem State.memOk_onHammer (s : State) (f : Hammer → Hammer) :
    (s.onHammer f).memOk = s.memOk := congrArg Memory.wf (s.onHammer_mem f)

@[simp] theorem State.memOk_orFlags (s : State) (g : ℕ) (fl : Flags) :
    (s.orFlags g fl).memOk = s.memOk := by simp -implicitDefEqProofs [State.orFlags]

@[simp] theorem State.memOk_setAnvil (s : State) (g : ℕ) (a : Anvil) :
    (s.setAnvil g a).memOk = s.memOk := congrArg Memory.wf (s.setAnvil_mem g a)

@[simp] theorem State.memOk_applyA (s : State) (g : ℕ) (e : AEff) :
    (s.applyA g e).memOk = s.memOk := by
  unfold State.applyA
  split <;> simp -implicitDefEqProofs

@[simp] theorem State.memOk_fresh (s : State) (n : ℕ) :
    (s.fresh n).2.memOk = s.memOk := by simp -implicitDefEqProofs [State.fresh]

@[simp] theorem State.memOk_putB (s : State) (f : Fd) (b : Bool) :
    (s.putB f b).memOk = s.memOk := congrArg Memory.wf (s.putB_mem f b)

@[simp] theorem State.memOk_crucStat (s : State) (k : ℕ) :
    (s.crucStat k).memOk = s.memOk := by simp -implicitDefEqProofs [State.crucStat]

@[simp] theorem State.memOk_setCruc (s : State) (k : ℕ) (c : Cruc) :
    (s.setCruc k c).memOk = s.memOk := congrArg Memory.wf (s.setCruc_mem k c)

@[simp] theorem State.memOk_setJob (s : State) (j : ℕ) (x : Option Job) :
    (s.setJob j x).memOk = s.memOk := congrArg Memory.wf (s.setJob_mem j x)

@[simp] theorem State.memOk_setTok (s : State) (t : ℕ) (x : Tok) :
    (s.setTok t x).memOk = s.memOk := congrArg Memory.wf (s.setTok_mem t x)

@[simp] theorem State.memOk_tokDone (s : State) (job : ℕ) (t : ℕ) (f : Option Fail) :
    (s.tokDone job t f).memOk = s.memOk := by
  unfold State.tokDone
  (repeat' split) <;> simp -implicitDefEqProofs

@[simp] theorem State.memOk_cacheStat (s : State) :
    s.cacheStat.memOk = s.memOk := by simp -implicitDefEqProofs [State.cacheStat]

@[simp] theorem State.memOk_unpin (s : State) (n : ℕ) :
    (s.unpin n).memOk = s.memOk := by simp -implicitDefEqProofs [State.unpin]

@[simp] theorem State.memOk_setCtx (s : State) (n : ℕ) (c : Ctx) :
    (s.setCtx n c).memOk = s.memOk := congrArg Memory.wf (s.setCtx_mem n c)

@[simp] theorem State.memOk_cmdDone (s : State) (n : ℕ) (need : ℕ) :
    (s.cmdDone n need).memOk = s.memOk := by simp -implicitDefEqProofs [State.cmdDone]

@[simp] theorem State.memOk_queueMsg (s : State) (n : ℕ) (opc : ℕ) (resp : Bool) (data : List Byte) (nop : Option ℕ) :
    (s.queueMsg n opc resp data nop).memOk = s.memOk := by simp -implicitDefEqProofs [State.queueMsg]

@[simp] theorem State.memOk_respond (s : State) (n : ℕ) (ctype : ℕ) (status : ℕ) (sub : ℕ) (ctag : ℕ) (result : ℕ) (loc : Word) :
    (s.respond n ctype status sub ctag result loc).memOk = s.memOk := by simp -implicitDefEqProofs [State.respond]

@[simp] theorem State.memOk_crucAnswer (s : State) (k : ℕ) (src : CSrc) (st : ℕ) (err : ℕ) (seq : ℕ) (fl : Flags) (loc : Word) :
    (s.crucAnswer k src st err seq fl loc).memOk = s.memOk := by
  unfold State.crucAnswer
  (repeat' split) <;> simp -implicitDefEqProofs

@[simp] theorem State.memOk_add (s : State) (f : Fd) (n : ℕ) :
    (s.add f n).memOk = s.memOk := congrArg Memory.wf (s.add_mem f n)

@[simp] theorem State.memOk_inc (s : State) (f : Fd) :
    (s.inc f).memOk = s.memOk := congrArg Memory.wf (s.inc_mem f)

@[simp] theorem State.memOk_setDom (s : State) (d : ℕ) (b : Bool) :
    (s.setDom d b).memOk = s.memOk := by simp -implicitDefEqProofs [State.setDom]

@[simp] theorem State.memOk_watch (s : State) (n : ℕ) :
    (s.watch n).memOk = s.memOk := by simp -implicitDefEqProofs [State.watch]

@[simp] theorem State.memOk_setCore (s : State) (t : ℕ) (x : CoreIrq) :
    (s.setCore t x).memOk = s.memOk := congrArg Memory.wf (s.setCore_mem t x)

@[simp] theorem State.memOk_setNotice (s : State) (t : ℕ) :
    (s.setNotice t).memOk = s.memOk := by simp -implicitDefEqProofs [State.setNotice]

@[simp] theorem State.memOk_setSrc (s : State) (n : ℕ) (x : Src) :
    (s.setSrc n x).memOk = s.memOk := congrArg Memory.wf (s.setSrc_mem n x)

@[simp] theorem State.memOk_ntfSync (s : State) :
    s.ntfSync.memOk = s.memOk := by simp -implicitDefEqProofs [State.ntfSync]

@[simp] theorem State.memOk_notifyFrame (s : State) (dst : BitVec 128) (x : Ntf) :
    (s.notifyFrame dst x).memOk = s.memOk := by simp -implicitDefEqProofs [State.notifyFrame]

@[simp] theorem State.memOk_notify (s : State) (n : ℕ) (prio : ℕ) (evt : ℕ) :
    (s.notify n prio evt).2.memOk = s.memOk := by
  simp only [State.notify]
  (repeat' split) <;> simp -implicitDefEqProofs

@[simp] theorem State.memOk_deliver (s : State) (n : ℕ) (t : ℕ) :
    (s.deliver n t).memOk = s.memOk := by simp -implicitDefEqProofs [State.deliver]

@[simp] theorem State.memOk_assign (s : State) (n : ℕ) (t : ℕ) :
    (s.assign n t).memOk = s.memOk := by
  simp only [State.assign]
  (repeat' split) <;> simp -implicitDefEqProofs

@[simp] theorem State.memOk_route (s : State) (n : ℕ) :
    (s.route n).memOk = s.memOk := by
  simp only [State.route]
  (repeat' split) <;> simp -implicitDefEqProofs

@[simp] theorem State.memOk_releaseGroup (s : State) (g : ℕ) :
    (s.releaseGroup g).memOk = s.memOk := by simp -implicitDefEqProofs [State.releaseGroup]

@[simp] theorem State.memOk_raise (s : State) (n : ℕ) :
    (s.raise n).memOk = s.memOk := by simp -implicitDefEqProofs [State.raise]

@[simp] theorem State.memOk_lower (s : State) (n : ℕ) :
    (s.lower n).memOk = s.memOk := by simp -implicitDefEqProofs [State.lower]

@[simp] theorem State.memOk_setLevel (s : State) (n : ℕ) (b : Bool) :
    (s.setLevel n b).memOk = s.memOk := by simp -implicitDefEqProofs [State.setLevel]

@[simp] theorem State.memOk_evrecLevel (s : State) :
    s.evrecLevel.memOk = s.memOk := by simp -implicitDefEqProofs [State.evrecLevel]

@[simp] theorem State.memOk_evrecSync (s : State) :
    s.evrecSync.memOk = s.memOk := by simp -implicitDefEqProofs [State.evrecSync]

@[simp] theorem State.memOk_dropGroup (s : State) (g : List Evt) :
    (s.dropGroup g).memOk = s.memOk := by
  unfold State.dropGroup
  split <;> simp -implicitDefEqProofs

@[simp] theorem State.memOk_appendEvt (s : State) (e : Evt) :
    (s.appendEvt e).memOk = s.memOk := by simp -implicitDefEqProofs [State.appendEvt]

@[simp] theorem State.memOk_eventGroup (s : State) (g : List Evt) :
    (s.eventGroup g).2.memOk = s.memOk := by
  unfold State.eventGroup
  split <;> simp -implicitDefEqProofs

@[simp] theorem State.memOk_eventSeq (s : State) (code : ℕ) (sev : ℕ) (src : ℕ) (p0 : ℕ) (p1 : ℕ) (p2 : ℕ) :
    (s.eventSeq code sev src p0 p1 p2).2.memOk = s.memOk := by
  unfold State.eventSeq
  split <;> simp -implicitDefEqProofs

@[simp] theorem State.memOk_eventIrq (s : State) (irq : ℕ) (code : ℕ) (sev : ℕ) (src : ℕ) (p0 : ℕ) (p1 : ℕ) (p2 : ℕ) :
    (s.eventIrq irq code sev src p0 p1 p2).memOk = s.memOk := by simp -implicitDefEqProofs [State.eventIrq]

@[simp] theorem State.memOk_crucError (s : State) (k : ℕ) (queue : ℕ) (err : ℕ) (cmd : ℕ) (seq : ℕ) (loc : Word) :
    (s.crucError k queue err cmd seq loc).memOk = s.memOk := by simp -implicitDefEqProofs [State.crucError]

@[simp] theorem State.memOk_crucRefuse (s : State) (k : ℕ) (queue : ℕ) (err : ℕ) (cmd : ℕ) (src : CSrc) (loc : Word) :
    (s.crucRefuse k queue err cmd src loc).memOk = s.memOk := by simp -implicitDefEqProofs [State.crucRefuse]

@[simp] theorem State.memOk_crucRefetch (s : State) (x : DescAt) : (s.crucRefetch x).memOk = s.memOk := by
  fun_cases State.crucRefetch s x <;> simp -implicitDefEqProofs +zetaDelta

@[simp] theorem State.memOk_meetDescs (s : State) (p : ℕ) (a : ℕ) (n : ℕ) :
    (s.meetDescs p a n).memOk = s.memOk := by simp -implicitDefEqProofs [State.meetDescs]

@[simp] theorem State.memOk_commit (s : State) (e : Eff) (hm : s.memOk = true) :
    (s.commit e).memOk = true := by
  unfold State.commit
  split <;> simp -implicitDefEqProofs [hm, State.memOk_writeN]

@[simp] theorem State.memOk_commitAt (s : State) (p : ℕ) (hm : s.memOk = true) : (s.commitAt p).memOk = true :=
  State.memOk_foldl _ _ (fun s f _ hm => s.memOk_commit f.eff hm) _ hm

@[simp] theorem State.memOk_drain (s : State) (hm : s.memOk = true) : s.drain.memOk = true :=
  State.memOk_foldl _ _ (fun s _ _ hm => s.memOk_commitAt _ hm) _ hm

@[simp] theorem State.memOk_stopJob (s : State) (f : Option Fail) (hm : s.memOk = true) :
    (s.stopJob f).memOk = true := by simp -implicitDefEqProofs [State.stopJob, hm]

@[simp] theorem State.memOk_memUe (s : State) (consumer : ℕ) (key : ℕ) (loc : Word) :
    (s.memUe consumer key loc).memOk = s.memOk := by simp -implicitDefEqProofs [State.memUe]

@[simp] theorem State.memOk_noteUe (s : State) (k : ℕ) (span : ℕ) (n : ℕ) :
    (s.noteUe k span n).2.memOk = s.memOk := by simp -implicitDefEqProofs [State.noteUe]

@[simp] theorem State.memOk_reportUe (s : State) (consumer : ℕ) (key : ℕ) :
    (s.reportUe consumer key).memOk = s.memOk := by
  unfold State.reportUe
  split <;> simp -implicitDefEqProofs

@[simp] theorem State.memOk_correct (s : State) (key : ℕ) :
    (s.correct key).memOk = s.memOk := by simp -implicitDefEqProofs [State.correct]

@[simp] theorem State.memOk_correctRange (s : State) (a : ℕ) (n : ℕ) :
    (s.correctRange a n).memOk = s.memOk := by simp -implicitDefEqProofs [State.correctRange]

@[simp] theorem State.memOk_openBundle (s : State) (len : ℕ) (hm : s.memOk = true) :
    (s.openBundle len).memOk = true := by
  simp only [State.openBundle]
  (repeat' split) <;> simp -implicitDefEqProofs [hm]

@[simp] theorem State.memOk_join (s : State) (h : Hd) (o : SlotOp) :
    (s.join h o).memOk = s.memOk := by simp -implicitDefEqProofs [State.join]

@[simp] theorem State.memOk_traced (s : State) (ty : ℕ) (data : ℕ) :
    (s.traced ty data).memOk = s.memOk := by simp -implicitDefEqProofs [State.traced]

@[simp] theorem State.memOk_release (s : State) :
    s.release.memOk = s.memOk := by
  unfold State.release
  (repeat' split) <;> simp -implicitDefEqProofs

@[simp] theorem State.memOk_hold (s : State) (w : Stall) :
    (s.hold w).memOk = s.memOk := by simp -implicitDefEqProofs [State.hold]

@[simp] theorem State.memOk_wantCache (s : State) (n : ℕ) :
    (s.wantCache n).2.memOk = s.memOk := by simp -implicitDefEqProofs [State.wantCache]

@[simp] theorem State.memOk_wantGroup (s : State) (l : List Flight) : (s.wantGroup l).memOk = s.memOk := by
  refine State.memOk_foldl_eq (fun s f => ?_) l s
  split <;> simp -implicitDefEqProofs

@[simp] theorem State.memOk_seedHeat (s : State) (seed : Word) (count : ℕ) :
    (s.seedHeat seed count).memOk = s.memOk := by simp -implicitDefEqProofs [State.seedHeat]

@[simp] theorem State.memOk_traceTrig (s : State) (k : ℕ) :
    (s.traceTrig k).memOk = s.memOk := by simp -implicitDefEqProofs [State.traceTrig]

@[simp] theorem State.memOk_heatBegin (s : State) (b : Begin) :
    (s.heatBegin b).memOk = s.memOk := by simp -implicitDefEqProofs [State.heatBegin]

@[simp] theorem State.memOk_heatStarts (s : State) :
    s.heatStarts.memOk = s.memOk := by
  unfold State.heatStarts
  split <;> simp -implicitDefEqProofs

@[simp] theorem State.memOk_fly (s : State) (due : ℕ) (e : Eff) :
    (s.fly due e).memOk = s.memOk := by simp -implicitDefEqProofs [State.fly]

@[simp] theorem State.memOk_addFault (s : State) (n : ℕ) (cause : ℕ) (after : ℕ) (slot : ℕ) (fanvil : ℕ) (loc : Word) :
    (s.addFault n cause after slot fanvil loc).memOk = s.memOk := by simp -implicitDefEqProofs [State.addFault]

@[simp] theorem State.memOk_issueLoad (n : ℕ) (slot : ℕ) (file : ℕ) (d : ℕ) (lat : ℕ) (hearth : Bool) (s : State) (p : ℕ × ℕ) :
    (State.issueLoad n slot file d lat hearth s p).memOk = s.memOk := by
  simp only [State.issueLoad]
  (repeat' split) <;> simp -implicitDefEqProofs

@[simp] theorem State.memOk_issueStore (n : ℕ) (slot : ℕ) (len : ℕ) (hearth : Bool) (s : State) (p : ℕ × ℕ × ℕ) :
    (State.issueStore n slot len hearth s p).memOk = s.memOk := by simp -implicitDefEqProofs [State.issueStore]

@[simp] theorem State.memOk_movedAt (crm : Bool) (s : State) (p : ℕ × ℕ) :
    (State.movedAt crm s p).memOk = s.memOk := by
  unfold State.movedAt
  split <;> simp -implicitDefEqProofs

@[simp] theorem State.memOk_moved (s : State) (crm : Bool) (a : ℕ) (n : ℕ) :
    (s.moved crm a n).memOk = s.memOk := by simp -implicitDefEqProofs [State.moved]

@[simp] theorem State.memOk_drawStale (s : State) (n : ℕ) : (s.drawStale n).2.memOk = s.memOk := by
  refine State.memOk_foldl_snd (fun acc a => ?_) _ _
  simp -implicitDefEqProofs

@[simp] theorem State.memOk_tokUp (s : State) (t : ℕ) (n : ℕ) :
    (s.tokUp t n).memOk = s.memOk := by simp -implicitDefEqProofs [State.tokUp]

@[simp] theorem State.memOk_pushX (s : State) (u : ℕ) (o : XOp) :
    (s.pushX u o).memOk = s.memOk := by simp -implicitDefEqProofs [State.pushX]

@[simp] theorem State.memOk_crucAdmit (s : State) (k : ℕ) (q : ℕ) (d : BitVec 512) (src : CSrc) (seed : Word) :
    (s.crucAdmit k q d src seed).memOk = s.memOk := by
  unfold State.crucAdmit
  (repeat' split) <;> simp -implicitDefEqProofs

@[simp] theorem State.memOk_view (s : State) (st : Stale) (hm : s.memOk = true) : (s.view st).memOk = true := by
  refine State.memOk_foldl _ _ (fun s e _ hm => ?_) _ hm
  simp [hm, State.memOk_setBytes]

@[simp] theorem State.memOk_crucFetch (s : State) (k : ℕ) (q : ℕ) (addr : ℕ) (job : ℕ) (t : ℕ) (stale : Stale) (hm : s.memOk = true) :
    (s.crucFetch k q addr job t stale).memOk = true := by
  unfold State.crucFetch
  (repeat' split) <;> simp -implicitDefEqProofs [hm]

@[simp] theorem State.memOk_pin (s : State) (n : ℕ) :
    (s.pin n).2.memOk = s.memOk := by simp -implicitDefEqProofs [State.pin]

@[simp] theorem State.memOk_touch (s : State) (n : ℕ) :
    (s.touch n).memOk = s.memOk := by
  unfold State.touch
  split <;> simp -implicitDefEqProofs

@[simp] theorem State.memOk_takeMsg (s : State) (n opc : ℕ) (msg : List Byte) (need : ℕ) : (s.takeMsg n opc msg need).2.memOk = s.memOk := by
  unfold State.takeMsg
  simp only
  split
  · rfl
  · split
    · rfl
    · split
      · next e => exact State.memOk_of_eq (s.memOk_pin n) e
      · next e => simp -implicitDefEqProofs [State.memOk_of_eq (s.memOk_pin n) e]

@[simp] theorem State.memOk_answerBad (f : ℕ) (s : State) (n : ℕ) : (State.answerBad f s n).memOk = s.memOk := by
  induction f generalizing s with
  | zero => rfl
  | succ f ih =>
    unfold State.answerBad
    (repeat' split) <;> try rfl
    · next e => simp -implicitDefEqProofs [ih, State.memOk_of_eq (s.memOk_takeMsg _ _ _ _) e]
    · next e => exact State.memOk_of_eq (s.memOk_takeMsg _ _ _ _) e

@[simp] theorem State.memOk_nopDone (s : State) (id : ℕ) (f : Option Fail) :
    (s.nopDone id f).memOk = s.memOk := by
  unfold State.nopDone
  split <;> simp -implicitDefEqProofs

@[simp] theorem State.memOk_setNop (s : State) (o : NOp) :
    (s.setNop o).memOk = s.memOk := by simp -implicitDefEqProofs [State.setNop]

@[simp] theorem State.memOk_queueSrc (s : State) (n : ℕ) (opc : ℕ) (a : ℕ) (len : ℕ) (st : Stale) (nop : ℕ) :
    (s.queueSrc n opc a len st nop).memOk = s.memOk := by simp -implicitDefEqProofs [State.queueSrc]

@[simp] theorem State.memOk_aredGo (f : ℕ) (s : State) (o : NOp) : (State.aredGo f s o).memOk = s.memOk := by
  induction f generalizing s o with
  | zero => simp [State.aredGo]
  | succ f ih =>
    unfold State.aredGo
    simp only
    split
    · split <;> simp -implicitDefEqProofs
    · split <;> simp -implicitDefEqProofs [ih]

@[simp] theorem State.memOk_nopTry (s : State) (o : NOp) :
    (s.nopTry o).memOk = s.memOk := by
  unfold State.nopTry
  (repeat' split) <;> simp -implicitDefEqProofs

@[simp] theorem State.memOk_nopPass (s : State) (n : ℕ) : (s.nopPass n).memOk = s.memOk := by
  refine State.memOk_foldl_eq (fun s o => ?_) _ s
  split <;> simp -implicitDefEqProofs

@[simp] theorem State.memOk_setIfc (s : State) (i : ℕ) (x : Ifc) :
    (s.setIfc i x).memOk = s.memOk := congrArg Memory.wf (s.setIfc_mem i x)

@[simp] theorem State.memOk_sendCtl (s : State) (i : ℕ) (dst : BitVec 128) (p : Pkt) :
    (s.sendCtl i dst p).memOk = s.memOk := by simp -implicitDefEqProofs [State.sendCtl]

@[simp] theorem State.memOk_sendRst (s : State) (i : ℕ) (dst : BitVec 128) (dstrm : ℕ) (sstrm : ℕ) (reason : ℕ) :
    (s.sendRst i dst dstrm sstrm reason).memOk = s.memOk := by simp -implicitDefEqProofs [State.sendRst]

@[simp] theorem State.memOk_hearClim (s : State) (n : ℕ) (clim : ℕ) :
    (s.hearClim n clim).memOk = s.memOk := by simp -implicitDefEqProofs [State.hearClim]

@[simp] theorem State.memOk_gate340 (s : State) (i : ℕ) (src : BitVec 128) (p : Pkt) (states : List ℕ) {k : ℕ → State → State}
    (hk : ∀ n s, (k n s).memOk = s.memOk) : (s.gate340 i src p states k).memOk = s.memOk := by
  simp -implicitDefEqProofs [State.gate340, hk]

theorem State.memOk_gate340_of (s : State) (i : ℕ) (src : BitVec 128) (p : Pkt) (states : List ℕ) {k : ℕ → State → State}
    (hk : ∀ n s, s.memOk = true → (k n s).memOk = true) (hm : s.memOk = true) : (s.gate340 i src p states k).memOk = true := by
  simp -implicitDefEqProofs [State.gate340, hk, hm]

@[simp] theorem State.memOk_sendAck (s : State) (n : ℕ) :
    (s.sendAck n).memOk = s.memOk := by simp -implicitDefEqProofs [State.sendAck]

@[simp] theorem State.memOk_forget (s : State) (n : ℕ) :
    (s.forget n).memOk = s.memOk := by simp -implicitDefEqProofs [State.forget]

@[simp] theorem State.memOk_closeAnswer (s : State) (c : Ctx) (failed : Bool) :
    (s.closeAnswer c failed).memOk = s.memOk := by
  unfold State.closeAnswer
  split <;> simp -implicitDefEqProofs

@[simp] theorem State.memOk_orphan (s : State) (n : ℕ) :
    (s.orphan n).memOk = s.memOk := by simp -implicitDefEqProofs [State.orphan]

@[simp] theorem State.memOk_failCause (s : State) (reason : ℕ) :
    (s.failCause reason).2.memOk = s.memOk := by simp -implicitDefEqProofs [State.failCause]

@[simp] theorem State.memOk_failNops (s : State) (n : ℕ) (cause : ℕ) (reason : ℕ) :
    (s.failNops n cause reason).memOk = s.memOk := by simp -implicitDefEqProofs [State.failNops]

@[simp] theorem State.memOk_failStream (s : State) (n : ℕ) (reason : ℕ) (rst : Bool) :
    (s.failStream n reason rst).memOk = s.memOk := by simp -implicitDefEqProofs [State.failStream]

@[simp] theorem State.memOk_holdPkt (s : State) (i : ℕ) (src : BitVec 128) (p : Pkt) :
    (s.holdPkt i src p).memOk = s.memOk := by simp -implicitDefEqProofs [State.holdPkt]

@[simp] theorem State.memOk_takeTransit (s : State) (consumer : ℕ) (a : ℕ) (n : ℕ) :
    (s.takeTransit consumer a n).2.memOk = s.memOk := by
  unfold State.takeTransit
  split <;> simp -implicitDefEqProofs

@[simp] theorem State.memOk_unloadImage (s : State) (base : ℕ) :
    (s.unloadImage base).memOk = s.memOk := by simp -implicitDefEqProofs [State.unloadImage]

@[simp] theorem State.memOk_tongsWrite (s : State) (a : ℕ) (l : List Byte) (hm : s.memOk = true) : (s.tongsWrite a l).memOk = true := by
  unfold State.tongsWrite
  split
  · refine State.memOk_clearErrs _ _ _ ((State.memOk_foldl_eq (fun s i => ?_) _ _).trans hm)
    split <;> simp -implicitDefEqProofs
  · exact s.memOk_writeBytes a l hm

@[simp] theorem State.memOk_tongsStore (s : State) (a : ℕ) (l : List Byte) (hm : s.memOk = true) :
    (s.tongsStore a l).2.2.memOk = true := by
  unfold State.tongsStore
  extract_lets n
  split
  · exact hm
  · split
    · exact hm
    · split
      · simp -implicitDefEqProofs [hm]
      · split
        · next e => simp -implicitDefEqProofs [State.memOk_of_eq (s.memOk_takeTransit _ _ _) e, hm]
        · next e => simp -implicitDefEqProofs [State.memOk_of_eq (s.memOk_takeTransit _ _ _) e, hm]

@[simp] theorem State.memOk_takeBuffer (s : State) (consumer : ℕ) (a : ℕ) (n : ℕ) :
    (s.takeBuffer consumer a n).2.memOk = s.memOk := by
  unfold State.takeBuffer
  split <;> simp -implicitDefEqProofs

@[simp] theorem State.memOk_tongsRead (s : State) (consumer : ℕ) (st : Stale) (a n : ℕ) : (s.tongsRead consumer st a n).2.memOk = s.memOk := by
  unfold State.tongsRead
  split
  · simp -implicitDefEqProofs
  · split
    · next e => exact State.memOk_of_eq (s.memOk_takeBuffer _ _ _) e
    · next e => simp -implicitDefEqProofs [State.memOk_of_eq (s.memOk_takeBuffer _ _ _) e]

@[simp] theorem State.memOk_aredSeg (s : State) (o : NOp) (soff : ℕ) (d : List Byte) (hm : s.memOk = true) :
    (s.aredSeg o soff d).2.memOk = true := by
  have hp : ∀ {s : State} (a : ℕ) (l : List Byte), s.memOk = true → (if l.isEmpty then ((none : Option Word), s)
      else match s.tongsStore a l with
      | (0, _, s) => (none, s)
      | (_, w, s) => (some w, s)).2.memOk = true := by
    intro s a l hm
    split
    · exact hm
    · have ht : ∀ {c w t}, s.tongsStore a l = (c, w, t) → t.memOk = true := fun e => by
        have := s.memOk_tongsStore a l hm
        rwa [e] at this
      split <;> next e => exact ht e
  unfold State.aredSeg
  simp only
  split
  · split
    · next e => exact State.memOk_of_eq (by simpa using hm) e
    · next e =>
      refine hp _ _ ?_
      have := State.memOk_of_eq (s.memOk_tongsRead _ _ _ _) e
      (repeat' split) <;> simp -implicitDefEqProofs [this, hm]
  · exact hp _ _ hm

@[simp] theorem State.memOk_placeSeg (s : State) (n : ℕ) (p : Pkt) (hm : s.memOk = true) :
    (s.placeSeg n p).2.2.memOk = true := by
  unfold State.placeSeg
  (repeat' split) <;> simp -implicitDefEqProofs [hm]

@[simp] theorem State.memOk_dataFail (s : State) (n : ℕ) (nop : Option ℕ) (loc : Word) :
    (s.dataFail n nop loc).memOk = s.memOk := by
  simp only [State.dataFail]
  (repeat' split) <;> simp -implicitDefEqProofs

@[simp] theorem State.memOk_takePace (s : State) (n : ℕ) (b : List Byte) :
    (s.takePace n b).memOk = s.memOk := by simp -implicitDefEqProofs [State.takePace]

@[simp] theorem State.memOk_deliverMsg (s : State) (n : ℕ) :
    (s.deliverMsg n).2.memOk = s.memOk := by
  simp only [State.deliverMsg]
  (repeat' split) <;> simp -implicitDefEqProofs

@[simp] theorem State.memOk_deliverAll (f : ℕ) (s : State) (n : ℕ) : (State.deliverAll f s n).memOk = s.memOk := by
  induction f generalizing s with
  | zero => rfl
  | succ f ih =>
    unfold State.deliverAll
    split
    · next e => exact (ih _).trans (State.memOk_of_eq (s.memOk_deliverMsg n) e)
    · next e => exact State.memOk_of_eq (s.memOk_deliverMsg n) e

@[simp] theorem State.memOk_rxSegment (s : State) (i n : ℕ) (src : BitVec 128) (p : Pkt) (hm : s.memOk = true) :
    (s.rxSegment i n src p).memOk = true := by
  fun_cases State.rxSegment s i n src p
  all_goals simp -implicitDefEqProofs +zetaDelta [hm]
  case case7 e => exact State.memOk_of_eq (by simpa using hm) e
  all_goals
    refine State.memOk_of_eq₂ (State.memOk_placeSeg _ _ _ ?_) ‹State.placeSeg _ _ _ = (_, _, _)›
    refine State.memOk_of_eq ?_ ‹_ = (_, _)›
    simpa using hm

@[simp] theorem State.memOk_rxData (s : State) (i : ℕ) (src : BitVec 128) (p : Pkt) (hm : s.memOk = true) : (s.rxData i src p).memOk = true :=
  s.memOk_gate340_of i src p [3] (fun n s hm => s.memOk_rxSegment i n src p hm) hm

@[simp] theorem State.memOk_finishMsgs (s : State) (n : ℕ) : (s.finishMsgs n).memOk = s.memOk := by
  unfold State.finishMsgs
  extract_lets c live gone s1
  rw [State.memOk_foldl_eq (fun s m => ?_)]
  · simp -implicitDefEqProofs [s1]
  · split <;> simp -implicitDefEqProofs

@[simp] theorem State.memOk_closed (s : State) (n : ℕ) (forced : Bool) :
    (s.closed n forced).memOk = s.memOk := by simp -implicitDefEqProofs [State.closed]

@[simp] theorem State.memOk_tryClose (s : State) (n : ℕ) :
    (s.tryClose n).memOk = s.memOk := by simp -implicitDefEqProofs [State.tryClose]

@[simp] theorem State.memOk_rxAckBody (s : State) (n : ℕ) (cum : ℕ) (sack : BitVec 128) :
    (s.rxAckBody n cum sack).memOk = s.memOk := by simp -implicitDefEqProofs [State.rxAckBody]

@[simp] theorem State.memOk_rxAck (s : State) (i : ℕ) (src : BitVec 128) (p : Pkt) :
    (s.rxAck i src p).memOk = s.memOk := by
  simp -implicitDefEqProofs [State.rxAck]

@[simp] theorem State.memOk_sendCred (s : State) (n : ℕ) (ask : Bool) :
    (s.sendCred n ask).memOk = s.memOk := by simp -implicitDefEqProofs [State.sendCred]

@[simp] theorem State.memOk_rxCred (s : State) (i : ℕ) (src : BitVec 128) (p : Pkt) :
    (s.rxCred i src p).memOk = s.memOk := by
  simp only [State.rxCred]
  (repeat' split) <;> simp -implicitDefEqProofs

@[simp] theorem State.memOk_targetBack (s : State) (t : ℕ) :
    (s.targetBack t).memOk = s.memOk := by simp -implicitDefEqProofs [State.targetBack]

@[simp] theorem State.memOk_opened (s : State) (n : ℕ) :
    (s.opened n).memOk = s.memOk := by simp -implicitDefEqProofs [State.opened]

@[simp] theorem State.memOk_sendOpenAck (s : State) (n : ℕ) :
    (s.sendOpenAck n).memOk = s.memOk := by simp -implicitDefEqProofs [State.sendOpenAck]

@[simp] theorem State.memOk_rxOpen (s : State) (i : ℕ) (src : BitVec 128) (p : Pkt) :
    (s.rxOpen i src p).memOk = s.memOk := by
  simp only [State.rxOpen]
  (repeat' split) <;> simp -implicitDefEqProofs

@[simp] theorem State.memOk_rxOpenAck (s : State) (i : ℕ) (src : BitVec 128) (p : Pkt) :
    (s.rxOpenAck i src p).memOk = s.memOk := by simp -implicitDefEqProofs [State.rxOpenAck]

@[simp] theorem State.memOk_rxClose (s : State) (i : ℕ) (src : BitVec 128) (p : Pkt) :
    (s.rxClose i src p).memOk = s.memOk := by simp -implicitDefEqProofs [State.rxClose]

@[simp] theorem State.memOk_rxRst (s : State) (src : BitVec 128) (p : Pkt) :
    (s.rxRst src p).memOk = s.memOk := by simp -implicitDefEqProofs [State.rxRst]

@[simp] theorem State.memOk_rxPkt (s : State) (i : ℕ) (src : BitVec 128) (p : Pkt) (hm : s.memOk = true) :
    (s.rxPkt i src p).memOk = true := by
  unfold State.rxPkt
  split <;> simp -implicitDefEqProofs [hm]

@[simp] theorem State.memOk_reprocess (s : State) (n : ℕ) (hm : s.memOk = true) : (s.reprocess n).memOk = true :=
  State.memOk_foldl _ _ (fun s _ _ hm => s.memOk_rxPkt _ _ _ hm) _ hm

@[simp] theorem State.memOk_settleGo (f : ℕ) (s : State) (n : ℕ) (hm : s.memOk = true) :
    (State.settleGo f s n).memOk = true := by
  induction f generalizing s with
  | zero => exact hm
  | succ f ih =>
    unfold State.settleGo
    simp_all -implicitDefEqProofs

@[simp] theorem State.memOk_settle (s : State) (n : ℕ) (hm : s.memOk = true) :
    (s.settle n).memOk = true := by simp -implicitDefEqProofs [State.settle, hm]

@[simp] theorem State.memOk_setRec (s : State) (k : ℕ) (r : Rec) :
    (s.setRec k r).memOk = s.memOk := congrArg Memory.wf (s.setRec_mem k r)

@[simp] theorem State.memOk_event (s : State) (code : ℕ) (sev : ℕ) (src : ℕ) (p0 : ℕ) (p1 : ℕ) (p2 : ℕ) :
    (s.event code sev src p0 p1 p2).memOk = s.memOk := by simp -implicitDefEqProofs [State.event]

@[simp] theorem State.memOk_mendRecs (s : State) (i : Img) (h : ℕ) (e : HeatEntry) :
    (s.mendRecs i h e).memOk = s.memOk := by simp -implicitDefEqProofs [State.mendRecs]

@[simp] theorem State.memOk_chooseHeat (s : State) (i : Img) (h : ℕ) (coll : Bool) :
    (s.chooseHeat i h coll).2.2.memOk = s.memOk := by simp -implicitDefEqProofs [State.chooseHeat]

@[simp] theorem State.memOk_readHeat (s : State) (i : Img) (h : ℕ) :
    (s.readHeat i h).memOk = s.memOk := by simp -implicitDefEqProofs [State.readHeat]

@[simp] theorem State.memOk_beacon (s : State) :
    s.beacon.memOk = s.memOk := by simp -implicitDefEqProofs [State.beacon]

@[simp] theorem State.memOk_noteFit (s : State) (c : Choice) :
    (s.noteFit c).memOk = s.memOk := by simp -implicitDefEqProofs [State.noteFit]

@[simp] theorem State.memOk_heatMark (s : State) (n u id imm : ℕ) (stop idle : Bool) : (s.heatMark n u id imm stop idle).memOk = s.memOk := by
  fun_cases State.heatMark s n u id imm stop idle
  all_goals simp -implicitDefEqProofs +zetaDelta
  all_goals
    refine State.memOk_of_eq₂ ?_ ‹_ = (_, _, _)›
    simp -implicitDefEqProofs +zetaDelta

@[simp] theorem State.memOk_snapRequest (s : State) (src : ℕ) (tag : ℕ) (pos : ℕ) :
    (s.snapRequest src tag pos).memOk = s.memOk := by
  unfold State.snapRequest
  split <;> simp -implicitDefEqProofs

@[simp] theorem State.memOk_issueEff (n : ℕ) (u : ℕ) (stop : Bool) (idle : Bool) (s : State) (f : Flight) (hm : s.memOk = true) :
    (State.issueEff n u stop idle s f).memOk = true := by
  simp only [State.issueEff]
  (repeat' split) <;> simp -implicitDefEqProofs [hm]

@[simp] theorem State.memOk_heatSample (s : State) :
    s.heatSample.memOk = s.memOk := by simp -implicitDefEqProofs [State.heatSample]

@[simp] theorem State.memOk_heatEnd (s : State) (learn : Bool) :
    (s.heatEnd learn).memOk = s.memOk := by
  simp only [State.heatEnd]
  (repeat' split) <;> simp -implicitDefEqProofs

@[simp] theorem State.memOk_boundary (s : State) (m : Marker) :
    (s.boundary m).memOk = s.memOk := by
  simp only [State.boundary]
  (repeat' split) <;> simp -implicitDefEqProofs

@[simp] theorem State.memOk_issue (s : State) (hm : s.memOk = true) : s.issue.memOk = true := by
  unfold State.issue
  extract_lets s1 n c pc s2 s3 s4 u idle s5 s6 next s7 s8
  have h5 : s5.memOk = true :=
    State.memOk_foldl _ _ (fun s f _ hm => s.memOk_issueEff _ _ _ _ _ hm) _ (by simpa -implicitDefEqProofs [s4, s3, s2, s1] using hm)
  have h6 : s6.memOk = s5.memOk := State.memOk_foldl_eq (fun s f => by split <;> simp -implicitDefEqProofs [State.fly]) _ _
  have h8 : s8.memOk = true := s7.memOk_commitAt _ (by simpa -implicitDefEqProofs [s7, h6] using h5)
  (repeat' split) <;> simp -implicitDefEqProofs [h8]

@[simp] theorem State.memOk_tryIssue (s : State) (hm : s.memOk = true) :
    s.tryIssue.memOk = true := by
  simp only [State.tryIssue]
  (repeat' split) <;> simp -implicitDefEqProofs [hm]

@[simp] theorem State.memOk_at (s : State) (t : ℕ) :
    (s.at t).memOk = s.memOk := congrArg Memory.wf (s.mem_at t)

@[simp] theorem State.memOk_hammerIdle (s : State) :
    s.hammerIdle.memOk = s.memOk := by simp -implicitDefEqProofs [State.hammerIdle]

@[simp] theorem State.memOk_writeRecord (s : State) (id : ℕ) (j : Job) (st : ℕ) (aflags : ℕ) (f : Option Fail) (elapsed : ℕ) (bundles : ℕ) (hm : s.memOk = true) :
    (s.writeRecord id j st aflags f elapsed bundles).memOk = true := by simp -implicitDefEqProofs [State.writeRecord, hm, State.memOk_writeBytes]

@[simp] theorem State.memOk_jobStat (s : State) :
    s.jobStat.memOk = s.memOk := by simp -implicitDefEqProofs [State.jobStat]

@[simp] theorem State.memOk_retire (s : State) (id : ℕ) (j : Job) (f : Option Fail) (aflags : ℕ) (elapsed : ℕ) (bundles : ℕ) (hm : s.memOk = true) :
    (s.retire id j f aflags elapsed bundles).memOk = true := by
  unfold State.retire
  (repeat' split) <;> simp -implicitDefEqProofs [hm]

@[simp] theorem State.memOk_setXq (s : State) (u : ℕ) (l : List XOp) :
    (s.setXq u l).memOk = s.memOk := congrArg Memory.wf (s.setXq_mem u l)

@[simp] theorem State.memOk_moveRow (s : State) (u : ℕ) (o : XOp) (r : ℕ) (hm : s.memOk = true) : (s.moveRow u o r).2.memOk = true := by
  unfold State.moveRow
  simp only
  split
  · exact hm
  · split
    · simp -implicitDefEqProofs [hm, State.memOk_writeBytes]
    · split
      · simp -implicitDefEqProofs [hm]
      · have ht : ∀ {a l d n x t}, (s.correctRange a l).takeTransit 2 d n = (x, t) → t.memOk = true := fun e =>
          State.memOk_of_eq (by simpa using hm) e
        split <;> next e => simp -implicitDefEqProofs [ht e, State.memOk_writeBytes]

@[simp] theorem State.memOk_moveRows (s : State) (u : ℕ) (o : XOp) (l : List ℕ) (hm : s.memOk = true) :
    (s.moveRows u o l).2.memOk = true := by
  induction l generalizing s with
  | nil => exact hm
  | cons a l ih =>
    unfold State.moveRows
    split
    · next e => exact State.memOk_of_eq (s.memOk_moveRow u o a hm) e
    · next e => exact ih _ (State.memOk_of_eq (s.memOk_moveRow u o a hm) e)

@[simp] theorem State.memOk_toOpenFrame (s : State) :
    s.toOpenFrame.memOk = s.memOk := by simp -implicitDefEqProofs [State.toOpenFrame]

@[simp] theorem State.memOk_saveJob (s : State) (id : ℕ) (j : Job) (heat : ℕ) (coll : Bool) :
    (s.saveJob id j heat coll).memOk = s.memOk := by simp -implicitDefEqProofs [State.saveJob]

@[simp] theorem State.memOk_endUnstarted (s : State) (id : ℕ) (j : Job) (cause : ℕ) (loc : Word) (hm : s.memOk = true) :
    (s.endUnstarted id j cause loc).memOk = true := by simp -implicitDefEqProofs [State.endUnstarted, hm]

@[simp] theorem State.memOk_setFlags (s : State) (f : ℕ → Word) :
    (s.setFlags f).memOk = s.memOk := by simp -implicitDefEqProofs [State.setFlags]

@[simp] theorem State.memOk_enterJob (s : State) (id : ℕ) (j : Job) (hm : s.memOk = true) :
    (s.enterJob id j).memOk = true := by
  simp only [State.enterJob]
  (repeat' split) <;> simp -implicitDefEqProofs [hm]

@[simp] theorem State.memOk_judge (s : State) (key : ℕ) (m : ℕ) :
    (s.judge key m).2.memOk = s.memOk := by
  simp only [State.judge]
  (repeat' split) <;> simp -implicitDefEqProofs

@[simp] theorem State.memOk_wrongFix (s : State) (key : ℕ) :
    (s.wrongFix key).2.memOk = s.memOk := by simp -implicitDefEqProofs [State.wrongFix]

@[simp] theorem State.memOk_flipBytes (s : State) (key : ℕ) (m : ℕ) (hm : s.memOk = true) :
    (s.flipBytes key m).memOk = true := by simp -implicitDefEqProofs [State.flipBytes, hm]

@[simp] theorem State.memOk_upset (s : State) (key flips : ℕ) (hm : s.memOk = true) : (s.upset key flips).memOk = true := by
  unfold State.upset
  extract_lets old m store
  have hj : ∀ {c t}, s.judge key m = (c, t) → t.memOk = true := fun e => State.memOk_of_eq (by simpa using hm) e
  split <;> next e => simp -implicitDefEqProofs [store, hj e]

@[simp] theorem State.memOk_crucFlush (s : State) (k : ℕ) (err : ℕ) (failed : Bool) :
    (s.crucFlush k err failed).memOk = s.memOk := by simp -implicitDefEqProofs [State.crucFlush]

@[simp] theorem State.memOk_csrReset (s : State) (a : ℕ) (n : ℕ) :
    (s.csrReset a n).memOk = s.memOk := by simp -implicitDefEqProofs [State.csrReset]

@[simp] theorem State.memOk_loseRings (s : State) (k : ℕ) :
    (s.loseRings k).memOk = s.memOk := by simp -implicitDefEqProofs [State.loseRings]

@[simp] theorem State.memOk_fenceStack (s : State) (k : ℕ) (cause : ℕ) :
    (s.fenceStack k cause).memOk = s.memOk := by simp -implicitDefEqProofs [State.fenceStack]

@[simp] theorem State.memOk_csrRefused (s : State) (p : Path) (a : ℕ) :
    (s.csrRefused p a).memOk = s.memOk := by simp -implicitDefEqProofs [State.csrRefused]

@[simp] theorem State.memOk_setFacility (s : State) (w : ℕ) :
    (s.setFacility w).memOk = s.memOk := by simp -implicitDefEqProofs [State.setFacility]

@[simp] theorem State.memOk_capRecord (s : State) (src : ℕ) (old : ℕ) (new : ℕ) :
    (s.capRecord src old new).memOk = s.memOk := by simp -implicitDefEqProofs [State.capRecord]

@[simp] theorem State.memOk_setCap (s : State) (src : ℕ) (w : ℕ) :
    (s.setCap src w).memOk = s.memOk := by simp -implicitDefEqProofs [State.setCap]

@[simp] theorem State.memOk_staleBit (s : State) :
    s.staleBit.memOk = s.memOk := by simp -implicitDefEqProofs [State.staleBit]

@[simp] theorem State.memOk_publish (s : State) (src : ℕ) (w : ℕ) :
    (s.publish src w).memOk = s.memOk := by simp -implicitDefEqProofs [State.publish]

@[simp] theorem State.memOk_capWrite (s : State) (i : ℕ) (w : Word) :
    (s.capWrite i w).memOk = s.memOk := by
  unfold State.capWrite
  split <;> simp -implicitDefEqProofs

@[simp] theorem State.memOk_capRejected (s : State) (i : ℕ) :
    (s.capRejected i).memOk = s.memOk := by
  unfold State.capRejected
  split <;> simp -implicitDefEqProofs

@[simp] theorem State.memOk_action (s : State) (code : ℕ) (sev : ℕ) (src : ℕ) (p0 : ℕ) (p1 : ℕ) (p2 : ℕ) :
    (s.action code sev src p0 p1 p2).memOk = s.memOk := by simp -implicitDefEqProofs [State.action]

@[simp] theorem State.memOk_vEvent (s : State) (code : ℕ) (sev : ℕ) (c : ℕ) (value : ℕ) :
    (s.vEvent code sev c value).memOk = s.memOk := by simp -implicitDefEqProofs [State.vEvent]

@[simp] theorem State.memOk_errSum (s : State) (f : Fd) :
    (s.errSum f).memOk = s.memOk := by simp -implicitDefEqProofs [State.errSum]

@[simp] theorem State.memOk_aidxWrite (s : State) (r : ℕ) (v : ℕ) :
    (s.aidxWrite r v).memOk = s.memOk := by simp -implicitDefEqProofs [State.aidxWrite]

@[simp] theorem State.memOk_setLoop (s : State) (n : ℕ) (l : QLoop) :
    (s.setLoop n l).memOk = s.memOk := congrArg Memory.wf (s.setLoop_mem n l)

@[simp] theorem State.memOk_writeSp (s : State) (n : ℕ) (v : ℕ) (at_ : ℕ) :
    (s.writeSp n v at_).memOk = s.memOk := by simp -implicitDefEqProofs [State.writeSp]

@[simp] theorem State.memOk_keepAlive (s : State) :
    s.keepAlive.memOk = s.memOk := by simp -implicitDefEqProofs [State.keepAlive]

@[simp] theorem State.memOk_coefShadow (s : State) (a : ℕ) (old : Word) :
    (s.coefShadow a old).memOk = s.memOk := by
  simp only [State.coefShadow]
  (repeat' split) <;> simp -implicitDefEqProofs

@[simp] theorem State.memOk_setChan (s : State) (c : ℕ) (x : QChan) :
    (s.setChan c x).memOk = s.memOk := by simp -implicitDefEqProofs [State.setChan]

@[simp] theorem State.memOk_qTraceArm (s : State) :
    s.qTraceArm.memOk = s.memOk := by simp -implicitDefEqProofs [State.qTraceArm]

@[simp] theorem State.memOk_qTrigger (s : State) (k : ℕ) :
    (s.qTrigger k).memOk = s.memOk := by simp -implicitDefEqProofs [State.qTrigger]

@[simp] theorem State.memOk_qTrctl (s : State) (w : Word) :
    (s.qTrctl w).memOk = s.memOk := by simp -implicitDefEqProofs [State.qTrctl]

@[simp] theorem State.memOk_ownSecs (s : State) (n : ℕ) (own : Bool) :
    (s.ownSecs n own).memOk = s.memOk := by simp -implicitDefEqProofs [State.ownSecs]

@[simp] theorem State.memOk_realign (f : ℕ) (s : State) (n : ℕ) : (State.realign f s n).memOk = s.memOk := by
  induction f generalizing s n with
  | zero => rfl
  | succ f ih =>
    unfold State.realign
    simp -implicitDefEqProofs [ih]

@[simp] theorem State.memOk_startLoop (s : State) (n : ℕ) (t0 : ℕ) :
    (s.startLoop n t0).memOk = s.memOk := by simp -implicitDefEqProofs [State.startLoop]

@[simp] theorem State.memOk_enterLoop (s : State) (n : ℕ) (st : ℕ) :
    (s.enterLoop n st).memOk = s.memOk := by simp -implicitDefEqProofs [State.enterLoop]

@[simp] theorem State.memOk_loopArm (s : State) (n : ℕ) :
    (s.loopArm n).memOk = s.memOk := by simp -implicitDefEqProofs [State.loopArm]

@[simp] theorem State.memOk_holdOuters (f : ℕ) (s : State) (n : ℕ) : (State.holdOuters f s n).memOk = s.memOk := by
  induction f generalizing s n with
  | zero => rfl
  | succ f ih =>
    unfold State.holdOuters
    simp -implicitDefEqProofs [ih]

@[simp] theorem State.memOk_leaveRun (s : State) (n : ℕ) (st : ℕ) :
    (s.leaveRun n st).memOk = s.memOk := by simp -implicitDefEqProofs [State.leaveRun]

@[simp] theorem State.memOk_loopDisarm (s : State) (n : ℕ) :
    (s.loopDisarm n).memOk = s.memOk := by simp -implicitDefEqProofs [State.loopDisarm]

@[simp] theorem State.memOk_lctl (s : State) (n : ℕ) (w : Word) :
    (s.lctl n w).memOk = s.memOk := by simp -implicitDefEqProofs [State.lctl]

@[simp] theorem State.memOk_rcOff (s : State) (n : ℕ) :
    (s.rcOff n).memOk = s.memOk := by simp -implicitDefEqProofs [State.rcOff]

@[simp] theorem State.memOk_quenchHook (s : State) (a : ℕ) (old : Word) (w : Word) :
    (s.quenchHook a old w).memOk = s.memOk := by
  unfold State.quenchHook
  (repeat' split) <;> simp -implicitDefEqProofs

@[simp] theorem State.memOk_setValve (s : State) (c : ℕ) (v : Valve) :
    (s.setValve c v).memOk = s.memOk := congrArg Memory.wf (s.setValve_mem c v)

@[simp] theorem State.memOk_showCurrent (s : State) (c : ℕ) :
    (s.showCurrent c).memOk = s.memOk := by
  unfold State.showCurrent
  split <;> simp -implicitDefEqProofs

@[simp] theorem State.memOk_enterValve (s : State) (c : ℕ) (st : ℕ) :
    (s.enterValve c st).memOk = s.memOk := by simp -implicitDefEqProofs [State.enterValve]

@[simp] theorem State.memOk_vRequest (s : State) (c : ℕ) (hold : Bool) :
    (s.vRequest c hold).memOk = s.memOk := by simp -implicitDefEqProofs [State.vRequest]

@[simp] theorem State.memOk_setHolder (s : State) (b : ℕ) (c : Option ℕ) :
    (s.setHolder b c).memOk = s.memOk := congrArg Memory.wf (s.setHolder_mem b c)

@[simp] theorem State.memOk_freeHigh (s : State) (c : ℕ) :
    (s.freeHigh c).memOk = s.memOk := by simp -implicitDefEqProofs [State.freeHigh]

@[simp] theorem State.memOk_vOpen (s : State) (c : ℕ) :
    (s.vOpen c).memOk = s.memOk := by
  unfold State.vOpen
  (repeat' split) <;> simp -implicitDefEqProofs

@[simp] theorem State.memOk_vFlag (s : State) (c : ℕ) :
    (s.vFlag c).memOk = s.memOk := by simp -implicitDefEqProofs [State.vFlag]

@[simp] theorem State.memOk_vClose (s : State) (c : ℕ) :
    (s.vClose c).memOk = s.memOk := by
  simp only [State.vClose]
  (repeat' split) <;> simp -implicitDefEqProofs

@[simp] theorem State.memOk_vRetarget (s : State) (c : ℕ) :
    (s.vRetarget c).memOk = s.memOk := by simp -implicitDefEqProofs [State.vRetarget]

@[simp] theorem State.memOk_vcmd (s : State) (c : ℕ) (old : Word) (w : Word) :
    (s.vcmd c old w).memOk = s.memOk := by simp -implicitDefEqProofs [State.vcmd]

@[simp] theorem State.memOk_coreComplete (s : State) (c : ℕ) (n : ℕ) :
    (s.coreComplete c n).memOk = s.memOk := by simp -implicitDefEqProofs [State.coreComplete]

@[simp] theorem State.memOk_msgComplete (s : State) (n : ℕ) (t : ℕ) :
    (s.msgComplete n t).memOk = s.memOk := by simp -implicitDefEqProofs [State.msgComplete]

@[simp] theorem State.memOk_bicHook (s : State) (a : ℕ) (w : Word) :
    (s.bicHook a w).memOk = s.memOk := by
  unfold State.bicHook
  (repeat' split) <;> simp -implicitDefEqProofs

@[simp] theorem State.memOk_latch (s : State) (q : ℕ) :
    (s.latch q).memOk = s.memOk := by
  simp only [State.latch]
  (repeat' split) <;> simp -implicitDefEqProofs

@[simp] theorem State.memOk_offerNext (s : State) :
    s.offerNext.memOk = s.memOk := by simp -implicitDefEqProofs [State.offerNext]

@[simp] theorem State.memOk_canCtl (s : State) (old : Word) :
    (s.canCtl old).memOk = s.memOk := by simp -implicitDefEqProofs [State.canCtl]

@[simp] theorem State.memOk_ttEnable (s : State) (b : Bool) :
    (s.ttEnable b).memOk = s.memOk := by simp -implicitDefEqProofs [State.ttEnable]

@[simp] theorem State.memOk_bufAck (s : State) (n : ℕ) (cnt : ℕ) :
    (s.bufAck n cnt).memOk = s.memOk := by simp -implicitDefEqProofs [State.bufAck]

@[simp] theorem State.memOk_txDone (s : State) (n : ℕ) :
    (s.txDone n).memOk = s.memOk := by simp -implicitDefEqProofs [State.txDone]

@[simp] theorem State.memOk_txCancel (s : State) (n : ℕ) (begun : Bool) :
    (s.txCancel n begun).memOk = s.memOk := by simp -implicitDefEqProofs [State.txCancel]

@[simp] theorem State.memOk_txRequest (s : State) (n : ℕ) :
    (s.txRequest n).memOk = s.memOk := by simp -implicitDefEqProofs [State.txRequest]

@[simp] theorem State.memOk_bcmd (s : State) (n : ℕ) (w : Word) (begun : Bool) :
    (s.bcmd n w begun).memOk = s.memOk := by simp -implicitDefEqProofs [State.bcmd]

@[simp] theorem State.memOk_canHook (s : State) (a : ℕ) (old : Word) (w : Word) :
    (s.canHook a old w).memOk = s.memOk := by
  simp only [State.canHook]
  (repeat' split) <;> simp -implicitDefEqProofs

@[simp] theorem State.memOk_crucEnd (s : State) (k : ℕ) (x : CCmd) (r : CRes) (hm : s.memOk = true) :
    (s.crucEnd k x r).memOk = true := by simp -implicitDefEqProofs [State.crucEnd, hm, State.memOk_writeBytes]

@[simp] theorem State.memOk_discard (s : State) (m : ℕ) (hm : s.memOk = true) : (s.discard m).memOk = true := by
  fun_cases State.discard s m
  rename_i mine s1 l
  have h1 : s1.memOk = true := by
    refine State.memOk_foldl _ _ (fun s k _ hm => ?_) s hm
    exact State.memOk_foldl _ _ (fun s x _ hm => s.memOk_crucEnd _ _ _ hm) _ (by simpa -implicitDefEqProofs using hm)
  simp -implicitDefEqProofs [h1]

@[simp] theorem State.memOk_bootGone (s : State) (hm : s.memOk = true) : s.bootGone.memOk = true := by
  refine State.memOk_foldl _ _ (fun s n _ hm => ?_) _ hm
  simp -implicitDefEqProofs [hm]

@[simp] theorem State.memOk_snapCsr (s : State) (w : Word) :
    (s.snapCsr w).memOk = s.memOk := by simp -implicitDefEqProofs [State.snapCsr]

@[simp] theorem State.memOk_traceArm (s : State) :
    s.traceArm.memOk = s.memOk := by simp -implicitDefEqProofs [State.traceArm]

@[simp] theorem State.memOk_ifcDown (s : State) (i : ℕ) :
    (s.ifcDown i).memOk = s.memOk := by simp -implicitDefEqProofs [State.ifcDown]

@[simp] theorem State.memOk_portRestart (s : State) (port : ℕ) (had : ℕ → Bool) :
    (s.portRestart port had).memOk = s.memOk := by simp -implicitDefEqProofs [State.portRestart]

@[simp] theorem State.memOk_mainHook (s : State) (a : ℕ) (old : Word) (w : Word) (hm : s.memOk = true) :
    (s.mainHook a old w).memOk = true := by
  unfold State.mainHook
  (repeat' split) <;> simp -implicitDefEqProofs [hm]

@[simp] theorem State.memOk_csrHook (s : State) (a : ℕ) (old : Word) (w : Word) (hm : s.memOk = true) :
    (s.csrHook a old w).memOk = true := by
  unfold State.csrHook
  (repeat' split) <;> simp -implicitDefEqProofs [hm]

@[simp] theorem State.memOk_csrDone (s : State) (r : RegSpec) (a : ℕ) (old : Word) (w : Word) (hm : s.memOk = true) :
    (s.csrDone r a old w).memOk = true := by
  unfold State.csrDone
  (repeat' split) <;> simp -implicitDefEqProofs [hm]

@[simp] theorem State.memOk_regWrite (s : State) (p : Path) (a : ℕ) (w : Word) (hm : s.memOk = true) :
    (s.regWrite p a w).2.memOk = true := by
  unfold State.regWrite
  (repeat' split) <;> simp -implicitDefEqProofs [hm]

@[simp] theorem State.memOk_anvilOff (s : State) (g : ℕ) (hm : s.memOk = true) :
    (s.anvilOff g).memOk = true := by simp -implicitDefEqProofs [State.anvilOff, hm, State.memOk_clearMem]

@[simp] theorem State.memOk_endForAnvil (s : State) (m : BitVec 160) (hm : s.memOk = true) :
    (s.endForAnvil m).memOk = true := by
  simp only [State.endForAnvil]
  (repeat' split) <;> simp -implicitDefEqProofs [hm]

@[simp] theorem State.memOk_holdAnvil (s : State) (g : ℕ) (reason : ℕ) (hm : s.memOk = true) :
    (s.holdAnvil g reason).memOk = true := by simp -implicitDefEqProofs [State.holdAnvil, hm]

@[simp] theorem State.memOk_crucBusy (s : State) (d : BitVec 512) (err : ℕ) :
    (s.crucBusy d err).2.memOk = s.memOk := by simp -implicitDefEqProofs [State.crucBusy]

theorem State.memOk_crucStart {s : State} {run : CRun → CCmd → CRun} (hr : ∀ r x, r.s.memOk = true → (run r x).s.memOk = true)
    (hm : s.memOk = true) (k code t : ℕ) : (s.crucStart k code t run).memOk = true := by
  fun_cases State.crucStart s k code t run
  case case5 r _ _ e s3 =>
    have hs : r.s.memOk = true := hr _ _ (by simp -implicitDefEqProofs [hm])
    simp -implicitDefEqProofs [s3]
    exact (State.memOk_of_eq (State.memOk_crucBusy _ _ _) e).trans hs
  all_goals exact hm

@[simp] theorem State.memOk_crucDone (s : State) (k : ℕ) (hm : s.memOk = true) :
    (s.crucDone k).memOk = true := by
  simp only [State.crucDone]
  (repeat' split) <;> simp -implicitDefEqProofs [hm]

@[simp] theorem State.memOk_setPort (s : State) (i : ℕ) (x : Ifc) :
    (s.setPort i x).memOk = s.memOk := by simp -implicitDefEqProofs [State.setPort]

@[simp] theorem State.memOk_emit (s : State) (f : Frame) :
    (s.emit f).memOk = s.memOk := by simp -implicitDefEqProofs [State.emit]

@[simp] theorem State.memOk_put1 (s : State) (i : ℕ) (port : ℕ) (b : Body) :
    (s.put1 i port b).memOk = s.memOk := by simp -implicitDefEqProofs [State.put1]

@[simp] theorem State.memOk_putAll (s : State) (i : ℕ) (b : Body) :
    (s.putAll i b).memOk = s.memOk := by simp -implicitDefEqProofs [State.putAll]

@[simp] theorem State.memOk_announce (s : State) (i : ℕ) :
    (s.announce i).memOk = s.memOk := by simp -implicitDefEqProofs [State.announce]

@[simp] theorem State.memOk_sendOpen (s : State) (n : ℕ) :
    (s.sendOpen n).memOk = s.memOk := by simp -implicitDefEqProofs [State.sendOpen]

@[simp] theorem State.memOk_countUcw (s : State) (i : ℕ) (n : ℕ) :
    (s.countUcw i n).memOk = s.memOk := by simp -implicitDefEqProofs [State.countUcw]

@[simp] theorem State.memOk_dropFrame (s : State) (i : ℕ) :
    (s.dropFrame i).memOk = s.memOk := by simp -implicitDefEqProofs [State.dropFrame]

@[simp] theorem State.memOk_frameIn (s : State) (e : EthIn) {f : State → State}
    (hf : ∀ s, s.memOk = true → (f s).memOk = true) (hm : s.memOk = true) :
    (s.frameIn e f).memOk = true := by
  simp -implicitDefEqProofs [State.frameIn, hf, hm]

@[simp] theorem State.memOk_solicit (s : State) (i : ℕ) (a : BitVec 128) :
    (s.solicit i a).memOk = s.memOk := by simp -implicitDefEqProofs [State.solicit]

@[simp] theorem State.memOk_putNbr (s : State) (e : Nbr) :
    (s.putNbr e).memOk = s.memOk := by simp -implicitDefEqProofs [State.putNbr]

@[simp] theorem State.memOk_pktErr (s : State) (i : ℕ) (f : ℕ → Fd) :
    (s.pktErr i f).memOk = s.memOk := by simp -implicitDefEqProofs [State.pktErr]

@[simp] theorem State.memOk_arrive (s : State) (e : EthIn) (src : BitVec 128) (p : Pkt) (hm : s.memOk = true) : (s.arrive e src p).memOk = true := by
  refine s.memOk_frameIn e (fun s hm => ?_) hm
  have hc : ∀ {b t}, s.wantCache p.dstrm = (b, t) → t.memOk = true := fun e => State.memOk_of_eq (by simpa using hm) e
  simp only
  (repeat' split) <;> simp_all -implicitDefEqProofs

@[simp] theorem State.memOk_packet (s : State) (types : List ℕ) (e : EthIn) (src : BitVec 128) (p : Pkt) (t : ℕ) (hm : s.memOk = true) :
    (s.packet types e src p t).memOk = true := by simp -implicitDefEqProofs [State.packet, hm]

@[simp] theorem State.memOk_memAnswer (s : State) (n : ℕ) (need : ℕ) (msg : List Byte) (st : ℕ) (data : List Byte) :
    (s.memAnswer n need msg st data).memOk = s.memOk := by simp -implicitDefEqProofs [State.memAnswer]

@[simp] theorem State.memOk_hostWrite (s : State) (a : ℕ) (data : List Byte) (hm : s.memOk = true) :
    (s.hostWrite a data).2.memOk = true := by
  unfold State.hostWrite
  extract_lets n
  split
  · split
    · simp -implicitDefEqProofs [hm]
    · split
      · next e => exact State.memOk_of_eq (s.memOk_regWrite _ _ _ hm) e
      · next e => exact State.memOk_of_eq (s.memOk_regWrite _ _ _ hm) e
  · exact s.memOk_tongsStore a data hm

@[simp] theorem State.memOk_useNbr (s : State) (i : ℕ) (a : BitVec 128) :
    (s.useNbr i a).memOk = s.memOk := by
  unfold State.useNbr
  split <;> simp -implicitDefEqProofs

@[simp] theorem State.memOk_sendPkt (s : State) (i : ℕ) (dst : BitVec 128) (p : Pkt) (bad : Bool) :
    (s.sendPkt i dst p bad).memOk = s.memOk := by simp -implicitDefEqProofs [State.sendPkt]

@[simp] theorem State.memOk_msgBytes (s : State) (m : OutMsg) (o n : ℕ) : (s.msgBytes m o n).2.memOk = s.memOk := by
  unfold State.msgBytes
  split <;> simp -implicitDefEqProofs

@[simp] theorem State.memOk_sendFrame (s : State) (i n : ℕ) (bad : Bool) : (s.sendFrame i n bad).memOk = s.memOk := by
  unfold State.sendFrame
  extract_lets c
  split
  · simp -implicitDefEqProofs
  · split
    · rfl
    · extract_lets k
      split
      · next e => simp -implicitDefEqProofs [State.memOk_of_eq (s.memOk_msgBytes _ _ _) e]
      · next e => simp -implicitDefEqProofs [State.memOk_of_eq (s.memOk_msgBytes _ _ _) e]

@[simp] theorem State.memOk_sendOut (f : ℕ) (s : State) (n : ℕ) : (State.sendOut f s n).memOk = s.memOk := by
  induction f generalizing s with
  | zero => rfl
  | succ f ih => simp -implicitDefEqProofs [State.sendOut, ih]

@[simp] theorem State.memOk_hammerTrdata (s : State) :
    s.hammerTrdata.memOk = s.memOk := by
  simp only [State.hammerTrdata]
  (repeat' split) <;> simp -implicitDefEqProofs

@[simp] theorem State.memOk_quenchTrdata (s : State) :
    s.quenchTrdata.memOk = s.memOk := by
  simp only [State.quenchTrdata]
  (repeat' split) <;> simp -implicitDefEqProofs

@[simp] theorem State.memOk_regRead (s : State) (p : Path) (a : ℕ) :
    (s.regRead p a).2.memOk = s.memOk := by simp -implicitDefEqProofs [State.regRead]

@[simp] theorem State.memOk_hostRead (s : State) (a n : ℕ) : (s.hostRead a n).2.2.memOk = s.memOk := by
  unfold State.hostRead
  split
  · split
    · simp -implicitDefEqProofs
    · split
      · next e => exact State.memOk_of_eq (s.memOk_regRead _ _) e
      · next e => exact State.memOk_of_eq (s.memOk_regRead _ _) e
  · split
    · rfl
    · split
      · next e => exact State.memOk_of_eq (s.memOk_tongsRead _ _ _ _) e
      · next e => exact State.memOk_of_eq (s.memOk_tongsRead _ _ _ _) e

@[simp] theorem State.memOk_resolve (s : State) (i : ℕ) (a : BitVec 128) :
    (s.resolve i a).memOk = s.memOk := by
  unfold State.resolve
  (repeat' split) <;> simp -implicitDefEqProofs

@[simp] theorem State.memOk_askPin (s : State) (n : ℕ) :
    (s.askPin n).memOk = s.memOk := by simp -implicitDefEqProofs [State.askPin]

@[simp] theorem State.memOk_askAll (s : State) (i : ℕ) :
    (s.askAll i).memOk = s.memOk := by simp -implicitDefEqProofs [State.askAll]

@[simp] theorem State.memOk_sendLocal (s : State) (i : ℕ) (bad : Bool) : (s.sendLocal i bad).2.memOk = s.memOk := by
  unfold State.sendLocal
  simp only
  split
  · simp -implicitDefEqProofs
  · split
    · simp -implicitDefEqProofs
    · split
      · simp -implicitDefEqProofs
      · split <;> simp -implicitDefEqProofs

@[simp] theorem State.memOk_askOps (s : State) :
    s.askOps.memOk = s.memOk := by simp -implicitDefEqProofs [State.askOps]

@[simp] theorem State.memOk_cancelWaiting (s : State) (id : ℕ) (j : Job) (hm : s.memOk = true) :
    (s.cancelWaiting id j).memOk = true := by
  unfold State.cancelWaiting
  split <;> simp -implicitDefEqProofs [hm]

@[simp] theorem State.memOk_withdrawNops (s : State) (job : ℕ) :
    (s.withdrawNops job).memOk = s.memOk := by simp -implicitDefEqProofs [State.withdrawNops]

@[simp] theorem State.memOk_startStream (s : State) (n : ℕ) :
    (s.startStream n).memOk = s.memOk := by simp -implicitDefEqProofs [State.startStream]

@[simp] theorem State.memOk_noteReset (s : State) (domain : ℕ) (index : ℕ) (cause : ℕ) :
    (s.noteReset domain index cause).memOk = s.memOk := by simp -implicitDefEqProofs [State.noteReset]

@[simp] theorem State.memOk_resetStream (s : State) (m : ℕ) (hm : s.memOk = true) :
    (s.resetStream m).memOk = true := by simp -implicitDefEqProofs [State.resetStream, hm]

@[simp] theorem State.memOk_slew (s : State) :
    s.slew.memOk = s.memOk := by simp -implicitDefEqProofs [State.slew]

@[simp] theorem State.memOk_price (s : State) :
    s.price.memOk = s.memOk := by simp -implicitDefEqProofs [State.price]

@[simp] theorem State.memOk_sendPace (s : State) (own : ℕ) (capped : Bool) :
    (s.sendPace own capped).memOk = s.memOk := by
  unfold State.sendPace
  extract_lets cur s1 s2 floor fl
  have h2 : s2.memOk = s.memOk := by
    simp -implicitDefEqProofs only [s2]
    split <;> simp -implicitDefEqProofs [s1]
  clear_value s2
  split
  · exact h2
  · split
    extract_lets due c
    split
    · exact h2
    · split <;> (simp -implicitDefEqProofs; exact h2)

@[simp] theorem State.memOk_dropRaise (s : State) :
    s.dropRaise.memOk = s.memOk := by
  unfold State.dropRaise
  split <;> simp -implicitDefEqProofs

@[simp] theorem State.memOk_setK (s : State) (k : ℕ) :
    (s.setK k).memOk = s.memOk := by simp -implicitDefEqProofs [State.setK]

@[simp] theorem State.memOk_aim (s : State) (o : ℕ) :
    (s.aim o).memOk = s.memOk := by simp -implicitDefEqProofs [State.aim]

@[simp] theorem State.memOk_setOp (s : State) (best : ℕ) :
    (s.setOp best).memOk = s.memOk := by simp -implicitDefEqProofs [State.setOp]

@[simp] theorem State.memOk_temperFlag (s : State) (f : Fd) :
    (s.temperFlag f).memOk = s.memOk := by simp -implicitDefEqProofs [State.temperFlag]

@[simp] theorem State.memOk_noteUnmet (s : State) (unmet : Bool) (c : ℕ) :
    (s.noteUnmet unmet c).memOk = s.memOk := by simp -implicitDefEqProofs [State.noteUnmet]

@[simp] theorem State.memOk_finishK (s : State) (k : ℕ) (capped : Bool) :
    (s.finishK k capped).memOk = s.memOk := by simp -implicitDefEqProofs [State.finishK]

@[simp] theorem State.memOk_control (s : State) (c : ℕ) (kprev : FVal) :
    (s.control c kprev).memOk = s.memOk := by simp -implicitDefEqProofs [State.control]

@[simp] theorem State.memOk_decide (s : State) (kprev : FVal) :
    (s.decide kprev).memOk = s.memOk := by simp -implicitDefEqProofs [State.decide]

@[simp] theorem State.memOk_supply (s : State) (vin : ℕ) :
    (s.supply vin).memOk = s.memOk := by simp -implicitDefEqProofs [State.supply]

@[simp] theorem State.memOk_dieSample (s : State) (die : List ℤ) :
    (s.dieSample die).memOk = s.memOk := by simp -implicitDefEqProofs [State.dieSample]

@[simp] theorem State.memOk_newInterval (s : State) :
    s.newInterval.memOk = s.memOk := by
  simp only [State.newInterval]
  (repeat' split) <;> simp -implicitDefEqProofs

@[simp] theorem State.memOk_enterFloor (s : State) (which : ℕ) :
    (s.enterFloor which).memOk = s.memOk := by simp -implicitDefEqProofs [State.enterFloor]

@[simp] theorem State.memOk_supplyLevel (s : State) :
    s.supplyLevel.memOk = s.memOk := by simp -implicitDefEqProofs [State.supplyLevel]

@[simp] theorem State.memOk_tickLeak (s : State) (k : TickIn) :
    (s.tickLeak k).memOk = s.memOk := by simp -implicitDefEqProofs [State.tickLeak]

@[simp] theorem State.memOk_pressure (s : State) (fs : ℕ) (mv : ℕ) (v5 : ℕ) :
    (s.pressure fs mv v5).2.memOk = s.memOk := by simp -implicitDefEqProofs [State.pressure]

@[simp] theorem State.memOk_tickPress (s : State) (k : TickIn) :
    (s.tickPress k).memOk = s.memOk := by simp -implicitDefEqProofs [State.tickPress]

@[simp] theorem State.memOk_ntcTake (s : State) (n : ℕ) (ohm : List ℕ) :
    (s.ntcTake n ohm).memOk = s.memOk := by simp -implicitDefEqProofs [State.ntcTake]

@[simp] theorem State.memOk_ntcSettle (s : State) (n : ℕ) :
    (s.ntcSettle n).memOk = s.memOk := by simp -implicitDefEqProofs [State.ntcSettle]

@[simp] theorem State.memOk_tickTemps (s : State) (k : TickIn) :
    (s.tickTemps k).memOk = s.memOk := by simp -implicitDefEqProofs [State.tickTemps]

@[simp] theorem State.memOk_flowRead (s : State) (kf : ℕ) (four : ℕ) :
    (s.flowRead kf four).2.memOk = s.memOk := by simp -implicitDefEqProofs [State.flowRead]

@[simp] theorem State.memOk_tickFlow (s : State) (k : TickIn) :
    (s.tickFlow k).memOk = s.memOk := by simp -implicitDefEqProofs [State.tickFlow]

@[simp] theorem State.memOk_writeAction (s : State) (before : Reading) (after : Reading) (e : Evt) :
    (s.writeAction before after e).memOk = s.memOk := by simp -implicitDefEqProofs [State.writeAction]

@[simp] theorem State.memOk_writeActions (s : State) (before : Reading) (after : Reading) :
    (s.writeActions before after).memOk = s.memOk := by simp -implicitDefEqProofs [State.writeActions]

@[simp] theorem State.memOk_setDriven (s : State) (c : ℕ) (b : Bool) :
    (s.setDriven c b).memOk = s.memOk := by simp -implicitDefEqProofs [State.setDriven]

@[simp] theorem State.memOk_setTach (s : State) (c : ℕ) (e : Option TachEv) :
    (s.setTach c e).memOk = s.memOk := by simp -implicitDefEqProofs [State.setTach]

@[simp] theorem State.memOk_setKick (s : State) (c : ℕ) (k : Option Kick) :
    (s.setKick c k).memOk = s.memOk := by simp -implicitDefEqProofs [State.setKick]

@[simp] theorem State.memOk_fanRelease (s : State) (c : ℕ) :
    (s.fanRelease c).memOk = s.memOk := by simp -implicitDefEqProofs [State.fanRelease]

@[simp] theorem State.memOk_zoneDemand (s : State) (z : ℕ) :
    (s.zoneDemand z).2.memOk = s.memOk := by simp -implicitDefEqProofs [State.zoneDemand]

@[simp] theorem State.memOk_zoneDuty (s : State) (c : ℕ) : (s.zoneDuty c).2.memOk = s.memOk := by
  refine State.memOk_foldl_snd (fun acc z => ?_) _ _
  simp -implicitDefEqProofs

@[simp] theorem State.memOk_fanDuty (s : State) (c : ℕ) :
    (s.fanDuty c).2.memOk = s.memOk := by
  simp only [State.fanDuty]
  (repeat' split) <;> simp -implicitDefEqProofs

@[simp] theorem State.memOk_startKick (s : State) (c : ℕ) :
    (s.startKick c).memOk = s.memOk := by simp -implicitDefEqProofs [State.startKick]

@[simp] theorem State.memOk_fanRun (s : State) (c : ℕ) :
    (s.fanRun c).memOk = s.memOk := by simp -implicitDefEqProofs [State.fanRun]

@[simp] theorem State.memOk_tickFan (s : State) (c : ℕ) :
    (s.tickFan c).memOk = s.memOk := by simp -implicitDefEqProofs [State.tickFan]

@[simp] theorem State.memOk_tickAuto (s : State) :
    s.tickAuto.memOk = s.memOk := by simp -implicitDefEqProofs [State.tickAuto]

@[simp] theorem State.memOk_tickFans (s : State) (k : TickIn) :
    (s.tickFans k).memOk = s.memOk := by simp -implicitDefEqProofs [State.tickFans]

@[simp] theorem State.memOk_publishCaps (s : State) :
    s.publishCaps.memOk = s.memOk := by simp -implicitDefEqProofs [State.publishCaps]

@[simp] theorem State.memOk_tickTheta (s : State) (pmeas : ℕ) :
    (s.tickTheta pmeas).memOk = s.memOk := by simp -implicitDefEqProofs [State.tickTheta]

@[simp] theorem State.memOk_tickThermal (s : State) (pmeas : ℕ) :
    (s.tickThermal pmeas).memOk = s.memOk := by simp -implicitDefEqProofs [State.tickThermal]

@[simp] theorem State.memOk_tickFlowState (s : State) :
    s.tickFlowState.memOk = s.memOk := by simp -implicitDefEqProofs [State.tickFlowState]

@[simp] theorem State.memOk_driveShdn (s : State) (b : Bool) :
    (s.driveShdn b).memOk = s.memOk := by simp -implicitDefEqProofs [State.driveShdn]

@[simp] theorem State.memOk_safety (s : State) :
    s.safety.memOk = s.memOk := by simp -implicitDefEqProofs [State.safety]

@[simp] theorem State.memOk_throttleTemper (s : State) :
    s.throttleTemper.memOk = s.memOk := by simp -implicitDefEqProofs [State.throttleTemper]

@[simp] theorem State.memOk_alert (s : State) (kind : ℕ) (idx : ℕ) (code : ℕ) :
    (s.alert kind idx code).memOk = s.memOk := by simp -implicitDefEqProofs [State.alert]

@[simp] theorem State.memOk_assertThrottle (s : State) (byFlow : Bool) :
    (s.assertThrottle byFlow).memOk = s.memOk := by simp -implicitDefEqProofs [State.assertThrottle]

@[simp] theorem State.memOk_computeOff (s : State) :
    s.computeOff.memOk = s.memOk := by simp -implicitDefEqProofs [State.computeOff]

@[simp] theorem State.memOk_blocksReset (s : State) :
    s.blocksReset.memOk = s.memOk := by simp -implicitDefEqProofs [State.blocksReset]

@[simp] theorem State.memOk_mainReset (s : State) :
    s.mainReset.memOk = s.memOk := by
  simp only [State.mainReset]
  (repeat' split) <;> simp -implicitDefEqProofs

@[simp] theorem State.memOk_jobsEnded (s : State) (domain : ℕ) (l : List ℕ) :
    (s.jobsEnded domain l).memOk = s.memOk := by simp -implicitDefEqProofs [State.jobsEnded]

@[simp] theorem State.memOk_computeDown (s : State) (keep : Bool) (domain : ℕ) (hm : s.memOk = true) :
    (s.computeDown keep domain).memOk = true := by simp -implicitDefEqProofs [State.computeDown, hm, State.memOk_memReset]

@[simp] theorem State.memOk_enableRegs (s : State) :
    s.enableRegs.memOk = s.memOk := by simp -implicitDefEqProofs [State.enableRegs]

@[simp] theorem State.memOk_computeReset (s : State) (keep : Bool) (regOff : Bool) (cause : ℕ) (hm : s.memOk = true) :
    (s.computeReset keep regOff cause).memOk = true := by simp -implicitDefEqProofs [State.computeReset, hm]

@[simp] theorem State.memOk_computeStop (s : State) (cause : ℕ) (hm : s.memOk = true) :
    (s.computeStop cause).memOk = true := by simp -implicitDefEqProofs [State.computeStop, hm]

@[simp] theorem State.memOk_critical (s : State) (kind : ℕ) (reading : ℤ) (hm : s.memOk = true) :
    (s.critical kind reading).memOk = true := by
  unfold State.critical
  split <;> simp -implicitDefEqProofs [hm]

@[simp] theorem State.memOk_trigger (s : State) (f : Fd) :
    (s.trigger f).memOk = s.memOk := by simp -implicitDefEqProofs [State.trigger]

@[simp] theorem State.memOk_alertEnd (s : State) (kind : ℕ) (idx : ℕ) :
    (s.alertEnd kind idx).memOk = s.memOk := by simp -implicitDefEqProofs [State.alertEnd]

@[simp] theorem State.memOk_releaseThrottle (s : State) :
    s.releaseThrottle.memOk = s.memOk := by simp -implicitDefEqProofs [State.releaseThrottle]

@[simp] theorem State.memOk_isolateValves (s : State) :
    s.isolateValves.memOk = s.memOk := by simp -implicitDefEqProofs [State.isolateValves]

@[simp] theorem State.memOk_isolate (s : State) (n : ℕ) (hm : s.memOk = true) :
    (s.isolate n).memOk = true := by simp -implicitDefEqProofs [State.isolate, hm]

@[simp] theorem State.memOk_leakAct (s : State) (n : ℕ) (kind : ℕ) (code : ℕ) (warnOnly : Bool) (hm : s.memOk = true) :
    (s.leakAct n kind code warnOnly).memOk = true := by simp -implicitDefEqProofs [State.leakAct, hm]

@[simp] theorem State.memOk_fanFail (s : State) (c : ℕ) :
    (s.fanFail c).memOk = s.memOk := by simp -implicitDefEqProofs [State.fanFail]

@[simp] theorem State.memOk_tachClass (s : State) (c : ℕ) (e : TachEv) :
    (s.tachClass c e).2.memOk = s.memOk := by
  unfold State.tachClass
  split <;> simp -implicitDefEqProofs

@[simp] theorem State.memOk_statusFrame (s : State) :
    s.statusFrame.2.memOk = s.memOk := by simp -implicitDefEqProofs [State.statusFrame]

@[simp] theorem State.memOk_setPeer (s : State) (k : ℕ) (p : Peer) :
    (s.setPeer k p).memOk = s.memOk := congrArg Memory.wf (s.setPeer_mem k p)

@[simp] theorem State.memOk_canSend (s : State) (l : List CanFrame) :
    (s.canSend l).memOk = s.memOk := by simp -implicitDefEqProofs [State.canSend]

@[simp] theorem State.memOk_sendBoard (s : State) :
    s.sendBoard.memOk = s.memOk := by simp -implicitDefEqProofs [State.sendBoard]

@[simp] theorem State.memOk_masterProt (s : State) :
    s.masterProt.memOk = s.memOk := by simp -implicitDefEqProofs [State.masterProt]

@[simp] theorem State.memOk_quenchMaster (s : State) :
    s.quenchMaster.memOk = s.memOk := by simp -implicitDefEqProofs [State.quenchMaster]

@[simp] theorem State.memOk_vRetargetAll (s : State) :
    s.vRetargetAll.memOk = s.memOk := by simp -implicitDefEqProofs [State.vRetargetAll]

@[simp] theorem State.memOk_setMaster (s : State) (b : Bool) :
    (s.setMaster b).memOk = s.memOk := by simp -implicitDefEqProofs [State.setMaster]

@[simp] theorem State.memOk_election (s : State) :
    s.election.memOk = s.memOk := by simp -implicitDefEqProofs [State.election]

@[simp] theorem State.memOk_writeDst (s : State) (n : ℕ) (d : ℤ) (at_ : ℕ) : (s.writeDst n d at_).memOk = s.memOk := by
  fun_cases State.writeDst s n d at_ <;> simp -implicitDefEqProofs +zetaDelta

@[simp] theorem State.memOk_loopOut (s : State) (n : ℕ) (at_ : ℕ) :
    (s.loopOut n at_).memOk = s.memOk := by
  unfold State.loopOut
  split <;> simp -implicitDefEqProofs

@[simp] theorem State.memOk_sampleSwitch (s : State) (n : ℕ) (ts : ℕ) :
    (s.sampleSwitch n ts).memOk = s.memOk := by simp -implicitDefEqProofs [State.sampleSwitch]

@[simp] theorem State.memOk_loopFlag (s : State) (f : Fd) (b : Bool) :
    (s.loopFlag f b).2.memOk = s.memOk := by simp -implicitDefEqProofs [State.loopFlag]

@[simp] theorem State.memOk_chainOut (s : State) (n : ℕ) (l : List ℕ) (i : ℤ) (x : List (ℕ × ℤ × ℤ)) : (s.chainOut n l i x).2.memOk = s.memOk := by
  induction l generalizing s i x with
  | nil => rfl
  | cons a l ih =>
    unfold State.chainOut
    simp -implicitDefEqProofs [ih]

@[simp] theorem State.memOk_rcOut (s : State) (n : ℕ) (e : ℤ) :
    (s.rcOut n e).2.memOk = s.memOk := by
  unfold State.rcOut
  split <;> simp -implicitDefEqProofs

@[simp] theorem State.memOk_sectNext (s : State) (n : ℕ) (p : ℕ × ℤ × ℤ) :
    (s.sectNext n p).memOk = s.memOk := by simp -implicitDefEqProofs [State.sectNext]

@[simp] theorem State.memOk_qRecord (s : State) (c : ℕ) (ts : ℕ) (v : ℤ) :
    (s.qRecord c ts v).memOk = s.memOk := by simp -implicitDefEqProofs [State.qRecord]

@[simp] theorem State.memOk_qTrace (s : State) (n : ℕ) (ts : ℕ) (x : QNodes) :
    (s.qTrace n ts x).memOk = s.memOk := by simp -implicitDefEqProofs [State.qTrace]

@[simp] theorem State.memOk_loopSafe (s : State) (n : ℕ) (ts : ℕ) :
    (s.loopSafe n ts).memOk = s.memOk := by simp -implicitDefEqProofs [State.loopSafe]

@[simp] theorem State.memOk_oscDetect (s : State) (n : ℕ) (ts : ℕ) (e : ℤ) :
    (s.oscDetect n ts e).memOk = s.memOk := by simp -implicitDefEqProofs [State.oscDetect]

@[simp] theorem State.memOk_loopEval (s : State) (n : ℕ) (ts : ℕ) :
    (s.loopEval n ts).memOk = s.memOk := by
  simp only [State.loopEval]
  (repeat' split) <;> simp -implicitDefEqProofs

@[simp] theorem State.memOk_rcLearn (s : State) (n : ℕ) (m : ℕ) (reset : Bool) :
    (s.rcLearn n m reset).memOk = s.memOk := by simp -implicitDefEqProofs [State.rcLearn]

@[simp] theorem State.memOk_rcEdge (s : State) (n : ℕ) (iv : Option ℕ) :
    (s.rcEdge n iv).memOk = s.memOk := by
  simp only [State.rcEdge]
  (repeat' split) <;> simp -implicitDefEqProofs

@[simp] theorem State.memOk_rcState (s : State) (n : ℕ) :
    (s.rcState n).memOk = s.memOk := by simp -implicitDefEqProofs [State.rcState]

@[simp] theorem State.memOk_loopStep (s : State) (n : ℕ) (ts : ℕ) :
    (s.loopStep n ts).memOk = s.memOk := by simp -implicitDefEqProofs [State.loopStep]

@[simp] theorem State.memOk_vForce (s : State) (c : ℕ) :
    (s.vForce c).memOk = s.memOk := by simp -implicitDefEqProofs [State.vForce]

@[simp] theorem State.memOk_vAcc (s : State) (c : ℕ) (us : ℕ) :
    (s.vAcc c us).memOk = s.memOk := by simp -implicitDefEqProofs [State.vAcc]

@[simp] theorem State.memOk_vBegin (s : State) (c : ℕ) (st : ℕ) :
    (s.vBegin c st).memOk = s.memOk := by simp -implicitDefEqProofs [State.vBegin]

@[simp] theorem State.memOk_vFail (s : State) (c : ℕ) (value : ℕ) :
    (s.vFail c value).memOk = s.memOk := by simp -implicitDefEqProofs [State.vFail]

@[simp] theorem State.memOk_vAbort (s : State) (c : ℕ) (value : ℕ) :
    (s.vAbort c value).memOk = s.memOk := by simp -implicitDefEqProofs [State.vAbort]

@[simp] theorem State.memOk_branchOrder (s : State) (c : ℕ) :
    (s.branchOrder c).memOk = s.memOk := by simp -implicitDefEqProofs [State.branchOrder]

@[simp] theorem State.memOk_vIdle (s : State) (c : ℕ) :
    (s.vIdle c).memOk = s.memOk := by simp -implicitDefEqProofs [State.vIdle]

@[simp] theorem State.memOk_noteKink (s : State) (c : ℕ) :
    (s.noteKink c).memOk = s.memOk := by
  unfold State.noteKink
  split <;> simp -implicitDefEqProofs

@[simp] theorem State.memOk_noteZero (s : State) (c : ℕ) (tz : ℕ) :
    (s.noteZero c tz).memOk = s.memOk := by
  unfold State.noteZero
  split <;> simp -implicitDefEqProofs

@[simp] theorem State.memOk_bufData (s : State) (n : ℕ) (l : List Byte) :
    (s.bufData n l).memOk = s.memOk := by simp -implicitDefEqProofs [State.bufData]

@[simp] theorem State.memOk_storeFrame (s : State) (n : ℕ) (f : CanFrame) :
    (s.storeFrame n f).memOk = s.memOk := by simp -implicitDefEqProofs [State.storeFrame]

@[simp] theorem State.memOk_windowDone (s : State) :
    s.windowDone.memOk = s.memOk := by simp -implicitDefEqProofs [State.windowDone]

@[simp] theorem State.memOk_cycleStart (s : State) (p : ℕ) (cycle : ℕ) (own : Bool) :
    (s.cycleStart p cycle own).memOk = s.memOk := by simp -implicitDefEqProofs [State.cycleStart]

@[simp] theorem State.memOk_mgmtDrop (s : State) (f : Fd) :
    (s.mgmtDrop f).memOk = s.memOk := by simp -implicitDefEqProofs [State.mgmtDrop]

@[simp] theorem State.memOk_touchUpdate (s : State) (src : BitVec 128) :
    (s.touchUpdate src).memOk = s.memOk := by
  unfold State.touchUpdate
  split <;> simp -implicitDefEqProofs

@[simp] theorem State.memOk_heard (s : State) (src : BitVec 128) :
    (s.heard src).memOk = s.memOk := by
  unfold State.heard
  split <;> simp -implicitDefEqProofs

@[simp] theorem State.memOk_flushNtf (s : State) :
    s.flushNtf.memOk = s.memOk := by
  unfold State.flushNtf
  split <;> simp -implicitDefEqProofs

@[simp] theorem State.memOk_reply (s : State) (r : Reply) :
    (s.reply r).memOk = s.memOk := congrArg Memory.wf (s.reply_mem r)

@[simp] theorem State.memOk_keep (s : State) (src : BitVec 128) (r : Reply) :
    (s.keep src r).memOk = s.memOk := by simp -implicitDefEqProofs [State.keep]

@[simp] theorem State.memOk_csrReadAll (s : State) (l : List ℕ) (b : List Byte) : (s.csrReadAll l b).2.memOk = s.memOk := by
  induction l generalizing s b with
  | nil => rfl
  | cons a l ih =>
    unfold State.csrReadAll
    split
    · next e => exact (ih _ _).trans (State.memOk_of_eq (s.memOk_regRead _ _) e)
    · next e => exact State.memOk_of_eq (s.memOk_regRead _ _) e

@[simp] theorem State.memOk_csrWriteAll (s : State) (l : List (ℕ × ℕ)) (k : ℕ) (hm : s.memOk = true) :
    (s.csrWriteAll l k).2.2.memOk = true := by
  induction l generalizing s k with
  | nil => exact hm
  | cons a l ih =>
    unfold State.csrWriteAll
    split
    · next e => exact ih _ _ (State.memOk_of_eq (s.memOk_regWrite _ _ _ hm) e)
    · next e => exact State.memOk_of_eq (s.memOk_regWrite _ _ _ hm) e

@[simp] theorem State.memOk_restart (s : State) :
    s.restart.memOk = s.memOk := by simp -implicitDefEqProofs [State.restart]

@[simp] theorem State.memOk_endIsolation (s : State) (n : ℕ) :
    (s.endIsolation n).memOk = s.memOk := by simp -implicitDefEqProofs [State.endIsolation]

@[simp] theorem State.memOk_alertEndOf (s : State) (kind : ℕ) (idx : ℕ) (code : ℕ) :
    (s.alertEndOf kind idx code).memOk = s.memOk := by simp -implicitDefEqProofs [State.alertEndOf]

@[simp] theorem State.memOk_valveUnfault (s : State) (c : ℕ) :
    (s.valveUnfault c).memOk = s.memOk := by simp -implicitDefEqProofs [State.valveUnfault]

@[simp] theorem State.memOk_newChal (s : State) :
    s.newChal.memOk = s.memOk := by simp -implicitDefEqProofs [State.newChal]

@[simp] theorem State.memOk_bellowsReset (s : State) (cold : Bool) : (s.bellowsReset cold).memOk = true := by
  unfold State.bellowsReset
  simp -implicitDefEqProofs
  rfl

@[simp] theorem State.memOk_moduleReset (s : State) (cause : ℕ) :
    (s.moduleReset cause).memOk = true := by
  unfold State.moduleReset
  simp -implicitDefEqProofs

@[simp] theorem State.memOk_hearthJobs (s : State) (h : ℕ) (hm : s.memOk = true) : (s.hearthJobs h).memOk = true := by
  refine State.memOk_foldl _ _ (fun s p _ hm => ?_) _ (s.memOk_endForAnvil _ hm)
  split
  · simp -implicitDefEqProofs [hm]
  · exact hm

@[simp] theorem State.memOk_hearthXfers (s : State) (h : ℕ) (hm : s.memOk = true) : (s.hearthXfers h).memOk = true := by
  unfold State.hearthXfers
  extract_lets mine s1
  refine State.memOk_foldl _ _ (fun s u _ hm => ?_) _ ?_
  · split
    · split
      · simp -implicitDefEqProofs [hm]
      · exact hm
    · exact hm
  · simp -implicitDefEqProofs [s1, hm]

@[simp] theorem State.memOk_hearthCycle (s : State) (h : ℕ) (hm : s.memOk = true) : (s.hearthCycle h).memOk = true := by
  have ha : ∀ l : List ℕ, (l.foldl State.anvilOff s).memOk = true := fun l => State.memOk_foldl _ l (fun s g _ hm => s.memOk_anvilOff g hm) s hm
  simp -implicitDefEqProofs [State.hearthCycle, ha, State.memOk_clearMem]

@[simp] theorem State.memOk_hearthReset (s : State) (h : ℕ) (bad : List ℕ) (hm : s.memOk = true) :
    (s.hearthReset h bad).memOk = true := by
  unfold State.hearthReset
  extract_lets s1 anv s2 up s3 s4 s5 s6
  have h4 : s4.memOk = true := by simp -implicitDefEqProofs [s4, s3, s2, s1, hm]
  rw [State.memOk_noteReset]
  exact State.memOk_foldl _ _ (fun s a _ hm => s.memOk_holdAnvil _ _ hm) _ (by simp -implicitDefEqProofs [s5, h4])

@[simp] theorem State.memOk_clearCirc (s : State) (tser : ℕ) :
    (s.clearCirc tser).memOk = s.memOk := by
  simp only [State.clearCirc]
  (repeat' split) <;> simp -implicitDefEqProofs

@[simp] theorem State.memOk_clearPerm (s : State) (tser : ℕ) :
    (s.clearPerm tser).memOk = s.memOk := by simp -implicitDefEqProofs [State.clearPerm]

@[simp] theorem State.memOk_requester (s : State) (src : BitVec 128) :
    (s.requester src).2.memOk = s.memOk := by
  unfold State.requester
  split <;> simp -implicitDefEqProofs

@[simp] theorem State.memOk_bellowsCapture (s : State) (src : ℕ) (tag : ℕ) (main : Bool) :
    (s.bellowsCapture src tag main).memOk = s.memOk := by simp -implicitDefEqProofs [State.bellowsCapture]

@[simp] theorem State.memOk_mgmtSnap (s : State) (tag : ℕ) :
    (s.mgmtSnap tag).memOk = s.memOk := by simp -implicitDefEqProofs [State.mgmtSnap]

@[simp] theorem State.memOk_secSync (s : State) :
    s.secSync.memOk = s.memOk := by simp -implicitDefEqProofs [State.secSync]

@[simp] theorem State.memOk_raiseCounter (s : State) (i : ℕ) (v : ℕ) :
    (s.raiseCounter i v).memOk = s.memOk := by simp -implicitDefEqProofs [State.raiseCounter]

@[simp] theorem State.memOk_endUpdate (s : State) :
    s.endUpdate.memOk = s.memOk := by simp -implicitDefEqProofs [State.endUpdate]

@[simp] theorem State.memOk_lapseUpdate (s : State) :
    s.lapseUpdate.memOk = s.memOk := by simp -implicitDefEqProofs [State.lapseUpdate]

@[simp] theorem State.memOk_updateSlot (s : State) :
    s.updateSlot.2.memOk = s.memOk := by
  unfold State.updateSlot
  split <;> simp -implicitDefEqProofs

@[simp] theorem State.memOk_setSlot (s : State) (k : ℕ) (f : FwSlot) :
    (s.setSlot k f).memOk = s.memOk := by simp -implicitDefEqProofs [State.setSlot]

@[simp] theorem State.memOk_resendOne (s : State) (x : Ntf) :
    (s.resendOne x).memOk = s.memOk := by
  unfold State.resendOne
  (repeat' split) <;> simp -implicitDefEqProofs

@[simp] theorem State.memOk_bootRecords (s : State) :
    s.bootRecords.memOk = s.memOk := by
  simp only [State.bootRecords]
  (repeat' split) <;> simp -implicitDefEqProofs

@[simp] theorem State.memOk_slotValid (s : State) (k : ℕ) (norErr : Bool) :
    (s.slotValid k norErr).2.2.memOk = s.memOk := by simp -implicitDefEqProofs [State.slotValid]

@[simp] theorem State.memOk_chooseSlot (s : State) (a : Bool) (b : Bool) :
    (s.chooseSlot a b).2.memOk = s.memOk := by
  simp only [State.chooseSlot]
  (repeat' split) <;> simp -implicitDefEqProofs

@[simp] theorem State.memOk_slotRefused (s : State) (k : ℕ) (code : ℕ) :
    (s.slotRefused k code).memOk = s.memOk := by simp -implicitDefEqProofs [State.slotRefused]

@[simp] theorem State.memOk_loadReg (s : State) (a : ℕ) (w : Word) :
    (s.loadReg a w).memOk = s.memOk := by
  unfold State.loadReg
  split <;> simp -implicitDefEqProofs

@[simp] theorem State.memOk_loadOwner (s : State) (l : List ℕ) :
    (s.loadOwner l).memOk = s.memOk := by simp -implicitDefEqProofs [State.loadOwner]

@[simp] theorem State.memOk_watchdogRecord (s : State) :
    s.watchdogRecord.memOk = s.memOk := by
  unfold State.watchdogRecord
  split <;> simp -implicitDefEqProofs

@[simp] theorem State.memOk_window (s : State) (k : ℕ) (mark : ℕ) (ty : ℕ) (buf : ℕ) :
    (s.window k mark ty buf).memOk = s.memOk := by simp -implicitDefEqProofs [State.window]

@[simp] theorem State.memOk_boardBuffer (s : State) (b : ℕ) :
    (s.boardBuffer b).memOk = s.memOk := by simp -implicitDefEqProofs [State.boardBuffer]

@[simp] theorem State.memOk_boardMatrix (s : State) :
    s.boardMatrix.memOk = s.memOk := by simp -implicitDefEqProofs [State.boardMatrix]

@[simp] theorem State.memOk_startFirmware (s : State) :
    s.startFirmware.memOk = s.memOk := by simp -implicitDefEqProofs [State.startFirmware]

@[simp] theorem State.memOk_training (s : State) :
    s.training.memOk = s.memOk := by simp -implicitDefEqProofs [State.training]

@[simp] theorem State.memOk_stackUp (s : State) (bad : List (ℕ × ℕ)) (k : ℕ) :
    (s.stackUp bad k).memOk = s.memOk := by simp -implicitDefEqProofs [State.stackUp]

@[simp] theorem State.memOk_resetRecord (s : State) :
    s.resetRecord.memOk = s.memOk := by simp -implicitDefEqProofs [State.resetRecord]

@[simp] theorem State.memOk_railsLost (s : State) (hm : s.memOk = true) :
    s.railsLost.memOk = true := by simp -implicitDefEqProofs [State.railsLost, hm, State.memOk_memReset]

@[simp] theorem State.memOk_vinReset (s : State) (mv : ℕ) (cause : ℕ) (hm : s.memOk = true) :
    (s.vinReset mv cause).memOk = true := by simp -implicitDefEqProofs [State.vinReset, hm]

@[simp] theorem State.memOk_coldReset (s : State) (alive : Bool) (cause : ℕ) :
    (s.coldReset alive cause).memOk = true := by
  unfold State.coldReset
  (repeat' split) <;> simp -implicitDefEqProofs

@[simp] theorem State.memOk_mainCapture (s : State) (r : SnapReq) (gen : ℕ) :
    (s.mainCapture r gen).memOk = s.memOk := by simp -implicitDefEqProofs [State.mainCapture]

@[simp] theorem State.memOk_tap (s : State) (ir : ℕ) (dr : ℕ) :
    (s.tap ir dr).memOk = s.memOk := by simp -implicitDefEqProofs [State.tap]

@[simp] theorem State.memOk_tapSample (s : State) :
    s.tapSample.2.memOk = s.memOk := by simp -implicitDefEqProofs [State.tapSample]

@[simp] theorem State.memOk_tapLoad (s : State) (bits : ℕ) :
    (s.tapLoad bits).memOk = s.memOk := by simp -implicitDefEqProofs [State.tapLoad]

end Sys2Proof.Machine
end

