-- ==== Sys2Proof/Proofs/MemCanonCrucible.lean ====
section
/-! What the row commands of the Crucible do to the memory's canonical form: a row is read and written
through `CRun.load` and `CRun.put`, the rest is their iteration. -/

namespace Sys2Proof.Machine

@[simp] theorem CRun.s_ite (p : Prop) [Decidable p] (r t : CRun) : (if p then r else t).s = if p then r.s else t.s :=
  apply_ite CRun.s p r t

/-- Reads of a command in a row, each with what is kept of it, leave the memory. -/
@[simp] theorem CRun.memOk_foldl_eq {α β : Type} {f : β × CRun → α → β × CRun} (hf : ∀ x a, (f x a).2.s.memOk = x.2.s.memOk) (l : List α)
    (x : β × CRun) : (l.foldl f x).2.s.memOk = x.2.s.memOk :=
  List.foldlRecOn (motive := fun y => y.2.s.memOk = x.2.s.memOk) l f rfl (fun y hy a _ => (hf y a).trans hy)

@[simp] theorem CRun.memOk_foldl_eq₂ {α β γ : Type} {f : β × γ × CRun → α → β × γ × CRun} (hf : ∀ x a, (f x a).2.2.s.memOk = x.2.2.s.memOk)
    (l : List α) (x : β × γ × CRun) : (l.foldl f x).2.2.s.memOk = x.2.2.s.memOk :=
  List.foldlRecOn (motive := fun y => y.2.2.s.memOk = x.2.2.s.memOk) l f rfl (fun y hy a _ => (hf y a).trans hy)

section
variable {r : CRun}

@[simp] theorem CRun.memOk_fail (e : ℕ) (loc : Word) : (r.fail e loc).s.memOk = r.s.memOk := by
  unfold CRun.fail
  split <;> rfl

@[simp] theorem CRun.memOk_flags (f : Flags) : (r.flags f).s.memOk = r.s.memOk := rfl

@[simp] theorem CRun.memOk_load (a n : ℕ) : (r.load a n).2.s.memOk = r.s.memOk := by
  unfold CRun.load
  split
  · rfl
  · split <;> simp -implicitDefEqProofs

@[simp] theorem CRun.memOk_loadItem (a n : ℕ) (first : Bool) : (r.loadItem a n first).2.s.memOk = r.s.memOk := by
  unfold CRun.loadItem
  split <;> simp -implicitDefEqProofs

@[simp] theorem CRun.memOk_loadPrefix (a n : ℕ) : (r.loadPrefix a n).2.2.s.memOk = r.s.memOk := by
  unfold CRun.loadPrefix
  split
  · rfl
  · split <;> simp -implicitDefEqProofs

@[simp] theorem CRun.memOk_page (k : ℕ) (d : BitVec 512) (t ptok : ℕ) (first : Bool) : (r.page k d t ptok first).2.s.memOk = r.s.memOk := by
  simp only [CRun.page]
  (repeat' split) <;> simp -implicitDefEqProofs

@[simp] theorem CRun.memOk_indexed (k : ℕ) (d : BitVec 512) (base i : ℕ) : (r.indexed k d base i).2.s.memOk = r.s.memOk := by
  simp only [CRun.indexed]
  (repeat' split) <;> simp -implicitDefEqProofs

@[simp] theorem CRun.memOk_gemvOut (d : BitVec 512) (m v j : ℕ) (a : Acc1) : (gemvOut d r m v j a).2.s.memOk = r.s.memOk := by
  simp only [gemvOut]
  (repeat' split) <;> simp -implicitDefEqProofs

variable (hr : r.s.memOk = true)
include hr

@[simp] theorem CRun.memOk_store (a : ℕ) (l : List Byte) : (r.store a l).s.memOk = true := by
  simp -implicitDefEqProofs [CRun.store, State.memOk_writeBytes, hr]

@[simp] theorem CRun.memOk_flush (a : ℕ) (l : List Byte) : (r.flush a l).s.memOk = true := by
  unfold CRun.flush
  extract_lets l'
  split
  · exact hr
  · exact CRun.memOk_store hr _ _

theorem CRun.memOk_attnOut (d : BitVec 512) (base dim q ntok : ℕ) (a : Attn) : (r.attnOut d base dim q ntok a).s.memOk = true := by
  simp only [CRun.attnOut]
  split <;> simp [hr]

theorem CRun.memOk_copyRow (src dst n : ℕ) : (r.copyRow src dst n).s.memOk = true := by
  simp only [CRun.copyRow]
  split
  · exact hr
  · split
    · split <;> simp -implicitDefEqProofs [hr]
    · simp -implicitDefEqProofs [hr]

theorem CRun.memOk_foldl {α : Type} {f : CRun → α → CRun} (hf : ∀ r a, r.s.memOk = true → (f r a).s.memOk = true) (l : List α) :
    (l.foldl f r).s.memOk = true :=
  List.foldlRecOn (motive := fun r => r.s.memOk = true) l f hr (fun r hr a _ => hf r a hr)

theorem CRun.memOk_gemv (d : BitVec 512) : (r.gemv d).s.memOk = true := by
  refine CRun.memOk_foldl ?_ (fun _ _ hr => CRun.memOk_flush hr _ _) _
  simp -implicitDefEqProofs [hr]

theorem CRun.memOk_attn (k : ℕ) (d : BitVec 512) : (r.attn k d).s.memOk = true := by
  simp only [CRun.attn]
  split
  · simp -implicitDefEqProofs [hr]
  · refine CRun.memOk_foldl ?_ (fun _ _ hr => CRun.memOk_attnOut hr _ _ _ _ _ _) _
    simp -implicitDefEqProofs [hr]

theorem CRun.memOk_amerge (d : BitVec 512) : (r.amerge d).s.memOk = true := by
  simp only [CRun.amerge]
  split
  · simp -implicitDefEqProofs [hr]
  · refine CRun.memOk_foldl ?_ (fun _ _ hr => CRun.memOk_attnOut hr _ _ _ _ _ _) _
    simp -implicitDefEqProofs [hr]

theorem CRun.memOk_gather (k : ℕ) (d : BitVec 512) : (r.gather k d).s.memOk = true :=
  CRun.memOk_foldl hr (fun _ i hr => CRun.memOk_copyRow ((CRun.memOk_indexed k d _ i).trans hr) _ _ _) _

theorem CRun.memOk_scatter (k : ℕ) (d : BitVec 512) : (r.scatter k d).s.memOk = true := by
  refine CRun.memOk_foldl hr (fun r i hr => ?_) _
  simp only
  split
  · exact CRun.memOk_copyRow ((CRun.memOk_indexed k d _ i).trans hr) _ _ _
  · split <;> simp -implicitDefEqProofs [hr]

theorem CRun.memOk_reduce (d : BitVec 512) : (r.reduce d).s.memOk = true := by
  refine CRun.memOk_flush ?_ _ _
  simp -implicitDefEqProofs [hr]

theorem CRun.memOk_eltw (d : BitVec 512) : (r.eltw d).s.memOk = true := by
  simp -implicitDefEqProofs [CRun.eltw, hr]

theorem CRun.memOk_pack (d : BitVec 512) : (r.pack d).s.memOk = true := by
  simp only [CRun.pack]
  refine CRun.memOk_flush (CRun.memOk_flush ((CRun.memOk_foldl_eq₂ (fun x b => ?_) _ _).trans hr) _ _) _ _
  split <;> simp -implicitDefEqProofs

theorem CRun.memOk_unpack (d : BitVec 512) : (r.unpack d).s.memOk = true := by
  refine CRun.memOk_flush ?_ _ _
  simp -implicitDefEqProofs [hr]

theorem CRun.memOk_fill (d : BitVec 512) : (r.fill d).s.memOk = true :=
  CRun.memOk_store hr _ _

theorem CRun.memOk_scrub (d : BitVec 512) : (r.scrub d).s.memOk = true := by
  simp only [CRun.scrub]
  split
  · simp -implicitDefEqProofs [hr]
  · split <;> simp -implicitDefEqProofs [hr]

end

end Sys2Proof.Machine
end

