-- ==== Sys2Proof/Proofs/MemCanonShapes.lean ====
section
/-! The shapes that the rows of the table share (a slot's operation, a register write, a command of a
stream, a management request) keep the memory's canonical form, and the answers of the management requests do. -/

namespace Sys2Proof.Machine

/-- What a command leaves has its memory in canonical form. -/
def nextMemOk : Out → Bool
  | .next t => t.memOk
  | .fault _ => true
  | .refused _ => true

@[simp] theorem nextMemOk_next (s : State) : nextMemOk (.next s) = s.memOk := rfl

@[simp] theorem nextMemOk_ite (p : Prop) [Decidable p] (x y : Out) : nextMemOk (if p then x else y) = if p then nextMemOk x else nextMemOk y :=
  apply_ite nextMemOk p x y

@[simp] theorem State.memOk_refuse (s : State) (st : ℕ) : (s.refuse st).2.2.memOk = s.memOk := rfl

@[simp] theorem State.memOk_okay (s : State) : s.okay.2.2.memOk = s.memOk := rfl

section
variable {s : State} (hm : s.memOk = true)
include hm

theorem memOk_slotOp (h : Hd) (o : SlotOp) : nextMemOk (s.slotOp h o) = true := by
  simp -implicitDefEqProofs [State.slotOp, hm]

theorem memOk_rowWrite (p : Path) (a : ℕ) (w : Word) (row : Bool) (t : ℕ) : nextMemOk (s.rowWrite p a w row t) = true := by
  simp -implicitDefEqProofs [State.rowWrite, hm]

theorem memOk_command (n ctype len : ℕ) (msg : List Byte) (t : ℕ) {f : ℕ → State → State} (hf : ∀ c s, s.memOk = true → (f c s).memOk = true) :
    nextMemOk (s.command n ctype len msg t f) = true := by
  unfold State.command
  extract_lets u
  have hu : u.memOk = true := (State.memOk_at _ _).trans hm
  split
  · exact hu
  · split
    · next e => exact State.memOk_of_eq ((State.memOk_takeMsg _ _ _ _ _).trans hu) e
    · next e =>
      have hv := State.memOk_of_eq ((State.memOk_takeMsg _ _ _ _ _).trans hu) e
      simp -implicitDefEqProofs [hv, hf]

theorem memOk_onStream (n ctype len : ℕ) (msg : List Byte) (t : ℕ) {f : ℕ → ℕ → State → State}
    (hf : ∀ m c s, s.memOk = true → (f m c s).memOk = true) : nextMemOk (s.onStream n ctype len msg t f) = true := by
  unfold State.onStream
  extract_lets m u
  have hu : u.memOk = true := (State.memOk_at _ _).trans hm
  split
  · split <;> simp -implicitDefEqProofs [hu]
  · refine memOk_command hm _ _ _ _ _ (fun c s hs => ?_)
    split
    · simp -implicitDefEqProofs [hs]
    · exact hf _ _ _ hs

theorem memOk_request (cmd : ℕ) (src : BitVec 128) (d : Dgram) (t : ℕ) {f : State → MgmtAns}
    (hf : ∀ s, s.memOk = true → (f s).2.2.memOk = true) : nextMemOk (s.request cmd src d t f) = true := by
  fun_cases State.request s cmd src d t f
  all_goals simp -implicitDefEqProofs +zetaDelta [hm]
  case case8 e _ =>
    refine State.memOk_of_eq₂ (hf _ ?_) e
    simp -implicitDefEqProofs +zetaDelta [hm]

theorem memOk_resetRequest (dom keep : ℕ) (src : BitVec 128) (d : Dgram) (t : ℕ) {f : State → ℕ → MgmtAns}
    (hf : ∀ s n, s.memOk = true → (f s n).2.2.memOk = true) : nextMemOk (s.resetRequest dom keep src d t f) = true := by
  unfold State.resetRequest
  split
  · simp -implicitDefEqProofs [hm]
  · refine memOk_request hm _ _ _ _ (fun s hs => ?_)
    simp -implicitDefEqProofs [hs, hf]

end
@[simp] theorem State.memOk_fwBegin (s : State) (src : BitVec 128) (len : ℕ) : (s.fwBegin src len).2.2.memOk = s.memOk := by
  simp -implicitDefEqProofs [State.fwBegin]

@[simp] theorem State.memOk_fwData (s : State) (off : ℕ) (data : List Byte) : (s.fwData off data).2.2.memOk = s.memOk := by
  unfold State.fwData
  split <;> simp -implicitDefEqProofs

@[simp] theorem State.memOk_fwEnd (s : State) (norErr : Bool) : (s.fwEnd norErr).2.2.memOk = s.memOk := by
  unfold State.fwEnd
  split <;> simp -implicitDefEqProofs

@[simp] theorem State.memOk_fwActivate (s : State) : s.fwActivate.2.2.memOk = s.memOk := by
  unfold State.fwActivate
  split <;> simp -implicitDefEqProofs

@[simp] theorem State.memOk_fwCommit (s : State) : s.fwCommit.2.2.memOk = s.memOk := by
  unfold State.fwCommit
  split <;> simp -implicitDefEqProofs

@[simp] theorem State.memOk_fwUpdate (s : State) (src : BitVec 128) (d : Dgram) (norErr : Bool) : (s.fwUpdate src d norErr).2.2.memOk = s.memOk := by
  fun_cases State.fwUpdate s src d norErr <;> simp -implicitDefEqProofs +zetaDelta

@[simp] theorem State.memOk_tokenRefused (s : State) (cmd : ℕ) (src : BitVec 128) : (s.tokenRefused cmd src).2.2.memOk = s.memOk := by
  simp -implicitDefEqProofs [State.tokenRefused]

@[simp] theorem State.memOk_claimDevice (s : State) (key sig : List Byte) : (s.claimDevice key sig).2.2.memOk = s.memOk := by
  simp -implicitDefEqProofs [State.claimDevice]

@[simp] theorem State.memOk_configWrite (s : State) (p : List Byte) : (s.configWrite p).2.2.memOk = s.memOk := by
  fun_cases State.configWrite s p <;> simp -implicitDefEqProofs +zetaDelta

@[simp] theorem State.memOk_attestReq (s : State) (p : List Byte) : (s.attestReq p).2.2.memOk = s.memOk := by
  simp -implicitDefEqProofs [State.attestReq]

end Sys2Proof.Machine
end

