-- ==== Sys2Proof/Proofs/MemCanonRows.lean ====
section
/-! Each row of the table that is not one of those shapes alone keeps the memory's canonical form. -/

namespace Sys2Proof.Machine

theorem memOk_execStallEnd (s : State) (hm : s.memOk = true) : nextMemOk (execStallEnd s) = true := by
  unfold execStallEnd
  split <;> simp -implicitDefEqProofs [hm]

theorem memOk_execStop (len : ℕ) (s : State) (hm : s.memOk = true) : nextMemOk (execStop len s) = true := by simp -implicitDefEqProofs [execStop, hm]

theorem memOk_execJobEnd (t : ℕ) (s : State) (hm : s.memOk = true) : nextMemOk (execJobEnd t s) = true := by
  unfold execJobEnd
  (repeat' split) <;> simp -implicitDefEqProofs [hm]

theorem memOk_execXferComplete (unit : ℕ) (idx : ℕ) (t : ℕ) (s : State) (hm : s.memOk = true) : nextMemOk (execXferComplete unit idx t s) = true := by
  simp only [execXferComplete]
  (repeat' split) <;> simp -implicitDefEqProofs [hm]

theorem memOk_execXfenceComplete (unit : ℕ) (s : State) (hm : s.memOk = true) : nextMemOk (execXfenceComplete unit s) = true := by
  unfold execXfenceComplete
  (repeat' split) <;> simp -implicitDefEqProofs [hm]

theorem memOk_execAdmission (s : State) (hm : s.memOk = true) : nextMemOk (execAdmission s) = true := by
  unfold execAdmission
  split <;> simp -implicitDefEqProofs [hm]

theorem memOk_execJobSwitch (t : ℕ) (s : State) (hm : s.memOk = true) : nextMemOk (execJobSwitch t s) = true := by
  simp only [execJobSwitch]
  (repeat' split) <;> simp -implicitDefEqProofs [hm]

theorem memOk_execJobSelect (t : ℕ) (s : State) (hm : s.memOk = true) : nextMemOk (execJobSelect t s) = true := by
  fun_cases execJobSelect t s <;> simp -implicitDefEqProofs +zetaDelta [hm]

theorem memOk_execWriteBack (unit : ℕ) (s : State) (hm : s.memOk = true) : nextMemOk (execWriteBack unit s) = true := by simp -implicitDefEqProofs [execWriteBack, hm]

theorem memOk_execPatrol (addr : ℕ) (len : ℕ) (found : Upset) (t : ℕ) (s : State) (hm : s.memOk = true) : nextMemOk (execPatrol addr len found t s) = true := by
  unfold execPatrol
  split <;> simp -implicitDefEqProofs [hm]

theorem memOk_execStackFence (stk : ℕ) (cause : ℕ) (t : ℕ) (s : State) (hm : s.memOk = true) : nextMemOk (execStackFence stk cause t s) = true := by
  unfold execStackFence
  (repeat' split) <;> simp -implicitDefEqProofs [hm]

theorem memOk_execAnvilHoldEffect (g : ℕ) (t : ℕ) (s : State) (hm : s.memOk = true) : nextMemOk (execAnvilHoldEffect g t s) = true := by
  fun_cases execAnvilHoldEffect g t s <;> simp -implicitDefEqProofs +zetaDelta [hm]

theorem memOk_execCrucNop (stk t : ℕ) (s : State) (hm : s.memOk = true) : nextMemOk (execCrucNop stk t s) = true := by
  unfold execCrucNop
  have hs : (s.crucStart stk 0 t fun r _ => r).memOk = true := State.memOk_crucStart (fun _ _ hr => hr) hm _ _ _
  simp -implicitDefEqProofs [hs]

theorem memOk_execGemv (stk t : ℕ) (s : State) (hm : s.memOk = true) : nextMemOk (execGemv stk t s) = true :=
  State.memOk_crucStart (fun _ _ hr => CRun.memOk_gemv hr _) hm _ _ _

theorem memOk_execAttn (stk t : ℕ) (s : State) (hm : s.memOk = true) : nextMemOk (execAttn stk t s) = true :=
  State.memOk_crucStart (fun _ _ hr => CRun.memOk_attn hr _ _) hm _ _ _

theorem memOk_execAmerge (stk t : ℕ) (s : State) (hm : s.memOk = true) : nextMemOk (execAmerge stk t s) = true :=
  State.memOk_crucStart (fun _ _ hr => CRun.memOk_amerge hr _) hm _ _ _

theorem memOk_execGather (stk t : ℕ) (s : State) (hm : s.memOk = true) : nextMemOk (execGather stk t s) = true :=
  State.memOk_crucStart (fun _ _ hr => CRun.memOk_gather hr _ _) hm _ _ _

theorem memOk_execScatter (stk t : ℕ) (s : State) (hm : s.memOk = true) : nextMemOk (execScatter stk t s) = true :=
  State.memOk_crucStart (fun _ _ hr => CRun.memOk_scatter hr _ _) hm _ _ _

theorem memOk_execReduce (stk t : ℕ) (s : State) (hm : s.memOk = true) : nextMemOk (execReduce stk t s) = true :=
  State.memOk_crucStart (fun _ _ hr => CRun.memOk_reduce hr _) hm _ _ _

theorem memOk_execEltw (stk t : ℕ) (s : State) (hm : s.memOk = true) : nextMemOk (execEltw stk t s) = true :=
  State.memOk_crucStart (fun _ _ hr => CRun.memOk_eltw hr _) hm _ _ _

theorem memOk_execPack (stk t : ℕ) (s : State) (hm : s.memOk = true) : nextMemOk (execPack stk t s) = true :=
  State.memOk_crucStart (fun _ _ hr => CRun.memOk_pack hr _) hm _ _ _

theorem memOk_execUnpack (stk t : ℕ) (s : State) (hm : s.memOk = true) : nextMemOk (execUnpack stk t s) = true :=
  State.memOk_crucStart (fun _ _ hr => CRun.memOk_unpack hr _) hm _ _ _

theorem memOk_execCopy (stk t : ℕ) (s : State) (hm : s.memOk = true) : nextMemOk (execCopy stk t s) = true :=
  State.memOk_crucStart (fun _ _ hr => CRun.memOk_copyRow hr _ _ _) hm _ _ _

theorem memOk_execFill (stk t : ℕ) (s : State) (hm : s.memOk = true) : nextMemOk (execFill stk t s) = true :=
  State.memOk_crucStart (fun _ _ hr => CRun.memOk_fill hr _) hm _ _ _

theorem memOk_execScrub (stk t : ℕ) (s : State) (hm : s.memOk = true) : nextMemOk (execScrub stk t s) = true :=
  State.memOk_crucStart (fun _ _ hr => CRun.memOk_scrub hr _) hm _ _ _

theorem memOk_execCrucComplete (stk : ℕ) (t : ℕ) (s : State) (hm : s.memOk = true) : nextMemOk (execCrucComplete stk t s) = true := by simp -implicitDefEqProofs [execCrucComplete, hm]

theorem memOk_execCrucPreempt (stk : ℕ) (s : State) (hm : s.memOk = true) : nextMemOk (execCrucPreempt stk s) = true := by
  fun_cases execCrucPreempt stk s <;> simp -implicitDefEqProofs +zetaDelta [hm]

theorem memOk_execCrucHostAdmit (stk : ℕ) (s : State) (hm : s.memOk = true) : nextMemOk (execCrucHostAdmit stk s) = true := by
  unfold execCrucHostAdmit
  split <;> simp -implicitDefEqProofs [hm]

theorem memOk_execLinkUp (i : ℕ) (t : ℕ) (s : State) (hm : s.memOk = true) : nextMemOk (execLinkUp i t s) = true := by simp -implicitDefEqProofs [execLinkUp, hm]

theorem memOk_execLinkBringupRetry (i : ℕ) (t : ℕ) (s : State) (hm : s.memOk = true) : nextMemOk (execLinkBringupRetry i t s) = true := by
  fun_cases execLinkBringupRetry i t s <;> simp -implicitDefEqProofs +zetaDelta [hm]

theorem memOk_execLinkDown (i : ℕ) (t : LossIn) (s : State) (hm : s.memOk = true) : nextMemOk (execLinkDown i t s) = true := by simp -implicitDefEqProofs [execLinkDown, hm]

theorem memOk_execDadTimeout (i : ℕ) (t : ℕ) (s : State) (hm : s.memOk = true) : nextMemOk (execDadTimeout i t s) = true := by
  fun_cases execDadTimeout i t s <;> simp -implicitDefEqProofs +zetaDelta [hm]

theorem memOk_execNeighbourSolicitation (e : EthIn) (target : BitVec 128) (src : BitVec 128) (t : ℕ) (s : State) (hm : s.memOk = true) : nextMemOk (execNeighbourSolicitation e target src t s) = true := by simp -implicitDefEqProofs [execNeighbourSolicitation, hm]

theorem memOk_execArpRequest (e : EthIn) (target : ℕ) (t : ℕ) (s : State) (hm : s.memOk = true) : nextMemOk (execArpRequest e target t s) = true := by simp -implicitDefEqProofs [execArpRequest, hm]

theorem memOk_execIcmpEchoRequest (e : EthIn) (dst : BitVec 128) (src : BitVec 128) (data : List Byte) (t : ℕ) (s : State) (hm : s.memOk = true) : nextMemOk (execIcmpEchoRequest e dst src data t s) = true := by simp -implicitDefEqProofs [execIcmpEchoRequest, hm]

theorem memOk_execNeighbourResolutionRetry (i : ℕ) (a : BitVec 128) (t : ℕ) (s : State) (hm : s.memOk = true) : nextMemOk (execNeighbourResolutionRetry i a t s) = true := by
  fun_cases execNeighbourResolutionRetry i a t s <;> simp -implicitDefEqProofs +zetaDelta [hm]

theorem memOk_execData (e : EthIn) (src : BitVec 128) (p : Pkt) (t : ℕ) (s : State) (hm : s.memOk = true) : nextMemOk (execData e src p t s) = true := by simp -implicitDefEqProofs [execData, hm]

theorem memOk_execAck (e : EthIn) (src : BitVec 128) (p : Pkt) (t : ℕ) (s : State) (hm : s.memOk = true) : nextMemOk (execAck e src p t s) = true := by simp -implicitDefEqProofs [execAck, hm]

theorem memOk_execCred (e : EthIn) (src : BitVec 128) (p : Pkt) (t : ℕ) (s : State) (hm : s.memOk = true) : nextMemOk (execCred e src p t s) = true := by simp -implicitDefEqProofs [execCred, hm]

theorem memOk_execOpen (e : EthIn) (src : BitVec 128) (p : Pkt) (t : ℕ) (s : State) (hm : s.memOk = true) : nextMemOk (execOpen e src p t s) = true := by simp -implicitDefEqProofs [execOpen, hm]

theorem memOk_execOpenAck (e : EthIn) (src : BitVec 128) (p : Pkt) (t : ℕ) (s : State) (hm : s.memOk = true) : nextMemOk (execOpenAck e src p t s) = true := by simp -implicitDefEqProofs [execOpenAck, hm]

theorem memOk_execClose (e : EthIn) (src : BitVec 128) (p : Pkt) (t : ℕ) (s : State) (hm : s.memOk = true) : nextMemOk (execClose e src p t s) = true := by simp -implicitDefEqProofs [execClose, hm]

theorem memOk_execRst (e : EthIn) (src : BitVec 128) (p : Pkt) (t : ℕ) (s : State) (hm : s.memOk = true) : nextMemOk (execRst e src p t s) = true := by simp -implicitDefEqProofs [execRst, hm]

theorem memOk_execMemwr (n : ℕ) (msg : List Byte) (t : ℕ) (s : State) (hm : s.memOk = true) : nextMemOk (execMemwr n msg t s) = true := by
  have ht : ∀ {b u}, (s.at t).takeMsg n 4 msg 16 = (b, u) → u.memOk = true := fun e =>
    State.memOk_of_eq ((State.memOk_takeMsg _ _ _ _ _).trans ((State.memOk_at _ _).trans hm)) e
  unfold execMemwr
  simp only
  split
  · next e => exact ht e
  · next u e =>
    have hu : u.memOk = true := ht e
    split
    · simp -implicitDefEqProofs [hu]
    · split
      · simp -implicitDefEqProofs [hu]
      · split <;> next e => simp -implicitDefEqProofs [State.memOk_of_eq (State.memOk_hostWrite _ _ _ hu) e]

theorem memOk_execMemrd (n : ℕ) (msg : List Byte) (t : ℕ) (s : State) (hm : s.memOk = true) : nextMemOk (execMemrd n msg t s) = true := by
  have ht : ∀ {b u need}, (s.at t).takeMsg n 5 msg need = (b, u) → u.memOk = true := fun e =>
    State.memOk_of_eq ((State.memOk_takeMsg _ _ _ _ _).trans ((State.memOk_at _ _).trans hm)) e
  unfold execMemrd
  simp only
  split
  · next e => exact ht e
  · next u e =>
    have hu : u.memOk = true := ht e
    split <;> simp -implicitDefEqProofs [hu]

theorem memOk_execPace (n : ℕ) (msg : List Byte) (t : ℕ) (s : State) (hm : s.memOk = true) : nextMemOk (execPace n msg t s) = true := by simp -implicitDefEqProofs [execPace, hm]

theorem memOk_execRelayFrame (e : EthIn) (kind : ℕ) (dstMac : ℕ) (len : ℕ) (p : Option Pkt) (t : ℕ) (s : State) (hm : s.memOk = true) : nextMemOk (execRelayFrame e kind dstMac len p t s) = true := by simp -implicitDefEqProofs [execRelayFrame, hm]

theorem memOk_execAckTimer (n : ℕ) (t : ℕ) (s : State) (hm : s.memOk = true) : nextMemOk (execAckTimer n t s) = true := by
  fun_cases execAckTimer n t s <;> simp -implicitDefEqProofs +zetaDelta [hm]

theorem memOk_execRtoExpiry (n : ℕ) (t : ℕ) (s : State) (hm : s.memOk = true) : nextMemOk (execRtoExpiry n t s) = true := by
  fun_cases execRtoExpiry n t s <;> simp -implicitDefEqProofs +zetaDelta [hm]

theorem memOk_execCredProbe (n : ℕ) (t : ℕ) (s : State) (hm : s.memOk = true) : nextMemOk (execCredProbe n t s) = true := by simp -implicitDefEqProofs [execCredProbe, hm]

theorem memOk_execFrameTransmit (i : ℕ) (t : TxIn) (s : State) (hm : s.memOk = true) : nextMemOk (execFrameTransmit i t s) = true := by
  have hl : ∀ {v b u}, v.memOk = true → State.sendLocal v i t.bad = (b, u) → u.memOk = true := fun hv e =>
    State.memOk_of_eq ((State.memOk_sendLocal _ _ _).trans hv) e
  fun_cases execFrameTransmit i t s
  case case4 u _ _ _ _ _ _ _ v e =>
    have hv : v.memOk = true := hl (by simp -implicitDefEqProofs +zetaDelta [hm]) e
    simp -implicitDefEqProofs [hv]
  all_goals simp -implicitDefEqProofs +zetaDelta [hm]

theorem memOk_execBootStreamRelisten (n : ℕ) (t : ℕ) (s : State) (hm : s.memOk = true) : nextMemOk (execBootStreamRelisten n t s) = true := by
  fun_cases execBootStreamRelisten n t s <;> simp -implicitDefEqProofs +zetaDelta [hm]

theorem memOk_execAdmissionRound (t : ℕ) (s : State) (hm : s.memOk = true) : nextMemOk (execAdmissionRound t s) = true := by
  have hv : ∀ (p : Bool) (v : Option Cached) (u : State), u.memOk = true →
      (if p = true then v.elim u (fun v => u.clearErrs (0x13FFF000000 + 256 * v.strm) 256) else u).memOk = true := by
    intro p v u hu
    split
    · cases v
      · exact hu
      · exact State.memOk_clearErrs _ _ _ hu
    · exact hu
  fun_cases execAdmissionRound t s
  case case3 n r q x full victim h u cache e q' u' c w =>
    have hu : u.memOk = true := hv _ _ _ ((State.memOk_at _ _).trans hm)
    have hc : c.memOk = true := by simp -implicitDefEqProofs [c, u', hu]
    have hw : w.memOk = true := by
      simp -implicitDefEqProofs only [w]
      split <;> simp -implicitDefEqProofs [hc]
    simp -implicitDefEqProofs [hw]
  all_goals simp -implicitDefEqProofs +zetaDelta [hm]

theorem memOk_execPinGrant (t : ℕ) (s : State) (hm : s.memOk = true) : nextMemOk (execPinGrant t s) = true := by
  fun_cases execPinGrant t s <;> simp -implicitDefEqProofs +zetaDelta [hm]

theorem memOk_execCplPush (n : ℕ) (t : ℕ) (s : State) (hm : s.memOk = true) : nextMemOk (execCplPush n t s) = true := by
  fun_cases execCplPush n t s <;> simp -implicitDefEqProofs +zetaDelta [hm]

theorem memOk_execJobSubmit (n : ℕ) (msg : List Byte) (t : ℕ) (s : State) (hm : s.memOk = true) : nextMemOk (execJobSubmit n msg t s) = true := by
  refine memOk_command hm _ _ _ _ _ (fun c s hs => ?_)
  (repeat' split) <;> simp -implicitDefEqProofs [hs]

theorem memOk_execJobCancel (n : ℕ) (msg : List Byte) (t : ℕ) (s : State) (hm : s.memOk = true) : nextMemOk (execJobCancel n msg t s) = true := by
  refine memOk_command hm _ _ _ _ _ (fun c s hs => ?_)
  simp only
  (repeat' split) <;> simp -implicitDefEqProofs [hs]

theorem memOk_execCancelTimeout (t : ℕ) (s : State) (hm : s.memOk = true) : nextMemOk (execCancelTimeout t s) = true := by
  fun_cases execCancelTimeout t s <;> simp -implicitDefEqProofs +zetaDelta [hm]

theorem memOk_execImageAccept (n : ℕ) (msg : List Byte) (t : ℕ) (s : State) (hm : s.memOk = true) : nextMemOk (execImageAccept n msg t s) = true := by
  refine memOk_command hm _ _ _ _ _ (fun c s hs => ?_)
  simp only
  (repeat' split) <;> simp -implicitDefEqProofs [hs]

theorem memOk_execImageUnload (n : ℕ) (msg : List Byte) (t : ℕ) (s : State) (hm : s.memOk = true) : nextMemOk (execImageUnload n msg t s) = true :=
  memOk_command hm _ _ _ _ _ (fun c s hs => by simp -implicitDefEqProofs [hs])

theorem memOk_execCrucCmd (n : ℕ) (msg : List Byte) (t : ℕ) (s : State) (hm : s.memOk = true) : nextMemOk (execCrucCmd n msg t s) = true :=
  memOk_command hm _ _ _ _ _ (fun c s hs => by simp -implicitDefEqProofs [hs])

theorem memOk_execRingCfg (n : ℕ) (msg : List Byte) (t : ℕ) (s : State) (hm : s.memOk = true) : nextMemOk (execRingCfg n msg t s) = true := by
  refine memOk_command hm _ _ _ _ _ (fun c s hs => ?_)
  have hf : ∀ l : List (ℕ × ℕ), (l.foldl (fun s p => s.clearMem p.1 p.2) s).memOk = true := fun l =>
    State.memOk_foldl _ _ (fun s p _ hs => s.memOk_clearMem _ _ hs) _ hs
  simp -implicitDefEqProofs [hs, hf]

theorem memOk_execStreamCfg (n : ℕ) (msg : List Byte) (t : ℕ) (s : State) (hm : s.memOk = true) : nextMemOk (execStreamCfg n msg t s) = true :=
  memOk_onStream hm _ _ _ _ _ (fun m c s hs => by simp -implicitDefEqProofs [hs])

theorem memOk_execStreamClose (n : ℕ) (msg : List Byte) (t : ℕ) (s : State) (hm : s.memOk = true) : nextMemOk (execStreamClose n msg t s) = true :=
  memOk_onStream hm _ _ _ _ _ (fun m c s hs => by simp -implicitDefEqProofs [hs])

theorem memOk_execStreamReset (n : ℕ) (msg : List Byte) (t : ℕ) (s : State) (hm : s.memOk = true) : nextMemOk (execStreamReset n msg t s) = true :=
  memOk_onStream hm _ _ _ _ _ (fun m c s hs => by simp -implicitDefEqProofs [hs])

theorem memOk_execStreamQuery (n : ℕ) (msg : List Byte) (t : ℕ) (s : State) (hm : s.memOk = true) : nextMemOk (execStreamQuery n msg t s) = true :=
  memOk_onStream hm _ _ _ _ _ (fun m c s hs => by simp -implicitDefEqProofs [hs])

theorem memOk_execTemperInterval (die : List ℤ) (vin : ℕ) (t : ℕ) (s : State) (hm : s.memOk = true) : nextMemOk (execTemperInterval die vin t s) = true := by simp -implicitDefEqProofs [execTemperInterval, hm]

theorem memOk_execKRaise (t : ℕ) (s : State) (hm : s.memOk = true) : nextMemOk (execKRaise t s) = true := by simp -implicitDefEqProofs [execKRaise, hm]

theorem memOk_execRaisedrop (t : ℕ) (s : State) (hm : s.memOk = true) : nextMemOk (execRaisedrop t s) = true := by simp -implicitDefEqProofs [execRaisedrop, hm]

theorem memOk_execVcoreSettled (t : ℕ) (s : State) (hm : s.memOk = true) : nextMemOk (execVcoreSettled t s) = true := by simp -implicitDefEqProofs [execVcoreSettled, hm]

theorem memOk_execDroop (d : DroopIn) (t : ℕ) (s : State) (hm : s.memOk = true) : nextMemOk (execDroop d t s) = true := by simp -implicitDefEqProofs [execDroop, hm]

theorem memOk_execSagWarn (mv : ℕ) (t : ℕ) (s : State) (hm : s.memOk = true) : nextMemOk (execSagWarn mv t s) = true := by simp -implicitDefEqProofs [execSagWarn, hm]

theorem memOk_execSagWarnClear (mv : ℕ) (t : ℕ) (s : State) (hm : s.memOk = true) : nextMemOk (execSagWarnClear mv t s) = true := by simp -implicitDefEqProofs [execSagWarnClear, hm]

theorem memOk_execCalibration (meas : Option ℕ) (t : ℕ) (s : State) (hm : s.memOk = true) : nextMemOk (execCalibration meas t s) = true := by
  unfold execCalibration
  split <;> simp -implicitDefEqProofs [hm]

theorem memOk_execCapStale (src : ℕ) (t : ℕ) (s : State) (hm : s.memOk = true) : nextMemOk (execCapStale src t s) = true := by simp -implicitDefEqProofs [execCapStale, hm]

theorem memOk_execAgeingEval (slack : List ℕ) (t : ℕ) (s : State) (hm : s.memOk = true) : nextMemOk (execAgeingEval slack t s) = true := by simp -implicitDefEqProofs [execAgeingEval, hm]

theorem memOk_execCoolingTick (k : TickIn) (t : ℕ) (s : State) (hm : s.memOk = true) : nextMemOk (execCoolingTick k t s) = true := by simp -implicitDefEqProofs [execCoolingTick, hm]

theorem memOk_execNtcFault (n : ℕ) (ohm : List ℕ) (t : ℕ) (s : State) (hm : s.memOk = true) : nextMemOk (execNtcFault n ohm t s) = true := by simp -implicitDefEqProofs [execNtcFault, hm]

theorem memOk_execPressureFault (n : ℕ) (mv : List ℕ) (t : ℕ) (s : State) (hm : s.memOk = true) : nextMemOk (execPressureFault n mv t s) = true := by simp -implicitDefEqProofs [execPressureFault, hm]

theorem memOk_execSensorRecover (n : ℕ) (held : ℕ) (t : ℕ) (s : State) (hm : s.memOk = true) : nextMemOk (execSensorRecover n held t s) = true := by simp -implicitDefEqProofs [execSensorRecover, hm]

theorem memOk_execSensorDisagree (a : ℕ) (b : ℕ) (held : ℕ) (t : ℕ) (s : State) (hm : s.memOk = true) : nextMemOk (execSensorDisagree a b held t s) = true := by simp -implicitDefEqProofs [execSensorDisagree, hm]

theorem memOk_execSensorSuspect (n : ℕ) (v : ℤ) (held : ℕ) (t : ℕ) (s : State) (hm : s.memOk = true) : nextMemOk (execSensorSuspect n v held t s) = true := by simp -implicitDefEqProofs [execSensorSuspect, hm]

theorem memOk_execNopulse (held : ℕ) (t : ℕ) (s : State) (hm : s.memOk = true) : nextMemOk (execNopulse held t s) = true := by simp -implicitDefEqProofs [execNopulse, hm]

theorem memOk_execDpcollapse (dp : ℤ) (held : ℕ) (t : ℕ) (s : State) (hm : s.memOk = true) : nextMemOk (execDpcollapse dp held t s) = true := by simp -implicitDefEqProofs [execDpcollapse, hm]

theorem memOk_execDierise (rise : ℕ) (t : ℕ) (s : State) (hm : s.memOk = true) : nextMemOk (execDierise rise t s) = true := by simp -implicitDefEqProofs [execDierise, hm]

theorem memOk_execThrottleRelease (flow : ℕ) (dp : ℤ) (held : ℕ) (t : ℕ) (s : State) (hm : s.memOk = true) : nextMemOk (execThrottleRelease flow dp held t s) = true := by simp -implicitDefEqProofs [execThrottleRelease, hm]

theorem memOk_execTimeout (t : ℕ) (s : State) (hm : s.memOk = true) : nextMemOk (execTimeout t s) = true := by
  fun_cases execTimeout t s <;> simp -implicitDefEqProofs +zetaDelta [hm]

theorem memOk_execCritTrip (kind : ℕ) (input : ℕ) (reading : ℤ) (t : ℕ) (s : State) (hm : s.memOk = true) : nextMemOk (execCritTrip kind input reading t s) = true := by simp -implicitDefEqProofs [execCritTrip, hm]

theorem memOk_execShdnN (low : Bool) (t : ℕ) (s : State) (hm : s.memOk = true) : nextMemOk (execShdnN low t s) = true := by simp -implicitDefEqProofs [execShdnN, hm]

theorem memOk_execLeak (n : ℕ) (ohm : List ℕ) (t : ℕ) (s : State) (hm : s.memOk = true) : nextMemOk (execLeak n ohm t s) = true := by simp -implicitDefEqProofs [execLeak, hm]

theorem memOk_execLoopFault (n : ℕ) (ohm : ℕ) (held : ℕ) (t : ℕ) (s : State) (hm : s.memOk = true) : nextMemOk (execLoopFault n ohm held t s) = true := by simp -implicitDefEqProofs [execLoopFault, hm]

theorem memOk_execLeakLoopNormal (n : ℕ) (ohm : ℕ) (held : ℕ) (t : ℕ) (s : State) (hm : s.memOk = true) : nextMemOk (execLeakLoopNormal n ohm held t s) = true := by simp -implicitDefEqProofs [execLeakLoopNormal, hm]

theorem memOk_execFlowConfirm (flow : ℕ) (dp : ℤ) (held : ℕ) (t : ℕ) (s : State) (hm : s.memOk = true) : nextMemOk (execFlowConfirm flow dp held t s) = true := by simp -implicitDefEqProofs [execFlowConfirm, hm]

theorem memOk_execFlowUnconfirmed (t : ℕ) (s : State) (hm : s.memOk = true) : nextMemOk (execFlowUnconfirmed t s) = true := by simp -implicitDefEqProofs [execFlowUnconfirmed, hm]

theorem memOk_execKickAttempt (c : ℕ) (t : ℕ) (s : State) (hm : s.memOk = true) : nextMemOk (execKickAttempt c t s) = true := by
  fun_cases execKickAttempt c t s <;> simp -implicitDefEqProofs +zetaDelta [hm]

theorem memOk_execKickAttemptEnd (c : ℕ) (rpm : ℕ) (t : ℕ) (s : State) (hm : s.memOk = true) : nextMemOk (execKickAttemptEnd c rpm t s) = true := by
  fun_cases execKickAttemptEnd c rpm t s <;> simp -implicitDefEqProofs +zetaDelta [hm]

theorem memOk_execTachLoss (c : ℕ) (gap : ℕ) (t : ℕ) (s : State) (hm : s.memOk = true) : nextMemOk (execTachLoss c gap t s) = true := by simp -implicitDefEqProofs [execTachLoss, hm]

theorem memOk_execTachClassify (c : ℕ) (t : ℕ) (s : State) (hm : s.memOk = true) : nextMemOk (execTachClassify c t s) = true := by
  simp only [execTachClassify]
  (repeat' split) <;> simp -implicitDefEqProofs [hm]

theorem memOk_execTachRecover (c : ℕ) (held : ℕ) (t : ℕ) (s : State) (hm : s.memOk = true) : nextMemOk (execTachRecover c held t s) = true := by simp -implicitDefEqProofs [execTachRecover, hm]

theorem memOk_execAutoMode (t : ℕ) (s : State) (hm : s.memOk = true) : nextMemOk (execAutoMode t s) = true := by simp -implicitDefEqProofs [execAutoMode, hm]

theorem memOk_execLoopPeriod (t : ℕ) (s : State) (hm : s.memOk = true) : nextMemOk (execLoopPeriod t s) = true := by simp -implicitDefEqProofs [execLoopPeriod, hm]

theorem memOk_execLoopSample (n : ℕ) (t : ℕ) (s : State) (hm : s.memOk = true) : nextMemOk (execLoopSample n t s) = true := by simp -implicitDefEqProofs [execLoopSample, hm]

theorem memOk_execLoopOutput (n : ℕ) (t : ℕ) (s : State) (hm : s.memOk = true) : nextMemOk (execLoopOutput n t s) = true := by simp -implicitDefEqProofs [execLoopOutput, hm]

theorem memOk_execBeacon (t : ℕ) (s : State) (hm : s.memOk = true) : nextMemOk (execBeacon t s) = true := by
  simp only [execBeacon]
  (repeat' split) <;> simp -implicitDefEqProofs [hm]

theorem memOk_execQuenchTrdata (t : ℕ) (s : State) (hm : s.memOk = true) : nextMemOk (execQuenchTrdata t s) = true := by simp -implicitDefEqProofs [execQuenchTrdata, hm]

theorem memOk_execHighSideGrant (b : ℕ) (t : ℕ) (s : State) (hm : s.memOk = true) : nextMemOk (execHighSideGrant b t s) = true := by
  fun_cases execHighSideGrant b t s <;> simp -implicitDefEqProofs +zetaDelta [hm]

theorem memOk_execPeakReached (c : ℕ) (cur : ℕ) (vb : ℕ) (t : ℕ) (s : State) (hm : s.memOk = true) : nextMemOk (execPeakReached c cur vb t s) = true := by simp -implicitDefEqProofs [execPeakReached, hm]

theorem memOk_execTpeakEnd (c : ℕ) (t : ℕ) (s : State) (hm : s.memOk = true) : nextMemOk (execTpeakEnd c t s) = true := by
  fun_cases execTpeakEnd c t s <;> simp -implicitDefEqProofs +zetaDelta [hm]

theorem memOk_execTtphigh (c : ℕ) (t : ℕ) (s : State) (hm : s.memOk = true) : nextMemOk (execTtphigh c t s) = true := by simp -implicitDefEqProofs [execTtphigh, hm]

theorem memOk_execOvercur (c : ℕ) (hs : Bool) (cur : ℕ) (t : ℕ) (s : State) (hm : s.memOk = true) : nextMemOk (execOvercur c hs cur t s) = true := by simp -implicitDefEqProofs [execOvercur, hm]

theorem memOk_execAbortRetry (c : ℕ) (t : ℕ) (s : State) (hm : s.memOk = true) : nextMemOk (execAbortRetry c t s) = true := by
  fun_cases execAbortRetry c t s <;> simp -implicitDefEqProofs +zetaDelta [hm]

theorem memOk_execBoostReady (vb t : ℕ) (s : State) (hm : s.memOk = true) : nextMemOk (execBoostReady vb t s) = true := by
  unfold execBoostReady
  rw [nextMemOk_next, State.memOk_foldl_eq]
  · simp -implicitDefEqProofs [hm]
  · intro s c
    simp only
    split <;> simp -implicitDefEqProofs

theorem memOk_execBoostnr (c : ℕ) (t : ℕ) (s : State) (hm : s.memOk = true) : nextMemOk (execBoostnr c t s) = true := by
  fun_cases execBoostnr c t s <;> simp -implicitDefEqProofs +zetaDelta [hm]

theorem memOk_execKink (c : ℕ) (tz : ℕ) (t : ℕ) (s : State) (hm : s.memOk = true) : nextMemOk (execKink c tz t s) = true := by simp -implicitDefEqProofs [execKink, hm]

theorem memOk_execNomotion (c : ℕ) (tz : ℕ) (t : ℕ) (s : State) (hm : s.memOk = true) : nextMemOk (execNomotion c tz t s) = true := by simp -implicitDefEqProofs [execNomotion, hm]

theorem memOk_execPeriodStart (b : ℕ) (t : ℕ) (s : State) (hm : s.memOk = true) : nextMemOk (execPeriodStart b t s) = true := by simp -implicitDefEqProofs [execPeriodStart, hm]

theorem memOk_execEventStart (c : ℕ) (t : ℕ) (s : State) (hm : s.memOk = true) : nextMemOk (execEventStart c t s) = true := by simp -implicitDefEqProofs [execEventStart, hm]

theorem memOk_execEventEnd (c : ℕ) (t : ℕ) (s : State) (hm : s.memOk = true) : nextMemOk (execEventEnd c t s) = true := by simp -implicitDefEqProofs [execEventEnd, hm]

theorem memOk_execPkrefuse (c : ℕ) (t : ℕ) (s : State) (hm : s.memOk = true) : nextMemOk (execPkrefuse c t s) = true := by
  fun_cases execPkrefuse c t s <;> simp -implicitDefEqProofs +zetaDelta [hm]

theorem memOk_execDlim (c : ℕ) (t : ℕ) (s : State) (hm : s.memOk = true) : nextMemOk (execDlim c t s) = true := by simp -implicitDefEqProofs [execDlim, hm]

theorem memOk_execCoilModel (c : ℕ) (irms2 : ℕ) (t : ℕ) (s : State) (hm : s.memOk = true) : nextMemOk (execCoilModel c irms2 t s) = true := by simp -implicitDefEqProofs [execCoilModel, hm]

theorem memOk_execVvlow (mv : ℕ) (held : ℕ) (t : ℕ) (s : State) (hm : s.memOk = true) : nextMemOk (execVvlow mv held t s) = true := by simp -implicitDefEqProofs [execVvlow, hm]

theorem memOk_execVvalveRecover (mv : ℕ) (held : ℕ) (t : ℕ) (s : State) (hm : s.memOk = true) : nextMemOk (execVvalveRecover mv held t s) = true := by simp -implicitDefEqProofs [execVvalveRecover, hm]

theorem memOk_execX1Release (t : ℕ) (s : State) (hm : s.memOk = true) : nextMemOk (execX1Release t s) = true := by
  fun_cases execX1Release t s <;> simp -implicitDefEqProofs +zetaDelta [hm]

theorem memOk_execCanFrameRx (f : CanFrame) (t : ℕ) (s : State) (hm : s.memOk = true) : nextMemOk (execCanFrameRx f t s) = true := by
  fun_cases execCanFrameRx f t s <;> simp -implicitDefEqProofs +zetaDelta [hm]

theorem memOk_execCancel (p : Path) (n : ℕ) (w : Word) (begun : Bool) (t : ℕ) (s : State) (hm : s.memOk = true) : nextMemOk (execCancel p n w begun t s) = true := by simp -implicitDefEqProofs [execCancel, hm]

theorem memOk_execCanTxComplete (n : ℕ) (sent : Bool) (tdcv : ℕ) (t : ℕ) (s : State) (hm : s.memOk = true) : nextMemOk (execCanTxComplete n sent tdcv t s) = true := by simp -implicitDefEqProofs [execCanTxComplete, hm]

theorem memOk_execCanState (st : ℕ) (tec : ℕ) (rec : ℕ) (lec : ℕ) (t : ℕ) (s : State) (hm : s.memOk = true) : nextMemOk (execCanState st tec rec lec t s) = true := by simp -implicitDefEqProofs [execCanState, hm]

theorem memOk_execBusOffRecovery (seqs : ℕ) (t : ℕ) (s : State) (hm : s.memOk = true) : nextMemOk (execBusOffRecovery seqs t s) = true := by simp -implicitDefEqProofs [execBusOffRecovery, hm]

theorem memOk_execReferenceMessage (f : CanFrame) (t : ℕ) (s : State) (hm : s.memOk = true) : nextMemOk (execReferenceMessage f t s) = true := by simp -implicitDefEqProofs [execReferenceMessage, hm]

theorem memOk_execReferenceTimeout (t : ℕ) (s : State) (hm : s.memOk = true) : nextMemOk (execReferenceTimeout t s) = true := by simp -implicitDefEqProofs [execReferenceTimeout, hm]

theorem memOk_execTtWindow (k : ℕ) (t : ℕ) (s : State) (hm : s.memOk = true) : nextMemOk (execTtWindow k t s) = true := by simp -implicitDefEqProofs [execTtWindow, hm]

theorem memOk_execTtEventFallback (t : ℕ) (s : State) (hm : s.memOk = true) : nextMemOk (execTtEventFallback t s) = true := by simp -implicitDefEqProofs [execTtEventFallback, hm]

theorem memOk_execLoopMessage (f : CanFrame) (t : ℕ) (s : State) (hm : s.memOk = true) : nextMemOk (execLoopMessage f t s) = true := by simp -implicitDefEqProofs [execLoopMessage, hm]

theorem memOk_execAlertRx (f : CanFrame) (t : ℕ) (s : State) (hm : s.memOk = true) : nextMemOk (execAlertRx f t s) = true := by simp -implicitDefEqProofs [execAlertRx, hm]

theorem memOk_execIdent (src : BitVec 128) (d : Dgram) (t : ℕ) (s : State) (hm : s.memOk = true) : nextMemOk (execIdent src d t s) = true :=
  memOk_request hm _ _ _ _ (fun s hs => by simp -implicitDefEqProofs [hs])

theorem memOk_execKeepalive (src : BitVec 128) (d : Dgram) (t : ℕ) (s : State) (hm : s.memOk = true) : nextMemOk (execKeepalive src d t s) = true :=
  memOk_request hm _ _ _ _ (fun s hs => by simp -implicitDefEqProofs [hs])

theorem memOk_execCsrRead (src : BitVec 128) (d : Dgram) (t : ℕ) (s : State) (hm : s.memOk = true) : nextMemOk (execCsrRead src d t s) = true := by
  refine memOk_request hm _ _ _ _ (fun s hs => ?_)
  simp only
  split
  · simp -implicitDefEqProofs [hs]
  · split
    · simp -implicitDefEqProofs [hs]
    · split
      · simp -implicitDefEqProofs [hs]
      · split <;> next e => simp -implicitDefEqProofs [State.memOk_of_eq ((State.memOk_csrReadAll _ _ _).trans hs) e]

theorem memOk_execCsrWrite (src : BitVec 128) (d : Dgram) (t : ℕ) (s : State) (hm : s.memOk = true) : nextMemOk (execCsrWrite src d t s) = true :=
  memOk_request hm _ _ _ _ (fun s hs => by simp -implicitDefEqProofs [hs])

theorem memOk_execSetFacility (src : BitVec 128) (d : Dgram) (t : ℕ) (s : State) (hm : s.memOk = true) : nextMemOk (execSetFacility src d t s) = true :=
  memOk_request hm _ _ _ _ (fun s hs => by simp -implicitDefEqProofs [hs])

theorem memOk_execCoolRestart (src : BitVec 128) (d : Dgram) (t : ℕ) (s : State) (hm : s.memOk = true) : nextMemOk (execCoolRestart src d t s) = true :=
  memOk_request hm _ _ _ _ (fun s hs => by simp -implicitDefEqProofs [hs])

theorem memOk_execLeakClear (src : BitVec 128) (d : Dgram) (t : ℕ) (s : State) (hm : s.memOk = true) : nextMemOk (execLeakClear src d t s) = true :=
  memOk_request hm _ _ _ _ (fun s hs => by simp -implicitDefEqProofs [hs])

theorem memOk_execFanClear (src : BitVec 128) (d : Dgram) (t : ℕ) (s : State) (hm : s.memOk = true) : nextMemOk (execFanClear src d t s) = true :=
  memOk_request hm _ _ _ _ (fun s hs => by simp -implicitDefEqProofs [hs])

theorem memOk_execValveClear (src : BitVec 128) (d : Dgram) (t : ℕ) (s : State) (hm : s.memOk = true) : nextMemOk (execValveClear src d t s) = true :=
  memOk_request hm _ _ _ _ (fun s hs => by simp -implicitDefEqProofs [hs])

theorem memOk_execAnvilHold (src : BitVec 128) (d : Dgram) (t : ℕ) (s : State) (hm : s.memOk = true) : nextMemOk (execAnvilHold src d t s) = true :=
  memOk_request hm _ _ _ _ (fun s hs => by simp -implicitDefEqProofs [hs])

theorem memOk_execResetModule (src : BitVec 128) (d : Dgram) (t : ℕ) (s : State) (hm : s.memOk = true) : nextMemOk (execResetModule src d t s) = true :=
  memOk_resetRequest hm _ _ _ _ _ (fun s n hs => by simp -implicitDefEqProofs [hs])

theorem memOk_execModuleReset (t : ℕ) (s : State) (hm : s.memOk = true) : nextMemOk (execModuleReset t s) = true := by
  fun_cases execModuleReset t s <;> simp -implicitDefEqProofs +zetaDelta [hm]

theorem memOk_execResetCompute (src : BitVec 128) (d : Dgram) (t : ℕ) (s : State) (hm : s.memOk = true) : nextMemOk (execResetCompute src d t s) = true :=
  memOk_resetRequest hm _ _ _ _ _ (fun s n hs => by simp -implicitDefEqProofs [hs])

theorem memOk_execResetComputeKeep (src : BitVec 128) (d : Dgram) (t : ℕ) (s : State) (hm : s.memOk = true) : nextMemOk (execResetComputeKeep src d t s) = true :=
  memOk_resetRequest hm _ _ _ _ _ (fun s n hs => by simp -implicitDefEqProofs [hs])

theorem memOk_execResetHearth (src : BitVec 128) (d : Dgram) (t : ℕ) (s : State) (hm : s.memOk = true) : nextMemOk (execResetHearth src d t s) = true :=
  memOk_resetRequest hm _ _ _ _ _ (fun s n hs => by simp -implicitDefEqProofs [hs])

theorem memOk_execHearthResetStart (t : SelfTest) (s : State) (hm : s.memOk = true) : nextMemOk (execHearthResetStart t s) = true := by
  fun_cases execHearthResetStart t s <;> simp -implicitDefEqProofs +zetaDelta [hm]

theorem memOk_execResetStream (src : BitVec 128) (d : Dgram) (t : ℕ) (s : State) (hm : s.memOk = true) : nextMemOk (execResetStream src d t s) = true :=
  memOk_resetRequest hm _ _ _ _ _ (fun s n hs => by simp -implicitDefEqProofs [hs])

theorem memOk_execEventRead (src : BitVec 128) (d : Dgram) (t : ℕ) (s : State) (hm : s.memOk = true) : nextMemOk (execEventRead src d t s) = true :=
  memOk_request hm _ _ _ _ (fun s hs => by simp -implicitDefEqProofs [hs])

theorem memOk_execEventClear (src : BitVec 128) (d : Dgram) (t : ℕ) (s : State) (hm : s.memOk = true) : nextMemOk (execEventClear src d t s) = true :=
  memOk_request hm _ _ _ _ (fun s hs => by simp -implicitDefEqProofs [hs])

theorem memOk_execMSnap (src : BitVec 128) (d : Dgram) (t : ℕ) (s : State) (hm : s.memOk = true) : nextMemOk (execMSnap src d t s) = true :=
  memOk_request hm _ _ _ _ (fun s hs => by simp -implicitDefEqProofs [hs])

theorem memOk_execClaim (src : BitVec 128) (d : Dgram) (t : ℕ) (s : State) (hm : s.memOk = true) : nextMemOk (execClaim src d t s) = true :=
  memOk_request hm _ _ _ _ (fun s hs => by simp -implicitDefEqProofs [hs])

theorem memOk_execConfig (src : BitVec 128) (d : Dgram) (t : ℕ) (s : State) (hm : s.memOk = true) : nextMemOk (execConfig src d t s) = true :=
  memOk_request hm _ _ _ _ (fun s hs => by simp -implicitDefEqProofs [hs])

theorem memOk_execCounter (src : BitVec 128) (d : Dgram) (t : ℕ) (s : State) (hm : s.memOk = true) : nextMemOk (execCounter src d t s) = true :=
  memOk_request hm _ _ _ _ (fun s hs => by simp -implicitDefEqProofs [hs])

theorem memOk_execAttest (src : BitVec 128) (d : Dgram) (t : ℕ) (s : State) (hm : s.memOk = true) : nextMemOk (execAttest src d t s) = true :=
  memOk_request hm _ _ _ _ (fun s hs => by simp -implicitDefEqProofs [hs])

theorem memOk_execAttestCert (src : BitVec 128) (d : Dgram) (t : ℕ) (s : State) (hm : s.memOk = true) : nextMemOk (execAttestCert src d t s) = true :=
  memOk_request hm _ _ _ _ (fun s hs => by simp -implicitDefEqProofs [hs])

theorem memOk_execFwUpdateBegin (src : BitVec 128) (d : Dgram) (t : ℕ) (s : State) (hm : s.memOk = true) : nextMemOk (execFwUpdateBegin src d t s) = true :=
  memOk_request hm _ _ _ _ (fun s hs => by simp -implicitDefEqProofs [hs])

theorem memOk_execFwUpdateData (src : BitVec 128) (d : Dgram) (t : ℕ) (s : State) (hm : s.memOk = true) : nextMemOk (execFwUpdateData src d t s) = true :=
  memOk_request hm _ _ _ _ (fun s hs => by simp -implicitDefEqProofs [hs])

theorem memOk_execFwUpdateEnd (src : BitVec 128) (d : Dgram) (norErr : Bool) (t : ℕ) (s : State) (hm : s.memOk = true) : nextMemOk (execFwUpdateEnd src d norErr t s) = true :=
  memOk_request hm _ _ _ _ (fun s hs => by simp -implicitDefEqProofs [hs])

theorem memOk_execFwUpdateActivate (src : BitVec 128) (d : Dgram) (t : ℕ) (s : State) (hm : s.memOk = true) : nextMemOk (execFwUpdateActivate src d t s) = true :=
  memOk_request hm _ _ _ _ (fun s hs => by simp -implicitDefEqProofs [hs])

theorem memOk_execFwUpdateCommit (src : BitVec 128) (d : Dgram) (t : ℕ) (s : State) (hm : s.memOk = true) : nextMemOk (execFwUpdateCommit src d t s) = true :=
  memOk_request hm _ _ _ _ (fun s hs => by simp -implicitDefEqProofs [hs])

theorem memOk_execFwUpdateAbandon (t : ℕ) (s : State) (hm : s.memOk = true) : nextMemOk (execFwUpdateAbandon t s) = true := by simp -implicitDefEqProofs [execFwUpdateAbandon, hm]

theorem memOk_execDebugUnlock (src : BitVec 128) (d : Dgram) (t : ℕ) (s : State) (hm : s.memOk = true) : nextMemOk (execDebugUnlock src d t s) = true :=
  memOk_request hm _ _ _ _ (fun s hs => by simp -implicitDefEqProofs [hs])

theorem memOk_execNotifyAck (src : BitVec 128) (d : Dgram) (t : ℕ) (s : State) (hm : s.memOk = true) : nextMemOk (execNotifyAck src d t s) = true := by
  refine memOk_request hm _ _ _ _ (fun s hs => ?_)
  (repeat' split) <;> simp -implicitDefEqProofs [hs]

theorem memOk_execNotifyResend (t : ℕ) (s : State) (hm : s.memOk = true) : nextMemOk (execNotifyResend t s) = true := by simp -implicitDefEqProofs [execNotifyResend, hm]

theorem memOk_execColdReset (vsb : ℕ) (held : ℕ) (t : ℕ) (s : State) (hm : s.memOk = true) : nextMemOk (execColdReset vsb held t s) = true := by simp -implicitDefEqProofs [execColdReset, hm]

theorem memOk_execRomBoot (errA errB : Bool) (t : ℕ) (s : State) (hm : s.memOk = true) : nextMemOk (execRomBoot errA errB t s) = true := by
  unfold execRomBoot
  simp only
  split
  · simp -implicitDefEqProofs [hm]
  · have hc : ∀ {v a b x t}, v.memOk = true → State.chooseSlot v a b = (x, t) → t.memOk = true :=
      fun hv e => State.memOk_of_eq ((State.memOk_chooseSlot _ _ _).trans hv) e
    split <;> next e => simp -implicitDefEqProofs [hc (by simp -implicitDefEqProofs [hm]) e]

theorem memOk_execWatchdog (t : ℕ) (s : State) (hm : s.memOk = true) : nextMemOk (execWatchdog t s) = true := by
  fun_cases execWatchdog t s <;> simp -implicitDefEqProofs +zetaDelta [hm]

theorem memOk_execPllLock (t : ℕ) (s : State) (hm : s.memOk = true) : nextMemOk (execPllLock t s) = true := by simp -implicitDefEqProofs [execPllLock, hm]

theorem memOk_execBringupReady (badAnvils : List ℕ) (badStacks : List (ℕ × ℕ)) (t : ℕ) (s : State) (hm : s.memOk = true) :
    nextMemOk (execBringupReady badAnvils badStacks t s) = true := by
  have hd : ∀ v : State, v.memOk = true → ((badAnvils.filter (· < 160)).foldl (fun v g => v.holdAnvil g 0) v).memOk = true :=
    fun v hv => State.memOk_foldl _ _ (fun v g _ hv => State.memOk_holdAnvil _ _ _ hv) _ hv
  unfold execBringupReady
  simp only
  split
  · exact (State.memOk_at _ _).trans hm
  · have ha : ((s.at t).setDom 193 true).memOk = true := by simp -implicitDefEqProofs [hm]
    simp -implicitDefEqProofs [hd, hm]

theorem memOk_execBringupTimeout (t : ℕ) (s : State) (hm : s.memOk = true) : nextMemOk (execBringupTimeout t s) = true := by simp -implicitDefEqProofs [execBringupTimeout, hm]

theorem memOk_execRefclkLoss (t : ℕ) (s : State) (hm : s.memOk = true) : nextMemOk (execRefclkLoss t s) = true := by simp -implicitDefEqProofs [execRefclkLoss, hm]

theorem memOk_execSrefLoss (t : ℕ) (s : State) (hm : s.memOk = true) : nextMemOk (execSrefLoss t s) = true := by simp -implicitDefEqProofs [execSrefLoss, hm]

theorem memOk_execVin48Undervoltage (mv : ℕ) (held : ℕ) (t : ℕ) (s : State) (hm : s.memOk = true) : nextMemOk (execVin48Undervoltage mv held t s) = true := by simp -implicitDefEqProofs [execVin48Undervoltage, hm]

theorem memOk_execVin48Overvoltage (mv : ℕ) (held : ℕ) (t : ℕ) (s : State) (hm : s.memOk = true) : nextMemOk (execVin48Overvoltage mv held t s) = true := by simp -implicitDefEqProofs [execVin48Overvoltage, hm]

theorem memOk_execVin48Recover (mv : ℕ) (held : ℕ) (t : ℕ) (s : State) (hm : s.memOk = true) : nextMemOk (execVin48Recover mv held t s) = true := by simp -implicitDefEqProofs [execVin48Recover, hm]

theorem memOk_execVsb12Warn (mv : ℕ) (held : ℕ) (t : ℕ) (s : State) (hm : s.memOk = true) : nextMemOk (execVsb12Warn mv held t s) = true := by simp -implicitDefEqProofs [execVsb12Warn, hm]

theorem memOk_execVsb12Sag (mv : ℕ) (held : ℕ) (t : ℕ) (s : State) (hm : s.memOk = true) : nextMemOk (execVsb12Sag mv held t s) = true := by simp -implicitDefEqProofs [execVsb12Sag, hm]

theorem memOk_execMateConnect (held : ℕ) (t : ℕ) (s : State) (hm : s.memOk = true) : nextMemOk (execMateConnect held t s) = true := by simp -implicitDefEqProofs [execMateConnect, hm]

theorem memOk_execMateDisconnect (held : ℕ) (t : ℕ) (s : State) (hm : s.memOk = true) : nextMemOk (execMateDisconnect held t s) = true := by simp -implicitDefEqProofs [execMateDisconnect, hm]

theorem memOk_execSourceAssert (n : ℕ) (t : ℕ) (s : State) (hm : s.memOk = true) : nextMemOk (execSourceAssert n t s) = true := by simp -implicitDefEqProofs [execSourceAssert, hm]

theorem memOk_execBicClaim (c : ℕ) (t : ℕ) (s : State) (hm : s.memOk = true) : nextMemOk (execBicClaim c t s) = true := by
  fun_cases execBicClaim c t s <;> simp -implicitDefEqProofs +zetaDelta [hm]

theorem memOk_execReevaluate (c : ℕ) (t : ℕ) (s : State) (hm : s.memOk = true) : nextMemOk (execReevaluate c t s) = true := by simp -implicitDefEqProofs [execReevaluate, hm]

theorem memOk_execHtmo (n : ℕ) (t : ℕ) (s : State) (hm : s.memOk = true) : nextMemOk (execHtmo n t s) = true := by
  fun_cases execHtmo n t s <;> simp -implicitDefEqProofs +zetaDelta [hm]

theorem memOk_execLevelRedeliver (n : ℕ) (target : ℕ) (t : ℕ) (s : State) (hm : s.memOk = true) : nextMemOk (execLevelRedeliver n target t s) = true := by simp -implicitDefEqProofs [execLevelRedeliver, hm]

theorem memOk_execGroupRelease (g : ℕ) (t : ℕ) (s : State) (hm : s.memOk = true) : nextMemOk (execGroupRelease g t s) = true := by
  fun_cases execGroupRelease g t s <;> simp -implicitDefEqProofs +zetaDelta [hm]

theorem memOk_execNorWrite (ok : Bool) (t : ℕ) (s : State) (hm : s.memOk = true) : nextMemOk (execNorWrite ok t s) = true := by
  fun_cases execNorWrite ok t s <;> simp -implicitDefEqProofs +zetaDelta [hm]

theorem memOk_execSnapCapture (t : ℕ) (s : State) (hm : s.memOk = true) : nextMemOk (execSnapCapture t s) = true := by
  fun_cases execSnapCapture t s <;> simp -implicitDefEqProofs +zetaDelta [hm]

theorem memOk_execHammerTrdata (t : ℕ) (s : State) (hm : s.memOk = true) : nextMemOk (execHammerTrdata t s) = true := by simp -implicitDefEqProofs [execHammerTrdata, hm]

theorem memOk_execIdcode (s : State) (hm : s.memOk = true) : nextMemOk (execIdcode s) = true := by simp -implicitDefEqProofs [execIdcode, hm]

theorem memOk_execSamplePreload (bits : ℕ) (s : State) (hm : s.memOk = true) : nextMemOk (execSamplePreload bits s) = true := by simp -implicitDefEqProofs [execSamplePreload, hm]

theorem memOk_execExtest (bits : ℕ) (s : State) (hm : s.memOk = true) : nextMemOk (execExtest bits s) = true := by simp -implicitDefEqProofs [execExtest, hm]

theorem memOk_execHighz (s : State) (hm : s.memOk = true) : nextMemOk (execHighz s) = true := by simp -implicitDefEqProofs [execHighz, hm]

theorem memOk_execClamp (s : State) (hm : s.memOk = true) : nextMemOk (execClamp s) = true := by simp -implicitDefEqProofs [execClamp, hm]

theorem memOk_execBypass (s : State) (hm : s.memOk = true) : nextMemOk (execBypass s) = true := by simp -implicitDefEqProofs [execBypass, hm]

theorem memOk_execMgmtPortLinkUp (t : ℕ) (s : State) (hm : s.memOk = true) : nextMemOk (execMgmtPortLinkUp t s) = true := by simp -implicitDefEqProofs [execMgmtPortLinkUp, hm]

theorem memOk_execMgmtPortLinkDown (t : ℕ) (s : State) (hm : s.memOk = true) : nextMemOk (execMgmtPortLinkDown t s) = true := by simp -implicitDefEqProofs [execMgmtPortLinkDown, hm]

theorem memOk_execMainDieLinkLoss (t : ℕ) (s : State) (hm : s.memOk = true) : nextMemOk (execMainDieLinkLoss t s) = true := by simp -implicitDefEqProofs [execMainDieLinkLoss, hm]

theorem memOk_execNeighbourAdvertisement (e : EthIn) (a : BitVec 128) (mac port t : ℕ) (s : State) (hm : s.memOk = true) :
    nextMemOk (execNeighbourAdvertisement e a mac port t s) = true := by
  refine State.memOk_frameIn _ _ (fun s hs => ?_) ((State.memOk_at _ _).trans hm)
  simp only
  split
  · simp -implicitDefEqProofs [hs]
  · split <;> simp -implicitDefEqProofs [hs]

theorem memOk_execTuyereDomainOff (mv : ℕ) (held : ℕ) (t : ℕ) (s : State) (hm : s.memOk = true) : nextMemOk (execTuyereDomainOff mv held t s) = true := by simp -implicitDefEqProofs [execTuyereDomainOff, hm]

end Sys2Proof.Machine
end

