-- ==== Sys2Proof/Proofs/MemCanonical.lean ====
section
/-! Every step keeps the memory's canonical form (O59). -/

namespace Sys2Proof.Machine

/-- Every command leaves the memory in its canonical form. -/
theorem memOk_exec (i : Instr) (s : State) (hm : s.memOk = true) : nextMemOk (exec i s) = true := by
  unfold exec
  cases i with
  | nop | br | dbnz | brl | brInd | waitm | wait | amaskSet | amaskSetAll | sArith | sBitwise | sShift | addiS64 | moviS64 | ldc | ldcx
    | ldm | stm | pcount | rdbc | mmac | mcomb | mrd | mpk | mclr | mrsc | mtst | addSubMulF32 | fmaFmsF32 | minMaxF32 | absNegF32 |
    sqrtF32 | rcpRsqrtExp2Log2F32 | int32Arith | minMaxS32 | absS32 | slaS32 | b32Bitwise | b32Shift | vArithS64 | vBitwiseB64 |
    vShiftB64 | movB64 | cmpanyCmpall | cmpS64U64 | cmpm | selB32 | permB32 | raddRmaxRminF32 | raddS32 | cvtNarrow | cvtS32F32 |
    cvtIntNarrow | cvtWiden | cvtF32S32 | mxq | mxdq | mxsc | addiMuliS32 | addiMuliF32 | moviS32 | moviF32 | vAddiMuliS64 | vMoviS64 |
    slliSrliB64 | lextB32 | linsB32 | binsB8 | cmpiS64 | ldA | stA | ldH | stH | xfer | xfillHbm | xfence | crcCmd | crcCmdHi | sig |
    send | recv | aredPp | paceGrp | nfence | rsig | heat | opreq | tSnap | phint =>
    exact memOk_slotOp hm _ _
  | fence | portcfgWrite | aidxWrite | capHostWrite | capFacilityWrite | keepaliveKa | loopArm | loopDisarm | commit | prim | rcEn |
    quenchTraceArm | quenchTraceForce | fixcmd | vprofWrite | txreq | bcmdAck | tten | bicComplete | hcomplete | rsel | snapctlSnap |
    hammerTraceArm | hammerTraceForce | registerWrite =>
    exact memOk_rowWrite hm _ _ _ _ _
  | stallEnd => exact memOk_execStallEnd _ hm
  | stop => exact memOk_execStop _ _ hm
  | jobEnd => exact memOk_execJobEnd _ _ hm
  | xferComplete => exact memOk_execXferComplete _ _ _ _ hm
  | xfenceComplete => exact memOk_execXfenceComplete _ _ hm
  | admission => exact memOk_execAdmission _ hm
  | jobSwitch => exact memOk_execJobSwitch _ _ hm
  | jobSelect => exact memOk_execJobSelect _ _ hm
  | writeBack => exact memOk_execWriteBack _ _ hm
  | patrol => exact memOk_execPatrol _ _ _ _ _ hm
  | stackFence => exact memOk_execStackFence _ _ _ _ hm
  | anvilHoldEffect => exact memOk_execAnvilHoldEffect _ _ _ hm
  | crucNop => exact memOk_execCrucNop _ _ _ hm
  | gemv => exact memOk_execGemv _ _ _ hm
  | attn => exact memOk_execAttn _ _ _ hm
  | amerge => exact memOk_execAmerge _ _ _ hm
  | gather => exact memOk_execGather _ _ _ hm
  | scatter => exact memOk_execScatter _ _ _ hm
  | reduce => exact memOk_execReduce _ _ _ hm
  | eltw => exact memOk_execEltw _ _ _ hm
  | pack => exact memOk_execPack _ _ _ hm
  | unpack => exact memOk_execUnpack _ _ _ hm
  | copy => exact memOk_execCopy _ _ _ hm
  | fill => exact memOk_execFill _ _ _ hm
  | scrub => exact memOk_execScrub _ _ _ hm
  | crucComplete => exact memOk_execCrucComplete _ _ _ hm
  | crucPreempt => exact memOk_execCrucPreempt _ _ hm
  | crucHostAdmit => exact memOk_execCrucHostAdmit _ _ hm
  | linkUp => exact memOk_execLinkUp _ _ _ hm
  | linkBringupRetry => exact memOk_execLinkBringupRetry _ _ _ hm
  | linkDown => exact memOk_execLinkDown _ _ _ hm
  | dadTimeout => exact memOk_execDadTimeout _ _ _ hm
  | neighbourSolicitation => exact memOk_execNeighbourSolicitation _ _ _ _ _ hm
  | arpRequest => exact memOk_execArpRequest _ _ _ _ hm
  | icmpEchoRequest => exact memOk_execIcmpEchoRequest _ _ _ _ _ _ hm
  | neighbourResolutionRetry => exact memOk_execNeighbourResolutionRetry _ _ _ _ hm
  | data => exact memOk_execData _ _ _ _ _ hm
  | ack => exact memOk_execAck _ _ _ _ _ hm
  | cred => exact memOk_execCred _ _ _ _ _ hm
  | opn => exact memOk_execOpen _ _ _ _ _ hm
  | openack => exact memOk_execOpenAck _ _ _ _ _ hm
  | close => exact memOk_execClose _ _ _ _ _ hm
  | rst => exact memOk_execRst _ _ _ _ _ hm
  | memwr => exact memOk_execMemwr _ _ _ _ hm
  | memrd => exact memOk_execMemrd _ _ _ _ hm
  | pace => exact memOk_execPace _ _ _ _ hm
  | relayFrame => exact memOk_execRelayFrame _ _ _ _ _ _ _ hm
  | ackTimer => exact memOk_execAckTimer _ _ _ hm
  | rtoExpiry => exact memOk_execRtoExpiry _ _ _ hm
  | credProbe => exact memOk_execCredProbe _ _ _ hm
  | frameTransmit => exact memOk_execFrameTransmit _ _ _ hm
  | bootStreamRelisten => exact memOk_execBootStreamRelisten _ _ _ hm
  | admissionRound => exact memOk_execAdmissionRound _ _ hm
  | pinGrant => exact memOk_execPinGrant _ _ hm
  | cplPush => exact memOk_execCplPush _ _ _ hm
  | jobSubmit => exact memOk_execJobSubmit _ _ _ _ hm
  | jobCancel => exact memOk_execJobCancel _ _ _ _ hm
  | cancelTimeout => exact memOk_execCancelTimeout _ _ hm
  | imageAccept => exact memOk_execImageAccept _ _ _ _ hm
  | imageUnload => exact memOk_execImageUnload _ _ _ _ hm
  | crucCmd => exact memOk_execCrucCmd _ _ _ _ hm
  | ringCfg => exact memOk_execRingCfg _ _ _ _ hm
  | streamCfg => exact memOk_execStreamCfg _ _ _ _ hm
  | streamClose => exact memOk_execStreamClose _ _ _ _ hm
  | streamReset => exact memOk_execStreamReset _ _ _ _ hm
  | streamQuery => exact memOk_execStreamQuery _ _ _ _ hm
  | temperInterval => exact memOk_execTemperInterval _ _ _ _ hm
  | kRaise => exact memOk_execKRaise _ _ hm
  | raisedrop => exact memOk_execRaisedrop _ _ hm
  | vcoreSettled => exact memOk_execVcoreSettled _ _ hm
  | droop => exact memOk_execDroop _ _ _ hm
  | sagWarn => exact memOk_execSagWarn _ _ _ hm
  | sagWarnClear => exact memOk_execSagWarnClear _ _ _ hm
  | calibration => exact memOk_execCalibration _ _ _ hm
  | capStale => exact memOk_execCapStale _ _ _ hm
  | ageingEval => exact memOk_execAgeingEval _ _ _ hm
  | coolingTick => exact memOk_execCoolingTick _ _ _ hm
  | ntcFault => exact memOk_execNtcFault _ _ _ _ hm
  | pressureFault => exact memOk_execPressureFault _ _ _ _ hm
  | sensorRecover => exact memOk_execSensorRecover _ _ _ _ hm
  | sensorDisagree => exact memOk_execSensorDisagree _ _ _ _ _ hm
  | sensorSuspect => exact memOk_execSensorSuspect _ _ _ _ _ hm
  | nopulse => exact memOk_execNopulse _ _ _ hm
  | dpcollapse => exact memOk_execDpcollapse _ _ _ _ hm
  | dierise => exact memOk_execDierise _ _ _ hm
  | throttleRelease => exact memOk_execThrottleRelease _ _ _ _ _ hm
  | timeout => exact memOk_execTimeout _ _ hm
  | critTrip => exact memOk_execCritTrip _ _ _ _ _ hm
  | shdnN => exact memOk_execShdnN _ _ _ hm
  | leak => exact memOk_execLeak _ _ _ _ hm
  | loopFault => exact memOk_execLoopFault _ _ _ _ _ hm
  | leakLoopNormal => exact memOk_execLeakLoopNormal _ _ _ _ _ hm
  | flowConfirm => exact memOk_execFlowConfirm _ _ _ _ _ hm
  | flowUnconfirmed => exact memOk_execFlowUnconfirmed _ _ hm
  | kickAttempt => exact memOk_execKickAttempt _ _ _ hm
  | kickAttemptEnd => exact memOk_execKickAttemptEnd _ _ _ _ hm
  | tachLoss => exact memOk_execTachLoss _ _ _ _ hm
  | tachClassify => exact memOk_execTachClassify _ _ _ hm
  | tachRecover => exact memOk_execTachRecover _ _ _ _ hm
  | autoMode => exact memOk_execAutoMode _ _ hm
  | loopPeriod => exact memOk_execLoopPeriod _ _ hm
  | loopSample => exact memOk_execLoopSample _ _ _ hm
  | loopOutput => exact memOk_execLoopOutput _ _ _ hm
  | beacon => exact memOk_execBeacon _ _ hm
  | quenchTrdata => exact memOk_execQuenchTrdata _ _ hm
  | highSideGrant => exact memOk_execHighSideGrant _ _ _ hm
  | peakReached => exact memOk_execPeakReached _ _ _ _ _ hm
  | tpeakEnd => exact memOk_execTpeakEnd _ _ _ hm
  | ttphigh => exact memOk_execTtphigh _ _ _ hm
  | overcur => exact memOk_execOvercur _ _ _ _ _ hm
  | abortRetry => exact memOk_execAbortRetry _ _ _ hm
  | boostReady => exact memOk_execBoostReady _ _ _ hm
  | boostnr => exact memOk_execBoostnr _ _ _ hm
  | kink => exact memOk_execKink _ _ _ _ hm
  | nomotion => exact memOk_execNomotion _ _ _ _ hm
  | periodStart => exact memOk_execPeriodStart _ _ _ hm
  | eventStart => exact memOk_execEventStart _ _ _ hm
  | eventEnd => exact memOk_execEventEnd _ _ _ hm
  | pkrefuse => exact memOk_execPkrefuse _ _ _ hm
  | dlim => exact memOk_execDlim _ _ _ hm
  | coilModel => exact memOk_execCoilModel _ _ _ _ hm
  | vvlow => exact memOk_execVvlow _ _ _ _ hm
  | vvalveRecover => exact memOk_execVvalveRecover _ _ _ _ hm
  | x1Release => exact memOk_execX1Release _ _ hm
  | canFrameRx => exact memOk_execCanFrameRx _ _ _ hm
  | cancel => exact memOk_execCancel _ _ _ _ _ _ hm
  | canTxComplete => exact memOk_execCanTxComplete _ _ _ _ _ hm
  | canState => exact memOk_execCanState _ _ _ _ _ _ hm
  | busOffRecovery => exact memOk_execBusOffRecovery _ _ _ hm
  | referenceMessage => exact memOk_execReferenceMessage _ _ _ hm
  | referenceTimeout => exact memOk_execReferenceTimeout _ _ hm
  | ttWindow => exact memOk_execTtWindow _ _ _ hm
  | ttEventFallback => exact memOk_execTtEventFallback _ _ hm
  | loopMessage => exact memOk_execLoopMessage _ _ _ hm
  | alertRx => exact memOk_execAlertRx _ _ _ hm
  | ident => exact memOk_execIdent _ _ _ _ hm
  | keepalive => exact memOk_execKeepalive _ _ _ _ hm
  | csrRead => exact memOk_execCsrRead _ _ _ _ hm
  | csrWrite => exact memOk_execCsrWrite _ _ _ _ hm
  | setFacility => exact memOk_execSetFacility _ _ _ _ hm
  | coolRestart => exact memOk_execCoolRestart _ _ _ _ hm
  | leakClear => exact memOk_execLeakClear _ _ _ _ hm
  | fanClear => exact memOk_execFanClear _ _ _ _ hm
  | valveClear => exact memOk_execValveClear _ _ _ _ hm
  | anvilHold => exact memOk_execAnvilHold _ _ _ _ hm
  | resetModule => exact memOk_execResetModule _ _ _ _ hm
  | moduleReset => exact memOk_execModuleReset _ _ hm
  | resetCompute => exact memOk_execResetCompute _ _ _ _ hm
  | resetComputeKeep => exact memOk_execResetComputeKeep _ _ _ _ hm
  | resetHearth => exact memOk_execResetHearth _ _ _ _ hm
  | hearthResetStart => exact memOk_execHearthResetStart _ _ hm
  | resetStream => exact memOk_execResetStream _ _ _ _ hm
  | eventRead => exact memOk_execEventRead _ _ _ _ hm
  | eventClear => exact memOk_execEventClear _ _ _ _ hm
  | mSnap => exact memOk_execMSnap _ _ _ _ hm
  | claim => exact memOk_execClaim _ _ _ _ hm
  | config => exact memOk_execConfig _ _ _ _ hm
  | counter => exact memOk_execCounter _ _ _ _ hm
  | attest => exact memOk_execAttest _ _ _ _ hm
  | attestCert => exact memOk_execAttestCert _ _ _ _ hm
  | fwUpdateBegin => exact memOk_execFwUpdateBegin _ _ _ _ hm
  | fwUpdateData => exact memOk_execFwUpdateData _ _ _ _ hm
  | fwUpdateEnd => exact memOk_execFwUpdateEnd _ _ _ _ _ hm
  | fwUpdateActivate => exact memOk_execFwUpdateActivate _ _ _ _ hm
  | fwUpdateCommit => exact memOk_execFwUpdateCommit _ _ _ _ hm
  | fwUpdateAbandon => exact memOk_execFwUpdateAbandon _ _ hm
  | debugUnlock => exact memOk_execDebugUnlock _ _ _ _ hm
  | notifyAck => exact memOk_execNotifyAck _ _ _ _ hm
  | notifyResend => exact memOk_execNotifyResend _ _ hm
  | coldReset => exact memOk_execColdReset _ _ _ _ hm
  | romBoot => exact memOk_execRomBoot _ _ _ _ hm
  | watchdog => exact memOk_execWatchdog _ _ hm
  | pllLock => exact memOk_execPllLock _ _ hm
  | bringupReady => exact memOk_execBringupReady _ _ _ _ hm
  | bringupTimeout => exact memOk_execBringupTimeout _ _ hm
  | refclkLoss => exact memOk_execRefclkLoss _ _ hm
  | srefLoss => exact memOk_execSrefLoss _ _ hm
  | vin48Undervoltage => exact memOk_execVin48Undervoltage _ _ _ _ hm
  | vin48Overvoltage => exact memOk_execVin48Overvoltage _ _ _ _ hm
  | vin48Recover => exact memOk_execVin48Recover _ _ _ _ hm
  | vsb12Warn => exact memOk_execVsb12Warn _ _ _ _ hm
  | vsb12Sag => exact memOk_execVsb12Sag _ _ _ _ hm
  | mateConnect => exact memOk_execMateConnect _ _ _ hm
  | mateDisconnect => exact memOk_execMateDisconnect _ _ _ hm
  | sourceAssert => exact memOk_execSourceAssert _ _ _ hm
  | bicClaim => exact memOk_execBicClaim _ _ _ hm
  | reevaluate => exact memOk_execReevaluate _ _ _ hm
  | htmo => exact memOk_execHtmo _ _ _ hm
  | levelRedeliver => exact memOk_execLevelRedeliver _ _ _ _ hm
  | groupRelease => exact memOk_execGroupRelease _ _ _ hm
  | norWrite => exact memOk_execNorWrite _ _ _ hm
  | snapCapture => exact memOk_execSnapCapture _ _ hm
  | hammerTrdata => exact memOk_execHammerTrdata _ _ hm
  | idcode => exact memOk_execIdcode _ hm
  | samplePreload => exact memOk_execSamplePreload _ _ hm
  | extest => exact memOk_execExtest _ _ hm
  | highz => exact memOk_execHighz _ hm
  | clamp => exact memOk_execClamp _ hm
  | bypass => exact memOk_execBypass _ hm
  | mgmtPortLinkUp => exact memOk_execMgmtPortLinkUp _ _ hm
  | mgmtPortLinkDown => exact memOk_execMgmtPortLinkDown _ _ hm
  | mainDieLinkLoss => exact memOk_execMainDieLinkLoss _ _ hm
  | neighbourAdvertisement => exact memOk_execNeighbourAdvertisement _ _ _ _ _ _ hm
  | tuyereDomainOff => exact memOk_execTuyereDomainOff _ _ _ _ hm

/-- Settles O59: the command at the front of the queue keeps the form, and taking it off the queue does not touch the
memory. -/
theorem memoryStaysCanonical : Obligations.MemoryStaysCanonical := by
  intro s t hs hm
  have h : nextMemOk (step s) = true := by
    unfold step
    split
    · exact hm
    · exact memOk_exec _ _ hm
  rw [hs] at h
  exact h

end Sys2Proof.Machine
end

