-- ==== Sys2Proof/Proofs/NeighbourTable.lean ====
section
/-! TransportTimers (O29). Sending to a neighbour puts its entry at the end of the table, which keeps 1,024 entries: from a state
whose table holds more than those, an entry of another neighbour is dropped, where the statement says that the same neighbours
are known after the frame as before it. -/

namespace Sys2Proof.Machine

/-- A resolved neighbour of interface 0. -/
def nbrAt (a : BitVec 128) : Nbr := ⟨0, a, some 0, 0, 0, 0⟩

/-- A control packet that waits for the neighbour of address 2. -/
def ctrlPkt : Pkt := Pkt.sealed
  { ver := 1, typ := 1, flags := 0, prio := 0, hops := 0, opc := 0, dstrm := 0, sstrm := 0, psn := 0, msn := 0, w0 := 0, w1 := 0, w2 := 0
    clim := 0, pcrc := 0, pay := [], net := Net.none }

/-- Interface 0 is up and has the packet to send. The table holds 1,025 entries: the neighbour of address 0 is the oldest, that of
address 2 the last. -/
def crowdedState : State := { State.reset with
  tongs := { State.reset.tongs with
    ifc := [(0, { Ifc.reset with up := true, ctrl := [(2, ctrlPkt)] })]
    nbr := nbrAt 0 :: (List.replicate 1023 (nbrAt 1) ++ [nbrAt 2]) } }

/-- Whether a neighbour of interface 0 is known in a state reached, where one is. -/
def outKnows (o : Out) (a : BitVec 128) : Option Bool :=
  match o with
  | .next v => some (v.nbr 0 a).isSome
  | _ => none

/-- The neighbour of address 0 is known before the frame is sent, and not after it. -/
theorem crowdedState_forgets : (crowdedState.nbr 0 0).isSome = true ∧
    outKnows (exec (.frameTransmit 0 ⟨0, false⟩) crowdedState) 0 = some false := by
  decide +kernel

/-- No stream has a message to send. -/
theorem crowdedState_idle (m : Nat) : ((crowdedState.at 0).ctx m).txq = [] := by
  rw [show (crowdedState.at 0).ctx m = Ctx.reset m from rfl]
  unfold Ctx.reset
  split <;> rfl

/-- Refutes O29: the frame sent drops a neighbour of an over-full table (`crowdedState`). -/
theorem not_transportTimers : ¬ Obligations.TransportTimers := by
  unfold Obligations.TransportTimers
  intro h
  obtain ⟨-, -, -, -, hsend⟩ := h crowdedState 0 0
  obtain ⟨v, hv, -, -, -, hnbr, -⟩ := hsend 0 2 ctrlPkt [] false (by decide) (by decide +kernel) (by decide +kernel) (by decide +kernel) rfl
    (by simp) (fun m _ => crowdedState_idle m) rfl
  obtain ⟨hold, hnew⟩ := crowdedState_forgets
  rw [hv] at hnew
  exact absurd ((hnbr 0).trans hold) (by rw [Option.some.inj hnew]; decide)

end Sys2Proof.Machine
end

