-- ==== Sys2Proof/Proofs/StreamReset.lean ====
section
/-! MgmtResets (O47). The reset of a stream ends the commands of that stream which wait in a Crucible's host queue, and the end of
such a command writes its status block (R322): the memory is not as it was, which the statement says of every stream reset. -/

namespace Sys2Proof.Machine

/-- A command of stream 0 that waits in a host queue; its status block goes to the first bytes of a Hearth store. -/
def waitingCmd : CCmd := ⟨BitVec.ofNat 512 (0x200000000000 * 2 ^ 64), 0, .host 0 0, 0, 2⟩

/-- The requester: a link-local source. -/
def resetSrc : BitVec 128 := 0xFE800000000000000000000000000001#128

/-- RESET of stream 0, sent to the port's global address. -/
def resetDgram : Dgram :=
  { ver := 1, flags := 0, status := 0, seq := 5, len := 4, rsv := 0, pay := [3, 0, 0, 0], fcs := true, sum := true, vid := none
    frag := false, dst := 0x20000000000000005#128, sport := 4000, dport := 50111
    crc := crc32c (toBytes 1 1 ++ toBytes 1 0x0B ++ toBytes 1 0 ++ toBytes 1 0 ++ toBytes 4 5 ++ toBytes 2 4 ++ toBytes 2 0 ++ [3, 0, 0, 0]) }

/-- A running module whose port serves the request, with the command waiting in stack 0. -/
def discardState : State := { State.reset with
  csr := (((State.reset.put MGMT_CFG_ENABLE 1).put MGMT_STAT_LINK 1).put BELLOWS_PWRSTAT_STATE 4).csr ++ [(MGMT_MAC, 1), (MGMT_IPV6H, 2), (MGMT_IPV6L, 5)]
  secb := { Sec.reset with running := some 0 }
  crucs := [(0, { Cruc.reset with h := [waitingCmd] })] }

/-- The request is admitted. -/
theorem discardState_admits : (discardState.at 0).admits 0x0B resetSrc resetDgram := by
  refine ⟨by decide +kernel, by decide +kernel, by decide +kernel, ?_, rfl, by decide +kernel, by decide +kernel⟩
  simp [Dgram.ok, resetDgram]

/-- It is executed: stream 0 is reset. -/
theorem discardState_resets : ∃ r, exec (.resetStream resetSrc resetDgram 0) discardState =
    .next (((((discardState.at 0).taken resetSrc).resetStream 0).noteReset 3 0 1).answered resetSrc r) := by
  have hreq : ∀ f : State → Nat → MgmtAns, discardState.resetRequest 3 0 resetSrc resetDgram 0 f =
      discardState.request 0x0B resetSrc resetDgram 0 (fun s => if resetValid resetDgram = false then s.refuse stBAD
        else if 3 ≠ 0 ∧ s.on BELLOWS_SAFESTAT_CSTOP then s.refuse stSTATE
        else if 3 ≥ 2 ∧ s.get BELLOWS_PWRSTAT_STATE ≠ 4 then s.refuse stNOT_READY
        else if s.pwr.modAt.isSome then s.okay
        else f s (leAt resetDgram.pay 2 2)) := fun f => if_neg (by decide)
  have hix : leAt resetDgram.pay 2 2 = 0 := by decide
  rw [show exec (.resetStream resetSrc resetDgram 0) discardState = execResetStream resetSrc resetDgram 0 discardState from rfl]
  unfold execResetStream
  rw [hreq, State.request_admitted _ _ _ _ _ _ discardState_admits, if_neg (by decide), if_neg (by decide +kernel),
    if_neg (by decide +kernel), if_neg (by decide +kernel), hix]
  exact ⟨_, rfl⟩

/-- The status block of the command stands in the memory. -/
theorem discardState_writes : (((discardState.at 0).taken resetSrc).resetStream 0).mem ≠ [] := by
  decide +kernel

/-- Neither the note of the reset nor the response touches the memory. -/
theorem State.mem_noted_answered (v : State) (dom ix cause : Nat) (src : BitVec 128) (r : Reply) :
    ((v.noteReset dom ix cause).answered src r).mem = v.mem := by
  obtain ⟨l, h⟩ := (v.noteReset dom ix cause).answered_eq src r
  rw [h]
  unfold State.noteReset
  rw [State.put_mem, State.put_mem, State.put_mem]

/-- Refutes O47: a stream reset writes the status block of a command it ends (`discardState`), where the statement says that the
memory stays. -/
theorem not_mgmtResets : ¬ Obligations.MgmtResets := by
  unfold Obligations.MgmtResets
  intro h
  obtain ⟨-, -, -, -, -, -, -, -, -, -, -, hstream⟩ := h discardState resetSrc resetDgram 0
  obtain ⟨v, hv, -, -, hmem, -⟩ := hstream ⟨discardState_admits, rfl, by decide, by decide, rfl⟩
    (by decide +kernel) (by decide +kernel) rfl
  obtain ⟨r, hr⟩ := discardState_resets
  obtain rfl := Host.Outcome.next.inj (hr.symm.trans hv)
  rw [State.mem_noted_answered] at hmem
  exact discardState_writes hmem

end Sys2Proof.Machine
end

