-- ==== Sys2Proof/Proofs/StreamsEnd.lean ====
section
/-! MemoryCare (O25), the ground. What the failure of a stream and the end of a command change: registers of Hammer and Tongs, the log,
tokens, Crucible queues and what streams hold. -/

namespace Sys2Proof.Machine

/-! ### What a withdrawal ends -/

/-- From `u` to `v` streams failed and commands ended: beside registers of the set and the log, only tokens, job flags, Crucible
queues and what streams send, hold and pin changed; a Crucible at reset stays there, and no domain is switched but the cores'. -/
structure State.ends (u v : State) (S : Set Nat) : Prop where
  regs : ∀ a, a ∉ S → logAddr a = false → v.rd a = u.rd a
  doms : u.domsKept v
  crucs : ∀ k, u.cruc k = Cruc.reset → v.cruc k = Cruc.reset
  rest : v = { u with
    csr := v.csr, evrec := v.evrec, srcs := v.srcs, grps := v.grps, cores := v.cores, free := v.free
    hammer := { u.hammer with tok := v.hammer.tok }, crucs := v.crucs, tongs := v.tongs, jobs := v.jobs, mgmt := v.mgmt }

theorem State.ends_refl (u : State) (S : Set Nat) : u.ends u S := ⟨fun _ _ _ => rfl, u.domsKept_refl, fun _ h => h, rfl⟩

theorem State.ends_trans {u v w : State} {S : Set Nat} (h : u.ends v S) (k : v.ends w S) : u.ends w S := by
  refine ⟨fun a ha hb => (k.regs a ha hb).trans (h.regs a ha hb), State.domsKept_trans h.doms k.doms,
    fun j hj => k.crucs j (h.crucs j hj), ?_⟩
  rw [k.rest, h.rest]

theorem State.ends_mono {u v : State} {S T : Set Nat} (h : u.ends v S) (hs : S ⊆ T) : u.ends v T :=
  ⟨fun a ha hb => h.regs a (fun hc => ha (hs hc)) hb, h.doms, h.crucs, h.rest⟩

theorem State.ends_foldl {α : Type} (f : State → α → State) (S : Set Nat) (l : List α) (h : ∀ s : State, ∀ x ∈ l, s.ends (f s x) S)
    (s : State) : s.ends (l.foldl f s) S := by
  induction l generalizing s with
  | nil => exact s.ends_refl S
  | cons x r ih => exact State.ends_trans (h s x (by simp)) (ih (fun s y hy => h s y (by simp [hy])) _)

section
variable {u v : State} {S : Set Nat}

theorem State.ends_of_only (h : u.only v []) (hd : u.domsKept v) : u.ends v S := by
  obtain ⟨h1, -, h3⟩ := h
  refine ⟨fun a _ hb => h1 a (by simp) hb, hd, fun k hk => ?_, by rw [h3]⟩
  unfold State.cruc at hk ⊢
  rw [h3]
  exact hk

/-- A register of the set, outside the power status. -/
theorem State.ends_put (u : State) (f : Fd) (x : Nat) (h : f.addr ∈ S) (hd : f.addr < BELLOWS_PDSTAT 0 ∨ BELLOWS_PDSTAT3 < f.addr) :
    u.ends (u.put f x) S :=
  ⟨fun _ ha _ => State.rd_put_ne _ _ _ (fun hc => ha (hc ▸ h)), State.domsKept_put u f x hd, fun _ hk => hk, rfl⟩

theorem State.ends_tongs (u : State) (t : Tongs) : u.ends { u with tongs := t } S := ⟨fun _ _ _ => rfl, fun _ _ => rfl, fun _ h => h, rfl⟩

theorem State.ends_setCtx (u : State) (n : Nat) (c : Ctx) : u.ends (u.setCtx n c) S := u.ends_tongs _

theorem State.ends_setIfc (u : State) (i : Nat) (x : Ifc) : u.ends (u.setIfc i x) S := u.ends_tongs _

theorem State.ends_forget (u : State) (n : Nat) : u.ends (u.forget n) S := u.ends_tongs _

theorem State.ends_fresh (u : State) (n : Nat) : u.ends (u.fresh n).2 S := ⟨fun _ _ _ => rfl, fun _ _ => rfl, fun _ h => h, rfl⟩

theorem State.ends_setJob (u : State) (j : Nat) (x : Option Job) : u.ends (u.setJob j x) S :=
  ⟨fun _ _ _ => rfl, fun _ _ => rfl, fun _ h => h, rfl⟩

end

/-- The registers that the end of a stream or of a command writes: those of Hammer and of Tongs. -/
def frontRegs : Set Nat := {a | 0x300000000000 ≤ a ∧ a < 0x300001000000}

theorem State.ends_eventIrq (u : State) (irq code sev src p0 p1 p2 : Nat) (h : irq < 256) (S : Set Nat) :
    u.ends (u.eventIrq irq code sev src p0 p1 p2) S := by
  refine State.ends_of_only (u.only_eventIrq irq code sev src p0 p1 p2 h []) ?_
  unfold State.eventIrq
  exact State.domsKept_trans (u.domsKept_eventSeq code sev src p0 p1 p2) (State.domsKept_trans
    (State.domsKept_put _ _ _ (.inr (by simp only [BIC_SRCSTAT, BELLOWS_PDSTAT3]; omega))) (State.irqOnly_raise _ _).2.1)

theorem State.ends_event (u : State) (code sev src p0 p1 p2 : Nat) (S : Set Nat) : u.ends (u.event code sev src p0 p1 p2) S :=
  State.ends_of_only (u.only_event code sev src p0 p1 p2 []) (u.domsKept_eventSeq code sev src p0 p1 p2)

theorem State.ends_queueMsg (u : State) (n opc : Nat) (resp : Bool) (data : List Byte) (nop : Option Nat) (S : Set Nat) :
    u.ends (u.queueMsg n opc resp data nop) S := by
  unfold State.queueMsg
  extract_lets c m c'
  split
  · exact u.ends_setCtx _ _
  · exact u.ends_refl S

/-- A register of Hammer or Tongs put. -/
theorem State.ends_put_front (u : State) (f : Fd) (x : Nat) (h : f.addr ∈ frontRegs) : u.ends (u.put f x) frontRegs := by
  refine u.ends_put f x h (.inl ?_)
  have := h.2
  simp only [BELLOWS_PDSTAT]
  omega

theorem State.ends_cacheStat (u : State) : u.ends u.cacheStat frontRegs := by
  have h : TONGS_CACHESTAT ∈ frontRegs := ⟨by decide, by decide⟩
  exact State.ends_trans (u.ends_put_front TONGS_CACHESTAT_ADMQ _ h) (State.ends_trans
    (State.ends_put_front _ TONGS_CACHESTAT_PINNED _ h) (State.ends_put_front _ TONGS_CACHESTAT_CACHED _ h))

theorem State.ends_unpin (u : State) (n : Nat) : u.ends (u.unpin n) frontRegs := by
  unfold State.unpin
  split
  · exact u.ends_refl _
  · exact State.ends_trans (u.ends_tongs _) (State.ends_cacheStat _)

theorem State.ends_respond (u : State) (n ctype status sub ctag result : Nat) (loc : Word) :
    u.ends (u.respond n ctype status sub ctag result loc) frontRegs := by
  unfold State.respond
  generalize cmdResponse ctype status sub ctag result loc = data
  refine State.ends_trans (u.ends_queueMsg n 7 true data none _) ?_
  unfold State.cmdDone
  extract_lets c
  split
  · exact State.ends_refl _ _
  · exact State.ends_trans (State.ends_setCtx _ _ _) (State.ends_unpin _ _)

theorem State.ends_tokDone (u : State) (job t : Nat) (f : Option Fail) : u.ends (u.tokDone job t f) frontRegs := by
  have hs : ∀ x, u.ends (u.setTok t x) frontRegs := fun x => ⟨fun _ _ _ => rfl, fun _ _ => rfl, fun _ h => h, rfl⟩
  unfold State.tokDone
  split
  · exact u.ends_refl _
  · extract_lets x y
    cases f with
    | none => exact hs _
    | some e => exact State.ends_trans (hs _) (State.ends_put_front _ HAMMER_SFLAGS_TOK_FAIL _ ⟨by decide, by decide⟩)

/-! ### A stream fails -/

theorem State.ends_sendRst (u : State) (i : Nat) (dst : BitVec 128) (dstrm sstrm reason : Nat) (S : Set Nat) :
    u.ends (u.sendRst i dst dstrm sstrm reason) S := by
  unfold State.sendRst
  extract_lets x x'
  split
  · exact u.ends_setIfc _ _
  · exact State.ends_trans (u.ends_setIfc _ _) (State.ends_setIfc _ _ _)

theorem State.ends_closeAnswer (u : State) (c : Ctx) (failed : Bool) : u.ends (u.closeAnswer c failed) frontRegs := by
  unfold State.closeAnswer
  split
  · exact u.ends_refl _
  · split
    · exact State.ends_trans (u.ends_fresh 256) (State.ends_respond _ _ _ _ _ _ _ _)
    · exact u.ends_respond _ _ _ _ _ _ _

theorem State.ends_failNops (u : State) (n cause reason : Nat) : u.ends (u.failNops n cause reason) frontRegs := by
  refine State.ends_foldl _ _ _ (fun s o _ => ?_) u
  unfold State.nopDone
  split
  · exact s.ends_refl _
  · exact State.ends_trans (s.ends_tongs _) (State.ends_tokDone _ _ _ _)

/-- A stream withdrawn from the Crucibles' commands: one at reset has none. -/
theorem State.ends_orphan (u : State) (n : Nat) (S : Set Nat) : u.ends (u.orphan n) S := by
  refine ⟨fun _ _ _ => rfl, fun _ _ => rfl, fun k hk => ?_, rfl⟩
  unfold State.cruc at hk ⊢
  unfold State.orphan
  extract_lets cs cc cr cl jb
  generalize u.crucs = l at hk
  induction l with
  | nil => exact hk
  | cons p r ih =>
    obtain ⟨j, c⟩ := p
    simp only [List.map_cons, Tab.get] at hk ⊢
    split
    · next h =>
      rw [if_pos h] at hk
      rw [hk]
      rfl
    · next h =>
      rw [if_neg h] at hk
      exact ih hk

theorem State.ends_failStream (u : State) (n reason : Nat) (rst : Bool) : u.ends (u.failStream n reason rst) frontRegs := by
  unfold State.failStream
  extract_lets c s1 d s2 s3 s4
  split
  · exact u.ends_refl _
  · have h1 : u.ends s1 frontRegs := by
      unfold s1
      split
      · exact u.ends_sendRst _ _ _ _ _ _
      · exact u.ends_refl _
    have h2 : s1.ends s2 frontRegs := s1.ends_setCtx _ _
    have h3 : s2.ends s3 frontRegs := State.ends_trans (s2.ends_orphan n _) (State.ends_trans (State.ends_closeAnswer _ c true)
      (State.ends_forget _ n))
    have h4 : s3.ends s4 frontRegs := State.ends_trans (s3.ends_put_front HAMMER_ERRSUM_STREAM 1 ⟨by decide, by decide⟩)
      (State.ends_eventIrq _ _ _ _ _ _ _ _ (by decide) _)
    have hc : s4.ends (s4.failCause reason).2 frontRegs := by
      unfold State.failCause
      split
      · exact s4.ends_refl _
      · split
        · exact s4.ends_fresh 2
        · exact s4.ends_refl _
    exact State.ends_trans h1 (State.ends_trans h2 (State.ends_trans h3 (State.ends_trans h4 (State.ends_trans hc
      (State.ends_trans (State.ends_unpin _ _) (State.ends_failNops _ _ _ _))))))

end Sys2Proof.Machine
end

