-- ==== Sys2Proof/Proofs/StackFence.lean ====
section
/-! MemoryCare (O25), the fence of a stack: its commands and streams end, its domain goes off, and nothing else changes. -/

namespace Sys2Proof.Machine

/-! ### A stack is fenced -/

/-- The registers of a Crucible's block. -/
def crucRegs (k : Nat) : Set Nat := {a | crucCsr k ≤ a ∧ a < crucCsr k + 0x1000}

/-- The registers that a fence writes, beside the stack's own status and the power status. -/
def fenceRegs (k : Nat) : Set Nat := frontRegs ∪ crucRegs k

/-- A register of the Crucible's block put. -/
theorem State.ends_put_cruc (u : State) {k : Nat} (f : Fd) (x : Nat) (hk : k < 20) (h : f.addr ∈ crucRegs k) : u.ends (u.put f x) (fenceRegs k) := by
  refine u.ends_put f x (Or.inr h) (.inl ?_)
  obtain ⟨h1, h2⟩ := h
  unfold crucCsr at h1 h2
  simp only [BELLOWS_PDSTAT]
  omega

theorem State.ends_front {u v : State} {k : Nat} (h : u.ends v frontRegs) : u.ends v (fenceRegs k) := State.ends_mono h Set.subset_union_left

section
variable {k : Nat} (hk : k < 20)
include hk

theorem State.ends_crucStat (u : State) : u.ends (u.crucStat k) (fenceRegs k) := by
  have h : ∀ (s : State) (f : Fd) x, f.addr = CRUC_QSTAT k → s.ends (s.put f x) (fenceRegs k) := fun s f x hf =>
    s.ends_put_cruc f x hk (by rw [hf]; unfold crucRegs crucCsr; simp only [CRUC_QSTAT, Set.mem_ofPred_eq]; omega)
  unfold State.crucStat State.putB
  extract_lets c s1 s2
  have h1 : u.ends s1 (fenceRegs k) := State.ends_trans (h _ _ _ rfl) (State.ends_trans (h _ _ _ rfl) (h _ _ _ rfl))
  have h2 : s1.ends s2 (fenceRegs k) := State.ends_trans (h _ _ _ rfl) (h _ _ _ rfl)
  exact State.ends_trans h1 (State.ends_trans h2 (h _ _ _ rfl))

theorem State.ends_crucError (u : State) (queue err cmd seq : Nat) (loc : Word) :
    u.ends (u.crucError k queue err cmd seq loc) (fenceRegs k) := by
  have h : ∀ (s : State) (f : Fd) x, f.addr = CRUC_CERR k ∨ f.addr = CRUC_CERRLOC k → s.ends (s.put f x) (fenceRegs k) := by
    intro s f x hf
    refine s.ends_put_cruc f x hk ?_
    unfold crucRegs crucCsr
    rcases hf with hf | hf <;> (rw [hf]; simp only [CRUC_CERR, CRUC_CERRLOC, Set.mem_ofPred_eq]; omega)
  unfold State.crucError
  extract_lets s1 s2 s3
  have h1 : u.ends s1 (fenceRegs k) := State.ends_trans (h _ _ _ (.inl rfl)) (State.ends_trans (h _ _ _ (.inl rfl)) (h _ _ _ (.inl rfl)))
  have h2 : s1.ends s2 (fenceRegs k) := State.ends_trans (h _ _ _ (.inl rfl))
    (State.ends_front (State.ends_put_front _ HAMMER_ERRSUM_CRUC 1 ⟨by decide, by decide⟩))
  have h3 : s2.ends s3 (fenceRegs k) := by
    unfold s3
    split
    · exact h _ _ _ (.inr rfl)
    · exact s2.ends_refl _
  exact State.ends_trans h1 (State.ends_trans h2 (State.ends_trans h3 (State.ends_eventIrq _ _ _ _ _ _ _ _ (by omega) _)))

omit hk in
theorem State.ends_crucAnswer (u : State) (src : CSrc) (st err seq : Nat) (fl : Flags) (loc : Word) :
    u.ends (u.crucAnswer k src st err seq fl loc) frontRegs := by
  unfold State.crucAnswer
  split
  · next job t =>
    extract_lets f s
    have hs : u.ends s frontRegs := by
      unfold s
      split
      · exact u.ends_setJob _ _
      · exact u.ends_refl _
    exact State.ends_trans hs (State.ends_tokDone _ _ _ _)
  · exact u.ends_respond _ _ _ _ _ _ _

/-- A Crucible's commands end: it is at reset. -/
theorem State.ends_crucFlush (u : State) (err : Nat) (failed : Bool) :
    u.ends (u.crucFlush k err failed) (fenceRegs k) ∧ (u.crucFlush k err failed).cruc k = Cruc.reset := by
  have hset : u.ends (u.setCruc k Cruc.reset) (fenceRegs k) := by
    refine ⟨fun _ _ _ => rfl, fun _ _ => rfl, fun j hj => ?_, rfl⟩
    rw [State.cruc_setCruc]
    split
    · rfl
    · exact hj
  have hk0 : (u.setCruc k Cruc.reset).cruc k = Cruc.reset := by
    rw [State.cruc_setCruc, if_pos rfl]
  have hone : ∀ (s : State) (x : CCmd), s.ends (State.crucAnswer
      (if failed then (s.inc (CRUC_CCNT_FAILED k)).crucError k x.queue err (dCmd x.desc) x.seq 0 else s) k x.src 2 err x.seq 0 0) (fenceRegs k) := by
    intro s x
    refine State.ends_trans ?_ (State.ends_front (State.ends_crucAnswer _ _ _ _ _ _ _))
    split
    · refine State.ends_trans (s.ends_put_cruc (CRUC_CCNT_FAILED k) _ hk ?_) (State.ends_crucError hk _ _ _ _ _ _)
      unfold crucRegs crucCsr
      simp only [CRUC_CCNT, Set.mem_ofPred_eq]
      omega
    · exact s.ends_refl _
  have hrest : (u.setCruc k Cruc.reset).ends (u.crucFlush k err failed) (fenceRegs k) :=
    State.ends_trans (State.ends_crucStat hk _) (State.ends_foldl _ _ _ (fun s x _ => hone s x) _)
  exact ⟨State.ends_trans hset hrest, hrest.crucs k hk0⟩

end

theorem State.ends_loseRings (u : State) (k : Nat) : u.ends (u.loseRings k) frontRegs := by
  refine State.ends_foldl _ _ _ (fun s r hr => ?_) u
  extract_lets p
  split
  · refine s.ends_put_front _ _ ?_
    have := List.mem_range.mp hr
    unfold frontRegs
    simp only [TONGS_RING_CFG, Set.mem_ofPred_eq]
    omega
  · exact s.ends_refl _

theorem Tab.get_filter_in {α : Type} (d : Nat → α) (t : Tab α) (p : Nat × α → Bool) (k : Nat) (h : ∀ x, p (k, x) = true) :
    Tab.get d (t.filter p) k = Tab.get d t k := by
  induction t with
  | nil => rfl
  | cons q r ih =>
    obtain ⟨j, x⟩ := q
    by_cases hj : j = k
    · subst hj
      rw [List.filter_cons_of_pos (h x)]
      simp [Tab.get]
    · by_cases hp : p (j, x) = true
      · rw [List.filter_cons_of_pos hp]
        simp only [Tab.get, if_neg hj]
        exact ih
      · rw [List.filter_cons_of_neg hp, ih]
        simp only [Tab.get, if_neg hj]

/-- Registers outside the range keep their values. -/
theorem State.rd_csrReset (u : State) (a n : Nat) {b : Nat} (h : b < a ∨ a + n ≤ b) : (u.csrReset a n).rd b = u.rd b := by
  refine Tab.get_filter_in regReset u.csr _ b (fun w => ?_)
  rcases h with h | h <;> simp [h]

/-! ### Power domains -/

/-- A domain switched, every domain after it. -/
theorem State.domOn_setDom (u : State) {d : Nat} (b : Bool) (hd : d < 256) (e : Nat) :
    (u.setDom d b).domOn e = if e = d then b else u.domOn e := by
  have hbit : ∀ (a lo i : Nat), lo < 64 → ((u.putB ⟨a, lo, lo⟩ b).rd a).getLsbD i = if i = lo then b else (u.rd a).getLsbD i := by
    intro a lo i hlo
    have hrd : (u.putB ⟨a, lo, lo⟩ b).rd a = setBits (u.rd a) lo lo (if b then 1 else 0) := State.rd_wr_self _ _ _
    rw [hrd, ← BitVec.testBit_toNat, testBit_setBits _ _ _ _ _ le_rfl hlo, BitVec.testBit_toNat]
    by_cases h : i = lo
    · subst h
      cases b <;> simp
    · rw [if_neg h, if_neg (by omega)]
  have hne : ∀ (a lo c : Nat), c ≠ a → (u.putB ⟨a, lo, lo⟩ b).rd c = u.rd c := fun a lo c h => State.rd_wr_ne _ _ h
  unfold State.setDom
  split
  · next hlow =>
    unfold State.domOn
    split
    · next he =>
      by_cases hw : e / 64 = d / 64
      · rw [hw, hbit _ _ _ (Nat.mod_lt _ (by decide))]
        by_cases hed : e = d
        · rw [if_pos hed, if_pos (by rw [hed])]
        · rw [if_neg hed, if_neg (by omega)]
      · rw [hne _ _ _ (by simp only [BELLOWS_PDSTAT]; omega), if_neg (by rintro rfl; exact hw rfl)]
    · next he =>
      rw [hne _ _ _ (by simp only [BELLOWS_PDSTAT, BELLOWS_PDSTAT3]; omega), if_neg (by omega)]
  · next hhigh =>
    unfold State.domOn
    split
    · next he =>
      rw [hne _ _ _ (by simp only [BELLOWS_PDSTAT, BELLOWS_PDSTAT3]; omega), if_neg (by omega)]
    · next he =>
      rw [hbit _ _ _ (by omega)]
      by_cases hed : e = d
      · rw [if_pos hed, if_pos (by rw [hed])]
      · rw [if_neg hed, if_neg (by omega)]

/-- The register of the power status in which a domain is switched. -/
def pdWord (d : Nat) : Nat := if d < 192 then BELLOWS_PDSTAT (d / 64) else BELLOWS_PDSTAT3

theorem State.rd_setDom (u : State) (d : Nat) (b : Bool) {a : Nat} (h : a ≠ pdWord d) : (u.setDom d b).rd a = u.rd a := by
  unfold pdWord at h
  unfold State.setDom
  split
  · next hd => rw [if_pos hd] at h; exact State.rd_wr_ne _ _ h
  · next hd => rw [if_neg hd] at h; exact State.rd_wr_ne _ _ h

theorem State.put_rest (u : State) (f : Fd) (x : Nat) : u.put f x = { u with csr := (u.put f x).csr } := rfl

theorem State.setDom_rest (u : State) (d : Nat) (b : Bool) : u.setDom d b = { u with csr := (u.setDom d b).csr } := by
  unfold State.setDom State.putB
  split
  · exact u.put_rest _ _
  · exact u.put_rest _ _

/-! ### A stack is fenced: the whole -/

/-- What a fence may change beside registers, domains and the Crucible. -/
def State.withdraws (u v : State) : Prop := v = { u with
  csr := v.csr, evrec := v.evrec, srcs := v.srcs, grps := v.grps, cores := v.cores, free := v.free
  hammer := { u.hammer with tok := v.hammer.tok }, crucs := v.crucs, tongs := v.tongs, jobs := v.jobs, mgmt := v.mgmt
  temper := v.temper, fenceReq := v.fenceReq }

theorem State.withdraws_trans {u v w : State} (h : u.withdraws v) (k : v.withdraws w) : u.withdraws w := by
  unfold State.withdraws at *
  rw [k, h]

theorem State.withdraws_of_ends {u v : State} {S : Set Nat} (h : u.ends v S) : u.withdraws v := by
  unfold State.withdraws
  rw [h.rest]

theorem State.withdraws_of_csr {u v : State} (h : v = { u with csr := v.csr }) : u.withdraws v := by
  unfold State.withdraws
  rw [h]

theorem State.csrReset_rest (u : State) (a n : Nat) :
    u.csrReset a n = { u with csr := (u.csrReset a n).csr, temper := (u.csrReset a n).temper } := rfl

theorem State.withdraws_csrReset (u : State) (a n : Nat) : u.withdraws (u.csrReset a n) := by
  unfold State.withdraws
  rw [u.csrReset_rest a n]

/-- From `u` to `v` stack `k` was fenced for `cause` (R277, R323). -/
structure State.fencedTo (u v : State) (k cause : Nat) : Prop where
  fenced : v.fenced k = true
  fcause : v.get (HEARTH_STKSTAT_FCAUSE k) = cause
  cruc : v.cruc k = Cruc.reset
  off : v.get (CRUC_QSTAT_OFF k) = 1
  doms : ∀ d, d ≠ 196 → v.domOn d = if d = 170 + k then false else u.domOn d
  regs : ∀ a, a ∉ fenceRegs k → a ≠ HEARTH_STKSTAT k → a ≠ BELLOWS_PDSTAT 2 → logAddr a = false → v.rd a = u.rd a
  rest : u.withdraws v

section
variable {u : State} {k cause : Nat} (hk : k < 20)
include hk

theorem stkstat_apart : HEARTH_STKSTAT k ∉ fenceRegs k ∧ logAddr (HEARTH_STKSTAT k) = false ∧ HEARTH_STKSTAT k ≠ BELLOWS_PDSTAT 2 := by
  refine ⟨?_, ?_, by simp only [HEARTH_STKSTAT, BELLOWS_PDSTAT]; omega⟩
  · unfold fenceRegs frontRegs crucRegs crucCsr
    simp only [HEARTH_STKSTAT, Set.mem_union, Set.mem_ofPred_eq]
    omega
  · unfold logAddr
    simp only [HEARTH_STKSTAT, BELLOWS_ERRSUM, BELLOWS_PDSTAT3, MGMT_STAT, Bool.or_eq_false_iff, beq_eq_false_iff_ne]
    omega

theorem State.fencedTo_fenceStack (hf : u.fenced k = false) (hc : cause < 8) : u.fencedTo (u.fenceStack k cause) k cause := by
  obtain ⟨hs, hlog, hpd⟩ := stkstat_apart hk
  unfold State.fenceStack
  rw [if_neg (by rw [hf]; decide)]
  extract_lets u1 u2 u3 u4 u5 u6
  -- the status of the stack
  have hset : ∀ a, a ≠ HEARTH_STKSTAT k → u1.rd a = u.rd a := fun a ha =>
    (State.rd_put_ne _ _ _ ha).trans (State.rd_put_ne _ _ _ ha)
  have hfen1 : u1.fenced k = true := by
    unfold u1 State.fenced State.on
    rw [State.get_put_apart _ _ _ _ (show 2 ≤ 4 by decide) (show 4 < 64 by decide) (.inr (show 4 < 5 by decide)),
      State.get_put_self _ _ _ (show 5 ≤ 5 by decide) (show 5 < 64 by decide)]
    rfl
  have hcau1 : u1.get (HEARTH_STKSTAT_FCAUSE k) = cause := by
    unfold u1
    rw [State.get_put_self _ _ _ (show 2 ≤ 4 by decide) (show 4 < 64 by decide)]
    exact Nat.mod_eq_of_lt hc
  have hdom1 : u.domsKept u1 := State.domsKept_trans
    (State.domsKept_put _ _ _ (.inl (by simp only [HEARTH_STKSTAT, BELLOWS_PDSTAT]; omega)))
    (State.domsKept_put _ _ _ (.inl (by simp only [HEARTH_STKSTAT, BELLOWS_PDSTAT]; omega)))
  -- the Crucible's commands end
  obtain ⟨h2, hcr2⟩ := State.ends_crucFlush hk u1 6 true
  -- the domain goes off, the Crucible's registers with it
  have hpdw : pdWord (170 + k) = BELLOWS_PDSTAT 2 := by
    unfold pdWord
    rw [if_pos (by omega), show (170 + k) / 64 = 2 by omega]
  have hq : CRUC_QSTAT k ∈ crucRegs k := by
    unfold crucRegs crucCsr
    simp only [CRUC_QSTAT, Set.mem_ofPred_eq]
    omega
  have h3 : ∀ a, a ∉ crucRegs k → a ≠ BELLOWS_PDSTAT 2 → u3.rd a = u2.rd a := fun a ha hb =>
    (State.rd_put_ne _ (CRUC_QSTAT_OFF k) 1 (fun h : a = CRUC_QSTAT k => ha (h ▸ hq))).trans ((State.rd_csrReset _ _ _ (by
      by_contra hcon
      exact ha ⟨by omega, by omega⟩)).trans (State.rd_setDom _ _ _ (by rw [hpdw]; exact hb)))
  have hdom3 : ∀ d, u3.domOn d = if d = 170 + k then false else u2.domOn d := fun d =>
    ((State.domOn_congr (fun a ha hb => by
      have hlow : a ∉ crucRegs k := fun h => by
        have := h.2
        unfold crucCsr at this
        simp only [BELLOWS_PDSTAT] at ha
        omega
      exact (State.rd_put_ne _ (CRUC_QSTAT_OFF k) 1 (fun h : a = CRUC_QSTAT k => hlow (h ▸ hq))).trans (State.rd_csrReset _ _ _ (by
        by_contra hcon
        exact hlow ⟨by omega, by omega⟩))) d).trans (State.domOn_setDom u2 false (by omega) d))
  have hoff3 : u3.get (CRUC_QSTAT_OFF k) = 1 := by
    unfold u3
    rw [State.get_put_self _ _ _ (show 27 ≤ 27 by decide) (show 27 < 64 by decide)]
    rfl
  have hrest3 : u2.withdraws u3 := State.withdraws_trans (State.withdraws_of_csr (u2.setDom_rest _ _)) (State.withdraws_trans
    (State.withdraws_csrReset _ _ _) (State.withdraws_of_csr (State.put_rest _ _ _)))
  have hcr3 : u3.cruc k = Cruc.reset := by
    have hc3 : u3.crucs = u2.crucs := by
      unfold u3
      rw [State.put_rest, State.csrReset_rest, State.setDom_rest]
    unfold State.cruc at hcr2 ⊢
    rw [hc3]
    exact hcr2
  -- streams, rings and the record
  have h4 : u3.ends u4 frontRegs := State.ends_foldl _ _ _ (fun s n _ => by
    split
    · exact s.ends_refl _
    · exact s.ends_failStream _ _ _) _
  have h5 : u4.ends u5 frontRegs := u4.ends_loseRings k
  have h6 : u6.ends (u6.event 0x0201 4 (3 * 256 + k / 2) (k + cause * 256) 0 0) frontRegs := State.ends_event _ _ _ _ _ _ _ _
  have h45 := State.ends_trans h4 h5
  generalize u6.event 0x0201 4 (3 * 256 + k / 2) (k + cause * 256) 0 0 = v at h6
  have hreg : ∀ a, a ∉ frontRegs → logAddr a = false → v.rd a = u3.rd a := fun a ha hb =>
    (h6.regs a ha hb).trans (h45.regs a ha hb)
  have hstat : v.rd (HEARTH_STKSTAT k) = u1.rd (HEARTH_STKSTAT k) :=
    (hreg _ (fun h => hs (.inl h)) hlog).trans ((h3 _ (fun h => hs (.inr h)) hpd).trans (h2.regs _ hs hlog))
  have hqv : v.rd (CRUC_QSTAT k) = u3.rd (CRUC_QSTAT k) := by
    refine hreg _ ?_ ?_
    · unfold frontRegs
      simp only [CRUC_QSTAT, Set.mem_ofPred_eq]
      omega
    · unfold logAddr
      simp only [CRUC_QSTAT, BELLOWS_ERRSUM, BELLOWS_PDSTAT3, MGMT_STAT, Bool.or_eq_false_iff, beq_eq_false_iff_ne]
      omega
  refine ⟨?_, ?_, h6.crucs k (h45.crucs k hcr3), ?_, fun d hd => ?_, fun a ha hb hp hl => ?_, ?_⟩
  · unfold State.fenced State.on at hfen1 ⊢
    rw [State.get_of_rd hstat]
    exact hfen1
  · rw [State.get_of_rd hstat]
    exact hcau1
  · rw [State.get_of_rd hqv]
    exact hoff3
  · have h5' := h45.doms d hd
    have h6' := h6.doms d hd
    rw [h6', show u6.domOn d = u5.domOn d from rfl, h5', hdom3, h2.doms d hd, hdom1 d hd]
  · rw [hreg a (fun h => ha (.inl h)) hl, h3 a (fun h => ha (.inr h)) hp, h2.regs a ha hl, hset a hb]
  · have h1 : u.withdraws u1 := State.withdraws_trans (State.withdraws_of_csr (u.put_rest _ _)) (State.withdraws_of_csr (State.put_rest _ _ _))
    have hreq : u5.withdraws u6 := rfl
    exact State.withdraws_trans h1 (State.withdraws_trans (State.withdraws_of_ends h2) (State.withdraws_trans hrest3
      (State.withdraws_trans (State.withdraws_of_ends h45) (State.withdraws_trans hreq (State.withdraws_of_ends h6)))))

end

end Sys2Proof.Machine
end

