-- ==== Sys2Proof/Proofs/AnvilHold.lean ====
section
/-! MemoryCare (O25), the hold of an Anvil: its domain, its registers and its store go, the other Anvils stay. -/

namespace Sys2Proof.Machine

/-! ### An Anvil is held -/

/-- Bytes of a range cleared read 0, the others as before. -/
theorem State.byte_clearMem (u : State) (a n b : Nat) :
    (u.clearMem a n).byte b = if a ≤ phys b ∧ phys b < a + n then 0 else u.byte b := by
  unfold State.byte State.clearMem
  split
  · next h => exact Tab.get_filter_out _ _ _ _ (fun _ => by simp; omega)
  · next h => exact Tab.get_filter_in _ _ _ _ (fun _ => by simp; omega)

/-- The registers of an Anvil's block. -/
def anvilRegs (g : Nat) : Set Nat := {a | anvilCsr g ≤ a ∧ a < anvilCsr g + 0x1000}

/-- What withdrawing an Anvil may change beside registers: its store and registers, its place in the available set. -/
def State.releases (u v : State) : Prop := v = { u with
  csr := v.csr, mem := v.mem, errs := v.errs, wb := v.wb, transit := v.transit, anvils := v.anvils, temper := v.temper, holds := v.holds
  hammer := { u.hammer with avail := v.hammer.avail, flight := v.hammer.flight }
  evrec := v.evrec, srcs := v.srcs, grps := v.grps, cores := v.cores, free := v.free
  tongs := { u.tongs with ctx := v.tongs.ctx }, mgmt := v.mgmt }

/-- From `u` to `v` Anvil `g` went off (R591): its domain, its registers, its store. -/
structure State.offTo (u v : State) (g : Nat) : Prop where
  avail : v.hammer.avail = u.hammer.avail
  anvil : ∀ k, v.anvil k = if k = g then Anvil.entry else u.anvil k
  bytes : ∀ a, v.byte a = if anvilBase g ≤ phys a ∧ phys a < anvilBase g + 0x200000 then 0 else u.byte a
  doms : ∀ d, v.domOn d = if d = g then false else u.domOn d
  regs : ∀ a, a ∉ anvilRegs g → a ≠ pdWord g → v.rd a = u.rd a
  evrec : v.evrec = u.evrec
  holds : v.holds = u.holds
  rest : u.releases v

theorem anvilRegs_below {g a : Nat} (hg : g < 160) (h : a ∈ anvilRegs g) : 0x300001010000 ≤ a ∧ a < 0x300002000000 := by
  obtain ⟨h1, h2⟩ := h
  unfold anvilCsr at h1 h2
  omega

/-- The operations under way in other Anvils. -/
def flightBut (g : Nat) (l : List Flight) : List Flight :=
  l.filter (fun f => match f.eff with | .anvil k _ _ => k != g | _ => true)

theorem State.anvilOff_eq (u : State) (g : Nat) : u.anvilOff g = { u with
    csr := ((u.setDom g false).csrReset (anvilCsr g) 0x1000).csr
    temper := ((u.setDom g false).csrReset (anvilCsr g) 0x1000).temper
    mem := (u.clearMem (anvilBase g) 0x200000).mem, errs := (u.clearMem (anvilBase g) 0x200000).errs
    wb := (u.clearMem (anvilBase g) 0x200000).wb, transit := (u.clearMem (anvilBase g) 0x200000).transit
    anvils := (u.setAnvil g Anvil.entry).anvils, hammer := { u.hammer with flight := flightBut g u.hammer.flight } } := by
  have h := u.setDom_rest g false
  unfold State.anvilOff
  generalize u.setDom g false = w at *
  rw [h]
  rfl

theorem State.offTo_anvilOff (u : State) {g : Nat} (hg : g < 160) : u.offTo (u.anvilOff g) g := by
  have hrd : ∀ a, (u.anvilOff g).rd a = ((u.setDom g false).csrReset (anvilCsr g) 0x1000).rd a := fun a => by
    rw [u.anvilOff_eq g]
    rfl
  have hout : ∀ a, a ∉ anvilRegs g → (u.anvilOff g).rd a = (u.setDom g false).rd a := fun a ha =>
    (hrd a).trans (State.rd_csrReset _ _ _ (by by_contra hc; exact ha ⟨by omega, by omega⟩))
  refine ⟨?_, fun k => ?_, fun a => ?_, fun d => ?_, fun a ha hp => (hout a ha).trans (u.rd_setDom g false hp), ?_, ?_, ?_⟩
  · rw [u.anvilOff_eq g]
  · rw [← u.anvil_setAnvil, u.anvilOff_eq g]
    rfl
  · rw [← u.byte_clearMem, u.anvilOff_eq g]
    rfl
  · rw [← u.domOn_setDom false (by omega)]
    refine State.domOn_congr (fun a ha _ => hout a (fun h => ?_)) d
    have := (anvilRegs_below hg h).2
    simp only [BELLOWS_PDSTAT] at ha
    omega
  · rw [u.anvilOff_eq g]
  · rw [u.anvilOff_eq g]
  · unfold State.releases
    rw [u.anvilOff_eq g]

/-- From `u` to `v` Anvil `g` was held (R275) while no job ran. -/
structure State.heldTo (u v : State) (g : Nat) : Prop where
  avail : ∀ k, v.hammer.avail.getLsbD k = (u.hammer.avail.getLsbD k && k != g)
  anvil : ∀ k, v.anvil k = if k = g then Anvil.entry else u.anvil k
  bytes : ∀ a, v.byte a = if anvilBase g ≤ phys a ∧ phys a < anvilBase g + 0x200000 then 0 else u.byte a
  doms : ∀ d, d ≠ 196 → v.domOn d = if d = g then false else u.domOn d
  regs : ∀ a, a ∉ anvilRegs g → a ≠ pdWord g → logAddr a = false → v.rd a = u.rd a
  recorded : u.recorded v 0x0202
  holds : v.holds = u.holds.filter (fun p => p.1 != g)
  rest : u.releases v

theorem avail_without (m : BitVec 160) {g : Nat} (hg : g < 160) (k : Nat) :
    (m &&& ~~~ BitVec.ofNat 160 (2 ^ g)).getLsbD k = (m.getLsbD k && k != g) := by
  rw [BitVec.getLsbD_and, BitVec.getLsbD_not, BitVec.getLsbD_ofNat, Nat.testBit_two_pow]
  by_cases hk : k < 160
  · by_cases h : k = g
    · simp [h, hg]
    · simp [hk, h, Ne.symm h]
  · rw [BitVec.getLsbD_of_ge m k (by omega)]
    simp

theorem State.heldTo_holdAnvil (u : State) {g : Nat} (reason : Nat) (hg : g < 160) (hr : u.hammer.run = none) :
    u.heldTo (u.holdAnvil g reason) g := by
  unfold State.holdAnvil
  extract_lets m u1 u2 u3
  have h1 : u1 = { u with hammer := { u.hammer with avail := u.hammer.avail &&& ~~~ m } } := rfl
  have hidle : u1.endForAnvil m = u1 := by
    have hrun : u1.hammer.run = none := by rw [h1]; exact hr
    unfold State.endForAnvil
    rw [hrun]
    split
    · next h => cases h
    · rfl
  have h2 : u1.offTo u2 g := by
    unfold u2
    rw [hidle]
    exact u1.offTo_anvilOff hg
  have h3 : u3 = { u2 with holds := u2.holds.filter (fun p => p.1 != g) } := rfl
  have ho := State.only_event u3 0x0202 3 (4 * 256 + g) (g + reason * 256) 0 0 []
  have hd := State.domsKept_eventSeq u3 0x0202 3 (4 * 256 + g) (g + reason * 256) 0 0
  have hrec := u3.recorded_event 0x0202 3 (4 * 256 + g) (g + reason * 256) 0 0
  have hev : (u3.event 0x0202 3 (4 * 256 + g) (g + reason * 256) 0 0) = (u3.eventSeq 0x0202 3 (4 * 256 + g) (g + reason * 256) 0 0).2 := rfl
  rw [← hev] at hd
  generalize u3.event 0x0202 3 (4 * 256 + g) (g + reason * 256) 0 0 = v at ho hd hrec
  obtain ⟨hregs, -, hrest⟩ := ho
  clear_value u3
  subst h3
  clear_value u2 u1
  subst h1
  refine ⟨fun k => ?_, fun k => ?_, fun a => ?_, fun d hne => ?_, fun a ha hp hl => ?_, State.recorded_of_evrec hrec h2.evrec, ?_, ?_⟩
  · rw [hrest]
    dsimp only
    rw [h2.avail]
    exact avail_without _ hg k
  · refine Eq.trans ?_ (h2.anvil k)
    unfold State.anvil
    rw [hrest]
  · refine Eq.trans ?_ (h2.bytes a)
    unfold State.byte
    rw [hrest]
  · exact (hd d hne).trans (h2.doms d)
  · exact (hregs a (by simp) hl).trans (h2.regs a ha hp)
  · rw [hrest]
    dsimp only
    rw [h2.holds]
  · have k1 := h2.rest
    unfold State.releases at k1 ⊢
    rw [hrest, k1]

end Sys2Proof.Machine
end

