-- ==== Sys2Proof/Proofs/PatrolRead.lean ====
section
/-! MemoryCare (O25), patrol: what reading, counting and reporting leave as they were, and what bits that flip do to a unit. -/

namespace Sys2Proof.Machine

/-! ### What a patrol leaves -/

/-- From `u` to `v` Hammer, the transit failures to come and the stacks' counts of retries are as they were. -/
structure State.patrolKept (u v : State) : Prop where
  hammer : v.hammer = u.hammer
  transit : v.transit = u.transit
  retries : ∀ k, v.get (HEARTH_STKERR_LINKRTY k) = u.get (HEARTH_STKERR_LINKRTY k)

theorem State.patrolKept_refl (u : State) : u.patrolKept u := ⟨rfl, rfl, fun _ => rfl⟩

theorem State.patrolKept_trans {u v w : State} (h : u.patrolKept v) (k : v.patrolKept w) : u.patrolKept w :=
  ⟨k.hammer.trans h.hammer, k.transit.trans h.transit, fun j => (k.retries j).trans (h.retries j)⟩

/-- From `u` to `v` no byte and no stored error changed either. -/
structure State.tended (u v : State) : Prop extends State.patrolKept u v where
  mem : v.mem = u.mem
  errs : v.errs = u.errs

theorem State.tended_refl (u : State) : u.tended u := ⟨u.patrolKept_refl, rfl, rfl⟩

theorem State.tended_trans {u v w : State} (h : u.tended v) (k : v.tended w) : u.tended w :=
  ⟨State.patrolKept_trans h.1 k.1, k.mem.trans h.mem, k.errs.trans h.errs⟩

theorem State.tended_foldl {α : Type} (f : State → α → State) (l : List α) (h : ∀ s x, State.tended s (f s x)) (s : State) :
    s.tended (l.foldl f s) := by
  induction l generalizing s with
  | nil => exact s.tended_refl
  | cons x r ih => exact State.tended_trans (h s x) (ih _)

/-- Where a field written may lie: in another register than the counts of retries, or below them in theirs. -/
def besideRetries (f : Fd) : Prop := ∀ k, f.addr ≠ HEARTH_STKERR k ∨ f.hi < 48

theorem State.tended_put (u : State) (f : Fd) (x : Nat) (hb : besideRetries f) (hl : f.lo ≤ f.hi ∧ f.hi < 64) : u.tended (u.put f x) := by
  refine ⟨⟨rfl, rfl, fun k => ?_⟩, rfl, rfl⟩
  rcases hb k with h | h
  · exact State.get_put_ne _ _ _ _ h.symm
  · exact State.get_put_apart _ _ _ _ hl.1 hl.2 (.inr h)

/-- The counters of a unit's home lie beside the counts of retries. -/
theorem errHome_beside (key : Nat) : (besideRetries (errHome key).1 ∧ (errHome key).1.lo ≤ (errHome key).1.hi ∧ (errHome key).1.hi < 64) ∧
    besideRetries (errHome key).2.1 ∧ (errHome key).2.1.lo ≤ (errHome key).2.1.hi ∧ (errHome key).2.1.hi < 64 := by
  unfold errHome besideRetries
  split <;> refine ⟨⟨fun k => ?_, ?_, ?_⟩, fun k => ?_, ?_, ?_⟩ <;>
    simp only [HEARTH_HSECNT, ANVIL_SECNT, HAMMER_SECNT, HEARTH_STKERR] <;> omega

/-- The stack, Hearth or Anvil of an address is one of those there are. -/
theorem region_bounds (a o k : Nat) : (region a = .hbm k o ∨ region a = .ctx k o → k < 20) ∧ (region a = .hearth k o → k < 10) ∧
    (region a = .anvil k o → k < 160) := by
  unfold region interleave
  refine ⟨fun h => ?_, fun h => ?_, fun h => ?_⟩ <;> (dsimp only at h; split_ifs at h) <;> simp at h <;> omega

/-- A unit's home raises one of the first sources. -/
theorem errHome_irq (key : Nat) : (errHome key).2.2.2 < 256 := by
  unfold errHome
  split
  · next k o h => have := (region_bounds key o k).2.1 h; dsimp only; omega
  · next k o h => have := (region_bounds key o k).2.2 h; dsimp only; omega
  · decide
  · next k o h => have := (region_bounds key o k).1 (.inl h); dsimp only; omega
  · next k o h => have := (region_bounds key o k).1 (.inr h); dsimp only; omega
  · decide

theorem State.tended_correct (u : State) (key : Nat) : u.tended (u.correct key) := by
  obtain ⟨-, hb, hl⟩ := errHome_beside key
  unfold State.correct
  extract_lets s
  have h : u.tended s := State.tended_trans (u.tended_put _ _ hb hl)
    (State.tended_put _ HAMMER_ERRSUM_MEMCE 1 (fun k => .inr (by decide)) ⟨by decide, by decide⟩)
  split
  · exact h
  · exact State.tended_trans h ⟨⟨rfl, rfl, fun _ => rfl⟩, rfl, rfl⟩

theorem State.tended_correctRange (u : State) (a n : Nat) : u.tended (u.correctRange a n) :=
  State.tended_foldl _ _ State.tended_correct u

theorem State.tended_movedAt (crm : Bool) (u : State) (p : Nat × Nat) : u.tended (State.movedAt crm u p) := by
  have h : ∀ (f : Fd) (x : Nat), besideRetries f → f.lo = 0 → f.hi = 63 → u.tended (u.put f x) := fun f x hb h0 h1 =>
    u.tended_put f x hb ⟨by omega, by omega⟩
  have hc : ∀ k x, u.tended (u.put (if crm then HEARTH_HBMCR_COUNT k else HEARTH_HBMMP_COUNT k) x) := fun k x => by
    cases crm
    · exact h (HEARTH_HBMMP_COUNT k) _ (fun j => .inl (by simp only [HEARTH_HBMMP, HEARTH_STKERR]; omega)) rfl rfl
    · exact h (HEARTH_HBMCR_COUNT k) _ (fun j => .inl (by simp only [HEARTH_HBMCR, HEARTH_STKERR]; omega)) rfl rfl
  unfold State.movedAt
  split
  · exact hc _ _
  · exact hc _ _
  · exact h _ _ (fun j => .inl (by simp only [HEARTH_HSCNT, HEARTH_STKERR]; omega)) rfl rfl
  · exact h _ _ (fun j => .inl (by simp only [ANVIL_ACNT, HEARTH_STKERR]; omega)) rfl rfl
  · exact h _ _ (fun j => .inl (by simp only [HAMMER_STCNT, HEARTH_STKERR]; omega)) rfl rfl
  · exact u.tended_refl

theorem State.tended_moved (u : State) (crm : Bool) (a n : Nat) : u.tended (u.moved crm a n) :=
  State.tended_foldl _ _ (State.tended_movedAt crm) u

/-- Data moved queues no write-back. -/
theorem State.wb_moved (u : State) (crm : Bool) (a n : Nat) : (u.moved crm a n).wb = u.wb := by
  have h : ∀ (s : State) p, (State.movedAt crm s p).wb = s.wb := fun s p => by
    unfold State.movedAt
    split
    case h_6 => rfl
    all_goals exact State.add_wb _ _ _
  unfold State.moved
  generalize segs a n = l
  induction l generalizing u with
  | nil => rfl
  | cons p r ih => exact (ih _).trans (h u p)

theorem State.tended_eventIrq (u : State) (irq code sev src p0 p1 p2 : Nat) (h : irq < 256) :
    u.tended (u.eventIrq irq code sev src p0 p1 p2) := by
  have ho := u.only_eventIrq irq code sev src p0 p1 p2 h []
  generalize u.eventIrq irq code sev src p0 p1 p2 = v at ho
  obtain ⟨hregs, -, hrest⟩ := ho
  refine ⟨⟨by rw [hrest], by rw [hrest], fun k => State.get_of_rd (hregs _ (by simp) ?_)⟩, by rw [hrest], by rw [hrest]⟩
  unfold logAddr
  simp only [HEARTH_STKERR, BELLOWS_ERRSUM, BELLOWS_PDSTAT3, MGMT_STAT, Bool.or_eq_false_iff, beq_eq_false_iff_ne]
  omega

theorem State.tended_memUe (u : State) (consumer key : Nat) (loc : Word) : u.tended (u.memUe consumer key loc) := by
  unfold State.memUe
  extract_lets h
  exact State.tended_trans (State.tended_put _ HAMMER_ERRSUM_MEMUE 1 (fun k => .inr (by decide)) ⟨by decide, by decide⟩)
    (State.tended_eventIrq _ _ _ _ _ _ _ _ (errHome_irq key))

theorem State.tended_noteUe (u : State) (k span n : Nat) : u.tended (u.noteUe k span n).2 := ⟨⟨rfl, rfl, fun _ => rfl⟩, rfl, rfl⟩

theorem State.tended_fenceReq (u : State) (l : List (Nat × Nat)) : u.tended { u with fenceReq := l } := ⟨⟨rfl, rfl, fun _ => rfl⟩, rfl, rfl⟩

theorem State.tended_holds (u : State) (l : List (Nat × Nat)) : u.tended { u with holds := l } := ⟨⟨rfl, rfl, fun _ => rfl⟩, rfl, rfl⟩

theorem State.tended_reportUe (u : State) (consumer key : Nat) : u.tended (u.reportUe consumer key) := by
  obtain ⟨⟨hb, hl⟩, -⟩ := errHome_beside key
  unfold State.reportUe
  extract_lets s stack
  have h : u.tended s := State.tended_trans (u.tended_put _ _ hb hl) (State.tended_memUe _ _ _ _)
  clear_value s
  have hs : ∀ k, u.tended (stack k) := by
    intro k
    unfold stack
    have hn : u.tended (s.noteUe (1000 + k) sec 64).2 := State.tended_trans h (s.tended_noteUe _ _ _)
    split
    rename_i due v heq
    rw [heq] at hn
    split
    · exact State.tended_trans hn (v.tended_fenceReq _)
    · exact hn
  split
  · next g _ _ =>
    have hn : u.tended (s.noteUe g (3600 * sec) 4).2 := State.tended_trans h (s.tended_noteUe _ _ _)
    split
    rename_i due v heq
    rw [heq] at hn
    split
    · exact State.tended_trans hn (v.tended_holds _)
    · exact hn
  · exact hs _
  · exact hs _
  · exact h

/-! ### Bits that flip -/

theorem State.patrolKept_foldl {α : Type} (f : State → α → State) (l : List α) (h : ∀ s x, State.patrolKept s (f s x)) (s : State) :
    s.patrolKept (l.foldl f s) := by
  induction l generalizing s with
  | nil => exact s.patrolKept_refl
  | cons x r ih => exact State.patrolKept_trans (h s x) (ih _)

theorem State.tended_fresh (u : State) (n : Nat) : u.tended (u.fresh n).2 := ⟨⟨rfl, rfl, fun _ => rfl⟩, rfl, rfl⟩

/-- The decoder's verdict uses up free values at most. -/
theorem State.tended_judge (u : State) (key m : Nat) : u.tended (u.judge key m).2 := by
  unfold State.judge
  split
  · extract_lets data addr
    split
    · exact u.tended_refl
    · split
      · exact u.tended_refl
      · exact u.tended_fresh 2
  · split
    · exact u.tended_refl
    · exact u.tended_refl
    · exact u.tended_refl
    · exact u.tended_fresh 3

theorem State.tended_wrongFix (u : State) (key : Nat) : u.tended (u.wrongFix key).2 := by
  unfold State.wrongFix
  split
  · exact State.tended_trans (u.tended_fresh 34) (State.tended_fresh _ 255)
  · exact u.tended_fresh 72

theorem State.patrolKept_clearErrs (u : State) (a n : Nat) : u.patrolKept (u.clearErrs a n) := ⟨rfl, rfl, fun _ => rfl⟩

theorem State.patrolKept_setByte (u : State) (a : Nat) (b : Byte) : u.patrolKept (u.setByte a b) := ⟨rfl, rfl, fun _ => rfl⟩

theorem State.patrolKept_setBytes (u : State) (a : Nat) (l : List Byte) : u.patrolKept (u.setBytes a l) := by
  induction l generalizing u a with
  | nil => exact u.patrolKept_refl
  | cons b r ih => exact State.patrolKept_trans (u.patrolKept_setByte a b) (ih _ _)

theorem State.patrolKept_setCtx (u : State) (k : Nat) (c : Ctx) : u.patrolKept (u.setCtx k c) := ⟨rfl, rfl, fun _ => rfl⟩

theorem State.patrolKept_flipBytes (u : State) (key m : Nat) : u.patrolKept (u.flipBytes key m) := by
  unfold State.flipBytes State.tongsWrite
  extract_lets n
  split
  · refine State.patrolKept_trans (State.patrolKept_foldl _ _ (fun s i => ?_) u) (State.patrolKept_clearErrs _ _ _)
    split
    · exact s.patrolKept_setCtx _ _
    · exact s.patrolKept_refl
  · exact State.patrolKept_trans (u.patrolKept_setBytes _ _) (State.patrolKept_clearErrs _ _ _)

theorem State.patrolKept_errs (u : State) (l : Tab Nat) : u.patrolKept { u with errs := l } := ⟨rfl, rfl, fun _ => rfl⟩

theorem State.patrolKept_upset (u : State) (key flips : Nat) : u.patrolKept (u.upset key flips) := by
  unfold State.upset
  extract_lets old m store
  have hj := u.tended_judge key m
  have hs : ∀ (s : State) (e : Nat), s.patrolKept (store s e) := fun s e => s.patrolKept_errs _
  split
  · next s heq =>
    rw [heq] at hj
    exact State.patrolKept_trans hj.1 (hs s 0)
  · next s heq =>
    rw [heq] at hj
    have hw := s.tended_wrongFix key
    split
    next f w hf =>
    rw [hf] at hw
    exact State.patrolKept_trans hj.1 (State.patrolKept_trans hw.1 (State.patrolKept_trans (w.patrolKept_flipBytes _ _) (hs _ _)))
  · next s heq =>
    rw [heq] at hj
    exact State.patrolKept_trans hj.1 (s.patrolKept_flipBytes _ _)
  · next c s _ _ _ heq =>
    rw [heq] at hj
    exact State.patrolKept_trans hj.1 (hs s _)

/-- The symbols that flipped bits hit, data and check symbols first, then those of the address. -/
theorem symHits_split (m : Nat) : (List.range 38).filter (symHit m) =
    (List.range 34).filter (symHit m) ++ ((List.range 4).filter (fun j => symHit m (34 + j))).map (34 + ·) := by
  rw [show List.range 38 = List.range 34 ++ (List.range 4).map (34 + ·) from rfl, List.filter_append, List.filter_map]
  rfl

/-- One symbol hit is corrected where it carries data or check bits, and uncorrectable where it is of the address (R267). -/
theorem State.judge_one (u : State) {key m j : Nat} (hk : key < 0x200000000000) (h : (List.range 38).filter (symHit m) = [j]) :
    u.judge key m = (if j < 34 then 1 else 2, u) := by
  have hs := symHits_split m
  rw [h] at hs
  unfold State.judge
  rw [if_pos hk]
  extract_lets data addr
  generalize hd : (List.range 34).filter (symHit m) = dl at hs
  generalize ha : (List.range 4).filter (fun i => symHit m (34 + i)) = al at hs
  have hdl : data = dl.length := congrArg List.length hd
  have hal : addr = al.length := congrArg List.length ha
  have hlt : ∀ x ∈ dl, x < 34 := fun x hx => List.mem_range.mp (List.mem_of_mem_filter (hd ▸ hx))
  rw [hdl, hal]
  rcases dl with _ | ⟨x, r⟩
  · rcases al with _ | ⟨y, _ | ⟨z, r⟩⟩
    · simp at hs
    · have hj : j = 34 + y := by simpa using hs
      rw [if_neg (by simp), if_pos (by simp), if_neg (by simp), if_neg (by omega)]
    · simp at hs
  · obtain ⟨hj, hr⟩ : j = x ∧ [] = r ++ al.map (34 + ·) := by simpa using hs
    obtain ⟨rfl, hal0⟩ := List.append_eq_nil_iff.mp hr.symm
    have hal1 : al = [] := List.map_eq_nil_iff.mp hal0
    have := hlt x (by simp)
    rw [hal1, if_neg (by simp), if_pos (by simp), if_pos (by simp), if_pos (by omega)]

/-- Where nothing was wrong before, one symbol hit is stored as the error it is, and changes no byte. -/
theorem State.upset_one (u : State) {key m j : Nat} (he : u.errs = []) (hk : key < 0x200000000000)
    (h : (List.range 38).filter (symHit m) = [j]) : (u.upset key m).mem = u.mem ∧
    errClass (Tab.get errDefault (u.upset key m).errs key) = if j < 34 then 1 else 2 := by
  unfold State.upset
  extract_lets old m' store
  have hm : m' = m := by
    unfold m' old
    rw [he]
    exact (congrArg (Nat.xor · m) (Nat.zero_div 4)).trans (Nat.zero_xor m)
  have hj := u.judge_one hk h
  rw [hm]
  have hs : ∀ (c : Nat), c < 4 → (store u (c + 4 * m)).mem = u.mem ∧ errClass (Tab.get errDefault (store u (c + 4 * m)).errs key) = c := by
    intro c hc
    refine ⟨rfl, ?_⟩
    have hst : (store u (c + 4 * m)).errs = Tab.set errDefault u.errs key (c + 4 * m) := rfl
    rw [hst, Tab.get_set_self]
    unfold errClass
    omega
  rw [hj]
  by_cases hlt : j < 34
  · simp only [if_pos hlt]
    exact hs 1 (by decide)
  · simp only [if_neg hlt]
    exact hs 2 (by decide)

/-- Where a symbol is hit, something flipped. -/
theorem flips_of_hit {m j : Nat} (h : (List.range 38).filter (symHit m) = [j]) : m ≠ 0 := by
  rintro rfl
  have h0 : symHit 0 = fun _ => false := funext (fun i => List.any_eq_false.mpr (fun x _ => by simp [bit]))
  rw [h0] at h
  simp at h

end Sys2Proof.Machine
end

