-- ==== Sys2Proof/Proofs/FenceWrite.lean ====
section
/-! MemoryCare (O25), the write of a stack's status: it asks for the fence and stores nothing. -/

namespace Sys2Proof.Machine

/-! ### A fence asked for by a write -/

/-- The fields of a stack's status: `FENCE` is written, the others are read. -/
def stkstatFields : List FieldSpec := [⟨7, 7, .wo, 0, 1, 0, .link⟩, ⟨6, 6, .ro, 0, 1, 0, .any⟩, ⟨5, 5, .ro, 0, 1, 0, .any⟩,
  ⟨4, 2, .ro, 0, 7, 0, .any⟩, ⟨1, 0, .ro, 0, 3, 0, .any⟩]

/-- The register array that the stacks' status words are of. -/
def stkstatSpec : RegSpec := ⟨52776574910728, 1048576, 10, 8, 2, 8, 1, stkstatFields⟩

theorem findReg_stkstat : ∀ k < 20, findReg (HEARTH_STKSTAT k) = some stkstatSpec := by decide +kernel

/-- A write of the status stores nothing: no field of it is kept by a write. -/
theorem stkstat_unwritten (lock : Bool) (old w : Word) : stkstatFields.foldl (fun new f => f.write lock old w new) old = old := rfl

/-- The word a write acts with has the bit of `FENCE` as written. -/
theorem stkstat_actWord (w new : Word) : (actWord stkstatFields w new).getLsbD 7 = w.getLsbD 7 := by
  have h : actWord stkstatFields w new = setBits new 7 7 (bitsOf w.toNat 7 7) := rfl
  rw [h, ← BitVec.testBit_toNat, testBit_setBits _ _ _ _ _ le_rfl (by decide), testBit_bitsOf, ← BitVec.testBit_toNat]
  simp

section
variable {a : Nat} (h1 : 0x300001000000 ≤ a) (h2 : a < 0x300002000000)
include h1 h2

/-- A register of Hearth, Anvil or Crucible belongs to no row of a table that lies elsewhere. -/
theorem nth_hearth {base stride n : Nat} (hs : 0 < stride) (h : base + stride * n ≤ 0x300001000000 ∨ 0x300002000000 ≤ base) :
    nth base stride n a = none := by
  unfold nth
  refine if_neg (fun ⟨hb, _, hn⟩ => ?_)
  have := (Nat.div_lt_iff_lt_mul hs).mp hn
  rw [Nat.mul_comm] at this
  omega

theorem csrHook_hearth (u : State) (old w : Word) : u.csrHook a old w = u.mainHook a old w := by
  unfold State.csrHook
  split
  case h_7 => exact if_pos (by unfold mainWindow; simp; omega)
  all_goals omega

theorem crossBounds_hearth (old new : Word) : crossBounds a old new = new := by
  unfold crossBounds
  rw [nth_hearth h1 h2 (by decide) (by decide), nth_hearth h1 h2 (by decide) (by decide)]
  dsimp only
  rw [if_neg, if_neg, if_neg] <;> simp only [TONGS_RETX, CANFD_NBT, CANFD_DBT] <;> omega

theorem capIndex_hearth : capIndex a = none := by
  unfold capIndex
  rw [if_neg, if_neg, if_neg, if_neg, if_neg] <;>
    simp only [TEMPER_CAP_FACILITY, TEMPER_CAP_HOST, TEMPER_CAP_THERMAL, TEMPER_CAP_FLOW, TEMPER_CAP_SUPPLY] <;> omega

theorem quenchDenies_hearth (u : State) (old w : Word) : u.quenchDenies a old w = false := by
  unfold State.quenchDenies
  rw [nth_hearth h1 h2 (by decide) (by decide), nth_hearth h1 h2 (by decide) (by decide), nth_hearth h1 h2 (by decide) (by decide),
    nth_hearth h1 h2 (by decide) (by decide), nth_hearth h1 h2 (by decide) (by decide)]

/-- A write of such a register that stores `new` and acts with `x`. -/
theorem csrDone_hearth (u : State) (r : RegSpec) (old w : Word) : u.csrDone r a old w =
    (u.wr a (r.fields.foldl (fun new f => f.write u.locked old w new) old)).mainHook a old
      (actWord r.fields w (r.fields.foldl (fun new f => f.write u.locked old w new) old)) := by
  have hp : u.pendingBuf a = false := by
    unfold State.pendingBuf CANFD_BCFG
    exact if_neg (by omega)
  unfold State.csrDone
  rw [nth_hearth h1 h2 (by decide) (by decide), nth_hearth h1 h2 (by decide) (by decide), hp]
  dsimp only
  rw [if_neg (by decide), crossBounds_hearth h1 h2, csrHook_hearth h1 h2]

/-- A write of such a register, admitted. -/
theorem regWrite_hearth (u : State) (p : Path) (w : Word) {r : RegSpec} (hr : findReg a = some r) (h8 : a % 8 = 0) (hon : u.csrOn a = true)
    (ha : r.fields.any (fun f => f.acts (u.rd a) w && !f.own.admits p a) = false) :
    u.regWrite p a w = (true, u.csrDone r a (u.rd a) w) := by
  have hro : readOnlyBits a (u.rd a) w = w := by
    unfold readOnlyBits
    rw [nth_hearth h1 h2 (by decide) (by decide)]
  unfold State.regWrite
  rw [hr]
  dsimp only
  rw [if_neg (by simp [h8, hon]), capIndex_hearth h1 h2]
  dsimp only
  rw [hro, if_neg (by rw [ha]; decide), quenchDenies_hearth h1 h2, Bool.and_false, if_neg (by decide : ¬ false = true),
    nth_hearth h1 h2 (by decide) (by decide)]

end

/-- The action of a write of `FENCE`: the stack's fence is asked for, with cause 4. -/
theorem mainHook_fence (u : State) {k : Nat} (hk : k < 20) (old w : Word) (hw : w.getLsbD 7 = true) :
    u.mainHook (HEARTH_STKSTAT k) old w = { u with fenceReq := u.fenceReq ++ [(k, 4)] } := by
  have h1 : 0x300001000000 ≤ HEARTH_STKSTAT k := by simp only [HEARTH_STKSTAT]; omega
  have h2 : HEARTH_STKSTAT k < 0x300002000000 := by simp only [HEARTH_STKSTAT]; omega
  unfold State.mainHook
  rw [if_neg (by simp only [HEARTH_STKSTAT, TONGS_SCFG]; omega), if_neg (by simp only [HEARTH_STKSTAT, HAMMER_SNAPCTL]; omega),
    if_neg (by simp only [HEARTH_STKSTAT, HAMMER_TRCTL]; omega), nth_hearth h1 h2 (by decide) (by decide)]
  dsimp only
  have hh : (HEARTH_STKSTAT k - 0x300001000000) / 0x100000 = k / 2 := by simp only [HEARTH_STKSTAT]; omega
  rw [if_neg (by rw [hw]; simp; omega), hh]
  rcases Nat.mod_two_eq_zero_or_one k with h | h
  · rw [show 2 * (k / 2) = k by omega, if_pos rfl]
  · rw [show 2 * (k / 2) + 1 = k by omega, if_neg (by simp only [HEARTH_STKSTAT]; omega), if_pos rfl]

theorem csrOn_stkstat (u : State) {k : Nat} (hk : k < 20) (hon : u.domOn (160 + k / 2) = true) : u.csrOn (HEARTH_STKSTAT k) = true := by
  have h1 : 0x300001000000 ≤ HEARTH_STKSTAT k := by simp only [HEARTH_STKSTAT]; omega
  have h2 : HEARTH_STKSTAT k < 0x300002000000 := by simp only [HEARTH_STKSTAT]; omega
  unfold State.csrOn
  rw [if_pos (by unfold mainWindow; simp; omega), if_neg (by omega)]
  dsimp only
  rw [if_pos (by simp only [HEARTH_STKSTAT]; omega), show (HEARTH_STKSTAT k - 0x300001000000) / 0x100000 = k / 2 by
    simp only [HEARTH_STKSTAT]; omega, hon]

/-- The board link and firmware may write the status. -/
theorem stkstat_owned (old w : Word) (a : Nat) {p : Path} (hp : p = .rm ∨ p = .fw) :
    stkstatFields.any (fun f => f.acts old w && !f.own.admits p a) = false := by
  rcases hp with rfl | rfl <;> simp [stkstatFields, Owner.admits]

/-- A write of `FENCE` over the board link or by firmware asks for the fence of the stack and does nothing else. -/
theorem regWrite_fence (u : State) {p : Path} {k : Nat} (w : Word) (hk : k < 20) (hp : p = .rm ∨ p = .fw)
    (hon : u.domOn (160 + k / 2) = true) (hw : w.getLsbD 7 = true) :
    (u.regWrite p (HEARTH_STKSTAT k) w).2 =
      { u.wr (HEARTH_STKSTAT k) (u.rd (HEARTH_STKSTAT k)) with fenceReq := u.fenceReq ++ [(k, 4)] } := by
  have h1 : 0x300001000000 ≤ HEARTH_STKSTAT k := by simp only [HEARTH_STKSTAT]; omega
  have h2 : HEARTH_STKSTAT k < 0x300002000000 := by simp only [HEARTH_STKSTAT]; omega
  have hown : stkstatSpec.fields.any (fun f => f.acts (u.rd (HEARTH_STKSTAT k)) w && !f.own.admits p (HEARTH_STKSTAT k)) = false :=
    stkstat_owned _ w _ hp
  rw [regWrite_hearth h1 h2 u p w (findReg_stkstat k hk) (by simp only [HEARTH_STKSTAT]; omega) (csrOn_stkstat u hk hon) hown]
  dsimp only
  rw [csrDone_hearth h1 h2, show stkstatSpec.fields = stkstatFields from rfl, stkstat_unwritten,
    mainHook_fence _ hk _ _ ((stkstat_actWord w _).trans hw), State.wr_fenceReq]

end Sys2Proof.Machine
end

