-- ==== Sys2Proof/Proofs/MemoryCare.lean ====
section
/-! MemoryCare (O25), put together from its five clauses. -/

namespace Sys2Proof.Machine

/-! ### The five clauses -/

/-- Write-back (R269): the unit no longer waits, its correctable error is gone, and no byte changed. -/
theorem writeBack_runs (s : State) (unit : Nat) (h : s.wb.contains unit = true) : s.runs (.writeBack unit) (fun v =>
    v.wb.contains unit = false ∧ v.mem = s.mem ∧ v.hammer = s.hammer ∧
    (∀ k, k ≠ unit → Tab.get errDefault v.errs k = Tab.get errDefault s.errs k) ∧
    (errClass (Tab.get errDefault s.errs unit) = 1 → Tab.get errDefault v.errs unit = 0)) := by
  have hgone : (s.wb.filter (· != unit)).contains unit = false := by simp
  have hex : exec (.writeBack unit) s = execWriteBack unit s := rfl
  unfold State.runs
  rw [hex]
  unfold execWriteBack
  rw [if_neg (by rw [h]; decide)]
  refine ⟨_, rfl, ?_⟩
  dsimp only
  split
  · next he =>
    have ht := State.tended_moved { s with wb := s.wb.filter (· != unit), errs := Tab.erase s.errs unit } true unit (unitLen unit)
    have hw := State.wb_moved { s with wb := s.wb.filter (· != unit), errs := Tab.erase s.errs unit } true unit (unitLen unit)
    refine ⟨by rw [hw]; exact hgone, ht.mem, ht.hammer, fun k hk => ?_, fun _ => ?_⟩
    · rw [ht.errs]
      exact Tab.get_erase_ne _ _ hk
    · rw [ht.errs]
      exact Tab.get_erase_self _ _ _
  · next he => exact ⟨hgone, rfl, rfl, fun _ _ => rfl, fun h1 => absurd h1 he⟩

/-- A physical address of HBM lies below the stores. -/
theorem unitOf_phys_hbm {addr k off : Nat} (h : region addr = .hbm k off) : unitOf (phys addr) < 0x200000000000 := by
  have hlt : phys addr < 0x200000000000 := by
    unfold phys interleave
    split
    · dsimp only
      omega
    · unfold region at h
      dsimp only at h
      split_ifs at h <;> simp at h <;> omega
  unfold unitOf
  rw [if_pos hlt]
  omega

/-- The retries that a patrol counts (R253). -/
theorem State.patrol_retries (u : State) (k n : Nat) :
    (u.add (HEARTH_STKERR_LINKRTY k) n).get (HEARTH_STKERR_LINKRTY k) = min (u.get (HEARTH_STKERR_LINKRTY k) + n) (2 ^ 16 - 1) := by
  unfold State.add
  rw [State.get_put_self _ _ _ (show 48 ≤ 63 by decide) (show 63 < 64 by decide)]
  exact Nat.mod_eq_of_lt (lt_of_le_of_lt (Nat.min_le_right _ _) (show 2 ^ 16 - 1 < 2 ^ 16 by decide))

/-- No unit with an error is met where there is none. -/
theorem State.errUnits_nil (u : State) (h : u.errs = []) (kind a n : Nat) : u.errUnits kind a n = [] := by
  unfold State.errUnits
  rw [h]
  simp

/-- What a patrol has done where it begins to read: the retries counted, the flips and the transit failure taken up. -/
def State.befallen (s : State) (k unit : Nat) (found : Upset) : State :=
  let s := s.add (HEARTH_STKERR_LINKRTY k) (min found.rty 4)
  let s := if found.flips = 0 then s else s.upset unit found.flips
  if found.transit && !s.transit.contains unit then { s with transit := s.transit ++ [unit] } else s

/-- A patrol of a range of HBM. -/
theorem exec_patrol_hbm {s : State} {addr len t k off : Nat} (found : Upset) (hr : region addr = .hbm k off) (hf : s.fenced k = false)
    (hh : s.get (HEARTH_SCRUB_HOURS (k / 2)) ≠ 0) (ha : addr < 2 ^ 60) : exec (.patrol addr len found t) s =
      .next ((((s.at t).befallen k (unitOf (phys addr)) found).errUnits 2 addr len).foldl (fun s k => s.reportUe 10 k)
        ((((s.at t).befallen k (unitOf (phys addr)) found).correctRange addr len).moved true addr len)) := by
  have hex : exec (.patrol addr len found t) s = execPatrol addr len found t s := rfl
  have hfa : (s.at t).fenced k = false := by
    unfold State.fenced State.on at hf ⊢
    rw [State.get_at]
    exact hf
  rw [hex]
  unfold execPatrol
  rw [hr]
  extract_lets s0 stack u s1 s2 s3 ues s4
  rw [if_neg, if_neg (by omega)]
  · have h3 : s3 = s0.befallen k u found := by
      unfold s3 s2 s1 stack State.befallen
      rfl
    show Host.Outcome.next (ues.foldl (fun s k => s.reportUe 10 k) s4) = _
    unfold ues s4
    rw [h3]
  · simp [stack, s0, hfa, State.get_at, hh]

/-- What befalls a unit without errors in the stacks. -/
theorem State.befallen_facts (s : State) (k unit : Nat) (found : Upset) (he : s.errs = []) :
    let w := s.befallen k unit found
    w.hammer = s.hammer ∧ w.get (HEARTH_STKERR_LINKRTY k) = min (s.get (HEARTH_STKERR_LINKRTY k) + min found.rty 4) (2 ^ 16 - 1) ∧
    (found.transit = true → unit ∈ w.transit) ∧ (found.transit = false → w.transit = s.transit) ∧
    (found.flips = 0 → w.errs = [] ∧ w.wb = s.wb ∧ w.mem = s.mem) ∧
    (∀ j, unit < 0x200000000000 → (List.range 38).filter (symHit found.flips) = [j] → w.mem = s.mem ∧
      errClass (Tab.get errDefault w.errs unit) = if j < 34 then 1 else 2) := by
  unfold State.befallen
  extract_lets s1 s2 w
  have hret1 : s1.get (HEARTH_STKERR_LINKRTY k) = _ := s.patrol_retries k (min found.rty 4)
  obtain ⟨hh1, ht1, he1, hw1, hm1⟩ : s1.hammer = s.hammer ∧ s1.transit = s.transit ∧ s1.errs = [] ∧ s1.wb = s.wb ∧ s1.mem = s.mem :=
    ⟨s.add_hammer _ _, s.add_transit _ _, (s.add_errs _ _).trans he, s.add_wb _ _, s.add_mem _ _⟩
  clear_value s1
  -- the flips
  have h2 : s1.patrolKept s2 := by
    unfold s2
    split
    · exact s1.patrolKept_refl
    · exact s1.patrolKept_upset _ _
  have hret := (h2.retries k).trans hret1
  have hcalm : found.flips = 0 → s2.errs = [] ∧ s2.wb = s.wb ∧ s2.mem = s.mem := fun h0 => by
    rw [show s2 = s1 from if_pos h0]
    exact ⟨he1, hw1, hm1⟩
  have hone : ∀ j, unit < 0x200000000000 → (List.range 38).filter (symHit found.flips) = [j] → s2.mem = s.mem ∧
      errClass (Tab.get errDefault s2.errs unit) = if j < 34 then 1 else 2 := fun j hu hj => by
    rw [show s2 = s1.upset unit found.flips from if_neg (flips_of_hit hj)]
    rw [← hm1]
    exact s1.upset_one he1 hu hj
  have htr : s2.transit = s.transit := h2.transit.trans ht1
  have hham : s2.hammer = s.hammer := h2.hammer.trans hh1
  -- the transit failure to come
  cases ht : found.transit with
  | false =>
    have hw : w = s2 := by
      unfold w
      rw [ht]
      exact if_neg (by simp)
    rw [hw]
    exact ⟨hham, hret, nofun, fun _ => htr, hcalm, hone⟩
  | true =>
    by_cases hc : s2.transit.contains unit = true
    · have hw : w = s2 := by
        unfold w
        rw [ht, hc]
        exact if_neg (by simp)
      rw [hw]
      exact ⟨hham, hret, fun _ => List.contains_iff_mem.mp hc, nofun, hcalm, hone⟩
    · have hw : w = { s2 with transit := s2.transit ++ [unit] } := by
        unfold w
        rw [ht]
        exact if_pos (by simpa using hc)
      rw [hw]
      exact ⟨hham, hret, fun _ => by simp, nofun, hcalm, hone⟩

/-- Patrol of a range without errors (R253, R264, R267, R273). -/
theorem patrol_runs (s : State) (addr len t : Nat) (found : Upset) (k off : Nat) (hr : region addr = .hbm k off) (he : s.errs = [])
    (hf : s.fenced k = false) (hh : s.get (HEARTH_SCRUB_HOURS (k / 2)) ≠ 0) : s.runs (.patrol addr len found t) (fun v =>
      v.hammer = s.hammer ∧
      v.get (HEARTH_STKERR_LINKRTY k) = min (s.get (HEARTH_STKERR_LINKRTY k) + min found.rty 4) (2 ^ 16 - 1) ∧
      (found.transit = true → unitOf (phys addr) ∈ v.transit) ∧ (found.transit = false → v.transit = s.transit) ∧
      (found.flips = 0 → v.errs = [] ∧ v.wb = s.wb ∧ v.mem = s.mem) ∧
      (∀ j, (List.range 38).filter (symHit found.flips) = [j] → v.mem = s.mem ∧
        errClass (Tab.get errDefault v.errs (unitOf (phys addr))) = if j < 34 then 1 else 2)) := by
  have ha : addr < 2 ^ 60 := by
    unfold region at hr
    dsimp only at hr
    split_ifs at hr <;> simp at hr <;> omega
  obtain ⟨m, c, hat⟩ := s.at_eq t
  obtain ⟨h1, h2, h3, h4, h5, h6⟩ := (s.at t).befallen_facts k (unitOf (phys addr)) found (by rw [hat]; exact he)
  rw [s.get_at] at h2
  rw [s.hammer_at] at h1
  rw [show (s.at t).transit = s.transit by rw [hat]] at h4
  rw [s.mem_at, show (s.at t).wb = s.wb by rw [hat]] at h5
  rw [s.mem_at] at h6
  refine ⟨_, exec_patrol_hbm found hr hf hh ha, ?_⟩
  generalize (s.at t).befallen k (unitOf (phys addr)) found = w at *
  have ht : w.tended ((w.errUnits 2 addr len).foldl (fun s k => s.reportUe 10 k) ((w.correctRange addr len).moved true addr len)) :=
    State.tended_trans (w.tended_correctRange _ _) (State.tended_trans (State.tended_moved _ _ _ _)
      (State.tended_foldl _ _ (fun s k => s.tended_reportUe _ _) _))
  refine ⟨ht.hammer.trans h1, (ht.retries k).trans h2, fun h => ht.transit ▸ h3 h, fun h => ht.transit.trans (h4 h), fun h => ?_, fun j hj => ?_⟩
  · obtain ⟨hx, hw, hm⟩ := h5 h
    refine ⟨ht.errs.trans hx, ?_, ht.mem.trans hm⟩
    unfold State.correctRange
    rw [w.errUnits_nil hx, w.errUnits_nil hx]
    exact (State.wb_moved w _ _ _).trans hw
  · obtain ⟨hm, hx⟩ := h6 j (unitOf_phys_hbm hr) hj
    exact ⟨ht.mem.trans hm, by rw [ht.errs]; exact hx⟩

/-- A fence that is due withdraws its stack (R276, R277, R323); one after failed attempts counts their retries first (R253). -/
theorem exec_stackFence {s : State} {stk cause t : Nat} (hk : stk < 20) (hc : cause ∈ [1, 2, 5]) (hf : s.fenced stk = false) :
    exec (.stackFence stk cause t) s =
      .next ((if cause = 2 then (s.at t).add (HEARTH_STKERR_LINKRTY stk) 4 else s.at t).fenceStack stk cause) := by
  have hex : exec (.stackFence stk cause t) s = execStackFence stk cause t s := rfl
  have hfa : (s.at t).fenced stk = false := by
    unfold State.fenced State.on at hf ⊢
    rw [State.get_at]
    exact hf
  rw [hex]
  unfold execStackFence
  extract_lets u
  rw [if_neg (by omega)]
  have hu : u.fenced stk = false := hfa
  rw [show s.at t = u from rfl]
  clear_value u
  obtain rfl | rfl | rfl : cause = 1 ∨ cause = 2 ∨ cause = 5 := by simpa using hc
  · exact congrArg (fun x : State => Host.Outcome.next (x.fenceStack stk 1)) (if_neg (show ¬ 1 = 2 by decide)).symm
  · rw [if_pos rfl]
    exact congrArg Host.Outcome.next (if_neg (by rw [hu]; simp))
  · exact congrArg (fun x : State => Host.Outcome.next (x.fenceStack stk 5)) (if_neg (show ¬ 5 = 2 by decide)).symm

/-- The registers of a fence do not hold another stack's status. -/
theorem stkstat_other {k m : Nat} (hm : m < 20) (h : m ≠ k) : HEARTH_STKSTAT m ∉ fenceRegs k ∧ HEARTH_STKSTAT m ≠ HEARTH_STKSTAT k := by
  refine ⟨?_, by simp only [HEARTH_STKSTAT]; omega⟩
  unfold fenceRegs frontRegs crucRegs crucCsr
  simp only [HEARTH_STKSTAT, Set.mem_union, Set.mem_ofPred_eq]
  omega

theorem stackFence_runs (s : State) (stk cause t : Nat) (hk : stk < 20) (hc : cause ∈ [1, 2, 5]) (hf : s.fenced stk = false) :
    s.runs (.stackFence stk cause t) (fun v =>
      v.fenced stk = true ∧ v.get (HEARTH_STKSTAT_FCAUSE stk) = cause ∧ v.cruc stk = Cruc.reset ∧ v.domOn (170 + stk) = false ∧
      v.get (CRUC_QSTAT_OFF stk) = 1 ∧ (∀ m, m < 20 → m ≠ stk → v.fenced m = s.fenced m) ∧ v.anvils = s.anvils ∧
      ∀ a, v.byte a = s.byte a) := by
  refine ⟨_, exec_stackFence hk hc hf, ?_⟩
  -- where the fence begins, the stacks' status, the memory and the Anvils are as they were
  have hu : ∀ u : State, u = (if cause = 2 then (s.at t).add (HEARTH_STKERR_LINKRTY stk) 4 else s.at t) →
      (∀ m, u.fenced m = s.fenced m) ∧ u.anvils = s.anvils ∧ u.mem = s.mem := by
    rintro u rfl
    have hat : ∀ m, (s.at t).fenced m = s.fenced m := fun m => congrArg (· == 1) (s.get_at t _)
    split
    · refine ⟨fun m => ?_, (State.add_anvils _ _ _).trans (s.anvils_at t),
        (State.add_mem _ _ _).trans (s.mem_at t)⟩
      refine Eq.trans ?_ (hat m)
      unfold State.fenced State.on State.add
      rw [State.get_put_ne _ _ _ _ (by simp only [HEARTH_STKSTAT, HEARTH_STKERR]; omega)]
    · exact ⟨hat, s.anvils_at t, s.mem_at t⟩
  generalize (if cause = 2 then (s.at t).add (HEARTH_STKERR_LINKRTY stk) 4 else s.at t) = u at hu
  obtain ⟨hfen, hanv, hmem⟩ := hu u rfl
  have h := State.fencedTo_fenceStack hk ((hfen stk).trans hf)
    (show cause < 8 by simp only [List.mem_cons, List.not_mem_nil, or_false] at hc; omega)
  have hrest := h.rest
  unfold State.withdraws at hrest
  refine ⟨h.fenced, h.fcause, h.cruc, ?_, h.off, fun m hm hne => ?_, ?_, fun a => ?_⟩
  · rw [h.doms _ (by omega), if_pos rfl]
  · obtain ⟨h1, h2⟩ := stkstat_other hm hne
    obtain ⟨-, h3, h4⟩ := stkstat_apart hm
    refine Eq.trans ?_ (hfen m)
    exact congrArg (· == 1) (State.get_of_rd (h.regs _ h1 h2 h4 h3))
  · rw [hrest]
    exact hanv
  · unfold State.byte
    rw [hrest]
    dsimp only
    rw [hmem]

/-- A write of `STKSTAT.FENCE` asks for the fence (R278). -/
theorem fence_runs (s : State) (p : Path) (stk t : Nat) (w : Word) (hk : stk < 20) (hw : w.getLsbD 7 = true)
    (hup : (s.at t).pathUp p = true) (hon : s.domOn 192 = true) (hdom : s.domOn (160 + stk / 2) = true) (hp : p = .rm ∨ p = .fw) :
    s.runs (.fence p stk w t) (fun v => v.fenceReq = s.fenceReq ++ [(stk, 4)] ∧ v.mem = s.mem ∧ v.hammer = s.hammer ∧
      v.crucs = s.crucs) := by
  have hex : exec (.fence p stk w t) s = .next ((s.at t).regWrite p (HEARTH_STKSTAT stk) w).2 := by
    rw [show exec (.fence p stk w t) s = execFence p stk w t s from rfl]
    unfold execFence State.rowWrite
    exact if_neg (by simp [hk, hw, hup, State.domOn_at, hon])
  refine ⟨_, hex, ?_⟩
  rw [regWrite_fence _ w hk hp ((s.domOn_at t _).trans hdom) hw]
  obtain ⟨m, c, hat⟩ := s.at_eq t
  rw [State.wr_mem, State.wr_hammer, State.wr_crucs, hat]
  exact ⟨rfl, rfl, rfl, rfl⟩

/-- A hold that is due takes its Anvil out (R275). -/
theorem anvilHold_runs (s : State) (g reason t : Nat) (hg : g < 160) (ha : s.hammer.avail.getLsbD g = true) (hr : s.hammer.run = none)
    (hh : s.holds.find? (fun p => p.1 == g) = some (g, reason)) : s.runs (.anvilHoldEffect g t) (fun v =>
      v.hammer.avail.getLsbD g = false ∧ (∀ k, k ≠ g → v.hammer.avail.getLsbD k = s.hammer.avail.getLsbD k) ∧
      v.anvil g = Anvil.entry ∧ (∀ k, k ≠ g → v.anvil k = s.anvil k) ∧ v.domOn g = false ∧ (∀ p ∈ v.holds, p.1 ≠ g) ∧
      (∀ a, v.byte a = if anvilBase g ≤ phys a ∧ phys a < anvilBase g + 0x200000 then 0 else s.byte a) ∧ s.recorded v 0x0202) := by
  obtain ⟨m, c, hat⟩ := s.at_eq t
  have hex : exec (.anvilHoldEffect g t) s = .next ((s.at t).holdAnvil g reason) := by
    have hb : (s.at t).atBoundary = true := by
      unfold State.atBoundary
      rw [s.hammer_at, hr]
      rfl
    rw [show exec (.anvilHoldEffect g t) s = execAnvilHoldEffect g t s from rfl]
    unfold execAnvilHoldEffect
    dsimp only
    rw [if_neg (by simp [s.hammer_at, ha, hb]; omega), show (s.at t).holds = s.holds by rw [hat], hh]
  refine ⟨_, hex, ?_⟩
  have h := (s.at t).heldTo_holdAnvil reason hg (by rw [s.hammer_at]; exact hr)
  have hanv : ∀ k, (s.at t).anvil k = s.anvil k := fun k => by rw [hat]; rfl
  have hbyte : ∀ a, (s.at t).byte a = s.byte a := fun a => by rw [hat]; rfl
  refine ⟨?_, fun k hk => ?_, ?_, fun k hk => ?_, ?_, fun p hp => ?_, fun a => ?_, ?_⟩
  · rw [h.avail]
    simp
  · rw [h.avail, s.hammer_at]
    simp [hk]
  · rw [h.anvil, if_pos rfl]
  · rw [h.anvil, if_neg hk, hanv]
  · rw [h.doms _ (by omega), if_pos rfl]
  · rw [h.holds] at hp
    simpa using (List.mem_filter.mp hp).2
  · rw [h.bytes, hbyte]
  · have hrec := h.recorded
    unfold State.recorded at hrec ⊢
    rw [hat] at hrec ⊢
    exact hrec

/-- Settles O25. Where a transit failure met by patrol arms a check to fail later and retries are counted, and which bits a symbol of
the stack code covers, the statement says what the model chose (assumption log 164 and 152). -/
theorem memoryCare : Obligations.MemoryCare := by
  unfold Obligations.MemoryCare
  refine ⟨writeBack_runs, patrol_runs, stackFence_runs, fun s p stk t w hk hw hup hon hdom hh hc => ?_, anvilHold_runs⟩
  refine fence_runs s p stk t w hk hw hup hon hdom ?_
  cases p with
  | host => exact absurd rfl hh
  | rm => exact .inl rfl
  | fw => exact .inr rfl
  | core i => exact absurd rfl (hc i)

end Sys2Proof.Machine
end

