-- ==== Sys2Proof/Proofs/BringUpLimits.lean ====
section
/-! BringUp (O50), the ends of bring-up that are short: cold reset, its last step, and the limits of its steps. -/

namespace Sys2Proof.Machine

/-! ### Cold reset ends -/

/-- VSB12 at 11.0 V for 10 ms on a mated module (R593, R642). -/
theorem coldReset_runs (s : State) (t vsb held : Nat) (ha : s.pwr.alive = false) (hm : s.pwr.mate = true) (hv : 1100 ≤ vsb)
    (hh : 10 * ms ≤ held) : s.runs (.coldReset vsb held t) (fun v =>
      v.pwr = { s.pwr with alive := true, step := 2, stepAt := (s.at t).now, bootAt := (s.at t).now, stop := false
                           pcyc := min (s.pwr.pcyc + 1) (2 ^ 24 - 1) } ∧
      v.get BELLOWS_PWRSTAT_VSB12 = min 65535 vsb ∧ State.only { s.at t with pwr := v.pwr } v [BELLOWS_PWRSTAT]) := by
  have hex : exec (.coldReset vsb held t) s = .next (State.put { s.at t with
      pwr := { (s.at t).pwr with alive := true, step := 2, stepAt := (s.at t).now, bootAt := (s.at t).now, stop := false
                                 pcyc := min ((s.at t).pwr.pcyc + 1) (2 ^ 24 - 1) } } BELLOWS_PWRSTAT_VSB12 (min 65535 vsb)) := by
    rw [show exec (.coldReset vsb held t) s = execColdReset vsb held t s from rfl]
    unfold execColdReset
    extract_lets u w
    refine if_neg ?_
    rw [show u.pwr = s.pwr from s.pwr_at t, ha, hm]
    simp
    omega
  refine ⟨_, hex, ?_, ?_, ?_⟩
  · rw [s.pwr_at]
    rfl
  · rw [State.get_put_self _ _ _ (by decide) (by decide)]
    exact Nat.mod_eq_of_lt (lt_of_le_of_lt (Nat.min_le_left _ _) (by decide))
  · exact State.only_put _ _ _ _ (.inl (by simp))

/-! ### Bring-up runs out of time -/

/-- The registers of the stacks' status. -/
def stkRegs : List Nat := (List.range 20).map HEARTH_STKSTAT

theorem stkRegs_mem {k : Nat} (hk : k < 20) : HEARTH_STKSTAT k ∈ stkRegs := List.mem_map_of_mem (List.mem_range.mpr hk)

/-- A field of the status put in each stack of a list. -/
def State.putStates (u : State) (l : List Nat) (x : Nat) : State := l.foldl (fun s k => s.put (HEARTH_STKSTAT_STATE k) x) u

theorem State.putStates_only (u : State) (l : List Nat) (x : Nat) (hl : ∀ k ∈ l, k < 20) : u.only (u.putStates l x) stkRegs :=
  State.only_foldl _ _ _ (fun _ k hk => State.only_put _ _ _ _ (.inl (stkRegs_mem (hl k hk)))) u

theorem State.putStates_doms (u : State) (l : List Nat) (x : Nat) (hl : ∀ k ∈ l, k < 20) : u.domsKept (u.putStates l x) := by
  unfold State.putStates
  induction l generalizing u with
  | nil => exact u.domsKept_refl
  | cons k r ih =>
    have hk := hl k (by simp)
    exact State.domsKept_trans (State.domsKept_put u (HEARTH_STKSTAT_STATE k) x (.inl (by simp only [HEARTH_STKSTAT, BELLOWS_PDSTAT]; omega)))
      (ih _ (fun i hi => hl i (by simp [hi])))

theorem State.putStates_rest (u : State) (l : List Nat) (x : Nat) : u.putStates l x = { u with csr := (u.putStates l x).csr } := by
  unfold State.putStates
  induction l generalizing u with
  | nil => rfl
  | cons k r ih =>
    have h := ih (u.put (HEARTH_STKSTAT_STATE k) x)
    have hp := u.put_rest (HEARTH_STKSTAT_STATE k) x
    rw [List.foldl_cons]
    generalize r.foldl _ _ = v at h ⊢
    generalize u.put (HEARTH_STKSTAT_STATE k) x = w at h hp
    rw [h, hp]

/-- The state of each stack after one was put in those of a list. -/
theorem State.get_putStates (u : State) (l : List Nat) {x : Nat} (hx : x < 4) (j : Nat) (hl : ∀ k ∈ l, k < 20) (hj : j < 20) :
    (u.putStates l x).get (HEARTH_STKSTAT_STATE j) = if j ∈ l then x else u.get (HEARTH_STKSTAT_STATE j) := by
  unfold State.putStates
  induction l generalizing u with
  | nil => simp
  | cons k r ih =>
    rw [List.foldl_cons, ih _ (fun i hi => hl i (by simp [hi]))]
    by_cases hr : j ∈ r
    · simp [hr]
    · by_cases hk : j = k
      · subst hk
        rw [if_neg hr, State.get_put_self _ _ _ (show 0 ≤ 1 by decide) (show 1 < 64 by decide), if_pos (by simp)]
        exact Nat.mod_eq_of_lt hx
      · have hlt := hl k (by simp)
        rw [if_neg hr, State.get_put_ne _ _ _ _ (by simp only [HEARTH_STKSTAT]; omega), if_neg (by simp [hk, hr])]

/-- No stack's status is of a register that logs. -/
theorem stkstat_beside {k : Nat} (hk : k < 20) : logAddr (HEARTH_STKSTAT k) = false := (stkstat_apart hk).2.1

/-- A limit passed in the ROM or at the start of firmware: bring-up stops (R598 steps 2 and 3). -/
theorem bringupTimeout_early {s : State} {t : Nat} (ha : s.pwr.alive = true) (hs : s.pwr.stop = false)
    (h : s.pwr.step = 2 ∧ s.pwr.stepAt + 400 * ms ≤ (s.at t).now ∨ s.pwr.step = 3 ∧ s.pwr.stepAt + 100 * ms ≤ (s.at t).now) :
    s.runs (.bringupTimeout t) (fun v => v = { s.at t with pwr := { (s.at t).pwr with stop := true } }) := by
  have hp := s.pwr_at t
  refine ⟨_, ?_, rfl⟩
  rw [show exec (.bringupTimeout t) s = execBringupTimeout t s from rfl]
  unfold execBringupTimeout
  extract_lets u late dead w
  refine if_pos ?_
  rw [show u.pwr = s.pwr from hp]
  unfold late
  rw [show u.pwr = s.pwr from hp, ha, hs]
  simpa using h

/-- Where the rails are lost, no stack keeps anything, and the memory is empty (R280). -/
theorem State.railsLost_eq (u : State) : u.railsLost =
    { ({ u with mem := [], errs := [], wb := [], transit := [] } : State).putStates (List.range 20) 0 with
      pwr := { u.pwr with keep := false } } := by
  have hm : u.memReset false = { u with mem := [], errs := [], wb := [], transit := [] } := by
    unfold State.memReset
    extract_lets stays
    have hno : ∀ key, stays key = false := fun key => by unfold stays; split <;> rfl
    simp [hno]
  unfold State.railsLost
  rw [hm]
  rfl

/-- A reset noted: domain, index and cause. -/
theorem State.noteReset_facts (u : State) {d c : Nat} (hd : d < 8) (hc : c < 256) : let v := u.noteReset d 0 c
    v.get BELLOWS_RSTSTAT_DOMAIN = d ∧ v.get BELLOWS_RSTSTAT_CAUSE = c ∧ u.only v [BELLOWS_RSTSTAT] ∧ v.pwr = u.pwr := by
  unfold State.noteReset
  refine ⟨?_, ?_, ?_, by rw [State.put_pwr, State.put_pwr, State.put_pwr]⟩
  · rw [State.get_put_apart _ _ _ _ (by decide) (by decide) (by decide), State.get_put_apart _ _ _ _ (by decide) (by decide) (by decide),
      State.get_put_self _ _ _ (by decide) (by decide)]
    exact Nat.mod_eq_of_lt hd
  · rw [State.get_put_self _ _ _ (by decide) (by decide)]
    exact Nat.mod_eq_of_lt hc
  · exact State.only_trans (State.only_put _ _ _ _ (.inl (by simp))) (State.only_trans (State.only_put _ _ _ _ (.inl (by simp)))
      (State.only_put _ _ _ _ (.inl (by simp))))

/-- A bring-up that failed with the regulators on: the reset is noted, the regulators are off. -/
def State.failNoted (w : State) : State := ((w.noteReset 1 0 7).put BELLOWS_PWRSTAT_REGON 0).put BELLOWS_PWRSTAT_STATE 6

/-- No register of the main window is one that logs. -/
theorem logAddr_low {a : Nat} (h : a < 0x380000000000) : logAddr a = false := by
  unfold logAddr
  simp only [BELLOWS_ERRSUM, BELLOWS_PDSTAT3, MGMT_STAT, Bool.or_eq_false_iff, beq_eq_false_iff_ne]
  omega

/-- Registers do not depend on the power sequencer's state. -/
theorem State.rd_withPwr (u : State) (p : Pwr) (a : Nat) : ({ u with pwr := p } : State).rd a = u.rd a := rfl

/-- The end of such a bring-up: the reset is recorded, and the module stops. -/
def State.stopFailed (w : State) : State := { w.failNoted.resetRecord with pwr := { w.failNoted.pwr with stop := true } }

/-- What it shows, and what it leaves. -/
structure State.failedTo (w v : State) : Prop where
  regon : v.on BELLOWS_PWRSTAT_REGON = false
  state : v.get BELLOWS_PWRSTAT_STATE = 6
  domain : v.get BELLOWS_RSTSTAT_DOMAIN = 1
  cause : v.get BELLOWS_RSTSTAT_CAUSE = 7
  recorded : w.recorded v 0x0A00
  pwr : v.pwr = { w.pwr with stop := true }
  regs : ∀ a, 0x380000000000 ≤ a ∨ v.rd a = w.rd a
  rest : State.only { w with pwr := v.pwr } v [BELLOWS_PWRSTAT, BELLOWS_RSTSTAT]

/-- The power sequencer's state changed alone. -/
theorem State.only_pwr {u v : State} {l : List Nat} (h : u.only v l) (p : Pwr) : State.only { u with pwr := p } { v with pwr := p } l := by
  obtain ⟨h1, h2, h3⟩ := h
  refine ⟨h1, h2, ?_⟩
  rw [h3]

theorem State.failedTo_stopFailed (w : State) : w.failedTo w.stopFailed := by
  obtain ⟨hd, hc, ho, hp⟩ := w.noteReset_facts (show 1 < 8 by decide) (show 7 < 256 by decide)
  obtain ⟨v, hvd⟩ : ∃ v, v = w.failNoted := ⟨_, rfl⟩
  have hv : ∀ f : Fd, f.addr = BELLOWS_RSTSTAT → v.get f = (w.noteReset 1 0 7).get f := fun f hf => by
    rw [hvd]
    unfold State.failNoted
    rw [State.get_put_ne _ _ _ _ (by rw [hf]; decide), State.get_put_ne _ _ _ _ (by rw [hf]; decide)]
  have hst : v.get BELLOWS_PWRSTAT_STATE = 6 := by
    rw [hvd]
    unfold State.failNoted
    rw [State.get_put_self _ _ _ (by decide) (by decide)]
    rfl
  have hre : v.get BELLOWS_PWRSTAT_REGON = 0 := by
    rw [hvd]
    unfold State.failNoted
    rw [State.get_put_apart _ _ _ _ (by decide) (by decide) (by decide), State.get_put_self _ _ _ (by decide) (by decide)]
    rfl
  have hpv : v.pwr = w.pwr := by
    rw [hvd]
    unfold State.failNoted
    rw [State.put_pwr, State.put_pwr, hp]
  have hov : w.only v [BELLOWS_PWRSTAT, BELLOWS_RSTSTAT] := by
    rw [hvd]
    exact State.only_trans (State.only_mono ho (by simp))
      (State.only_trans (State.only_put _ _ _ _ (.inl (by simp))) (State.only_put _ _ _ _ (.inl (by simp))))
  have hev : v.evrec = w.evrec := by
    rw [hvd]
    unfold State.failNoted State.noteReset
    rw [State.put_evrec, State.put_evrec, State.put_evrec, State.put_evrec, State.put_evrec]
  have he : v.only v.resetRecord [] := State.only_event _ _ _ _ _ _ _ _
  have hrec : v.recorded v.resetRecord 0x0A00 := v.recorded_event _ _ _ _ _ _
  unfold State.stopFailed
  rw [← hvd]
  clear hvd
  generalize v.resetRecord = r at *
  have hget : ∀ f : Fd, logAddr f.addr = false → r.get f = v.get f := fun f hf => State.get_of_rd (he.1 _ (by simp) hf)
  have hon : r.on BELLOWS_PWRSTAT_REGON = false := by
    unfold State.on
    rw [hget _ (by decide), hre]
    rfl
  refine ⟨hon, (hget BELLOWS_PWRSTAT_STATE (by decide)).trans hst, ?_, ?_, ?_, ?_, ?_, ?_⟩
  · exact (hget BELLOWS_RSTSTAT_DOMAIN (by decide)).trans ((hv _ rfl).trans hd)
  · exact (hget BELLOWS_RSTSTAT_CAUSE (by decide)).trans ((hv _ rfl).trans hc)
  · exact State.recorded_of_evrec hrec hev
  · exact congrArg (fun p : Pwr => { p with stop := true }) hpv
  · intro a
    by_cases ha : 0x380000000000 ≤ a
    · exact .inl ha
    · have hl := logAddr_low (lt_of_not_ge ha)
      refine .inr ((he.1 a (by simp) hl).trans (hov.1 a (fun h => ha ?_) hl))
      have hb : ∀ b ∈ [BELLOWS_PWRSTAT, BELLOWS_RSTSTAT], 0x380000000000 ≤ b := by decide
      exact hb a h
  · exact State.only_pwr (State.only_trans hov (State.only_mono he (by simp))) _

/-- A limit passed after the regulators were enabled: the rails are lost, and the module stops (R598 steps 5 and 6). -/
theorem bringupTimeout_late {s : State} {t : Nat} (ha : s.pwr.alive = true) (hs : s.pwr.stop = false)
    (hr : s.on BELLOWS_PWRSTAT_REGON = true)
    (h : s.pwr.step = 5 ∧ s.pwr.stepAt + 20 * ms ≤ (s.at t).now ∨ s.pwr.step = 6 ∧ s.pwr.stepAt + ms ≤ (s.at t).now) :
    s.runs (.bringupTimeout t) (fun v =>
      v.on BELLOWS_PWRSTAT_REGON = false ∧ v.get BELLOWS_PWRSTAT_STATE = 6 ∧ v.get BELLOWS_RSTSTAT_DOMAIN = 1 ∧
      v.get BELLOWS_RSTSTAT_CAUSE = 7 ∧ (s.at t).recorded v 0x0A00 ∧ v.pwr = { s.pwr with stop := true, keep := false } ∧
      (∀ k, k < 20 → v.get (HEARTH_STKSTAT_STATE k) = 0) ∧
      State.only { s.at t with pwr := v.pwr, mem := [], errs := [], wb := [], transit := [] } v
        ([BELLOWS_PWRSTAT, BELLOWS_RSTSTAT] ++ (List.range 20).map HEARTH_STKSTAT)) := by
  have hp := s.pwr_at t
  have hon : (s.at t).on BELLOWS_PWRSTAT_REGON = true := by
    unfold State.on at hr ⊢
    rw [s.get_at]
    exact hr
  have hex : exec (.bringupTimeout t) s = .next (s.at t).railsLost.stopFailed := by
    rw [show exec (.bringupTimeout t) s = execBringupTimeout t s from rfl]
    unfold execBringupTimeout State.stopFailed State.failNoted
    rw [← hp] at ha hs h
    generalize s.at t = u at *
    dsimp only
    refine (if_neg (by omega)).trans ((if_pos (by rw [hon, ha, hs]; simpa using h)).trans ?_)
    generalize ((u.railsLost.noteReset 1 0 7).put BELLOWS_PWRSTAT_REGON 0).put BELLOWS_PWRSTAT_STATE 6 = v
    rfl
  refine ⟨_, hex, ?_⟩
  rw [← hp]
  generalize s.at t = u
  -- the rails lost
  have hrest := State.putStates_rest ({ u with mem := [], errs := [], wb := [], transit := [] } : State) (List.range 20) 0
  have honly := State.putStates_only ({ u with mem := [], errs := [], wb := [], transit := [] } : State) (List.range 20) 0
    (fun k hk => List.mem_range.mp hk)
  have hst : ∀ k < 20, _ = _ := fun k hk =>
    State.get_putStates ({ u with mem := [], errs := [], wb := [], transit := [] } : State) (List.range 20)
      (show 0 < 4 by decide) k (fun i hi => List.mem_range.mp hi) hk
  rw [u.railsLost_eq]
  generalize State.putStates _ _ _ = w at hrest honly hst ⊢
  have hpw : w.pwr = u.pwr := by rw [hrest]
  have hew : w.evrec = u.evrec := by rw [hrest]
  -- the reset noted
  have hf := State.failedTo_stopFailed { w with pwr := { u.pwr with keep := false } }
  generalize State.stopFailed _ = v at hf ⊢
  obtain ⟨h1, h2, h3, h4, h5, h6, h7, h8⟩ := hf
  refine ⟨h1, h2, h3, h4, State.recorded_of_evrec h5 hew, by rw [h6], fun k hk => ?_, ?_⟩
  · have hk1 : v.get (HEARTH_STKSTAT_STATE k) = w.get (HEARTH_STKSTAT_STATE k) :=
      State.get_of_rd (((h7 _).resolve_left (by simp only [HEARTH_STKSTAT]; omega)).trans (w.rd_withPwr _ _))
    rw [hk1, hst k hk, if_pos (List.mem_range.mpr hk)]
  · exact State.only_trans (State.only_mono (State.only_pwr honly v.pwr) (fun a ha => List.mem_append_right _ ha))
      (State.only_mono h8 (fun a ha => List.mem_append_left _ ha))

end Sys2Proof.Machine
end

