-- ==== Sys2Proof/Proofs/ClockLock.lean ====
section
/-! BringUp (O50), the PLL's lock: the heat enters the floor, k is 1, and the Hammer domain is on. -/

namespace Sys2Proof.Machine

/-! ### The floor entered -/

/-- Temper's state changed alone. -/
theorem State.only_temper {u v : State} {l : List Nat} (h : u.only v l) (x : Temper) :
    State.only { u with temper := x } { v with temper := x } l := by
  obtain ⟨h1, h2, h3⟩ := h
  refine ⟨h1, h2, ?_⟩
  rw [h3]

/-- Temper's registers. -/
def temperRegs : List Nat := [TEMPER_CAPSTAT, TEMPER_CTRL, TEMPER_CNT]

/-- A flag of the cap status. -/
def capFlag (n : Nat) : Fd := ⟨TEMPER_CAPSTAT, n, n⟩

/-- From `u` to `v` Temper acted: its own state and registers, the log, no power domain but the cores', and no flag of its cap status
but those listed. -/
structure State.tempered (u v : State) (but : List Nat) : Prop where
  rest : State.only { u with temper := v.temper } v temperRegs
  doms : u.domsKept v
  flags : ∀ n, n < 29 → n ∉ but → v.get (capFlag n) = u.get (capFlag n)

theorem State.tempered_refl (u : State) (b : List Nat) : u.tempered u b := ⟨State.only_refl _ _, u.domsKept_refl, fun _ _ _ => rfl⟩

theorem State.tempered_trans {u v w : State} {b : List Nat} (h : u.tempered v b) (k : v.tempered w b) : u.tempered w b :=
  ⟨State.only_trans (State.only_temper h.rest w.temper) k.rest, State.domsKept_trans h.doms k.doms,
    fun n h1 h2 => (k.flags n h1 h2).trans (h.flags n h1 h2)⟩

theorem State.tempered_mono {u v : State} {b c : List Nat} (h : u.tempered v b) (hs : ∀ n ∈ b, n ∈ c) : u.tempered v c :=
  ⟨h.rest, h.doms, fun n h1 h2 => h.flags n h1 (fun hn => h2 (hs n hn))⟩

/-- A register of Temper's put. -/
theorem State.tempered_put (u : State) (f : Fd) (x : Nat) (b : List Nat) (hm : f.addr ∈ temperRegs) (hl : f.lo ≤ f.hi ∧ f.hi < 64)
    (hb : f.addr ≠ TEMPER_CAPSTAT ∨ 29 ≤ f.lo ∨ (f.hi = f.lo ∧ f.lo ∈ b)) : u.tempered (u.put f x) b := by
  refine ⟨?_, State.domsKept_put u f x (.inl ?_), fun n h1 h2 => ?_⟩
  · have h := State.only_put u f x temperRegs (.inl hm)
    exact h
  · have hlt : ∀ a ∈ temperRegs, a < BELLOWS_PDSTAT 0 := by decide
    exact hlt _ hm
  · rcases hb with hb | hb
    · exact State.get_put_ne _ _ _ _ hb.symm
    · refine State.get_put_apart _ _ _ _ hl.1 hl.2 ?_
      show n < f.lo ∨ f.hi < n
      rcases hb with hb | ⟨hb, hf⟩
      · omega
      · have : n ≠ f.lo := fun h => h2 (h ▸ hf)
        omega

/-- Temper's own state changed. -/
theorem State.tempered_state (u : State) (x : Temper) (b : List Nat) : u.tempered { u with temper := x } b :=
  ⟨State.only_refl _ _, fun _ _ => rfl, fun _ _ _ => rfl⟩

theorem State.tempered_eventIrq (u : State) (irq code sev src p0 p1 p2 : Nat) (h : irq < 256) (b : List Nat) :
    u.tempered (u.eventIrq irq code sev src p0 p1 p2) b := by
  have ho := u.only_eventIrq irq code sev src p0 p1 p2 h []
  have hd := (u.ends_eventIrq irq code sev src p0 p1 p2 h ∅).doms
  generalize u.eventIrq irq code sev src p0 p1 p2 = v at ho hd
  have ht : v.temper = u.temper := by rw [ho.2.2]
  exact ⟨by rw [ht]; exact State.only_mono ho (by simp), hd,
    fun n _ _ => State.get_of_rd (ho.1 TEMPER_CAPSTAT (by simp) (by decide))⟩

/-- The gate left as it is. -/
theorem State.tempered_core (u : State) {c : Pulse} (h : c = u.core) (b : List Nat) : u.tempered { u with core := c } b := by
  subst h
  exact u.tempered_refl b

theorem State.tempered_aim (u : State) (o : Nat) (b : List Nat) : u.tempered (u.aim o) b := by
  unfold State.aim
  extract_lets w g low
  exact State.tempered_trans (u.tempered_state _ _) (w.tempered_state _ _)

/-- What entering the floor does once the grant is gone and `FLOOR` is set (R417, R422). -/
def State.floorRest (s : State) (which : Nat) : State :=
  let s := { s with core := s.core.decide 1 (16 * s.now) }.put TEMPER_CTRL_KTGT 1
  let s := s.put TEMPER_CTRL_OPTGT 0
  let s := if s.get TEMPER_CTRL_OP ≠ 0 then s.put TEMPER_CTRL_XFER 1 else s
  let s := s.aim 0
  let s := s.put TEMPER_CAPSTAT_LIMIT (if s.on TEMPER_CAPSTAT_THROTTLE then 5 else 6)
  (s.inc TEMPER_CNT_FLOORS).eventIrq 22 0x0501 2 (1 * 256) which 0 0

theorem State.enterFloor_eq (u : State) (which : Nat) :
    u.enterFloor which = ((u.put TEMPER_CAPSTAT_GRANT 0).putB TEMPER_CAPSTAT_FLOOR true).floorRest which := rfl

/-- Where the gate is at k = 1 already, it stays so. -/
theorem State.tempered_floorRest (u : State) (which : Nat) (hc : u.core.decide 1 (16 * u.now) = u.core) : u.tempered (u.floorRest which) [] := by
  have hctl : TEMPER_CTRL ∈ temperRegs := by decide
  have hne : TEMPER_CTRL ≠ TEMPER_CAPSTAT := by decide
  unfold State.floorRest
  extract_lets s2 s3 s4 s5 s6
  have h2 : u.tempered s2 [] := State.tempered_trans (u.tempered_core hc _) (State.tempered_put _ TEMPER_CTRL_KTGT 1 _ hctl (by decide) (.inl hne))
  have h3 : s2.tempered s3 [] := State.tempered_put _ TEMPER_CTRL_OPTGT 0 _ hctl (by decide) (.inl hne)
  have h4 : s3.tempered s4 [] := by
    unfold s4
    split
    · exact State.tempered_put _ TEMPER_CTRL_XFER 1 _ hctl (by decide) (.inl hne)
    · exact s3.tempered_refl _
  have h5 : s4.tempered s5 [] := s4.tempered_aim 0 _
  have h6 : s5.tempered s6 [] := State.tempered_put _ TEMPER_CAPSTAT_LIMIT _ _ (by decide) (by decide) (by decide)
  have h7 : s6.tempered (s6.inc TEMPER_CNT_FLOORS) [] := State.tempered_put _ TEMPER_CNT_FLOORS _ _ (by decide) (by decide) (.inl (by decide))
  exact State.tempered_trans h2 (State.tempered_trans h3 (State.tempered_trans h4 (State.tempered_trans h5 (State.tempered_trans h6
    (State.tempered_trans h7 (State.tempered_eventIrq _ _ _ _ _ _ _ _ (by decide) _))))))

/-- The floor entered where the gate is at k = 1 already. -/
theorem State.tempered_enterFloor (u : State) (which : Nat) (hc : u.core.decide 1 (16 * u.now) = u.core) :
    u.tempered (u.enterFloor which) [0] ∧ (u.enterFloor which).get TEMPER_CAPSTAT_FLOOR = 1 := by
  have hcap : TEMPER_CAPSTAT ∈ temperRegs := by decide
  have h1 : u.tempered ((u.put TEMPER_CAPSTAT_GRANT 0).putB TEMPER_CAPSTAT_FLOOR true) [0] :=
    State.tempered_trans (u.tempered_put TEMPER_CAPSTAT_GRANT 0 _ hcap (by decide) (by decide))
      (State.tempered_put _ TEMPER_CAPSTAT_FLOOR _ _ hcap (by decide) (by decide))
  have hf : ((u.put TEMPER_CAPSTAT_GRANT 0).putB TEMPER_CAPSTAT_FLOOR true).get TEMPER_CAPSTAT_FLOOR = 1 := by
    unfold State.putB
    rw [State.get_put_self _ _ _ (by decide) (by decide)]
    rfl
  rw [u.enterFloor_eq]
  generalize (u.put TEMPER_CAPSTAT_GRANT 0).putB TEMPER_CAPSTAT_FLOOR true = s1 at *
  have hcore : s1.core.decide 1 (16 * s1.now) = s1.core := by
    rw [h1.rest.2.2]
    exact hc
  have h2 := s1.tempered_floorRest which hcore
  exact ⟨State.tempered_trans h1 (State.tempered_mono h2 (by simp)), (h2.flags 0 (by decide) (by simp)).trans hf⟩

/-! ### The PLL locks -/

theorem State.tempered_throttle (u : State) (hc : u.core.decide 1 (16 * u.now) = u.core) :
    u.tempered u.throttleTemper [0, 1] ∧ u.throttleTemper.get (capFlag 1) = 1 ∧
    (u.get (capFlag 0) = 1 → u.throttleTemper.get (capFlag 0) = 1) := by
  unfold State.throttleTemper
  split
  · next h => exact ⟨u.tempered_refl _, eq_of_beq h, id⟩
  · have h1 : u.tempered (u.putB TEMPER_CAPSTAT_THROTTLE true) [0, 1] :=
      State.tempered_put _ TEMPER_CAPSTAT_THROTTLE _ _ (by decide) (by decide) (by decide)
    have hf : (u.putB TEMPER_CAPSTAT_THROTTLE true).get (capFlag 1) = 1 := by
      unfold State.putB
      exact (State.get_put_self u TEMPER_CAPSTAT_THROTTLE _ (by decide) (by decide)).trans rfl
    generalize u.putB TEMPER_CAPSTAT_THROTTLE true = v at h1 hf
    obtain ⟨h2, h3⟩ := v.tempered_enterFloor 0 (by rw [h1.rest.2.2]; exact hc)
    exact ⟨State.tempered_trans h1 (State.tempered_mono h2 (by simp)), (h2.flags 1 (by decide) (by decide)).trans hf, fun _ => h3⟩

/-- The supply's warning at the release of compute reset. -/
theorem State.tempered_sag (u : State) (hc : u.core.decide 1 (16 * u.now) = u.core) :
    let v := (u.putB TEMPER_CAPSTAT_SAG_WARN true).enterFloor 1
    u.tempered v [0, 2] ∧ v.get (capFlag 2) = 1 ∧ v.get (capFlag 0) = 1 := by
  have h1 : u.tempered (u.putB TEMPER_CAPSTAT_SAG_WARN true) [0, 2] :=
    State.tempered_put _ TEMPER_CAPSTAT_SAG_WARN _ _ (by decide) (by decide) (by decide)
  have hf : (u.putB TEMPER_CAPSTAT_SAG_WARN true).get (capFlag 2) = 1 := by
    unfold State.putB
    exact (State.get_put_self u TEMPER_CAPSTAT_SAG_WARN _ (by decide) (by decide)).trans rfl
  generalize u.putB TEMPER_CAPSTAT_SAG_WARN true = v at h1 hf
  obtain ⟨h2, h3⟩ := v.tempered_enterFloor 1 (by rw [h1.rest.2.2]; exact hc)
  exact ⟨State.tempered_trans h1 (State.tempered_mono h2 (by simp)), (h2.flags 2 (by decide) (by decide)).trans hf, h3⟩

/-- What Temper does at the release of compute reset (R417, R420). -/
def State.temperStart (s : State) : State :=
  let s := if s.pwr.vinLow then (s.putB TEMPER_CAPSTAT_SAG_WARN true).enterFloor 1 else s
  if s.on BELLOWS_SAFESTAT_THROTTLE then s.throttleTemper else s

theorem State.temperStart_facts (u : State) (hc : u.core.decide 1 (16 * u.now) = u.core) :
    u.tempered u.temperStart [0, 1, 2] ∧
    (u.pwr.vinLow = true → u.temperStart.get (capFlag 2) = 1 ∧ u.temperStart.get (capFlag 0) = 1) ∧
    (u.on BELLOWS_SAFESTAT_THROTTLE = true → u.temperStart.get (capFlag 1) = 1) := by
  unfold State.temperStart
  extract_lets w
  have hw : u.tempered w [0, 2] ∧ (u.pwr.vinLow = true → w.get (capFlag 2) = 1 ∧ w.get (capFlag 0) = 1) := by
    unfold w
    split
    · obtain ⟨h1, h2, h3⟩ := u.tempered_sag hc
      exact ⟨h1, fun _ => ⟨h2, h3⟩⟩
    · next h => exact ⟨u.tempered_refl _, fun hv => absurd hv h⟩
  clear_value w
  obtain ⟨h1, h2⟩ := hw
  have hon : w.on BELLOWS_SAFESTAT_THROTTLE = u.on BELLOWS_SAFESTAT_THROTTLE :=
    congrArg (· == 1) (State.get_of_rd (h1.rest.1 BELLOWS_SAFESTAT (by decide) (by decide)))
  have hmono : ∀ v, w.tempered v [0, 1] → u.tempered v [0, 1, 2] := fun v h =>
    State.tempered_trans (State.tempered_mono h1 (by simp)) (State.tempered_mono h (by simp))
  split
  · obtain ⟨k1, k2, k3⟩ := w.tempered_throttle (by rw [h1.rest.2.2]; exact hc)
    refine ⟨hmono _ k1, fun hv => ?_, fun _ => k2⟩
    obtain ⟨h3, h4⟩ := h2 hv
    exact ⟨(k1.flags 2 (by decide) (by decide)).trans h3, k3 h4⟩
  · next h => exact ⟨hmono _ (w.tempered_refl _), h2, fun hv => absurd (hon.trans hv) h⟩

/-- Compute reset released, before Temper starts. -/
def State.lockWoken (u : State) : State := ((u.setDom 192 true).put BELLOWS_PWRSTAT_STATE 3).training

/-- What the release sets beside registers (R35, R417, R598). -/
def State.lockSet (s : State) : State := { s with
  pwr := { s.pwr with pll := true, step := 7, stepAt := s.now, stop := false }
  core := { Pulse.reset with begun := 16 * s.now }
  hammer := { s.hammer with avail := 0 }
  temper := { s.temper with
    rel := s.now, ivNext := s.now, calTick := s.tickNo, slewAt := s.now, agedAt := s.now, stale := []
    pubs := [0, 2, 3].foldl (fun p k => Tab.set (fun _ => 0) p k s.now) s.temper.pubs } }

/-- What the release writes in registers (R278, R598 steps 6 and 7). -/
structure State.woken (u v : State) : Prop where
  dom : v.domOn 192 = true
  state : v.get BELLOWS_PWRSTAT_STATE = 3
  training : ∀ k, k < 20 → v.get (HEARTH_STKSTAT_STATE k) =
    if u.fenced k = false ∧ u.get (HEARTH_STKSTAT_STATE k) = 0 then 1 else u.get (HEARTH_STKSTAT_STATE k)
  regs : u.only v ([BELLOWS_PDSTAT3, BELLOWS_PWRSTAT] ++ stkRegs)
  rest : v = { u with csr := v.csr }

/-- Compute's domain on and the state shown; the stacks' status and the rest are as they were. -/
theorem State.domain_state (u : State) : let w := (u.setDom 192 true).put BELLOWS_PWRSTAT_STATE 3
    w.domOn 192 = true ∧ w.get BELLOWS_PWRSTAT_STATE = 3 ∧ (∀ k < 20, w.rd (HEARTH_STKSTAT k) = u.rd (HEARTH_STKSTAT k)) ∧
    u.only w [BELLOWS_PDSTAT3, BELLOWS_PWRSTAT] ∧ w = { u with csr := w.csr } := by
  have hd := u.domOn_setDom true (show 192 < 256 by decide) 192
  have hr : ∀ k < 20, (u.setDom 192 true).rd (HEARTH_STKSTAT k) = u.rd (HEARTH_STKSTAT k) := fun k hk =>
    u.rd_setDom 192 true (by unfold pdWord; rw [if_neg (by decide)]; simp only [HEARTH_STKSTAT, BELLOWS_PDSTAT3]; omega)
  have ho : u.only (u.setDom 192 true) [BELLOWS_PDSTAT3, BELLOWS_PWRSTAT] := by
    unfold State.setDom
    rw [if_neg (by decide)]
    exact State.only_putB _ _ _ _ (.inl (by simp))
  have he := u.setDom_rest 192 true
  generalize u.setDom 192 true = x at hd hr ho he
  intro w
  refine ⟨?_, ?_, fun k hk => ?_, State.only_trans ho (State.only_put _ _ _ _ (.inl (by simp))), ?_⟩
  · exact (State.domsKept_put x BELLOWS_PWRSTAT_STATE 3 (.inl (by decide)) 192 (by decide)).trans (hd.trans (if_pos rfl))
  · exact (State.get_put_self x BELLOWS_PWRSTAT_STATE 3 (by decide) (by decide)).trans rfl
  · exact (State.rd_put_ne x BELLOWS_PWRSTAT_STATE 3 (by simp only [HEARTH_STKSTAT, BELLOWS_PWRSTAT]; omega)).trans (hr k hk)
  · have hp := x.put_rest BELLOWS_PWRSTAT_STATE 3
    unfold w
    generalize x.put BELLOWS_PWRSTAT_STATE 3 = y at hp
    rw [hp, he]

theorem State.woken_lockWoken (u : State) : u.woken u.lockWoken := by
  obtain ⟨hd, hs, hr, ho, he⟩ := u.domain_state
  have heq : u.lockWoken = ((u.setDom 192 true).put BELLOWS_PWRSTAT_STATE 3).putStates
      ((List.range 20).filter (fun k => !((u.setDom 192 true).put BELLOWS_PWRSTAT_STATE 3).fenced k &&
        ((u.setDom 192 true).put BELLOWS_PWRSTAT_STATE 3).get (HEARTH_STKSTAT_STATE k) == 0)) 1 := rfl
  rw [heq]
  generalize (u.setDom 192 true).put BELLOWS_PWRSTAT_STATE 3 = w at hd hs hr ho he ⊢
  have hlt : ∀ k ∈ (List.range 20).filter (fun k => !w.fenced k && w.get (HEARTH_STKSTAT_STATE k) == 0), k < 20 := fun k hk =>
    List.mem_range.mp (List.mem_of_mem_filter hk)
  have hst := fun k (hk : k < 20) => w.get_putStates _ (show 1 < 4 by decide) k hlt hk
  have hkeep := w.putStates_only _ 1 hlt
  have hdoms := w.putStates_doms ((List.range 20).filter (fun k => !w.fenced k && w.get (HEARTH_STKSTAT_STATE k) == 0)) 1 hlt
  have hrest := w.putStates_rest ((List.range 20).filter (fun k => !w.fenced k && w.get (HEARTH_STKSTAT_STATE k) == 0)) 1
  generalize State.putStates _ _ _ = v at hst hkeep hrest hdoms ⊢
  have hbel : ∀ a, 0x380000000000 ≤ a → a ∉ stkRegs := fun a ha hm => by
    obtain ⟨k, hk, rfl⟩ := List.mem_map.mp hm
    have := List.mem_range.mp hk
    simp only [HEARTH_STKSTAT] at ha
    omega
  refine ⟨?_, ?_, fun k hk => ?_, State.only_trans (State.only_mono ho (fun a ha => List.mem_append_left _ ha))
    (State.only_mono hkeep (fun a ha => List.mem_append_right _ ha)), by rw [hrest, he]⟩
  · exact (hdoms 192 (by decide)).trans hd
  · rw [State.get_of_rd (hkeep.1 BELLOWS_PWRSTAT (hbel _ (by decide)) (by decide))]
    exact hs
  · have hf : w.fenced k = u.fenced k := congrArg (· == 1) (State.get_of_rd (hr k hk))
    have hg : w.get (HEARTH_STKSTAT_STATE k) = u.get (HEARTH_STKSTAT_STATE k) := State.get_of_rd (hr k hk)
    rw [hst k hk, ← hf, ← hg]
    simp [hk]

/-- The PLL's lock releases compute reset (R598 steps 5 and 6). -/
theorem exec_pllLock {s : State} {t : Nat} (hs : s.pwr.step = 5 ∨ s.pwr.step = 6) (hr : s.on BELLOWS_PWRSTAT_REGON = true) :
    exec (.pllLock t) s = .next (s.at t).lockWoken.lockSet.temperStart := by
  have hp := s.pwr_at t
  have hon : (s.at t).on BELLOWS_PWRSTAT_REGON = true := (congrArg (· == 1) (s.get_at t _)).trans hr
  rw [show exec (.pllLock t) s = execPllLock t s from rfl]
  unfold execPllLock State.temperStart State.lockSet State.lockWoken
  rw [← hp] at hs
  generalize s.at t = u at *
  refine (if_neg (by rw [hon]; simp; omega)).trans ?_
  generalize ((u.setDom 192 true).put BELLOWS_PWRSTAT_STATE 3).training = w
  rfl

theorem State.only_lockSet {u w : State} {l : List Nat} (h : u.only w l) (he : w = { u with csr := w.csr }) (x : Temper) :
    State.only { u with
        pwr := { u.pwr with pll := true, step := 7, stepAt := u.now, stop := false }, temper := x
        core := { Pulse.reset with begun := 16 * u.now }, hammer := { u.hammer with avail := 0 } }
      { w.lockSet with temper := x } l := by
  obtain ⟨h1, h2, -⟩ := h
  refine ⟨h1, h2, ?_⟩
  unfold State.lockSet
  rw [he]

theorem pllLock_runs (s : State) (t : Nat) (hs : s.pwr.step = 5 ∨ s.pwr.step = 6) (hr : s.on BELLOWS_PWRSTAT_REGON = true) :
    s.runs (.pllLock t) (fun v =>
      v.domOn 192 = true ∧ v.get BELLOWS_PWRSTAT_STATE = 3 ∧ v.pwr = { s.pwr with pll := true, step := 7, stepAt := (s.at t).now, stop := false } ∧
      (s.pwr.vinLow = true → v.on TEMPER_CAPSTAT_SAG_WARN = true ∧ v.on TEMPER_CAPSTAT_FLOOR = true) ∧
      (s.on BELLOWS_SAFESTAT_THROTTLE = true → v.on TEMPER_CAPSTAT_THROTTLE = true) ∧
      (∀ k, k < 20 → v.get (HEARTH_STKSTAT_STATE k) =
        if s.fenced k = false ∧ s.get (HEARTH_STKSTAT_STATE k) = 0 then 1 else s.get (HEARTH_STKSTAT_STATE k)) ∧
      State.only { s.at t with
          pwr := v.pwr, temper := v.temper, core := { Pulse.reset with begun := 16 * (s.at t).now }, hammer := { (s.at t).hammer with avail := 0 } } v
        ([BELLOWS_PDSTAT3, BELLOWS_PWRSTAT, TEMPER_CAPSTAT, TEMPER_CTRL, TEMPER_CNT] ++ (List.range 20).map HEARTH_STKSTAT)) := by
  refine ⟨_, exec_pllLock hs hr, ?_⟩
  have hthr : (s.at t).on BELLOWS_SAFESTAT_THROTTLE = s.on BELLOWS_SAFESTAT_THROTTLE := congrArg (· == 1) (s.get_at t _)
  have hfen : ∀ k, (s.at t).fenced k = s.fenced k := fun k => congrArg (· == 1) (s.get_at t _)
  have hst : ∀ k, (s.at t).get (HEARTH_STKSTAT_STATE k) = s.get (HEARTH_STKSTAT_STATE k) := fun k => s.get_at t _
  simp only [← hthr, ← hfen, ← hst, ← s.pwr_at t]
  generalize s.at t = u
  -- the registers woken
  obtain ⟨h1, h2, h3, h4, h5⟩ := u.woken_lockWoken
  have h6 := fun x => State.only_lockSet h4 h5 x
  generalize u.lockWoken = w at *
  have hcore : w.lockSet.core.decide 1 (16 * w.lockSet.now) = w.lockSet.core := rfl
  have hreg : ∀ a, w.lockSet.rd a = w.rd a := fun _ => rfl
  have hvin : w.lockSet.pwr.vinLow = u.pwr.vinLow := by rw [h5]; rfl
  have hpwr : w.lockSet.pwr = { u.pwr with pll := true, step := 7, stepAt := u.now, stop := false } := by rw [h5]; rfl
  have hdom : w.lockSet.domOn 192 = w.domOn 192 := State.domOn_congr (fun a _ _ => hreg a) 192
  generalize w.lockSet = x at *
  -- Temper starts
  obtain ⟨k1, k2, k3⟩ := x.temperStart_facts hcore
  generalize x.temperStart = v at *
  have hregs : ∀ a, a ∉ temperRegs → logAddr a = false → v.rd a = w.rd a := fun a ha hl => (k1.rest.1 a ha hl).trans (hreg a)
  have hp : v.pwr = x.pwr := by rw [k1.rest.2.2]
  have hthrow : x.on BELLOWS_SAFESTAT_THROTTLE = u.on BELLOWS_SAFESTAT_THROTTLE :=
    congrArg (· == 1) (State.get_of_rd ((hreg BELLOWS_SAFESTAT).trans (h4.1 BELLOWS_SAFESTAT (by decide) (by decide))))
  refine ⟨?_, ?_, hp.trans hpwr, fun hv => ?_, fun hv => ?_, fun k hk => ?_, ?_⟩
  · exact (k1.doms 192 (by decide)).trans (hdom.trans h1)
  · exact (State.get_of_rd (hregs BELLOWS_PWRSTAT (by decide) (by decide))).trans h2
  · obtain ⟨k4, k5⟩ := k2 (hvin.trans hv)
    exact ⟨beq_iff_eq.mpr k4, beq_iff_eq.mpr k5⟩
  · exact beq_iff_eq.mpr (k3 (hthrow.trans hv))
  · refine Eq.trans (State.get_of_rd (hregs (HEARTH_STKSTAT k) ?_ (stkstat_beside hk))) (h3 k hk)
    simp only [temperRegs, HEARTH_STKSTAT, TEMPER_CAPSTAT, TEMPER_CTRL, TEMPER_CNT, List.mem_cons, List.not_mem_nil,
      or_false, not_or]
    refine ⟨?_, ?_, ?_⟩ <;> omega
  · have hlast := State.only_trans (State.only_mono (h6 v.temper) (m := [BELLOWS_PDSTAT3, BELLOWS_PWRSTAT] ++ temperRegs ++ stkRegs) ?_)
      (State.only_mono k1.rest ?_)
    · rw [hp, hpwr]
      exact hlast
    · intro a ha
      rcases List.mem_append.mp ha with ha | ha
      · exact List.mem_append_left _ (List.mem_append_left _ ha)
      · exact List.mem_append_right _ ha
    · exact fun a ha => List.mem_append_left _ (List.mem_append_right _ ha)

end Sys2Proof.Machine
end

