-- ==== Sys2Proof/Proofs/ComputeUp.lean ====
section
/-! BringUp (O50), compute comes up: the compute reset ends, the stacks train, and the step follows. -/

namespace Sys2Proof.Machine

/-! ### Compute comes up: domains -/

/-- Stacks' status as it was. -/
def State.stkKept (u v : State) : Prop := ∀ k, k < 20 → v.rd (HEARTH_STKSTAT k) = u.rd (HEARTH_STKSTAT k)

theorem State.stkKept_trans {u v w : State} (h : u.stkKept v) (k : v.stkKept w) : u.stkKept w := fun i hi => (k i hi).trans (h i hi)

theorem stkstat_beside_pdWord {k : Nat} (hk : k < 20) (d : Nat) : HEARTH_STKSTAT k ≠ pdWord d := by
  unfold pdWord
  split <;> simp only [HEARTH_STKSTAT, BELLOWS_PDSTAT, BELLOWS_PDSTAT3] <;> omega

/-- Domains switched on one after the other. -/
def State.domsOn (u : State) (l : List Nat) : State := l.foldl (fun s d => s.setDom d true) u

theorem State.domsOn_facts (u : State) (l : List Nat) (hl : ∀ d ∈ l, d < 256) :
    (∀ d, (u.domsOn l).domOn d = (l.contains d || u.domOn d)) ∧ u.stkKept (u.domsOn l) ∧ u.domsOn l = { u with csr := (u.domsOn l).csr } := by
  unfold State.domsOn
  induction l generalizing u with
  | nil => exact ⟨fun d => by simp, fun _ _ => rfl, rfl⟩
  | cons e r ih =>
    obtain ⟨h1, h2, h3⟩ := ih (u.setDom e true) (fun d hd => hl d (by simp [hd]))
    have hd := u.domOn_setDom true (hl e (by simp))
    have hr : u.stkKept (u.setDom e true) := fun k hk => u.rd_setDom e true (stkstat_beside_pdWord hk e)
    have he := u.setDom_rest e true
    rw [List.foldl_cons]
    generalize u.setDom e true = w at *
    generalize r.foldl _ w = v at *
    refine ⟨fun d => ?_, State.stkKept_trans hr h2, by rw [h3, he]⟩
    rw [h1, hd]
    by_cases h : d = e <;> simp [h]

/-! ### Compute comes up: Anvils that failed -/

/-- From `u` to `v` the Anvils listed were held. -/
structure State.heldAll (u v : State) (l : List Nat) : Prop where
  avail : ∀ g, v.hammer.avail.getLsbD g = (u.hammer.avail.getLsbD g && !l.contains g)
  doms : ∀ d, d ≠ 196 → v.domOn d = (u.domOn d && !l.contains d)
  stk : u.stkKept v
  run : v.hammer.run = u.hammer.run
  pwr : v.pwr = u.pwr
  now : v.now = u.now

theorem State.heldAll_foldl (u : State) (l : List Nat) (hl : ∀ g ∈ l, g < 160) (hr : u.hammer.run = none) :
    u.heldAll (l.foldl (fun s g => s.holdAnvil g 0) u) l := by
  induction l generalizing u with
  | nil => exact ⟨fun g => by simp, fun d _ => by simp, fun _ _ => rfl, rfl, rfl, rfl⟩
  | cons g r ih =>
    have h := u.heldTo_holdAnvil 0 (hl g (by simp)) hr
    have hg := hl g (by simp)
    rw [List.foldl_cons]
    generalize u.holdAnvil g 0 = w at *
    have hrest := h.rest
    unfold State.releases at hrest
    have hrun : w.hammer.run = u.hammer.run := by rw [hrest]
    have hpwr : w.pwr = u.pwr ∧ w.now = u.now := by
      rw [hrest]
      exact ⟨rfl, rfl⟩
    have k := ih w (fun d hd => hl d (by simp [hd])) (hrun.trans hr)
    refine ⟨fun d => ?_, fun d hd => ?_, fun k' hk => ?_, k.run.trans hrun, k.pwr.trans hpwr.1, k.now.trans hpwr.2⟩
    · rw [k.avail, h.avail]
      by_cases hd : d = g
      · simp [hd]
      · have hb : (d != g) = true := by simpa using hd
        simp [hd, hb]
    · rw [k.doms d hd, h.doms d hd]
      by_cases hdg : d = g <;> simp [hdg]
    · refine (k.stk k' hk).trans (h.regs _ (fun ha => ?_) (stkstat_beside_pdWord hk g) (stkstat_beside hk))
      obtain ⟨ha1, ha2⟩ := ha
      unfold anvilCsr at ha1 ha2
      simp only [HEARTH_STKSTAT] at ha1 ha2
      omega

/-! ### Compute comes up: stacks -/

/-- What a stack shows once it has trained or come back from self-refresh, from what it showed before (R279, R280). -/
def State.stackShows (s v : State) (bad : List (Nat × Nat)) (k : Nat) : Prop :=
  let kept : Bool := s.get (HEARTH_STKSTAT_STATE k) == 3
  let cause := if kept then 5 else 1
  if s.fenced k = true then v.fenced k = true
  else if (k, cause) ∈ bad then v.fenced k = true ∧ v.get (HEARTH_STKSTAT_FCAUSE k) = cause ∧ v.domOn (170 + k) = false
  else v.fenced k = false ∧ v.get (HEARTH_STKSTAT_STATE k) = 2 ∧ v.on (HEARTH_STKSTAT_KEPT k) = kept ∧ v.domOn (170 + k) = true

/-- From `u` to `v` the stacks listed came up. -/
structure State.stacksUp (u v : State) (bad : List (Nat × Nat)) (l : List Nat) : Prop where
  shows : ∀ k ∈ l, u.stackShows v bad k
  others : ∀ k, k < 20 → k ∉ l → v.rd (HEARTH_STKSTAT k) = u.rd (HEARTH_STKSTAT k)
  doms : ∀ d, d ≠ 196 → (∀ k ∈ l, d ≠ 170 + k) → v.domOn d = u.domOn d
  avail : v.hammer.avail = u.hammer.avail
  pwr : v.pwr = u.pwr
  now : v.now = u.now

/-- What a stack shows depends on its status alone, before and after. -/
theorem State.stackShows_congr {s v s' v' : State} {bad : List (Nat × Nat)} {k : Nat} (h : s.stackShows v bad k)
    (hs : s'.rd (HEARTH_STKSTAT k) = s.rd (HEARTH_STKSTAT k)) (hv : v'.rd (HEARTH_STKSTAT k) = v.rd (HEARTH_STKSTAT k))
    (hd : v'.domOn (170 + k) = v.domOn (170 + k)) : s'.stackShows v' bad k := by
  unfold State.stackShows State.fenced State.on at *
  rw [State.get_of_rd (f := HEARTH_STKSTAT_STATE k) hs, State.get_of_rd (f := HEARTH_STKSTAT_FENCED k) hs,
    State.get_of_rd (f := HEARTH_STKSTAT_FENCED k) hv, State.get_of_rd (f := HEARTH_STKSTAT_STATE k) hv,
    State.get_of_rd (f := HEARTH_STKSTAT_FCAUSE k) hv, State.get_of_rd (f := HEARTH_STKSTAT_KEPT k) hv, hd]
  exact h

/-- A stack that is up: its status and its domain. -/
theorem State.stacksUp_trained (u : State) (bad : List (Nat × Nat)) {k : Nat} (hk : k < 20) (hf : u.fenced k = false)
    (hb : (k, if (u.get (HEARTH_STKSTAT_STATE k) == 3) = true then 5 else 1) ∉ bad) :
    u.stacksUp (((u.put (HEARTH_STKSTAT_STATE k) 2).putB (HEARTH_STKSTAT_KEPT k) (u.get (HEARTH_STKSTAT_STATE k) == 3)).setDom (170 + k) true)
      bad [k] := by
  generalize hkept : (u.get (HEARTH_STKSTAT_STATE k) == 3) = kept at hb ⊢
  -- the status
  have hs1 : ((u.put (HEARTH_STKSTAT_STATE k) 2).putB (HEARTH_STKSTAT_KEPT k) kept).get (HEARTH_STKSTAT_STATE k) = 2 := by
    unfold State.putB
    rw [State.get_put_apart _ _ _ _ (show 6 ≤ 6 by decide) (show 6 < 64 by decide) (.inl (show 1 < 6 by decide)),
      State.get_put_self _ _ _ (show 0 ≤ 1 by decide) (show 1 < 64 by decide)]
    rfl
  have hs2 : ((u.put (HEARTH_STKSTAT_STATE k) 2).putB (HEARTH_STKSTAT_KEPT k) kept).on (HEARTH_STKSTAT_KEPT k) = kept :=
    State.on_putB_self _ _ _ rfl (show 6 < 64 by decide)
  have hs3 : ((u.put (HEARTH_STKSTAT_STATE k) 2).putB (HEARTH_STKSTAT_KEPT k) kept).fenced k = false := by
    unfold State.fenced State.on State.putB at *
    rw [State.get_put_apart _ _ _ _ (show 6 ≤ 6 by decide) (show 6 < 64 by decide) (.inl (show 5 < 6 by decide)),
      State.get_put_apart _ _ _ _ (show 0 ≤ 1 by decide) (show 1 < 64 by decide) (.inr (show 1 < 5 by decide))]
    exact hf
  have hreg : ∀ a, a ≠ HEARTH_STKSTAT k → ((u.put (HEARTH_STKSTAT_STATE k) 2).putB (HEARTH_STKSTAT_KEPT k) kept).rd a = u.rd a := fun a ha =>
    (State.rd_put_ne _ _ _ ha).trans (State.rd_put_ne _ _ _ ha)
  have hlow : HEARTH_STKSTAT k < BELLOWS_PDSTAT 0 := by simp only [HEARTH_STKSTAT, BELLOWS_PDSTAT]; omega
  have hdom : u.domsKept ((u.put (HEARTH_STKSTAT_STATE k) 2).putB (HEARTH_STKSTAT_KEPT k) kept) :=
    State.domsKept_trans (State.domsKept_put _ _ _ (.inl hlow)) (State.domsKept_put _ _ _ (.inl hlow))
  have hrest : ((u.put (HEARTH_STKSTAT_STATE k) 2).putB (HEARTH_STKSTAT_KEPT k) kept).hammer.avail = u.hammer.avail ∧
      ((u.put (HEARTH_STKSTAT_STATE k) 2).putB (HEARTH_STKSTAT_KEPT k) kept).pwr = u.pwr ∧
      ((u.put (HEARTH_STKSTAT_STATE k) 2).putB (HEARTH_STKSTAT_KEPT k) kept).now = u.now := by
    unfold State.putB
    rw [State.put_hammer, State.put_hammer, State.put_pwr, State.put_pwr, State.put_now, State.put_now]
    exact ⟨rfl, rfl, rfl⟩
  obtain ⟨havail, hpwr, hnow⟩ := hrest
  generalize (u.put (HEARTH_STKSTAT_STATE k) 2).putB (HEARTH_STKSTAT_KEPT k) kept = w at *
  -- the domain
  have hrd : ∀ j, j < 20 → (w.setDom (170 + k) true).rd (HEARTH_STKSTAT j) = w.rd (HEARTH_STKSTAT j) := fun j hj =>
    w.rd_setDom _ _ (stkstat_beside_pdWord hj _)
  have hon := w.domOn_setDom true (show 170 + k < 256 by omega)
  have he := w.setDom_rest (170 + k) true
  generalize w.setDom (170 + k) true = v at *
  refine ⟨fun j hj => ?_, fun j hj hjl => ?_, fun d hd hdk => ?_, by rw [he]; exact havail, by rw [he]; exact hpwr, by rw [he]; exact hnow⟩
  · obtain rfl : j = k := by simpa using hj
    unfold State.stackShows
    rw [hkept]
    dsimp only
    rw [if_neg (by rw [hf]; decide), if_neg hb]
    refine ⟨(congrArg (· == 1) (State.get_of_rd (hrd j hk))).trans hs3, (State.get_of_rd (hrd j hk)).trans hs1,
      (congrArg (· == 1) (State.get_of_rd (hrd j hk))).trans hs2, by rw [hon, if_pos rfl]⟩
  · refine (hrd j hj).trans (hreg _ ?_)
    have : j ≠ k := by simpa using hjl
    simp only [HEARTH_STKSTAT]
    omega
  · rw [hon, if_neg (hdk k (by simp)), hdom d hd]

/-- A stack that failed its training or exit check is fenced. -/
theorem State.stacksUp_fenced (u : State) (bad : List (Nat × Nat)) {k : Nat} (hk : k < 20) (hf : u.fenced k = false)
    (hb : (k, if (u.get (HEARTH_STKSTAT_STATE k) == 3) = true then 5 else 1) ∈ bad) :
    u.stacksUp (u.fenceStack k (if (u.get (HEARTH_STKSTAT_STATE k) == 3) = true then 5 else 1)) bad [k] := by
  have hc : (if (u.get (HEARTH_STKSTAT_STATE k) == 3) = true then 5 else 1) < 8 := by split <;> decide
  have h := State.fencedTo_fenceStack hk hf hc
  generalize u.fenceStack k _ = v at h ⊢
  have hrest := h.rest
  unfold State.withdraws at hrest
  refine ⟨fun j hj => ?_, fun j hj hjl => ?_, fun d hd hdk => ?_, by rw [hrest], by rw [hrest], by rw [hrest]⟩
  · obtain rfl : j = k := by simpa using hj
    unfold State.stackShows
    dsimp only
    rw [if_neg (by rw [hf]; decide), if_pos hb]
    exact ⟨h.fenced, h.fcause, by rw [h.doms _ (by omega), if_pos rfl]⟩
  · have hne : j ≠ k := by simpa using hjl
    obtain ⟨h1, h2⟩ := stkstat_other hj hne
    obtain ⟨-, h3, h4⟩ := stkstat_apart hj
    exact h.regs _ h1 h2 h4 h3
  · rw [h.doms d hd, if_neg (hdk k (by simp))]

/-- One stack comes up. -/
theorem State.stacksUp_one (u : State) (bad : List (Nat × Nat)) {k : Nat} (hk : k < 20) : u.stacksUp (u.stackUp bad k) bad [k] := by
  unfold State.stackUp
  by_cases hf : u.fenced k = true
  · rw [if_pos hf]
    refine ⟨fun j hj => ?_, fun _ _ _ => rfl, fun _ _ _ => rfl, rfl, rfl, rfl⟩
    obtain rfl : j = k := by simpa using hj
    unfold State.stackShows
    exact if_pos hf ▸ hf
  · have hf' : u.fenced k = false := by simpa using hf
    rw [if_neg hf]
    dsimp only
    by_cases hb : bad.contains (k, if (u.get (HEARTH_STKSTAT_STATE k) == 3) = true then 5 else 1) = true
    · rw [if_pos hb]
      exact u.stacksUp_fenced bad hk hf' (List.contains_iff_mem.mp hb)
    · rw [if_neg hb]
      exact u.stacksUp_trained bad hk hf' (fun h => hb (List.contains_iff_mem.mpr h))

/-- Stacks come up one after the other. -/
theorem State.stacksUp_foldl (u : State) (bad : List (Nat × Nat)) (l : List Nat) (hl : ∀ k ∈ l, k < 20) (hn : l.Nodup) :
    u.stacksUp (l.foldl (fun s k => s.stackUp bad k) u) bad l := by
  induction l generalizing u with
  | nil => exact ⟨nofun, fun _ _ _ => rfl, fun _ _ _ => rfl, rfl, rfl, rfl⟩
  | cons k r ih =>
    obtain ⟨hkr, hr⟩ := List.nodup_cons.mp hn
    have h := u.stacksUp_one bad (hl k (by simp))
    rw [List.foldl_cons]
    generalize u.stackUp bad k = w at *
    have g := ih w (fun j hj => hl j (by simp [hj])) hr
    generalize r.foldl _ w = v at *
    refine ⟨fun j hj => ?_, fun j hj hjl => ?_, fun d hd hdl => ?_, g.avail.trans h.avail, g.pwr.trans h.pwr, g.now.trans h.now⟩
    · rcases List.mem_cons.mp hj with rfl | hjr
      · have hlt := hl j (by simp)
        refine State.stackShows_congr (h.shows j (by simp)) rfl (g.others j hlt hkr) (g.doms _ (by omega) (fun i hi he => hkr ?_))
        rwa [show j = i by omega]
      · have hne : j ≠ k := fun e => hkr (e ▸ hjr)
        exact State.stackShows_congr (g.shows j hjr) (h.others j (hl j (by simp [hjr])) (by simpa using hne)).symm rfl rfl
    · have hjk : j ≠ k ∧ j ∉ r := by simpa using hjl
      exact (g.others j hj hjk.2).trans (h.others j hj (by simpa using hjk.1))
    · exact (g.doms d hd (fun i hi => hdl i (by simp [hi]))).trans (h.doms d hd (fun i hi => hdl i (by simp at hi; simp [hi])))

/-! ### Compute comes up: the end -/

/-- The registers that the end of bring-up leaves: stacks' status, reset status, power status. -/
def endRegs : Set Nat := {a | (∃ k, k < 20 ∧ a = HEARTH_STKSTAT k) ∨ a = BELLOWS_RSTSTAT ∨ a = BELLOWS_PWRSTAT}

/-- From `u` to `v` records were written and interfaces restarted. -/
structure State.restarts (u v : State) : Prop where
  regs : ∀ a ∈ endRegs, v.rd a = u.rd a
  doms : ∀ d, d ∉ [190, 191, 196] → v.domOn d = u.domOn d
  avail : v.hammer.avail = u.hammer.avail
  pwr : v.pwr = u.pwr

theorem State.restarts_refl (u : State) : u.restarts u := ⟨fun _ _ => rfl, fun _ _ => rfl, rfl, rfl⟩

theorem State.restarts_trans {u v w : State} (h : u.restarts v) (k : v.restarts w) : u.restarts w :=
  ⟨fun a ha => (k.regs a ha).trans (h.regs a ha), fun d hd => (k.doms d hd).trans (h.doms d hd), k.avail.trans h.avail, k.pwr.trans h.pwr⟩

theorem State.restarts_foldl {α : Type} (f : State → α → State) (l : List α) (h : ∀ s : State, ∀ x ∈ l, s.restarts (f s x)) (s : State) :
    s.restarts (l.foldl f s) := by
  induction l generalizing s with
  | nil => exact s.restarts_refl
  | cons x r ih => exact State.restarts_trans (h s x (by simp)) (ih (fun s y hy => h s y (by simp [hy])) _)

theorem endRegs_beside {a : Nat} (h : a ∈ endRegs) : a ∉ frontRegs ∧ logAddr a = false ∧ ∀ d, a ≠ pdWord d := by
  obtain ⟨k, hk, rfl⟩ | rfl | rfl := h
  · exact ⟨fun hf => (stkstat_apart hk).1 (.inl hf), stkstat_beside hk, stkstat_beside_pdWord hk⟩
  · refine ⟨fun hf => absurd hf.2 (by decide), by decide, fun d => ?_⟩
    unfold pdWord
    split <;> simp only [BELLOWS_RSTSTAT, BELLOWS_PDSTAT, BELLOWS_PDSTAT3] <;> omega
  · refine ⟨fun hf => absurd hf.2 (by decide), by decide, fun d => ?_⟩
    unfold pdWord
    split <;> simp only [BELLOWS_PWRSTAT, BELLOWS_PDSTAT, BELLOWS_PDSTAT3] <;> omega

theorem State.restarts_of_ends {u v : State} (h : u.ends v frontRegs) : u.restarts v := by
  have hrest := h.rest
  refine ⟨fun a ha => ?_, fun d hd => h.doms d (by simp at hd; omega), by rw [hrest], by rw [hrest]⟩
  obtain ⟨h1, h2, -⟩ := endRegs_beside ha
  exact h.regs a h1 h2

theorem State.ends_raise (u : State) (n : Nat) (hn : n < 256) (S : Set Nat) : u.ends (u.raise n) S :=
  State.ends_of_only (u.only_raise n hn []) (State.irqOnly_raise n u).2.1

/-- An interface goes down (R330). -/
theorem State.ends_ifcDown (u : State) {i : Nat} (hi : i < 4) : u.ends (u.ifcDown i) frontRegs := by
  have hup : (upField i).addr ∈ frontRegs := by
    unfold upField portOf frontRegs
    split <;> simp only [TONGS_PORTSTAT, Set.mem_ofPred_eq] <;> omega
  have hld : (TONGS_PORTSTAT_LINKDOWN (portOf i)).addr ∈ frontRegs := by
    unfold portOf frontRegs
    simp only [TONGS_PORTSTAT, Set.mem_ofPred_eq]
    omega
  unfold State.ifcDown
  extract_lets x w
  have hw : u.ends w frontRegs := u.ends_setIfc _ _
  split
  · exact State.ends_trans hw (State.ends_trans (w.ends_put_front _ _ hup) (State.ends_trans (State.ends_put_front _ _ _ hld)
      (State.ends_raise _ _ (by decide) _)))
  · exact hw

/-- A port restarts with no interface of it in use before (R330). -/
theorem State.restarts_portRestart (u : State) {p : Nat} (hp : p < 2) : u.restarts (u.portRestart p (fun _ => false)) := by
  have hdom : u.restarts (u.setDom (190 + p) (u.on (TONGS_PORTCFG_ENABLE p) && u.domOn 192)) := by
    generalize (u.on (TONGS_PORTCFG_ENABLE p) && u.domOn 192) = b
    have hrest := u.setDom_rest (190 + p) b
    have hon := u.domOn_setDom b (show 190 + p < 256 by omega)
    have hrd : ∀ a ∈ endRegs, (u.setDom (190 + p) b).rd a = u.rd a := fun a ha => u.rd_setDom _ _ ((endRegs_beside ha).2.2 _)
    generalize u.setDom (190 + p) b = v at *
    refine ⟨hrd, fun d hd => ?_, by rw [hrest], by rw [hrest]⟩
    rw [hon, if_neg (by simp at hd; omega)]
  unfold State.portRestart
  extract_lets w
  refine State.restarts_trans hdom (State.restarts_foldl _ _ (fun s i hi => ?_) w)
  have hlt : i < 4 := by simp at hi; omega
  extract_lets x y
  rw [if_pos (by simp)]
  exact State.restarts_of_ends (State.ends_trans (s.ends_ifcDown hlt) (x.ends_setIfc _ _))

/-- The end of bring-up: what was kept is shown, the module is active, and its interfaces start (R598 step 9). -/
def State.bringupEnd (s : State) : State :=
  let s := s.putB BELLOWS_RSTSTAT_KEPT (s.pwr.keep && (List.range 20).all (fun k => s.fenced k || s.on (HEARTH_STKSTAT_KEPT k)))
  let s := { s with pwr := { s.pwr with step := 10, stepAt := s.now } }
  ((s.put BELLOWS_PWRSTAT_STATE 4).resetRecord.portRestart 0 (fun _ => false)).portRestart 1 (fun _ => false)

/-- What it shows and what it leaves. -/
structure State.ended (u v : State) : Prop where
  kept : v.on BELLOWS_RSTSTAT_KEPT = (u.pwr.keep && (List.range 20).all (fun k => u.fenced k || u.on (HEARTH_STKSTAT_KEPT k)))
  state : v.get BELLOWS_PWRSTAT_STATE = 4
  pwr : v.pwr = { u.pwr with step := 10, stepAt := u.now }
  stk : u.stkKept v
  doms : ∀ d, d ∉ [190, 191, 196] → v.domOn d = u.domOn d
  avail : v.hammer.avail = u.hammer.avail

theorem State.ended_bringupEnd (u : State) : u.ended u.bringupEnd := by
  have htail : ∀ s : State, s.restarts ((s.resetRecord.portRestart 0 (fun _ => false)).portRestart 1 (fun _ => false)) := fun s =>
    State.restarts_trans (State.restarts_of_ends (s.ends_event _ _ _ _ _ _ _))
      (State.restarts_trans (State.restarts_portRestart _ (by decide)) (State.restarts_portRestart _ (by decide)))
  unfold State.bringupEnd
  generalize hb : (u.pwr.keep && (List.range 20).all (fun k => u.fenced k || u.on (HEARTH_STKSTAT_KEPT k))) = b
  -- what was kept
  have h1 : (u.putB BELLOWS_RSTSTAT_KEPT b).on BELLOWS_RSTSTAT_KEPT = b := State.on_putB_self _ _ _ rfl (by decide)
  have h2 : ∀ a, a ≠ BELLOWS_RSTSTAT → (u.putB BELLOWS_RSTSTAT_KEPT b).rd a = u.rd a := fun a ha => State.rd_put_ne _ _ _ ha
  have h3 : u.domsKept (u.putB BELLOWS_RSTSTAT_KEPT b) := State.domsKept_put _ _ _ (.inl (by decide))
  have h4 : u.putB BELLOWS_RSTSTAT_KEPT b = { u with csr := (u.putB BELLOWS_RSTSTAT_KEPT b).csr } := u.put_rest _ _
  generalize u.putB BELLOWS_RSTSTAT_KEPT b = v at *
  have hpwr : v.pwr = u.pwr ∧ v.now = u.now ∧ v.hammer = u.hammer := by rw [h4]; exact ⟨rfl, rfl, rfl⟩
  obtain ⟨hpwr, hnow, hham⟩ := hpwr
  -- the state
  have k1 : (State.put { v with pwr := { v.pwr with step := 10, stepAt := v.now } } BELLOWS_PWRSTAT_STATE 4).get BELLOWS_PWRSTAT_STATE = 4 :=
    (State.get_put_self _ _ _ (by decide) (by decide)).trans rfl
  have k2 : ∀ a, a ≠ BELLOWS_PWRSTAT →
      (State.put { v with pwr := { v.pwr with step := 10, stepAt := v.now } } BELLOWS_PWRSTAT_STATE 4).rd a = v.rd a := fun a ha =>
    (State.rd_put_ne _ _ _ ha).trans (v.rd_withPwr _ _)
  have k3 : (State.put { v with pwr := { v.pwr with step := 10, stepAt := v.now } } BELLOWS_PWRSTAT_STATE 4).pwr =
      { u.pwr with step := 10, stepAt := u.now } := by rw [State.put_pwr, ← hpwr, ← hnow]
  have k4 : (State.put { v with pwr := { v.pwr with step := 10, stepAt := v.now } } BELLOWS_PWRSTAT_STATE 4).hammer = v.hammer :=
    State.put_hammer _ _ _
  have k5 : v.domsKept (State.put { v with pwr := { v.pwr with step := 10, stepAt := v.now } } BELLOWS_PWRSTAT_STATE 4) :=
    State.domsKept_trans (fun _ _ => rfl) (State.domsKept_put _ _ _ (.inl (by decide)))
  dsimp only
  generalize State.put _ BELLOWS_PWRSTAT_STATE 4 = y at *
  -- the record and the interfaces
  obtain ⟨t1, t2, t3, t4⟩ := htail y
  generalize State.portRestart _ 1 _ = z at *
  have hrst : BELLOWS_RSTSTAT ∈ endRegs := .inr (.inl rfl)
  have hpst : BELLOWS_PWRSTAT ∈ endRegs := .inr (.inr rfl)
  refine ⟨?_, (State.get_of_rd (t1 _ hpst)).trans k1, t4.trans k3, fun k hk => ?_, fun d hd => ?_, by rw [t3, k4, hham]⟩
  · exact (congrArg (· == 1) ((State.get_of_rd (t1 _ hrst)).trans (State.get_of_rd (k2 _ (by decide))))).trans (h1.trans hb.symm)
  · have hlt : HEARTH_STKSTAT k ≠ BELLOWS_PWRSTAT ∧ HEARTH_STKSTAT k ≠ BELLOWS_RSTSTAT := by
      constructor <;> simp only [HEARTH_STKSTAT, BELLOWS_PWRSTAT, BELLOWS_RSTSTAT] <;> omega
    exact (t1 _ (.inl ⟨k, hk, rfl⟩)).trans ((k2 _ hlt.1).trans (h2 _ hlt.2))
  · have hne : d ≠ 196 := by simp at hd; omega
    exact (t2 d hd).trans ((k5 d hne).trans (h3 d hne))

/-- Bring-up is done (R598 steps 7 to 9): the domains on, the Anvils that failed held, the stacks up or fenced. -/
theorem exec_bringupReady {s : State} {t : Nat} (badA : List Nat) (badS : List (Nat × Nat)) (hs : s.pwr.step = 7) :
    exec (.bringupReady badA badS t) s = .next (State.bringupEnd ((List.range 20).foldl (fun s k => s.stackUp badS k)
      ((badA.filter (· < 160)).foldl (fun s g => s.holdAnvil g 0)
        (((s.at t).domsOn (193 :: 194 :: List.range 170)).onHammer (fun h => { h with avail := BitVec.allOnes 160 }))))) := by
  rw [show exec (.bringupReady badA badS t) s = execBringupReady badA badS t s from rfl]
  unfold execBringupReady State.bringupEnd State.domsOn
  rw [← s.pwr_at t] at hs
  generalize s.at t = u at *
  refine (if_neg (by simp [hs])).trans ?_
  rw [List.foldl_cons, List.foldl_cons]

/-- Every Anvil made available. -/
structure State.availAll (u v : State) : Prop where
  avail : ∀ g, g < 160 → v.hammer.avail.getLsbD g = true
  run : v.hammer.run = u.hammer.run
  regs : ∀ a, v.rd a = u.rd a
  doms : ∀ d, v.domOn d = u.domOn d
  pwr : v.pwr = u.pwr
  now : v.now = u.now

theorem State.availAll_onHammer (u : State) : u.availAll (u.onHammer (fun h => { h with avail := BitVec.allOnes 160 })) := by
  refine ⟨fun g hg => ?_, rfl, fun _ => rfl, fun d => State.domOn_congr (fun _ _ _ => rfl) d, rfl, rfl⟩
  exact (BitVec.getLsbD_allOnes).trans (decide_eq_true hg)

theorem bringupReady_runs (s : State) (t : Nat) (badA : List Nat) (badS : List (Nat × Nat)) (hs : s.pwr.step = 7)
    (hr : s.hammer.run = none) : s.runs (.bringupReady badA badS t) (fun v =>
      v.pwr = { s.pwr with step := 10, stepAt := (s.at t).now } ∧ v.get BELLOWS_PWRSTAT_STATE = 4 ∧ v.domOn 193 = true ∧ v.domOn 194 = true ∧
      v.on BELLOWS_RSTSTAT_KEPT =
        (s.pwr.keep && (List.range 20).all (fun k => v.fenced k || v.on (HEARTH_STKSTAT_KEPT k))) ∧ (∀ h, h < 10 → v.domOn (160 + h) = true) ∧
      (∀ g, g < 160 → v.domOn g = !badA.contains g ∧ v.hammer.avail.getLsbD g = !badA.contains g) ∧
      ∀ k, k < 20 → s.stackShows v badS k) := by
  refine ⟨_, exec_bringupReady badA badS hs, ?_⟩
  have hstk : s.stkKept (s.at t) := fun k _ => s.rd_at t _
  have hrun : (s.at t).hammer.run = none := by rw [s.hammer_at]; exact hr
  rw [← s.pwr_at t]
  generalize s.at t = u at *
  -- the domains
  obtain ⟨a1, a2, a3⟩ := u.domsOn_facts (193 :: 194 :: List.range 170) (fun d hd => by simp at hd; omega)
  generalize u.domsOn (193 :: 194 :: List.range 170) = a at *
  have hlist : ∀ d, (193 :: 194 :: List.range 170).contains d = true ↔ d = 193 ∨ d = 194 ∨ d < 170 := fun d => by simp
  obtain ⟨b1, b2, b3, b4, b5, b6⟩ := a.availAll_onHammer
  generalize a.onHammer (fun h => { h with avail := BitVec.allOnes 160 }) = b at *
  have hon : ∀ d, d = 193 ∨ d = 194 ∨ d < 170 → b.domOn d = true := fun d hd => by
    rw [b4, a1 d, (hlist d).mpr hd]
    rfl
  have hpn : a.pwr = u.pwr ∧ a.now = u.now ∧ a.hammer = u.hammer := by
    rw [a3]
    exact ⟨rfl, rfl, rfl⟩
  -- the Anvils that failed
  have c := b.heldAll_foldl (badA.filter (· < 160)) (fun g hg => by simpa using (List.mem_filter.mp hg).2) (b2.trans (by rw [hpn.2.2]; exact hrun))
  generalize (badA.filter (· < 160)).foldl _ b = c' at *
  have hbad : ∀ g, g < 160 → (badA.filter (· < 160)).contains g = badA.contains g := fun g hg => by
    rw [Bool.eq_iff_iff]
    simp [hg]
  have hnot : ∀ d, 160 ≤ d → (badA.filter (· < 160)).contains d = false := fun d hd => by
    refine Bool.eq_false_iff.mpr (fun h => ?_)
    have hlt := (List.mem_filter.mp (List.contains_iff_mem.mp h)).2
    exact absurd (of_decide_eq_true hlt) (by omega)
  -- the stacks
  have d := c'.stacksUp_foldl badS (List.range 20) (fun k hk => List.mem_range.mp hk) List.nodup_range
  generalize (List.range 20).foldl _ c' = d' at *
  -- the end
  have e := d'.ended_bringupEnd
  generalize d'.bringupEnd = v at *
  have hdom : ∀ x, x < 170 ∨ x = 193 ∨ x = 194 → v.domOn x = (b.domOn x && !(badA.filter (· < 160)).contains x) := fun x hx => by
    rw [e.doms x (by simp; omega), d.doms x (by omega) (fun k hk => by have := List.mem_range.mp hk; omega), c.doms x (by omega)]
  have hhigh : ∀ x, 160 ≤ x → x < 170 ∨ x = 193 ∨ x = 194 → v.domOn x = true := fun x h1 h2 => by
    rw [hdom x h2, hon x (by omega), hnot x h1]
    rfl
  have hfen : ∀ k < 20, v.fenced k = d'.fenced k ∧ v.on (HEARTH_STKSTAT_KEPT k) = d'.on (HEARTH_STKSTAT_KEPT k) := fun k hk =>
    ⟨congrArg (· == 1) (State.get_of_rd (e.stk k hk)), congrArg (· == 1) (State.get_of_rd (e.stk k hk))⟩
  have hpwr : d'.pwr = u.pwr := d.pwr.trans (c.pwr.trans (b5.trans hpn.1))
  have hnow : d'.now = u.now := d.now.trans (c.now.trans (b6.trans hpn.2.1))
  refine ⟨by rw [e.pwr, hpwr, hnow], e.state, hhigh _ (by decide) (by decide), hhigh _ (by decide) (by decide), ?_,
    fun h hh => hhigh _ (by omega) (by omega), fun g hg => ⟨?_, ?_⟩, fun k hk => ?_⟩
  · rw [e.kept, hpwr]
    congr 1
    rw [Bool.eq_iff_iff, List.all_eq_true, List.all_eq_true]
    refine forall₂_congr (fun k hk => ?_)
    obtain ⟨h1, h2⟩ := hfen k (List.mem_range.mp hk)
    rw [h1, h2]
  · rw [hdom g (by omega), hon g (by omega), hbad g hg]
    rfl
  · rw [e.avail, d.avail, c.avail, b1 g hg, hbad g hg]
    rfl
  · have hbk : b.rd (HEARTH_STKSTAT k) = a.rd (HEARTH_STKSTAT k) := b3 _
    exact State.stackShows_congr (d.shows k (List.mem_range.mpr hk)) ((c.stk k hk).trans (hbk.trans ((a2 k hk).trans (hstk k hk)))).symm
      (e.stk k hk) (e.doms _ (by simp; omega))

end Sys2Proof.Machine
end

