-- ==== Sys2Proof/Proofs/RomRules.lean ====
section
/-! BringUp (O50), the ROM: what its doings leave as it was. -/

namespace Sys2Proof.Machine

/-! ### The ROM: what stays -/

/-- The security summary as it was. -/
def State.secKept (u v : State) : Prop := v.get BELLOWS_ERRSUM_SEC = u.get BELLOWS_ERRSUM_SEC

theorem State.secKept_refl (u : State) : u.secKept u := rfl

theorem State.secKept_trans {u v w : State} (h : u.secKept v) (k : v.secKept w) : u.secKept w := Eq.trans k h

theorem State.secKept_csr {u v : State} (h : v.csr = u.csr) : u.secKept v := State.get_of_rd (by unfold State.rd; rw [h])

theorem State.secKept_put (u : State) (f : Fd) (x : Nat) (h : f.addr ≠ BELLOWS_ERRSUM) : u.secKept (u.put f x) :=
  State.get_put_ne _ _ _ _ h.symm

theorem State.secKept_foldl {α : Type} (f : State → α → State) (l : List α) (h : ∀ s x, State.secKept s (f s x)) (s : State) :
    s.secKept (l.foldl f s) := by
  induction l generalizing s with
  | nil => exact s.secKept_refl
  | cons x r ih => exact State.secKept_trans (h s x) (ih _)

theorem State.secKept_irq {n : Nat} {u v : State} (h : u.irqOnly n v) : u.secKept v :=
  State.get_of_rd (h.1 BELLOWS_ERRSUM (by unfold irqAddr; simp only [BIC_SRCSTAT, BELLOWS_ERRSUM, BELLOWS_PDSTAT3, MGMT_STAT,
    Bool.or_eq_false_iff, beq_eq_false_iff_ne]; omega))

theorem State.secKept_appendEvt (u : State) (e : Evt) : u.secKept (u.appendEvt e) :=
  State.secKept_trans (u.secKept_put _ _ (by decide)) (State.secKept_csr rfl)

theorem State.secKept_evrecSync (u : State) : u.secKept u.evrecSync :=
  State.secKept_trans (u.secKept_put _ _ (by decide)) (State.secKept_trans (State.secKept_put _ _ _ (by decide))
    (State.secKept_irq (State.irqOnly_setLevel _ _ _)))

theorem State.secKept_dropGroup (u : State) (g : List Evt) : u.secKept (u.dropGroup g) := by
  cases g with
  | nil => exact u.secKept_refl
  | cons e l =>
    have h1 : u.secKept (u.add EVREC_STAT_DROPPED (e :: l).length) := u.secKept_put _ _ (by decide)
    have h2 : State.secKept (u.add EVREC_STAT_DROPPED (e :: l).length) ((u.add EVREC_STAT_DROPPED (e :: l).length).put BELLOWS_ERRSUM_EVDROP 1) :=
      State.get_put_apart _ _ _ _ (by decide) (by decide) (.inr (by decide))
    exact State.secKept_trans h1 (State.secKept_trans h2 (State.secKept_csr rfl))

theorem State.secKept_eventGroup (u : State) (g : List Evt) : u.secKept (u.eventGroup g).2 := by
  unfold State.eventGroup
  split
  · exact u.secKept_refl
  · rename_i e tail
    extract_lets n low lost
    clear_value lost
    split
    · exact u.secKept_dropGroup (e :: tail)
    · refine State.secKept_trans (State.secKept_foldl State.appendEvt lost State.secKept_appendEvt u)
        (State.secKept_trans (State.secKept_foldl State.appendEvt (e :: tail) State.secKept_appendEvt _)
          (State.secKept_trans ?_ (State.secKept_evrecSync _)))
      exact State.secKept_csr rfl

theorem State.secKept_eventSeq (u : State) (code sev src p0 p1 p2 : Nat) : u.secKept (u.eventSeq code sev src p0 p1 p2).2 := by
  unfold State.eventSeq
  extract_lets e
  split
  · split
    · refine State.secKept_trans ?_ (State.secKept_evrecSync _)
      exact State.secKept_csr rfl
    · exact State.secKept_eventGroup _ _
  · exact State.secKept_eventGroup _ _

theorem State.secKept_eventIrq (u : State) (irq code sev src p0 p1 p2 : Nat) : u.secKept (u.eventIrq irq code sev src p0 p1 p2) := by
  unfold State.eventIrq
  exact State.secKept_trans (u.secKept_eventSeq ..) (State.secKept_trans
    (State.secKept_put _ _ _ (by simp only [BIC_SRCSTAT, BELLOWS_ERRSUM]; omega)) (State.secKept_irq (State.irqOnly_raise _ _)))

/-- From `u` to `v` a step of the boot: registers of the set and the log may differ, but not the security summary, and of the rest
neither the memory nor Hammer, the sequencer, the security state, the valves and the time. -/
structure State.boots (u v : State) (S : Set Nat) : Prop where
  regs : ∀ a, a ∉ S → logAddr a = false → v.rd a = u.rd a
  sec : u.secKept v
  mem : v.mem = u.mem
  hammer : v.hammer = u.hammer
  pwr : v.pwr = u.pwr
  secb : v.secb = u.secb
  tuyere : v.tuyere = u.tuyere
  now : v.now = u.now

section
variable {u v w : State} {S T : Set Nat}

theorem State.boots_refl (u : State) (S : Set Nat) : u.boots u S := ⟨fun _ _ _ => rfl, rfl, rfl, rfl, rfl, rfl, rfl, rfl⟩

theorem State.boots_trans (h : u.boots v S) (k : v.boots w S) : u.boots w S :=
  ⟨fun a ha hl => (k.regs a ha hl).trans (h.regs a ha hl), State.secKept_trans h.sec k.sec, k.mem.trans h.mem, k.hammer.trans h.hammer,
    k.pwr.trans h.pwr, k.secb.trans h.secb, k.tuyere.trans h.tuyere, k.now.trans h.now⟩

theorem State.boots_foldl {α : Type} (f : State → α → State) (l : List α) (h : ∀ s : State, ∀ x ∈ l, s.boots (f s x) S) (s : State) :
    s.boots (l.foldl f s) S := by
  induction l generalizing s with
  | nil => exact s.boots_refl S
  | cons x r ih => exact State.boots_trans (h s x (by simp)) (ih (fun s y hy => h s y (by simp [hy])) _)

theorem State.boots_wr (u : State) {a : Nat} (x : Word) (hm : a ∈ S) (hne : a ≠ BELLOWS_ERRSUM) : u.boots (u.wr a x) S :=
  ⟨fun _ hb _ => State.rd_wr_ne _ _ (fun e => hb (e ▸ hm)), State.get_wr_ne _ _ _ hne.symm, rfl, rfl, rfl, rfl, rfl, rfl⟩

theorem State.boots_put (u : State) (f : Fd) (x : Nat) (hm : f.addr ∈ S) (hne : f.addr ≠ BELLOWS_ERRSUM) : u.boots (u.put f x) S :=
  u.boots_wr _ hm hne

theorem State.boots_fresh (u : State) (n : Nat) : u.boots (u.fresh n).2 S := ⟨fun _ _ _ => rfl, rfl, rfl, rfl, rfl, rfl, rfl, rfl⟩

theorem State.boots_can (u : State) (c : Can) : u.boots { u with can := c } S := ⟨fun _ _ _ => rfl, rfl, rfl, rfl, rfl, rfl, rfl, rfl⟩

theorem State.boots_of_only (h : u.only v []) (hs : u.secKept v) : u.boots v S := by
  obtain ⟨h1, -, h3⟩ := h
  exact ⟨fun a _ hl => h1 a (by simp) hl, hs, by rw [h3], by rw [h3], by rw [h3], by rw [h3], by rw [h3], by rw [h3]⟩

theorem State.boots_event (u : State) (code sev src p0 p1 p2 : Nat) : u.boots (u.event code sev src p0 p1 p2) S :=
  State.boots_of_only (u.only_event code sev src p0 p1 p2 []) (u.secKept_eventSeq code sev src p0 p1 p2)

theorem State.boots_eventIrq (u : State) (irq code sev src p0 p1 p2 : Nat) (h : irq < 256) :
    u.boots (u.eventIrq irq code sev src p0 p1 p2) S :=
  State.boots_of_only (u.only_eventIrq irq code sev src p0 p1 p2 h []) (u.secKept_eventIrq irq code sev src p0 p1 p2)

theorem State.boots_setLevel (u : State) (n : Nat) (b : Bool) (h : n < 256) : u.boots (u.setLevel n b) S :=
  State.boots_of_only (u.only_setLevel n b h []) (State.secKept_irq (State.irqOnly_setLevel n u b))

end

end Sys2Proof.Machine
end

