-- ==== Sys2Proof/Proofs/FirmwareStart.lean ====
section
/-! BringUp (O50), the firmware starts: the link, the valves and the state it leaves. -/

namespace Sys2Proof.Machine

/-! ### Firmware starts -/

/-- The registers of the CAN controller and of the management port. -/
def linkRegs : Set Nat := {a | a / 65536 = 0x38000005 ∨ a / 65536 = 0x38000006}

theorem linkRegs_ne_errsum {a : Nat} (h : a ∈ linkRegs) : a ≠ BELLOWS_ERRSUM := by
  have hl : a / 65536 = 0x38000005 ∨ a / 65536 = 0x38000006 := h
  simp only [BELLOWS_ERRSUM]
  omega

/-- A register of the CAN controller put. -/
theorem State.boots_can_put (u : State) (f : Fd) (x : Nat) (h : f.addr / 65536 = 0x38000005) : u.boots (u.put f x) linkRegs :=
  u.boots_put f x (.inl h) (linkRegs_ne_errsum (.inl h))

theorem State.boots_window (u : State) {k : Nat} (mark ty buf : Nat) (hk : k < 32) : u.boots (u.window k mark ty buf) linkRegs := by
  have h : ∀ (s : State) (f : Fd) x, f.addr = CANFD_TRIG k → s.boots (s.put f x) linkRegs := fun s f x hf =>
    s.boots_can_put f x (by rw [hf]; simp only [CANFD_TRIG]; omega)
  unfold State.window
  exact State.boots_trans (h _ _ _ rfl) (State.boots_trans (h _ _ _ rfl) (State.boots_trans (h _ _ _ rfl)
    (State.boots_trans (h _ _ _ rfl) (h _ _ _ rfl))))

theorem State.boots_boardBuffer (u : State) {b : Nat} (hb : b < 64) : u.boots (u.boardBuffer b) linkRegs := by
  have h : ∀ (s : State) (f : Fd) x, f.addr = CANFD_BCFG b → s.boots (s.put f x) linkRegs := fun s f x hf =>
    s.boots_can_put f x (by rw [hf]; simp only [CANFD_BCFG]; omega)
  unfold State.boardBuffer
  extract_lets s1 s2
  have h1 : u.boots s1 linkRegs := State.boots_trans (h _ _ _ rfl) (State.boots_trans (h _ _ _ rfl) (h _ _ _ rfl))
  have h2 : s1.boots s2 linkRegs := State.boots_trans (h _ _ _ rfl) (State.boots_trans (h _ _ _ rfl) (h _ _ _ rfl))
  exact State.boots_trans h1 (State.boots_trans h2 (h _ _ _ rfl))

/-- The default board matrix writes registers of the CAN controller. -/
theorem State.boots_boardMatrix (u : State) : u.boots u.boardMatrix linkRegs := by
  have hb : (u.fresh 64).1 < 64 := Nat.mod_lt _ (by decide)
  have hu : u.boots (u.fresh 64).2 linkRegs := u.boots_fresh 64
  unfold State.boardMatrix
  split
  next b s heq =>
  rw [heq] at hb hu
  extract_lets n s1
  have h1 : s.boots s1 linkRegs := State.boots_trans (s.boots_boardBuffer hb) (State.boots_window _ _ _ _ (by decide))
  have h2 : ∀ p : Nat × State, p = (if n < 7 then (2, s1.window 1 (300 + 200 * n) 2 0) else (1, s1)) → p.1 < 31 ∧ s1.boots p.2 linkRegs := by
    rintro p rfl
    split
    · exact ⟨show 2 < 31 by decide, s1.boots_window _ _ _ (by decide)⟩
    · exact ⟨show 1 < 31 by decide, s1.boots_refl _⟩
  split
  next k s2 hq =>
  obtain ⟨hk, h3⟩ := h2 _ hq.symm
  extract_lets s3 s4
  have h4 : s2.boots s3 linkRegs := State.boots_trans (s2.boots_window _ _ _ (by omega)) (State.boots_window _ _ _ _ (by omega))
  have h5 : s3.boots s4 linkRegs := State.boots_trans (s3.boots_can_put CANFD_TTCFG_CYCLEN _ (by decide))
    (State.boots_trans (State.boots_can_put _ CANFD_TTCFG_CCM _ (by decide)) (State.boots_can_put _ CANFD_TTCFG_TXEW _ (by decide)))
  exact State.boots_trans hu (State.boots_trans h1 (State.boots_trans h3 (State.boots_trans h4 (State.boots_trans h5
    (s4.boots_can_put CANFD_TTCFG_NTRIG _ (by decide))))))

/-- The owner's configuration writes the registers that it is given. -/
theorem State.boots_loadOwner (u : State) (l : List Nat) (hl : ∀ a ∈ l, a / 65536 = 0x38000005 ∨ a / 65536 = 0x38000006) :
    u.boots (u.loadOwner l) linkRegs := by
  unfold State.loadOwner
  split
  · exact u.boots_refl _
  · refine State.boots_foldl _ _ (fun s a ha => ?_) u
    unfold State.loadReg
    split
    · exact s.boots_wr _ (hl a ha) (linkRegs_ne_errsum (hl a ha))
    · exact s.boots_refl _

theorem ownerRegs_link : ∀ a ∈ ownerRegs, a / 65536 = 0x38000005 ∨ a / 65536 = 0x38000006 := by decide

theorem portRegs_link : ∀ a ∈ portRegs, a / 65536 = 0x38000005 ∨ a / 65536 = 0x38000006 := by decide

/-- The status of time-triggered operation shown where it starts. -/
theorem State.boots_ttEnable (u : State) : u.boots (u.ttEnable true) linkRegs ∧
    ∀ a, a / 65536 = 0x38000005 → a ≠ CANFD_TTSTAT → (u.ttEnable true).rd a = u.rd a := by
  unfold State.ttEnable
  extract_lets _ c w e
  rw [if_pos rfl]
  have hw : u.boots w linkRegs := u.boots_can c
  have h1 : w.boots (w.put CANFD_TTSTAT_ERR e) linkRegs := w.boots_can_put _ _ (by decide)
  refine ⟨State.boots_trans hw (State.boots_trans h1 (State.boots_can_put _ _ _ (by decide))), fun a _ ha => ?_⟩
  exact (State.rd_put_ne _ CANFD_TTSTAT_TTSTATE _ ha).trans (State.rd_put_ne _ CANFD_TTSTAT_ERR _ ha)

/-! ### The branch valve -/

/-- From `u` to `v` a valve moved: its status and the valves' own state, but not the sequence of openings. -/
structure State.valved (u v : State) (c : Nat) : Prop where
  regs : ∀ a, a ≠ TUYERE_VSTAT c → v.rd a = u.rd a
  seq : v.tuyere.seq = u.tuyere.seq
  rest : v = { u with csr := v.csr, tuyere := v.tuyere }

section
variable (u : State) (c : Nat)

theorem State.valved_refl : u.valved u c := ⟨fun _ _ => rfl, rfl, rfl⟩

theorem State.valved_trans {u v w : State} {c : Nat} (h : u.valved v c) (k : v.valved w c) : u.valved w c :=
  ⟨fun a ha => (k.regs a ha).trans (h.regs a ha), k.seq.trans h.seq, by rw [k.rest, h.rest]⟩

theorem State.valved_put (f : Fd) (x : Nat) (h : f.addr = TUYERE_VSTAT c) : u.valved (u.put f x) c :=
  ⟨fun _ ha => State.rd_put_ne _ _ _ (by rw [h]; exact ha), rfl, rfl⟩

theorem State.valved_setValve (i : Nat) (v : Valve) : u.valved (u.setValve i v) c := ⟨fun _ _ => rfl, rfl, rfl⟩

theorem State.valved_freeHigh : u.valved (u.freeHigh c) c := by
  unfold State.freeHigh
  split
  · exact ⟨fun _ _ => rfl, rfl, rfl⟩
  · exact u.valved_refl c

theorem State.valved_enterValve (st : Nat) : u.valved (u.enterValve c st) c := by
  unfold State.enterValve
  extract_lets was s1 _ _ s2 is _ s3
  have h1 : u.valved s1 c := u.valved_put c (TUYERE_VSTAT_STATE c) _ rfl
  have h2 : s1.valved s2 c := s1.valved_setValve c _ _
  have h3 : s2.valved s3 c := s2.valved_setValve c _ _
  have h4 : ∀ s : State, s.valved (s.showCurrent c) c := fun s => by
    unfold State.showCurrent
    split
    · exact s.valved_put c (TUYERE_VSTAT_ICOIL c) _ rfl
    · exact s.valved_put c (TUYERE_VSTAT_ICOIL c) _ rfl
    · exact s.valved_put c (TUYERE_VSTAT_ICOIL c) _ rfl
    · exact s.valved_refl c
  exact State.valved_trans h1 (State.valved_trans h2 (State.valved_trans h3
    (State.valved_trans (State.valved_put _ c (TUYERE_VSTAT_WINPCT c) _ rfl) (h4 _))))

theorem State.valved_vRequest (hold : Bool) : u.valved (u.vRequest c hold) c :=
  State.valved_trans (u.valved_setValve c _ _) (State.valved_enterValve _ c _)

theorem State.valved_vOpen : u.valved (u.vOpen c) c := by
  unfold State.vOpen
  split
  · exact u.valved_refl c
  · split
    · exact u.valved_vRequest c false
    · exact State.valved_trans (u.valved_freeHigh c) (State.valved_vRequest _ c true)
    · exact State.valved_trans (u.valved_freeHigh c) (State.valved_vRequest _ c true)
    · exact u.valved_vRequest c true
    · exact u.valved_setValve c _ _
    · exact u.valved_refl c

theorem State.valved_vClose : u.valved (u.vClose c) c := by
  unfold State.vClose
  extract_lets st _ w _
  have hw : u.valved w c := u.valved_setValve c _ _
  have hclose : ∀ (x : State) (v : Valve) (n : Nat), w.valved x c → w.valved ((x.setValve c v).enterValve c n) c :=
    fun x v n hx => State.valved_trans hx (State.valved_trans (x.valved_setValve c _ _) (State.valved_enterValve _ c _))
  refine State.valved_trans hw ?_
  clear_value st w
  split
  · exact w.valved_enterValve c 0
  · exact hclose _ _ 5 (w.valved_freeHigh c)
  · exact hclose _ _ 5 (w.valved_freeHigh c)
  · exact hclose _ _ 5 (w.valved_refl c)
  · exact w.valved_refl c

theorem State.valved_vRetarget : u.valved (u.vRetarget c) c := by
  unfold State.vRetarget
  extract_lets s1 w v s2
  have h1 : u.valved s1 c := by
    unfold s1 State.vFlag
    split
    · exact u.valved_put c (TUYERE_VSTAT_FORCED c) _ rfl
    · exact u.valved_refl c
  have h2 : s1.valved s2 c := s1.valved_setValve c _ _
  refine State.valved_trans h1 ?_
  split
  · exact s1.valved_refl c
  · split
    · exact State.valved_trans h2 (s2.valved_vOpen c)
    · exact State.valved_trans h2 (s2.valved_vClose c)

end

/-! ### Firmware has started -/

/-- A channel commanded open in mode FIXED. -/
def State.fixedOpen (u : State) (c : Nat) : State := (u.put (TUYERE_VCMD_MODE c) 2).put (TUYERE_VCMD_FIXCMD c) 1

/-- What that shows, and what it leaves. -/
structure State.commanded (u v : State) (c : Nat) : Prop where
  mode : v.get (TUYERE_VCMD_MODE c) = 2
  fixed : v.on (TUYERE_VCMD_FIXCMD c) = true
  regs : ∀ a, a ≠ TUYERE_VCMD c → v.rd a = u.rd a
  rest : v = { u with csr := v.csr }

theorem State.commanded_fixedOpen (u : State) (c : Nat) : u.commanded (u.fixedOpen c) c := by
  unfold State.fixedOpen
  refine ⟨?_, ?_, fun a ha => (State.rd_put_ne _ _ _ ha).trans (State.rd_put_ne _ _ _ ha), ?_⟩
  · rw [State.get_put_apart _ _ _ _ (show 3 ≤ 3 by decide) (show 3 < 64 by decide) (.inl (show 1 < 3 by decide)),
      State.get_put_self _ _ _ (show 0 ≤ 1 by decide) (show 1 < 64 by decide)]
    rfl
  · unfold State.on
    rw [State.get_put_self _ _ _ (show 3 ≤ 3 by decide) (show 3 < 64 by decide)]
    rfl
  · have h1 := u.put_rest (TUYERE_VCMD_MODE c) 2
    generalize u.put (TUYERE_VCMD_MODE c) 2 = v at *
    have h2 := v.put_rest (TUYERE_VCMD_FIXCMD c) 1
    generalize v.put (TUYERE_VCMD_FIXCMD c) 1 = w at *
    rw [h2, h1]

/-- From `u` to `v` firmware started (R522, R598 step 3). -/
structure State.started (u v : State) : Prop where
  mem : v.mem = u.mem
  hammer : v.hammer = u.hammer
  secb : v.secb = u.secb
  sec : u.secKept v
  pwr : v.pwr = { u.pwr with step := 3, stepAt := u.now }
  seq : v.tuyere.seq = true
  link : v.on CANFD_CTL_EN = true
  timed : v.on CANFD_TTCFG_TTEN = true
  branches : ∀ c ∈ [8, 9], v.get (TUYERE_VCMD_MODE c) = 2 ∧ v.on (TUYERE_VCMD_FIXCMD c) = true
  state : v.get BELLOWS_PWRSTAT_STATE = 2
  version : v.get SEC_SECSTAT_FWSVN = u.get SEC_SECSTAT_FWSVN

/-- The board link on, with time-triggered operation (R548, R598 step 3). -/
def State.linkOn (u : State) : State := (((u.boardMatrix.loadOwner ownerRegs).put CANFD_CTL_EN 1).put CANFD_TTCFG_TTEN 1).ttEnable true

theorem State.linkOn_facts (u : State) : u.boots u.linkOn linkRegs ∧ u.linkOn.get CANFD_CTL_EN = 1 ∧ u.linkOn.get CANFD_TTCFG_TTEN = 1 := by
  unfold State.linkOn
  have h1 : u.boots (u.boardMatrix.loadOwner ownerRegs) linkRegs :=
    State.boots_trans u.boots_boardMatrix (State.boots_loadOwner _ _ ownerRegs_link)
  generalize u.boardMatrix.loadOwner ownerRegs = v at *
  have h2 : v.boots ((v.put CANFD_CTL_EN 1).put CANFD_TTCFG_TTEN 1) linkRegs :=
    State.boots_trans (v.boots_can_put _ _ (by decide)) (State.boots_can_put _ _ _ (by decide))
  have h3 : ((v.put CANFD_CTL_EN 1).put CANFD_TTCFG_TTEN 1).get CANFD_CTL_EN = 1 := by
    rw [State.get_put_ne _ _ _ _ (by decide), State.get_put_self _ _ _ (by decide) (by decide)]
    rfl
  have h4 : ((v.put CANFD_CTL_EN 1).put CANFD_TTCFG_TTEN 1).get CANFD_TTCFG_TTEN = 1 := by
    rw [State.get_put_self _ _ _ (by decide) (by decide)]
    rfl
  generalize (v.put CANFD_CTL_EN 1).put CANFD_TTCFG_TTEN 1 = w at *
  obtain ⟨h5, h6⟩ := w.boots_ttEnable
  exact ⟨State.boots_trans h1 (State.boots_trans h2 h5), (State.get_of_rd (h6 CANFD_CTL (by decide) (by decide))).trans h3,
    (State.get_of_rd (h6 CANFD_TTCFG (by decide) (by decide))).trans h4⟩

/-- The sequencer at step 3 and the branches to open in sequence. -/
def State.stepThree (u : State) : State :=
  { u with pwr := { u.pwr with step := 3, stepAt := u.now }, tuyere := { u.tuyere with seq := true } }

/-- What it leaves. -/
theorem State.stepThree_facts (u : State) : (∀ r, u.stepThree.rd r = u.rd r) ∧ u.stepThree.mem = u.mem ∧ u.stepThree.hammer = u.hammer ∧
    u.stepThree.secb = u.secb ∧ u.stepThree.pwr = { u.pwr with step := 3, stepAt := u.now } ∧ u.stepThree.tuyere.seq = true :=
  ⟨fun _ => rfl, rfl, rfl, rfl, rfl, rfl⟩

theorem State.startFirmware_eq (u : State) :
    u.startFirmware = (((u.linkOn.stepThree.fixedOpen 8).fixedOpen 9).vRetarget 9).put BELLOWS_PWRSTAT_STATE 2 := by
  unfold State.startFirmware State.linkOn State.stepThree State.fixedOpen
  dsimp only
  generalize (((u.boardMatrix.loadOwner ownerRegs).put CANFD_CTL_EN 1).put CANFD_TTCFG_TTEN 1).ttEnable true = a
  rw [List.foldl_cons, List.foldl_cons, List.foldl_nil]

theorem State.started_startFirmware (u : State) : u.started u.startFirmware := by
  rw [u.startFirmware_eq]
  obtain ⟨h1, h2, h3⟩ := u.linkOn_facts
  generalize u.linkOn = a at *
  -- the step
  obtain ⟨b1, bm, bh, bs, bp, bq⟩ := a.stepThree_facts
  generalize a.stepThree = b at *
  -- the branches
  have c := b.commanded_fixedOpen 8
  generalize b.fixedOpen 8 = c' at *
  have d := c'.commanded_fixedOpen 9
  generalize c'.fixedOpen 9 = d' at *
  have e := d'.valved_vRetarget 9
  generalize d'.vRetarget 9 = e' at *
  have hrest : e'.mem = b.mem ∧ e'.hammer = b.hammer ∧ e'.secb = b.secb ∧ e'.pwr = b.pwr ∧ d'.tuyere = b.tuyere := by
    rw [e.rest, d.rest, c.rest]
    exact ⟨rfl, rfl, rfl, rfl, rfl⟩
  obtain ⟨em, eh, es, ep, et⟩ := hrest
  have hrd : ∀ r, r ≠ TUYERE_VSTAT 9 → r ≠ TUYERE_VCMD 8 → r ≠ TUYERE_VCMD 9 → e'.rd r = a.rd r := fun r r1 r2 r3 =>
    (e.regs r r1).trans ((d.regs r r3).trans ((c.regs r r2).trans (b1 r)))
  have hput : ∀ f : Fd, f.addr ≠ BELLOWS_PWRSTAT → (e'.put BELLOWS_PWRSTAT_STATE 2).get f = e'.get f := fun f hf => State.get_put_ne _ _ _ _ hf
  have hstate : (e'.put BELLOWS_PWRSTAT_STATE 2).get BELLOWS_PWRSTAT_STATE = 2 := by
    rw [State.get_put_self _ _ _ (by decide) (by decide)]
    rfl
  have hmore := e'.put_rest BELLOWS_PWRSTAT_STATE 2
  generalize e'.put BELLOWS_PWRSTAT_STATE 2 = v at *
  have hv : v.mem = e'.mem ∧ v.hammer = e'.hammer ∧ v.secb = e'.secb ∧ v.pwr = e'.pwr ∧ v.tuyere = e'.tuyere := by
    rw [hmore]
    exact ⟨rfl, rfl, rfl, rfl, rfl⟩
  obtain ⟨vm, vh, vs, vp, vt⟩ := hv
  have hget : ∀ f : Fd, f.addr ≠ BELLOWS_PWRSTAT → f.addr ≠ TUYERE_VSTAT 9 → f.addr ≠ TUYERE_VCMD 8 → f.addr ≠ TUYERE_VCMD 9 →
      v.get f = a.get f := fun f f0 f1 f2 f3 => (hput f f0).trans (State.get_of_rd (hrd _ f1 f2 f3))
  have hcmd : ∀ c0 ∈ [8, 9], ∀ f : Fd, f.addr = TUYERE_VCMD c0 → v.get f = d'.get f := fun c0 hc f hf => by
    refine (hput f ?_).trans (State.get_of_rd (e.regs _ ?_)) <;> rw [hf] <;> simp only [TUYERE_VCMD, TUYERE_VSTAT, BELLOWS_PWRSTAT] <;> omega
  refine ⟨vm.trans (em.trans (bm.trans h1.mem)), vh.trans (eh.trans (bh.trans h1.hammer)), vs.trans (es.trans (bs.trans h1.secb)),
    (hget BELLOWS_ERRSUM_SEC (by decide) (by decide) (by decide) (by decide)).trans h1.sec, ?_, ?_,
    beq_iff_eq.mpr ((hget CANFD_CTL_EN (by decide) (by decide) (by decide) (by decide)).trans h2),
    beq_iff_eq.mpr ((hget CANFD_TTCFG_TTEN (by decide) (by decide) (by decide) (by decide)).trans h3), fun c0 hc => ?_, hstate, ?_⟩
  · rw [vp, ep, bp, h1.pwr, h1.now]
  · rw [vt, e.seq, et]
    exact bq
  · rcases List.mem_pair.mp hc with rfl | rfl
    · have hne : TUYERE_VCMD 8 ≠ TUYERE_VCMD 9 := by decide
      exact ⟨(hcmd 8 hc _ rfl).trans ((State.get_of_rd (d.regs _ hne)).trans c.mode),
        (congrArg (· == 1) ((hcmd 8 hc _ rfl).trans (State.get_of_rd (d.regs _ hne)))).trans c.fixed⟩
    · exact ⟨(hcmd 9 hc _ rfl).trans d.mode, (congrArg (· == 1) (hcmd 9 hc _ rfl)).trans d.fixed⟩
  · refine (hget SEC_SECSTAT_FWSVN (by decide) (by decide) (by decide) (by decide)).trans (State.get_of_rd (h1.regs SEC_SECSTAT ?_ (by decide)))
    unfold linkRegs
    simp only [SEC_SECSTAT, Set.mem_ofPred_eq]
    omega

end Sys2Proof.Machine
end

