-- ==== Sys2Proof/Proofs/RomBoot.lean ====
section
/-! BringUp (O50), the ROM's choice of a slot, and the obligation put together. -/

namespace Sys2Proof.Machine

/-! ### The ROM chooses -/

/-- The verdict on a slot rests on the security state alone. -/
theorem State.slotCheck_congr {u v : State} (h : v.secb = u.secb) (k : Nat) (e : Bool) : v.slotCheck k e = u.slotCheck k e := by
  have hs : v.slot k = u.slot k := by unfold State.slot; rw [h]
  have hc : ∀ i, v.counter i = u.counter i := fun i => by unfold State.counter; rw [h]
  unfold State.slotCheck
  rw [hs, hc, hc]

/-- Whether the ROM finds a slot valid (R608, R609). -/
def State.slotGood (s : State) (k : Nat) (e : Bool) : Bool := s.slotCheck k e == 0 && !(s.slot k).invalid

theorem State.slotGood_congr {u v : State} (h : v.secb = u.secb) (k : Nat) (e : Bool) : v.slotGood k e = u.slotGood k e := by
  unfold State.slotGood
  rw [State.slotCheck_congr h, show v.slot k = u.slot k by unfold State.slot; rw [h]]

theorem State.slotValid_facts (u : State) (k : Nat) (e : Bool) : (u.slotValid k e).1 = u.slotGood k e ∧ u.boots (u.slotValid k e).2.2 ∅ := by
  unfold State.slotValid State.slotGood
  extract_lets c
  by_cases hc : c = 0
  · rw [if_neg (by simp [hc])]
    by_cases hi : (u.slot k).invalid = true
    · rw [if_pos hi]
      exact ⟨by simp [hi], u.boots_fresh _⟩
    · rw [if_neg hi]
      exact ⟨by simp [hi, show u.slotCheck k e = 0 from hc], u.boots_refl _⟩
  · rw [if_pos hc]
    exact ⟨by simp [show ¬ u.slotCheck k e = 0 from hc], u.boots_refl _⟩

/-- The better of the slots that are valid (R608). -/
def State.romBest (s : State) (x y : Bool) : Option Nat :=
  if x && y then some (if (s.slot 1).svn ≤ (s.slot 0).svn then 0 else 1) else if x then some 0 else if y then some 1 else none

/-- Whether a trial slot is run once more. -/
def State.romAgain (s : State) (a b : Bool) (k : Nat) : Bool := (if k = 0 then a else b) && Decidable.decide (s.secb.tries < 2)

/-- The slot that the ROM runs (R608). -/
def State.romPick (s : State) (a b : Bool) : Option Nat :=
  match s.secb.trial with
  | none => s.romBest a b
  | some k => if s.romAgain a b k then some k else s.romBest (k != 0 && a) (k == 0 && b)

/-- What the boot does to the trial (R608). -/
def State.trialTold (s v : State) (a b : Bool) : Prop :=
  match s.secb.trial with
  | none => v.secb.trial = none ∧ v.secb.tries = s.secb.tries
  | some k => if s.romAgain a b k = true then v.secb.trial = some k ∧ v.secb.tries = s.secb.tries + 1
    else v.secb.trial = none ∧ (v.slot k).rejected = true ∧ v.on BELLOWS_ERRSUM_SEC = true

/-- From `u` to `v` the ROM chose. -/
structure State.romChose (u v : State) (a b : Bool) : Prop where
  trial : u.trialTold v a b
  mem : v.mem = u.mem
  hammer : v.hammer = u.hammer
  pwr : v.pwr = u.pwr
  tuyere : v.tuyere = u.tuyere
  now : v.now = u.now
  running : v.secb.running = u.secb.running
  version : ∀ k, (v.slot k).svn = (u.slot k).svn

/-- A slot after one was put. -/
theorem State.slot_setSlot_svn (u : State) (k j : Nat) : ((u.setSlot k { u.slot k with rejected := true }).slot j).svn = (u.slot j).svn := by
  unfold State.setSlot State.slot
  split <;> split <;> rfl

theorem State.slot_setSlot_rejected (u : State) (k : Nat) : ((u.setSlot k { u.slot k with rejected := true }).slot k).rejected = true := by
  unfold State.setSlot State.slot
  split <;> rfl

/-- Only the security state is put with a slot. -/
theorem State.setSlot_rest (u : State) (k : Nat) (f : FwSlot) : u.setSlot k f = { u with secb := (u.setSlot k f).secb } ∧
    (u.setSlot k f).secb.trial = u.secb.trial ∧ (u.setSlot k f).secb.tries = u.secb.tries ∧ (u.setSlot k f).secb.running = u.secb.running := by
  unfold State.setSlot
  split <;> exact ⟨rfl, rfl, rfl, rfl⟩

/-- No slot is on trial. -/
def State.trialOver (s : State) : State := { s with secb := { s.secb with trial := none } }

theorem State.trialOver_facts (x : State) : (x.trialOver.mem = x.mem ∧ x.trialOver.hammer = x.hammer ∧ x.trialOver.pwr = x.pwr ∧
    x.trialOver.tuyere = x.tuyere ∧ x.trialOver.now = x.now) ∧ x.trialOver.secb.trial = none ∧ x.trialOver.secb.running = x.secb.running ∧
    ∀ j, x.trialOver.slot j = x.slot j := ⟨⟨rfl, rfl, rfl, rfl, rfl⟩, rfl, rfl, fun _ => rfl⟩

/-- A trial given up: its slot is rejected, and that is recorded (R608). -/
def State.trialGivenUp (s : State) (k tries : Nat) (run : Option Nat) : State :=
  let s := (s.setSlot k { s.slot k with rejected := true }).trialOver
  let (w, s) := match run with | some r => (r, s) | none => s.fresh (2 ^ 32)
  (s.put BELLOWS_ERRSUM_SEC 1).eventIrq 32 0x0B02 2 secSrc k w tries

/-- The record of a trial given up. -/
theorem State.trialGivenUp_record (u : State) (w k tries : Nat) : let v := (u.put BELLOWS_ERRSUM_SEC 1).eventIrq 32 0x0B02 2 secSrc k w tries
    v.on BELLOWS_ERRSUM_SEC = true ∧ v.mem = u.mem ∧ v.hammer = u.hammer ∧ v.pwr = u.pwr ∧ v.secb = u.secb ∧ v.tuyere = u.tuyere ∧ v.now = u.now := by
  have h1 : (u.put BELLOWS_ERRSUM_SEC 1).get BELLOWS_ERRSUM_SEC = 1 := by
    rw [State.get_put_self _ _ _ (by decide) (by decide)]
    rfl
  have h2 := u.put_rest BELLOWS_ERRSUM_SEC 1
  generalize u.put BELLOWS_ERRSUM_SEC 1 = x at *
  have h3 : x.boots (x.eventIrq 32 0x0B02 2 secSrc k w tries) ∅ := x.boots_eventIrq _ _ _ _ _ _ _ (by decide)
  generalize x.eventIrq 32 0x0B02 2 secSrc k w tries = v at *
  refine ⟨beq_iff_eq.mpr (h3.sec.trans h1), h3.mem.trans ?_, h3.hammer.trans ?_, h3.pwr.trans ?_, h3.secb.trans ?_, h3.tuyere.trans ?_,
    h3.now.trans ?_⟩ <;> rw [h2]

/-- What a trial given up leaves. -/
structure State.gaveUp (u v : State) (k : Nat) : Prop where
  trial : v.secb.trial = none
  rejected : (v.slot k).rejected = true
  sec : v.on BELLOWS_ERRSUM_SEC = true
  mem : v.mem = u.mem
  hammer : v.hammer = u.hammer
  pwr : v.pwr = u.pwr
  tuyere : v.tuyere = u.tuyere
  now : v.now = u.now
  running : v.secb.running = u.secb.running
  version : ∀ j, (v.slot j).svn = (u.slot j).svn

theorem State.gaveUp_trialGivenUp (u : State) (k tries : Nat) (run : Option Nat) : u.gaveUp (u.trialGivenUp k tries run) k := by
  unfold State.trialGivenUp
  obtain ⟨h1, -, -, h2⟩ := u.setSlot_rest k { u.slot k with rejected := true }
  have h3 := u.slot_setSlot_svn k
  have h4 := u.slot_setSlot_rejected k
  generalize u.setSlot k { u.slot k with rejected := true } = x at *
  have h5 : x.mem = u.mem ∧ x.hammer = u.hammer ∧ x.pwr = u.pwr ∧ x.tuyere = u.tuyere ∧ x.now = u.now := by
    rw [h1]
    exact ⟨rfl, rfl, rfl, rfl, rfl⟩
  obtain ⟨xm, xh, xp, xt, xn⟩ := h5
  -- the trial ended
  obtain ⟨⟨ym, yh, yp, yt, yn⟩, ytr, yr, ys⟩ := x.trialOver_facts
  generalize x.trialOver = y at *
  -- the record
  have key : ∀ p : Nat × State, y.boots p.2 ∅ → u.gaveUp ((p.2.put BELLOWS_ERRSUM_SEC 1).eventIrq 32 0x0B02 2 secSrc k p.1 tries) k := by
    rintro ⟨w, z⟩ hz
    obtain ⟨r1, r2, r3, r4, r5, r6, r7⟩ := z.trialGivenUp_record w k tries
    generalize (z.put BELLOWS_ERRSUM_SEC 1).eventIrq 32 0x0B02 2 secSrc k w tries = v at *
    have hsb : v.secb = y.secb := r5.trans hz.secb
    have hsl : ∀ j, v.slot j = x.slot j := fun j => by rw [← ys j]; unfold State.slot; rw [hsb]
    exact ⟨by rw [hsb]; exact ytr, by rw [hsl]; exact h4, r1, r2.trans (hz.mem.trans (ym.trans xm)), r3.trans (hz.hammer.trans (yh.trans xh)),
      r4.trans (hz.pwr.trans (yp.trans xp)), r6.trans (hz.tuyere.trans (yt.trans xt)), r7.trans (hz.now.trans (yn.trans xn)),
      by rw [hsb, yr]; exact h2, fun j => by rw [hsl]; exact h3 j⟩
  cases run with
  | some r => exact key (r, y) (y.boots_refl _)
  | none => exact key (y.fresh (2 ^ 32)) (y.boots_fresh _)

/-- A trial slot not run again is given up, whatever number of tries the record shows. -/
theorem State.chooseSlot_trial (u : State) (a b : Bool) {k : Nat} (ht : u.secb.trial = some k) (hg : u.romAgain a b k = false) :
    ∃ tries, u.chooseSlot a b =
      (u.romBest (k != 0 && a) (k == 0 && b), u.trialGivenUp k tries (u.romBest (k != 0 && a) (k == 0 && b))) := by
  have hb : ∀ x y, u.bestSlot x y = u.romBest x y := fun _ _ => rfl
  unfold State.chooseSlot State.trialGivenUp State.trialOver
  rw [ht]
  refine ⟨(u.setSlot k { u.slot k with rejected := true }).secb.tries, ?_⟩
  refine (if_neg (fun h => absurd (show u.romAgain a b k = true from h) (by rw [hg]; decide))).trans ?_
  dsimp only
  rewrite [hb]
  generalize u.setSlot k { u.slot k with rejected := true } = x
  cases u.romBest (k != 0 && a) (k == 0 && b) <;> rfl

/-- The ROM's choice (R608). -/
theorem State.romChose_chooseSlot (u : State) (a b : Bool) : (u.chooseSlot a b).1 = u.romPick a b ∧ u.romChose (u.chooseSlot a b).2 a b := by
  cases ht : u.secb.trial with
  | none =>
    have hc : u.chooseSlot a b = (u.romBest a b, u) := by
      unfold State.chooseSlot
      rw [ht]
      rfl
    rw [hc]
    refine ⟨?_, ?_, rfl, rfl, rfl, rfl, rfl, rfl, fun _ => rfl⟩
    · unfold State.romPick
      rw [ht]
    · unfold State.trialTold
      rw [ht]
      exact ⟨rfl, rfl⟩
  | some k =>
    cases hg : u.romAgain a b k with
    | true =>
      have hc : u.chooseSlot a b = (some k, { u with secb := { u.secb with tries := u.secb.tries + 1 } }) := by
        unfold State.chooseSlot
        rw [ht]
        exact if_pos hg
      rw [hc]
      refine ⟨?_, ?_, rfl, rfl, rfl, rfl, rfl, rfl, fun _ => rfl⟩
      · unfold State.romPick
        rw [ht]
        exact (if_pos hg).symm
      · unfold State.trialTold
        rw [ht]
        dsimp only
        rw [if_pos hg]
        exact ⟨rfl, rfl⟩
    | false =>
      obtain ⟨tries, hc⟩ := u.chooseSlot_trial a b ht hg
      rw [hc]
      have g := u.gaveUp_trialGivenUp k tries (u.romBest (k != 0 && a) (k == 0 && b))
      generalize u.trialGivenUp k tries (u.romBest (k != 0 && a) (k == 0 && b)) = v at *
      refine ⟨?_, ?_, g.mem, g.hammer, g.pwr, g.tuyere, g.now, g.running, g.version⟩
      · unfold State.romPick
        rw [ht]
        exact (if_neg (by rw [hg]; decide)).symm
      · unfold State.trialTold
        rw [ht]
        dsimp only
        rw [if_neg (by rw [hg]; decide)]
        exact ⟨g.trial, g.rejected, g.sec⟩

/-! ### The ROM boots -/

/-- The registers of the security block and behind. -/
def secRegs : Set Nat := {a | 0x380000070000 ≤ a}

theorem State.boots_sec_put (u : State) (f : Fd) (x : Nat) (h : 0x380000070000 ≤ f.addr) : u.boots (u.put f x) secRegs :=
  u.boots_put f x h (by simp only [BELLOWS_ERRSUM]; omega)

theorem State.boots_secSync (u : State) : u.boots u.secSync secRegs := by
  unfold State.secSync State.putB
  extract_lets b s1 s2 s3
  have h1 : u.boots s1 secRegs := u.boots_sec_put _ _ (by decide)
  have h2 : s1.boots s2 secRegs := State.boots_trans (s1.boots_sec_put _ _ (by decide)) (State.boots_sec_put _ _ _ (by decide))
  have h3 : s2.boots s3 secRegs := s2.boots_sec_put _ _ (by decide)
  refine State.boots_trans h1 (State.boots_trans h2 (State.boots_trans h3 (State.boots_foldl _ _ (fun s p _ => s.boots_sec_put _ _ ?_) s3)))
  simp only [SEC_CNT]
  omega

theorem State.boots_newChal (u : State) : u.boots u.newChal secRegs := by
  have hw : ∀ (s : State) (i : Nat) (w : Word), s.boots (s.wr (SEC_CHAL i) w) secRegs := fun s i w =>
    s.boots_wr w (by unfold secRegs; simp only [SEC_CHAL, Set.mem_ofPred_eq]; omega) (by simp only [SEC_CHAL, BELLOWS_ERRSUM]; omega)
  have h1 : u.boots (u.fresh (2 ^ 64)).2 secRegs := u.boots_fresh _
  unfold State.newChal
  split
  next a s hs =>
  rw [hs] at h1
  have h2 : s.boots (s.fresh (2 ^ 64)).2 secRegs := s.boots_fresh _
  split
  next b w hb =>
  rw [hb] at h2
  exact State.boots_trans h1 (State.boots_trans h2 (State.boots_trans (hw _ _ _) (hw _ _ _)))

/-- The power loss no longer noted. -/
def State.lossTold (u : State) : State := { u with pwr := { u.pwr with loss := false } }

/-- What the ROM records before it judges the slots (R587). -/
theorem State.bootRecords_facts (u : State) : ∃ w, u.boots w secRegs ∧ w.lossTold.boots u.bootRecords secRegs := by
  unfold State.bootRecords
  extract_lets w
  refine ⟨w, ?_, ?_⟩
  · unfold w
    split
    · split
      next q s hq =>
      have hs : u.boots s secRegs := by
        split at hq
        · cases hq
          exact u.boots_refl _
        · have := u.boots_fresh (S := secRegs) (2 ^ 32)
          rw [hq] at this
          exact this
      exact State.boots_trans hs (s.boots_event _ _ _ _ _ _)
    · exact u.boots_refl _
  · clear_value w
    exact w.lossTold.boots_setLevel 33 _ (by decide)

/-- The watchdog's record made and its cause forgotten (R610). -/
def State.watchdogTold (u : State) : State := { u with secb := { u.secb with watchdog := none } }

theorem State.watchdogRecord_facts (u : State) : u.watchdogTold.boots u.watchdogRecord ∅ := by
  unfold State.watchdogRecord
  split
  · exact State.boots_eventIrq _ _ _ _ _ _ _ _ (by decide)
  · next h =>
    have he : u.watchdogTold = u := by
      unfold State.watchdogTold
      rw [← h]
    rw [he]
    exact u.boots_refl _

theorem State.watchdogTold_facts (u : State) : u.watchdogTold.mem = u.mem ∧ u.watchdogTold.hammer = u.hammer ∧ u.watchdogTold.tuyere = u.tuyere ∧
    u.watchdogTold.now = u.now ∧ u.watchdogTold.pwr = u.pwr ∧ u.watchdogTold.secb = { u.secb with watchdog := none } ∧
    ∀ r, u.watchdogTold.rd r = u.rd r := ⟨rfl, rfl, rfl, rfl, rfl, rfl, fun _ => rfl⟩

theorem State.boots_slotRefused (u : State) (k code : Nat) (S : Set Nat) : u.boots (u.slotRefused k code) S :=
  u.boots_eventIrq _ _ _ _ _ _ _ (by decide)

/-- The state of a boot that runs no slot, but for the sequencer (R609). -/
def State.romRefused (s : State) (ca cb : Nat) : State := ((s.slotRefused 0 ca).slotRefused 1 cb).secSync.watchdogRecord.loadOwner portRegs

/-- Bring-up stopped. -/
def State.bootStopped (s : State) : State := { s with pwr := { s.pwr with stop := true } }

theorem State.bootStopped_facts (s : State) : s.bootStopped.mem = s.mem ∧ s.bootStopped.hammer = s.hammer ∧ s.bootStopped.tuyere = s.tuyere ∧
    s.bootStopped.secb = s.secb ∧ s.bootStopped.pwr = { s.pwr with stop := true } ∧ ∀ r, s.bootStopped.rd r = s.rd r :=
  ⟨rfl, rfl, rfl, rfl, rfl, fun _ => rfl⟩

/-- A boot that runs no slot stays in recovery. -/
def State.romRecovers (s : State) (ca cb : Nat) : State := (s.romRefused ca cb).bootStopped

/-- What it leaves. -/
structure State.recovers (u v : State) : Prop where
  mem : v.mem = u.mem
  hammer : v.hammer = u.hammer
  tuyere : v.tuyere = u.tuyere
  secb : v.secb = { u.secb with watchdog := none }
  sec : u.secKept v
  pwr : v.pwr = { u.pwr with stop := true }

theorem State.recovers_romRecovers (u : State) (ca cb : Nat) : u.recovers (u.romRecovers ca cb) := by
  unfold State.romRecovers State.romRefused
  have h1 : u.boots ((u.slotRefused 0 ca).slotRefused 1 cb).secSync secRegs :=
    State.boots_trans (u.boots_slotRefused _ _ _) (State.boots_trans (State.boots_slotRefused _ _ _ _) (State.boots_secSync _))
  generalize ((u.slotRefused 0 ca).slotRefused 1 cb).secSync = w at *
  have h2 := w.watchdogRecord_facts
  obtain ⟨xm, xh, xt, -, xp, xs, xr⟩ := w.watchdogTold_facts
  generalize w.watchdogTold = x at *
  generalize w.watchdogRecord = y at *
  have h3 := y.boots_loadOwner portRegs portRegs_link
  generalize y.loadOwner portRegs = z at *
  obtain ⟨zm, zh, zt, zs, zp, zr⟩ := z.bootStopped_facts
  generalize z.bootStopped = v at *
  exact ⟨zm.trans (h3.mem.trans (h2.mem.trans (xm.trans h1.mem))), zh.trans (h3.hammer.trans (h2.hammer.trans (xh.trans h1.hammer))),
    zt.trans (h3.tuyere.trans (h2.tuyere.trans (xt.trans h1.tuyere))), zs.trans (h3.secb.trans (h2.secb.trans (xs.trans (by rw [h1.secb])))),
    State.secKept_trans h1.sec (State.secKept_trans (State.get_of_rd (xr _)) (State.secKept_trans h2.sec
      (State.secKept_trans h3.sec (State.get_of_rd (zr _))))),
    zp.trans (congrArg (fun p : Pwr => { p with stop := true }) (h3.pwr.trans (h2.pwr.trans (xp.trans h1.pwr))))⟩

/-- The slot that runs. -/
def State.runsSlot (u : State) (k : Nat) : State := { u with secb := { u.secb with running := some k } }

/-- The slot that runs is shown and recorded (R608). -/
def State.romShown (s : State) (k : Nat) : State := s.secSync.put SEC_SECSTAT_FWSVN (s.slot k).svn

/-- A boot that runs slot `k` (R598 steps 2 and 3). -/
def State.romRuns (s : State) (k : Nat) : State :=
  let w := (s.runsSlot k).romShown k
  (w.event 0x0B00 0 secSrc k (w.slot k).svn (w.slot k).keysvn).watchdogRecord.startFirmware

/-- From `u` to `v` slot `k` was started. -/
structure State.slotRuns (u v : State) (k : Nat) : Prop where
  mem : v.mem = u.mem
  hammer : v.hammer = u.hammer
  secb : v.secb = { u.secb with running := some k, watchdog := none }
  sec : u.secKept v
  pwr : v.pwr = { u.pwr with step := 3, stepAt := u.now }
  seq : v.tuyere.seq = true
  link : v.on CANFD_CTL_EN = true
  timed : v.on CANFD_TTCFG_TTEN = true
  branches : ∀ c ∈ [8, 9], v.get (TUYERE_VCMD_MODE c) = 2 ∧ v.on (TUYERE_VCMD_FIXCMD c) = true
  state : v.get BELLOWS_PWRSTAT_STATE = 2
  version : v.get SEC_SECSTAT_FWSVN = (u.slot k).svn % 256

theorem State.slotRuns_romRuns (u : State) (k : Nat) : u.slotRuns (u.romRuns k) k := by
  unfold State.romRuns
  extract_lets w
  -- the slot shown
  have ha : (u.runsSlot k).mem = u.mem ∧ (u.runsSlot k).hammer = u.hammer ∧ (u.runsSlot k).pwr = u.pwr ∧ (u.runsSlot k).now = u.now ∧
      (u.runsSlot k).secb = { u.secb with running := some k } ∧ u.secKept (u.runsSlot k) ∧ (u.runsSlot k).slot k = u.slot k :=
    ⟨rfl, rfl, rfl, rfl, rfl, rfl, rfl⟩
  obtain ⟨am, ah, ap, an, as', ak, asl⟩ := ha
  have hw : (u.runsSlot k).boots w secRegs ∧ w.get SEC_SECSTAT_FWSVN = (u.slot k).svn % 256 := by
    unfold w State.romShown
    rw [asl]
    refine ⟨State.boots_trans (State.boots_secSync _) (State.boots_sec_put _ _ _ (by decide)), ?_⟩
    rw [State.get_put_self _ _ _ (by decide) (by decide)]
    rfl
  clear_value w
  generalize u.runsSlot k = a at *
  obtain ⟨hb, hfw⟩ := hw
  have he : w.boots (w.event 0x0B00 0 secSrc k (w.slot k).svn (w.slot k).keysvn) ∅ := w.boots_event _ _ _ _ _ _
  generalize w.event 0x0B00 0 secSrc k (w.slot k).svn (w.slot k).keysvn = e at *
  have hd := e.watchdogRecord_facts
  obtain ⟨xm, xh, -, xn, xp, xs, xr⟩ := e.watchdogTold_facts
  generalize e.watchdogTold = x at *
  generalize e.watchdogRecord = y at *
  have hs := y.started_startFirmware
  generalize y.startFirmware = v at *
  have hsec : a.secKept e := State.secKept_trans hb.sec he.sec
  have hsx : e.secKept x := State.get_of_rd (xr _)
  have hpw : y.pwr = u.pwr := hd.pwr.trans (xp.trans (he.pwr.trans (hb.pwr.trans ap)))
  have hnw : y.now = u.now := hd.now.trans (xn.trans (he.now.trans (hb.now.trans an)))
  have hver : y.get SEC_SECSTAT_FWSVN = w.get SEC_SECSTAT_FWSVN := State.get_of_rd ((hd.regs SEC_SECSTAT (by simp) (by decide)).trans
    ((xr _).trans (he.regs SEC_SECSTAT (by simp) (by decide))))
  exact ⟨hs.mem.trans (hd.mem.trans (xm.trans (he.mem.trans (hb.mem.trans am)))),
    hs.hammer.trans (hd.hammer.trans (xh.trans (he.hammer.trans (hb.hammer.trans ah)))),
    hs.secb.trans (hd.secb.trans (xs.trans (by rw [he.secb, hb.secb, as']))),
    State.secKept_trans ak (State.secKept_trans hsec (State.secKept_trans hsx (State.secKept_trans hd.sec hs.sec))),
    by rw [hs.pwr, hpw, hnw], hs.seq, hs.link, hs.timed, hs.branches, hs.state, hs.version.trans (hver.trans hfw)⟩

/-- The state in which the ROM has judged both slots. -/
def State.romJudged (b : State) (eA eB : Bool) : State := ((b.slotValid 0 eA).2.2.slotValid 1 eB).2.2

/-- What follows the ROM's choice: the slot chosen runs, or the module stays in recovery, with the codes of the slots recorded. -/
def State.romActs (p : Option Nat × State) (ca cb : Nat) : State :=
  match p.1 with
  | none => p.2.romRecovers ca cb
  | some k => p.2.romRuns k

/-- What the ROM does from where it judges the slots (R598 step 2). -/
theorem exec_romBoot {s b : State} {t : Nat} (eA eB : Bool) (ha : s.pwr.alive = true) (hs : s.pwr.step = 2) (hp : s.pwr.stop = false)
    (hb : (s.at t).newChal.bootRecords = b) : ∃ ca cb, exec (.romBoot eA eB t) s =
      .next (State.romActs ((b.romJudged eA eB).chooseSlot (b.slotGood 0 eA) (b.slotGood 1 eB)) ca cb) := by
  have hA := b.slotValid_facts 0 eA
  have hst := s.pwr_at t
  rw [← hst] at ha hs hp
  rw [show exec (.romBoot eA eB t) s = execRomBoot eA eB t s from rfl]
  unfold execRomBoot State.romJudged
  dsimp only
  rw [if_neg (by simp [ha, hs, hp]), hb]
  -- slot A
  rcases hp1 : b.slotValid 0 eA with ⟨A, ca, c⟩
  rw [hp1] at hA
  obtain ⟨hA1, hA2⟩ := hA
  have hB := c.slotValid_facts 1 eB
  dsimp only at hA1 hA2 ⊢
  -- slot B
  rcases hp2 : c.slotValid 1 eB with ⟨B, cb, d⟩
  rw [hp2] at hB
  obtain ⟨hB1, -⟩ := hB
  dsimp only at hB1 ⊢
  rw [State.slotGood_congr hA2.secb] at hB1
  rw [← hA1, ← hB1]
  -- the choice
  rcases d.chooseSlot A B with ⟨_ | k, e⟩
  · refine ⟨if A then 7 else ca, if B then 7 else cb, ?_⟩
    unfold State.romActs State.romRecovers State.romRefused State.bootStopped
    dsimp only
  · refine ⟨0, 0, ?_⟩
    unfold State.romActs State.romRuns State.romShown State.runsSlot
    dsimp only

/-- Where the ROM begins to judge: the power loss is told, and nothing else of the rest has changed. -/
structure State.romBegun (s b : State) (t : Nat) : Prop where
  mem : b.mem = s.mem
  hammer : b.hammer = s.hammer
  tuyere : b.tuyere = s.tuyere
  secb : b.secb = s.secb
  pwr : b.pwr = { s.pwr with loss := false }
  now : b.now = (s.at t).now

theorem State.lossTold_facts (u : State) : u.lossTold.mem = u.mem ∧ u.lossTold.hammer = u.hammer ∧ u.lossTold.tuyere = u.tuyere ∧
    u.lossTold.secb = u.secb ∧ u.lossTold.pwr = { u.pwr with loss := false } ∧ u.lossTold.now = u.now := ⟨rfl, rfl, rfl, rfl, rfl, rfl⟩

theorem State.romBegun_bootRecords (s : State) (t : Nat) : s.romBegun (s.at t).newChal.bootRecords t := by
  obtain ⟨m, c, hat⟩ := s.at_eq t
  have hs : (s.at t).mem = s.mem ∧ (s.at t).hammer = s.hammer ∧ (s.at t).tuyere = s.tuyere ∧ (s.at t).secb = s.secb ∧ (s.at t).pwr = s.pwr := by
    rw [hat]
    exact ⟨rfl, rfl, rfl, rfl, rfl⟩
  obtain ⟨sm, sh, st, ss, sp⟩ := hs
  clear hat
  have h1 := (s.at t).boots_newChal
  obtain ⟨w, h2, h3⟩ := (s.at t).newChal.bootRecords_facts
  obtain ⟨wm, wh, wt, ws, wp, wn⟩ := w.lossTold_facts
  generalize (s.at t).newChal.bootRecords = b at *
  generalize (s.at t).newChal = x at *
  have h := State.boots_trans h1 h2
  exact ⟨h3.mem.trans (wm.trans (h.mem.trans sm)), h3.hammer.trans (wh.trans (h.hammer.trans sh)), h3.tuyere.trans (wt.trans (h.tuyere.trans st)),
    h3.secb.trans (ws.trans (h.secb.trans ss)), h3.pwr.trans (wp.trans (by rw [h.pwr, sp])), h3.now.trans (wn.trans h.now)⟩

theorem State.boots_romJudged (b : State) (eA eB : Bool) : b.boots (b.romJudged eA eB) ∅ :=
  State.boots_trans (b.slotValid_facts 0 eA).2 (State.slotValid_facts _ 1 eB).2

/-- The trial's fate rests on the security state and its summary. -/
theorem State.trialTold_congr {s s' v v' : State} {a b : Bool} (h : s.trialTold v a b) (hs : s.secb = s'.secb)
    (ht : v'.secb.trial = v.secb.trial) (hn : v'.secb.tries = v.secb.tries) (hl : ∀ k, v'.slot k = v.slot k)
    (hk : v.secKept v') : s'.trialTold v' a b := by
  have hag : ∀ k, s.romAgain a b k = s'.romAgain a b k := fun k => by unfold State.romAgain; rw [hs]
  have hon : v'.on BELLOWS_ERRSUM_SEC = v.on BELLOWS_ERRSUM_SEC := congrArg (· == 1) hk
  unfold State.trialTold at h ⊢
  rw [← hs, ht, hn, hon]
  cases hc : s.secb.trial with
  | none =>
    rw [hc] at h
    exact h
  | some k =>
    rw [hc] at h
    dsimp only at h ⊢
    rw [← hag, hl]
    exact h

theorem State.romPick_congr {s s' : State} (hs : s.secb = s'.secb) (a b : Bool) : s.romPick a b = s'.romPick a b := by
  have hsl : ∀ k, s.slot k = s'.slot k := fun k => by unfold State.slot; rw [hs]
  have hb : ∀ x y, s.romBest x y = s'.romBest x y := fun x y => by unfold State.romBest; rw [hsl, hsl]
  have hag : ∀ k, s.romAgain a b k = s'.romAgain a b k := fun k => by unfold State.romAgain; rw [hs]
  unfold State.romPick
  rw [← hs]
  cases s.secb.trial with
  | none => exact hb a b
  | some k =>
    dsimp only
    rw [hag, hb]

/-- What the boot shows. -/
def State.romShows (s v : State) (now : Nat) (o : Option Nat) : Prop :=
  match o with
  | some k => v.secb.running = some k ∧ v.get SEC_SECSTAT_FWSVN = (s.slot k).svn % 256 ∧ v.get BELLOWS_PWRSTAT_STATE = 2 ∧
      v.pwr = { s.pwr with loss := false, step := 3, stepAt := now } ∧ v.tuyere.seq = true ∧
      v.on CANFD_CTL_EN = true ∧ v.on CANFD_TTCFG_TTEN = true ∧ (∀ c ∈ [8, 9], v.get (TUYERE_VCMD_MODE c) = 2 ∧ v.on (TUYERE_VCMD_FIXCMD c) = true)
  | none => v.secb.running = s.secb.running ∧ v.pwr = { s.pwr with loss := false, stop := true } ∧ v.tuyere = s.tuyere

/-- The ROM boots (R598 step 2, R608, R609). -/
theorem romBoot_runs (s : State) (t : Nat) (eA eB : Bool) (ha : s.pwr.alive = true) (hs : s.pwr.step = 2) (hp : s.pwr.stop = false) :
    s.runs (.romBoot eA eB t) (fun v => v.mem = s.mem ∧ v.hammer = s.hammer ∧ s.trialTold v (s.slotGood 0 eA) (s.slotGood 1 eB) ∧
      v.secb.watchdog = none ∧ s.romShows v (s.at t).now (s.romPick (s.slotGood 0 eA) (s.slotGood 1 eB))) := by
  have hb := s.romBegun_bootRecords t
  obtain ⟨ca, cb, hex⟩ := exec_romBoot eA eB ha hs hp rfl
  refine ⟨_, hex, ?_⟩
  clear hex
  generalize (s.at t).newChal.bootRecords = b at *
  have hd := b.boots_romJudged eA eB
  generalize b.romJudged eA eB = d at *
  have hsec : d.secb = s.secb := hd.secb.trans hb.secb
  rw [State.slotGood_congr hb.secb, State.slotGood_congr hb.secb]
  generalize s.slotGood 0 eA = A
  generalize s.slotGood 1 eB = B
  obtain ⟨hpick, hch⟩ := d.romChose_chooseSlot A B
  rw [State.romPick_congr hsec] at hpick
  generalize d.chooseSlot A B = p at *
  obtain ⟨o, e⟩ := p
  dsimp only at hpick hch
  have hpwr : e.pwr = { s.pwr with loss := false } := hch.pwr.trans (hd.pwr.trans hb.pwr)
  have hnow : e.now = (s.at t).now := hch.now.trans (hd.now.trans hb.now)
  rw [← hpick]
  cases o with
  | none =>
    have hv := e.recovers_romRecovers ca cb
    have hact : State.romActs (none, e) ca cb = e.romRecovers ca cb := rfl
    rw [hact]
    generalize e.romRecovers ca cb = v at *
    refine ⟨hv.mem.trans (hch.mem.trans (hd.mem.trans hb.mem)), hv.hammer.trans (hch.hammer.trans (hd.hammer.trans hb.hammer)),
      State.trialTold_congr hch.trial hsec (by rw [hv.secb]) (by rw [hv.secb]) (fun k => by unfold State.slot; rw [hv.secb]) hv.sec,
      by rw [hv.secb], ?_, ?_, hv.tuyere.trans (hch.tuyere.trans (hd.tuyere.trans hb.tuyere))⟩
    · rw [hv.secb]
      exact hch.running.trans (by rw [hsec])
    · rw [hv.pwr, hpwr]
  | some k =>
    have hv := e.slotRuns_romRuns k
    have hact : State.romActs (some k, e) ca cb = e.romRuns k := rfl
    rw [hact]
    generalize e.romRuns k = v at *
    have hsvn : (e.slot k).svn = (s.slot k).svn := (hch.version k).trans (by unfold State.slot; rw [hsec])
    exact ⟨hv.mem.trans (hch.mem.trans (hd.mem.trans hb.mem)), hv.hammer.trans (hch.hammer.trans (hd.hammer.trans hb.hammer)),
      State.trialTold_congr hch.trial hsec (by rw [hv.secb]) (by rw [hv.secb]) (fun k => by unfold State.slot; rw [hv.secb]) hv.sec,
      by rw [hv.secb], by rw [hv.secb], by rw [hv.version, hsvn], hv.state, by rw [hv.pwr, hpwr, hnow], hv.seq, hv.link, hv.timed, hv.branches⟩

/-- Settles O50. That the PLL's lock ends steps 5 and 6 together, and what `RSTSTAT` and `STATE` show of a bring-up that failed there, are
the model's choice (assumption log 104 and 105). -/
theorem bringUp : Obligations.BringUp := by
  unfold Obligations.BringUp
  intro s t u
  refine ⟨coldReset_runs s t, fun eA eB ha hs hp => ?_, pllLock_runs s t, bringupReady_runs s t,
    fun ha hp => ⟨bringupTimeout_early ha hp, bringupTimeout_late ha hp⟩⟩
  intro a b best again pick
  exact romBoot_runs s t eA eB ha hs hp

end Sys2Proof.Machine
end
